-- ==== Sys2Proof/Word.lean ====
section
/-! DEFINITION. The word types of the Cedin and the sparse canonical store that every register file and memory uses. -/

namespace Sys2Proof

/-- A 32-bit register value (R74). -/
abbrev Word := BitVec 32
/-- A 64-bit value: a counter, a global address, a register pair (R50, R74). -/
abbrev DWord := BitVec 64
/-- One byte of memory (R3). -/
abbrev Byte := BitVec 8
/-- A set of lanes of one warp; bit l stands for lane l (R74). -/
abbrev LaneSet := BitVec 32
/-- A register field of an instruction word, 11 bits (R47). -/
abbrev Reg := BitVec 11

/-- A sparse store: pairs of key and value, keys strictly rising, no pair equal to the default. -/
abbrev Sparse (α : Type) := List (Nat × α)

end Sys2Proof
end

