-- ==== Sys2Proof/Syntax.lean ====
section
/-! DEFINITION. The whole syntax: one constructor per row of spec/opcode_table.json. The rows of the instruction
words come first, in the order of R60, and the rows of the machine's other indivisible steps (the events of
spec/95_what_each_step_holds.md) follow. -/

namespace Sys2Proof

/-- The fields common to every instruction word: park marker, guard index, guard negate, KEEP (R47). -/
structure Hdr where
  pk : Bool
  gp : BitVec 7
  gn : Bool
  keep : BitVec 2
  deriving DecidableEq, Repr, Inhabited

/-- The operand that a queue pop supplies in a form X word, and the queue (R53, R55). -/
inductive Pop where
  | none
  | a (q : BitVec 3)
  | b (q : BitVec 3)
  | c (q : BitVec 3)
  deriving DecidableEq, Repr

/-- A source that is a register in the 64-bit form and a 32-bit immediate in form I (R54). -/
inductive SrcB where
  | reg (r : Reg)
  | imm (v : Word)
  deriving DecidableEq, Repr

/-- The three source fields of a form X word with the pop of R53. -/
structure Src3 where
  a : Reg
  b : Reg
  c : Reg
  pop : Pop
  deriving DecidableEq, Repr

/-- The sources of a form that takes its third operand from C (96 bits) or from bits [127:96] (128 bits, C = 0). -/
inductive SrcX where
  | reg (x : Src3)
  | imm (a b : Reg) (pop : Pop) (v : Word)
  deriving DecidableEq, Repr

/-- An address operand: base field A, and the offset of form I when one is given (R57). -/
structure Addr where
  base : Reg
  off : Option Word
  deriving DecidableEq, Repr

/-- The operands of a store-like word: A base, B data; the 128-bit form adds an offset and a pop (R57, R205). -/
inductive StAddr where
  | short (a b : Reg)
  | long (a b : Reg) (pop : Pop) (off : Word)
  deriving DecidableEq, Repr

/-- Type field T of R97. -/
inductive ITy where
  | s32 | n32 | s64 | n64
  deriving DecidableEq, Repr, Inhabited

/-- Types of the bitwise instructions (R97). -/
inductive BTy where
  | b32 | b64
  deriving DecidableEq, Repr

/-- Integer conditions (R115). -/
inductive ICond where
  | eq | ne | lt | le | gt | ge
  deriving DecidableEq, Repr

/-- Floating-point conditions (R142). -/
inductive FCond where
  | eq | ne | lt | le | gt | ge | num | nan | equ | neu | ltu | leu | gtu | geu
  deriving DecidableEq, Repr

/-- Format field P of R133. -/
inductive FTy where
  | f32 | f16 | bf16
  deriving DecidableEq, Repr

/-- Packed half formats (R148). -/
inductive HTy where
  | f16 | bf16
  deriving DecidableEq, Repr

/-- Field RM of R133: the dynamic mode, or a mode named by the instruction. -/
inductive RMode where
  | dyn | rne | rz | ru | rd
  deriving DecidableEq, Repr

/-- Modes of XLANE (R123). -/
inductive XMode where
  | idx | rot | sft | xor
  deriving DecidableEq, Repr

/-- Operations of REDUX (R125). -/
inductive RedOp where
  | add | min | max | and | or | xor
  deriving DecidableEq, Repr

/-- Operations of WOP (R128). -/
inductive WOpK where
  | add | sub | mul | and | or | xor | shl | shr | sar | min | max
  deriving DecidableEq, Repr

/-- Types of REDUX and WOP, index types of LEA and LEAX (R119, R125, R128). -/
inductive T32 where
  | s32 | n32
  deriving DecidableEq, Repr

/-- Access sizes of R201. -/
inductive Sz where
  | n8 | s8 | n16 | s16 | b32 | b64
  deriving DecidableEq, Repr

/-- Store sizes of R201. -/
inductive StSz where
  | b8 | b16 | b32 | b64
  deriving DecidableEq, Repr

/-- Cache hints of R201. -/
inductive Hint where
  | none | ef | na
  deriving DecidableEq, Repr

/-- Integer atomic operations of R211 that take one operand. -/
inductive AOp where
  | add | min | max | and | or | xor | exch | inc | dec
  deriving DecidableEq, Repr

/-- Posted integer reductions of R211: every operation but exchange and compare-and-swap. -/
inductive ROp where
  | add | min | max | and | or | xor | inc | dec
  deriving DecidableEq, Repr

/-- Float atomic operations of R212. -/
inductive FAOp where
  | add | min | max
  deriving DecidableEq, Repr

/-- Operands of ATOM: one operand in 64 and 128 bits; compare-and-swap in 96 and 128 bits (R211). -/
inductive AtomArg where
  | op (o : AOp) (x : StAddr)
  | cas (x : Src3)
  | casOff (x : Src3) (off : Word)
  deriving DecidableEq, Repr

/-- Scope codes of R217. -/
inductive Scope where
  | wg | core | gang | clu | die | dev | sys
  deriving DecidableEq, Repr, Inhabited

/-- The counters c.* with the codes of R214. -/
inductive Ctr where
  | ld | st | cpy | mxi | mx | gat | col | acc
  deriving DecidableEq, Repr

/-- Targets of PREF (R221). -/
inductive PrefTo where
  | l1 | l2 | kiln
  deriving DecidableEq, Repr

/-- Directions of CPYA (R231). -/
inductive CpyDir where
  | g2s | s2g | g2g | s2s
  deriving DecidableEq, Repr

/-- Type codes of the conversions (R150). -/
inductive CTy where
  | f32 | f16 | bf16 | e4m3 | e5m2 | e3m2 | e2m3 | e2m1 | s8 | log6 | s16 | s32 | s64 | n8 | n16 | n32 | n64
  deriving DecidableEq, Repr, Inhabited

/-- Destination of SRD (R121). -/
inductive SrdDst where
  | v (d : Reg) | pair (d : Reg) | w (d : Reg)
  deriving DecidableEq, Repr

/-- Source of SWR (R122). -/
inductive SwrSrc where
  | v (a : Reg) | pair (a : Reg) | imm (v : Word)
  deriving DecidableEq, Repr

/-- Special registers with the numbers of R120. -/
inductive SReg where
  | lane | warp | wg | gang | gmem | core | clu | die | dev | clock | rgnc | parm
  | lfm | fpx | fpc | qbo | fold | htvec | hpc | hmask | hdst | hcause | hsub | tar | vbthr | asid
  deriving DecidableEq, Repr

/-- Destination of REDUX (R125). -/
inductive RedDst where
  | w (d : Reg) | v (d : Reg)
  deriving DecidableEq, Repr

/-- Float element formats of DOT4 (R149). -/
inductive NF8 where
  | e4m3 | e5m2
  deriving DecidableEq, Repr

/-- Weight formats of WLD (R260). -/
inductive WFmt where
  | f16 | bf16 | e4m3 | e5m2 | e3m2 | e2m3 | e2m1 | s8 | log6
  deriving DecidableEq, Repr, Inhabited

/-- How many entries a POPQ takes (R210). -/
inductive PopN where
  | x1 | x2 | x4
  deriving DecidableEq, Repr

/-- A core by die, cluster and logical core (R75). -/
structure CoreId where
  die : Nat
  clu : Nat
  core : Nat
  deriving DecidableEq, Repr, Inhabited

/-- What of an outstanding result arrives: some lanes, in some of its registers, each on its own (R82). -/
structure Arrival where
  lanes : LaneSet
  regs : BitVec 4
  deriving DecidableEq, Repr

/-- An engine that reads operand units, with the units that it leaves for a later step (R249). -/
structure EngineRead where
  core : CoreId
  left : BitVec 64
  deriving DecidableEq, Repr

/-- A cluster by die and cluster (R75). -/
structure CluId where
  die : Nat
  clu : Nat
  deriving DecidableEq, Repr, Inhabited

/-- A vertical bus of a core (R399). -/
inductive VBus where
  | arr | cask | kiln
  deriving DecidableEq, Repr

/-- The agents of R456 and R459. -/
inductive Agent where
  | context (ctx : Nat)
  | core (c : CoreId)
  | cluster (c : CluId)
  | memory (die : Nat)
  | cellar (die : Nat)
  | port (p : Nat)
  | peer (pkg : Nat)
  deriving DecidableEq, Repr

/-- What an uncorrectable error struck (R204, R293, R294, R325, R349, R380). -/
inductive ErrAt where
  | caskLine (ctx : Nat)
  | filterEntry (c : CluId) (asid line : Nat)
  | barrierFile (gang : Nat)
  | regionEntry (die asid region : Nat)
  | wortLine (ctx region line : Nat)
  | data (ctx : Nat)
  | scratchWay (c : CluId)
  | tableEntry (asid : Nat)
  /-- the memory that an inbound read of the host asks for (R448) -/
  | hostRead (fn bar off len : Nat)
  deriving DecidableEq, Repr

/-- What a port lost (R483). -/
inductive LightLoss where
  | wavelength | laser
  deriving DecidableEq, Repr

/-- One memory access that crosses the fabric (R391, R467). -/
inductive RemoteOp where
  | read (size : Nat)
  /-- a whole line for a remote-data copy (R388) -/
  | line
  | store (bytes : List Byte)
  | atom (op : Nat) (wide : Bool) (sgn : Bool) (b c : DWord)
  | atomf (op fmt : Nat) (b : Word)
  | marv
  | tsig (b : Word)
  deriving DecidableEq, Repr

/-- A barrier object as one address space names it (R475). -/
structure BarRef where
  asid : Nat
  obj : DWord
  deriving DecidableEq, Repr

/-- The messages between packages (R467-R496). An answer carries the line that its request concerned, for the paths of R467. -/
inductive FabMsg where
  | request (src dst : Nat) (id : Nat) (asid : Nat) (user : Bool) (va : DWord) (op : RemoteOp)
  | reply (src dst : Nat) (id : Nat) (ok : Bool) (value : DWord) (asid : Nat) (va : DWord)
  /-- a line with the expiry and the length of its lease, where the home gives one (R388) -/
  | lineReply (src dst : Nat) (id : Nat) (asid : Nat) (va : DWord) (bytes : List Byte) (lease : Option (DWord × Nat))
  | inval (src dst : Nat) (asid : Nat) (va : DWord)
  | invalAck (src dst : Nat) (asid : Nat) (va : DWord)
  | unit (src dst : Nat) (id : Nat) (asid : Nat) (user coll : Bool) (va : DWord) (bytes : List Byte)
  | unitAck (src dst : Nat) (id : Nat) (ok : Bool) (info : Nat) (asid : Nat) (va : DWord)
  /-- at most 4 KiB of a REDUCE step (R469): the lines from place `off` of the step's `total` -/
  | reduce (src dst : Nat) (coll : DWord) (step : Nat) (ctx region first : Nat) (scale : Nat) (off total : Nat)
      (lines : List (List DWord × Nat × Bool))
  /-- the answer to a REDUCE step: 0, or the INFO of R482 -/
  | reduceAck (src dst : Nat) (coll : DWord) (step : Nat) (info : Nat) (asid : Nat) (va : DWord)
  | barArrive (src dst : Nat) (asid : Nat) (obj : DWord)
  | barRelease (src dst : Nat) (obj : DWord) (lost : Option Nat) (asid : Nat)
  /-- a relay without room gives a SENDQ unit back to its sender (R471) -/
  | unitRefused (src dst : Nat) (id : Nat) (asid : Nat) (va : DWord)
  deriving DecidableEq, Repr

/-- One constructor per row of spec/opcode_table.json. -/
inductive Instr where
  -- control, R99 to R107, R165 to R168
  | nop (h : Hdr)
  | bra (h : Hdr) (off : Word)
  | brx (h : Hdr) (a : Reg)
  | call (h : Hdr) (d : Reg) (off : Word)
  | callx (h : Hdr) (d a : Reg)
  | ret (h : Hdr) (a : Reg)
  | exit (h : Hdr)
  | join (h : Hdr) (m : Reg)
  | leave (h : Hdr) (m : Reg)
  | waitm (h : Hdr) (m : Reg)
  | movmMaskFromW (h : Hdr) (m w : Reg)
  | movmWFromMask (h : Hdr) (w m : Reg)
  | movmMaskFromMask (h : Hdr) (d a : Reg)
  | movmMaskImm (h : Hdr) (m : Reg) (v : Word)
  | rgn (h : Hdr)
  | trap (h : Hdr) (code : Option (BitVec 16))
  | wcall (h : Hdr) (d a : Reg) (svc : BitVec 16)
  | rttRetry (h : Hdr)
  | rttSkip (h : Hdr)
  | rttSub (h : Hdr)
  | rttRetryRgn (h : Hdr)
  | yield (h : Hdr)
  -- integer, R108 to R122
  | iadd (h : Hdr) (t : ITy) (sat : Bool) (d a : Reg) (b : SrcB)
  | isum (h : Hdr) (t : ITy) (d : Reg) (x : Src3)
  | isub (h : Hdr) (t : ITy) (sat : Bool) (d a : Reg) (b : SrcB)
  | imul (h : Hdr) (t : ITy) (d a : Reg) (b : SrcB)
  | imulhi (h : Hdr) (t : ITy) (d a : Reg) (b : SrcB)
  | imad (h : Hdr) (t : ITy) (sat : Bool) (d : Reg) (x : Src3)
  | imadw (h : Hdr) (t : T32) (d : Reg) (x : Src3)
  | imin (h : Hdr) (t : ITy) (d a : Reg) (b : SrcB)
  | imax (h : Hdr) (t : ITy) (d a : Reg) (b : SrcB)
  | iabs (h : Hdr) (wide sat : Bool) (d a : Reg)
  | isad (h : Hdr) (t : ITy) (d : Reg) (x : Src3)
  | shl (h : Hdr) (t : ITy) (d a : Reg) (b : SrcB)
  | shr (h : Hdr) (t : ITy) (d a : Reg) (b : SrcB)
  | sar (h : Hdr) (t : ITy) (d a : Reg) (b : SrcB)
  | rotL (h : Hdr) (t : ITy) (d a : Reg) (b : SrcB)
  | rotR (h : Hdr) (t : ITy) (d a : Reg) (b : SrcB)
  | funl (h : Hdr) (d : Reg) (x : SrcX)
  | and (h : Hdr) (t : BTy) (d a : Reg) (b : SrcB)
  | or (h : Hdr) (t : BTy) (d a : Reg) (b : SrcB)
  | xor (h : Hdr) (t : BTy) (d a : Reg) (b : SrcB)
  | not (h : Hdr) (t : BTy) (d a : Reg)
  | tern (h : Hdr) (t : BTy) (d : Reg) (x : Src3) (tbl : BitVec 8)
  | popc (h : Hdr) (t : BTy) (d a : Reg)
  | clz (h : Hdr) (t : BTy) (d a : Reg)
  | ctz (h : Hdr) (t : BTy) (d a : Reg)
  | brev (h : Hdr) (t : BTy) (d a : Reg)
  | bfe (h : Hdr) (t : ITy) (d a : Reg) (b : SrcB)
  | bfi (h : Hdr) (t : BTy) (d : Reg) (x : SrcX)
  | bsel (h : Hdr) (d : Reg) (x : SrcX)
  | icmp (h : Hdr) (c : ICond) (t : ITy) (d a : Reg) (b : SrcB)
  | iset (h : Hdr) (c : ICond) (t : ITy) (d a : Reg) (b : SrcB)
  | sel (h : Hdr) (t : BTy) (d : Reg) (x : Src3)
  | plop (h : Hdr) (d a b c : Reg) (tbl : BitVec 8)
  | pmovPack (h : Hdr) (d a : Reg)
  | pmovUnpack (h : Hdr) (d a : Reg)
  | pmovCopy (h : Hdr) (d a : Reg)
  | pmovNot (h : Hdr) (d a : Reg)
  | mov (h : Hdr) (d a : Reg)
  | movPair (h : Hdr) (d a : Reg)
  | movi (h : Hdr) (d : Reg) (v : Word)
  | moviS64 (h : Hdr) (d : Reg) (v : Word)
  | moviN64 (h : Hdr) (d : Reg) (v : Word)
  | movw (h : Hdr) (d : Reg) (v : DWord)
  | lea (h : Hdr) (t : T32) (sh : BitVec 3) (d a : Reg) (b : SrcB)
  | leax (h : Hdr) (t : T32) (d : Reg) (x : Src3) (off : Option Word)
  | srd (h : Hdr) (d : SrdDst) (sr : SReg)
  | swr (h : Hdr) (sr : SReg) (x : SwrSrc)
  -- warp exchange, R123 to R128
  | xlane (h : Hdr) (mode : XMode) (z : BitVec 3) (d a : Reg) (b : SrcB)
  | pollAll (h : Hdr) (neg : Bool) (d a : Reg)
  | pollAny (h : Hdr) (neg : Bool) (d a : Reg)
  | pollSame (h : Hdr) (neg : Bool) (d a : Reg)
  | qmaskW (h : Hdr) (neg : Bool) (d a : Reg)
  | qmaskV (h : Hdr) (neg : Bool) (d a : Reg)
  | peersSet (h : Hdr) (pair : Bool) (d a : Reg)
  | peersUni (h : Hdr) (pair : Bool) (d a : Reg)
  | peersLead (h : Hdr) (pair : Bool) (d a : Reg)
  | redux (h : Hdr) (op : RedOp) (t : T32) (d : RedDst) (a : Reg)
  | elect (h : Hdr) (d : Reg)
  | wmovWFromV (h : Hdr) (d a : Reg)
  | wmovVFromW (h : Hdr) (d a : Reg)
  | wmovWFromW (h : Hdr) (d a : Reg)
  | wmovWImm (h : Hdr) (d : Reg) (v : Word)
  | wop (h : Hdr) (op : WOpK) (t : T32) (d a : Reg) (b : SrcB)
  -- floating point, R139 to R156
  | fadd (h : Hdr) (p : FTy) (rm : RMode) (d a : Reg) (b : SrcB)
  | fsub (h : Hdr) (p : FTy) (rm : RMode) (d a : Reg) (b : SrcB)
  | fmul (h : Hdr) (p : FTy) (rm : RMode) (d a : Reg) (b : SrcB)
  | ffma (h : Hdr) (p : FTy) (rm : RMode) (d : Reg) (x : Src3)
  | fmin (h : Hdr) (p : FTy) (d a : Reg) (b : SrcB)
  | fmax (h : Hdr) (p : FTy) (d a : Reg) (b : SrcB)
  | fcmp (h : Hdr) (c : FCond) (p : FTy) (d a : Reg) (b : SrcB)
  | fset (h : Hdr) (c : FCond) (p : FTy) (d a : Reg) (b : SrcB)
  | fclass (h : Hdr) (p : FTy) (d a : Reg)
  | fclassTest (h : Hdr) (p : FTy) (d a : Reg) (v : Word)
  | frnd (h : Hdr) (p : FTy) (rm : RMode) (d a : Reg)
  | frcp (h : Hdr) (d a : Reg)
  | frsq (h : Hdr) (d a : Reg)
  | fsqrt (h : Hdr) (p : FTy) (rm : RMode) (d a : Reg)
  | fex2 (h : Hdr) (d a : Reg)
  | flg2 (h : Hdr) (d a : Reg)
  | fsin (h : Hdr) (d a : Reg)
  | fcos (h : Hdr) (d a : Reg)
  | ftanh (h : Hdr) (d a : Reg)
  | fscale (h : Hdr) (p : FTy) (rm : RMode) (d a : Reg) (b : SrcB)
  | fgetexp (h : Hdr) (p : FTy) (d a : Reg)
  | hpadd (h : Hdr) (p : HTy) (rm : RMode) (d a : Reg) (b : SrcB)
  | hpmul (h : Hdr) (p : HTy) (rm : RMode) (d a : Reg) (b : SrcB)
  | hpfma (h : Hdr) (p : HTy) (rm : RMode) (d : Reg) (x : Src3)
  | hpmnxMin (h : Hdr) (p : HTy) (d a : Reg) (b : SrcB)
  | hpmnxMax (h : Hdr) (p : HTy) (d a : Reg) (b : SrcB)
  | dot4Float (h : Hdr) (fa fb : NF8) (rm : RMode) (d : Reg) (x : Src3)
  | dot4S8 (h : Hdr) (d : Reg) (x : Src3)
  | dot2 (h : Hdr) (p : HTy) (rm : RMode) (d : Reg) (x : Src3)
  | cvt (h : Hdr) (dst src : CTy) (rm : RMode) (sat sc : Bool) (d a c : Reg) (pop : Pop)
  | cvtp (h : Hdr) (dst : CTy) (rm : RMode) (sat sc : Bool) (d : Reg) (x : Src3)
  | cvtx (h : Hdr) (src : CTy) (rm : RMode) (sc hi : Bool) (d a c : Reg) (pop : Pop)
  | lmul (h : Hdr) (d a b : Reg)
  | lmulX4 (h : Hdr) (d a b : Reg)
  | lcvtWiden (h : Hdr) (j : BitVec 2) (d a : Reg)
  | lcvtNarrow (h : Hdr) (sat : Bool) (d a : Reg)
  -- memory, synchronisation, asynchronous engines, R201 to R236
  | ld (h : Hdr) (sz : Sz) (ch : Hint) (d : Reg) (m : Addr)
  | st (h : Hdr) (sz : StSz) (ch : Hint) (x : StAddr)
  | lds (h : Hdr) (sz : Sz) (d : Reg) (m : Addr)
  | sts (h : Hdr) (sz : StSz) (x : StAddr)
  | ldc (h : Hdr) (sz : Sz) (d : Reg) (m : Addr)
  | ldw (h : Hdr) (sz : Sz) (d : Reg) (m : Addr)
  | stw (h : Hdr) (sz : StSz) (x : StAddr)
  | ldq (h : Hdr) (k : Reg) (m : Addr)
  | ldqScratch (h : Hdr) (k : Reg) (m : Addr)
  | popq (h : Hdr) (n : PopN) (d : Reg) (q : BitVec 3)
  | atom (h : Hdr) (t : ITy) (scr : Bool) (d : Reg) (x : AtomArg)
  | atomf (h : Hdr) (op : FAOp) (p : FTy) (scr : Bool) (d : Reg) (x : StAddr)
  | red (h : Hdr) (op : ROp) (t : ITy) (scr : Bool) (x : StAddr)
  | redf (h : Hdr) (op : FAOp) (p : FTy) (scr : Bool) (x : StAddr)
  | acq (h : Hdr) (sc : Scope)
  | rel (h : Hdr) (sc : Scope)
  | waitc (h : Hdr) (c : Ctr) (n : BitVec 6)
  | cctlIvall (h : Hdr)
  | cctlWbl (h : Hdr) (m : Addr)
  | cctlInvl (h : Hdr) (m : Addr)
  | cctlKwb (h : Hdr) (m : Addr)
  | cctlKinv (h : Hdr) (m : Addr)
  | pref (h : Hdr) (t : PrefTo) (m : Addr)
  | bara (h : Hdr) (b : BitVec 6)
  | barw (h : Hdr) (b : BitVec 6)
  | bars (h : Hdr) (b : BitVec 6)
  | barinit (h : Hdr) (b : BitVec 6) (x : SrcB)
  | barq (h : Hdr) (d : Reg) (b : BitVec 6)
  | marv (h : Hdr) (sc : Scope) (m : Addr)
  | mwait (h : Hdr) (sc : Scope) (x : StAddr)
  | sleep (h : Hdr) (x : SrcB)
  | sleept (h : Hdr) (a b : Reg)
  | watch (h : Hdr) (arm : BitVec 2) (m : Addr)
  | waitw (h : Hdr) (mask : BitVec 4) (a : Reg)
  | cpya (h : Hdr) (dir : CpyDir) (d : Reg) (x : Src3)
  | cpyw (h : Hdr) (a b : Reg)
  | cpyq (h : Hdr) (k a b : Reg)
  | gath (h : Hdr) (wide : Bool) (sh : BitVec 3) (sgn : Bool) (d a b : Reg)
  | scat (h : Hdr) (wide : Bool) (sh : BitVec 3) (sgn : Bool) (x : Src3)
  -- matrix engine, R260 to R265
  | wld (h : Hdr) (f : WFmt) (a b : Reg) (off : Option Word)
  | wswap (h : Hdr)
  | mms (h : Hdr) (d : Reg) (m : Addr)
  | mqry (h : Hdr) (d a : Reg)
  | mfold (h : Hdr) (d : Reg)
  | mfoldWr (h : Hdr) (a b : Reg)
  | mrst (h : Hdr) (a : Reg)
  -- accumulators, R365 to R369
  | aopen (h : Hdr) (id : BitVec 6) (a : Reg)
  | aopenZ (h : Hdr) (id : BitVec 6) (a : Reg)
  | aadd (h : Hdr) (cnt : Bool) (id : BitVec 6) (a : Reg) (b : SrcB)
  | acnt (h : Hdr) (id : BitVec 6) (a : Reg) (b : SrcB)
  | rack (h : Hdr) (force : Bool) (id : BitVec 6) (a b c : Reg)
  | rackW (h : Hdr) (force : Bool) (id : BitVec 6) (a b c : Reg)
  | rackX (h : Hdr) (id : BitVec 6) (a b c : Reg)
  | aqryReg (h : Hdr) (d a : Reg)
  | aqryLine (h : Hdr) (d a b : Reg)
  -- the maltster, R407, R409, R434
  | launch (h : Hdr) (d a b : Reg)
  | tsig (h : Hdr) (sc : Scope) (x : StAddr)
  | ctxsv (h : Hdr) (a b c : Reg)
  | ctxld (h : Hdr) (a : Reg)
  | harv (h : Hdr) (a b c : Reg)
  | harvR (h : Hdr) (a b c : Reg)
  | tlbiPg (h : Hdr) (a b c : Reg)
  | tlbiAsid (h : Hdr) (c : Reg)
  | tlbiAll (h : Hdr)
  | halt (h : Hdr) (a : Reg)
  -- the fabric, R488
  | coll (h : Hdr) (a : Reg)
  | collResume (h : Hdr) (a : Reg)
  | sendq (h : Hdr) (x : Src3) (deadline : Option Word)
  | slotq (h : Hdr) (d a : Reg)
  | slotqCur (h : Hdr) (d : Reg)
  | topo (h : Hdr) (a : Reg)
  | rtsw (h : Hdr) (a b : Reg)
  | pfence (h : Hdr)
  | pfenceDev (h : Hdr)
  | linkq (h : Hdr) (d a : Reg)
  -- steps of the thread, the warp and the core
  | fetchPad
  | resultWriteback (w tag : Nat) (part : Arrival)
  | pageFault (w tag : Nat)
  | deferredTrap (w : Nat)
  | fqackResume (die : Nat) (seq : BitVec 16)
  | fqackEnd (die : Nat) (seq : BitVec 16)
  | storeVisible (w : Nat)
  | queueEntryArrival (wg n : Nat)
  | ldqEntryPush (w tag : Nat)
  | queueReplay (wg sender q : Nat)
  | copyUnitWrite (copy unit : Nat)
  | copyComplete (copy : Nat)
  | gatherComplete (w tag : Nat)
  | sleepExpiry (w : Nat)
  | sleeptDeadline (w : Nat)
  | mwaitRecheck (w : Nat)
  | watchArmFire (w arm : Nat)
  | waitwDeadline (w : Nat)
  | mxOperationStart (c : CoreId)
  | wldExecute (r : EngineRead)
  | wswapExecute (c : CoreId)
  | mxOperandsConsumed (r : EngineRead)
  | mxDone (c : CoreId)
  | tierFailure (c : CoreId) (tier : Nat)
  | mrstComplete (c : CoreId)
  | mashApply (n : Nat)
  | rackWaitTimeout (rack : Nat)
  | rackSeal (rack : Nat)
  | rackComplete (rack : Nat)
  | blockingOpComplete (w : Nat)
  | releaseComplete (w : Nat)
  -- steps of the cluster
  | wprWrite (c : CluId) (v : Word)
  | wprDrainDone (c : CluId)
  | wprReleaseDone (c : CluId)
  | wprEnableDone (c : CluId)
  | wpsErrClear (c : CluId)
  | csoWrite (c : CluId) (v : Word)
  | csvValidClear (c : CluId)
  | snoopProbe (c : CluId) (asid line : Nat)
  | caskWayFailure (c : CluId) (slice way : Nat)
  | coreRetire (c : CluId) (phys : Nat) (readable : Bool)
  | uncorrectableError (e : ErrAt)
  -- steps of the die
  | getS (die asid region : Nat)
  | getM (die asid region : Nat)
  | upg (die asid region : Nat)
  | regionRelease (c : CluId) (asid region : Nat)
  | lineWriteback (c : CoreId) (asid line : Nat)
  | busSlotReceive (die bus grp frame : Nat) (reader : Nat) (ok : Bool)
  | slotVoid (die bus grp frame : Nat)
  | busDelivery (die : Nat)
  | bwtStage (die e : Nat) (word1 : Bool) (v : DWord)
  | bwtCommit (die e : Nat) (v : DWord)
  | groupReassignStart (die bus grp : Nat)
  | groupReassignLock (die bus grp : Nat)
  | readerRingLoss (die bus clu : Nat)
  | meshLinkFence (die a b : Nat)
  -- steps of the package
  | leaseGrant (holder asid line : Nat)
  | leaseRenewal (holder asid line : Nat)
  | leaseExpiry (holder asid line : Nat)
  | invalidationAck (holder asid line : Nat)
  | homeWriteGrant (asid line : Nat)
  | routingRefusal (c : CoreId) (asid region : Nat)
  | sealedRefusal (w : Nat)
  | retryAfterExpiry (w : Nat)
  | remoteRequestError (w tag : Nat)
  | memorySideOp (w : Nat)
  | msealSeal (die : Nat) (frame : Nat)
  | msealUnseal (die : Nat) (frame : Nat)
  | sealComplete (die : Nat)
  | thermalRefresh (c : CoreId) (kiln logic : Nat) (tiers : List Nat)
  | vbusCorrectedError (c : CoreId) (b : VBus)
  | vbusRepair (c : CoreId) (b : VBus)
  | vbusForcedBoundary (c : CoreId)
  | vbusDeferTimeout (c : CoreId) (b : VBus)
  | vbusRepairComplete (c : CoreId) (b : VBus) (lanes link : Nat)
  -- steps of the maltster
  | tokenCrossing (region g : Nat)
  | placementEvaluation
  | rotationCheck
  | starvation (region g : Nat)
  | drainTimeout (gang : Nat)
  | saveStopTimeout (gang : Nat)
  | saveComplete (gang : Nat)
  | flushComplete (gang : Nat)
  | workgroupDrained (wg : Nat)
  | gangRetire (gang : Nat)
  | lockHolderCandidate (w : Nat)
  | launchRecord (ring : Nat)
  | haltRecord (ring : Nat)
  | queryRecord (ring : Nat)
  | saveRecord (ring : Nat)
  | loadRecord (ring : Nat)
  -- steps of the package service
  | ringbaseWrite (fn : Nat) (v : DWord)
  | alloc (w tag : Nat)
  | free (w tag : Nat)
  | puts (w tag : Nat)
  | health (w tag : Nat)
  | reset
  | recoveryGo
  | attestationRequest (v : DWord)
  | securityAlarm (cls : Nat)
  | alarmClassClear (v : BitVec 4)
  | hostInboundWrite (fn bar : Nat) (off : Nat) (bytes : List Byte)
  | hostInboundRead (fn bar : Nat) (off len : Nat)
  | poisonedTlp (fn : Nat)
  | linkDown
  | heartbeatTimeout (a : Agent)
  -- steps of the fabric
  | slotWindowOpen (port : Nat)
  | slotWindowClose (port : Nat)
  | fabricMessageReceive (port : Nat) (m : FabMsg)
  | relayForward (port n : Nat)
  | collStepStart (id : Nat)
  | reduceApply (src : Nat) (m : FabMsg)
  | collComplete (id : Nat)
  | fabricBarrierArrival (pkg asid : Nat) (obj : DWord)
  | fabricBarrierRelease (obj : BarRef) (lost : Option Nat)
  | topoAmber
  | topoActivation
  | packageFenceDone
  | portLock (port : Nat)
  | wavelengthLoss (port : Nat) (l : LightLoss)
  | powerReclaim (port : Nat)
  | monitorPowerRequest (port : Nat) (berq : Nat)
  | peerHeartbeatTimeout (pkg : Nat)
  | registerWrite (pa size : Nat) (v : DWord)
  | reservedOpcodeFetch
  | slotStart (port : Nat)
  | readerRingRetuned (die bus clu : Nat)
  | spareWayCopyDone (c : CluId) (slice way : Nat)
  | faultQueueTailWrite (die : Nat) (v : Word)
  | hostConfigurationRequest (fn : Nat)
  | hostLinkTrained (x16 : Bool)
  deriving DecidableEq, Repr

end Sys2Proof
end

