-- ==== Sys2Proof/WellFormed.lean ====
section
/-! DEFINITION. Which instructions are well formed: the operands each one names, by register file (R49, R50, R55),
and the encodings that an entry forbids although the fields could hold them. -/

namespace Sys2Proof

/-- The files of R49: single vector register, pair, predicate, warp-scalar, lane mask. -/
inductive File where
  | v | p | q | w | m
  deriving DecidableEq, Repr

/-- A register operand: its file, its field, and whether a queue pop supplies it (R55). -/
structure Opnd where
  file : File
  r : Reg
  popped : Bool
  deriving DecidableEq, Repr

/-- R49, R50 and R55 as far as the word alone decides them. -/
def Opnd.ok (o : Opnd) : Bool :=
  if o.popped then o.file == .v && o.r == 0
  else match o.file with
    | .v => true
    | .p => o.r.getLsbD 0 == false
    | .q => decide (o.r.toNat < 128)
    | .w => decide (o.r.toNat < 64)
    | .m => decide (o.r.toNat < 12)

/-- R49 as far as the allocated counts of the warp decide it. -/
def Opnd.inRange (nregs npreds : Nat) (o : Opnd) : Bool :=
  if o.popped then true
  else match o.file with
    | .v => decide (o.r.toNat < nregs)
    | .p => decide (o.r.toNat + 1 < nregs)
    | .q => decide (o.r.toNat < npreds)
    | _ => true

def Pop.isA : Pop → Bool | .a _ => true | _ => false
def Pop.isB : Pop → Bool | .b _ => true | _ => false
def Pop.isC : Pop → Bool | .c _ => true | _ => false

/-- A plain operand. -/
def Opnd.mk1 (f : File) (r : Reg) : Opnd := ⟨f, r, false⟩

def SrcB.ops (f : File) : SrcB → List Opnd
  | .reg r => [.mk1 f r]
  | .imm _ => []

def Src3.ops (fa fb fc : File) (x : Src3) : List Opnd :=
  [⟨fa, x.a, x.pop.isA⟩, ⟨fb, x.b, x.pop.isB⟩, ⟨fc, x.c, x.pop.isC⟩]

def SrcX.ops (fa fb fc : File) : SrcX → List Opnd
  | .reg x => x.ops fa fb fc
  | .imm a b pop _ => [⟨fa, a, pop.isA⟩, ⟨fb, b, pop.isB⟩]

def StAddr.ops (fa fb : File) : StAddr → List Opnd
  | .short a b => [.mk1 fa a, .mk1 fb b]
  | .long a b pop _ => [⟨fa, a, pop.isA⟩, ⟨fb, b, pop.isB⟩]

def SrcX.pop : SrcX → Pop | .reg x => x.pop | .imm _ _ p _ => p
def StAddr.pop : StAddr → Pop | .short .. => .none | .long _ _ p _ => p
def AtomArg.pop : AtomArg → Pop | .op _ x => x.pop | .cas x => x.pop | .casOff x _ => x.pop

def ITy.file : ITy → File | .s32 | .n32 => .v | .s64 | .n64 => .p
def BTy.file : BTy → File | .b32 => .v | .b64 => .p
def Sz.file : Sz → File | .b64 => .p | _ => .v
def StSz.file : StSz → File | .b64 => .p | _ => .v
def CTy.file : CTy → File | .s64 | .n64 => .p | _ => .v

/-- Integer types among the conversion types (R150). -/
def CTy.isInt : CTy → Bool
  | .s8 | .s16 | .s32 | .s64 | .n8 | .n16 | .n32 | .n64 => true
  | _ => false

/-- Registers whose width is 64 (R120). -/
def SReg.wide : SReg → Bool
  | .clock | .parm | .htvec | .hpc | .hsub => true
  | _ => false

def AtomArg.ops (fa ft : File) : AtomArg → List Opnd
  | .op _ x => x.ops fa ft
  | .cas x => x.ops fa ft ft
  | .casOff x _ => x.ops fa ft ft

def scrFile (scr : Bool) : File := if scr then .v else .p

/-- The register operands that an instruction names in D, A, B and C. -/
def Instr.operands : Instr → List Opnd
  | .brx _ a => [.mk1 .p a]
  | .call _ d _ => [.mk1 .p d]
  | .callx _ d a => [.mk1 .p d, .mk1 .p a]
  | .ret _ a => [.mk1 .p a]
  | .join _ m => [.mk1 .m m]
  | .leave _ m => [.mk1 .m m]
  | .waitm _ m => [.mk1 .m m]
  | .movmMaskFromW _ m w => [.mk1 .m m, .mk1 .w w]
  | .movmWFromMask _ w m => [.mk1 .w w, .mk1 .m m]
  | .movmMaskFromMask _ d a => [.mk1 .m d, .mk1 .m a]
  | .movmMaskImm _ m _ => [.mk1 .m m]
  | .wcall _ d a _ => [.mk1 .p d, .mk1 .p a]
  | .iadd _ t _ d a b => .mk1 t.file d :: .mk1 t.file a :: b.ops t.file
  | .isum _ t d x => .mk1 t.file d :: x.ops t.file t.file t.file
  | .isub _ t _ d a b => .mk1 t.file d :: .mk1 t.file a :: b.ops t.file
  | .imul _ t d a b => .mk1 t.file d :: .mk1 t.file a :: b.ops t.file
  | .imulhi _ t d a b => .mk1 t.file d :: .mk1 t.file a :: b.ops t.file
  | .imad _ t _ d x => .mk1 t.file d :: x.ops t.file t.file t.file
  | .imadw _ _ d x => .mk1 .p d :: x.ops .v .v .p
  | .imin _ t d a b => .mk1 t.file d :: .mk1 t.file a :: b.ops t.file
  | .imax _ t d a b => .mk1 t.file d :: .mk1 t.file a :: b.ops t.file
  | .iabs _ wide _ d a => [.mk1 (if wide then .p else .v) d, .mk1 (if wide then .p else .v) a]
  | .isad _ t d x => .mk1 t.file d :: x.ops t.file t.file t.file
  | .shl _ t d a b => .mk1 t.file d :: .mk1 t.file a :: b.ops .v
  | .shr _ t d a b => .mk1 t.file d :: .mk1 t.file a :: b.ops .v
  | .sar _ t d a b => .mk1 t.file d :: .mk1 t.file a :: b.ops .v
  | .rotL _ t d a b => .mk1 t.file d :: .mk1 t.file a :: b.ops .v
  | .rotR _ t d a b => .mk1 t.file d :: .mk1 t.file a :: b.ops .v
  | .funl _ d x => .mk1 .v d :: x.ops .v .v .v
  | .and _ t d a b => .mk1 t.file d :: .mk1 t.file a :: b.ops t.file
  | .or _ t d a b => .mk1 t.file d :: .mk1 t.file a :: b.ops t.file
  | .xor _ t d a b => .mk1 t.file d :: .mk1 t.file a :: b.ops t.file
  | .not _ t d a => [.mk1 t.file d, .mk1 t.file a]
  | .tern _ t d x _ => .mk1 t.file d :: x.ops t.file t.file t.file
  | .popc _ t d a => [.mk1 .v d, .mk1 t.file a]
  | .clz _ t d a => [.mk1 .v d, .mk1 t.file a]
  | .ctz _ t d a => [.mk1 .v d, .mk1 t.file a]
  | .brev _ t d a => [.mk1 t.file d, .mk1 t.file a]
  | .bfe _ t d a b => .mk1 t.file d :: .mk1 t.file a :: b.ops .v
  | .bfi _ t d x => .mk1 t.file d :: x.ops t.file t.file .v
  | .bsel _ d x => .mk1 .v d :: x.ops .v .v .v
  | .icmp _ _ t d a b => .mk1 .q d :: .mk1 t.file a :: b.ops t.file
  | .iset _ _ t d a b => .mk1 .v d :: .mk1 t.file a :: b.ops t.file
  | .sel _ t d x => .mk1 t.file d :: x.ops t.file t.file .q
  | .plop _ d a b c _ => [.mk1 .q d, .mk1 .q a, .mk1 .q b, .mk1 .q c]
  | .pmovPack _ d a => [.mk1 .v d, .mk1 .q a]
  | .pmovUnpack _ d a => [.mk1 .q d, .mk1 .v a]
  | .pmovCopy _ d a => [.mk1 .q d, .mk1 .q a]
  | .pmovNot _ d a => [.mk1 .q d, .mk1 .q a]
  | .mov _ d a => [.mk1 .v d, .mk1 .v a]
  | .movPair _ d a => [.mk1 .p d, .mk1 .p a]
  | .movi _ d _ => [.mk1 .v d]
  | .moviS64 _ d _ => [.mk1 .p d]
  | .moviN64 _ d _ => [.mk1 .p d]
  | .movw _ d _ => [.mk1 .p d]
  | .lea _ _ _ d a b => .mk1 .p d :: .mk1 .p a :: b.ops .v
  | .leax _ _ d x _ => .mk1 .p d :: x.ops .p .v .v
  | .srd _ (.v d) _ => [.mk1 .v d]
  | .srd _ (.pair d) _ => [.mk1 .p d]
  | .srd _ (.w d) _ => [.mk1 .w d]
  | .swr _ _ (.v a) => [.mk1 .v a]
  | .swr _ _ (.pair a) => [.mk1 .p a]
  | .xlane _ _ _ d a b => .mk1 .v d :: .mk1 .v a :: b.ops .v
  | .pollAll _ _ d a => [.mk1 .q d, .mk1 .q a]
  | .pollAny _ _ d a => [.mk1 .q d, .mk1 .q a]
  | .pollSame _ _ d a => [.mk1 .q d, .mk1 .q a]
  | .qmaskW _ _ d a => [.mk1 .w d, .mk1 .q a]
  | .qmaskV _ _ d a => [.mk1 .v d, .mk1 .q a]
  | .peersSet _ pr d a => [.mk1 .v d, .mk1 (if pr then .p else .v) a]
  | .peersUni _ pr d a => [.mk1 .q d, .mk1 (if pr then .p else .v) a]
  | .peersLead _ pr d a => [.mk1 .v d, .mk1 (if pr then .p else .v) a]
  | .redux _ _ _ (.w d) a => [.mk1 .w d, .mk1 .v a]
  | .redux _ _ _ (.v d) a => [.mk1 .v d, .mk1 .v a]
  | .elect _ d => [.mk1 .q d]
  | .wmovWFromV _ d a => [.mk1 .w d, .mk1 .v a]
  | .wmovVFromW _ d a => [.mk1 .v d, .mk1 .w a]
  | .wmovWFromW _ d a => [.mk1 .w d, .mk1 .w a]
  | .wmovWImm _ d _ => [.mk1 .w d]
  | .wop _ _ _ d a b => .mk1 .w d :: .mk1 .w a :: b.ops .w
  | .fadd _ _ _ d a b => .mk1 .v d :: .mk1 .v a :: b.ops .v
  | .fsub _ _ _ d a b => .mk1 .v d :: .mk1 .v a :: b.ops .v
  | .fmul _ _ _ d a b => .mk1 .v d :: .mk1 .v a :: b.ops .v
  | .ffma _ _ _ d x => .mk1 .v d :: x.ops .v .v .v
  | .fmin _ _ d a b => .mk1 .v d :: .mk1 .v a :: b.ops .v
  | .fmax _ _ d a b => .mk1 .v d :: .mk1 .v a :: b.ops .v
  | .fcmp _ _ _ d a b => .mk1 .q d :: .mk1 .v a :: b.ops .v
  | .fset _ _ _ d a b => .mk1 .v d :: .mk1 .v a :: b.ops .v
  | .fclass _ _ d a => [.mk1 .v d, .mk1 .v a]
  | .fclassTest _ _ d a _ => [.mk1 .q d, .mk1 .v a]
  | .frnd _ _ _ d a => [.mk1 .v d, .mk1 .v a]
  | .frcp _ d a => [.mk1 .v d, .mk1 .v a]
  | .frsq _ d a => [.mk1 .v d, .mk1 .v a]
  | .fsqrt _ _ _ d a => [.mk1 .v d, .mk1 .v a]
  | .fex2 _ d a => [.mk1 .v d, .mk1 .v a]
  | .flg2 _ d a => [.mk1 .v d, .mk1 .v a]
  | .fsin _ d a => [.mk1 .v d, .mk1 .v a]
  | .fcos _ d a => [.mk1 .v d, .mk1 .v a]
  | .ftanh _ d a => [.mk1 .v d, .mk1 .v a]
  | .fscale _ _ _ d a b => .mk1 .v d :: .mk1 .v a :: b.ops .v
  | .fgetexp _ _ d a => [.mk1 .v d, .mk1 .v a]
  | .hpadd _ _ _ d a b => .mk1 .v d :: .mk1 .v a :: b.ops .v
  | .hpmul _ _ _ d a b => .mk1 .v d :: .mk1 .v a :: b.ops .v
  | .hpfma _ _ _ d x => .mk1 .v d :: x.ops .v .v .v
  | .hpmnxMin _ _ d a b => .mk1 .v d :: .mk1 .v a :: b.ops .v
  | .hpmnxMax _ _ d a b => .mk1 .v d :: .mk1 .v a :: b.ops .v
  | .dot4Float _ _ _ _ d x => .mk1 .v d :: x.ops .v .v .v
  | .dot4S8 _ d x => .mk1 .v d :: x.ops .v .v .v
  | .dot2 _ _ _ d x => .mk1 .v d :: x.ops .v .v .v
  | .cvt _ dst src _ _ sc d a c pop =>
      .mk1 dst.file d :: ⟨src.file, a, pop.isA⟩ :: (if sc then [⟨.v, c, pop.isC⟩] else [])
  | .cvtp _ dst _ _ sc d x =>
      let f : File := if dst == .f16 || dst == .bf16 then .v else .p
      .mk1 .v d :: ⟨f, x.a, x.pop.isA⟩ :: ⟨f, x.b, x.pop.isB⟩ :: (if sc then [⟨.v, x.c, x.pop.isC⟩] else [])
  | .cvtx _ _ _ sc _ d a c pop => .mk1 .p d :: ⟨.v, a, pop.isA⟩ :: (if sc then [⟨.v, c, pop.isC⟩] else [])
  | .lmul _ d a b => [.mk1 .v d, .mk1 .v a, .mk1 .v b]
  | .lmulX4 _ d a b => [.mk1 .v d, .mk1 .v a, .mk1 .v b]
  | .lcvtWiden _ _ d a => [.mk1 .v d, .mk1 .v a]
  | .lcvtNarrow _ _ d a => [.mk1 .v d, .mk1 .v a]
  | .ld _ sz _ d m => [.mk1 sz.file d, .mk1 .p m.base]
  | .st _ sz _ x => x.ops .p sz.file
  | .lds _ sz d m => [.mk1 sz.file d, .mk1 .v m.base]
  | .sts _ sz x => x.ops .v sz.file
  | .ldc _ sz d m => [.mk1 sz.file d, .mk1 .v m.base]
  | .ldw _ sz d m => [.mk1 sz.file d, .mk1 .p m.base]
  | .stw _ sz x => x.ops .p sz.file
  | .ldq _ _ m => [.mk1 .p m.base]
  | .ldqScratch _ _ m => [.mk1 .v m.base]
  | .popq _ .x1 d _ => [.mk1 .v d]
  | .popq _ .x2 d _ => [.mk1 .v d, .mk1 .v (d + 1)]
  | .popq _ .x4 d _ => [.mk1 .v d, .mk1 .v (d + 1), .mk1 .v (d + 2), .mk1 .v (d + 3)]
  | .atom _ t scr d x => .mk1 t.file d :: x.ops (scrFile scr) t.file
  | .atomf _ _ _ scr d x => .mk1 .v d :: x.ops (scrFile scr) .v
  | .red _ _ t scr x => x.ops (scrFile scr) t.file
  | .redf _ _ _ scr x => x.ops (scrFile scr) .v
  | .cctlWbl _ m => [.mk1 .p m.base]
  | .cctlInvl _ m => [.mk1 .p m.base]
  | .cctlKwb _ m => [.mk1 .p m.base]
  | .cctlKinv _ m => [.mk1 .p m.base]
  | .pref _ _ m => [.mk1 .p m.base]
  | .barinit _ _ x => x.ops .v
  | .barq _ d _ => [.mk1 .p d]
  | .marv _ _ m => [.mk1 .p m.base]
  | .mwait _ _ x => x.ops .p .v
  | .sleep _ x => x.ops .v
  | .sleept _ a b => [.mk1 .p a, .mk1 .v b]
  | .watch _ _ m => [.mk1 .p m.base]
  | .waitw _ _ a => [.mk1 .p a]
  | .cpya _ dir d x =>
      let fa : File := match dir with | .g2s | .g2g => .p | _ => .v
      let fb : File := match dir with | .s2g | .g2g => .p | _ => .v
      .mk1 .p d :: .mk1 .v (d + 2) :: x.ops fa fb .v
  | .cpyw _ a b => [.mk1 .p a, .mk1 .v b]
  | .cpyq _ _ a b => [.mk1 .p a, .mk1 .v b]
  | .gath _ wide _ _ d a b => [.mk1 (if wide then .p else .v) d, .mk1 .p a, .mk1 .v b]
  | .scat _ wide _ _ x => x.ops .p .v (if wide then .p else .v)
  | .wld _ _ a b _ => [.mk1 .p a, .mk1 .v b]
  | .mms _ d m => [.mk1 .v d, .mk1 .p m.base]
  | .mqry _ d a => [.mk1 .p d, .mk1 .v a]
  | .mfold _ d => [.mk1 .v d]
  | .mfoldWr _ a b => [.mk1 .v a, .mk1 .v b]
  | .mrst _ a => [.mk1 .v a]
  | .aopen _ _ a => [.mk1 .p a]
  | .aopenZ _ _ a => [.mk1 .p a]
  | .aadd _ _ _ a b => .mk1 .v a :: b.ops .v
  | .acnt _ _ a b => .mk1 .v a :: b.ops .v
  | .rack _ _ _ a b c => [.mk1 .p a, .mk1 .p b, .mk1 .v c]
  | .rackW _ _ _ a b c => [.mk1 .p a, .mk1 .p b, .mk1 .v c]
  | .rackX _ _ a b c => [.mk1 .p a, .mk1 .p b, .mk1 .v c]
  | .aqryReg _ d a => [.mk1 .p d, .mk1 .v a]
  | .aqryLine _ d a b => [.mk1 .p d, .mk1 .v a, .mk1 .v b]
  | .launch _ d a b => [.mk1 .p d, .mk1 .p a, .mk1 .v b]
  | .tsig _ _ x => x.ops .p .v
  | .ctxsv _ a b c => [.mk1 .p a, .mk1 .v b, .mk1 .p c]
  | .ctxld _ a => [.mk1 .p a]
  | .harv _ a b c => [.mk1 .p a, .mk1 .v b, .mk1 .v c]
  | .harvR _ a b c => [.mk1 .p a, .mk1 .v b, .mk1 .v c]
  | .tlbiPg _ a b c => [.mk1 .p a, .mk1 .v b, .mk1 .v c]
  | .tlbiAsid _ c => [.mk1 .v c]
  | .halt _ a => [.mk1 .p a]
  | .coll _ a => [.mk1 .p a]
  | .collResume _ a => [.mk1 .p a]
  | .sendq _ x _ => x.ops .p .p .v
  | .slotq _ d a => [.mk1 .p d, .mk1 .v a]
  | .slotqCur _ d => [.mk1 .p d]
  | .topo _ a => [.mk1 .p a]
  | .rtsw _ a b => [.mk1 .p a, .mk1 .p b]
  | .linkq _ d a => [.mk1 .p d, .mk1 .v a]
  | _ => []

/-- Whether an inc or dec names a natural type (R211). -/
def natOnly (t : ITy) : Bool := t == .n32 || t == .n64

/-- A conversion's SAT, SC, C and H by R151. -/
def cvtOk (dst src : CTy) (sat sc : Bool) (c : Reg) (pop : Pop) : Bool :=
  !(sat && (dst == .f32 || dst == .f16 || dst == .bf16)) &&
  !(sat && dst.isInt && !src.isInt) &&
  !(sc && dst.isInt && src.isInt) &&
  (sc || (c == 0 && !pop.isC))

/-- The encodings that an entry forbids beyond R49 and R50. -/
def Instr.extraOk : Instr → Bool
  | .xlane _ _ z _ _ _ => decide (1 ≤ z.toNat) && decide (z.toNat ≤ 5)
  | .pmovPack _ _ a => a.toNat % 32 == 0
  | .pmovUnpack _ d _ => d.toNat % 32 == 0
  | .srd _ d sr => match d with | .pair _ => sr.wide | _ => !sr.wide
  | .swr _ sr x => match x with | .pair _ => sr.wide | _ => !sr.wide
  | .cvt _ dst src _ sat sc _ _ c pop => cvtOk dst src sat sc c pop && !pop.isB
  | .cvtp _ dst _ sat sc _ x =>
      (dst == .f16 || dst == .bf16 || dst == .e4m3 || dst == .e5m2 || dst == .e3m2 || dst == .e2m3 ||
        dst == .e2m1 || dst == .log6) && cvtOk dst .f32 sat sc x.c x.pop
  | .cvtx _ src _ sc hi _ _ c pop =>
      (src == .f16 || src == .bf16 || src == .e4m3 || src == .e5m2 || src == .e3m2 || src == .e2m3 ||
        src == .e2m1 || src == .s8 || src == .log6) && cvtOk .f32 src false sc c pop && !pop.isB &&
      !(hi && (src == .f16 || src == .bf16))
  | .ldq _ k _ => decide (k.toNat < 8)
  | .ldqScratch _ k _ => decide (k.toNat < 8)
  | .cpyq _ k _ _ => decide (k.toNat < 8)
  | .popq _ .x2 d _ => d.toNat % 2 == 0
  | .popq _ .x4 d _ => d.toNat % 4 == 0
  | .atom _ t _ _ (.op o x) => !x.pop.isC && (if o == .inc || o == .dec then natOnly t else true)
  | .atomf _ _ _ _ _ x => !x.pop.isC
  | .red _ o t _ x => !x.pop.isC && (if o == .inc || o == .dec then natOnly t else true)
  | .redf _ _ _ _ x => !x.pop.isC
  | .st _ _ _ x => !x.pop.isC
  | .sts _ _ x => !x.pop.isC
  | .stw _ _ x => !x.pop.isC
  | .mwait _ _ x => !x.pop.isC
  | .tsig _ _ x => !x.pop.isC
  | .funl _ _ x => match x with | .imm _ _ p _ => !p.isC | _ => true
  | .bfi _ _ _ x => match x with | .imm _ _ p _ => !p.isC | _ => true
  | .bsel _ _ x => match x with | .imm _ _ p _ => !p.isC | _ => true
  | .barinit _ _ (.imm v) => decide (v.toNat < 2 ^ 14)
  | .waitw _ mask _ => mask != 0
  | _ => true

/-- A well-formed instruction: every operand in its file and the entry's own limits met. -/
def Instr.wf (i : Instr) : Bool := i.operands.all Opnd.ok && i.extraOk

/-- The highest destination register of a CPYA, vD+2, which may lie beyond every field (R49, R231). -/
def Instr.lastReg : Instr → Option Nat
  | .cpya _ _ d _ => some (d.toNat + 2)
  | _ => none

/-- The limits that the warp's shape sets (R49, R117, R210, R231). -/
def Instr.inRange (nregs npreds : Nat) (i : Instr) : Bool :=
  i.operands.all (Opnd.inRange nregs npreds) && i.lastReg.all fun n => decide (n < nregs)

/-- Whether the instruction writes no register: its operands are all sources. -/
def Instr.noDest : Instr → Bool
  | .brx .. => true | .ret .. => true | .join .. => true | .leave .. => true | .waitm .. => true | .swr .. => true
  | .st .. => true | .sts .. => true | .stw .. => true | .ldq .. => true | .ldqScratch .. => true | .red .. => true | .redf .. => true
  | .cctlWbl .. => true | .cctlInvl .. => true | .cctlKwb .. => true | .cctlKinv .. => true | .pref .. => true
  | .barinit .. => true | .marv .. => true | .mwait .. => true | .sleep .. => true | .sleept .. => true | .watch .. => true
  | .waitw .. => true | .cpyw .. => true | .cpyq .. => true | .scat .. => true | .wld .. => true | .mfoldWr .. => true
  | .mrst .. => true | .aopen .. => true | .aopenZ .. => true | .aadd .. => true | .acnt .. => true | .rack .. => true
  | .rackW .. => true | .rackX .. => true | .tsig .. => true | .ctxsv .. => true | .ctxld .. => true | .harv .. => true
  | .harvR .. => true | .tlbiPg .. => true | .tlbiAsid .. => true | .halt .. => true | .coll .. => true | .collResume .. => true
  | .sendq .. => true | .topo .. => true | .rtsw .. => true
  | _ => false

/-- The destination operand, when the instruction writes a register. -/
def Instr.dest (i : Instr) : Option Opnd := if i.noDest then none else i.operands.head?

/-- The source operands in the order A, B, C. -/
def Instr.sources (i : Instr) : List Opnd :=
  match i with
  | .popq .. => []
  | .cpya .. => i.operands.drop 2
  | _ => if i.noDest then i.operands else i.operands.drop 1

/-- The source operand in field A (0), B (1) or C (2), when the instruction reads that field from a register. -/
def Instr.srcAt (i : Instr) (k : Nat) : Option Opnd :=
  match i with
  | .barinit .. => if k = 1 then i.sources[0]? else none
  | .tlbiAsid .. => if k = 2 then i.sources[0]? else none
  | .cvt .. => if k = 0 then i.sources[0]? else if k = 2 then i.sources[1]? else none
  | .cvtx .. => if k = 0 then i.sources[0]? else if k = 2 then i.sources[1]? else none
  | .join .. => none
  | .leave .. => none
  | .waitm .. => none
  | _ => i.sources[k]?

end Sys2Proof
end

