-- ==== Sys2Proof/Decode.lean ====
section
/-! DEFINITION. Decoding: the word's fields (R47, R53, R54, R56), the instruction they name (the encoding table of each
entry), and after it the encoder, written from the same tables. A word is an instruction only when its fields are
exactly those the entry gives it, so every reserved field is checked at once (R49, R52, R57). -/

namespace Sys2Proof

/-- The fields of a word of any length; a field the length does not have is zero. -/
structure Raw where
  len : BitVec 2
  pk : Bool
  op : BitVec 8
  gp : BitVec 7
  gn : Bool
  d : Reg
  a : Reg
  b : Reg
  keep : BitVec 2
  fn : BitVec 10
  c : Reg
  qop : BitVec 2
  qid : BitVec 3
  fn2 : BitVec 16
  imm : Word
  imm64 : DWord
  deriving DecidableEq, Repr

/-! ## Code tables -/


def ITy.code : ITy → Nat | .s32 => 0 | .n32 => 1 | .s64 => 2 | .n64 => 3
def ITy.ofCode (n : Nat) : ITy := match n with | 0 => .s32 | 1 => .n32 | 2 => .s64 | _ => .n64
def BTy.code : BTy → Nat | .b32 => 0 | .b64 => 2
def BTy.ofCode (n : Nat) : BTy := match n with | 0 => .b32 | _ => .b64
def T32.code : T32 → Nat | .s32 => 0 | .n32 => 1
def T32.ofCode (n : Nat) : T32 := match n with | 0 => .s32 | _ => .n32
def ICond.code : ICond → Nat | .eq => 0 | .ne => 1 | .lt => 2 | .le => 3 | .gt => 4 | .ge => 5
def ICond.ofCode (n : Nat) : ICond :=
  match n with | 0 => .eq | 1 => .ne | 2 => .lt | 3 => .le | 4 => .gt | _ => .ge
def FCond.code : FCond → Nat
  | .eq => 0 | .ne => 1 | .lt => 2 | .le => 3 | .gt => 4 | .ge => 5 | .num => 6 | .nan => 7
  | .equ => 8 | .neu => 9 | .ltu => 10 | .leu => 11 | .gtu => 12 | .geu => 13
def FCond.ofCode (n : Nat) : FCond :=
  match n with
  | 0 => .eq | 1 => .ne | 2 => .lt | 3 => .le | 4 => .gt | 5 => .ge | 6 => .num | 7 => .nan
  | 8 => .equ | 9 => .neu | 10 => .ltu | 11 => .leu | 12 => .gtu | _ => .geu
def FTy.code : FTy → Nat | .f32 => 0 | .f16 => 1 | .bf16 => 2
def FTy.ofCode (n : Nat) : FTy := match n with | 0 => .f32 | 1 => .f16 | _ => .bf16
def HTy.code : HTy → Nat | .f16 => 1 | .bf16 => 2
def HTy.ofCode (n : Nat) : HTy := match n with | 1 => .f16 | _ => .bf16
def RMode.code : RMode → Nat | .dyn => 0 | .rne => 1 | .rz => 2 | .ru => 3 | .rd => 4
def RMode.ofCode (n : Nat) : RMode := match n with | 0 => .dyn | 1 => .rne | 2 => .rz | 3 => .ru | _ => .rd
def XMode.code : XMode → Nat | .idx => 0 | .rot => 1 | .sft => 2 | .xor => 3
def XMode.ofCode (n : Nat) : XMode := match n with | 0 => .idx | 1 => .rot | 2 => .sft | _ => .xor
def RedOp.code : RedOp → Nat | .add => 0 | .min => 1 | .max => 2 | .and => 3 | .or => 4 | .xor => 5
def RedOp.ofCode (n : Nat) : RedOp :=
  match n with | 0 => .add | 1 => .min | 2 => .max | 3 => .and | 4 => .or | _ => .xor
def WOpK.code : WOpK → Nat
  | .add => 0 | .sub => 1 | .mul => 2 | .and => 3 | .or => 4 | .xor => 5 | .shl => 6 | .shr => 7
  | .sar => 8 | .min => 9 | .max => 10
def WOpK.ofCode (n : Nat) : WOpK :=
  match n with
  | 0 => .add | 1 => .sub | 2 => .mul | 3 => .and | 4 => .or | 5 => .xor | 6 => .shl | 7 => .shr
  | 8 => .sar | 9 => .min | _ => .max
def Sz.code : Sz → Nat | .n8 => 0 | .s8 => 1 | .n16 => 2 | .s16 => 3 | .b32 => 4 | .b64 => 5
def Sz.ofCode (n : Nat) : Sz :=
  match n with | 0 => .n8 | 1 => .s8 | 2 => .n16 | 3 => .s16 | 4 => .b32 | _ => .b64
def StSz.code : StSz → Nat | .b8 => 0 | .b16 => 2 | .b32 => 4 | .b64 => 5
def StSz.ofCode (n : Nat) : StSz := match n with | 0 => .b8 | 2 => .b16 | 4 => .b32 | _ => .b64
def Hint.code : Hint → Nat | .none => 0 | .ef => 1 | .na => 2
def Hint.ofCode (n : Nat) : Hint := match n with | 0 => .none | 1 => .ef | _ => .na
def AOp.code : AOp → Nat
  | .add => 0 | .min => 1 | .max => 2 | .and => 3 | .or => 4 | .xor => 5 | .exch => 6 | .inc => 8 | .dec => 9
def AOp.ofCode (n : Nat) : AOp :=
  match n with
  | 0 => .add | 1 => .min | 2 => .max | 3 => .and | 4 => .or | 5 => .xor | 6 => .exch | 8 => .inc | _ => .dec
def ROp.code : ROp → Nat
  | .add => 0 | .min => 1 | .max => 2 | .and => 3 | .or => 4 | .xor => 5 | .inc => 8 | .dec => 9
def ROp.ofCode (n : Nat) : ROp :=
  match n with
  | 0 => .add | 1 => .min | 2 => .max | 3 => .and | 4 => .or | 5 => .xor | 8 => .inc | _ => .dec
def FAOp.code : FAOp → Nat | .add => 0 | .min => 1 | .max => 2
def FAOp.ofCode (n : Nat) : FAOp := match n with | 0 => .add | 1 => .min | _ => .max
def Scope.code : Scope → Nat
  | .wg => 0 | .core => 1 | .gang => 2 | .clu => 3 | .die => 4 | .dev => 5 | .sys => 6
def Scope.ofCode (n : Nat) : Scope :=
  match n with
  | 0 => .wg | 1 => .core | 2 => .gang | 3 => .clu | 4 => .die | 5 => .dev | _ => .sys
def Ctr.code : Ctr → Nat
  | .ld => 0 | .st => 1 | .cpy => 2 | .mxi => 3 | .mx => 4 | .gat => 5 | .col => 6 | .acc => 7
def Ctr.ofCode (n : Nat) : Ctr :=
  match n with
  | 0 => .ld | 1 => .st | 2 => .cpy | 3 => .mxi | 4 => .mx | 5 => .gat | 6 => .col | _ => .acc
def PrefTo.code : PrefTo → Nat | .l1 => 0 | .l2 => 1 | .kiln => 2
def PrefTo.ofCode (n : Nat) : PrefTo := match n with | 0 => .l1 | 1 => .l2 | _ => .kiln
def CpyDir.code : CpyDir → Nat | .g2s => 0 | .s2g => 1 | .g2g => 2 | .s2s => 3
def CpyDir.ofCode (n : Nat) : CpyDir := match n with | 0 => .g2s | 1 => .s2g | 2 => .g2g | _ => .s2s
def CTy.code : CTy → Nat
  | .f32 => 0x00 | .f16 => 0x01 | .bf16 => 0x02 | .e4m3 => 0x03 | .e5m2 => 0x04 | .e3m2 => 0x05
  | .e2m3 => 0x06 | .e2m1 => 0x07 | .s8 => 0x08 | .log6 => 0x09 | .s16 => 0x10 | .s32 => 0x11
  | .s64 => 0x12 | .n8 => 0x14 | .n16 => 0x15 | .n32 => 0x16 | .n64 => 0x17
def CTy.ofCode (n : Nat) : CTy :=
  match n with
  | 0x00 => .f32 | 0x01 => .f16 | 0x02 => .bf16 | 0x03 => .e4m3 | 0x04 => .e5m2 | 0x05 => .e3m2
  | 0x06 => .e2m3 | 0x07 => .e2m1 | 0x08 => .s8 | 0x09 => .log6 | 0x10 => .s16 | 0x11 => .s32
  | 0x12 => .s64 | 0x14 => .n8 | 0x15 => .n16 | 0x16 => .n32 | _ => .n64
def WFmt.code : WFmt → Nat
  | .f16 => 1 | .bf16 => 2 | .e4m3 => 3 | .e5m2 => 4 | .e3m2 => 5 | .e2m3 => 6 | .e2m1 => 7 | .s8 => 8
  | .log6 => 9
def WFmt.ofCode (n : Nat) : WFmt :=
  match n with
  | 1 => .f16 | 2 => .bf16 | 3 => .e4m3 | 4 => .e5m2 | 5 => .e3m2 | 6 => .e2m3 | 7 => .e2m1 | 8 => .s8
  | _ => .log6
def NF8.code : NF8 → Nat | .e4m3 => 0 | .e5m2 => 1
def NF8.ofCode (n : Nat) : NF8 := match n with | 0 => .e4m3 | _ => .e5m2
def PopN.code : PopN → Nat | .x1 => 0 | .x2 => 1 | .x4 => 2
def PopN.ofCode (n : Nat) : PopN := match n with | 0 => .x1 | 1 => .x2 | _ => .x4

/-- Special-register numbers of R120. -/
def SReg.code : SReg → Nat
  | .lane => 0x000 | .warp => 0x001 | .wg => 0x002 | .gang => 0x003 | .gmem => 0x004 | .core => 0x005
  | .clu => 0x006 | .die => 0x007 | .dev => 0x008 | .clock => 0x009 | .rgnc => 0x00A | .parm => 0x00B
  | .lfm => 0x010 | .fpx => 0x011 | .fpc => 0x012 | .qbo => 0x013 | .fold => 0x014 | .htvec => 0x018
  | .hpc => 0x019 | .hmask => 0x01A | .hdst => 0x01B | .hcause => 0x01C | .hsub => 0x01D | .tar => 0x020
  | .vbthr => 0x021 | .asid => 0x022
def SReg.ofCode (n : Nat) : SReg :=
  match n with
  | 0x000 => .lane | 0x001 => .warp | 0x002 => .wg | 0x003 => .gang | 0x004 => .gmem | 0x005 => .core
  | 0x006 => .clu | 0x007 => .die | 0x008 => .dev | 0x009 => .clock | 0x00A => .rgnc | 0x00B => .parm
  | 0x010 => .lfm | 0x011 => .fpx | 0x012 => .fpc | 0x013 => .qbo | 0x014 => .fold | 0x018 => .htvec
  | 0x019 => .hpc | 0x01A => .hmask | 0x01B => .hdst | 0x01C => .hcause | 0x01D => .hsub | 0x020 => .tar
  | 0x021 => .vbthr | _ => .asid

/-! ## Building the fields of a word -/

/-- A 64-bit word (R47). -/
def raw64 (h : Hdr) (op fn : Nat) (d a b : Reg) : Raw :=
  ⟨0, h.pk, BitVec.ofNat 8 op, h.gp, h.gn, d, a, b, h.keep, BitVec.ofNat 10 fn, 0, 0, 0, 0, 0, 0⟩

/-- A 96-bit form I word (R54): bit 9 of FN set, B zero. -/
def rawI (h : Hdr) (op fn : Nat) (d a : Reg) (v : Word) : Raw :=
  ⟨1, h.pk, BitVec.ofNat 8 op, h.gp, h.gn, d, a, 0, h.keep, BitVec.ofNat 10 (fn + 512), 0, 0, 0, 0, v, 0⟩

def Pop.qop : Pop → BitVec 2 | .none => 0 | .a _ => 1 | .b _ => 2 | .c _ => 3
def Pop.qid : Pop → BitVec 3 | .none => 0 | .a q => q | .b q => q | .c q => q

/-- A 96-bit form X word (R53). -/
def rawX (h : Hdr) (op fn : Nat) (d : Reg) (x : Src3) (fn2 : Nat) : Raw :=
  ⟨1, h.pk, BitVec.ofNat 8 op, h.gp, h.gn, d, x.a, x.b, h.keep, BitVec.ofNat 10 fn, x.c, x.pop.qop, x.pop.qid,
    BitVec.ofNat 16 fn2, 0, 0⟩

/-- A 128-bit word (R56). -/
def raw128 (h : Hdr) (op fn : Nat) (d : Reg) (x : Src3) (v : Word) : Raw :=
  ⟨2, h.pk, BitVec.ofNat 8 op, h.gp, h.gn, d, x.a, x.b, h.keep, BitVec.ofNat 10 fn, x.c, x.pop.qop, x.pop.qid, 0, v, 0⟩

def rawB (h : Hdr) (op fn : Nat) (d a : Reg) : SrcB → Raw
  | .reg b => raw64 h op fn d a b
  | .imm v => rawI h op fn d a v

def rawM (h : Hdr) (op fn : Nat) (d : Reg) (m : Addr) : Raw :=
  match m.off with
  | none => raw64 h op fn d m.base 0
  | some v => rawI h op fn d m.base v

def rawS (h : Hdr) (op fn : Nat) (d : Reg) : StAddr → Raw
  | .short a b => raw64 h op fn d a b
  | .long a b pop v => raw128 h op fn d ⟨a, b, 0, pop⟩ v

def rawSX (h : Hdr) (op fn : Nat) (d : Reg) : SrcX → Raw
  | .reg x => rawX h op fn d x 0
  | .imm a b pop v => raw128 h op fn d ⟨a, b, 0, pop⟩ v

def rawAtom (h : Hdr) (t : ITy) (scr : Bool) (d : Reg) : AtomArg → Raw
  | .op o x => rawS h 0x68 (t.code + 4 * o.code + 64 * scr.toNat) d x
  | .cas x => rawX h 0x68 (t.code + 4 * 7 + 64 * scr.toNat) d x 0
  | .casOff x v => raw128 h 0x68 (t.code + 4 * 7 + 64 * scr.toNat) d x v

/-- FN of R97. -/
def intFn (t : ITy) (sat : Bool) (f : Nat) : Nat := t.code + 4 * sat.toNat + 8 * f
/-- FN of R133. -/
def fpFn (p : Nat) (rm : RMode) (f : Nat) : Nat := p + 4 * rm.code + 32 * f
/-- FN2 of R151. -/
def cvtFn2 (dst src : CTy) (sat sc hi : Bool) : Nat :=
  dst.code + 32 * src.code + 1024 * sat.toNat + 2048 * sc.toNat + 4096 * hi.toNat

/-- The fields of an instruction's word; the events of the machine have none. -/
def toRaw : Instr → Option Raw
  | .nop h => some (raw64 h 0x00 0 0 0 0)
  | .bra h off => some (rawI h 0x01 0 0 0 off)
  | .brx h a => some (raw64 h 0x02 0 0 a 0)
  | .call h d off => some (rawI h 0x03 0 d 0 off)
  | .callx h d a => some (raw64 h 0x04 0 d a 0)
  | .ret h a => some (raw64 h 0x05 0 0 a 0)
  | .exit h => some (raw64 h 0x06 0 0 0 0)
  | .join h m => some (raw64 h 0x07 0 m 0 0)
  | .leave h m => some (raw64 h 0x08 0 m 0 0)
  | .waitm h m => some (raw64 h 0x09 0 m 0 0)
  | .movmMaskFromW h m w => some (raw64 h 0x0A 0 m w 0)
  | .movmWFromMask h w m => some (raw64 h 0x0A 1 w m 0)
  | .movmMaskFromMask h d a => some (raw64 h 0x0A 2 d a 0)
  | .movmMaskImm h m v => some (rawI h 0x0A 0 m 0 v)
  | .rgn h => some (raw64 h 0x0B 0 0 0 0)
  | .trap h none => some (raw64 h 0x0C 0 0 0 0)
  | .trap h (some c) => some (rawI h 0x0C 0 0 0 (c.setWidth 32))
  | .wcall h d a svc => some (rawI h 0x0D 0 d a (svc.setWidth 32))
  | .rttRetry h => some (raw64 h 0x0E 0 0 0 0)
  | .rttSkip h => some (raw64 h 0x0E 1 0 0 0)
  | .rttSub h => some (raw64 h 0x0E 2 0 0 0)
  | .rttRetryRgn h => some (raw64 h 0x0E 4 0 0 0)
  | .yield h => some (raw64 h 0x0F 0 0 0 0)
  | .iadd h t sat d a b => some (rawB h 0x10 (intFn t sat 0) d a b)
  | .isum h t d x => some (rawX h 0x11 (intFn t false 0) d x 0)
  | .isub h t sat d a b => some (rawB h 0x12 (intFn t sat 0) d a b)
  | .imul h t d a b => some (rawB h 0x13 (intFn t false 0) d a b)
  | .imulhi h t d a b => some (rawB h 0x14 (intFn t false 0) d a b)
  | .imad h t sat d x => some (rawX h 0x15 (intFn t sat 0) d x 0)
  | .imadw h t d x => some (rawX h 0x16 t.code d x 0)
  | .imin h t d a b => some (rawB h 0x17 (intFn t false 0) d a b)
  | .imax h t d a b => some (rawB h 0x18 (intFn t false 0) d a b)
  | .iabs h wide sat d a => some (raw64 h 0x19 (2 * wide.toNat + 4 * sat.toNat) d a 0)
  | .isad h t d x => some (rawX h 0x1A (intFn t false 0) d x 0)
  | .shl h t d a b => some (rawB h 0x1B (intFn t false 0) d a b)
  | .shr h t d a b => some (rawB h 0x1C (intFn t false 0) d a b)
  | .sar h t d a b => some (rawB h 0x1D (intFn t false 0) d a b)
  | .rotL h t d a b => some (rawB h 0x1F (intFn t false 0) d a b)
  | .rotR h t d a b => some (rawB h 0x1F (intFn t false 1) d a b)
  | .funl h d x => some (rawSX h 0x1E 0 d x)
  | .and h t d a b => some (rawB h 0x20 t.code d a b)
  | .or h t d a b => some (rawB h 0x21 t.code d a b)
  | .xor h t d a b => some (rawB h 0x22 t.code d a b)
  | .not h t d a => some (raw64 h 0x23 t.code d a 0)
  | .tern h t d x tbl => some (rawX h 0x24 t.code d x tbl.toNat)
  | .popc h t d a => some (raw64 h 0x25 t.code d a 0)
  | .clz h t d a => some (raw64 h 0x26 t.code d a 0)
  | .ctz h t d a => some (raw64 h 0x27 t.code d a 0)
  | .brev h t d a => some (raw64 h 0x28 t.code d a 0)
  | .bfe h t d a b => some (rawB h 0x29 (intFn t false 0) d a b)
  | .bfi h t d x => some (rawSX h 0x2A t.code d x)
  | .bsel h d x => some (rawSX h 0x2B 0 d x)
  | .icmp h c t d a b => some (rawB h 0x2C (intFn t false c.code) d a b)
  | .iset h c t d a b => some (rawB h 0x2D (intFn t false c.code) d a b)
  | .sel h t d x => some (rawX h 0x2E t.code d x 0)
  | .plop h d a b c tbl => some (rawX h 0x2F 0 d ⟨a, b, c, .none⟩ tbl.toNat)
  | .pmovPack h d a => some (raw64 h 0x30 0x000 d a 0)
  | .pmovUnpack h d a => some (raw64 h 0x30 0x008 d a 0)
  | .pmovCopy h d a => some (raw64 h 0x30 0x010 d a 0)
  | .pmovNot h d a => some (raw64 h 0x30 0x018 d a 0)
  | .mov h d a => some (raw64 h 0x31 0x000 d a 0)
  | .movPair h d a => some (raw64 h 0x31 0x008 d a 0)
  | .movi h d v => some (rawI h 0x32 0 d 0 v)
  | .moviS64 h d v => some (rawI h 0x32 2 d 0 v)
  | .moviN64 h d v => some (rawI h 0x32 3 d 0 v)
  | .movw h d v => some { raw64 h 0x33 0 d 0 0 with len := 2, imm64 := v }
  | .lea h t sh d a b => some (rawB h 0x34 (t.code + 8 * sh.toNat) d a b)
  | .leax h t d x none => some (rawX h 0x35 t.code d x 0)
  | .leax h t d x (some v) => some (raw128 h 0x35 t.code d x v)
  | .srd h (.v d) sr => some (raw64 h 0x36 0 d (BitVec.ofNat 11 sr.code) 0)
  | .srd h (.pair d) sr => some (raw64 h 0x36 1 d (BitVec.ofNat 11 sr.code) 0)
  | .srd h (.w d) sr => some (raw64 h 0x36 2 d (BitVec.ofNat 11 sr.code) 0)
  | .swr h sr (.v a) => some (raw64 h 0x37 0 (BitVec.ofNat 11 sr.code) a 0)
  | .swr h sr (.pair a) => some (raw64 h 0x37 1 (BitVec.ofNat 11 sr.code) a 0)
  | .swr h sr (.imm v) => some (rawI h 0x37 0 (BitVec.ofNat 11 sr.code) 0 v)
  | .xlane h mode z d a b => some (rawB h 0x38 (mode.code + 4 * z.toNat) d a b)
  | .pollAll h neg d a => some (raw64 h 0x39 (0 + 4 * neg.toNat) d a 0)
  | .pollAny h neg d a => some (raw64 h 0x39 (1 + 4 * neg.toNat) d a 0)
  | .pollSame h neg d a => some (raw64 h 0x39 (2 + 4 * neg.toNat) d a 0)
  | .qmaskW h neg d a => some (raw64 h 0x3A (0 + 4 * neg.toNat) d a 0)
  | .qmaskV h neg d a => some (raw64 h 0x3A (1 + 4 * neg.toNat) d a 0)
  | .peersSet h pr d a => some (raw64 h 0x3B (0 + pr.toNat) d a 0)
  | .peersUni h pr d a => some (raw64 h 0x3B (2 + pr.toNat) d a 0)
  | .peersLead h pr d a => some (raw64 h 0x3B (4 + pr.toNat) d a 0)
  | .redux h op t (.w d) a => some (raw64 h 0x3C (t.code + 8 * op.code) d a 0)
  | .redux h op t (.v d) a => some (raw64 h 0x3C (t.code + 4 + 8 * op.code) d a 0)
  | .elect h d => some (raw64 h 0x3D 0 d 0 0)
  | .wmovWFromV h d a => some (raw64 h 0x3E 0 d a 0)
  | .wmovVFromW h d a => some (raw64 h 0x3E 1 d a 0)
  | .wmovWFromW h d a => some (raw64 h 0x3E 2 d a 0)
  | .wmovWImm h d v => some (rawI h 0x3E 0 d 0 v)
  | .wop h op t d a b => some (rawB h 0x3F (t.code + 8 * op.code) d a b)
  | .fadd h p rm d a b => some (rawB h 0x40 (fpFn p.code rm 0) d a b)
  | .fsub h p rm d a b => some (rawB h 0x41 (fpFn p.code rm 0) d a b)
  | .fmul h p rm d a b => some (rawB h 0x42 (fpFn p.code rm 0) d a b)
  | .ffma h p rm d x => some (rawX h 0x43 (fpFn p.code rm 0) d x 0)
  | .fmin h p d a b => some (rawB h 0x44 p.code d a b)
  | .fmax h p d a b => some (rawB h 0x45 p.code d a b)
  | .fcmp h c p d a b => some (rawB h 0x46 (fpFn p.code .dyn c.code) d a b)
  | .fset h c p d a b => some (rawB h 0x47 (fpFn p.code .dyn c.code) d a b)
  | .fclass h p d a => some (raw64 h 0x48 p.code d a 0)
  | .fclassTest h p d a v => some (rawI h 0x48 (fpFn p.code .dyn 1) d a v)
  | .frnd h p rm d a => some (raw64 h 0x49 (fpFn p.code rm 0) d a 0)
  | .frcp h d a => some (raw64 h 0x4A 0 d a 0)
  | .frsq h d a => some (raw64 h 0x4B 0 d a 0)
  | .fsqrt h p rm d a => some (raw64 h 0x4C (fpFn p.code rm 0) d a 0)
  | .fex2 h d a => some (raw64 h 0x4D 0 d a 0)
  | .flg2 h d a => some (raw64 h 0x4E 0 d a 0)
  | .fsin h d a => some (raw64 h 0x4F 0 d a 0)
  | .fcos h d a => some (raw64 h 0x50 0 d a 0)
  | .ftanh h d a => some (raw64 h 0x51 0 d a 0)
  | .fscale h p rm d a b => some (rawB h 0x52 (fpFn p.code rm 0) d a b)
  | .fgetexp h p d a => some (raw64 h 0x53 p.code d a 0)
  | .hpadd h p rm d a b => some (rawB h 0x54 (fpFn p.code rm 0) d a b)
  | .hpmul h p rm d a b => some (rawB h 0x55 (fpFn p.code rm 0) d a b)
  | .hpfma h p rm d x => some (rawX h 0x56 (fpFn p.code rm 0) d x 0)
  | .hpmnxMin h p d a b => some (rawB h 0x57 (fpFn p.code .dyn 0) d a b)
  | .hpmnxMax h p d a b => some (rawB h 0x57 (fpFn p.code .dyn 1) d a b)
  | .dot4Float h fa fb rm d x => some (rawX h 0x58 (4 * rm.code + 32 * fa.code + 128 * fb.code) d x 0)
  | .dot4S8 h d x => some (rawX h 0x58 0x140 d x 0)
  | .dot2 h p rm d x => some (rawX h 0x59 (4 * rm.code + 32 * (p.code - 1)) d x 0)
  | .cvt h dst src rm sat sc d a c pop =>
      some (rawX h 0x5A (4 * rm.code) d ⟨a, 0, c, pop⟩ (cvtFn2 dst src sat sc false))
  | .cvtp h dst rm sat sc d x => some (rawX h 0x5B (4 * rm.code) d x (cvtFn2 dst .f32 sat sc false))
  | .cvtx h src rm sc hi d a c pop =>
      some (rawX h 0x5C (4 * rm.code) d ⟨a, 0, c, pop⟩ (cvtFn2 .f32 src false sc hi))
  | .lmul h d a b => some (raw64 h 0x5D 0x000 d a b)
  | .lmulX4 h d a b => some (raw64 h 0x5D 0x020 d a b)
  | .lcvtWiden h j d a => some (raw64 h 0x5E (32 * j.toNat) d a 0)
  | .lcvtNarrow h sat d a => some (raw64 h 0x5E (32 * (4 + sat.toNat)) d a 0)
  | .ld h sz ch d m => some (rawM h 0x60 (sz.code + 8 * ch.code) d m)
  | .st h sz ch x => some (rawS h 0x61 (sz.code + 8 * ch.code) 0 x)
  | .lds h sz d m => some (rawM h 0x62 sz.code d m)
  | .sts h sz x => some (rawS h 0x63 sz.code 0 x)
  | .ldc h sz d m => some (rawM h 0x64 sz.code d m)
  | .ldw h sz d m => some (rawM h 0x65 sz.code d m)
  | .stw h sz x => some (rawS h 0x81 sz.code 0 x)
  | .ldq h k m => some (rawM h 0x66 0 k m)
  | .ldqScratch h k m => some (rawM h 0x66 1 k m)
  | .popq h n d q => some (rawX h 0x67 n.code d ⟨0, 0, 0, .a q⟩ 0)
  | .atom h t scr d x => some (rawAtom h t scr d x)
  | .atomf h op p scr d x => some (rawS h 0x69 (p.code + 4 * op.code + 64 * scr.toNat) d x)
  | .red h op t scr x => some (rawS h 0x6A (t.code + 4 * op.code + 64 * scr.toNat) 0 x)
  | .redf h op p scr x => some (rawS h 0x6B (p.code + 4 * op.code + 64 * scr.toNat) 0 x)
  | .acq h sc => some (raw64 h 0x6C sc.code 0 0 0)
  | .rel h sc => some (raw64 h 0x6D sc.code 0 0 0)
  | .waitc h c n => some (raw64 h 0x6E (c.code + 8 * n.toNat) 0 0 0)
  | .cctlIvall h => some (raw64 h 0x6F 0 0 0 0)
  | .cctlWbl h m => some (rawM h 0x6F 1 0 m)
  | .cctlInvl h m => some (rawM h 0x6F 2 0 m)
  | .cctlKwb h m => some (rawM h 0x6F 3 0 m)
  | .cctlKinv h m => some (rawM h 0x6F 4 0 m)
  | .pref h t m => some (rawM h 0x70 t.code 0 m)
  | .bara h b => some (raw64 h 0x71 b.toNat 0 0 0)
  | .barw h b => some (raw64 h 0x72 b.toNat 0 0 0)
  | .bars h b => some (raw64 h 0x73 b.toNat 0 0 0)
  | .barinit h b x => some (rawB h 0x74 b.toNat 0 0 x)
  | .barq h d b => some (raw64 h 0x75 b.toNat d 0 0)
  | .marv h sc m => some (rawM h 0x76 sc.code 0 m)
  | .mwait h sc x => some (rawS h 0x77 sc.code 0 x)
  | .sleep h (.reg a) => some (raw64 h 0x78 0 0 a 0)
  | .sleep h (.imm v) => some (rawI h 0x78 0 0 0 v)
  | .sleept h a b => some (raw64 h 0x79 0 0 a b)
  | .watch h arm m => some (rawM h 0x7A arm.toNat 0 m)
  | .waitw h mask a => some (raw64 h 0x7B mask.toNat 0 a 0)
  | .cpya h dir d x => some (rawX h 0x7C dir.code d x 0)
  | .cpyw h a b => some (raw64 h 0x7D 0 0 a b)
  | .cpyq h k a b => some (raw64 h 0x7E 0 k a b)
  | .gath h wide sh sgn d a b => some (raw64 h 0x7F (4 + wide.toNat + 8 * sh.toNat + 64 * sgn.toNat) d a b)
  | .scat h wide sh sgn x => some (rawX h 0x80 (4 + wide.toNat + 8 * sh.toNat + 64 * sgn.toNat) 0 x 0)
  | .wld h f a b none => some (raw64 h 0x90 f.code 0 a b)
  | .wld h f a b (some v) => some (raw128 h 0x90 f.code 0 ⟨a, b, 0, .none⟩ v)
  | .wswap h => some (raw64 h 0x91 0 0 0 0)
  | .mms h d m => some (rawM h 0x92 0 d m)
  | .mqry h d a => some (raw64 h 0x93 0 d a 0)
  | .mfold h d => some (raw64 h 0x94 0 d 0 0)
  | .mfoldWr h a b => some (raw64 h 0x94 1 0 a b)
  | .mrst h a => some (raw64 h 0x95 0 0 a 0)
  | .aopen h id a => some (raw64 h 0x98 id.toNat 0 a 0)
  | .aopenZ h id a => some (raw64 h 0x98 (64 + id.toNat) 0 a 0)
  | .aadd h cnt id a b => some (rawB h 0x99 (id.toNat + 64 * cnt.toNat) 0 a b)
  | .acnt h id a b => some (rawB h 0x9A id.toNat 0 a b)
  | .rack h force id a b c => some (rawX h 0x9B (id.toNat + 256 * force.toNat) 0 ⟨a, b, c, .none⟩ 0)
  | .rackW h force id a b c => some (rawX h 0x9B (id.toNat + 64 + 256 * force.toNat) 0 ⟨a, b, c, .none⟩ 0)
  | .rackX h id a b c => some (rawX h 0x9B (id.toNat + 128) 0 ⟨a, b, c, .none⟩ 0)
  | .aqryReg h d a => some (raw64 h 0x9C 0 d a 0)
  | .aqryLine h d a b => some (raw64 h 0x9C 1 d a b)
  | .launch h d a b => some (raw64 h 0xA0 0 d a b)
  | .tsig h sc x => some (rawS h 0xA1 sc.code 0 x)
  | .ctxsv h a b c => some (rawX h 0xA2 0 0 ⟨a, b, c, .none⟩ 0)
  | .ctxld h a => some (raw64 h 0xA3 0 0 a 0)
  | .harv h a b c => some (rawX h 0xA4 0 0 ⟨a, b, c, .none⟩ 0)
  | .harvR h a b c => some (rawX h 0xA4 1 0 ⟨a, b, c, .none⟩ 0)
  | .tlbiPg h a b c => some (rawX h 0xA5 0 0 ⟨a, b, c, .none⟩ 0)
  | .tlbiAsid h c => some (rawX h 0xA5 1 0 ⟨0, 0, c, .none⟩ 0)
  | .tlbiAll h => some (rawX h 0xA5 2 0 ⟨0, 0, 0, .none⟩ 0)
  | .halt h a => some (raw64 h 0xA6 0 0 a 0)
  | .coll h a => some (raw64 h 0xB0 0 0 a 0)
  | .collResume h a => some (raw64 h 0xB0 1 0 a 0)
  | .sendq h x none => some (rawX h 0xB1 0 0 x 0)
  | .sendq h x (some v) => some (raw128 h 0xB1 0 0 x v)
  | .slotq h d a => some (raw64 h 0xB2 0 d a 0)
  | .slotqCur h d => some (raw64 h 0xB2 1 d 0 0)
  | .topo h a => some (raw64 h 0xB3 0 0 a 0)
  | .rtsw h a b => some (raw64 h 0xB4 0 0 a b)
  | .pfence h => some (raw64 h 0xB5 0 0 0 0)
  | .pfenceDev h => some (raw64 h 0xB5 1 0 0 0)
  | .linkq h d a => some (raw64 h 0xB6 0 d a 0)
  | _ => none

/-! ## Reading the instruction off the fields

`fromRaw` reads each field that the entry of the primary opcode names; `decodeRaw` then keeps the instruction only when
its own word is the word read, which rejects every reserved value and every length the entry does not list. -/

def Raw.hdr (r : Raw) : Hdr := ⟨r.pk, r.gp, r.gn, r.keep⟩
def Raw.pop (r : Raw) : Pop :=
  match r.qop.toNat with | 0 => .none | 1 => .a r.qid | 2 => .b r.qid | _ => .c r.qid
/-- The function bits FN [8:0]. -/
def Raw.f (r : Raw) : Nat := r.fn.toNat % 512
/-- The form I bit of a 96-bit word. -/
def Raw.isI (r : Raw) : Bool := r.len == 1 && r.fn.getLsbD 9
def Raw.is128 (r : Raw) : Bool := r.len == 2
def Raw.srcB (r : Raw) : SrcB := if r.isI then .imm r.imm else .reg r.b
def Raw.src3 (r : Raw) : Src3 := ⟨r.a, r.b, r.c, r.pop⟩
def Raw.srcX (r : Raw) : SrcX := if r.is128 then .imm r.a r.b r.pop r.imm else .reg r.src3
def Raw.addr (r : Raw) : Addr := ⟨r.a, if r.isI then some r.imm else none⟩
def Raw.stAddr (r : Raw) : StAddr := if r.is128 then .long r.a r.b r.pop r.imm else .short r.a r.b
def Raw.off128 (r : Raw) : Option Word := if r.is128 then some r.imm else none
/-- Bit i of FN. -/
def Raw.fb (r : Raw) (i : Nat) : Bool := r.fn.getLsbD i
/-- w bits of FN from bit i. -/
def Raw.fx (r : Raw) (i w : Nat) : Nat := r.fn.toNat / 2 ^ i % 2 ^ w
def Raw.f2 (r : Raw) (i w : Nat) : Nat := r.fn2.toNat / 2 ^ i % 2 ^ w
def Raw.ity (r : Raw) : ITy := .ofCode (r.fx 0 2)
def Raw.bty (r : Raw) : BTy := .ofCode (r.fx 0 2)
def Raw.t32 (r : Raw) : T32 := .ofCode (r.fx 0 2)
def Raw.fty (r : Raw) : FTy := .ofCode (r.fx 0 2)
def Raw.hty (r : Raw) : HTy := .ofCode (r.fx 0 2)
def Raw.rm (r : Raw) : RMode := .ofCode (r.fx 2 3)
def Raw.id6 (r : Raw) : BitVec 6 := BitVec.ofNat 6 (r.fx 0 6)

def fromRawControl (r : Raw) (h : Hdr) : Option Instr :=
  match r.op.toNat with
  | 0x00 => some (.nop h)
  | 0x01 => some (.bra h r.imm)
  | 0x02 => some (.brx h r.a)
  | 0x03 => some (.call h r.d r.imm)
  | 0x04 => some (.callx h r.d r.a)
  | 0x05 => some (.ret h r.a)
  | 0x06 => some (.exit h)
  | 0x07 => some (.join h r.d)
  | 0x08 => some (.leave h r.d)
  | 0x09 => some (.waitm h r.d)
  | 0x0A =>
    if r.isI then some (.movmMaskImm h r.d r.imm)
    else match r.f with
    | 0 => some (.movmMaskFromW h r.d r.a)
    | 1 => some (.movmWFromMask h r.d r.a)
    | _ => some (.movmMaskFromMask h r.d r.a)
  | 0x0B => some (.rgn h)
  | 0x0C => some (.trap h (if r.isI then some (r.imm.setWidth 16) else none))
  | 0x0D => some (.wcall h r.d r.a (r.imm.setWidth 16))
  | 0x0E =>
    match r.f with
    | 0 => some (.rttRetry h)
    | 1 => some (.rttSkip h)
    | 2 => some (.rttSub h)
    | _ => some (.rttRetryRgn h)
  | 0x0F => some (.yield h)
  | _ => none

def fromRawInteger (r : Raw) (h : Hdr) : Option Instr :=
  match r.op.toNat with
  | 0x10 => some (.iadd h r.ity (r.fb 2) r.d r.a r.srcB)
  | 0x11 => some (.isum h r.ity r.d r.src3)
  | 0x12 => some (.isub h r.ity (r.fb 2) r.d r.a r.srcB)
  | 0x13 => some (.imul h r.ity r.d r.a r.srcB)
  | 0x14 => some (.imulhi h r.ity r.d r.a r.srcB)
  | 0x15 => some (.imad h r.ity (r.fb 2) r.d r.src3)
  | 0x16 => some (.imadw h r.t32 r.d r.src3)
  | 0x17 => some (.imin h r.ity r.d r.a r.srcB)
  | 0x18 => some (.imax h r.ity r.d r.a r.srcB)
  | 0x19 => some (.iabs h (r.fb 1) (r.fb 2) r.d r.a)
  | 0x1A => some (.isad h r.ity r.d r.src3)
  | 0x1B => some (.shl h r.ity r.d r.a r.srcB)
  | 0x1C => some (.shr h r.ity r.d r.a r.srcB)
  | 0x1D => some (.sar h r.ity r.d r.a r.srcB)
  | 0x1E => some (.funl h r.d r.srcX)
  | 0x1F => some (if r.fb 3 then .rotR h r.ity r.d r.a r.srcB else .rotL h r.ity r.d r.a r.srcB)
  | 0x20 => some (.and h r.bty r.d r.a r.srcB)
  | 0x21 => some (.or h r.bty r.d r.a r.srcB)
  | 0x22 => some (.xor h r.bty r.d r.a r.srcB)
  | 0x23 => some (.not h r.bty r.d r.a)
  | 0x24 => some (.tern h r.bty r.d r.src3 (BitVec.ofNat 8 (r.f2 0 8)))
  | 0x25 => some (.popc h r.bty r.d r.a)
  | 0x26 => some (.clz h r.bty r.d r.a)
  | 0x27 => some (.ctz h r.bty r.d r.a)
  | 0x28 => some (.brev h r.bty r.d r.a)
  | 0x29 => some (.bfe h r.ity r.d r.a r.srcB)
  | 0x2A => some (.bfi h r.bty r.d r.srcX)
  | 0x2B => some (.bsel h r.d r.srcX)
  | 0x2C => some (.icmp h (.ofCode (r.fx 3 3)) r.ity r.d r.a r.srcB)
  | 0x2D => some (.iset h (.ofCode (r.fx 3 3)) r.ity r.d r.a r.srcB)
  | 0x2E => some (.sel h r.bty r.d r.src3)
  | 0x2F => some (.plop h r.d r.a r.b r.c (BitVec.ofNat 8 (r.f2 0 8)))
  | 0x30 =>
    match r.fx 3 2 with
    | 0 => some (.pmovPack h r.d r.a)
    | 1 => some (.pmovUnpack h r.d r.a)
    | 2 => some (.pmovCopy h r.d r.a)
    | _ => some (.pmovNot h r.d r.a)
  | 0x31 => some (if r.fb 3 then .movPair h r.d r.a else .mov h r.d r.a)
  | 0x32 =>
    match r.fx 0 2 with
    | 0 => some (.movi h r.d r.imm)
    | 2 => some (.moviS64 h r.d r.imm)
    | _ => some (.moviN64 h r.d r.imm)
  | 0x33 => some (.movw h r.d r.imm64)
  | 0x34 => some (.lea h r.t32 (BitVec.ofNat 3 (r.fx 3 3)) r.d r.a r.srcB)
  | 0x35 => some (.leax h r.t32 r.d r.src3 r.off128)
  | 0x36 =>
    match r.fx 0 2 with
    | 0 => some (.srd h (.v r.d) (.ofCode r.a.toNat))
    | 1 => some (.srd h (.pair r.d) (.ofCode r.a.toNat))
    | _ => some (.srd h (.w r.d) (.ofCode r.a.toNat))
  | 0x37 =>
    some (.swr h (.ofCode r.d.toNat)
      (if r.isI then .imm r.imm else if r.fb 0 then .pair r.a else .v r.a))
  | _ => none

def fromRawWarp (r : Raw) (h : Hdr) : Option Instr :=
  match r.op.toNat with
  | 0x38 => some (.xlane h (.ofCode (r.fx 0 2)) (BitVec.ofNat 3 (r.fx 2 3)) r.d r.a r.srcB)
  | 0x39 =>
    match r.fx 0 2 with
    | 0 => some (.pollAll h (r.fb 2) r.d r.a)
    | 1 => some (.pollAny h (r.fb 2) r.d r.a)
    | _ => some (.pollSame h (r.fb 2) r.d r.a)
  | 0x3A => some (if r.fb 0 then .qmaskV h (r.fb 2) r.d r.a else .qmaskW h (r.fb 2) r.d r.a)
  | 0x3B =>
    match r.fx 1 2 with
    | 0 => some (.peersSet h (r.fb 0) r.d r.a)
    | 1 => some (.peersUni h (r.fb 0) r.d r.a)
    | _ => some (.peersLead h (r.fb 0) r.d r.a)
  | 0x3C => some (.redux h (.ofCode (r.fx 3 3)) r.t32 (if r.fb 2 then .v r.d else .w r.d) r.a)
  | 0x3D => some (.elect h r.d)
  | 0x3E =>
    if r.isI then some (.wmovWImm h r.d r.imm)
    else match r.fx 0 2 with
    | 0 => some (.wmovWFromV h r.d r.a)
    | 1 => some (.wmovVFromW h r.d r.a)
    | _ => some (.wmovWFromW h r.d r.a)
  | 0x3F => some (.wop h (.ofCode (r.fx 3 4)) r.t32 r.d r.a r.srcB)
  | _ => none

def fromRawFloat (r : Raw) (h : Hdr) : Option Instr :=
  match r.op.toNat with
  | 0x40 => some (.fadd h r.fty r.rm r.d r.a r.srcB)
  | 0x41 => some (.fsub h r.fty r.rm r.d r.a r.srcB)
  | 0x42 => some (.fmul h r.fty r.rm r.d r.a r.srcB)
  | 0x43 => some (.ffma h r.fty r.rm r.d r.src3)
  | 0x44 => some (.fmin h r.fty r.d r.a r.srcB)
  | 0x45 => some (.fmax h r.fty r.d r.a r.srcB)
  | 0x46 => some (.fcmp h (.ofCode (r.fx 5 4)) r.fty r.d r.a r.srcB)
  | 0x47 => some (.fset h (.ofCode (r.fx 5 4)) r.fty r.d r.a r.srcB)
  | 0x48 => some (if r.fb 5 then .fclassTest h r.fty r.d r.a r.imm else .fclass h r.fty r.d r.a)
  | 0x49 => some (.frnd h r.fty r.rm r.d r.a)
  | 0x4A => some (.frcp h r.d r.a)
  | 0x4B => some (.frsq h r.d r.a)
  | 0x4C => some (.fsqrt h r.fty r.rm r.d r.a)
  | 0x4D => some (.fex2 h r.d r.a)
  | 0x4E => some (.flg2 h r.d r.a)
  | 0x4F => some (.fsin h r.d r.a)
  | 0x50 => some (.fcos h r.d r.a)
  | 0x51 => some (.ftanh h r.d r.a)
  | 0x52 => some (.fscale h r.fty r.rm r.d r.a r.srcB)
  | 0x53 => some (.fgetexp h r.fty r.d r.a)
  | 0x54 => some (.hpadd h r.hty r.rm r.d r.a r.srcB)
  | 0x55 => some (.hpmul h r.hty r.rm r.d r.a r.srcB)
  | 0x56 => some (.hpfma h r.hty r.rm r.d r.src3)
  | 0x57 => some (if r.fb 5 then .hpmnxMax h r.hty r.d r.a r.srcB else .hpmnxMin h r.hty r.d r.a r.srcB)
  | 0x58 =>
    some (if r.fx 5 2 = 2 then .dot4S8 h r.d r.src3
      else .dot4Float h (.ofCode (r.fx 5 2)) (.ofCode (r.fx 7 2)) r.rm r.d r.src3)
  | 0x59 => some (.dot2 h (if r.fb 5 then .bf16 else .f16) r.rm r.d r.src3)
  | 0x5A =>
    some (.cvt h (.ofCode (r.f2 0 5)) (.ofCode (r.f2 5 5)) r.rm (r.fn2.getLsbD 10) (r.fn2.getLsbD 11)
      r.d r.a r.c r.pop)
  | 0x5B => some (.cvtp h (.ofCode (r.f2 0 5)) r.rm (r.fn2.getLsbD 10) (r.fn2.getLsbD 11) r.d r.src3)
  | 0x5C => some (.cvtx h (.ofCode (r.f2 5 5)) r.rm (r.fn2.getLsbD 11) (r.fn2.getLsbD 12) r.d r.a r.c r.pop)
  | 0x5D => some (if r.fb 5 then .lmulX4 h r.d r.a r.b else .lmul h r.d r.a r.b)
  | 0x5E =>
    some (if r.fb 7 then .lcvtNarrow h (r.fb 5) r.d r.a
      else .lcvtWiden h (BitVec.ofNat 2 (r.fx 5 2)) r.d r.a)
  | _ => none

def Raw.atomArg (r : Raw) : AtomArg :=
  if r.fx 2 4 = 7 then (if r.is128 then .casOff r.src3 r.imm else .cas r.src3)
  else .op (.ofCode (r.fx 2 4)) r.stAddr

def fromRawMemory (r : Raw) (h : Hdr) : Option Instr :=
  match r.op.toNat with
  | 0x60 => some (.ld h (.ofCode (r.fx 0 3)) (.ofCode (r.fx 3 2)) r.d r.addr)
  | 0x61 => some (.st h (.ofCode (r.fx 0 3)) (.ofCode (r.fx 3 2)) r.stAddr)
  | 0x62 => some (.lds h (.ofCode (r.fx 0 3)) r.d r.addr)
  | 0x63 => some (.sts h (.ofCode (r.fx 0 3)) r.stAddr)
  | 0x64 => some (.ldc h (.ofCode (r.fx 0 3)) r.d r.addr)
  | 0x65 => some (.ldw h (.ofCode (r.fx 0 3)) r.d r.addr)
  | 0x66 => some (if r.fb 0 then .ldqScratch h r.d r.addr else .ldq h r.d r.addr)
  | 0x67 => some (.popq h (.ofCode (r.fx 0 2)) r.d r.qid)
  | 0x68 => some (.atom h r.ity (r.fb 6) r.d r.atomArg)
  | 0x69 => some (.atomf h (.ofCode (r.fx 2 4)) r.fty (r.fb 6) r.d r.stAddr)
  | 0x6A => some (.red h (.ofCode (r.fx 2 4)) r.ity (r.fb 6) r.stAddr)
  | 0x6B => some (.redf h (.ofCode (r.fx 2 4)) r.fty (r.fb 6) r.stAddr)
  | 0x6C => some (.acq h (.ofCode (r.fx 0 3)))
  | 0x6D => some (.rel h (.ofCode (r.fx 0 3)))
  | 0x6E => some (.waitc h (.ofCode (r.fx 0 3)) (BitVec.ofNat 6 (r.fx 3 6)))
  | 0x6F =>
    match r.fx 0 3 with
    | 0 => some (.cctlIvall h)
    | 1 => some (.cctlWbl h r.addr)
    | 2 => some (.cctlInvl h r.addr)
    | 3 => some (.cctlKwb h r.addr)
    | _ => some (.cctlKinv h r.addr)
  | 0x70 => some (.pref h (.ofCode (r.fx 0 2)) r.addr)
  | _ => none

def fromRawSync (r : Raw) (h : Hdr) : Option Instr :=
  match r.op.toNat with
  | 0x71 => some (.bara h r.id6)
  | 0x72 => some (.barw h r.id6)
  | 0x73 => some (.bars h r.id6)
  | 0x74 => some (.barinit h r.id6 r.srcB)
  | 0x75 => some (.barq h r.d r.id6)
  | 0x76 => some (.marv h (.ofCode (r.fx 0 3)) r.addr)
  | 0x77 => some (.mwait h (.ofCode (r.fx 0 3)) r.stAddr)
  | 0x78 => some (.sleep h (if r.isI then .imm r.imm else .reg r.a))
  | 0x79 => some (.sleept h r.a r.b)
  | 0x7A => some (.watch h (BitVec.ofNat 2 (r.fx 0 2)) r.addr)
  | 0x7B => some (.waitw h (BitVec.ofNat 4 (r.fx 0 4)) r.a)
  | 0x7C => some (.cpya h (.ofCode (r.fx 0 2)) r.d r.src3)
  | 0x7D => some (.cpyw h r.a r.b)
  | 0x7E => some (.cpyq h r.d r.a r.b)
  | 0x7F => some (.gath h (r.fb 0) (BitVec.ofNat 3 (r.fx 3 3)) (r.fb 6) r.d r.a r.b)
  | 0x80 => some (.scat h (r.fb 0) (BitVec.ofNat 3 (r.fx 3 3)) (r.fb 6) r.src3)
  | 0x81 => some (.stw h (.ofCode (r.fx 0 3)) r.stAddr)
  | _ => none

def fromRawSystem (r : Raw) (h : Hdr) : Option Instr :=
  match r.op.toNat with
  | 0x90 => some (.wld h (.ofCode (r.fx 0 4)) r.a r.b r.off128)
  | 0x91 => some (.wswap h)
  | 0x92 => some (.mms h r.d r.addr)
  | 0x93 => some (.mqry h r.d r.a)
  | 0x94 => some (if r.fb 0 then .mfoldWr h r.a r.b else .mfold h r.d)
  | 0x95 => some (.mrst h r.a)
  | 0x98 => some (if r.fb 6 then .aopenZ h r.id6 r.a else .aopen h r.id6 r.a)
  | 0x99 => some (.aadd h (r.fb 6) r.id6 r.a r.srcB)
  | 0x9A => some (.acnt h r.id6 r.a r.srcB)
  | 0x9B =>
    match r.fx 6 2 with
    | 0 => some (.rack h (r.fb 8) r.id6 r.a r.b r.c)
    | 1 => some (.rackW h (r.fb 8) r.id6 r.a r.b r.c)
    | _ => some (.rackX h r.id6 r.a r.b r.c)
  | 0x9C => some (if r.fb 0 then .aqryLine h r.d r.a r.b else .aqryReg h r.d r.a)
  | 0xA0 => some (.launch h r.d r.a r.b)
  | 0xA1 => some (.tsig h (.ofCode (r.fx 0 3)) r.stAddr)
  | 0xA2 => some (.ctxsv h r.a r.b r.c)
  | 0xA3 => some (.ctxld h r.a)
  | 0xA4 => some (if r.fb 0 then .harvR h r.a r.b r.c else .harv h r.a r.b r.c)
  | 0xA5 =>
    match r.fx 0 2 with
    | 0 => some (.tlbiPg h r.a r.b r.c)
    | 1 => some (.tlbiAsid h r.c)
    | _ => some (.tlbiAll h)
  | 0xA6 => some (.halt h r.a)
  | 0xB0 => some (if r.fb 0 then .collResume h r.a else .coll h r.a)
  | 0xB1 => some (.sendq h r.src3 r.off128)
  | 0xB2 => some (if r.fb 0 then .slotqCur h r.d else .slotq h r.d r.a)
  | 0xB3 => some (.topo h r.a)
  | 0xB4 => some (.rtsw h r.a r.b)
  | 0xB5 => some (if r.fb 0 then .pfenceDev h else .pfence h)
  | 0xB6 => some (.linkq h r.d r.a)
  | _ => none

/-- The primary opcode map of R60; every other opcode is reserved (R61). -/
def fromRaw (r : Raw) : Option Instr :=
  let op := r.op.toNat
  if op < 0x10 then fromRawControl r r.hdr
  else if op < 0x38 then fromRawInteger r r.hdr
  else if op < 0x40 then fromRawWarp r r.hdr
  else if op < 0x60 then fromRawFloat r r.hdr
  else if op < 0x71 then fromRawMemory r r.hdr
  else if op < 0x90 then fromRawSync r r.hdr
  else fromRawSystem r r.hdr

/-- Check 3 of R58 as far as the word alone decides it. -/
def decodeRaw (r : Raw) : Option Instr :=
  match fromRaw r with
  | some i => if toRaw i = some r && i.wf then some i else none
  | none => none

/-! ## Words and bytes -/

/-- The fields of the 128 bits that stand at a counter, of which the length takes 64, 96 or 128. -/
def unpack (w : BitVec 128) : Raw :=
  let len : BitVec 2 := w.extractLsb' 0 2
  let fn : BitVec 10 := w.extractLsb' 54 10
  let op : BitVec 8 := w.extractLsb' 3 8
  let formI := len == 1 && fn.getLsbD 9
  let wide := len == 2 && op == 0x33
  let x := (len == 1 && !formI) || (len == 2 && !wide)
  { len := len
    pk := w.getLsbD 2
    op := op
    gp := w.extractLsb' 11 7
    gn := w.getLsbD 18
    d := w.extractLsb' 19 11
    a := w.extractLsb' 30 11
    b := w.extractLsb' 41 11
    keep := w.extractLsb' 52 2
    fn := fn
    c := if x then w.extractLsb' 64 11 else 0
    qop := if x then w.extractLsb' 75 2 else 0
    qid := if x then w.extractLsb' 77 3 else 0
    fn2 := if x then w.extractLsb' 80 16 else 0
    imm := if formI then w.extractLsb' 64 32 else if len == 2 && !wide then w.extractLsb' 96 32 else 0
    imm64 := if wide then w.extractLsb' 64 64 else 0 }

/-- Bits [63:0] of the word of some fields (R47). -/
def Raw.low (r : Raw) : DWord :=
  r.fn ++ r.keep ++ r.b ++ r.a ++ r.d ++ BitVec.ofBool r.gn ++ r.gp ++ r.op ++ BitVec.ofBool r.pk ++ r.len

/-- Bits [127:64] (R53, R54, R56); those above the length are zero. -/
def Raw.high (r : Raw) : DWord :=
  if r.len == 2 && r.op == 0x33 then r.imm64
  else if r.len == 1 && r.fn.getLsbD 9 then r.imm.setWidth 64
  else r.imm ++ r.fn2 ++ r.qid ++ r.qop ++ r.c

/-- The word of some fields. -/
def pack (r : Raw) : BitVec 128 := r.high ++ r.low

/-- Length in bytes by its code (R47). -/
def lenBytes (c : BitVec 2) : Nat := match c.toNat with | 0 => 8 | 1 => 12 | 2 => 16 | _ => 0

/-- What stands at a counter (R44, and check 3 of R58). -/
inductive Decoded where
  | pad
  | badLength
  | illegal
  | instr (i : Instr)
  deriving DecidableEq, Repr

/-- R44 and check 3 of R58 on the 128 bits at a counter. -/
def decode (w : BitVec 128) : Decoded :=
  if w.extractLsb' 0 32 = 0xFFFFFFFF#32 then .pad
  else if w.extractLsb' 0 2 = 3#2 then .badLength
  else match decodeRaw (unpack w) with
  | some i => .instr i
  | none => .illegal

/-- Little-endian bytes to a number (R43). -/
def bytesToNat : List Byte → Nat
  | [] => 0
  | b :: bs => b.toNat + 256 * bytesToNat bs

/-- n little-endian bytes of a number. -/
def natToBytes : Nat → Nat → List Byte
  | 0, _ => []
  | n + 1, v => BitVec.ofNat 8 v :: natToBytes n (v / 256)

/-- Decoding a list of bytes: the first 16, absent ones read as zero. -/
def decodeBytes (bs : List Byte) : Decoded := decode (BitVec.ofNat 128 (bytesToNat (bs.take 16)))

/-- The bytes of an instruction's word, first byte first; none for an event, which has no word. -/
def encode (i : Instr) : Option (List Byte) :=
  (toRaw i).map fun r => natToBytes (lenBytes r.len) (pack r).toNat

/-- The instruction the decoder reads from a word whose bits are w, in the numbering of the opcode table. -/
def decodeTableWord (nbits w : Nat) : Option Instr :=
  match decodeBytes (natToBytes 16 (w % 2 ^ nbits)) with
  | .instr i => some i
  | _ => none

end Sys2Proof
end

