-- ==== Sys2Proof/Machine/Number.lean ====
section
/-! DEFINITION. Number formats and rounding (R11 to R42): exact dyadic values, `RoundToFormat` and its companions. -/

namespace Sys2Proof.Machine

/-- The float formats of R14 and R17. -/
inductive Fmt where
  | f32 | f16 | bf16 | e4m3 | e5m2 | e3m2 | e2m3 | e2m1
  deriving DecidableEq, Repr

/-- Rounding modes of R26. -/
inductive Rnd where
  | rne | rz | ru | rd
  deriving DecidableEq, Repr

/-- A float datum: sign and exact magnitude m × 2^e, an infinity, or a NaN (signalling or quiet). -/
inductive Num where
  | fin (neg : Bool) (m : Nat) (e : Int)
  | inf (neg : Bool)
  | nan (sig : Bool)
  deriving DecidableEq, Repr

/-- Sticky flags in the places of `sr.fpx` (R131): invalid, divide-by-zero, overflow, underflow, inexact. -/
abbrev Flags := BitVec 5
def flagI : Flags := 1
def flagZ : Flags := 2
def flagO : Flags := 4
def flagU : Flags := 8
def flagX : Flags := 16

def Fmt.width : Fmt → Nat
  | .f32 => 32 | .f16 => 16 | .bf16 => 16 | .e4m3 => 8 | .e5m2 => 8 | .e3m2 => 6 | .e2m3 => 6 | .e2m1 => 4
/-- Mantissa bits Mb (R14, R17). -/
def Fmt.mb : Fmt → Nat
  | .f32 => 23 | .f16 => 10 | .bf16 => 7 | .e4m3 => 3 | .e5m2 => 2 | .e3m2 => 2 | .e2m3 => 3 | .e2m1 => 1
/-- Exponent of the smallest normal. -/
def Fmt.emin : Fmt → Int
  | .f32 => -126 | .f16 => -14 | .bf16 => -126 | .e4m3 => -6 | .e5m2 => -14 | .e3m2 => -2 | .e2m3 => 0 | .e2m1 => 0
/-- Exponent of the largest finite value. -/
def Fmt.emax : Fmt → Int
  | .f32 => 127 | .f16 => 15 | .bf16 => 127 | .e4m3 => 8 | .e5m2 => 15 | .e3m2 => 4 | .e2m3 => 2 | .e2m1 => 2
/-- Significand of the largest finite value. -/
def Fmt.maxSig : Fmt → Nat
  | .e4m3 => 14
  | f => 2 ^ (f.mb + 1) - 1
def Fmt.hasInf : Fmt → Bool | .f32 => true | .f16 => true | .bf16 => true | .e5m2 => true | _ => false
def Fmt.hasNaN : Fmt → Bool | .e4m3 => true | f => f.hasInf
def Fmt.narrow : Fmt → Bool | .f32 => false | .f16 => false | .bf16 => false | _ => true
/-- Formats that flush-to-zero touches (R16). -/
def Fmt.flushes : Fmt → Bool | .f32 => true | .bf16 => true | _ => false
/-- Default NaN (R14, R18). -/
def Fmt.defaultNaN : Fmt → Nat
  | .f32 => 0x7FC00000 | .f16 => 0x7E00 | .bf16 => 0x7FC0 | .e4m3 => 0x7F | .e5m2 => 0x7E | _ => 0

def Fmt.signBit (f : Fmt) (neg : Bool) : Nat := if neg then 2 ^ (f.width - 1) else 0
/-- Field of the largest finite magnitude. -/
def Fmt.maxBits (f : Fmt) : Nat := (f.emax - f.emin).toNat * 2 ^ f.mb + f.maxSig
/-- Field of infinity, for a format that has one. -/
def Fmt.infBits (f : Fmt) : Nat := f.maxBits + 1

/-- The datum that the low bits of x denote in a format (R14, R17, R18, R19). -/
def Fmt.read (f : Fmt) (x : Nat) : Num :=
  let x := x % 2 ^ f.width
  let neg := x / 2 ^ (f.width - 1) == 1
  let mag := x % 2 ^ (f.width - 1)
  let ex := mag / 2 ^ f.mb
  let fr := mag % 2 ^ f.mb
  if mag > f.maxBits then
    if f.hasInf && mag == f.infBits then .inf neg
    else .nan (!f.narrow && fr / 2 ^ (f.mb - 1) == 0)
  else if ex = 0 then .fin neg fr (f.emin - f.mb)
  else .fin neg (2 ^ f.mb + fr) (f.emin - f.mb + (ex - 1 : Nat))

/-- Whether a pattern is a nonzero subnormal. -/
def Fmt.isSub (f : Fmt) (x : Nat) : Bool :=
  let mag := x % 2 ^ (f.width - 1)
  mag / 2 ^ f.mb == 0 && mag != 0

/-- Input rule of R16. DEDUCED (log entry 21). -/
def ftzIn (f : Fmt) (ftz : Bool) (x : Nat) : Nat :=
  if ftz && f.flushes && f.isSub x then x % 2 ^ f.width / 2 ^ (f.width - 1) * 2 ^ (f.width - 1) else x % 2 ^ f.width

/-- Output rule of R16. DEDUCED (log entry 21). -/
def ftzOut (f : Fmt) (ftz : Bool) (r : Nat × Flags) : Nat × Flags :=
  if ftz && f.flushes && f.isSub r.1 then
    (r.1 % 2 ^ f.width / 2 ^ (f.width - 1) * 2 ^ (f.width - 1), r.2 ||| flagU ||| flagX)
  else r

/-- RoundInt of (m + δ) / 2^k, δ in (0, 1) when `st` and 0 otherwise; whether anything was rounded away (R27). -/
def roundMag (mode : Rnd) (neg : Bool) (m k : Nat) (st : Bool) : Nat × Bool :=
  if m = 0 && !st then (0, false)
  else if k > m.log2 + 2 then
    (match mode with | .ru => if neg then 0 else 1 | .rd => if neg then 1 else 0 | _ => 0, true)
  else
    let fl := m / 2 ^ k
    let rem := m % 2 ^ k
    let inex := rem != 0 || st
    let up := match mode with
      | .rne => decide (2 * rem > 2 ^ k) || (decide (2 * rem = 2 ^ k) && (st || fl % 2 == 1))
      | .rz => false
      | .ru => !neg && inex
      | .rd => neg && inex
    (if up then fl + 1 else fl, inex)

/-- `RoundInt` of ±m × 2^e as a signed integer, and whether it differs from the argument (R27). -/
def roundInt (mode : Rnd) (neg : Bool) (m : Nat) (e : Int) : Int × Bool :=
  let r := if e ≥ 0 then (m * 2 ^ e.toNat, false) else roundMag mode neg m (-e).toNat false
  (if neg then -(r.1 : Int) else r.1, r.2)

/-- `Overflow` (R29). -/
def overflowTo (f : Fmt) (mode : Rnd) (sat neg : Bool) : Nat × Flags :=
  if f.narrow && sat then (f.signBit neg + f.maxBits, flagX)
  else if f.hasInf then
    let toInf := match mode with | .rne => true | .rz => false | .ru => !neg | .rd => neg
    (f.signBit neg + (if toInf then f.infBits else f.maxBits), flagO ||| flagX)
  else if f.hasNaN then (f.defaultNaN, flagO ||| flagX)
  else (f.signBit neg + f.maxBits, flagO ||| flagX)

/-- The finite case of `RoundToFormat` on ±(m + δ) × 2^e, δ as in `roundMag` (R28). -/
def roundFin (f : Fmt) (mode : Rnd) (sat neg : Bool) (m : Nat) (e : Int) (st : Bool) : Nat × Flags :=
  if m = 0 && !st then (f.signBit neg, 0)
  else
    let lg : Int := (m.log2 : Int) + e
    if lg > f.emax + 1 then overflowTo f mode sat neg
    else
      let ex := if lg ≥ f.emin then lg else f.emin
      let q := ex - f.mb
      let r := if e ≥ q then roundMag mode neg (m * 2 ^ (e - q).toNat) 0 st else roundMag mode neg m (q - e).toNat st
      if ex > f.emax || (ex == f.emax && decide (r.1 > f.maxSig)) then overflowTo f mode sat neg
      else
        let tiny := lg < f.emin
        (f.signBit neg + ((ex - f.emin).toNat * 2 ^ f.mb + r.1),
          if r.2 then flagX ||| (if tiny then flagU else 0) else 0)

/-- `RoundToFormat` (R28). -/
def roundToFormat (f : Fmt) (mode : Rnd) (sat : Bool) : Num → Nat × Flags
  | .nan sig => if f.hasNaN then (f.defaultNaN, if sig then flagI else 0) else (0, flagI)
  | .inf neg =>
    if f.hasInf && !sat then (f.signBit neg + f.infBits, 0)
    else if f == .e4m3 && !sat then (f.defaultNaN, flagI)
    else (f.signBit neg + f.maxBits, flagI)
  | .fin neg m e => roundFin f mode sat neg m e false

/-! ## Exact arithmetic -/

def Num.neg : Num → Num
  | .fin s m e => .fin (!s) m e
  | .inf s => .inf (!s)
  | .nan g => .nan g

def Num.isNaN : Num → Bool | .nan _ => true | _ => false
def Num.isSNaN : Num → Bool | .nan s => s | _ => false

/-- The exact product of two data that are not NaN; `none` for 0 × ∞. -/
def mulExact : Num → Num → Option Num
  | .fin s m e, .fin t n g => some (.fin (s != t) (m * n) (e + g))
  | .inf s, .inf t => some (.inf (s != t))
  | .inf s, .fin t n _ => if n = 0 then none else some (.inf (s != t))
  | .fin s m _, .inf t => if m = 0 then none else some (.inf (s != t))
  | _, _ => none

/-- A signed integer times 2^e. -/
structure Dy where
  i : Int
  e : Int
  deriving DecidableEq, Repr

def Dy.add (a b : Dy) : Dy :=
  if a.i = 0 then b else if b.i = 0 then a
  else if a.e ≤ b.e then ⟨a.i + b.i * 2 ^ (b.e - a.e).toNat, a.e⟩
  else ⟨a.i * 2 ^ (a.e - b.e).toNat + b.i, b.e⟩

def Dy.ofNum : Num → Dy
  | .fin s m e => ⟨if s then -(m : Int) else m, e⟩
  | _ => ⟨0, 0⟩

/-- ±m × 2^e from a signed dyadic; zero is positive. -/
def Dy.toNum (d : Dy) : Num := .fin (d.i < 0) d.i.natAbs d.e

/-- The exact sum of terms that are not NaN; a `none` term, or opposite infinities, make it `none`. A zero sum takes its
sign by R30. -/
def sumExact (mode : Rnd) (ts : List (Option Num)) : Option Num :=
  if ts.any Option.isNone then none
  else
    let xs := ts.filterMap id
    let pinf := xs.any fun | .inf false => true | _ => false
    let ninf := xs.any fun | .inf true => true | _ => false
    if pinf && ninf then none
    else if pinf then some (.inf false)
    else if ninf then some (.inf true)
    else
      let d : Dy := xs.foldl (fun acc x => Dy.add acc (Dy.ofNum x)) ⟨0, 0⟩
      if d.i = 0 then
        let allNeg := xs.all fun | .fin true 0 _ => true | _ => false
        some (.fin (allNeg || mode == .rd) 0 0)
      else some d.toNum

/-- The common frame of R140: NaN handling on the inputs, the invalid operation, one rounding. -/
def floatOp (f : Fmt) (mode : Rnd) (xs : List Num) (t : Option Num) : Nat × Flags :=
  let fl : Flags := if xs.any Num.isSNaN then flagI else 0
  if xs.any Num.isNaN then (f.defaultNaN, fl)
  else match t with
  | none => (f.defaultNaN, flagI)
  | some y => roundToFormat f mode false y

/-! ## LOG6 (R22 to R25) -/

/-- The factors F of R23. -/
def logF (i : Nat) : Nat := match i with | 0 => 0x4000 | 1 => 0x4C1C | 2 => 0x5A82 | _ => 0x6BA2

/-- Lin(L) in units of 2^−18, for L from 1 to 31 (R23, R156); 0 for L = 0. -/
def linUnits (l : Nat) : Nat := if l = 0 then 0 else logF (l % 4) * 2 ^ (l / 4)

/-- The datum of a LOG6 element (R22, R23). -/
def logRead (x : Nat) : Num :=
  let l := x % 32
  if l = 0 then .fin false 0 0 else .fin (x / 32 % 2 == 1) (linUnits l) (-18)

/-- `LogMul` (R24). -/
def logMul (a b : Nat) : Nat × Flags :=
  let la := a % 32
  let lb := b % 32
  if la = 0 || lb = 0 then (0, 0)
  else
    let s := (a / 32 + b / 32) % 2
    if la + lb < 17 then (0, flagU ||| flagX)
    else if la + lb - 16 > 31 then (32 * s + 31, flagO ||| flagX)
    else (32 * s + (la + lb - 16), 0)

/-- Comparison of m × 2^e with n × 2^−19. -/
def cmp19 (m : Nat) (e : Int) (n : Nat) : Ordering :=
  if e + 19 ≥ 0 then compare (m * 2 ^ (e + 19).toNat) n else compare m (n * 2 ^ (-(e + 19)).toNat)

/-- Conversion to LOG6 (R25). -/
def logRound (sat : Bool) : Num → Nat × Flags
  | .nan _ => (0, flagI)
  | .inf neg => (32 * neg.toNat + 31, flagI)
  | .fin neg m e =>
    let l := (List.range 31).foldl (fun acc k =>
      match cmp19 m e (linUnits k + linUnits (k + 1)) with
      | .gt => k + 1
      | .eq => if k % 2 = 0 then acc else k + 1
      | .lt => acc) 0
    let top := cmp19 m e (3 * linUnits 31 - linUnits 30)
    let past := top == .gt
    let exact := cmp19 m e (2 * linUnits l) == .eq
    let r := if l = 0 then 0 else 32 * neg.toNat + l
    if m = 0 then (0, 0)
    else if past then (r, flagX ||| (if sat then 0 else flagO))
    else if exact then (r, 0)
    else if l = 0 then (r, flagU ||| flagX)
    else (r, flagX)

/-! ## Integers and conversions (R31 to R33) -/

/-- Low end of a type's range (R12). -/
def intLo (signed : Bool) (n : Nat) : Int := if signed then -(2 ^ (n - 1) : Nat) else 0
/-- High end of a type's range. -/
def intHi (signed : Bool) (n : Nat) : Int := if signed then (2 ^ (n - 1) : Nat) - 1 else (2 ^ n : Nat) - 1

/-- `FloatToInt` (R32). -/
def floatToInt (signed : Bool) (n : Nat) (mode : Rnd) : Num → Int × Flags
  | .nan _ => (0, flagI)
  | .inf neg => (if neg then intLo signed n else intHi signed n, flagI)
  | .fin neg m e =>
    if (m.log2 : Int) + e > 80 && m != 0 then (if neg then intLo signed n else intHi signed n, flagI)
    else
      let y := roundInt mode neg m e
      if y.1 < intLo signed n then (intLo signed n, flagI)
      else if y.1 > intHi signed n then (intHi signed n, flagI)
      else (y.1, if y.2 then flagX else 0)

/-- `RoundToGrid` (R35): the grid integer and whether it clipped. -/
def roundToGrid (s : Int) : Num → Int × Bool
  | .nan _ => (0, true)
  | .inf neg => (if neg then -(2 ^ 62 : Nat) else (2 ^ 62 : Nat), true)
  | .fin neg m e =>
    if m = 0 then (0, false)
    else if (m.log2 : Int) + e - (s - 48) > 63 then (if neg then -(2 ^ 62 : Nat) else (2 ^ 62 : Nat), true)
    else
      let g := (roundInt .rne neg m (e - (s - 48))).1
      if g > (2 ^ 62 : Nat) then ((2 ^ 62 : Nat), true)
      else if g < -(2 ^ 62 : Nat) then (-(2 ^ 62 : Nat), true)
      else (g, false)

/-- An E8M0 scale applied exactly (R20, R21). -/
def Num.scaled (x : Num) (k : Int) : Num :=
  match x with
  | .fin s m e => .fin s m (e + k)
  | y => y

/-- The value of an n-bit pattern as a signed or natural number (Val of R98). -/
def valInt (signed : Bool) (n x : Nat) : Int :=
  let x := x % 2 ^ n
  if signed && decide (2 ^ (n - 1) ≤ x) then (x : Int) - (2 ^ n : Nat) else x

/-- An integer reduced modulo 2^n. -/
def wrapInt (n : Nat) (y : Int) : Nat := (y % ((2 ^ n : Nat) : Int)).toNat

def Num.ofInt (y : Int) : Num := .fin (y < 0) y.natAbs 0

end Sys2Proof.Machine
end

