-- ==== Sys2Proof/Machine/FloatFn.lean ====
section
/-! DEFINITION. The elementary functions of R145 to R147, correctly rounded. Each is evaluated in integer arithmetic to
far more bits than any FP32 argument needs to decide the rounding; a result that is not exact carries the sticky mark
of `roundFin`, and its truncation error stays below the distance of any argument's image from a rounding boundary.
DEDUCED (log entry 22). -/

namespace Sys2Proof.Machine

/-- floor(√n) by Newton's iteration from above. -/
def isqrtLoop (n : Nat) : Nat → Nat → Nat
  | 0, x => x
  | k + 1, x => let y := (x + n / x) / 2; if y < x then isqrtLoop n k y else x

def isqrt (n : Nat) : Nat := if n = 0 then 0 else isqrtLoop n 1024 (2 ^ (n.log2 / 2 + 1))

/-- floor(π × 2^704). -/
def piFix : Nat := 0x3243f6a8885a308d313198a2e03707344a4093822299f31d0082efa98ec4e6c89452821e638d01377be5466cf34e90c6cc0ac29b7c97c50dd3f84d5b5b54709179216d5d98979fb1bd1310ba698dfb5ac2ffd72dbd01adfb7

/-- floor(ln 2 × 2^384). -/
def ln2Fix : Nat := 0xb17217f7d1cf79abc9e3b39803f2f6af40f343267298b62d8a0d175b8baafa2be7b876206debac98559552fb4afa1b10

/-- Fraction bits of the fixed-point series. -/
def fixBits : Nat := 384
def fixOne : Nat := 2 ^ fixBits

/-- Σ x^k / k! from term t = x^k / k! on. -/
def expTerms (x : Nat) : Nat → Nat → Nat → Nat
  | 0, _, _ => 0
  | n + 1, k, t => t + expTerms x n (k + 1) (t * x / fixOne / (k + 1))

/-- e^x × 2^384 for x in [0, 1), x given times 2^384. -/
def expFix (x : Nat) : Nat := expTerms x 90 0 fixOne

/-- 2^f × 2^384 for f in [0, 1), f given times 2^384. -/
def exp2Fix (f : Nat) : Nat := expFix (f * ln2Fix / fixOne)

/-- Σ ± x^(k) / k! over every second k, alternating in sign (the series of sine and cosine). -/
def trigTerms (x2 : Nat) : Nat → Nat → Int → Int
  | 0, _, _ => 0
  | n + 1, k, t => t + trigTerms x2 n (k + 2) (-(t * x2 / fixOne / ((k + 1) * (k + 2))))

/-- sin x × 2^384 for x in [0, π/4]. -/
def sinFix (x : Nat) : Nat := (trigTerms (x * x / fixOne) 60 1 x).toNat
/-- cos x × 2^384 for x in [0, π/4]. -/
def cosFix (x : Nat) : Nat := (trigTerms (x * x / fixOne) 60 0 fixOne).toNat

/-- 2 × Σ z^k / k over the odd k, that is ln((1 + z) / (1 − z)). -/
def atanhTerms (z2 : Nat) : Nat → Nat → Nat → Nat
  | 0, _, _ => 0
  | n + 1, k, p => p / k + atanhTerms z2 n (k + 2) (p * z2 / fixOne)

/-- An argument ±m × 2^e in fixed point, for e ≥ −384. -/
def toFix (bits m : Nat) (e : Int) : Nat :=
  if e + bits ≥ 0 then m * 2 ^ (e + bits).toNat else m / 2 ^ (-(e + bits)).toNat

abbrev FRes := Nat × Flags

def f32Fin (neg : Bool) (m : Nat) (e : Int) (st : Bool) : FRes := roundFin .f32 .rne false neg m e st
def f32Exact (bits : Nat) : FRes := (bits, 0)
def f32NaN : FRes := (0x7FC00000, 0)
def f32Invalid : FRes := (0x7FC00000, flagI)

/-- 1/a (R145 to R147). -/
def frcpNum : Num → FRes
  | .nan s => if s then f32Invalid else f32NaN
  | .inf neg => (Fmt.signBit .f32 neg, 0)
  | .fin neg 0 _ => (Fmt.signBit .f32 neg + 0x7F800000, flagZ)
  | .fin neg m e => f32Fin neg (2 ^ 256 / m) (-e - 256) (2 ^ 256 % m != 0)

/-- 1/√a. -/
def frsqNum : Num → FRes
  | .nan s => if s then f32Invalid else f32NaN
  | .inf false => f32Exact 0
  | .inf true => f32Invalid
  | .fin neg 0 _ => (Fmt.signBit .f32 neg + 0x7F800000, flagZ)
  | .fin true _ _ => f32Invalid
  | .fin false m e =>
    let m' := if e % 2 = 0 then m else 2 * m
    let h := if e % 2 = 0 then e / 2 else (e - 1) / 2
    let s := isqrt (2 ^ 512 / m')
    f32Fin false s (-h - 256) (s * s * m' != 2 ^ 512)

/-- √a, rounded into any of the three formats in any mode. -/
def fsqrtNum (f : Fmt) (mode : Rnd) : Num → FRes
  | .nan s => (f.defaultNaN, if s then flagI else 0)
  | .inf false => (f.infBits, 0)
  | .inf true => (f.defaultNaN, flagI)
  | .fin neg 0 _ => (f.signBit neg, 0)
  | .fin true _ _ => (f.defaultNaN, flagI)
  | .fin false m e =>
    let m' := if e % 2 = 0 then m else 2 * m
    let h := if e % 2 = 0 then e / 2 else (e - 1) / 2
    let s := isqrt (m' * 2 ^ 256)
    roundFin f mode false false s (h - 128) (s * s != m' * 2 ^ 256)

/-- 2^a. -/
def fex2Num : Num → FRes
  | .nan s => if s then f32Invalid else f32NaN
  | .inf false => f32Exact 0x7F800000
  | .inf true => f32Exact 0
  | .fin _ 0 _ => f32Exact 0x3F800000
  | .fin neg m e =>
    let lg := (m.log2 : Int) + e
    if lg ≥ 10 then (if neg then (0, flagU ||| flagX) else (0x7F800000, flagO ||| flagX))
    else if lg < -60 then (if neg then f32Fin false (2 ^ 200 - 1) (-200) true else f32Fin false (2 ^ 200) (-200) true)
    else
      let y := toFix fixBits m e
      let n := y / fixOne
      let fr := y % fixOne
      if fr = 0 then f32Fin false 1 (if neg then -(n : Int) else n) false
      else if neg then f32Fin false (exp2Fix (fixOne - fr)) (-(n : Int) - 1 - fixBits) true
      else f32Fin false (exp2Fix fr) ((n : Int) - fixBits) true

/-- log2 a. -/
def flg2Num : Num → FRes
  | .nan s => if s then f32Invalid else f32NaN
  | .inf false => f32Exact 0x7F800000
  | .inf true => f32Invalid
  | .fin _ 0 _ => (0xFF800000, flagZ)
  | .fin true _ _ => f32Invalid
  | .fin false m e =>
    let k := m.log2
    if m = 2 ^ k then
      let n := (k : Int) + e
      f32Fin (n < 0) n.natAbs 0 false
    else
      -- y in [1, 2); z = (y - 1) / (y + 1)
      let z := (m - 2 ^ k) * fixOne / (m + 2 ^ k)
      let ln := 2 * atanhTerms (z * z / fixOne) 130 1 z
      let l2 := ln * fixOne / ln2Fix
      let n := (k : Int) + e
      let v : Int := n * (fixOne : Int) + l2
      if v < 0 then f32Fin true (v.natAbs - 1) (-(fixBits : Int)) true
      else f32Fin false v.natAbs (-(fixBits : Int)) true

/-- |a| modulo π/2: the quadrant and the remainder times 2^384. -/
def reduceTrig (m : Nat) (e : Int) : Nat × Nat :=
  let y := toFix 704 m e
  let n := 2 * y / piFix
  let r := 2 * y - n * piFix
  (n % 4, r / 2 ^ (705 - fixBits))

/-- sin or cos of the reduced argument, as a sign and a magnitude times 2^384. -/
def sinQuad (q r : Nat) : Bool × Nat :=
  let half := piFix / 2 ^ (706 - fixBits)
  let top := piFix / 2 ^ (705 - fixBits)
  let s := if r ≤ half then sinFix r else cosFix (top - r)
  let c := if r ≤ half then cosFix r else sinFix (top - r)
  match q with
  | 0 => (false, s) | 1 => (false, c) | 2 => (true, s) | _ => (true, c)

/-- sin a, a in radians. -/
def fsinNum : Num → FRes
  | .nan s => if s then f32Invalid else f32NaN
  | .inf _ => f32Invalid
  | .fin neg 0 _ => f32Exact (Fmt.signBit .f32 neg)
  | .fin neg m e =>
    if (m.log2 : Int) + e < -40 then f32Fin neg (m * 2 ^ 200 - 1) (e - 200) true
    else
      let r := reduceTrig m e
      let v := sinQuad r.1 r.2
      f32Fin (neg != v.1) v.2 (-(fixBits : Int)) true

/-- cos a, a in radians. -/
def fcosNum : Num → FRes
  | .nan s => if s then f32Invalid else f32NaN
  | .inf _ => f32Invalid
  | .fin _ 0 _ => f32Exact 0x3F800000
  | .fin _ m e =>
    if (m.log2 : Int) + e < -40 then f32Fin false (2 ^ 200 - 1) (-200) true
    else
      let r := reduceTrig m e
      let v := sinQuad ((r.1 + 1) % 4) r.2
      f32Fin v.1 v.2 (-(fixBits : Int)) true

/-- tanh a. -/
def ftanhNum : Num → FRes
  | .nan s => if s then f32Invalid else f32NaN
  | .inf neg => f32Exact (Fmt.signBit .f32 neg + 0x3F800000)
  | .fin neg 0 _ => f32Exact (Fmt.signBit .f32 neg)
  | .fin neg m e =>
    let lg := (m.log2 : Int) + e
    if lg < -40 then f32Fin neg (m * 2 ^ 200 - 1) (e - 200) true
    else if lg ≥ 6 then f32Fin neg (2 ^ 200 - 1) (-200) true
    else
      -- e^(2|a|) = 2^n × e^r
      let y := 2 * toFix fixBits m e
      let n := y / ln2Fix
      let t := expFix (y % ln2Fix) * 2 ^ n
      f32Fin neg ((t - fixOne) * fixOne / (t + fixOne)) (-(fixBits : Int)) true

end Sys2Proof.Machine
end

