-- ==== Sys2Proof/Machine/Flags.lean ====
section
/-! DEFINITION. The lane computations of the floating-point chapter with the flags each raises (R136, R140 to R156), on
register contents as natural numbers. -/

namespace Sys2Proof.Machine

def ftyFmt : FTy → Fmt | .f32 => .f32 | .f16 => .f16 | .bf16 => .bf16
def htyFmt : HTy → Fmt | .f16 => .f16 | .bf16 => .bf16
def nf8Fmt : NF8 → Fmt | .e4m3 => .e4m3 | .e5m2 => .e5m2

/-- The mode of field RM under RMODE of `sr.fpc` (R130, R133). -/
def rmodeOf (rmode : Nat) : RMode → Rnd
  | .dyn => match rmode % 4 with | 0 => .rne | 1 => .rz | 2 => .ru | _ => .rd
  | .rne => .rne | .rz => .rz | .ru => .ru | .rd => .rd

/-- An operand read under the input rule of R16. -/
def fRead (f : Fmt) (ftz : Bool) (x : Nat) : Num := f.read (ftzIn f ftz x)

/-- FADD (R140). -/
def faddBits (f : Fmt) (mode : Rnd) (ftz : Bool) (a b : Nat) : FRes :=
  let x := fRead f ftz a
  let y := fRead f ftz b
  ftzOut f ftz (floatOp f mode [x, y] (sumExact mode [some x, some y]))

/-- FSUB (R140). -/
def fsubBits (f : Fmt) (mode : Rnd) (ftz : Bool) (a b : Nat) : FRes :=
  let x := fRead f ftz a
  let y := fRead f ftz b
  ftzOut f ftz (floatOp f mode [x, y] (sumExact mode [some x, some y.neg]))

/-- FMUL (R140): a zero product has the sign of a xor the sign of b. -/
def fmulBits (f : Fmt) (mode : Rnd) (ftz : Bool) (a b : Nat) : FRes :=
  let x := fRead f ftz a
  let y := fRead f ftz b
  ftzOut f ftz (floatOp f mode [x, y] (mulExact x y))

/-- FFMA (R140, R30). -/
def ffmaBits (f : Fmt) (mode : Rnd) (ftz : Bool) (a b c : Nat) : FRes :=
  let x := fRead f ftz a
  let y := fRead f ftz b
  let z := fRead f ftz c
  ftzOut f ftz (floatOp f mode [x, y, z] (sumExact mode [mulExact x y, some z]))

/-- The order of two data, neither NaN, in units that compare: sign and magnitude. -/
def numLt : Num → Num → Bool
  | .inf s, .inf t => s && !t
  | .inf s, _ => s
  | _, .inf t => !t
  | .fin s m e, .fin t n g =>
    let d := (Dy.ofNum (.fin s m e)).add (Dy.ofNum (.fin (!t) n g))
    d.i < 0
  | _, _ => false

def numEq (a b : Num) : Bool := !numLt a b && !numLt b a

/-- Sign of a pattern. -/
def signOf (f : Fmt) (x : Nat) : Bool := x / 2 ^ (f.width - 1) % 2 == 1

/-- FMIN and FMAX (R141). -/
def fminmaxBits (f : Fmt) (max ftz : Bool) (a b : Nat) : FRes :=
  let p := ftzIn f ftz a
  let q := ftzIn f ftz b
  let x := f.read p
  let y := f.read q
  let fl : Flags := if x.isSNaN || y.isSNaN then flagI else 0
  if x.isNaN && y.isNaN then (f.defaultNaN, fl)
  else if x.isNaN then (q, fl)
  else if y.isNaN then (p, fl)
  else
    let less := numLt x y || (numEq x y && signOf f p && !signOf f q)
    (if less != max then p else q, fl)

/-- The condition of FCMP and FSET, with the flag it raises (R142). -/
def fcmpBits (f : Fmt) (c : FCond) (ftz : Bool) (a b : Nat) : Bool × Flags :=
  let x := fRead f ftz a
  let y := fRead f ftz b
  let un := x.isNaN || y.isNaN
  let sn := x.isSNaN || y.isSNaN
  let lt := !un && numLt x y
  let gt := !un && numLt y x
  let eq := !un && !lt && !gt
  match c with
  | .eq => (eq, if sn then flagI else 0)
  | .ne => (!un && !eq, if sn then flagI else 0)
  | .lt => (lt, if un then flagI else 0)
  | .le => (lt || eq, if un then flagI else 0)
  | .gt => (gt, if un then flagI else 0)
  | .ge => (gt || eq, if un then flagI else 0)
  | .num => (!un, if sn then flagI else 0)
  | .nan => (un, if sn then flagI else 0)
  | .equ => (un || eq, if sn then flagI else 0)
  | .neu => (un || !eq, if sn then flagI else 0)
  | .ltu => (un || lt, if sn then flagI else 0)
  | .leu => (un || lt || eq, if sn then flagI else 0)
  | .gtu => (un || gt, if sn then flagI else 0)
  | .geu => (un || gt || eq, if sn then flagI else 0)

/-- The class bit of R143. -/
def fclassBits (f : Fmt) (a : Nat) : Nat :=
  match f.read a with
  | .inf true => 1
  | .fin true 0 _ => 8
  | .fin false 0 _ => 16
  | .fin true _ _ => if f.isSub a then 4 else 2
  | .fin false _ _ => if f.isSub a then 32 else 64
  | .inf false => 128
  | .nan true => 256
  | .nan false => 512

/-- FRND (R144). -/
def frndBits (f : Fmt) (mode : Rnd) (ftz : Bool) (a : Nat) : FRes :=
  let p := ftzIn f ftz a
  match f.read p with
  | .nan s => (f.defaultNaN, if s then flagI else 0)
  | .inf _ => (p, 0)
  | .fin neg m e =>
    if m = 0 then (p, 0)
    else ((roundFin f .rz false neg (roundInt mode neg m e).1.natAbs 0 false).1, 0)

/-- FSCALE (R144). -/
def fscaleBits (f : Fmt) (mode : Rnd) (ftz : Bool) (a b : Nat) : FRes :=
  let p := ftzIn f ftz a
  match f.read p with
  | .nan s => (f.defaultNaN, if s then flagI else 0)
  | .inf _ => (p, 0)
  | .fin neg m e =>
    if m = 0 then (p, 0)
    else ftzOut f ftz (roundToFormat f mode false (.fin neg m (e + valInt true 32 b)))

/-- FGETEXP (R144), as a 32-bit pattern. -/
def fgetexpBits (f : Fmt) (ftz : Bool) (a : Nat) : FRes :=
  match fRead f ftz a with
  | .nan _ => (0x80000000, flagI)
  | .inf _ => (0x7FFFFFFF, flagI)
  | .fin _ m e => if m = 0 then (0x80000000, flagI) else (wrapInt 32 ((m.log2 : Int) + e), 0)

/-- A packed operation on both halves (R148). -/
def halves (op : Nat → Nat → Nat → FRes) (a b c : Nat) : FRes :=
  let lo := op (a % 2 ^ 16) (b % 2 ^ 16) (c % 2 ^ 16)
  let hi := op (a / 2 ^ 16 % 2 ^ 16) (b / 2 ^ 16 % 2 ^ 16) (c / 2 ^ 16 % 2 ^ 16)
  (hi.1 * 2 ^ 16 + lo.1, lo.2 ||| hi.2)

/-- Σ a_i × b_i + c rounded once to FP32 (R149). -/
def dotBits (fa fb : Fmt) (w : Nat) (mode : Rnd) (ftz : Bool) (a b c : Nat) : FRes :=
  let xs := (List.range (32 / w)).map fun j => fRead fa ftz (a / 2 ^ (w * j) % 2 ^ w)
  let ys := (List.range (32 / w)).map fun j => fRead fb ftz (b / 2 ^ (w * j) % 2 ^ w)
  let z := fRead .f32 ftz c
  ftzOut .f32 ftz
    (floatOp .f32 mode (xs ++ ys ++ [z]) (sumExact mode (List.zipWith mulExact xs ys ++ [some z])))

/-- The S8 dot product (R149). -/
def dot4s8Bits (a b c : Nat) : Nat :=
  wrapInt 32 ((List.range 4).foldl (fun acc j =>
    acc + valInt true 8 (a / 2 ^ (8 * j)) * valInt true 8 (b / 2 ^ (8 * j))) (c : Int))

/-! ## Conversions -/

def CTy.fmt? : CTy → Option Fmt
  | .f32 => some .f32 | .f16 => some .f16 | .bf16 => some .bf16 | .e4m3 => some .e4m3 | .e5m2 => some .e5m2
  | .e3m2 => some .e3m2 | .e2m3 => some .e2m3 | .e2m1 => some .e2m1 | _ => none

/-- Signedness and width of an integer type. -/
def CTy.int : CTy → Bool × Nat
  | .s8 => (true, 8) | .s16 => (true, 16) | .s32 => (true, 32) | .s64 => (true, 64)
  | .n8 => (false, 8) | .n16 => (false, 16) | .n32 => (false, 32) | _ => (false, 64)

/-- The datum of a source operand (R31, R134), under the input rule of R16. -/
def cvtRead (t : CTy) (ftz : Bool) (x : Nat) : Num :=
  match CTy.fmt? t with
  | some f => fRead f ftz x
  | none => if t == .log6 then logRead x else Num.ofInt (valInt (CTy.int t).1 (CTy.int t).2 x)

/-- Register contents of an integer result: extended to the register (R134). -/
def intFill (t : CTy) (y : Int) : Nat := if t == .s64 || t == .n64 then wrapInt 64 y else wrapInt 32 y

/-- One conversion by R31 to R33, k the scale's exponent if any; an infinity between equal types with saturation takes the row of R31.
DESIGN CHOICE (log entry 82). -/
def cvtBits (dst src : CTy) (mode : Rnd) (sat ftz : Bool) (k : Option Int) (x : Nat) : FRes :=
  if dst.isInt && src.isInt then
    let v := valInt (CTy.int src).1 (CTy.int src).2 x
    let s := CTy.int dst
    if sat then (intFill dst (max (intLo s.1 s.2) (min (intHi s.1 s.2) v)), 0)
    else (intFill dst (valInt s.1 s.2 (wrapInt s.2 v)), 0)
  else
    let v := (cvtRead src ftz x).scaled (k.getD 0)
    match CTy.fmt? dst with
    | some f => ftzOut f ftz (roundToFormat f mode sat v)
    | none =>
      if dst == .log6 then logRound sat v
      else
        let r := floatToInt (CTy.int dst).1 (CTy.int dst).2 mode v
        (intFill dst r.1, r.2)

/-- Bits an element takes in a packed group (R19, R134). -/
def CTy.elemBits : CTy → Nat
  | .f32 => 32 | .f16 => 16 | .bf16 => 16 | .e4m3 => 8 | .e5m2 => 8 | .s8 => 8 | .e3m2 => 6 | .e2m3 => 6
  | .log6 => 6 | .e2m1 => 4 | _ => 32

/-- CVTP (R153): elements packed in order. -/
def cvtpBits (dst : CTy) (mode : Rnd) (sat ftz : Bool) (k : Option Int) (xs : List Nat) : FRes :=
  let rs := xs.map fun x => cvtBits dst .f32 mode sat ftz k x
  ((rs.zipIdx).foldl (fun acc r => acc + r.1.1 * 2 ^ (CTy.elemBits dst * r.2)) 0,
    rs.foldl (fun acc r => acc ||| r.2) 0)

/-- CVTX (R154): elements 2H and 2H + 1. -/
def cvtxBits (src : CTy) (mode : Rnd) (hi ftz : Bool) (k : Option Int) (x : Nat) : List FRes :=
  [0, 1].map fun j =>
    let w := CTy.elemBits src
    cvtBits .f32 src mode false ftz k (x / 2 ^ (w * (2 * hi.toNat + j)) % 2 ^ w)

/-- LMUL.x4 (R155). -/
def lmul4Bits (a b : Nat) : FRes :=
  let rs := (List.range 4).map fun j => logMul (a / 2 ^ (6 * j) % 64) (b / 2 ^ (6 * j) % 64)
  ((rs.zipIdx).foldl (fun acc r => acc + r.1.1 * 2 ^ (6 * r.2)) 0, rs.foldl (fun acc r => acc ||| r.2) 0)

/-- LCVT.s32.log6 (R156). -/
def lcvtWidenBits (j a : Nat) : Nat :=
  match logRead (a / 2 ^ (6 * j) % 64) with
  | .fin neg m _ => wrapInt 32 (if neg then -(m : Int) else m)
  | _ => 0

/-- LCVT.log6.s32 (R156). -/
def lcvtNarrowBits (sat : Bool) (a : Nat) : FRes :=
  let v := valInt true 32 a
  logRound sat (.fin (v < 0) v.natAbs (-18))

/-! ## Which flags an instruction can raise (R136) -/

def flagsArith : Flags := flagI ||| flagO ||| flagU ||| flagX
def flagsRcp : Flags := flagI ||| flagZ ||| flagO ||| flagU ||| flagX
def flagsRsqLg : Flags := flagI ||| flagZ ||| flagX
def flagsSqrtCos : Flags := flagI ||| flagX
def flagsSinTanh : Flags := flagI ||| flagU ||| flagX
def flagsLog : Flags := flagO ||| flagU ||| flagX

/-- TEN_I to TEN_X of `sr.fpc` (R130), in the places of the flags. -/
def trapEnables (fpc : Word) : Flags := fpc.extractLsb' 8 5

/-- Cause of the highest-priority flag in a nonempty set (R138). -/
def fpCause (f : Flags) : BitVec 8 :=
  if f &&& flagI != 0 then 0x08 else if f &&& flagZ != 0 then 0x09 else if f &&& flagO != 0 then 0x0A
  else if f &&& flagU != 0 then 0x0B else 0x0C

end Sys2Proof.Machine
end

