-- ==== Sys2Proof/Config.lean ====
section
/-! DEFINITION. The figures of R1 that the rules use, and the free values: constants without a body, applied to the
state's counter of free values drawn, wherever the manual leaves a value open. -/

namespace Sys2Proof.Config

/-- Lanes of a warp (R1). -/
def lanes : Nat := 32
/-- Register-file budget of a core in warp-registers (R1, R172). -/
def warpRegisters : Nat := 4096
/-- Warp slots of a core (R171). -/
def warpSlots : Nat := 32
/-- Resident workgroups of a core (R171). -/
def residentGroups : Nat := 4
/-- Ticks of `sr.clock` in a microsecond: 1.5 GHz (R1). -/
def ticksPerUs : Nat := 1500
/-- Guard of a lease within the package, in ticks (R343). -/
def leaseGuard : Nat := 16
/-- Guard of a lease across packages, in ticks (R343). -/
def farGuard : Nat := 160

/-- A byte the manual leaves undefined: an overlapped or abandoned copy target (R231, R235), a destination that a
fabric failure leaves undefined (R482, R490), an output that an abandoned racking leaves undefined (R362). -/
opaque freeByte : Nat → BitVec 8
/-- A 64-bit value the manual leaves open: the promised time of a copy (R231), the address of an allocated block
(R455), a measured temperature or bit-error figure (R396, R463). -/
opaque freeDWord : Nat → BitVec 64
/-- The sum of a slice of the exact path with an FP16 infinity among its operands, which the manual does not state (R39), by the formats'
codes, the scale bytes and the elements. -/
opaque infSlice : Nat → Nat → Int → Int → List Nat → List Nat → Int
/-- A choice between two outcomes that the manual leaves to timing (R191, R249, R251). -/
opaque freeBool : Nat → Bool
/-- Whether the key of a firmware image matches an unrevoked slot and its signature verifies: the keys are outside the manual (R449). -/
opaque imageVerifies : List (BitVec 8) → Bool
/-- What the package flash holds (R450). -/
opaque flashImage : List (BitVec 8)
/-- The bytes of the signature of an attestation report, with its salt (R452). -/
opaque reportByte : Nat → Nat → BitVec 8
/-- The bytes of the SHA-512 digest of some bytes (R452). -/
opaque sha512 : List (BitVec 8) → Nat → BitVec 8
/-- The bytes of the digest of the fuse record, which holds the security counter (R452). -/
opaque fuseDigest : BitVec 64 → Nat → BitVec 8
/-- The device serial (R452). -/
opaque serial : BitVec 64
/-- The BAR2 range that system software assigns to a VF: its start and its size in GiB (R446, R447). -/
opaque vfRange : Nat → Nat × Nat
/-- The map of cores that the fuse record gives a cluster (R271, R450). -/
opaque fuseCmap : Nat → BitVec 64

end Sys2Proof.Config
end

