-- ==== Sys2Proof/Machine/State.lean ====
section
/-! DEFINITION. The state of one package, as plain data: warps, workgroups, gangs, regions, cores, clusters, dies,
the package service page and the fabric ports; the reasons a step can stop; and the state right after reset. -/

namespace Sys2Proof.Machine

/-- Why a step stops with a fault. -/
inductive Fault where
  /-- Raised by every instruction meaning when no warp holds the issue slot with a ready lane (R77: a run is never
  empty), so there is nothing that could execute it. Safe: the machine itself never issues without a run. -/
  | noRun
  deriving DecidableEq, Repr

/-- Why an instruction is refused. -/
inductive Refusal where
  /-- Raised by a dispatch arm whose instruction has no meaning yet. Safe: nothing is claimed of it. -/
  | notModelled (mnemonic : String)
  deriving DecidableEq, Repr

/-! ## The thread and the warp -/

/-- Why a lane is held (R76): a page fault (R92), a handler that runs (R161), or a deferred trap (R162). -/
inductive Held where
  | fault | handler | deferred
  deriving DecidableEq, Repr

/-- The wake conditions of R76: SLEEP, SLEEPT, BARW, MWAIT and WAITW. -/
inductive SleepKind where
  | clock (t : DWord)
  | promise (t : DWord) (tag : Nat)
  | bar (b : Nat)
  | mwait (va : DWord) (sc : Scope) (v : Word) (tag : Nat)
  | waitw (mask : BitVec 4) (deadline : DWord)
  deriving DecidableEq, Repr

/-- Lane states of R76. A waiting lane's counter is that of its WAITM; a sleeping lane's is that of the sleeping
instruction, and `next` is where it goes when it wakes. -/
inductive LaneState where
  | ready
  | waiting (m : Nat)
  | sleeping (k : SleepKind) (next : DWord)
  | held (why : Held)
  | exited
  deriving DecidableEq, Repr

/-- One lane of a warp (R74, R75, R157). -/
structure Lane where
  pc : DWord := 0
  st : LaneState := .ready
  /-- region entry counter, R89 -/
  rgn : DWord := 0
  /-- `sr.rgnc`, R89 -/
  rgnc : Word := 0
  /-- `sr.fpx` [4:0], R131 -/
  fpx : BitVec 5 := 0
  /-- resume counter of the trap record, R157 -/
  resume : DWord := 0
  /-- region entry counter of the trap record, R157 -/
  trapRgn : DWord := 0
  /-- mask on which a trapped lane was waiting when its deferred trap arrived, R162 and R170 -/
  waitedOn : Option Nat := none
  /-- taken by a deferred trap while a page fault held it: its return from the trap restarts its region (R93, R255) -/
  restart : Bool := false
  /-- clock tick at which the lane began to sleep or wait, R429 -/
  since : DWord := 0
  deriving DecidableEq, Repr, Inhabited

/-- The space a scratch, global or parameter access names (R202), with the path it takes; `home` is that of the hint `.na`. -/
inductive Space where
  | global | early | scratch | param | kiln | gather | home
  deriving DecidableEq, Repr

/-- What an outstanding result will be written from (R80). -/
inductive Result where
  /-- a load performed when its value is returned: lane and address -/
  | load (sp : Space) (sz : Sz) (addrs : List (Nat × DWord))
  /-- an integer atomic: lane, address, b, c (R211); `op` in the codes of R211 -/
  | atom (scr : Bool) (t : ITy) (op : Nat) (items : List (Nat × DWord × DWord × DWord))
  /-- a float atomic (R212) -/
  | atomf (scr : Bool) (p : FTy) (op : FAOp) (items : List (Nat × DWord × Word))
  /-- values that are already formed, with the flags they bring (R132) -/
  | values (vals : List (Nat × List Word)) (flags : List (Nat × BitVec 5))
  /-- a special-function result with its flags (R132) and the enables it issued under, empty when not covered (R137) -/
  | special (vals : List (Nat × Word)) (flags : List (Nat × BitVec 5)) (enables : BitVec 5)
  | clock
  | mqry (seqs : List (Nat × Word))
  | aqryReg (ids : List (Nat × Nat))
  | aqryLine (ids : List (Nat × Nat × Nat))
  | barq (b : Nat)
  | wcall (record : List Byte)
  | launch (a : DWord) (ctxAsid : Word)
  | slotq (pkgs : List (Nat × Nat))
  | slotqCur
  | linkq (ports : List (Nat × Nat))
  /-- the coherent read of a WATCH (R229): arm, lane and address -/
  | watch (arm lane : Nat) (va : DWord)
  /-- the reads of a memory barrier word by sleeping lanes (R227) -/
  | mwait
  /-- the load of a queue entry (R209) -/
  | ldq (sp : Space) (q : Nat) (addrs : List (Nat × DWord)) (got : List (Nat × Word))
  deriving DecidableEq, Repr

/-- One outstanding result (R80): the issue tag of R83, the counter and field D of its instruction, the registers it
writes, the lanes still to be written, and what will be written. -/
structure Outst where
  tag : Nat
  pc : DWord
  d : BitVec 11
  file : BitVec 3
  dsts : List Nat
  lanes : LaneSet
  res : Result
  ctr : Option Ctr
  /-- the ASID its accesses carry (R382) -/
  asid : Nat := 0
  /-- values already returned, by lane: replies of another package (R391), atomics that have been performed -/
  got : List (Nat × DWord) := []
  /-- lanes that a page fault has taken out of an LDQ (R209) -/
  faulted : LaneSet := 0
  deriving DecidableEq, Repr

/-- What a posted store does when it becomes visible (R214). -/
inductive StoreOp where
  | write (sp : Space) (items : List (Nat × DWord × List Byte))
  | red (scr : Bool) (t : ITy) (op : Nat) (items : List (Nat × DWord × DWord))
  | redf (scr : Bool) (p : FTy) (op : FAOp) (items : List (Nat × DWord × Word))
  | marv (sc : Scope) (items : List (Nat × DWord))
  | tsig (sc : Scope) (items : List (Nat × DWord × Word))
  | cctl (op : Nat) (items : List (Nat × DWord))
  | scatter (items : List (Nat × DWord × List Byte))
  deriving DecidableEq, Repr

/-- A posted store on its way to visibility, in warp order (R333). -/
structure PStore where
  tag : Nat
  pc : DWord
  d : BitVec 11
  lanes : LaneSet
  op : StoreOp
  asid : Nat := 0
  /-- the write-through hint of R206 or a home refusal's back-off of R395 -/
  retryAt : Option DWord := none
  /-- its addresses have passed translation, so no page fault can arrive for it (R90) -/
  translated : Bool := false
  /-- messages of this store that another package has not yet acknowledged (R391) -/
  remote : List Nat := []
  /-- the global ranges, address and length, that have left for the window or another package (R331) -/
  flown : List (Nat × Nat) := []
  /-- window lines of this store that have not been delivered (R316) -/
  window : Nat := 0
  /-- its items have left the core -/
  sent : Bool := false
  /-- the frame boundary at which an entry of the broadcast window table that it commits takes effect (R314) -/
  frame : Option Nat := none
  ctr : Ctr := .st
  deriving DecidableEq, Repr

/-- A deferred trap that has been recognised (R162). -/
structure PendTrap where
  cause : BitVec 8
  lanes : LaneSet
  pc : DWord
  d : BitVec 11
  file : BitVec 3
  info : BitVec 16
  tag : Nat
  /-- DEF: clear for the trap of a covered instruction that arrived while a handler ran (R138, R159) -/
  deferred : Bool := true
  /-- it reached a saved warp for lanes whose handler ran, so that it is a double trap (R163) -/
  double : Bool := false
  deriving DecidableEq, Repr

/-- What holds a warp's later MEM and MX instructions back: REL (R218), ACQ (R219), a blocking instruction (R434), or a PFENCE with
the requests that the package had sent or queued (R494). -/
inductive Hold where
  | rel (sc : Scope) (tag : Nat)
  | acq (sc : Scope) (tag : Nat)
  | blocking (tag : Nat)
  | pfence (tag : Nat) (ids : List Nat)
  deriving DecidableEq, Repr

/-- A watch arm (R229). -/
structure Arm where
  armed : Bool := false
  fired : Bool := false
  asid : Nat := 0
  line : Nat := 0
  expiry : DWord := 0
  deriving DecidableEq, Repr, Inhabited

/-- Status of a copy tag (R232). -/
inductive TagStatus where
  | running | complete
  deriving DecidableEq, Repr

/-- The report the engine keeps of one MMS (R263). -/
structure MmsReport where
  seq : Word
  fold : Word := 0
  cons : Bool := false
  done : Bool := false
  reset : Bool := false
  trapped : Bool := false
  /-- issue tag, lanes and `sr.rgnc` of the lanes at issue, R255 -/
  tag : Nat := 0
  lanes : LaneSet := 0
  rgnc : List Word := []
  deriving DecidableEq, Repr

/-- One warp (R74, R75, R157, R177, R185, R199, R214, R222, R229, R232, R256, R262). -/
structure Warp where
  id : Nat
  /-- identity of its workgroup -/
  wg : Nat
  /-- `sr.warp`; 32 for an access warp -/
  idx : Nat
  lanes : List Lane
  /-- vector registers, keyed 32 × register + lane -/
  v : Sparse Word := []
  /-- predicates that are true, keyed 32 × register + lane -/
  q : Sparse Bool := []
  /-- warp-scalar registers -/
  w : Sparse Word := []
  /-- lane masks -/
  m : Sparse Word := []
  /-- last-writer issue tags of R83, keyed (file, register, lane) -/
  lastw : Sparse Nat := []
  /-- issue tags given so far -/
  issued : Nat := 0
  parked : Bool := false
  outs : List Outst := []
  /-- reads that bring no register result: those of LDQ and WATCH -/
  reads : List Outst := []
  stores : List PStore := []
  /-- the counters c.* in the codes of R214: one pair of issue tag and completion per counted instruction -/
  ctrs : List (List (Nat × Bool)) := [[], [], [], [], [], [], [], []]
  fpc : Word := 0
  qbo : Word := 0x00040040
  lfm : Word := 0
  fold : Word := 0
  htvec : DWord := 0
  hpc : DWord := 0
  hmask : LaneSet := 0
  hdst : Word := 0
  hcause : Word := 0
  hsub : DWord := 0
  hpcWritten : Bool := false
  inTrap : Bool := false
  /-- a copy of this warp aborted while the context was away (R186, R428) -/
  copyAbort : Bool := false
  /-- issue tag of the trapping instruction, R169 -/
  trapTag : Nat := 0
  /-- the last issue tag given before the handler was entered, R164 and R255 -/
  handlerTag : Nat := 0
  pend : List PendTrap := []
  waitc : Option (Ctr × Nat) := none
  hold : Option Hold := none
  arms : List Arm := [{}, {}, {}, {}]
  nextTag : Nat := 1
  tags : List (Nat × TagStatus) := []
  mxSeq : Word := 0
  reports : List MmsReport := []
  /-- the operand buffer of R177: register, whether a pair, and the lanes' values, when valid -/
  opbuf : Option (Nat × Bool × List DWord) := none
  /-- counter of the RGN or EXIT whose wait holds the warp (R84, R90) -/
  point : Option DWord := none
  /-- instant of the last issue, R174 -/
  stamp : Nat := 0
  /-- the counters as the save record holds them (R427, R428) -/
  savedC : List Nat := []
  /-- stopped by a save (R424) -/
  stopped : Bool := false
  deriving DecidableEq, Repr

/-! ## The workgroup, the gang and the region -/

/-- A queue entry: one 32-bit value for each lane (R194). -/
abbrev QEntry := List Word

/-- A queue message on its way to its queue (R195). -/
structure QMsg where
  sender : Nat
  q : Nat
  seq : Nat
  data : QEntry
  deriving DecidableEq, Repr

/-- One sender's side of one queue (R195, R198): sequence numbers, the replay window and the replay count. -/
structure Sender where
  /-- a warp's identity, or 2^32 + a copy's identity -/
  id : Nat
  q : Nat
  nextSeq : Nat := 0
  /-- sequence number of the entry that a replay has sent -/
  replaying : Option Nat := none
  /-- sequence number, whether the entry's loads have returned, lanes and counter of the push, issue tag, entry -/
  window : List (Nat × Bool × QEntry) := []
  /-- sequence number to the lanes, counter and issue tag of its push -/
  pushes : List (Nat × LaneSet × DWord × Nat) := []
  n : Nat := 0
  failed : Nat := 0
  backoff : Option DWord := none
  qbo : Word := 0x00040040
  deriving DecidableEq, Repr

/-- A weight plane (R240). -/
structure Plane where
  valid : Bool := false
  fmt : WFmt := .f16
  tile : List Byte := []
  scales : List Byte := []
  deriving DecidableEq, Repr, Inhabited

/-- How a workgroup ended (R163, R419). -/
structure TrapEnd where
  double : Bool
  hcause : Word
  hmask : LaneSet
  hpc : DWord
  warp : Nat
  rgns : List DWord
  deriving DecidableEq, Repr

/-- One resident workgroup (R171, R182, R194, R240). -/
structure Workgroup where
  id : Nat
  gang : Nat
  member : Nat
  core : CoreId
  scratch : Nat
  banks : List Nat
  /-- k0 to k7, oldest entry first -/
  queues : List (List QEntry) := [[], [], [], [], [], [], [], []]
  flight : List QMsg := []
  senders : List Sender := []
  active : Plane := {}
  shadow : Plane := {}
  draining : Bool := false
  drained : Bool := false
  ended : Option TrapEnd := none
  lfm : Word := 0
  ret : Nat := 0
  deriving DecidableEq, Repr

/-- Gang states of R411. -/
inductive GangState where
  | waiting | ready | running | preempting | saved | held | draining | retired | halted
  deriving DecidableEq, Repr

/-- Pre-emption choices of R421, in the codes of R419. -/
inductive Choice3 where
  | none | drain | save | flush
  deriving DecidableEq, Repr

/-- Head of a named barrier (R222). -/
structure BarHead where
  expn : Nat := 0
  arr : Nat := 0
  ph : BitVec 16 := 0
  ovr : Bool := false
  deriving DecidableEq, Repr, Inhabited

/-- One gang of a leaf region that has left the waiting state (R411), with its gang context of R222. -/
structure Gang where
  id : Nat
  region : Nat
  g : Nat
  st : GangState
  readyTime : DWord := 0
  /-- order of placement, R416 -/
  placed : Nat := 0
  die : Nat := 0
  clu : Nat := 0
  c0 : Nat := 0
  preempts : Nat := 0
  choice : Choice3 := .none
  action : Choice3 := .none
  actionAt : DWord := 0
  /-- record given by CTXSV: ASID, address and the warp that asked, or 2^32 + ring, R435 -/
  svTarget : Option (Nat × DWord × Nat) := none
  ret : Nat := 0
  posted : Bool := false
  /-- the 64 barrier heads, sparse -/
  bars : List (Nat × BarHead) := []
  /-- arrival records: (sr.gmem, sr.warp, barrier) to PH -/
  recs : List ((Nat × Nat × Nat) × BitVec 16) := []
  /-- state kept while saved or held: the warps and workgroups as they were -/
  savedWarps : List Warp := []
  savedWgs : List Workgroup := []
  /-- its save slot while saved, R426 -/
  slot : Option Nat := none
  starved : Bool := false
  /-- gangs it has pre-empted and waits for, R416 -/
  victims : List Nat := []
  /-- span reserved: by R415, by rotation (R414), or while the gangs that it has pre-empted leave it (R412, R416) -/
  reserved : Option (Nat × Nat × Nat) := none
  /-- rotation has taken it off its span, to go to the one it has reserved (R414) -/
  rotating : Bool := false
  /-- steps of R418 done: 1 once the exit records are written, 2 once the completion word has been raised -/
  retire : Nat := 0
  deriving DecidableEq, Repr

/-- State of a wort region or of a core copy of it (R348). -/
inductive WortState where
  | closed | opened | racking
  deriving DecidableEq, Repr

/-- One entry of a context's wort table (R346 to R351, R369). -/
structure Wort where
  id : Nat
  st : WortState := .closed
  /-- the warp whose AOPEN has not completed (R365), and whether it is `.z` -/
  opening : Option (Nat × Bool) := none
  base : DWord := 0
  lines : Nat := 0
  scale : BitVec 8 := 0
  fmt : BitVec 4 := 0
  scope : Scope := .wg
  shadow : DWord := 0
  expect : Nat := 0
  done : Nat := 0
  passed : Bool := false
  lost : Bool := false
  /-- workgroup of the opener, from which the scope is measured (R347) -/
  opener : Nat := 0
  openerGang : Nat := 0
  openerCore : CoreId := default
  /-- cores whose copy turned to racking before the seal (R362) -/
  rackCores : List CoreId := []
  /-- headers of the lines: pitch count and clip bit (R349) -/
  heads : Sparse (Nat × Bool) := []
  deriving DecidableEq, Repr

/-- The effective values of a region (R402, R403). -/
structure Eff where
  prio : Nat := 0
  domain : Nat := 0
  pinFold : Bool := false
  idempotent : Bool := false
  policy : Nat := 0
  det : Bool := false
  affine : Bool := false
  maxCores : Nat := 1
  kilnMib : Nat := 0
  l2Ways : Nat := 0
  tclass : Nat := 0
  entry : DWord := 0
  cores : Nat := 1
  warps : Nat := 1
  nregs : Nat := 16
  npreds : Nat := 128
  scratch : Nat := 0
  gangs : Nat := 0
  first : Nat := 0
  params : DWord := 0
  token : DWord := 0
  threshold : Nat := 0
  stride : Nat := 0
  completion : DWord := 0
  expected : Nat := 0
  exitArea : DWord := 0
  saveArea : DWord := 0
  deriving DecidableEq, Repr, Inhabited

/-- A launched region, that is a context (R402 to R407). -/
structure Region where
  /-- the handle of R406 -/
  handle : Nat
  ctx : Nat
  asid : BitVec 16
  service : Bool
  leaf : Bool
  parent : Option Nat
  eff : Eff
  order : Nat
  launchTime : DWord
  /-- gangs that are token-ready or beyond -/
  fired : List Nat := []
  /-- gangs whose token word has reached the threshold by a write, which the maltster observes later (R408) -/
  crossed : List Nat := []
  retired : Nat := 0
  /-- 0 running, 1 complete, 2 halted (R433) -/
  status : Nat := 0
  /-- ring through which it was launched: 0 the PF or a LAUNCH, k the VF k (R447) -/
  ring : Nat := 0
  rcb : DWord := 0
  worts : List Wort := []
  allocs : List (DWord × Nat) := []
  deriving DecidableEq, Repr

/-! ## The core -/

/-- Where a cached line or sector lives, as its fill translated it (R328): this package's memory, the host's, or another
package's. -/
inductive Place where
  | mem (pa : Nat)
  | host (a : Nat)
  | far (pkg : Nat)
  deriving DecidableEq, Repr

/-- A kiln sector (R187): its bytes present, with the dirty bit of each. -/
structure KSector where
  asid : Nat
  sector : Nat
  /-- the context that allocated it (R188) -/
  ctx : Nat
  /-- KIND of its page (R189, R204) -/
  kind : Nat
  /-- user-level access and stores allowed, from the fill (R204) -/
  user : Bool
  writable : Bool
  place : Place
  /-- the ASID in which another package's home is asked -/
  home : Nat := 0
  /-- order of use, for replacement (R188) -/
  used : Nat
  bytes : Sparse (Byte × Bool)
  deriving DecidableEq, Repr

/-- A non-coherent L1 line (R180): its bytes present, with the dirty bit of each. -/
structure NcLine where
  asid : Nat
  line : Nat
  user : Bool
  writable : Bool
  place : Place
  bytes : Sparse (Byte × Bool)
  /-- order of use, for replacement -/
  used : Nat := 0
  /-- lowest replacement priority (R206) -/
  early : Bool := false
  deriving DecidableEq, Repr

/-- MOESI states of an L1 line (R307). -/
inductive Moesi where
  | m | o | e | s
  deriving DecidableEq, Repr

/-- A coherent L1 line with its state (R307). -/
structure L1Line where
  asid : Nat
  line : Nat
  st : Moesi
  /-- the line's place and its page's kind and permissions, from the fill (R204) -/
  pa : Nat
  kind : Nat
  user : Bool
  writable : Bool
  used : Nat := 0
  /-- lowest replacement priority (R206) -/
  early : Bool := false
  deriving DecidableEq, Repr

/-- A matrix operation (R247, R260 to R262). -/
inductive MxKind where
  | wld (addr : DWord) (fmt : WFmt) (scale : Word)
  | wswap
  | mms (blk : List Byte) (seq : Word)
  deriving DecidableEq, Repr

/-- One contribution to a wort line (R350): the 16 grid integers, the clip bit and the pitch increment. -/
structure LineAdd where
  ctx : Nat
  region : Nat
  line : Nat
  g : List DWord
  clip : Bool
  pitch : Nat
  deriving DecidableEq, Repr

/-- Phases of a queued matrix operation. -/
inductive MxPhase where
  | queued | started | consumed
  deriving DecidableEq, Repr

/-- An operation in the engine queue (R247), with the plane and the chain it took at its start (R237, R261) and the operand
bytes it has read (R249): the A rows, and the A scale record of each row. -/
structure MxOp where
  w : Nat
  wg : Nat
  ctx : Nat
  tag : Nat
  pc : DWord
  d : BitVec 11
  file : BitVec 3
  lanes : LaneSet
  kind : MxKind
  /-- the tile of a WLD can no longer fault (R90) -/
  translated : Bool := false
  phase : MxPhase := .queued
  chain : List Nat := []
  plane : Option Plane := none
  rows : List (List Byte) := []
  scales : List (List Byte) := []
  /-- operand units read before the step in which the rest is read, by space (global or scratch) and number (R249) -/
  early : List ((Bool × Nat) × List Byte) := []
  deriving DecidableEq, Repr

/-- An entry of the local wide buffer (R252) with the operations that contributed to it. -/
structure WideEntry where
  wg : Nat
  add : LineAdd
  owners : List (Nat × Nat)
  used : Nat
  /-- the addends by owner, so that R255 can take one back -/
  parts : List ((Nat × Nat) × LineAdd)
  deriving DecidableEq, Repr

/-- The matrix engine (R237, R247, R252). -/
structure Engine where
  cfg : BitVec 5 := 0b01111
  thr : BitVec 5 := 0
  fail : BitVec 5 := 0
  queue : List MxOp := []
  buffer : List WideEntry := []
  /-- MMS operations that wait for their contributions to be applied, with their fold reports -/
  draining : List (MxOp × Word) := []
  /-- resets in progress: issuing warp and tag of each MRST (R265) -/
  mrst : List (Nat × Nat) := []
  /-- tiers above a failed array link (R401) -/
  cut : BitVec 5 := 0
  deriving DecidableEq, Repr

/-- A vertical bus (R399, R400). -/
structure VBusState where
  ce : Nat := 0
  pend : Bool := false
  spare : Nat := 8
  dueAt : DWord := 0
  deferAt : Option DWord := none
  repairing : Bool := false
  degraded : Bool := false
  deriving DecidableEq, Repr, Inhabited

/-- One core (R178 to R191, R237, R396 to R401). -/
structure Core where
  id : CoreId
  /-- `sr.tar`; KTEMP 0 at reset is a DESIGN CHOICE (log entry 8) -/
  tar : Word := 0x000000FF
  half : Bool := false
  /-- `sr.vbthr` -/
  vbthr : Word := 0x00000100
  scratch : Sparse Byte := []
  /-- owner tags of the 32 banks -/
  owner : Sparse (BitVec 16) := []
  kiln : List KSector := []
  nc : List NcLine := []
  l1 : List L1Line := []
  /-- instruction cache (R178): ASID, 32-byte block, bytes -/
  icache : List (Nat × Nat × List Byte) := []
  /-- lines that PREF.l1 has asked for (R221): ASID, line -/
  prefs : List (Nat × Nat) := []
  /-- constant cache (R207): ASID, 128-byte line, user-level access allowed (R204), bytes -/
  ccache : List (Nat × Nat × Bool × List Byte) := []
  engine : Engine := {}
  vbArr : VBusState := {}
  vbCask : VBusState := {}
  vbKiln : VBusState := {}
  /-- leaves service once its gangs are saved (R295) -/
  retiring : Bool := false
  /-- home map of R384: ASID, 2 MiB region, package, die -/
  homeMap : List (Nat × Nat × Nat × Nat) := []
  deriving DecidableEq, Repr

/-! ## The cluster -/

/-- A snoop-filter entry (R286). -/
structure Filter where
  asid : Nat
  line : Nat
  mask : BitVec 9
  deriving DecidableEq, Repr

/-- A line that a home-cache way of a cluster holds (R276): its way, ASID and line, and whether it is dirty. -/
structure CaskLine where
  way : Nat
  asid : Nat
  line : Nat
  dirty : Bool
  /-- lowest replacement priority (R206) -/
  early : Bool := false
  deriving DecidableEq, Repr

/-- One cluster (R270 to R293). -/
structure Cluster where
  id : CluId
  cmap : DWord := 0x76543210
  wpr : Word := 0x50000000
  healthy : BitVec 16 := 0xFFFF
  busy : Bool := false
  phase : BitVec 2 := 0
  err : Bool := false
  ecode : BitVec 3 := 0
  sways : BitVec 4 := 0
  wbDirty : Nat := 0
  invClean : Nat := 0
  rdcDrop : Nat := 0
  cso : BitVec 16 := 0
  csv : DWord := 0
  filtered : Word := 0
  forwarded : Word := 0
  backinv : Word := 0
  oldWpr : Word := 0x50000000
  /-- the cores have set their copies of the limit to the fence of phase 1 (R280) -/
  fenced : Bool := false
  /-- lines in the home-cache ways, oldest first (R276) -/
  lines : List CaskLine := []
  /-- the cores' copies of the cluster-scratch limit (R280) -/
  limit : Nat := 0x08000000
  /-- cluster-scratch bytes, keyed way × 2^20 + byte of the way -/
  cask : Sparse Byte := []
  /-- spare ways in use: slice to the way it replaces -/
  spares : List (Nat × Nat) := []
  /-- scratch ways being copied to their spare: slice, way -/
  copying : List (Nat × Nat) := []
  /-- portions disabled: slice, way -/
  disabled : List (Nat × Nat) := []
  filter : List Filter := []
  /-- spare filter rings left, per bus (R322) -/
  rings : List Nat := [2, 2, 2, 2, 2, 2, 2, 2]
  /-- buses whose reader ring is being retuned, with the first frame that it does not read -/
  retuning : List (Nat × Nat) := []
  /-- taken out of service (R322) or dead (R456) -/
  out : Bool := false
  /-- declared dead (R325, R456) -/
  dead : Bool := false
  deriving DecidableEq, Repr

/-! ## The die -/

/-- Coherence requests of R307; `look` is that of an access that fills no L1 (R308). -/
inductive ReqKind where
  | getS | getM | upg | look
  deriving DecidableEq, Repr

/-- A coherence request on its way to its home slice (R307), and whether it has been announced (R308). -/
structure Req where
  kind : ReqKind
  core : CoreId
  /-- the line asked for, as its translation gave it -/
  ln : L1Line
  onBus : Bool := false
  /-- the lowest-numbered ways in which the context's misses allocate (R405) -/
  lim : Nat := 16
  deriving DecidableEq, Repr

/-- A region-table entry (R308): ASID, 512-byte region, presence mask, use order. -/
structure RegionEntry where
  asid : Nat
  region : Nat
  mask : BitVec 16
  used : Nat
  deriving DecidableEq, Repr

/-- What a bus message carries (R304). -/
inductive BusMsg where
  | probe (r : Req)
  | window (w tag asid : Nat) (line pa : Nat) (data : List Byte)
  | recall (asid region : Nat)
  deriving DecidableEq, Repr

/-- A slot on a bus (R304, R305): its frame, logical group and messages with their writers, more than one only where they are probe
records, none in an idle slot; `void` once a reader has voided it. -/
structure BusSlot where
  frame : Nat
  bus : Nat
  grp : Nat
  msgs : List (Nat × BusMsg)
  void : Bool := false
  deriving DecidableEq, Repr

/-- Group states of R318. -/
inductive GrpState where
  | cobalt | amber | slate
  deriving DecidableEq, Repr

/-- One bus of a die (R303, R318, R319). -/
structure Bus where
  /-- physical group of each logical group -/
  phys : List Nat := [0, 1, 2, 3, 4, 5, 6, 7, 8, 9, 10, 11, 12, 13, 14, 15]
  st : List GrpState := List.replicate 16 .cobalt
  voids : BitVec 16 := 0
  /-- physical groups retired by a reassignment -/
  retired : List Nat := []
  /-- physical group being tuned, per amber group -/
  tuning : List (Nat × Nat) := []
  /-- proxy cluster of each slate group (R321) -/
  proxy : List (Nat × Nat) := []
  /-- messages waiting to be sent, with the cluster that writes them, oldest first -/
  queue : List (Nat × BusMsg) := []
  /-- slots sent and not yet decided -/
  slots : List BusSlot := []
  /-- voids of each group since `since`, for VTHR (R301, R319) -/
  recent : List (Nat × DWord) := []
  /-- the first frame whose slots are void because a reader is being retuned (R322) -/
  quiet : Option Nat := none
  deriving DecidableEq, Repr, Inhabited

/-- An entry of the broadcast window table (R314), with its staged words and the pending commit. -/
structure Bwt where
  w0 : DWord := 0
  w1 : DWord := 0
  staged1 : Option DWord := none
  stagedHi : Option Word := none
  /-- what the readers' filters hold -/
  live0 : DWord := 0
  live1 : DWord := 0
  /-- frame at which the filters take the new entry, with the warps' store that waits on it -/
  due : Option Nat := none
  deriving DecidableEq, Repr, Inhabited

/-- A TLB entry of a die's memory controller (R383): ASID, 4 KiB page, and the leaf entry as read. -/
structure TlbEntry where
  asid : Nat
  page : Nat
  big : Bool
  pte : DWord
  deriving DecidableEq, Repr

/-- Who waits on a page fault (R385, R386). -/
inductive FaultOf where
  | lanes (w : Nat) (mask : LaneSet)
  | copy (id : Nat)
  | coll (id : Nat)
  | rack (id : Nat)
  deriving DecidableEq, Repr

/-- A page fault that has not been resolved (R385). -/
structure PFault where
  who : FaultOf
  kind : Nat
  ctx : Nat
  asid : Nat
  core : Nat
  warp : Nat
  tag : Nat
  va : DWord
  level : Nat
  rgns : List DWord
  /-- sequence number once its record is written -/
  seq : Option (BitVec 16)
  deriving DecidableEq, Repr

/-- A directory entry of R387. -/
structure Dir where
  asid : Nat
  line : Nat
  /-- physical address of the line -/
  pa : Nat := 0
  dies : BitVec 16 := 0
  dieExp : DWord := 0
  /-- remote holders: package and expiry -/
  remote : List (Nat × DWord) := []
  maxExp : DWord := 0
  owner : Option Nat := none
  /-- a write waits for its holders -/
  pending : Bool := false
  acked : BitVec 16 := 0
  /-- the packages it lists have been told to drop their copies -/
  told : Bool := false
  deriving DecidableEq, Repr

/-- A lease copy held by a die (R343, R388). -/
structure Lease where
  die : Nat
  asid : Nat
  line : Nat
  expiry : DWord
  /-- physical address of the line -/
  pa : Nat := 0
  /-- the RDC way that holds it (R276) -/
  way : Nat := 0
  deriving DecidableEq, Repr

/-- A lease copy of a line homed on another package (R343, R388), with what it holds and who may read it. -/
structure FarLine where
  die : Nat
  asid : Nat
  line : Nat
  pkg : Nat
  expiry : DWord
  /-- length of the lease, in ticks -/
  len : Nat
  user : Bool
  bytes : List Byte
  /-- a hit has asked for a new lease -/
  renewing : Bool := false
  /-- the RDC way that holds it (R276) -/
  way : Nat := 0
  deriving DecidableEq, Repr

/-- One die (R301, R308, R314, R376, R383 to R395). -/
structure Die where
  id : Nat
  vthr : BitVec 16 := 0x0010
  accepted : Word := 0
  dropped : Word := 0
  p2p : Word := 0
  busreq : Word := 0
  buses : List Bus := List.replicate 8 {}
  bwt : List (Nat × Bwt) := []
  reqs : List Req := []
  /-- accesses that fill no L1 and whose probe record has been delivered: core, ASID, line (R308) -/
  looked : List (CoreId × Nat × Nat) := []
  regions : List RegionEntry := []
  fencedLinks : List (Nat × Nat) := []
  ptbase : DWord := 0
  lctl : Word := 0x00000240
  fqbase : DWord := 0
  fqhead : BitVec 8 := 0
  fqtail : BitVec 8 := 0
  fqseq : BitVec 16 := 0
  mseal : DWord := 0
  mbusy : Bool := false
  msealed : Bool := false
  faults : List PFault := []
  tlb : List TlbEntry := []
  dirs : List Dir := []
  /-- frames with their write record set (R393) -/
  written : Sparse Bool := []
  dead : Bool := false
  /-- its stack failed training (R375) -/
  noStack : Bool := false
  deriving DecidableEq, Repr

/-! ## Copies, contributions, racks -/

/-- Copy engines' work: CPYA, CPYW, CPYQ (R231 to R234), SENDQ (R490), GATH and SCAT. -/
inductive CopyKind where
  | cpya (dir : CpyDir)
  | cpyw
  | cpyq (q : Nat)
  deriving DecidableEq, Repr

/-- State of a copy. -/
inductive CopyState where
  /-- `refused`: another package has refused a unit, and the copy has still to end in error -/
  | running | paused | complete | aborted | failed | refused
  deriving DecidableEq, Repr

/-- A scratchpad range as the copy engine holds it: core, workgroup, the banks it had, offset. -/
structure BankRange where
  core : CoreId
  wg : Nat
  banks : List Nat
  off : Nat
  deriving DecidableEq, Repr

/-- One end of a copy: global memory, a scratchpad range, or cluster scratch. -/
inductive CopyEnd where
  | glob (va : DWord)
  | bank (r : BankRange)
  | cask (c : CluId) (off : Nat)
  deriving DecidableEq, Repr

/-- One asynchronous copy (R231 to R234). -/
structure Copy where
  id : Nat
  kind : CopyKind
  w : Nat
  wg : Nat
  ctx : Nat
  asid : Nat
  user : Bool
  lanes : LaneSet
  pc : DWord
  d : BitVec 11
  /-- the copy tag of R232, 0 for CPYW and CPYQ -/
  tag : Nat
  /-- issue tag, for c.cpy -/
  issue : Nat
  src : CopyEnd
  dst : CopyEnd
  units : Nat
  /-- units written so far -/
  written : List Nat := []
  st : CopyState := .running
  core : CoreId
  /-- the 33rd and later copies into one scratchpad wait (R186) -/
  waiting : Bool := false
  /-- requests to another package that are not answered: message, unit, part -/
  asks : List (Nat × Nat × Nat) := []
  /-- parts of source units that another package has returned: unit, part, value -/
  parts : List (Nat × Nat × DWord) := []
  deriving DecidableEq, Repr

/-- A contribution on its way to its home slice (R350), with the instruction that counts it. -/
structure Contrib where
  add : LineAdd
  /-- warp, class and issue tags of the instructions it completes a part of -/
  owners : List (Nat × Ctr × Nat)
  /-- the addends of MMS operations by warp and tag, so that a reset can take one back (R258) -/
  parts : List ((Nat × Nat) × LineAdd) := []
  deriving DecidableEq, Repr

/-- Forms of RACK (R368). -/
inductive RackMode where
  | once | wait | close
  deriving DecidableEq, Repr

/-- Phases of a RACK (R362): before its seal, sealed, and with output on its way to another package. -/
inductive RackPhase where
  | waiting | sealed | writing
  deriving DecidableEq, Repr

/-- One RACK in progress (R362). -/
structure Rack where
  id : Nat
  w : Nat
  wg : Nat
  region : Nat
  wort : Nat
  core : CoreId
  mode : RackMode
  force : Bool
  out : DWord
  hist : DWord
  shift : BitVec 8
  /-- the timeout of RACK.W in µs, and the instant it ends once the wait phase runs -/
  timeout : Nat
  deadline : Option DWord := none
  lanes : LaneSet
  pc : DWord
  tag : Nat
  phase : RackPhase := .waiting
  /-- parts of the output that another package has not acknowledged -/
  asks : List Nat := []
  /-- another package refused a part -/
  refused : Bool := false
  deriving DecidableEq, Repr

/-! ## The fabric -/

/-- Port states of R462. -/
inductive PortState where
  | cobalt | amber | umber | slate
  deriving DecidableEq, Repr

/-- One Ndoken port (R462, R463, R469, R471). -/
structure Port where
  st : PortState := .slate
  width : Nat := 0
  /-- wavelengths that still work, of 9 -/
  usable : Nat := 9
  spareUsed : Bool := false
  /-- the most wavelengths that the power manager and earlier losses leave it (R483, R486) -/
  cap : Nat := 8
  hold : Bool := false
  berq : Nat := 0
  /-- flits replayed in the last millisecond, as last sampled (R463) -/
  replay : Nat := 0
  locked : Bool := false
  /-- send queue, oldest first: first package and message, with the deadline of a SENDQ unit -/
  queue : List (Nat × FabMsg × Option DWord) := []
  /-- relay buffer: messages to forward -/
  relay : List FabMsg := []
  deriving DecidableEq, Repr, Inhabited

/-- A slot of the rotation (R464, R465). -/
structure Slot where
  dur : Nat
  guard : Nat
  close : Nat
  matching : Nat
  deriving DecidableEq, Repr

/-- A slot table in force (R464, R465): epoch, slots, and for each matching the peers of the ports. -/
structure Table where
  epoch : DWord
  slots : List Slot
  /-- matching to port to peer package and peer port -/
  matchings : List (List (Option (Nat × Nat)))
  deriving DecidableEq, Repr

/-- A route-table entry (R466). -/
structure Route where
  pkg : Nat
  mode : Nat
  ra : Nat
  rb : Nat
  bv : Bool
  deriving DecidableEq, Repr

/-- A TOPO that has been accepted (R473, R474). -/
structure Topo where
  mask : BitVec 16
  act : DWord
  table : Table
  routes : Option (Nat × List Route)
  block : DWord
  asid : BitVec 16
  w : Nat
  tag : Nat
  /-- 0 before amber, 1 amber, 2 fencing, 3 retraining -/
  phase : Nat
  deriving DecidableEq, Repr

/-- A step of a collective block (R478). -/
structure CollStep where
  kind : Nat
  slot : Nat
  peer : Nat
  lreg : Nat
  rreg : Nat
  a : DWord
  b : DWord
  n : Nat
  deriving DecidableEq, Repr

/-- One collective, SENDQ or RTSW in flight (R479, R490, R493). -/
structure Coll where
  id : Nat
  w : Nat
  wg : Nat
  region : Nat
  asid : BitVec 16
  user : Bool
  lanes : LaneSet
  pc : DWord
  tag : Nat
  /-- 0 COLL, 1 SENDQ, 2 RTSW, 3 TOPO -/
  what : Nat
  block : DWord := 0
  cid : DWord := 0
  freeze : DWord := 0
  peerCtx : Nat := 0
  steps : List CollStep := []
  step : Nat := 0
  base : Nat := 0
  started : Bool := false
  /-- units not yet acknowledged: message identity, source, destination -/
  pendingU : List (Nat × DWord × DWord) := []
  /-- the barrier object it waits on -/
  waitBar : Option DWord := none
  routes : Option (Nat × List Route) := none
  /-- final status once known: STATUS code and INFO, with the removed package -/
  fin : Option (Nat × Nat × Option Nat) := none
  /-- a freeze at the next step boundary (R484): cause and port, and the instant it takes effect -/
  freezing : Option (Nat × Nat) := none
  frozeAt : DWord := 0
  /-- reply of a REDUCE or a barrier still to come: message identity, 0 for a barrier -/
  awaits : Option Nat := none
  /-- the final STATUS has been written and is on its way to its home (R481) -/
  wrote : Bool := false
  deriving DecidableEq, Repr

/-- What a write at a home does with its bytes: it stores them, adds them to what stands there as one number, or sets their bits there. -/
inductive HomeOp where
  | store | add | or
  deriving DecidableEq, Repr

/-- A write of the package's own firmware that waits at its home for the holders of its line (R389): the ASID and address by which it was
made, none for a physical one, its place and its bytes, all of one line. -/
structure HomeWrite where
  who : Option (Nat × Nat)
  pa : Nat
  bytes : List Byte
  op : HomeOp := .store
  /-- the posted store, warp and issue tag, that this window line is a part of (R316) -/
  store : Option (Nat × Nat) := none
  deriving DecidableEq, Repr

/-- A memory request of the host that has arrived and waits (R344, R446): the function, BAR and offset, the bytes of a write or the length
of a read. -/
structure HostReq where
  fn : Nat
  bar : Nat
  off : Nat
  bytes : Option (List Byte)
  len : Nat
  deriving DecidableEq, Repr

/-! ## The package service -/

/-- The doorbell page of a VF (R447) or the PF's ring and queue fields (R460). -/
structure Fn where
  ring : DWord := 0
  cqbase : DWord := 0
  cqhead : Word := 0
  cqtail : Word := 0
  bar2pa : DWord := 0
  bar2sz : Word := 0
  /-- Uncorrectable Error Status records (R354, R448) -/
  errors : Nat := 0
  /-- the firmware executes a save or load record of this ring (R433) -/
  saving : Bool := false
  deriving DecidableEq, Repr, Inhabited

/-- Answers the host link has given (R446, R448, R450): completions, in order. -/
inductive HostReply where
  | data (bytes : List Byte)
  | unsupported
  | abort
  | retry
  | config
  | msix (fn vec : Nat)
  deriving DecidableEq, Repr

/-- What the machine does next when it is driven from outside: an event, or an issue by a named warp. -/
inductive Turn where
  | event (i : Instr)
  | issue (w : Nat)
  deriving DecidableEq, Repr

/-- Whose turn it is when nothing is driven from outside. -/
inductive Side where
  | issue | access | engine
  deriving DecidableEq, Repr

/-- The state of one package. DESIGN CHOICE (log entry 1). DESIGN CHOICE (log entry 10). -/
structure State where
  /-- what happens next by outside choice, head first: inputs and the timing that R6 leaves to the device -/
  agenda : List Turn := []
  side : Side := .issue
  /-- `sr.clock`, R1 and R75; 0 at reset is a DESIGN CHOICE (log entry 7) -/
  clock : DWord := 0
  /-- `sr.dev` of this package, R75 -/
  dev : Nat := 0
  /-- the model's own counter of free values drawn so far -/
  fresh : Nat := 0
  /-- the model's own source of identities and orders -/
  nextId : Nat := 1
  /-- identity of the warp that holds the issue slot (R77) -/
  cur : Nat := 0
  warps : List Warp := []
  wgs : List Workgroup := []
  gangs : List Gang := []
  regions : List Region := []
  /-- generation count of R406 -/
  gen : Nat := 0
  /-- after an alarm the maltster accepts no LAUNCH, R454 -/
  launchLock : Bool := false
  /-- the last look for rotation, R414 -/
  rotAt : DWord := 0
  /-- memory of the package by physical address (R374) -/
  mem : Sparse Byte := []
  /-- memory of the host behind the host window, by host bus address (R445) -/
  hostMem : Sparse Byte := []
  /-- posted writes to host pages on their way (R218, R446) -/
  hostPosted : List (Nat × Nat × Byte) := []
  /-- ASIDs whose write-backs a lost host link, or another package that is dead or out of reach, has not taken (R448, R467, R487) -/
  lostBacks : List Nat := []
  cores : List Core := []
  clusters : List Cluster := []
  dies : List Die := []
  copies : List Copy := []
  contribs : List Contrib := []
  racks : List Rack := []
  leases : List Lease := []
  /-- lease copies of other packages' lines, oldest first -/
  farLines : List FarLine := []
  -- the package service page, R460
  stage : BitVec 4 := 1
  psReady : Bool := false
  linkw : BitVec 2 := 0
  psAlarm : Bool := false
  degraded : Bool := false
  attbusy : Bool := false
  contain : Word := 0
  alarmClass : BitVec 4 := 0
  policy : BitVec 2 := 1
  alock : Bool := false
  erased : BitVec 2 := 0
  conbase : DWord := 0
  /-- bytes written to the console ring so far -/
  conpos : Nat := 0
  nonce : List Byte := List.replicate 64 0
  attdst : DWord := 0
  /-- the fused security counter, R449 -/
  fused : DWord := 0
  recovery : Bool := false
  /-- the firmware image that runs: header and body (R449) -/
  image : List Byte := []
  /-- the MSI-X table of the PF, at +0x8000 of its BAR0 (R446) -/
  msix : Sparse Byte := []
  /-- the PF at index 0, VF k at index k -/
  fns : List Fn := List.replicate 17 {}
  hostOut : List HostReply := []
  /-- inbound requests of the host not yet served, oldest first -/
  inbound : List HostReq := []
  /-- writes of the firmware that wait at their homes, oldest first -/
  homeWrites : List HomeWrite := []
  -- the fabric
  ports : List Port := List.replicate 16 {}
  table : Option Table := none
  seed : Nat := 0
  routes : List Route := []
  topo : Option Topo := none
  holding : List (Nat × FabMsg × Option DWord) := []
  /-- messages of REDUCE steps that are not yet complete (R480) -/
  staged : List FabMsg := []
  fencing : Bool := false
  /-- messages delivered to the fabric, oldest first: port and message -/
  sent : List (Nat × FabMsg) := []
  /-- requests sent or queued and not yet answered: message identity, warp, issue tag, lane -/
  unacked : List (Nat × Nat × Nat × Nat) := []
  /-- 8-byte units that another package has returned to a fetch, a kiln or an engine: owner, address, 0 for a value, 1 for a
  refusal, 2 where there is no path and 3 for a value asked for before an ACQ, and the value -/
  fetchBuf : List (Nat × Nat × Nat × DWord) := []
  colls : List Coll := []
  /-- REDUCE steps applied: sender, collective, step (R480) -/
  applied : List (Nat × DWord × Nat) := []
  /-- fabric barriers coordinated here: ASID and address of the object, packages that wait -/
  barWait : List (Nat × DWord × List Nat) := []
  /-- packages declared dead (R487) -/
  deadPkgs : List Nat := []
  deriving DecidableEq, Repr

/-- The state right after reset: no region has been launched, so no warp exists (R74 gives a warp its values at
launch, and withFetchWord launches one); every control register holds its Reset column. DESIGN CHOICE (log entry 9). -/
def State.reset : State := {}

end Sys2Proof.Machine
end

