-- ==== Sys2Proof/Machine/Mem.lean ====
section
/-! DEFINITION. The sparse canonical store, memory by physical address (R374), the parts of the package by identity, and
the walk of the page tables (R378 to R384). -/

namespace Sys2Proof.Machine

/-! ## The sparse store -/

/-- The value at a key; an unlisted key reads as the default. -/
def sget {α : Type} (d : α) : Sparse α → Nat → α
  | [], _ => d
  | (k, v) :: t, n => if n = k then v else sget d t n

/-- The entries of a key removed. -/
def sdel {α : Type} : Sparse α → Nat → Sparse α
  | [], _ => []
  | (k, v) :: t, n => if n = k then sdel t n else (k, v) :: sdel t n

/-- Writing a key keeps the keys rising and lists no default. -/
def sput {α : Type} [DecidableEq α] (d : α) : Sparse α → Nat → α → Sparse α
  | [], n, x => if x = d then [] else [(n, x)]
  | (k, v) :: t, n, x =>
    if n < k then (if x = d then sdel ((k, v) :: t) n else (n, x) :: (k, v) :: sdel t n)
    else if n = k then sput d t n x
    else (k, v) :: sput d t n x

/-- The canonical form: keys strictly rising from `lo` on, no value equal to the default. -/
def swfFrom {α : Type} [DecidableEq α] (d : α) : Nat → Sparse α → Bool
  | _, [] => true
  | lo, (k, v) :: t => decide (lo ≤ k) && decide (v ≠ d) && swfFrom d (k + 1) t

def swf {α : Type} [DecidableEq α] (d : α) (m : Sparse α) : Bool := swfFrom d 0 m

/-! ## Memory -/

/-- What a byte that nothing has written reads as. DESIGN CHOICE (log entry 6). -/
def Memory.blank : Byte := 0

/-- The canonical form of memory. -/
def Memory.wf (m : List Host.Cell) : Bool := swf Memory.blank m

def Memory.read (m : List Host.Cell) (a : Nat) : Byte := sget Memory.blank m a
def Memory.write (m : List Host.Cell) (a : Nat) (b : Byte) : List Host.Cell := sput Memory.blank m a b

/-- n bytes from an address, first byte first (R3). -/
def Memory.readN (m : List Host.Cell) (a : Nat) : Nat → List Byte
  | 0 => []
  | n + 1 => Memory.read m a :: Memory.readN m (a + 1) n

def Memory.writeN (m : List Host.Cell) (a : Nat) : List Byte → List Host.Cell
  | [] => m
  | b :: bs => Memory.writeN (Memory.write m a b) (a + 1) bs

/-- Little-endian value of some bytes (R3). -/
def leNat : List Byte → Nat
  | [] => 0
  | b :: bs => b.toNat + 256 * leNat bs

/-- n little-endian bytes of a value. -/
def leBytes : Nat → Nat → List Byte
  | 0, _ => []
  | n + 1, v => BitVec.ofNat 8 v :: leBytes n (v / 256)

def Memory.readNat (m : List Host.Cell) (a n : Nat) : Nat := leNat (Memory.readN m a n)
def Memory.writeNat (m : List Host.Cell) (a n v : Nat) : List Host.Cell := Memory.writeN m a (leBytes n v)

/-! ## Bit fields -/

/-- w bits of a number from bit i. -/
def bitsAt (x i w : Nat) : Nat := x / 2 ^ i % 2 ^ w
def bitAt (x i : Nat) : Bool := x / 2 ^ i % 2 == 1
/-- A number with w bits from bit i replaced. -/
def setBitsAt (x i w v : Nat) : Nat := x - bitsAt x i w * 2 ^ i + v % 2 ^ w * 2 ^ i

/-- The lanes of a set, lowest first. -/
def lanesOf (m : LaneSet) : List Nat := (List.range 32).filter fun l => m.getLsbD l
/-- The set of some lanes. -/
def laneSet (ls : List Nat) : LaneSet := ls.foldl (fun acc l => acc ||| (1#32 <<< l)) 0
def laneCount (m : LaneSet) : Nat := (lanesOf m).length
/-- Sign extension of a 32-bit offset to 64 bits. -/
def sx64 (v : Word) : DWord := v.signExtend 64

/-! ## Parts by identity -/

def updAt {α : Type} (p : α → Bool) (f : α → α) (l : List α) : List α := l.map fun x => if p x then f x else x

/-- Replace the element that p names, or append it. -/
def putAt {α : Type} (p : α → Bool) (x : α) (l : List α) : List α := if l.any p then updAt p (fun _ => x) l else l ++ [x]

def State.getWarp (s : State) (w : Nat) : Option Warp := s.warps.find? fun x => x.id == w
def State.setWarp (s : State) (w : Warp) : State := { s with warps := updAt (fun x => x.id == w.id) (fun _ => w) s.warps }
def State.modWarp (s : State) (w : Nat) (f : Warp → Warp) : State :=
  { s with warps := updAt (fun x => x.id == w) f s.warps }
/-- A warp changed, resident or saved. -/
def State.modKept (s : State) (w : Nat) (f : Warp → Warp) : State :=
  { s with
    warps := updAt (fun x => x.id == w) f s.warps
    gangs := s.gangs.map fun g => { g with savedWarps := updAt (fun x => x.id == w) f g.savedWarps } }
/-- A warp, resident or kept with a saved gang. -/
def keptWarp (s : State) (w : Nat) : Option Warp :=
  (s.getWarp w).or (s.gangs.findSome? fun g => g.savedWarps.find? fun x => x.id == w)
def State.getWg (s : State) (g : Nat) : Option Workgroup := s.wgs.find? fun x => x.id == g
def State.modWg (s : State) (g : Nat) (f : Workgroup → Workgroup) : State :=
  { s with wgs := updAt (fun x => x.id == g) f s.wgs }
def State.getGang (s : State) (g : Nat) : Option Gang := s.gangs.find? fun x => x.id == g
def State.modGang (s : State) (g : Nat) (f : Gang → Gang) : State :=
  { s with gangs := updAt (fun x => x.id == g) f s.gangs }
def State.getRegion (s : State) (r : Nat) : Option Region := s.regions.find? fun x => x.handle == r
def State.modRegion (s : State) (r : Nat) (f : Region → Region) : State :=
  { s with regions := updAt (fun x => x.handle == r) f s.regions }
def State.getCore (s : State) (c : CoreId) : Core := (s.cores.find? fun x => x.id == c).getD { id := c }
def State.setCore (s : State) (x : Core) : State := { s with cores := putAt (fun y => y.id == x.id) x s.cores }
def State.modCore (s : State) (c : CoreId) (f : Core → Core) : State := s.setCore (f (s.getCore c))
def State.getCluster (s : State) (c : CluId) : Cluster := (s.clusters.find? fun x => x.id == c).getD { id := c }
def State.setCluster (s : State) (x : Cluster) : State :=
  { s with clusters := putAt (fun y => y.id == x.id) x s.clusters }
def State.modCluster (s : State) (c : CluId) (f : Cluster → Cluster) : State := s.setCluster (f (s.getCluster c))
def State.getDie (s : State) (d : Nat) : Die := (s.dies.find? fun x => x.id == d).getD { id := d }
def State.setDie (s : State) (x : Die) : State := { s with dies := putAt (fun y => y.id == x.id) x s.dies }
def State.modDie (s : State) (d : Nat) (f : Die → Die) : State := s.setDie (f (s.getDie d))
def State.port (s : State) (p : Nat) : Port := (s.ports[p]?).getD {}
def State.modPort (s : State) (p : Nat) (f : Port → Port) : State := { s with ports := s.ports.modify p f }
def State.fn (s : State) (k : Nat) : Fn := (s.fns[k]?).getD {}
def State.modFn (s : State) (k : Nat) (f : Fn → Fn) : State := { s with fns := s.fns.modify k f }
def cluOf (c : CoreId) : CluId := ⟨c.die, c.clu⟩

/-- The region (context) of a warp, through its workgroup and gang. -/
def State.warpWg (s : State) (w : Warp) : Option Workgroup := s.getWg w.wg
def State.warpGang (s : State) (w : Warp) : Option Gang := (s.warpWg w).bind fun g => s.getGang g.gang
def State.warpRegion (s : State) (w : Warp) : Option Region := (s.warpGang w).bind fun g => s.getRegion g.region
/-- The core a warp runs on. -/
def State.warpCore (s : State) (w : Warp) : CoreId := ((s.warpWg w).map (·.core)).getD default
def State.warpUser (s : State) (w : Warp) : Bool := ((s.warpRegion w).map fun r => !r.service).getD true
def State.warpAsid (s : State) (w : Warp) : Nat := ((s.warpRegion w).map (·.asid.toNat)).getD 0
def State.warpCtx (s : State) (w : Warp) : Nat := ((s.warpRegion w).map (·.ctx)).getD 0
def State.warpEff (s : State) (w : Warp) : Eff := ((s.warpRegion w).map (·.eff)).getD {}

/-! ## Physical memory of the package -/

/-- First address that is not HBM (R374). -/
def hbmEnd : Nat := 2 ^ 40
def hostBase : Nat := 0x80000000000

/-- Write-record bits of the frames that some bytes touch (R393). Their layout in the reserved 2 MiB is not stated. DESIGN CHOICE (log
entry 91). -/
def markWritten (s : State) (pa n : Nat) : State :=
  if n = 0 then s
  else
    let d := pa / 2 ^ 36 % 16
    let fs := (List.range ((pa + n - 1) / 4096 - pa / 4096 + 1)).map (· + pa / 4096)
    s.modDie d fun x => { x with written := fs.foldl (fun acc f => sput false acc f true) x.written }

/-- Bytes stored in HBM, with the write record. -/
def State.store (s : State) (pa : Nat) (bs : List Byte) : State :=
  markWritten { s with mem := Memory.writeN s.mem pa bs } pa bs.length

/-- Bytes of HBM. -/
def State.load (s : State) (pa n : Nat) : List Byte := Memory.readN s.mem pa n
def State.loadNat (s : State) (pa n : Nat) : Nat := Memory.readNat s.mem pa n
def State.storeNat (s : State) (pa n v : Nat) : State := s.store pa (leBytes n v)

/-! ## The free values -/
/-- A free choice: the constant at the next number, which no other use repeats. DESIGN CHOICE (log entry 11). -/
def State.drawBool (s : State) : Bool × State := (Config.freeBool s.fresh, { s with fresh := s.fresh + 1 })
def State.drawByte (s : State) : Byte × State := (Config.freeByte s.fresh, { s with fresh := s.fresh + 1 })
def State.drawDWord (s : State) : DWord × State := (Config.freeDWord s.fresh, { s with fresh := s.fresh + 1 })
/-- n free bytes. -/
def State.drawBytes (s : State) : Nat → List Byte × State
  | 0 => ([], s)
  | n + 1 => let r := s.drawByte; let t := r.2.drawBytes n; (r.1 :: t.1, t.2)
/-- A new identity. -/
def State.newId (s : State) : Nat × State := (s.nextId, { s with nextId := s.nextId + 1 })

/-! ## Holders of a line at its home (R387, R389, R394) -/

/-- A frame whose migration seal stands (R394). -/
def sealedPa (s : State) (pa : Nat) : Bool :=
  let d := s.getDie (pa / 2 ^ 36 % 16)
  d.mseal.getLsbD 0 && bitsAt d.mseal.toNat 12 28 == bitsAt pa 12 28

/-- Whether a directory entry lists nobody. -/
def dirClear (x : Dir) : Bool := x.dies == 0 && x.remote.isEmpty && x.maxExp == 0

/-- Whether a write at the home may take effect: every holder has acknowledged or its lease has run out (R344, R389). -/
def holdersGone (s : State) (x : Dir) : Bool :=
  (x.dies &&& ~~~ x.acked == 0 || x.dieExp.toNat ≤ s.clock.toNat) && (x.remote.all fun r => r.2.toNat ≤ s.clock.toNat) &&
    x.maxExp.toNat ≤ s.clock.toNat

/-- Whether a write by physical address may take effect now (R389, R395). -/
def physReady (s : State) (pa : Nat) : Bool :=
  !sealedPa s pa && ((s.getDie (pa / 2 ^ 36 % 16)).dirs.filter fun e => e.pa == pa / 128 * 128).all fun e => dirClear e || holdersGone s e

/-- The holders of a physical line told of a write (R389). -/
def announcePhys (s : State) (pa : Nat) : State :=
  s.modDie (pa / 2 ^ 36 % 16) fun d =>
    { d with dirs := d.dirs.map fun e => if e.pa == pa / 128 * 128 && !dirClear e then { e with pending := true } else e }

/-! ## Translation -/

/-- What an access asks of a page. -/
inductive Want where
  | read | write | fetch
  deriving DecidableEq, Repr

/-- The outcome of a walk (R380): a place in this package's memory, a control page, the host window, another package's
memory, an absent entry with its level, or a refused access. -/
inductive Walk where
  | mem (pa kind : Nat) (glob : Bool)
  | ctrl (pa : Nat)
  | host (addr : Nat)
  | far (pkg die : Nat)
  | absent (level : Nat)
  | deny
  deriving DecidableEq, Repr

/-- A leaf as read, with its address, or why there is none. -/
inductive Leaf where
  | leaf (pte addr : Nat) (big : Bool)
  | absent (level : Nat)
  | bad
  deriving DecidableEq, Repr

/-- A canonical address: bits [63:57] equal to bit [56] (R101, R203). -/
def canonical (va : DWord) : Bool :=
  va.toNat / 2 ^ 56 == 0 || va.toNat / 2 ^ 56 == 255

/-- A non-leaf entry's bits other than V, L and PA (R379). -/
def nonLeafOk (e : Nat) : Bool := bitsAt e 1 6 == 0 && bitsAt e 8 4 == 0 && bitsAt e 48 16 == 0
/-- The table a non-leaf entry names. -/
def entryTable (e : Nat) : Nat := bitsAt e 12 36 * 4096

/-- The levels below `lvl` of the walk (R378); `n` is fuel for the levels left. -/
def walkFrom (m : List Host.Cell) (va : Nat) : Nat → Nat → Leaf
  | 0, _ => .bad
  | lvl + 1, table =>
    let a := table + 8 * bitsAt va (12 + 9 * lvl) 9
    let e := Memory.readNat m a 8
    if !bitAt e 0 then .absent (lvl + 1)
    else if lvl = 0 then .leaf e a false
    else if lvl = 1 && bitAt e 7 then .leaf e a true
    else if bitAt e 7 || !nonLeafOk e then .bad
    else walkFrom m va lvl (entryTable e)

/-- The walk of R378 for an ASID, from the root that PTBASE names. -/
def walkTables (m : List Host.Cell) (ptbase asid va : Nat) : Leaf :=
  let e := Memory.readNat m (bitsAt ptbase 12 36 * 4096 + 8 * asid) 8
  if !bitAt e 0 then .absent 6
  else if bitsAt e 1 11 != 0 || bitsAt e 48 16 != 0 then .bad
  else walkFrom m va 5 (entryTable e)

/-- A home die that does not answer (R456), or one that homes no memory (R375). -/
def homeDead (s : State) (pa : Nat) : Bool := let d := s.getDie (pa / 2 ^ 36 % 16); d.dead || d.noStack

/-- The memory in which a walk finds entries: that of the dies that home any (R375, R456). DESIGN CHOICE (log entry 100). -/
def tableMem (s : State) : List Host.Cell :=
  if s.dies.any fun d => d.dead || d.noStack then s.mem.filter fun c => !homeDead s c.1 else s.mem

/-- Whether a PA at or above HBM belongs to a control page of R445. -/
def isCtrlPa (pa : Nat) : Bool :=
  if pa < 0x10000000000 then false
  else
    let off := pa - 0x10000000000
    let o := off % 0x1000000
    (decide (off / 0x1000000 < 16) && (decide (o < 0x2000) || (decide (0x10000 ≤ o) && decide (o < 0x20000)))) ||
      (decide (0x11000000000 ≤ pa) && decide (pa < 0x11000001000))

/-- R380 on a leaf: the place it gives an access, or the refusal. -/
def checkLeaf (dev : Nat) (user : Bool) (want : Want) (va : Nat) : Leaf → Walk
  | .absent l => .absent l
  | .bad => .deny
  | .leaf e _ big =>
    let kind := bitsAt e 8 3
    let base := bitsAt e 12 36 * 4096
    let pa := if big then base / 2 ^ 21 * 2 ^ 21 + va % 2 ^ 21 else base + va % 4096
    let perm := (match want with | .read => true | .write => bitAt e 1 | .fetch => bitAt e 2) &&
      (!user || bitAt e 3)
    let fields := !bitAt e 11 && (!big || bitsAt e 12 9 == 0) && decide (kind < 6)
    if !perm || !fields then .deny
    else if kind = 4 then (if pa ≥ hostBase then .host (pa - hostBase) else .deny)
    else if bitsAt e 48 12 != dev then .far (bitsAt e 48 12) (bitsAt e 60 4)
    else if isCtrlPa pa then (if kind = 2 && bitsAt e 60 4 == pa / 2 ^ 36 % 16 then .ctrl pa else .deny)
    else if pa ≥ hbmEnd then .deny
    else if bitsAt e 60 4 != pa / 2 ^ 36 then .deny
    else .mem pa kind (bitAt e 6)

/-- The leaf a die's TLB holds for an address (R383). -/
def tlbFind (t : List TlbEntry) (asid va : Nat) : Option Leaf :=
  (t.find? fun e => (e.asid == asid || (e.asid == 0 && bitAt e.pte.toNat 6)) &&
      (if e.big then e.page / 512 == va / 2 ^ 21 else e.page == va / 4096)).map
    fun e => .leaf e.pte.toNat 0 e.big

/-- The leaf without its A bit, for comparing what the TLB holds with what memory holds. -/
def sameLeaf (a b : Leaf) : Bool :=
  match a, b with
  | .leaf p _ x, .leaf q _ y => setBitsAt (setBitsAt p 4 1 0) 5 1 0 == setBitsAt (setBitsAt q 4 1 0) 5 1 0 && x == y
  | _, _ => false

/-- A die without the TLB entry of an address. -/
def dropTlb (s : State) (die asid va : Nat) : State :=
  s.modDie die fun d => { d with tlb := d.tlb.filter fun e => (tlbFind [e] asid va).isNone }

/-- The leaf an access sees: the TLB's, or memory's on a miss, which takes the entry's place; where the two differ, either, because
whether the access missed is not stated (R328, R383). DEDUCED (log entry 20). -/
def leafOf (s : State) (die asid va : Nat) : Leaf × State :=
  let d := s.getDie die
  let now := walkTables (tableMem s) d.ptbase.toNat asid va
  match tlbFind d.tlb asid va with
  | none => (now, s)
  | some old =>
    if sameLeaf old now then (now, s)
    else
      let r := s.drawBool
      if r.1 then (old, r.2) else (now, dropTlb r.2 die asid va)

/-- The set of a TLB in which a translation stands, of 512 sets of 8 ways (R383). DESIGN CHOICE (log entry 26). -/
def tlbSet (page : Nat) (big : Bool) : Nat := (if big then page / 512 else page) % 512

/-- A TLB with one more entry: a full set gives up the entry filled first. -/
def tlbPut (t : List TlbEntry) (x : TlbEntry) : List TlbEntry :=
  let same := t.filter fun e => tlbSet e.page e.big == tlbSet x.page x.big
  (match same with
   | old :: _ => if 8 ≤ same.length then t.erase old else t
   | [] => t) ++ [x]

/-- A is set by an atomic OR on the entry (R380), which waits at its home for the holders of its line and for a sealed frame (R389, R395). -/
def setA (s : State) (a e : Nat) : State :=
  if physReady s a && s.homeWrites.all fun w => w.who.isSome then s.storeNat a 8 (setBitsAt e 4 1 1)
  else if s.homeWrites.any fun w => w.pa == a && w.op == .or then s
  else announcePhys { s with homeWrites := s.homeWrites ++ [{ who := none, pa := a, bytes := leBytes 8 16, op := .or }] } a

/-- TLB fill: the entry is cached and A is set (R379, R380). DEDUCED (log entry 20). -/
def fillTlb (s : State) (die asid va : Nat) : Leaf → State
  | .leaf e a big =>
    let d := s.getDie die
    if (tlbFind d.tlb asid va).isSome then s
    else
      let e' := setBitsAt e 4 1 1
      let s1 := if bitAt e 4 || a = 0 then s else setA s a e
      let t : TlbEntry := ⟨if bitAt e 6 then 0 else asid, va / 4096, big, BitVec.ofNat 64 e'⟩
      s1.modDie die fun x => { x with tlb := tlbPut x.tlb t }
  | _ => s

/-- The entry of the leaf that serves an address on a die: the one its TLB holds, else memory's (R383). -/
def leafNow (s : State) (die asid va : Nat) : Nat :=
  let d := s.getDie die
  match (tlbFind d.tlb asid va).getD (walkTables (tableMem s) d.ptbase.toNat asid va) with
  | .leaf e _ _ => e
  | _ => 0

/-- The ASID that a page's lines carry in every cache: 0 for a global page (R379, R381). -/
def pageTag (s : State) (die asid va : Nat) : Nat := if bitAt (leafNow s die asid va) 6 then 0 else asid

/-- KIND of the page (R379). -/
def farKind (s : State) (die asid va : Nat) : Nat := bitsAt (leafNow s die asid va) 8 3

/-- `Translate` (R328, R380): the outcome, and the state with the TLB filled. -/
def translate (s : State) (die asid : Nat) (user : Bool) (want : Want) (va : DWord) : Walk × State :=
  let l := leafOf s die asid va.toNat
  let o := checkLeaf l.2.dev user want va.toNat l.1
  match o with
  | .absent _ => (o, l.2)
  | .deny => (o, l.2)
  | _ => (o, fillTlb l.2 die asid va.toNat l.1)

/-- The outcome alone, read from memory's tables. -/
def translateNow (s : State) (die asid : Nat) (user : Bool) (want : Want) (va : DWord) : Walk :=
  checkLeaf s.dev user want va.toNat (walkTables (tableMem s) (s.getDie die).ptbase.toNat asid va.toNat)

/-- A translation at the home die of an address (R383). -/
def translateHome (s : State) (asid : Nat) (user : Bool) (want : Want) (va : DWord) : Walk × State :=
  match translateNow s 0 asid user want va with
  | .mem pa _ _ => translate s (pa / 2 ^ 36 % 16) asid user want va
  | w => (w, s)

/-! ## Places of a region (R302, R383) -/

/-- The hash H of R302. -/
def regionHash (asid va : Nat) : Nat :=
  let x := bitsAt va 9 48
  (bitsAt x 0 9) ^^^ (bitsAt x 9 9) ^^^ (bitsAt x 18 9) ^^^ (bitsAt x 27 9) ^^^ (bitsAt x 36 9) ^^^ (bitsAt x 45 3) ^^^
    (bitsAt asid 0 9) ^^^ (bitsAt asid 9 7)

end Sys2Proof.Machine
end

