-- ==== Sys2Proof/Machine/Operands.lean ====
section
/-! DEFINITION. The register files of a warp with the constant registers (R49, R50, R74), the last-writer tags of R83, the
operand buffer of R177, and every operand form of the instruction words. -/

namespace Sys2Proof.Machine

/-! ## Reading registers -/

def keyOf (r : Reg) (l : Nat) : Nat := 32 * r.toNat + l

/-- A vector register in a lane; `v0` reads zero. -/
def rdV (w : Warp) (r : Reg) (l : Nat) : Word := if r = 0 then 0 else sget 0 w.v (keyOf r l)
/-- A register pair in a lane; `v0.d` reads zero (R50). -/
def rdP (w : Warp) (r : Reg) (l : Nat) : DWord :=
  if r = 0 then 0 else sget 0 w.v (keyOf (r + 1) l) ++ sget 0 w.v (keyOf r l)
/-- A predicate in a lane; `q0` reads true. -/
def rdQ (w : Warp) (r : Reg) (l : Nat) : Bool := if r = 0 then true else sget false w.q (keyOf r l)
/-- A warp-scalar register; `w0` reads zero. -/
def rdW (w : Warp) (r : Reg) : Word := if r = 0 then 0 else sget 0 w.w r.toNat
/-- A lane mask. -/
def rdM (w : Warp) (r : Reg) : LaneSet := sget 0 w.m r.toNat

/-! ## Writing registers -/

/-- Key of a register in the last-writer tags: file, register, lane. -/
def tagKey (f : File) (r : Reg) (l : Nat) : Nat :=
  (match f with | .v => 0 | .p => 0 | .q => 1 | .w => 2 | .m => 3) * 2 ^ 16 + keyOf r l

/-- The operand-buffer entry after a write to a vector register (R177). -/
def dropKept (w : Warp) (r : Reg) : Option (Nat × Bool × List DWord) :=
  match w.opbuf with
  | some (k, pair, vs) => if k == r.toNat || (pair && k + 1 == r.toNat) then none else some (k, pair, vs)
  | none => none

/-- One 32-bit vector register written by the instruction with an issue tag; `v0` discards the write (R49). -/
def wrV (w : Warp) (r : Reg) (l tag : Nat) (x : Word) : Warp :=
  if r = 0 then w
  else { w with v := sput 0 w.v (keyOf r l) x, lastw := sput 0 w.lastw (tagKey .v r l) tag, opbuf := dropKept w r }

/-- A pair written; `v0.d` discards both halves (R50). -/
def wrP (w : Warp) (r : Reg) (l tag : Nat) (x : DWord) : Warp :=
  if r = 0 then w
  else wrV (wrV w r l tag (x.setWidth 32)) (r + 1) l tag (x.extractLsb' 32 32)

/-- A predicate written; `q0` discards the write. -/
def wrQ (w : Warp) (r : Reg) (l tag : Nat) (x : Bool) : Warp :=
  if r = 0 then w
  else { w with q := sput false w.q (keyOf r l) x, lastw := sput 0 w.lastw (tagKey .q r l) tag }

/-- A warp-scalar register written; `w0` discards the write. -/
def wrW (w : Warp) (r : Reg) (tag : Nat) (x : Word) : Warp :=
  if r = 0 then w
  else { w with w := sput 0 w.w r.toNat x, lastw := sput 0 w.lastw (tagKey .w r 0) tag }

/-- The exited lanes of a warp. -/
def exitedOf (w : Warp) : LaneSet :=
  laneSet ((List.range 32).filter fun l => match w.lanes[l]? with | some x => x.st == .exited | none => false)

/-- A lane mask written: it never takes the bit of an exited lane (R106). -/
def wrM (w : Warp) (r : Reg) (tag : Nat) (x : LaneSet) : Warp :=
  { w with m := sput 0 w.m r.toNat (x &&& ~~~ exitedOf w), lastw := sput 0 w.lastw (tagKey .m r 0) tag }

/-- Whether a result with an issue tag still wins over the register's last writer (R83). -/
def tagWins (w : Warp) (f : File) (r : Reg) (l tag : Nat) : Bool := decide (sget 0 w.lastw (tagKey f r l) ≤ tag)

/-- A write that carries the issue tag of an older instruction: it loses to a younger write (R83). DEDUCED (log entry 12). -/
def wrVLate (w : Warp) (r : Reg) (l tag : Nat) (x : Word) : Warp :=
  if tagWins w .v r l tag then wrV w r l tag x else w
def wrQLate (w : Warp) (r : Reg) (l tag : Nat) (x : Bool) : Warp :=
  if tagWins w .q r l tag then wrQ w r l tag x else w
def wrWLate (w : Warp) (r : Reg) (tag : Nat) (x : Word) : Warp :=
  if tagWins w .w r 0 tag then wrW w r tag x else w
def wrMLate (w : Warp) (r : Reg) (tag : Nat) (x : LaneSet) : Warp :=
  if tagWins w .m r 0 tag then wrM w r tag x else w

/-- A lane's value written to a register of a per-lane file, as a number. -/
def wrLane (w : Warp) (f : File) (r : Reg) (tag : Nat) (l x : Nat) : Warp :=
  match f with
  | .v => wrV w r l tag (BitVec.ofNat 32 x)
  | .p => wrP w r l tag (BitVec.ofNat 64 x)
  | .q => wrQ w r l tag (x % 2 == 1)
  | .w => wrW w r tag (BitVec.ofNat 32 x)
  | .m => wrM w r tag (BitVec.ofNat 32 x)

/-- Values written lane by lane. -/
def wrLanes (w : Warp) (f : File) (r : Reg) (tag : Nat) (vs : List (Nat × Nat)) : Warp :=
  vs.foldl (fun acc p => wrLane acc f r tag p.1 p.2) w

/-- The FILE code of a destination (R157). DEDUCED (log entry 14). -/
def fileCode : File → BitVec 3 | .v => 1 | .p => 2 | .q => 3 | .w => 4 | .m => 5

/-! ## The issue of an instruction -/

/-- Everything fixed when an instruction is about to issue: the warp as it stands, the run, the participants (R95), the
counter, the length, the issue tag, and the entry that a queue pop supplies (R196). -/
structure Issue where
  i : Instr
  r : Raw
  w : Warp
  run : LaneSet
  e : LaneSet
  pc : DWord
  len : Nat
  tag : Nat
  pop : QEntry
  deriving DecidableEq, Repr

/-- Lowest participant. -/
def Issue.low (x : Issue) : Nat := ((lanesOf x.e).head?).getD 0
/-- The counter after the instruction. -/
def Issue.after (x : Issue) : DWord := x.pc + BitVec.ofNat 64 x.len

/-- The value a queue pop gives a lane. -/
def popLane (q : QEntry) (l : Nat) : Word := (q[l]?).getD 0

/-- A register operand of a lane as a number: 32 or 64 bits, or one bit. -/
def readOpnd (x : Issue) (o : Opnd) (l : Nat) : Nat :=
  if o.popped then (popLane x.pop l).toNat
  else match o.file with
  | .v => (rdV x.w o.r l).toNat
  | .p => (rdP x.w o.r l).toNat
  | .q => (rdQ x.w o.r l).toNat
  | .w => (rdW x.w o.r).toNat
  | .m => (rdM x.w o.r).toNat

/-- A plain register operand. -/
def readReg (x : Issue) (f : File) (r : Reg) (l : Nat) : Nat := readOpnd x (.mk1 f r) l

/-- Source A, B and C of a form X word. -/
def src3A (x : Issue) (f : File) (s : Src3) (l : Nat) : Nat := readOpnd x ⟨f, s.a, s.pop.isA⟩ l
def src3B (x : Issue) (f : File) (s : Src3) (l : Nat) : Nat := readOpnd x ⟨f, s.b, s.pop.isB⟩ l
def src3C (x : Issue) (f : File) (s : Src3) (l : Nat) : Nat := readOpnd x ⟨f, s.c, s.pop.isC⟩ l

/-- Source B: a register, or the immediate as written (R54). -/
def srcB (x : Issue) (f : File) (b : SrcB) (l : Nat) : Nat :=
  match b with
  | .reg r => readReg x f r l
  | .imm v => v.toNat

/-- The immediate of an n-bit operand: sign-extended for `.s64` and `.b64`, zero-extended for `.n64` (R98). -/
def extImm (t : ITy) (v : Word) : Nat :=
  match t with
  | .s64 => (v.signExtend 64).toNat
  | _ => v.toNat

def srcBInt (x : Issue) (t : ITy) (b : SrcB) (l : Nat) : Nat :=
  match b with
  | .reg r => readReg x t.file r l
  | .imm v => extImm t v

def srcBBits (x : Issue) (t : BTy) (b : SrcB) (l : Nat) : Nat :=
  match b with
  | .reg r => readReg x t.file r l
  | .imm v => match t with | .b32 => v.toNat | .b64 => (v.signExtend 64).toNat

/-- The three sources of a form with a 128-bit immediate variant. -/
def srcXA (x : Issue) (f : File) (s : SrcX) (l : Nat) : Nat :=
  match s with
  | .reg y => src3A x f y l
  | .imm a _ pop _ => readOpnd x ⟨f, a, pop.isA⟩ l
def srcXB (x : Issue) (f : File) (s : SrcX) (l : Nat) : Nat :=
  match s with
  | .reg y => src3B x f y l
  | .imm _ b pop _ => readOpnd x ⟨f, b, pop.isB⟩ l
def srcXC (x : Issue) (f : File) (s : SrcX) (l : Nat) : Nat :=
  match s with
  | .reg y => src3C x f y l
  | .imm _ _ _ v => v.toNat

/-- A global address (R202). -/
def addrGlobal (x : Issue) (m : Addr) (l : Nat) : DWord := rdP x.w m.base l + sx64 (m.off.getD 0)
/-- A scratch or parameter offset (R202). -/
def addrScratch (x : Issue) (m : Addr) (l : Nat) : Word := rdV x.w m.base l + m.off.getD 0
/-- The address of a store-like word, global. -/
def stGlobal (x : Issue) (a : StAddr) (l : Nat) : DWord :=
  match a with
  | .short b _ => rdP x.w b l
  | .long b _ _ off => rdP x.w b l + sx64 off
/-- The offset of a store-like word in scratch space; a queue pop may supply A (R205). -/
def stScratch (x : Issue) (a : StAddr) (l : Nat) : Word :=
  match a with
  | .short b _ => rdV x.w b l
  | .long b _ pop off => BitVec.ofNat 32 (readOpnd x ⟨.v, b, pop.isA⟩ l) + off
/-- The data operand of a store-like word. -/
def stData (x : Issue) (f : File) (a : StAddr) (l : Nat) : Nat :=
  match a with
  | .short _ b => readReg x f b l
  | .long _ b pop _ => readOpnd x ⟨f, b, pop.isB⟩ l

/-- Width in bits of an integer type. -/
def ITy.bits : ITy → Nat | .s32 => 32 | .n32 => 32 | .s64 => 64 | .n64 => 64
def ITy.signed : ITy → Bool | .s32 => true | .s64 => true | _ => false
def BTy.bits : BTy → Nat | .b32 => 32 | .b64 => 64
def T32.signed : T32 → Bool | .s32 => true | .n32 => false

/-- Val of R98. -/
def valT (t : ITy) (x : Nat) : Int := valInt (ITy.signed t) (ITy.bits t) x
/-- Fit of R98. -/
def fitT (t : ITy) (sat : Bool) (y : Int) : Nat :=
  let n := ITy.bits t
  if sat then wrapInt n (max (intLo (ITy.signed t) n) (min (intHi (ITy.signed t) n) y)) else wrapInt n y

/-- Bytes of an access size (R201). -/
def Sz.bytes : Sz → Nat | .n8 => 1 | .s8 => 1 | .n16 => 2 | .s16 => 2 | .b32 => 4 | .b64 => 8
def StSz.bytes : StSz → Nat | .b8 => 1 | .b16 => 2 | .b32 => 4 | .b64 => 8

/-- `Extend` of R206, as the 32-bit words written: one, or two for a pair. -/
def extendLoad (sz : Sz) (v : Nat) : List Word :=
  match sz with
  | .n8 => [BitVec.ofNat 32 (v % 2 ^ 8)]
  | .s8 => [BitVec.ofNat 32 (wrapInt 32 (valInt true 8 v))]
  | .n16 => [BitVec.ofNat 32 (v % 2 ^ 16)]
  | .s16 => [BitVec.ofNat 32 (wrapInt 32 (valInt true 16 v))]
  | .b32 => [BitVec.ofNat 32 v]
  | .b64 => [BitVec.ofNat 32 v, BitVec.ofNat 32 (v / 2 ^ 32)]

/-! ## The special registers by name (R75, R120) -/

/-- Whether `SWR` may ever write the register (classes U and S). -/
def SReg.writable : SReg → Bool
  | .lfm => true | .fpx => true | .fpc => true | .qbo => true | .htvec => true | .hpc => true | .hsub => true
  | .vbthr => true | .asid => true | _ => false
/-- Class S registers. -/
def SReg.service : SReg → Bool | .vbthr => true | .asid => true | _ => false

end Sys2Proof.Machine
end

