-- ==== Sys2Proof/Machine/Ops.lean ====
section
/-! DEFINITION. The named operations that the meanings share: the head run (R77), issue with its waits and decode checks
(R48, R58, R174, R193, R197, R214, R216), masks and their release (R85 to R88), traps and their delivery (R157 to R164),
parking (R81) and the counters c.* (R214, R215). -/

namespace Sys2Proof.Machine

abbrev Out := Host.Outcome State Fault Refusal

/-! ## Lanes of a warp -/

def Warp.lane (w : Warp) (l : Nat) : Lane := (w.lanes[l]?).getD {}

/-- The lanes of a set changed. -/
def Warp.modLanes (w : Warp) (m : LaneSet) (f : Nat → Lane → Lane) : Warp :=
  { w with lanes := w.lanes.mapIdx fun l x => if m.getLsbD l then f l x else x }

/-- The lanes whose state meets a test. -/
def Warp.lanesWhere (w : Warp) (p : Lane → Bool) : LaneSet :=
  laneSet ((List.range 32).filter fun l => match w.lanes[l]? with | some x => p x | none => false)

def readySet (w : Warp) : LaneSet := w.lanesWhere fun x => x.st == .ready
def liveSet (w : Warp) : LaneSet := w.lanesWhere fun x => x.st != .exited

/-- The smallest counter of the lanes of a set, as an unsigned number (R77). -/
def minPc (w : Warp) (m : LaneSet) : DWord :=
  match lanesOf m with
  | [] => 0
  | l :: ls => ls.foldl (fun acc k => if (w.lane k).pc.toNat < acc.toNat then (w.lane k).pc else acc) (w.lane l).pc

/-- The ready lanes at a counter. -/
def readyAt (w : Warp) (pc : DWord) : LaneSet := w.lanesWhere fun x => x.st == .ready && x.pc == pc

/-- The counter of the head run: the smallest of the ready lanes (R77), or that of the RGN or EXIT whose wait holds the warp
(R84, R107). -/
def headPc (w : Warp) : DWord :=
  match w.point with
  | some pc => if readyAt w pc == 0 then minPc w (readySet w) else pc
  | none => minPc w (readySet w)
/-- The head run (R77). -/
def headRun (w : Warp) : LaneSet := readyAt w (headPc w)

/-- The lanes of a set whose guard lets them execute (R48). -/
def guarded (w : Warp) (gp : BitVec 7) (gn : Bool) (m : LaneSet) : LaneSet :=
  laneSet ((lanesOf m).filter fun l => rdQ w (gp.setWidth 11) l != gn)

/-! ## Masks (R85, R86) and where a woken lane goes (R161) -/

/-- A lane that would become ready while a handler of others runs becomes held instead (R161). -/
def wokenState (w : Warp) (l : Nat) : LaneState :=
  if w.inTrap && !w.hmask.getLsbD l then .held .handler else .ready

/-- A lane made ready at a counter. -/
def wakeLane (w : Warp) (l : Nat) (pc : DWord) (x : Lane) : Lane := { x with pc := pc, st := wokenState w l }

/-- The set mN is complete: every lane in it waits at a WAITM that names it (R85). -/
def maskComplete (w : Warp) (n : Nat) : Bool :=
  (List.range 32).all fun l => !(sget 0 w.m n).getLsbD l || (w.lane l).st == .waiting n

/-- Every complete mask releases its waiters, all in one evaluation (R85, R86). -/
def releaseMasks (w : Warp) : Warp :=
  { w with lanes := w.lanes.mapIdx fun l x =>
      match x.st with
      | .waiting n => if maskComplete w n then wakeLane w l (x.pc + 8) x else x
      | _ => x }

/-- The state that WATCHDOG ends (R88); it does not arise while a handler runs (R161). DEDUCED (log entry 13). -/
def watchdogDue (w : Warp) : Bool :=
  !w.inTrap && liveSet w != 0 &&
    w.lanes.all fun x => match x.st with | .waiting _ => true | .exited => true | _ => false

/-! ## Outstanding results and parks (R80, R81) -/

/-- A parked warp is released when its outstanding set is empty (R81). -/
def unpark (w : Warp) : Warp := if w.outs.isEmpty then { w with parked := false } else w

/-! ## The counters c.* (R214, R215) -/

/-- The value of a counter: the instructions counted and not yet dropped. -/
def ctrVal (w : Warp) (c : Ctr) : Nat := ((w.ctrs[c.code]?).getD []).length

/-- One instruction counted (R214). -/
def countUp (w : Warp) (c : Ctr) (tag : Nat) : Warp := { w with ctrs := w.ctrs.modify c.code fun l => l ++ [(tag, false)] }

/-- A completion: the counter falls in issue order, so the completed oldest entries leave together (R215). -/
def countDone (w : Warp) (c : Ctr) (tag : Nat) : Warp :=
  { w with ctrs := w.ctrs.modify c.code fun l =>
      (l.map fun p => if p.1 == tag then (tag, true) else p).dropWhile fun p => p.2 }

/-- The outstanding results of one issue tag withdrawn in some lanes (R92 step 2, R162); an instruction with no lane left
or register left is complete for its counter (R214); a queue entry stays until it is pushed or dropped (R209). -/
def withdraw (w : Warp) (tag : Nat) (m : LaneSet) : Warp :=
  let cut (l : List Outst) : List Outst := l.map fun o => if o.tag == tag then { o with lanes := o.lanes &&& ~~~ m } else o
  let keeps (r : Result) : Bool := match r with | .ldq .. => true | _ => false
  let dead (o : Outst) : Bool := o.tag == tag && o.lanes == 0 && !keeps o.res
  let live := (cut w.outs).filter fun o => !dead o
  let gone := if live.any fun o => o.tag == tag then [] else (cut w.outs ++ cut w.reads).filter dead
  let w1 := { w with outs := live, reads := (cut w.reads).filter fun o => !dead o }
  unpark (gone.foldl (fun acc o => match o.ctr with | some c => countDone acc c tag | none => acc) w1)

/-- The counters that an instruction adds 1 to (R214, and the chapters of the matrix engine, the accumulators and the
fabric for theirs). -/
def ctrsOf : Instr → List Ctr
  | .ld .. => [.ld] | .lds .. => [.ld] | .ldc .. => [.ld] | .ldw .. => [.ld]
  | .atom .. => [.ld] | .atomf .. => [.ld] | .ldq .. => [.ld] | .ldqScratch .. => [.ld]
  | .st .. => [.st] | .sts .. => [.st] | .stw .. => [.st] | .red .. => [.st] | .redf .. => [.st] | .marv .. => [.st]
  | .tsig .. => [.st]
  | .cctlWbl .. => [.st] | .cctlInvl .. => [.st] | .cctlKwb .. => [.st] | .cctlKinv .. => [.st]
  | .cpya .. => [.cpy] | .cpyw .. => [.cpy] | .cpyq .. => [.cpy]
  | .gath .. => [.gat] | .scat .. => [.gat]
  | .wld .. => [.mxi, .mx] | .mms .. => [.mxi, .mx] | .mrst .. => [.mx]
  | .aadd .. => [.acc] | .acnt .. => [.acc] | .rack .. => [.acc] | .rackW .. => [.acc] | .rackX .. => [.acc]
  | .coll .. => [.col] | .collResume .. => [.col] | .sendq .. => [.col] | .topo .. => [.col] | .rtsw .. => [.col]
  | _ => []

/-! ## Traps (R157 to R164) -/

/-- What a trap brings: cause, INFO, its lanes, the counter, field D and FILE of its instruction, and DEF. -/
structure Trap where
  cause : BitVec 8
  info : BitVec 16 := 0
  lanes : LaneSet
  pc : DWord
  d : BitVec 11 := 0
  file : BitVec 3 := 0
  deferred : Bool := false
  tag : Nat := 0
  deriving DecidableEq, Repr

/-- `sr.hdst` (R157). DEDUCED (log entry 14). -/
def hdstWord (d : BitVec 11) (file : BitVec 3) : Word := BitVec.ofNat 32 (d.toNat + 2 ^ 11 * file.toNat)
/-- `sr.hcause` (R157, R160). -/
def hcauseWord (t : Trap) : Word := BitVec.ofNat 32 (t.cause.toNat + 2 ^ 8 * t.deferred.toNat + 2 ^ 16 * t.info.toNat)

/-- The region entry counters that go into the exit record: after a double trap those the first trap recorded (R163). -/
def exitRgns (w : Warp) (double : Bool) : List DWord :=
  w.lanes.mapIdx fun l x => if double && w.hmask.getLsbD l then x.trapRgn else x.rgn

/-- The reads of a warp given up: each counts as complete. -/
def dropReads (w : Warp) : Warp :=
  (w.outs ++ w.reads).foldl (fun acc o => match o.ctr with | some c => countDone acc c o.tag | none => acc) w

/-- A warp stopped for good: its lanes have exited, nothing of it issues or returns. -/
def killWarp (w : Warp) : Warp :=
  { dropReads w with
    lanes := w.lanes.map (fun x => { x with st := .exited })
    outs := []
    reads := []
    parked := false
    pend := []
    waitc := none
    hold := none
    point := none
    inTrap := false
    opbuf := none }

/-- A gang whose members' warps have all ended is draining (R411). -/
def noteEnd (s : State) (wg : Nat) : State :=
  match s.getWg wg with
  | none => s
  | some g =>
    if s.wgs.all fun x => x.gang != g.gang || x.draining then
      s.modGang g.gang fun y => if y.st == .running || y.st == .preempting then { y with st := .draining } else y
    else s

/-- A trap that goes to service level: the maltster ends the workgroup and keeps what its exit record will hold (R163). -/
def serviceTrap (s : State) (wid : Nat) (t : Trap) (double : Bool) : State :=
  match s.getWarp wid with
  | none => s
  | some w =>
    let rec0 : TrapEnd := ⟨double, hcauseWord t, t.lanes, t.pc, w.idx, exitRgns w double⟩
    let s1 := s.modWg w.wg fun g =>
      { g with ended := some rec0, draining := true,
               lfm := (s.warps.filter fun x => x.wg == w.wg).foldl (fun acc x => acc ||| x.lfm) g.lfm }
    noteEnd { s1 with warps := s1.warps.map fun x => if x.wg == w.wg then killWarp x else x } w.wg

/-- The trap record written and the trapped lanes moved to the handler (R160); `resume` gives each lane's resume counter. -/
def enterHandler (w : Warp) (t : Trap) (resume : Nat → Lane → DWord) : Warp :=
  { w with
    inTrap := true
    hcause := hcauseWord t
    hmask := t.lanes
    hpc := t.pc
    hpcWritten := false
    hdst := hdstWord t.d t.file
    trapTag := t.tag
    handlerTag := max w.issued t.tag
    opbuf := none
    point := none
    lanes := w.lanes.mapIdx fun l x =>
      if t.lanes.getLsbD l then { x with trapRgn := x.rgn, resume := resume l x, pc := w.htvec, st := .ready }
      else if x.st == .ready then { x with st := .held .handler } else x }

/-- `TakeTrap` (R160) for a trap whose lanes are those of `sr.hmask` or meet no running handler. -/
def takeTrap (s : State) (wid : Nat) (t : Trap) (resume : Nat → Lane → DWord) : State :=
  match s.getWarp wid with
  | none => s
  | some w =>
    let double := w.inTrap && (t.lanes &&& w.hmask) != 0
    if t.lanes == 0 then s
    else if w.htvec == 0 || double then serviceTrap s wid t double
    else s.setWarp (enterHandler w t resume)

/-- A lane of a deferred trap stopped where it stands, with its resume counter (R162); one that a page fault holds goes on at its
region entry (R93), where its resumption would have put it. DEDUCED (log entry 76). -/
def holdForTrap (x : Lane) : Lane :=
  match x.st with
  | .ready => { x with st := .held .deferred, resume := x.pc, waitedOn := none }
  | .waiting n => { x with st := .held .deferred, resume := x.pc, waitedOn := some n }
  | .sleeping _ _ => { x with st := .held .deferred, resume := x.pc, waitedOn := none }
  | .held .handler => { x with st := .held .deferred, resume := x.pc, waitedOn := none }
  | .held .fault => { x with st := .held .deferred, resume := x.rgn, waitedOn := none, restart := true }
  | _ => x

/-- A pending trap as it is taken. -/
def PendTrap.trap (p : PendTrap) : Trap := ⟨p.cause, p.info, p.lanes, p.pc, p.d, p.file, p.deferred, p.tag⟩

/-- The oldest pending trap delivered, when none is in progress (R162); a double trap among them ends the workgroup at once (R163). -/
def deliverPending (s : State) (wid : Nat) : State :=
  match s.getWarp wid with
  | none => s
  | some w =>
    match w.pend.find? (·.double), w.pend with
    | some p, _ => serviceTrap s wid p.trap true
    | none, [] => s
    | none, p :: ps =>
      if w.inTrap then s
      else takeTrap (s.setWarp { (w.modLanes p.lanes fun _ x => holdForTrap x) with pend := ps }) wid p.trap fun _ x => x.resume

/-- A trap that waits for delivery to some lanes. -/
def pendOf (t : Trap) (f : LaneSet) : PendTrap :=
  { cause := t.cause, lanes := f, pc := t.pc, d := t.d, file := t.file, info := t.info, tag := t.tag, deferred := t.deferred }

/-- A deferred trap that arrives for a saved warp: it is delivered after the restore, as a double trap when it meets lanes whose handler
ran (R163). -/
def deferSaved (s : State) (wid : Nat) (t : Trap) : State :=
  let upd (w : Warp) : Warp :=
    let f := t.lanes &&& ~~~ exitedOf w
    if w.id != wid || f == 0 then w
    else
      let w1 := withdraw (w.modLanes f fun _ x => holdForTrap x) t.tag f
      { w1 with pend := w1.pend ++ [{ pendOf t f with double := w.inTrap && f &&& w.hmask != 0 }] }
  { s with gangs := s.gangs.map fun g => { g with savedWarps := g.savedWarps.map upd } }

/-- A trap that is recognised after later instructions have issued (R138, R162), with its DEF as given: its lanes held and their
results of that instruction withdrawn, then delivered, left pending, or a double trap. Exited lanes take no trap. -/
def lateTrap (s : State) (wid : Nat) (t : Trap) : State :=
  match s.getWarp wid with
  | none => deferSaved s wid t
  | some w =>
    let f := t.lanes &&& ~~~ exitedOf w
    if f == 0 then s
    else if w.inTrap && f &&& w.hmask != 0 then serviceTrap s wid { t with lanes := f } true
    else
      let w1 := withdraw (w.modLanes f fun _ x => holdForTrap x) t.tag f
      let w2 := { w1 with pend := w1.pend ++ [pendOf t f] }
      deliverPending (s.setWarp w2) wid

/-- A deferred trap recognised (R162). -/
def deferTrap (s : State) (wid : Nat) (t : Trap) : State := lateTrap s wid { t with deferred := true }

/-- Completeness and the watchdog evaluated after a change (R86, R88). DEDUCED (log entry 13). -/
def settle (s : State) (wid : Nat) : State :=
  let s1 := s.modWarp wid releaseMasks
  match s1.getWarp wid with
  | none => s1
  | some w =>
    if watchdogDue w then
      let waiters := liveSet w
      let pc := minPc w waiters
      let f := w.lanesWhere fun x => x.st != .exited && x.pc == pc
      takeTrap s1 wid { cause := 0x3F, lanes := f, pc := pc } fun _ x => x.pc + 8
    else s1

/-! ## Queues (R194 to R198) -/

/-- Entries that stand in a queue of a workgroup. -/
def queueOf (g : Workgroup) (q : Nat) : List QEntry := (g.queues[q]?).getD []

/-- The n oldest entries of a queue removed. -/
def dropEntries (g : Workgroup) (q n : Nat) : Workgroup := { g with queues := g.queues.modify q fun l => l.drop n }

/-- The back-off before replay n under a value of `sr.qbo` (R199). -/
def backoffTicks (qbo : Word) (n : Nat) : Nat := max (bitsAt qbo.toNat 0 16) 1 * 2 ^ min (n - 1) (bitsAt qbo.toNat 16 4)

/-- The instant at which a back-off that starts now ends. -/
def backoffEnd (s : State) (qbo : Word) (n : Nat) : DWord := s.clock + BitVec.ofNat 64 (backoffTicks qbo n)

/-- Nothing can fill the queue any more (R197): every other warp of the workgroup has exited, and no entry for the queue
is in flight, in a replay window or still to come from a running copy. -/
def queueDead (s : State) (w : Warp) (g : Workgroup) (q : Nat) : Bool :=
  (s.warps.all fun x => x.wg != w.wg || x.id == w.id || liveSet x == 0) &&
    (g.flight.all fun m => m.q != q) && (g.senders.all fun d => d.q != q || d.window.isEmpty) &&
    (s.copies.all fun c => c.wg != w.wg || c.kind != .cpyq q || (c.st != .running && c.st != .paused))

/-! ## Issue -/

/-- The queue a word pops by its QOP field (R53, R210). -/
def popQueue (r : Raw) : Option Nat := if r.qop == 0 then none else some r.qid.toNat

/-- How many entries it pops: POPQ may take 2 or 4 (R210). -/
def popCount : Instr → Nat
  | .popq _ .x2 .. => 2
  | .popq _ .x4 .. => 4
  | _ => 1

/-- Pipe MEM or MX (R173): the instructions that REL, ACQ and the blocking instructions hold back (R218, R219, R434). -/
def memPipe (op : BitVec 8) : Bool :=
  op == 0x0D || (decide (0x60 ≤ op.toNat) && decide (op.toNat ≤ 0x81)) || (decide (0x90 ≤ op.toNat) && decide (op.toNat ≤ 0xB6))

/-- The opcodes an access warp may execute (R193). -/
def accessOp (op : BitVec 8) : Bool :=
  let n := op.toNat
  decide (n ≤ 0x37) || n == 0x64 || n == 0x66 || n == 0x70 || n == 0x6E

/-- What is privileged at user level (R59, R75, R120). -/
def isPrivileged : Instr → Bool
  | .mfoldWr .. => true | .mrst .. => true | .ctxsv .. => true | .ctxld .. => true | .harv .. => true | .harvR .. => true
  | .tlbiPg .. => true | .tlbiAsid .. => true | .tlbiAll .. => true | .halt .. => true | .topo .. => true | .rtsw .. => true
  | .swr _ sr _ => !SReg.writable sr || SReg.service sr
  | .srd _ _ sr => sr == .asid
  | _ => false

/-- Checks 3 and 4 of R58 with R193, on a decoded word and the warp's shape. DEDUCED (log entry 75). -/
def decodeCause (s : State) (w : Warp) (i : Instr) (r : Raw) : Option (BitVec 8) :=
  let e := s.warpEff w
  if w.idx == 32 && !accessOp r.op then some 0x01
  else if !i.wf || !i.inRange e.nregs e.npreds || decide (e.npreds ≤ r.gp.toNat) then some 0x01
  else if s.warpUser w && isPrivileged i then some 0x04
  else none

/-- A decode trap, taken by the whole run, with FILE 0 (R58). -/
def decodeTrap (s : State) (w : Warp) (cause : BitVec 8) (d : BitVec 11) (len : Nat) : State :=
  let pc := headPc w
  takeTrap s w.id { cause := cause, lanes := headRun w, pc := pc, d := d } fun _ x => x.pc + BitVec.ofNat 64 len

/-- Whether the wait of a WAITC still holds the warp (R216). -/
def waitcHolds (w : Warp) : Bool :=
  match w.waitc with
  | some (c, n) => decide (n < ctrVal w c)
  | none => false

/-- The raw fields of an instruction; an event has none. -/
def rawOf (i : Instr) : Raw := (toRaw i).getD ⟨0, false, 0, 0, false, 0, 0, 0, 0, 0, 0, 0, 0, 0, 0, 0⟩

/-- What is fixed when the instruction is about to issue. -/
def mkIssue (i : Instr) (w : Warp) : Issue :=
  let r := rawOf i
  { i := i, r := r, w := w, run := headRun w, e := guarded w r.gp r.gn (headRun w), pc := headPc w,
    len := lenBytes r.len, tag := w.issued + 1, pop := [] }

/-- The operand a KEEP field keeps, as read (R51, R177): that of the field it names, unless the instruction reads no register there or a
pop supplies it. A predicate, warp-scalar or mask register is not kept. DESIGN CHOICE (log entry 92). -/
def keptOpnd (x : Issue) : Option (Nat × Bool × List DWord) :=
  if x.e == 0 || x.r.keep == 0 then none
  else match x.i.srcAt (x.r.keep.toNat - 1) with
  | some o =>
    if o.popped || !(o.file == .v || o.file == .p) then none
    else some (o.r.toNat, o.file == .p, (List.range 32).map fun l => BitVec.ofNat 64 (readOpnd x o l))
  | none => none

/-- The instruction is issued: its tag is given, the lanes of its run take the next counter (R78), a KEEP that is not ignored (R51)
loads the operand buffer (R177), and the gang's count of R421 rises. DEDUCED (log entry 17). -/
def begin_ (x : Issue) (s : State) : State :=
  let kept := keptOpnd x
  let s1 := s.modWarp x.w.id fun w =>
    { (w.modLanes x.run fun _ y => { y with pc := x.after }) with
      issued := x.tag, stamp := s.nextId, waitc := none, opbuf := kept.or w.opbuf, point := none }
  let s2 := { s1 with nextId := s.nextId + 1 }
  match s.getWg x.w.wg with
  | some g => (s2.modGang g.gang fun y => { y with ret := y.ret + 1 }).modWg g.id fun y => { y with ret := y.ret + 1 }
  | none => s2

/-- A warp of a gang that is being saved stops issuing at a YIELD, a park point, a sleep or a wait (R424). -/
def savePoint (s : State) (wid : Nat) : State :=
  match s.getWarp wid with
  | none => s
  | some w =>
    match s.warpGang w with
    | some g => if g.st == .preempting && g.action == .save then s.setWarp { w with stopped := true } else s
    | none => s

/-- The park marker after the instruction (R81); a park makes the operand buffer invalid (R177). -/
def park (x : Issue) (s : State) : State :=
  if x.r.pk then savePoint (s.modWarp x.w.id fun w => { w with parked := !w.outs.isEmpty, opbuf := none }) x.w.id else s

/-- The wait of a covered instruction before its park point (R84, R137): under R81, the warp issues nothing until its outstanding
set is empty. -/
def parkWait (x : Issue) (s : State) : State :=
  s.modWarp x.w.id fun w => { w with parked := !w.outs.isEmpty, opbuf := none }

/-- The wait of an RGN or EXIT (R84, R90): it holds the warp at their counter. -/
def pointWait (x : Issue) (s : State) : State :=
  s.modWarp x.w.id fun w => { w with parked := !w.outs.isEmpty, opbuf := none, point := some x.pc }

/-- Whether and how an instruction issues. -/
inductive Form where
  | noRun
  | stop (t : State)
  | go (x : Issue) (t : State)

/-- The warp cannot issue at all: parked, stopped by a save, or held by a WAITC (R81, R216, R424). -/
def Warp.blocked (w : Warp) : Bool := w.parked || w.stopped || waitcHolds w

/-- The participants must wait at issue behind a REL, an ACQ or a blocking instruction, or at a full counter (R214, R218,
R219, R434). -/
def mustWait (x : Issue) : Bool :=
  (x.w.hold.isSome && memPipe x.r.op) || ((ctrsOf x.i).any fun c => decide (63 ≤ ctrVal x.w c))

/-- An issue tag given to an instruction that takes its trap without issuing, so that every later write is younger (R83, R169). -/
def useTag (s : State) (wid tag : Nat) : State := s.modWarp wid fun w => { w with issued := tag }

/-- The queue pop of a form X word (R196, R197). A pop of several entries that finds fewer, with nothing left to fill the queue,
takes the WATCHDOG of an empty one. DESIGN CHOICE (log entry 77). The participants take that trap, with an issue tag of their own. DESIGN
CHOICE (log entry 93). The entry leaves the queue even where every lane then takes MX_PARAM.
DESIGN CHOICE (log entry 81). -/
def popForm (x : Issue) (s : State) (q : Nat) (file : BitVec 3) : Form :=
  match s.getWg x.w.wg with
  | none => .stop s
  | some g =>
    let n := popCount x.i
    if n ≤ (queueOf g q).length then
      let y := { x with pop := ((queueOf g q).take n).flatten }
      .go y (begin_ y (s.modWg g.id fun h => dropEntries h q n))
    else if queueDead s x.w g q then
      .stop (takeTrap (useTag s x.w.id x.tag) x.w.id
          { cause := 0x3F, info := BitVec.ofNat 16 (0x100 + q), lanes := x.e, pc := x.pc, d := x.r.d, file := file,
            tag := x.tag }
          fun _ y => y.pc + BitVec.ofNat 64 x.len)
    else .stop s

/-- FILE of an instruction's destination (R157). -/
def destFile (i : Instr) : BitVec 3 := match i.dest with | some o => fileCode o.file | none => 0

/-- COPY_ABORTED, taken by the first run that would issue after the context has resumed (R159, R186). DEDUCED (log entry 16). -/
def abortTrap (s : State) (w : Warp) (i : Instr) : State :=
  takeTrap (useTag (s.setWarp { w with copyAbort := false }) w.id (w.issued + 1)) w.id
    { cause := 0x19, lanes := headRun w, pc := headPc w, d := (rawOf i).d, file := destFile i, tag := w.issued + 1 }
    fun _ y => y.pc + BitVec.ofNat 64 (lenBytes (rawOf i).len)

/-- How the instruction issues in the state: R58 before the guard, then the waits, then the pop. While `ready` fails the
instruction waits, and `prep` is what its wait sets going. DESIGN CHOICE (log entry 2). DESIGN CHOICE (log entry 5). -/
def form (i : Instr) (s : State) (ready : Issue → State → Bool) (prep : Issue → State → State) : Form :=
  match s.getWarp s.cur with
  | none => .noRun
  | some w =>
    if headRun w == 0 then .noRun
    else if w.blocked then .stop s
    else if w.copyAbort then .stop (abortTrap s w i)
    else
      let x := mkIssue i w
      match decodeCause s w i x.r with
      | some c => .stop (decodeTrap s w c x.r.d x.len)
      | none =>
        if x.e == 0 then .go x (begin_ x s)
        else if mustWait x then .stop s
        else if !ready x s then .stop (prep x s)
        else match popQueue x.r with
          | none => .go x (begin_ x s)
          | some q => popForm x s q (destFile i)

/-- An instruction issued: its effect when some lane executes it, and its park marker in any case (R48). DESIGN CHOICE (log entry 2). -/
def issueP (i : Instr) (s : State) (ready : Issue → State → Bool) (prep : Issue → State → State)
    (effect : Issue → State → State) : Out :=
  match form i s ready prep with
  | .noRun => .fault .noRun
  | .stop t => .next t
  | .go x t => .next (park x (if x.e == 0 then t else effect x t))

/-- An instruction whose wait sets nothing going. -/
def issue (i : Instr) (s : State) (ready : Issue → State → Bool) (effect : Issue → State → State) : Out :=
  issueP i s ready (fun _ t => t) effect

/-- No wait of its own. -/
def always : Issue → State → Bool := fun _ _ => true

/-! ## The shapes of effect -/

/-- A result per participant, written at issue (R95, R96). -/
def laneEffect (file : File) (d : Reg) (f : Issue → Nat → Nat) (x : Issue) (s : State) : State :=
  s.modWarp x.w.id fun w => wrLanes w file d x.tag ((lanesOf x.e).map fun l => (l, f x l))

/-- An instruction with a result per participant. -/
def execLanes (i : Instr) (s : State) (file : File) (d : Reg) (f : Issue → Nat → Nat) : Out :=
  issue i s always (laneEffect file d f)

/-- A result formed once per run, written to a warp-scalar or mask register (R95). -/
def runEffect (file : File) (d : Reg) (f : Issue → Nat) (x : Issue) (s : State) : State :=
  s.modWarp x.w.id fun w => wrLane w file d x.tag 0 (f x)

/-- An instruction with one result per run. -/
def execRun (i : Instr) (s : State) (file : File) (d : Reg) (f : Issue → Nat) : Out :=
  issue i s always (runEffect file d f)

/-- A trap taken at issue by some participants (R159). -/
def issueTrap (x : Issue) (s : State) (cause : BitVec 8) (info : BitVec 16) (f : LaneSet) (file : BitVec 3) : State :=
  takeTrap s x.w.id { cause := cause, info := info, lanes := f, pc := x.pc, d := x.r.d, file := file, tag := x.tag }
    fun _ _ => x.after

/-- An outstanding result added for an instruction (R80). -/
def addOut (w : Warp) (o : Outst) : Warp := { w with outs := w.outs ++ [o] }

/-- The registers a result of a file is written to; a pair of `v0` is discarded whole (R50). -/
def dstsOf (f : File) (d : Reg) : List Nat :=
  match f with
  | .p => if d == 0 then [] else [d.toNat, d.toNat + 1]
  | _ => [d.toNat]

/-- An outstanding entry of an issuing instruction. -/
def outOf (x : Issue) (s : State) (f : File) (d : Reg) (lanes : LaneSet) (res : Result) (c : Option Ctr) : Outst :=
  { tag := x.tag, pc := x.pc, d := x.r.d, file := fileCode f, dsts := dstsOf f d, lanes := lanes, res := res, ctr := c,
    asid := s.warpAsid x.w }

/-- The machine after an event: the next state. -/
def happens (s : State) : Out := .next s

/-! ## Vertical buses (R399, R400) -/

def vbusGet (c : Core) : VBus → VBusState | .arr => c.vbArr | .cask => c.vbCask | .kiln => c.vbKiln
def vbusPut (c : Core) (b : VBus) (x : VBusState) : Core :=
  match b with | .arr => { c with vbArr := x } | .cask => { c with vbCask := x } | .kiln => { c with vbKiln := x }
def modVbus (s : State) (c : CoreId) (b : VBus) (f : VBusState → VBusState) : State :=
  s.modCore c fun x => vbusPut x b (f (vbusGet x b))

/-- The effective threshold of R399. -/
def vbusThreshold (c : Core) : Nat := min (max (bitsAt c.vbthr.toNat 0 16) 1) 4095

/-- A bus whose count has reached the threshold has a repair due (R400). -/
def busDue (lim : Nat) (now : DWord) (x : VBusState) : VBusState :=
  if lim ≤ x.ce && !x.pend && x.ce != 0 then { x with pend := true, dueAt := now } else x

/-- `sr.vbthr` written: a bus that has already counted as many errors has a repair due. -/
def setVbthr (s : State) (c : CoreId) (v : Word) : State :=
  s.modCore c fun x =>
    let y := { x with vbthr := v &&& 0x0000FFFF }
    let f := busDue (vbusThreshold y) s.clock
    { y with vbArr := f y.vbArr, vbCask := f y.vbCask, vbKiln := f y.vbKiln }

end Sys2Proof.Machine
end

