-- ==== Sys2Proof/Machine/Fault.lean ====
section
/-! DEFINITION. Page faults: the lanes held and their results withdrawn (R92), the record in the fault queue (R385), and the
resumption (R93, R386). -/

namespace Sys2Proof.Machine

/-! ## The home map and the walks it leads to (R383, R384) -/

/-- The home map's entry of a core for a 2 MiB region: home package and die. -/
def homeMapOf (c : Core) (asid va : Nat) : Option (Nat × Nat) :=
  (c.homeMap.find? fun e => e.1 == asid && e.2.1 == va / 2 ^ 21).map fun e => (e.2.2.1, e.2.2.2)

/-- The die whose memory controller walks for an access of a core, and the access kind of a fault that the walk finds: where the
home map has no entry it is the core's own die, in a routing walk (R384, R385); a fetch keeps its own kind (R101). -/
def walkBy (s : State) (c : CoreId) (asid va kind : Nat) : Nat × Nat :=
  match homeMapOf (s.getCore c) asid va with
  | some (pkg, die) => if pkg == s.dev then (die, kind) else (c.die, kind)
  | none => (c.die, if kind = 3 then 3 else 7)

/-- The outcome of a core's access as memory's tables stand. -/
def walkNow (s : State) (c : CoreId) (asid : Nat) (user : Bool) (want : Want) (va : DWord) : Walk :=
  translateNow s (walkBy s c asid va.toNat 0).1 asid user want va

/-! ## The fault queue -/

/-- The 512 bytes of a fault record (R385). -/
def faultRecord (f : PFault) (seq : BitVec 16) : List Byte :=
  let mask : LaneSet := match f.who with | .lanes _ m => m | _ => 0
  let head := leBytes 1 0x12 ++ leBytes 1 f.kind ++ leBytes 2 f.ctx ++ leBytes 2 f.asid ++ leBytes 1 f.core ++ leBytes 1 f.warp ++
    leBytes 4 mask.toNat ++ leBytes 2 (match f.who with | .lanes .. => 0 | _ => f.tag) ++ leBytes 2 seq.toNat ++
    leBytes 8 f.va.toNat ++ leBytes 1 f.level ++ leBytes 39 0
  let lanes := (List.range 32).flatMap fun l => leBytes 8 (if mask.getLsbD l then ((f.rgns[l]?).getD 0).toNat else 0)
  head ++ lanes ++ leBytes 192 0

/-- The fault queue takes no record when HEAD + 1 = TAIL (R385). -/
def faultQueueFull (d : Die) : Bool := d.fqhead + 1 == d.fqtail

/-- One waiting fault recorded: the record written, HEAD and the sequence number advanced; its write waits for the holders of its lines and
for a sealed frame (R389, R395). -/
def recordFault (s : State) (die : Nat) : State :=
  let d := s.getDie die
  match d.faults.find? (fun f => f.seq == none) with
  | none => s
  | some f =>
    let at_ := bitsAt d.fqbase.toNat 9 39 * 512 + 512 * d.fqhead.toNat
    let lines := [at_, at_ + 128, at_ + 256, at_ + 384]
    if faultQueueFull d then s
    else if !lines.all (physReady s) then lines.foldl announcePhys s
    else
      let s1 := s.store at_ (faultRecord f d.fqseq)
      s1.modDie die fun x =>
        { x with
          faults := x.faults.map (fun g => if g == f then { g with seq := some d.fqseq } else g)
          fqhead := d.fqhead + 1
          fqseq := d.fqseq + 1 }

/-- Every waiting fault recorded while the queue has room; n bounds the number. -/
def recordFaults (s : State) (die : Nat) : Nat → State
  | 0 => s
  | n + 1 => recordFaults (recordFault s die) die n

/-- A fault reported on a die (R385). -/
def reportFault (s : State) (die : Nat) (f : PFault) : State :=
  recordFault (s.modDie die fun x => { x with faults := x.faults ++ [f] }) die

/-- `cluster × 8 + logical core` of a core. -/
def coreIndex (c : CoreId) : Nat := c.clu * 8 + c.core

/-- The counter at which a faulting lane restarts: its region entry, or the handler's entry when it faults inside a handler
(R93, R164). -/
def restartPc (w : Warp) (l : Nat) (x : Lane) : DWord := if w.inTrap && w.hmask.getLsbD l then w.htvec else x.rgn

/-- R92 for lanes of the instruction with an issue tag, whose access was made in an ASID: the lanes held, their results withdrawn, the
fault reported by the die that walked. -/
def pageFaultLanes (s : State) (wid tag : Nat) (m : LaneSet) (kind : Nat) (va : DWord) (level asid : Nat) : State :=
  match s.getWarp wid with
  | none => s
  | some w0 =>
    let w := { w0 with reads := updAt (fun o => o.tag == tag) (fun o => { o with faulted := o.faulted ||| (o.lanes &&& m) }) w0.reads }
    let w1 := withdraw (w.modLanes m fun _ x => if x.st == .exited then x else { x with st := .held .fault }) tag m
    let by_ := walkBy s (s.warpCore w) asid va.toNat kind
    let f : PFault := ⟨.lanes wid m, by_.2, s.warpCtx w, asid, coreIndex (s.warpCore w), w.idx, tag, va, level,
      w.lanes.mapIdx fun l x => restartPc w l x, none⟩
    settle (reportFault (s.setWarp w1) by_.1 f) wid

/-- Whether another unresolved fault still holds a lane. -/
def otherFaultHolds (s : State) (wid l : Nat) : Bool :=
  s.dies.any fun d => d.faults.any fun f => match f.who with | .lanes w m => w == wid && m.getLsbD l | _ => false

/-- The lanes of a resolved fault resumed (R93): ready at their region entry counters, or held under R161. -/
def resumeLanes (s : State) (wid : Nat) (m : LaneSet) : State :=
  let s1 := s.modWarp wid fun w => w.modLanes m fun l x =>
    if x.st == .held .fault && !otherFaultHolds s wid l then wakeLane w l (restartPc w l x) x else x
  deliverPending (settle s1 wid) wid

end Sys2Proof.Machine
end

