-- ==== Sys2Proof/Machine/Path.lean ====
section
/-! DEFINITION. Slot timing (R464, R465), the paths of requests to other packages and their queues (R466, R467, R469, R472, R473), and
what other packages have returned. -/

namespace Sys2Proof.Machine

/-! ## The rotor schedule (R464, R465) -/

def periodOf (t : Table) : Nat := t.slots.foldl (fun acc x => acc + x.dur) 0

/-- Slot index and offset in the slot, from an offset in the rotation. -/
def slotAt : List Slot → Nat → Nat → Nat × Nat
  | [], i, off => (i, off)
  | x :: xs, i, off => if off < x.dur ∨ xs = [] then (i, off) else slotAt xs (i + 1) (off - x.dur)

/-- Rotation number, slot index and offset in the slot at a tick; none before the epoch or without slots. -/
def tablePos (t : Table) (tick : Nat) : Option (Nat × Nat × Nat) :=
  let p := periodOf t
  if tick < t.epoch.toNat ∨ p = 0 then none
  else
    let d := tick - t.epoch.toNat
    let r := slotAt t.slots 0 (d % p)
    some (d / p, r.1, r.2)

/-- What a matching connects a port to. -/
def peerIn (t : Table) (slot port : Nat) : Option (Nat × Nat) :=
  match t.slots[slot]? with
  | some x => (((t.matchings[x.matching]?).getD [])[port]?).getD none
  | none => none

/-- Whether a slot's open window runs at an offset in it. -/
def inWindow (t : Table) (slot off : Nat) : Bool :=
  match t.slots[slot]? with
  | some x => decide (x.guard ≤ off) && decide (off < x.dur - x.close)
  | none => false

/-- The peer toward which a port's window is open now. -/
def openPeer (s : State) (port : Nat) : Option Nat :=
  match s.table with
  | none => none
  | some t =>
    match tablePos t s.clock.toNat with
    | some (_, i, off) => if inWindow t i off && ((s.port port).st == .cobalt || (s.port port).st == .amber) then (peerIn t i port).map (·.1) else none
    | none => none

/-- Whether a table connects a port to a package in some slot. -/
def tableConnects (t : Table) (p pkg : Nat) : Bool :=
  (List.range t.slots.length).any fun i => match peerIn t i p with | some q => q.1 == pkg | none => false

/-- Ports connected to a package in some slot, ascending (R467); a slate port carries nothing. -/
def portsTo (s : State) (pkg : Nat) : List Nat :=
  match s.table with
  | none => []
  | some t => (List.range 16).filter fun p => (s.port p).st != .slate && tableConnects t p pkg

/-- Ticks until the next open window of a slot in which one of some ports reaches a package: wait, slot, port. -/
def windowFrom (s : State) (ports : List Nat) (pkg : Nat) : Option (Nat × Nat × Nat) :=
  match s.table with
  | none => none
  | some t =>
    match tablePos t s.clock.toNat with
    | none => none
    | some (_, i, off) =>
      let start (k : Nat) : Nat := (t.slots.take k).foldl (fun acc x => acc + x.dur) 0
      let here := start i + off
      let cands := (List.range t.slots.length).flatMap fun k =>
        (ports.filter fun p => match peerIn t k p with | some q => q.1 == pkg | none => false).map fun p =>
          let g := ((t.slots[k]?).map (·.guard)).getD 0
          let w := if k == i && inWindow t k off then 0
            else if here ≤ start k + g then start k + g - here else periodOf t + (start k + g) - here
          (w, k, p)
      cands.foldl (fun acc c => match acc with | none => some c | some b => if c.1 < b.1 then some c else some b) none

/-- The same over every port that reaches the package. -/
def nextWindow (s : State) (pkg : Nat) : Option (Nat × Nat × Nat) := windowFrom s (portsTo s pkg) pkg

/-! ## Paths (R466, R467) -/

def routeOf (s : State) (pkg : Nat) : Route := (s.routes.find? fun r => r.pkg == pkg).getD ⟨pkg, 0, 0, 0, false⟩

/-- The hash f of R467. -/
def pathHash (va asid seed : Nat) : Nat :=
  bitsAt va 7 12 ^^^ bitsAt va 19 12 ^^^ bitsAt va 31 12 ^^^ bitsAt va 43 12 ^^^ bitsAt va 55 2 ^^^ bitsAt asid 0 12 ^^^
    bitsAt asid 12 4 ^^^ bitsAt seed 0 12

/-- The package to which a request for a line goes first (R467); a dead relay does not count (R487). -/
def firstHop (s : State) (pkg asid va : Nat) : Nat :=
  let r := routeOf s pkg
  let k := if r.bv && pathHash va asid s.seed % 2 == 1 then r.rb else r.ra
  if r.mode == 1 && !s.deadPkgs.contains k then k else pkg

/-- The path of a request for a line: port and first package; none when no port ever connects (R467). -/
def pathFor (s : State) (pkg asid va : Nat) : Option (Nat × Nat) :=
  let first := firstHop s pkg asid va
  match portsTo s first with
  | [] => none
  | ps => some ((ps[pathHash va asid s.seed % ps.length]?).getD 0, first)

/-- The installed table has a path of R467 to a package for a line (R477). -/
def tableReaches (s : State) (pkg asid va : Nat) : Bool :=
  match s.table with
  | none => true
  | some t => (List.range 16).any fun p => tableConnects t p (firstHop s pkg asid va)

/-! ## Queues (R469, R472, R473) -/

/-- New messages go to the holding queue: during a fence, for the ports a TOPO changes, and, once it has installed a route table,
for all ports until its slot table runs (R472, R473). -/
def holds (s : State) (port : Nat) : Bool :=
  s.fencing || (match s.topo with | some t => decide (1 ≤ t.phase) && decide (t.phase ≤ 3) && (t.mask.getLsbD port || (t.phase == 3 && t.routes.isSome)) | none => false)

/-- A message queued for its first package on a port. -/
def enqueue (s : State) (port first : Nat) (m : FabMsg) (dl : Option DWord) : State :=
  if holds s port then { s with holding := s.holding ++ [(first, m, dl)] }
  else s.modPort port fun p => { p with queue := p.queue ++ [(first, m, dl)] }

/-- A message sent by R467 for a line; none when it has no path. -/
def sendFor (s : State) (pkg asid va : Nat) (m : FabMsg) (dl : Option DWord) : Option State :=
  (pathFor s pkg asid va).map fun p => enqueue s p.1 p.2 m dl

/-! ## Who asks another package -/

/-- The owners under which requests that no warp makes stand among the unanswered ones: a die's remote-data ways, the write-backs of
kilns, copies, the writes and reads of the firmware, and the instruction fetches of a warp. -/
def farOwner (die : Nat) : Nat := 2 ^ 34 + die
def fwOwner : Nat := 2 ^ 35 - 1
def backOwner : Nat := 2 ^ 35
def copyOwner (id : Nat) : Nat := 2 ^ 36 + id
def fetchOwner (w : Nat) : Nat := 2 ^ 38 + w
/-- The firmware, for a warp's CTXLD, for its PUTS, for a gang's save record, for a region's token words and for a command ring. -/
def svcOwner (k : Nat) : Nat := 2 ^ 39 + k
def putsOwner (w : Nat) : Nat := 2 ^ 41 + w
def gangOwner (g : Nat) : Nat := 2 ^ 42 + g
def tokenOwner (handle : Nat) : Nat := 2 ^ 43 + handle
def ringOwner (ring : Nat) : Nat := 2 ^ 44 + ring

/-- A request of a die or of a write-back, which no warp waits for. -/
def ownEngine (w : Nat) : Bool := decide (2 ^ 34 ≤ w) && decide (w ≤ backOwner)

/-- The tag under which a unit's request stands that an ACQ has overtaken: what it brings serves the access that asked and fills no kiln
(R190). A request for a unit has this tag or 0. -/
def staleTag : Nat := 2 ^ 40
def unitTag (t : Nat) : Bool := t == 0 || t == staleTag

/-- The code in `fetchBuf` of a unit that came, or was asked for, before an ACQ. -/
def staleUnit : Nat := 3
/-- The code of a unit that comes for a request with a tag. -/
def unitCode (tag : Nat) : Nat := if tag = staleTag then staleUnit else 0

/-- Some of n units from an address were asked for before an ACQ. -/
def farStale (s : State) (w va n : Nat) : Bool :=
  s.fetchBuf.any fun e => e.1 == w && e.2.2.1 == staleUnit && decide (va ≤ e.2.1) && decide (e.2.1 < va + 8 * n)

/-- What some owners have asked for or been given in some places was asked for before an ACQ (R190). -/
def markStale (s : State) (p : Nat → Bool) : State :=
  { s with
    fetchBuf := s.fetchBuf.map fun e => if p e.1 && e.2.2.1 == 0 then (e.1, e.2.1, staleUnit, e.2.2.2) else e
    unacked := s.unacked.map fun u => if u.2.2.1 == 0 && !ownEngine u.2.1 && p u.2.1 then (u.1, u.2.1, staleTag, u.2.2.2) else u }

/-- n units of 8 bytes that another package has returned to a warp or an engine, from an address: none while one is missing; else a
code, 0 for the bytes, 1 after a refusal, 2 where there is no path. -/
def farBytes (s : State) (w va n : Nat) : Option (Nat × List Byte) :=
  let got := (List.range n).map fun k => s.fetchBuf.find? fun e => e.1 == w && e.2.1 == va + 8 * k
  match got.find? fun o => match o with | some e => e.2.2.1 != 0 && e.2.2.1 != staleUnit | none => false with
  | some (some e) => some (e.2.2.1, [])
  | _ =>
    if got.all fun o => o.isSome then
      some (0, got.flatMap fun o => match o with | some e => leBytes 8 e.2.2.2.toNat | none => [])
    else none

/-- What some owners have asked for or been given in some places is given up: answers on their way find nobody. -/
def dropAsks (s : State) (p : Nat → Nat → Bool) : State :=
  { s with
    fetchBuf := s.fetchBuf.filter fun e => !p e.1 e.2.1
    unacked := s.unacked.filter fun u => !(unitTag u.2.2.1 && !ownEngine u.2.1 && p u.2.1 u.2.2.2) }

/-- Those units given up. -/
def dropFar (s : State) (w va n : Nat) : State :=
  { s with fetchBuf := s.fetchBuf.filter fun e => !(e.1 == w && decide (va ≤ e.2.1) && decide (e.2.1 < va + 8 * n)) }

end Sys2Proof.Machine
end

