-- ==== Sys2Proof/Machine/Coherence.lean ====
section
/-! DEFINITION. Coherence by metadata: every coherent byte has one copy, in the package's memory, and the L1 states, the snoop
filters, the region tables, the leases and the directory say who may read and write it (R179, R286 to R289, R307 to R313,
R387 to R390). -/

namespace Sys2Proof.Machine

def lineOf (va : DWord) : Nat := va.toNat / 128
/-- The 512-byte region of a line (R302). -/
def regionOfLine (line : Nat) : Nat := line / 4

/-- The home slice of a region on a die (R302). -/
def homeSlice (asid region : Nat) : Nat := regionHash asid (region * 512)
/-- The cluster that holds the home slice, and the bus on which the region travels (R302). -/
def homeCluster (asid region : Nat) : Nat := homeSlice asid region / 32
def homeBus (asid region : Nat) : Nat := homeSlice asid region % 8

/-! ## The ways of the cask layer (R276, R278) -/

/-- Role code of a way: 0 home cache, 1 RDC, 2 cluster scratch (R278). -/
def roleOf (wpr : Word) (way : Nat) : Nat := bitsAt wpr.toNat (2 * way) 2

/-- The ways of a role in which a slice may allocate: those that hold it before and after a running transition, without the portions that
have failed (R281, R293). -/
def roleWays (x : Cluster) (r slice : Nat) : List Nat :=
  (List.range 16).filter fun k => roleOf x.wpr k == r && (!x.busy || roleOf x.oldWpr k == r) && !x.disabled.contains (slice, k)

/-- Whether two lines stand in the same row of the same slice, of 256 rows (R276). DESIGN CHOICE (log entry 26). -/
def sameRow (a la b lb : Nat) : Bool := homeSlice a (regionOfLine la) == homeSlice b (regionOfLine lb) && la % 256 == lb % 256

/-- The number of ways of each slice in which a budget's misses allocate: the lowest-numbered ones of the role (R405). -/
def waysOf (n : Nat) : Nat := if n = 0 then 16 else n

/-- A line held by the home-cache ways of its home slice on a die, in the lowest-numbered `lim` of them; in a full row one at the lowest
priority leaves, else the one that came first (R206, R276, R405). What enters these ways is what L1 fills read and what L1 write-backs
bring. DESIGN CHOICE (log entry 35). -/
def caskFill (s : State) (die asid line : Nat) (dirty : Bool) (lim : Nat) (early : Bool := false) : State :=
  let slice := homeSlice asid (regionOfLine line)
  s.modCluster ⟨die, slice / 32⟩ fun x =>
    if x.lines.any fun e => e.asid == asid && e.line == line then
      { x with lines := x.lines.map fun e => if e.asid == asid && e.line == line then { e with dirty := e.dirty || dirty } else e }
    else
      let ways := (roleWays x 0 (slice % 32)).take lim
      let row := x.lines.filter fun e => sameRow e.asid e.line asid line
      let here := row.filter fun e => ways.contains e.way
      match ways.find? fun k => !row.any fun e => e.way == k with
      | some k => { x with lines := x.lines ++ [⟨k, asid, line, dirty, early⟩] }
      | none =>
        match (here.find? (·.early)).or here.head? with
        | some old => { x with lines := x.lines.erase old ++ [⟨old.way, asid, line, dirty, early⟩] }
        | none => x

/-- A dirty L1 line written back to its home slice (R313). -/
def caskBack (s : State) (ln : L1Line) : State := caskFill s (ln.pa / 2 ^ 36 % 16) ln.asid ln.line true 16

/-! ## L1 lines -/

/-- A context sees lines of its ASID and of global pages, which carry ASID 0 (R379, R381). -/
def tagSees (asid tag : Nat) : Bool := tag == asid || tag == 0

def l1Find (c : Core) (asid line : Nat) : Option L1Line := c.l1.find? fun x => tagSees asid x.asid && x.line == line

/-- Logical cores of a die. -/
def coresOfDie (die : Nat) : List CoreId := (List.range 16).flatMap fun k => (List.range 8).map fun c => ⟨die, k, c⟩

/-- Cores of a die that hold a line. -/
def holdersOf (s : State) (die asid line : Nat) : List CoreId :=
  (s.cores.filter fun c => c.id.die == die && (l1Find c asid line).isSome).map (·.id)

/-- The physical core that serves a logical one (R271). -/
def physOf (x : Cluster) (core : Nat) : Nat := bitsAt x.cmap.toNat (4 * core) 4

/-! ## Watch arms (R229) -/

/-- Whether the page of a line is global (R379). -/
def lineGlobal (s : State) (asid line : Nat) : Bool :=
  match walkTables (tableMem s) (s.getDie 0).ptbase.toNat asid (line * 128) with
  | .leaf e _ _ => bitAt e 6
  | _ => false

/-- Every arm on a line fires: a write to it is visible. -/
def fireArms (s : State) (asid line : Nat) : State :=
  let hit (a : Arm) : Bool := a.armed && a.line == line && (a.asid == asid || lineGlobal s asid line)
  if s.warps.any fun w => w.arms.any hit then
    { s with warps := s.warps.map fun w => { w with arms := w.arms.map fun a => if hit a then { a with fired := true } else a } }
  else s

/-- The arms of the warps of one core on a line fire. -/
def fireCoreArms (s : State) (c : CoreId) (line : Nat) : State :=
  { s with warps := s.warps.map fun w =>
      if s.warpCore w == c then { w with arms := w.arms.map fun a => if a.armed && a.line == line then { a with fired := true } else a }
      else w }

/-! ## The snoop filter (R286 to R289) -/

/-- A core's bit cleared in the filter entry of a line. DEDUCED (log entry 74). -/
def filterClear (x : Cluster) (asid line phys : Nat) : Cluster :=
  { x with filter := (x.filter.map fun e =>
      if e.asid == asid && e.line == line then { e with mask := e.mask &&& ~~~ (1#9 <<< phys) } else e).filter fun e => e.mask != 0 }

/-- A line made absent in one core: the L1 copy and its filter bit go, and the core's arms on it fire (R229, R286). -/
def dropLine (s : State) (c : CoreId) (asid line : Nat) : State :=
  match l1Find (s.getCore c) asid line with
  | none => s
  | some ln =>
    let s1 := s.modCore c fun x => { x with l1 := x.l1.filter fun y => !(y.asid == ln.asid && y.line == line) }
    let s2 := s1.modCluster (cluOf c) fun x => filterClear x ln.asid line (physOf x c.core)
    fireCoreArms s2 c line

/-- A line made absent in every core of a die but one. -/
def dropOthers (s : State) (die asid line : Nat) (keep : Option CoreId) : State :=
  (holdersOf s die asid line).foldl (fun acc c => if keep == some c then acc else dropLine acc c asid line) s

/-- The set of a snoop filter in which a line stands, of 2,048 sets of 16 ways (R286). DESIGN CHOICE (log entry 26). -/
def filterSet (line : Nat) : Nat := line % 2048

/-- An entry evicted with back-invalidation: its line absent in every core of the cluster, a dirty copy written back (R288, R393). -/
def backInvalidate (s : State) (c : CluId) (e : Filter) : State :=
  let cores := (List.range 8).map fun k => (⟨c.die, c.clu, k⟩ : CoreId)
  let dirty := cores.filterMap fun k => (l1Find (s.getCore k) e.asid e.line).bind fun ln =>
    if ln.st == .m || ln.st == .o then some ln.pa else none
  let s1 := dirty.foldl (fun acc pa => caskFill (markWritten acc pa 128) (pa / 2 ^ 36 % 16) e.asid e.line true 16) s
  let s2 := cores.foldl (fun acc k => dropLine acc k e.asid e.line) s1
  s2.modCluster c fun x =>
    { x with filter := x.filter.filter (fun y => !(y.asid == e.asid && y.line == e.line)), backinv := x.backinv + 1 }

/-- An L1 fill recorded in the filter; a full set first evicts its oldest entry (R286, R288). -/
def filterFill (s : State) (c : CoreId) (asid line : Nat) : State :=
  let id := cluOf c
  let x := s.getCluster id
  let bit := 1#9 <<< physOf x c.core
  if x.filter.any fun e => e.asid == asid && e.line == line then
    s.setCluster { x with filter := x.filter.map fun e =>
      if e.asid == asid && e.line == line then { e with mask := e.mask ||| bit } else e }
  else
    let same := x.filter.filter fun e => filterSet e.line == filterSet line
    let s1 := match same with
      | old :: _ => if 16 ≤ same.length then backInvalidate s id old else s
      | [] => s
    s1.modCluster id fun y => { y with filter := y.filter ++ [⟨asid, line, bit⟩] }

/-- A probe that reaches a cluster is answered by the filter or forwarded, and counted (R287, R289). -/
def probeCluster (s : State) (c : CluId) (asid line : Nat) : State :=
  s.modCluster c fun x =>
    if x.filter.any fun e => tagSees asid e.asid && e.line == line && e.mask != 0 then { x with forwarded := x.forwarded + 1 }
    else { x with filtered := x.filtered + 1 }

/-! ## The region table (R308, R311, R312) -/

def presence (d : Die) (asid region : Nat) : BitVec 16 :=
  match d.regions.find? fun e => e.asid == asid && e.region == region with
  | some e => e.mask
  | none => 0

/-- The cluster's presence bit set when the home grants a line of the region (R311). -/
def setPresence (s : State) (die asid region clu : Nat) : State :=
  { s.modDie die (fun d =>
      let e : RegionEntry := ⟨asid, region, presence d asid region ||| (1#16 <<< clu), s.nextId⟩
      { d with regions := putAt (fun x => x.asid == asid && x.region == region) e d.regions }) with nextId := s.nextId + 1 }

/-- The set of a home slice's region table in which a region stands: 2,048 regions in 8 ways (R312). DESIGN CHOICE (log entry 26). -/
def regionSet (region : Nat) : Nat := region % 256

/-- The least recently used entry of a full set, when a new region needs one (R312). DESIGN CHOICE (log entry 41). -/
def recallVictim (d : Die) (asid region : Nat) : Option RegionEntry :=
  if d.regions.any fun e => e.asid == asid && e.region == region then none
  else
    let same := d.regions.filter fun e =>
      homeSlice e.asid e.region == homeSlice asid region && regionSet e.region == regionSet region
    if same.length < 8 then none
    else same.foldl (fun acc e => match acc with | none => some e | some b => if e.used < b.used then some e else some b) none

/-- A recall delivered: the four lines of the region absent in every core of the die, dirty ones written back, and the entry freed (R312). -/
def recallRegion (s : State) (die asid region : Nat) : State :=
  let dirty := s.cores.flatMap fun c => c.l1.filter fun ln =>
    c.id.die == die && ln.asid == asid && regionOfLine ln.line == region && (ln.st == .m || ln.st == .o)
  let s0 := dirty.foldl (fun acc ln => caskBack (markWritten acc ln.pa 128) ln) s
  let s1 := (List.range 4).foldl (fun acc k => dropOthers acc die asid (region * 4 + k) none) s0
  s1.modDie die fun d => { d with regions := d.regions.filter fun e => !(e.asid == asid && e.region == region) }

/-! ## The directory and leases at a home (R343, R344, R387 to R390) -/
/-- The directory entry of a line, empty where none stands. DEDUCED (log entry 39). -/
def dirOf (d : Die) (asid line : Nat) : Dir :=
  match d.dirs.find? fun e => tagSees asid e.asid && e.line == line with
  | some e => e
  | none => { asid := asid, line := line }

def putDir (s : State) (die : Nat) (x : Dir) : State :=
  s.modDie die fun d => { d with dirs := putAt (fun e => e.asid == x.asid && e.line == x.line) x d.dirs }

/-- The lease length a home grants, in ticks (R377, R388). -/
def leaseTicks (d : Die) : Nat :=
  let l := bitsAt d.lctl.toNat 0 7
  (if l = 0 || 64 < l then 64 else l) * Config.ticksPerUs

/-- A lease that still serves loads on a die (R343). -/
def leaseHolds (s : State) (die asid line : Nat) : Bool :=
  s.leases.any fun x => x.die == die && tagSees asid x.asid && x.line == line && s.clock.toNat + Config.leaseGuard < x.expiry.toNat

/-- A lease copy and the L1 copies made from it made absent on a die. -/
def dropLease (s : State) (die asid line : Nat) : State :=
  dropOthers { s with leases := s.leases.filter fun x => !(x.die == die && x.asid == asid && x.line == line) } die asid line none

/-- Whether a write may take effect at the home of a line now (R389, R390, R395): its frame unsealed, no holder left and no
other die its owner. -/
def homeReady (s : State) (pa asid line : Nat) (forDie : Option Nat) : Bool :=
  let home := pa / 2 ^ 36 % 16
  let x := dirOf (s.getDie home) asid line
  !sealedPa s pa && (dirClear x || holdersGone s x) &&
    (match x.owner with | none => true | some o => forDie == some o)

/-- Whether a write that the home performs itself may take effect now: no seal and no holder left (R389, R395). -/
def engineReady (s : State) (asid va pa : Nat) : Bool :=
  let x := dirOf (s.getDie (pa / 2 ^ 36 % 16)) asid (va / 128)
  !sealedPa s pa && (dirClear x || holdersGone s x)

/-- A write that must wait at the home is announced to the holders (R389). -/
def announceWrite (s : State) (pa asid line : Nat) : State :=
  let home := pa / 2 ^ 36 % 16
  let x := dirOf (s.getDie home) asid line
  if dirClear x && x.owner == none then s else putDir s home { x with pending := true, pa := pa / 128 * 128 }

/-- The holders of a line cleared by a write that takes effect (R389). -/
def clearHolders (s : State) (home asid line : Nat) (owner : Option Nat) : State :=
  let x := dirOf (s.getDie home) asid line
  let s1 := (s.leases.filter fun l => tagSees asid l.asid && l.line == line).foldl (fun acc l => dropLease acc l.die l.asid l.line) s
  if dirClear x && x.owner == owner && !x.pending then s1
  else putDir s1 home { asid := x.asid, line := line, owner := owner, pa := x.pa }

/-! ## Leases granted and renewed (R387, R388) -/

/-- A store request for the line is on its way at its home. -/
def writeComing (s : State) (home asid line : Nat) : Bool :=
  (s.getDie home).reqs.any fun q => (q.kind == .getM || q.kind == .upg) && q.ln.asid == asid && q.ln.line == line

/-- The instant at which a lease granted now ends. -/
def leaseEnd (s : State) (home : Nat) : DWord := s.clock + BitVec.ofNat 64 (leaseTicks (s.getDie home))

/-- A holder of the package listed (R387). -/
def listDie (s : State) (home asid line pa die : Nat) (t : DWord) : State :=
  let x := dirOf (s.getDie home) asid line
  putDir s home { x with
    asid := asid
    pa := pa
    dies := x.dies ||| (1#16 <<< die)
    acked := x.acked &&& ~~~ (1#16 <<< die)
    dieExp := if x.dieExp.toNat < t.toNat then t else x.dieExp }

/-- Remote holders that an entry lists by name (R387). -/
def remoteSlots : Nat := 4

/-- A package listed, or its expiry in MAXEXP. DEDUCED (log entry 39). -/
def listPkg (s : State) (home asid line pa pkg : Nat) (t : DWord) : State :=
  let x := dirOf (s.getDie home) asid line
  let known := x.remote.any fun r => r.1 == pkg
  putDir s home (if known || x.remote.length < remoteSlots then
      { x with asid := asid, pa := pa, told := false, remote := putAt (fun r => r.1 == pkg) (pkg, t) x.remote }
    else { x with asid := asid, pa := pa, maxExp := if x.maxExp.toNat < t.toNat then t else x.maxExp })

/-- A window line for a physical line is on a bus (R316). -/
def windowComing (s : State) (home pa : Nat) : Bool :=
  let is (m : Nat × BusMsg) : Bool := match m.2 with | .window _ _ _ _ p _ => p / 128 == pa / 128 | _ => false
  (s.getDie home).buses.any fun b => b.queue.any is || b.slots.any fun y => y.msgs.any is

/-- The line's home grants leases now: no write is pending or on its way, and its frame is not sealed (R388, R394). -/
def leasesFlow (s : State) (asid line pa : Nat) : Bool :=
  let home := pa / 2 ^ 36 % 16
  !(dirOf (s.getDie home) asid line).pending && !sealedPa s pa && !writeComing s home asid line && !windowComing s home pa

/-- A copy made absent, with the arms of the die's warps on its line fired (R229, R343). -/
def farDrop (s : State) (die asid line : Nat) : State :=
  let mine (x : FarLine) : Bool := x.die == die && (x.asid == asid || asid == 0) && x.line == line
  if !s.farLines.any mine then s
  else
    { s with
      farLines := s.farLines.filter fun x => !mine x
      warps := s.warps.map fun w =>
        if (s.warpCore w).die == die then { w with arms := w.arms.map fun a => if a.armed && a.line == line then { a with fired := true } else a }
        else w }

/-- The copies of other dies' and other packages' lines that share a row of a die's RDC ways: way and expiry (R276). -/
def rdcRow (s : State) (die asid line : Nat) : List (Nat × Nat) :=
  ((s.leases.filter fun l => l.die == die && sameRow l.asid l.line asid line).map fun l => (l.way, l.expiry.toNat)) ++
    (s.farLines.filter fun l => l.die == die && sameRow l.asid l.line asid line).map fun l => (l.way, l.expiry.toNat)

/-- The RDC way that takes a copy on a die, of the lowest-numbered `lim`: one that is free in the row, else that of the copy whose lease
ends first (R1, R276, R405); none where the cluster has no such way (R278). DESIGN CHOICE (log entry 26). -/
def rdcWay (s : State) (die asid line lim : Nat) : Option Nat :=
  let slice := homeSlice asid (regionOfLine line)
  let ways := (roleWays (s.getCluster ⟨die, slice / 32⟩) 1 (slice % 32)).take lim
  let row := (rdcRow s die asid line).filter fun e => ways.contains e.1
  match ways.find? fun k => !row.any fun e => e.1 == k with
  | some k => some k
  | none => (row.foldl (fun (acc : Option (Nat × Nat)) e => match acc with | none => some e | some b => if e.2 < b.2 then some e else some b)
      none).map (·.1)

/-- The copy that a way of a row holds made absent. -/
def rdcFree (s : State) (die asid line way : Nat) : State :=
  let s1 := (s.leases.filter fun l => l.die == die && l.way == way && sameRow l.asid l.line asid line).foldl
    (fun acc l => dropLease acc die l.asid l.line) s
  (s.farLines.filter fun l => l.die == die && l.way == way && sameRow l.asid l.line asid line).foldl
    (fun acc l => farDrop acc die l.asid l.line) s1

/-- A lease given to a die, below 16, in the lowest-numbered `lim` of its RDC ways, or to package holder − 16; a dirty line of the home's
cores becomes shared (R309). A die without an RDC way for the line gets none (R278). -/
def giveLease (s : State) (holder asid line pa : Nat) (lim : Nat := 16) : State :=
  let home := pa / 2 ^ 36 % 16
  let t := leaseEnd s home
  let down (y : L1Line) : L1Line :=
    if tagSees asid y.asid && y.line == line then { y with st := match y.st with | .m => .o | .o => .o | _ => .s } else y
  let s1 := { s with cores := s.cores.map fun c => if c.id.die == home then { c with l1 := c.l1.map down } else c }
  if holder < 16 then
    let known := s.leases.find? fun x => x.die == holder && x.asid == asid && x.line == line
    match (known.map (·.way)).or (rdcWay s holder asid line lim) with
    | none => s
    | some k =>
      let s2 := listDie (if known.isSome then s1 else rdcFree s1 holder asid line k) home asid line pa holder t
      { s2 with leases := putAt (fun x => x.die == holder && x.asid == asid && x.line == line) ⟨holder, asid, line, t, pa, k⟩ s2.leases }
  else listPkg s1 home asid line pa (holder - 16) t

/-- A hit on a lease copy with less than a quarter of its lease left asks for a new lease, which the home gives while leases of the line
flow (R388). -/
def renewLease (s : State) (die asid line : Nat) : State :=
  match s.leases.find? fun x => x.die == die && x.asid == asid && x.line == line with
  | none => s
  | some l =>
    if l.expiry.toNat < s.clock.toNat + leaseTicks (s.getDie (l.pa / 2 ^ 36 % 16)) / 4 && s.clock.toNat < l.expiry.toNat &&
        leasesFlow s asid line l.pa then giveLease s die asid line l.pa
    else s

/-- The die whose directory lists a line. -/
def dirDie (s : State) (asid line : Nat) : Option Nat := (s.dies.find? fun d => d.dirs.any fun e => e.asid == asid && e.line == line).map (·.id)

/-- A holder of a line whose write is pending, whose frame is sealed (R389), or whose directory entry the home evicts (R387), has made its
copy absent: a die, or package holder − 16. An entry that is evicted goes with its last holder. DEDUCED (log entry 39). -/
def ackHolder (s : State) (holder asid line : Nat) : State :=
  match dirDie s asid line with
  | none => s
  | some home =>
    let x := dirOf (s.getDie home) asid line
    let y : Dir := if holder < 16 then { x with acked := x.acked ||| (1#16 <<< holder) }
      else { x with remote := x.remote.filter fun r => r.1 != holder - 16 }
    let s1 := putDir (if holder < 16 then dropLease s holder asid line else s) home y
    if !x.pending && !sealedPa s x.pa && x.owner == none && holdersGone s1 y then clearHolders s1 home asid line none else s1

/-! ## Copies of other packages' lines (R343, R388, R391) -/

/-- The copy that a die serves a line from. -/
def farGet (s : State) (die asid line : Nat) : Option FarLine :=
  s.farLines.find? fun x => x.die == die && tagSees asid x.asid && x.line == line && decide (s.clock.toNat + Config.farGuard < x.expiry.toNat)

/-- A copy kept in an RDC way of its die, which it shares with the leases of the package (R1, R276); none is kept where no way can take
it. -/
def farKeep (s : State) (x : FarLine) (lim : Nat) : State :=
  let same (y : FarLine) : Bool := y.die == x.die && y.asid == x.asid && y.line == x.line
  let known := s.farLines.find? same
  match (known.map (·.way)).or (rdcWay s x.die x.asid x.line lim) with
  | none => s
  | some k =>
    let s1 := if known.isSome then s else rdcFree s x.die x.asid x.line k
    { s1 with farLines := putAt same { x with way := k } s1.farLines }

/-- A hit on a copy: with less than a quarter of its lease left it asks for a new one (R388). -/
def farHit (s : State) (x : FarLine) : State :=
  if 4 * (x.expiry.toNat - s.clock.toNat) < x.len && !x.renewing then
    { s with farLines := s.farLines.map fun y => if y == x then { y with renewing := true } else y }
  else s

/-- A line asked for on behalf of a die's remote-data ways, unless it is on its way; without a path nothing is asked. -/
def farAsk (s : State) (die asid : Nat) (user : Bool) (pkg line : Nat) : State :=
  if s.unacked.any fun u => u.2.1 == farOwner die && u.2.2.1 == asid && u.2.2.2 == line then s
  else
    let va := BitVec.ofNat 64 (line * 128)
    match sendFor { s with nextId := s.nextId + 1 } pkg asid va.toNat (.request s.dev pkg s.nextId asid user va .line) none with
    | some t => { t with unacked := t.unacked ++ [(s.nextId, farOwner die, asid, line)] }
    | none => s

/-- The renewals that hits have asked for leave. -/
def farRenewals (s : State) : State :=
  (s.farLines.filter (·.renewing)).foldl (fun acc x => farAsk acc x.die x.asid false x.pkg x.line) s

/-! ## Writes in memory -/

/-- The lines that n bytes from an address touch. -/
def linesOf (va n : Nat) : List Nat := (List.range ((va + n - 1) / 128 - va / 128 + 1)).map (· + va / 128)

/-- Bytes stored at their home, with the arms on their lines fired. DEDUCED (log entry 36). -/
def storeAt (s : State) (asid : Nat) (va : DWord) (pa : Nat) (bs : List Byte) : State :=
  (linesOf va.toNat bs.length).foldl (fun acc l => fireArms acc asid l) (s.store pa bs)

/-- A line absent in every L1 and every lease of the package. -/
def dropEverywhere (s : State) (pa asid line : Nat) : State :=
  (List.range 16).foldl (fun acc d => dropOthers acc d asid line none) (clearHolders s (pa / 2 ^ 36 % 16) asid line none)

/-- The address of a gang's token word (R408). -/
def tokenVa (e : Eff) (g : Nat) : DWord := e.token + BitVec.ofNat 64 (g * e.stride)

/-- The token words among some bytes just written that are at their thresholds: the maltster will observe it, whatever is written later (R408). -/
def tokenCross (s : State) (pa n : Nat) : State :=
  let watched (r : Region) : Bool := r.leaf && r.status == 0 && r.eff.token != 0
  let hit (r : Region) (g : Nat) : Bool :=
    !r.fired.contains g && !r.crossed.contains g &&
      (match translateNow s 0 r.asid.toNat false .read (tokenVa r.eff g) with
       | .mem q 2 _ => decide (q < pa + n) && decide (pa < q + 4) && decide (r.eff.threshold ≤ s.loadNat q 4)
       | _ => false)
  if !s.regions.any watched then s
  else
    { s with regions := s.regions.map fun r =>
        if watched r then { r with crossed := r.crossed ++ (List.range r.eff.gangs).filter (hit r) } else r }

/-- A write made at the home by an engine, a memory-side unit or the host: no L1 copy of the line remains (R236, R392). -/
def engineStore (s : State) (asid : Nat) (va : DWord) (pa : Nat) (bs : List Byte) : State :=
  tokenCross (storeAt ((linesOf va.toNat bs.length).foldl (fun acc l => dropEverywhere acc pa asid l) s) asid va pa bs) pa bs.length

/-! ## Writes by physical address, and writes that wait (R339, R344, R389) -/

/-- Copies of a physical line made absent everywhere: L1 lines, and leases with what was filled from them (R339). -/
def dropPhysical (s : State) (pa : Nat) : State :=
  let base := pa / 128 * 128
  let s1 := s.cores.foldl (fun acc c => (c.l1.filter fun ln => ln.pa == base).foldl (fun a ln => dropLine a c.id ln.asid ln.line) acc) s
  let s2 := (s1.leases.filter fun l => l.pa == base).foldl (fun acc l => dropLease acc l.die l.asid l.line) s1
  s2.modDie (pa / 2 ^ 36 % 16) fun d =>
    { d with dirs := d.dirs.map fun e => if e.pa == base then { asid := e.asid, line := e.line, pa := e.pa } else e }

/-- Bytes of one line stored by physical address, with no copy of the line left. -/
def physStore (s : State) (pa : Nat) (bs : List Byte) : State := tokenCross ((dropPhysical s pa).store pa bs) pa bs.length

def homeWriteReady (s : State) (w : HomeWrite) : Bool :=
  match w.who with
  | some p => engineReady s p.1 p.2 w.pa
  | none => physReady s w.pa

/-- The bytes that such a write leaves. -/
def homeBytes (s : State) (w : HomeWrite) : List Byte :=
  let n := w.bytes.length
  match w.op with
  | .store => w.bytes
  | .add => leBytes n (leNat (s.load w.pa n) + leNat w.bytes)
  | .or => List.zipWith (· ||| ·) (s.load w.pa n) w.bytes

/-- A window line's store has one line less to wait for (R316). -/
def windowDone (s : State) (w : HomeWrite) : State :=
  match w.store with
  | some (wid, tag) => s.modKept wid fun x => { x with stores := x.stores.map fun p => if p.tag == tag then { p with window := p.window - 1 } else p }
  | none => s

def homeWriteNow (s : State) (w : HomeWrite) : State :=
  windowDone (match w.who with
    | some p => engineStore s p.1 (BitVec.ofNat 64 p.2) w.pa (homeBytes s w)
    | none => physStore s w.pa (homeBytes s w)) w

/-- Writes made in one ASID keep their order, and so do physical ones. -/
def sameQueue (a b : HomeWrite) : Bool := a.who.map (·.1) == b.who.map (·.1)

/-- A write of the firmware: it takes effect now, or waits at its home until the holders of its line are gone (R389). -/
def homeWrite (s : State) (w : HomeWrite) : State :=
  if homeWriteReady s w && !s.homeWrites.any (sameQueue w) then homeWriteNow s w
  else
    let s1 := { s with homeWrites := s.homeWrites ++ [w] }
    match w.who with
    | some p => announceWrite s1 w.pa p.1 (p.2 / 128)
    | none => announcePhys s1 w.pa

/-- No write made in an ASID waits at its home. -/
def queueFree (s : State) (asid : Nat) : Bool := s.homeWrites.all fun w => w.who.map (·.1) != some asid

/-- The first write that may take effect now and waits behind no other of its queue. -/
def nextHomeWrite (s : State) (seen : List HomeWrite) : List HomeWrite → Option HomeWrite
  | [] => none
  | w :: ws => if homeWriteReady s w && !seen.any (sameQueue w) then some w else nextHomeWrite s (w :: seen) ws

/-- A waiting write of the firmware takes effect. -/
def homeWriteStep (s : State) : State :=
  match nextHomeWrite s [] s.homeWrites with
  | some w => homeWriteNow { s with homeWrites := s.homeWrites.erase w } w
  | none => s

/-- Bytes as the firmware reads them: with its own writes that still wait. -/
def loadOwn (s : State) (pa n : Nat) : List Byte :=
  s.homeWrites.foldl (fun bs w => bs.mapIdx fun k b =>
    if w.op = .store ∧ w.pa ≤ pa + k ∧ pa + k < w.pa + w.bytes.length then (w.bytes[pa + k - w.pa]?).getD b else b) (s.load pa n)

/-! ## Dirty bytes and their homes (R180, R188) -/

/-- The runs of dirty bytes of a line or sector: offset and byte. -/
def dirtyOf (m : Sparse (Byte × Bool)) : List (Nat × Byte) := (m.filter fun e => e.2.2).map fun e => (e.1, e.2.1)

/-- Runs of consecutive bytes, cut at lines. -/
def runsOf (ds : List (Nat × Byte)) : List (Nat × List Byte) :=
  ds.foldr (fun d acc =>
    match acc with
    | r :: rs => if d.1 + 1 = r.1 ∧ r.1 % 128 ≠ 0 then (d.1, d.2 :: r.2) :: rs else (d.1, [d.2]) :: acc
    | [] => [(d.1, [d.2])]) []

/-- Bytes of a line of another package sent home (R188, R391); a dead package, or one that no path reaches, does not take them (R467, R487). -/
def backSend (s : State) (pkg asid va : Nat) (bs : List Byte) : State :=
  let a := BitVec.ofNat 64 va
  if s.deadPkgs.contains pkg then { s with lostBacks := s.lostBacks ++ [asid] }
  else match sendFor { s with nextId := s.nextId + 1 } pkg asid va (.request s.dev pkg s.nextId asid false a (.store bs)) none with
  | some t => { t with unacked := t.unacked ++ [(s.nextId, backOwner, asid, va / 128)] }
  | none => { s with lostBacks := s.lostBacks ++ [asid] }

/-- Write-backs of an ASID that other packages have not acknowledged. -/
def backPending (s : State) (asid : Nat) : Bool := s.unacked.any fun u => u.2.1 == backOwner && u.2.2.1 == asid

/-- Dirty bytes written back to their place; those of a host page are lost with the link (R448). -/
def writeBack (s : State) (asid : Nat) (va : Nat) (p : Place) (ds : List (Nat × Byte)) : State :=
  match p with
  | .mem pa => ds.foldl (fun acc d => engineStore acc asid (BitVec.ofNat 64 (va + d.1)) (pa + d.1) [d.2]) s
  | .host a =>
    if s.linkw == 0 then (if ds.isEmpty then s else { s with lostBacks := s.lostBacks ++ [asid] })
    else { s with hostMem := ds.foldl (fun m d => Memory.write m (a + d.1) d.2) s.hostMem }
  | .far k => (runsOf ds).foldl (fun acc r => backSend acc k asid (va + r.1) r.2) s

/-- The home takes write-backs to a place: its frame is not sealed (R395). -/
def placeOpen (s : State) (p : Place) : Bool := match p with | .mem pa => !sealedPa s pa | _ => true

/-- The home takes the dirty bytes of a non-coherent line now (R389, R395). -/
def ncOpen (s : State) (x : NcLine) : Bool :=
  (dirtyOf x.bytes).isEmpty || match x.place with
  | .mem pa => engineReady s x.asid (x.line * 128) pa
  | _ => true

/-- The holders of a dirty non-coherent line told of its write-back. -/
def announceNc (s : State) (x : NcLine) : State :=
  match x.place with
  | .mem pa => if (dirtyOf x.bytes).isEmpty then s else announceWrite s pa x.asid x.line
  | _ => s

/-- The lines of a sector that hold dirty bytes, with their places. -/
def dirtyLines (x : KSector) : List (Nat × Nat) :=
  match x.place with
  | .mem pa => ((dirtyOf x.bytes).map fun d => (x.sector * 8 + d.1 / 128, pa + d.1 / 128 * 128)).eraseDups
  | _ => []

/-- The home takes the dirty bytes of a sector now: its frame is not sealed, and no holder of a written line is left (R389, R395). -/
def sectorOpen (s : State) (x : KSector) : Bool :=
  (dirtyOf x.bytes).isEmpty || match x.place with
  | .far k => (dirtyOf x.bytes).all fun d => (pathFor s k x.home (x.sector * 1024 + d.1)).isSome
  | _ => placeOpen s x.place && (dirtyLines x).all fun p => engineReady s x.asid (p.1 * 128) p.2

/-- The holders of a sector's dirty lines told of its write-back (R389). -/
def announceSector (s : State) (x : KSector) : State := (dirtyLines x).foldl (fun acc p => announceWrite acc p.2 x.asid p.1) s

/-! ## L1 fills and states (R179, R307, R309) -/

/-- The set of the L1 data cache in which a line stands, of 256 sets of 8 ways (R179). DESIGN CHOICE (log entry 26). -/
def l1Set (asid line : Nat) : Nat := (line + asid) % 256

/-- The lines of a set that can leave, coherent and non-coherent ones, each with its priority and its order of use. -/
abbrev L1Way := Bool × Nat × (L1Line ⊕ NcLine)

/-- The line that leaves a set first: one at the lowest priority (R206), then the one filled first. DESIGN CHOICE (log entry 26). -/
def l1Victim (ls : List L1Way) : Option L1Way :=
  match ls.find? (·.1) with
  | some x => some x
  | none => ls.foldl (fun acc x => match acc with | none => some x | some y => if x.2.1 < y.2.1 then some x else acc) none

/-- Room for one more line in its set, which coherent and non-coherent lines share (R179, R180); none while nothing can leave.
DESIGN CHOICE (log entry 26). -/
def l1MakeRoom (s : State) (c : CoreId) (asid line : Nat) : Option State :=
  let x := s.getCore c
  let here := x.l1.filter fun y => l1Set y.asid y.line == l1Set asid line
  let others := x.nc.filter fun y => l1Set y.asid y.line == l1Set asid line
  if here.length + others.length < 8 then some s
  else match l1Victim ((here.map fun v => (v.early, v.used, .inl v)) ++ (others.filter (ncOpen s)).map fun o => (o.early, o.used, .inr o)) with
  | some (_, _, .inl v) =>
    some (dropLine (if v.st == .m || v.st == .o then caskBack (markWritten s v.pa 128) v else s) c v.asid v.line)
  | some (_, _, .inr o) =>
    some (writeBack (s.setCore { x with nc := x.nc.filter fun y => !(y.asid == o.asid && y.line == o.line) }) o.asid (o.line * 128) o.place
      (dirtyOf o.bytes))
  | none => none

/-- Whether a line can be filled. -/
def l1Room (s : State) (c : CoreId) (asid line : Nat) : Bool := (l1MakeRoom s c asid line).isSome

def setL1 (s : State) (c : CoreId) (asid line : Nat) (f : L1Line → L1Line) : State :=
  s.modCore c fun x => { x with l1 := x.l1.map fun y => if tagSees asid y.asid && y.line == line then f y else y }

/-- A line filled into an L1 data cache, where its set has room or makes it. -/
def fillL1 (s : State) (c : CoreId) (ln : L1Line) : State :=
  let s0 := s.modCore c fun y => { y with l1 := y.l1.filter fun z => !(z.asid == ln.asid && z.line == ln.line) }
  match l1MakeRoom s0 c ln.asid ln.line with
  | some s1 => filterFill (s1.modCore c fun y => { y with l1 := y.l1 ++ [ln] }) c ln.asid ln.line
  | none => s0

/-- A holder's state after a GetS (R309). -/
def afterGetS : Moesi → Moesi | .m => .o | .o => .o | .e => .s | .s => .s

/-- Nobody outside the home die holds a lease on a line, and no write to it waits for one (R389). -/
def noLeaseOut (s : State) (asid line pa : Nat) : Bool :=
  let x := dirOf (s.getDie (pa / 2 ^ 36 % 16)) asid line
  !x.pending && (dirClear x || holdersGone s x)

/-- A load request granted on a die: the holders change and the requester's line is filled, in E when nobody else holds it, under a lease
neither, and the line is homed on the die (R308, R309, R388, R389). -/
def grantGetS (s : State) (c : CoreId) (ln : L1Line) (lease : Bool) : State :=
  let hs := holdersOf s c.die ln.asid ln.line
  let s1 := hs.foldl (fun acc h => setL1 acc h ln.asid ln.line fun y => { y with st := afterGetS y.st }) s
  { fillL1 s1 c { ln with st := if hs.isEmpty && !lease && noLeaseOut s ln.asid ln.line ln.pa then .e else .s, used := s.nextId } with nextId := s.nextId + 1 }

/-- A store request granted: every other copy on the die is absent and the requester holds the line in M (R309, R310). -/
def grantGetM (s : State) (c : CoreId) (ln : L1Line) : State :=
  let s1 := dropOthers s c.die ln.asid ln.line (some c)
  if (l1Find (s1.getCore c) ln.asid ln.line).isSome then
    setL1 s1 c ln.asid ln.line fun y => { y with st := .m, writable := ln.writable }
  else { fillL1 s1 c { ln with st := .m, used := s.nextId } with nextId := s.nextId + 1 }

/-! ## Routing (R384) -/

/-- The set of a home map in which a region stands, of 128 sets of 8 ways (R384). DESIGN CHOICE (log entry 26). -/
def homeMapSet (region : Nat) : Nat := region % 128

/-- A home map with an entry for a region: a full set gives up the entry filled first. -/
def fillHomeMap (s : State) (c : CoreId) (asid va : Nat) (home : Nat × Nat) : State :=
  s.modCore c fun x =>
    let region := va / 2 ^ 21
    let same := x.homeMap.filter fun e => homeMapSet e.2.1 == homeMapSet region
    let kept := match same with
      | old :: _ => if 8 ≤ same.length then x.homeMap.erase old else x.homeMap
      | [] => x.homeMap
    { x with homeMap := kept ++ [(asid, region, home.1, home.2)] }

/-- The home package and die that a walk gives: none for the host window, whose requests go to the host link (R379), and where the walk
fails. -/
def walkHome (dev : Nat) : Walk → Option (Nat × Nat)
  | .mem pa _ _ => some (dev, pa / 2 ^ 36 % 16)
  | .ctrl pa => some (dev, pa / 2 ^ 36 % 16)
  | .far pkg die => some (pkg, die)
  | _ => none

/-- A request that leaves the core for the slices and beyond (R383, R384), which waits while its cask bus is being repaired (R400): the
home map, which a routing walk of the core's own die fills, names its home, and the home's die translates it. None when that
translation names another home, so that the request is refused. -/
def route (s : State) (c : CoreId) (asid : Nat) (user : Bool) (want : Want) (va : DWord) : Option Walk × State :=
  if (s.getCore c).vbCask.repairing then (none, s)
  else match homeMapOf (s.getCore c) asid va.toNat with
  | none =>
    let t := translate s c.die asid user want va
    match walkHome t.2.dev t.1 with
    | none => (some t.1, t.2)
    | some home =>
      let u := fillHomeMap t.2 c asid va.toNat home
      if home.1 == u.dev && home.2 != c.die then let v := translate u home.2 asid user want va; (some v.1, v.2) else (some t.1, u)
  | some (pkg, die) =>
    if pkg == s.dev then
      let t := translate s die asid user want va
      match walkHome t.2.dev t.1 with
      | some home => if home == (pkg, die) then (some t.1, t.2) else (none, t.2)
      | none => (some t.1, t.2)
    else match translateNow s c.die asid user want va with
    | .mem .. => (none, s)
    | .ctrl _ => (none, s)
    | .host a => (some (.host a), s)
    | .far p d => if p == pkg then (some (.far p d), s) else (none, s)
    | _ => (some (.far pkg die), s)

end Sys2Proof.Machine
end

