-- ==== Sys2Proof/Machine/Fetch.lean ====
section
/-! DEFINITION. Instruction fetch: the checks of R44, R46, R58 and R101, the instruction cache of R178, the fetch pad of R45
and the traps that a faulty word takes. -/

namespace Sys2Proof.Machine

/-- What a fetch finds at a counter. -/
inductive Fetched where
  | instr (i : Instr)
  | pad
  /-- a fetch or decode trap: cause, INFO, field D as found, length of the word -/
  | trap (cause : BitVec 8) (info : BitVec 16) (d : BitVec 11) (len : Nat)
  | fault (level : Nat)
  /-- another package has not yet returned the block -/
  | wait
  /-- the home of the block, or the host link, does not answer (R375, R448, R456) -/
  | err
  deriving DecidableEq, Repr

/-- The address of the 32-byte block that holds a counter (R43). -/
def blockOf (pc : DWord) : Nat := pc.toNat / 32 * 32

/-- The 32 bytes of a block where a walk finds it; none from a home that does not answer (R375, R448, R456). -/
def blockBytes (s : State) (o : Walk) : Option (List Byte) :=
  match o with
  | .mem pa _ _ => if homeDead s pa then none else some (s.load pa 32)
  | .host a => if s.linkw == 0 then none else some (Memory.readN s.hostMem a 32)
  | _ => none

/-- Blocks of an instruction cache (R178). -/
def icacheSize : Nat := 4096

/-- The block of a context that an instruction cache holds: its own or that of a global page (R178, R381). -/
def icacheFind (c : Core) (asid blk : Nat) : Option (Nat × Nat × List Byte) :=
  c.icache.find? fun e => (e.1 == asid || e.1 == 0) && e.2.1 == blk

/-- The instruction cache of a core with a block added; a full one gives up the block filled first. DESIGN CHOICE (log entry 26). -/
def fillICache (s : State) (c : CoreId) (asid blk : Nat) (bs : List Byte) : State :=
  s.modCore c fun x =>
    let kept := x.icache.filter fun e => !(e.1 == asid && e.2.1 == blk)
    { x with icache := kept.drop (kept.length + 1 - icacheSize) ++ [(asid, blk, bs)] }

/-- The block at a counter: from the instruction cache, where a block that memory no longer holds is either the old or the
new one (R178), or from memory by a translation for fetch (R101), which no cache keeps for a memory-side page (R392).
DEDUCED (log entry 19). A fetch from a control page takes MEM_PROTECT here with INFO 0. DESIGN CHOICE (log entry 80). -/
def fetchBlock (s : State) (w : Warp) (pc : DWord) : Except Fetched (List Byte) × State :=
  let c := s.warpCore w
  let asid := s.warpAsid w
  let user := s.warpUser w
  let blk := blockOf pc
  let va := BitVec.ofNat 64 blk
  match icacheFind (s.getCore c) asid blk with
  | some e =>
    match blockBytes s (walkNow s c asid user .fetch va) with
    | some now =>
      if now == e.2.2 then (.ok now, s)
      else
        let r := s.drawBool
        (.ok (if r.1 then e.2.2 else now), r.2)
    | none => (.ok e.2.2, s)
  | none =>
    let t := route s c asid user .fetch va
    match t.1 with
    | none => (.error .wait, t.2)
    | some (.absent l) => (.error (.fault l), t.2)
    | some .deny => (.error (.trap 0x11 0x60 0 0), t.2)
    | some (.ctrl _) => (.error (.trap 0x11 0 0 0), t.2)
    | some (.far _ _) =>
      match farBytes t.2 (fetchOwner w.id) blk 4 with
      | some (0, bs) =>
        let u := dropFar t.2 (fetchOwner w.id) blk 4
        (.ok bs, if farKind u c.die asid blk == 2 then u else fillICache u c (pageTag u c.die asid blk) blk bs)
      | some (1, _) => (.error (.trap 0x11 0x60 0 0), dropFar t.2 (fetchOwner w.id) blk 4)
      | some _ => (.error (.trap 0x29 0x02 0 0), dropFar t.2 (fetchOwner w.id) blk 4)
      | none => (.error .wait, t.2)
    | some o =>
      match blockBytes t.2 o with
      | some bs =>
        (.ok bs, match o with
          | .mem _ 2 _ => t.2
          | .mem _ _ glob => fillICache t.2 c (if glob then 0 else asid) blk bs
          | _ => fillICache t.2 c (pageTag t.2 c.die asid blk) blk bs)
      | none => (.error .err, t.2)

/-- R44, R46 and check 3 of R58 on the word at an offset of its block. A word whose length code gives no length counts as 0 bytes
long. DESIGN CHOICE (log entry 79). -/
def decodeAt (pc : DWord) (bs : List Byte) : Fetched :=
  let off := pc.toNat % 32
  let v : BitVec 128 := BitVec.ofNat 128 (bytesToNat ((bs.drop off).take 16))
  match decode v with
  | .pad => .pad
  | .badLength => .trap 0x02 0 (v.extractLsb' 19 11) 0
  | d =>
    let len := lenBytes (v.extractLsb' 0 2)
    if 32 < off + len then .trap 0x03 0 (v.extractLsb' 19 11) len
    else match d with
    | .instr i => .instr i
    | _ => .trap 0x01 0 (v.extractLsb' 19 11) len

/-- What stands at the head run's counter of a warp. Where no word is fetched, field D reads 0 and the length is 0. DESIGN CHOICE
(log entry 79). -/
def fetchAt (s : State) (w : Warp) : Fetched × State :=
  let pc := headPc w
  if pc.toNat % 4 ≠ 0 then (.trap 0x03 0 0 0, s)
  else if !canonical pc then (.trap 0x11 0 0 0, s)
  else
    let r := fetchBlock s w pc
    match r.1 with
    | .error f => (f, r.2)
    | .ok bs => (decodeAt pc bs, r.2)

/-- The instruction or event with which the current warp's turn goes on. -/
def fetchNext (s : State) : Instr × State :=
  match s.getWarp s.cur with
  | none => (.fetchPad, s)
  | some w =>
    let r := fetchAt s w
    match r.1 with
    | .instr i => (i, r.2)
    | .pad => (.fetchPad, r.2)
    | _ => (.reservedOpcodeFetch, r.2)

/-- The next multiple of 32 (R45). -/
def padTarget (pc : DWord) : DWord := BitVec.ofNat 64 ((pc.toNat / 32 + 1) * 32)

/-- FETCH_PAD (R45): the lanes that reach the pad go to the next block; nothing else changes. A warp that cannot issue does
not fetch. -/
def execFetchPad (s : State) : Out :=
  match s.getWarp s.cur with
  | none => happens s
  | some w =>
    if headRun w == 0 || w.blocked then happens s
    else
      let r := fetchAt s w
      match r.1 with
      | .pad => happens (r.2.modWarp w.id fun x => x.modLanes (headRun w) fun _ y => { y with pc := padTarget y.pc })
      | _ => happens s

end Sys2Proof.Machine
end

