-- ==== Sys2Proof/Machine/Boot.lean ====
section
/-! DEFINITION. How a word comes to stand where the next step fetches: in memory at the head run's counter of the warp whose turn
it is, or, where no warp exists, in the code page of a region launched for it. -/

namespace Sys2Proof.Machine

/-- Whether a warp competes for the issue slot (R174). -/
def eligible (w : Warp) : Bool := headRun w != 0 && !w.blocked

/-- A warp put among others in the order of their last issues. -/
def insertStamp (w : Warp) : List Warp → List Warp
  | [] => [w]
  | x :: xs => if w.stamp < x.stamp then w :: x :: xs else x :: insertStamp w xs

/-- The eligible warps that an issue unit serves, the least recently issued first; the access warps have a unit of their own (R192). -/
def eligibles (s : State) (access : Bool) : List Warp :=
  (s.warps.filter fun w => eligible w && (w.idx == 32) == access).foldl (fun acc w => insertStamp w acc) []

/-- Identity of the region, gang, workgroup and warp that a placed word runs in. -/
def bootId : Nat := 1
/-- Virtual and physical address of its code page. -/
def bootCode : Nat := 0x400000
/-- Physical address of its ASID root table; the four tables below it stand from `bootTables` on. -/
def bootRoot : Nat := 0x100000
def bootTables : Nat := 0x200000

/-- The effective values of the region: one warp with every register a field can name. -/
def bootEff : Eff := { nregs := 2048, npreds := 128, entry := BitVec.ofNat 64 bootCode, gangs := 1 }

/-- A region of one gang of one workgroup of one warp, at service level, on core 0 of cluster 0 of die 0, whose code page
is mapped: what a LAUNCH and a placement leave (R74, R182, R406), with its page tables (R378). DESIGN CHOICE (log entry 4). -/
def bootWarp (s : State) : State :=
  let m0 := Memory.writeNat s.mem (bootRoot + 8) 8 (bootTables + 1)
  let m1 := Memory.writeNat m0 bootTables 8 (bootTables + 0x1000 + 1)
  let m2 := Memory.writeNat m1 (bootTables + 0x1000) 8 (bootTables + 0x2000 + 1)
  let m3 := Memory.writeNat m2 (bootTables + 0x2000) 8 (bootTables + 0x3000 + 1)
  let m4 := Memory.writeNat m3 (bootTables + 0x3000 + 16) 8 (bootCode + 0x8F)
  let entry := BitVec.ofNat 64 bootCode
  let w : Warp := { id := bootId, wg := bootId, idx := 0, lanes := List.replicate 32 { pc := entry, rgn := entry } }
  { (s.modDie 0 fun d => { d with ptbase := BitVec.ofNat 64 bootRoot }) with
    agenda := [.issue bootId]
    side := .issue
    stage := 7
    psReady := true
    mem := m4
    warps := [w]
    wgs := [{ id := bootId, gang := bootId, member := 0, core := ⟨0, 0, 0⟩, scratch := 0, banks := [] }]
    gangs := [{ id := bootId, region := 0x10001, g := 0, st := .running }]
    regions := [{ handle := 0x10001, ctx := 1, asid := 1, service := true, leaf := true, parent := none, eff := bootEff,
                  order := 0, launchTime := s.clock, fired := [0] }] }

/-- Where a warp's next fetch reads memory, when it can. -/
def fetchPlace (s : State) (w : Warp) : Option Nat :=
  let pc := headPc w
  match translateNow s (s.warpCore w).die (s.warpAsid w) (s.warpUser w) .fetch pc with
  | .mem pa _ _ => if pc.toNat % 32 ≤ 16 && pc.toNat % 4 = 0 && canonical pc then some pa else none
  | _ => none

/-- The bytes stored at the place, with no stale block left in an instruction cache, and the warp to take the next turn. -/
def placeWord (s : State) (w pa : Nat) (bs : List Byte) : State :=
  { s with mem := Memory.writeN s.mem pa bs, cores := s.cores.map (fun c => { c with icache := [] }), agenda := [.issue w] }

/-- The word stored where the next step fetches. DESIGN CHOICE (log entry 4). -/
def withWord (s : State) (bs : List Byte) : State :=
  match (eligibles s false).head?.or (eligibles s true).head? with
  | some w =>
    match fetchPlace s w with
    | some pa => placeWord s w.id pa bs
    | none => placeWord (bootWarp s) bootId bootCode bs
  | none => placeWord (bootWarp s) bootId bootCode bs

end Sys2Proof.Machine
end

