-- ==== Sys2Proof/Machine/Wort.lean ====
section
/-! DEFINITION. Wort regions and their core copies (R346 to R348), wort ranges (R353, R354), the contributions on their way to
the home slice, the mash adders (R350) and the flush of the local wide buffer (R254). -/

namespace Sys2Proof.Machine

/-- The live region of a context id. -/
def State.ctxRegion (s : State) (ctx : Nat) : Option Region := s.regions.find? fun r => r.ctx == ctx && r.status == 0

def wortOf (r : Region) (id : Nat) : Option Wort := r.worts.find? fun x => x.id == id

def modWort (s : State) (ctx id : Nat) (f : Wort → Wort) : State :=
  { s with regions := s.regions.map fun r =>
      if r.ctx == ctx && r.status == 0 then { r with worts := updAt (fun x => x.id == id) f r.worts } else r }

/-- Whether a workgroup lies within a scope measured from a workgroup with an identity, a gang and a core (R326, R347). -/
def inScope (sc : Scope) (wg gang : Nat) (core : CoreId) (g : Workgroup) : Bool :=
  match sc with
  | .wg => wg == g.id
  | .core => core == g.core
  | .gang => gang == g.gang
  | .clu => cluOf core == cluOf g.core
  | .die => core.die == g.core.die
  | _ => true

/-- Whether a workgroup is within the scope of a region, measured from its opener, where it runs now or last ran (R347). -/
def seesWort (s : State) (x : Wort) (g : Workgroup) : Bool :=
  match s.getWg x.opener with
  | some o => inScope x.scope o.id o.gang o.core g
  | none => inScope x.scope x.opener x.openerGang x.openerCore g

/-- The state of a core copy of a region, as a warp of a workgroup finds it (R347, R348). -/
def copyState (s : State) (x : Wort) (g : Workgroup) : WortState :=
  if x.st == .closed || !seesWort s x g then .closed
  else if x.st == .racking || x.rackCores.contains g.core then .racking else .opened

/-- The wort range of a region holds a byte of an access (R346). -/
def wortTouches (x : Wort) (va n : Nat) : Bool :=
  let b := x.base.toNat
  let h := x.shadow.toNat
  (va < b + 128 * x.lines && b < va + n) || (va < h + 8 * x.lines && h < va + n)

/-- The address names the same memory in an ASID as in a region's own: they are one, or its page is global (R379). -/
def sameSpace (s : State) (r : Region) (asid va : Nat) : Bool := r.asid.toNat == asid || lineGlobal s asid (va / 128)

/-- The access touches a line of an open or racking region: it is performed at the home slice (R353). -/
def wortLineHit (s : State) (asid va n : Nat) : Bool :=
  s.regions.any fun r => r.status == 0 && (r.worts.any fun x =>
    x.st != .closed && va < x.base.toNat + 128 * x.lines && x.base.toNat < va + n) && sameSpace s r asid va

/-- The issue check of R354 against the core copies of the warp's context. DEDUCED (log entry 33). -/
def wortIssueHit (s : State) (w : Warp) (va n : Nat) : Bool :=
  match s.warpRegion w, s.warpWg w with
  | some r, some g => r.worts.any fun x => copyState s x g != .closed && wortTouches x va n
  | _, _ => false

/-- The home slice's check of R354, for an agent without a core copy. DEDUCED (log entry 33). -/
def wortHomeHit (s : State) (asid va n : Nat) : Bool :=
  s.regions.any fun r => r.status == 0 && (r.worts.any fun x => x.st != .closed && wortTouches x va n) && sameSpace s r asid va

/-! ## The mash adders -/

/-- The wrap of a sum to 64 bits (R36). -/
def addG (a b : DWord) : DWord := a + b

/-- The pitch count of a line raised, with DONE and OVER judged on the exact sum (R350). -/
def raisePitch (x : Wort) (line inc : Nat) (clip : Bool) : Wort :=
  let h := sget (0, false) x.heads line
  let sum := h.1 + inc
  { x with
    heads := sput (0, false) x.heads line (sum % 2 ^ 32, h.2 || clip)
    done := if x.expect != 0 && h.1 < x.expect && x.expect ≤ sum then x.done + 1 else x.done
    passed := x.passed || (x.expect != 0 && x.expect < sum) }

/-- Address of a line of a region (R346). -/
def wortLineVa (x : Wort) (line : Nat) : DWord := x.base + BitVec.ofNat 64 (128 * line)

/-- Where the home slice finds a line: the translation of its address at service level. -/
def wortLinePa (s : State) (r : Region) (x : Wort) (line : Nat) : Option Nat :=
  match translateNow s 0 r.asid.toNat false .write (wortLineVa x line) with
  | .mem pa 0 _ => some pa
  | _ => none

/-- One contribution applied to its line (R350); none when the line's address no longer translates (R349). -/
def applyAdd (s : State) (a : LineAdd) : Option State :=
  match s.ctxRegion a.ctx with
  | none => some s
  | some r =>
    match wortOf r a.region with
    | none => some s
    | some x =>
      if x.st == .closed then some s
      else
        match wortLinePa s r x a.line with
        | none => none
        | some pa =>
          let old := (List.range 16).map fun e => BitVec.ofNat 64 (s.loadNat (pa + 8 * e) 8)
          let new := List.zipWith addG old a.g
          let s1 := storeAt s r.asid.toNat (wortLineVa x a.line) pa (new.flatMap fun g => leBytes 8 g.toNat)
          some (modWort s1 a.ctx a.region fun y => raisePitch y a.line a.pitch a.clip)

/-- A contribution that waits for a sealed frame (R395). -/
def addWaits (s : State) (a : LineAdd) : Bool :=
  match s.ctxRegion a.ctx with
  | none => false
  | some r =>
    match (wortOf r a.region).bind fun x => wortLinePa s r x a.line with
    | some pa => sealedPa s pa
    | none => false

/-- The header of a line in the layout of R351. -/
def headerNat (h : Nat × Bool) : Nat := h.1 + 2 ^ 32 * h.2.toNat

/-- A line evicted from its slice: its header goes to the shadow (R351); the elements already stand in memory. -/
def evictWortLine (s : State) (ctx id line : Nat) : State :=
  match s.ctxRegion ctx with
  | none => s
  | some r =>
    match wortOf r id with
    | none => s
    | some x =>
      let va := x.shadow + BitVec.ofNat 64 (8 * line)
      match translateNow s 0 r.asid.toNat false .write va with
      | .mem pa _ _ => homeWrite s
          { who := some (r.asid.toNat, va.toNat), pa := pa, bytes := leBytes 8 (headerNat (sget (0, false) x.heads line)) }
      | _ => s

/-! ## The local wide buffer (R252 to R255) -/

/-- One contribution added to another, element by element (R36). -/
def addLine (a b : LineAdd) : LineAdd :=
  { a with g := List.zipWith addG a.g b.g, clip := a.clip || b.clip, pitch := (a.pitch + b.pitch) % 2 ^ 32 }

/-- The addends that stay when those of some operations are taken back, with their sum; none when nothing is left. -/
def keepParts (p : Nat × Nat → Bool) (parts : List ((Nat × Nat) × LineAdd)) : Option (List ((Nat × Nat) × LineAdd) × LineAdd) :=
  match parts.filter fun x => !p x.1 with
  | [] => none
  | x :: xs => some (x :: xs, xs.foldl (fun acc y => addLine acc y.2) x.2)

/-- A buffer entry without the parts of some operations; none when nothing is left. -/
def dropParts (p : Nat × Nat → Bool) (e : WideEntry) : Option WideEntry :=
  (keepParts p e.parts).map fun k => { e with parts := k.1, owners := e.owners.filter (fun o => !p o), add := k.2 }

/-- A contribution on its way without the parts of some MMS operations; none when nothing is left (R258, R359). -/
def dropContrib (p : Nat × Nat → Bool) (c : Contrib) : Option Contrib :=
  if c.parts.isEmpty then some c
  else (keepParts p c.parts).map fun k =>
    { c with parts := k.1, owners := c.owners.filter (fun o => !(o.2.1 == .mx && p (o.1, o.2.2))), add := k.2 }

/-- Whether a buffer entry holds a contribution of a warp's operations. -/
def entryOfWarp (w : Nat) (e : WideEntry) : Bool := e.owners.any fun o => o.1 == w

/-- One entry sent to its home: a contribution on its way, or lost when its region is no longer open (R254, R359). -/
def sendEntry (s : State) (e : WideEntry) : State :=
  let isOpen := match (s.ctxRegion e.add.ctx).bind fun r => wortOf r e.add.region with
    | some x => x.st == WortState.opened
    | none => false
  if isOpen then { s with contribs := s.contribs ++ [{ add := e.add, owners := e.owners.map fun o => (o.1, Ctr.mx, o.2), parts := e.parts }] }
  else modWort s e.add.ctx e.add.region fun x => { x with lost := true }

/-- The entries of a core's buffer that meet a test flushed and freed (R254). -/
def flushEntries (s : State) (c : CoreId) (p : WideEntry → Bool) : State :=
  let en := (s.getCore c).engine
  let s1 := s.modCore c fun x => { x with engine := { en with buffer := en.buffer.filter fun e => !p e } }
  (en.buffer.filter p).foldl sendEntry s1

/-- The entries that hold contributions of a warp flushed (R254). -/
def flushWarp (s : State) (w : Warp) : State := flushEntries s (s.warpCore w) (entryOfWarp w.id)

/-- Whether some contribution of an instruction has not been applied (R248, R355). -/
def contribPending (s : State) (w : Nat) (c : Ctr) (tag : Nat) : Bool :=
  (s.contribs.any fun x => x.owners.contains (w, c, tag)) ||
    (c == .mx && s.cores.any fun k => k.engine.buffer.any fun e => e.owners.contains (w, tag))

end Sys2Proof.Machine
end

