-- ==== Sys2Proof/Machine/Contain.lean ====
section
/-! DEFINITION. How a region ends: its exit records (R419), HALT of a region (R439) and containment with its queue record
(R456 to R459); and the service-level accesses by virtual address that this uses. -/

namespace Sys2Proof.Machine

/-! ## Service-level accesses by virtual address -/

/-- n bytes from an address cut at 128-byte lines: address and length of each part. -/
def lineParts (va n : Nat) : List (Nat × Nat) :=
  if n = 0 then []
  else (linesOf va n).map fun l =>
    let lo := max va (l * 128)
    (lo, min (va + n) ((l + 1) * 128) - lo)

/-- The same cut at pages of 4 KiB, the finest a translation tells apart. -/
def pageParts (va n : Nat) : List (Nat × Nat) :=
  if n = 0 then []
  else (List.range ((va + n - 1) / 4096 + 1 - va / 4096)).map fun k =>
    let page := va / 4096 + k
    let lo := max va (page * 4096)
    (lo, min (va + n) ((page + 1) * 4096) - lo)

/-- Whether every part of a range can be written, or read, at service level. -/
def vaOk (s : State) (asid : Nat) (want : Want) (va n : Nat) : Bool :=
  (lineParts va n).all fun p =>
    match translateNow s 0 asid false want (BitVec.ofNat 64 p.1) with
    | .mem .. => true
    | .host _ => true
    | _ => false

/-- Bytes of one line sent to their home on another package by the firmware (R391). -/
def fwSend (s : State) (pkg asid va : Nat) (bs : List Byte) : State :=
  let a := BitVec.ofNat 64 va
  if s.deadPkgs.contains pkg then s
  else match sendFor { s with nextId := s.nextId + 1 } pkg asid va (.request s.dev pkg s.nextId asid false a (.store bs)) none with
  | some t => { t with unacked := t.unacked ++ [(s.nextId, fwOwner, asid, va)] }
  | none => s

/-- Bytes written at service level in an ASID, each line translated at its home (R380, R383); a part that does not translate is not written.
DEDUCED (log entry 54). -/
def writeVa (s : State) (asid va : Nat) (bs : List Byte) : State :=
  (lineParts va bs.length).foldl (fun acc p =>
    let part := (bs.drop (p.1 - va)).take p.2
    let r := translateHome acc asid false .write (BitVec.ofNat 64 p.1)
    match r.1 with
    | .mem pa _ _ => homeWrite r.2 { who := some (asid, p.1), pa := pa, bytes := part }
    | .host a => if acc.linkw == 0 then acc else { r.2 with hostMem := Memory.writeN acc.hostMem a part }
    | .far k _ => fwSend r.2 k asid p.1 part
    | _ => acc) s

/-- Some byte of a range that the firmware has written is still on its way to its home (R389, R391). -/
def fwPending (s : State) (asid va n : Nat) : Bool :=
  (s.homeWrites.any fun w => match w.who with
    | some p => p.1 == asid && decide (p.2 < va + n) && decide (va < p.2 + w.bytes.length)
    | none => false) ||
    s.unacked.any fun u => u.2.1 == fwOwner && u.2.2.1 == asid && decide (va ≤ u.2.2.2) && decide (u.2.2.2 < va + n)

/-- A piece of a line, of whole units of 8 bytes, asked for unless it is here or on its way. -/
def askPiece (owner asid : Nat) (user : Bool) (pkg : Nat) (s : State) (p : Nat × Nat) : State :=
  let here : Bool := (List.range (p.2 / 8)).all fun k => s.fetchBuf.any fun e => e.1 == owner && e.2.1 == p.1 + 8 * k
  if here || s.unacked.any fun u => u.2.1 == owner && unitTag u.2.2.1 && u.2.2.2 == p.1 then s
  else
    let id := s.nextId
    match sendFor { s with nextId := id + 1 } pkg asid p.1 (.request s.dev pkg id asid user (BitVec.ofNat 64 p.1) (.read p.2)) none with
    | some u => { u with unacked := u.unacked ++ [(id, owner, 0, p.1)] }
    | none => { s with fetchBuf := s.fetchBuf ++ [(owner, p.1, 2, 0)] }

/-- Requests for n units of 8 bytes of another package, each for what lies in one line (R188, R391): those of a fetch, of the matrix engine, of
a kiln or of a collective, which carry no issue tag. -/
def askUnitsOf (s : State) (owner asid : Nat) (user : Bool) (pkg va n : Nat) : State :=
  (lineParts va (8 * n)).foldl (askPiece owner asid user pkg) s

/-- Bytes read at service level in an ASID; a part that does not translate, or that another package holds, reads as zeros. -/
def readVa (s : State) (asid va n : Nat) : List Byte :=
  (lineParts va n).flatMap fun p =>
    match translateNow s 0 asid false .read (BitVec.ofNat 64 p.1) with
    | .mem pa _ _ => loadOwn s pa p.2
    | .host a => if s.linkw == 0 then List.replicate p.2 0 else Memory.readN s.hostMem a p.2
    | _ => List.replicate p.2 0

/-- The parts of a range that another package holds: its package, and the units of 8 bytes that the part lies in. -/
def farParts (s : State) (asid va n : Nat) : List (Nat × Nat × Nat) :=
  (pageParts va n).flatMap fun q =>
    match translateNow s 0 asid false .read (BitVec.ofNat 64 q.1) with
    | .far k _ => (lineParts q.1 q.2).map fun p => (k, p.1 / 8 * 8, (p.1 + p.2 + 7) / 8 - p.1 / 8)
    | _ => []

/-- Everything of a range that another package holds has come for an owner, or is known not to come. -/
def vaHere (s : State) (owner asid va n : Nat) : Bool :=
  (farParts s asid va n).all fun p => s.deadPkgs.contains p.1 || (farBytes s owner p.2.1 p.2.2).isSome

/-- What another package holds of a range asked for, for an owner. -/
def vaAsk (s : State) (owner asid va n : Nat) : State :=
  (farParts s asid va n).foldl (fun acc p => if acc.deadPkgs.contains p.1 then acc else askUnitsOf acc owner asid false p.1 p.2.1 p.2.2) s

/-- Bytes read at service level, those of another package as they have come for an owner. -/
def vaBytes (s : State) (owner asid va n : Nat) : List Byte :=
  (lineParts va n).flatMap fun p =>
    match translateNow s 0 asid false .read (BitVec.ofNat 64 p.1) with
    | .far .. =>
      (match farBytes s owner (p.1 / 8 * 8) ((p.1 + p.2 + 7) / 8 - p.1 / 8) with
       | some (0, bs) => (bs.drop (p.1 % 8)).take p.2
       | _ => List.replicate p.2 0)
    | _ => readVa s asid p.1 p.2

/-- The units that have come for an owner of the firmware are used. -/
def vaDone (s : State) (owner : Nat) : State := dropAsks s fun o _ => o == owner

/-- Nothing that the firmware has written in an ASID is on its way (R389, R391). -/
def fwQuiet (s : State) (asid : Nat) : Bool := queueFree s asid && s.unacked.all fun u => !(u.2.1 == fwOwner && u.2.2.1 == asid)

/-- Bytes written by the firmware at a physical address. -/
def writePa (s : State) (pa : Nat) (bs : List Byte) : State :=
  (lineParts pa bs.length).foldl (fun acc p => homeWrite acc { who := none, pa := p.1, bytes := (bs.drop (p.1 - pa)).take p.2 }) s

/-! ## Exit records (R419) -/

def choiceCode : Choice3 → Nat | .none => 0 | .drain => 1 | .save => 2 | .flush => 3

/-- The 320 bytes of the exit record of a workgroup; `end0` is 2 for containment, 3 for HALT and 0 at retirement. -/
def exitRecord (s : State) (r : Region) (g : Option Gang) (wg : Option Workgroup) (end0 : Nat) : List Byte :=
  let ws : List Warp := (s.warps ++ (g.map (·.savedWarps)).getD []).filter fun w => match wg with | some x => w.wg == x.id | none => false
  let lfm : Word := ws.foldl (fun acc w => acc ||| w.lfm) ((wg.map fun x => x.lfm).getD 0)
  let e := wg.bind (·.ended)
  let code := if end0 = 0 && e.isSome then 1 else end0
  let choice := (g.map fun x => choiceCode x.choice).getD 0
  let pre := (g.map (·.preempts)).getD 0
  let ret := (wg.map (·.ret)).getD 0
  let t : TrapEnd := e.getD ⟨false, 0, 0, 0, 0, []⟩
  leBytes 1 code ++ leBytes 1 t.double.toNat ++ leBytes 1 choice ++ leBytes 1 0 ++ leBytes 2 (min pre 0xFFFF) ++
    leBytes 2 r.ctx ++ leBytes 4 lfm.toNat ++ leBytes 4 t.hcause.toNat ++ leBytes 4 t.hmask.toNat ++ leBytes 1 t.warp ++
    leBytes 3 0 ++ leBytes 8 t.hpc.toNat ++ leBytes 8 ret ++ leBytes 24 0 ++
    (List.range 32).flatMap fun l => leBytes 8 (if t.hmask.getLsbD l then ((t.rgns[l]?).getD 0).toNat else 0)

/-- The workgroup of a member of a gang: resident, or kept with the saved gang. -/
def memberOf (s : State) (g : Gang) (m : Nat) : Option Workgroup :=
  match s.wgs.find? fun x => x.gang == g.id && x.member == m with
  | some x => some x
  | none => g.savedWgs.find? fun x => x.member == m

/-- The exit records of a gang, when the region has an area for them. -/
def writeExits (s : State) (r : Region) (gi : Nat) (end0 : Nat) : State :=
  if r.eff.exitArea == 0 then s
  else
    let g := s.gangs.find? fun x => x.region == r.handle && x.g == gi
    (List.range r.eff.cores).foldl (fun acc m =>
      let wg := g.bind fun x => memberOf acc x m
      writeVa acc r.asid.toNat (r.eff.exitArea.toNat + 320 * (gi * r.eff.cores + m)) (exitRecord acc r g wg end0)) s

/-! ## Freeing what a region holds -/

/-- The owner tags of a workgroup's banks cleared. -/
def freeBanks (s : State) (g : Workgroup) : State :=
  s.modCore g.core fun c => { c with owner := g.banks.foldl (fun acc b => sput 0 acc b 0) c.owner }

/-- The engine work of some workgroups discarded without a trap (R259). -/
def discardEngine (s : State) (wg : Nat → Bool) (w : Nat → Bool) : State :=
  { s with cores := s.cores.map fun c =>
      { c with engine :=
        { c.engine with
          queue := c.engine.queue.filter (fun o => !wg o.wg)
          buffer := c.engine.buffer.filterMap (dropParts fun o => w o.1)
          draining := c.engine.draining.filter (fun d => !w d.1.w) } } }

/-- One region's wort entry closed as RACK.X closes it: every header to its shadow (R359). -/
def closeWort (s : State) (r : Region) (x : Wort) : State :=
  if x.st == .closed then s
  else
    let s1 := (List.range x.lines).foldl (fun acc i => evictWortLine acc r.ctx x.id i) s
    modWort s1 r.ctx x.id fun y => { y with st := .closed, rackCores := [] }

/-- The workgroups of the gangs of a region that a test names leave the machine: warps, engine work, banks. -/
def removeGroups (s : State) (p : Workgroup → Bool) : State :=
  let ids := (s.wgs.filter p).map (·.id)
  let ws := (s.warps.filter fun w => ids.contains w.wg).map (·.id)
  let s1 := discardEngine s (fun i => ids.contains i) (fun i => ws.contains i)
  let s2 := (s1.wgs.filter p).foldl freeBanks s1
  { s2 with
    wgs := s2.wgs.filter (fun g => !p g)
    warps := s2.warps.filter (fun w => !ids.contains w.wg)
    dies := s2.dies.map (fun d => { d with faults := d.faults.filter (fun f =>
      match f.who with | .lanes w _ => !ws.contains w | _ => true) }) }

/-! ## Copies into scratchpads (R186) -/

def modCopy (s : State) (id : Nat) (f : Copy → Copy) : State := { s with copies := updAt (fun c => c.id == id) f s.copies }

/-- Copies into one core's scratchpad that are tracked at once (R186). -/
def copySlots : Nat := 32

/-- The core whose scratchpad a copy writes. -/
def targetCore (e : CopyEnd) : Option CoreId := match e with | .bank r => some r.core | _ => none

/-- Tracked copies into a core's scratchpad. -/
def tracked (s : State) (c : CoreId) : Nat := (s.copies.filter fun x => !x.waiting && targetCore x.dst == some c).length

/-- The next waiting copy into a scratchpad starts when a place is free (R186). -/
def startWaiting (s : State) (e : CopyEnd) : State :=
  match targetCore e with
  | none => s
  | some k =>
    if copySlots ≤ tracked s k then s
    else match s.copies.find? fun c => c.waiting && targetCore c.dst == some k with
    | some c => modCopy s c.id fun y => { y with waiting := false }
    | none => s

/-- Some copies gone, with the copies that waited for their places started. -/
def dropCopies (s : State) (p : Copy → Bool) : State :=
  let gone := s.copies.filter p
  gone.foldl (fun acc c => startWaiting acc c.dst) { s with copies := s.copies.filter fun c => !p c }

/-- A region stopped by HALT (3) or containment (2): records written, work dropped, everything freed (R439, R457, R458). -/
def stopRegion (end0 : Nat) (s : State) (r0 : Region) : State :=
  match s.getRegion r0.handle with
  | none => s
  | some r =>
    if r.status != 0 then s
    else
      let retired (gi : Nat) : Bool := s.gangs.any fun x => x.region == r.handle && x.g == gi && (x.st == .retired || x.retire == 2)
      let s1 := if r.leaf then (List.range r.eff.gangs).foldl (fun acc gi => if retired gi then acc else writeExits acc r gi end0) s
        else s
      let mine (g : Nat) : Bool := s.gangs.any fun x => x.id == g && x.region == r.handle
      let s2 := removeGroups s1 fun g => mine g.gang
      let s3 := r.worts.foldl (fun acc x => closeWort acc r x) s2
      let s4 := dropCopies s3 fun c => c.ctx == r.ctx && !(end0 == 3 && (match c.kind with | .cpyq _ => false | _ => true))
      { s4 with
        contribs := s3.contribs.filter (fun c => c.add.ctx != r.ctx)
        racks := s3.racks.filter (fun k => k.region != r.handle)
        colls := s3.colls.filter (fun c => c.region != r.handle)
        dies := s3.dies.map (fun d => { d with faults := d.faults.filter fun f => f.ctx != r.ctx })
        gangs := s3.gangs.map (fun g => if g.region == r.handle && g.st != .retired then
          { g with st := .halted, savedWarps := [], savedWgs := [], slot := none } else g)
        regions := s3.regions.map (fun x => if x.handle == r.handle then { x with status := 2, allocs := [] } else x) }

/-- Whether a region lies below another, or is it; n bounds the depth. -/
def below (s : State) (top : Nat) : Nat → Region → Bool
  | 0, r => r.handle == top
  | n + 1, r => r.handle == top || (match r.parent.bind s.getRegion with | some p => below s top n p | none => false)

/-- HALT of a handle: the region and every live region below it; a handle that names no live region does nothing (R439). -/
def haltHandle (s : State) (handle : Nat) : State :=
  if s.regions.any fun r => r.handle == handle && r.status == 0 then
    (s.regions.filter fun r => below s handle s.regions.length r).foldl (stopRegion 3) s
  else s

/-! ## Containment (R457 to R459) -/

/-- The kind and id of an agent in a containment record. -/
def agentCode : Agent → Nat × Nat
  | .context _ => (0, 0)
  | .core c => (1, c.die * 256 + c.clu * 16 + c.core)
  | .cluster c => (2, c.die * 256 + c.clu * 16)
  | .memory d => (3, d * 256)
  | .cellar d => (4, d * 256)
  | .port p => (5, p)
  | .peer p => (6, p)

/-- The 32 bytes of a containment record. -/
def containRecord (s : State) (a : Agent) (domain : Nat) : List Byte :=
  let k := agentCode a
  leBytes 1 0x13 ++ leBytes 1 k.1 ++ leBytes 2 k.2 ++ leBytes 2 domain ++
    leBytes 2 (match a with | .context c => c | _ => 0) ++ leBytes 8 s.clock.toNat ++ leBytes 16 0

/-- A record appended to a function's containment queue; a full queue loses it. -/
def queueRecord (s : State) (k : Nat) (bs : List Byte) : State :=
  let f := s.fn k
  let s1 := { s with hostOut := s.hostOut ++ [.msix k 1] }
  if bitsAt f.cqbase.toNat 12 36 = 0 || 128 ≤ (f.cqhead - f.cqtail).toNat then s1
  else (writePa s1 (bitsAt f.cqbase.toNat 12 36 * 4096 + 32 * (f.cqhead.toNat % 128)) bs).modFn k fun x =>
    { x with cqhead := x.cqhead + 1 }

/-- The contexts' regions that containment starts from: the live ones, else the stopped ones. -/
def affectedRegions (s : State) (ctxs : List Nat) : List Region :=
  let live := s.regions.filter fun r => ctxs.contains r.ctx && r.status == 0
  if live.isEmpty then (s.regions.filter fun r => ctxs.contains r.ctx && r.status == 2).take 1 else live

/-- The record of a containment: counted, in the PF's queue, and in those of the rings concerned. DESIGN CHOICE (log entry 59). -/
def reportContain (a : Agent) (rings : List Nat) (s : State) (domain : Nat) : State :=
  let bs := containRecord s a domain
  let s1 := queueRecord { s with contain := s.contain + 1 } 0 bs
  (rings.filter (· != 0)).eraseDups.foldl (fun acc k => queueRecord acc k bs) s1

/-- Containment of one fault domain. DESIGN CHOICE (log entry 59). -/
def containDomain (a : Agent) (rings : List Nat) (s : State) (domain : Nat) : State :=
  reportContain a rings ((s.regions.filter fun r => r.status == 0 && r.eff.domain == domain).foldl (stopRegion 2) s) domain

/-- Containment for an agent with the contexts it affects (R457). Where no context is affected nothing stops; the record that is still
written has no stated domain. -/
def contain (s : State) (a : Agent) (ctxs : List Nat) : State :=
  let rs := affectedRegions s ctxs
  if rs.isEmpty then let r := s.drawDWord; reportContain a [] r.2 (r.1.toNat % 2 ^ 16)
  else (rs.map fun r => r.eff.domain).eraseDups.foldl (fun acc d =>
    containDomain a ((rs.filter fun r => r.eff.domain == d).map (·.ring)) acc d) s

/-- Containment of one context. -/
def containCtx (s : State) (ctx : Nat) : State := contain s (.context ctx) [ctx]

end Sys2Proof.Machine
end

