-- ==== Sys2Proof/Machine/ClusterOps.lean ====
section
/-! DEFINITION. The cask layer's way roles and transitions (R276 to R281), cluster-scratch bytes and ownership (R277, R282 to
R285), way failures (R293) and the registers of the cluster control page (R270). -/

namespace Sys2Proof.Machine

/-! ## Way roles -/

/-- The scratch ways, ascending. -/
def scratchWays (wpr : Word) : List Nat := (List.range 16).filter fun k => roleOf wpr k == 2
def countRole (wpr : Word) (r : Nat) : Nat := ((List.range 16).filter fun k => roleOf wpr k == r).length

/-- The lowest refusal code of a WPR write, 0 when it is accepted (R278). -/
def wprRefusal (x : Cluster) (v : Word) : Nat :=
  if x.busy then 1
  else if 8 < countRole v 2 then 2
  else if countRole v 0 < 4 then 3
  else if 0 < countRole v 3 then 4
  else if (scratchWays v).any fun k => !x.healthy.getLsbD k then 5
  else 0

/-- P: leading scratch MiBs that keep their way (R280). -/
def preserved : List Nat → List Nat → Nat
  | a :: as, b :: bs => if a = b then preserved as bs + 1 else 0
  | _, _ => 0

def casketBase : Nat := 0x08000000
def mib : Nat := 0x100000

/-- Ways of the first list that do not stand at the same place of the second: the MiBs they serve are not preserved (R280). -/
def movedWays : List Nat → List Nat → List Nat
  | a :: as, b :: bs => if a = b then movedWays as bs else a :: movedWays as bs
  | as, [] => as
  | [], _ => []

/-- A write to WPR: refused with its code, or accepted with the fence of phase 1 (R278 to R280). -/
def wprWriteC (x : Cluster) (v : Word) : Cluster :=
  let e := wprRefusal x v
  if e ≠ 0 then { x with err := true, ecode := BitVec.ofNat 3 e }
  else
    { x with
      wpr := v
      oldWpr := x.wpr
      busy := true
      phase := 1
      wbDirty := 0
      invClean := 0
      rdcDrop := 0
      fenced := false }

/-- Phase 1 begins: the cores set their copies of the limit to the fence (R280). -/
def wprFenceC (x : Cluster) : Cluster :=
  { x with limit := casketBase + preserved (scratchWays x.oldWpr) (scratchWays x.wpr) * mib, fenced := true }

def wprWrite (s : State) (c : CluId) (v : Word) : State := s.modCluster c fun x => wprWriteC x v

/-- Ways that leave a role in the running transition. -/
def leaving (x : Cluster) (r : Nat) : List Nat := (List.range 16).filter fun k => roleOf x.oldWpr k == r && roleOf x.wpr k != r

/-- Ways whose MiB is not preserved, or that leave the scratch role: their contents are discarded (R280). -/
def discarded (x : Cluster) : List Nat := movedWays (scratchWays x.oldWpr) (scratchWays x.wpr)

/-- A cluster way with every byte zero. -/
def zeroWay (m : Sparse Byte) (way : Nat) : Sparse Byte := m.filter fun e => e.1 / mib != way

/-- The slice of its cluster in which a line of the cask layer stands (R276). -/
def lineSlice (asid line : Nat) : Nat := homeSlice asid (regionOfLine line) % 32

/-- The portions of a cluster's ways that a test names are released (R280, R293): home lines written back where they are dirty and
invalidated, RDC lines dropped; with WBC counting each line once when `count` says so. -/
def releaseLines (s : State) (c : CluId) (count : Bool) (p : Nat → Nat → Bool) : State :=
  let out (e : CaskLine) : Bool := p (lineSlice e.asid e.line) e.way
  let here (asid line way : Nat) : Bool := homeCluster asid (regionOfLine line) == c.clu && p (lineSlice asid line) way
  let ls := s.leases.filter fun l => l.die == c.die && here l.asid l.line l.way
  let fs := s.farLines.filter fun l => l.die == c.die && here l.asid l.line l.way
  let s1 := ls.foldl (fun acc l => dropLease acc l.die l.asid l.line) s
  (fs.foldl (fun acc l => farDrop acc l.die l.asid l.line) s1).modCluster c fun y =>
    let gone := y.lines.filter out
    let n (k : Nat) : Nat := if count then k else 0
    { y with
      lines := y.lines.filter fun e => !out e
      wbDirty := y.wbDirty + n (gone.filter (·.dirty)).length
      invClean := y.invClean + n (gone.filter fun e => !e.dirty).length
      rdcDrop := y.rdcDrop + n (ls.length + fs.length) }

/-- The release of phase 2 (R280): home and RDC lines leave, counted in WBC, and scratch contents are discarded, uncounted (R297). -/
def wprRelease (s : State) (c : CluId) : State :=
  let x := s.getCluster c
  let ways := leaving x 0 ++ leaving x 1
  (releaseLines s c true fun _ k => ways.contains k).modCluster c fun y =>
    { y with phase := 3, cask := (discarded x).foldl zeroWay y.cask }

/-- The end of phase 3 (R280): the scratch ways of MiBs that are not preserved are zero, the limit opens and BUSY clears. -/
def wprEnableC (x : Cluster) : Cluster :=
  let n := scratchWays x.wpr
  { x with
    cask := (movedWays n (scratchWays x.oldWpr)).foldl zeroWay x.cask
    limit := casketBase + n.length * mib
    sways := BitVec.ofNat 4 n.length
    busy := false
    phase := 0 }

/-! ## Cluster-scratch bytes -/

/-- Slice of a cluster-scratch byte (R277). -/
def caskSlice (j : Nat) : Nat := j % mib / 128 % 32

/-- The way that serves a cluster-scratch byte; j counts from the window's start (R277). While phase 1 drains, the accesses that
were accepted before it still reach the ways of the old value (R280); below the fence both values name the same way. -/
def caskWay (x : Cluster) (j : Nat) : Nat := ((scratchWays (if x.phase == 1 then x.oldWpr else x.wpr))[j / mib]?).getD 0

/-- Key of a cluster-scratch byte. -/
def caskKey (x : Cluster) (j : Nat) : Nat := caskWay x j * mib + j % mib

/-- The byte's portion is being copied to the spare way, so that accesses wait (R293). -/
def caskCopying (x : Cluster) (j : Nat) : Bool := x.copying.contains (caskSlice j, caskWay x j)
/-- A portion that some byte of a range lies in is being copied. -/
def caskRangeCopying (x : Cluster) (j n : Nat) : Bool :=
  (List.range ((n + j % 128 + 127) / 128)).any fun k => caskCopying x (j / 128 * 128 + 128 * k)
/-- The byte's portion is lost (R293). -/
def caskDead (x : Cluster) (j : Nat) : Bool := x.disabled.contains (caskSlice j, caskWay x j)

/-- n bytes of cluster scratch; a lost portion holds nothing that the manual states. DESIGN CHOICE (log entry 31). -/
def caskRead (s : State) (c : CluId) (j : Nat) : Nat → List Byte × State
  | 0 => ([], s)
  | n + 1 =>
    let x := s.getCluster c
    let b := if caskDead x j then s.drawByte else (sget 0 x.cask (caskKey x j), s)
    let t := caskRead b.2 c (j + 1) n
    (b.1 :: t.1, t.2)

def caskWriteC (x : Cluster) (j : Nat) : List Byte → Cluster
  | [] => x
  | b :: bs => caskWriteC (if caskDead x j then x else { x with cask := sput 0 x.cask (caskKey x j) b }) (j + 1) bs

def caskWrite (s : State) (c : CluId) (j : Nat) (bs : List Byte) : State := s.modCluster c fun x => caskWriteC x j bs

/-- The checks of R282 and R283 on a range of the window: 0 allowed, 2 not the owner, 1 above the limit copy. -/
def caskCheck (x : Cluster) (ctx off n : Nat) : Nat :=
  if x.cso.toNat ≠ ctx ∨ ctx = 0 then 2 else if off + n ≤ x.limit then 0 else 1

/-- CSV after a violation (R285). -/
def csvWord (off ctx core warp why : Nat) : DWord :=
  BitVec.ofNat 64 (off + 2 ^ 32 * ctx + 2 ^ 48 * core + 2 ^ 51 * min warp 31 + 2 ^ 56 * why + 2 ^ 63)

def recordViolation (s : State) (c : CoreId) (off ctx warp why : Nat) : State :=
  s.modCluster (cluOf c) fun x => { x with csv := csvWord off ctx c.core warp why }

/-! ## Ownership and failures -/

def csoWrite (s : State) (c : CluId) (v : Word) : State := s.modCluster c fun x => { x with cso := v.setWidth 16 }
def wpsErrClear (s : State) (c : CluId) : State := s.modCluster c fun x => { x with err := false }
def csvValidClear (s : State) (c : CluId) : State := s.modCluster c fun x => { x with csv := x.csv &&& 0x7FFFFFFFFFFFFFFF }

/-- A way of a slice passes its error threshold (R293); the slice's one spare taken leaves its pool empty (R461). WBC counts the lines that a way
releases to its spare, and none that a way without a spare releases. DESIGN CHOICE (log entry 106). -/
def caskWayFail (s : State) (c : CluId) (slice way : Nat) : State :=
  let x := s.getCluster c
  let sick := { x with healthy := x.healthy &&& ~~~ (1#16 <<< way) }
  let scratch := roleOf x.wpr way == 2
  if x.disabled.contains (slice, way) || x.copying.contains (slice, way) then s
  else if x.spares.any fun p => p.1 == slice then
    let s0 := releaseLines (s.setCluster sick) c false fun i k => i == slice && k == way
    let s1 := { s0.modCluster c (fun y => { y with disabled := x.disabled ++ [(slice, way)] }) with degraded := true }
    if scratch && x.cso != 0 then containCtx s1 x.cso.toNat else s1
  else
    let sick2 := { sick with spares := x.spares ++ [(slice, way)] }
    if scratch then { s.setCluster { sick2 with copying := x.copying ++ [(slice, way)] } with degraded := true }
    else { releaseLines (s.setCluster sick2) c true (fun i k => i == slice && k == way) with degraded := true }

/-! ## The control page (R270) -/

/-- WPS (R279). -/
def wpsWord (x : Cluster) : Nat :=
  x.healthy.toNat + 2 ^ 16 * x.busy.toNat + 2 ^ 17 * x.phase.toNat + 2 ^ 19 * x.err.toNat + 2 ^ 20 * x.ecode.toNat +
    2 ^ 23 * x.sways.toNat

/-- WBC (R279). -/
def wbcWord (x : Cluster) : Nat := x.wbDirty % 2 ^ 20 + 2 ^ 20 * (x.invClean % 2 ^ 20) + 2 ^ 40 * (x.rdcDrop % 2 ^ 20)

/-- The aligned 8 bytes of the cluster control page at an offset. -/
def cluRead (x : Cluster) (off : Nat) : Nat :=
  if off = 0x000 then x.cmap.toNat
  else if off = 0x008 then x.wpr.toNat + 2 ^ 32 * wpsWord x
  else if off = 0x010 then wbcWord x
  else if off = 0x018 then x.cso.toNat
  else if off = 0x020 then x.csv.toNat
  else if off = 0x030 then x.filtered.toNat + 2 ^ 32 * x.forwarded.toNat
  else if off = 0x038 then x.backinv.toNat
  else 0

/-- A store of 4 aligned bytes to the cluster control page. -/
def cluWrite32 (s : State) (c : CluId) (off : Nat) (v : Word) : State :=
  if off = 0x008 then wprWrite s c v
  else if off = 0x00C then (if v.getLsbD 19 then wpsErrClear s c else s)
  else if off = 0x018 then csoWrite s c v
  else if off = 0x024 then (if v.getLsbD 31 then csvValidClear s c else s)
  else s

end Sys2Proof.Machine
end

