-- ==== Sys2Proof/Machine/DieOps.lean ====
section
/-! DEFINITION. The die's buses: frames, slots, voids, delivery (R303 to R306), coherence requests and their grants (R307 to
R312), the broadcast window (R314 to R317), spare groups (R318 to R322) and the registers of the die and memory control pages
(R301, R376). -/

namespace Sys2Proof.Machine

/-! ## Frames (R304) -/

/-- The frame that runs at a tick: frame F begins at tick ceil(9F / 2). -/
def frameAt (tick : Nat) : Nat := 2 * tick / 9
def frameNow (s : State) : Nat := frameAt s.clock.toNat

def busOf (d : Die) (b : Nat) : Bus := (d.buses[b]?).getD {}
def modBus (s : State) (die b : Nat) (f : Bus → Bus) : State :=
  s.modDie die fun d => { d with buses := d.buses.modify b f }

def grpState (x : Bus) (g : Nat) : GrpState := (x.st[g]?).getD .cobalt

/-- Mesh neighbours of a cluster (R323). -/
def meshNeighbours (c : Nat) : List Nat :=
  (List.range 16).filter fun k =>
    (k / 4 == c / 4 && (k % 4 == c % 4 + 1 || k % 4 + 1 == c % 4)) || (k % 4 == c % 4 && (k / 4 == c / 4 + 1 || k / 4 + 1 == c / 4))

/-- The lowest mesh neighbour of a writer whose group of the bus is cobalt (R321). -/
def proxyFor (x : Bus) (g : Nat) : Option Nat := (meshNeighbours g).find? fun k => grpState x k == .cobalt

/-- The logical group in which a writer's messages go: its own, or while that is slate its proxy's, or another neighbour's where the proxy
has become slate too (R321). -/
def sendGroup (x : Bus) (g : Nat) : Nat :=
  if grpState x g != .slate then g
  else match x.proxy.find? fun p => p.1 == g with
  | some p => if grpState x p.2 == .slate then (proxyFor x g).getD g else p.2
  | none => (proxyFor x g).getD g

/-- A message queued for a bus by a cluster. -/
def queueMsg (s : State) (die b clu : Nat) (m : BusMsg) : State :=
  modBus s die b fun x => { x with queue := x.queue ++ [(clu, m)] }

/-! ## Spare groups (R318 to R321) -/

/-- Spare physical groups of a bus that are still usable, lowest first. -/
def spareGroups (x : Bus) : List Nat :=
  (List.range 18).filter fun p => !x.phys.contains p && !x.retired.contains p && !(x.tuning.any fun t => t.2 == p)

/-- Reassignment of a logical group started (R319), or the group slate with a proxy (R321). -/
def reassignStart (s : State) (die b g : Nat) : State :=
  let x := busOf (s.getDie die) b
  if grpState x g != .cobalt || 8 ≤ b || 16 ≤ g then s
  else match spareGroups x with
  | p :: rest =>
    { (modBus s die b fun y => { y with st := y.st.set g .amber, tuning := y.tuning ++ [(g, p)] }) with
      degraded := s.degraded || rest.isEmpty }
  | [] =>
    { (modBus s die b fun y =>
        { y with
          st := y.st.set g .slate
          proxy := match proxyFor x g with | some k => y.proxy ++ [(g, k)] | none => y.proxy }) with degraded := true }

/-- Reassignment locked (R319 step 5). -/
def reassignLock (s : State) (die b g : Nat) : State :=
  let x := busOf (s.getDie die) b
  match x.tuning.find? fun t => t.1 == g with
  | some t =>
    modBus s die b fun y =>
      { y with
        retired := y.retired ++ [(y.phys[g]?).getD g]
        phys := y.phys.set g t.2
        st := y.st.set g .cobalt
        tuning := y.tuning.filter fun u => u.1 != g
        recent := y.recent.filter fun r => r.1 != g }
  | none => s

/-! ## Slots and voids (R304, R305) -/

/-- Voids of one group within 100 µs start reassignment (R301, R319). -/
def voidLimit (d : Die) : Nat := max d.vthr.toNat 1
def voidWindow : Nat := 100 * Config.ticksPerUs

/-- Voids of a group that still count. -/
def recentVoids (s : State) (x : Bus) (g : Nat) : Nat :=
  (x.recent.filter fun r => r.1 == g && decide (s.clock.toNat < r.2.toNat + voidWindow)).length

/-- The frames of a void: its own and every later one up to the present, in which the writer learns of it (R305); none for a slot that is
void already. The slots of a bus whose reader is being retuned are void without this (R322). -/
def voidFrames (x : Bus) (g frame now : Nat) : List Nat :=
  let void (f : Nat) : Bool := (x.slots.any fun y => y.grp == g && y.frame == f && y.void) || x.quiet.any (· ≤ f)
  if void frame then [] else ((List.range 8).map (frame + ·)).filter fun f => decide (f ≤ now) && !void f

/-- A slot voided with every later slot of its logical group, idle ones included, before the decision on its frame is final (R305,
R318): the messages go back to the head of the queue in order; VTHR voids start a reassignment (R319). -/
def voidSlot (s : State) (die b g frame : Nat) : State :=
  let x := busOf (s.getDie die) b
  let fs := voidFrames x g frame (frameNow s)
  let hit (y : BusSlot) : Bool := y.grp == g && fs.contains y.frame
  if fs.isEmpty || frame + 8 ≤ frameNow s then s
  else
    let t := modBus s die b fun y =>
      { y with
        slots := (y.slots.filter fun z => !hit z) ++ fs.map fun f => ⟨f, b, g, [], true⟩
        queue := ((x.slots.filter hit).flatMap (·.msgs)) ++ y.queue
        voids := y.voids + BitVec.ofNat 16 fs.length
        recent := y.recent ++ fs.map fun _ => (g, s.clock) }
    if voidLimit (t.getDie die) ≤ recentVoids t (busOf (t.getDie die) b) g then reassignStart t die b g else t

def isProbe (m : BusMsg) : Bool := match m with | .probe _ => true | _ => false

/-- What the next slot of a group carries from its queue: up to eight probe records, or one line message (R304). -/
def slotLoad (ms : List (Nat × BusMsg)) : List (Nat × BusMsg) :=
  match ms with
  | [] => []
  | m :: _ => if isProbe m.2 then (ms.takeWhile fun k => isProbe k.2).take 8 else [m]

/-- The slots of a bus that its quiet frames have voided, each group's slot once in every frame (R318, R322). -/
def quietVoids (x : Bus) (frame : Nat) : Nat := match x.quiet with | some q => 16 * (frame + 1 - q) | none => 0

/-- The last reader of a bus that was being retuned is ready: the bus carries messages again from the next frame on (R322). -/
def endQuiet (s : State) (die b : Nat) : State :=
  if s.clusters.any fun c => c.id.die == die && c.retuning.any fun r => r.1 == b then s
  else
    let f := frameNow s
    modBus s die b fun y =>
      { y with
        voids := y.voids + BitVec.ofNat 16 (quietVoids y f)
        quiet := none
        slots := if y.quiet.any (· ≤ f) then
            (y.slots.filter fun z => z.frame != f) ++ (List.range 16).map fun g => ⟨f, b, g, [], true⟩
          else y.slots }

/-- A slot sent in a frame and read by a reader whose frame check passes or fails (R304, R305): a new slot carries the oldest
messages of its group, or nothing, as it does while the group is amber (R319) or a reader of the bus is being retuned (R322). -/
def receiveSlot (s : State) (die b g frame : Nat) (ok : Bool) : State :=
  let x := busOf (s.getDie die) b
  let sent := x.slots.any fun y => y.grp == g && y.frame == frame
  let busy := x.slots.any fun y => y.grp == g && decide (frame < y.frame)
  let quiet := x.quiet.any (· ≤ frame) || grpState x g != .cobalt
  let s1 :=
    if sent || busy || frame != frameNow s || 8 ≤ b || 16 ≤ g then s
    else
      let ms := if quiet then [] else slotLoad (x.queue.filter fun p => sendGroup x p.1 == g)
      modBus s die b fun y =>
        { y with
          slots := y.slots ++ [⟨frame, b, g, ms, false⟩]
          queue := ms.foldl (fun acc m => acc.erase m) y.queue }
  if ok then s1 else voidSlot s1 die b g frame

/-! ## Requests and grants (R307 to R310) -/

/-- The L1 line that a grant fills, from the translation of the line's address. -/
def lineFrom (asid line pa kind : Nat) (glob : Bool) (pte : Nat) : L1Line :=
  { asid := if glob then 0 else asid, line := line, st := .s, pa := pa / 128 * 128, kind := kind, user := bitAt pte 3,
    writable := bitAt pte 1 }

/-- Whether a die may serve a line from its own slices: it is the home, it owns the line, or it holds a lease (R388, R390). -/
def dieHolds (s : State) (die asid line pa : Nat) : Bool :=
  let home := pa / 2 ^ 36 % 16
  home == die || (dirOf (s.getDie home) asid line).owner == some die || leaseHolds s die asid line

/-- Whether a die's copies of a line are lease copies (R388). -/
def onLease (s : State) (die asid line pa : Nat) : Bool :=
  let home := pa / 2 ^ 36 % 16
  home != die && (dirOf (s.getDie home) asid line).owner != some die

/-- An earlier request of a region still waits for its delivery, so that a later access waits behind it (R308). -/
def regionBusy (s : State) (die tag line : Nat) : Bool :=
  (s.getDie die).reqs.any fun q => q.onBus && q.ln.asid == tag && regionOfLine q.ln.line == regionOfLine line

/-- No other cluster of the die may hold a line of the region, so that the home answers point-to-point (R308). -/
def alone (s : State) (c : CoreId) (asid region : Nat) : Bool := presence (s.getDie c.die) asid region &&& ~~~ (1#16 <<< c.clu) == 0

/-- A request announced by a probe record in the home cluster's group of the region's bus (R308). -/
def announce (s : State) (r : Req) : State :=
  let region := regionOfLine r.ln.line
  queueMsg (s.modDie r.core.die fun x => { x with busreq := x.busreq + 1, reqs := x.reqs ++ [r] }) r.core.die (homeBus r.ln.asid region)
    (homeCluster r.ln.asid region) (.probe r)

/-- The home slice has decided an access to a line that fills no L1: its probe record has been delivered, or no other cluster needs one
(R307, R308). -/
def decided (s : State) (c : CoreId) (tag line : Nat) : Bool :=
  (s.getDie c.die).looked.contains (c, tag, line) || (alone s c tag (regionOfLine line) && !regionBusy s c.die tag line)

/-- An access to some lines that fills no L1 taken to their home slices: true once each line is decided; until then what is missing is
announced (R308). -/
def settleLines (s : State) (c : CoreId) (tag : Nat) (lines : List Nat) : Bool × State :=
  if lines.all fun l => decided s c tag l then
    (true, s.modDie c.die fun d =>
      { d with
        p2p := d.p2p + BitVec.ofNat 32 (lines.filter fun l => !d.looked.contains (c, tag, l)).length
        looked := d.looked.filter fun x => !(x.1 == c && x.2.1 == tag && lines.contains x.2.2) })
  else
    (false, lines.foldl (fun acc l =>
      if decided acc c tag l || regionBusy acc c.die tag l then acc
      else announce acc { kind := .look, core := c, ln := lineFrom tag l 0 0 false 0, onBus := true }) s)

/-- What an attempt that came to nothing leaves of the decisions it used: they stand for the next attempt (R308). -/
def unsettle (s t : State) : State :=
  { t with dies := t.dies.map fun d => { d with p2p := (s.getDie d.id).p2p, looked := (s.getDie d.id).looked } }

/-- The home takes a line back from a die that owns it (R390). DEDUCED (log entry 38). -/
def recallOwner (s : State) (pa asid line : Nat) : State :=
  let home := pa / 2 ^ 36 % 16
  let x := dirOf (s.getDie home) asid line
  match x.owner with
  | none => s
  | some o => putDir (dropOthers s o asid line none) home { x with owner := none, pa := pa / 128 * 128 }

/-- A request served: the cluster's presence bit set, the line in the home's cask ways and granted (R276, R309 to R311). -/
def serveReq (s : State) (kind : ReqKind) (c : CoreId) (ln : L1Line) (lim : Nat) : State :=
  let s0 := setPresence s c.die ln.asid (regionOfLine ln.line) c.clu
  let s1 := if ln.pa / 2 ^ 36 % 16 == c.die then caskFill s0 c.die ln.asid ln.line false lim ln.early else s0
  match kind with
  | .getS => grantGetS s1 c ln (onLease s c.die ln.asid ln.line ln.pa)
  | _ => markWritten (grantGetM s1 c ln) ln.pa 128

/-- Whether a request may be served on a die now: at the home while no other die owns the line; elsewhere by the owner, and loads
under a lease (R388, R390). -/
def mayServe (s : State) (kind : ReqKind) (die asid line pa : Nat) : Bool :=
  let home := pa / 2 ^ 36 % 16
  let o := (dirOf (s.getDie home) asid line).owner
  if home == die then o == none else o == some die || (kind == .getS && o == none && leaseHolds s die asid line)

/-- A probe record delivered: every cluster's filter answers it and the request is served (R287, R309), or for an access that fills no L1
its line is decided, a dirty holder owning it from then on. A request whose access can no longer act, or whose region has lost its entry to
a recall, is served by none and comes again (R310, R312). -/
def deliverProbe (s : State) (r : Req) (acts : Bool) : State :=
  let probe (acc : State) (k : Nat) : State := probeCluster acc ⟨r.core.die, k⟩ r.ln.asid r.ln.line
  let s1 := ((List.range 16).foldl probe s).modDie r.core.die fun d => { d with reqs := d.reqs.filter fun q => !(q == r) }
  if r.kind == .look then
    let down (acc : State) (h : CoreId) : State := setL1 acc h r.ln.asid r.ln.line fun y => { y with st := afterGetS y.st }
    ((holdersOf s1 r.core.die r.ln.asid r.ln.line).foldl down s1).modDie r.core.die fun d =>
      { d with looked := d.looked ++ [(r.core, r.ln.asid, r.ln.line)] }
  else if acts && mayServe s1 r.kind r.core.die r.ln.asid r.ln.line r.ln.pa &&
      (recallVictim (s1.getDie r.core.die) r.ln.asid (regionOfLine r.ln.line)).isNone then
    serveReq s1 r.kind r.core r.ln r.lim
  else s1

/-- The home slice takes a request (R308, R312): behind an earlier one of its region it waits; a full region table recalls
first; then it is answered point-to-point or announced. -/
def homeRequest (s : State) (kind : ReqKind) (c : CoreId) (ln : L1Line) (lim : Nat) : State :=
  let d := s.getDie c.die
  let region := regionOfLine ln.line
  if regionBusy s c.die ln.asid ln.line then s
  else match recallVictim d ln.asid region with
  | some v =>
    let m := BusMsg.recall v.asid v.region
    let vb := homeBus v.asid v.region
    if ((busOf d vb).queue.any fun p => p.2 == m) || ((busOf d vb).slots.any fun y => y.msgs.any fun p => p.2 == m) then s
    else queueMsg s c.die vb (homeCluster v.asid v.region) m
  | none =>
    if alone s c ln.asid region then serveReq (s.modDie c.die fun x => { x with p2p := x.p2p + 1 }) kind c ln lim
    else announce s ⟨kind, c, ln, true, lim⟩

/-! ## The broadcast window (R314 to R316) -/

def bwtOf (d : Die) (e : Nat) : Bwt := ((d.bwt.find? fun p => p.1 == e).map (·.2)).getD {}
def modBwt (s : State) (die e : Nat) (f : Bwt → Bwt) : State :=
  s.modDie die fun d => { d with bwt := putAt (fun p => p.1 == e) (e, f (bwtOf d e)) d.bwt }

/-- The defined bits of the two words of an entry. -/
def bwtMask0 (v : DWord) : DWord := v &&& 0x01FFFFFFFFFFF001
def bwtMask1 (v : DWord) : DWord := v &&& 0x000007FFFFFFFFFF

/-- A store that stages word 1 or the high half of word 0 (R314). -/
def bwtStage (s : State) (die e : Nat) (word1 : Bool) (v : DWord) : State :=
  modBwt s die e fun x =>
    if word1 then { x with staged1 := some (bwtMask1 v) } else { x with stagedHi := some (v.setWidth 32) }

/-- An earlier commit of the entry is still on its way to the filters. DEDUCED (log entry 42). -/
def bwtBusy (s : State) (die e : Nat) : Bool :=
  match (bwtOf (s.getDie die) e).due with
  | some f => decide (frameNow s < f + 8)
  | none => false

/-- A commit (R314): word 0 with the staged half and word together, in effect from the next frame boundary. DEDUCED (log entry 42). -/
def bwtCommit (s : State) (die e : Nat) (v : DWord) (whole : Bool) : State :=
  if bwtBusy s die e then s
  else modBwt s die e fun x =>
    let hi : Word := if whole then v.extractLsb' 32 32 else x.stagedHi.getD (x.w0.extractLsb' 32 32)
    { x with
      live0 := x.w0
      live1 := x.w1
      w0 := bwtMask0 (hi ++ v.setWidth 32)
      w1 := x.staged1.getD x.w1
      staged1 := none
      stagedHi := none
      due := some (frameNow s + 1) }

/-- The words of an entry that messages of a frame use. -/
def bwtWords (x : Bwt) (frame : Nat) : DWord × DWord :=
  match x.due with
  | some f => if frame < f then (x.live0, x.live1) else (x.w0, x.w1)
  | none => (x.w0, x.w1)

/-- The lowest-numbered valid entry of a page for messages of a frame (R314). -/
def bwtFor (d : Die) (frame asid va : Nat) : Option (DWord × DWord) :=
  ((List.range 64).find? fun e =>
    let w := bwtWords (bwtOf d e) frame
    w.1.getLsbD 0 && bitsAt w.1.toNat 12 45 == bitsAt va 12 45 && bitsAt w.2.toNat 16 16 == asid).map
    fun e => bwtWords (bwtOf d e) frame

/-- A window line written into one cluster's scratch, or dropped by the limit rule (R316). -/
def windowInto (die : Nat) (o : Nat) (data : List Byte) (s : State) (k : Nat) : State :=
  let x := s.getCluster ⟨die, k⟩
  if x.out then s
  else if o + 128 ≤ x.limit then
    (caskWrite s ⟨die, k⟩ (o - casketBase) data).modDie die fun d => { d with accepted := d.accepted + 1 }
  else s.modDie die fun d => { d with dropped := d.dropped + 1 }

/-- A window line delivered (R316): every accepting cluster takes it, and so does the home, where its store has one line less to wait for
once the line is written (R335). -/
def deliverWindow (s : State) (die frame w tag asid line pa : Nat) (data : List Byte) : State :=
  let va := line * 128
  let s1 := homeWrite s { who := some (asid, va), pa := pa, bytes := data, store := some (w, tag) }
  match bwtFor (s1.getDie die) frame asid va with
  | some e =>
    let o := casketBase + bitsAt e.2.toNat 32 11 * 4096 + va % 4096
    ((List.range 16).filter fun k => e.2.getLsbD k).foldl (windowInto die o data) s1
  | none => s1

/-- One message delivered; `acts` says whether the access behind a request acts once it is served, and `after` what it then brings about at
once (R310). -/
def deliverMsg (acts : State → Req → Bool) (after : State → Req → State) (die frame : Nat) (s : State) (m : BusMsg) : State :=
  match m with
  | .probe r => after (deliverProbe s r (acts s r)) r
  | .window w tag asid line pa data => deliverWindow s die frame w tag asid line pa data
  | .recall asid region => recallRegion s die asid region

/-- The oldest frame whose decision is final (R305). -/
def dueFrame (s : State) (die : Nat) : Option Nat :=
  ((s.getDie die).buses.flatMap fun b => (b.slots.filter fun y => decide (y.frame + 8 ≤ frameNow s)).map (·.frame)).foldl
    (fun acc f => match acc with | none => some f | some g => some (min f g)) none

/-- The messages of a frame in the order of R306: by bus, then by logical group, then by place in the slot. -/
def frameMsgs (d : Die) (frame : Nat) : List BusMsg :=
  d.buses.flatMap fun b => (List.range 16).flatMap fun g =>
    (b.slots.filter fun y => y.frame == frame && y.grp == g && !y.void).flatMap fun y => y.msgs.map (·.2)

/-- The oldest due frame delivered on a die (R305, R306). -/
def busDeliver (acts : State → Req → Bool) (after : State → Req → State) (s : State) (die : Nat) : State :=
  match dueFrame s die with
  | none => s
  | some f =>
    let ms := frameMsgs (s.getDie die) f
    let s1 := s.modDie die fun d => { d with buses := d.buses.map fun b => { b with slots := b.slots.filter fun y => y.frame != f } }
    ms.foldl (deliverMsg acts after die f) s1

/-! ## The die control page (R301) -/

def grpCode : GrpState → Nat | .cobalt => 0 | .amber => 1 | .slate => 2

/-- GMAP_b, low or high word (R303). -/
def gmapWord (x : Bus) (high : Bool) : Nat :=
  (List.range 8).foldl (fun acc k => acc + 2 ^ (8 * k) * ((x.phys[if high then k + 8 else k]?).getD 0)) 0

/-- GST_b as it reads in a frame (R318). -/
def gstWord (x : Bus) (frame : Nat) : Nat :=
  (List.range 16).foldl (fun acc g => acc + 4 ^ g * grpCode (grpState x g)) 0 +
    2 ^ 32 * (x.phys.contains 16).toNat + 2 ^ 33 * (x.phys.contains 17).toNat + 2 ^ 48 * ((x.voids.toNat + quietVoids x frame) % 2 ^ 16)

/-- The aligned 8 bytes of the die control page at an offset, in a frame. -/
def dieRead (d : Die) (frame off : Nat) : Nat :=
  if off = 0x000 then d.vthr.toNat
  else if off = 0x008 then d.accepted.toNat + 2 ^ 32 * d.dropped.toNat
  else if off = 0x010 then d.p2p.toNat + 2 ^ 32 * d.busreq.toNat
  else if 0x100 ≤ off ∧ off < 0x180 then gmapWord (busOf d ((off - 0x100) / 16)) ((off - 0x100) % 16 == 8)
  else if 0x180 ≤ off ∧ off < 0x1C0 then gstWord (busOf d ((off - 0x180) / 8)) frame
  else if 0x400 ≤ off ∧ off < 0x800 then
    let x := bwtOf d ((off - 0x400) / 16)
    if (off - 0x400) % 16 = 0 then x.w0.toNat else x.w1.toNat
  else 0

/-- A store of 4 or 8 aligned bytes to the die control page. -/
def dieWrite (s : State) (die off n : Nat) (v : DWord) : State :=
  if off = 0x000 then s.modDie die fun d => { d with vthr := v.setWidth 16 }
  else if 0x400 ≤ off ∧ off < 0x800 then
    let e := (off - 0x400) / 16
    let o := (off - 0x400) % 16
    if o = 0 then bwtCommit s die e v (n == 8)
    else if o = 4 then bwtStage s die e false v
    else if n = 8 then bwtStage s die e true v
    else
      let x := bwtOf (s.getDie die) e
      let old := x.staged1.getD x.w1
      let lo : Word := if o = 8 then v.setWidth 32 else old.setWidth 32
      let hi : Word := if o = 8 then old.extractLsb' 32 32 else v.setWidth 32
      bwtStage s die e true (hi ++ lo)
  else s

/-! ## The memory control page (R376, R377, R399) -/

def kcap (n : Nat) : Nat := min n 4095

/-- VBSTAT of a core (R399). -/
def vbstatWord (c : Core) : Nat :=
  kcap c.vbArr.ce + 2 ^ 12 * kcap c.vbCask.ce + 2 ^ 24 * kcap c.vbKiln.ce + 2 ^ 36 * c.vbArr.pend.toNat +
    2 ^ 37 * c.vbCask.pend.toNat + 2 ^ 38 * c.vbKiln.pend.toNat + 2 ^ 39 * (c.vbArr.spare % 16) +
    2 ^ 43 * (c.vbCask.spare % 16) + 2 ^ 47 * (c.vbKiln.spare % 16) +
    2 ^ 51 * (c.vbArr.deferAt.isSome || c.vbCask.deferAt.isSome || c.vbKiln.deferAt.isSome).toNat

/-- The aligned 8 bytes of the memory control page at an offset. -/
def memRead (s : State) (die off : Nat) : Nat :=
  let d := s.getDie die
  if off = 0x000 then d.ptbase.toNat
  else if off = 0x008 then d.lctl.toNat
  else if off = 0x010 then d.fqbase.toNat
  else if off = 0x018 then d.fqhead.toNat + 2 ^ 32 * d.fqtail.toNat
  else if off = 0x028 then d.mseal.toNat
  else if off = 0x030 then d.mbusy.toNat + 2 * d.msealed.toNat
  else if 0x400 ≤ off ∧ off < 0x800 then
    let k := (off - 0x400) / 8
    vbstatWord (s.getCore ⟨die, k / 8, k % 8⟩)
  else 0

end Sys2Proof.Machine
end

