-- ==== Sys2Proof/Machine/Regs.lean ====
section
/-! DEFINITION. The control pages by physical address (R270, R301, R376, R445, R460) and what a store to their registers does:
FQACK and the resumption of a fault with R255, MSEAL, FQTAIL, the alarm register, attestation and recovery. -/

namespace Sys2Proof.Machine

/-! ## Matrix work that a region restart takes back (R255) -/

/-- The MMS operations of a warp that some lanes issued in their present region, before or in the running handler: issue tags. -/
def regionTags (w : Warp) (m : LaneSet) (handler : Bool) : List Nat :=
  (w.reports.filter fun r => (handler == decide (w.handlerTag < r.tag)) && (lanesOf m).any fun l =>
    r.lanes.getLsbD l && (r.rgnc[l]?).getD 0 == (w.lane l).rgnc).map (·.tag)

/-- Those that lanes which restart by R93 issued since the counter they restart at: the handler's entry for a lane that faulted in a running
handler (R164), else their region entry. -/
def restartTags (w : Warp) (m : LaneSet) : List Nat :=
  let inside := if w.inTrap then m &&& w.hmask else 0
  regionTags w inside true ++ regionTags w (m &&& ~~~ inside) true ++ regionTags w (m &&& ~~~ inside) false

def mmsKind0 (k : MxKind) : Bool := match k with | .mms blk _ => (blk[14]?).getD 0 == 0 | _ => false

/-- The report of an operation changed. -/
def modReport (w : Warp) (tag : Nat) (f : MmsReport → MmsReport) : Warp :=
  { w with reports := updAt (fun r => r.tag == tag) f w.reports }

/-- R255: queued or executing accumulator operations removed whole, and buffered contributions taken back. One whose passes are over loses
its contributions and ends as an ordinary operation. DESIGN CHOICE (log entry 96). -/
def restartDiscard (s : State) (wid : Nat) (tags : List Nat) : State :=
  match s.getWarp wid with
  | none => s
  | some w =>
    let c := s.warpCore w
    let en := (s.getCore c).engine
    let gone := en.queue.filter fun o => o.w == wid && tags.contains o.tag && mmsKind0 o.kind
    let s1 := s.modCore c fun x =>
      { x with engine :=
        { en with
          queue := en.queue.filter (fun o => !gone.contains o)
          buffer := en.buffer.filterMap (dropParts fun o => o.1 == wid && tags.contains o.2) } }
    s1.modWarp wid fun y => gone.foldl (fun acc o =>
      countDone (countDone { modReport acc o.tag (fun r => { r with reset := true, cons := true, done := true }) with fold := 0 } .mxi o.tag) .mx o.tag) y

/-! ## The fault queue (R377, R386) -/

/-- The tags whose work a resumption takes back: those of the lanes that no other fault and no trap holds any longer. -/
def resumeTags (s : State) (wid : Nat) (m : LaneSet) : List Nat :=
  match s.getWarp wid with
  | none => []
  | some w => restartTags w (m &&& w.lanesWhere (fun x => x.st == .held .fault) &&& laneSet ((List.range 32).filter fun l => !otherFaultHolds s wid l))

/-- FQACK with ACT 1: the lanes resume by R93, or the copy goes on. -/
def fqackResume (s : State) (die : Nat) (seq : BitVec 16) : State :=
  match (s.getDie die).faults.find? fun f => f.seq == some seq with
  | none => s
  | some f =>
    let s1 := s.modDie die fun d => { d with faults := d.faults.filter fun g => !(g == f) }
    match f.who with
    | .lanes w m => resumeLanes (restartDiscard s1 w (resumeTags s1 w m)) w m
    | .copy id => { s1 with copies := updAt (fun c => c.id == id && c.st == .paused) (fun c => { c with st := .running }) s1.copies }
    | .coll _ => s1
    | .rack _ => s1

/-- FQACK with ACT 2: the context ends by containment. -/
def fqackEnd (s : State) (die : Nat) (seq : BitVec 16) : State :=
  match (s.getDie die).faults.find? fun f => f.seq == some seq with
  | none => s
  | some f => containCtx (s.modDie die fun d => { d with faults := d.faults.filter fun g => !(g == f) }) f.ctx

def fqack (s : State) (die : Nat) (v : Word) : State :=
  if bitsAt v.toNat 16 2 = 1 then fqackResume s die (v.setWidth 16)
  else if bitsAt v.toNat 16 2 = 2 then fqackEnd s die (v.setWidth 16)
  else s

/-- A new TAIL: waiting faults are recorded while there is room (R385). -/
def fqtailWrite (s : State) (die : Nat) (v : Word) : State :=
  recordFaults (s.modDie die fun d => { d with fqtail := v.setWidth 8 }) die 256

/-- A write to MSEAL (R394); the fault records that waited for a frame's seal are written when it is lifted (R395). -/
def msealWrite (s : State) (die : Nat) (v : DWord) : State :=
  let t := s.modDie die fun d => { d with mseal := v &&& 0x000000FFFFFFF001, mbusy := v.getLsbD 0, msealed := false }
  if v.getLsbD 0 then t else (t.dies.map (·.id)).foldl (fun acc d => recordFaults acc d (t.getDie d).faults.length) t

/-- A 64-bit register after a store of 4 or 8 bytes at an offset 0 or 4 of it. -/
def merge64 (old : DWord) (half n : Nat) (v : DWord) : DWord :=
  if n = 8 then v
  else if half = 0 then old.extractLsb' 32 32 ++ v.setWidth 32 else v.setWidth 32 ++ old.setWidth 32

/-- A store to a 64-bit or 32-bit register of the memory control page; off names the register's 8 bytes. -/
def memWrite (s : State) (die off n : Nat) (v : DWord) : State :=
  let d := s.getDie die
  let base := off / 8 * 8
  let half := off % 8
  if base = 0x000 then s.modDie die fun x => { x with ptbase := merge64 d.ptbase half n v &&& 0x0000FFFFFFFFF000 }
  else if off = 0x008 then s.modDie die fun x => { x with lctl := v.setWidth 32 &&& 0x0000FF7F }
  else if base = 0x010 then s.modDie die fun x => { x with fqbase := merge64 d.fqbase half n v &&& 0x0000FFFFFFFFFE00 }
  else if base = 0x018 then
    (if n = 8 then fqtailWrite s die (v.extractLsb' 32 32) else if half = 4 then fqtailWrite s die (v.setWidth 32) else s)
  else if off = 0x020 then fqack s die (v.setWidth 32)
  else if base = 0x028 then msealWrite s die (merge64 d.mseal half n v)
  else s

/-! ## The package service page (R460) -/

/-- PSTAT. -/
def pstatWord (s : State) : Nat :=
  s.stage.toNat + 2 ^ 4 * s.psReady.toNat + 2 ^ 5 * s.linkw.toNat + 2 ^ 7 * s.psAlarm.toNat + 2 ^ 8 * s.degraded.toNat +
    2 ^ 9 * s.attbusy.toNat

/-- Logical cores that a CMAP leaves unserved. -/
def unserved (cmap : DWord) : Nat := ((List.range 8).filter fun k => bitsAt cmap.toNat (4 * k) 4 == 15).length

/-- The wavelengths on which a port carries traffic once it has locked (R483, R486). -/
def portWidth (x : Port) : Nat := min x.usable x.cap

/-- HEALTH. -/
def healthWord (s : State) : Nat :=
  let spared := (s.clusters.filter fun c => c.cmap.getLsbD 41).length
  let un := s.clusters.foldl (fun acc c => acc + unserved c.cmap) 0
  let slate := s.dies.foldl (fun acc d => acc + d.buses.foldl (fun a b => a + (b.st.filter fun g => g == .slate).length) 0) 0
  let narrow := (s.ports.filter fun p => decide (portWidth p < 8)).length
  spared % 2 ^ 9 + 2 ^ 9 * (un % 2 ^ 9) + 2 ^ 18 * (slate % 2 ^ 8) + 2 ^ 26 * (narrow % 2 ^ 5) + 2 ^ 32 * s.contain.toNat

/-- ALARM. -/
def alarmWord (s : State) : Nat :=
  s.alarmClass.toNat + 2 ^ 4 * s.policy.toNat + 2 ^ 6 * s.alock.toNat + 2 ^ 7 * s.erased.toNat

/-- The aligned 8 bytes of the package service page at an offset. -/
def svcRead (s : State) (off : Nat) : Nat :=
  if off = 0x000 then pstatWord s
  else if off = 0x008 then (s.fn 0).ring.toNat
  else if off = 0x010 then healthWord s
  else if off = 0x018 then alarmWord s
  else if off = 0x020 then (s.fn 0).cqbase.toNat
  else if off = 0x028 then (s.fn 0).cqhead.toNat + 2 ^ 32 * (s.fn 0).cqtail.toNat
  else if off = 0x030 then s.conbase.toNat
  else if 0x040 ≤ off ∧ off < 0x080 then leNat ((s.nonce.drop (off - 0x040)).take 8)
  else 0

/-- RINGBASE of a function written; the firmware reads it then (R432, R460). -/
def ringbaseWrite (s : State) (k : Nat) (v : DWord) : State := s.modFn k fun f => { f with ring := v &&& 0x0000FFFFFFFFFFC0 }

/-- A write to ALARM (R454, R460). -/
def alarmWrite (s : State) (v : Word) : State :=
  let s1 := { s with alarmClass := s.alarmClass &&& ~~~ v.setWidth 4 }
  if s.alock then s1 else { s1 with policy := v.extractLsb' 4 2, alock := v.getLsbD 6 }

/-- A write to ATTDST starts an attestation, unless one runs (R452). DESIGN CHOICE (log entry 69). -/
def attStart (s : State) (v : DWord) : State :=
  if s.attbusy then s else { s with attbusy := true, attdst := v &&& 0x0000FFFFFFFFFC00 }

/-- The report of R452: the digests of the running image and of the fuse record, the serial, the counter, HEALTH and the clock; an erased identity
key signs with zeros. DESIGN CHOICE (log entry 69). -/
def attReport (s : State) : List Byte :=
  s.nonce ++ (List.range 64).map (Config.sha512 s.image) ++ (List.range 64).map (Config.fuseDigest s.fused) ++ leBytes 8 Config.serial.toNat ++
    leBytes 8 s.fused.toNat ++ leBytes 8 (healthWord s) ++ leBytes 8 s.clock.toNat ++ leBytes 288 0 ++
    (List.range 512).map fun k => if s.erased == 2 then 0 else Config.reportByte s.fresh k

/-- The report written and MSI-X vector 2 raised. -/
def attFinish (s : State) : State :=
  if s.attbusy then
    let s1 := writePa s s.attdst.toNat (attReport s)
    { s1 with attbusy := false, fresh := s.fresh + 1, hostOut := s.hostOut ++ [.msix 0 2] }
  else s

/-- The first bytes of the image in the stack of die 0: header and body (R449, R451). -/
def stackImage (s : State) : List Byte := s.load 0 (2048 + s.loadNat 0xC 4)

/-- A field of an image's header (R449). -/
def imageField (bs : List Byte) (off n : Nat) : Nat := leNat ((bs.drop off).take n)

/-- An image verifies (R449): its header and length are as they must be, its reserved bytes zero, its security version not below the fused
counter, and its key and signature good. DESIGN CHOICE (log entry 68). -/
def imageOk (fused : DWord) (bs : List Byte) : Bool :=
  let body := imageField bs 0xC 4
  imageField bs 0 4 == 0x43454449 && body % 4096 == 0 && decide (body ≤ 2 ^ 26) && decide (2048 + body ≤ bs.length) &&
    imageField bs 0x20 480 == 0 && imageField bs 0x404 508 == 0 && decide (fused.toNat ≤ imageField bs 8 4) &&
    Config.imageVerifies (bs.take (2048 + body))

/-- RECOV.GO (R451): the recovery interface closes and the image in die 0's stack is verified, as the next boot stage. -/
def recoveryGo (s : State) : State := if s.stage == 0xF && s.recovery then { s with stage := 2 } else s

/-- A store of 4 or 8 aligned bytes to the package service page. -/
def svcWrite (s : State) (off n : Nat) (v : DWord) : State :=
  let base := off / 8 * 8
  let half := off % 8
  if base = 0x008 then ringbaseWrite s 0 (merge64 (s.fn 0).ring half n v)
  else if off = 0x018 then alarmWrite s (v.setWidth 32)
  else if base = 0x020 then s.modFn 0 fun f => { f with cqbase := merge64 f.cqbase half n v &&& 0x0000FFFFFFFFF000 }
  else if base = 0x028 then
    (if n = 8 then s.modFn 0 fun f => { f with cqtail := v.extractLsb' 32 32 }
     else if half = 4 then s.modFn 0 fun f => { f with cqtail := v.setWidth 32 } else s)
  else if base = 0x030 then { s with conbase := merge64 s.conbase half n v &&& 0x0000FFFFFFFFF000, conpos := 0 }
  else if 0x040 ≤ off ∧ off < 0x080 then
    { s with nonce := s.nonce.take (off - 0x040) ++ leBytes n v.toNat ++ s.nonce.drop (off - 0x040 + n) }
  else if base = 0x080 then attStart s (merge64 s.attdst half n v)
  else if off = 0x088 then (if v.getLsbD 0 then recoveryGo s else s)
  else s

/-! ## By physical address (R445) -/

/-- A control page: die, memory, cluster or package service page, and the offset in it. -/
inductive CtrlPage where
  | die (d off : Nat)
  | mem (d off : Nat)
  | clu (c : CluId) (off : Nat)
  | svc (off : Nat)
  deriving DecidableEq, Repr

def ctrlPageOf (pa : Nat) : CtrlPage :=
  if 0x11000000000 ≤ pa then .svc (pa - 0x11000000000)
  else
    let d := (pa - 0x10000000000) / 0x1000000
    let o := (pa - 0x10000000000) % 0x1000000
    if o < 0x1000 then .die d o
    else if o < 0x2000 then .mem d (o - 0x1000)
    else .clu ⟨d, (o - 0x10000) / 0x1000⟩ ((o - 0x10000) % 0x1000)

/-- The aligned 8 bytes at an offset of a control page. -/
def ctrlRead8 (s : State) (p : CtrlPage) : Nat :=
  match p with
  | .die d off => dieRead (s.getDie d) (frameNow s) off
  | .mem d off => memRead s d off
  | .clu c off => cluRead (s.getCluster c) off
  | .svc off => svcRead s off

/-- An aligned load of 4 or 8 bytes from a control page. -/
def ctrlRead (s : State) (pa n : Nat) : Nat :=
  let v := ctrlRead8 s (ctrlPageOf (pa / 8 * 8))
  bitsAt v (8 * (pa % 8)) (8 * n)

/-- An aligned store of 4 or 8 bytes to a control page; one of 8 bytes writes the register at the lower address first. DESIGN CHOICE (log entry 107). -/
def ctrlWrite (s : State) (pa n : Nat) (v : DWord) : State :=
  match ctrlPageOf pa with
  | .die d off => dieWrite s d off n v
  | .mem d off => memWrite s d off n v
  | .clu c off =>
    let s1 := cluWrite32 s c off (v.setWidth 32)
    if n = 8 then cluWrite32 s1 c (off + 4) (v.extractLsb' 32 32) else s1
  | .svc off => svcWrite s off n v

/-- A store at an address commits an entry of the broadcast window table (R314). -/
def ctrlCommits (pa : Nat) : Bool :=
  match ctrlPageOf pa with
  | .die _ off => decide (0x400 ≤ off) && decide (off < 0x800) && decide ((off - 0x400) % 16 = 0)
  | _ => false

/-- A store to a register that must first wait: a commit whose entry is still on its way to the filters (R314). -/
def ctrlBusy (s : State) (pa : Nat) : Bool :=
  match ctrlPageOf pa with
  | .die d off => decide (0x400 ≤ off) && decide (off < 0x800) && decide ((off - 0x400) % 16 = 0) && bwtBusy s d ((off - 0x400) / 16)
  | _ => false

end Sys2Proof.Machine
end

