-- ==== Sys2Proof/Machine/Access.lean ====
section
/-! DEFINITION. How the bytes of one lane's access are found: scratch places and their checks (R183, R184, R274, R277), the
caches with the permissions of their fills (R179, R180, R187, R188, R204, R207), the home, and the checks made at issue
(R203). -/

namespace Sys2Proof.Machine

/-! ## Scratch places -/

/-- Where a scratch byte lives: a workgroup's scratchpad, or the cluster-scratch window. -/
inductive SPlace where
  | bank (wg x : Nat)
  | cask (c : CluId) (j : Nat)
  deriving DecidableEq, Repr

/-- The member m of a workgroup's gang. -/
def gangMember (s : State) (g : Workgroup) (m : Nat) : Option Workgroup :=
  s.wgs.find? fun x => x.gang == g.gang && x.member == m

/-- The place of n bytes at a scratch offset, none when out of range (R183); cluster scratch by its window alone. -/
def scratchPlace (s : State) (g : Workgroup) (off n : Nat) : Option SPlace :=
  if off < 0x80000 then (if off + n ≤ g.scratch then some (.bank g.id off) else none)
  else if 0x01000000 ≤ off ∧ off < 0x01800000 then
    let m := (off - 0x01000000) / 0x100000
    let x := off % 0x100000
    match gangMember s g m with
    | some h => if x + n ≤ h.scratch ∧ x + n ≤ 0x80000 then some (.bank h.id x) else none
    | none => none
  else if casketBase ≤ off ∧ off + n ≤ casketBase + 8 * mib then some (.cask (cluOf g.core) (off - casketBase))
  else none

/-- Key of a scratchpad byte in its core (R181, R182). -/
def bankKey (g : Workgroup) (x : Nat) : Nat := ((g.banks[x / 0x4000]?).getD (x / 0x4000)) * 0x4000 + x % 0x4000

def bankRead (s : State) (wg x n : Nat) : List Byte :=
  match s.getWg wg with
  | some g => (List.range n).map fun k => sget 0 (s.getCore g.core).scratch (bankKey g (x + k))
  | none => List.replicate n 0

def bankPut (g : Workgroup) (m : Sparse Byte) (x : Nat) : List Byte → Sparse Byte
  | [] => m
  | b :: bs => bankPut g (sput 0 m (bankKey g x) b) (x + 1) bs

def bankWrite (s : State) (wg x : Nat) (bs : List Byte) : State :=
  match s.getWg wg with
  | some g => s.modCore g.core fun c => { c with scratch := bankPut g c.scratch x bs }
  | none => s

/-- Bytes of a scratch place. -/
def splaceRead (s : State) (p : SPlace) (n : Nat) : List Byte × State :=
  match p with
  | .bank wg x => (bankRead s wg x n, s)
  | .cask c j => caskRead s c j n

def splaceWrite (s : State) (p : SPlace) (bs : List Byte) : State :=
  match p with
  | .bank wg x => bankWrite s wg x bs
  | .cask c j => caskWrite s c j bs

/-- The place must wait: its cask portion is being copied to a spare way (R293), or the cask bus of the core is being repaired (R400). -/
def splaceBusy (s : State) (core : CoreId) (p : SPlace) (n : Nat) : Bool :=
  match p with
  | .bank _ _ => false
  | .cask c j => caskRangeCopying (s.getCluster c) j n || (s.getCore core).vbCask.repairing

/-- Copies that hold a target range in a scratchpad (R184, R186). -/
def activeCopy (c : Copy) : Bool := (c.st == .running || c.st == .paused || c.st == .aborted || c.st == .failed || c.st == .refused) && !c.waiting

/-- The access touches a 128-byte granule of a copy's target range in a scratchpad (R184). -/
def hitsCopy (s : State) (p : SPlace) (n : Nat) : Bool :=
  match p with
  | .cask _ _ => false
  | .bank wg x => s.copies.any fun c =>
      activeCopy c && c.units != 0 && (match c.dst, s.getWg wg with
        | .bank r, some g =>
          -- the target's offset of the granule in which the access stands, by the bank that holds it
          let key := bankKey g (x / 128 * 128)
          r.core == g.core && (List.range ((n + x % 128 + 127) / 128)).any fun j =>
            (List.range r.banks.length).any fun i =>
              let off := i * 0x4000 + (key + 128 * j) % 0x4000
              (r.banks[i]?).getD 0 == (key + 128 * j) / 0x4000 && decide (r.off / 128 * 128 ≤ off) && decide (off < r.off + 16 * c.units)
        | _, _ => false)

/-! ## The checks at issue (R203) -/

/-- What the checks at issue say of one lane. -/
inductive Verdict where
  | pass
  | align
  | protect (why : Nat)
  | off
  deriving DecidableEq, Repr

/-- A scratch access (R203 checks 1 and 4, R283 before R280). -/
def judgeScratch (s : State) (g : Workgroup) (ctx off n : Nat) : Verdict :=
  if off % n ≠ 0 then .align
  else match scratchPlace s g off n with
  | none => .off
  | some (.cask c _) =>
    (match caskCheck (s.getCluster c) ctx off n with
     | 0 => .pass
     | why => .protect why)
  | some p => if hitsCopy s p n then .off else .pass

/-- A global access; `ban` makes an open wort range refuse it (R354). -/
def judgeGlobal (s : State) (w : Warp) (ban : Bool) (va : DWord) (n : Nat) : Verdict :=
  if va.toNat % n ≠ 0 then .align
  else if !canonical va then .protect 0
  else if ban && wortIssueHit s w va.toNat n then .protect 4
  else .pass

/-- A parameter access (R203 check 3). -/
def judgeParam (o : Word) (n : Nat) : Verdict :=
  if o.toNat % n ≠ 0 then .align else if 65536 < o.toNat + n then .protect 0 else .pass

/-- The lanes with some verdict. -/
def lanesWith (vs : List (Nat × Verdict)) (p : Verdict → Bool) : LaneSet := laneSet ((vs.filter fun v => p v.2).map (·.1))

def isFail : Verdict → Bool | .align => true | .protect _ => true | _ => false

/-- INFO of the trap at issue (R203, R282, R354): bit 0 when the lanes failed different checks, bits 7 to 4 the reason of the
lowest lane that has one, for MEM_PROTECT. DEDUCED (log entry 18). -/
def failInfo (vs : List (Nat × Verdict)) : BitVec 16 :=
  let al := vs.any fun v => v.2 == .align
  let pr := vs.any fun v => isFail v.2 && v.2 != .align
  let whys := vs.filterMap fun v => match v.2 with | .protect w => if w = 0 then none else some w | _ => none
  if al then BitVec.ofNat 16 pr.toNat
  else
    let kinds := (vs.filter fun v => isFail v.2).map (·.2)
    BitVec.ofNat 16 (16 * (whys.head?.getD 0) + (decide (1 < kinds.eraseDups.length)).toNat)

/-- The switched-off lanes recorded in `sr.lfm`, and the one trap of the failing lanes taken (R184, R203). DEDUCED (log entry 18). -/
def settleChecks (x : Issue) (s : State) (vs : List (Nat × Verdict)) (offs : Nat → Nat) (file : BitVec 3) : State :=
  let off := lanesWith vs fun v => v == .off
  let bad := lanesWith vs isFail
  let s1 := s.modWarp x.w.id fun w => { w with lfm := w.lfm ||| off }
  let cask := vs.find? fun v => match v.2 with | .protect 1 => true | .protect 2 => true | _ => false
  let s2 := match cask with
    | some v =>
      if vs.any fun u => u.2 == .align then s1
      else recordViolation s1 (s.warpCore x.w) (offs v.1) (s.warpCtx x.w) x.w.idx (match v.2 with | .protect k => k | _ => 0)
    | none => s1
  if bad == 0 then s2
  else issueTrap x s2 (if vs.any fun v => v.2 == .align then 0x10 else 0x11) (failInfo vs) bad file

/-- The lanes that pass. -/
def passing (vs : List (Nat × Verdict)) : LaneSet := lanesWith vs fun v => v == .pass

/-! ## What an access finds -/

/-- The outcome of an access that is tried. -/
inductive Got (α : Type) where
  | done (a : α)
  | wait
  | far (pkg : Nat)
  | fault (level : Nat)
  | deny (info : BitVec 16)
  | err
  deriving DecidableEq, Repr

/-- An access to another package: an error once it is declared dead (R487). -/
def farGot {α : Type} (s : State) (pkg : Nat) : Got α := if s.deadPkgs.contains pkg then .err else .far pkg

/-- Who makes an access. -/
structure Acc where
  core : CoreId
  asid : Nat
  user : Bool
  /-- the context, whose kiln budget an allocation takes (R188) -/
  ctx : Nat := 0
  /-- the hint `.ef` (R206) -/
  early : Bool := false
  /-- under whom another package's units come back -/
  owner : Nat := 0
  deriving DecidableEq, Repr

def accOf (s : State) (w : Warp) (asid : Nat) : Acc := { core := s.warpCore w, asid := asid, user := s.warpUser w, ctx := s.warpCtx w, owner := w.id }

/-- The permissions and the cache tag of the page of an address, from the translation that its home has just used (R328). -/
def leafAt (s : State) (pa asid : Nat) (va : DWord) : Nat := leafNow s (pa / 2 ^ 36 % 16) asid va.toNat

/-- The line that an access brings into L1, from its translation (R204, R206, R328). -/
def lineOfAcc (s : State) (a : Acc) (va : DWord) (pa kind : Nat) (glob : Bool) : L1Line :=
  { lineFrom a.asid (lineOf va) pa kind glob (leafAt s pa a.asid va) with early := a.early }

/-- A control page of a dead die, or the package service page when die 0, which serves it, is dead (R445, R456). -/
def ctrlDead (s : State) (pa : Nat) : Bool :=
  let k := (pa - 0x10000000000) / 0x1000000
  (s.getDie (if k < 16 then k else 0)).dead

/-- Whether an L1 line still serves its core: a lease copy only while its lease does (R343). -/
def l1Live (s : State) (c : CoreId) (ln : L1Line) : Bool :=
  !onLease s c.die ln.asid ln.line ln.pa || leaseHolds s c.die ln.asid ln.line

/-- A live L1 line of a core. -/
def l1Get (s : State) (c : CoreId) (asid line : Nat) : Option L1Line :=
  match l1Find (s.getCore c) asid line with
  | some ln => if l1Live s c ln then some ln else none
  | none => none

/-- Another core of the cluster that holds a line and can settle a miss (R307). -/
def clusterHolds (s : State) (c : CoreId) (asid line : Nat) (p : Moesi → Bool) : Bool :=
  (List.range 8).any fun k => match l1Get s ⟨c.die, c.clu, k⟩ asid line with | some ln => p ln.st | none => false

/-! ### Non-coherent lines (R180) -/

def ncGet (c : Core) (asid line : Nat) : Option NcLine := c.nc.find? fun x => tagSees asid x.asid && x.line == line

/-- Bytes of a place. -/
def placeRead (s : State) (p : Place) (off n : Nat) : List Byte :=
  match p with
  | .mem pa => s.load (pa + off) n
  | .host a => Memory.readN s.hostMem (a + off) n
  | .far _ => List.replicate n 0

def putNc (c : Core) (x : NcLine) : Core := { c with nc := putAt (fun y => y.asid == x.asid && y.line == x.line) x c.nc }

/-- Bytes of a non-coherent line as it stands. -/
def ncBytes (x : NcLine) (off n : Nat) : List Byte := (List.range n).map fun k => (sget (0, false) x.bytes (off + k)).1
def ncHas (x : NcLine) (off n : Nat) : Bool := (List.range n).all fun k => x.bytes.any fun e => e.1 == off + k

/-- A key set in a list of present bytes, which may hold a zero. -/
def setByte (m : Sparse (Byte × Bool)) (k : Nat) (v : Byte × Bool) : Sparse (Byte × Bool) :=
  (m.filter fun e => decide (e.1 < k)) ++ [(k, v)] ++ m.filter fun e => decide (k < e.1)

/-- Absent bytes of a line filled clean from its place. -/
def ncFillLine (s : State) (x : NcLine) : NcLine :=
  let now := placeRead s x.place 0 128
  let fill (acc : Sparse (Byte × Bool)) (k : Nat) : Sparse (Byte × Bool) :=
    if x.bytes.any fun e => e.1 == k then acc else setByte acc k ((now[k]?).getD 0, false)
  { x with bytes := (List.range 128).foldl fill x.bytes }

/-- Bytes written into a non-coherent line. -/
def ncPut (x : NcLine) (off : Nat) (bs : List Byte) (dirty : Bool) : NcLine :=
  { x with bytes := (List.range bs.length).foldl (fun acc k => setByte acc (off + k) ((bs[k]?).getD 0, dirty)) x.bytes }

def cleanAll (m : Sparse (Byte × Bool)) : Sparse (Byte × Bool) := m.map fun e => (e.1, (e.2.1, false))

/-- A non-coherent line without bytes, youngest of its core, with the priority of the access that brings it in (R206). -/
def newNc (s : State) (a : Acc) (line tag : Nat) (user writable : Bool) (p : Place) : NcLine :=
  ⟨tag, line, user, writable, p, [], s.nextId, a.early⟩

/-- A load served by a non-coherent line, which is filled on a miss. -/
def ncRead (s : State) (a : Acc) (va : DWord) (n tag : Nat) (p : Place) (user writable : Bool) : Got (List Byte) × State :=
  let line := lineOf va
  let off := va.toNat % 128
  match (if (ncGet (s.getCore a.core) a.asid line).isSome then some s else l1MakeRoom s a.core tag line) with
  | none => (.wait, s)
  | some s0 =>
    let x := (ncGet (s0.getCore a.core) a.asid line).getD (newNc s0 a line tag user writable p)
    if a.user && !x.user then (.deny 0, s)
    else
      let y := if ncHas x off n then x else ncFillLine s0 x
      (.done (ncBytes y off n), { s0.modCore a.core (fun c => putNc c y) with nextId := s0.nextId + 1 })

/-- The place of the line that holds an address. -/
def linePlace (p : Place) (va : DWord) : Place :=
  match p with
  | .mem pa => .mem (pa - va.toNat % 128)
  | .host h => .host (h - va.toNat % 128)
  | .far k => .far k

/-! ### Reads of global memory -/

/-- A read at the home without allocating: `GATH`, `.na`, copies, raw wort lines (R206, R236, R353). DEDUCED (log entry 36). -/
def readHome (s : State) (a : Acc) (va : DWord) (n : Nat) : Got (List Byte) × State :=
  let r := route s a.core a.asid a.user .read va
  match r.1 with
  | none => (.wait, r.2)
  | some (.absent l) => (if wortLineHit s a.asid va.toNat n then .err else .fault l, r.2)
  | some .deny => (.deny 0x60, r.2)
  | some (.far k _) => (farGot r.2 k, r.2)
  | some (.ctrl _) => (.deny 0, r.2)
  | some (.host h) => if s.linkw == 0 then (.err, r.2) else (.done (Memory.readN r.2.hostMem h n), r.2)
  | some (.mem pa kind glob) =>
    let tag := if glob then 0 else a.asid
    if homeDead s pa then (.err, r.2)
    else if kind == 1 || kind == 2 || wortLineHit s a.asid va.toNat n then (.done (r.2.load pa n), r.2)
    else
      let t := settleLines r.2 a.core tag [lineOf va]
      if t.1 then (.done (t.2.load pa n), t.2) else (.wait, t.2)

/-- The ways in which the misses of a context allocate (R405). -/
def waysFor (s : State) (ctx : Nat) : Nat := waysOf (((s.ctxRegion ctx).map (·.eff.l2Ways)).getD 0)

/-- A load that misses L1 and reaches the home; without a remote-data way that can take it, a line of another die is read there and kept
nowhere (R276, R307, R388). -/
def loadMiss (s : State) (a : Acc) (va : DWord) (n : Nat) : Got (List Byte) × State :=
  let line := lineOf va
  let r := route s a.core a.asid a.user .read va
  match r.1 with
  | none => (.wait, r.2)
  | some (.absent l) => (.fault l, r.2)
  | some .deny => (.deny 0x60, r.2)
  | some (.far k _) => (farGot r.2 k, r.2)
  | some (.ctrl pa) => if ctrlDead s pa then (.err, r.2) else if n = 4 ∨ n = 8 then (.done (leBytes n (ctrlRead r.2 pa n)), r.2) else (.deny 0, r.2)
  | some (.host h) =>
    if s.linkw == 0 then (.err, r.2)
    else
      let e := leafNow r.2 a.core.die a.asid va.toNat
      ncRead r.2 a va n (if bitAt e 6 then 0 else a.asid) (linePlace (.host h) va) (bitAt e 3) (bitAt e 1)
  | some (.mem pa kind glob) =>
    let e := leafAt r.2 pa a.asid va
    let tag := if glob then 0 else a.asid
    if homeDead s pa then (.err, r.2)
    else if kind == 1 then ncRead r.2 a va n tag (linePlace (.mem pa) va) (bitAt e 3) (bitAt e 1)
    else if kind == 2 then (.done (r.2.load pa n), r.2)
    else if clusterHolds r.2 a.core tag line (fun _ => true) then
      (.done (r.2.load pa n), grantGetS r.2 a.core (lineOfAcc r.2 a va pa kind glob) (onLease r.2 a.core.die tag line pa))
    else if !dieHolds r.2 a.core.die tag line pa &&
        ((dirOf (r.2.getDie (pa / 2 ^ 36 % 16)) tag line).pending || sealedPa r.2 pa ||
          (rdcWay r.2 a.core.die tag line (waysFor r.2 a.ctx)).isNone) then (.done (r.2.load pa n), r.2)
    else (.wait, r.2)

/-- A load through the caches (R204, R206, R353). -/
def readGlobal (s : State) (a : Acc) (va : DWord) (n : Nat) : Got (List Byte) × State :=
  let line := lineOf va
  if wortLineHit s a.asid va.toNat n then readHome s a va n
  else match l1Get s a.core a.asid line with
  | some ln =>
    if a.user && !ln.user then (.deny 0, s)
    else if homeDead s ln.pa then (.err, s)
    else (.done (s.load (ln.pa + va.toNat % 128) n), renewLease s a.core.die ln.asid line)
  | none =>
    match ncGet (s.getCore a.core) a.asid line with
    | some x =>
      (match x.place with
       | .host _ => if s.linkw == 0 then (.err, s) else ncRead s a va n x.asid x.place x.user x.writable
       | _ => ncRead s a va n x.asid x.place x.user x.writable)
    | none =>
      match farGet s a.core.die a.asid line with
      | some f =>
        if (s.getCore a.core).vbCask.repairing then (.wait, s)
        else if a.user && !f.user then (.deny 0, s) else (.done ((f.bytes.drop (va.toNat % 128)).take n), farHit s f)
      | none => loadMiss s a va n

/-! ### The kiln (R187, R188) -/

def kFind (c : Core) (asid sec : Nat) : Option KSector := c.kiln.find? fun x => tagSees asid x.asid && x.sector == sec
def kPut (c : Core) (x : KSector) : Core := { c with kiln := putAt (fun y => y.asid == x.asid && y.sector == x.sector) x c.kiln }

/-- The context's sectors may be this many (R188). -/
def kilnSectors (mibs : Nat) : Nat := mibs * 1024

/-- Sectors of a kiln: 512 MiB of 1 KiB (R187). -/
def kilnSize : Nat := 524288

/-- The least recently used of some sectors that can leave. DESIGN CHOICE (log entry 28). -/
def kVictim (s : State) (xs : List KSector) : Option KSector :=
  (xs.filter (sectorOpen s)).foldl
    (fun acc x => match acc with | none => some x | some y => if x.used < y.used then some x else acc) none

/-- A sector written back where it is dirty. -/
def kWriteBack (s : State) (x : KSector) : State :=
  writeBack s (match x.place with | .far _ => x.home | _ => x.asid) (x.sector * 1024) x.place (dirtyOf x.bytes)

/-- An owner of requests whose bytes the kiln of a core is to take: a warp of the core, or a CPYW on it. -/
def kilnOwner (s : State) (c : CoreId) (o : Nat) : Bool :=
  (match s.getWarp o with | some w => s.warpCore w == c | none => false) || s.copies.any fun x => copyOwner x.id == o && x.core == c

/-- A sector that leaves, with what a fill of it has brought from another package (R208). -/
def kEvict (s : State) (c : CoreId) (x : KSector) : State :=
  let t := dropAsks s fun o a => kilnOwner s c o && a / 1024 == x.sector
  kWriteBack (t.modCore c fun y => { y with kiln := y.kiln.filter fun z => !(z.asid == x.asid && z.sector == x.sector) }) x

/-- Room for one more sector of a context within its budget, for which one of its own leaves, and within the kiln, for which any leaves
(R187, R188); none when nothing can leave. DESIGN CHOICE (log entry 28). -/
def kMakeRoom (s : State) (c : CoreId) (ctx mibs : Nat) : Option State :=
  let own := (s.getCore c).kiln.filter fun y => y.ctx == ctx
  let all := (s.getCore c).kiln
  if kilnSectors mibs ≤ own.length then (kVictim s own).map (kEvict s c)
  else if kilnSize ≤ all.length then (kVictim s all).map (kEvict s c)
  else some s

/-- Absent bytes of a sector filled clean; no byte of an open wort's line comes into a kiln (R349). -/
def kFillWith (s : State) (x : KSector) (now : List Byte) : KSector :=
  let shut := (List.range 8).filter fun j => wortLineHit s x.asid (x.sector * 1024 + 128 * j) 128
  { x with
    used := s.nextId
    bytes := (List.range 1024).filterMap fun k =>
      match x.bytes.find? fun e => e.1 == k with
      | some e => some e
      | none => if shut.contains (k / 128) then none else some (k, ((now[k]?).getD 0, false)) }

/-- The same from its place. -/
def kFill (s : State) (x : KSector) : KSector := kFillWith s x (placeRead s x.place 0 1024)

def kHas (x : KSector) (off n : Nat) : Bool := (List.range n).all fun k => x.bytes.any fun e => e.1 == off + k
def kBytes (x : KSector) (off n : Nat) : List Byte := (List.range n).map fun k => (sget (0, false) x.bytes (off + k)).1

/-- A sector touched by an access, with the order of use. -/
def kTouch (s : State) (c : CoreId) (x : KSector) : State :=
  { s.modCore c (fun y => kPut y { x with used := s.nextId }) with nextId := s.nextId + 1 }

/-- Pages whose lines L1 or a kiln caches by value: neither non-coherent nor memory-side (R204). -/
def farCached (s : State) (a : Acc) (va : DWord) : Bool :=
  let k := farKind s a.core.die a.asid va.toNat
  k != 1 && k != 2

/-- The kiln takes a sector of another package, whose units come back under the access's owner. -/
def kilnFar (s : State) (a : Acc) (mibs : Nat) (va : DWord) : Bool := mibs != 0 && farCached s a va

/-- The sector of another package that holds an address, filled by what its home has returned, and n bytes of it; until all of it is here
the access is one for that package, and what was asked for before an ACQ fills nothing (R190). -/
def readKilnFar (s : State) (a : Acc) (mibs pkg : Nat) (va : DWord) (n : Nat) : Got (List Byte) × State :=
  let sec := va.toNat / 1024
  if !kilnFar s a mibs va then (.far pkg, s)
  else match farBytes s a.owner (sec * 1024) 128 with
  | none => (.far pkg, s)
  | some (0, bs) =>
    let s1 := dropFar s a.owner (sec * 1024) 128
    if farStale s a.owner (sec * 1024) 128 then (.done ((bs.drop (va.toNat % 1024)).take n), s1)
    else
    let e := leafNow s1 a.core.die a.asid va.toNat
    let fresh : KSector := ⟨if bitAt e 6 then 0 else a.asid, sec, a.ctx, bitsAt e 8 3, bitAt e 3, bitAt e 1, .far pkg, a.asid, 0, []⟩
    (match kFind (s1.getCore a.core) a.asid sec with
     | some x => let y := kFillWith s1 x bs; (.done (kBytes y (va.toNat % 1024) n), kTouch s1 a.core y)
     | none =>
       match kMakeRoom s1 a.core a.ctx mibs with
       | none => (.done ((bs.drop (va.toNat % 1024)).take n), s1)
       | some t => let y := kFillWith t fresh bs; (.done (kBytes y (va.toNat % 1024) n), kTouch t a.core y))
  | some (1, _) => (.deny 0x60, dropFar s a.owner (sec * 1024) 128)
  | some _ => (.deny 0xFFFF, dropFar s a.owner (sec * 1024) 128)

/-- A read on the kiln path (R187 to R189, R204): n bytes within one sector, whose fill asks the home slices for its eight lines (R308); it
waits while the kiln bus is being repaired (R400), and fails on an open wort (R349, R354). DEDUCED (log entry 25). -/
def readKiln (s : State) (a : Acc) (mibs : Nat) (va : DWord) (n : Nat) : Got (List Byte) × State :=
  let sec := va.toNat / 1024
  let off := va.toNat % 1024
  let hit := match kFind (s.getCore a.core) a.asid sec with
    | some x => if kHas x off n && mibs != 0 then some x else none
    | none => none
  if wortHomeHit s a.asid va.toNat n then (.deny 0x40, s)
  else if (s.getCore a.core).vbKiln.repairing && mibs != 0 then (.wait, s)
  else match hit with
  | some x => if a.user && !x.user then (.deny 0, s) else (.done (kBytes x off n), kTouch s a.core x)
  | none =>
    if mibs = 0 then readHome s a va n
    else
      let r := route s a.core a.asid a.user .read va
      match r.1 with
      | none => (.wait, r.2)
      | some (.absent l) => (.fault l, r.2)
      | some .deny => (.deny 0x60, r.2)
      | some (.far k _) => if r.2.deadPkgs.contains k then (.err, r.2) else readKilnFar r.2 a mibs k va n
      | some (.ctrl _) => (.deny 0, r.2)
      | some (.host _) => loadMiss r.2 a va n
      | some (.mem pa kind glob) =>
        if homeDead s pa then (.err, r.2)
        else if kind == 1 then loadMiss r.2 a va n
        else if kind == 2 then (.done (r.2.load pa n), r.2)
        else
          let e := leafAt r.2 pa a.asid va
          let tag := if glob then 0 else a.asid
          let fresh : KSector := ⟨tag, sec, a.ctx, kind, bitAt e 3, bitAt e 1, .mem (pa - off), a.asid, 0, []⟩
          let t := settleLines r.2 a.core tag ((List.range 8).map (sec * 8 + ·))
          if !t.1 then (.wait, t.2)
          else match kFind (t.2.getCore a.core) a.asid sec with
          | some x => let y := kFill t.2 x; (.done (kBytes y off n), kTouch t.2 a.core y)
          | none =>
            match kMakeRoom t.2 a.core a.ctx mibs with
            | none => (.done (t.2.load pa n), t.2)
            | some t => let y := kFill t fresh; (.done (kBytes y off n), kTouch t a.core y)

/-! ### The constant cache (R207) -/

/-- Each aligned word of a cached line that memory no longer holds is the old or the new one. -/
def constMix (s : State) (old now : List Byte) : Nat → List Byte × State
  | 0 => ([], s)
  | k + 1 =>
    let a := (old.take 4)
    let b := (now.take 4)
    let r := if a == b then (true, s) else s.drawBool
    let t := constMix r.2 (old.drop 4) (now.drop 4) k
    ((if r.1 then a else b) ++ t.1, t.2)

/-- A read of parameter space (R202, R207); a cached line keeps the permission of its fill (R204). Lines of memory-side pages and of open worts stay in no cache (R353, R392). -/
def readParam (s : State) (a : Acc) (va : DWord) (n : Nat) : Got (List Byte) × State :=
  let line := lineOf va
  let off := va.toNat % 128
  match (s.getCore a.core).ccache.find? fun e => tagSees a.asid e.1 && e.2.1 == line with
  | some e =>
    if a.user && !e.2.2.1 then (.deny 0, s)
    else match walkNow s a.core a.asid a.user .read (BitVec.ofNat 64 (line * 128)) with
    | .mem pa _ _ =>
      let r := constMix s e.2.2.2 (s.load pa 128) 32
      (.done ((r.1.drop off).take n), r.2)
    | _ => (.done ((e.2.2.2.drop off).take n), s)
  | none =>
    let r := route s a.core a.asid a.user .read (BitVec.ofNat 64 (line * 128))
    match r.1 with
    | some (.mem pa kind glob) =>
      let tag := if glob then 0 else a.asid
      if homeDead s pa then (.err, r.2)
      else if kind == 2 || wortLineHit s a.asid va.toNat n then readHome s a va n
      else
        let bs := r.2.load pa 128
        let user := bitAt (leafAt r.2 pa a.asid (BitVec.ofNat 64 (line * 128))) 3
        (.done ((bs.drop off).take n),
          r.2.modCore a.core fun c => { c with ccache := putAt (fun e => e.1 == tag && e.2.1 == line) (tag, line, user, bs) c.ccache })
    | _ => readHome s a va n

/-! ### Ownership and writes -/

/-- The place a write of one line's bytes finds: owned in L1, or performed elsewhere. -/
inductive WPlace where
  | own (pa : Nat)
  | nc (tag pa : Nat) (user writable : Bool)
  | side (pa : Nat)
  | host (a : Nat)
  | window (pa tag : Nat)
  | ctrl (pa : Nat)
  deriving DecidableEq, Repr

/-- Who may write at an address and how (R204, R307, R380): a line in the core's own L1 answers with the permissions of its fill. DEDUCED (log
entry 24). -/
def writePlace (s : State) (a : Acc) (va : DWord) (n : Nat) : Got WPlace × State :=
  let line := lineOf va
  if wortHomeHit s a.asid va.toNat n then (.deny 0x40, s)
  else
    let miss (s : State) : Got WPlace × State :=
      let r := route s a.core a.asid a.user .write va
      match r.1 with
      | none => (.wait, r.2)
      | some (.absent l) => (.fault l, r.2)
      | some .deny => (.deny 0x60, r.2)
      | some (.far k _) => (farGot r.2 k, r.2)
      | some (.ctrl pa) => (.done (.ctrl pa), r.2)
      | some (.host h) => if s.linkw == 0 then (.err, r.2) else (.done (.host h), r.2)
      | some (.mem pa kind glob) =>
        let tag := if glob then 0 else a.asid
        let e := leafAt r.2 pa a.asid va
        if homeDead s pa then (.err, r.2)
        else if kind == 1 then (.done (.nc tag (pa - va.toNat % 128) (bitAt e 3) (bitAt e 1)), r.2)
        else if kind == 2 then (if sealedPa r.2 pa then (.wait, r.2) else (.done (.side pa), r.2))
        else if kind == 3 then (.deny 0, r.2)
        else if kind == 5 then (.done (.window pa tag), r.2)
        else if clusterHolds r.2 a.core tag line (fun st => st == .m || st == .e) && !sealedPa r.2 pa && l1Room r.2 a.core tag line then
          (.done (.own pa), markWritten (grantGetM r.2 a.core (lineOfAcc r.2 a va pa kind glob)) pa 1)
        else (.wait, r.2)
    match l1Get s a.core a.asid line with
    | some ln =>
      if a.user && !ln.user || !ln.writable || ln.kind == 3 then (if ln.kind == 5 then miss s else (.deny 0, s))
      else if ln.kind == 5 then miss s
      else if (ln.st == .m || ln.st == .e) && !sealedPa s ln.pa then
        (.done (.own (ln.pa + va.toNat % 128)), setL1 s a.core a.asid line fun y => { y with st := .m })
      else miss s
    | none =>
      match ncGet (s.getCore a.core) a.asid line with
      | some x =>
        if a.user && !x.user || !x.writable then (.deny 0, s)
        else (match x.place with
          | .mem base => (.done (.nc x.asid base x.user x.writable), s)
          | .host h => if s.linkw == 0 then (.err, s) else (.done (.host (h + va.toNat % 128)), s)
          | .far _ => miss s)
      | none => miss s

/-- A byte range of a non-coherent line written dirty in its L1 (R180); none while its set has no room. DEDUCED (log entry 25). -/
def ncWrite (s : State) (a : Acc) (va : DWord) (tag base : Nat) (user writable : Bool) (bs : List Byte) : Option State :=
  let line := lineOf va
  let s0 := if (ncGet (s.getCore a.core) a.asid line).isSome then some s else l1MakeRoom s a.core tag line
  s0.map fun t =>
    let x := (ncGet (t.getCore a.core) a.asid line).getD (newNc t a line tag user writable (.mem base))
    { t.modCore a.core (fun c => putNc c (ncPut x (va.toNat % 128) bs true)) with nextId := t.nextId + 1 }

/-- A byte range of a non-coherent page written at its home, with no line of it left in the core's own L1: its other dirty bytes go home
with it (R206, R236). -/
def ncHomeWrite (s : State) (a : Acc) (va : DWord) (base : Nat) (bs : List Byte) : State :=
  let line := lineOf va
  let s1 := match ncGet (s.getCore a.core) a.asid line with
    | some x =>
      writeBack (s.modCore a.core fun c => { c with nc := c.nc.filter fun y => !(y.asid == x.asid && y.line == line) }) x.asid (line * 128) x.place
        (dirtyOf x.bytes)
    | none => s
  engineStore s1 a.asid va (base + va.toNat % 128) bs

/-- Host bytes posted (R218, R446), with the core's own copy of the line kept current, or made absent by a store through to the home (R206).
DEDUCED (log entry 29). -/
def hostPost (s : State) (w : Nat) (a : Acc) (va : DWord) (h : Nat) (bs : List Byte) (through : Bool) : State :=
  let s1 := { s with hostPosted := s.hostPosted ++ (List.range bs.length).map fun k => (w, h + k, (bs[k]?).getD 0) }
  match ncGet (s1.getCore a.core) a.asid (lineOf va) with
  | some x => s1.modCore a.core fun c =>
      if through then { c with nc := c.nc.filter fun y => !(y.asid == x.asid && y.line == x.line) } else putNc c (ncPut x (va.toNat % 128) bs false)
  | none => s1

/-- The posted writes that a test names reach host memory. DEDUCED (log entry 29). -/
def hostDrain (s : State) (p : Nat → Bool) : State :=
  { s with
    hostMem := (s.hostPosted.filter fun e => p e.1).foldl (fun m e => Memory.write m e.2.1 e.2.2) s.hostMem
    hostPosted := s.hostPosted.filter fun e => !p e.1 }

end Sys2Proof.Machine
end

