-- ==== Sys2Proof/Machine/AtomFn.lean ====
section
/-! DEFINITION. The values that atomics, reductions, memory barriers and signals leave at an address (R211, R212, R226, R409). -/

namespace Sys2Proof.Machine

/-- New value of an integer operation in the codes of R211, on n bits. -/
def atomNew (n : Nat) (sgn : Bool) (op old b c : Nat) : Nat :=
  let lt := decide (valInt sgn n b < valInt sgn n old)
  match op with
  | 0 => (old + b) % 2 ^ n
  | 1 => if lt then b else old
  | 2 => if lt then old else b
  | 3 => old &&& b
  | 4 => old ||| b
  | 5 => old ^^^ b
  | 6 => b
  | 7 => if old = b then c else old
  | 8 => if b ≤ old then 0 else old + 1
  | 9 => if old = 0 ∨ b < old then b else old - 1
  | _ => old

/-- One element of a float operation (R212). -/
def atomfElem (f : Fmt) (op : FAOp) (old b : Nat) : Nat :=
  match op with
  | .add => (faddBits f .rne false old b).1
  | .min => (fminmaxBits f false false old b).1
  | .max => (fminmaxBits f true false old b).1

/-- New value of a float operation: one FP32, or two halves (R212). -/
def atomfNew (p : FTy) (op : FAOp) (old b : Nat) : Nat :=
  match p with
  | .f32 => atomfElem .f32 op old b
  | f => atomfElem (ftyFmt f) op (old % 2 ^ 16) (b % 2 ^ 16) +
      2 ^ 16 * atomfElem (ftyFmt f) op (old / 2 ^ 16 % 2 ^ 16) (b / 2 ^ 16 % 2 ^ 16)

/-- An arrival at a memory barrier word (R226). -/
def marvNew (old : Nat) : Nat :=
  let ph := bitsAt old 0 32
  let arr := bitsAt old 32 16 + 1
  let ex := bitsAt old 48 16
  let need := if ex = 0 then 65536 else ex
  if need ≤ arr then (ph + 1) % 2 ^ 32 + 2 ^ 48 * ex else ph + 2 ^ 32 * arr + 2 ^ 48 * ex

/-- Codes of the one-operand operations. -/
def aopCode : AOp → Nat
  | .add => 0 | .min => 1 | .max => 2 | .and => 3 | .or => 4 | .xor => 5 | .exch => 6 | .inc => 8 | .dec => 9
def ropCode : ROp → Nat
  | .add => 0 | .min => 1 | .max => 2 | .and => 3 | .or => 4 | .xor => 5 | .inc => 8 | .dec => 9
def faopCode : FAOp → Nat | .add => 0 | .min => 1 | .max => 2
def faopOf : Nat → FAOp | 1 => .min | 2 => .max | _ => .add
def ftyCode : FTy → Nat | .f32 => 0 | .f16 => 1 | .bf16 => 2
def ftyOf : Nat → FTy | 1 => .f16 | 2 => .bf16 | _ => .f32

/-- Bytes and new value of an operation that another package sends (R391). -/
def remoteWidth : RemoteOp → Nat
  | .read n => n
  | .line => 128
  | .store bs => bs.length
  | .atom _ wide _ _ _ => if wide then 8 else 4
  | .atomf _ _ _ => 4
  | .marv => 8
  | .tsig _ => 4

def remoteNew (op : RemoteOp) (old : Nat) : List Byte :=
  match op with
  | .read n => leBytes n old
  | .line => leBytes 128 old
  | .store bs => bs
  | .atom o wide sgn b c =>
    let n := if wide then 64 else 32
    leBytes (n / 8) (atomNew n sgn o old (b.toNat % 2 ^ n) (c.toNat % 2 ^ n))
  | .atomf o f b => leBytes 4 (atomfNew (ftyOf f) (faopOf o) old b.toNat)
  | .marv => leBytes 8 (marvNew old)
  | .tsig b => leBytes 4 ((old + b.toNat) % 2 ^ 32)

/-- Page kinds that an operation allows at its home (R204, R392, R409). MARV counts as an integer operation. DESIGN CHOICE (log entry 86). -/
def remoteAllowed (op : RemoteOp) (kind : Nat) : Bool :=
  match op with
  | .read _ => true
  | .line => true
  | .store _ => kind == 0 || kind == 1 || kind == 2
  | .atom .. => kind == 0 || kind == 2
  | .atomf o f _ => kind == 0 || (kind == 2 && o == 0 && f == 0)
  | .marv => kind == 0 || kind == 2
  | .tsig _ => kind == 2

end Sys2Proof.Machine
end

