-- ==== Sys2Proof/Machine/Fabric.lean ====
section
/-! DEFINITION. The fabric: send queues and windows (R469 to R471), requests at their home (R391), replies, fabric barriers (R475 to R477),
collectives (R478 to R484), fences and topology changes (R472 to R474). -/

namespace Sys2Proof.Machine

/-! ## Queues (R469, R472, R473) -/

/-- The slot that runs now. -/
def slotNow (s : State) : Option Nat := s.table.bind fun t => (tablePos t s.clock.toNat).map fun p => p.2.1

/-- The collective step that a message belongs to. -/
def stepOfMsg (s : State) (m : FabMsg) : Option CollStep :=
  let mine : Option Coll := match m with
   | .unit _ _ id _ _ true _ _ => s.colls.find? fun c => c.what == 0 && c.pendingU.any fun u => u.1 == id
   | .reduce src _ cid step .. => if src = s.dev then s.colls.find? fun c => c.what == 0 && c.cid == cid && c.step == step else none
   | _ => none
  mine.bind fun c => c.steps[c.step]?

/-- A message of a SEND or REDUCE step leaves in its step's slot only (R479). -/
def inItsSlot (s : State) (m : FabMsg) : Bool :=
  match stepOfMsg s m with
  | some st => st.slot == 0xFF || slotNow s == some st.slot
  | none => true

/-- Messages of an open window leave their port, oldest first (R469). -/
def sendWindow (s : State) (port : Nat) : State :=
  match openPeer s port with
  | none => s
  | some peer =>
    if s.fencing then s
    else
      let goes (m : Nat × FabMsg × Option DWord) : Bool := m.1 == peer && inItsSlot s m.2.1
      let go := (s.port port).queue.filter goes
      { (s.modPort port fun q => { q with queue := q.queue.filter fun m => !goes m }) with
        sent := s.sent ++ go.map fun m => (port, m.2.1) }

/-- Bytes of relayed messages that a port keeps (R471). -/
def relayRoom : Nat := 4 * mib

/-- The bytes that a message takes there. DESIGN CHOICE (log entry 64). -/
def msgBytes : FabMsg → Nat
  | .unit _ _ _ _ _ _ _ bs => bs.length
  | .reduce _ _ _ _ _ _ _ _ _ _ lines => 128 * lines.length
  | _ => 128

/-- A relay of a SENDQ unit with the ticks to its first window, the port, and the ticks that the relay's own table adds; these, and whether
its buffer has room, are not known here: free values. DESIGN CHOICE (log entry 64). -/
def viaRelay (s : State) (k : Nat) : Option (Nat × Nat × Nat) × State :=
  match (if s.deadPkgs.contains k then none else nextWindow s k) with
  | none => (none, s)
  | some w =>
    let second := s.drawDWord
    let room := second.2.drawBool
    (if room.1 then some (w.1 + second.1.toNat, w.2.2, k) else none, room.2)

/-- The relay through which a SENDQ unit queued on a port goes when it would miss its deadline: port and package (R470). -/
def divertVia (s : State) (port : Nat) (m : Nat × FabMsg × Option DWord) : Option (Nat × Nat) × State :=
  match m.2.1, m.2.2 with
  | .unit _ dst _ _ _ false _ _, some d =>
    let r := routeOf s dst
    if m.1 != dst || r.mode != 2 then (none, s)
    else
      let dir := (windowFrom s [port] dst).map (·.1)
      let late := match dir with | some t => decide (d.toNat < s.clock.toNat + t) | none => true
      let a := viaRelay s r.ra
      let b := if r.bv then viaRelay a.2 r.rb else (none, a.2)
      let best := match a.1, b.1 with
        | some x, some y => some (if y.1 < x.1 then y else x)
        | some x, none => some x
        | none, y => y
      let sooner (t : Nat) : Bool := match dir with | some u => decide (t < u) | none => true
      (match best with | some v => if late && sooner v.1 then some (v.2.1, v.2.2) else none | none => none, b.2)
  | _, _ => (none, s)

/-- The decision of R470 on units of a port's queue, one after another. -/
def divertEach (port : Nat) : List (Nat × FabMsg × Option DWord) → State → State
  | [], s => s
  | m :: ms, s =>
    let r := divertVia s port m
    match r.1 with
    | some k => divertEach port ms (enqueue (r.2.modPort port fun q => { q with queue := q.queue.erase m }) k.1 k.2 m.2.1 m.2.2)
    | none => divertEach port ms r.2

/-- The decision on every unit that a port queues for a package, whose window has closed on them (R470). -/
def divert (s : State) (port pkg : Nat) : State := divertEach port ((s.port port).queue.filter fun m => m.1 == pkg) s

/-! ## Requests at their home (R391) -/

/-- A reply on its way back; without a path it is neither dropped nor held, and the sender's own error event ends the request
(R467). -/
def sendBack (s : State) (pkg asid va : Nat) (m : FabMsg) : State := (sendFor s pkg asid va m none).getD s

/-- What a write that waits at its home tells the holders of its line (R389). -/
def announceFar (s : State) (asid : Nat) (user : Bool) (va : DWord) : State :=
  match translateNow s 0 asid user .write va with
  | .mem pa _ _ => announceWrite s pa asid (lineOf va)
  | _ => s

/-- A line given to another package, with a lease where the home grants one (R388). -/
def lineAnswer (s : State) (src id asid : Nat) (va : DWord) (pa kind : Nat) (glob : Bool) : State :=
  let tag := if glob then 0 else asid
  let home := pa / 2 ^ 36 % 16
  let bs := s.load (pa / 128 * 128) 128
  let ok := kind != 1 && kind != 2 && !wortLineHit s asid va.toNat 1 && leasesFlow s tag (lineOf va) pa &&
    (dirOf (s.getDie home) tag (lineOf va)).owner == none
  let t := if ok then giveLease s (16 + src) tag (lineOf va) (pa / 128 * 128) else s
  sendBack t src asid va.toNat
    (.lineReply s.dev src id asid va bs (if ok then some (leaseEnd s home, leaseTicks (s.getDie home)) else none))

/-- A request of another package performed at its home, with its reply, a read of more than 8 bytes of a line as one (R188, R231); none while it must wait. An answer of 2 says that a wort range
refused it (R354). -/
def performRequest (s0 : State) (src id asid : Nat) (user : Bool) (va : DWord) (op : RemoteOp) : Option State :=
  let n := remoteWidth op
  let want : Want := match op with | .read _ => .read | .line => .read | _ => .write
  let r := translateHome s0 asid user want va
  let s := r.2
  let fail (why : DWord) := some (sendBack s src asid va.toNat (.reply s.dev src id false why asid va))
  match r.1 with
  | .mem pa kind glob =>
    let isRead := want == .read
    if homeDead s pa then fail 1
    else if !remoteAllowed op kind then fail 0
    else if op == .line then some (lineAnswer s src id asid va pa kind glob)
    else if isRead && decide (8 < n) then some (sendBack s src asid va.toNat (.lineReply s.dev src id asid va (s.load pa n) none))
    else if !isRead && wortHomeHit s asid va.toNat n then fail 2
    else if !isRead && !engineReady s asid va.toNat pa then none
    else
      let old := s.loadNat pa n
      let s1 := if isRead then s else engineStore s asid va pa (remoteNew op old)
      some (sendBack s1 src asid va.toNat (.reply s.dev src id true (BitVec.ofNat 64 old) asid va))
  | _ => fail 0

/-- A reply reaches the copy that asked: a part of a source unit, or the acknowledgement of a written one; after a refusal the copy
ends in error (R235). The output of a RACK is answered in the same way. An answer of 1 says that a relay
had no path: the context is contained (R467). -/
def takeCopyReply (s : State) (id : Nat) (ok : Bool) (v : DWord) : State :=
  match s.copies.find? fun c => c.asks.any fun a => a.1 == id with
  | none =>
    let answer (k : Rack) : Rack := { k with asks := k.asks.filter (· != id), refused := k.refused || !ok }
    (match s.racks.find? fun k => k.asks.contains id with
     | some k =>
       if !ok && v == 1 then containCtx s (((s.getRegion k.region).map (·.ctx)).getD 0)
       else { s with racks := updAt (fun k => k.asks.contains id) answer s.racks }
     | none => s)
  | some c =>
    match c.asks.find? fun a => a.1 == id with
    | none => s
    | some (_, unit, part) =>
      let upd (y : Copy) : Copy :=
        let z := { y with asks := y.asks.filter fun a => a.1 != id }
        if !ok then { z with st := .refused }
        else if part = 64 then { z with written := z.written ++ [unit] } else { z with parts := z.parts ++ [(unit, part, v)] }
      let s1 := { s with copies := updAt (fun y => y.id == c.id) upd s.copies }
      if !ok && v == 1 then containCtx s1 c.ctx else s1

/-- The owner under which a collective's source reads stand in `fetchBuf`. -/
def collOwner (id : Nat) : Nat := 2 ^ 33 + id

/-- The warp that an owner of unanswered requests stands for. -/
def ownerWarp (w : Nat) : Nat :=
  if putsOwner 0 ≤ w then w - putsOwner 0 else if svcOwner 0 ≤ w then w - svcOwner 0 else if fetchOwner 0 ≤ w then w - fetchOwner 0 else w

/-- The contexts that an unanswered request belongs to: its warp's, its collective's, its copy's; those of its ASID for a write-back, none
for a die's own or a ring's. -/
def ownerCtxs (s : State) (w tag : Nat) : List Nat :=
  if w == backOwner || w == fwOwner then ((s.regions.filter fun r => r.status == 0 && r.asid.toNat == tag).map (·.ctx)).eraseDups
  else if ownEngine w then []
  else if ringOwner 0 ≤ w then []
  else if tokenOwner 0 ≤ w then ((s.getRegion (w - tokenOwner 0)).map (·.ctx)).toList
  else if gangOwner 0 ≤ w then (((s.getGang (w - gangOwner 0)).bind fun g => s.getRegion g.region).map (·.ctx)).toList
  else match s.getWarp (ownerWarp w) with
  | some x => [s.warpCtx x]
  | none =>
    ((s.colls.filter fun c => collOwner c.id == w).filterMap fun c => (s.getRegion c.region).map (·.ctx)) ++
      (s.copies.filter fun c => copyOwner c.id == w).map (·.ctx)

/-- A reply for one access of a warp: its value, or MEM_PROTECT deferred to the lane (R391). -/
def laneReply (s : State) (x : Warp) (w id tag lane : Nat) (ok : Bool) (v : DWord) : State :=
  let protect (pc : DWord) (d : BitVec 11) (file : BitVec 3) (t : State) : State :=
    deferTrap t w { cause := 0x11, info := if v == 2 then 0x40 else 0x60, lanes := 1#32 <<< lane, pc := pc, d := d, file := file, tag := tag }
  let give (l : List Outst) : List Outst := l.map fun q => if q.tag == tag then { q with got := q.got ++ [(lane, v)] } else q
  match x.stores.find? fun p => p.tag == tag with
  | some p =>
    let s1 := s.modKept w fun y => { y with stores := y.stores.map fun q =>
      if q.tag == tag then { q with remote := q.remote.filter fun k => k != id } else q }
    if ok then s1 else protect p.pc p.d 0 s1
  | none =>
    match x.outs.find? fun o => o.tag == tag with
    | some o => if ok then s.modWarp w fun y => { y with outs := give y.outs } else protect o.pc o.d o.file s
    | none =>
      if ok then s.modKept w fun y => { y with reads := give y.reads }
      else match x.reads.find? fun o => o.tag == tag with
        | some o => protect o.pc o.d o.file s
        | none => s

/-- A reply reaches what waits for it; a write-back that its home refuses ends its contexts. DESIGN CHOICE (log entry 90). -/
def takeReply (s : State) (id : Nat) (ok : Bool) (v : DWord) : State :=
  match s.unacked.find? fun u => u.1 == id with
  | none => takeCopyReply s id ok v
  | some (_, w, tag, lane) =>
    let s1 := { s with unacked := s.unacked.filter fun u => u.1 != id }
    if !ok && (v == 1 || w == backOwner) then (ownerCtxs s w tag).foldl containCtx s1
    else if ownEngine w then { s1 with farLines := s1.farLines.map fun x => if farOwner x.die == w && x.line == lane then { x with renewing := false } else x }
    else if unitTag tag then { s1 with fetchBuf := s1.fetchBuf ++ [(w, lane, if ok then unitCode tag else 1, v)] }
    else match keptWarp s1 w with
    | none => s1
    | some x => laneReply s1 x w id tag lane ok v

/-- The units of 8 bytes of some bytes from an address. -/
def dwordsOf (va : Nat) (bs : List Byte) : List (Nat × DWord) :=
  (List.range (bs.length / 8)).map fun k => (va + 8 * k, BitVec.ofNat 64 (leNat ((bs.drop (8 * k)).take 8)))

/-- A piece of a line reaches the owner that asked for it, whole, in the place of what it had of these bytes. -/
def takePiece (s : State) (id w tag va : Nat) (bs : List Byte) : State :=
  let us := dwordsOf va bs
  { s with
    unacked := s.unacked.filter fun u => u.1 != id
    fetchBuf := (s.fetchBuf.filter fun e => !(e.1 == w && us.any fun u => u.1 == e.2.1)) ++ us.map fun u => (w, u.1, unitCode tag, u.2) }

/-- A source unit reaches the copy that asked for it, whole (R231). -/
def takeParts (s : State) (id : Nat) (bs : List Byte) : State :=
  { s with copies := s.copies.map fun c =>
      match c.asks.find? fun a => a.1 == id with
      | some a => { c with asks := c.asks.filter (fun k => k.1 != id), parts := c.parts ++ (dwordsOf 0 bs).map fun u => (a.2.1, u.1 / 8, u.2) }
      | none => c }

/-- A line reaches the die that asked for it: with a lease a copy of it is kept, and a warp's access has its value (R388). -/
def takeLine (s : State) (src id asid : Nat) (va : DWord) (bs : List Byte) (lease : Option (DWord × Nat)) : State :=
  match s.unacked.find? fun u => u.1 == id with
  | none => takeParts s id bs
  | some (_, w, tag, lane) =>
    if unitTag tag ∧ ownEngine w = false then takePiece s id w tag lane bs
    else
    let die := if ownEngine w then w - farOwner 0 else ((s.getWarp w).map fun x => (s.warpCore x).die).getD 0
    let e := leafNow s die asid va.toNat
    let at_ : Nat := if bitAt e 6 then 0 else asid
    let s0 := { s with
      unacked := s.unacked.filter fun u => u.1 != id
      farLines := s.farLines.map fun x => if x.die == die && x.line == lineOf va then { x with renewing := false } else x }
    let s1 := match lease with
      | some l =>
        let ctx := match s0.getWarp w with
          | some x => s0.warpCtx x
          | none => ((s0.regions.find? fun r => r.status == 0 && r.asid.toNat == asid).map (·.ctx)).getD 0
        farKeep s0 { die := die, asid := at_, line := lineOf va, pkg := src, expiry := l.1, len := l.2, user := bitAt e 3, bytes := bs } (waysFor s0 ctx)
      | none => s0
    match keptWarp s1 w with
    | some x => laneReply s1 x w id tag lane true (BitVec.ofNat 64 (leNat ((bs.drop (va.toNat % 128)).take 8)))
    | none => s1

/-- Another package's write to a line: every copy of it here is made absent, and the home is told so (R389). -/
def takeInval (s : State) (src asid : Nat) (va : DWord) : State :=
  sendBack ((List.range 16).foldl (fun acc d => farDrop acc d asid (lineOf va)) s) src asid va.toNat (.invalAck s.dev src asid va)

/-! ## Collective ends (R481, R482) -/

def modColl (s : State) (id : Nat) (f : Coll → Coll) : State := { s with colls := updAt (fun c => c.id == id) f s.colls }
def getColl (s : State) (id : Nat) : Option Coll := s.colls.find? fun c => c.id == id

/-- A collective given its final status: STATUS, INFO and the removed package. -/
def finishColl (s : State) (id code info : Nat) (lost : Option Nat) : State :=
  modColl s id fun c => if c.fin.isSome then c else { c with fin := some (code, info, lost), waitBar := none, awaits := none }

/-- The step that runs is complete (R479); a pending freeze takes effect at the boundary (R484). -/
def stepDone (s : State) (id : Nat) : State :=
  modColl s id fun c =>
    let d := { c with step := c.step + 1, started := false, pendingU := [], waitBar := none, awaits := none }
    if d.fin.isSome then d
    else if c.freezing.isSome && decide (d.step < d.steps.length) then
      { d with fin := some (if d.freeze == 0 then 3 else 2, 1, none), frozeAt := s.clock }
    else if d.steps.length ≤ d.step then { d with fin := some (1, 0, none) }
    else d

/-- A unit acknowledged (R480, R490); a SENDQ is complete with its last unit, a SEND step too. -/
def takeUnitAck (s : State) (id : Nat) (ok : Bool) (info : Nat) : State :=
  match s.colls.find? fun c => c.pendingU.any fun u => u.1 == id with
  | none => s
  | some c =>
    if !ok then finishColl s c.id 3 info none
    else
      let s1 := modColl s c.id fun x => { x with pendingU := x.pendingU.filter fun u => u.1 != id }
      match getColl s1 c.id with
      | some x =>
        if !x.pendingU.isEmpty then s1
        else if x.what == 1 then finishColl s1 c.id 1 0 none else stepDone s1 c.id
      | none => s1

/-- A REDUCE answered (R480): applied, or ended with an INFO of R482. -/
def takeReduceAck (s : State) (cid : DWord) (step : Nat) (info : Nat) : State :=
  match s.colls.find? fun c => c.cid == cid && c.step == step && c.awaits.isSome && c.what == 0 with
  | none => s
  | some c => if info = 0 then stepDone s c.id else finishColl s c.id 3 info none

/-- A unit written at its destination (R480, R490). -/
def performUnit (s0 : State) (src id asid : Nat) (user coll : Bool) (va : DWord) (bs : List Byte) : Option State :=
  let r := translateHome s0 asid user .write va
  let s := r.2
  let back (ok : Bool) (info : Nat) : State := sendBack s src asid va.toNat (.unitAck s.dev src id ok info asid va)
  match r.1 with
  | .mem pa kind _ =>
    if homeDead s pa then some (back false (if coll then 5 else 0x60))
    else if kind == 3 || kind == 5 || wortHomeHit s asid va.toNat bs.length then some (back false (if coll then 3 else 0x60))
    else if !engineReady s asid va.toNat pa then none
    else
      let s1 := engineStore s asid va pa bs
      some (sendBack s1 src asid va.toNat (.unitAck s.dev src id true 0 asid va))
  | _ => some (back false (if coll then 3 else 0x60))

/-! ## REDUCE at the receiver (R480) -/

/-- One line of a REDUCE rounded onto the receiver's grid. -/
def reduceLine (ctx region line : Nat) (sr ss : BitVec 8) (x : List DWord × Nat × Bool) : LineAdd :=
  let rs := x.1.map fun g => roundToGrid sr.toInt (.fin (decide (g.toInt < 0)) g.toInt.natAbs (ss.toInt - 48))
  { ctx := ctx, region := region, line := line, g := rs.map fun r => BitVec.ofInt 64 r.1,
    clip := x.2.2 || rs.any (·.2), pitch := x.2.1 }

/-- The lines of a REDUCE on the receiver's grid. -/
def reduceAdds (x : Wort) (ctx region first scale : Nat) (lines : List (List DWord × Nat × Bool)) : List LineAdd :=
  (List.range lines.length).map fun i => reduceLine ctx region (first + i) x.scale (BitVec.ofNat 8 scale) ((lines[i]?).getD ([], 0, false))

/-- A REDUCE that waits for a sealed frame (R395). -/
def reduceWaits (s : State) (m : FabMsg) : Bool :=
  match m with
  | .reduce _ _ _ _ ctx region first scale _ _ lines =>
    (match (s.ctxRegion ctx).bind fun r => wortOf r region with
     | some x => (reduceAdds x ctx region first scale lines).any (addWaits s)
     | none => false)
  | _ => false

/-- A whole REDUCE step applied, refused, or discarded as a repeat; a line whose translation fails ends it by containment (R349). -/
def reduceApply (s : State) (m : FabMsg) : State :=
  match m with
  | .reduce src dst cid step ctx region first scale _ _ lines =>
    if dst ≠ s.dev then s
    else
      let line : Nat × DWord := ((s.ctxRegion ctx).bind fun r => (wortOf r region).map fun x => (r.asid.toNat, wortLineVa x first)).getD (0, 0)
      let back (t : State) (info : Nat) : State := sendBack t src line.1 line.2.toNat (.reduceAck s.dev src cid step info line.1 line.2)
      if s.applied.contains (src, cid, step) then back s 0
      else match (s.ctxRegion ctx).bind fun r => wortOf r region with
        | some x =>
          if x.st != .opened || x.scope != .sys || x.lines < first + lines.length then back s 3
          else
            let adds := reduceAdds x ctx region first scale lines
            if adds.any fun a => (applyAdd s a).isNone then back (containCtx s ctx) 5
            else
            let s1 := adds.foldl (fun acc a => (applyAdd acc a).getD acc) s
            let mine := (s1.applied.filter fun a => a.1 == src) ++ [(src, cid, step)]
            let keep := mine.drop (mine.length - 64)
            back { s1 with applied := (s1.applied.filter fun a => a.1 != src) ++ keep } 0
        | none => back s 3
  | _ => s

/-- The messages of one REDUCE step: sender, collective and step. -/
def sameReduce (a b : FabMsg) : Bool :=
  match a, b with
  | .reduce src _ cid step .., .reduce src' _ cid' step' .. => src == src' && cid == cid' && step == step'
  | _, _ => false

/-- The whole step that a message completes, from the messages staged before it; none while one is missing (R480). -/
def reduceWhole (s : State) (m : FabMsg) : Option FabMsg :=
  match m with
  | .reduce src dst cid step ctx region first scale off total _ =>
    let ps := (m :: s.staged.filter (sameReduce m)).filterMap fun k => match k with | .reduce _ _ _ _ _ _ _ _ o _ ls => some (o, ls) | _ => none
    let at_ (i : Nat) : Option (List DWord × Nat × Bool) := ps.findSome? fun p => if p.1 ≤ i then p.2[i - p.1]? else none
    let all := (List.range total).filterMap at_
    if all.length = total then some (.reduce src dst cid step ctx region (first - off) scale 0 total all) else none
  | _ => none

/-- A message of a REDUCE step staged, or the whole step applied with its last one; none while it must wait (R395, R480). -/
def takeReduce (s : State) (m : FabMsg) : Option State :=
  match reduceWhole s m with
  | none => some { s with staged := s.staged ++ [m] }
  | some k => if reduceWaits s k then none else some (reduceApply { s with staged := s.staged.filter fun x => !sameReduce m x } k)

/-! ## Fabric barriers (R475 to R477) -/

/-- STATE of a barrier object read at its coordinator, with the two bitmaps as numbers. -/
def barObj (s : State) (asid : Nat) (obj : DWord) : Nat × Nat × Nat :=
  (leNat (readVa s asid obj.toNat 8), leNat (readVa s asid (obj.toNat + 0x40) 512), leNat (readVa s asid (obj.toNat + 0x240) 512))

/-- The messages of the ports of a mask go to the holding queue, ahead of newer ones. -/
def holdPorts (s : State) (mask : BitVec 16) : State :=
  let held := (List.range 16).flatMap fun p => if mask.getLsbD p then (s.port p).queue else []
  { s with holding := held ++ s.holding, ports := s.ports.mapIdx fun p x => if mask.getLsbD p then { x with queue := [] } else x }

/-- A barrier phase answered at this package: every step that waits on the object goes on, or ends PEER_LOST; an RTSW begins its
fence (R493). -/
def barAnswer (s : State) (asid : Nat) (obj : DWord) (lost : Option Nat) : State :=
  (s.colls.filter fun c => c.waitBar == some obj && c.asid.toNat == asid).foldl (fun acc c =>
    match lost with
    | some p => finishColl acc c.id 3 6 (some p)
    | none =>
      if c.what == 2 then modColl { holdPorts acc 0xFFFF with fencing := true } c.id fun x => { x with step := 1, waitBar := none }
      else stepDone acc c.id) s

/-- An answer to one package: here, or by message. -/
def barTell (s : State) (asid : Nat) (obj : DWord) (lost : Option Nat) (pkg : Nat) : State :=
  if pkg = s.dev then barAnswer s asid obj lost else sendBack s pkg asid obj.toNat (.barRelease s.dev pkg obj lost asid)

def barWaiters (s : State) (asid : Nat) (obj : DWord) : List Nat :=
  ((s.barWait.find? fun b => b.1 == asid && b.2.1 == obj).map (·.2.2)).getD []
def setWaiters (s : State) (asid : Nat) (obj : DWord) (l : List Nat) : State :=
  { s with barWait := putAt (fun b => b.1 == asid && b.2.1 == obj) (asid, obj, l) s.barWait }

/-- The phase released when every participant has arrived (R476). -/
def barRelease (s : State) (asid : Nat) (obj : DWord) : State :=
  let o := barObj s asid obj
  if o.2.1 &&& o.2.2 == o.2.1 then
    let st := setBitsAt (setBitsAt o.1 0 32 ((bitsAt o.1 0 32 + 1) % 2 ^ 32)) 32 16 0
    let s1 := writeVa (writeVa s asid obj.toNat (leBytes 8 st)) asid (obj.toNat + 0x240) (leBytes 512 0)
    let ws := barWaiters s1 asid obj
    ws.foldl (fun acc p => barTell acc asid obj none p) (setWaiters s1 asid obj [])
  else s

/-- A participant removed from a barrier that is coordinated here (R477). -/
def barRemove (s : State) (pkg asid : Nat) (obj : DWord) : State :=
  let o := barObj s asid obj
  if !bitAt o.2.1 pkg then s
  else if bitAt o.1 50 then
    let arr := bitsAt o.1 32 16 - (bitAt o.2.2 pkg).toNat
    let s1 := writeVa s asid obj.toNat (leBytes 8 (setBitsAt (setBitsAt o.1 48 2 2) 32 16 arr))
    let s2 := writeVa s1 asid (obj.toNat + 0x40) (leBytes 512 (setBitsAt o.2.1 pkg 1 0))
    let s3 := writeVa s2 asid (obj.toNat + 0x240) (leBytes 512 (setBitsAt o.2.2 pkg 1 0))
    barRelease (setWaiters s3 asid obj ((barWaiters s3 asid obj).filter (· != pkg))) asid obj
  else
    let s1 := writeVa s asid obj.toNat (leBytes 8 (setBitsAt o.1 48 2 1))
    (barWaiters s1 asid obj).foldl (fun acc p => barTell acc asid obj (some pkg) p) (setWaiters s1 asid obj [])

/-- Participants of a barrier that are dead, or that no path of the installed table reaches (R477). -/
def barGone (s : State) (asid : Nat) (obj : DWord) : List Nat :=
  let o := barObj s asid obj
  (List.range 4096).filter fun p =>
    bitAt o.2.1 p && p != s.dev && (s.deadPkgs.contains p || !tableReaches s p asid obj.toNat)

/-- An arrival at the coordinator (R476), after the removal of participants that are gone (R477). -/
def barArrive (s0 : State) (pkg asid : Nat) (obj : DWord) : State :=
  let gone := barGone s0 asid obj
  let s := gone.foldl (fun acc p => barRemove acc p asid obj) s0
  let o := barObj s asid obj
  if bitsAt o.1 48 2 = 1 ∨ !bitAt o.2.1 pkg then barTell s asid obj (some (gone.head?.getD 0xFFF)) pkg
  else
    let dup := bitAt o.2.2 pkg
    let s1 := if dup then s
      else writeVa (writeVa s asid obj.toNat (leBytes 8 (setBitsAt o.1 32 16 ((bitsAt o.1 32 16 + 1) % 2 ^ 16)))) asid
        (obj.toNat + 0x240) (leBytes 512 (o.2.2 + 2 ^ pkg))
    let ws := barWaiters s1 asid obj
    barRelease (setWaiters s1 asid obj (if ws.contains pkg then ws else ws ++ [pkg])) asid obj

/-- The barriers that are known at this coordinator. -/
def barObjects (s : State) : List (Nat × DWord) := s.barWait.map fun b => (b.1, b.2.1)

/-! ## Receiving (R467 to R471) -/

def msgDst : FabMsg → Nat
  | .request _ d .. => d | .reply _ d .. => d | .unit _ d .. => d | .unitAck _ d .. => d | .reduce _ d .. => d
  | .reduceAck _ d .. => d | .barArrive _ d .. => d | .barRelease _ d .. => d | .lineReply _ d .. => d | .inval _ d .. => d
  | .invalAck _ d .. => d | .unitRefused _ d .. => d

/-- A message kept with a port until it can be performed or sent on. -/
def keepMsg (s : State) (port : Nat) (m : FabMsg) : State := s.modPort port fun p => { p with relay := p.relay ++ [m] }

/-- The access that a message makes here: source, ASID and line. -/
def msgAccess (m : FabMsg) : Option (Nat × Nat × Nat) :=
  match m with
  | .request src _ _ asid _ va _ => some (src, asid, lineOf va)
  | .unit src _ _ asid _ _ va _ => some (src, asid, lineOf va)
  | _ => none

/-- Some kept messages hold an access of a message's source to its line, which it may not pass (R391, R395). -/
def heldBy (s : State) (m : FabMsg) (ks : List FabMsg) : Bool :=
  (msgAccess m).isSome && ks.any fun k => msgDst k == s.dev && msgAccess k == msgAccess m

/-- The port with which an earlier access of the same source to the same line is kept. -/
def keptAt (s : State) (m : FabMsg) : Option Nat := s.ports.findIdx? fun p => heldBy s m p.relay

/-- A SENDQ unit that a relay has refused stands in its direct path's queue again, and diverts no more (R471). -/
def unitRefused (s : State) (id : Nat) : State :=
  match s.sent.find? fun x => match x.2 with | .unit _ _ k .. => k == id | _ => false with
  | some (_, .unit src dst k asid user coll va bs) =>
    (match portsTo s dst with
     | [] => s
     | ps => enqueue s ((ps[pathHash va.toNat asid s.seed % ps.length]?).getD 0) dst (.unit src dst k asid user coll va bs) none)
  | _ => s

/-- A message for this package performed; none while its write must wait at its home (R389, R395). -/
def performMsg (s : State) (m : FabMsg) : Option State :=
  match m with
  | .request src _ id asid user va op => performRequest s src id asid user va op
  | .reply _ _ id ok v _ _ => some (takeReply s id ok v)
  | .lineReply src _ id asid va bs lease => some (takeLine s src id asid va bs lease)
  | .inval src _ asid va => some (takeInval s src asid va)
  | .invalAck src _ asid va => some (ackHolder s (16 + src) asid (lineOf va))
  | .unit src _ id asid user coll va bs => performUnit s src id asid user coll va bs
  | .unitAck _ _ id ok info _ _ => some (takeUnitAck s id ok info)
  | .reduce .. => takeReduce s m
  | .reduceAck _ _ cid step info _ _ => some (takeReduceAck s cid step info)
  | .barArrive src _ asid obj => some (barArrive s src asid obj)
  | .barRelease _ _ obj lost asid => some (barAnswer s asid obj lost)
  | .unitRefused _ _ id _ _ => some (unitRefused s id)

/-- What a message that must wait tells the holders of its line. -/
def announceMsg (s : State) (m : FabMsg) : State :=
  match m with
  | .request _ _ _ asid user va _ => announceFar s asid user va
  | .unit _ _ _ asid user _ va _ => announceFar s asid user va
  | _ => s

/-- The relay buffer of a port has room for one more message. -/
def relayHolds (s : State) (port : Nat) (m : FabMsg) : Bool :=
  let kept := (s.port port).relay.filter fun k => msgDst k != s.dev
  decide (kept.foldl (fun n k => n + msgBytes k) (msgBytes m) ≤ relayRoom)

/-- A message delivered by a port: performed here, or kept for its next hop; one whose write must wait is kept too (R389). A relay
whose buffer is full refuses a SENDQ unit, which its sender takes back (R471). -/
def receiveMsg (s : State) (port : Nat) (m : FabMsg) : State :=
  if msgDst m ≠ s.dev then
    (match m with
     | .unit src _ id asid _ _ va _ => if relayHolds s port m then keepMsg s port m else sendBack s src asid va.toNat (.unitRefused s.dev src id asid va)
     | _ => keepMsg s port m)
  else match keptAt s m with
  | some q => keepMsg s q m
  | none => (performMsg s m).getD (keepMsg (announceMsg s m) port m)

/-- The line by which a relay chooses the next hop of a message. -/
def msgLine : FabMsg → Nat × Nat
  | .request _ _ _ asid _ va _ => (asid, va.toNat)
  | .unit _ _ _ asid _ _ va _ => (asid, va.toNat)
  | .reply _ _ _ _ _ asid va => (asid, va.toNat)
  | .lineReply _ _ _ asid va .. => (asid, va.toNat)
  | .inval _ _ asid va => (asid, va.toNat)
  | .invalAck _ _ asid va => (asid, va.toNat)
  | .unitAck _ _ _ _ _ asid va => (asid, va.toNat)
  | .reduceAck _ _ _ _ _ asid va => (asid, va.toNat)
  | .barArrive _ _ asid obj => (asid, obj.toNat)
  | .barRelease _ _ obj _ asid => (asid, obj.toNat)
  | .unitRefused _ _ _ asid va => (asid, va.toNat)
  | .reduce .. => (0, 0)

/-- A kept message performed, unless it waits or stands behind an earlier access to its line; or sent on with the relay's own choice of
path, in arrival order (R467, R468, R471). -/
def relayOn (s : State) (port n : Nat) : State :=
  match (s.port port).relay[n]? with
  | none => s
  | some m =>
    let s1 := s.modPort port fun p => { p with relay := p.relay.eraseIdx n }
    let l := msgLine m
    if msgDst m = s.dev then
      (if heldBy s m ((s.port port).relay.take n) then s else (performMsg s1 m).getD (announceMsg s m))
    else if ((s.port port).relay.take n).any fun k => msgDst k != s.dev then s
    else match sendFor s1 (msgDst m) l.1 l.2 m none with
    | some t => t
    | none =>
      match m with
      | .request src _ id asid _ va _ => sendBack s1 src asid va.toNat (.reply s.dev src id false 1 asid va)
      | .unit src _ id asid _ _ va _ => sendBack s1 src asid va.toNat (.unitAck s.dev src id false 2 asid va)
      | _ => s1

end Sys2Proof.Machine
end

