-- ==== Sys2Proof/Machine/Perform.lean ====
section
/-! DEFINITION. How the reads, atomics and stores of a warp are performed, lane by lane and in warp order (R206, R213, R214,
R331, R333), with the failures that are found only then (R92, R204). -/

namespace Sys2Proof.Machine

/-! ## Ranges of pending stores (R331) -/

/-- Two ranges share a byte. -/
def meets (a n b m : Nat) : Bool := decide (a < b + m) && decide (b < a + n)

/-- Whether a pending store of a warp writes into a scratch place. -/
def storeHitsScratch (s : State) (g : Workgroup) (p : PStore) (q : SPlace) (n : Nat) : Bool :=
  let hit (off m : Nat) : Bool :=
    match scratchPlace s g off m, q with
    | some (.bank a x), .bank b y => a == b && meets x m y n
    | some (.cask _ x), .cask _ y => meets x m y n
    | _, _ => false
  match p.op with
  | .write .scratch items => items.any fun i => hit i.2.1.toNat i.2.2.length
  | .red true t _ items => items.any fun i => hit i.2.1.toNat (ITy.bits t / 8)
  | .redf true _ _ items => items.any fun i => hit i.2.1.toNat 4
  | _ => false

/-- Whether a pending store of a warp writes into a global range: an item that has not left, or one on its way (R331). -/
def storeHitsGlobal (p : PStore) (va n : Nat) : Bool :=
  (p.flown.any fun i => meets i.1 i.2 va n) || match p.op with
  | .write .scratch _ => false
  | .write _ items => items.any fun i => meets i.2.1.toNat i.2.2.length va n
  | .red false t _ items => items.any fun i => meets i.2.1.toNat (ITy.bits t / 8) va n
  | .redf false _ _ items => items.any fun i => meets i.2.1.toNat 4 va n
  | .marv _ items => items.any fun i => meets i.2.toNat 8 va n
  | .tsig _ items => items.any fun i => meets i.2.1.toNat 4 va n
  | _ => false

/-- Stores of a warp, in warp order, older than an issue tag; scatters take no place in it (R333). -/
def olderStores (w : Warp) (tag : Nat) : List PStore := w.stores.filter fun p => decide (p.tag < tag) && p.ctr == .st

/-! ## One lane of a read -/

def mapGot {α β : Type} (f : α → β) : Got α → Got β
  | .done a => .done (f a)
  | .wait => .wait
  | .far k => .far k
  | .fault l => .fault l
  | .deny i => .deny i
  | .err => .err

/-- A read that allocates nothing in L1 (`.na`, GATH): a line already there still serves it, since hints never change a value
(R204, R206, R236). DEDUCED (log entry 24). -/
def readApart (s : State) (a : Acc) (ctrl : Bool) (va : DWord) (n : Nat) : Got (List Byte) × State :=
  let here := (ncGet (s.getCore a.core) a.asid (lineOf va)).isSome || (l1Get s a.core a.asid (lineOf va)).isSome
  let page := match walkNow s a.core a.asid a.user .read va with | .ctrl _ => ctrl | _ => false
  if here || page then readGlobal s a va n else readHome s a va n

/-- A read that a control page refuses: every one but a load (R270). -/
def readPlain (s : State) (a : Acc) (va : DWord) (n : Nat) : Got (List Byte) × State :=
  match walkNow s a.core a.asid a.user .read va with
  | .ctrl _ => (.deny 0, s)
  | _ => readGlobal s a va n

/-- The bytes of one lane's load (R206, R207, R208, R236); a gather waits for every older store (R338), and
a load of a line for a refused store to it (R395). -/
def laneBytes (s : State) (w : Warp) (asid tag : Nat) (sp : Space) (va : DWord) (n : Nat) : Got (List Byte) × State :=
  let a := accOf s w asid
  match sp with
  | .scratch =>
    match s.warpWg w with
    | none => (.wait, s)
    | some g =>
      match scratchPlace s g va.toNat n with
      | none => (.deny 0, s)
      | some p =>
        if splaceBusy s a.core p n || (olderStores w tag).any fun q => storeHitsScratch s g q p n then (.wait, s)
        else let r := splaceRead s p n; (.done r.1, r.2)
  | sp =>
    if (olderStores w tag).any fun q => sp == .gather || storeHitsGlobal q va.toNat n ||
        (q.retryAt.isSome && storeHitsGlobal q (va.toNat / 128 * 128) 128) then (.wait, s)
    else match sp with
    | .early => readGlobal s { a with early := true } va n
    | .gather => readApart s a false va n
    | .home => readApart s a true va n
    | .kiln => readKiln s a (s.warpEff w).kilnMib va n
    | .param => readParam s a va n
    | _ => readGlobal s a va n

/-- A request of a lane for another package sent, unless it is on its way or answered (R391, R467). -/
def askFar (s : State) (w : Warp) (o : Outst) (l pkg : Nat) (va : DWord) (op : RemoteOp) : Got DWord × State :=
  match o.got.find? fun g => g.1 == l with
  | some g => (.done g.2, s)
  | none =>
    if s.unacked.any fun u => u.2.1 == w.id && u.2.2.1 == o.tag && u.2.2.2 == l then (.wait, s)
    else
      let id := s.nextId
      match sendFor { s with nextId := id + 1 } pkg o.asid va.toNat (.request s.dev pkg id o.asid (s.warpUser w) va op) none with
      | some t => (.wait, { t with unacked := t.unacked ++ [(id, w.id, o.tag, l)] })
      | none => (.deny 0xFFFF, s)

/-- Those of a warp. -/
def askUnits (s : State) (w : Warp) (pkg va n : Nat) : State := askUnitsOf s w.id (s.warpAsid w) (s.warpUser w) pkg va n

/-- The requests for the block of an instruction; a dead package ends the context (R487). -/
def askFetch (s : State) (w : Warp) (pc : DWord) : State :=
  match walkNow s (s.warpCore w) (s.warpAsid w) (s.warpUser w) .fetch (BitVec.ofNat 64 (blockOf pc)) with
  | .far pkg _ => if s.deadPkgs.contains pkg then containCtx s (s.warpCtx w) else askUnitsOf s (fetchOwner w.id) (s.warpAsid w) (s.warpUser w) pkg (blockOf pc) 4
  | _ => s

/-- RESERVED_OPCODE_FETCH (R44, R46, R58, R61, R101): a fetch that finds no instruction takes its trap for the whole run
before anything issues, or its page fault. -/
def execReservedOpcodeFetch (s : State) : Out :=
  match s.getWarp s.cur with
  | none => happens s
  | some w =>
    if headRun w == 0 || w.blocked then happens s
    else
      let r := fetchAt s w
      let pc := headPc w
      match r.1 with
      | .trap cause info d len =>
        let t : Trap := { cause := cause, info := info, lanes := headRun w, pc := pc, d := d }
        happens (if cause == 0x29 then deferTrap r.2 w.id t
          else takeTrap r.2 w.id t fun _ y => y.pc + BitVec.ofNat 64 len)
      | .fault level => happens (pageFaultLanes r.2 w.id 0 (headRun w) 3 pc level (s.warpAsid w))
      | .wait => happens (askFetch r.2 w pc)
      | .err => happens (containCtx r.2 (r.2.warpCtx w))
      | _ => happens r.2

/-- Where an integer or float atomic of a global address is performed: the bytes there, and how they are replaced. -/
def atomGlobal (s : State) (a : Acc) (va : DWord) (op : RemoteOp) : Got DWord × State :=
  let n := remoteWidth op
  let r := writePlace s a va n
  match r.1 with
  | .done (.own pa) =>
    let old := r.2.loadNat pa n
    (.done (BitVec.ofNat 64 old), storeAt r.2 a.asid va pa (remoteNew op old))
  | .done (.side pa) =>
    if !remoteAllowed op 2 then (.deny 0, r.2)
    else if !engineReady r.2 a.asid va.toNat pa then (.wait, announceWrite r.2 pa a.asid (lineOf va))
    else
      let old := r.2.loadNat pa n
      (.done (BitVec.ofNat 64 old), engineStore r.2 a.asid va pa (remoteNew op old))
  | .done (.window _ _) => (.deny 0x30, r.2)
  | .done _ => (.deny 0, r.2)
  | .wait => (.wait, r.2)
  | .far k => (.far k, r.2)
  | .fault l => (.fault l, r.2)
  | .deny i => (.deny i, r.2)
  | .err => (.err, r.2)

/-- An atomic in scratch space, performed in its bank or slice (R213, R275, R277). -/
def atomScratch (s : State) (w : Warp) (off : Nat) (op : RemoteOp) : Got DWord × State :=
  let n := remoteWidth op
  match s.warpWg w with
  | none => (.wait, s)
  | some g =>
    match scratchPlace s g off n with
    | none => (.deny 0, s)
    | some p =>
      if splaceBusy s (s.warpCore w) p n then (.wait, s)
      else
        let r := splaceRead s p n
        let old := leNat r.1
        (.done (BitVec.ofNat 64 old), splaceWrite r.2 p (remoteNew op old))

/-- Result words of a loaded or returned value. -/
def wordsOf (wide : Bool) (v : Nat) : List Word :=
  if wide then [BitVec.ofNat 32 v, BitVec.ofNat 32 (v / 2 ^ 32)] else [BitVec.ofNat 32 v]

/-- The operation an atomic result stands for. -/
def atomOp (t : ITy) (op : Nat) (b c : DWord) : RemoteOp := .atom op (ITy.bits t == 64) (ITy.signed t) b c

/-- A request for another package, or the value that it has returned. -/
def farValue (r : Got DWord × State) (w : Warp) (o : Outst) (l : Nat) (va : DWord) (op : RemoteOp) : Got DWord × State :=
  match r.1 with
  | .far k => askFar r.2 w o l k va op
  | _ => r

/-- How a load asks another package: for the whole line, which a remote-data copy can hold, or for its bytes alone. -/
def farLoad (s : State) (w : Warp) (asid : Nat) (sp : Space) (va : DWord) (n : Nat) : RemoteOp :=
  if (sp == .global || sp == .early) && farCached s (accOf s w asid) va then .line else .read n

/-- A load's bytes as one value, from this package or another; on the kiln path the sector is asked for (R188). -/
def loadValue (s : State) (w : Warp) (o : Outst) (l : Nat) (sp : Space) (va : DWord) (n : Nat) (r : Got (List Byte) × State) : Got DWord × State :=
  let v := (mapGot (fun bs => BitVec.ofNat 64 (leNat bs)) r.1, r.2)
  match v.1 with
  | .far k =>
    if sp == .kiln && kilnFar s (accOf s w o.asid) (s.warpEff w).kilnMib va then
      (.wait, askUnitsOf v.2 w.id o.asid (s.warpUser w) k (va.toNat / 1024 * 1024) 128)
    else farValue v w o l va (farLoad s w o.asid sp va n)
  | _ => v

/-- The address of a lane in an entry. -/
def readAddr (o : Outst) (l : Nat) : DWord :=
  match o.res with
  | .load _ _ addrs => ((addrs.find? fun a => a.1 == l).map (·.2)).getD 0
  | .ldq _ _ addrs _ => ((addrs.find? fun a => a.1 == l).map (·.2)).getD 0
  | .atom _ _ _ items => ((items.find? fun a => a.1 == l).map (·.2.1)).getD 0
  | .atomf _ _ _ items => ((items.find? fun a => a.1 == l).map (·.2.1)).getD 0
  | .watch _ _ va => va
  | _ => 0

/-- The value of one or two result words. -/
def wordsVal (ws : List Word) : DWord := ((ws[1]?).getD 0) ++ ((ws[0]?).getD 0)

/-- One lane of a read performed: the words it returns (R206, R211, R212). -/
def readLane (s : State) (w : Warp) (o : Outst) (l : Nat) : Got (List Word) × State :=
  match o.res with
  | .load sp sz addrs =>
    let va := ((addrs.find? fun a => a.1 == l).map (·.2)).getD 0
    let r := laneBytes s w o.asid o.tag sp va (Sz.bytes sz)
    let v := loadValue s w o l sp va (Sz.bytes sz) r
    (mapGot (fun x => extendLoad sz x.toNat) v.1, v.2)
  | .ldq sp _ addrs _ =>
    let va := ((addrs.find? fun a => a.1 == l).map (·.2)).getD 0
    let r := match walkNow s (s.warpCore w) o.asid (s.warpUser w) .read va, sp with
      | .ctrl _, .global => ((.deny 0 : Got (List Byte)), s)
      | _, _ => laneBytes s w o.asid o.tag sp va 4
    let v := loadValue s w o l sp va 4 r
    (mapGot (fun x => [x.setWidth 32]) v.1, v.2)
  | .atom scr t op items =>
    match items.find? fun i => i.1 == l, o.got.find? fun g => g.1 == l with
    | none, _ => (.done [], s)
    | some _, some g => (.done (wordsOf (ITy.bits t == 64) g.2.toNat), s)
    | some (_, va, b, c), none =>
      let rop := atomOp t op b c
      let r := if scr then atomScratch s w va.toNat rop else farValue (atomGlobal s (accOf s w o.asid) va rop) w o l va rop
      (mapGot (fun x => wordsOf (ITy.bits t == 64) x.toNat) r.1, r.2)
  | .atomf scr p op items =>
    match items.find? fun i => i.1 == l, o.got.find? fun g => g.1 == l with
    | none, _ => (.done [], s)
    | some _, some g => (.done (wordsOf false g.2.toNat), s)
    | some (_, va, b), none =>
      let rop : RemoteOp := .atomf (faopCode op) (ftyCode p) b
      let r := if scr then atomScratch s w va.toNat rop else farValue (atomGlobal s (accOf s w o.asid) va rop) w o l va rop
      (mapGot (fun x => wordsOf false x.toNat) r.1, r.2)
  | .watch arm _ va =>
    let h := readPlain s (accOf s w o.asid) va 1
    let r := farValue (mapGot (fun _ => (0 : DWord)) h.1, h.2) w o l va (farLoad s w o.asid .global va 1)
    match r.1 with
    | .done _ =>
      let c := r.2.warpCore w
      let far := (farGet r.2 c.die o.asid (lineOf va)).isSome
      let tracked := (far || (l1Get r.2 c o.asid (lineOf va)).isSome) && !wortLineHit r.2 o.asid va.toNat 1
      let window := match l1Get r.2 c o.asid (lineOf va) with | some ln => ln.kind == 5 | none => far && farKind r.2 c.die o.asid va.toNat == 5
      let t := if tracked && !window then r.2
        else r.2.modWarp w.id fun x => { x with arms := x.arms.modify arm fun a => { a with fired := true } }
      (.done [], t)
    | g => (mapGot (fun _ => []) g, r.2)
  | _ => (.wait, s)

/-! ## Whole reads in warp order (R333) -/

/-- A result that still has to be read from memory. -/
def isRead : Result → Bool
  | .load .. => true
  | .atom .. => true
  | .atomf .. => true
  | .ldq _ _ addrs got => decide (got.length < addrs.length)
  | .watch .. => true
  | _ => false

def isAtomic : Result → Bool | .atom .. => true | .atomf .. => true | _ => false

/-- Reads of a warp older than an issue tag that are not yet performed, oldest first; gathers and constant reads take no
place in warp order. -/
def olderReads (w : Warp) (tag : Nat) : List Outst :=
  let free : Result → Bool
    | .load .gather .. => true
    | .load .param .. => true
    | _ => false
  ((w.outs ++ w.reads).filter fun o => decide (o.tag < tag) && isRead o.res && !free o.res)

/-- The entry with an issue tag changed, wherever it stands. -/
def modOut (s : State) (w tag : Nat) (f : Outst → Outst) : State :=
  s.modWarp w fun x => { x with outs := updAt (fun o => o.tag == tag) f x.outs, reads := updAt (fun o => o.tag == tag) f x.reads }

/-- The lanes of an entry read one after another; the words of those that are done. An atomic waits behind a lower lane of the
same address that has not been performed (R213). -/
def readLanes (s : State) (w : Warp) (o : Outst) (stuck : List DWord) : List Nat → List (Nat × List Word) × State
  | [] => ([], s)
  | l :: ls =>
    if isAtomic o.res && stuck.contains (readAddr o l) then readLanes s w o stuck ls
    else
      let r := readLane s w o l
      match r.1 with
      | .done ws => let t := readLanes r.2 w o stuck ls; ((l, ws) :: t.1, t.2)
      | _ => readLanes r.2 w o (readAddr o l :: stuck) ls

/-- Performed atomics keep their values until they are written. -/
def keepDone (s : State) (wid : Nat) (o : Outst) (vals : List (Nat × List Word)) : State :=
  if isAtomic o.res then
    modOut s wid o.tag fun x =>
      { x with got := x.got ++ (vals.filter fun v => !x.got.any fun g => g.1 == v.1).map fun v => (v.1, wordsVal v.2) }
  else s

/-- Atomics need every older store of the warp visible (R333 rule 4). -/
def atomReady (w : Warp) (o : Outst) : Bool := !isAtomic o.res || (olderStores w o.tag).isEmpty

/-- An older read performed whole: its words kept until they are written. False while some lane must wait. -/
def performRead (s : State) (wid : Nat) (o : Outst) : Bool × State :=
  match s.getWarp wid with
  | none => (true, s)
  | some w =>
    if !atomReady w o then (false, s)
    else match o.res with
    | .ldq sp q addrs got =>
      let ls := (lanesOf o.lanes).filter fun l => !(got.any fun g => g.1 == l)
      let r := readLanes s w o [] ls
      let got2 := got ++ r.1.map fun p => (p.1, (p.2.head?).getD 0)
      (r.1.length == ls.length, modOut r.2 wid o.tag fun x => { x with res := .ldq sp q addrs got2 })
    | _ =>
      let ls := lanesOf o.lanes
      let r := readLanes s w o [] ls
      if r.1.length == ls.length then (true, modOut r.2 wid o.tag fun x => { x with res := .values r.1 [] })
      else (false, keepDone (unsettle s r.2) wid o r.1)

/-- The older reads performed in order; false as soon as one must wait. -/
def performOlder (s : State) (wid : Nat) : List Outst → Bool × State
  | [] => (true, s)
  | o :: os =>
    let r := performRead s wid o
    if r.1 then performOlder r.2 wid os else r

/-! ## Failures found late (R92, R204) -/

/-- What one lane's access of an entry meets now, for reporting it. -/
inductive Late where
  | fault (lane : Nat) (va : DWord) (level : Nat)
  | deny (lane : Nat) (info : BitVec 16)
  | err (lane : Nat)
  deriving DecidableEq, Repr

def lateOf {α : Type} (lane : Nat) (va : DWord) (g : Got α) : Option Late :=
  match g with
  | .fault lv => some (.fault lane va lv)
  | .deny i => some (.deny lane i)
  | .err => some (.err lane)
  | _ => none

/-- The late failures of a read. -/
def readLates (s : State) (w : Warp) (o : Outst) : List Late :=
  if isRead o.res then (lanesOf o.lanes).filterMap fun l => lateOf l (readAddr o l) (readLane s w o l).1 else []

/-- Access kind of a read in a fault record (R385). -/
def readKind : Result → Nat
  | .atom .. => 2
  | .atomf .. => 2
  | .load .kiln .. => 4
  | _ => 0

/-! ## Stores (R214, R315, R333) -/

/-- An STW that the kiln takes (R188, R208): into a sector that stands, or into a new one for a coherent page; none where
the store goes elsewhere. -/
def kilnStore (s : State) (a : Acc) (mibs : Nat) (va : DWord) (bs : List Byte) : Option (Got Unit × State) :=
  let off := va.toNat % 1024
  let put (t : State) (x : KSector) : Got Unit × State :=
    (.done (), kTouch t a.core { x with bytes := (List.range bs.length).foldl (fun acc k => setByte acc (off + k) ((bs[k]?).getD 0, true)) x.bytes })
  if mibs = 0 then none
  else if (s.getCore a.core).vbKiln.repairing then some (.wait, s)
  else match kFind (s.getCore a.core) a.asid (va.toNat / 1024) with
  | some x =>
    some (if wortHomeHit s a.asid va.toNat bs.length then (.deny 0x40, s)
      else if x.kind == 5 then (.deny 0x30, s)
      else if (a.user && !x.user) || !x.writable || x.kind == 3 then (.deny 0, s)
      else put s x)
  | none =>
    if wortHomeHit s a.asid va.toNat bs.length then none
    else
      let r := route s a.core a.asid a.user .write va
      match r.1 with
      | some (.mem pa 0 glob) =>
        let e := leafAt r.2 pa a.asid va
        if homeDead s pa then none
        else some (match kMakeRoom r.2 a.core a.ctx mibs with
          | none => (.wait, r.2)
          | some t => put t ⟨if glob then 0 else a.asid, va.toNat / 1024, a.ctx, 0, bitAt e 3, bitAt e 1, .mem (pa - off), a.asid, 0, []⟩)
      | some (.far k _) =>
        let e := leafNow r.2 a.core.die a.asid va.toNat
        if bitsAt e 8 3 != 0 then none
        else some (match kMakeRoom r.2 a.core a.ctx mibs with
          | none => (.wait, r.2)
          | some t => put t ⟨if bitAt e 6 then 0 else a.asid, va.toNat / 1024, a.ctx, 0, bitAt e 3, bitAt e 1, .far k, a.asid, 0, []⟩)
      | _ => none

/-- One item of a store tried at its place: it is written, posted or sent, or it waits or fails. The hint `.na`, SCAT and an STW without a
kiln budget write at the home (R188, R206, R236). -/
def storeItem (s : State) (w : Warp) (p : PStore) (sp : Space) (va : DWord) (bs : List Byte) : Got Unit × State :=
  let a := { accOf s w p.asid with early := sp == .early }
  let inL1 := sp == .global || sp == .early
  match (if sp == .kiln then kilnStore s a (s.warpEff w).kilnMib va bs else none) with
  | some r => r
  | none =>
    let r := writePlace s a va bs.length
    let atHome (t : State) (pa tag : Nat) : Got Unit × State :=
      if !engineReady t tag va.toNat pa then (.wait, announceWrite t pa tag (lineOf va))
      else
        let u := settleLines t a.core tag [lineOf va]
        if u.1 then (.done (), engineStore u.2 a.asid va pa bs) else (.wait, u.2)
    match r.1 with
    | .done (.own pa) => if inL1 then (.done (), storeAt r.2 a.asid va pa bs) else atHome r.2 pa (pageTag r.2 (pa / 2 ^ 36 % 16) a.asid va.toNat)
    | .done (.nc tag base user writable) =>
      if sp == .home || sp == .gather then
        (if sealedPa r.2 base then (.wait, r.2) else (.done (), ncHomeWrite r.2 a va base bs))
      else match ncWrite r.2 a va tag base user writable bs with
      | some t => (.done (), t)
      | none => (.wait, r.2)
    | .done (.side pa) =>
      if engineReady r.2 a.asid va.toNat pa then (.done (), engineStore r.2 a.asid va pa bs) else (.wait, announceWrite r.2 pa a.asid (lineOf va))
    | .done (.host h) => (.done (), hostPost r.2 w.id a va h bs (sp == .home || sp == .gather))
    | .done (.window _ _) => (.deny 0x30, r.2)
    | .done (.ctrl pa) =>
      if ctrlDead r.2 pa then (.err, r.2)
      else if sp == .gather || sp == .kiln || (bs.length ≠ 4 ∧ bs.length ≠ 8) then (.deny 0, r.2)
      else if ctrlBusy r.2 pa then (.wait, r.2)
      else (.done (), ctrlWrite r.2 pa bs.length (BitVec.ofNat 64 (leNat bs)))
    | .wait =>
      if inL1 then (.wait, r.2)
      else
        -- written at the home without ownership
        (match walkNow r.2 a.core a.asid a.user .write va with
         | .mem pa 0 glob => atHome r.2 pa (if glob then 0 else a.asid)
         | _ => (.wait, r.2))
    | .far k => (.far k, r.2)
    | .fault l => (.fault l, r.2)
    | .deny i => (.deny i, r.2)
    | .err => (.err, r.2)

/-- The value an operation leaves, for the items that are operations. -/
def opItem (s : State) (w : Warp) (p : PStore) (va : DWord) (op : RemoteOp) : Got Unit × State :=
  let r := atomGlobal s (accOf s w p.asid) va op
  (mapGot (fun _ => ()) r.1, r.2)

/-- A CCTL operation on one lane's line or sector (R220). -/
def cctlItem (s : State) (c : CoreId) (asid op : Nat) (va : DWord) : Got Unit × State :=
  let x := s.getCore c
  match op with
  | 1 =>
    match ncGet x asid (lineOf va) with
    | some l =>
      if ncOpen s l then
        (.done (), (writeBack s l.asid (l.line * 128) l.place (dirtyOf l.bytes)).modCore c fun y => putNc y { l with bytes := cleanAll l.bytes })
      else (.wait, announceNc s l)
    | none => (.done (), s)
  | 2 => (.done (), s.setCore { x with nc := x.nc.filter fun l => !(tagSees asid l.asid && l.line == lineOf va) })
  | 3 =>
    match kFind x asid (va.toNat / 1024) with
    | some k =>
      if sectorOpen s k && !x.vbKiln.repairing then (.done (), (kWriteBack s k).modCore c fun y => kPut y { k with bytes := cleanAll k.bytes })
      else (.wait, announceSector s k)
    | none => (.done (), s)
  | _ =>
    let drop (k : KSector) : KSector :=
      if tagSees asid k.asid && k.sector == va.toNat / 1024 then { k with bytes := k.bytes.filter fun e => e.2.2 } else k
    (.done (), s.setCore { x with kiln := x.kiln.map drop })

/-- The items of a posted store one by one: lane, address, width, and the operation that another package would perform. -/
def storeParts (p : PStore) : List (Nat × DWord × RemoteOp) :=
  match p.op with
  | .write _ items => items.map fun i => (i.1, i.2.1, .store i.2.2)
  | .red _ t op items => items.map fun i => (i.1, i.2.1, atomOp t op i.2.2 0)
  | .redf _ q op items => items.map fun i => (i.1, i.2.1, .atomf (faopCode op) (ftyCode q) i.2.2)
  | .marv _ items => items.map fun i => (i.1, i.2, .marv)
  | .tsig _ items => items.map fun i => (i.1, i.2.1, .tsig i.2.2)
  | .cctl _ items => items.map fun i => (i.1, i.2, .read 0)
  | .scatter items => items.map fun i => (i.1, i.2.1, .store i.2.2)

/-- A posted store without the items of some lanes. -/
def dropItems (p : PStore) (keep : Nat → Bool) : PStore :=
  let op : StoreOp := match p.op with
    | .write sp items => .write sp (items.filter fun i => keep i.1)
    | .red b t o items => .red b t o (items.filter fun i => keep i.1)
    | .redf b q o items => .redf b q o (items.filter fun i => keep i.1)
    | .marv sc items => .marv sc (items.filter fun i => keep i.1)
    | .tsig sc items => .tsig sc (items.filter fun i => keep i.1)
    | .cctl o items => .cctl o (items.filter fun i => keep i.1)
    | .scatter items => .scatter (items.filter fun i => keep i.1)
  { p with op := op }

/-- One part of a posted store tried. -/
def partTry (s : State) (w : Warp) (p : PStore) (va : DWord) (op : RemoteOp) : Got Unit × State :=
  let scr (off : Nat) (f : State → SPlace → State) (n : Nat) : Got Unit × State :=
    match s.warpWg w with
    | none => (.done (), s)
    | some g =>
      match scratchPlace s g off n with
      | none => (.deny 0, s)
      | some q => if splaceBusy s (s.warpCore w) q n then (.wait, s) else (.done (), f s q)
  match p.op with
  | .write .scratch _ =>
    (match op with | .store bs => scr va.toNat (fun t q => splaceWrite t q bs) bs.length | _ => (.done (), s))
  | .write sp _ => (match op with | .store bs => storeItem s w p sp va bs | _ => (.done (), s))
  | .scatter _ => (match op with | .store bs => storeItem s w p .gather va bs | _ => (.done (), s))
  | .cctl o _ => cctlItem s (s.warpCore w) p.asid o va
  | .red true .. => let r := atomScratch s w va.toNat op; (mapGot (fun _ => ()) r.1, r.2)
  | .redf true .. => let r := atomScratch s w va.toNat op; (mapGot (fun _ => ()) r.1, r.2)
  | .tsig .. =>
    let r := atomGlobal s (accOf s w p.asid) va op
    (match r.1, walkNow s (s.warpCore w) p.asid (s.warpUser w) .write va with
     | .done _, .mem _ 2 _ => (.done (), r.2)
     | .done _, _ => (.deny 0, s)
     | .wait, .mem _ 0 _ => (.deny 0, s)
     | g, _ => (mapGot (fun _ => ()) g, r.2))
  | _ => opItem s w p va op

/-! ### The broadcast window (R315) -/

/-- The participants' bytes of a line, combined by R206. -/
def lineBytes (items : List (Nat × DWord × List Byte)) (line : Nat) : List (Option Byte) :=
  items.foldl (fun acc i =>
    (List.range i.2.2.length).foldl (fun m k =>
      if lineOf (i.2.1 + BitVec.ofNat 64 k) == line then m.set ((i.2.1.toNat + k) % 128) (i.2.2[k]?) else m) acc)
    (List.replicate 128 none)

/-- The place of a window line, when a store's address lies in a broadcast page. -/
def windowPlace (s : State) (w : Warp) (asid : Nat) (va : DWord) : Option (Nat × Nat) :=
  match walkNow s (s.warpCore w) asid (s.warpUser w) .write va with
  | .mem pa 5 glob => some (pa - va.toNat % 128, if glob then 0 else asid)
  | _ => none

/-- Where a line of a window store goes, when its participants' bytes cover it whole (R315). -/
def windowLine (s : State) (w : Warp) (p : PStore) (items : List (Nat × DWord × List Byte)) (line : Nat) : Option (Nat × Nat) :=
  match windowPlace s w p.asid (BitVec.ofNat 64 (line * 128)) with
  | none => none
  | some t => if (lineBytes items line).all (·.isSome) && !wortHomeHit s p.asid (line * 128) 128 then some t else none

/-- A store without its whole window lines, which leave as line messages and fail on nothing (R315). -/
def windowRest (s : State) (w : Warp) (p : PStore) : PStore :=
  match p.op with
  | .write .scratch _ => p
  | .write .kiln _ => p
  | .write sp items => { p with op := .write sp (items.filter fun i => (windowLine s w p items (lineOf i.2.1)).isNone) }
  | _ => p

/-- The whole lines of a window store leave as line messages, and their items with them (R315). -/
def windowSend (s : State) (w : Warp) (p : PStore) : State × PStore :=
  match p.op with
  | .write .scratch _ => (s, p)
  | .write .kiln _ => (s, p)
  | .write sp items =>
    let lines := (items.map fun i => lineOf i.2.1).eraseDups
    lines.foldl (fun acc line =>
      match windowLine acc.1 w p items line with
      | none => acc
      | some (pa, tag) =>
        if !engineReady acc.1 tag (line * 128) pa then (announceWrite acc.1 pa tag line, acc.2)
        else
        let t := (translateHome acc.1 p.asid (acc.1.warpUser w) .write (BitVec.ofNat 64 (line * 128))).2
        let c := t.warpCore w
        let m := BusMsg.window w.id p.tag tag line pa ((lineBytes items line).map fun b => b.getD 0)
        let q := acc.2
        (queueMsg t c.die (homeBus tag (regionOfLine line)) c.clu m,
          { q with
            window := q.window + 1
            flown := q.flown ++ [(line * 128, 128)]
            op := match q.op with
              | .write _ its => .write sp (its.filter fun i => lineOf i.2.1 != line)
              | o => o })) (s, p)
  | _ => (s, p)

/-! ### The head store -/

/-- A part for another package sent (R391, R468). -/
def sendPart (s : State) (w : Warp) (p : PStore) (lane pkg : Nat) (va : DWord) (op : RemoteOp) : Option (State × PStore) :=
  let id := s.nextId
  match sendFor { s with nextId := id + 1 } pkg p.asid va.toNat (.request s.dev pkg id p.asid (s.warpUser w) va op) none with
  | some t => some ({ t with unacked := t.unacked ++ [(id, w.id, p.tag, lane)] }, { p with remote := p.remote ++ [id], flown := p.flown ++ [(va.toNat, remoteWidth op)] })
  | none => none

/-- The parts tried one after another; the store with those left that could not be done. -/
def tryParts (s : State) (w : Warp) (p : PStore) : List (Nat × DWord × RemoteOp) → State × PStore
  | [] => (s, p)
  | (l, va, op) :: rest =>
    let r := partTry s w p va op
    match r.1 with
    | .done _ => tryParts r.2 w (dropItems p fun k => k != l) rest
    | .far k =>
      match sendPart r.2 w p l k va op with
      | some t => tryParts t.1 w (dropItems t.2 fun j => j != l) rest
      | none => tryParts r.2 w p rest
    | _ => tryParts r.2 w p rest

/-- The late failures of a store: its parts that fault, are refused, or lie in a partly covered window line. -/
def storeLates (s : State) (w : Warp) (p : PStore) : List Late :=
  (storeParts (windowRest s w p)).filterMap fun x =>
    let g := (partTry s w p x.2.1 x.2.2).1
    match g with
    | .far k => if (sendPart s w p x.1 k x.2.1 x.2.2).isSome then none else some (.deny x.1 0xFFFF)
    | g => lateOf x.1 x.2.1 g

/-- The release effect that MARV and TSIG bring (R218, R226, R409). -/
def storeScope : StoreOp → Option Scope
  | .marv sc _ => some sc
  | .tsig sc _ => some sc
  | _ => none

end Sys2Proof.Machine
end

