-- ==== Sys2Proof/Machine/Memory.lean ====
section
/-! DEFINITION. The memory instructions: loads and stores (R205 to R208), queue pushes and pops (R209, R210), atomics and posted
reductions (R211 to R213), WAITC (R216), release and acquire (R217 to R219), cache control and prefetch (R220, R221), gathers and
scatters (R236). -/

namespace Sys2Proof.Machine

/-! ## The shapes of memory instructions -/

/-- The verdicts of the participants. -/
def verdicts (x : Issue) (f : Nat → Verdict) : List (Nat × Verdict) := (lanesOf x.e).map fun l => (l, f l)

/-- The check of a global access of n bytes (R203). -/
def globalCheck (s : State) (x : Issue) (ban : Bool) (addr : Nat → DWord) (n : Nat) (l : Nat) : Verdict :=
  judgeGlobal s x.w ban (addr l) n

/-- The check of a scratch access of n bytes (R183, R184, R203). -/
def scratchCheck (s : State) (x : Issue) (off : Nat → Word) (n : Nat) (l : Nat) : Verdict :=
  match s.warpWg x.w with
  | some g => judgeScratch s g (s.warpCtx x.w) (off l).toNat n
  | none => .off

/-- An instruction with a result from memory: the lanes that pass are outstanding and counted, the others are switched off or
take their trap (R203, R206, R214). -/
def readEffect (x : Issue) (s : State) (f : File) (d : Reg) (c : Ctr) (check : Nat → Verdict) (offs : Nat → Nat)
    (res : List Nat → Result) : State :=
  let vs := verdicts x check
  let ok := passing vs
  let s1 := if ok == 0 then s
    else s.modWarp x.w.id fun w => addOut (countUp w c x.tag) (outOf x s f d ok (res (lanesOf ok)) (some c))
  settleChecks x s1 vs offs (fileCode f)

/-- A posted instruction: what the lanes that pass will do, counted (R203, R214). -/
def postEffect (x : Issue) (s : State) (c : Ctr) (check : Nat → Verdict) (offs : Nat → Nat) (op : List Nat → StoreOp) : State :=
  let vs := verdicts x check
  let ok := passing vs
  let p : PStore := { tag := x.tag, pc := x.pc, d := x.r.d, lanes := ok, op := op (lanesOf ok), asid := s.warpAsid x.w, ctr := c }
  let s1 := if ok == 0 then s else s.modWarp x.w.id fun w => { countUp w c x.tag with stores := w.stores ++ [p] }
  settleChecks x s1 vs offs 0

def noOff : Nat → Nat := fun _ => 0

/-- A load of global memory by a path. -/
def loadGlobal (i : Instr) (s : State) (sp : Space) (sz : Sz) (d : Reg) (m : Addr) (ban : Bool) : Out :=
  issue i s always fun x t =>
    readEffect x t sz.file d .ld (globalCheck t x ban (addrGlobal x m) (Sz.bytes sz)) noOff
      fun ls => .load sp sz (ls.map fun l => (l, addrGlobal x m l))

/-- A store to global memory by a path. -/
def storeGlobal (i : Instr) (s : State) (sp : Space) (sz : StSz) (a : StAddr) : Out :=
  issue i s always fun x t =>
    postEffect x t .st (globalCheck t x true (stGlobal x a) (StSz.bytes sz)) noOff
      fun ls => .write sp (ls.map fun l => (l, stGlobal x a l, leBytes (StSz.bytes sz) (stData x sz.file a l)))

/-! ## Loads and stores (R205 to R208) -/

/-- Where a hint places a line: `.ef` at the lowest priority, `.na` not in L1 (R206). -/
def hintSpace (ch : Hint) : Space := if ch == .na then .home else if ch == .ef then .early else .global

/-- LD: `.na` serves the lane without allocating in L1. -/
def execLd (h : Hdr) (sz : Sz) (ch : Hint) (d : Reg) (m : Addr) (s : State) : Out :=
  loadGlobal (.ld h sz ch d m) s (hintSpace ch) sz d m false

/-- ST: `.na` writes through to the home. -/
def execSt (h : Hdr) (sz : StSz) (ch : Hint) (x : StAddr) (s : State) : Out :=
  storeGlobal (.st h sz ch x) s (hintSpace ch) sz x

/-- LDS. -/
def execLds (h : Hdr) (sz : Sz) (d : Reg) (m : Addr) (s : State) : Out :=
  issue (.lds h sz d m) s always fun x t =>
    readEffect x t sz.file d .ld (scratchCheck t x (addrScratch x m) (Sz.bytes sz)) (fun l => (addrScratch x m l).toNat)
      fun ls => .load .scratch sz (ls.map fun l => (l, (addrScratch x m l).setWidth 64))

/-- STS. -/
def execSts (h : Hdr) (sz : StSz) (a : StAddr) (s : State) : Out :=
  issue (.sts h sz a) s always fun x t =>
    postEffect x t .st (scratchCheck t x (stScratch x a) (StSz.bytes sz)) (fun l => (stScratch x a l).toNat)
      fun ls => .write .scratch (ls.map fun l => (l, (stScratch x a l).setWidth 64, leBytes (StSz.bytes sz) (stData x sz.file a l)))

/-- LDC. -/
def execLdc (h : Hdr) (sz : Sz) (d : Reg) (m : Addr) (s : State) : Out :=
  issue (.ldc h sz d m) s always fun x t =>
    readEffect x t sz.file d .ld (fun l => judgeParam (addrScratch x m l) (Sz.bytes sz)) noOff
      fun ls => .load .param sz (ls.map fun l => (l, (t.warpEff x.w).params + (addrScratch x m l).setWidth 64))

/-- LDW, on the kiln path. -/
def execLdw (h : Hdr) (sz : Sz) (d : Reg) (m : Addr) (s : State) : Out := loadGlobal (.ldw h sz d m) s .kiln sz d m true

/-- STW, on the kiln path. -/
def execStw (h : Hdr) (sz : StSz) (x : StAddr) (s : State) : Out := storeGlobal (.stw h sz x) s .kiln sz x

/-! ## Gathers and scatters (R236) -/

/-- The address a lane forms: base plus the extended index shifted by K. -/
def gatherAddr (x : Issue) (a : Reg) (idx : Nat → Nat) (sh : BitVec 3) (sgn : Bool) (l : Nat) : DWord :=
  rdP x.w a l + BitVec.ofInt 64 (valInt sgn 32 (idx l) * 2 ^ sh.toNat)

/-- GATH. -/
def execGath (h : Hdr) (wide : Bool) (sh : BitVec 3) (sgn : Bool) (d a b : Reg) (s : State) : Out :=
  issue (.gath h wide sh sgn d a b) s always fun x t =>
    let sz : Sz := if wide then .b64 else .b32
    let addr := gatherAddr x a (fun l => (rdV x.w b l).toNat) sh sgn
    readEffect x t sz.file d .gat (globalCheck t x false addr (Sz.bytes sz)) noOff
      fun ls => .load .gather sz (ls.map fun l => (l, addr l))

/-- SCAT. -/
def execScat (h : Hdr) (wide : Bool) (sh : BitVec 3) (sgn : Bool) (q : Src3) (s : State) : Out :=
  issue (.scat h wide sh sgn q) s always fun x t =>
    let n := if wide then 8 else 4
    let addr := gatherAddr x q.a (src3B x .v q) sh sgn
    postEffect x t .gat (globalCheck t x true addr n) noOff
      fun ls => .scatter (ls.map fun l => (l, addr l, leBytes n (src3C x (if wide then .p else .v) q l)))

/-! ## Atomics and reductions (R211 to R213) -/

/-- Address, b and c of a lane's atomic. -/
def atomAddr (x : Issue) (scr : Bool) (a : AtomArg) (l : Nat) : DWord :=
  match a with
  | .op _ y => if scr then (stScratch x y l).setWidth 64 else stGlobal x y l
  | .cas y => BitVec.ofNat 64 (src3A x (scrFile scr) y l)
  | .casOff y off =>
    if scr then (BitVec.ofNat 32 (src3A x .v y l) + off).setWidth 64 else BitVec.ofNat 64 (src3A x .p y l) + sx64 off
def atomB (x : Issue) (f : File) (a : AtomArg) (l : Nat) : DWord :=
  match a with
  | .op _ y => BitVec.ofNat 64 (stData x f y l)
  | .cas y => BitVec.ofNat 64 (src3B x f y l)
  | .casOff y _ => BitVec.ofNat 64 (src3B x f y l)
def atomC (x : Issue) (f : File) (a : AtomArg) (l : Nat) : DWord :=
  match a with
  | .op _ _ => 0
  | .cas y => BitVec.ofNat 64 (src3C x f y l)
  | .casOff y _ => BitVec.ofNat 64 (src3C x f y l)
def atomCode : AtomArg → Nat | .op o _ => aopCode o | _ => 7

/-- The check of an atomic in either space. -/
def atomCheck (s : State) (x : Issue) (scr : Bool) (addr : Nat → DWord) (n : Nat) (l : Nat) : Verdict :=
  if scr then scratchCheck s x (fun k => (addr k).setWidth 32) n l else globalCheck s x true addr n l

/-- The address of a store-like word in either space. -/
def spaceAddr (x : Issue) (scr : Bool) (a : StAddr) (l : Nat) : DWord :=
  if scr then (stScratch x a l).setWidth 64 else stGlobal x a l

/-- ATOM. -/
def execAtom (h : Hdr) (t : ITy) (scr : Bool) (d : Reg) (a : AtomArg) (s : State) : Out :=
  issue (.atom h t scr d a) s always fun x u =>
    let addr := atomAddr x scr a
    readEffect x u t.file d .ld (atomCheck u x scr addr (ITy.bits t / 8)) (fun l => (addr l).toNat)
      fun ls => .atom scr t (atomCode a) (ls.map fun l => (l, addr l, atomB x t.file a l, atomC x t.file a l))

/-- ATOMF. -/
def execAtomf (h : Hdr) (op : FAOp) (p : FTy) (scr : Bool) (d : Reg) (a : StAddr) (s : State) : Out :=
  issue (.atomf h op p scr d a) s always fun x u =>
    let addr := spaceAddr x scr a
    readEffect x u .v d .ld (atomCheck u x scr addr 4) (fun l => (addr l).toNat)
      fun ls => .atomf scr p op (ls.map fun l => (l, addr l, BitVec.ofNat 32 (stData x .v a l)))

/-- RED. -/
def execRed (h : Hdr) (op : ROp) (t : ITy) (scr : Bool) (a : StAddr) (s : State) : Out :=
  issue (.red h op t scr a) s always fun x u =>
    let addr := spaceAddr x scr a
    postEffect x u .st (atomCheck u x scr addr (ITy.bits t / 8)) (fun l => (addr l).toNat)
      fun ls => .red scr t (ropCode op) (ls.map fun l => (l, addr l, BitVec.ofNat 64 (stData x t.file a l)))

/-- REDF. -/
def execRedf (h : Hdr) (op : FAOp) (p : FTy) (scr : Bool) (a : StAddr) (s : State) : Out :=
  issue (.redf h op p scr a) s always fun x u =>
    let addr := spaceAddr x scr a
    postEffect x u .st (atomCheck u x scr addr 4) (fun l => (addr l).toNat)
      fun ls => .redf scr p op (ls.map fun l => (l, addr l, BitVec.ofNat 32 (stData x .v a l)))

/-! ## Queues (R209, R210) -/

def senderOf (g : Workgroup) (id q : Nat) : Sender := (g.senders.find? fun d => d.id == id && d.q == q).getD { id := id, q := q }
def putSender (g : Workgroup) (d : Sender) : Workgroup :=
  { g with senders := putAt (fun e => e.id == d.id && e.q == d.q) d g.senders }

/-- Entries of a replay window (R198). -/
def windowSize : Nat := 8

/-- An entry of an earlier issue of the same LDQ that waits for lanes which now issue it again (R209). -/
def reissued (x : Issue) (q : Nat) (o : Outst) : Bool :=
  match o.res with
  | .ldq _ k _ _ => k == q && o.pc == x.pc && o.faulted &&& x.e != 0
  | _ => false

/-- The push waits while it would be the ninth of its window. -/
def ldqReady (q : Nat) (x : Issue) (s : State) : Bool :=
  match s.warpWg x.w with
  | some g => decide ((senderOf g x.w.id q).window.length < windowSize + (x.w.reads.filter (reissued x q)).length)
  | none => false

/-- An entry dropped without being pushed: it counts as accepted (R209, R214). -/
def dropLdq (s : State) (wid q tag : Nat) : State :=
  let s1 := s.modWarp wid fun w => countDone { w with reads := w.reads.filter fun o => o.tag != tag } .ld tag
  match s1.getWarp wid with
  | none => s1
  | some w => s1.modWg w.wg fun g =>
    let d := senderOf g wid q
    let seqs := (d.pushes.filter fun p => p.2.2.2 == tag).map (·.1)
    putSender g { d with window := d.window.filter (fun e => !seqs.contains e.1), pushes := d.pushes.filter (fun p => !seqs.contains p.1) }

/-- LDQ in either space: the entry takes its place in the sender's sequence at issue (R195, R209). -/
def ldqEffect (sp : Space) (q : Nat) (check : Nat → Verdict) (addr : Nat → DWord) (x : Issue) (s0 : State) : State :=
  let s := ((x.w.reads.filter (reissued x q)).map (·.tag)).foldl (fun acc t => dropLdq acc x.w.id q t) s0
  let vs := verdicts x check
  let ok := passing vs
  let o := outOf x s .v 0 ok (.ldq sp q ((lanesOf ok).map fun l => (l, addr l)) []) (some .ld)
  let s1 := if ok == 0 then s
    else
      (s.modWarp x.w.id fun w => { countUp w .ld x.tag with reads := w.reads ++ [{ o with dsts := [], file := 0 }] }).modWg x.w.wg
        fun g =>
          let d := senderOf g x.w.id q
          putSender g { d with nextSeq := d.nextSeq + 1, window := d.window ++ [(d.nextSeq, false, [])],
                               pushes := d.pushes ++ [(d.nextSeq, ok, x.pc, x.tag)] }
  settleChecks x s1 vs (fun l => (addr l).toNat) 0

/-- LDQ. -/
def execLdq (h : Hdr) (k : Reg) (m : Addr) (s : State) : Out :=
  issue (.ldq h k m) s (ldqReady k.toNat) fun x t =>
    ldqEffect .global k.toNat (globalCheck t x false (addrGlobal x m) 4) (addrGlobal x m) x t

/-- LDQ.s. -/
def execLdqScratch (h : Hdr) (k : Reg) (m : Addr) (s : State) : Out :=
  issue (.ldqScratch h k m) s (ldqReady k.toNat) fun x t =>
    ldqEffect .scratch k.toNat (scratchCheck t x (addrScratch x m) 4) (fun l => (addrScratch x m l).setWidth 64) x t

/-- How many registers a POPQ writes. -/
def popNum : PopN → Nat | .x1 => 1 | .x2 => 2 | .x4 => 4

/-- POPQ: the entries leave at issue, and their registers are outstanding. -/
def execPopq (h : Hdr) (n : PopN) (d : Reg) (q : BitVec 3) (s : State) : Out :=
  issue (.popq h n d q) s always fun x t =>
    let vals := (lanesOf x.e).map fun l => (l, (List.range (popNum n)).map fun j => popLane x.pop (32 * j + l))
    t.modWarp x.w.id fun w =>
      addOut w { outOf x t .v d x.e (.values vals []) none with dsts := (List.range (popNum n)).map fun j => d.toNat + j }

/-! ## WAITC (R216, R254) -/

/-- Issue tags that a WAITC with n waits for. -/
def waitedTags (w : Warp) (c : Ctr) (n : Nat) : List Nat :=
  let l := (w.ctrs[c.code]?).getD []
  (l.take (l.length - n)).map (·.1)

/-- A WAITC on `c.mx` that must wait for an operation with buffered contributions flushes the warp's entries (R254). -/
def waitcFlush (s : State) (wid : Nat) : State :=
  match s.getWarp wid with
  | none => s
  | some w =>
    match w.waitc with
    | some (.mx, n) =>
      let held := (s.getCore (s.warpCore w)).engine.buffer
      if (waitedTags w .mx n).any fun t => held.any fun e => e.owners.contains (wid, t) then flushWarp s w else s
    | _ => s

/-- WAITC: one that must wait is a wait at which a save stops the warp (R424). -/
def execWaitc (h : Hdr) (c : Ctr) (n : BitVec 6) (s : State) : Out :=
  issue (.waitc h c n) s always fun x t =>
    let u := t.modWarp x.w.id fun w => { w with waitc := some (c, n.toNat) }
    waitcFlush (if (waitedTags x.w c n.toNat).isEmpty then u else savePoint u x.w.id) x.w.id

/-! ## Release and acquire (R218, R219) -/

/-- Non-coherent lines and kiln sectors of a context's ASID, with those of global pages. DEDUCED (log entry 27). -/
def ownNc (c : Core) (asid : Nat) : List NcLine := c.nc.filter fun x => tagSees asid x.asid
def ownKiln (c : Core) (asid : Nat) : List KSector := c.kiln.filter fun x => tagSees asid x.asid

/-- The write-backs of REL at a scope (R180, R190, R218); none while a home refuses one. -/
def releaseEffects (s : State) (w : Warp) (sc : Scope) : Option State :=
  if sc == .wg then some s
  else
    let id := s.warpCore w
    let asid := s.warpAsid w
    let c := s.getCore id
    let ks := (ownKiln c asid).filter fun x => !(dirtyOf x.bytes).isEmpty
    let ns := (ownNc c asid).filter fun x => !(dirtyOf x.bytes).isEmpty
    if (ks.all (sectorOpen s)) && (ns.all (ncOpen s)) && (ks.isEmpty || !c.vbKiln.repairing) then
      let s1 := ks.foldl (fun acc x => (kWriteBack acc x).modCore id fun y => kPut y { x with bytes := cleanAll x.bytes }) s
      let s2 := ns.foldl (fun acc x => (writeBack acc x.asid (x.line * 128) x.place (dirtyOf x.bytes)).modCore id fun y =>
        putNc y { x with bytes := cleanAll x.bytes }) s1
      some (if sc == .sys then hostDrain s2 fun k => k == w.id else s2)
    else none

/-- The holders of the lines that a REL must write back told of it (R389). -/
def announceRelease (s : State) (w : Warp) : State :=
  let asid := s.warpAsid w
  let c := s.getCore (s.warpCore w)
  (ownNc c asid).foldl (fun acc x => if ncOpen s x then acc else announceNc acc x)
    ((ownKiln c asid).foldl (fun acc x => if sectorOpen s x then acc else announceSector acc x) s)

/-- A warp's stores made visible at a scope (R167, R218): what its core still holds dirty is written back, or its holders are told of
it; the first component says that nothing is left on its way. -/
def makeVisible (s : State) (w : Warp) (sc : Scope) : Bool × State :=
  match releaseEffects s w sc with
  | some t => (!backPending t (s.warpAsid w), t)
  | none => (false, announceRelease s w)

/-- The kiln fills of a core that are on their way from another package when an ACQ of a warp takes effect: what other warps wait for serves
them and fills nothing (R190); the warp's own and the copies' are read anew (R189, R233). -/
def overtakeFills (s : State) (w : Warp) : State :=
  let c := s.warpCore w
  let s1 := dropAsks s fun o _ => o == w.id || s.copies.any fun x => copyOwner x.id == o && x.core == c
  markStale s1 fun o => match s.getWarp o with | some x => s.warpCore x == c | none => false

/-- The invalidations of ACQ at a scope (R180, R189, R219): clean bytes go, but those of constant pages stay. DEDUCED (log entry 27). -/
def acquireEffects (s : State) (w : Warp) (sc : Scope) : State :=
  if sc == .wg then s
  else
    let asid := s.warpAsid w
    (overtakeFills s w).modCore (s.warpCore w) fun c =>
      { c with
        kiln := (c.kiln.map fun x =>
          if tagSees asid x.asid && x.kind != 3 then { x with bytes := x.bytes.filter fun e => e.2.2 } else x).filter fun x => !x.bytes.isEmpty
        nc := (c.nc.map fun x =>
          if tagSees asid x.asid then { x with bytes := x.bytes.filter fun e => e.2.2 } else x).filter fun x => !x.bytes.isEmpty }

/-- Every instruction of a class older than an issue tag has reached its event. -/
def olderDone (w : Warp) (c : Ctr) (tag : Nat) : Bool := ((w.ctrs[c.code]?).getD []).all fun p => p.2 || decide (tag ≤ p.1)

/-- REL: later MEM and MX instructions wait until RELEASE_COMPLETE (R218). -/
def execRel (h : Hdr) (sc : Scope) (s : State) : Out :=
  issue (.rel h sc) s always fun x t => t.modWarp x.w.id fun w => { w with hold := some (.rel sc x.tag) }

/-- ACQ: its effects follow at once, or when the older loads have completed (R219). -/
def execAcq (h : Hdr) (sc : Scope) (s : State) : Out :=
  issue (.acq h sc) s always fun x t =>
    if olderDone x.w .ld x.tag then acquireEffects t x.w sc
    else t.modWarp x.w.id fun w => { w with hold := some (.acq sc x.tag) }

/-- What a REL or an ACQ that holds a warp still waits for, and its effects when nothing is left. -/
def holdDone (s : State) (w : Warp) : Option State :=
  match w.hold with
  | some (.rel sc tag) =>
    if olderDone w .st tag && (olderStores w tag).isEmpty then
      (releaseEffects s w sc).map fun t => if backPending t (s.warpAsid w) then t else t.modWarp w.id fun x => { x with hold := none }
    else none
  | some (.acq sc tag) =>
    if olderDone w .ld tag then some ((acquireEffects s w sc).modWarp w.id fun x => { x with hold := none }) else none
  | _ => none

/-- RELEASE_COMPLETE: a REL's conditions are met, or those of an ACQ that waited for older loads. -/
def execReleaseComplete (w : Nat) (s : State) : Out :=
  happens (match s.getWarp w with | some x => (holdDone s x).getD (if x.hold.isSome then announceRelease s x else s) | none => s)

/-! ## Cache control and prefetch (R220, R221) -/

/-- The blocks that the warps of a core have asked another package for are asked for anew. -/
def dropFetches (s : State) (c : CoreId) : State :=
  dropAsks s fun o _ => s.warps.any fun w => fetchOwner w.id == o && s.warpCore w == c

/-- CCTL.ivall: blocks of global pages, which every context shares, go with those of its ASID, and blocks on their way do not come in
(R178). DEDUCED (log entry 27). -/
def execCctlIvall (h : Hdr) (s : State) : Out :=
  issue (.cctlIvall h) s always fun x t =>
    (dropFetches t (t.warpCore x.w)).modCore (t.warpCore x.w) fun c => { c with icache := c.icache.filter fun e => !tagSees (t.warpAsid x.w) e.1 }

/-- A CCTL on addresses: no alignment, no translation. -/
def cctlEffect (op : Nat) (m : Addr) (x : Issue) (s : State) : State :=
  postEffect x s .st (fun l => if canonical (addrGlobal x m l) then .pass else .protect 0) noOff
    fun ls => .cctl op (ls.map fun l => (l, addrGlobal x m l))

/-- CCTL.wbl. -/
def execCctlWbl (h : Hdr) (m : Addr) (s : State) : Out := issue (.cctlWbl h m) s always (cctlEffect 1 m)
/-- CCTL.invl. -/
def execCctlInvl (h : Hdr) (m : Addr) (s : State) : Out := issue (.cctlInvl h m) s always (cctlEffect 2 m)
/-- CCTL.kwb. -/
def execCctlKwb (h : Hdr) (m : Addr) (s : State) : Out := issue (.cctlKwb h m) s always (cctlEffect 3 m)
/-- CCTL.kinv. -/
def execCctlKinv (h : Hdr) (m : Addr) (s : State) : Out := issue (.cctlKinv h m) s always (cctlEffect 4 m)

/-- The line of an address with the ASID of the access, when a load of it would allocate in L1. -/
def cacheable (s : State) (a : Acc) (va : DWord) : Option (Nat × Nat) :=
  match translateNow s a.core.die a.asid a.user .read va with
  | .mem _ kind _ => if kind == 1 || kind == 2 then none else some (a.asid, lineOf va)
  | _ => none

/-- A line of another package asked for (R221, R388). -/
def prefFar (s : State) (a : Acc) (pkg : Nat) (va : DWord) : State :=
  if farCached s a va && (farGet s a.core.die a.asid (lineOf va)).isNone then farAsk s a.core.die a.asid a.user pkg (lineOf va) else s

/-- A kiln sector of another package asked for: the kiln's own copy of one sector, of no warp. -/
def prefSector (s : State) (a : Acc) (va : DWord) : State :=
  let c : Copy :=
    { id := s.nextId, kind := .cpyw, w := 0, wg := 0, ctx := a.ctx, asid := a.asid, user := a.user, lanes := 0, pc := 0, d := 0, tag := 0, issue := 0,
      src := .glob (BitVec.ofNat 64 (va.toNat / 1024 * 1024)), dst := .glob 0, units := 1, core := a.core }
  { s with nextId := s.nextId + 1, copies := s.copies ++ [c] }

/-- One lane's prefetch: what cannot be served is dropped; a coherent line that the caches do not settle is asked for; `.l2` brings a line
of another die into the remote-data ways, on lease (R221, R388). -/
def prefLane (s : State) (w : Warp) (t : PrefTo) (va : DWord) : State :=
  let a := accOf s w (s.warpAsid w)
  if !canonical va then s
  else match t with
  | .l2 =>
    let r := readHome s a va 1
    (match r.1, walkNow r.2 a.core a.asid a.user .read va with
     | .done _, .mem pa kind glob =>
       let tag := if glob then 0 else a.asid
       if kind == 1 || kind == 2 || wortLineHit s a.asid va.toNat 1 || dieHolds r.2 a.core.die tag (lineOf va) pa ||
           (dirOf (r.2.getDie (pa / 2 ^ 36 % 16)) tag (lineOf va)).owner != none || !leasesFlow r.2 tag (lineOf va) pa then r.2
       else giveLease r.2 a.core.die tag (lineOf va) (pa / 128 * 128) (waysFor r.2 a.ctx)
     | .done _, _ => r.2
     | .far k, _ => prefFar r.2 a k va
     | _, _ => s)
  | .kiln =>
    let b := (s.warpEff w).kilnMib
    if b = 0 then s
    else
      let r := readKiln s a b (BitVec.ofNat 64 (va.toNat / 1024 * 1024)) 1024
      (match r.1 with
       | .done _ => r.2
       | .far _ => if kilnFar s a b va then prefSector r.2 a va else s
       | .wait => prefSector r.2 a va
       | _ => s)
  | .l1 =>
    let r := readGlobal s a va 1
    match r.1, cacheable s a va with
    | .done _, _ => r.2
    | .far k, _ => prefFar r.2 a k va
    | .wait, some p => r.2.modCore a.core fun c => if c.prefs.contains p then c else { c with prefs := c.prefs ++ [p] }
    | _, _ => s

/-- PREF. -/
def execPref (h : Hdr) (t : PrefTo) (m : Addr) (s : State) : Out :=
  issue (.pref h t m) s always fun x u => (lanesOf x.e).foldl (fun acc l => prefLane acc x.w t (addrGlobal x m l)) u

end Sys2Proof.Machine
end

