-- ==== Sys2Proof/Machine/Sync.lean ====
section
/-! DEFINITION. Named barriers (R222 to R225), memory barriers (R226, R227), sleeps (R228, R232) and watches (R229, R230), with
the events that wake their lanes. -/

namespace Sys2Proof.Machine

/-! ## Waking -/

/-- Lanes of a warp that sleep under a test become ready where they go on. -/
def wakeLanes (w : Warp) (p : Nat → SleepKind → Bool) : Warp :=
  { w with lanes := w.lanes.mapIdx fun l x =>
      match x.st with
      | .sleeping k next => if p l k then wakeLane w l next x else x
      | _ => x }

/-- Lanes of a set put to sleep. -/
def sleepLanes (s : State) (wid : Nat) (m : LaneSet) (pc next : DWord) (k : Nat → SleepKind) : State :=
  savePoint (s.modWarp wid fun w => w.modLanes m fun l x => { x with pc := pc, st := .sleeping (k l) next, since := s.clock }) wid

/-! ## Named barriers (R222 to R225) -/

def barGet (g : Gang) (b : Nat) : BarHead := ((g.bars.find? fun p => p.1 == b).map (·.2)).getD {}
def barPut (g : Gang) (b : Nat) (x : BarHead) : Gang := { g with bars := putAt (fun p => p.1 == b) (b, x) g.bars }

/-- The warps of a gang. -/
def gangWarps (s : State) (gang : Nat) : List Warp :=
  s.warps.filter fun w => match s.getWg w.wg with | some g => g.gang == gang | none => false

/-- Every lane that sleeps on a barrier of a gang wakes. -/
def barWake (s : State) (gang b : Nat) : State :=
  { s with warps := s.warps.map fun w =>
      match s.getWg w.wg with
      | some g => if g.gang == gang then wakeLanes w fun _ k => k == .bar b else w
      | none => w }

/-- A phase of a barrier completed (R224): PH advances and the sleepers wake. -/
def barAdvance (s : State) (gang b : Nat) (x : BarHead) : State :=
  barWake (s.modGang gang fun g => barPut g b { x with ph := x.ph + 1 }) gang b

/-- Key of a warp in the arrival records. -/
def recKey (s : State) (w : Warp) (b : Nat) : Nat × Nat × Nat := (((s.warpWg w).map (·.member)).getD 0, w.idx, b)

/-- Arrive(b) of R224 for n lanes of a warp. -/
def arrive (s : State) (w : Warp) (b n : Nat) : State :=
  match s.warpGang w with
  | none => s
  | some g =>
    let x := barGet g b
    if x.expn = 0 then s
    else
      let s1 := s.modGang g.id fun y => { y with recs := putAt (fun r => r.1 == recKey s w b) (recKey s w b, x.ph) y.recs }
      let arr := x.arr + n
      if x.expn ≤ arr then barAdvance s1 g.id b { x with arr := 0, ovr := x.ovr || decide (x.expn < arr) }
      else s1.modGang g.id fun y => barPut y b { x with arr := arr }

/-- The wait of BARW: the participants sleep unless the phase in which their warp last arrived is complete (R224). -/
def barWait (s : State) (x : Issue) (b : Nat) : State :=
  match s.warpGang x.w with
  | none => s
  | some g =>
    let h := barGet g b
    let past : Bool := match g.recs.find? fun r => r.1 == recKey s x.w b with | some r => r.2 != h.ph | none => false
    if h.expn == 0 || past then s else sleepLanes s x.w.id x.e x.pc x.after fun _ => .bar b

/-- BARA. -/
def execBara (h : Hdr) (b : BitVec 6) (s : State) : Out :=
  issue (.bara h b) s always fun x t => arrive t x.w b.toNat (laneCount x.e)

/-- BARW. -/
def execBarw (h : Hdr) (b : BitVec 6) (s : State) : Out := issue (.barw h b) s always fun x t => barWait t x b.toNat

/-- BARS. -/
def execBars (h : Hdr) (b : BitVec 6) (s : State) : Out :=
  issue (.bars h b) s always fun x t => barWait (arrive t x.w b.toNat (laneCount x.e)) x b.toNat

/-- BARINIT: the count of the lowest participant, bits [13:0]. -/
def execBarinit (h : Hdr) (b : BitVec 6) (v : SrcB) (s : State) : Out :=
  issue (.barinit h b v) s always fun x t =>
    match t.warpGang x.w with
    | none => t
    | some g => barAdvance t g.id b.toNat { expn := srcB x .v v x.low % 2 ^ 14, ph := (barGet g b.toNat).ph }

/-- BARQ: outstanding until written (R225). -/
def execBarq (h : Hdr) (d : Reg) (b : BitVec 6) (s : State) : Out :=
  issue (.barq h d b) s always fun x t => t.modWarp x.w.id fun w => addOut w (outOf x t .p d x.e (.barq b.toNat) none)

/-- Lanes of a gang that sleep on a barrier. -/
def barSleepers (s : State) (gang b : Nat) : Nat :=
  (gangWarps s gang).foldl (fun acc w => acc + laneCount (w.lanesWhere fun x =>
    match x.st with | .sleeping (.bar k) _ => k == b | _ => false)) 0

/-- The pair that BARQ writes (R225). -/
def barqValue (s : State) (w : Warp) (b : Nat) : Nat :=
  match s.warpGang w with
  | none => 0
  | some g =>
    let h := barGet g b
    h.arr + 2 ^ 14 * h.expn + 2 ^ 28 * h.ovr.toNat + 2 ^ 32 * h.ph.toNat + 2 ^ 48 * (barSleepers s g.id b % 2 ^ 14)

/-! ## Memory barriers (R226, R227) -/

/-- MARV: posted; its release effect precedes its arrivals. -/
def execMarv (h : Hdr) (sc : Scope) (m : Addr) (s : State) : Out :=
  issue (.marv h sc m) s always fun x t =>
    postEffect x t .st (globalCheck t x true (addrGlobal x m) 8) noOff
      fun ls => .marv sc (ls.map fun l => (l, addrGlobal x m l))

/-- The wait of a lane in MWAIT. -/
def mwaitOf (x : Lane) : Option (DWord × Scope × Word × Nat × DWord) :=
  match x.st with
  | .sleeping (.mwait va sc v tag) next => some (va, sc, v, tag, next)
  | _ => none

/-- The entry that keeps another package's replies for an MWAIT. -/
def mwaitEntry (w : Warp) (tag : Nat) : Option Outst := w.reads.find? fun o => o.tag == tag && o.res == .mwait

/-- PH of a barrier word as a lane reads it; a word of another package is asked for (R391). DEDUCED (log entry 34). -/
def mwaitRead (s : State) (w : Warp) (l : Nat) (va : DWord) (tag : Nat) : Got Word × State :=
  let asid := ((mwaitEntry w tag).map (·.asid)).getD (s.warpAsid w)
  let r := readPlain s (accOf s w asid) va 8
  match r.1 with
  | .far k =>
    match mwaitEntry w tag with
    | none => (.wait, r.2)
    | some o =>
      let f := askFar r.2 w o l k va (.read 8)
      match f.1 with
      | .done v => (.done (v.setWidth 32), modOut f.2 w.id tag fun y => { y with got := y.got.filter fun g => g.1 != l })
      | g => (mapGot (fun v => v.setWidth 32) g, f.2)
  | g => (mapGot (fun bs => BitVec.ofNat 32 (leNat bs)) g, r.2)

/-- One lane reads PH again and wakes when it differs, with the acquire effect before it is ready (R227). DEDUCED (log entry 34). -/
def mwaitTry (wid : Nat) (s : State) (l : Nat) : State :=
  match s.getWarp wid with
  | none => s
  | some w =>
    match mwaitOf (w.lane l) with
    | none => s
    | some (va, sc, v, tag, next) =>
      if !olderDone w .ld tag || (olderStores w tag).any fun p => storeHitsGlobal p va.toNat 8 then s
      else
        let r := mwaitRead s w l va tag
        match r.1 with
        | .done ph =>
          if ph == v then r.2
          else
            let t := acquireEffects r.2 w sc
            modOut (t.modWarp wid fun y => y.modLanes (1#32 <<< l) fun k z => wakeLane y k next z) wid tag fun o =>
              { o with lanes := o.lanes &&& ~~~ (1#32 <<< l) }
        | .wait => r.2
        | _ => s

/-- Entries whose last lane has gone on. -/
def mwaitTidy (s : State) (wid : Nat) : State :=
  s.modWarp wid fun w => { w with reads := w.reads.filter fun o => !(o.res == .mwait && o.lanes == 0) }

/-- MWAIT_RECHECK: the sleeping lanes of a warp read PH again. -/
def mwaitRecheck (s : State) (wid : Nat) : State := mwaitTidy ((List.range 32).foldl (mwaitTry wid) s) wid

def execMwaitRecheck (w : Nat) (s : State) : Out := happens (mwaitRecheck s w)

/-- MWAIT: the participants that pass the checks of R203 sleep, and read PH at once. -/
def execMwait (h : Hdr) (sc : Scope) (a : StAddr) (s : State) : Out :=
  issue (.mwait h sc a) s always fun x t =>
    let vs := verdicts x (globalCheck t x false (stGlobal x a) 8)
    let ok := passing vs
    let t1 := if ok == 0 then t
      else
        let o := { outOf x t .v 0 ok .mwait none with dsts := [], file := 0 }
        sleepLanes (t.modWarp x.w.id fun w => { w with reads := w.reads ++ [o] }) x.w.id ok x.pc x.after fun l =>
          .mwait (stGlobal x a l) sc (BitVec.ofNat 32 (stData x .v a l)) x.tag
    mwaitRecheck (settleChecks x t1 vs noOff 0) x.w.id

/-! ## Sleeps (R228, R232) -/

/-- SLEEP: a lane with a count of 0 continues. -/
def execSleep (h : Hdr) (v : SrcB) (s : State) : Out :=
  issue (.sleep h v) s always fun x t =>
    let m := laneSet ((lanesOf x.e).filter fun l => srcB x .v v l != 0)
    if m == 0 then t
    else sleepLanes t x.w.id m x.pc x.after fun l => .clock (t.clock + BitVec.ofNat 64 (srcB x .v v l))

/-- SLEEP_EXPIRY: the lanes whose count has run out become ready. -/
def execSleepExpiry (w : Nat) (s : State) : Out :=
  happens (s.modWarp w fun x => wakeLanes x fun _ k => match k with | .clock t => decide (t.toNat ≤ s.clock.toNat) | _ => false)

/-- Whether a copy tag reads as complete (R232). -/
def tagComplete (w : Warp) (tag : Nat) : Bool := !(w.tags.any fun t => t.1 == tag && t.2 == .running)

/-- The lanes of one SLEEPT whose deadline has passed: complete copies let them go on, the others take PROMISE_MISSED together
(R232). DEDUCED (log entry 16). -/
def promiseCheck (s : State) (wid : Nat) (pc : DWord) (due : List (Nat × Nat)) : State :=
  match s.getWarp wid with
  | none => s
  | some w =>
    let good := laneSet ((due.filter fun d => tagComplete w d.2).map (·.1))
    let bad := due.filter fun d => !tagComplete w d.2
    let s1 := s.modWarp wid fun y => y.modLanes good fun l z => wakeLane y l (pc + 8) z
    match bad with
    | [] => s1
    | b :: _ =>
      takeTrap s1 wid { cause := 0x18, info := BitVec.ofNat 16 b.2, lanes := laneSet (bad.map (·.1)), pc := pc } fun _ _ => pc + 8

/-- SLEEPT: a lane whose deadline has passed is checked at once. -/
def execSleept (h : Hdr) (a b : Reg) (s : State) : Out :=
  issue (.sleept h a b) s always fun x t =>
    let due := (lanesOf x.e).filter fun l => decide ((rdP x.w a l).toNat ≤ t.clock.toNat)
    let m := x.e &&& ~~~ laneSet due
    let t1 := if m == 0 then t
      else sleepLanes t x.w.id m x.pc x.after fun l => .promise (rdP x.w a l) (bitsAt (rdV x.w b l).toNat 0 16)
    promiseCheck t1 x.w.id x.pc (due.map fun l => (l, bitsAt (rdV x.w b l).toNat 0 16))

/-- The lanes of a warp whose SLEEPT deadline has passed: lane, copy tag, counter. While a handler runs, only its own lanes are
looked at, since the others would not become ready (R161). -/
def promiseDue (s : State) (w : Warp) : List (Nat × Nat × DWord) :=
  (List.range 32).filterMap fun l =>
    match (w.lane l).st with
    | .sleeping (.promise t tag) _ =>
      if t.toNat ≤ s.clock.toNat && (!w.inTrap || w.hmask.getLsbD l) then some (l, tag, (w.lane l).pc) else none
    | _ => none

/-- SLEEPT_DEADLINE: the lanes that wake together, those of the lowest counter; of two SLEEPT due at once the lower counter comes first.
DESIGN CHOICE (log entry 87). -/
def execSleeptDeadline (w : Nat) (s : State) : Out :=
  happens (match s.getWarp w with
    | none => s
    | some x =>
      let due := promiseDue s x
      match due with
      | [] => s
      | d :: ds =>
        let pc := ds.foldl (fun acc e => if e.2.2.toNat < acc.toNat then e.2.2 else acc) d.2.2
        promiseCheck s w pc ((due.filter fun e => e.2.2 == pc).map fun e => (e.1, e.2.1)))

/-! ## Watches (R229, R230) -/

/-- WATCH: the arm is armed on the line of the lowest participant, after a coherent read of it. An address that fails at issue traps the
whole run, one that fails later its lane alone. DESIGN CHOICE (log entry 84). -/
def execWatch (h : Hdr) (arm : BitVec 2) (m : Addr) (s : State) : Out :=
  issue (.watch h arm m) s always fun x t =>
    let va := addrGlobal x m x.low
    if !canonical va then issueTrap x t 0x11 0 x.e 0
    else
      let o := { outOf x t .v 0 (1#32 <<< x.low) (.watch arm.toNat x.low va) none with dsts := [], file := 0 }
      t.modWarp x.w.id fun w =>
        { w with
          reads := w.reads ++ [o]
          arms := w.arms.set arm.toNat { armed := true, fired := false, asid := t.warpAsid x.w, line := lineOf va } }

/-- Whether an arm of a mask lets WAITW go on. -/
def armsOpen (w : Warp) (mask : BitVec 4) : Bool :=
  (List.range 4).any fun k => mask.getLsbD k && (let a := (w.arms[k]?).getD {}; a.fired || !a.armed)

/-- WAITW. -/
def execWaitw (h : Hdr) (mask : BitVec 4) (a : Reg) (s : State) : Out :=
  issue (.waitw h mask a) s always fun x t =>
    if armsOpen x.w mask then t else sleepLanes t x.w.id x.e x.pc x.after fun l => .waitw mask (rdP x.w a l)

/-- Whether an arm's line has left its core's tracking: no L1 copy, or a lease that has run out. -/
def armLost (s : State) (w : Warp) (k : Nat) : Bool :=
  let a := (w.arms[k]?).getD {}
  let pending := w.reads.any fun o => match o.res with | .watch j _ _ => j == k | _ => false
  a.armed && !a.fired && !pending && (l1Get s (s.warpCore w) a.asid a.line).isNone && (farGet s (s.warpCore w).die a.asid a.line).isNone

/-- WATCH_ARM_FIRE: the arm fires when its line has left the tracking, and a fired arm wakes the lanes that wait on it. -/
def execWatchArmFire (w arm : Nat) (s : State) : Out :=
  happens (match s.getWarp w with
    | none => s
    | some x =>
      let lost := armLost s x arm
      let y := if lost then { x with arms := x.arms.modify arm fun a => { a with fired := true } } else x
      let fired := ((y.arms[arm]?).getD {}).fired
      s.setWarp (wakeLanes y fun _ k => match k with | .waitw mask _ => fired && mask.getLsbD arm | _ => false))

/-- WAITW_DEADLINE: the lanes whose deadline has passed wake. -/
def execWaitwDeadline (w : Nat) (s : State) : Out :=
  happens (s.modWarp w fun x => wakeLanes x fun _ k =>
    match k with | .waitw _ t => t != 0 && decide (t.toNat ≤ s.clock.toNat) | _ => false)

end Sys2Proof.Machine
end

