-- ==== Sys2Proof/Machine/Copies.lean ====
section
/-! DEFINITION. The asynchronous copies CPYA, CPYW and CPYQ (R231 to R235, R186, R282) with the events of their units, and the
queue entries on their way (R195, R198 to R200, R209). -/

namespace Sys2Proof.Machine

/-! ## Starting a copy -/

/-- A global range is canonical from its first byte to its last. -/
def rangeCanonical (va : DWord) (n : Nat) : Bool :=
  canonical va && (n == 0 || (decide (va.toNat + n ≤ 2 ^ 64) && canonical (va + BitVec.ofNat 64 (n - 1)) &&
    va.getLsbD 56 == (va + BitVec.ofNat 64 (n - 1)).getLsbD 56))

/-- A scratch place as an end of a copy. -/
def bankEnd (s : State) (p : SPlace) : CopyEnd :=
  match p with
  | .bank wg x =>
    match s.getWg wg with
    | some g => .bank ⟨g.core, wg, g.banks, x⟩
    | none => .bank ⟨default, wg, [], x⟩
  | .cask c j => .cask c j

/-- What the issue checks of R231 say of one end: a place, or the INFO of MEM_PROTECT with the reason code for CSV. -/
def endOf (s : State) (x : Issue) (glob : Bool) (a n : Nat) : Except Nat CopyEnd :=
  if glob then (if rangeCanonical (BitVec.ofNat 64 a) n then .ok (.glob (BitVec.ofNat 64 a)) else .error 0)
  else match s.warpWg x.w with
  | none => .error 0
  | some g =>
    match scratchPlace s g a n with
    | none => .error 0
    | some (.cask c j) =>
      let why := caskCheck (s.getCluster c) (s.warpCtx x.w) a n
      if why = 0 then .ok (.cask c j) else .error why
    | some p => .ok (bankEnd s p)

/-- A copy added, waiting when its scratchpad already has its number. -/
def addCopy (s : State) (c : Copy) : State :=
  let wait := match targetCore c.dst with | some k => decide (copySlots ≤ tracked s k) | none => false
  { s with copies := s.copies ++ [{ c with waiting := wait }] }

/-- The next copy tag of a warp (R232). -/
def tagAfter (t : Nat) : Nat := if t = 0xFFFF then 1 else t + 1

/-- A tag given: the status of the 64 youngest is kept. DESIGN CHOICE (log entry 32). -/
def giveTag (w : Warp) (st : TagStatus) : Warp :=
  let l := (w.tags.filter fun t => t.1 != w.nextTag) ++ [(w.nextTag, st)]
  { w with tags := l.drop (l.length - 64), nextTag := tagAfter w.nextTag }

/-- The common part of a copy record. -/
def newCopy (s : State) (x : Issue) (k : CopyKind) (tag : Nat) (src dst : CopyEnd) (units : Nat) : Copy :=
  { id := s.nextId, kind := k, w := x.w.id, wg := x.w.wg, ctx := s.warpCtx x.w, asid := s.warpAsid x.w, user := s.warpUser x.w,
    lanes := x.e, pc := x.pc, d := x.r.d, tag := tag, issue := x.tag, src := src, dst := dst, units := units,
    core := s.warpCore x.w }

/-- A copy started and counted; one without units is complete at once. -/
def startCopy (s : State) (x : Issue) (c : Copy) : State :=
  let s1 := { s with nextId := s.nextId + 1 }
  if c.units = 0 then s1.modWarp x.w.id fun w => countDone (countUp w .cpy x.tag) .cpy x.tag
  else addCopy (s1.modWarp x.w.id fun w => countUp w .cpy x.tag) c

/-- A failed check of R231 or R282, with the violation record of R285. -/
def copyProtect (s : State) (x : Issue) (file : BitVec 3) (off why : Nat) : State :=
  let s1 := if why = 0 then s else recordViolation s (s.warpCore x.w) off (s.warpCtx x.w) x.w.idx why
  issueTrap x s1 0x11 (BitVec.ofNat 16 (16 * why)) x.e file

/-- CPYA (R231): operands of the lowest participant. -/
def cpyaEffect (dir : CpyDir) (d : Reg) (q : Src3) (x : Issue) (s : State) : State :=
  let gs := dir == .g2s || dir == .g2g
  let gd := dir == .s2g || dir == .g2g
  let a := src3A x (if gs then .p else .v) q x.low
  let b := src3B x (if gd then .p else .v) q x.low
  let n := src3C x .v q x.low
  if n % 16 ≠ 0 ∨ a % 16 ≠ 0 ∨ b % 16 ≠ 0 then issueTrap x s 0x10 0 x.e 2
  else if 0x1000000 < n then issueTrap x s 0x11 0 x.e 2
  else match endOf s x gs a n, endOf s x gd b n with
  | .error why, _ => copyProtect s x 2 a why
  | _, .error why => copyProtect s x 2 b why
  | .ok src, .ok dst =>
    let r := s.drawDWord
    let at_ := if n = 0 then s.clock else r.1
    let tag := x.w.nextTag
    let vals := (lanesOf x.e).map fun l => (l, [at_.setWidth 32, at_.extractLsb' 32 32, BitVec.ofNat 32 tag])
    let o := { outOf x s .p d x.e (.values vals []) none with
      dsts := (if d == 0 then [0, 0] else [d.toNat, d.toNat + 1]) ++ [d.toNat + 2] }
    let s1 := (if n = 0 then s else r.2).modWarp x.w.id fun w => addOut (giveTag w (if n = 0 then .complete else .running)) o
    startCopy s1 x (newCopy s1 x (.cpya dir) tag src dst (n / 16))

def execCpya (h : Hdr) (dir : CpyDir) (d : Reg) (q : Src3) (s : State) : Out :=
  issue (.cpya h dir d q) s always (cpyaEffect dir d q)

/-- CPYW (R233). It has no copy tag, so a late failure and a fault record of it hold tag 0. DESIGN CHOICE (log entry 85). A trap at
issue is taken by E. DESIGN CHOICE (log entry 105). -/
def execCpyw (h : Hdr) (a b : Reg) (s : State) : Out :=
  issue (.cpyw h a b) s always fun x t =>
    let va := rdP x.w a x.low
    let n := (rdV x.w b x.low).toNat
    if va.toNat % 1024 ≠ 0 ∨ n % 1024 ≠ 0 then issueTrap x t 0x10 0 x.e 0
    else if 0x1000000 < n ∨ rangeCanonical va n = false then issueTrap x t 0x11 0 x.e 0
    else if wortIssueHit t x.w va.toNat n then issueTrap x t 0x11 0x40 x.e 0
    else
      let units := if (t.warpEff x.w).kilnMib = 0 then 0 else n / 1024
      startCopy t x (newCopy t x .cpyw 0 (.glob va) (.glob va) units)

/-- CPYQ (R234), with tag 0 as CPYW. DESIGN CHOICE (log entry 85). A trap at issue is taken by E. DESIGN CHOICE (log entry 105). -/
def execCpyq (h : Hdr) (k a b : Reg) (s : State) : Out :=
  issue (.cpyq h k a b) s always fun x t =>
    let va := rdP x.w a x.low
    let n := (rdV x.w b x.low).toNat
    if va.toNat % 128 ≠ 0 then issueTrap x t 0x10 0 x.e 0
    else if 65536 < n ∨ rangeCanonical va (128 * n) = false then issueTrap x t 0x11 0 x.e 0
    else
      let c := newCopy t x (.cpyq k.toNat) 0 (.glob va) (.glob va) n
      let t1 := startCopy t x c
      if n = 0 then t1
      else t1.modWg x.w.wg fun g => putSender g { id := 2 ^ 32 + c.id, q := k.toNat, qbo := x.w.qbo }

/-! ## Units -/

/-- Bytes of a unit: 16 of a CPYA, one sector of a CPYW, one entry of a CPYQ. DESIGN CHOICE (log entry 30). DESIGN CHOICE (log entry 31). -/
def unitBytes : CopyKind → Nat | .cpya _ => 16 | .cpyw => 1024 | .cpyq _ => 128

/-- The accesses of a copy in global memory. -/
def copyAcc (c : Copy) : Acc := { core := c.core, asid := c.asid, user := c.user, ctx := c.ctx, owner := copyOwner c.id }

/-- A copy's request to another package queued. -/
def copyAsk (s : State) (c : Copy) (unit part pkg : Nat) (va : DWord) (op : RemoteOp) : Option State :=
  let id := s.nextId
  (sendFor { s with nextId := id + 1 } pkg c.asid va.toNat (.request s.dev pkg id c.asid c.user va op) none).map fun t =>
    modCopy t c.id fun y => { y with asks := y.asks ++ [(id, unit, part)] }

/-- A source unit that the copy has read already: another package's, or one that the copy itself was about to overwrite. -/
def unitKept (c : Copy) (unit n : Nat) : Option (List Byte) :=
  let ws := (List.range (n / 8)).map fun k => (c.parts.find? fun p => p.1 == unit && p.2.1 == k).map (·.2.2)
  if ws.all (·.isSome) then some (ws.flatMap fun v => leBytes 8 (v.getD 0).toNat) else none

/-- A source unit of another package asked for, whole (R231). -/
def farUnit (s : State) (c : Copy) (unit pkg : Nat) (va : DWord) (n : Nat) : Got (List Byte) × State :=
  if s.deadPkgs.contains pkg then (.err, s)
  else if c.asks.any fun a => a.2.1 == unit && a.2.2 == 0 then (.wait, s)
  else match copyAsk s c unit 0 pkg va (.read n) with
  | some t => (.wait, t)
  | none => (.deny 0xFFFF, s)

/-- Bytes of a scratchpad range as the engine reads them; a bank that has changed hands holds nothing that the manual states. -/
def rangeRead (s : State) (ctx : Nat) (r : BankRange) (x n : Nat) : List Byte × State :=
  let bank := (r.banks[x / 0x4000]?).getD 0
  let c := s.getCore r.core
  if (sget 0 c.owner bank).toNat == ctx then ((List.range n).map fun k => sget 0 c.scratch (bank * 0x4000 + (x + k) % 0x4000), s)
  else s.drawBytes n

/-- The source bytes of a unit. -/
def unitRead (s : State) (c : Copy) (unit : Nat) : Got (List Byte) × State :=
  let n := unitBytes c.kind
  match unitKept c unit n with
  | some bs => (.done bs, s)
  | none =>
  match c.src with
  | .glob va =>
    let a := va + BitVec.ofNat 64 (n * unit)
    let r := readHome s (copyAcc c) a n
    (match r.1 with
     | .far k => farUnit r.2 c unit k a n
     | _ => r)
  | .bank r => let v := rangeRead s c.ctx r (r.off + n * unit) n; (.done v.1, v.2)
  | .cask k j =>
    let o := j + n * unit
    if caskCheck (s.getCluster k) c.ctx (casketBase + o) n ≠ 0 then (.deny 0, s)
    else if splaceBusy s c.core (.cask k o) n then (.wait, s)
    else let v := caskRead s k o n; (.done v.1, v.2)

/-- What becomes of a written unit. -/
inductive Wrote where
  | done | wait | asked | aborted | deny | noPath
  | fault (level : Nat)
  | err
  deriving DecidableEq, Repr

/-- A unit written at its place. -/
def unitWrite (s : State) (c : Copy) (unit : Nat) (bs : List Byte) : Wrote × State :=
  match c.dst with
  | .glob va =>
    let a := va + BitVec.ofNat 64 (16 * unit)
    if c.asks.any fun k => k.2.1 == unit && k.2.2 == 64 then (.wait, s)
    else if wortHomeHit s c.asid a.toNat 16 then (.deny, s)
    else
      let r := route s c.core c.asid c.user .write a
      match r.1 with
      | none => (.wait, r.2)
      | some (.absent l) => (.fault l, r.2)
      | some .deny => (.deny, r.2)
      | some (.ctrl _) => (.deny, r.2)
      | some (.host h) => if s.linkw == 0 then (.err, r.2) else (.done, { r.2 with hostMem := Memory.writeN r.2.hostMem h bs })
      | some (.far k _) =>
        if s.deadPkgs.contains k then (.err, r.2)
        else (match copyAsk r.2 c unit 64 k a (.store bs) with
         | some t => (.asked, t)
         | none => (.noPath, r.2))
      | some (.mem pa kind glob) =>
        let tag := if glob then 0 else c.asid
        if homeDead s pa then (.err, r.2)
        else if kind == 3 || kind == 5 then (.deny, r.2)
        else if !engineReady r.2 c.asid a.toNat pa then (.wait, announceWrite r.2 pa c.asid (lineOf a))
        else
          let u := if kind == 0 then settleLines r.2 c.core tag [lineOf a] else (true, r.2)
          if u.1 then (.done, engineStore u.2 c.asid a pa bs) else (.wait, u.2)
  | .bank r =>
    let x := r.off + 16 * unit
    let bank := (r.banks[x / 0x4000]?).getD 0
    let k := s.getCore r.core
    if (sget 0 k.owner bank).toNat == c.ctx then
      (.done, s.modCore r.core fun y => { y with scratch := (List.range bs.length).foldl (fun m i =>
        sput 0 m (bank * 0x4000 + x % 0x4000 + i) ((bs[i]?).getD 0)) y.scratch })
    else (.aborted, s)
  | .cask k j =>
    let o := j + 16 * unit
    if caskCheck (s.getCluster k) c.ctx (casketBase + o) 16 ≠ 0 then (.deny, s)
    else if splaceBusy s c.core (.cask k o) 16 then (.wait, s)
    else (.done, caskWrite s k o bs)

/-- The byte of a copy's end in its address space: the space, and where in it. -/
def endByte (e : CopyEnd) (i : Nat) : (Nat × Nat) × Nat :=
  match e with
  | .glob va => ((0, 0), (va.toNat + i) % 2 ^ 64)
  | .bank r => ((1, r.wg), r.off + i)
  | .cask k o => ((2, k.die * 16 + k.clu), o + i)

/-- The bytes of a unit as its destination takes them: those that lie in the source range are undefined (R231). DESIGN CHOICE (log entry 30). -/
def unitFinal (s : State) (c : Copy) (unit : Nat) (bs : List Byte) : List Byte × State :=
  let first := endByte c.src 0
  let inside (i : Nat) : Bool :=
    let b := endByte c.dst (16 * unit + i)
    b.1 == first.1 &&
      (if b.1 == (0, 0) then decide ((b.2 + 2 ^ 64 - first.2) % 2 ^ 64 < 16 * c.units)
       else decide (first.2 ≤ b.2) && decide (b.2 - first.2 < 16 * c.units))
  if (List.range bs.length).any inside then
    let r := s.drawBytes bs.length
    ((List.range bs.length).map fun i => if inside i then (r.1[i]?).getD 0 else (bs[i]?).getD 0, r.2)
  else (bs, s)

/-- Undefined bytes in one unit of a copy's destination: in memory that the copy may write, whatever delays a write there; in banks that
still are the workgroup's own, which no engine writes (R186); in cluster scratch that passes its checks. -/
def lostUnit (c : Copy) (s : State) (unit : Nat) : State :=
  let r := s.drawBytes 16
  match c.dst with
  | .glob va =>
    let a := va + BitVec.ofNat 64 (16 * unit)
    let open_ : Bool := match translateNow s 0 c.asid c.user .write a with
      | .mem _ kind _ => kind != 3 && kind != 5 && !wortHomeHit s c.asid a.toNat 16
      | .host _ => true
      | .far .. => true
      | _ => false
    if open_ then writeVa r.2 c.asid a.toNat r.1 else s
  | .bank k =>
    (match s.getWg k.wg with
     | some g => if g.banks == k.banks then bankWrite r.2 k.wg (k.off + 16 * unit) r.1 else s
     | none => s)
  | .cask k j => if caskCheck (s.getCluster k) c.ctx (casketBase + (j + 16 * unit)) 16 = 0 then caskWrite r.2 k (j + 16 * unit) r.1 else s

/-- The destination range of a copy that ends in error or aborts is undefined (R186, R235). DESIGN CHOICE (log entry 30). -/
def copyLost (s : State) (c : Copy) : State :=
  match c.kind with
  | .cpya _ => (List.range c.units).foldl (lostUnit c) s
  | _ => s

/-- A copy ends in error: its destination is undefined, and the lanes take MEM_PROTECT with INFO holding the tag (R235), or FABRIC_PATH where it
has no path (R467). -/
def copyStop (s : State) (c : Copy) (noPath : Bool) : State :=
  deferTrap (modCopy (copyLost s c) c.id fun y => { y with st := .failed }) c.w
    { cause := if noPath then 0x29 else 0x11, info := if noPath then 2 else BitVec.ofNat 16 c.tag, lanes := c.lanes, pc := c.pc, d := c.d,
      file := (match c.kind with | .cpya _ => 2 | _ => 0), tag := c.issue }

/-- The unit whose check against the cluster-scratch owner or limit fails as it moves: cluster, offset and reason (R282). -/
def unitBreaks (s : State) (c : Copy) (unit : Nat) : Option (CluId × Nat × Nat) :=
  let n := unitBytes c.kind
  let at_ (e : CopyEnd) (m : Nat) : Option (CluId × Nat × Nat) :=
    match e with
    | .cask k o =>
      let off := casketBase + o + m * unit
      let why := caskCheck (s.getCluster k) c.ctx off m
      if why = 0 then none else some (k, off, why)
    | _ => none
  match at_ c.src n, c.kind with
  | some x, _ => some x
  | none, .cpya _ => at_ c.dst 16
  | none, _ => none

/-- A permission failure ends the copy in error: MEM_PROTECT, deferred, with INFO holding the tag (R235); one of cluster scratch is recorded
in CSV (R285). DESIGN CHOICE (log entry 30). -/
def copyFail (s : State) (c : Copy) (unit : Nat) : State :=
  let idx := ((keptWarp s c.w).map (·.idx)).getD 0
  copyStop (match unitBreaks s c unit with
    | some (k, off, why) => recordViolation s ⟨k.die, k.clu, c.core.core⟩ off c.ctx idx why
    | none => s) c false

/-- Every older store of the issuing warp, also of one that is saved, has reached its event (R338). -/
def storesBehind (s : State) (w issue : Nat) : Bool :=
  match keptWarp s w with
  | some x => (olderStores x issue).isEmpty
  | none => true

/-- The copy may move a unit now. -/
def copyLive (s : State) (c : Copy) : Bool := c.st == .running && !c.waiting && storesBehind s c.w c.issue

def unitDone (s : State) (c : Copy) (unit : Nat) : State :=
  modCopy s c.id fun y => { y with written := y.written ++ [unit], parts := y.parts.filter fun p => p.1 != unit }

/-- The source unit that the write of a unit overwrites, where the two ranges overlap. -/
def unitUnder (c : Copy) (unit : Nat) : Option Nat :=
  let a := endByte c.src 0
  let b := endByte c.dst (16 * unit)
  if b.1 != a.1 then none
  else
    let off := if b.1 == (0, 0) then (b.2 + 2 ^ 64 - a.2) % 2 ^ 64 else if a.2 ≤ b.2 then b.2 - a.2 else 16 * c.units
    if off < 16 * c.units && off / 16 != unit && !c.written.contains (off / 16) then some (off / 16) else none

/-- That source unit read before it is overwritten, so that its own destination is written correctly (R231); false while it cannot be. -/
def keepUnder (s : State) (c : Copy) (unit : Nat) : Bool × State :=
  match unitUnder c unit with
  | none => (true, s)
  | some v =>
    if (unitKept c v 16).isSome then (true, s)
    else
      let r := unitRead s c v
      match r.1 with
      | .done bs => (true, modCopy r.2 c.id fun y =>
          { y with parts := y.parts ++ (dwordsOf 0 bs).map fun u => (v, u.1 / 8, u.2) })
      | _ => (false, r.2)

/-- A unit of a CPYA moved (R231). -/
def moveUnit (s : State) (c : Copy) (unit : Nat) : State :=
  let r := unitRead s c unit
  match r.1 with
  | .done bs0 =>
    let u := keepUnder r.2 c unit
    if !u.1 then unsettle s u.2
    else
      let f := unitFinal u.2 c unit bs0
      let w := unitWrite f.2 c unit f.1
      (match w.1 with
       | .done => unitDone w.2 c unit
       | .asked => w.2
       | .aborted => modCopy (copyLost w.2 c) c.id fun y => { y with st := .aborted }
       | .deny => copyFail w.2 c unit
       | .noPath => copyStop w.2 c true
       | .err => containCtx w.2 c.ctx
       | .fault _ => r.2
       | .wait => unsettle s w.2)
  | .deny 0xFFFF => copyStop r.2 c true
  | .deny _ => copyFail r.2 c unit
  | .err => containCtx r.2 c.ctx
  | .fault _ => s
  | _ => r.2

/-- A sector of a CPYW filled clean (R233), or one that a prefetch asks for, whose failures drop it (R221); a control page
refuses it (R270); bytes that the kiln cannot hold are left to the accesses themselves. -/
def fillUnit (s : State) (c : Copy) (unit : Nat) : State :=
  let va := (match c.src with | .glob va => va | _ => 0) + BitVec.ofNat 64 (1024 * unit)
  let mibs := ((s.ctxRegion c.ctx).map (·.eff.kilnMib)).getD 0
  let kind := match walkNow s c.core c.asid c.user .read va with
    | .mem _ k _ => k
    | .host _ => 1
    | .ctrl _ => 2
    | .far _ _ => farKind s c.core.die c.asid va.toNat
    | _ => 0
  let ctrl : Bool := match walkNow s c.core c.asid c.user .read va with | .ctrl _ => true | _ => false
  if ctrl && c.w != 0 then copyFail s c unit
  else if kind == 1 || kind == 2 then unitDone s c unit
  else
    let r := readKiln s (copyAcc c) mibs va 1024
    match r.1 with
    | .done _ => unitDone r.2 c unit
    | .far k =>
      if kilnFar s (copyAcc c) mibs va then askUnitsOf r.2 (copyOwner c.id) c.asid c.user k (va.toNat / 1024 * 1024) 128 else unitDone r.2 c unit
    | .deny i => if c.w = 0 then unitDone r.2 c unit else if i == 0xFFFF then copyStop r.2 c true else copyFail r.2 c unit
    | .err => containCtx r.2 c.ctx
    | .fault _ => if c.w = 0 then unitDone s c unit else s
    | _ => r.2

/-- A block of a CPYQ pushed, in address order, while its replay window has room (R234). -/
def pushUnit (s : State) (c : Copy) (q unit : Nat) : State :=
  match s.getWg c.wg with
  | none => s
  | some g =>
    let d := senderOf g (2 ^ 32 + c.id) q
    if unit ≠ c.written.length ∨ windowSize ≤ d.window.length ∨ 16 ≤ d.failed then s
    else
      let r := unitRead s c unit
      match r.1 with
      | .done bs =>
        let ent : QEntry := (List.range 32).map fun l => BitVec.ofNat 32 (leNat ((bs.drop (4 * l)).take 4))
        (unitDone r.2 c unit).modWg c.wg fun y =>
          { putSender y { d with nextSeq := d.nextSeq + 1, window := d.window ++ [(d.nextSeq, true, ent)],
                                 pushes := d.pushes ++ [(d.nextSeq, c.lanes, c.pc, c.issue)] } with
            flight := y.flight ++ [⟨d.id, q, d.nextSeq, ent⟩] }
      | .deny 0xFFFF => copyStop r.2 c true
      | .deny _ => copyFail r.2 c unit
      | .err => containCtx r.2 c.ctx
      | .fault _ => s
      | _ => r.2

/-- COPY_UNIT_WRITE. -/
def execCopyUnitWrite (copy unit : Nat) (s : State) : Out :=
  happens (match s.copies.find? fun c => c.id == copy with
    | none => s
    | some c =>
      if !copyLive s c || c.units ≤ unit || c.written.contains unit then s
      else match c.kind with
      | .cpya _ => moveUnit s c unit
      | .cpyw => fillUnit s c unit
      | .cpyq q => pushUnit s c q unit)

/-- The first unit of a copy whose page is absent: address and level. -/
def copyFault (s : State) (c : Copy) : Option (DWord × Nat) :=
  if !copyLive s c || c.w = 0 then none
  else
    let left := (List.range c.units).filter fun u => !c.written.contains u
    left.findSome? fun u =>
      match (unitRead s c u).1 with
      | .fault l => (match c.src with | .glob va => some (va + BitVec.ofNat 64 (unitBytes c.kind * u), l) | _ => none)
      | .done bs =>
        (match c.kind, (unitWrite s c u bs).1, c.dst with
         | .cpya _, .fault l, .glob va => some (va + BitVec.ofNat 64 (16 * u), l)
         | _, _, _ => none)
      | _ => none

/-- A page fault in a copy's range: the copy pauses and service level gets its tag (R235). -/
def pauseCopy (s : State) (c : Copy) (va : DWord) (level : Nat) : State :=
  let idx := ((s.getWarp c.w).map (·.idx)).getD 0
  let by_ := walkBy s c.core c.asid va.toNat 5
  reportFault (modCopy s c.id fun y => { y with st := .paused }) by_.1
    ⟨.copy c.id, by_.2, c.ctx, c.asid, coreIndex c.core, idx, c.tag, va, level, [], none⟩

/-- Whether a copy has come to its end. -/
def copyEnded (s : State) (c : Copy) : Bool :=
  match c.st with
  | .aborted => true
  | .failed => true
  | .refused => true
  | .complete => true
  | .paused => false
  | .running => c.units ≤ c.written.length &&
      (match c.kind with
       | .cpyq q => (match s.getWg c.wg with
         | some g => (senderOf g (2 ^ 32 + c.id) q).window.isEmpty
         | none => !(s.gangs.any fun y => y.savedWgs.any fun g => g.id == c.wg))
       | _ => true)

/-- The end of a copy recorded: its tag reads complete and c.cpy counts it, also for a warp that is saved (R214, R232, R428);
an aborted copy leaves its trap (R186). -/
def copyOver (s : State) (c : Copy) : State :=
  let upd (w : Warp) : Warp :=
    countDone { w with
      tags := w.tags.map (fun t => if t.1 == c.tag then (t.1, TagStatus.complete) else t)
      copyAbort := w.copyAbort || c.st == .aborted } .cpy c.issue
  let s1 := { s.modKept c.w upd with
    copies := s.copies.filter (fun x => x.id != c.id)
    wgs := s.wgs.map (fun g => { g with senders := g.senders.filter fun d => d.id != 2 ^ 32 + c.id }) }
  startWaiting s1 c.dst

/-- COPY_COMPLETE: the end of a copy; one that another package has refused ends in error first. -/
def execCopyComplete (copy : Nat) (s : State) : Out :=
  happens (match s.copies.find? fun c => c.id == copy with
    | some c => if c.st == .refused then copyStop s c false else if copyEnded s c then copyOver s c else s
    | none => s)

/-! ## Queue entries on their way -/

/-- LDQ_ENTRY_PUSH: once every lane's load has returned, and every older entry of the sender has left, the entry is sent. -/
def ldqPush (s : State) (wid tag : Nat) : State :=
  match s.getWarp wid with
  | none => s
  | some w =>
    match w.reads.find? fun o => o.tag == tag with
    | none => s
    | some o =>
      match o.res, s.getWg w.wg with
      | .ldq _ q _ _, some g =>
        if o.faulted != 0 then s
        else
          let older := performOlder s wid (olderReads w tag)
          if !older.1 then older.2
          else
            let me := ((older.2.getWarp wid).bind fun y => y.reads.find? fun k => k.tag == tag).getD o
            let r := performRead older.2 wid me
            let d := senderOf g wid q
            match d.pushes.find? fun p => p.2.2.2 == tag with
            | none => r.2
            | some (seq, _, _, _) =>
              if !r.1 || (d.window.any fun e => decide (e.1 < seq) && !e.2.1) then r.2
              else
                let got : List (Nat × Word) := match (((r.2.getWarp wid).bind fun y => y.reads.find? fun k => k.tag == tag).getD o).res with
                  | .ldq _ _ _ got => got
                  | _ => []
                let ent : QEntry := (List.range 32).map fun l => ((got.find? fun p => p.1 == l).map (·.2)).getD 0
                (r.2.modWarp wid fun y => { y with reads := y.reads.filter fun k => k.tag != tag }).modWg g.id fun y =>
                  { putSender y { d with window := d.window.map fun e => if e.1 == seq then (seq, true, ent) else e } with
                    flight := y.flight ++ [⟨wid, q, seq, ent⟩] }
      | _, _ => s

def execLdqEntryPush (w tag : Nat) (s : State) : Out := happens (ldqPush s w tag)

/-- The back-off register of a sender: its warp's, or the value a CPYQ issued with (R199, R234). -/
def senderQbo (s : State) (d : Sender) : Word := match s.getWarp d.id with | some w => w.qbo | none => d.qbo

/-- An entry accepted: it leaves the window, the younger refused entries are sent again, and its push counts (R198). A back-off that a
younger entry's refusal started runs on while that entry stands refused. -/
def acceptEntry (s : State) (g : Workgroup) (d : Sender) (m : QMsg) : State :=
  let again := if d.replaying == some m.seq then
      (d.window.filter fun e => decide (m.seq < e.1) && e.2.1 && !(g.flight.any fun f => f.sender == d.id && f.q == d.q && f.seq == e.1)).map
        fun e => (⟨d.id, d.q, e.1, e.2.2⟩ : QMsg)
    else []
  let coming (k : Nat) : Bool := (g.flight ++ again).any fun f => f.sender == d.id && f.q == d.q && f.seq == k
  let refused : Bool := d.window.any fun e => decide (m.seq < e.1) && e.2.1 && !coming e.1
  let d1 := { d with
    window := d.window.filter (fun e => e.1 != m.seq)
    pushes := d.pushes.filter (fun p => p.1 != m.seq)
    n := 1
    failed := 0
    backoff := if refused then d.backoff else none
    replaying := none }
  let s1 := s.modWg g.id fun y =>
    { putSender y d1 with
      queues := y.queues.modify m.q fun l => l ++ [m.data]
      flight := (y.flight.filter fun f => !(f == m)) ++ again }
  match d.pushes.find? fun p => p.1 == m.seq with
  | some p => if d.id < 2 ^ 32 then s1.modWarp d.id fun w => countDone w .ld p.2.2.2 else s1
  | none => s1

/-- Sixteen failed replays (R200, R234): the deferred trap of the push's lanes; a copy ends in error. -/
def exhausted (s : State) (d : Sender) (seq : Nat) : State :=
  match d.pushes.find? fun p => p.1 == seq with
  | none => s
  | some (_, lanes, pc, tag) =>
    let t (k dd : Nat) (st : State) : State :=
      deferTrap st k { cause := 0x1A, info := BitVec.ofNat 16 d.q, lanes := lanes, pc := pc, d := BitVec.ofNat 11 dd, tag := tag }
    if d.id < 2 ^ 32 then t d.id d.q s
    else match s.copies.find? fun c => c.id == d.id - 2 ^ 32 with
    | some c => t c.w c.d.toNat (modCopy s c.id fun y => { y with st := .failed })
    | none => s

/-- An entry refused (R198): the back-off of the next replay starts, or the replays are exhausted. -/
def refuseEntry (s : State) (g : Workgroup) (d : Sender) (m : QMsg) : State :=
  let put (e : Sender) : State := s.modWg g.id fun y => { putSender y e with flight := y.flight.filter fun f => !(f == m) }
  if d.replaying == some m.seq then
    let e := { d with replaying := none, failed := d.failed + 1, n := d.n + 1 }
    if 16 ≤ e.failed then exhausted (put { e with backoff := none }) e m.seq
    else put { e with backoff := some (backoffEnd s (senderQbo s d) e.n) }
  else if d.backoff.isSome || d.replaying.isSome || 16 ≤ d.failed then put d
  else put { d with n := 1, backoff := some (backoffEnd s (senderQbo s d) 1) }

/-- Places of a queue (R194). -/
def queueSize : Nat := 64

/-- QUEUE_ENTRY_ARRIVAL: the n-th entry on its way reaches its queue; a sender's entries arrive in the order they were sent. -/
def queueArrival (s : State) (wg n : Nat) : State :=
  match s.getWg wg with
  | none => s
  | some g =>
    match g.flight[n]? with
    | none => s
    | some m =>
      if (g.flight.take n).any fun f => f.sender == m.sender && f.q == m.q then s
      else
        let d := senderOf g m.sender m.q
        let first := match d.window with | e :: _ => e.1 == m.seq | [] => false
        if first && (queueOf g m.q).length < queueSize then acceptEntry s g d m else refuseEntry s g d m

def execQueueEntryArrival (wg n : Nat) (s : State) : Out := happens (queueArrival s wg n)

/-- QUEUE_REPLAY: the back-off has run out and the oldest refused entry is sent again. -/
def queueReplay (s : State) (wg sender q : Nat) : State :=
  match s.getWg wg with
  | none => s
  | some g =>
    let d := senderOf g sender q
    match d.backoff, d.window.find? fun e => e.2.1 && !(g.flight.any fun f => f.sender == sender && f.q == q && f.seq == e.1) with
    | some t, some e =>
      if t.toNat ≤ s.clock.toNat then
        s.modWg wg fun y =>
          { putSender y { d with backoff := none, replaying := some e.1 } with flight := y.flight ++ [⟨sender, q, e.1, e.2.2⟩] }
      else s
    | _, _ => s

def execQueueReplay (wg sender q : Nat) (s : State) : Out := happens (queueReplay s wg sender q)

end Sys2Proof.Machine
end

