-- ==== Sys2Proof/Machine/Matrix.lean ====
section
/-! DEFINITION. The folded matrix engine: tiers and chain (R237, R238), weight planes (R240 to R242), the parameter block and its
checks (R243 to R246), the arithmetic of both paths (R39 to R41), the engine queue and its events (R247 to R251), the local wide
buffer (R252 to R255), the fold report (R256), resets (R258) and the instructions WLD, WSWAP, MMS, MQRY, MFOLD and MRST. -/

namespace Sys2Proof.Machine

/-! ## Tiers and chain (R237, R256, R264) -/

def engineOf (s : State) (c : CoreId) : Engine := (s.getCore c).engine
def modEngine (s : State) (c : CoreId) (f : Engine → Engine) : State := s.modCore c fun x => { x with engine := f x.engine }
def modOp (s : State) (c : CoreId) (w tag : Nat) (f : MxOp → MxOp) : State :=
  modEngine s c fun e => { e with queue := updAt (fun o => o.w == w && o.tag == tag) f e.queue }
def dropOp (s : State) (c : CoreId) (w tag : Nat) : State :=
  modEngine s c fun e => { e with queue := e.queue.filter fun o => !(o.w == w && o.tag == tag) }

/-- LIVE (R264). -/
def liveTiers (e : Engine) : BitVec 5 := e.cfg &&& ~~~ e.thr &&& ~~~ e.fail
/-- The chain, from the topmost tier down (R237). -/
def chainOf (e : Engine) : List Nat := [4, 3, 2, 1, 0].filter fun t => (liveTiers e).getLsbD t

/-- The fold state word (R264). -/
def mfoldWord (e : Engine) : Word :=
  BitVec.ofNat 32 (e.cfg.toNat + 2 ^ 5 * e.thr.toNat + 2 ^ 10 * e.fail.toNat + 2 ^ 15 * (liveTiers e).toNat +
    2 ^ 20 * (chainOf e).length)

/-- The order in which m slices are combined on a chain of d tiers (R238). -/
def sliceOrder (m d : Nat) (pinned : Bool) : List Nat :=
  if pinned then (List.range m).reverse
  else (List.range 4).flatMap fun p => ((List.range m).filter fun k => decide (p * d ≤ k) && decide (k < (p + 1) * d)).reverse

/-- Passes of an operation (R238). -/
def passesOf (m d : Nat) : Nat := (m + d - 1) / d

/-- The fold report (R256). -/
def foldReport (chain : List Nat) (pinned exact : Bool) (m : Nat) : Word :=
  let p := passesOf m chain.length
  let tiers := (List.range 5).foldl (fun acc k => acc + 2 ^ (3 + 3 * k) * ((chain[k]?).getD 7)) 0
  BitVec.ofNat 32 (chain.length + tiers + 2 ^ 18 * pinned.toNat + 2 ^ 19 * (pinned && decide (1 < p)).toNat + 2 ^ 20 * exact.toNat + 2 ^ 21 * p)

/-! ## Formats and tiles (R19, R241, R242, R244) -/

def wfmtOf : Nat → Option WFmt
  | 1 => some .f16 | 2 => some .bf16 | 3 => some .e4m3 | 4 => some .e5m2 | 5 => some .e3m2 | 6 => some .e2m3
  | 7 => some .e2m1 | 8 => some .s8 | 9 => some .log6 | _ => none

/-- Element width in bits (R243). -/
def wfmtBits : WFmt → Nat
  | .f16 => 16 | .bf16 => 16 | .e4m3 => 8 | .e5m2 => 8 | .s8 => 8 | .e3m2 => 6 | .e2m3 => 6 | .log6 => 6 | .e2m1 => 4

/-- Bytes of a weight tile (R241). -/
def tileBytes (f : WFmt) : Nat := 512 * wfmtBits f

/-- The elements of a record or row part, in the layout of R19: element n in the bits from w × n on. -/
def elemsOf (w n : Nat) (bs : List Byte) : List Nat :=
  let v := leNat bs
  (List.range n).map fun k => bitsAt v (w * k) w

/-- An exact-path datum in units of 2^−24, or why it has none. -/
inductive Elem where
  | fix (v : Int)
  | inf
  | nan
  deriving DecidableEq, Repr

/-- An operand element of the exact path (R18, R22, R39). -/
def elemVal (f : WFmt) (x : Nat) : Elem :=
  let num (n : Num) (special : Elem) : Elem :=
    match n with
    | .fin neg m e => .fix ((if neg then -1 else 1) * (m * 2 ^ (e + 24).toNat : Nat))
    | .inf _ => special
    | .nan _ => .nan
  match f with
  | .f16 => num (Fmt.read .f16 x) .inf
  | .bf16 => .nan
  | .e4m3 => num (Fmt.read .e4m3 x) .nan
  | .e5m2 => num (Fmt.read .e5m2 x) .nan
  | .e3m2 => num (Fmt.read .e3m2 x) .nan
  | .e2m3 => num (Fmt.read .e2m3 x) .nan
  | .e2m1 => num (Fmt.read .e2m1 x) .nan
  | .s8 => .fix (valInt true 8 x * 2 ^ 24)
  | .log6 => num (logRead x) .nan

/-- A LOG6 × LOG6 product in units of 2^−48 (R39 step 1). -/
def logProduct (a b : Nat) : Int :=
  let la := a % 32
  let lb := b % 32
  if la = 0 ∨ lb = 0 then 0
  else (if (a / 32 + b / 32) % 2 = 1 then -1 else 1) * (logF ((la + lb) % 4) * 2 ^ ((la + lb) / 4) * 2 ^ 26 : Nat)

/-- The exact sum of a slice in units of 2^−48 (R39 steps 1 and 2). -/
def sliceSum (fa fw : WFmt) (as ws : List Nat) : Elem :=
  if fa == .log6 && fw == .log6 then .fix ((List.zipWith logProduct as ws).foldl (· + ·) 0)
  else
    let xs := as.map (elemVal fa)
    let ys := ws.map (elemVal fw)
    if xs.contains .nan || ys.contains .nan then .nan
    else if xs.contains .inf || ys.contains .inf then .inf
    else
      let mul (a b : Elem) : Int := match a, b with | .fix p, .fix q => p * q | _, _ => 0
      .fix ((List.zipWith mul xs ys).foldl (· + ·) 0)

/-- A slice rounded to the grid of the region (R39 step 3). The manual states no sum for an FP16 infinity: the line's integer is
then the free value `other`, and the clip bit is set. DESIGN CHOICE (log entry 23). -/
def sliceGrid (S : Int) (ea ew : Int) (other : Int) : Elem → Int × Bool
  | .fix t => roundToGrid S (.fin (decide (t < 0)) t.natAbs (-48 + (ea - 127) + (ew - 127)))
  | .nan => (0, true)
  | .inf => (other, true)

/-- A slice value of the rounded path (R41 step 1), as FP32 bits. -/
def sliceRound (ea ew : Int) (as ws : List Nat) : Nat :=
  let ps := List.zipWith (fun a b =>
    let x := Fmt.read .bf16 a
    let y := Fmt.read .bf16 b
    if x.isNaN || y.isNaN then none else mulExact x y) as ws
  match sumExact .rne ps with
  | none => Fmt.defaultNaN .f32
  | some v => (roundToFormat .f32 .rne false (v.scaled ((ea - 127) + (ew - 127)))).1

/-- The slice values combined in an order, each addition an FP32 addition (R41 step 2). -/
def combine (vs : List Nat) (order : List Nat) : Nat :=
  match order with
  | [] => 0
  | k :: ks => ks.foldl (fun acc j => (faddBits .f32 .rne false acc ((vs[j]?).getD 0)).1) ((vs[k]?).getD 0)

/-! ## The parameter block (R243) -/

structure MmsBlk where
  aOff : Nat
  sOff : Nat
  rows : Nat
  stride : Nat
  afmt : Nat
  flags : Nat
  dkind : Nat
  dest : Nat
  dstride : Nat
  klen : Nat
  /-- the reserved fields, with the destination's own -/
  rsv : Nat
  deriving DecidableEq, Repr

def mmsBlk (bs : List Byte) : MmsBlk :=
  let v := leNat bs
  let f (o n : Nat) : Nat := bitsAt v (8 * o) (8 * n)
  let dest := f 0x10 8
  { aOff := f 0 4, sOff := f 4 4, rows := f 8 2, stride := f 10 2, afmt := f 12 1, flags := f 13 1, dkind := f 14 1, dest := dest,
    dstride := f 0x18 4, klen := f 0x1C 2,
    rsv := f 15 1 + f 0x1E 2 + f 0x20 32 + bitsAt (f 13 1) 2 6 +
      (if f 14 1 = 0 then bitsAt dest 48 16 else if f 14 1 = 1 then bitsAt dest 32 32 else 0) }

def absent : Nat := 0xFFFFFFFF
def blkK (b : MmsBlk) : Bool := b.klen == 32 || b.klen == 64 || b.klen == 96 || b.klen == 128
/-- Slices present. -/
def blkSlices (b : MmsBlk) : Nat := b.klen / 32
/-- Bytes of one A row (R243). -/
def blkRow (b : MmsBlk) : Nat := b.klen * ((wfmtOf b.afmt).map wfmtBits).getD 0 / 8
/-- Bytes from the first to the last of the A tile, and of an FP32 destination tile. -/
def blkSpan (b : MmsBlk) : Nat := (b.rows - 1) * b.stride + blkRow b
def blkDstSpan (b : MmsBlk) : Nat := (b.rows - 1) * b.dstride + 128
def blkRegion (b : MmsBlk) : Nat := bitsAt b.dest 0 16
def blkFirst (b : MmsBlk) : Nat := bitsAt b.dest 16 32

/-- The entry of a region of a workgroup's context with the state of its core copy. -/
def copyOf (s : State) (g : Workgroup) (id : Nat) : Option (Wort × WortState) :=
  (((s.getGang g.gang).bind fun y => s.getRegion y.region).bind fun r => wortOf r id).map fun x => (x, copyState s x g)

/-- The INFO of the first failing parameter check (R246), 0 when none fails; an FP32 tile out of the scratch range is left to the check of step 7.
DESIGN CHOICE (log entry 95). -/
def mmsParam (s : State) (g : Workgroup) (b : MmsBlk) : Nat :=
  let f := wfmtOf b.afmt
  let lines := match copyOf s g (blkRegion b) with
    | some (x, .opened) => decide (x.lines ≤ blkFirst b + (b.rows - 1) * b.dstride + 1)
    | _ => false
  if f.isNone then 1
  else if b.rows = 0 ∨ 1024 < b.rows then 2
  else if b.stride % 16 ≠ 0 ∨ (blkK b = true ∧ b.stride < blkRow b) then 3
  else if blkK b = false then 4
  else if b.rsv ≠ 0 then 5
  else if 1 < b.dkind ∨ (b.dkind = 1 ∧ f ≠ some .bf16) then 6
  else if b.dkind = 0 then (if 63 < blkRegion b ∨ b.dstride < 2 ∨ lines = true then 7 else 0)
  else if b.dest % 16 ≠ 0 ∨ b.dstride % 16 ≠ 0 ∨ b.dstride < 128 then 7 else 0

/-! ## Ends of an operation -/

/-- Room in the engine queue (R247); an entry is free again once the passes of its operation have ended. DESIGN CHOICE (log entry 44). -/
def queueRoom (x : Issue) (s : State) : Bool := decide ((engineOf s (s.warpCore x.w)).queue.length < 16)

def isMms : MxKind → Bool | .mms _ _ => true | _ => false

/-- Both counters of an operation that has ended (R248). -/
def endCounts (s : State) (w tag : Nat) : State := s.modWarp w fun x => countDone (countDone x .mxi tag) .mx tag

/-- An operation removed without results: consumed and done, its report marked, `sr.fold` 0 (R246, R248, R256). -/
def removeOp (s : State) (c : CoreId) (o : MxOp) (trap : Bool) : State :=
  let s1 := endCounts (dropOp s c o.w o.tag) o.w o.tag
  if isMms o.kind then
    s1.modWarp o.w fun x =>
      { modReport x o.tag (fun r => { r with cons := true, done := true, trapped := r.trapped || trap, reset := r.reset || !trap }) with
        fold := 0 }
  else s1

/-- A deferred check fails (R246, R162). -/
def engineTrap (s : State) (c : CoreId) (o : MxOp) (cause : BitVec 8) (info : BitVec 16) : State :=
  deferTrap (removeOp s c o true) o.w
    { cause := cause, info := info, lanes := o.lanes, pc := o.pc, d := o.d, file := o.file, tag := o.tag }

def modPlanes (s : State) (wg : Nat) (f : Workgroup → Workgroup) : State := s.modWg wg f

/-- The next operation that has not started. -/
def nextOp (e : Engine) : Option MxOp := e.queue.find? fun o => o.phase == .queued

/-! ## WLD and WSWAP -/

/-- An operation entered in the queue. -/
def mxOpOf (s : State) (x : Issue) (file : BitVec 3) (k : MxKind) : MxOp :=
  { w := x.w.id, wg := x.w.wg, ctx := s.warpCtx x.w, tag := x.tag, pc := x.pc, d := x.r.d, file := file, lanes := x.e, kind := k }
def enqueueOp (s : State) (x : Issue) (o : MxOp) : State :=
  modEngine s (s.warpCore x.w) fun e => { e with queue := e.queue ++ [o] }

/-- A scratch range of an engine operation at issue (R183, R282): the reason it fails, none when it passes. -/
def tileFails (s : State) (x : Issue) (off n : Nat) : Option Nat :=
  match endOf s x false off n with
  | .ok _ => none
  | .error why => some why

/-- WLD at issue (R260, R354). -/
def wldEffect (f : WFmt) (a b : Reg) (off : Option Word) (x : Issue) (s : State) : State :=
  let va := rdP x.w a x.low + sx64 (off.getD 0)
  let sc := (rdV x.w b x.low).toNat
  if va.toNat % 1024 ≠ 0 then issueTrap x s 0x10 0 x.e 0
  else if canonical va = false then issueTrap x s 0x11 0 x.e 0
  else if sc ≠ absent ∧ sc % 4 ≠ 0 then issueTrap x s 0x10 0 x.e 0
  else match (if sc = absent then none else tileFails s x sc 128) with
  | some why => copyProtect s x 0 sc why
  | none =>
    if wortIssueHit s x.w va.toNat (tileBytes f) then issueTrap x s 0x11 0x40 x.e 0
    else
      let s1 := s.modWarp x.w.id fun w => countUp (countUp w .mxi x.tag) .mx x.tag
      enqueueOp s1 x (mxOpOf s x 0 (.wld va f (BitVec.ofNat 32 sc)))

/-- WLD. -/
def execWld (h : Hdr) (f : WFmt) (a b : Reg) (off : Option Word) (s : State) : Out :=
  issue (.wld h f a b off) s queueRoom (wldEffect f a b off)

/-- WSWAP counts in no counter (R248). -/
def execWswap (h : Hdr) (s : State) : Out :=
  issue (.wswap h) s queueRoom fun x t => enqueueOp t x (mxOpOf t x 0 .wswap)

/-- The lines of a weight tile read through the kiln path (R249, R260). -/
def tileLines (s : State) (w : Warp) (asid : Nat) (va : DWord) : Nat → Got (List Byte) × State
  | 0 => (.done [], s)
  | n + 1 =>
    let r := readKiln s (accOf s w asid) (s.warpEff w).kilnMib va 128
    let here : Got (List Byte) × State :=
      match r.1 with
      | .far pkg =>
        if kilnFar s (accOf s w asid) (s.warpEff w).kilnMib va then (.wait, askUnits r.2 w pkg (va.toNat / 1024 * 1024) 128) else
        (match farBytes r.2 w.id va.toNat 16 with
         | some (0, bs) => (.done bs, r.2)
         | some (1, _) => (.deny 0x60, dropFar r.2 w.id va.toNat 16)
         | some _ => (.deny 0xFFFF, dropFar r.2 w.id va.toNat 16)
         | none => (.wait, askUnits r.2 w pkg va.toNat 16))
      | _ => r
    match here.1 with
    | .done bs =>
      let t := tileLines here.2 w asid (va + 128) n
      (match t.1 with | .done cs => (.done (bs ++ cs), t.2) | g => (g, t.2))
    | g => (g, here.2)

/-- The first line of a tile whose page is absent: address and level. -/
def tileFault (s : State) (w : Warp) (asid : Nat) (va : DWord) : Nat → Option (DWord × Nat)
  | 0 => none
  | n + 1 =>
    match (readKiln s (accOf s w asid) (s.warpEff w).kilnMib va 128).1 with
    | .fault l => some (va, l)
    | _ => tileFault s w asid (va + 128) n

/-- The array bus of a core is being repaired: its matrix operations wait in the queue (R400). -/
def arrDown (s : State) (c : CoreId) : Bool := (s.getCore c).vbArr.repairing

/-- Scratch bytes of an operation's workgroup at an offset. -/
def opScratch (s : State) (o : MxOp) (off n : Nat) : Option (List Byte × State) :=
  (s.getWg o.wg).bind fun g => (scratchPlace s g off n).bind fun p =>
    if splaceBusy s g.core p n then none else some (splaceRead s p n)

/-- The 8-byte unit of an operand that an operation has read already (R249). -/
def earlyUnit (o : MxOp) (glob : Bool) (u : Nat) : Option (List Byte) := (o.early.find? fun x => x.1 == (glob, u)).map (·.2)

/-- Operand bytes from an address on, with the units that were read before in the place of what stands there now (R249). -/
def withEarly (o : MxOp) (glob : Bool) (a : Nat) (bs : List Byte) : List Byte :=
  if o.early.isEmpty then bs
  else (List.range bs.length).map fun i =>
    (((earlyUnit o glob ((a + i) / 8)).bind fun u => u[(a + i) % 8]?).or bs[i]?).getD 0

/-- The units of some bytes that are read now: those that no earlier step read and that `left`, by their number modulo 64, does not
leave for later (R249). -/
def unitsNow (o : MxOp) (glob : Bool) (left : BitVec 64) (a : Nat) (bs : List Byte) : List ((Bool × Nat) × List Byte) :=
  ((List.range (bs.length / 8)).filter fun k =>
    !left.getLsbD ((a / 8 + k) % 64) && (earlyUnit o glob (a / 8 + k)).isNone).map fun k => ((glob, a / 8 + k), (bs.drop (8 * k)).take 8)

/-- Units that an operation reads now, kept with it. -/
def readEarly (s : State) (c : CoreId) (o : MxOp) (us : List ((Bool × Nat) × List Byte)) : State :=
  modOp s c o.w o.tag fun x => { x with early := x.early ++ us }

/-- The next operation is a WLD and executes: shadow plane invalid, tile and scales read, then valid (R260); or it reads the units that
`left` does not leave for a later step (R249). -/
def wldRun (s : State) (c : CoreId) (o : MxOp) (va : DWord) (f : WFmt) (sc : Word) (left : BitVec 64) : State :=
  match s.getWarp o.w with
  | none => dropOp s c o.w o.tag
  | some w =>
    let s0 := modPlanes s o.wg fun g => { g with shadow := { g.shadow with valid := false } }
    let r := tileLines s0 w (s.warpAsid w) va (tileBytes f / 128)
    match r.1 with
    | .done tile =>
      (match (if sc.toNat = absent then some (List.replicate 128 127, r.2) else opScratch r.2 o sc.toNat 128) with
       | none => r.2
       | some scs =>
         if left != 0 then
           readEarly scs.2 c o (unitsNow o true left va.toNat tile ++ if sc.toNat = absent then [] else unitsNow o false left sc.toNat scs.1)
         else
           let s1 := dropFar scs.2 w.id va.toNat (tileBytes f / 8)
           let ws := if sc.toNat = absent then scs.1 else withEarly o false sc.toNat scs.1
           if ws.contains 0xFF then engineTrap s1 c o 0x21 8
           else
             let s2 := modPlanes s1 o.wg fun g => { g with shadow := ⟨true, f, withEarly o true va.toNat tile, ws⟩ }
             endCounts (dropOp s2 c o.w o.tag) o.w o.tag)
    | .deny 0xFFFF => engineTrap r.2 c o 0x29 0x02
    | .deny i => engineTrap r.2 c o 0x11 i
    | .err => containCtx r.2 o.ctx
    | .fault _ => s
    | _ => unsettle s r.2

/-- WLD_EXECUTE; with some units left the operation goes on reading (R249). -/
def execWldExecute (r : EngineRead) (s : State) : Out :=
  let c := r.core
  let e := engineOf s c
  happens (match nextOp e with
    | some o =>
      (match o.kind with
       | .wld va f sc => if liveTiers e != 0 && !arrDown s c && storesBehind s o.w o.tag then wldRun s c o va f sc r.left else s
       | _ => s)
    | none => s)

/-- A page fault in the tile of the WLD that executes (R260): the load is dropped and the lanes are held by R92. -/
def wldFault (s : State) (wid tag : Nat) : Option State :=
  match s.getWarp wid with
  | none => none
  | some w =>
    let c := s.warpCore w
    match nextOp (engineOf s c) with
    | none => none
    | some o =>
      if o.w != wid || o.tag != tag || o.translated then none
      else match o.kind with
      | .wld va f _ =>
        (tileFault s w (s.warpAsid w) va (tileBytes f / 128)).map fun p =>
          let s1 := modPlanes s o.wg fun g => { g with shadow := { g.shadow with valid := false } }
          pageFaultLanes (removeOp s1 c o false) wid tag o.lanes 6 p.1 p.2 (s.warpAsid w)
      | _ => none

/-- WSWAP_EXECUTE: at its place in the queue the planes are exchanged (R261). -/
def execWswapExecute (c : CoreId) (s : State) : Out :=
  let e := engineOf s c
  happens (match nextOp e with
    | some o =>
      if o.kind == .wswap && liveTiers e != 0 && !arrDown s c then
        modPlanes (dropOp s c o.w o.tag) o.wg fun g => { g with active := g.shadow, shadow := g.active }
      else s
    | none => s)

/-! ## MMS at issue -/

def mmsVa (m : Addr) (x : Issue) : DWord := addrGlobal x m x.low

/-- The block's address needs no access to be refused (R246 steps 1 and 2). -/
def mmsBadVa (va : DWord) : Bool := va.toNat % 64 != 0 || !canonical va

/-- The snapshot of a block as a load of the warp at this moment (R250): it waits for the warp's older loads and for the older
stores to its bytes. DEDUCED (log entry 45). -/
def blockGot (s : State) (x : Issue) (va : DWord) (n : Nat) : Got (List Byte) × State :=
  if !(olderReads x.w x.tag).isEmpty || (olderStores x.w x.tag).any fun p => storeHitsGlobal p va.toNat n then (.wait, s)
  else
    let r := readApart s (accOf s x.w (s.warpAsid x.w)) false va n
    match r.1 with
    | .far k =>
      (match farBytes r.2 x.w.id va.toNat (n / 8) with
       | some (0, bs) => (.done bs, dropFar r.2 x.w.id va.toNat (n / 8))
       | some (1, _) => (.deny 0x60, dropFar r.2 x.w.id va.toNat (n / 8))
       | some _ => (.deny 0xFFFF, dropFar r.2 x.w.id va.toNat (n / 8))
       | none => (.far k, r.2))
    | _ => r

/-- An instruction that reads a block at issue waits until the block is here. -/
def blockReady (x : Issue) (s : State) (va : DWord) (n : Nat) : Bool :=
  match (blockGot s x va n).1 with | .wait => false | .far _ => false | _ => true

/-- The requests for a block: in another package's memory, or of its home slices (R308). -/
def blockAsk (x : Issue) (s : State) (va : DWord) (n : Nat) : State :=
  let r := blockGot s x va n
  match r.1 with | .far k => askUnits r.2 x.w k va.toNat (n / 8) | .wait => r.2 | _ => s

/-- The trap of a block that may not be read, taken at issue, DEDUCED (log entry 45); FABRIC_PATH is deferred (R159). -/
def blockDenied (x : Issue) (s : State) (file : BitVec 3) (info : BitVec 16) : State :=
  if info == 0xFFFF then
    deferTrap s x.w.id { cause := 0x29, info := 2, lanes := x.e, pc := x.pc, d := x.r.d, file := file, tag := x.tag }
  else issueTrap x s 0x11 info x.e file

/-- MMS waits for room in the queue and for its snapshot (R247, R250). -/
def mmsReady (m : Addr) (x : Issue) (s : State) : Bool :=
  queueRoom x s && (mmsBadVa (mmsVa m x) || blockReady x s (mmsVa m x) 64)

/-- The next sequence number of a warp skips 0 (R262). -/
def nextSeq (q : Word) : Word := if q + 1 = 0 then 1 else q + 1

/-- The scratch tiles of a block: offset and bytes. -/
def mmsTiles (b : MmsBlk) : List (Nat × Nat) :=
  [(b.aOff, blkSpan b)] ++ (if b.sOff = absent then [] else [(b.sOff, 4 * b.rows)]) ++
    if b.dkind = 1 then [(b.dest, blkDstSpan b)] else []

/-- The operation accepted: number, report, counters and place in the queue (R262). -/
def mmsAccept (d : Reg) (x : Issue) (s : State) (bs : List Byte) : State :=
  let seq := nextSeq x.w.mxSeq
  let rep : MmsReport := { seq := seq, tag := x.tag, lanes := x.e, rgnc := x.w.lanes.map (·.rgnc) }
  let s1 := s.modWarp x.w.id fun w =>
    let w1 := wrLanes w .v d x.tag ((lanesOf x.e).map fun l => (l, seq.toNat))
    let rs := w1.reports ++ [rep]
    { (countUp (countUp w1 .mxi x.tag) .mx x.tag) with mxSeq := seq, reports := rs.drop (rs.length - 64) }
  enqueueOp s1 x (mxOpOf s x 1 (.mms bs seq))

/-- The checks of R246 on the snapshot, in order. -/
def mmsIssue (d : Reg) (x : Issue) (s : State) (g : Workgroup) (bs : List Byte) : State :=
  let b := mmsBlk bs
  let p := mmsParam s g b
  let st := if b.dkind = 0 then (copyOf s g (blkRegion b)).map (·.2) else some .opened
  let bad := (mmsTiles b).findSome? fun t => (tileFails s x t.1 t.2).map fun why => (t.1, why)
  if p ≠ 0 then issueTrap x s 0x21 (BitVec.ofNat 16 p) x.e 1
  else if st ≠ some .opened then issueTrap x s 0x22 (if st = some .racking then 1 else 0) x.e 1
  else if b.sOff ≠ absent ∧ b.sOff % 4 ≠ 0 then issueTrap x s 0x10 0 x.e 1
  else match bad with
  | some t => copyProtect s x 1 t.1 t.2
  | none => mmsAccept d x s bs

/-- MMS at issue (R246, R250, R358). -/
def mmsEffect (d : Reg) (m : Addr) (x : Issue) (s : State) : State :=
  let va := mmsVa m x
  if va.toNat % 64 ≠ 0 then issueTrap x s 0x10 0 x.e 1
  else if canonical va = false then issueTrap x s 0x11 0 x.e 1
  else
    let r := blockGot s x va 64
    match r.1, s.warpWg x.w with
    | .done bs, some g =>
      let t := if (mmsBlk bs).dkind = 0 then r.2.modGang g.gang fun y => { y with posted := true } else r.2
      mmsIssue d x t g bs
    | .fault l, _ => pageFaultLanes r.2 x.w.id x.tag x.e 0 va l (s.warpAsid x.w)
    | .deny i, _ => blockDenied x r.2 1 i
    | .err, _ => containCtx r.2 (s.warpCtx x.w)
    | _, _ => r.2

/-- MMS. -/
def execMms (h : Hdr) (d : Reg) (m : Addr) (s : State) : Out :=
  issueP (.mms h d m) s (mmsReady m) (fun x t => if mmsBadVa (mmsVa m x) then t else blockAsk x t (mmsVa m x) 64) (mmsEffect d m)

/-! ## The local wide buffer (R252, R253, R255) -/

/-- Entries of the buffer, and those that a workgroup is sure of. -/
def bufferSize : Nat := 512
def bufferShare : Nat := 128

def sameLine (a b : LineAdd) : Bool := a.ctx == b.ctx && a.region == b.region && a.line == b.line

/-- The entry that leaves when one more is needed: the least recently used of the workgroup, or of one above its share. -/
def spillVictim (e : Engine) (wg : Nat) : Option WideEntry :=
  let held (g : Nat) : Nat := (e.buffer.filter fun x => x.wg == g).length
  let pool := e.buffer.filter fun x => if bufferShare ≤ held wg then x.wg == wg else decide (bufferShare < held x.wg)
  pool.foldl (fun acc x => match acc with | none => some x | some y => if x.used < y.used then some x else some y) none

/-- Room for one more entry (R253). DEDUCED (log entry 47). -/
def spill (s : State) (c : CoreId) (wg : Nat) : State :=
  let e := engineOf s c
  if e.buffer.length < bufferSize then s
  else match spillVictim e wg with
    | some v => flushEntries s c fun x => sameLine x.add v.add
    | none => s

/-- One operation's contribution to a line added to the buffer (R252). DEDUCED (log entry 47). -/
def addWide (s : State) (c : CoreId) (o : MxOp) (a : LineAdd) : State :=
  let own := (o.w, o.tag)
  let s0 := if (engineOf s c).buffer.any fun x => sameLine x.add a then s else spill s c o.wg
  let stamp := s0.nextId
  let s1 := { s0 with nextId := stamp + 1 }
  modEngine s1 c fun e =>
    let here : Bool := e.buffer.any fun x => sameLine x.add a
    let more (x : WideEntry) : WideEntry :=
      { x with add := addLine x.add a, owners := (x.owners.filter (· != own)) ++ [own], used := stamp, parts := x.parts ++ [(own, a)] }
    if here then { e with buffer := updAt (fun x => sameLine x.add a) more e.buffer }
    else { e with buffer := e.buffer ++ [⟨o.wg, a, [own], stamp, [(own, a)]⟩] }

/-! ## MMS in the engine -/

/-- Whether an operation is pinned (R238, R405). -/
def opPinned (s : State) (o : MxOp) (b : MmsBlk) : Bool :=
  bitAt b.flags 1 || (match s.ctxRegion o.ctx with | some r => r.eff.pinFold || r.eff.det | none => false)

/-- The path of an A format and a plane format (R244): exact, rounded, or none. -/
def pathOf (a w : WFmt) : Option Bool := if a == .bf16 then (if w == .bf16 then some false else none) else if w == .bf16 then none else some true

def opBlk (o : MxOp) : MmsBlk := match o.kind with | .mms bs _ => mmsBlk bs | _ => mmsBlk []

/-- The next operation is an MMS and starts: plane and chain are taken, checks 9 and 10 made (R237, R246, R262). -/
def mmsStart (s : State) (c : CoreId) (o : MxOp) : State :=
  match s.getWg o.wg with
  | none => dropOp s c o.w o.tag
  | some g =>
    let f := (wfmtOf (opBlk o).afmt).getD .f16
    if !g.active.valid then engineTrap s c o 0x21 9
    else if (pathOf f g.active.fmt).isNone then engineTrap s c o 0x21 10
    else modOp s c o.w o.tag fun x => { x with phase := .started, plane := some g.active, chain := chainOf (engineOf s c) }

/-- MX_OPERATION_START: the next operation starts once the older stores of its warp are visible (R338); an operation whose tiers
have all failed goes on when a tier is live again (R264). -/
def execMxOperationStart (c : CoreId) (s : State) : Out :=
  let e := engineOf s c
  happens (
    if liveTiers e == 0 || arrDown s c then s
    else match e.queue.find? fun o => o.phase != .queued && o.chain.isEmpty with
    | some o => modOp s c o.w o.tag fun x => { x with chain := chainOf e }
    | none =>
      match nextOp e with
      | some o => if isMms o.kind && storesBehind s o.w o.tag then mmsStart s c o else s
      | none => s)

/-- Scratch reads in sequence; none while a place must wait. -/
def opReads (s : State) (o : MxOp) : List (Nat × Nat) → Option (List (List Byte) × State)
  | [] => some ([], s)
  | t :: ts =>
    match opScratch s o t.1 t.2 with
    | none => none
    | some r => (opReads r.2 o ts).map fun q => (r.1 :: q.1, q.2)

/-- The scale byte of a record for a slice; 127 without a tile (R39, R242). -/
def scaleOf (bs : List Byte) (k : Nat) : Nat := ((bs[k]?).getD 127).toNat

/-- Whether a scale byte that the operation reads is 0xFF (check 8). -/
def badScale (b : MmsBlk) (p : Plane) (rows : List (List Byte)) : Bool :=
  let ks := List.range (blkSlices b)
  (rows.any fun r => ks.any fun k => scaleOf r k == 255) ||
    (List.range 32).any fun j => ks.any fun k => ((p.scales[4 * j + k]?).getD 127) == 0xFF

/-- The whole units of some scratch ranges read now, of those that `left` does not leave for later (R249). DESIGN CHOICE (log entry 43). -/
def unitsOf (s : State) (c : CoreId) (o : MxOp) (left : BitVec 64) (ts : List (Nat × Nat)) : State :=
  let spans := ts.map fun t => (t.1 / 8 * 8, (t.1 % 8 + t.2 + 7) / 8 * 8)
  match opReads s o spans with
  | none => s
  | some r => readEarly r.2 c o ((spans.zip r.1).flatMap fun p => unitsNow o false left p.1.1 p.2)

/-- The A tile and its scales have been read, each 8-byte unit once, and c.mxi counts it (R248, R249); or the units that `left` does not
leave for a later step are read. -/
def consume (s : State) (c : CoreId) (o : MxOp) (left : BitVec 64) : State :=
  let b := opBlk o
  let rows := (List.range b.rows).map fun i => (b.aOff + i * b.stride, blkRow b)
  let scs := if b.sOff = absent then [] else (List.range b.rows).map fun i => (b.sOff + 4 * i, 4)
  let now (ts : List (Nat × Nat)) (bs : List (List Byte)) : List (List Byte) := (ts.zip bs).map fun p => withEarly o false p.1.1 p.2
  if left != 0 then unitsOf s c o left (rows ++ scs)
  else match opReads s o rows with
  | none => s
  | some r =>
    match opReads r.2 o scs with
    | none => s
    | some q =>
      if badScale b (o.plane.getD {}) (now scs q.1) then engineTrap q.2 c o 0x21 8
      else
        (modOp q.2 c o.w o.tag fun x => { x with phase := .consumed, rows := now rows r.1, scales := now scs q.1, early := [] }).modWarp o.w fun x =>
          countDone (modReport x o.tag fun y => { y with cons := true }) .mxi o.tag

/-- MX_OPERANDS_CONSUMED; with some units left the operation goes on reading (R249). -/
def execMxOperandsConsumed (r : EngineRead) (s : State) : Out :=
  let c := r.core
  happens (match (engineOf s c).queue.find? fun o => o.phase == .started with
    | some o => if arrDown s c then s else consume s c o r.left
    | none => s)

/-- The elements of a plane's record of slice k and column j (R241). -/
def planeElems (p : Plane) (k j : Nat) : List Nat :=
  let n := 4 * wfmtBits p.fmt
  elemsOf (wfmtBits p.fmt) 32 ((p.tile.drop ((k * 32 + j) * n)).take n)

/-- The weights of an operation, by slice and column, with their scales. -/
def planeTable (p : Plane) (m : Nat) : List (List (List Nat × Nat)) :=
  (List.range m).map fun k => (List.range 32).map fun j => (planeElems p k j, scaleOf p.scales (4 * j + k))

/-- The elements of an A row by slice, with their scales. -/
def rowTable (f : WFmt) (m : Nat) (row : List Byte) (sc : List Byte) : List (List Nat × Nat) :=
  let w := wfmtBits f
  (List.range m).map fun k => (elemsOf w 32 ((row.drop (4 * w * k)).take (4 * w)), scaleOf sc k)

/-- One exact-path element: the sum of its rounded slices and the clip (R39, R40). DESIGN CHOICE (log entry 23). -/
def exactElem (S : Int) (fa fw : WFmt) (as : List (List Nat × Nat)) (ws : List (List Nat × Nat)) : DWord × Bool :=
  (List.range as.length).foldl (fun acc k =>
    let a : List Nat × Nat := (as[k]?).getD ([], 127)
    let w : List Nat × Nat := (ws[k]?).getD ([], 127)
    let r := sliceGrid S (a.2 : Int) (w.2 : Int) (Config.infSlice fa.ctorIdx fw.ctorIdx (a.2 : Int) (w.2 : Int) a.1 w.1) (sliceSum fa fw a.1 w.1)
    (acc.1 + BitVec.ofInt 64 r.1, acc.2 || r.2)) (0, false)

/-- One rounded-path element (R41). -/
def roundElem (order : List Nat) (as : List (List Nat × Nat)) (ws : List (List Nat × Nat)) : Nat :=
  combine (List.zipWith (fun a w => sliceRound a.2 w.2 a.1 w.1) as ws) order

/-- The weights of one column, slice by slice. -/
def columnOf (t : List (List (List Nat × Nat))) (j : Nat) : List (List Nat × Nat) := t.map fun r => (r[j]?).getD ([], 127)

/-- The grid values of one row (R39, R41 step 3). -/
def gridRow (S : Int) (exact : Bool) (fa fw : WFmt) (order : List Nat) (as : List (List Nat × Nat))
    (t : List (List (List Nat × Nat))) : List (DWord × Bool) :=
  (List.range 32).map fun j =>
    if exact then exactElem S fa fw as (columnOf t j)
    else
      let r := roundToGrid S (Fmt.read .f32 (roundElem order as (columnOf t j)))
      (BitVec.ofInt 64 r.1, r.2)

/-- The two lines of a row (R245). -/
def rowAdds (ctx : Nat) (b : MmsBlk) (i : Nat) (vs : List (DWord × Bool)) : List LineAdd :=
  [0, 1].map fun h =>
    let part := (vs.drop (16 * h)).take 16
    { ctx := ctx, region := blkRegion b, line := blkFirst b + i * b.dstride + h, g := part.map (·.1), clip := part.any (·.2), pitch := 1 }

/-- What an operation computes from its operands: formats, order and tables. -/
structure MmsWork where
  b : MmsBlk
  fa : WFmt
  fw : WFmt
  order : List Nat
  rows : List (List (List Nat × Nat))
  cols : List (List (List Nat × Nat))
  report : Word
  exact : Bool

def mmsWork (s : State) (o : MxOp) : MmsWork :=
  let b := opBlk o
  let p := o.plane.getD {}
  let fa := (wfmtOf b.afmt).getD .f16
  let m := blkSlices b
  let exact := fa != .bf16
  let pin := opPinned s o b
  { b := b, fa := fa, fw := p.fmt, order := sliceOrder m o.chain.length pin,
    rows := (List.range b.rows).map fun i => rowTable fa m ((o.rows[i]?).getD []) ((o.scales[i]?).getD []),
    cols := planeTable p m, report := foldReport o.chain pin exact m, exact := exact }

/-- A d_kind 0 operation delivers its contributions to the buffer, flushes them when FLUSH is set, and waits until they have been
applied (R248, R252, R254). -/
def deliverAdds (s : State) (c : CoreId) (o : MxOp) (k : MmsWork) : State :=
  let S : Int := match (s.ctxRegion o.ctx).bind fun r => wortOf r (blkRegion k.b) with | some x => x.scale.toInt | none => 0
  let add (acc : State) (i : Nat) : State :=
    (rowAdds o.ctx k.b i (gridRow S k.exact k.fa k.fw k.order ((k.rows[i]?).getD []) k.cols)).foldl
      (fun a l => addWide a c o l) acc
  let s1 := (List.range k.b.rows).foldl add (dropOp s c o.w o.tag)
  let mine := (s1.warps.filter fun w => w.wg == o.wg).map (·.id)
  let s2 := if bitAt k.b.flags 0 then
      flushEntries s1 c fun e => e.add.ctx == o.ctx && e.add.region == blkRegion k.b && e.owners.any fun w => mine.contains w.1
    else s1
  waitcFlush (modEngine s2 c fun e => { e with draining := e.draining ++ [({ o with rows := [], scales := [], plane := none, early := [] }, k.report)] }) o.w

/-- Done: the report says so, `sr.fold` takes it and c.mx counts it (R248, R256). -/
def mmsDone (s : State) (w tag : Nat) (fold : Word) : State :=
  s.modWarp w fun x => countDone { modReport x tag (fun r => { r with done := true }) with fold := fold } .mx tag

/-- One row of an FP32 tile rewritten as old + combined (R251), with every store that is visible by then included in old. DESIGN CHOICE
(log entry 88). -/
def tileRow (s : State) (o : MxOp) (k : MmsWork) (i : Nat) : State :=
  let off := k.b.dest + i * k.b.dstride
  match (s.getWg o.wg).bind fun g => scratchPlace s g off 128 with
  | none => s
  | some p =>
    let r := splaceRead s p 128
    let as := (k.rows[i]?).getD []
    let new := (List.range 32).flatMap fun j =>
      leBytes 4 (faddBits .f32 .rne false (leNat ((r.1.drop (4 * j)).take 4)) (roundElem k.order as (columnOf k.cols j))).1
    splaceWrite r.2 p new

/-- The passes of an operation end: its fold report is written and its results are delivered. -/
def finishPasses (s : State) (c : CoreId) (o : MxOp) : State :=
  let k := mmsWork s o
  let s1 := s.modWarp o.w fun x => modReport x o.tag fun r => { r with fold := k.report }
  if k.b.dkind = 0 then deliverAdds s1 c o k
  else mmsDone ((List.range k.b.rows).foldl (fun acc i => tileRow acc o k i) (dropOp s1 c o.w o.tag)) o.w o.tag k.report

/-- The destination tile of an operation must wait. -/
def tileBusy (s : State) (o : MxOp) : Bool :=
  let b := opBlk o
  b.dkind == 1 && (match (s.getWg o.wg).bind fun g => scratchPlace s g b.dest (blkDstSpan b) with
    | some p => splaceBusy s (((s.getWg o.wg).map (·.core)).getD default) p (blkDstSpan b)
    | none => false)

/-- MX_DONE: contributions that have all been applied complete their operation; else the oldest operation that has consumed its
operands ends its passes. -/
def execMxDone (c : CoreId) (s : State) : Out :=
  let e := engineOf s c
  happens (match e.draining.find? fun d => !contribPending s d.1.w .mx d.1.tag with
    | some d => mmsDone (modEngine s c fun x => { x with draining := x.draining.filter (· != d) }) d.1.w d.1.tag d.2
    | none =>
      match e.queue.find? fun o => o.phase == .consumed with
      | some o => if o.chain.isEmpty || tileBusy s o || arrDown s c then s else finishPasses s c o
      | none => s)

/-- Firmware brings tier 4 in for failed tiers of which one below it was configured (R461). DESIGN CHOICE (log entry 46). -/
def spareTier (s : State) (c : CoreId) (gone : BitVec 5) : State :=
  let e := engineOf s c
  if e.cfg &&& gone &&& 0b01111 == 0 then s
  else if e.fail.getLsbD 4 || e.cfg.getLsbD 4 then { s with degraded := true }
  else { modEngine s c (fun x => { x with cfg := (x.cfg ||| 0b10000) &&& ~~~ x.fail }) with degraded := true }

/-- Tiers of an engine found failed: firmware takes the spare, and an operation that uses one of them starts again from its first pass
on the new chain (R237, R256, R461). -/
def tiersFail (s : State) (c : CoreId) (gone : BitVec 5) : State :=
  let s1 := spareTier (modEngine s c fun e => { e with fail := e.fail ||| gone }) c gone
  modEngine s1 c fun e =>
    { e with queue := e.queue.map fun o => if o.chain.any fun t => gone.getLsbD t then { o with chain := chainOf e } else o }

/-- A core whose tiers have all failed (R264). -/
def tiersSpent (e : Engine) : Bool := e.fail == 0b11111

/-! ## Resets (R258) -/

/-- The operations queued or in flight on an engine, oldest first; one whose contributions are still on their way is in flight. DESIGN CHOICE
(log entry 97). -/
def liveOps (e : Engine) : List MxOp := e.draining.map (·.1) ++ e.queue

/-- The workgroups whose state a reset destroys (R258). -/
def victims (e : Engine) : List Nat := ((liveOps e).map (·.wg)).eraseDups

/-- The trap of one victim warp: the lanes of every discarded operation, the counter and destination of the oldest, and the
sequence number of the oldest discarded MMS. -/
def victimTrap (ops : List MxOp) : Option Trap :=
  match ops with
  | [] => none
  | o :: _ =>
    let seq := ops.findSome? fun p => match p.kind with | .mms _ q => some (q.setWidth 16) | _ => none
    some { cause := 0x20, info := seq.getD 0, lanes := ops.foldl (fun acc p => acc ||| p.lanes) 0, pc := o.pc, d := o.d, file := o.file,
           tag := o.tag }

/-- The operations of a warp queued or in flight, oldest first. -/
def warpOps (e : Engine) (w : Nat) : List MxOp := (liveOps e).filter fun o => o.w == w

/-- The victims' operations removed with their contributions that are not applied yet, their planes, and their warps' traps posted
(R258, R359). -/
def resetEngine (s : State) (c : CoreId) : State :=
  let e := engineOf s c
  let vs := victims e
  let ws := ((liveOps e).map (·.w)).eraseDups
  let mine (o : Nat × Nat) : Bool := s.warps.any fun w => w.id == o.1 && vs.contains w.wg
  let s1 := e.queue.foldl (fun acc o => removeOp acc c o false) s
  let s2 := e.draining.foldl (fun acc d =>
    acc.modWarp d.1.w fun x => countDone { modReport x d.1.tag (fun r => { r with reset := true, done := true }) with fold := 0 } .mx d.1.tag) s1
  let s3 := modEngine s2 c fun x => { x with draining := [], buffer := x.buffer.filterMap (dropParts mine) }
  let s4 := { s3 with contribs := s3.contribs.filterMap (dropContrib mine) }
  let s5 := vs.foldl (fun acc g => modPlanes acc g fun y => { y with active := {}, shadow := {} }) s4
  ws.foldl (fun acc w =>
    match victimTrap (warpOps e w) with
    | some t => deferTrap acc w t
    | none => acc) s5

/-- The tier self-test: which tiers it finds failed besides those that have failed before, for which there is no repair, is left open; firmware
brings the spare in (R265, R461). DESIGN CHOICE (log entry 46). -/
def selfTest (s : State) (c : CoreId) : State :=
  let r := s.drawDWord
  tiersFail r.2 c (r.1.setWidth 5 &&& ~~~ (engineOf s c).fail)

/-! ## MQRY, MFOLD and MRST -/

/-- The reply of MQRY for a sequence number (R263). -/
def mqryWord (w : Warp) (seq : Word) : DWord :=
  match w.reports.find? fun r => r.seq == seq with
  | none => 0
  | some r => BitVec.ofNat 64 (r.fold.toNat + 2 ^ 32 + 2 ^ 33 * r.cons.toNat + 2 ^ 34 * r.done.toNat + 2 ^ 35 * r.reset.toNat + 2 ^ 36 * r.trapped.toNat)

/-- MQRY: the reply is outstanding. -/
def execMqry (h : Hdr) (d a : Reg) (s : State) : Out :=
  issue (.mqry h d a) s always fun x t =>
    t.modWarp x.w.id fun w => addOut w (outOf x t .p d x.e (.mqry ((lanesOf x.e).map fun l => (l, rdV x.w a l))) none)

/-- MFOLD: the fold state of the issuing core's engine, sampled at issue. -/
def execMfold (h : Hdr) (d : Reg) (s : State) : Out :=
  issue (.mfold h d) s always fun x t => laneEffect .v d (fun _ _ => (mfoldWord (engineOf t (t.warpCore x.w))).toNat) x t

/-- The core of the issuing die that a register names: cluster × 8 + core. -/
def targetOf (s : State) (x : Issue) (a : Reg) : CoreId :=
  let n := (rdV x.w a x.low).toNat % 128
  ⟨(s.warpCore x.w).die, n / 8, n % 8⟩

/-- MFOLD.wr. -/
def execMfoldWr (h : Hdr) (a b : Reg) (s : State) : Out :=
  issue (.mfoldWr h a b) s always fun x t =>
    let cfg : BitVec 5 := (rdV x.w b x.low).setWidth 5
    if cfg == 0 then issueTrap x t 0x21 11 x.e 0 else modEngine t (targetOf t x a) fun e => { e with cfg := cfg }

/-- MRST counts in c.mx alone. -/
def execMrst (h : Hdr) (a : Reg) (s : State) : Out :=
  issue (.mrst h a) s always fun x t =>
    modEngine (t.modWarp x.w.id fun w => countUp w .mx x.tag) (targetOf t x a) fun e => { e with mrst := e.mrst ++ [(x.w.id, x.tag)] }

end Sys2Proof.Machine
end

