-- ==== Sys2Proof/Machine/Accum.lean ====
section
/-! DEFINITION. The accumulator instructions AOPEN, AADD, ACNT, RACK and AQRY (R346 to R369) and the events that open, apply,
seal and rack. -/

namespace Sys2Proof.Machine

/-! ## Opening a region (R346, R352, R365) -/

/-- The entry of an id in the wort table of a warp's context. -/
def entryOf (s : State) (w : Warp) (id : Nat) : Option Wort := (s.warpRegion w).bind fun r => wortOf r id

/-- Every byte of a range is canonical (R346). -/
def spanCanonical (va : DWord) (n : Nat) : Bool := rangeCanonical va n

/-- A region entry as a descriptor gives it; none when a field breaks R346. -/
def wortDesc (id : Nat) (bs : List Byte) : Option Wort :=
  let v := leNat bs
  let f (o n : Nat) : Nat := bitsAt v (8 * o) (8 * n)
  let base := BitVec.ofNat 64 (f 0 8)
  let shadow := BitVec.ofNat 64 (f 0x10 8)
  let n := f 8 4
  let ok := spanCanonical base (128 * n) && f 0 8 % 128 == 0 && decide (1 ≤ n) && decide (n ≤ 0x1000000) &&
    (decide (f 13 1 ≤ 9) || f 13 1 == 15) && decide (f 14 1 ≤ 6) && f 15 1 == 0 && spanCanonical shadow (8 * n) &&
    f 0x10 8 % 8 == 0 && f 0x1C 4 == 0
  let sc : Scope := match f 14 1 with | 0 => .wg | 1 => .core | 2 => .gang | 3 => .clu | 4 => .die | 5 => .dev | _ => .sys
  if ok then
    some { id := id, base := base, lines := n, scale := BitVec.ofNat 8 (f 12 1), fmt := BitVec.ofNat 4 (f 13 1), scope := sc,
           shadow := shadow, expect := f 0x18 4 }
  else none

/-- A region that an AOPEN may not collide with: not closed, or on its way to open. -/
def taken (x : Wort) : Bool := x.st != .closed || x.opening.isSome

/-- The two parts of a wort range. -/
def wortSpans (x : Wort) : List (Nat × Nat) := [(x.base.toNat, 128 * x.lines), (x.shadow.toNat, 8 * x.lines)]

/-- Two wort ranges share a byte (R365). -/
def wortsMeet (x y : Wort) : Bool := (wortSpans x).any fun a => (wortSpans y).any fun b => meets a.1 a.2 b.1 b.2

/-- The first addresses of the pages of a range. -/
def pagesOf (va n : Nat) : List Nat := (List.range ((va + n - 1) / 4096 - va / 4096 + 1)).map fun k => max va ((va / 4096 + k) * 4096)

/-- What the pages of a wort range say: a page fault, a refusal, or that each is a writable coherent page of this package. -/
inductive Pages where
  | ok
  | fault (va : DWord) (level : Nat)
  | deny (info : BitVec 16)
  deriving DecidableEq, Repr

def judgePages (s : State) (c : CoreId) (asid : Nat) (user : Bool) : List Nat → Pages × State
  | [] => (.ok, s)
  | p :: ps =>
    let r := translate s c.die asid user .write (BitVec.ofNat 64 p)
    match r.1 with
    | .mem _ 0 _ => judgePages r.2 c asid user ps
    | .absent l => (.fault (BitVec.ofNat 64 p) l, r.2)
    | .deny => (.deny 0x60, r.2)
    | _ => (.deny 0, r.2)

/-- The entry replaced in the wort table of a context, or added. -/
def putWort (s : State) (ctx : Nat) (x : Wort) : State :=
  { s with regions := s.regions.map fun r =>
      if r.ctx == ctx && r.status == 0 then { r with worts := putAt (fun y => y.id == x.id) x r.worts } else r }

/-- AOPEN waits for its descriptor. -/
def aopenReady (a : Reg) (x : Issue) (s : State) : Bool :=
  let va := rdP x.w a x.low
  va.toNat % 32 != 0 || !canonical va || blockReady x s va 32

/-- The checks on the descriptor's contents and the range, then the region is on its way to open (R365). -/
def aopenIssue (id : Nat) (zero : Bool) (x : Issue) (s : State) (bs : List Byte) : State :=
  match s.warpRegion x.w, s.warpWg x.w with
  | some r, some g =>
    (match wortDesc id bs with
     | none => issueTrap x s 0x21 16 x.e 0
     | some d =>
       if (match wortOf r id with | some y => taken y | none => false) then issueTrap x s 0x21 17 x.e 0
       else if r.worts.any fun y => y.id != id && taken y && wortsMeet d y then issueTrap x s 0x21 18 x.e 0
       else
         let ps := judgePages s g.core r.asid.toNat (!r.service) ((wortSpans d).flatMap fun p => pagesOf p.1 p.2)
         match ps.1 with
         | .fault va l => pageFaultLanes ps.2 x.w.id x.tag x.e 1 va l (s.warpAsid x.w)
         | .deny i => issueTrap x ps.2 0x11 i x.e 0
         | .ok =>
           let e : Wort := { d with opening := some (x.w.id, zero), opener := g.id, openerGang := g.gang, openerCore := g.core,
                                    lost := ((wortOf r id).map (·.lost)).getD false }
           (putWort ps.2 r.ctx e).modWarp x.w.id fun w => { w with hold := some (.blocking x.tag) })
  | _, _ => s

/-- AOPEN at issue (R365). -/
def aopenEffect (id : Nat) (zero : Bool) (a : Reg) (x : Issue) (s : State) : State :=
  let va := rdP x.w a x.low
  if va.toNat % 32 ≠ 0 then issueTrap x s 0x10 0 x.e 0
  else if canonical va = false then issueTrap x s 0x11 0 x.e 0
  else
    let r := blockGot s x va 32
    match r.1 with
    | .done bs => aopenIssue id zero x r.2 bs
    | .fault l => pageFaultLanes r.2 x.w.id x.tag x.e 0 va l (s.warpAsid x.w)
    | .deny i => blockDenied x r.2 0 i
    | .err => containCtx r.2 (s.warpCtx x.w)
    | _ => r.2

/-- AOPEN. -/
def execAopen (h : Hdr) (id : BitVec 6) (a : Reg) (s : State) : Out :=
  issueP (.aopen h id a) s (aopenReady a) (fun x t => blockAsk x t (rdP x.w a x.low) 32) (aopenEffect id.toNat false a)
/-- AOPEN.z. -/
def execAopenZ (h : Hdr) (id : BitVec 6) (a : Reg) (s : State) : Out :=
  issueP (.aopenZ h id a) s (aopenReady a) (fun x t => blockAsk x t (rdP x.w a x.low) 32) (aopenEffect id.toNat true a)

/-- The headers that plain AOPEN finds in the shadows (R352). -/
def readHeads (s : State) (r : Region) (x : Wort) : Sparse (Nat × Bool) :=
  (List.range x.lines).filterMap fun i =>
    let v := leNat (readVa s r.asid.toNat (x.shadow.toNat + 8 * i) 8)
    let h := (bitsAt v 0 32, bitAt v 32)
    if h = (0, false) then none else some (i, h)

/-- The lines of a wort range with their places. -/
def wortPlaces (s : State) (asid : Nat) (x : Wort) : List (Nat × Nat) :=
  (wortSpans x).flatMap fun p => (linesOf p.1 p.2).filterMap fun l =>
    match translateNow s 0 asid false .write (BitVec.ofNat 64 (l * 128)) with
    | .mem pa _ _ => some (l, pa)
    | _ => none

/-- The kiln sectors of a core that hold bytes of a wort range. -/
def wortSectors (asid : Nat) (x : Wort) (c : Core) : List KSector :=
  c.kiln.filter fun k => tagSees asid k.asid && (wortSpans x).any fun p => meets p.1 p.2 (k.sector * 1024) 1024

/-- No holder of a line of a region that opens is left, and no dirty sector has a home that cannot take it (R349, R389);
nor does a write of the firmware in the ASID wait, behind which the zeros would come late (R352). -/
def openReady (s : State) (asid : Nat) (x : Wort) : Bool :=
  queueFree s asid && (wortPlaces s asid x).all (fun p => engineReady s asid (p.1 * 128) p.2) && s.cores.all fun c => (wortSectors asid x c).all (sectorOpen s)

/-- The holders of the lines told (R389). -/
def announceOpen (s : State) (asid : Nat) (x : Wort) : State :=
  (wortPlaces s asid x).foldl (fun acc p => announceWrite acc p.2 asid p.1) s

/-- No line of an opened region stays in an L1, on lease, in a kiln or in a constant cache (R349, R352, R353). -/
def clearCaches (s : State) (asid : Nat) (x : Wort) : State :=
  let s1 := s.cores.foldl (fun acc c => (wortSectors asid x c).foldl (fun t k => kEvict t c.id k) acc) s
  let s2 := (wortPlaces s1 asid x).foldl (fun acc p => dropEverywhere acc p.2 asid p.1) s1
  { s2 with cores := s2.cores.map fun c =>
      { c with ccache := c.ccache.filter fun e => !(tagSees asid e.1 && (wortSpans x).any fun p => meets p.1 p.2 (e.2.1 * 128) 128) } }

/-- The region of a completed AOPEN: zeroed or with what memory holds, DONE and OVER from the counts, and open (R348, R352). -/
def openRegion (s0 : State) (r : Region) (x : Wort) (zero : Bool) : State :=
  let asid := r.asid.toNat
  let s := clearCaches s0 asid x
  let s1 := if zero then (wortSpans x).foldl (fun acc p => writeVa acc asid p.1 (List.replicate p.2 0)) s else s
  let hs := if zero then [] else readHeads s1 r x
  modWort s1 r.ctx x.id fun y =>
    { y with
      st := .opened
      opening := none
      heads := hs
      lost := false
      rackCores := []
      done := if y.expect = 0 then 0 else (hs.filter fun h => decide (y.expect ≤ h.2.1)).length
      passed := y.expect != 0 && hs.any fun h => decide (y.expect < h.2.1) }

/-- The regions that a warp is opening. -/
def openings (s : State) (wid : Nat) : List (Region × Wort) :=
  (s.regions.filter fun r => r.status == 0).flatMap fun r =>
    (r.worts.filter fun x => match x.opening with | some (w, _) => w == wid | none => false).map fun x => (r, x)

/-- The AOPENs of a warp complete. -/
def openDone (s : State) (wid : Nat) : State :=
  s.regions.foldl (fun acc r =>
    if r.status != 0 then acc
    else r.worts.foldl (fun a x =>
      match x.opening with
      | some (w, z) => if w == wid then openRegion a r x z else a
      | none => a) acc) s

/-! ## Contributions (R350, R355, R356, R366, R367) -/

/-- The trap of a contribution or a RACK at a region whose core copy is not open (R364). -/
def notOpen (x : Issue) (s : State) (st : Option WortState) : State :=
  issueTrap x s 0x22 (if st = some .racking then 1 else 0) x.e 0

/-- The entry and the state of its core copy for the issuing warp. -/
def copyHere (s : State) (x : Issue) (id : Nat) : Option (Wort × WortState) := (s.warpWg x.w).bind fun g => copyOf s g id

/-- Contributions posted by the lanes that name a line of the region; the others fail with reason 5. That the gang has issued one bars its
flush, whatever comes of it (R358). -/
def postAdds (id : Nat) (limit : Wort → Nat) (index : Nat → Nat) (adds : Wort → Nat → List Nat → List LineAdd) (x : Issue) (s : State) :
    State :=
  let s1 := match s.warpWg x.w with | some g => s.modGang g.gang fun y => { y with posted := true } | none => s
  match copyHere s x id with
  | some (r, .opened) =>
    let bad := laneSet ((lanesOf x.e).filter fun l => decide (limit r ≤ index l))
    let ok := (lanesOf x.e).filter fun l => decide (index l < limit r)
    let cs := (adds r (s.warpCtx x.w) ok).map fun a => ({ add := a, owners := [(x.w.id, Ctr.acc, x.tag)] } : Contrib)
    let s2 := if ok.isEmpty then s1
      else { (s1.modWarp x.w.id fun w => countUp w .acc x.tag) with contribs := s1.contribs ++ cs }
    if bad == 0 then s2 else issueTrap x s2 0x11 0x50 bad 0
  | c => notOpen x s1 (c.map (·.2))

/-- The contribution of some lanes to one line: element and grid value of each lane. -/
def lineAdd (ctx id line : Nat) (pitch : Nat) (es : List (Nat × Int × Bool)) : LineAdd :=
  { ctx := ctx, region := id, line := line, clip := es.any (·.2.2), pitch := pitch,
    g := (List.range 16).map fun e => (es.filter fun v => v.1 == e).foldl (fun acc v => acc + BitVec.ofInt 64 v.2.1) 0 }

/-- AADD (R366). -/
def execAadd (h : Hdr) (cnt : Bool) (id : BitVec 6) (a : Reg) (b : SrcB) (s : State) : Out :=
  issue (.aadd h cnt id a b) s always fun x t =>
    let index (l : Nat) : Nat := (rdV x.w a l).toNat
    postAdds id.toNat (fun r => 16 * r.lines) index (fun r ctx ls =>
      let lines := (ls.map fun l => index l / 16).eraseDups
      lines.map fun k => lineAdd ctx id.toNat k cnt.toNat
        ((ls.filter fun l => index l / 16 == k).map fun l =>
          let g := roundToGrid r.scale.toInt (Fmt.read .f32 (srcB x .v b l))
          (index l % 16, g.1, g.2))) x t

/-- ACNT (R367). -/
def execAcnt (h : Hdr) (id : BitVec 6) (a : Reg) (b : SrcB) (s : State) : Out :=
  issue (.acnt h id a b) s always fun x t =>
    let index (l : Nat) : Nat := (rdV x.w a l).toNat
    postAdds id.toNat (fun r => r.lines) index (fun _ ctx ls => ls.map fun l => lineAdd ctx id.toNat (index l) (srcB x .v b l) []) x t

/-! ## RACK (R360 to R364) -/

/-- Bits of an element of the output, by format code (R360). -/
def rackBits (fmt : Nat) : Nat :=
  match fmt with
  | 0 => 32 | 1 => 16 | 2 => 16 | 3 => 8 | 4 => 8 | 8 => 8 | 5 => 6 | 6 => 6 | 9 => 6 | 7 => 4 | _ => 64

/-- `RackConvert` (R38), with R25 for LOG6 (R360). -/
def rackConvert (g : DWord) (S o : Int) (fmt : Nat) : Nat :=
  let x : Num := .fin (decide (g.toInt < 0)) g.toInt.natAbs (S - 48 - o)
  let into (f : Fmt) : Nat := (roundToFormat f .rne f.narrow x).1
  match fmt with
  | 0 => into .f32 | 1 => into .f16 | 2 => into .bf16 | 3 => into .e4m3 | 4 => into .e5m2 | 5 => into .e3m2 | 6 => into .e2m3 | 7 => into .e2m1
  | 8 => wrapInt 8 (max (-128) (min 127 (roundInt .rne (decide (g.toInt < 0)) g.toInt.natAbs (S - 48 - o)).1))
  | 9 => (logRound true x).1
  | _ => g.toNat

/-- The 16 integers of a line. -/
def lineG (s : State) (r : Region) (x : Wort) (line : Nat) : List DWord :=
  let bs := readVa s r.asid.toNat (wortLineVa x line).toNat 128
  (List.range 16).map fun e => BitVec.ofNat 64 (leNat ((bs.drop (8 * e)).take 8))

/-- The output of a line: its elements packed, element 0 lowest (R360). -/
def rackLine (gs : List DWord) (S o : Int) (fmt : Nat) : List Byte :=
  let w := rackBits fmt
  leBytes (2 * w) ((List.range gs.length).foldl (fun acc e => acc + rackConvert ((gs[e]?).getD 0) S o fmt * 2 ^ (w * e)) 0)

/-- The grist histogram (R361). -/
def gristWords (gs : List DWord) (clips : Nat) : List Nat :=
  let bin (g : DWord) : Nat := if g = 0 then 32 else g.toInt.natAbs.log2 / 2
  (List.range 33).map (fun k => (gs.filter fun g => bin g == k).length) ++ [clips]

/-- A RACK's range checks at issue. -/
def rackBad (x : Wort) (out hist : DWord) : Option (BitVec 8) :=
  if out.toNat % 16 ≠ 0 ∨ hist.toNat % 4 ≠ 0 then some 0x10
  else if rangeCanonical out (2 * rackBits x.fmt.toNat * x.lines) = false ∨ (hist ≠ 0 ∧ rangeCanonical hist 136 = false) then some 0x11
  else none

/-- An older AADD or ACNT of the warp that names the region has not been applied. -/
def olderAdds (s : State) (k : Rack) : Bool :=
  match s.getRegion k.region with
  | some r => s.contribs.any fun c => c.add.ctx == r.ctx && c.add.region == k.wort &&
      c.owners.any fun o => o.1 == k.w && o.2.1 == .acc && decide (o.2.2 < k.tag)
  | none => false

def rackEntry (s : State) (k : Rack) : Option (Region × Wort) :=
  (s.getRegion k.region).bind fun r => (wortOf r k.wort).map fun x => (r, x)

/-- The wait phase of a RACK.W begins once its older contributions have been applied: its timeout runs from then (R362). -/
def armRacks (s : State) : State :=
  { s with racks := s.racks.map fun k =>
      if k.mode == .wait && k.phase == .waiting && k.deadline.isNone && (s.getWarp k.w).isSome && !olderAdds s k then
        { k with deadline := some (s.clock + BitVec.ofNat 64 (k.timeout * Config.ticksPerUs)) }
      else k }

/-- RACK in any form at issue (R362, R364). -/
def rackEffect (mode : RackMode) (force : Bool) (id : Nat) (a b c : Reg) (x : Issue) (s : State) : State :=
  match copyHere s x id, s.warpRegion x.w with
  | some (r, .opened), some rg =>
    let out := rdP x.w a x.low
    let hist := rdP x.w b x.low
    let v := rdV x.w c x.low
    match (if mode == .close then none else rackBad r out hist) with
    | some cause => issueTrap x s cause 0 x.e 0
    | none =>
      let core := s.warpCore x.w
      let k : Rack :=
        { id := s.nextId, w := x.w.id, wg := x.w.wg, region := rg.handle, wort := id, core := core, mode := mode, force := force,
          out := out, hist := hist, shift := v.setWidth 8, timeout := v.toNat / 256, lanes := x.e, pc := x.pc, tag := x.tag }
      let s1 := { s.modWarp x.w.id (fun w => countUp w .acc x.tag) with nextId := s.nextId + 1, racks := s.racks ++ [k] }
      let s2 := modWort s1 rg.ctx id fun y => { y with rackCores := y.rackCores ++ [core] }
      armRacks (flushEntries s2 core fun e => e.add.ctx == rg.ctx && e.add.region == id)
  | e, _ => notOpen x s (e.map (·.2))

/-- RACK. -/
def execRack (h : Hdr) (force : Bool) (id : BitVec 6) (a b c : Reg) (s : State) : Out :=
  issue (.rack h force id a b c) s always (rackEffect .once force id.toNat a b c)
/-- RACK.W. -/
def execRackW (h : Hdr) (force : Bool) (id : BitVec 6) (a b c : Reg) (s : State) : Out :=
  issue (.rackW h force id a b c) s always (rackEffect .wait force id.toNat a b c)
/-- RACK.X. DEDUCED (log entry 50). -/
def execRackX (h : Hdr) (id : BitVec 6) (a b c : Reg) (s : State) : Out :=
  issue (.rackX h id a b c) s always (rackEffect .close false id.toNat a b c)

/-- The RACK has reached its event (R355), also for a warp that is saved (R364). -/
def rackOver (s : State) (k : Rack) : State :=
  { s.modKept k.w (fun w => countDone w .acc k.tag) with racks := s.racks.filter fun y => y.id != k.id }

/-- A RACK that ends with a deferred trap. DESIGN CHOICE (log entry 49). -/
def rackFail (s : State) (k : Rack) (cause : BitVec 8) (info : Nat) : State :=
  deferTrap (rackOver s k) k.w { cause := cause, info := BitVec.ofNat 16 info, lanes := k.lanes, pc := k.pc, tag := k.tag }

/-- Lines whose pitch count is not E, at most 0xFFFF. -/
def offCount (x : Wort) : Nat := min ((List.range x.lines).filter fun i => (sget (0, false) x.heads i).1 != x.expect).length 0xFFFF

/-- RACK_WAIT_TIMEOUT: the wait phase ends without the counts (R362). -/
def execRackWaitTimeout (rack : Nat) (s : State) : Out :=
  happens (match s.racks.find? fun k => k.id == rack with
    | none => s
    | some k =>
      match rackEntry s k, k.deadline with
      | some (r, x), some t =>
        if k.phase == .waiting && x.expect != 0 && x.done != x.lines && (x.passed || decide (t.toNat ≤ s.clock.toNat)) then
          rackFail (modWort s r.ctx x.id fun y => { y with rackCores := y.rackCores.erase k.core }) k 0x23 (offCount x)
        else s
      | _, _ => s)

/-- A RACK asks for its seal now: the warp's older contributions are in, and the wait phase has succeeded. -/
def sealReady (s : State) (k : Rack) (x : Wort) : Bool :=
  k.phase == .waiting && x.st == .opened && (s.getWarp k.w).isSome && !olderAdds s k && (k.mode != .wait || x.expect == 0 || x.done == x.lines)

/-- RACK_SEAL: the grant; the region is racking everywhere and every other RACK of it is refused (R363, R364). -/
def execRackSeal (rack : Nat) (s : State) : Out :=
  happens (match s.racks.find? fun k => k.id == rack with
    | none => s
    | some k =>
      match rackEntry s k with
      | none => s
      | some (r, x) =>
        if !sealReady s k x then s
        else
          let s1 := modWort { s with racks := updAt (fun y => y.id == rack) (fun y => { y with phase := .sealed }) s.racks } r.ctx x.id
            fun y => { y with st := .racking }
          (s.racks.filter fun y => y.id != rack && y.region == k.region && y.wort == k.wort && y.phase == .waiting).foldl
            (fun acc y => rackFail acc y 0x22 1) s1)

/-- The writes of a RACK: the output, and the histogram where one is wanted. -/
def rackWrites (s : State) (r : Region) (x : Wort) (k : Rack) : List (Nat × List Byte) :=
  if k.mode == .close then []
  else
    let gs := (List.range x.lines).map fun i => lineG s r x i
    let out := gs.flatMap fun g => rackLine g x.scale.toInt k.shift.toInt x.fmt.toNat
    let clips := (x.heads.filter fun h => h.2.2).length
    let parts (va : Nat) (bs : List Byte) : List (Nat × List Byte) := (lineParts va bs.length).map fun p => (p.1, (bs.drop (p.1 - va)).take p.2)
    parts k.out.toNat out ++
      if k.hist = 0 then [] else parts k.hist.toNat ((gristWords gs.flatten clips).flatMap fun n => leBytes 4 n)

/-- What one part of the output meets. -/
inductive Put where
  | mem (pa : Nat)
  | host (a : Nat)
  | far (pkg : Nat)
  | fault (level : Nat)
  | wait | deny | err
  deriving DecidableEq, Repr

def putOf (s : State) (r : Region) (k : Rack) (va n : Nat) : Put :=
  if wortHomeHit s r.asid.toNat va n then .deny
  else match translateNow s k.core.die r.asid.toNat (!r.service) .write (BitVec.ofNat 64 va) with
  | .mem pa kind _ =>
    if homeDead s pa then .err
    else if kind == 3 || kind == 5 then .deny
    else if engineReady s r.asid.toNat va pa then .mem pa else .wait
  | .host a => if s.linkw == 0 then .err else .host a
  | .far pkg _ => if s.deadPkgs.contains pkg then .err else .far pkg
  | .absent l => .fault l
  | _ => .deny

/-- One part written, or sent to another package. -/
def putPart (s : State) (r : Region) (k : Rack) (p : Nat × List Byte) : State :=
  match putOf s r k p.1 p.2.length with
  | .mem pa => engineStore s r.asid.toNat (BitVec.ofNat 64 p.1) pa p.2
  | .host a => { s with hostMem := Memory.writeN s.hostMem a p.2 }
  | .far pkg =>
    let id := s.nextId
    let upd (f : Rack → Rack) (t : State) : State := { t with racks := updAt (fun y => y.id == k.id) f t.racks }
    (match sendFor { s with nextId := id + 1 } pkg r.asid.toNat p.1
        (.request s.dev pkg id r.asid.toNat (!r.service) (BitVec.ofNat 64 p.1) (.store p.2)) none with
     | some t => upd (fun y => { y with asks := y.asks ++ [id] }) t
     | none => upd (fun y => { y with refused := true }) s)
  | _ => s

/-- What a failed racking leaves in its output: values that the manual does not state. DESIGN CHOICE (log entry 49). -/
def spoilPart (s : State) (r : Region) (k : Rack) (p : Nat × List Byte) : State :=
  match putOf s r k p.1 p.2.length with
  | .mem _ => let v := s.drawBytes p.2.length; putPart v.2 r k (p.1, v.1)
  | .host _ => let v := s.drawBytes p.2.length; putPart v.2 r k (p.1, v.1)
  | _ => s

/-- A permission failure ends the racking: the region is open again (R362). DEDUCED (log entry 48). -/
def rackDenied (s : State) (r : Region) (x : Wort) (k : Rack) : State :=
  let s1 := (rackWrites s r x k).foldl (fun acc p => spoilPart acc r k p) s
  rackFail (modWort s1 r.ctx x.id fun y => { y with st := .opened, rackCores := [] }) k 0x11 k.wort

/-- The lines of a shadow with their places. -/
def shadowPlaces (s : State) (asid : Nat) (x : Wort) : List (Nat × Nat) :=
  (linesOf x.shadow.toNat (8 * x.lines)).filterMap fun l =>
    match translateNow s 0 asid false .write (BitVec.ofNat 64 (l * 128)) with
    | .mem pa _ _ => some (l, pa)
    | _ => none

/-- Every header written to its shadow, once the homes take it, and the region closed (R351, R362, R389); a shadow that no longer
translates contains the context (R349). -/
def rackClose (s : State) (r : Region) (x : Wort) (k : Rack) : State :=
  let asid := r.asid.toNat
  if vaOk s asid .write x.shadow.toNat (8 * x.lines) = false then containCtx s r.ctx
  else if queueFree s asid && (shadowPlaces s asid x).all fun p => engineReady s asid (p.1 * 128) p.2 then
    let s1 := (List.range x.lines).foldl (fun acc i => evictWortLine acc r.ctx x.id i) s
    rackOver (modWort s1 r.ctx x.id fun y => { y with st := .closed, rackCores := [] }) k
  else (shadowPlaces s asid x).foldl (fun acc p => announceWrite acc p.2 asid p.1) s

/-- The count check, then the writes (R362); nothing happens while a page is absent or a home cannot take its line. -/
def rackWrite (s : State) (r : Region) (x : Wort) (k : Rack) : State :=
  if !vaOk s r.asid.toNat .read x.base.toNat (128 * x.lines) then containCtx s r.ctx
  else if k.mode != .close && !k.force && x.expect != 0 && offCount x != 0 then
    rackFail (modWort s r.ctx x.id fun y => { y with st := .opened, rackCores := [] }) k 0x23 (offCount x)
  else
    let ws := rackWrites s r x k
    let got := ws.map fun p => putOf s r k p.1 p.2.length
    if got.contains .err then containCtx s r.ctx
    else if got.any fun g => match g with | .fault _ => true | _ => false then s
    else if got.contains .deny then rackDenied s r x k
    else if got.contains .wait then
      (ws.filter fun p => putOf s r k p.1 p.2.length == .wait).foldl
        (fun acc p => announceFar acc r.asid.toNat (!r.service) (BitVec.ofNat 64 p.1)) s
    else
      let s1 := ws.foldl (fun acc p => putPart acc r k p) s
      { s1 with racks := updAt (fun y => y.id == k.id) (fun y => { y with phase := .writing }) s1.racks }

/-- The end of a RACK whose output stands at its place. -/
def rackFinish (s : State) (rack : Nat) : State :=
  match s.racks.find? fun k => k.id == rack with
  | none => s
  | some k =>
    match rackEntry s k with
    | none => s
    | some (r, x) =>
      if k.phase != .writing || !k.asks.isEmpty then s
      else if k.refused then rackDenied s r x k
      else rackClose s r x k

/-- RACK_COMPLETE: every contribution accepted before the seal has been applied; counts checked, output and headers written, the
region closed (R362). -/
def execRackComplete (rack : Nat) (s : State) : Out :=
  happens (match s.racks.find? fun k => k.id == rack with
    | none => s
    | some k =>
      match rackEntry s k with
      | none => s
      | some (r, x) =>
        if k.phase == .sealed && !(s.contribs.any fun c => c.add.ctx == r.ctx && c.add.region == x.id) then
          rackFinish (rackWrite s r x k) rack
        else rackFinish s rack)

/-- The first absent page of a sealed RACK's output: address and level. -/
def rackFault (s : State) (k : Rack) : Option (DWord × Nat) :=
  match rackEntry s k with
  | some (r, x) =>
    if k.phase != .sealed || (s.contribs.any fun c => c.add.ctx == r.ctx && c.add.region == x.id) then none
    else (rackWrites s r x k).findSome? fun p =>
      match putOf s r k p.1 p.2.length with | .fault l => some (BitVec.ofNat 64 p.1, l) | _ => none
  | none => none

/-! ## The mash adders (R350) -/

/-- MASH_APPLY: a contribution is applied to its line; with the last one its instruction is counted. -/
def execMashApply (n : Nat) (s : State) : Out :=
  happens (match s.contribs[n]? with
    | none => s
    | some c =>
      if addWaits s c.add then s
      else match applyAdd s c.add with
      | none => containCtx s c.add.ctx
      | some t =>
        let t1 := { t with contribs := t.contribs.eraseIdx n }
        armRacks (c.owners.foldl (fun acc o =>
          if o.2.1 == .acc && !contribPending acc o.1 .acc o.2.2 then acc.modWarp o.1 fun w => countDone w .acc o.2.2 else acc) t1))

/-! ## AQRY (R369) -/

def wortCode : WortState → Nat | .closed => 0 | .opened => 1 | .racking => 2
def scopeCode : Scope → Nat | .wg => 0 | .core => 1 | .gang => 2 | .clu => 3 | .die => 4 | .dev => 5 | .sys => 6

/-- The `.reg` reply for a warp. -/
def aqryRegWord (s : State) (w : Warp) (id : Nat) : DWord :=
  match entryOf s w id, s.warpWg w with
  | some x, some g =>
    let st := copyState s x g
    let lost := 2 ^ 4 * x.lost.toNat
    if st == .closed then BitVec.ofNat 64 lost
    else
      BitVec.ofNat 64 (wortCode st + 2 ^ 2 * (x.heads.any fun h => h.2.2).toNat + 2 ^ 3 * x.passed.toNat + lost +
        2 ^ 5 * scopeCode x.scope + 2 ^ 8 * x.scale.toNat + 2 ^ 16 * x.fmt.toNat +
        2 ^ 32 * (if x.expect = 0 then x.lines else x.done))
  | _, _ => 0

/-- The `.line` reply for a warp. -/
def aqryLineWord (s : State) (w : Warp) (id line : Nat) : DWord :=
  match entryOf s w id, s.warpWg w with
  | some x, some g =>
    if x.lines ≤ line then 0
    else if copyState s x g == .closed then
      BitVec.ofNat 64 (leNat (readVa s (s.warpAsid w) (x.shadow.toNat + 8 * line) 8))
    else BitVec.ofNat 64 (headerNat (sget (0, false) x.heads line))
  | _, _ => 0

/-- AQRY.reg. -/
def execAqryReg (h : Hdr) (d a : Reg) (s : State) : Out :=
  issue (.aqryReg h d a) s always fun x t =>
    t.modWarp x.w.id fun w =>
      addOut w (outOf x t .p d x.e (.aqryReg ((lanesOf x.e).map fun l => (l, (rdV x.w a l).toNat % 64))) none)

/-- AQRY.line. -/
def execAqryLine (h : Hdr) (d a b : Reg) (s : State) : Out :=
  issue (.aqryLine h d a b) s always fun x t =>
    t.modWarp x.w.id fun w =>
      addOut w (outOf x t .p d x.e
        (.aqryLine ((lanesOf x.e).map fun l => (l, (rdV x.w a l).toNat % 64, (rdV x.w b l).toNat))) none)

end Sys2Proof.Machine
end

