-- ==== Sys2Proof/Machine/Integer.lean ====
section
/-! DEFINITION. The integer, bit, compare, predicate, move, address and special-register instructions (R108 to R122). -/

namespace Sys2Proof.Machine

/-! ## Arithmetic (R108) -/

/-- IADD. -/
def execIadd (h : Hdr) (t : ITy) (sat : Bool) (d a : Reg) (b : SrcB) (s : State) : Out :=
  execLanes (.iadd h t sat d a b) s t.file d fun x l => fitT t sat (valT t (readReg x t.file a l) + valT t (srcBInt x t b l))

/-- ISUM. -/
def execIsum (h : Hdr) (t : ITy) (d : Reg) (x : Src3) (s : State) : Out :=
  execLanes (.isum h t d x) s t.file d fun y l =>
    fitT t false (valT t (src3A y t.file x l) + valT t (src3B y t.file x l) + valT t (src3C y t.file x l))

/-- ISUB. -/
def execIsub (h : Hdr) (t : ITy) (sat : Bool) (d a : Reg) (b : SrcB) (s : State) : Out :=
  execLanes (.isub h t sat d a b) s t.file d fun x l => fitT t sat (valT t (readReg x t.file a l) - valT t (srcBInt x t b l))

/-- IMUL. -/
def execImul (h : Hdr) (t : ITy) (d a : Reg) (b : SrcB) (s : State) : Out :=
  execLanes (.imul h t d a b) s t.file d fun x l => fitT t false (valT t (readReg x t.file a l) * valT t (srcBInt x t b l))

/-- IMULHI: the floor of the product by 2^n. -/
def execImulhi (h : Hdr) (t : ITy) (d a : Reg) (b : SrcB) (s : State) : Out :=
  execLanes (.imulhi h t d a b) s t.file d fun x l =>
    wrapInt (ITy.bits t) ((valT t (readReg x t.file a l) * valT t (srcBInt x t b l)) / 2 ^ ITy.bits t)

/-- IMAD. -/
def execImad (h : Hdr) (t : ITy) (sat : Bool) (d : Reg) (x : Src3) (s : State) : Out :=
  execLanes (.imad h t sat d x) s t.file d fun y l =>
    fitT t sat (valT t (src3A y t.file x l) * valT t (src3B y t.file x l) + valT t (src3C y t.file x l))

/-- IMADW: 32-bit factors, a 64-bit natural addend, the sum wraps. -/
def execImadw (h : Hdr) (t : T32) (d : Reg) (x : Src3) (s : State) : Out :=
  execLanes (.imadw h t d x) s .p d fun y l =>
    wrapInt 64 (valInt (T32.signed t) 32 (src3A y .v x l) * valInt (T32.signed t) 32 (src3B y .v x l) + (src3C y .p x l : Int))

/-- IMIN. -/
def execImin (h : Hdr) (t : ITy) (d a : Reg) (b : SrcB) (s : State) : Out :=
  execLanes (.imin h t d a b) s t.file d fun x l => fitT t false (min (valT t (readReg x t.file a l)) (valT t (srcBInt x t b l)))

/-- IMAX. -/
def execImax (h : Hdr) (t : ITy) (d a : Reg) (b : SrcB) (s : State) : Out :=
  execLanes (.imax h t d a b) s t.file d fun x l => fitT t false (max (valT t (readReg x t.file a l)) (valT t (srcBInt x t b l)))

/-- IABS: `.s32`, or `.s64` when wide. -/
def execIabs (h : Hdr) (wide sat : Bool) (d a : Reg) (s : State) : Out :=
  let t : ITy := if wide then .s64 else .s32
  execLanes (.iabs h wide sat d a) s t.file d fun x l => fitT t sat ((valT t (readReg x t.file a l)).natAbs : Int)

/-- ISAD: the difference exact before the addition. -/
def execIsad (h : Hdr) (t : ITy) (d : Reg) (x : Src3) (s : State) : Out :=
  execLanes (.isad h t d x) s t.file d fun y l =>
    fitT t false (((valT t (src3A y t.file x l) - valT t (src3B y t.file x l)).natAbs : Int) + valT t (src3C y t.file x l))

/-! ## Shifts and rotates (R110, R111) -/

/-- A left shift with its count clamped. -/
def shlN (n a c : Nat) : Nat := if n ≤ c then 0 else a * 2 ^ c % 2 ^ n
/-- A right shift that fills with zeros. -/
def shrN (n a c : Nat) : Nat := if n ≤ c then 0 else a / 2 ^ c
/-- A right shift that fills with the sign. -/
def sarN (n a c : Nat) : Nat := wrapInt n (valInt true n a / 2 ^ (min c n))
/-- A rotate left. -/
def rotlN (n a c : Nat) : Nat := let k := c % n; (a * 2 ^ k % 2 ^ n) + a / 2 ^ (n - k)

/-- SHL. -/
def execShl (h : Hdr) (t : ITy) (d a : Reg) (b : SrcB) (s : State) : Out :=
  execLanes (.shl h t d a b) s t.file d fun x l => shlN (ITy.bits t) (readReg x t.file a l) (srcB x .v b l)

/-- SHR. -/
def execShr (h : Hdr) (t : ITy) (d a : Reg) (b : SrcB) (s : State) : Out :=
  execLanes (.shr h t d a b) s t.file d fun x l => shrN (ITy.bits t) (readReg x t.file a l) (srcB x .v b l)

/-- SAR. -/
def execSar (h : Hdr) (t : ITy) (d a : Reg) (b : SrcB) (s : State) : Out :=
  execLanes (.sar h t d a b) s t.file d fun x l => sarN (ITy.bits t) (readReg x t.file a l) (srcB x .v b l)

/-- ROT.l. -/
def execRotL (h : Hdr) (t : ITy) (d a : Reg) (b : SrcB) (s : State) : Out :=
  execLanes (.rotL h t d a b) s t.file d fun x l => rotlN (ITy.bits t) (readReg x t.file a l) (srcB x .v b l)

/-- ROT.r: a rotate left by the rest of the width. -/
def execRotR (h : Hdr) (t : ITy) (d a : Reg) (b : SrcB) (s : State) : Out :=
  execLanes (.rotR h t d a b) s t.file d fun x l =>
    rotlN (ITy.bits t) (readReg x t.file a l) (ITy.bits t - srcB x .v b l % ITy.bits t)

/-- FUNL: 32 bits of the pair (b, a) from a start of at most 32. -/
def execFunl (h : Hdr) (d : Reg) (x : SrcX) (s : State) : Out :=
  execLanes (.funl h d x) s .v d fun y l =>
    (srcXB y .v x l * 2 ^ 32 + srcXA y .v x l) / 2 ^ (min (srcXC y .v x l) 32) % 2 ^ 32

/-! ## Logic and bits (R112 to R114) -/

/-- AND. -/
def execAnd (h : Hdr) (t : BTy) (d a : Reg) (b : SrcB) (s : State) : Out :=
  execLanes (.and h t d a b) s t.file d fun x l => readReg x t.file a l &&& srcBBits x t b l

/-- OR. -/
def execOr (h : Hdr) (t : BTy) (d a : Reg) (b : SrcB) (s : State) : Out :=
  execLanes (.or h t d a b) s t.file d fun x l => readReg x t.file a l ||| srcBBits x t b l

/-- XOR. -/
def execXor (h : Hdr) (t : BTy) (d a : Reg) (b : SrcB) (s : State) : Out :=
  execLanes (.xor h t d a b) s t.file d fun x l => readReg x t.file a l ^^^ srcBBits x t b l

/-- NOT. -/
def execNot (h : Hdr) (t : BTy) (d a : Reg) (s : State) : Out :=
  execLanes (.not h t d a) s t.file d fun x l => 2 ^ BTy.bits t - 1 - readReg x t.file a l

/-- The bits of a three-input table over n bits (R112). -/
def ternN (n : Nat) (tbl : BitVec 8) (a b c : Nat) : Nat :=
  (List.range n).foldl (fun acc i =>
    acc + (tbl.getLsbD (bitsAt c i 1 * 4 + bitsAt b i 1 * 2 + bitsAt a i 1)).toNat * 2 ^ i) 0

/-- TERN. -/
def execTern (h : Hdr) (t : BTy) (d : Reg) (x : Src3) (tbl : BitVec 8) (s : State) : Out :=
  execLanes (.tern h t d x tbl) s t.file d fun y l =>
    ternN (BTy.bits t) tbl (src3A y t.file x l) (src3B y t.file x l) (src3C y t.file x l)

/-- Ones of n bits. -/
def popcN (n a : Nat) : Nat := ((List.range n).filter fun i => bitAt a i).length
/-- Zeros above the highest one of n bits. -/
def clzN (n a : Nat) : Nat := ((List.range n).takeWhile fun i => !bitAt a (n - 1 - i)).length
/-- Zeros below the lowest one of n bits. -/
def ctzN (n a : Nat) : Nat := ((List.range n).takeWhile fun i => !bitAt a i).length
/-- n bits reversed. -/
def brevN (n a : Nat) : Nat := (List.range n).foldl (fun acc i => acc + bitsAt a (n - 1 - i) 1 * 2 ^ i) 0

/-- POPC. -/
def execPopc (h : Hdr) (t : BTy) (d a : Reg) (s : State) : Out :=
  execLanes (.popc h t d a) s .v d fun x l => popcN (BTy.bits t) (readReg x t.file a l)
/-- CLZ. -/
def execClz (h : Hdr) (t : BTy) (d a : Reg) (s : State) : Out :=
  execLanes (.clz h t d a) s .v d fun x l => clzN (BTy.bits t) (readReg x t.file a l)
/-- CTZ. -/
def execCtz (h : Hdr) (t : BTy) (d a : Reg) (s : State) : Out :=
  execLanes (.ctz h t d a) s .v d fun x l => ctzN (BTy.bits t) (readReg x t.file a l)
/-- BREV. -/
def execBrev (h : Hdr) (t : BTy) (d a : Reg) (s : State) : Out :=
  execLanes (.brev h t d a) s t.file d fun x l => brevN (BTy.bits t) (readReg x t.file a l)

/-- Field extraction under a descriptor (R113). -/
def bfeN (t : ITy) (a desc : Nat) : Nat :=
  let n := ITy.bits t
  let pos := desc % 256
  let len := desc / 256 % 256
  if n ≤ pos || len = 0 then 0
  else
    let k := min len (n - pos)
    fitT t false (valInt (ITy.signed t) k (bitsAt a pos k))

/-- BFE. -/
def execBfe (h : Hdr) (t : ITy) (d a : Reg) (b : SrcB) (s : State) : Out :=
  execLanes (.bfe h t d a b) s t.file d fun x l => bfeN t (readReg x t.file a l) (srcB x .v b l)

/-- Field insertion under a descriptor (R113). -/
def bfiN (n a b desc : Nat) : Nat :=
  let pos := desc % 256
  let len := desc / 256 % 256
  if n ≤ pos || len = 0 then b else setBitsAt b pos (min len (n - pos)) a

/-- BFI. -/
def execBfi (h : Hdr) (t : BTy) (d : Reg) (x : SrcX) (s : State) : Out :=
  execLanes (.bfi h t d x) s t.file d fun y l => bfiN (BTy.bits t) (srcXA y t.file x l) (srcXB y t.file x l) (srcXC y .v x l)

/-- One byte of BSEL under its byte control (R114). -/
def bselByte (x c : Nat) : Nat :=
  let y := bitsAt x (8 * (c % 8)) 8
  if bitAt c 3 then 0 else if bitAt c 4 then (if bitAt y 7 then 0xFF else 0) else if bitAt c 5 then brevN 8 y else y

/-- BSEL on the pair (b, a). -/
def bselN (a b sel : Nat) : Nat :=
  (List.range 4).foldl (fun acc k => acc + bselByte (b * 2 ^ 32 + a) (bitsAt sel (8 * k) 8) * 2 ^ (8 * k)) 0

/-- BSEL. -/
def execBsel (h : Hdr) (d : Reg) (x : SrcX) (s : State) : Out :=
  execLanes (.bsel h d x) s .v d fun y l => bselN (srcXA y .v x l) (srcXB y .v x l) (srcXC y .v x l)

/-! ## Compare, select and predicates (R115 to R117) -/

/-- A condition on exact integers (R115). -/
def icondHolds (c : ICond) (a b : Int) : Bool :=
  match c with
  | .eq => a == b | .ne => a != b | .lt => decide (a < b) | .le => decide (a ≤ b) | .gt => decide (b < a) | .ge => decide (b ≤ a)

/-- ICMP. -/
def execIcmp (h : Hdr) (c : ICond) (t : ITy) (d a : Reg) (b : SrcB) (s : State) : Out :=
  execLanes (.icmp h c t d a b) s .q d fun x l => (icondHolds c (valT t (readReg x t.file a l)) (valT t (srcBInt x t b l))).toNat

/-- ISET. -/
def execIset (h : Hdr) (c : ICond) (t : ITy) (d a : Reg) (b : SrcB) (s : State) : Out :=
  execLanes (.iset h c t d a b) s .v d fun x l =>
    if icondHolds c (valT t (readReg x t.file a l)) (valT t (srcBInt x t b l)) then 0xFFFFFFFF else 0

/-- SEL. -/
def execSel (h : Hdr) (t : BTy) (d : Reg) (x : Src3) (s : State) : Out :=
  execLanes (.sel h t d x) s t.file d fun y l => if rdQ y.w x.c l then src3A y t.file x l else src3B y t.file x l

/-- PLOP. -/
def execPlop (h : Hdr) (d a b c : Reg) (tbl : BitVec 8) (s : State) : Out :=
  execLanes (.plop h d a b c tbl) s .q d fun x l =>
    (tbl.getLsbD ((rdQ x.w c l).toNat * 4 + (rdQ x.w b l).toNat * 2 + (rdQ x.w a l).toNat)).toNat

/-- PMOV vD, qA: predicates at or above `.preds` read false (R117). -/
def execPmovPack (h : Hdr) (d a : Reg) (s : State) : Out :=
  issue (.pmovPack h d a) s always fun x t =>
    let np := (s.warpEff x.w).npreds
    laneEffect .v d (fun x l => (List.range 32).foldl (fun acc i =>
      acc + (decide (a.toNat + i < np) && rdQ x.w (a + BitVec.ofNat 11 i) l).toNat * 2 ^ i) 0) x t

/-- PMOV qD, vA: predicates at or above `.preds` are not written (R117). -/
def execPmovUnpack (h : Hdr) (d a : Reg) (s : State) : Out :=
  issue (.pmovUnpack h d a) s always fun x t =>
    let np := (s.warpEff x.w).npreds
    t.modWarp x.w.id fun w => (lanesOf x.e).foldl (fun acc l =>
      (List.range 32).foldl (fun acc i =>
        if d.toNat + i < np then wrQ acc (d + BitVec.ofNat 11 i) l x.tag ((rdV x.w a l).getLsbD i) else acc) acc) w

/-- PMOV qD, qA. -/
def execPmovCopy (h : Hdr) (d a : Reg) (s : State) : Out := execLanes (.pmovCopy h d a) s .q d fun x l => (rdQ x.w a l).toNat
/-- PMOV.not qD, qA. -/
def execPmovNot (h : Hdr) (d a : Reg) (s : State) : Out := execLanes (.pmovNot h d a) s .q d fun x l => (!rdQ x.w a l).toNat

/-! ## Moves and addresses (R118, R119) -/

/-- MOV vD, vA. -/
def execMov (h : Hdr) (d a : Reg) (s : State) : Out := execLanes (.mov h d a) s .v d fun x l => (rdV x.w a l).toNat
/-- MOV vD.d, vA.d. -/
def execMovPair (h : Hdr) (d a : Reg) (s : State) : Out := execLanes (.movPair h d a) s .p d fun x l => (rdP x.w a l).toNat
/-- MOVI. -/
def execMovi (h : Hdr) (d : Reg) (v : Word) (s : State) : Out := execLanes (.movi h d v) s .v d fun _ _ => v.toNat
/-- MOVI.s64. -/
def execMoviS64 (h : Hdr) (d : Reg) (v : Word) (s : State) : Out := execLanes (.moviS64 h d v) s .p d fun _ _ => (sx64 v).toNat
/-- MOVI.n64. -/
def execMoviN64 (h : Hdr) (d : Reg) (v : Word) (s : State) : Out := execLanes (.moviN64 h d v) s .p d fun _ _ => v.toNat
/-- MOVW. -/
def execMovw (h : Hdr) (d : Reg) (v : DWord) (s : State) : Out := execLanes (.movw h d v) s .p d fun _ _ => v.toNat

/-- LEA. -/
def execLea (h : Hdr) (t : T32) (sh : BitVec 3) (d a : Reg) (b : SrcB) (s : State) : Out :=
  execLanes (.lea h t sh d a b) s .p d fun x l =>
    wrapInt 64 ((rdP x.w a l).toNat + valInt (T32.signed t) 32 (srcB x .v b l) * 2 ^ sh.toNat)

/-- LEAX. -/
def execLeax (h : Hdr) (t : T32) (d : Reg) (x : Src3) (off : Option Word) (s : State) : Out :=
  execLanes (.leax h t d x off) s .p d fun y l =>
    wrapInt 64 ((src3A y .p x l : Int) + valInt (T32.signed t) 32 (src3B y .v x l) * (src3C y .v x l : Int) +
      (off.getD 0).toInt)

/-! ## Special registers (R75, R120 to R122) -/

/-- The value a lane reads from a special register, `sr.clock` apart. -/
def sregValue (s : State) (w : Warp) (l : Nat) (r : SReg) : Nat :=
  let e := s.warpEff w
  let g := (e.first + ((s.warpGang w).map (·.g)).getD 0) % 2 ^ 32
  let m := ((s.warpWg w).map (·.member)).getD 0
  let c := s.warpCore w
  match r with
  | .lane => l
  | .warp => w.idx
  | .wg => (g * e.cores + m) % 2 ^ 32
  | .gang => g
  | .gmem => m
  | .core => c.core
  | .clu => c.clu
  | .die => c.die
  | .dev => s.dev
  | .clock => s.clock.toNat
  | .rgnc => (w.lane l).rgnc.toNat
  | .parm => e.params.toNat
  | .lfm => w.lfm.toNat
  | .fpx => (w.lane l).fpx.toNat
  | .fpc => w.fpc.toNat
  | .qbo => w.qbo.toNat
  | .fold => w.fold.toNat
  | .htvec => w.htvec.toNat
  | .hpc => w.hpc.toNat
  | .hmask => w.hmask.toNat
  | .hdst => w.hdst.toNat
  | .hcause => w.hcause.toNat
  | .hsub => w.hsub.toNat
  | .tar => (s.getCore c).tar.toNat
  | .vbthr => (s.getCore c).vbthr.toNat
  | .asid => s.warpAsid w

/-- SRD: `sr.clock` leaves its pair outstanding until the sample arrives (R80, R121); the others are read at issue. -/
def execSrd (h : Hdr) (d : SrdDst) (sr : SReg) (s : State) : Out :=
  issue (.srd h d sr) s always fun x t =>
    match d with
    | .v r => laneEffect .v r (fun x l => sregValue s x.w l sr) x t
    | .w r => runEffect .w r (fun x => sregValue s x.w x.low sr) x t
    | .pair r =>
      if sr == .clock then t.modWarp x.w.id fun w => addOut w (outOf x t .p r x.e .clock none)
      else laneEffect .p r (fun x l => sregValue s x.w l sr) x t

/-- The source of an SWR in a lane. -/
def swrValue (x : Issue) (src : SwrSrc) (l : Nat) : Nat :=
  match src with
  | .v a => (rdV x.w a l).toNat
  | .pair a => (rdP x.w a l).toNat
  | .imm v => v.toNat

/-- The effect of an SWR: reserved bits keep reading zero; a class R register at service level ignores the write (R75). -/
def swrEffect (sr : SReg) (src : SwrSrc) (x : Issue) (t : State) : State :=
  let v := swrValue x src x.low
  let id := x.w.id
  match sr with
  | .fpx => t.modWarp id fun w => w.modLanes x.e fun l y => { y with fpx := BitVec.ofNat 5 (swrValue x src l) }
  | .lfm => t.modWarp id fun w => { w with lfm := BitVec.ofNat 32 v }
  | .fpc => t.modWarp id fun w => { w with fpc := BitVec.ofNat 32 v &&& 0x00001F07 }
  | .qbo => t.modWarp id fun w => { w with qbo := BitVec.ofNat 32 v &&& 0x000FFFFF }
  | .htvec => t.modWarp id fun w => { w with htvec := BitVec.ofNat 64 v &&& ~~~ 3#64 }
  | .hpc => t.modWarp id fun w => { w with hpc := BitVec.ofNat 64 v, hpcWritten := true }
  | .hsub => t.modWarp id fun w => { w with hsub := BitVec.ofNat 64 v }
  | .vbthr => setVbthr t (t.warpCore x.w) (BitVec.ofNat 32 v)
  | .asid =>
    match t.warpRegion x.w with
    | some r => t.modRegion r.handle fun y => { y with asid := BitVec.ofNat 16 v }
    | none => t
  | _ => t

/-- SWR (R122). -/
def execSwr (h : Hdr) (sr : SReg) (src : SwrSrc) (s : State) : Out :=
  issue (.swr h sr src) s always (swrEffect sr src)

end Sys2Proof.Machine
end

