-- ==== Sys2Proof/Machine/Control.lean ====
section
/-! DEFINITION. Control transfer (R99 to R103), lane sets, regions and exit (R85, R89, R90, R94, R104 to R107), TRAP, WCALL and RTT
(R165 to R169). -/

namespace Sys2Proof.Machine

/-- The participants take a counter of their own (R100). -/
def goTo (x : Issue) (f : Nat → DWord) (s : State) : State :=
  s.modWarp x.w.id fun w => w.modLanes x.e fun l y => { y with pc := f l }

/-- A link written to a pair in every participant (R100). -/
def writeLink (x : Issue) (d : Reg) (s : State) : State := laneEffect .p d (fun x _ => x.after.toNat) x s

/-- NOP (R100). -/
def execNop (h : Hdr) (s : State) : Out := issue (.nop h) s always fun _ t => t

/-- BRA (R100). -/
def execBra (h : Hdr) (off : Word) (s : State) : Out :=
  issue (.bra h off) s always fun x t => goTo x (fun _ => x.pc + sx64 off) t

/-- BRX (R100). -/
def execBrx (h : Hdr) (a : Reg) (s : State) : Out :=
  issue (.brx h a) s always fun x t => goTo x (fun l => rdP x.w a l) t

/-- CALL (R100). -/
def execCall (h : Hdr) (d : Reg) (off : Word) (s : State) : Out :=
  issue (.call h d off) s always fun x t => goTo x (fun _ => x.pc + sx64 off) (writeLink x d t)

/-- CALLX (R100): the target is read before the link is written. -/
def execCallx (h : Hdr) (d a : Reg) (s : State) : Out :=
  issue (.callx h d a) s always fun x t => goTo x (fun l => rdP x.w a l) (writeLink x d t)

/-- RET (R100). -/
def execRet (h : Hdr) (a : Reg) (s : State) : Out :=
  issue (.ret h a) s always fun x t => goTo x (fun l => rdP x.w a l) t

/-- YIELD (R103): a scheduling point, and nothing else. -/
def execYield (h : Hdr) (s : State) : Out := issue (.yield h) s always fun x t => savePoint t x.w.id

/-! ## Lane sets -/

/-- Whether a walk finds a page for an access of a warp. -/
def pageThere (s : State) (w : Warp) (asid : Nat) (want : Want) (va : DWord) : Bool :=
  match walkNow s (s.warpCore w) asid (s.warpUser w) want va with
  | .absent _ => false
  | _ => true

/-- Whether a part of a posted store is translated at all: one of scratch space or of CCTL is not. -/
def walksFor (op : StoreOp) : Bool :=
  match op with
  | .write .scratch _ => false
  | .red scr .. => !scr
  | .redf scr .. => !scr
  | .cctl .. => false
  | _ => true

/-- A posted store whose translation can no longer fail: it has passed it before, or every part of it would pass it now, a part that waits
included (R90). -/
def storePassed (s : State) (w : Warp) (p : PStore) : Bool :=
  p.translated || !walksFor p.op || (storeParts (windowRest s w p)).all fun x =>
    match (partTry s w p x.2.1 x.2.2).1 with
    | .fault _ => false
    | .wait => pageThere s w p.asid .write x.2.1
    | _ => true

/-- A queued operation of the engine whose translation can no longer fail: only a WLD reads memory (R90, R260). -/
def opPassed (s : State) (w : Warp) (o : MxOp) : Bool :=
  match o.kind with
  | .wld va f _ => o.translated || (List.range (tileBytes f / 128)).all fun k =>
      let a := va + BitVec.ofNat 64 (128 * k)
      match (readKiln s (accOf s w (s.warpAsid w)) (s.warpEff w).kilnMib a 128).1 with
      | .fault _ => false
      | .wait => pageThere s w (s.warpAsid w) .read a
      | _ => true
  | _ => true

/-- The park point of R84 with the translation wait of R90: nothing outstanding, and every access of the run's lanes past
translation. -/
def regionQuiet (x : Issue) (s : State) : Bool :=
  x.w.outs.isEmpty && (x.w.stores.all fun p => p.lanes &&& x.run == 0 || storePassed s x.w p) &&
    (x.w.reads.all fun o => !isRead o.res || o.lanes &&& x.run == 0) &&
    (engineOf s (s.warpCore x.w)).queue.all fun o => o.w != x.w.id || o.lanes &&& x.run == 0 || opPassed s x.w o

/-- The accesses of the warp that pass translation now have passed it for good (R90). -/
def passTranslation (x : Issue) (s : State) : State :=
  let s1 := s.modWarp x.w.id fun w => { w with stores := w.stores.map fun p => { p with translated := storePassed s w p } }
  modEngine s1 (s.warpCore x.w) fun e =>
    { e with queue := e.queue.map fun o => if o.w == x.w.id && opPassed s x.w o then { o with translated := true } else o }

/-- The wait of RGN and EXIT (R84, R90). -/
def regionWait (x : Issue) (s : State) : State := pointWait x (passTranslation x s)

/-- A mask register changed, and completeness evaluated (R86, R106). -/
def setMask (x : Issue) (m : Reg) (v : LaneSet) (s : State) : State :=
  settle (s.modWarp x.w.id fun w => wrM w m x.tag v) x.w.id

/-- JOIN (R85). -/
def execJoin (h : Hdr) (m : Reg) (s : State) : Out :=
  issue (.join h m) s always fun x t => setMask x m (rdM x.w m ||| x.e) t

/-- LEAVE (R85). -/
def execLeave (h : Hdr) (m : Reg) (s : State) : Out :=
  issue (.leave h m) s always fun x t => setMask x m (rdM x.w m &&& ~~~ x.e) t

/-- WAITM (R85, R105): the participants in the mask wait at this counter, the others go on. -/
def execWaitm (h : Hdr) (m : Reg) (s : State) : Out :=
  issue (.waitm h m) s always fun x t =>
    let f := x.e &&& rdM x.w m
    let t1 := t.modWarp x.w.id fun w => w.modLanes f fun _ y => { y with pc := x.pc, st := .waiting m.toNat, since := t.clock }
    settle (savePoint t1 x.w.id) x.w.id

/-- MOVM mD, wA (R106). -/
def execMovmMaskFromW (h : Hdr) (m w : Reg) (s : State) : Out :=
  issue (.movmMaskFromW h m w) s always fun x t => setMask x m (rdW x.w w) t

/-- MOVM wD, mA (R106). -/
def execMovmWFromMask (h : Hdr) (w m : Reg) (s : State) : Out :=
  execRun (.movmWFromMask h w m) s .w w fun x => (rdM x.w m).toNat

/-- MOVM mD, mA (R106). -/
def execMovmMaskFromMask (h : Hdr) (d a : Reg) (s : State) : Out :=
  issue (.movmMaskFromMask h d a) s always fun x t => setMask x d (rdM x.w a) t

/-- MOVM mD, imm (R106). -/
def execMovmMaskImm (h : Hdr) (m : Reg) (v : Word) (s : State) : Out :=
  issue (.movmMaskImm h m v) s always fun x t => setMask x m v t

/-- RGN (R89, R90): the buffer entries of the warp are flushed first (R254). -/
def execRgn (h : Hdr) (s : State) : Out :=
  issueP (.rgn h) s regionQuiet regionWait fun x t =>
    (savePoint (flushWarp (passTranslation x t) x.w) x.w.id).modWarp x.w.id fun w =>
      w.modLanes x.e fun _ y => { y with rgn := x.after, rgnc := y.rgnc + 1 }

/-- The lanes made exited, with their bits cleared in every mask (R86, R94); when the warp ends, its LFM goes to the workgroup
(R185), and when the last warp ends, the workgroup drains (R107). -/
def exitLanes (s : State) (wid : Nat) (f : LaneSet) : State :=
  let s1 := s.modWarp wid fun w =>
    { (w.modLanes f fun _ y => { y with st := .exited }) with
      m := (List.range 12).foldl (fun acc n => sput 0 acc n (sget 0 acc n &&& ~~~ f)) w.m }
  match s1.getWarp wid with
  | none => s1
  | some w =>
    if liveSet w == 0 then
      let s2 := s1.modWg w.wg fun g => { g with lfm := g.lfm ||| w.lfm }
      if s2.warps.all fun y => y.wg != w.wg || liveSet y == 0 then noteEnd (s2.modWg w.wg fun g => { g with draining := true }) w.wg else s2
    else settle s1 wid

/-- EXIT (R94, R107); inside a handler it takes ILLEGAL_OPCODE, a double trap (R168). -/
def execExit (h : Hdr) (s : State) : Out :=
  issueP (.exit h) s regionQuiet regionWait fun x t =>
    if x.w.inTrap then issueTrap x t 0x01 0 x.e 0
    else exitLanes (savePoint (flushWarp (passTranslation x t) x.w) x.w.id) x.w.id x.e

/-! ## TRAP, WCALL, RTT -/

/-- TRAP (R165). -/
def execTrap (h : Hdr) (code : Option (BitVec 16)) (s : State) : Out :=
  issue (.trap h code) s always fun x t => issueTrap x t 0x30 (code.getD 0) x.e 0

/-- Every posted store of the warp has been performed. -/
def storesPerformed (w : Warp) : Bool := w.stores.all fun p => p.ctr != .st

/-- The request record can leave once every older store of the warp is visible at dev scope (R167): the posted ones have been
performed, and the bytes that its core still holds dirty can be written back (R180, R190). -/
def storesVisible (x : Issue) (s : State) : Bool := storesPerformed x.w && (makeVisible s x.w .dev).1

/-- What the wait of a WCALL sets going. -/
def visibleWait (x : Issue) (s : State) : State := if storesPerformed x.w then (makeVisible s x.w .dev).2 else s

/-- The request record of a WCALL (R166), in the byte order of memory. DEDUCED (log entry 78). -/
def wcallRecord (s : State) (x : Issue) (svc : BitVec 16) (arg : Nat → DWord) : List Byte :=
  let id (r : SReg) : Nat := sregValue s x.w 0 r
  leBytes 2 svc.toNat ++ leBytes 2 0 ++ leBytes 4 x.e.toNat ++ leBytes 8 x.pc.toNat ++
    leBytes 2 (id .dev) ++ leBytes 1 (id .die) ++ leBytes 1 (id .clu) ++ leBytes 1 (id .core) ++ leBytes 1 (id .warp) ++ leBytes 2 (id .wg) ++
    leBytes 2 (s.warpAsid x.w) ++ leBytes 6 0 ++
    (List.range 32).flatMap fun l => leBytes 8 (if x.e.getLsbD l then (arg l).toNat else 0)

/-- The service number of a request record, and its entry for a lane. -/
def recordService (bs : List Byte) : Nat := leNat (bs.take 2)
def recordArg (bs : List Byte) (l : Nat) : DWord := BitVec.ofNat 64 (leNat ((bs.drop (0x20 + 8 * l)).take 8))

/-- WCALL (R166): one request, whose reply fills the pair in every participant. -/
def execWcall (h : Hdr) (d a : Reg) (svc : BitVec 16) (s : State) : Out :=
  issueP (.wcall h d a svc) s storesVisible visibleWait fun x t =>
    let r := outOf x t .p d x.e (.wcall (wcallRecord s x svc (rdP x.w a))) none
    (makeVisible t x.w .dev).2.modWarp x.w.id fun w => addOut w r

/-- Forms of RTT (R168). -/
inductive RttForm where
  | retry | skip | sub | retryRgn
  deriving DecidableEq, Repr

/-- The counter at which a trapped lane goes on (R169). -/
def rttNext (w : Warp) (k : RttForm) (x : Lane) : DWord :=
  if w.hpcWritten then w.hpc
  else match k with
  | .retryRgn => x.trapRgn
  | .retry => if w.hcause.getLsbD 8 then x.trapRgn else w.hpc
  | _ => x.resume

/-- A trapped lane returned: back into the wait it was taken from when its counter is that wait's (R87, R170). -/
def rttLane (w : Warp) (k : RttForm) (x : Lane) : Lane :=
  let next := rttNext w k x
  match x.waitedOn with
  | some n => if next == x.resume then { x with pc := next, st := .waiting n, waitedOn := none, restart := false }
              else { x with pc := next, st := .ready, waitedOn := none, restart := false }
  | none => { x with pc := next, st := .ready, restart := false }

/-- The value of `sr.hsub` written to the destination of the trapped lanes with the trapping instruction's tag (R169). -/
def rttSub (w : Warp) : Warp :=
  let r : Reg := w.hdst.extractLsb' 0 11
  let put (acc : Warp) (l : Nat) : Warp :=
    match bitsAt w.hdst.toNat 11 3 with
    | 1 => wrVLate acc r l w.trapTag (w.hsub.setWidth 32)
    | 2 => if r == 0 then acc
           else wrVLate (wrVLate acc r l w.trapTag (w.hsub.setWidth 32)) (r + 1) l w.trapTag (w.hsub.extractLsb' 32 32)
    | 3 => wrQLate acc r l w.trapTag (w.hsub.getLsbD 0)
    | _ => acc
  let w1 := (lanesOf w.hmask).foldl put w
  match bitsAt w.hdst.toNat 11 3 with
  | 4 => wrWLate w1 r w.trapTag (w.hsub.setWidth 32)
  | 5 => wrMLate w1 r w.trapTag (w.hsub.setWidth 32)
  | _ => w1

/-- The return itself (R169). -/
def rttWarp (k : RttForm) (w : Warp) : Warp :=
  let w1 := if k == .sub then rttSub w else w
  { w1 with
    inTrap := false
    opbuf := none
    lanes := w1.lanes.mapIdx fun l x =>
      if w.hmask.getLsbD l then rttLane w k x
      else if x.st == .held .handler then { x with st := .ready } else x }

/-- A sender whose entry was refused sixteen times starts again with n = 1 after the return (R200). -/
def restartSenders (s : State) (w : Warp) : State :=
  s.modWg w.wg fun g => { g with senders := g.senders.map fun d =>
    if d.id == w.id && 16 ≤ d.failed then { d with failed := 0, n := 1, backoff := some (backoffEnd s w.qbo 1) } else d }

/-- The matrix work that the return takes back: that of the lanes which it lets restart their regions (R93, R255). -/
def rttTags (k : RttForm) (w : Warp) : List Nat :=
  regionTags w (w.hmask &&& w.lanesWhere fun x => x.restart && rttNext w k x == x.rgn) false

/-- RTT in any form (R168, R169): then the masks are evaluated and a pending deferred trap is delivered before any lane issues
(R162). -/
def rttEffect (k : RttForm) (x : Issue) (t : State) : State :=
  if !x.w.inTrap || x.e != x.w.hmask then issueTrap x t 0x01 0 x.e 0
  else
    let t1 := restartSenders ((restartDiscard t x.w.id (rttTags k x.w)).modWarp x.w.id (rttWarp k)) x.w
    deliverPending (settle t1 x.w.id) x.w.id

/-- RTT.RETRY. -/
def execRttRetry (h : Hdr) (s : State) : Out := issue (.rttRetry h) s always (rttEffect .retry)
/-- RTT.SKIP. -/
def execRttSkip (h : Hdr) (s : State) : Out := issue (.rttSkip h) s always (rttEffect .skip)
/-- RTT.SUB. -/
def execRttSub (h : Hdr) (s : State) : Out := issue (.rttSub h) s always (rttEffect .sub)
/-- RTT.RETRY.rgn. -/
def execRttRetryRgn (h : Hdr) (s : State) : Out := issue (.rttRetryRgn h) s always (rttEffect .retryRgn)

end Sys2Proof.Machine
end

