-- ==== Sys2Proof/Machine/Float.lean ====
section
/-! DEFINITION. The floating-point instructions (R139 to R156) with the covered traps of R137 and R138, and the special-function
instructions, whose results stay outstanding (R145 to R147). -/

namespace Sys2Proof.Machine

/-- FTZ of `sr.fpc` (R130). -/
def ftzOf (x : Issue) : Bool := x.w.fpc.getLsbD 2
/-- The rounding mode of an instruction (R130, R133). -/
def modeOf (x : Issue) (rm : RMode) : Rnd := rmodeOf (x.w.fpc.toNat % 4) rm

/-- Whether an instruction that can raise some flags is covered by an enabled trap (R137). -/
def covered (allowed : Flags) (w : Warp) : Bool := allowed &&& trapEnables w.fpc != 0

/-- A covered instruction is a park point (R84, R137). -/
def fpReady (allowed : Flags) (x : Issue) (_ : State) : Bool := !covered allowed x.w || x.w.outs.isEmpty

/-- Flags merged into `sr.fpx` lane by lane (R132). -/
def mergeFlags (fs : List (Nat × Flags)) (w : Warp) : Warp :=
  fs.foldl (fun acc p => acc.modLanes (1#32 <<< p.1) fun _ y => { y with fpx := y.fpx ||| p.2 }) w

/-- The lanes that raised an enabled flag. -/
def trappingLanes (enables : Flags) (rs : List (Nat × FRes)) : List Nat :=
  (rs.filter fun r => r.2.2 &&& enables != 0).map (·.1)

/-- Every enabled flag that some lane raised. -/
def enabledFlags (enables : Flags) (rs : List (Nat × FRes)) : Flags := rs.foldl (fun acc r => acc ||| (r.2.2 &&& enables)) 0

/-- The effect of R138: results in the lanes that do not trap, flags in all, and one trap. -/
def fpEffect (allowed : Flags) (file : File) (d : Reg) (f : Issue → Nat → FRes) (x : Issue) (t : State) : State :=
  let rs := (lanesOf x.e).map fun l => (l, f x l)
  let en : Flags := if covered allowed x.w then trapEnables x.w.fpc else 0
  let tr := trappingLanes en rs
  let t1 := t.modWarp x.w.id fun w =>
    mergeFlags (rs.map fun r => (r.1, r.2.2))
      (wrLanes w file d x.tag ((rs.filter fun r => !tr.contains r.1).map fun r => (r.1, r.2.1)))
  let t2 := if covered allowed x.w then savePoint t1 x.w.id else t1
  if tr.isEmpty then t2 else issueTrap x t2 (fpCause (enabledFlags en rs)) 0 (laneSet tr) (fileCode file)

/-- The issue of an instruction that may be covered. -/
def issueFp (i : Instr) (s : State) (allowed : Flags) (effect : Issue → State → State) : Out :=
  issueP i s (fpReady allowed) parkWait effect

/-- A floating-point instruction that writes its destination at issue. -/
def execFp (i : Instr) (s : State) (allowed : Flags) (file : File) (d : Reg) (f : Issue → Nat → FRes) : Out :=
  issueFp i s allowed (fpEffect allowed file d f)

/-! ## Arithmetic (R139, R140) -/

/-- FADD. -/
def execFadd (h : Hdr) (p : FTy) (rm : RMode) (d a : Reg) (b : SrcB) (s : State) : Out :=
  execFp (.fadd h p rm d a b) s flagsArith .v d fun x l =>
    faddBits (ftyFmt p) (modeOf x rm) (ftzOf x) (readReg x .v a l) (srcB x .v b l)
/-- FSUB. -/
def execFsub (h : Hdr) (p : FTy) (rm : RMode) (d a : Reg) (b : SrcB) (s : State) : Out :=
  execFp (.fsub h p rm d a b) s flagsArith .v d fun x l =>
    fsubBits (ftyFmt p) (modeOf x rm) (ftzOf x) (readReg x .v a l) (srcB x .v b l)
/-- FMUL. -/
def execFmul (h : Hdr) (p : FTy) (rm : RMode) (d a : Reg) (b : SrcB) (s : State) : Out :=
  execFp (.fmul h p rm d a b) s flagsArith .v d fun x l =>
    fmulBits (ftyFmt p) (modeOf x rm) (ftzOf x) (readReg x .v a l) (srcB x .v b l)
/-- FFMA. -/
def execFfma (h : Hdr) (p : FTy) (rm : RMode) (d : Reg) (x : Src3) (s : State) : Out :=
  execFp (.ffma h p rm d x) s flagsArith .v d fun y l =>
    ffmaBits (ftyFmt p) (modeOf y rm) (ftzOf y) (src3A y .v x l) (src3B y .v x l) (src3C y .v x l)

/-! ## Minimum, maximum, compare, classify, round, scale (R141 to R144) -/

/-- FMIN. -/
def execFmin (h : Hdr) (p : FTy) (d a : Reg) (b : SrcB) (s : State) : Out :=
  execFp (.fmin h p d a b) s flagI .v d fun x l => fminmaxBits (ftyFmt p) false (ftzOf x) (readReg x .v a l) (srcB x .v b l)
/-- FMAX. -/
def execFmax (h : Hdr) (p : FTy) (d a : Reg) (b : SrcB) (s : State) : Out :=
  execFp (.fmax h p d a b) s flagI .v d fun x l => fminmaxBits (ftyFmt p) true (ftzOf x) (readReg x .v a l) (srcB x .v b l)
/-- FCMP. -/
def execFcmp (h : Hdr) (c : FCond) (p : FTy) (d a : Reg) (b : SrcB) (s : State) : Out :=
  execFp (.fcmp h c p d a b) s flagI .q d fun x l =>
    let r := fcmpBits (ftyFmt p) c (ftzOf x) (readReg x .v a l) (srcB x .v b l)
    (r.1.toNat, r.2)
/-- FSET. -/
def execFset (h : Hdr) (c : FCond) (p : FTy) (d a : Reg) (b : SrcB) (s : State) : Out :=
  execFp (.fset h c p d a b) s flagI .v d fun x l =>
    let r := fcmpBits (ftyFmt p) c (ftzOf x) (readReg x .v a l) (srcB x .v b l)
    (if r.1 then 0xFFFFFFFF else 0, r.2)
/-- FCLASS to a class word. -/
def execFclass (h : Hdr) (p : FTy) (d a : Reg) (s : State) : Out :=
  execLanes (.fclass h p d a) s .v d fun x l => fclassBits (ftyFmt p) (readReg x .v a l)
/-- FCLASS against a mask of classes. -/
def execFclassTest (h : Hdr) (p : FTy) (d a : Reg) (v : Word) (s : State) : Out :=
  execLanes (.fclassTest h p d a v) s .q d fun x l => (fclassBits (ftyFmt p) (readReg x .v a l) &&& v.toNat != 0).toNat
/-- FRND. -/
def execFrnd (h : Hdr) (p : FTy) (rm : RMode) (d a : Reg) (s : State) : Out :=
  execFp (.frnd h p rm d a) s flagI .v d fun x l => frndBits (ftyFmt p) (modeOf x rm) (ftzOf x) (readReg x .v a l)
/-- FSCALE. -/
def execFscale (h : Hdr) (p : FTy) (rm : RMode) (d a : Reg) (b : SrcB) (s : State) : Out :=
  execFp (.fscale h p rm d a b) s flagsArith .v d fun x l =>
    fscaleBits (ftyFmt p) (modeOf x rm) (ftzOf x) (readReg x .v a l) (srcB x .v b l)
/-- FGETEXP. -/
def execFgetexp (h : Hdr) (p : FTy) (d a : Reg) (s : State) : Out :=
  execFp (.fgetexp h p d a) s flagI .v d fun x l => fgetexpBits (ftyFmt p) (ftzOf x) (readReg x .v a l)

/-! ## Special functions (R145 to R147) -/

/-- The result of a special function outstanding with its flags; a covered one parks the warp (R137). -/
def specialEffect (allowed : Flags) (d : Reg) (f : Issue → Nat → FRes) (x : Issue) (t : State) : State :=
  let rs := (lanesOf x.e).map fun l => (l, f x l)
  let cov := covered allowed x.w
  let res : Result := .special (rs.map fun r => (r.1, BitVec.ofNat 32 r.2.1)) (rs.map fun r => (r.1, r.2.2))
    (if cov then trapEnables x.w.fpc else 0)
  let t1 := t.modWarp x.w.id fun w => addOut w (outOf x t .v d x.e res none)
  if cov then savePoint (t1.modWarp x.w.id fun w => { w with parked := true, opbuf := none }) x.w.id else t1

/-- A special-function instruction. -/
def execSpecial (i : Instr) (s : State) (allowed : Flags) (d : Reg) (f : Issue → Nat → FRes) : Out :=
  issueFp i s allowed (specialEffect allowed d f)

/-- A function of an FP32 operand under the input and output rules of R16. -/
def special32 (x : Issue) (f : Num → FRes) (a : Nat) : FRes := ftzOut .f32 (ftzOf x) (f (fRead .f32 (ftzOf x) a))

/-- FRCP. -/
def execFrcp (h : Hdr) (d a : Reg) (s : State) : Out :=
  execSpecial (.frcp h d a) s flagsRcp d fun x l => special32 x frcpNum (readReg x .v a l)
/-- FRSQ. -/
def execFrsq (h : Hdr) (d a : Reg) (s : State) : Out :=
  execSpecial (.frsq h d a) s flagsRsqLg d fun x l => special32 x frsqNum (readReg x .v a l)
/-- FSQRT. -/
def execFsqrt (h : Hdr) (p : FTy) (rm : RMode) (d a : Reg) (s : State) : Out :=
  execSpecial (.fsqrt h p rm d a) s flagsSqrtCos d fun x l =>
    let f := ftyFmt p
    ftzOut f (ftzOf x) (fsqrtNum f (modeOf x rm) (fRead f (ftzOf x) (readReg x .v a l)))
/-- FEX2. -/
def execFex2 (h : Hdr) (d a : Reg) (s : State) : Out :=
  execSpecial (.fex2 h d a) s flagsArith d fun x l => special32 x fex2Num (readReg x .v a l)
/-- FLG2. -/
def execFlg2 (h : Hdr) (d a : Reg) (s : State) : Out :=
  execSpecial (.flg2 h d a) s flagsRsqLg d fun x l => special32 x flg2Num (readReg x .v a l)
/-- FSIN. -/
def execFsin (h : Hdr) (d a : Reg) (s : State) : Out :=
  execSpecial (.fsin h d a) s flagsSinTanh d fun x l => special32 x fsinNum (readReg x .v a l)
/-- FCOS. -/
def execFcos (h : Hdr) (d a : Reg) (s : State) : Out :=
  execSpecial (.fcos h d a) s flagsSqrtCos d fun x l => special32 x fcosNum (readReg x .v a l)
/-- FTANH. -/
def execFtanh (h : Hdr) (d a : Reg) (s : State) : Out :=
  execSpecial (.ftanh h d a) s flagsSinTanh d fun x l => special32 x ftanhNum (readReg x .v a l)

/-! ## Packed halves and dot products (R148, R149) -/

/-- HPADD. -/
def execHpadd (h : Hdr) (p : HTy) (rm : RMode) (d a : Reg) (b : SrcB) (s : State) : Out :=
  execFp (.hpadd h p rm d a b) s flagsArith .v d fun x l =>
    halves (fun u v _ => faddBits (htyFmt p) (modeOf x rm) (ftzOf x) u v) (readReg x .v a l) (srcB x .v b l) 0
/-- HPMUL. -/
def execHpmul (h : Hdr) (p : HTy) (rm : RMode) (d a : Reg) (b : SrcB) (s : State) : Out :=
  execFp (.hpmul h p rm d a b) s flagsArith .v d fun x l =>
    halves (fun u v _ => fmulBits (htyFmt p) (modeOf x rm) (ftzOf x) u v) (readReg x .v a l) (srcB x .v b l) 0
/-- HPFMA. -/
def execHpfma (h : Hdr) (p : HTy) (rm : RMode) (d : Reg) (x : Src3) (s : State) : Out :=
  execFp (.hpfma h p rm d x) s flagsArith .v d fun y l =>
    halves (fun u v w => ffmaBits (htyFmt p) (modeOf y rm) (ftzOf y) u v w) (src3A y .v x l) (src3B y .v x l) (src3C y .v x l)
/-- HPMNX.min. -/
def execHpmnxMin (h : Hdr) (p : HTy) (d a : Reg) (b : SrcB) (s : State) : Out :=
  execFp (.hpmnxMin h p d a b) s flagI .v d fun x l =>
    halves (fun u v _ => fminmaxBits (htyFmt p) false (ftzOf x) u v) (readReg x .v a l) (srcB x .v b l) 0
/-- HPMNX.max. -/
def execHpmnxMax (h : Hdr) (p : HTy) (d a : Reg) (b : SrcB) (s : State) : Out :=
  execFp (.hpmnxMax h p d a b) s flagI .v d fun x l =>
    halves (fun u v _ => fminmaxBits (htyFmt p) true (ftzOf x) u v) (readReg x .v a l) (srcB x .v b l) 0
/-- DOT4 with float elements. -/
def execDot4Float (h : Hdr) (fa fb : NF8) (rm : RMode) (d : Reg) (x : Src3) (s : State) : Out :=
  execFp (.dot4Float h fa fb rm d x) s flagsArith .v d fun y l =>
    dotBits (nf8Fmt fa) (nf8Fmt fb) 8 (modeOf y rm) (ftzOf y) (src3A y .v x l) (src3B y .v x l) (src3C y .v x l)
/-- DOT4 with S8 elements. -/
def execDot4S8 (h : Hdr) (d : Reg) (x : Src3) (s : State) : Out :=
  execLanes (.dot4S8 h d x) s .v d fun y l => dot4s8Bits (src3A y .v x l) (src3B y .v x l) (src3C y .v x l)
/-- DOT2. -/
def execDot2 (h : Hdr) (p : HTy) (rm : RMode) (d : Reg) (x : Src3) (s : State) : Out :=
  execFp (.dot2 h p rm d x) s flagsArith .v d fun y l =>
    dotBits (htyFmt p) (htyFmt p) 16 (modeOf y rm) (ftzOf y) (src3A y .v x l) (src3B y .v x l) (src3C y .v x l)

/-! ## Conversions (R150 to R156) -/

/-- The exponent of a scale operand: an E8M0 byte (R20, R33); none for the NaN code. -/
def scaleExp (sc : Bool) (c : Nat) : Option Int := if sc then some ((c % 256 : Int) - 127) else none

/-- The participants whose scale byte is the NaN code 0xFF, which traps (R20, R151). -/
def nanScaleLanes (x : Issue) (sc : Bool) (c : Nat → Nat) : LaneSet :=
  if sc then laneSet ((lanesOf x.e).filter fun l => c l % 256 == 0xFF) else 0

/-- A conversion with a scale (R151): when some participants' scale byte is the NaN code, the instruction executes in no
lane, those lanes take MX_PARAM, and the other participants keep its counter. A covered one that takes this trap is no point at which a save stops
the warp. DESIGN CHOICE (log entry 104). -/
def cvtEffect (allowed : Flags) (file : File) (d : Reg) (sc : Bool) (c : Issue → Nat → Nat) (f : Issue → Nat → FRes)
    (x : Issue) (t : State) : State :=
  let bad := nanScaleLanes x sc (c x)
  if bad == 0 then fpEffect allowed file d f x t
  else
    let t1 := t.modWarp x.w.id fun w => w.modLanes (x.e &&& ~~~ bad) fun _ y => { y with pc := x.pc }
    issueTrap x t1 0x21 0 bad (fileCode file)

/-- CVT. -/
def execCvt (h : Hdr) (dst src : CTy) (rm : RMode) (sat sc : Bool) (d a c : Reg) (pop : Pop) (s : State) : Out :=
  let cOf (x : Issue) (l : Nat) : Nat := readOpnd x ⟨.v, c, pop.isC⟩ l
  issueFp (.cvt h dst src rm sat sc d a c pop) s flagsArith
    (cvtEffect flagsArith dst.file d sc cOf fun x l =>
      cvtBits dst src (modeOf x rm) sat (ftzOf x) (scaleExp sc (cOf x l)) (readOpnd x ⟨src.file, a, pop.isA⟩ l))

/-- The elements that CVTP packs: those of a and b, or of the pairs a and b (R153). -/
def cvtpSources (x : Issue) (dst : CTy) (y : Src3) (l : Nat) : List Nat :=
  if dst == .f16 || dst == .bf16 then [src3A x .v y l, src3B x .v y l]
  else
    let p := src3A x .p y l
    let q := src3B x .p y l
    [p % 2 ^ 32, p / 2 ^ 32, q % 2 ^ 32, q / 2 ^ 32]

/-- CVTP. -/
def execCvtp (h : Hdr) (dst : CTy) (rm : RMode) (sat sc : Bool) (d : Reg) (x : Src3) (s : State) : Out :=
  let cOf (y : Issue) (l : Nat) : Nat := src3C y .v x l
  issueFp (.cvtp h dst rm sat sc d x) s flagsArith
    (cvtEffect flagsArith .v d sc cOf fun y l =>
      cvtpBits dst (modeOf y rm) sat (ftzOf y) (scaleExp sc (cOf y l)) (cvtpSources y dst x l))

/-- CVTX: two FP32 values into the pair. -/
def execCvtx (h : Hdr) (src : CTy) (rm : RMode) (sc hi : Bool) (d a c : Reg) (pop : Pop) (s : State) : Out :=
  let cOf (x : Issue) (l : Nat) : Nat := readOpnd x ⟨.v, c, pop.isC⟩ l
  let allowed := if sc then flagsArith else flagI
  issueFp (.cvtx h src rm sc hi d a c pop) s allowed
    (cvtEffect allowed .p d sc cOf fun x l =>
      let rs := cvtxBits src (modeOf x rm) hi (ftzOf x) (scaleExp sc (cOf x l)) (readOpnd x ⟨.v, a, pop.isA⟩ l)
      (((rs[0]?).getD (0, 0)).1 + 2 ^ 32 * ((rs[1]?).getD (0, 0)).1, rs.foldl (fun acc r => acc ||| r.2) 0))

/-- LMUL. -/
def execLmul (h : Hdr) (d a b : Reg) (s : State) : Out :=
  execFp (.lmul h d a b) s flagsLog .v d fun x l => logMul (readReg x .v a l % 64) (readReg x .v b l % 64)
/-- LMUL.x4. -/
def execLmulX4 (h : Hdr) (d a b : Reg) (s : State) : Out :=
  execFp (.lmulX4 h d a b) s flagsLog .v d fun x l => lmul4Bits (readReg x .v a l) (readReg x .v b l)
/-- LCVT.s32.log6. -/
def execLcvtWiden (h : Hdr) (j : BitVec 2) (d a : Reg) (s : State) : Out :=
  execLanes (.lcvtWiden h j d a) s .v d fun x l => lcvtWidenBits j.toNat (readReg x .v a l)
/-- LCVT.log6.s32. -/
def execLcvtNarrow (h : Hdr) (sat : Bool) (d a : Reg) (s : State) : Out :=
  execFp (.lcvtNarrow h sat d a) s flagsLog .v d fun x l => lcvtNarrowBits sat (readReg x .v a l)

end Sys2Proof.Machine
end

