-- ==== Sys2Proof/Machine/Launch.lean ====
section
/-! DEFINITION. Region control blocks, effective values, contexts and handles (R402 to R407), LAUNCH, TSIG (R409) and token words
(R408). -/

namespace Sys2Proof.Machine

/-! ## The region control block (R402) -/

/-- The fields of an RCB as they stand. -/
structure Rcb where
  kind : Nat
  prio : Nat
  domain : Nat
  flags : Nat
  parent : Nat
  maxCores : Nat
  kilnMib : Nat
  l2Ways : Nat
  tclass : Nat
  entry : Nat
  cores : Nat
  warps : Nat
  shape : Nat
  scratch : Nat
  gangs : Nat
  first : Nat
  params : Nat
  token : Nat
  threshold : Nat
  stride : Nat
  completion : Nat
  expected : Nat
  over_ : Nat
  exitArea : Nat
  saveArea : Nat
  /-- the reserved fields together -/
  rsv : Nat
  /-- the fields that an inner RCB must leave zero, together -/
  leafBits : Nat
  deriving DecidableEq, Repr

def rcbOf (bs : List Byte) : Rcb :=
  let v := leNat bs
  let f (o n : Nat) : Nat := bitsAt v (8 * o) (8 * n)
  { kind := f 0 1, prio := f 1 1, domain := f 2 2, flags := f 4 4, parent := f 8 8, maxCores := f 0x10 2, kilnMib := f 0x12 2,
    l2Ways := f 0x14 1, tclass := f 0x15 1, entry := f 0x18 8, cores := f 0x20 1, warps := f 0x21 1, shape := f 0x22 2,
    scratch := f 0x24 4, gangs := f 0x28 4, first := f 0x2C 4, params := f 0x30 8, token := f 0x38 8, threshold := f 0x40 4,
    stride := f 0x44 4, completion := f 0x48 8, expected := f 0x50 8, over_ := f 0x58 2, exitArea := f 0x60 8, saveArea := f 0x68 8,
    rsv := f 0x16 2 + f 0x5A 6 + f 0x70 0x90 + bitsAt (f 4 4) 8 24 + bitsAt (f 0x58 2) 5 11,
    leafBits := f 0x18 0x40 + f 0x60 16 }

/-- A group that is inherited: INHERIT is set and the group's override bit is clear (R403). -/
def inherits (b : Rcb) (k : Nat) : Bool := bitAt b.flags 0 && !bitAt b.over_ k

/-- An inherited group is nonzero in the child's own fields. -/
def groupSet (b : Rcb) : Bool :=
  (inherits b 0 && b.prio != 0) || (inherits b 1 && b.domain != 0) ||
    (inherits b 2 && (b.maxCores != 0 || b.kilnMib != 0 || b.l2Ways != 0 || b.tclass != 0)) ||
    (inherits b 3 && bitsAt b.flags 1 5 != 0) || (inherits b 4 && (b.exitArea != 0 || b.saveArea != 0))

/-- The effective values of a region (R403). -/
def effOf (b : Rcb) (p : Option Eff) : Eff :=
  let up {α : Type} (k : Nat) (own : α) (f : Eff → α) : α := if inherits b k then (match p with | some e => f e | none => own) else own
  { prio := up 0 b.prio (·.prio), domain := up 1 b.domain (·.domain), pinFold := up 3 (bitAt b.flags 1) (·.pinFold),
    idempotent := up 3 (bitAt b.flags 2) (·.idempotent), policy := up 3 (bitsAt b.flags 3 2) (·.policy),
    det := up 3 (bitAt b.flags 5) (·.det), affine := bitAt b.flags 6, maxCores := up 2 b.maxCores (·.maxCores),
    kilnMib := up 2 b.kilnMib (·.kilnMib), l2Ways := up 2 b.l2Ways (·.l2Ways), tclass := up 2 b.tclass (·.tclass),
    entry := BitVec.ofNat 64 b.entry, cores := b.cores, warps := b.warps, nregs := b.shape % 4096, npreds := 128 - 8 * (b.shape / 4096),
    scratch := b.scratch, gangs := b.gangs, first := b.first, params := BitVec.ofNat 64 b.params, token := BitVec.ofNat 64 b.token,
    threshold := b.threshold, stride := b.stride, completion := BitVec.ofNat 64 b.completion, expected := b.expected,
    exitArea := BitVec.ofNat 64 (up 4 b.exitArea (·.exitArea.toNat)), saveArea := BitVec.ofNat 64 (up 4 b.saveArea (·.saveArea.toNat)) }

/-- The live inner region whose RCB stands at an address. -/
def parentOf (s : State) (b : Rcb) : Option Region :=
  if b.parent = 0 then none else s.regions.find? fun r => r.status == 0 && !r.leaf && r.rcb.toNat == b.parent

/-- Warps of a workgroup, the access warp included (R192). -/
def warpsOf (e : Eff) : Nat := e.warps + e.affine.toNat

/-- Who launches: the context id and ASID of the new region, and the ring, 0 for a LAUNCH or the PF (R406, R447). -/
structure Launcher where
  service : Bool
  ctx : Nat
  asid : Nat
  ring : Nat
  deriving DecidableEq, Repr

def ctxLive (s : State) (c : Nat) : Bool := s.regions.any fun r => r.status == 0 && r.ctx == c

/-- The lowest id of the user pool that is free (R406). DESIGN CHOICE (log entry 58). -/
def poolId (s : State) : Option Nat :=
  ((List.range (min 0x7FFF (s.regions.length + 1))).map (· + 0x8000)).find? fun c => !ctxLive s c

/-- Token words lie on memory-side pages, of this package or another (R402, R407). -/
def tokensOk (s : State) (asid : Nat) (e : Eff) : Bool :=
  (List.range (if e.stride = 0 then min e.gangs 1 else e.gangs)).all fun g =>
    match translateNow s 0 asid false .read (tokenVa e g) with
    | .mem _ 2 _ => true
    | .far .. => farKind s 0 asid (tokenVa e g).toNat == 2
    | _ => false

/-- The completion word's page is writable, coherent or memory-side. -/
def completionOk (s : State) (asid : Nat) (e : Eff) : Bool :=
  match translateNow s 0 asid false .write e.completion with
  | .mem _ k _ => k == 0 || k == 2
  | .far .. => let k := farKind s 0 asid e.completion.toNat; k == 0 || k == 2
  | _ => false

/-- The context id given to a region may not be used, or the pool is empty (reason 10). -/
def idBad (s : State) (k : Launcher) : Bool :=
  if k.service then k.ctx == 0 || k.ctx == 0xFFFF || ctxLive s k.ctx else (poolId s).isNone

/-- The reasons for which an RCB is refused (R407). A budget to be inherited from a parent that is not there is no budget outside R402
or R403: the parent is what is refused (reason 7). -/
def refusals (s : State) (b : Rcb) (k : Launcher) : List Nat :=
  let p := parentOf s b
  let e := effOf b (p.map (·.eff))
  let leaf := b.kind == 1
  let bad (n : Nat) (c : Bool) : List Nat := if c then [n] else []
  bad 1 (b.rsv != 0 || groupSet b) ++
  bad 2 (decide (1 < b.kind) || (b.kind == 0 && b.leafBits != 0)) ++
  bad 3 (decide (15 < b.prio) || decide (3 < b.tclass) || decide (16 < b.l2Ways)) ++
  bad 4 (leaf && (decide (e.cores < 1) || decide (8 < e.cores) || decide (e.warps < 1) || decide (32 - e.affine.toNat < e.warps) ||
    decide (e.nregs < 16) || decide (2048 < e.nregs) || e.nregs % 16 != 0 || decide (524288 < e.scratch) || e.scratch % 128 != 0 ||
    decide (4096 < warpsOf e * e.nregs))) ++
  bad 5 (leaf && (e.gangs == 0 || b.entry % 4 != 0 || !canonical e.entry || !canonical e.params)) ++
  bad 6 (!(inherits b 2 && p.isNone) &&
    (decide (e.maxCores < 1) || decide (2048 < e.maxCores) || decide (512 < e.kilnMib) || (leaf && decide (e.maxCores < e.cores))) ||
    (match p with
     | some r => decide (r.eff.prio < e.prio) || decide (r.eff.maxCores < e.maxCores) || decide (r.eff.kilnMib < e.kilnMib) ||
         decide (waysOf r.eff.l2Ways < waysOf e.l2Ways)
     | none => false)) ++
  bad 7 ((b.parent != 0 && p.isNone) || (b.parent == 0 && bitAt b.flags 0)) ++
  bad 8 (leaf && (b.stride % 4 != 0 || b.token != 0 && (b.token % 4 != 0 || !tokensOk s k.asid e))) ++
  bad 9 (leaf && (b.completion % 8 != 0 || !completionOk s k.asid e || e.exitArea.toNat % 64 != 0 || e.saveArea.toNat % 4096 != 0)) ++
  bad 10 (idBad s k) ++
  bad 12 (bitAt b.flags 7 && (!k.service || k.ring != 0))

/-- The handle of R406. -/
def handleOf (ctx gen : Nat) : Nat := ctx + 2 ^ 16 * (gen % 2 ^ 32)

/-- A region registered (R403, R406). -/
def registerRegion (s : State) (b : Rcb) (rcb : DWord) (k : Launcher) : Nat × State :=
  let p := parentOf s b
  let ctx := if k.service then k.ctx else (poolId s).getD 0
  let gen := (s.gen + 1) % 2 ^ 32
  let h := handleOf ctx gen
  let r : Region :=
    { handle := h, ctx := ctx, asid := BitVec.ofNat 16 k.asid, service := bitAt b.flags 7, leaf := b.kind == 1,
      parent := p.map (·.handle), eff := effOf b (p.map (·.eff)), order := s.nextId, launchTime := s.clock, ring := k.ring, rcb := rcb }
  (h, { s with gen := gen, nextId := s.nextId + 1, regions := s.regions ++ [r] })

/-- The 256 bytes of an RCB of this package or the host, read in an ASID; none where the page cannot be translated or read (reason 11). -/
def rcbBytes (s : State) (asid : Nat) (user : Bool) (a : DWord) : Option (List Byte) :=
  match translateNow s 0 asid user .read a with
  | .mem pa _ _ => if homeDead s pa then none else some (readVa s asid a.toNat 256)
  | .host _ => if s.linkw == 0 then none else some (readVa s asid a.toNat 256)
  | _ => none

/-- The 256 bytes as an agent gets them: another package's are asked for first, and the answer is none until they are here. -/
def rcbGet (s : State) (owner asid : Nat) (user : Bool) (a : DWord) : Option (Option (List Byte)) × State :=
  match translateNow s 0 asid user .read a with
  | .far pkg _ =>
    (match farBytes s owner a.toNat 32 with
     | none => (none, askUnitsOf s owner asid user pkg a.toNat 32)
     | some r => (some (if r.1 = 0 then some r.2 else none), dropFar s owner a.toNat 32))
  | _ => (some (rcbBytes s asid user a), s)

/-- LAUNCH carried out: the reply, a handle or a refusal word (R407); of an RCB that cannot be read only the context id can break a rule of a lower
number. After an alarm nothing is accepted, and no reason is stated
for it (R454). -/
def launchRegion (s : State) (a : DWord) (bytes : Option (List Byte)) (k : Launcher) : DWord × State :=
  if s.launchLock then let r := s.drawDWord; (r.1 <<< 16, r.2)
  else match bytes with
  | none => (BitVec.ofNat 64 ((if idBad s k then 10 else 11) * 2 ^ 16), s)
  | some bs =>
    let b := rcbOf bs
    match refusals s b k with
    | [] => let r := registerRegion s b a k; (BitVec.ofNat 64 r.1, r.2)
    | n :: _ => (BitVec.ofNat 64 (n * 2 ^ 16), s)

/-- LAUNCH at issue (R407): one reply for the run, outstanding. -/
def execLaunch (h : Hdr) (d a b : Reg) (s : State) : Out :=
  issue (.launch h d a b) s always fun x t =>
    let va := rdP x.w a x.low
    let v := rdV x.w b x.low
    if va.toNat % 256 ≠ 0 then issueTrap x t 0x10 0 x.e 2
    else if canonical va = false then issueTrap x t 0x11 0 x.e 2
    else if t.warpUser x.w = true ∧ v ≠ 0 then issueTrap x t 0x04 0 x.e 2
    else t.modWarp x.w.id fun w => addOut w (outOf x t .p d x.e (.launch va v) none)

/-- The launch a result entry stands for, by a warp; none while its RCB is on its way from another package. DESIGN CHOICE (log entry 58). -/
def launchFor (s : State) (w : Warp) (a : DWord) (v : Word) : Option DWord × State :=
  let user := s.warpUser w
  let asid := s.warpAsid w
  let g := rcbGet s w.id asid user a
  match g.1 with
  | none => (none, g.2)
  | some bytes =>
    let r := launchRegion g.2 a bytes
      { service := !user, ctx := v.toNat % 2 ^ 16, asid := if user then asid else v.toNat / 2 ^ 16, ring := 0 }
    (some r.1, r.2)

/-! ## Tokens (R408, R409) -/

/-- TSIG: posted; its release effect precedes its additions. -/
def execTsig (h : Hdr) (sc : Scope) (x : StAddr) (s : State) : Out :=
  issue (.tsig h sc x) s always fun y t =>
    postEffect y t .st (globalCheck t y false (stGlobal y x) 4) noOff
      fun ls => .tsig sc (ls.map fun l => (l, stGlobal y x l, BitVec.ofNat 32 (stData y .v x l)))

/-- The word of a gang has reached the threshold, now or by an earlier write, or there is none (R408). -/
def tokenHigh (s : State) (r : Region) (g : Nat) : Bool :=
  r.eff.token == 0 || r.crossed.contains g ||
    (match translateNow s 0 r.asid.toNat false .read (tokenVa r.eff g) with
     | .mem pa _ _ => decide (r.eff.threshold ≤ s.loadNat pa 4)
     | .far .. =>
       (match farBytes s (tokenOwner r.handle) ((tokenVa r.eff g).toNat / 8 * 8) 1 with
        | some (0, bs) => decide (r.eff.threshold ≤ leNat ((bs.drop ((tokenVa r.eff g).toNat % 8)).take 4))
        | _ => false)
     | _ => false)

/-- A token word that another package homes is read there again and again, since no rule gives the maltster another sight of it (R408). PRESUMED
(log entry 98). -/
def tokenLook (s : State) (r : Region) (g : Nat) : State :=
  let va := (tokenVa r.eff g).toNat
  match translateNow s 0 r.asid.toNat false .read (tokenVa r.eff g) with
  | .far pkg _ => if s.deadPkgs.contains pkg then s else askUnitsOf (dropFar s (tokenOwner r.handle) (va / 8 * 8) 1) (tokenOwner r.handle) r.asid.toNat false pkg (va / 8 * 8) 1
  | _ => s

/-- The lowest gang index that has not fired. -/
def firstUnfired (r : Region) : Nat := ((List.range (r.fired.length + 1)).find? fun g => !r.fired.contains g).getD 0

/-- A gang becomes ready; without a token word it has been so since the launch (R408, R411). -/
def fireGang (s : State) (r : Region) (g : Nat) : State :=
  let x : Gang := { id := s.nextId, region := r.handle, g := g, st := .ready, readyTime := if r.eff.token == 0 then r.launchTime else s.clock }
  { (s.modRegion r.handle fun y => { y with fired := y.fired ++ [g] }) with nextId := s.nextId + 1, gangs := s.gangs ++ [x] }

/-- TOKEN_CROSSING. -/
def execTokenCrossing (region g : Nat) (s : State) : Out :=
  happens (match s.getRegion region with
    | none => s
    | some r =>
      if r.leaf && r.status == 0 && decide (g < r.eff.gangs) && !r.fired.contains g then
        (if tokenHigh s r g then fireGang s r g else tokenLook s r g)
      else s)

end Sys2Proof.Machine
end

