-- ==== Sys2Proof/Machine/Place.lean ====
section
/-! DEFINITION. The maltster's placement (R412, R413, R415, R430), the launch values of a gang (R74, R182, R410), pre-emption and
its choices (R416, R420 to R424). -/

namespace Sys2Proof.Machine

/-! ## Room (R171, R172, R405) -/

def ticksMs : Nat := 1000 * Config.ticksPerUs

/-- The effective values of a workgroup's region. -/
def wgEff (s : State) (g : Workgroup) : Eff := (((s.getGang g.gang).bind fun y => s.getRegion y.region).map (·.eff)).getD {}

/-- Banks that a workgroup takes (R182). -/
def banksFor (scratch : Nat) : Nat := (scratch + 0x3FFF) / 0x4000

/-- The workgroups that keep a core, but for those of some gangs. -/
def groupsOn (s : State) (c : CoreId) (gone : List Nat) : List Workgroup := s.wgs.filter fun g => g.core == c && !gone.contains g.gang

/-- Room on a core for one more workgroup, with a number of warp slots; a draining workgroup has given up its slots and
registers (R417). -/
def coreFits (s : State) (e : Eff) (slots : Nat) (gone : List Nat) (c : CoreId) : Bool :=
  let ws := groupsOn s c gone
  let live := (ws.filter fun g => !g.draining).map (wgEff s)
  let w := live.foldl (fun acc x => acc + warpsOf x) 0
  let r := live.foldl (fun acc x => acc + warpsOf x * x.nregs) 0
  let b := ws.foldl (fun acc g => acc + g.banks.length) 0
  decide (ws.length < Config.residentGroups) && decide (w + warpsOf e ≤ slots) && decide (r + warpsOf e * e.nregs ≤ Config.warpRegisters) &&
    decide (b + banksFor e.scratch ≤ 32)

/-- A logical core that is served (R271, R272). -/
def served (s : State) (c : CoreId) : Bool :=
  let x := s.getCluster (cluOf c)
  !(s.getDie c.die).dead && !x.out && physOf x c.core != 15 && !(s.getCore c).retiring

/-- A region and those above it. -/
def ancestors (s : State) : Nat → Region → List Region
  | 0, r => [r]
  | n + 1, r => r :: (match r.parent.bind s.getRegion with | some p => ancestors s n p | none => [])

/-- Cores that the gangs below a region occupy, but for some gangs (R404, R405). -/
def occupied (s : State) (top : Nat) (gone : List Nat) : Nat :=
  (s.gangs.filter fun g => !gone.contains g.id && (s.wgs.any fun w => w.gang == g.id) &&
      (match s.getRegion g.region with | some r => below s top s.regions.length r | none => false)).foldl
    (fun acc g => acc + (((s.getRegion g.region).map (·.eff.cores)).getD 0)) 0

def budgetOk (s : State) (r : Region) (gone : List Nat) : Bool :=
  (ancestors s s.regions.length r).all fun a => decide (occupied s a.handle gone + r.eff.cores ≤ a.eff.maxCores)

/-! ## Spans (R273, R296, R413) -/

/-- A span: die, cluster, first core. -/
abbrev Span := Nat × Nat × Nat

def spanCores (n : Nat) (p : Span) : List CoreId := (List.range n).map fun k => ⟨p.1, p.2.1, p.2.2 + k⟩

/-- ALLOW of a core (R396). -/
def allowOf (s : State) (c : CoreId) : Nat := (s.getCore c).tar.toNat % 256
def lowestAllow (s : State) (cs : List CoreId) : Nat := cs.foldl (fun acc c => min acc (allowOf s c)) 255

/-- The spans of the clusters a gang may use, in the order die, cluster, first core. -/
def spansFor (s : State) (r : Region) : List Span :=
  let tied := (s.clusters.filter fun x => x.cso.toNat == r.ctx).map (·.id)
  (List.range 16).flatMap fun d => (List.range 16).flatMap fun k =>
    if tied.isEmpty || tied.contains ⟨d, k⟩ then (List.range (9 - r.eff.cores)).map fun c => (d, k, c) else []

/-- The span that a test admits whose lowest ALLOW is highest; the first of equals. -/
def bestSpan (s : State) (r : Region) (ok : List CoreId → Bool) : Option Span :=
  (spansFor s r).foldl (fun acc p =>
    let cs := spanCores r.eff.cores p
    if (cs.all (served s)) && ok cs then
      match acc with
      | none => some p
      | some b => if lowestAllow s (spanCores r.eff.cores b) < lowestAllow s cs then some p else acc
    else acc) none

/-- The span that a gang which waits to be placed has reserved (R414, R415). -/
def claim (q : Gang) : Option Span :=
  if q.st == .ready || q.st == .saved || q.st == .preempting then q.reserved else none

/-- A core is not reserved against a gang: the spans of other starved gangs of its priority or above (R415). -/
def unreserved (s : State) (g : Gang) (prio : Nat) (c : CoreId) : Bool :=
  s.gangs.all fun q =>
    match claim q, s.getRegion q.region with
    | some p, some r => q.id == g.id || decide (r.eff.prio < prio) || !(spanCores r.eff.cores p).contains c
    | _, _ => true

/-- A gang of a region runs. -/
def hasRunning (s : State) (r : Region) : Bool := s.gangs.any fun g => g.region == r.handle && g.st == .running

/-- Warp slots open to a gang: a saved gang of a running region may also take the restore slot (R430). -/
def slotsFor (s : State) (g : Gang) (r : Region) : Nat := Config.warpSlots + (g.st == .saved && hasRunning s r).toNat

/-- Cores that have room for a gang, the restore slot of a saved one counted, and that nobody has reserved against it. -/
def spanFits (s : State) (g : Gang) (r : Region) (cs : List CoreId) : Bool :=
  cs.all fun c => unreserved s g r.eff.prio c && coreFits s r.eff (slotsFor s g r) [] c

/-- A saved gang of the region fits on these cores: no ready gang of it is placed there (R412). -/
def savedFirst (s : State) (g : Gang) (r : Region) (cs : List CoreId) : Bool :=
  g.st != .saved && s.gangs.any fun q => q.region == r.handle && q.st == .saved && spanFits s q r cs

/-- The span on which a gang can be placed now: the best of those that fit (R413), or the one to which rotation sends it while it
fits (R414) in a cluster that the gang may use (R296). -/
def spanFor (s : State) (g : Gang) (r : Region) : Option Span :=
  let fits (cs : List CoreId) : Bool := spanFits s g r cs && !savedFirst s g r cs
  let sent : Option Span := if g.rotating then g.reserved else none
  if budgetOk s r [] then
    match sent with
    | some p =>
      let cs := spanCores r.eff.cores p
      if (spansFor s r).contains p && (cs.all (served s)) && fits cs then some p else bestSpan s r fits
    | none => bestSpan s r fits
  else none

/-! ## A new gang (R74, R182, R410) -/

/-- The banks that a workgroup gets: the lowest free ones of the core. DESIGN CHOICE (log entry 83). -/
def freeBanksOf (s : State) (c : CoreId) (n : Nat) : List Nat :=
  let used := (groupsOn s c []).flatMap (·.banks)
  ((List.range 32).filter fun b => !used.contains b).take n

/-- Banks tagged for a context, with contents: byte i of the workgroup's banks, where it is not 0. -/
def tagBanks (s : State) (c : CoreId) (bs : List Nat) (ctx : Nat) (fill : List (Nat × Byte)) : State :=
  s.modCore c fun x =>
    { x with
      owner := bs.foldl (fun acc b => sput 0 acc b (BitVec.ofNat 16 ctx)) x.owner
      scratch := fill.foldl (fun acc p => sput 0 acc (((bs[p.1 / 0x4000]?).getD 0) * 0x4000 + p.1 % 0x4000) p.2)
        (x.scratch.filter fun y => !bs.contains (y.1 / 0x4000)) }

/-- `sr.warp` of the warps of a workgroup. -/
def warpIdx (e : Eff) : List Nat := List.range e.warps ++ if e.affine then [32] else []

/-- A warp with the launch values. -/
def freshWarp (id wg idx : Nat) (e : Eff) (stamp : Nat) : Warp :=
  { id := id, wg := wg, idx := idx, lanes := List.replicate 32 { pc := e.entry, rgn := e.entry }, stamp := stamp }

/-- One member placed with the launch values and the effect of ACQ.sys (R410); what the workgroup has issued before a flush still counts
(R421). -/
def placeMember (s : State) (g : Gang) (r : Region) (m : Nat) (c : CoreId) : State :=
  let bs := freeBanksOf s c (banksFor r.eff.scratch)
  let s1 := tagBanks s c bs r.ctx []
  let wg := s1.nextId
  let ids := warpIdx r.eff
  let ws := (List.range ids.length).map fun i => freshWarp (wg + 1 + i) wg ((ids[i]?).getD 0) r.eff (wg + 1 + i)
  let s2 := { s1 with
    nextId := wg + 1 + ids.length
    wgs := s1.wgs ++ [{ id := wg, gang := g.id, member := m, core := c, scratch := r.eff.scratch, banks := bs,
                           ret := ((g.savedWgs.find? fun x => x.member == m).map (·.ret)).getD 0 }]
    warps := s1.warps ++ ws }
  match ws with
  | w :: _ => acquireEffects s2 w .sys
  | [] => s2

/-- A gang placed on a span: its members all at once, with a fresh gang context (R273, R292). -/
def placeFresh (s : State) (g : Gang) (r : Region) (p : Span) : State :=
  let s1 := s.modGang g.id fun y =>
    { y with
      st := .running
      placed := s.nextId
      die := p.1
      clu := p.2.1
      c0 := p.2.2
      bars := []
      recs := []
      savedWgs := []
      starved := false
      reserved := none
      rotating := false
      victims := []
      action := .none }
  let cs := spanCores r.eff.cores p
  (List.range r.eff.cores).foldl (fun acc m => placeMember acc g r m ((cs[m]?).getD default)) { s1 with nextId := s.nextId + 1 }

/-! ## Pre-emption (R416, R420 to R424) -/

/-- `Choose` (R421). -/
def chooseAction (e : Eff) (g : Gang) : Choice3 :=
  let near := e.expected != 0 && decide (9 * e.expected ≤ 10 * g.ret)
  let flushable := e.idempotent && !e.det && !g.posted && (e.policy == 3 || (e.expected != 0 && decide (4 * g.ret < e.expected)))
  if e.policy == 1 then .drain
  else if (e.policy == 0 || e.policy == 3) && near then .drain
  else if e.policy != 2 && flushable then .flush
  else if e.saveArea != 0 then .save
  else .drain

/-- The workgroups and warps of a gang. -/
def gangGroups (s : State) (g : Nat) : List Workgroup := s.wgs.filter fun w => w.gang == g

/-- A save begins: the warps that wait already, asleep, at a mask, a park point or a WAITC, have come to their stop (R424). -/
def stopIdle (s : State) (g : Nat) : State :=
  let ids := (gangGroups s g).map (·.id)
  let waits (w : Warp) : Bool := headRun w == 0 || w.parked || w.point.isSome || waitcHolds w
  { s with warps := s.warps.map fun w => if ids.contains w.wg && waits w then { w with stopped := true } else w }

/-- A flush stops the gang at once and discards its warps, planes and unflushed entries (R423). -/
def flushNow (s : State) (g : Nat) : State :=
  let gs := gangGroups s g
  let ws := (gangWarps s g).map (·.id)
  let s1 := removeGroups { s with racks := s.racks.filter fun k => !ws.contains k.w } fun w => w.gang == g
  s1.modGang g fun y => { y with savedWgs := gs, bars := [], recs := [] }

/-- A gang enters pre-empting with an action (R420). -/
def startPreempt (s : State) (g : Nat) (c : Choice3) : State :=
  let s1 := s.modGang g fun y =>
    { y with st := .preempting, preempts := min (y.preempts + 1) 0xFFFF, choice := c, action := c, actionAt := s.clock }
  match c with
  | .flush => flushNow s1 g
  | .save => stopIdle s1 g
  | _ => s1

/-- The gangs that may be taken from a span for a priority, in the order in which they are taken (R416): inserted by priority,
then by the latest placement. -/
def insertVictim (s : State) (v : Gang) : List Gang → List Gang
  | [] => [v]
  | x :: xs =>
    let p (g : Gang) : Nat := ((s.getRegion g.region).map (·.eff.prio)).getD 0
    if p v < p x || (p v == p x && decide (x.placed < v.placed)) then v :: x :: xs else x :: insertVictim s v xs

def victimsOn (s : State) (prio : Nat) (cs : List CoreId) : List Gang :=
  ((s.gangs.filter fun v => v.st == .running && (match s.getRegion v.region with | some r => decide (r.eff.prio < prio) | none => false) &&
    s.wgs.any fun w => w.gang == v.id && cs.contains w.core)).foldl (fun acc v => insertVictim s v acc) []

/-- The victims taken one at a time until the gang fits; none when it never does. DEDUCED (log entry 55). -/
def takeVictims (s : State) (r : Region) (slots : Nat) (cs : List CoreId) : List Nat → List Gang → Option (List Nat)
  | gone, [] => if (cs.all fun c => coreFits s r.eff slots gone c) && budgetOk s r gone then some gone else none
  | gone, v :: rest =>
    if (cs.all fun c => coreFits s r.eff slots gone c) && budgetOk s r gone then some gone
    else takeVictims s r slots cs (gone ++ [v.id]) rest

/-- The victims of the span that needs the fewest; among equals the order of R413. -/
def bestVictims (s : State) (g : Gang) (r : Region) : Option (List Nat × Span) :=
  ((spansFor s r).foldl (fun (acc : Option (List Nat × Nat × Span)) p =>
    let cs := spanCores r.eff.cores p
    if cs.all fun c => served s c && unreserved s g r.eff.prio c then
      match takeVictims s r (slotsFor s g r) cs [] (victimsOn s r.eff.prio cs) with
      | some vs =>
        let low := lowestAllow s cs
        (match acc with
         | none => some (vs, low, p)
         | some b => if vs.length < b.1.length || (vs.length == b.1.length && decide (b.2.1 < low)) then some (vs, low, p) else acc)
      | none => acc
    else acc) none).map fun b => (b.1, b.2.2)

/-- A gang that cannot be placed pre-empts, unless the gangs it has pre-empted have not all left (R416); the span that they leave is kept for it,
which comes before what the order of R412 places later. DEDUCED (log entry 55). -/
def preemptFor (s : State) (g : Gang) (r : Region) : State :=
  if g.victims.any fun v => match s.getGang v with | some y => y.st == .preempting || y.st == .draining | none => false then s
  else match bestVictims s g r with
  | none => s
  | some (vs, p) =>
    vs.foldl (fun acc v =>
      match acc.getGang v with
      | some y => startPreempt acc v (chooseAction (((acc.getRegion y.region).map (·.eff)).getD {}) y)
      | none => acc) (s.modGang g.id fun y => { y with victims := vs, reserved := if vs.isEmpty then y.reserved else y.reserved.or (some p) })

/-- DRAIN_TIMEOUT: a drain of policy 0 or 3 that has not ended in 2 ms becomes a save (R422). -/
def execDrainTimeout (gang : Nat) (s : State) : Out :=
  happens (match s.getGang gang with
    | none => s
    | some g =>
      let e := ((s.getRegion g.region).map (·.eff)).getD {}
      if g.st == .preempting && g.action == .drain && (e.policy == 0 || e.policy == 3) && e.saveArea != 0 &&
          decide (g.actionAt.toNat + 2 * ticksMs ≤ s.clock.toNat) then
        stopIdle (s.modGang gang fun y => { y with choice := .save, action := .save, actionAt := s.clock }) gang
      else s)

/-- SAVE_STOP_TIMEOUT: 20 µs after a save began every warp of the gang stops (R424). -/
def execSaveStopTimeout (gang : Nat) (s : State) : Out :=
  happens (match s.getGang gang with
    | none => s
    | some g =>
      if g.st == .preempting && g.action == .save && decide (g.actionAt.toNat + 20 * Config.ticksPerUs ≤ s.clock.toNat) then
        let ids := (gangGroups s gang).map (·.id)
        { s with warps := s.warps.map fun w => if ids.contains w.wg then { w with stopped := true } else w }
      else s)

/-- What stays of a flushed workgroup: its member number and the instructions it has issued (R421, R423). -/
def flushedGroup (g : Workgroup) : Workgroup :=
  { id := g.id, gang := g.gang, member := g.member, core := g.core, scratch := 0, banks := [], lfm := g.lfm, ret := g.ret }

/-- FLUSH_COMPLETE: the copies of the gang have ended and it is ready again (R423); the counts of R421 go on. -/
def execFlushComplete (gang : Nat) (s : State) : Out :=
  happens (match s.getGang gang with
    | none => s
    | some g =>
      if g.st == .preempting && g.action == .flush && !(s.copies.any fun c => g.savedWgs.any fun w => w.id == c.wg) then
        s.modGang gang fun y => { y with st := .ready, action := .none, savedWgs := y.savedWgs.map flushedGroup }
      else s)

end Sys2Proof.Machine
end

