-- ==== Sys2Proof/Machine/Save.lean ====
section
/-! DEFINITION. Saving a gang and restoring it: the save record (R426, R427), the barrier record (R291, R292), the wort table
(R357), SAVE_COMPLETE (R425) and the restore (R340, R428). -/

namespace Sys2Proof.Machine

/-! ## The record (R291, R426, R427) -/

def padTo (n : Nat) (bs : List Byte) : List Byte := bs ++ List.replicate (n - bs.length) 0
def roundUp (x n : Nat) : Nat := (x + n - 1) / n * n

/-- Bytes of a warp block, of the queue entries, and of the planes. -/
def warpBlock : Nat := 0x3000
def queueBytes : Nat := 0x10000
def planeBytes : Nat := 8448

/-- Offsets within the section of a member: warp blocks, v registers, scratch, queues, planes, end. -/
def secV (e : Eff) : Nat := 256 + warpsOf e * warpBlock
def secScratch (e : Eff) : Nat := secV e + warpsOf e * e.nregs * 128
def secQueues (e : Eff) : Nat := secScratch e + roundUp e.scratch 128
def secPlanes (e : Eff) : Nat := secQueues e + queueBytes
def secSize (e : Eff) : Nat := roundUp (secPlanes e + 2 * planeBytes) 256

/-- Offsets within the record. -/
def recSection (e : Eff) (m : Nat) : Nat := 256 + m * secSize e
def recBars (e : Eff) : Nat := recSection e e.cores
def recWorts (e : Eff) : Nat := recBars e + roundUp (512 + 288 * (e.cores * warpsOf e)) 256
def recSize (e : Eff) : Nat := roundUp (recWorts e + 2048) 4096

/-- Save slots of a region (R412). -/
def slotCount (e : Eff) : Nat := e.maxCores / max e.cores 1

/-- Kind, deadline, address and awaited value of a sleep record. -/
def sleepWords : SleepKind → Nat × Nat × Nat × Nat
  | .clock t => (1, t.toNat, 0, 0)
  | .promise t tag => (2, t.toNat, 0, tag)
  | .bar b => (3, 0, 0, b)
  | .mwait va sc v _ => (4, 0, va.toNat, v.toNat + 2 ^ 32 * scopeCode sc)
  | .waitw mask t => (5, t.toNat, 0, mask.toNat)

def stateCode : LaneState → Nat
  | .ready => 0 | .waiting m => 1 + 8 * m | .sleeping .. => 2 | .held _ => 3 | .exited => 4

def sleepRecord (x : Lane) : List Byte :=
  match x.st with
  | .sleeping k _ => let p := sleepWords k; leBytes 8 p.1 ++ leBytes 8 p.2.1 ++ leBytes 8 p.2.2.1 ++ leBytes 8 p.2.2.2
  | _ => List.replicate 32 0

def armBytes (a : Arm) : List Byte := leBytes 8 (a.line * 128 + a.armed.toNat + 2 * a.fired.toNat) ++ leBytes 8 a.expiry.toNat

/-- The predicates of a lane, one bit each. -/
def predBytes (w : Warp) (l : Nat) : List Byte :=
  leBytes 16 ((List.range 128).foldl (fun acc p => acc + 2 ^ p * (sget false w.q (32 * p + l)).toNat) 0)

/-- The replay window of a sender: 8 entries of 128 bytes for each queue. -/
def windowBytes (g : Workgroup) (w : Nat) : List Byte :=
  (List.range 8).flatMap fun q =>
    padTo 1024 (match g.senders.find? fun d => d.id == w && d.q == q with
      | some d => (d.window.take 8).flatMap fun e => padTo 128 (e.2.2.flatMap fun v => leBytes 4 v.toNat)
      | none => [])

/-- A warp block (R427). -/
def warpBytes (g : Workgroup) (w : Warp) : List Byte :=
  let lanes (f : Lane → List Byte) : List Byte := w.lanes.flatMap f
  lanes (fun x => leBytes 8 x.pc.toNat) ++ lanes (fun x => leBytes 8 x.rgn.toNat) ++ lanes (fun x => leBytes 4 x.rgnc.toNat) ++
    lanes (fun x => leBytes 4 x.fpx.toNat) ++ ((List.range 64).flatMap fun k => leBytes 4 (sget 0 w.w k).toNat) ++
    lanes (fun x => leBytes 1 (stateCode x.st)) ++ ((List.range 12).flatMap fun k => leBytes 4 (sget 0 w.m k).toNat) ++
    ((List.range 8).flatMap fun k => leBytes 1 ((w.ctrs[k]?).getD []).length) ++
    leBytes 4 w.fpc.toNat ++ leBytes 4 w.qbo.toNat ++ leBytes 4 w.lfm.toNat ++ leBytes 4 w.mxSeq.toNat ++
    leBytes 8 w.htvec.toNat ++ leBytes 8 w.hpc.toNat ++ leBytes 8 w.hsub.toNat ++
    leBytes 4 w.hmask.toNat ++ leBytes 4 w.hdst.toNat ++ leBytes 4 w.hcause.toNat ++
    leBytes 4 (w.inTrap.toNat + 2 * w.hpcWritten.toNat) ++ w.arms.flatMap armBytes ++ leBytes 48 0 ++
    lanes (fun x => leBytes 8 x.resume.toNat) ++ lanes sleepRecord ++ ((List.range 32).flatMap (predBytes w)) ++
    leBytes 1024 0 ++ windowBytes g w.id

def planeRecord (p : Plane) : List Byte :=
  padTo 8192 (p.tile.take 8192) ++ padTo 128 (p.scales.take 128) ++ leBytes 1 (WFmt.code p.fmt) ++ leBytes 1 p.valid.toNat ++ leBytes 126 0

/-- The warps of a workgroup, the access warp last. -/
def wgWarps (ws : List Warp) (e : Eff) (wg : Nat) : List Warp :=
  (warpIdx e).filterMap fun i => ws.find? fun w => w.wg == wg && w.idx == i

def blankWarp : Warp := { id := 0, wg := 0, idx := 0, lanes := List.replicate 32 { st := .exited } }

/-- The warps of a workgroup with a place for each that the region gives it. -/
def blockWarps (ws : List Warp) (e : Eff) (wg : Nat) : List Warp :=
  (warpIdx e).map fun i => (ws.find? fun w => w.wg == wg && w.idx == i).getD blankWarp

/-- The section of a member (R427). -/
def sectionBytes (s : State) (e : Eff) (g : Workgroup) (ws0 : List Warp) : List Byte :=
  let ws := blockWarps ws0 e g.id
  let c := s.getCore g.core
  let n := roundUp e.scratch 128
  padTo 256 (leBytes 4 (warpsOf e) ++ leBytes 4 e.nregs ++ leBytes 4 e.npreds ++ leBytes 4 e.scratch) ++
    ws.flatMap (warpBytes g) ++
    (ws.flatMap fun w => (List.range (32 * e.nregs)).flatMap fun k => leBytes 4 (sget 0 w.v k).toNat) ++
    ((List.range n).map fun k => sget 0 c.scratch (((g.banks[k / 0x4000]?).getD 0) * 0x4000 + k % 0x4000)) ++
    (g.queues.flatMap fun q => padTo 8192 (q.flatMap fun x => padTo 128 (x.flatMap fun v => leBytes 4 v.toNat))) ++
    planeRecord g.active ++ planeRecord g.shadow

/-- The head of a barrier without its sleepers (R225, R291). -/
def headWord (h : BarHead) : Nat := h.arr + 2 ^ 14 * h.expn + 2 ^ 28 * h.ovr.toNat + 2 ^ 32 * h.ph.toNat

def waiterByte (x : Lane) : Nat := match x.st with | .sleeping (.bar b) _ => 0x80 + b | _ => 0

/-- The barrier record (R291). -/
def barRecord (y : Gang) (gs : List Workgroup) (ws : List Warp) (e : Eff) : List Byte :=
  ((List.range 64).flatMap fun b => leBytes 8 (headWord (barGet y b))) ++
    gs.flatMap fun g => (blockWarps ws e g.id).flatMap fun w =>
      (w.lanes.flatMap fun x => leBytes 1 (waiterByte x)) ++
        (List.range 64).flatMap fun b =>
          leBytes 4 (match y.recs.find? fun r => r.1 == (g.member, w.idx, b) with
            | some r => r.2.toNat + 2 ^ 16
            | none => 0)

/-- An entry of the wort table: the descriptor of R346 with the region's state in its reserved byte. -/
def wortRecord (r : Region) (id : Nat) : List Byte :=
  match wortOf r id with
  | none => leBytes 32 0
  | some x =>
    if x.st == .closed then leBytes 32 0
    else leBytes 8 x.base.toNat ++ leBytes 4 x.lines ++ leBytes 1 x.scale.toNat ++ leBytes 1 x.fmt.toNat ++ leBytes 1 (scopeCode x.scope) ++
      leBytes 1 (wortCode x.st) ++ leBytes 8 x.shadow.toNat ++ leBytes 4 x.expect ++ leBytes 4 0

def progressOf (ret expected : Nat) : Nat := if expected = 0 then 255 else min 255 (ret * 100 / expected)

/-- The cluster a context is tied to (R296). -/
def tiedCluster (s : State) (ctx : Nat) : Nat :=
  match s.clusters.find? fun x => x.cso.toNat == ctx with | some x => x.id.die * 16 + x.id.clu | none => 0xFFFF

/-- The header (R426). -/
def recordHeader (s : State) (r : Region) (y : Gang) (status : Nat) : List Byte :=
  let e := r.eff
  padTo 256 (leBytes 2 1 ++ leBytes 2 r.ctx ++ leBytes 2 r.asid.toNat ++ leBytes 1 (choiceCode y.choice) ++ leBytes 1 status ++ leBytes 8 r.handle ++
    leBytes 4 y.g ++ leBytes 2 y.preempts ++ leBytes 1 e.cores ++ leBytes 1 (progressOf y.ret e.expected) ++ leBytes 8 y.ret ++
    leBytes 8 s.clock.toNat ++ leBytes 2 (tiedCluster s r.ctx) ++ leBytes 6 0 ++
    ((List.range 8).flatMap fun m => leBytes 8 (if m < e.cores then recSection e m else 0)) ++ leBytes 8 (recBars e) ++ leBytes 8 (recWorts e))

/-- The workgroups of a gang by member, and its warps. -/
def membersOf (s : State) (y : Gang) : List Workgroup :=
  (List.range 8).filterMap fun m => s.wgs.find? fun g => g.gang == y.id && g.member == m

/-- The whole record of a resident gang. DESIGN CHOICE (log entry 51). -/
def saveRecord (s : State) (r : Region) (y : Gang) (status : Nat) : List Byte :=
  let gs := membersOf s y
  let ws := gangWarps s y.id
  let e := r.eff
  padTo (recSize e)
    (recordHeader s r y status ++
      (gs.flatMap fun g => padTo (secSize e) (sectionBytes s e g ws)) ++
      padTo (recWorts e - recBars e) (barRecord y gs ws e) ++
      (List.range 64).flatMap (wortRecord r))

/-! ## SAVE_COMPLETE (R425) -/

/-- The entries that a save flushes: those that hold a contribution of a warp of the workgroups (R254, R257). -/
def flushGroups (s : State) (gs : List Workgroup) : State :=
  gs.foldl (fun acc g => flushEntries acc g.core fun e =>
    e.owners.any fun o => acc.warps.any fun w => w.id == o.1 && w.wg == g.id) s

/-- The reads that may stay while a gang is saved: an MWAIT's, and the entry of an LDQ that faulted (R209). DEDUCED (log entry 53). -/
def mayStay (o : Outst) : Bool := match o.res with | .mwait => true | .ldq .. => o.lanes &&& ~~~ o.faulted == 0 | _ => false

/-- One item of a posted store of coherent memory handed on: it has left the core, and its write waits at the home for the holders of its line
(R389, R425). None where it is not one that can be. -/
def handItem (s : State) (w : Warp) (p : PStore) (x : Nat × DWord × RemoteOp) : Option State :=
  match x.2.2 with
  | .store bs =>
    if wortHomeHit s p.asid x.2.1.toNat bs.length then none
    else
      let r := translateHome s p.asid (s.warpUser w) .write x.2.1
      (match r.1 with
       | .mem pa 0 _ =>
         if homeDead s pa then none
         else
           let out (q : PStore) : PStore :=
             { dropItems q (fun l => l != x.1) with window := q.window + 1, flown := q.flown ++ [(x.2.1.toNat, bs.length)], sent := true }
           some (homeWrite (r.2.modWarp w.id fun y => { y with stores := updAt (fun q => q.tag == p.tag) out y.stores })
             { who := some (p.asid, x.2.1.toNat), pa := pa, bytes := bs, store := some (w.id, p.tag) })
       | _ => none)
  | _ => none

/-- The items of a store handed on in lane order; the first component says that none is left. -/
def handItems (s : State) (w : Warp) (p : PStore) : List (Nat × DWord × RemoteOp) → Bool × State
  | [] => (true, s)
  | x :: xs => match handItem s w p x with
    | some t => handItems t w p xs
    | none => (false, s)

/-- A store to coherent memory, or a scatter. -/
def plainStore : StoreOp → Bool
  | .write sp _ => sp == .global || sp == .early || sp == .home
  | .scatter _ => true
  | _ => false

/-- The stores of a warp that is to be saved go on without it: they are handed on in warp order, up to the first that cannot be. -/
def handStores (s : State) (w : Warp) : List PStore → State
  | [] => s
  | p :: ps =>
    if (storeParts p).isEmpty then handStores s w ps
    else if plainStore p.op && p.retryAt.isNone then
      let r := handItems s w p (storeParts p)
      if r.1 then handStores r.2 w ps else r.2
    else s

/-- The warps of a gang that have stopped hand their stores on, once nothing of them is outstanding (R425). -/
def handGang (s : State) (ws : List Warp) : State :=
  ws.foldl (fun acc w => if w.stopped && w.outs.isEmpty && w.reads.all mayStay then handStores acc w w.stores else acc) s

/-- What a save waits for: R424 for every warp, R84, that its stores have left the core, R257 and R357. DEDUCED (log entry 53). -/
def saveReady (s : State) (r : Region) (gs : List Workgroup) (ws : List Warp) : Bool :=
  let mine (w : Nat) : Bool := ws.any fun x => x.id == w
  (ws.all fun w => (w.stopped || liveSet w == 0) && w.outs.isEmpty && (w.stores.all fun p => (storeParts p).isEmpty) && w.hold.isNone &&
    w.reads.all mayStay) &&
  (gs.all fun g =>
    let en := (s.getCore g.core).engine
    (en.queue.all fun o => o.wg != g.id) && (en.buffer.all fun e => e.owners.all fun o => !mine o.1) && (en.draining.all fun d => !mine d.1.w) &&
      en.mrst.all fun d => !mine d.1) &&
  (s.contribs.all fun c => c.add.ctx != r.ctx) &&
  s.racks.all fun k => !mine k.w || (k.mode == .wait && k.phase == .waiting)

/-- Save slots that gangs of a region hold. -/
def slotsUsed (s : State) (r : Region) : List Nat := (s.gangs.filter fun y => y.region == r.handle).filterMap (·.slot)

/-- The lowest free slot; a region without a save area has none. DEDUCED (log entry 54). -/
def freeSlot (s : State) (r : Region) : Option Nat :=
  if r.eff.saveArea == 0 then none else (List.range (slotCount r.eff)).find? fun k => !(slotsUsed s r).contains k

def slotVa (r : Region) (k : Nat) : Nat := r.eff.saveArea.toNat + k * recSize r.eff

/-- A RACK.W in its wait phase is abandoned; its region's core copy is dropped with the others (R357). -/
def abandonRacks (s : State) (ws : List Warp) : State :=
  let mine (k : Rack) : Bool := ws.any fun x => x.id == k.w
  let s1 := (s.racks.filter mine).foldl (fun acc k =>
    match rackEntry acc k with
    | some (r, x) => modWort acc r.ctx x.id fun z => { z with rackCores := z.rackCores.erase k.core }
    | none => acc) s
  { s1 with racks := s1.racks.map fun k => if mine k then { k with deadline := none } else k }

/-- The gang leaves its cores: what it holds beyond the record stays with it, its banks, slots and registers are free (R425). -/
def leaveCores (s : State) (y : Gang) (gs : List Workgroup) (ws : List Warp) (st : GangState) (slot : Option Nat) : State :=
  let s1 := gs.foldl freeBanks (abandonRacks s ws)
  let s2 := s1.modGang y.id fun z => 
    { z with
      st := st, slot := slot, savedWarps := ws.map fun w => { w with savedC := w.ctrs.map (·.length) }, savedWgs := gs, svTarget := none,
      action := .none, actionAt := s.clock, placed := s.nextId }
  { s2 with
    nextId := s.nextId + 1
    wgs := s2.wgs.filter fun g => g.gang != y.id
    warps := s2.warps.filter fun w => !(ws.any fun x => x.id == w.id) }

/-- SAVE_COMPLETE: the buffer entries leave; once nothing is left to wait for, the record is written into a slot, or where CTXSV
asked for it, and the gang leaves its cores. -/
def execSaveComplete (gang : Nat) (s : State) : Out :=
  happens (match s.getGang gang with
    | none => s
    | some y =>
      match s.getRegion y.region with
      | none => s
      | some r =>
        if y.st != .preempting || y.action != .save then s
        else
          let gs := membersOf s y
          let s0 := flushGroups s gs
          let s1 := handGang s0 (gangWarps s0 gang)
          let ws := gangWarps s1 gang
          if !saveReady s1 r gs ws then s1
          else match y.svTarget with
          | some (asid, va, _) => leaveCores (writeVa s1 asid va.toNat (saveRecord s1 r y 1)) y gs ws .held none
          | none =>
            match freeSlot s1 r with
            | some k => leaveCores (writeVa s1 r.asid.toNat (slotVa r k) (saveRecord s1 r y 0)) y gs ws .saved (some k)
            | none => s1)

/-! ## Restoring (R292, R340, R428) -/

/-- A reader of a record: offset and length to a value. -/
abbrev Rd := Nat → Nat → Nat

def scopeOfCode (n : Nat) : Scope := match n with | 0 => .wg | 1 => .core | 2 => .gang | 3 => .clu | 4 => .die | 5 => .dev | _ => .sys

/-- A sleep as its record gives it; where the record is of no kind the lane is ready. -/
def sleepOf (rd : Rd) (off tag : Nat) (next : DWord) : LaneState :=
  let t := BitVec.ofNat 64 (rd (off + 8) 8)
  let v := rd (off + 24) 8
  match rd off 8 with
  | 1 => .sleeping (.clock t) next
  | 2 => .sleeping (.promise t v) next
  | 4 => .sleeping (.mwait (BitVec.ofNat 64 (rd (off + 16) 8)) (scopeOfCode (bitsAt v 32 3)) (BitVec.ofNat 32 v) tag) next
  | 5 => .sleeping (.waitw (BitVec.ofNat 4 v) t) next
  | _ => .ready

def mwaitTagOf (x : Lane) : Nat := match mwaitOf x with | some (_, _, _, tag, _) => tag | none => 0

/-- A barrier wait rebuilt on the restored heads (R292). -/
def barState (heads : Nat → BarHead) (phOf : Nat → Option (BitVec 16)) (b : Nat) (pc : DWord) : DWord × LaneState :=
  let h := heads b
  let passed : Bool := match phOf b with | some p => p != h.ph | none => false
  if h.expn != 0 && !passed then (pc, .sleeping (.bar b) (pc + 8)) else (pc + 8, .ready)

/-- A lane from its record (R87, R427); what the record does not hold stays. DEDUCED (log entry 52). -/
def laneFrom (rd : Rd) (waiter : Nat) (heads : Nat → BarHead) (phOf : Nat → Option (BitVec 16)) (now : DWord) (l : Nat) (x : Lane) : Lane :=
  let pc := BitVec.ofNat 64 (rd (8 * l) 8)
  let next (n : DWord) : DWord := pc + (n - x.pc)
  let code := rd (0x400 + l) 1
  let y : DWord × LaneState :=
    if 0x80 ≤ waiter then barState heads phOf (waiter % 64) pc
    else match code % 8 with
    | 0 => (pc, .ready)
    | 1 => (match x.st with
        | .waiting _ => (pc, if pc == x.pc then .waiting (code / 8) else .ready)
        | _ => (pc, .waiting (code / 8)))
    | 2 => (pc, sleepOf rd (0x600 + 32 * l) (mwaitTagOf x) (match x.st with | .sleeping _ n => next n | _ => pc + 8))
    | 3 => (pc, match x.st with | .held h => .held h | _ => .held .fault)
    | _ => (pc, .exited)
  { x with
    pc := y.1
    st := y.2
    rgn := BitVec.ofNat 64 (rd (0x100 + 8 * l) 8)
    rgnc := BitVec.ofNat 32 (rd (0x200 + 4 * l) 4)
    fpx := BitVec.ofNat 5 (rd (0x280 + 4 * l) 4)
    resume := BitVec.ofNat 64 (rd (0x500 + 8 * l) 8)
    since := now }

/-- Entries of a sparse map read in the order of their keys. -/
def sparseOf (from_ n : Nat) (f : Nat → Nat) : Sparse Word :=
  (List.range n).filterMap fun i => let v := f (from_ + i); if v = 0 then none else some (from_ + i, BitVec.ofNat 32 v)

/-- An arm from its record: armed only while a lease on its line still holds where the warp now runs (R428). -/
def armFrom (s : State) (die asid : Nat) (rd : Rd) (k : Nat) (a : Arm) : Arm :=
  let v := rd (0x490 + 16 * k) 8
  let line := v / 128
  let keep := leaseHolds s die asid line || (farGet s die asid line).isSome
  { a with armed := bitAt v 0, fired := bitAt v 1 || (bitAt v 0 && !keep), line := line, asid := asid
           expiry := BitVec.ofNat 64 (rd (0x498 + 16 * k) 8) }

/-- A counter as the record gives it, less the completions that have come since the save (R428): instructions that service has taken out of
the count are the oldest, and those it has added never complete. DESIGN CHOICE (log entry 51). -/
def ctrFrom (n saved : Nat) (l : List (Nat × Bool)) : List (Nat × Bool) :=
  let want := n - (saved - l.length)
  if want ≤ l.length then l.drop (l.length - want) else l ++ List.replicate (want - l.length) (0, false)

/-- The MWAIT reads of a warp for the lanes that sleep on one, by its issue tag. -/
def mwaitReads (asid : Nat) (lanes : List Lane) (rs : List Outst) : List Outst :=
  let on (t : Nat) : LaneSet := laneSet ((List.range 32).filter fun l => match lanes[l]? with
    | some x => (match mwaitOf x with | some (_, _, _, tag, _) => tag == t | none => false)
    | none => false)
  let kept := (rs.map fun o => if o.res == .mwait then { o with lanes := on o.tag } else o).filter fun o => !(o.res == .mwait && o.lanes == 0)
  if on 0 == 0 then kept
  else kept ++ [{ tag := 0, pc := ((lanes.find? fun x => (mwaitOf x).isSome).map (·.pc)).getD 0, d := 0, file := 0, dsts := [], lanes := on 0,
                  res := .mwait, ctr := none, asid := asid }]

/-- A warp from its block and its v registers, with an empty operand buffer. DESIGN CHOICE (log entry 51). -/
def warpFrom (s : State) (die asid : Nat) (e : Eff) (rd rv rb : Rd) (heads : Nat → BarHead) (w : Warp) : Warp :=
  let phOf (b : Nat) : Option (BitVec 16) := let v := rb (32 + 4 * b) 4; if bitAt v 16 then some (BitVec.ofNat 16 v) else none
  let w32 (off : Nat) : Word := BitVec.ofNat 32 (rd off 4)
  let w64 (off : Nat) : DWord := BitVec.ofNat 64 (rd off 8)
  let inTrap := bitAt (rd 0x48C 4) 0
  let hmask := w32 0x480
  /- While a handler runs, a lane outside it that would be ready is held (R161). -/
  let kept (l : Nat) (x : Lane) : Lane := if inTrap && !hmask.getLsbD l && x.st == .ready then { x with st := .held .handler } else x
  let lanes := w.lanes.mapIdx fun l x => kept l (laneFrom rd (rb l 1) heads phOf s.clock l x)
  { w with
    lanes := lanes
    ctrs := w.ctrs.mapIdx fun k l => ctrFrom (rd (0x450 + k) 1) ((w.savedC[k]?).getD l.length) l
    savedC := []
    stores := []
    reads := mwaitReads asid lanes w.reads
    v := sparseOf 32 (32 * e.nregs - 32) fun k => rv (4 * k) 4
    q := ((List.range (128 * 32)).filter fun k => 32 ≤ k && bitAt (rd (0xA00 + 16 * (k % 32)) 16) (k / 32)).map fun k => (k, true)
    w := sparseOf 1 63 fun k => rd (0x300 + 4 * k) 4
    m := sparseOf 0 12 fun k => rd (0x420 + 4 * k) 4
    fpc := w32 0x458
    qbo := w32 0x45C
    lfm := w32 0x460
    mxSeq := w32 0x464
    htvec := w64 0x468
    hpc := w64 0x470
    hsub := w64 0x478
    hmask := hmask
    hdst := w32 0x484
    hcause := w32 0x488
    inTrap := inTrap
    hpcWritten := bitAt (rd 0x48C 4) 1
    arms := w.arms.mapIdx fun k a => armFrom s die asid rd k a
    opbuf := none
    stopped := false }

/-- A plane from its record. -/
def planeFrom (bs : List Byte) (p : Plane) : Plane :=
  { valid := (bs[8321]?).getD 0 != 0, fmt := WFmt.ofCode ((bs[8320]?).getD 0).toNat
    tile := (bs.take 8192).take p.tile.length, scales := ((bs.drop 8192).take 128).take p.scales.length }

/-- The queues from their entries: as many as stood in each. -/
def queuesFrom (rd : Rd) (qs : List (List QEntry)) : List (List QEntry) :=
  qs.mapIdx fun q l => l.mapIdx fun i _ => (List.range 32).map fun k => BitVec.ofNat 32 (rd (8192 * q + 128 * i + 4 * k) 4)

/-- The replay window of a sender with the entries that the record holds. -/
def replayFrom (rd : Rd) (d : Sender) : Sender :=
  { d with window := d.window.mapIdx fun i e =>
      if e.2.2.isEmpty then e
      else (e.1, e.2.1, (List.range 32).map fun k => BitVec.ofNat 32 (rd (0x1000 + 1024 * d.q + 128 * i + 4 * k) 4)) }

/-- Heads and arrival records from the barrier record. -/
def headFrom (v : Nat) : BarHead := { expn := bitsAt v 14 14, arr := bitsAt v 0 14, ph := BitVec.ofNat 16 (v / 2 ^ 32), ovr := bitAt v 28 }

def recsFrom (rb : Rd) (gs : List Workgroup) (e : Eff) : List ((Nat × Nat × Nat) × BitVec 16) :=
  gs.flatMap fun g => (List.range (warpsOf e)).flatMap fun i => (List.range 64).filterMap fun b =>
    let v := rb (0x220 + 288 * (g.member * warpsOf e + i) + 4 * b) 4
    if bitAt v 16 then some ((g.member, ((warpIdx e)[i]?).getD 0, b), BitVec.ofNat 16 v) else none

/-- What must be written back on the old core before a context moves to another (R340). -/
def moveParts (s : State) (asid : Nat) (c : CoreId) : List KSector × List NcLine :=
  let x := s.getCore c
  ((ownKiln x asid).filter fun k => !(dirtyOf k.bytes).isEmpty, (ownNc x asid).filter fun k => !(dirtyOf k.bytes).isEmpty)

def moveReady (s : State) (asid : Nat) (c : CoreId) : Bool :=
  let p := moveParts s asid c
  p.1.all (sectorOpen s) && p.2.all (ncOpen s)

/-- The migration duties: write-backs on the old core, a new kiln epoch on the new one. -/
def moveContext (s : State) (asid : Nat) (old new : CoreId) : State :=
  if old == new then s
  else
    let p := moveParts s asid old
    let s1 := p.1.foldl (fun acc x => (kWriteBack acc x).modCore old fun y => kPut y { x with bytes := cleanAll x.bytes }) s
    let s2 := p.2.foldl (fun acc x => (writeBack acc x.asid (x.line * 128) x.place (dirtyOf x.bytes)).modCore old fun y =>
      putNc y { x with bytes := cleanAll x.bytes }) s1
    s2.modCore new fun y =>
      { y with kiln := (y.kiln.map fun x =>
          if tagSees asid x.asid && x.kind != 3 then { x with bytes := x.bytes.filter fun e => e.2.2 } else x).filter fun x => !x.bytes.isEmpty }

/-- One member restored on a core from the record. -/
def restoreMember (s : State) (r : Region) (rd : Rd) (heads : Nat → BarHead) (ws : List Warp) (g : Workgroup) (c : CoreId) : State :=
  let e := r.eff
  let sec := recSection e g.member
  let bs := freeBanksOf s c g.banks.length
  let fill := (List.range (roundUp e.scratch 128)).filterMap fun k =>
    let v := rd (sec + secScratch e + k) 1
    if v = 0 then none else some (k, BitVec.ofNat 8 v)
  let s1 := tagBanks s c bs r.ctx fill
  let block (w : Nat) : Rd := fun o n =>
    rd (sec + 256 + ((ws.find? fun x => x.id == w).bind fun x => (warpIdx e).findIdx? (· == x.idx)).getD 0 * warpBlock + o) n
  let plane (k : Nat) : List Byte := (List.range planeBytes).map fun i => BitVec.ofNat 8 (rd (sec + secPlanes e + k * planeBytes + i) 1)
  let g1 : Workgroup := { g with
    core := c
    banks := bs
    queues := queuesFrom (fun o n => rd (sec + secQueues e + o) n) g.queues
    senders := g.senders.map fun d => if ws.any fun x => x.id == d.id then replayFrom (block d.id) d else d
    active := planeFrom (plane 0) g.active
    shadow := planeFrom (plane 1) g.shadow }
  let place (w : Warp) : Nat := ((warpIdx e).findIdx? (· == w.idx)).getD 0
  let ws1 := (wgWarps ws e g.id).map fun w =>
    let i := place w
    warpFrom s c.die r.asid.toNat e (fun o n => rd (sec + 256 + i * warpBlock + o) n) (fun o n => rd (sec + secV e + i * e.nregs * 128 + o) n)
      (fun o n => rd (recBars e + 512 + 288 * (g.member * warpsOf e + i) + o) n) heads w
  let s2 := { s1 with wgs := s1.wgs ++ [g1], warps := s1.warps ++ ws1 }
  let s3 := s2.modRegion r.handle fun z => { z with worts := z.worts.map fun x => if x.opener == g.id then { x with openerCore := c } else x }
  ws1.foldl (fun (acc : State) (w : Warp) =>
    let a : State := { acc with racks := acc.racks.map fun k => if k.w == w.id then { k with core := c } else k }
    let b := (a.racks.filter fun k => k.w == w.id).foldl (fun t k =>
      match rackEntry t k with
      | some (rg, x) => modWort t rg.ctx x.id fun z => { z with rackCores := z.rackCores ++ [c] }
      | none => t) a
    resumeLanes b w.id (w.lanesWhere fun x => x.st == .held .fault)) s3

/-- The address of the slot that holds a gang's record, and the bytes of the record as they have come for the gang. -/
def recordVa (y : Gang) (r : Region) : Nat := slotVa r (y.slot.getD 0)

/-- Every store of a saved gang has reached its event (R340). -/
def storesOver (s : State) (y : Gang) : Bool :=
  y.savedWarps.all fun w => w.stores.all fun p =>
    (storeParts p).isEmpty && p.remote.isEmpty && p.window == 0 && p.frame.all fun f => decide (f ≤ frameNow s)

/-- Whether the record is here, its stores are over and the migration duties can be carried out now (R340, R428). -/
def restoreReady (s : State) (y : Gang) (r : Region) (p : Span) : Bool :=
  let cs := spanCores r.eff.cores p
  storesOver s y && vaHere s (gangOwner y.id) r.asid.toNat (recordVa y r) (recSize r.eff) &&
  y.savedWgs.all fun g => some g.core == cs[g.member]? || moveReady s r.asid.toNat g.core

/-- A saved gang placed on a span: R428 in its order, from the record in its slot. -/
def restoreGang (s : State) (y : Gang) (r : Region) (p : Span) : State :=
  let e := r.eff
  let base := slotVa r (y.slot.getD 0)
  let rd : Rd := fun off n => leNat (vaBytes s (gangOwner y.id) r.asid.toNat (base + off) n)
  let heads (b : Nat) : BarHead := headFrom (rd (recBars e + 8 * b) 8)
  let cs := spanCores e.cores p
  let at_ (m : Nat) : CoreId := (cs[m]?).getD default
  let done (w : Warp) : Warp := w.stores.foldl (fun acc p => countDone acc p.ctr p.tag) w
  let s1 := y.savedWgs.foldl (fun acc g => moveContext acc r.asid.toNat g.core (at_ g.member)) (vaDone s (gangOwner y.id))
  let s2 := { s1.modGang y.id (fun z =>
    { z with
      st := .running
      placed := s.nextId
      die := p.1
      clu := p.2.1
      c0 := p.2.2
      slot := none
      savedWarps := []
      savedWgs := []
      bars := (List.range 64).filterMap fun b => if heads b == {} then none else some (b, heads b)
      recs := recsFrom (fun o n => rd (recBars e + o) n) y.savedWgs e
      starved := false
      reserved := none
      rotating := false
      victims := []
      action := .none }) with nextId := s.nextId + 1 }
  armRacks (y.savedWgs.foldl (fun acc g => restoreMember acc r rd heads (y.savedWarps.map done) g (at_ g.member)) s2)

end Sys2Proof.Machine
end

