-- ==== Sys2Proof/Machine/Maltster.lean ====
section
/-! DEFINITION. The steps of the maltster: placement (R412), rotation (R414), starvation (R415), eviction (R429, R431), draining
and retirement (R417, R418), and the service instructions CTXSV, CTXLD, HARV, TLBI and HALT (R434 to R439). -/

namespace Sys2Proof.Machine

/-! ## The order of placement (R412) -/

/-- Lexicographic order. -/
def keyLess : List Nat → List Nat → Bool
  | a :: as, b :: bs => decide (a < b) || (a == b && keyLess as bs)
  | _, _ => false

/-- The keys of R412: priority, class, ready time, LAUNCH, g. -/
def gangKey (s : State) (y : Gang) : List Nat :=
  match s.getRegion y.region with
  | none => []
  | some r =>
    let cls := if y.st != .saved then 2 else if hasRunning s r then 0 else 1
    [15 - r.eff.prio, cls, y.readyTime.toNat, r.order, y.g]

/-- Ready and saved gangs of live regions. -/
def placeable (s : State) : List Gang :=
  s.gangs.filter fun y => (y.st == .ready || y.st == .saved) && (match s.getRegion y.region with | some r => r.status == 0 | none => false)

/-- The first of them in the order of R412, but for some that do not fit. -/
def nextGang (s : State) (failed : List Nat) : Option Gang :=
  ((placeable s).filter fun y => !failed.contains y.id).foldl (fun acc y =>
    match acc with
    | none => some y
    | some b => if keyLess (gangKey s y) (gangKey s b) then some y else acc) none

/-- A region without token words has every gang ready from its launch: the next of them is named when none is waiting. -/
def fireUntokened (s : State) : State :=
  s.regions.foldl (fun acc r =>
    if r.leaf && r.status == 0 && r.eff.token == 0 && decide (r.fired.length < r.eff.gangs) &&
        !(acc.gangs.any fun y => y.region == r.handle && y.st == .ready) then fireGang acc r (firstUnfired r)
    else acc) s

/-- A gang placed now, if a span has room for it. -/
def tryPlace (s : State) (y : Gang) : Option State :=
  match s.getRegion y.region with
  | none => none
  | some r =>
    match spanFor s y r with
    | none => none
    | some p =>
      if y.st == .saved then (if restoreReady s y r p then some (restoreGang s y r p) else none)
      else some (placeFresh s y r p)

/-! ## Lock holders (R429, R431) -/

/-- The wait of a lane that makes its warp a candidate, and whether it is a sleep. -/
def lockWait : LaneState → Option Bool
  | .waiting _ => some false
  | .sleeping k _ => (match k with | .waitw _ _ => some true | .mwait .. => some true | .bar _ => some true | _ => none)
  | _ => none

/-- A candidate warp. DEDUCED (log entry 52). -/
def candidate (s : State) (w : Warp) : Bool :=
  let live := w.lanes.filter fun x => x.st != .exited
  (live.all fun x => (lockWait x.st).isSome && decide (x.since.toNat + 64 * Config.ticksPerUs < s.clock.toNat)) &&
    live.any fun x => lockWait x.st == some true

/-- An evictable gang that a save can take away. -/
def evictable (s : State) (y : Gang) : Bool :=
  let ws := gangWarps s y.id
  y.st == .running && (match s.getRegion y.region with | some r => r.eff.saveArea != 0 | none => false) &&
    (ws.all fun w => candidate s w || liveSet w == 0) && ws.any fun w => candidate s w

/-- Evictable gangs in the order of R431: the same region first, then the latest placed. -/
def insertEvict (region : Nat) (v : Gang) : List Gang → List Gang
  | [] => [v]
  | x :: xs =>
    let a := v.region == region
    let b := x.region == region
    if (a && !b) || (a == b && decide (x.placed < v.placed)) then v :: x :: xs else x :: insertEvict region v xs

def evictOrder (s : State) (r : Region) : List Gang :=
  (s.gangs.filter fun y => evictable s y && (match s.getRegion y.region with | some q => decide (q.eff.prio ≤ r.eff.prio) | none => false)).foldl
    (fun acc y => insertEvict r.handle y acc) []

/-- A span for a gang once some gangs have left. -/
def fitsWithout (s : State) (y : Gang) (r : Region) (gone : List Nat) : Bool :=
  budgetOk s r gone && (bestSpan s r fun cs => cs.all fun c => unreserved s y r.eff.prio c && coreFits s r.eff (slotsFor s y r) gone c).isSome

/-- The gangs to save, taken in order until the gang fits. DEDUCED (log entry 55). -/
def takeEvicted (s : State) (y : Gang) (r : Region) : List Nat → List Gang → Option (List Nat)
  | gone, [] => if fitsWithout s y r gone then some gone else none
  | gone, v :: rest => if fitsWithout s y r gone then some gone else takeEvicted s y r (gone ++ [v.id]) rest

/-- R431 for a saved gang of a running region that cannot be placed. -/
def evictFor (s : State) (y : Gang) (r : Region) : State :=
  if y.st != .saved || !hasRunning s r then s
  else if y.victims.any fun v => match s.getGang v with | some g => g.st == .preempting || g.st == .draining | none => false then s
  else match takeEvicted s y r [] (evictOrder s r) with
  | none => s
  | some vs => vs.foldl (fun acc v => startPreempt acc v .save) (s.modGang y.id fun g => { g with victims := vs })

/-- What the maltster does for a gang that is not placed: the part of its record that another package holds is asked for; then comes pre-emption
(R416), else eviction (R431). -/
def makeRoom (s : State) (y : Gang) : State :=
  match s.getRegion y.region with
  | none => s
  | some r =>
    if y.st == .saved && !vaHere s (gangOwner y.id) r.asid.toNat (recordVa y r) (recSize r.eff) then
      vaAsk s (gangOwner y.id) r.asid.toNat (recordVa y r) (recSize r.eff)
    else if (bestVictims s y r).isSome then preemptFor s y r else evictFor s y r

/-! ## Placement (R412) -/

/-- Gangs placed in order while any can be, one for which a flush has just made room before the next (R412); n bounds the number. -/
def placeLoop : Nat → List Nat → State → State
  | 0, _, s => s
  | n + 1, failed, s =>
    let s1 := fireUntokened s
    match nextGang s1 failed with
    | none => s1
    | some y =>
      match tryPlace s1 y with
      | some t => placeLoop n failed t
      | none =>
        let t := makeRoom s1 y
        match tryPlace t ((t.getGang y.id).getD y) with
        | some u => placeLoop n failed u
        | none => placeLoop n (y.id :: failed) t

/-- Resident workgroups of a package at most, with the gangs that may wait beside them. -/
def placeFuel (s : State) : Nat := s.gangs.length + s.regions.length + 2048 * Config.residentGroups

/-- PLACEMENT_EVALUATION. -/
def execPlacementEvaluation (s : State) : Out := happens (placeLoop (placeFuel s) [] s)

/-- LOCK_HOLDER_CANDIDATE: a warp that has slept 64 µs is a candidate, and a saved gang that waits for room is looked at again. -/
def execLockHolderCandidate (w : Nat) (s : State) : Out :=
  happens (match s.getWarp w with
    | none => s
    | some x =>
      if !candidate s x then s
      else ((placeable s).filter fun y => (tryPlace s y).isNone).foldl (fun acc y =>
        match acc.getRegion y.region with | some r => evictFor acc y r | none => acc) s)

/-! ## Rotation and starvation (R414, R415) -/

/-- A span that no gang has reserved. -/
def unclaimed (s : State) (cs : List CoreId) : Bool :=
  s.gangs.all fun q => match claim q, s.getRegion q.region with
    | some p, some r => !(spanCores r.eff.cores p).any fun c => cs.contains c
    | _, _ => true

/-- The free span to which rotation would move a running gang. -/
def rotationSpan (s : State) (y : Gang) : Option Span :=
  match s.getRegion y.region with
  | none => none
  | some r =>
    if y.st == .running && r.eff.policy != 1 && decide (lowestAllow s (spanCores r.eff.cores (y.die, y.clu, y.c0)) < 32) then
      bestSpan s r fun cs => decide (160 ≤ lowestAllow s cs) && unclaimed s cs && cs.all fun c => coreFits s r.eff Config.warpSlots [] c
    else none

/-- The gangs looked at in turn, with the clusters that have given one: one that qualifies is pre-empted by the choice of R421, and the span it
found is kept for it unless it drains (R414, R420). DEDUCED (log entry 99). -/
def rotateLoop : List Gang → List CluId → State → State
  | [], _, s => s
  | y :: ys, gone, s =>
    let here : CluId := ⟨y.die, y.clu⟩
    match (if gone.contains here then none else rotationSpan s y) with
    | some p =>
      let a := chooseAction (((s.getRegion y.region).map (·.eff)).getD {}) y
      let t := if a == .drain then s else s.modGang y.id fun z => { z with reserved := some p, rotating := true }
      rotateLoop ys (here :: gone) (startPreempt t y.id a)
    | none => rotateLoop ys gone s

/-- ROTATION_CHECK: each millisecond, one gang of a cluster at most leaves, and is placed again where it is cooler. -/
def execRotationCheck (s : State) : Out :=
  happens (if s.clock.toNat < s.rotAt.toNat + ticksMs then s else rotateLoop s.gangs [] { s with rotAt := s.clock })

/-- The gangs with a member on some cores. -/
def gangsAt (s : State) (cs : List CoreId) : List Nat := ((s.wgs.filter fun w => cs.contains w.core).map (·.gang)).eraseDups

/-- The span that R413 would choose for a gang among those it could use once their occupants have left (R415). -/
def starvedSpan (s : State) (y : Gang) (r : Region) : Option Span :=
  bestSpan s r fun cs =>
    budgetOk s r (gangsAt s cs) && cs.all fun c => unreserved s y r.eff.prio c && coreFits s r.eff (slotsFor s y r) (gangsAt s cs) c

/-- STARVATION: a gang not placed 1 ms after its ready time has the best span it could use reserved for it, as soon as there is one; one that
rotation sends somewhere keeps that span (R414). -/
def execStarvation (region g : Nat) (s : State) : Out :=
  happens (match s.getRegion region, s.gangs.find? fun y => y.region == region && y.g == g with
    | some r, some y =>
      if (y.st == .ready || y.st == .saved) && (!y.starved || y.reserved.isNone) && r.status == 0 && decide (y.readyTime.toNat + ticksMs ≤ s.clock.toNat) then
        s.modGang y.id fun z => { z with starved := true, reserved := if y.rotating then y.reserved else starvedSpan s y r }
      else s
    | _, _ => s)

/-! ## Draining and retirement (R417, R418) -/

/-- Nothing of a workgroup's warps, buffer entries and copies is left. -/
def groupQuiet (s : State) (g : Workgroup) : Bool :=
  (s.warps.all fun w => w.wg != g.id || (w.ctrs.all (·.isEmpty) && w.stores.isEmpty && w.outs.isEmpty)) &&
  ((s.getCore g.core).engine.buffer.all fun e => e.wg != g.id) &&
  s.copies.all fun c => match c.kind, c.dst with
    | .cpyq _, _ => c.wg != g.id
    | _, .bank r => r.wg != g.id
    | _, _ => true

/-- WORKGROUP_DRAINED: its buffer entries are flushed, and it is drained once all of R417 holds. -/
def execWorkgroupDrained (wg : Nat) (s : State) : Out :=
  happens (match s.getWg wg with
    | none => s
    | some g =>
      if !g.draining || g.drained then s
      else
        let s1 := flushEntries s g.core fun e => e.wg == g.id
        if groupQuiet s1 g then s1.modWg wg fun x => { x with drained := true } else s1)

/-- Every write of a gang's warps made visible at sys scope; none while a home cannot take one. -/
def gangVisible (s : State) : List Warp → Option State
  | [] => some s
  | w :: ws => (releaseEffects s w .sys).bind fun t => gangVisible t ws

/-- The completion word raised by 1 at its home, atomically, by a request where that is another package (R391, R418). -/
def addCompletion (s : State) (r : Region) : State :=
  let asid := r.asid.toNat
  let va := r.eff.completion.toNat
  let t := translateHome s asid false .write r.eff.completion
  match t.1 with
  | .mem pa _ _ => homeWrite t.2 { who := some (asid, va), pa := pa, bytes := leBytes 8 1, op := .add }
  | .far pkg _ =>
    if s.deadPkgs.contains pkg then t.2
    else
    let id := t.2.nextId
    let m : FabMsg := .request s.dev pkg id asid false r.eff.completion (.atom 0 true false 1 0)
    (match sendFor { t.2 with nextId := id + 1 } pkg asid va m none with
     | some u => { u with unacked := u.unacked ++ [(id, fwOwner, asid, va)] }
     | none => t.2)
  | _ => t.2

/-- The region after one more gang has retired: complete with the last. DEDUCED (log entry 50). -/
def regionRetired (s : State) (r : Region) : State :=
  if r.retired + 1 < r.eff.gangs then s.modRegion r.handle fun x => { x with retired := r.retired + 1 }
  else
    let s1 := r.worts.foldl (fun acc x => closeWort acc r x) s
    s1.modRegion r.handle fun x => { x with retired := r.retired + 1, status := 1, allocs := [] }

/-- The exit records of a gang are on their way. -/
def exitsPending (s : State) (r : Region) (y : Gang) : Bool :=
  r.eff.exitArea != 0 && fwPending s r.asid.toNat (r.eff.exitArea.toNat + 320 * (y.g * r.eff.cores)) (320 * r.eff.cores)

/-- What a gang holds freed, the last step of R418. -/
def freeGang (s : State) (r : Region) (gang : Nat) : State :=
  regionRetired ((removeGroups s fun g => g.gang == gang).modGang gang fun z => { z with st := .retired, slot := none, bars := [], recs := [] }) r

/-- GANG_RETIRE: the exit records; once every write is visible the completion word; once that is raised everything is freed. -/
def execGangRetire (gang : Nat) (s : State) : Out :=
  happens (match s.getGang gang with
    | none => s
    | some y =>
      match s.getRegion y.region with
      | none => s
      | some r =>
        if y.st != .draining || s.wgs.any fun g => g.gang == gang && !g.drained then s
        else match y.retire with
        | 0 => (writeExits s r y.g 0).modGang gang fun z => { z with retire := 1 }
        | 1 =>
          (match gangVisible s (gangWarps s gang) with
           | none => (gangWarps s gang).foldl announceRelease s
           | some t =>
             if backPending t r.asid.toNat || exitsPending t r y then t
             else (addCompletion t r).modGang gang fun z => { z with retire := 2 })
        | _ => if fwPending s r.asid.toNat r.eff.completion.toNat 8 then s else freeGang s r gang)

/-! ## CTXSV and CTXLD (R434 to R436) -/

/-- The STATUS byte of a record. -/
def putStatus (s : State) (asid : Nat) (va : DWord) (v : Nat) : State := writeVa s asid (va.toNat + 7) (leBytes 1 v)

/-- The gang named by a handle and an index. -/
def gangNamed (s : State) (handle g : Nat) : Option Gang := s.gangs.find? fun y => y.region == handle && y.g == g

/-- A gang that has ended by the halt of its region before it ever ran. -/
def haltedUnfired (s : State) (handle g : Nat) : Bool :=
  match s.getRegion handle with | some r => r.status == 2 && decide (g < r.eff.gangs) | none => false

/-- Where CTXSV copies the record of a saved gang from. -/
def savedRecord (s : State) (handle g : Nat) : Option (Gang × Region) :=
  match gangNamed s handle g, s.getRegion handle with
  | some y, some r => if y.st == .saved && y.slot.isSome then some (y, r) else none
  | _, _ => none

/-- The record of a gang that CTXSV copies is here; and what another package holds of it asked for. -/
def saveHere (s : State) (handle g : Nat) : Bool :=
  match savedRecord s handle g with
  | some (y, r) => vaHere s (gangOwner y.id) r.asid.toNat (recordVa y r) (recSize r.eff)
  | none => true
def saveAsk (s : State) (handle g : Nat) : State :=
  match savedRecord s handle g with
  | some (y, r) => vaAsk s (gangOwner y.id) r.asid.toNat (recordVa y r) (recSize r.eff)
  | none => s

/-- CTXSV for a record in an ASID; `by_` is the warp that asks, or 2^32 + its ring, and `own` its own gang. DEDUCED (log entry 56). -/
def saveContext (s : State) (asid : Nat) (va : DWord) (handle g by_ : Nat) (own : Option Nat) : State :=
  match gangNamed s handle g with
  | none => putStatus s asid va (if haltedUnfired s handle g then 5 else 4)
  | some y =>
    match s.getRegion handle with
    | none => putStatus s asid va 4
    | some r =>
      if y.st == .retired || y.st == .halted then putStatus s asid va 5
      else if some y.id == own then putStatus s asid va 4
      else match y.st, y.slot with
      | .saved, some k =>
        let bs := vaBytes s (gangOwner y.id) r.asid.toNat (slotVa r k) (recSize r.eff)
        (putStatus (writeVa (vaDone s (gangOwner y.id)) asid va.toNat bs) asid va 1).modGang y.id fun z => { z with st := .held, slot := none }
      | .running, _ => startPreempt (s.modGang y.id fun z => { z with svTarget := some (asid, va, by_) }) y.id .save
      | _, _ => putStatus s asid va 4

/-- CTXSV. -/
def execCtxsv (h : Hdr) (a b c : Reg) (s : State) : Out :=
  let gang (x : Issue) : Nat × Nat := ((rdP x.w a x.low).toNat, (rdV x.w b x.low).toNat)
  issueP (.ctxsv h a b c) s (fun x t => (rdP x.w c x.low).toNat % 4096 != 0 || saveHere t (gang x).1 (gang x).2)
    (fun x t => saveAsk t (gang x).1 (gang x).2) fun x t =>
    let va := rdP x.w c x.low
    if va.toNat % 4096 ≠ 0 then issueTrap x t 0x10 0 x.e 0
    else
      let t1 := t.modWarp x.w.id fun w => { w with hold := some (.blocking x.tag) }
      saveContext t1 (t.warpAsid x.w) va (rdP x.w a x.low).toNat (rdV x.w b x.low).toNat x.w.id ((t.warpGang x.w).map (·.id))

/-- The gangs a CTXSV of one source still waits for; those that ended first have STATUS 5. DEDUCED (log entry 56). -/
def savesDone (s : State) (by_ : Nat) : Option State :=
  let mine (y : Gang) : Bool := match y.svTarget with | some t => t.2.2 == by_ | none => false
  if s.gangs.any fun y => mine y && y.st != .retired && y.st != .halted then none
  else some ((s.gangs.filter mine).foldl (fun acc y =>
    match y.svTarget with
    | some t => (putStatus acc t.1 t.2.1 5).modGang y.id fun z => { z with svTarget := none }
    | none => acc) s)

/-- Whether every byte of some ranges of a record is zero. -/
def zeroAt (rd : Rd) (rs : List (Nat × Nat)) : Bool := rs.all fun p => rd p.1 p.2 == 0

/-- A lane state byte that means something: a state of R427, with a mask index only where the lane waits. -/
def laneByteOk (n : Nat) : Bool := decide (n % 8 < 5) && (if n % 8 = 1 then decide (n / 8 < 12) else n / 8 == 0)

/-- The shape fields and reserved bytes of one member's section. -/
def sectionOk (rd : Rd) (e : Eff) (m : Nat) : Bool :=
  let o := recSection e m
  rd o 4 == warpsOf e && rd (o + 4) 4 == e.nregs && rd (o + 8) 4 == e.npreds && rd (o + 12) 4 == e.scratch && zeroAt rd [(o + 16, 240)] &&
  ((List.range (warpsOf e)).all fun i =>
    let b := o + 256 + i * warpBlock
    zeroAt rd [(b + 0x4D0, 0x30), (b + 0xC00, 0x400)] && (List.range 32).all fun l => laneByteOk (rd (b + 0x400 + l) 1)) &&
  zeroAt rd [(o + secPlanes e + 8322, 126), (o + secPlanes e + planeBytes + 8322, 126)]

/-- The conditions of R436 on a record. -/
def recordOk (s : State) (rd : Rd) (r : Region) : Bool :=
  let e := r.eff
  r.status == 0 && rd 0x16 1 == e.cores && zeroAt rd [(0x2A, 6), (0x80, 128)] &&
  ((List.range 8).all fun m => rd (0x30 + 8 * m) 8 == (if m < e.cores then recSection e m else 0)) &&
  rd 0x70 8 == recBars e && rd 0x78 8 == recWorts e && ((List.range e.cores).all (sectionOk rd e)) &&
  (match gangNamed s r.handle (rd 0x10 4) with | some y => y.st == .held | none => false) && (freeSlot s r).isSome

/-- Bytes of a record that CTXLD needs: the header, and with it the length of the rest. -/
def loadLength (s : State) (owner asid : Nat) (va : DWord) : Nat :=
  if vaHere s owner asid va.toNat 256 then
    match s.getRegion (leNat (vaBytes s owner asid (va.toNat + 8) 8)) with
    | some r => recSize r.eff
    | none => 256
  else 256
def loadHere (s : State) (owner asid : Nat) (va : DWord) : Bool :=
  vaHere s owner asid va.toNat 256 && vaHere s owner asid va.toNat (loadLength s owner asid va)

/-- CTXLD of a record in an ASID, for an owner of the firmware (R436). -/
def loadContext (s0 : State) (owner asid : Nat) (va : DWord) : State :=
  let rd : Rd := fun off n => leNat (vaBytes s0 owner asid (va.toNat + off) n)
  let s := vaDone s0 owner
  match s.getRegion (rd 8 8) with
  | none => putStatus s asid va 3
  | some r =>
    match recordOk s rd r, gangNamed s r.handle (rd 0x10 4), freeSlot s r with
    | true, some y, some k =>
      let s1 := putStatus s asid va 2
      let bs := (vaBytes s0 owner asid va.toNat (recSize r.eff)).set 7 0
      (writeVa s1 r.asid.toNat (slotVa r k) bs).modGang y.id fun z => { z with st := .saved, slot := some k }
    | _, _, _ => putStatus s asid va 3

/-- CTXLD. -/
def execCtxld (h : Hdr) (a : Reg) (s : State) : Out :=
  issueP (.ctxld h a) s
    (fun x t => (rdP x.w a x.low).toNat % 4096 != 0 || loadHere t (svcOwner x.w.id) (t.warpAsid x.w) (rdP x.w a x.low))
    (fun x t => vaAsk t (svcOwner x.w.id) (t.warpAsid x.w) (rdP x.w a x.low).toNat (loadLength t (svcOwner x.w.id) (t.warpAsid x.w) (rdP x.w a x.low)))
    fun x t =>
    let va := rdP x.w a x.low
    if va.toNat % 4096 ≠ 0 then issueTrap x t 0x10 0 x.e 0
    else (loadContext t (svcOwner x.w.id) (t.warpAsid x.w) va).modWarp x.w.id fun w => { w with hold := some (.blocking x.tag) }

/-! ## HARV (R437) -/

/-- The traps of the page-range instructions at issue. -/
def rangeTrap (x : Issue) (t : State) (va : DWord) (n : Nat) : Option State :=
  if va.toNat % 4096 ≠ 0 then some (issueTrap x t 0x10 0 x.e 0)
  else if 512 < n || !rangeCanonical va (4096 * n) then some (issueTrap x t 0x11 0 x.e 0)
  else none

/-- Every line of a range of bytes recalled from every holder, dirty data written back. -/
def recallLines (s : State) (asid : Nat) (va : Nat) (pa n : Nat) : State :=
  (List.range (n / 128)).foldl (fun acc k =>
    let line := va / 128 + k
    let home := pa / 2 ^ 36 % 16
    let owned := (List.range 16).any fun d => (holdersOf acc d asid line).any fun c =>
      match l1Find (acc.getCore c) asid line with | some y => y.st == .m || y.st == .o | none => false
    let a1 := (List.range 16).foldl (fun t d => dropOthers t d asid line none) (clearHolders acc home asid line none)
    if owned then markWritten a1 (pa + 128 * k) 128 else a1) s

/-- The write-record bits of some frames, read and cleared. -/
def takeWritten (s : State) (pa n : Nat) : Bool × State :=
  let fs := (List.range (n / 4096)).map (· + pa / 4096)
  let d := s.getDie (pa / 2 ^ 36 % 16)
  (fs.any fun f => sget false d.written f, s.modDie d.id fun x => { x with written := x.written.filter fun e => !fs.contains e.1 })

/-- One page of HARV: skipped where it is absent, lies in another package or has been done as part of its 2 MiB page. -/
def harvPage (s : State) (die asid : Nat) (pull : Bool) (first va : Nat) : State :=
  match walkTables (tableMem s) (s.getDie die).ptbase.toNat asid va with
  | .leaf pte addr big =>
    let size := if big then 2 ^ 21 else 4096
    let base := bitsAt pte 12 36 * 4096 / size * size
    let done := big && decide (first ≤ va - 4096) && decide (4096 ≤ va) && (va - 4096) / 2 ^ 21 == va / 2 ^ 21
    if bitsAt pte 48 12 != s.dev || hbmEnd ≤ base || done then s
    else
      let s1 := if pull then recallLines s (if bitAt pte 6 then 0 else asid) (va / size * size) base size else s
      let r := takeWritten s1 base size
      if r.1 then r.2.storeNat addr 8 (setBitsAt pte 5 1 1) else r.2
  | _ => s

/-- HARV in either form. -/
def harvEffect (pull : Bool) (a b c : Reg) (x : Issue) (s : State) : State :=
  let va := rdP x.w a x.low
  let n := (rdV x.w b x.low).toNat
  match rangeTrap x s va n with
  | some t => t
  | none =>
    ((List.range n).foldl (fun acc k =>
      harvPage acc (s.warpCore x.w).die ((rdV x.w c x.low).toNat % 2 ^ 16) pull va.toNat (va.toNat + 4096 * k)) s).modWarp x.w.id fun w =>
        { w with hold := some (.blocking x.tag) }

/-- HARV. -/
def execHarv (h : Hdr) (a b c : Reg) (s : State) : Out := issue (.harv h a b c) s always (harvEffect false a b c)
/-- HARV.r. -/
def execHarvR (h : Hdr) (a b c : Reg) (s : State) : Out := issue (.harvR h a b c) s always (harvEffect true a b c)

/-! ## TLBI (R438) -/

/-- The pages that TLBI names: those of a range in an ASID, all of an ASID, or all. -/
inductive Named where
  | range (asid page n : Nat)
  | asid (a : Nat)
  | all
  deriving DecidableEq, Repr

/-- Whether some pages of an ASID are named; a tag of 0 stands for global pages. -/
def isNamed (k : Named) (asid page n : Nat) : Bool :=
  match k with
  | .range a p m => a == asid && decide (p < page + n) && decide (page < p + m)
  | .asid a => a == asid
  | .all => true

/-- For caches that keep global pages under the ASID that read them. -/
def isNamedAny (k : Named) (asid page : Nat) : Bool :=
  isNamed k asid page 1 || (match k with | .range 0 _ _ => isNamed k 0 page 1 | .asid 0 => true | _ => false)

/-- Whether a home map's entry of a 2 MiB region goes: TLBI of pages drops those of their regions whatever the ASID (R384). -/
def namesRegion (k : Named) (asid region : Nat) : Bool :=
  match k with
  | .range _ p m => decide (p < region * 512 + 512) && decide (region * 512 < p + m)
  | .asid a => a == asid || a == 0
  | .all => true

def namedKiln (k : Named) (x : KSector) : Bool := isNamed k x.asid (x.sector / 4) 1
def namedNc (k : Named) (x : NcLine) : Bool := isNamed k x.asid (x.line / 32) 1

/-- Every write-back that TLBI makes can be taken by its home. DEDUCED (log entry 60). -/
def tlbiReady (s : State) (k : Named) : Bool :=
  s.cores.all fun c => (c.kiln.all fun x => !namedKiln k x || sectorOpen s x) && c.nc.all fun x => !namedNc k x || ncOpen s x

/-- The holders of the lines that TLBI must write back told of it (R389). -/
def tlbiWait (k : Named) (s : State) : State :=
  s.cores.foldl (fun acc c => (c.nc.filter (namedNc k)).foldl announceNc ((c.kiln.filter (namedKiln k)).foldl announceSector acc)) s

/-- Named L1 lines of a core written back and made absent, with named kiln sectors and non-coherent lines, and the entries of the
instruction and constant caches and of the home map. -/
def tlbiCore (k : Named) (s : State) (c : CoreId) : State :=
  let x := s.getCore c
  let ks := x.kiln.filter (namedKiln k)
  let ns := x.nc.filter (namedNc k)
  let ls := x.l1.filter fun y => isNamed k y.asid (y.line / 32) 1
  let s1 := ks.foldl (fun acc y => kWriteBack acc y) s
  let s2 := ns.foldl (fun acc y => writeBack acc y.asid (y.line * 128) y.place (dirtyOf y.bytes)) s1
  let s3 := ls.foldl (fun acc y => dropLine (if y.st == .m || y.st == .o then markWritten acc y.pa 128 else acc) c y.asid y.line) s2
  s3.modCore c fun z =>
    { z with
      kiln := z.kiln.filter (fun y => !namedKiln k y)
      nc := z.nc.filter (fun y => !namedNc k y)
      icache := z.icache.filter (fun e => !isNamedAny k e.1 (e.2.1 / 128))
      ccache := z.ccache.filter (fun e => !isNamedAny k e.1 (e.2.1 / 32))
      homeMap := z.homeMap.filter (fun e => !namesRegion k e.1 e.2.1) }

/-- The wort lines of named pages written back with their headers (R351). -/
def tlbiWorts (k : Named) (s : State) : State :=
  s.regions.foldl (fun acc r =>
    if r.status != 0 then acc
    else r.worts.foldl (fun a x =>
      if x.st == .closed then a
      else (List.range x.lines).foldl (fun t i =>
        let page := (x.base.toNat + 128 * i) / 4096
        if isNamed k r.asid.toNat page 1 || (lineGlobal t r.asid.toNat (page * 32) && isNamed k 0 page 1) then evictWortLine t r.ctx x.id i else t) a) acc) s

/-- Copies of other packages' lines on named pages made absent. -/
def tlbiFar (k : Named) (s : State) : State :=
  (s.farLines.filter fun x => isNamed k x.asid (x.line / 32) 1).foldl (fun acc x => farDrop acc x.die x.asid x.line) s

/-- TLBI over the package. DEDUCED (log entry 60). -/
def tlbi (s : State) (k : Named) : State :=
  let s1 := (s.cores.map (·.id)).foldl (tlbiCore k) s
  let s2 := { s1 with
    leases := s1.leases.filter (fun y => !isNamed k y.asid (y.line / 32) 1)
    dies := s1.dies.map (fun d => { d with tlb := d.tlb.filter fun e => !isNamed k e.asid (if e.big then e.page / 512 * 512 else e.page) (if e.big then 512 else 1) }) }
  tlbiWorts k (tlbiFar k s2)

/-- What TLBI.pg names. -/
def tlbiRange (x : Issue) (a b c : Reg) : Named :=
  .range ((rdV x.w c x.low).toNat % 2 ^ 16) ((rdP x.w a x.low).toNat / 4096) (rdV x.w b x.low).toNat

def tlbiEffect (k : Issue → Named) (x : Issue) (s : State) : State :=
  (tlbi s (k x)).modWarp x.w.id fun w => { w with hold := some (.blocking x.tag) }

/-- TLBI.pg. -/
def execTlbiPg (h : Hdr) (a b c : Reg) (s : State) : Out :=
  issueP (.tlbiPg h a b c) s (fun x t => tlbiReady t (tlbiRange x a b c)) (fun x => tlbiWait (tlbiRange x a b c)) fun x t =>
    match rangeTrap x t (rdP x.w a x.low) (rdV x.w b x.low).toNat with
    | some u => u
    | none => tlbiEffect (fun y => tlbiRange y a b c) x t
/-- TLBI.asid. -/
def execTlbiAsid (h : Hdr) (c : Reg) (s : State) : Out :=
  let k : Issue → Named := fun x => .asid ((rdV x.w c x.low).toNat % 2 ^ 16)
  issueP (.tlbiAsid h c) s (fun x t => tlbiReady t (k x)) (fun x => tlbiWait (k x)) (tlbiEffect k)
/-- TLBI.all. -/
def execTlbiAll (h : Hdr) (s : State) : Out :=
  issueP (.tlbiAll h) s (fun _ t => tlbiReady t .all) (fun _ => tlbiWait .all) (tlbiEffect fun _ => .all)

/-! ## HALT (R439) -/

/-- HALT: one that covers the issuing warp's own region halts that warp too. -/
def execHalt (h : Hdr) (a : Reg) (s : State) : Out :=
  issue (.halt h a) s always fun x t =>
    (haltHandle t (rdP x.w a x.low).toNat).modWarp x.w.id fun w => { w with hold := some (.blocking x.tag) }

/-! ## The command ring (R432, R433) -/

/-- The record at HEAD of a ring: its address, when the firmware runs, no write of its own still waits at a home, and the ring holds
one. -/
def ringRecord (s : State) (k : Nat) : Option Nat :=
  let ring := (s.fn k).ring.toNat
  let head := s.loadNat (ring + 4) 4
  if !s.psReady || ring = 0 || decide (16 < k) || (s.homeWrites.any fun q => q.who.isNone) || head = s.loadNat ring 4 then none else some (ring + 64 + 64 * (head % 256))

/-- The reply, then STATUS, then HEAD + 1, in this order at their homes (R389). -/
def ringReply (s : State) (k rec : Nat) (status : Nat) (reply : DWord) : State :=
  let ring := (s.fn k).ring.toNat
  let head := (s.loadNat (ring + 4) 4 + 1) % 2 ^ 32
  writePa (writePa (writePa s (rec + 0x18) (leBytes 8 reply.toNat)) (rec + 1) (leBytes 1 status)) (ring + 4) (leBytes 4 head)

/-- Who a ring's CTXSV and its reads of another package are for. -/
def ringSource (ring : Nat) : Nat := 2 ^ 32 + ring

/-- A record answered with a reply that the manual does not state. -/
def ringOpen (s : State) (k rec status : Nat) : State := let r := s.drawDWord; ringReply r.2 k rec status r.1

/-- A VF's record names a region that another ring launched (R447). -/
def foreign (s : State) (k handle : Nat) : Bool :=
  k != 0 && (match s.getRegion handle with | some r => r.ring != k | none => false)

/-- A step on the next record when it has the wanted OP. -/
def onRecord (s : State) (k : Nat) (op : Nat → Bool) (f : Nat → State) : State :=
  match ringRecord s k with
  | none => s
  | some rec => if op (s.loadNat rec 1) then f rec else s

/-- LAUNCH_RECORD; a record whose OP is unknown is refused by it. -/
def execLaunchRecord (ring : Nat) (s : State) : Out :=
  happens (onRecord s ring (fun op => op == 1 || op == 0 || decide (5 < op)) fun rec =>
    let a := BitVec.ofNat 64 (s.loadNat (rec + 8) 8)
    if s.loadNat rec 1 != 1 || a.toNat % 256 != 0 || !canonical a then ringOpen s ring rec 2
    else
      let asid := s.loadNat (rec + 4) 2
      let g := rcbGet s (ringSource ring) asid false a
      match g.1 with
      | none => g.2
      | some bytes =>
        let r := launchRegion g.2 a bytes { service := true, ctx := s.loadNat (rec + 2) 2, asid := asid, ring := ring }
        ringReply r.2 ring rec (if r.1.setWidth 16 == 0#16 then 2 else 1) r.1)

/-- HALT_RECORD. -/
def execHaltRecord (ring : Nat) (s : State) : Out :=
  happens (onRecord s ring (· == 2) fun rec =>
    let h := s.loadNat (rec + 8) 8
    if foreign s ring h then ringOpen s ring rec 2 else ringOpen (haltHandle s h) ring rec 1)

/-- The region state word. -/
def queryWord (s : State) (handle : Nat) : Nat :=
  match s.getRegion handle with | some r => r.status + 2 ^ 32 * r.retired | none => 3

/-- QUERY_RECORD. -/
def execQueryRecord (ring : Nat) (s : State) : Out :=
  happens (onRecord s ring (· == 3) fun rec =>
    let h := s.loadNat (rec + 8) 8
    if foreign s ring h then ringOpen s ring rec 2 else ringReply s ring rec 1 (BitVec.ofNat 64 (queryWord s h)))

/-- The ASID in which a save or load record's address is read: that of the region its handle names. -/
def recordAsid (s : State) (handle : Nat) : Nat := ((s.getRegion handle).map (·.asid.toNat)).getD 0

/-- The firmware is still at a save or load record of a ring, or has ended it. -/
def ringBusy (s : State) (ring : Nat) (on : Bool) : State := s.modFn ring fun x => { x with saving := on }

/-- The end of a save or load record: the reply is the record's STATUS byte, once that stands at its home and has been read there. -/
def ringStatus (s : State) (ring rec : Nat) (asid va : Nat) : State :=
  let owner := ringOwner ring
  if fwPending s asid (va + 7) 1 then ringBusy s ring true
  else if vaHere s owner asid (va + 7) 1 then
    let st := leNat (vaBytes s owner asid (va + 7) 1)
    ringBusy (ringReply (vaDone s owner) ring rec (if 3 ≤ st then 2 else 1) (BitVec.ofNat 64 st)) ring false
  else ringBusy (vaAsk s owner asid (va + 7) 1) ring true

/-- SAVE_RECORD: CTXSV by the firmware; the record is answered once the gang has been saved. Bits [11:0] of the field at 0x10 are
the gang index, the rest is the record's address. DESIGN CHOICE (log entry 57). -/
def execSaveRecord (ring : Nat) (s : State) : Out :=
  happens (onRecord s ring (· == 4) fun rec =>
    let h := s.loadNat (rec + 8) 8
    let f := s.loadNat (rec + 0x10) 8
    let va := f / 4096 * 4096
    let asid := recordAsid s h
    let finish (t : State) : State :=
      match savesDone t (ringSource ring) with
      | some u => ringStatus u ring rec asid va
      | none => ringBusy t ring true
    if (s.fn ring).saving then finish s
    else if foreign s ring h then ringOpen s ring rec 2
    else if !saveHere s h (f % 4096) then saveAsk s h (f % 4096)
    else finish (saveContext s asid (BitVec.ofNat 64 va) h (f % 4096) (ringSource ring) none))

/-- LOAD_RECORD: CTXLD by the firmware. DESIGN CHOICE (log entry 57). -/
def execLoadRecord (ring : Nat) (s : State) : Out :=
  happens (onRecord s ring (· == 5) fun rec =>
    let h := s.loadNat (rec + 8) 8
    let va := s.loadNat (rec + 0x10) 8
    let asid := recordAsid s h
    let owner := ringOwner ring
    if (s.fn ring).saving then ringStatus s ring rec asid va
    else if foreign s ring h || va % 4096 != 0 then ringOpen s ring rec 2
    else if !loadHere s owner asid (BitVec.ofNat 64 va) then vaAsk s owner asid va (loadLength s owner asid (BitVec.ofNat 64 va))
    else ringStatus (loadContext s owner asid (BitVec.ofNat 64 va)) ring rec asid va)

/-! ## RINGBASE (R460) -/

/-- RINGBASE_WRITE: the firmware reads the ring's address when it is written. -/
def execRingbaseWrite (fn : Nat) (v : DWord) (s : State) : Out := happens (ringbaseWrite s fn v)

end Sys2Proof.Machine
end

