-- ==== Sys2Proof/Machine/Collect.lean ====
section
/-! DEFINITION. The fabric instructions COLL, SENDQ, RTSW and PFENCE (R478 to R482, R488 to R494), the engine that runs their
steps, and their ends. -/

namespace Sys2Proof.Machine

/-! ## Snapshots of several lines at issue -/

/-- The bytes of parts read as loads of the warp at this moment. -/
def spanGot (x : Issue) : List (Nat × Nat) → State → Got (List Byte) × State
  | [], s => (.done [], s)
  | p :: ps, s =>
    let r := blockGot s x (BitVec.ofNat 64 p.1) p.2
    match r.1 with
    | .done bs => let t := spanGot x ps r.2; (mapGot (fun cs => bs ++ cs) t.1, t.2)
    | _ => r

/-- The parts of a block whose size stands in its header. -/
def sizedParts (x : Issue) (s : State) (va : DWord) (hdr : Nat) (size : List Byte → Nat) : List (Nat × Nat) :=
  match (spanGot x (lineParts va.toNat hdr) s).1 with
  | .done bs => lineParts va.toNat (max hdr (size bs))
  | _ => lineParts va.toNat hdr

def snapGot (x : Issue) (s : State) (va : DWord) (hdr : Nat) (size : List Byte → Nat) : Got (List Byte) × State :=
  spanGot x (sizedParts x s va hdr size) s

def snapReady (x : Issue) (s : State) (va : DWord) (hdr : Nat) (size : List Byte → Nat) : Bool :=
  match (snapGot x s va hdr size).1 with | .wait => false | .far _ => false | _ => true

/-- The requests for what lies in another package's memory. -/
def snapAsk (x : Issue) (s : State) (va : DWord) (hdr : Nat) (size : List Byte → Nat) : State :=
  (sizedParts x s va hdr size).foldl (fun acc p => blockAsk x acc (BitVec.ofNat 64 p.1) p.2) s

/-- The first absent part: its address. -/
def snapFault (x : Issue) (s : State) (va : DWord) (hdr : Nat) (size : List Byte → Nat) : DWord :=
  ((sizedParts x s va hdr size).findSome? fun p =>
    match (blockGot s x (BitVec.ofNat 64 p.1) p.2).1 with | .fault _ => some (BitVec.ofNat 64 p.1) | _ => none).getD va

/-- What becomes of a snapshot that did not succeed: R92, or the trap of an access that is refused. -/
def snapStop (x : Issue) (r : Got (List Byte) × State) (va : DWord) : State :=
  match r.1 with
  | .fault l => pageFaultLanes r.2 x.w.id x.tag x.e 0 va l (r.2.warpAsid x.w)
  | .deny i => blockDenied x r.2 0 i
  | .err => containCtx r.2 (r.2.warpCtx x.w)
  | _ => r.2

/-- The alignment and canonical form of a block address. -/
def blockBad (va : DWord) : Bool := va.toNat % 64 != 0 || !canonical va

def blockTrap (x : Issue) (s : State) (va : DWord) : State :=
  if va.toNat % 64 ≠ 0 then issueTrap x s 0x10 0 x.e 0 else issueTrap x s 0x11 0 x.e 0

/-- n bytes of a block as a number. -/
def wordAt (bs : List Byte) (o n : Nat) : Nat := leNat ((bs.drop o).take n)
def zeroIn (bs : List Byte) (o n : Nat) : Bool := wordAt bs o n == 0

/-! ## The COLL block (R478) -/

def collSize (bs : List Byte) : Nat := 64 + 32 * min (wordAt bs 0 2) 256

/-- One step against R478. -/
def stepOk (bs : List Byte) : Bool :=
  let kind := wordAt bs 0 1
  let slot := wordAt bs 1 1
  let slotOk := decide (slot < 64) || slot == 0xFF
  zeroIn bs 6 2 && zeroIn bs 0x1C 4 &&
  match kind with
  | 0 => slotOk && decide (wordAt bs 2 2 < 4096) && zeroIn bs 4 2 && wordAt bs 0x18 4 % 128 == 0 && decide (128 ≤ wordAt bs 0x18 4) &&
      decide (wordAt bs 0x18 4 ≤ 2 ^ 22)
  | 1 => slotOk && decide (wordAt bs 2 2 < 4096) && decide (wordAt bs 4 1 < 64) && decide (wordAt bs 5 1 < 64) && zeroIn bs 0x10 8 &&
      decide (1 ≤ wordAt bs 0x18 4) && decide (wordAt bs 0x18 4 ≤ 32768)
  | 2 => zeroIn bs 2 4 && zeroIn bs 8 8 && wordAt bs 0x10 8 % 64 == 0 && zeroIn bs 0x18 4
  | 3 => slotOk && zeroIn bs 2 4 && zeroIn bs 8 20
  | _ => false

def stepBytes (bs : List Byte) (k : Nat) : List Byte := (bs.drop (64 + 32 * k)).take 32

/-- The whole block against R478. -/
def collOk (bs : List Byte) : Bool :=
  let n := wordAt bs 0 2
  decide (1 ≤ n) && decide (n ≤ 256) && wordAt bs 8 8 != 0 && wordAt bs 0x10 8 % 64 == 0 && zeroIn bs 0x1C 36 &&
    (List.range n).all fun k => stepOk (stepBytes bs k)

def stepOf (bs : List Byte) : CollStep :=
  { kind := wordAt bs 0 1, slot := wordAt bs 1 1, peer := wordAt bs 2 2, lreg := wordAt bs 4 1, rreg := wordAt bs 5 1,
    a := BitVec.ofNat 64 (wordAt bs 8 8), b := BitVec.ofNat 64 (wordAt bs 0x10 8), n := wordAt bs 0x18 4 }

/-- The start tick of the base rotation: the first rotation that starts after the issue, and `off` more (R478). DEDUCED (log entry 63). -/
def baseTick (s : State) (off : Nat) : Nat :=
  match s.table with
  | none => 0
  | some t =>
    let p := max (periodOf t) 1
    let now := s.clock.toNat
    let k := if now < t.epoch.toNat then 0 else (now - t.epoch.toNat) / p + 1
    t.epoch.toNat + (k + off) * p

/-- What every operation of the fabric takes from its instruction. -/
def collBase (x : Issue) (s : State) (what : Nat) (steps : List CollStep) : Coll :=
  { id := s.nextId, w := x.w.id, wg := x.w.wg, region := ((s.warpRegion x.w).map (·.handle)).getD 0,
    asid := BitVec.ofNat 16 (s.warpAsid x.w), user := s.warpUser x.w, lanes := x.e, pc := x.pc, tag := x.tag, what := what, steps := steps }

/-- An operation registered and counted in c.col. -/
def addColl (x : Issue) (s : State) (c : Coll) : State :=
  { s.modWarp x.w.id (fun w => countUp w .col x.tag) with nextId := s.nextId + 1, colls := s.colls ++ [c] }

/-- A COLL that starts, at a step of its block; STATUS reads running. -/
def startColl (x : Issue) (s : State) (va : DWord) (bs : List Byte) (step : Nat) : State :=
  let n := wordAt bs 0 2
  let c := { collBase x s 0 ((List.range n).map fun k => stepOf (stepBytes bs k)) with
    block := va
    cid := BitVec.ofNat 64 (wordAt bs 8 8)
    freeze := BitVec.ofNat 64 (wordAt bs 0x10 8)
    peerCtx := wordAt bs 2 2
    step := step
    base := baseTick s (wordAt bs 0x18 4) }
  addColl x (writeVa s (s.warpAsid x.w) (va.toNat + 4) (leBytes 4 0)) c

/-- COLL (R489). -/
def execColl (h : Hdr) (a : Reg) (s : State) : Out :=
  let va (x : Issue) : DWord := rdP x.w a x.low
  issueP (.coll h a) s (fun x t => blockBad (va x) || snapReady x t (va x) 64 collSize) (fun x t => snapAsk x t (va x) 64 collSize) fun x t =>
    if blockBad (va x) then blockTrap x t (va x)
    else
      let r := snapGot x t (va x) 64 collSize
      match r.1 with
      | .done bs => if collOk bs then startColl x r.2 (va x) bs 0 else issueTrap x r.2 0x29 4 x.e 0
      | _ => snapStop x r (snapFault x t (va x) 64 collSize)

/-- The block that a freeze record names, when it can be read at all. -/
def frozenBlock (x : Issue) (s : State) (va : DWord) : Option (List Byte × DWord) :=
  match (snapGot x s va 64 fun _ => 64).1 with
  | .done r => let b := BitVec.ofNat 64 (wordAt r 0 8); if blockBad b then none else some (r, b)
  | _ => none

/-- COLL.resume (R484, R489): the record, then the block it names. -/
def execCollResume (h : Hdr) (a : Reg) (s : State) : Out :=
  let va (x : Issue) : DWord := rdP x.w a x.low
  let ready (x : Issue) (t : State) : Bool :=
    blockBad (va x) || (snapReady x t (va x) 64 (fun _ => 64) &&
      (match frozenBlock x t (va x) with | some p => snapReady x t p.2 64 collSize | none => true))
  let ask (x : Issue) (t : State) : State :=
    let t1 := snapAsk x t (va x) 64 fun _ => 64
    match frozenBlock x t (va x) with | some p => snapAsk x t1 p.2 64 collSize | none => t1
  issueP (.collResume h a) s ready ask fun x t =>
    if blockBad (va x) then blockTrap x t (va x)
    else
      let r := snapGot x t (va x) 64 fun _ => 64
      match r.1 with
      | .done rc =>
        let b := BitVec.ofNat 64 (wordAt rc 0 8)
        if blockBad b then issueTrap x r.2 0x29 4 x.e 0
        else
          let q := snapGot x r.2 b 64 collSize
          (match q.1 with
           | .done bs =>
             if collOk bs && wordAt rc 8 8 == wordAt bs 8 8 && decide (wordAt rc 0x10 2 < wordAt bs 0 2) then
               startColl x q.2 b bs (wordAt rc 0x10 2)
             else issueTrap x q.2 0x29 4 x.e 0
           | _ => snapStop x q (snapFault x r.2 b 64 collSize))
      | _ => snapStop x r (va x)

/-! ## SENDQ at issue (R490) -/

/-- SENDQ: the whole copy is one step, its deadline in `base` (0 for none). -/
def execSendq (h : Hdr) (q : Src3) (deadline : Option Word) (s : State) : Out :=
  issue (.sendq h q deadline) s always fun x t =>
    let dst := src3A x .p q x.low
    let src := src3B x .p q x.low
    let n := src3C x .v q x.low
    if dst % 128 ≠ 0 ∨ src % 128 ≠ 0 ∨ n % 128 ≠ 0 then issueTrap x t 0x10 0 x.e 0
    else if 0x1000000 < n ∨ rangeCanonical (BitVec.ofNat 64 dst) n = false ∨ rangeCanonical (BitVec.ofNat 64 src) n = false then
      issueTrap x t 0x11 0 x.e 0
    else if n = 0 then t.modWarp x.w.id fun w => countDone (countUp w .col x.tag) .col x.tag
    else
      let us := (deadline.getD 0).toNat
      addColl x t { collBase x t 1 [⟨0, 0xFF, 0, 0, 0, BitVec.ofNat 64 src, BitVec.ofNat 64 dst, n⟩] with
        base := if us = 0 then 0 else t.clock.toNat + us * Config.ticksPerUs }

/-! ## Route tables (R466) and RTSW (R493) -/

def routeSize (bs : List Byte) : Nat := 64 + 16 * min (wordAt bs 0 4) 4096

def routeAt (bs : List Byte) (k : Nat) : Nat := wordAt bs (64 + 16 * k) 16

/-- A route table against R466. -/
def routesOk (bs : List Byte) : Bool :=
  let n := wordAt bs 0 4
  decide (n ≤ 4096) && zeroIn bs 8 56 &&
  (List.range n).all fun k =>
    let v := routeAt bs k
    bitsAt v 14 2 == 0 && bitsAt v 12 2 != 3 && bitsAt v 41 87 == 0 && (k == 0 || decide (bitsAt (routeAt bs (k - 1)) 0 12 < bitsAt v 0 12))

def routesOf (bs : List Byte) : Nat × List Route :=
  (wordAt bs 4 4, (List.range (wordAt bs 0 4)).map fun k =>
    let v := routeAt bs k
    ⟨bitsAt v 0 12, bitsAt v 12 2, bitsAt v 16 12, bitsAt v 28 12, bitAt v 40⟩)

/-- RTSW: an arrival at a barrier, with the table to install at its release. DEDUCED (log entry 63). -/
def execRtsw (h : Hdr) (a b : Reg) (s : State) : Out :=
  let obj (x : Issue) : DWord := rdP x.w a x.low
  let va (x : Issue) : DWord := rdP x.w b x.low
  let bad (x : Issue) : Bool := (obj x).toNat % 64 != 0 || blockBad (va x)
  issueP (.rtsw h a b) s (fun x t => bad x || snapReady x t (va x) 64 routeSize) (fun x t => snapAsk x t (va x) 64 routeSize) fun x t =>
    if (obj x).toNat % 64 ≠ 0 then issueTrap x t 0x10 0 x.e 0
    else if blockBad (va x) then blockTrap x t (va x)
    else
      let r := snapGot x t (va x) 64 routeSize
      match r.1 with
      | .done bs =>
        if routesOk bs then
          addColl x r.2 { collBase x r.2 2 [⟨2, 0, 0, 0, 0, 0, obj x, 0⟩] with routes := some (routesOf bs) }
        else issueTrap x r.2 0x29 4 x.e 0
      | _ => snapStop x r (snapFault x t (va x) 64 routeSize)

/-! ## PFENCE (R494) -/

/-- Requests and units that no home has answered. -/
def openIds (s : State) : List Nat :=
  s.unacked.map (·.1) ++ s.copies.flatMap (fun c => c.asks.map (·.1)) ++ s.racks.flatMap (·.asks) ++
    s.colls.flatMap fun c => c.pendingU.map (·.1)

/-- A relayed request waits in this package. DEDUCED (log entry 65). -/
def relaysWait (s : State) : Bool :=
  s.ports.any fun p => p.relay.any fun m => match m with | .request _ d .. => d != s.dev | _ => false

/-- What a PFENCE waits for: the warp's own older requests, and those that PFENCE.dev found open (0 stands for relayed ones). DEDUCED (log entry 65). -/
def pfenceDone (s : State) (w : Warp) (tag : Nat) (ids : List Nat) : Bool :=
  (olderStores w tag).isEmpty && (w.outs.all fun o => !(decide (o.tag < tag) && isAtomic o.res)) &&
    (openIds s).all (fun k => !ids.contains k) && !(ids.contains 0 && relaysWait s)

def pfenceEffect (ids : State → List Nat) (x : Issue) (s : State) : State :=
  let ks := ids s
  if pfenceDone s x.w x.tag ks then s else s.modWarp x.w.id fun w => { w with hold := some (.pfence x.tag ks) }

/-- PFENCE. -/
def execPfence (h : Hdr) (s : State) : Out := issue (.pfence h) s always (pfenceEffect fun _ => [])
/-- PFENCE.dev. -/
def execPfenceDev (h : Hdr) (s : State) : Out := issue (.pfenceDev h) s always (pfenceEffect fun t => 0 :: openIds t)

/-- BLOCKING_OP_COMPLETE: the regions that AOPEN opens are open, the gangs that CTXSV saves are saved and the STATUS of CTXSV or CTXLD stands at
its home, the requests a PFENCE waits for are performed, and the warp goes on. -/
def execBlockingOpComplete (w : Nat) (s : State) : Out :=
  happens (match s.getWarp w with
    | none => openDone s w
    | some x =>
      match x.hold with
      | some (.blocking _) =>
        let wait := (openings s w).filter fun p => !openReady s p.1.asid.toNat p.2
        if !fwQuiet s (s.warpAsid x) then s
        else
        if !wait.isEmpty then wait.foldl (fun acc p => announceOpen acc p.1.asid.toNat p.2) s
        else (match savesDone s w with
         | some t => (openDone t w).modWarp w fun y => { y with hold := none }
         | none => s)
      | some (.pfence tag ids) => if pfenceDone s x tag ids then s.modWarp w fun y => { y with hold := none } else s
      | _ => s)

/-! ## Queries (R491, R495) -/

/-- SLOTQ. -/
def execSlotq (h : Hdr) (d a : Reg) (s : State) : Out :=
  issue (.slotq h d a) s always fun x t =>
    t.modWarp x.w.id fun w =>
      addOut w (outOf x t .p d x.e (.slotq ((lanesOf x.e).map fun l => (l, (rdV x.w a l).toNat % 4096))) none)
/-- SLOTQ.cur. -/
def execSlotqCur (h : Hdr) (d : Reg) (s : State) : Out :=
  issue (.slotqCur h d) s always fun x t => t.modWarp x.w.id fun w => addOut w (outOf x t .p d x.e .slotqCur none)
/-- LINKQ. -/
def execLinkq (h : Hdr) (d a : Reg) (s : State) : Out :=
  issue (.linkq h d a) s always fun x t =>
    t.modWarp x.w.id fun w =>
      addOut w (outOf x t .p d x.e (.linkq ((lanesOf x.e).map fun l => (l, (rdV x.w a l).toNat % 16))) none)

/-- The pair of SLOTQ for a package. -/
def slotqWord (s : State) (pkg : Nat) : Nat :=
  let relayBit := if (routeOf s pkg).mode == 1 then 2 ^ 42 else 0
  match nextWindow s pkg with
  | some (w, k, p) => min w 0xFFFFFFFE + 2 ^ 32 * k + 2 ^ 38 * p + relayBit
  | none => 0xFFFFFFFF + relayBit

/-- The pair of SLOTQ.cur; before any rotation runs the manual states none. -/
def slotqCurWord (s : State) : Option Nat :=
  match s.table with
  | none => none
  | some t =>
    (tablePos t s.clock.toNat).map fun p =>
      let tick := (s.clock.toNat - t.epoch.toNat) % max (periodOf t) 1
      let g := match t.slots[p.2.1]? with | some x => decide (p.2.2 < x.guard) | none => false
      tick + 2 ^ 32 * p.2.1 + 2 ^ 38 * g.toNat + 2 ^ 40 * (p.1 % 2 ^ 24)

def portCode : PortState → Nat | .cobalt => 0 | .amber => 1 | .umber => 2 | .slate => 3

/-- The status word of a port (R463). -/
def linkqWord (s : State) (k : Nat) : Nat :=
  let p := s.port k
  let here := match s.table with
    | none => (0, false, none)
    | some t =>
      match tablePos t s.clock.toNat with
      | some (_, i, off) => (i, (match t.slots[i]? with | some x => decide (off < x.guard) | none => false), peerIn t i k)
      | none => (0, false, none)
  let peer := match here.2.2 with | some q => 2 ^ 15 + 2 ^ 16 * q.1 + 2 ^ 28 * q.2 | none => 0
  portCode p.st + 4 * min p.width 8 + 2 ^ 6 * p.spareUsed.toNat + 2 ^ 7 * p.hold.toNat + 2 ^ 8 * here.1 + 2 ^ 14 * here.2.1.toNat + peer +
    2 ^ 32 * min p.berq 255 + 2 ^ 40 * min p.replay 0xFFFF

/-! ## The engine: when a step may begin (R479) -/

/-- What a step that sends meets. -/
inductive Gate where
  | now (port : Nat)
  | wait | noPath | dead
  deriving DecidableEq, Repr

/-- The lowest port that a slot connects to a package. -/
def slotPort (s : State) (t : Table) (slot peer : Nat) : Option Nat :=
  (List.range 16).find? fun p => (s.port p).st != .slate && (match peerIn t slot p with | some q => q.1 == peer | none => false)

def gate (s : State) (c : Coll) (slot peer : Nat) : Gate :=
  if s.deadPkgs.contains peer then .dead
  else match s.table with
  | none => .noPath
  | some t =>
    let anyPath := if slot = 0xFF then (List.range t.slots.length).any fun k => (slotPort s t k peer).isSome else (slotPort s t slot peer).isSome
    if !anyPath then .noPath
    else match tablePos t s.clock.toNat with
    | none => .wait
    | some (_, i, off) =>
      if s.clock.toNat < c.base || (slot != 0xFF && slot != i) || !inWindow t i off then .wait
      else match slotPort s t i peer with
      | some p => if (s.port p).st == .umber then .wait else .now p
      | none => .wait

/-- A fault of this operation has not been resolved. -/
def collPaused (s : State) (id : Nat) : Bool := s.dies.any fun d => d.faults.any fun f => f.who == .coll id

/-- The operation may act: its older stores are done (R338, R476), no fault pauses it, and it has not ended. -/
def collLive (s : State) (c : Coll) : Bool := c.fin.isNone && storesBehind s c.w c.tag && !collPaused s c.id

/-! ## Sources and destinations -/

def collAcc (c : Coll) : Acc := { core := ⟨0, 0, 0⟩, asid := c.asid.toNat, user := c.user }

/-- The bytes of some parts, read coherently at this moment; another package's have been asked for. -/
def sourceGot (c : Coll) : List (Nat × Nat) → State → Got (List Byte) × State
  | [], s => (.done [], s)
  | p :: ps, s =>
    let r := readHome s (collAcc c) (BitVec.ofNat 64 p.1) p.2
    let k := (p.2 + 7) / 8
    let g : Got (List Byte) × State :=
      match r.1 with
      | .far q =>
        (match farBytes r.2 (collOwner c.id) p.1 k with
         | some (0, bs) => (.done (bs.take p.2), dropFar r.2 (collOwner c.id) p.1 k)
         | some (1, _) => (.deny 0x60, r.2)
         | some _ => (.deny 0xFFFF, r.2)
         | none => (.far q, r.2))
      | _ => r
    match g.1 with
    | .done bs => let t := sourceGot c ps g.2; (mapGot (fun cs => bs ++ cs) t.1, t.2)
    | _ => g

/-- The requests for the parts that lie in another package. -/
def sourceAsk (s : State) (c : Coll) (ps : List (Nat × Nat)) : State :=
  ps.foldl (fun acc p =>
    let r := readHome acc (collAcc c) (BitVec.ofNat 64 p.1) p.2
    match r.1 with
    | .wait => r.2
    | .far q => askUnitsOf r.2 (collOwner c.id) c.asid.toNat c.user q p.1 ((p.2 + 7) / 8)
    | _ => acc) s

/-- The first absent part of a source, or of a destination. -/
def stepFault (s : State) (c : Coll) (st : CollStep) : Option (DWord × Nat) :=
  let src := (lineParts st.a.toNat st.n).findSome? fun p =>
    match (readHome s (collAcc c) (BitVec.ofNat 64 p.1) p.2).1 with | .fault l => some (BitVec.ofNat 64 p.1, l) | _ => none
  match src with
  | some f => some f
  | none => (lineParts st.b.toNat st.n).findSome? fun p =>
    match translateNow s 0 c.asid.toNat c.user .write (BitVec.ofNat 64 p.1) with | .absent l => some (BitVec.ofNat 64 p.1, l) | _ => none

/-! ## SEND and SENDQ (R480, R490) -/

/-- The parts of a destination with the bytes for them: one for each line. DEDUCED (log entry 62). -/
def sendUnits (st : CollStep) (bs : List Byte) : List (Nat × List Byte) :=
  (lineParts st.b.toNat st.n).map fun p => (p.1, (bs.drop (p.1 - st.b.toNat)).take p.2)

/-- A SEND step's units queued on its port. -/
def sendOn (s : State) (c : Coll) (st : CollStep) (port : Nat) (bs : List Byte) : State :=
  let us := sendUnits st bs
  let s1 := (List.range us.length).foldl (fun acc k =>
    match us[k]? with
    | some u => enqueue acc port st.peer (.unit acc.dev st.peer (s.nextId + k) c.asid.toNat c.user true (BitVec.ofNat 64 u.1) u.2) none
    | none => acc) s
  modColl { s1 with nextId := s.nextId + us.length } c.id fun x =>
    { x with started := true, pendingU := (List.range us.length).map fun k =>
        (s.nextId + k, st.a + BitVec.ofNat 64 (128 * k), BitVec.ofNat 64 (((us[k]?).map (·.1)).getD 0)) }

/-- The failure of a source as the operation reports it: INFO 3 for a permission failure of a step (R489), 0x60 for a SENDQ; without a
path, INFO 2. -/
def sourceFail (s : State) (c : Coll) (i : BitVec 16) : State :=
  finishColl s c.id 3 (if i == 0xFFFF then 2 else if c.what == 1 then 0x60 else 3) none

/-- What a unit of a SENDQ meets at its destination. -/
inductive Unit128 where
  | here (pa : Nat)
  | host (a : Nat)
  | far (pkg : Nat)
  | wait | deny | err
  deriving DecidableEq, Repr

def unitPlace (s : State) (c : Coll) (va n : Nat) : Unit128 :=
  match (translateHome s c.asid.toNat c.user .write (BitVec.ofNat 64 va)).1 with
  | .mem pa kind _ =>
    if homeDead s pa then .err
    else if kind == 3 || kind == 5 || wortHomeHit s c.asid.toNat va n then .deny
    else if engineReady s c.asid.toNat va pa then .here pa else .wait
  | .host a => if s.linkw == 0 then .err else .host a
  | .far k _ => .far k
  | .absent _ => .wait
  | _ => .deny

/-- One unit of a SENDQ written here, translated at its home (R383), or sent. -/
def unitSend (c : Coll) (dl : Option DWord) (s0 : State) (u : Nat × List Byte) : State :=
  let place := unitPlace s0 c u.1 u.2.length
  let s := (translateHome s0 c.asid.toNat c.user .write (BitVec.ofNat 64 u.1)).2
  match place with
  | .here pa => engineStore s c.asid.toNat (BitVec.ofNat 64 u.1) pa u.2
  | .host a => { s with hostMem := Memory.writeN s.hostMem a u.2 }
  | .far k =>
    let id := s.nextId
    let m := FabMsg.unit s.dev k id c.asid.toNat c.user false (BitVec.ofNat 64 u.1) u.2
    (match pathFor s k c.asid.toNat u.1 with
     | some p =>
       let s1 := modColl (enqueue { s with nextId := id + 1 } p.1 p.2 m dl) c.id fun x => { x with pendingU := x.pendingU ++ [(id, 0, BitVec.ofNat 64 u.1)] }
       if openPeer s p.1 == some p.2 then s1 else divertEach p.1 [(p.2, m, dl)] s1
     | none => finishColl s c.id 3 2 none)
  | _ => s

/-- A SENDQ moved once every unit can be placed (R490). -/
def sendqGo (s : State) (c : Coll) (st : CollStep) : State :=
  let r := sourceGot c (lineParts st.a.toNat st.n) s
  match r.1 with
  | .done bs =>
    let us := sendUnits st bs
    let ps := us.map fun u => unitPlace r.2 c u.1 u.2.length
    if ps.contains .deny then finishColl s c.id 3 0x60 none
    else if ps.contains .err then containCtx s (((s.getRegion c.region).map (·.ctx)).getD 0)
    else if ps.any fun p => match p with | .far k => s.deadPkgs.contains k | _ => false then finishColl s c.id 3 5 none
    else if ps.contains .wait then s
    else
      let dl := if c.base = 0 then none else some (BitVec.ofNat 64 c.base)
      let s1 := us.foldl (unitSend c dl) (modColl r.2 c.id fun x => { x with started := true })
      match getColl s1 c.id with
      | some x => if x.pendingU.isEmpty then finishColl s1 c.id 1 0 none else s1
      | none => s1
  | .far _ => sourceAsk s c (lineParts st.a.toNat st.n)
  | .deny i => sourceFail s c i
  | .err => containCtx s (((s.getRegion c.region).map (·.ctx)).getD 0)
  | .wait => unsettle s r.2
  | _ => s

/-- A SEND step begins on a port. -/
def sendGo (s : State) (c : Coll) (st : CollStep) (port : Nat) : State :=
  let r := sourceGot c (lineParts st.a.toNat st.n) s
  match r.1 with
  | .done bs =>
    (match (lineParts st.b.toNat st.n).find? fun p =>
        match translateNow s 0 c.asid.toNat c.user .write (BitVec.ofNat 64 p.1) with | .absent _ => true | _ => false with
     | some _ => s
     | none => sendOn r.2 c st port bs)
  | .far _ => sourceAsk s c (lineParts st.a.toNat st.n)
  | .deny i => sourceFail s c i
  | .err => containCtx s (((s.getRegion c.region).map (·.ctx)).getD 0)
  | .wait => unsettle s r.2
  | _ => s

/-! ## REDUCE and BARRIER (R476, R480) -/

/-- The local region of a REDUCE, open or racking in the issuing warp, with the lines asked for. -/
def reduceRegion (s : State) (c : Coll) (st : CollStep) : Option (Region × Wort) :=
  match s.getRegion c.region with
  | none => none
  | some r =>
    match wortOf r st.lreg with
    | none => none
    | some x =>
      let copy := match s.getWg c.wg with | some g => copyState s x g | none => x.st
      if copy != .closed && decide (st.a.toNat % 2 ^ 32 + st.n ≤ x.lines) then some (r, x) else none

/-- A line of an open region translates, so that it can be read (R349). -/
def lineReadable (s : State) (r : Region) (x : Wort) (line : Nat) : Bool := vaOk s r.asid.toNat .read (wortLineVa x line).toNat 128

/-- A REDUCE step begins: its lines leave in messages of 4 KiB (R469); a line whose translation fails contains the context (R349). -/
def reduceGo (s : State) (c : Coll) (st : CollStep) (port : Nat) : State :=
  match reduceRegion s c st with
  | none => finishColl s c.id 3 3 none
  | some (r, x) =>
    let first := st.a.toNat % 2 ^ 32
    let lines := (List.range st.n).map fun k =>
      let h := sget (0, false) x.heads (first + k)
      (lineG s r x (first + k), h.1, h.2)
    let there := st.a.toNat / 2 ^ 32
    let piece (acc : State) (i : Nat) : State :=
      enqueue acc port st.peer (.reduce s.dev st.peer c.cid c.step c.peerCtx st.rreg (there + 32 * i) x.scale.toNat (32 * i) st.n
        ((lines.drop (32 * i)).take 32)) none
    if (List.range st.n).any fun k => !lineReadable s r x (first + k) then containCtx s r.ctx
    else modColl ((List.range ((st.n + 31) / 32)).foldl piece s) c.id fun y => { y with started := true, awaits := some 1 }

/-- The package that coordinates a barrier. -/
def coordinator (s : State) (c : Coll) (obj : DWord) : Option Nat :=
  match translateNow s 0 c.asid.toNat c.user .write obj with
  | .mem _ 2 _ => some s.dev
  | .far k _ => some k
  | _ => none

/-- An arrival at a barrier: here, or by a message on the path of R467 for the object's line (R476, R496). -/
def barrierGo (s : State) (c : Coll) (obj : DWord) : State :=
  let s1 := modColl s c.id fun x => { x with started := true, waitBar := some obj }
  match coordinator s c obj with
  | none => (match translateNow s 0 c.asid.toNat c.user .write obj with | .absent _ => s | _ => finishColl s c.id 3 3 none)
  | some k =>
    if k = s.dev then barArrive s1 k c.asid.toNat obj
    else if s.deadPkgs.contains k then finishColl s c.id 3 6 (some k)
    else (sendFor s1 k c.asid.toNat obj.toNat (.barArrive s.dev k c.asid.toNat obj) none).getD (finishColl s c.id 3 2 none)

/-! ## COLL_STEP_START and COLL_COMPLETE -/

/-- A WAIT step: it stands from the opening of its window to the close. -/
def waitGo (s : State) (c : Coll) (st : CollStep) : State :=
  match s.table with
  | none => s
  | some t =>
    match tablePos t s.clock.toNat with
    | none => s
    | some (_, i, off) =>
      let opened := decide (c.base ≤ s.clock.toNat) && (st.slot == 0xFF || st.slot == i) && inWindow t i off
      if !c.started then (if opened then modColl s c.id fun x => { x with started := true } else s)
      else if opened then s else stepDone s c.id

/-- The step of a COLL that is next, begun when it may be. DEDUCED (log entry 62). -/
def stepGo (s : State) (c : Coll) (st : CollStep) : State :=
  if st.kind = 3 then waitGo s c st
  else if c.started then s
  else if st.kind = 2 then barrierGo s c st.b
  else match gate s c st.slot st.peer with
  | .wait => s
  | .noPath => finishColl s c.id 3 2 none
  | .dead => finishColl s c.id 3 5 none
  | .now p => if st.kind = 0 then sendGo s c st p else reduceGo s c st p

/-- COLL_STEP_START: the next step begins; a SENDQ and the arrival of an RTSW begin in the same way. -/
def execCollStepStart (id : Nat) (s : State) : Out :=
  happens (match getColl s id with
    | none => s
    | some c =>
      if !collLive s c then s
      else match c.steps[if c.what = 0 then c.step else 0]? with
      | none => s
      | some st =>
        if c.what = 0 then stepGo s c st
        else if c.started then s
        else if c.what = 1 then sendqGo s c st
        else barrierGo s c st.b)

/-- The freeze record (R484). -/
def freezeRecord (s : State) (c : Coll) : List Byte :=
  let f := c.freezing.getD (0, 0)
  let rot := match s.table with | some t => ((tablePos t c.frozeAt.toNat).map (·.1)).getD 0 | none => 0
  leBytes 8 c.block.toNat ++ leBytes 8 c.cid.toNat ++ leBytes 2 c.step ++ leBytes 1 f.1 ++ leBytes 1 f.2 ++ leBytes 4 rot ++
    leBytes 8 c.frozeAt.toNat ++ leBytes 32 0

/-- What the device has written at the end of an operation is on its way to its home. -/
def finalPending (s : State) (c : Coll) (code : Nat) : Bool :=
  fwPending s c.asid.toNat (c.block.toNat + 4) 4 || (code == 2 && c.what == 0 && fwPending s c.asid.toNat c.freeze.toNat 64)

/-- STATUS and, for a freeze, its record written by the device. -/
def writeFinal (s : State) (c : Coll) (code info : Nat) : State :=
  let asid := c.asid.toNat
  let s1 := if code = 2 then writeVa s asid c.freeze.toNat (freezeRecord s c) else s
  writeVa s1 asid (c.block.toNat + 4) (leBytes 4 (code + 2 ^ 8 * (c.step % 256) + 2 ^ 16 * info))

/-- The destination of a SENDQ that failed holds nothing that the manual states. -/
def spoilDest (s : State) (c : Coll) : State :=
  match c.steps with
  | st :: _ =>
    (lineParts st.b.toNat st.n).foldl (fun acc p =>
      match translateNow acc 0 c.asid.toNat c.user .write (BitVec.ofNat 64 p.1) with
      | .mem pa kind _ =>
        if kind == 3 || kind == 5 || wortHomeHit acc c.asid.toNat p.1 p.2 then acc
        else let r := acc.drawBytes p.2; homeWrite r.2 { who := some (c.asid.toNat, p.1), pa := pa, bytes := r.1 }
      | _ => acc) s
  | [] => s

/-- The trap of an operation that ended in failure (R477, R482, R490). -/
def collTrap (s : State) (c : Coll) (info : Nat) (lost : Option Nat) : State :=
  let t (cause : BitVec 8) (i : Nat) : State :=
    deferTrap s c.w { cause := cause, info := BitVec.ofNat 16 i, lanes := c.lanes, pc := c.pc, tag := c.tag }
  if info = 6 then t 0x28 (lost.getD 0xFFF) else if info = 0x60 then t 0x11 0x60 else t 0x29 info

/-- COLL_COMPLETE: the final STATUS is written; once it is visible c.col counts, and a failure traps (R481). A refused TOPO ends in the same way
without a trap (R492). -/
def execCollComplete (id : Nat) (s : State) : Out :=
  happens (match getColl s id with
    | none => s
    | some c =>
      match c.fin with
      | none => s
      | some (code, info, lost) =>
        let s1 := if c.wrote then s else if c.what = 0 then writeFinal s c code info else if c.what = 1 && code != 1 then spoilDest s c else s
        if (c.what == 0 || c.what == 3) && finalPending s1 c code then modColl s1 id fun x => { x with wrote := true }
        else
          let s2 := { s1.modKept c.w (fun w => countDone w .col c.tag) with colls := s1.colls.filter fun x => x.id != id }
          if code = 1 ∨ c.what = 3 then s2 else collTrap s2 c info lost)

/-- A page fault of an operation's source or destination: address and level (R489). -/
def collFault (s : State) (c : Coll) : Option (DWord × Nat) :=
  if !collLive s c || c.started then none
  else match c.steps[if c.what = 0 then c.step else 0]? with
  | none => none
  | some st =>
    if st.kind = 2 then
      (match translateNow s 0 c.asid.toNat c.user .write st.b with | .absent l => some (st.b, l) | _ => none)
    else if st.kind = 0 then stepFault s c st
    else none

end Sys2Proof.Machine
end

