-- ==== Sys2Proof/Machine/Topo.lean ====
section
/-! DEFINITION. TOPO and the change of topology (R473, R474, R492), package fences (R472), the ports' slots, windows, losses and power
(R462, R469, R483 to R486), fabric messages, barriers, and the death of a peer (R487). -/

namespace Sys2Proof.Machine

/-! ## The topology block (R464, R492) -/

def topoSize (bs : List Byte) : Nat := 0x440 + 64 * min (wordAt bs 3 1) 64

def slotOf (bs : List Byte) (i : Nat) : Slot :=
  { dur := wordAt bs (0x40 + 16 * i) 4, guard := wordAt bs (0x44 + 16 * i) 2, close := wordAt bs (0x46 + 16 * i) 2,
    matching := wordAt bs (0x48 + 16 * i) 1 }

/-- What a matching word names. -/
def matchOf (bs : List Byte) (m p : Nat) : Option (Nat × Nat) :=
  let v := wordAt bs (0x440 + 64 * m + 4 * p) 4
  if bitAt v 16 then some (bitsAt v 0 12, bitsAt v 12 4) else none

def tableOf (bs : List Byte) : Table :=
  { epoch := BitVec.ofNat 64 (wordAt bs 0x10 8)
    slots := (List.range (wordAt bs 2 1)).map (slotOf bs)
    matchings := (List.range (wordAt bs 3 1)).map fun m => (List.range 16).map (matchOf bs m) }

/-- The package runs a table: one is installed and some port is not slate (R474). -/
def hasTable (s : State) : Bool := s.table.isSome && s.ports.any fun p => p.st != .slate

/-- The timing of a slot without its matching. -/
def slotTiming (x : Slot) : Nat × Nat × Nat := (x.dur, x.guard, x.close)

/-- The first reason for which a block is refused; `routes` is the table that it names, none when that breaks R466. DEDUCED (log entry 66). -/
def topoReason (s : State) (bs : List Byte) (routes : Option (Nat × List Route)) (rt : Nat) : Option Nat :=
  let n := wordAt bs 2 1
  let m := wordAt bs 3 1
  let mask := wordAt bs 0 2
  let t := tableOf bs
  let now := s.clock.toNat
  let a := wordAt bs 8 8
  let e := wordAt bs 0x10 8
  let live := hasTable s
  let oldP := match s.table with | some o => max (periodOf o) 1 | none => 1
  let rsv := zeroIn bs 0x20 32 && ((List.range (min n 64)).all fun i => zeroIn bs (0x49 + 16 * i) 7) &&
    (List.range (min m 64)).all fun k => (List.range 16).all fun p => wordAt bs (0x440 + 64 * k + 4 * p) 4 < 2 ^ 17
  let shape := mask != 0 && decide (1 ≤ n) && decide (n ≤ 64) && decide (1 ≤ m) && decide (m ≤ 64) && t.slots.all fun x => decide (x.matching < m)
  let timing := (t.slots.all fun x => decide (300 ≤ x.guard) && decide (300 ≤ x.close) && decide (x.guard + x.close + 1500 ≤ x.dur)) &&
    decide (periodOf t ≤ 150000) &&
    (mask == 0xFFFF || !live || (match s.table with | some o => o.slots.map slotTiming == t.slots.map slotTiming | none => true))
  let boundary := !live || (match s.table with
    | some o => decide (o.epoch.toNat ≤ a) && (a - o.epoch.toNat) % oldP == 0 && decide (now + oldP ≤ a)
    | none => true)
  let epoch := if live then decide (a + 330000 ≤ e) else decide (now + 330000 ≤ e)
  let own := t.matchings.any fun x => x.any fun q => match q with | some k => k.1 == s.dev | none => false
  let checks : List (Nat × Bool) := [(1, rsv), (2, shape), (3, timing), (4, boundary), (5, epoch), (6, !own), (7, s.topo.isNone), (8, rt == 0 || routes.isSome)]
  (checks.find? fun c => !c.2).map (·.1)

/-- A port connected in some slot of a table. -/
def connected (t : Table) (p : Nat) : Bool := (List.range t.slots.length).any fun i => (peerIn t i p).isSome

/-- The ports of a mask begin to retrain, or are dark where the table leaves them or too few wavelengths are left (R462, R474). -/
def retrain (s : State) (mask : BitVec 16) (t : Table) : State :=
  { s with ports := s.ports.mapIdx fun p x =>
      if !mask.getLsbD p then x
      else if connected t p && decide (4 ≤ x.usable) then { x with st := .umber, locked := false } else { x with st := .slate, locked := false } }

/-- A TOPO accepted: with a table it waits for its amber phase, without one its ports go straight to umber. DEDUCED (log entry 66). -/
def startTopo (x : Issue) (s : State) (va : DWord) (bs : List Byte) (routes : Option (Nat × List Route)) : State :=
  let t := tableOf bs
  let mask := BitVec.ofNat 16 (wordAt bs 0 2)
  let live := hasTable s
  let y : Topo :=
    { mask := mask, act := BitVec.ofNat 64 (wordAt bs 8 8), table := t, routes := routes, block := va,
      asid := BitVec.ofNat 16 (s.warpAsid x.w), w := x.w.id, tag := x.tag, phase := if live then 0 else 3 }
  let s1 := { s.modWarp x.w.id (fun w => countUp w .col x.tag) with topo := some y }
  if live then s1
  else
    let s2 := retrain s1 mask t
    match routes with | some r => { s2 with seed := r.1, routes := r.2 } | none => s2

/-- A TOPO refused: STATUS 2 with the reason, and its c.col event once that is visible; nothing traps. -/
def refuseTopo (x : Issue) (s : State) (va : DWord) (reason : Nat) : State :=
  let s1 := writeVa s (s.warpAsid x.w) (va.toNat + 4) (leBytes 4 (2 + 2 ^ 8 * reason))
  let c := { collBase x s1 3 [] with block := va, fin := some (2, reason, none), wrote := true }
  if finalPending s1 c 2 then addColl x s1 c else s1.modWarp x.w.id fun w => countDone (countUp w .col x.tag) .col x.tag

/-- A TOPO whose block may not be read is refused too; no reason is stated for it. DESIGN CHOICE (log entry 108). -/
def topoStop (x : Issue) (s : State) (r : Got (List Byte) × State) (va at_ : DWord) : State :=
  match r.1 with
  | .deny 0xFFFF => snapStop x r at_
  | .deny _ => refuseTopo x s va 1
  | _ => snapStop x r at_

/-- The route table that a topology block names. -/
def topoRoutes (bs : List Byte) : DWord := BitVec.ofNat 64 (wordAt bs 0x18 8)

/-- Whether a block names a route table that can be read. -/
def namesRoutes (bs : List Byte) : Bool := topoRoutes bs != 0 && !blockBad (topoRoutes bs)

/-- TOPO. -/
def execTopo (h : Hdr) (a : Reg) (s : State) : Out :=
  let va (x : Issue) : DWord := rdP x.w a x.low
  let ready (x : Issue) (t : State) : Bool :=
    blockBad (va x) || (snapReady x t (va x) 0x440 topoSize &&
      (match (snapGot x t (va x) 0x440 topoSize).1 with
       | .done bs => !namesRoutes bs || snapReady x t (topoRoutes bs) 64 routeSize
       | _ => true))
  let ask (x : Issue) (t : State) : State :=
    let t1 := snapAsk x t (va x) 0x440 topoSize
    match (snapGot x t (va x) 0x440 topoSize).1 with
    | .done bs => if namesRoutes bs then snapAsk x t1 (topoRoutes bs) 64 routeSize else t1
    | _ => t1
  issueP (.topo h a) s ready ask fun x t =>
    if (va x).toNat % 64 ≠ 0 then issueTrap x t 0x10 0 x.e 0
    else if blockBad (va x) then refuseTopo x t (va x) 1
    else
      let r := snapGot x t (va x) 0x440 topoSize
      match r.1 with
      | .done bs =>
        let q := if namesRoutes bs then snapGot x r.2 (topoRoutes bs) 64 routeSize else (.deny 0, r.2)
        let routes := match q.1 with | .done rs => if routesOk rs then some (routesOf rs) else none | _ => none
        (match topoReason t bs routes (topoRoutes bs).toNat with
         | some k => refuseTopo x q.2 (va x) k
         | none => startTopo x q.2 (va x) bs routes)
      | _ => topoStop x t r (va x) (snapFault x t (va x) 0x440 topoSize)

/-! ## Messages that lose their path (R473) -/

def msgId : FabMsg → Option Nat
  | .request _ _ id .. => some id
  | .unit _ _ id .. => some id
  | _ => none

/-- A message that has no port any more: its lanes take FABRIC_PATH with INFO 2, deferred, and it is not sent. -/
def failPath (s : State) (m : FabMsg) : State :=
  let trap (t : State) (w : Nat) (lanes : LaneSet) (pc : DWord) (d : BitVec 11) (file : BitVec 3) (tag : Nat) : State :=
    deferTrap t w { cause := 0x29, info := 2, lanes := lanes, pc := pc, d := d, file := file, tag := tag }
  match m with
  | .request _ _ id .. =>
    (match s.unacked.find? fun u => u.1 == id with
     | some (_, w, tag, lane) =>
       let s1 := { s with unacked := s.unacked.filter fun u => u.1 != id }
       if ownEngine w then (if w == backOwner then (ownerCtxs s w tag).foldl containCtx s1 else s1)
       else if unitTag tag then { s1 with fetchBuf := s1.fetchBuf ++ [(w, lane, 2, 0)] }
       else match keptWarp s1 w with
       | none => s1
       | some x =>
         let l : LaneSet := 1#32 <<< lane
         (match x.stores.find? fun p => p.tag == tag with
          | some p => trap (s1.modKept w fun y => { y with stores := y.stores.map fun q =>
              if q.tag == tag then { q with remote := q.remote.filter fun k => k != id } else q }) w l p.pc p.d 0 tag
          | none => match (x.outs ++ x.reads).find? fun o => o.tag == tag with
            | some o => trap s1 w l o.pc o.d o.file tag
            | none => s1)
     | none =>
       match s.copies.find? fun c => c.asks.any fun a => a.1 == id with
       | some c =>
         copyStop (modCopy s c.id fun y => { y with asks := y.asks.filter fun a => a.1 != id }) c true
       | none => { s with racks := updAt (fun k => k.asks.contains id) (fun k =>
           { k with asks := k.asks.filter (· != id), refused := true }) s.racks })
  | .unit _ _ id .. => takeUnitAck s id false 2
  | .reduce _ _ cid step .. =>
    (s.colls.filter fun c => c.cid == cid && c.step == step && c.awaits.isSome).foldl (fun acc c => finishColl acc c.id 3 2 none) s
  | .barArrive _ _ asid obj => (s.colls.filter fun c => c.waitBar == some obj && c.asid.toNat == asid).foldl (fun acc c => finishColl acc c.id 3 2 none) s
  | _ => s

/-- Whether a message goes by the lowest port that reaches its package: those of SEND and REDUCE steps (R479). -/
def isDirect : FabMsg → Bool
  | .unit _ _ _ _ _ true _ _ => true
  | .reduce .. => true
  | _ => false

/-- A held message sent by R467 as the ports now stand; one without a port waits while a TOPO is still to install its table, and fails after
it (R473). -/
def resend (s : State) (h : Nat × FabMsg × Option DWord) : State :=
  let m := h.2.1
  let l := msgLine m
  let lost (t : State) : State := if t.topo.any fun t => decide (t.phase ≤ 3) then { t with holding := t.holding ++ [h] } else failPath t m
  if isDirect m then
    (match portsTo s (msgDst m) with
     | p :: _ => enqueue s p (msgDst m) m h.2.2
     | [] => lost s)
  else (sendFor s (msgDst m) l.1 l.2 m h.2.2).getD (lost s)

/-- The holding queue drained in its order. -/
def drainHolding (s : State) : State := s.holding.foldl resend { s with holding := [] }

/-! ## Fences (R472) -/

def queuedMsgs (s : State) : List FabMsg := s.ports.flatMap (fun p => p.queue.map (·.2.1)) ++ s.holding.map (·.2.1)

/-- Everything sent has been acknowledged by its home; what still waits in a queue has not been sent. -/
def fenceClear (s : State) : Bool :=
  let waiting := (queuedMsgs s).filterMap msgId
  (openIds s).all fun k => waiting.contains k

/-- Participants of the barriers coordinated here that the new table does not reach are removed (R477). -/
def dropUnreached (s : State) : State :=
  (barObjects s).foldl (fun acc b =>
    (List.range 4096).foldl (fun t p =>
      if p != t.dev && bitAt (barObj t b.1 b.2).2.1 p && !tableReaches t p b.1 b.2.toNat then barRemove t p b.1 b.2 else t) acc) s

/-- The tables of the RTSWs whose release has come are installed (R493). -/
def installRtsw (s : State) : State :=
  (s.colls.filter fun c => c.what == 2 && c.step == 1 && c.fin.isNone).foldl (fun acc c =>
    match c.routes with
    | some r => finishColl (dropUnreached { acc with seed := r.1, routes := r.2 }) c.id 1 0 none
    | none => finishColl acc c.id 1 0 none) s

/-- PACKAGE_FENCE_DONE: route tables are installed, the ports of a TOPO retrain, and the package sends again. -/
def execPackageFenceDone (s : State) : Out :=
  happens (if !s.fencing || !fenceClear s then s
    else
      let s1 := installRtsw { s with fencing := false }
      let s2 := match s1.topo with
        | some t =>
          if t.phase = 2 then
            let u := { retrain s1 t.mask t.table with topo := some { t with phase := 3 } }
            (match t.routes with | some r => { u with seed := r.1, routes := r.2 } | none => u)
          else s1
        | none => s1
      drainHolding s2)

/-! ## The change of topology (R473) -/

/-- TOPO_AMBER: one rotation before the activation. -/
def execTopoAmber (s : State) : Out :=
  happens (match s.topo, s.table with
    | some t, some o =>
      if t.phase = 0 ∧ t.act.toNat ≤ s.clock.toNat + periodOf o then
        { s with topo := some { t with phase := 1 }, ports := s.ports.mapIdx fun p x =>
            if t.mask.getLsbD p && x.st == .cobalt then { x with st := .amber } else x }
      else s
    | _, _ => s)

/-- TOPO_ACTIVATION: the fence begins, and every message not yet sent is held (R473). -/
def execTopoActivation (s : State) : Out :=
  happens (match s.topo with
    | some t =>
      if t.phase = 1 ∧ t.act.toNat ≤ s.clock.toNat then holdPorts { s with topo := some { t with phase := 2 }, fencing := true } 0xFFFF else s
    | none => s)

/-- The new table with the matchings that ports outside the mask keep: one matching for each slot. -/
def mergeTable (old : Option Table) (t : Table) (mask : BitVec 16) : Table :=
  { t with
    slots := t.slots.mapIdx fun i x => { x with matching := i }
    matchings := (List.range t.slots.length).map fun i => (List.range 16).map fun p =>
      if mask.getLsbD p then peerIn t i p else match old with | some o => peerIn o i p | none => none }

/-- The new table runs from its epoch, and the holding queue drains by R467. -/
def installTable (s : State) : State :=
  match s.topo with
  | some t =>
    if t.phase = 3 ∧ t.table.epoch.toNat ≤ s.clock.toNat then
      drainHolding (dropUnreached { s with table := some (mergeTable s.table t.table t.mask), topo := some { t with phase := 4 } })
    else s
  | none => s

/-- STATUS 1 once every port of the mask is cobalt or dark, and when it is visible the c.col event of TOPO (R492). -/
def topoFinish (s : State) : State :=
  match s.topo with
  | some t =>
    let pending (u : State) : Bool := fwPending u t.asid.toNat (t.block.toNat + 4) 4
    let done (u : State) : State := { u.modKept t.w (fun w => countDone w .col t.tag) with topo := none }
    if t.phase = 4 && (List.range 16).all (fun p => !t.mask.getLsbD p || (s.port p).st == .cobalt || (s.port p).st == .slate) then
      let u := writeVa s t.asid.toNat (t.block.toNat + 4) (leBytes 4 1)
      if pending u then { u with topo := some { t with phase := 5 } } else done u
    else if t.phase = 5 && !pending s then done s
    else s
  | none => s

/-! ## Slots and windows (R465, R469) -/

/-- The slot now running is in its guard, or there is no slot. -/
def inGuard (s : State) : Bool :=
  match s.table with
  | none => true
  | some t =>
    match tablePos t s.clock.toNat with
    | some (_, i, off) => (match t.slots[i]? with | some x => decide (off < x.guard) | none => true)
    | none => true

/-- A port that a pending TOPO still retrains. -/
def topoHolds (s : State) (port : Nat) : Bool := match s.topo with | some t => t.phase == 3 && t.mask.getLsbD port | none => false

/-- SLOT_START: a new table at its epoch, and a locked port, come to run. -/
def execSlotStart (port : Nat) (s : State) : Out :=
  let s1 := installTable s
  let s2 :=
    if (s1.port port).st == .umber && (s1.port port).locked && inGuard s1 && !topoHolds s1 port then
      s1.modPort port fun p => { p with st := .cobalt, locked := false }
    else s1
  happens (topoFinish s2)

/-- SLOT_WINDOW_OPEN: the queued messages for the peer are sent. -/
def execSlotWindowOpen (port : Nat) (s : State) : Out := happens (sendWindow s port)

/-- The package that the running slot connects a port to. -/
def peerNow (s : State) (port : Nat) : Option Nat :=
  s.table.bind fun t => (slotNow s).bind fun i => (peerIn t i port).map (·.1)

/-- SLOT_WINDOW_CLOSE: what is still queued for the slot's package has overrun, and the decision of R470 is made again. -/
def execSlotWindowClose (port : Nat) (s : State) : Out := happens (if (openPeer s port).isSome then s else match peerNow s port with | some pkg => divert s port pkg | none => s)

/-- PORT_LOCK: the retraining port has locked on every active wavelength. -/
def execPortLock (port : Nat) (s : State) : Out :=
  happens (if (s.port port).st == .umber then
      s.modPort port fun p => { p with locked := true, width := min p.usable p.cap }
    else s)

/-! ## Messages -/

/-- FABRIC_MESSAGE_RECEIVE. -/
def execFabricMessageReceive (port : Nat) (m : FabMsg) (s : State) : Out :=
  happens (receiveMsg s port m)
/-- RELAY_FORWARD: a kept message goes on. -/
def execRelayForward (port n : Nat) (s : State) : Out := happens (relayOn s port n)
/-- REDUCE_APPLY: the last unit of a REDUCE step has arrived; a step that would write in a sealed frame waits (R395). -/
def execReduceApply (src : Nat) (m : FabMsg) (s : State) : Out :=
  happens (match m with | .reduce a .. => if a = src then (takeReduce s m).getD s else s | _ => s)

/-- FABRIC_BARRIER_ARRIVAL: an arrival of another package at a barrier coordinated here. -/
def execFabricBarrierArrival (pkg asid : Nat) (obj : DWord) (s : State) : Out :=
  happens (match translateNow s 0 asid false .write obj with
    | .mem _ 2 _ => if pkg = s.dev then s else barArrive s pkg asid obj
    | _ => s)

/-- FABRIC_BARRIER_RELEASE: an answer from another package's coordinator. -/
def execFabricBarrierRelease (r : BarRef) (lost : Option Nat) (s : State) : Out :=
  happens (if s.colls.any fun c => c.waitBar == some r.obj && c.asid.toNat == r.asid && coordinator s c r.obj != some s.dev then
      barAnswer s r.asid r.obj lost else s)

/-! ## Light and power (R483 to R486) -/

/-- Whether the step that a collective runs uses a port: the lowest that its slot connects to the peer (R479). -/
def usesPort (s : State) (c : Coll) (port : Nat) : Bool :=
  let runs (i peer : Nat) (t : Table) (k : Nat) : Bool :=
    (k == port || (s.port k).st != .slate) && (match peerIn t i k with | some q => q.1 == peer | none => false)
  match c.steps[c.step]?, s.table with
  | some st, some t =>
    c.started && decide (st.kind < 2) && (List.range t.slots.length).any fun i => (st.slot == 0xFF || st.slot == i) && (List.range 16).find? (runs i st.peer t) == some port
  | _, _ => false

/-- An abandoned step leaves no message of its own to be sent later (R484). -/
def dropStep (s : State) (c : Coll) : State :=
  let own (m : Nat × FabMsg × Option DWord) : Bool := match m.2.1 with
    | .unit _ _ id .. => c.pendingU.any fun u => u.1 == id
    | .reduce src _ cid step .. => src == s.dev && cid == c.cid && step == c.step
    | _ => false
  { s with
    ports := s.ports.map fun p => { p with queue := p.queue.filter fun m => !own m }
    holding := s.holding.filter fun m => !own m }

/-- Every collective in flight freezes at its next step boundary; a step that needs a dark port is abandoned (R484). -/
def freezeColls (s : State) (cause port : Nat) : State :=
  let dark := (s.port port).st == .slate
  let now (c : Coll) : Coll :=
    { c with freezing := some (cause, port), frozeAt := s.clock, pendingU := [], awaits := none, waitBar := none
             fin := some (if c.freeze == 0 then 3 else 2, 1, none) }
  let gone := s.colls.filter fun c => c.what == 0 && c.fin.isNone && c.started && dark && usesPort s c port
  let s1 := gone.foldl dropStep s
  { s1 with colls := s1.colls.map fun c =>
      if c.what != 0 || c.fin.isSome then c
      else if !c.started || (dark && usesPort s c port) then now c
      else { c with freezing := some (cause, port) } }

/-- The contexts of requests among some identities that no home has answered. -/
def openCtxs (s : State) (ids : List Nat) : List Nat :=
  ((s.unacked.filter fun u => ids.contains u.1).flatMap fun u => ownerCtxs s u.2.1 u.2.2.1) ++
    ((s.copies.filter fun c => c.asks.any fun a => ids.contains a.1).map (·.ctx)) ++
    (s.racks.filter fun k => k.asks.any fun a => ids.contains a).map fun k => ((s.getRegion k.region).map (·.ctx)).getD 0

/-- Requests given up. -/
def dropIds (s : State) (ids : List Nat) : State := { s with unacked := s.unacked.filter fun u => !ids.contains u.1 }

/-- A port that has gone dark: what was sent through it and not acknowledged ends its contexts, and the package fences before it uses
other paths (R485). A port controller that has been declared dead is contained also when nothing was open on it (R457). -/
def portSlate (s : State) (port : Nat) (declared : Bool) : State :=
  let ids := (s.sent.filter fun x => x.1 == port).filterMap fun x => match x.2 with | .request src _ id .. => if src = s.dev then some id else none | _ => none
  let open_ := ids.filter fun k => (openIds s).contains k
  let cs := (openCtxs s open_).eraseDups
  let s1 := holdPorts { s with fencing := true } (1#16 <<< port)
  dropIds (if open_.isEmpty && !declared then s1 else contain s1 (.port port) cs) open_

/-- A port with one wavelength less: the spare takes its place, or the port narrows (R483). -/
def loseWavelength (s : State) (port cause : Nat) : State :=
  let p := s.port port
  let left := p.usable - 1
  let st : PortState := if left < 4 then .slate else if p.st == .slate then .slate else .umber
  let s0 := s.modPort port fun x =>
    { x with usable := left, spareUsed := true, cap := if x.spareUsed then portWidth x - 1 else x.cap, st := st, locked := false,
             width := if left < 4 then 0 else x.width }
  let s1 := { s0 with degraded := true }
  let dark := st == .slate && p.st != .slate
  let s2 := freezeColls s1 (if dark then 3 else cause) port
  if dark then portSlate s2 port false else s2

/-- WAVELENGTH_LOSS. DESIGN CHOICE (log entry 67). -/
def execWavelengthLoss (port : Nat) (l : LightLoss) (s : State) : Out :=
  happens (loseWavelength s port (match l with | .wavelength => 1 | .laser => 2))

/-- MONITOR_POWER_REQUEST: granted while the error rate is too high (R486). -/
def execMonitorPowerRequest (port : Nat) (berq : Nat) (s : State) : Out :=
  happens (s.modPort port fun p => { p with berq := min berq 255, hold := decide (berq < 120) })

/-- POWER_RECLAIM: refused to the monitor's grant, the manager narrows the port by one wavelength instead, never below four. DESIGN CHOICE (log entry 67). -/
def execPowerReclaim (port : Nat) (s : State) : Out :=
  let p := s.port port
  happens (if p.hold && decide (4 < portWidth p) then
      s.modPort port fun x => { x with cap := portWidth x - 1, st := if x.st == .slate then .slate else .umber, locked := false }
    else s)

/-! ## Death of a peer (R487) -/

/-- The messages that wait for a relay that is gone go by their direct path. -/
def unrelay (s : State) (pkg : Nat) : State :=
  let away (m : Nat × FabMsg × Option DWord) : Bool := m.1 == pkg && msgDst m.2.1 != pkg
  let moved := s.ports.flatMap fun p => p.queue.filter away
  moved.foldl resend { s with ports := s.ports.map fun p => { p with queue := p.queue.filter fun m => !away m && msgDst m.2.1 != pkg }
                              holding := s.holding.filter fun m => msgDst m.2.1 != pkg }

/-- A collective with steps, or a SENDQ with units, toward a package. -/
def towards (ids : List Nat) (pkg : Nat) (c : Coll) : Bool :=
  if c.what = 1 then c.pendingU.any fun u => ids.contains u.1
  else if c.what = 0 then (c.steps.drop c.step).any fun st => decide (st.kind < 2) && st.peer == pkg
  else false

/-- A peer declared dead. -/
def peerDead (s : State) (pkg : Nat) : State :=
  let msgs := s.sent.map (·.2) ++ queuedMsgs s
  let reqs := msgs.filterMap fun m => match m with | .request _ d id .. => if d = pkg then some id else none | _ => none
  let units := msgs.filterMap fun m => match m with | .unit _ d id .. => if d = pkg then some id else none | _ => none
  let open_ := reqs.filter fun k => (openIds s).contains k
  let cs := (openCtxs s open_).eraseDups
  let s1 := { s with deadPkgs := s.deadPkgs ++ [pkg] }
  let s2 := dropIds (contain s1 (.peer pkg) cs) open_
  let s3 := (s2.colls.filter (towards units pkg)).foldl (fun acc c => finishColl acc c.id 3 5 none) s2
  let s4 := (s3.colls.filter fun c => match c.waitBar with | some obj => coordinator s3 c obj == some pkg | none => false).foldl
    (fun acc c => finishColl acc c.id 3 6 (some pkg)) s3
  (barObjects s4).foldl (fun acc b => barRemove acc pkg b.1 b.2) (unrelay s4 pkg)

/-- PEER_HEARTBEAT_TIMEOUT. -/
def execPeerHeartbeatTimeout (pkg : Nat) (s : State) : Out :=
  happens (if pkg = s.dev || s.deadPkgs.contains pkg then s else peerDead s pkg)

end Sys2Proof.Machine
end

