-- ==== Sys2Proof/Machine/Events.lean ====
section
/-! DEFINITION. The events of a warp's memory accesses: results written back (R80, R83), stores made visible (R214, R331, R333),
gathers and scatters (R236), page faults (R92, R385, R386), deferred traps (R162, R204), refusals of a sealed home (R395), memory-side
operations (R392), errors of another package (R391) and the package services (R455). -/

namespace Sys2Proof.Machine

/-! ## Results written back (R83) -/

/-- The words of a lane written to the registers of an entry, where no younger write has won. -/
def wrWords (w : Warp) (o : Outst) (v : Nat × List Word) : Warp :=
  (o.dsts.zip v.2).foldl (fun acc p => wrVLate acc (BitVec.ofNat 11 p.1) v.1 o.tag p.2) w

/-- Some lanes of an outstanding result written, with their flags (R132), and no longer outstanding (R80, R214). DEDUCED (log entry 12). -/
def deliver (s : State) (wid : Nat) (o : Outst) (vals : List (Nat × List Word)) (flags : List (Nat × Flags)) : State :=
  s.modWarp wid fun w =>
    withdraw (mergeFlags flags (vals.foldl (fun acc v => wrWords acc o v) w)) o.tag (laneSet (vals.map (·.1)))

/-- The places of a list whose bit is set in a choice of registers. -/
def chosen {α : Type} (regs : BitVec 4) (l : List α) : List α :=
  (l.zipIdx.filter fun p => regs.getLsbD p.2).map (·.1)

/-- Every destination register of a result. -/
def allRegs : BitVec 4 := 0xF

/-- Some destination registers of an outstanding result written in some lanes, the flags with them: their other registers stay
outstanding on their own (R82). -/
def deliverSome (s : State) (wid : Nat) (o : Outst) (vals : List (Nat × List Word)) (flags : List (Nat × Flags)) (regs : BitVec 4) : State :=
  let dsts := chosen regs o.dsts
  let later := chosen (~~~ regs) o.dsts
  if later.isEmpty then deliver s wid o vals flags
  else if dsts.isEmpty || vals.isEmpty then s
  else
    let ls := laneSet (vals.map (·.1))
    let rest := { o with lanes := ls, dsts := later, res := .values (vals.map fun v => (v.1, chosen (~~~ regs) v.2)) [] }
    s.modWarp wid fun w =>
      let w1 := mergeFlags flags (vals.foldl (fun acc v => wrWords acc { o with dsts := dsts } (v.1, chosen regs v.2)) w)
      let outs := w1.outs.map fun q => if q.tag == o.tag then { q with lanes := q.lanes &&& ~~~ ls } else q
      { w1 with outs := (outs.filter fun q => q.lanes != 0) ++ [rest] }

/-- The values of a result formed: they arrive in their lanes and registers each on its own (R82). -/
def formed (s : State) (wid : Nat) (o : Outst) (vals : List (Nat × List Word)) : State :=
  s.modWarp wid fun w => { w with outs := w.outs.map fun q => if q == o then { q with res := .values vals [] } else q }

/-- A result formed whole, of which some lanes and registers are written at once. -/
def deliverFormed (s : State) (wid : Nat) (o : Outst) (vals : List (Nat × List Word)) (ls : LaneSet) (regs : BitVec 4) : State :=
  deliverSome (formed s wid o vals) wid { o with res := .values vals [] } (vals.filter fun v => ls.getLsbD v.1) [] regs

/-- The lanes of an entry with one value each. -/
def perLane (o : Outst) (f : Nat → Nat) : List (Nat × List Word) := (lanesOf o.lanes).map fun l => (l, wordsOf true (f l))

/-- The value that an argument list gives a lane. -/
def argOf {α : Type} (d : α) (l : List (Nat × α)) (k : Nat) : α := ((l.find? fun a => a.1 == k).map (·.2)).getD d

/-- The flits that a port has replayed in the last millisecond, sampled (R463). DESIGN CHOICE (log entry 103). -/
def sampleReplay (s : State) (port : Nat) : State :=
  let r := s.drawDWord
  r.2.modPort port fun p => { p with replay := r.1.toNat % 2 ^ 16 }

/-- The reply of a unit to the lanes of its instruction (R75, R166, R225, R262, R369, R465, R463); none while it cannot come yet. A
sample of the clock or of another unit's state is taken when its reply is formed. DESIGN CHOICE (log entry 94). -/
def unitReply (s : State) (w : Warp) (o : Outst) : Option (List (Nat × List Word) × State) :=
  match o.res with
  | .clock => some (perLane o fun _ => s.clock.toNat, s)
  | .mqry seqs => some (perLane o fun l => (mqryWord w (argOf 0 seqs l)).toNat, s)
  | .aqryReg ids => some (perLane o fun l => (aqryRegWord s w (argOf 0 ids l)).toNat, s)
  | .aqryLine ids => some (perLane o fun l => let p := argOf (0, 0) ids l; (aqryLineWord s w p.1 p.2).toNat, s)
  | .barq b => some (perLane o fun _ => barqValue s w b, s)
  | .wcall r => if 1 ≤ recordService r && recordService r ≤ 4 then none else some (perLane o fun _ => 2 ^ 64 - 1, s)
  | .slotq pkgs => some (perLane o fun l => slotqWord s (argOf 0 pkgs l), s)
  | .slotqCur =>
    (match slotqCurWord s with
     | some v => some (perLane o fun _ => v, s)
     | none => let r := s.drawDWord; some (perLane o fun _ => r.1.toNat, r.2))
  | .linkq ports =>
    let t := (ports.map (·.2)).eraseDups.foldl sampleReplay s
    some (perLane o fun l => linkqWord t (argOf 0 ports l), t)
  | _ => none

/-- The result of a covered special-function instruction (R137, R138): every lane at once, and the trap of those that raised an
enabled flag. DEDUCED (log entry 15). -/
def coveredBack (s : State) (w : Warp) (o : Outst) (vals : List (Nat × Word)) (flags : List (Nat × Flags)) (en : Flags) : State :=
  let mine (l : Nat) : Bool := o.lanes.getLsbD l
  let fs := flags.filter fun f => mine f.1
  let tr := laneSet ((fs.filter fun f => f.2 &&& en != 0).map (·.1))
  let good := (vals.filter fun v => mine v.1 && !tr.getLsbD v.1).map fun v => (v.1, [v.2])
  let s1 := (deliver s w.id o good fs).modWarp w.id fun x => withdraw x o.tag o.lanes
  if tr == 0 then s1
  else
    let t : Trap := { cause := fpCause (fs.foldl (fun acc f => acc ||| (f.2 &&& en)) 0), lanes := tr, pc := o.pc, d := o.d, file := o.file,
                      tag := o.tag }
    let free := (List.range 32).all fun l => !tr.getLsbD l || (w.lane l).st == .ready
    if free && (!w.inTrap || tr &&& w.hmask != 0) then takeTrap s1 w.id t fun _ y => y.pc else lateTrap s1 w.id t

/-- A result that takes its place in warp order behind the older reads (R206, R333). -/
def inOrder (r : Result) : Bool :=
  match r with
  | .load .gather .. => false
  | .load .param .. => false
  | _ => true

/-- An LDC with one address in all its lanes (R207). -/
def oneAddress (o : Outst) : Bool :=
  match o.res with
  | .load .param _ addrs => addrs.all fun a => some a.2 == (addrs.head?.map (·.2))
  | _ => false

/-- Such an LDC reads once, and what it has read serves the whole run (R207). -/
def readOnce (s : State) (w : Warp) (o : Outst) (ls : LaneSet) (regs : BitVec 4) : State :=
  let r := readLanes s w o [] ((lanesOf o.lanes).take 1)
  match r.1 with
  | v :: _ => deliverFormed r.2 w.id o ((lanesOf o.lanes).map fun l => (l, v.2)) ls regs
  | [] => r.2

/-- The lanes of a read that can be performed now are performed and written; an atomic performs its lanes from the lowest on (R213). -/
def readBack (s : State) (wid : Nat) (o : Outst) (ls : LaneSet) (regs : BitVec 4) : State :=
  match s.getWarp wid with
  | none => s
  | some w0 =>
    let older := if inOrder o.res then performOlder s wid (olderReads w0 o.tag) else (true, s)
    match older.2.getWarp wid with
    | none => older.2
    | some w =>
      if !older.1 || !atomReady w o then older.2
      else if oneAddress o then readOnce older.2 w o ls regs
      else
        let r := readLanes older.2 w o [] (lanesOf (if isAtomic o.res then o.lanes else o.lanes &&& ls))
        deliverSome (keepDone r.2 wid o r.1) wid o (r.1.filter fun v => ls.getLsbD v.1) [] regs

/-- The reply of a LAUNCH, once every older store of its warp is visible at dev scope (R167, R407). -/
def launchBack (s : State) (w : Warp) (o : Outst) (a : DWord) (v : Word) (ls : LaneSet) (regs : BitVec 4) : State :=
  if (olderStores w o.tag).isEmpty then
    let m := makeVisible s w .dev
    if m.1 then
      let r := launchFor m.2 w a v
      match r.1 with
      | some d => deliverFormed r.2 w.id o (perLane o fun _ => d.toNat) ls regs
      | none => r.2
    else m.2
  else s

/-- The value of an outstanding result written in some lanes, to some of its registers. -/
def writeBackOut (s : State) (w : Warp) (o : Outst) (ls : LaneSet) (regs : BitVec 4) : State :=
  match o.res with
  | .values vals flags =>
    let here (l : Nat) : Bool := (o.lanes &&& ls).getLsbD l
    deliverSome s w.id o (vals.filter fun v => here v.1) (flags.filter fun f => here f.1) regs
  | .special vals flags en =>
    if en == 0 then
      let here (l : Nat) : Bool := (o.lanes &&& ls).getLsbD l
      deliver s w.id o ((vals.filter fun v => here v.1).map fun v => (v.1, [v.2])) (flags.filter fun f => here f.1)
    else coveredBack s w o vals flags en
  | r =>
    if isRead r then readBack s w.id o ls regs
    else match r with
    | .launch a v => launchBack s w o a v ls regs
    | _ =>
      match unitReply s w o with
      | some p => deliverFormed p.2 w.id o p.1 ls regs
      | none => s

/-- The entry of an issue tag that has some of the lanes: an outstanding result, or the coherent read of a WATCH. -/
def entryFor (w : Warp) (tag : Nat) (lanes : LaneSet) : Option Outst :=
  match w.outs.find? fun o => o.tag == tag && o.lanes &&& lanes != 0 with
  | some o => some o
  | none => w.reads.find? fun o => o.tag == tag && o.lanes &&& lanes != 0 &&
      (match o.res with | .watch .. => true | .values .. => true | _ => false)

/-- RESULT_WRITEBACK: an outstanding result arrives for some lanes, in some of its registers, each on its own (R82). -/
def execResultWriteback (w tag : Nat) (part : Arrival) (s : State) : Out :=
  happens (match s.getWarp w with
    | none => s
    | some x =>
      match entryFor x tag part.lanes with
      | none => s
      | some o => writeBackOut s x o part.lanes part.regs)

/-! ## Stores made visible (R214, R333) -/

/-- The oldest posted store of a warp in warp order. -/
def headStore (w : Warp) : Option PStore := w.stores.find? fun p => p.ctr == .st

/-- Nothing of a store is left to do, everything of it has been acknowledged, and an entry that it commits has taken effect (R314). -/
def storeOver (s : State) (p : PStore) : Bool :=
  (storeParts p).isEmpty && p.remote.isEmpty && p.window == 0 && p.frame.all fun f => decide (f ≤ frameNow s)

/-- A store put back as it now stands, or dropped and counted when it is over. -/
def putStore (s : State) (wid : Nat) (p : PStore) : State :=
  s.modWarp wid fun w =>
    if storeOver s p then countDone { w with stores := w.stores.filter fun q => q.tag != p.tag } p.ctr p.tag
    else { w with stores := w.stores.map fun q => if q.tag == p.tag then p else q }

/-- The parts of a store that can be performed now are performed, in lane order. -/
def advanceStore (s : State) (wid : Nat) (p : PStore) : State :=
  match s.getWarp wid with
  | none => s
  | some w =>
    let a := windowSend s w p
    let b := tryParts a.1 w a.2 (storeParts a.2)
    let words : Bool := match a.2.op with | .write .scratch _ => false | .write .. => true | _ => false
    let commits := words && (storeParts a.2).any fun x => !((storeParts b.2).any fun y => y.1 == x.1) &&
      (match walkNow s (s.warpCore w) p.asid (s.warpUser w) .write x.2.1 with | .ctrl pa => ctrlCommits pa | _ => false)
    putStore b.1 wid { b.2 with sent := true, frame := if commits then some (frameNow s + 1) else b.2.frame }

/-- The head store of a warp goes on: its older reads first (R333 rule 3), then the release effect of MARV and TSIG (R218), then its
parts. -/
def storeVisible (s : State) (wid : Nat) : State :=
  match s.getWarp wid with
  | none => s
  | some w =>
    match headStore w with
    | none => s
    | some p =>
      if p.retryAt.isSome then s
      else
        let older := performOlder s wid (olderReads w p.tag)
        if !older.1 then older.2
        else match storeScope p.op with
        | none => advanceStore older.2 wid p
        | some sc =>
          let m := makeVisible older.2 w sc
          if m.1 then advanceStore m.2 wid p else m.2

/-- STORE_VISIBLE. -/
def execStoreVisible (w : Nat) (s : State) : Out := happens (storeVisible s w)

/-- GATHER_COMPLETE: a gather writes what it has read, a scatter writes its items (R236). -/
def execGatherComplete (w tag : Nat) (s : State) : Out :=
  happens (match s.getWarp w with
    | none => s
    | some x =>
      match x.outs.find? fun o => o.tag == tag && o.ctr == some .gat, x.stores.find? fun p => p.tag == tag && p.ctr == .gat with
      | some o, _ => writeBackOut s x o o.lanes allRegs
      | none, some p => advanceStore s w p
      | none, none => s)

/-! ## Sealed homes, memory-side pages, other packages -/

/-- The home that refuses a part of a store because its frame is sealed (R395). -/
def sealedHome (s : State) (w : Warp) (p : PStore) : Option Nat :=
  (storeParts p).findSome? fun x =>
    match walkNow s (s.warpCore w) p.asid (s.warpUser w) .write x.2.1 with
    | .mem pa _ _ => if sealedPa s pa then some (pa / 2 ^ 36 % 16) else none
    | _ => none

/-- A store's retry time set or cleared. -/
def setRetry (s : State) (wid tag : Nat) (t : Option DWord) : State :=
  s.modWarp wid fun w => { w with stores := w.stores.map fun q => if q.tag == tag then { q with retryAt := t } else q }

/-- RBO of a home in ticks (R377). -/
def retryTicks (d : Die) : Nat := max (bitsAt d.lctl.toNat 8 8) 1 * Config.ticksPerUs

/-- SEALED_REFUSAL: the head store of a warp is refused by a sealed home and backs off. -/
def execSealedRefusal (w : Nat) (s : State) : Out :=
  happens (match s.getWarp w with
    | none => s
    | some x =>
      match headStore x with
      | none => s
      | some p =>
        match sealedHome s x p with
        | some d => if p.retryAt.isSome then s else setRetry s w p.tag (some (s.clock + BitVec.ofNat 64 (retryTicks (s.getDie d))))
        | none => s)

/-- RETRY_AFTER_EXPIRY: the back-off has run out and the store goes to its home again. -/
def execRetryAfterExpiry (w : Nat) (s : State) : Out :=
  happens (match s.getWarp w with
    | none => s
    | some x =>
      match headStore x with
      | none => s
      | some p =>
        match p.retryAt with
        | some t => if t.toNat ≤ s.clock.toNat then storeVisible (setRetry s w p.tag none) w else s
        | none => s)

/-- Whether an address lies on a memory-side page. -/
def onSidePage (s : State) (w : Warp) (asid : Nat) (want : Want) (va : DWord) : Bool :=
  match walkNow s (s.warpCore w) asid (s.warpUser w) want va with
  | .mem _ 2 _ => true
  | _ => false

/-- The oldest read of a warp that is still to be performed. -/
def headRead (w : Warp) : Option Outst := (olderReads w (w.issued + 1)).head?

/-- MEMORY_SIDE_OP: the base-die unit performs the oldest memory-side access of a warp, a read or a store. -/
def execMemorySideOp (w : Nat) (s : State) : Out :=
  happens (match s.getWarp w with
    | none => s
    | some x =>
      let storeSide : Bool := match headStore x with
        | some p => (storeParts p).any fun k => onSidePage s x p.asid .write k.2.1
        | none => false
      match headRead x with
      | some o =>
        if (lanesOf o.lanes).any fun l => onSidePage s x o.asid .read (readAddr o l) then (performRead s w o).2
        else if storeSide then storeVisible s w else s
      | none => if storeSide then storeVisible s w else s)

/-- REMOTE_REQUEST_ERROR: another package answers a request of an instruction with an error. -/
def execRemoteRequestError (w tag : Nat) (s : State) : Out :=
  happens (match s.unacked.find? fun u => u.2.1 == w && u.2.2.1 == tag with
    | some u => takeReply s u.1 false 0
    | none => s)

/-- ROUTING_REFUSAL: the home map names another home than the translation does, so the home refuses and the entry goes (R384). -/
def execRoutingRefusal (c : CoreId) (asid region : Nat) (s : State) : Out :=
  happens (
    let va := region * 512
    let gone : Bool := match homeMapOf (s.getCore c) asid va, translateNow s c.die asid false .read (BitVec.ofNat 64 va) with
      | some e, .mem pa _ _ => e != (s.dev, pa / 2 ^ 36)
      | some e, .far pkg _ => e.1 != pkg
      | _, _ => false
    if gone then s.modCore c fun x => { x with homeMap := x.homeMap.filter fun e => !(e.1 == asid && e.2.1 == va / 2 ^ 21) } else s)

/-! ## Failures found late (R92, R162, R204) -/

/-- The late failures of an entry; those of an MWAIT are found by its sleeping lanes (R227). -/
def entryLates (s : State) (w : Warp) (o : Outst) : List Late :=
  match o.res with
  | .mwait =>
    (List.range 32).filterMap fun l =>
      match mwaitOf (w.lane l) with
      | some (va, _, _, tag, _) => if tag == o.tag then lateOf l va (mwaitRead s w l va tag).1 else none
      | none => none
  | _ => readLates s w o

def faultLanes (fs : List Late) : List (Nat × DWord × Nat) :=
  fs.filterMap fun f => match f with | .fault l va lv => some (l, va, lv) | _ => none
def denyLanes (fs : List Late) : List (Nat × BitVec 16) := fs.filterMap fun f => match f with | .deny l i => some (l, i) | _ => none
def hasErr (fs : List Late) : Bool := fs.any fun f => match f with | .err _ => true | _ => false

/-- Access kind of a store in a fault record (R385). -/
def storeKind : StoreOp → Nat
  | .write .kiln _ => 4
  | .write .. => 1
  | .scatter _ => 1
  | _ => 2

/-- The page fault of some lanes of an instruction; the record names the lowest lane's address and level. -/
def faultBy (s : State) (w : Warp) (tag kind asid : Nat) (fs : List (Nat × DWord × Nat)) : State :=
  match fs with
  | [] => s
  | f :: _ => pageFaultLanes s w.id tag (laneSet (fs.map (·.1))) kind f.2.1 f.2.2 asid

/-- The items of some lanes of a store given up; the store is over when nothing is left (R214). -/
def giveUpItems (s : State) (wid : Nat) (p : PStore) (m : LaneSet) : State := putStore s wid (dropItems p fun l => !m.getLsbD l)

/-- A page fault of an instruction's own accesses. -/
def ownFault (s : State) (w : Warp) (tag : Nat) : Option State :=
  match (w.outs ++ w.reads).find? fun o => o.tag == tag with
  | some o =>
    let fs := faultLanes (entryLates s w o)
    if fs.isEmpty then none else some (faultBy s w tag (readKind o.res) o.asid fs)
  | none =>
    match w.stores.find? fun p => p.tag == tag with
    | some p =>
      let fs := faultLanes (storeLates s w p)
      if fs.isEmpty || p.translated then none
      else some (faultBy (giveUpItems s w.id p (laneSet (fs.map (·.1)))) w tag (storeKind p.op) p.asid fs)
    | none => wldFault s w.id tag

/-- An unresolved fault of a copy, a racking or a collective is on record already. -/
def faultHeld (s : State) (f : FaultOf) : Bool := s.dies.any fun d => d.faults.any fun x => x.who == f

/-- A page fault of an operation that a warp started: a copy (R235), a racking (R362) or a collective (R478). -/
def unitFault (s : State) (wid tag : Nat) : State :=
  let idx := ((s.getWarp wid).map (·.idx)).getD 0
  let copy := s.copies.findSome? fun c =>
    if c.w == wid && c.issue == tag then (copyFault s c).map fun f => (c, f) else none
  let rack := s.racks.findSome? fun k =>
    if k.w == wid && k.tag == tag && !faultHeld s (.rack k.id) then (rackFault s k).map fun f => (k, f) else none
  let coll := s.colls.findSome? fun c =>
    if c.w == wid && c.tag == tag && !faultHeld s (.coll c.id) then (collFault s c).map fun f => (c, f) else none
  match copy, rack, coll with
  | some (c, va, lv), _, _ => pauseCopy s c va lv
  | none, some (k, va, lv), _ =>
    let r := s.getRegion k.region
    reportFault s k.core.die ⟨.rack k.id, 5, ((r.map (·.ctx)).getD 0), ((r.map (·.asid.toNat)).getD 0), coreIndex k.core, idx, k.wort, va, lv,
      [], none⟩
  | none, none, some (c, va, lv) =>
    let core := ((s.getWg c.wg).map (·.core)).getD default
    reportFault s core.die ⟨.coll c.id, 5, (((s.getRegion c.region).map (·.ctx)).getD 0), c.asid.toNat, coreIndex core, idx, 0, va, lv,
      [], none⟩
  | none, none, none => s

/-- PAGE_FAULT: the failed translation of an instruction's accesses, or of an operation that it started. -/
def execPageFault (w tag : Nat) (s : State) : Out :=
  happens (match s.getWarp w with
    | none => unitFault s w tag
    | some x => (ownFault s x tag).getD (unitFault s w tag))

/-- What a deferred trap concerns: issue tag, counter, field D, FILE, and its failures. -/
structure LateTrap where
  tag : Nat
  pc : DWord
  d : BitVec 11
  file : BitVec 3
  fails : List Late
  deriving DecidableEq, Repr

/-- The failures of the oldest instruction of a warp whose accesses fail. -/
def oldestLate (s : State) (w : Warp) : Option LateTrap :=
  let reads := (w.outs ++ w.reads).map fun o => (⟨o.tag, o.pc, o.d, o.file, entryLates s w o⟩ : LateTrap)
  let stores := w.stores.map fun p => (⟨p.tag, p.pc, p.d, 0, storeLates s w p⟩ : LateTrap)
  ((reads ++ stores).filter fun t => !(denyLanes t.fails).isEmpty || hasErr t.fails).foldl (fun acc t =>
    match acc with | none => some t | some b => if t.tag < b.tag then some t else some b) none

/-- A late failure taken: a fault of the link or of a home contains the context (R448, R456), a refused access takes MEM_PROTECT, and
one without a path FABRIC_PATH (R467). -/
def takeLate (s : State) (w : Warp) (t : LateTrap) : State :=
  if hasErr t.fails then containCtx s (s.warpCtx w)
  else match denyLanes t.fails with
  | [] => s
  | f :: fs =>
    let m := laneSet ((f :: fs).map (·.1))
    let s1 := match w.stores.find? fun p => p.tag == t.tag with
      | some p => giveUpItems s w.id p m
      | none => s
    deferTrap s1 w.id { cause := if f.2 == 0xFFFF then 0x29 else 0x11, info := if f.2 == 0xFFFF then 2 else f.2, lanes := m, pc := t.pc,
                        d := t.d, file := t.file, tag := t.tag }

/-- DEFERRED_TRAP: the oldest failure of a warp's accesses is recognised, or else its oldest pending trap delivered. -/
def execDeferredTrap (w : Nat) (s : State) : Out :=
  happens (match s.getWarp w with
    | none => s
    | some x =>
      match oldestLate s x with
      | some t => takeLate s x t
      | none => deliverPending s w)

/-! ## The fault queue (R385, R386) -/

/-- FQACK_RESUME: FQACK written with ACT 1. -/
def execFqackResume (die : Nat) (seq : BitVec 16) (s : State) : Out := happens (fqackResume s die seq)
/-- FQACK_END: FQACK written with ACT 2. -/
def execFqackEnd (die : Nat) (seq : BitVec 16) (s : State) : Out := happens (fqackEnd s die seq)
/-- FAULT_QUEUE_TAIL_WRITE: FQTAIL advanced. -/
def execFaultQueueTailWrite (die : Nat) (v : Word) (s : State) : Out := happens (fqtailWrite s die v)

/-! ## The package services (R166, R455) -/

/-- The outstanding call of a service by an instruction: the entry with its arguments. -/
def callOf (w : Warp) (tag svc : Nat) : Option (Outst × List (Nat × DWord)) :=
  w.outs.findSome? fun o =>
    match o.res with
    | .wcall r =>
      if o.tag == tag && recordService r == svc then some (o, (lanesOf o.lanes).map fun l => (l, recordArg r l)) else none
    | _ => none

/-- A service carried out for the lanes of a call in ascending order, and its reply formed, whose words then arrive like any other
(R82). -/
def serve (svc w tag : Nat) (f : State → Warp → DWord → Nat × State) (s : State) : State :=
  match s.getWarp w with
  | none => s
  | some x =>
    match callOf x tag svc with
    | none => s
    | some (o, args) =>
      let r := args.foldl (fun (acc : List (Nat × List Word) × State) a =>
        let v := f acc.2 x a.2
        (acc.1 ++ [(a.1, wordsOf true v.1)], v.2)) ([], s)
      formed r.2 w o r.1

/-- A range of pages made zero where they are mapped. -/
def zeroPages (s : State) (asid va n : Nat) : State :=
  (List.range ((n + 4095) / 4096)).foldl (fun acc k => writeVa acc asid (va + 4096 * k) (List.replicate 4096 0)) s

/-- The address ranges that the RCB of a region names (R402), and the blocks it holds. -/
def namedRanges (r : Region) : List (Nat × Nat) :=
  let e := r.eff
  let area (va : DWord) (n : Nat) : List (Nat × Nat) := if va == 0 then [] else [(va.toNat, n)]
  [(e.entry.toNat, 4096)] ++ area e.params 4096 ++ area e.token ((e.gangs - 1) * e.stride + 4) ++ area e.completion 8 ++
    area e.exitArea (320 * e.gangs * e.cores) ++ area e.saveArea (slotCount e * recSize e) ++ r.allocs.map fun b => (b.1.toNat, b.2)

/-- The block is canonical and apart from every range that a region of its ASID names or holds. -/
def blockFree (s : State) (asid : Nat) (va : DWord) (n : Nat) : Bool :=
  rangeCanonical va n && s.regions.all fun r => r.asid.toNat != asid || r.status != 0 || (namedRanges r).all fun b =>
    decide (b.1 + b.2 ≤ va.toNat) || decide (va.toNat + n ≤ b.1)

/-- Every line of the block is mapped to ordinary memory of this package that the caller may write, and can be made zero at once. -/
def blockMapped (s : State) (w : Warp) (asid : Nat) (va n : Nat) : Bool :=
  queueFree s asid && (lineParts va n).all fun p =>
    match translateNow s 0 asid (s.warpUser w) .write (BitVec.ofNat 64 p.1) with
    | .mem pa 0 _ => engineReady s asid p.1 pa
    | _ => false

/-- ALLOC for one lane: where the block stands is a free value; where that is no block of the caller's own free memory, none is available.
DESIGN CHOICE (log entry 61). -/
def allocLane (s : State) (w : Warp) (n : DWord) : Nat × State :=
  let r := s.drawDWord
  let va : DWord := BitVec.ofNat 64 (r.1.toNat / 4096 * 4096)
  let asid := s.warpAsid w
  match s.warpRegion w with
  | none => (0, r.2)
  | some g =>
    if n == 0 || 2 ^ 32 < n.toNat || va == 0 || !blockFree s asid va n.toNat || !blockMapped s w asid va.toNat n.toNat then (0, r.2)
    else
      let s1 := zeroPages r.2 asid va.toNat n.toNat
      (va.toNat, s1.modRegion g.handle fun y => { y with allocs := y.allocs ++ [(va, n.toNat)] })

/-- FREE for one lane: a live block of the caller's ASID, whichever of its regions holds it. -/
def freeLane (s : State) (w : Warp) (va : DWord) : Nat × State :=
  match s.regions.find? fun g => g.status == 0 && g.asid.toNat == s.warpAsid w && g.allocs.any fun b => b.1 == va with
  | some g => (0, s.modRegion g.handle fun y => { y with allocs := y.allocs.filter fun b => b.1 != va })
  | none => (2 ^ 64 - 1, s)

/-- What a string, or one byte of it, is found to be: its bytes; a fault; or bytes of another package that are still to be asked for. -/
inductive Text where
  | is (bs : List Byte)
  | bad
  | ask (pkg va : Nat)
  deriving DecidableEq, Repr

/-- One byte of a string of a warp; the translation is made at the byte's home (R380, R383). -/
def charAt (s : State) (w : Warp) (va : DWord) : Text × State :=
  let r := translateHome s (s.warpAsid w) (s.warpUser w) .read va
  match r.1 with
  | .mem pa _ _ => (if homeDead s pa then .bad else .is (loadOwn s pa 1), r.2)
  | .host a => (if s.linkw == 0 then .bad else .is [Memory.read s.hostMem a], r.2)
  | .far pkg _ =>
    (match farBytes s (putsOwner w.id) (va.toNat / 8 * 8) 1 with
     | some (0, bs) => .is ((bs.drop (va.toNat % 8)).take 1)
     | some _ => .bad
     | none => if s.deadPkgs.contains pkg then .bad else .ask pkg va.toNat, r.2)
  | _ => (.bad, r.2)

/-- The bytes of a string before its zero byte, of at most n bytes with it. -/
def stringAt (s : State) (w : Warp) (va : DWord) : Nat → Text × State
  | 0 => (.bad, s)
  | n + 1 =>
    match charAt s w va with
    | (.is bs, s1) =>
      if leNat bs = 0 then (.is [], s1)
      else match stringAt s1 w (va + 1) n with
        | (.is l, s2) => (.is (bs ++ l), s2)
        | t => t
    | t => t

/-- Bytes appended to the console ring of 64 KiB (R460). -/
def console (s : State) (bs : List Byte) : State :=
  if s.conbase == 0 then s
  else
    let s1 := (List.range bs.length).foldl (fun acc k =>
      writePa acc (s.conbase.toNat + (s.conpos + k) % 65536) [(bs[k]?).getD 0]) s
    { s1 with conpos := (s.conpos + bs.length) % 65536 }

/-- PUTS for one lane whose string is here. -/
def putsLane (s : State) (w : Warp) (va : DWord) : Nat × State :=
  match stringAt s w va 256 with
  | (.is bs, t) => (bs.length, console t bs)
  | (_, t) => (2 ^ 64 - 1, t)

/-- What another package holds of the strings of a PUTS and is still to be asked for: its package and the place. -/
def putsAsk (s : State) (w : Warp) (args : List (Nat × DWord)) : Option (Nat × Nat) :=
  args.findSome? fun a => match (stringAt s w a.2 256).1 with | .ask pkg va => some (pkg, va) | _ => none

/-- PUTS for a call, once every string of it can be read. -/
def putsCall (s : State) (w tag : Nat) : State :=
  match s.getWarp w with
  | none => s
  | some x =>
    match callOf x tag 3 with
    | none => s
    | some (_, args) =>
      match putsAsk s x args with
      | some (pkg, va) => askUnitsOf s (putsOwner w) (s.warpAsid x) (s.warpUser x) pkg (va / 8 * 8) 1
      | none => vaDone (serve 3 w tag putsLane s) (putsOwner w)

/-- ALLOC. -/
def execAlloc (w tag : Nat) (s : State) : Out := happens (serve 1 w tag allocLane s)
/-- FREE. -/
def execFree (w tag : Nat) (s : State) : Out := happens (serve 2 w tag freeLane s)
/-- PUTS. -/
def execPuts (w tag : Nat) (s : State) : Out := happens (putsCall s w tag)
/-- HEALTH. -/
def execHealth (w tag : Nat) (s : State) : Out := happens (serve 4 w tag (fun t _ _ => (healthWord t, t)) s)

end Sys2Proof.Machine
end

