-- ==== Sys2Proof/Machine/CohEvents.lean ====
section
/-! DEFINITION. The events of coherence and of the dies: way partitions and cask failures (R270 to R295), requests at the home slice
and the buses (R304 to R324), leases and ownership across dies (R343, R344, R387 to R390), seals (R394). -/

namespace Sys2Proof.Machine

/-! ## The cluster control page and the cask layer -/

/-- WPR_WRITE (R278, R280). -/
def execWprWrite (c : CluId) (v : Word) (s : State) : Out := happens (wprWrite s c v)

/-- A scratch access of a warp in the window from a limit on. -/
def windowAccess (lim va n : Nat) : Bool := decide (lim < va + n) && decide (casketBase ≤ va) && decide (va < casketBase + 8 * mib)

/-- A warp has cluster-scratch accesses on their way above a limit. -/
def warpAbove (w : Warp) (lim : Nat) : Bool :=
  (w.outs ++ w.reads).any (fun o =>
    (match o.res with
     | .load .scratch sz a => a.any fun x => o.lanes.getLsbD x.1 && windowAccess lim x.2.toNat (Sz.bytes sz)
     | .ldq .scratch _ a _ => a.any fun x => o.lanes.getLsbD x.1 && windowAccess lim x.2.toNat 4
     | .atom true t _ a => a.any fun x => o.lanes.getLsbD x.1 && windowAccess lim x.2.1.toNat (ITy.bits t / 8)
     | .atomf true _ _ a => a.any fun x => o.lanes.getLsbD x.1 && windowAccess lim x.2.1.toNat 4
     | _ => false)) ||
  w.stores.any (fun p =>
    (match p.op with
     | .write .scratch a => a.any fun x => windowAccess lim x.2.1.toNat x.2.2.length
     | .red true t _ a => a.any fun x => windowAccess lim x.2.1.toNat (ITy.bits t / 8)
     | .redf true _ _ a => a.any fun x => windowAccess lim x.2.1.toNat 4
     | _ => false))

/-- A running copy has units of the window above a limit. -/
def copyAbove (c : CluId) (lim : Nat) (x : Copy) : Bool :=
  let above (e : CopyEnd) : Bool := match e with | .cask k off => k == c && decide (lim < casketBase + off + 16 * x.units) | _ => false
  x.st == .running && (above x.src || above x.dst)

/-- An operation of a matrix engine still has operands or a destination above a limit. -/
def opAbove (lim : Nat) (o : MxOp) : Bool :=
  match o.kind with
  | .mms bs _ =>
    (if o.phase == .consumed then (mmsTiles (mmsBlk bs)).filter fun t => (mmsBlk bs).dkind == 1 && t.1 == (mmsBlk bs).dest else mmsTiles (mmsBlk bs)).any
      fun t => windowAccess lim t.1 t.2
  | .wld _ _ sc => sc.toNat != absent && windowAccess lim sc.toNat 128
  | .wswap => false

/-- Every cluster-scratch access that was accepted above the fenced limit has performed (R280, phase 1). -/
def drainedAbove (s : State) (c : CluId) : Bool :=
  let lim := (s.getCluster c).limit
  (s.warps.all fun w => cluOf (s.warpCore w) != c || !warpAbove w lim) && (s.copies.all fun x => !copyAbove c lim x) &&
    (List.range 8).all fun k => (engineOf s ⟨c.die, c.clu, k⟩).queue.all fun o => !opAbove lim o

/-- WPR_DRAIN_DONE: phase 1 first fences, and ends once everything above the fence has performed (R280). -/
def execWprDrainDone (c : CluId) (s : State) : Out :=
  let x := s.getCluster c
  happens (if x.phase != 1 then s
    else if !x.fenced then s.modCluster c wprFenceC
    else if drainedAbove s c then s.modCluster c fun y => { y with phase := 2 }
    else s)

/-- WPR_RELEASE_DONE. -/
def execWprReleaseDone (c : CluId) (s : State) : Out := happens (if (s.getCluster c).phase == 2 then wprRelease s c else s)

/-- WPR_ENABLE_DONE. -/
def execWprEnableDone (c : CluId) (s : State) : Out := happens (if (s.getCluster c).phase == 3 then s.modCluster c wprEnableC else s)

/-- WPS_ERR_CLEAR (R279). -/
def execWpsErrClear (c : CluId) (s : State) : Out := happens (wpsErrClear s c)
/-- CSO_WRITE (R283). -/
def execCsoWrite (c : CluId) (v : Word) (s : State) : Out := happens (csoWrite s c v)
/-- CSV_VALID_CLEAR (R285). -/
def execCsvValidClear (c : CluId) (s : State) : Out := happens (csvValidClear s c)
/-- SNOOP_PROBE (R287). DEDUCED (log entry 74). -/
def execSnoopProbe (c : CluId) (asid line : Nat) (s : State) : Out := happens (probeCluster s c asid line)
/-- CASK_WAY_FAILURE (R293). -/
def execCaskWayFailure (c : CluId) (slice way : Nat) (s : State) : Out :=
  happens (if slice < 32 && way < 16 then caskWayFail s c slice way else s)
/-- SPARE_WAY_COPY_DONE (R293). -/
def execSpareWayCopyDone (c : CluId) (slice way : Nat) (s : State) : Out :=
  happens (s.modCluster c fun x => { x with copying := x.copying.filter fun p => p != (slice, way) })

/-! ## Failed cores and errors (R294, R295) -/

/-- The gangs with a resident member on a core. -/
def gangsOn (s : State) (c : CoreId) : List Gang := s.gangs.filter fun g => s.wgs.any fun w => w.gang == g.id && w.core == c

/-- CMAP after the spare procedure for a logical core whose physical core has failed: core 8 serves it, unless it is used or has failed
itself (R271, R295). -/
def sparedMap (cmap : DWord) (core phys : Nat) : DWord :=
  let none8 := bitAt cmap.toNat 41 || bitAt cmap.toNat 40
  let m := setBitsAt (setBitsAt cmap.toNat (4 * core) 4 (if none8 then 15 else 8)) (32 + phys) 1 1
  BitVec.ofNat 64 (if none8 then m else setBitsAt m 41 1 1)

/-- The dirty bytes of a core's kiln and non-coherent lines written back; none while a home cannot take them (R187, R395). -/
def drainCore (s : State) (c : CoreId) : Option State :=
  let x := s.getCore c
  if (x.kiln.all (sectorOpen s)) && x.nc.all (ncOpen s) then
    let s1 := x.kiln.foldl (fun acc k => kEvict acc c k) s
    some (x.nc.foldl (fun acc y => writeBack acc y.asid (y.line * 128) y.place (dirtyOf y.bytes)) s1)
  else none

/-- The physical core behind a logical one replaced: its caches and what they held are gone. DEDUCED (log entry 71). -/
def swapCore (s : State) (c : CoreId) (phys : Nat) : State :=
  let s1 := (s.getCore c).l1.foldl (fun acc ln => dropLine acc c ln.asid ln.line) s
  { (s1.setCore { id := c }).modCluster (cluOf c) (fun x => { x with cmap := sparedMap x.cmap c.core phys }) with degraded := true }

/-- The contexts of some gangs. -/
def ctxsOf (s : State) (gs : List Gang) : List Nat := (gs.filterMap fun g => (s.getRegion g.region).map (·.ctx)).eraseDups

/-- The contexts with dirty bytes in the kiln of a core. -/
def dirtyCtxs (s : State) (c : CoreId) : List Nat :=
  (((s.getCore c).kiln.filter fun k => !(dirtyOf k.bytes).isEmpty).map (·.ctx)).eraseDups

/-- A core that leaves service takes no gang any more: its gangs are saved, or contained where their state cannot be read; once none is
resident and its dirty bytes are home the core is replaced. DEDUCED (log entry 71). -/
def retireCore (s0 : State) (c : CoreId) (phys : Nat) (readable : Bool) : State :=
  let s := s0.modCore c fun x => { x with retiring := true }
  let gs := gangsOn s c
  if !readable then
    let cs := (ctxsOf s gs ++ dirtyCtxs s c).eraseDups
    swapCore (if cs.isEmpty then s else contain s (.core c) cs) c phys
  else if gs.isEmpty then
    match drainCore s c with
    | some t => swapCore t c phys
    | none => (s.getCore c).nc.foldl announceNc ((s.getCore c).kiln.foldl announceSector s)
  else (gs.filter fun g => g.st == .running).foldl (fun acc g => startPreempt acc g.id .save) s

/-- A core whose tiers have all failed is replaced (R264). -/
def replaceSpent (s : State) (c : CoreId) : State :=
  if tiersSpent (engineOf s c) then retireCore s c (physOf (s.getCluster (cluOf c)) c.core) true else s

/-- TIER_FAILURE. -/
def execTierFailure (c : CoreId) (tier : Nat) (s : State) : Out :=
  happens (if 5 ≤ tier then s else replaceSpent (tiersFail s c (1#5 <<< tier)) c)

/-- MRST_COMPLETE (R258, R265). -/
def execMrstComplete (c : CoreId) (s : State) : Out :=
  happens (match (engineOf s c).mrst with
    | [] => s
    | m :: _ =>
      let s1 := selfTest (resetEngine s c) c
      replaceSpent ((modEngine s1 c fun e => { e with mrst := e.mrst.drop 1 }).modWarp m.1 fun x => countDone x .mx m.2) c)

/-- CORE_RETIRE: the first occurrence saves or contains the gangs, and the spare comes in when none is left. -/
def execCoreRetire (c : CluId) (phys : Nat) (readable : Bool) (s : State) : Out :=
  let x := s.getCluster c
  happens (match (List.range 8).find? fun k => physOf x k == phys with
    | some k => retireCore s ⟨c.die, c.clu, k⟩ phys readable
    | none => if phys = 8 then { s.modCluster c (fun y => { y with cmap := y.cmap ||| (1#64 <<< 40) }) with degraded := true } else s)

/-- A dirty line that is lost halts the contexts of its ASID. -/
def dirtyLost (s : State) (asid : Nat) : State :=
  (s.regions.filter fun g => g.status == 0 && (g.asid.toNat == asid || asid == 0)).foldl (fun acc g => containCtx acc g.ctx) s

/-- A lost directory of copies: whether a dirty copy can be read is not stated, and one that cannot halts its context. DESIGN CHOICE (log entry 37). -/
def dirtyAtRisk (s : State) (asid : Nat) (dirty : Bool) : State :=
  if !dirty then s
  else
    let r := s.drawBool
    if r.1 then r.2 else dirtyLost r.2 asid

def dirtyIn (s : State) (p : CoreId → Bool) (asid line : Nat) : Bool :=
  s.cores.any fun c => p c.id && (match l1Find c asid line with | some ln => ln.st == .m || ln.st == .o | none => false)

/-- A wort line lost with its header (R359): what they hold from then on is free. DESIGN CHOICE (log entry 37). -/
def wortLost (s : State) (ctx region line : Nat) : State :=
  match (s.ctxRegion ctx).bind fun r => (wortOf r region).map fun x => (r, x) with
  | none => s
  | some (r, x) =>
    if x.st == .closed || x.lines ≤ line then s
    else
      let head := s.drawDWord
      let clip := head.2.drawBool
      let s1 := modWort clip.2 ctx region fun y => { y with heads := sput (0, false) y.heads line (head.1.toNat % 2 ^ 32, clip.1) }
      match wortLinePa s1 r x line with
      | none => s1
      | some pa => let b := s1.drawBytes 128; storeAt b.2 r.asid.toNat (wortLineVa x line) pa b.1

/-- An uncorrectable error of the package's own state or memory (R294, R312, R345, R349, R380). DESIGN CHOICE (log entry 37). -/
def uncorrectable (s : State) (e : ErrAt) : State :=
  match e with
  | .caskLine ctx => containCtx s ctx
  | .data ctx => containCtx s ctx
  | .tableEntry asid => (((s.regions.filter fun r => r.status == 0 && r.asid.toNat == asid).map (·.ctx)).eraseDups).foldl containCtx s
  | .wortLine ctx region line => containCtx (wortLost s ctx region line) ctx
  | .scratchWay c => let o := (s.getCluster c).cso.toNat; if o = 0 then s else containCtx s o
  | .barrierFile g => (ctxsOf s ((s.getGang g).toList)).foldl containCtx s
  | .filterEntry c asid line =>
    let s1 := dirtyAtRisk s asid (dirtyIn s (fun k => cluOf k == c) asid line)
    (List.range 8).foldl (fun acc k => dropLine acc ⟨c.die, c.clu, k⟩ asid line) s1
  | .regionEntry die asid region =>
    let dirty := (List.range 4).any fun k => dirtyIn s (fun c => c.die == die) asid (region * 4 + k)
    let s1 := dirtyAtRisk s asid dirty
    let s2 := s1.modDie die fun d =>
      { d with regions := putAt (fun x => x.asid == asid && x.region == region) ⟨asid, region, 0xFFFF, s.nextId⟩ d.regions }
    queueMsg s2 die (homeBus asid region) (homeCluster asid region) (.recall asid region)
  | .hostRead .. => s

/-! ## What asks for a line (R307) -/

/-- An access that waits for a line: who makes it, where, and whether a prefetch does. -/
structure Ask where
  acc : Acc
  va : DWord
  pref : Bool
  deriving DecidableEq, Repr

/-- The loads of a warp that go through its L1. -/
def loadAsks (s : State) (w : Warp) : List Ask :=
  let reads := (w.outs ++ w.reads).flatMap fun o =>
    let pick (early : Bool) (a : List (Nat × DWord)) : List Ask :=
      (a.filter fun x => o.lanes.getLsbD x.1).map fun x => ⟨{ accOf s w o.asid with early := early }, x.2, false⟩
    match o.res with
    | .load .global _ a => pick false a
    | .load .early _ a => pick true a
    | .ldq .global _ a _ => pick false a
    | .watch _ _ va => [⟨accOf s w o.asid, va, false⟩]
    | _ => []
  let waits := (List.range 32).filterMap fun l =>
    (mwaitOf (w.lane l)).map fun m => (⟨accOf s w (s.warpAsid w), m.1, false⟩ : Ask)
  reads ++ waits

/-- An atomic performs as soon as its line is there: its warp's older reads and stores are performed (R333). -/
def atomActs (s : State) (w : Warp) (o : Outst) : Bool := atomReady w o && (performOlder s w.id (olderReads w o.tag)).1

/-- So does a warp's head store: no home has just refused it, its older reads are performed and so is the release that it brings (R218, R333,
R395). -/
def storeActs (s : State) (w : Warp) (p : PStore) : Bool :=
  p.retryAt.isNone &&
    (let older := performOlder s w.id (olderReads w p.tag)
     older.1 && match storeScope p.op with | none => true | some sc => (makeVisible older.2 w sc).1)

/-- The atomics of a warp, each by the lane that comes next, and the parts of its head store, which need ownership: those that would act at
once with it, so that what is granted is written at the grant (R310). -/
def storeAsks (s : State) (w : Warp) : List Ask :=
  let next (o : Outst) : List Ask :=
    ((lanesOf o.lanes).find? fun l => !o.got.any fun g => g.1 == l).toList.map fun l => ⟨accOf s w o.asid, readAddr o l, false⟩
  let atoms := (w.outs.filter (atomActs s w)).flatMap fun o =>
    match o.res with
    | .atom false .. => next o
    | .atomf false .. => next o
    | _ => []
  let stores := match (headStore w).filter (storeActs s w) with
    | none => []
    | some p =>
      let go := match p.op with
        | .write .global _ => true
        | .write .early _ => true
        | .red false .. => true
        | .redf false .. => true
        | .marv .. => true
        | _ => false
      let early : Bool := match p.op with | .write .early _ => true | _ => false
      if go then (storeParts p).map fun x => (⟨{ accOf s w p.asid with early := early }, x.2.1, false⟩ : Ask) else []
  atoms ++ stores

/-- A core has been given a line to write: the first access of its warps that waited for it takes effect at once (R310). -/
def visibleNow (s : State) (c : CoreId) (line : Nat) : State :=
  let onLine (va : DWord) : Bool := lineOf va == line
  match s.warps.find? fun w => s.warpCore w == c && (storeAsks s w).any fun a => onLine a.va with
  | none => s
  | some w =>
    match w.outs.find? fun o => isAtomic o.res && atomActs s w o && (lanesOf o.lanes).any fun l => onLine (readAddr o l) with
    | some o => writeBackOut s w o o.lanes allRegs
    | none => storeVisible s w.id

def isStoreReq (k : ReqKind) : Bool := k == .getM || k == .upg

/-- The access behind a request is still there, and a store's acts once it owns the line (R310). -/
def actsNow (s : State) (r : Req) : Bool :=
  !isStoreReq r.kind || s.warps.any fun w => s.warpCore w == r.core && (storeAsks s w).any fun a => lineOf a.va == r.ln.line

/-- What the service of a request brings about at once: a store's write is visible from then on (R310). -/
def afterServed (s : State) (r : Req) : State := if isStoreReq r.kind then visibleNow s r.core r.ln.line else s

/-- The line that an access waits for, as its translation gives it; none when it does not lack it, or while the cask bus of its core is being
repaired (R400). -/
def wantedLine (s : State) (write : Bool) (a : Ask) : Option L1Line :=
  let line := lineOf a.va
  if (s.getCore a.acc.core).vbCask.repairing then none
  else
  match walkNow s a.acc.core a.acc.asid a.acc.user (if write then .write else .read) a.va with
  | .mem pa kind glob =>
    let ln := lineOfAcc s a.acc a.va pa kind glob
    if kind == 1 || kind == 2 || (write && (kind == 3 || kind == 5)) then none
    else if wortLineHit s a.acc.asid a.va.toNat 1 then none
    else if write then
      (if clusterHolds s a.acc.core ln.asid line fun st => st == .m || st == .e then none else some ln)
    else if (l1Get s a.acc.core a.acc.asid line).isSome || clusterHolds s a.acc.core ln.asid line (fun _ => true) then none
    else some ln
  | _ => none

/-- The prefetches of a core's lines. -/
def prefAsks (c : Core) : List Ask :=
  c.prefs.map fun p => ⟨{ core := c.id, asid := p.1, user := false }, BitVec.ofNat 64 (p.2 * 128), true⟩

/-- The oldest access on a die that waits for a line meeting a test. -/
def wanted (s : State) (die : Nat) (write : Bool) (p : L1Line → Bool) : Option (Ask × L1Line) :=
  let ws := s.warps.filter fun w => (s.warpCore w).die == die
  let asks := if write then ws.flatMap (storeAsks s)
    else ws.flatMap (loadAsks s) ++ (s.cores.filter fun c => c.id.die == die).flatMap prefAsks
  asks.findSome? fun a =>
    match wantedLine s write a with
    | some ln => if p ln then some (a, ln) else none
    | none => none

def inRegion (asid region : Nat) (ln : L1Line) : Bool := ln.asid == asid && regionOfLine ln.line == region
def isLine (asid line : Nat) (ln : L1Line) : Bool := ln.asid == asid && ln.line == line

/-- The home die of a line. -/
def homeOf (ln : L1Line) : Nat := ln.pa / 2 ^ 36 % 16

/-! ## Requests at the home slice (R308, R390) -/

/-- A line taken back from another die that owns it; an owner that is dead costs the context (R390, R456). DEDUCED (log entry 38). -/
def takeBack (s : State) (ln : L1Line) (die ctx : Nat) : Option State :=
  let x := dirOf (s.getDie (homeOf ln)) ln.asid ln.line
  match x.owner with
  | some o =>
    if o == die then some s
    else if (s.getDie o).dead then some (containCtx (putDir s (homeOf ln) { x with owner := none, pa := ln.pa }) ctx)
    else some (recallOwner s ln.pa ln.asid ln.line)
  | none => some s

/-- The context on whose behalf an access is made: the accessing warp's, or for a prefetch one of its ASID. -/
def askCtx (s : State) (a : Ask) : Nat :=
  if !a.pref then a.acc.ctx
  else ((s.regions.find? fun r => r.status == 0 && r.asid.toNat == a.acc.asid).map (·.ctx)).getD 0

/-- A served prefetch is asked for no more. -/
def endPref (s : State) (a : Ask) : State :=
  if a.pref then s.modCore a.acc.core fun c => { c with prefs := c.prefs.filter fun p => p != (a.acc.asid, lineOf a.va) } else s

/-- The line of a request as the home die translates its address, with its TLB filled: kind, permissions and place of one translation
(R328, R383); none where it leads elsewhere. -/
def askedLine (s : State) (write : Bool) (a : Ask) : Option L1Line × State :=
  let r := translateHome s a.acc.asid a.acc.user (if write then .write else .read) a.va
  match r.1 with
  | .mem pa kind glob =>
    (if kind == 1 || kind == 2 || (write && (kind == 3 || kind == 5)) then none else some (lineOfAcc r.2 a.acc a.va pa kind glob), r.2)
  | _ => (none, r.2)

/-- A load request reaches its home slice. -/
def requestLoad (s : State) (die : Nat) (p : L1Line → Bool) : State :=
  match wanted s die false p with
  | none => s
  | some (a, _) =>
    match askedLine s false a with
    | (none, t) => t
    | (some ln, u) =>
    match takeBack u ln die (askCtx u a) with
    | some t =>
      if mayServe t .getS die ln.asid ln.line ln.pa then endPref (homeRequest t .getS a.acc.core ln (waysFor t (askCtx t a))) a else t
    | none => u

/-- A store request reaches its home slice: the holders of leases first (R389), another owner first (R390). -/
def requestStore (s : State) (die : Nat) (kind : ReqKind) (p : L1Line → Bool) : State :=
  let upg (a : Ask) (ln : L1Line) : Bool := (l1Find (s.getCore a.acc.core) ln.asid ln.line).isSome
  match wanted s die true p with
  | none => s
  | some (a, _) =>
    match askedLine s true a with
    | (none, v) => v
    | (some ln, v) =>
    if upg a ln != (kind == .upg) || sealedPa v ln.pa then v
    else
      let home := homeOf ln
      let lim := waysFor v (askCtx v a)
      let ask (u : State) : State := afterServed (homeRequest u kind a.acc.core ln lim) ⟨kind, a.acc.core, ln, false, lim⟩
      if home != die then (if mayServe v kind die ln.asid ln.line ln.pa then ask v else v)
      else match takeBack v ln die (askCtx v a) with
      | none => v
      | some t =>
        if homeReady t ln.pa ln.asid ln.line none then ask (clearHolders t home ln.asid ln.line none)
        else announceWrite t ln.pa ln.asid ln.line

/-- GETS. -/
def execGetS (die asid region : Nat) (s : State) : Out := happens (requestLoad s die (inRegion asid region))
/-- GETM. -/
def execGetM (die asid region : Nat) (s : State) : Out := happens (requestStore s die .getM (inRegion asid region))
/-- UPG. -/
def execUpg (die asid region : Nat) (s : State) : Out := happens (requestStore s die .upg (inRegion asid region))

/-- REGION_RELEASE (R311): no core of the cluster holds a line of the region any more. -/
def execRegionRelease (c : CluId) (asid region : Nat) (s : State) : Out :=
  let held := s.cores.any fun k => cluOf k.id == c && k.l1.any fun ln => ln.asid == asid && regionOfLine ln.line == region
  happens (if held then s
    else s.modDie c.die fun d =>
      { d with regions := (d.regions.map fun e =>
          if e.asid == asid && e.region == region then { e with mask := e.mask &&& ~~~ (1#16 <<< c.clu) } else e).filter fun e => e.mask != 0 })

/-- The line of a wort range that an address in an ASID lies in: context, region and line. -/
def wortAt (s : State) (asid va : Nat) : Option (Nat × Nat × Nat) :=
  s.regions.findSome? fun r => if r.status != 0 || r.asid.toNat != asid then none
    else r.worts.findSome? fun x => if x.st != .closed && x.base.toNat ≤ va && va < x.base.toNat + 128 * x.lines then
      some (r.ctx, x.id, (va - x.base.toNat) / 128) else none

/-- LINE_WRITEBACK (R313): a line evicted in M or O reaches its home; a line of an open wort is evicted from its slice, with its header
(R351). -/
def execLineWriteback (c : CoreId) (asid line : Nat) (s : State) : Out :=
  happens (match wortAt s asid (line * 128) with
    | some p => evictWortLine s p.1 p.2.1 p.2.2
    | none =>
      match l1Find (s.getCore c) asid line with
      | some ln => if ln.st == .m || ln.st == .o then caskBack (markWritten (dropLine s c asid line) ln.pa 128) ln else s
      | none => s)

/-! ## The buses (R304 to R324) -/

/-- BUS_SLOT_RECEIVE. -/
def execBusSlotReceive (die bus grp frame _reader : Nat) (ok : Bool) (s : State) : Out := happens (receiveSlot s die bus grp frame ok)

/-- SLOT_VOID: before the frame's decision is final. -/
def execSlotVoid (die bus grp frame : Nat) (s : State) : Out :=
  happens (voidSlot s die bus grp frame)

/-- BUS_DELIVERY. -/
def execBusDelivery (die : Nat) (s : State) : Out := happens (busDeliver actsNow afterServed s die)

/-- BWT_STAGE (R314). -/
def execBwtStage (die e : Nat) (word1 : Bool) (v : DWord) (s : State) : Out := happens (if e < 64 then bwtStage s die e word1 v else s)

/-- BWT_COMMIT (R314): a 64-bit store to word 0. -/
def execBwtCommit (die e : Nat) (v : DWord) (s : State) : Out := happens (if e < 64 then bwtCommit s die e v true else s)

/-- GROUP_REASSIGN_START (R319, R321). -/
def execGroupReassignStart (die bus grp : Nat) (s : State) : Out := happens (reassignStart s die bus grp)
/-- GROUP_REASSIGN_LOCK (R319). -/
def execGroupReassignLock (die bus grp : Nat) (s : State) : Out := happens (reassignLock s die bus grp)

/-- A cluster taken out of service: its gangs saved or contained, and every logical core unserved once none is left (R322). -/
def clusterOut (s : State) (c : CluId) : State :=
  let cores := (List.range 8).map fun k => (⟨c.die, c.clu, k⟩ : CoreId)
  let gs := s.gangs.filter fun g => s.wgs.any fun w => w.gang == g.id && cores.contains w.core
  let t := s.modCluster c fun x => { x with out := true, cmap := BitVec.ofNat 64 (setBitsAt x.cmap.toNat 0 32 0xFFFFFFFF) }
  (gs.filter fun g => g.st == .running).foldl (fun acc g => startPreempt acc g.id .save) t

/-- READER_RING_LOSS: every slot that the ring reads is void, and the bus is quiet while a spare is tuned, also one more ring lost meanwhile;
without a spare the cluster leaves service (R322). -/
def execReaderRingLoss (die bus clu : Nat) (s : State) : Out :=
  let c : CluId := ⟨die, clu⟩
  let x := s.getCluster c
  let n := (x.rings[bus]?).getD 0
  let f := frameNow s
  happens (if x.out || 8 ≤ bus then s
    else
      let s1 := (List.range 16).foldl (fun acc g => voidSlot acc die bus g f) s
      if n = 0 then (List.range 8).foldl (fun acc b => endQuiet acc die b) (clusterOut (s1.modCluster c fun y => { y with retuning := [] }) c)
      else
        let t := modBus s1 die bus fun y => { y with quiet := y.quiet.or (some (f + 1)) }
        { t.modCluster c (fun y => { y with rings := y.rings.set bus (n - 1), retuning := y.retuning ++ [(bus, f + 1)] }) with
          degraded := t.degraded || n == 1 })

/-- READER_RING_RETUNED: one ring is ready, and the last of a bus ends its quiet frames (R318, R322). -/
def execReaderRingRetuned (die bus clu : Nat) (s : State) : Out :=
  happens (match (s.getCluster ⟨die, clu⟩).retuning.find? fun r => r.1 == bus with
    | none => s
    | some r =>
      endQuiet (s.modCluster ⟨die, clu⟩ fun x => { x with retuning := x.retuning.erase r }) die bus)

/-- MESH_LINK_FENCE (R324): the route changes and no order does. -/
def execMeshLinkFence (die a b : Nat) (s : State) : Out :=
  happens { s.modDie die (fun d =>
    { d with fencedLinks := if d.fencedLinks.contains (a, b) then d.fencedLinks else d.fencedLinks ++ [(a, b)] }) with degraded := true }

/-! ## Leases and ownership across dies (R343, R387 to R390) -/

/-- A line of an ASID homed in this package, as service level translates it. -/
def lineHere (s : State) (asid line : Nat) : Option L1Line :=
  match translateNow s 0 asid false .read (BitVec.ofNat 64 (line * 128)) with
  | .mem pa kind glob => some (lineFrom asid line pa kind glob (leafNow s (pa / 2 ^ 36 % 16) asid (line * 128)))
  | _ => none

/-- LEASE_GRANT: the home answers a read of another die or package; while a write is pending it gives data without a lease. -/
def execLeaseGrant (holder asid line : Nat) (s : State) : Out :=
  let ask := if holder < 16 then (wanted s holder false (isLine asid line)).map fun p => (p.2, askCtx s p.1)
    else (lineHere s asid line).map fun ln => (ln, 0)
  happens (match ask with
    | none => s
    | some (ln, ctx) =>
      if holder = homeOf ln || !leasesFlow s ln.asid ln.line ln.pa || leaseHolds s holder ln.asid ln.line then s
      else if (dirOf (s.getDie (homeOf ln)) ln.asid ln.line).owner == some holder then s
      else match takeBack s ln 16 ctx with
      | some t =>
        if (dirOf (t.getDie (homeOf ln)) ln.asid ln.line).owner == none then giveLease t holder ln.asid ln.line ln.pa (waysFor t ctx) else t
      | none => s)

/-- LEASE_RENEWAL: a copy with less than a quarter of its lease left gets a new one (R388). -/
def execLeaseRenewal (holder asid line : Nat) (s : State) : Out :=
  happens (if holder < 16 then renewLease s holder asid line
    else match dirDie s asid line with
    | none => s
    | some home =>
      let x := dirOf (s.getDie home) asid line
      match (x.remote.find? fun r => r.1 == holder - 16).map (·.2) with
      | some t =>
        if t.toNat < s.clock.toNat + leaseTicks (s.getDie home) / 4 && s.clock.toNat < t.toNat && leasesFlow s x.asid line x.pa then
          giveLease s holder x.asid line x.pa
        else s
      | none => s)

/-- LEASE_EXPIRY: the holder's clock has reached the expiry less the guard, and the copy is absent, be its line homed on another die or
on another package (R343). -/
def execLeaseExpiry (holder asid line : Nat) (s : State) : Out :=
  happens (if s.leases.any fun x => x.die == holder && x.asid == asid && x.line == line && decide (x.expiry.toNat ≤ s.clock.toNat + Config.leaseGuard)
    then dropLease s holder asid line
    else if s.farLines.any fun x => x.die == holder && x.asid == asid && x.line == line && decide (x.expiry.toNat ≤ s.clock.toNat + Config.farGuard)
    then farDrop s holder asid line else s)

/-- INVALIDATION_ACK (R387, R389). -/
def execInvalidationAck (holder asid line : Nat) (s : State) : Out := happens (ackHolder s holder asid line)

/-- The packages that a directory entry with a waiting write lists are told to drop their copies (R389). -/
def tellHolders (s : State) (die : Nat) : State :=
  match (s.getDie die).dirs.find? fun e => (e.pending || sealedPa s e.pa) && !e.told && !e.remote.isEmpty with
  | none => s
  | some e =>
    let va := BitVec.ofNat 64 (e.line * 128)
    let s1 := e.remote.foldl (fun acc r => (sendFor acc r.1 e.asid va.toNat (.inval s.dev r.1 e.asid va) none).getD acc) s
    putDir s1 die { e with told := true }

/-- Ownership given to another die: the home's own copies go and the owner is recorded (R390). -/
def giveOwner (s : State) (ln : L1Line) (die : Nat) : State :=
  let home := homeOf ln
  let s1 := dropOthers (clearHolders s home ln.asid ln.line none) home ln.asid ln.line none
  let x := dirOf (s1.getDie home) ln.asid ln.line
  markWritten (putDir s1 home { x with asid := ln.asid, pa := ln.pa, owner := some die, pending := false }) ln.pa 128

/-- A write of a die to a line of its own or of another home goes on at the home as far as it can. -/
def grantWrite (s : State) (die : Nat) (a : Ask) (ln : L1Line) : State :=
  let home := homeOf ln
  if home = die then
    requestStore s die (if (l1Find (s.getCore a.acc.core) ln.asid ln.line).isSome then .upg else .getM) (isLine ln.asid ln.line)
  else if sealedPa s ln.pa || writeComing s home ln.asid ln.line then s
  else match takeBack s ln die (askCtx s a) with
  | none => s
  | some t =>
    if (dirOf (t.getDie home) ln.asid ln.line).owner == some die then t
    else if homeReady t ln.pa ln.asid ln.line none then giveOwner t ln die else announceWrite t ln.pa ln.asid ln.line

/-- HOME_WRITE_GRANT: a waiting write takes effect at the home, or asks its holders first (R344, R389, R390). -/
def execHomeWriteGrant (asid line : Nat) (s : State) : Out :=
  let ask := (List.range 16).findSome? fun d => (wanted s d true (isLine asid line)).map fun p => (d, p.1, p.2)
  happens (match ask with
    | some (d, a, ln) => grantWrite s d a ln
    | none => s)

/-! ## Seals (R394) -/

/-- MSEAL_SEAL. -/
def execMsealSeal (die frame : Nat) (s : State) : Out := happens (msealWrite s die (BitVec.ofNat 64 (frame % 2 ^ 28 * 4096 + 1)))
/-- MSEAL_UNSEAL. -/
def execMsealUnseal (die frame : Nat) (s : State) : Out := happens (msealWrite s die (BitVec.ofNat 64 (frame % 2 ^ 28 * 4096)))

/-- The directory entries of a sealed frame's lines. -/
def sealDirs (d : Die) : List Dir := d.dirs.filter fun x => bitsAt d.mseal.toNat 12 28 == bitsAt x.pa 12 28

/-- An owned line of a sealed frame comes back; a recall from a dead owner ends with an error, which halts the contexts of the line's
ASID (R390, R394). DEDUCED (log entry 38). -/
def sealRecall (s : State) (die : Nat) (x : Dir) : State :=
  match x.owner with
  | none => s
  | some o =>
    if (s.getDie o).dead then dirtyLost (putDir s die { x with owner := none }) x.asid
    else recallOwner s x.pa x.asid x.line

/-- SEAL_COMPLETE: the holders are gone and the owned lines are back, and SEALED is set. -/
def execSealComplete (die : Nat) (s : State) : Out :=
  let d := s.getDie die
  happens (if !d.mbusy then s
    else
      let s1 := (sealDirs d).foldl (fun acc x => sealRecall acc die x) s
      if (sealDirs (s1.getDie die)).all fun x => x.owner == none && (dirClear x || holdersGone s1 x) then
        ((sealDirs (s1.getDie die)).foldl (fun acc x => clearHolders acc die x.asid x.line none) s1).modDie die fun y =>
          { y with mbusy := false, msealed := true }
      else s1)

end Sys2Proof.Machine
end

