-- ==== Sys2Proof/Machine/ServiceEvents.lean ====
section
/-! DEFINITION. The events of the package service: thermal state (R396 to R398), vertical buses (R399 to R401), the host link (R446 to
R448), boot and recovery (R449 to R451), attestation (R452), alarms (R453, R454), heartbeats (R456) and register writes (R4, R445). -/

namespace Sys2Proof.Machine

/-! ## Thermals (R396 to R398) -/

/-- The temperature of a tier. -/
def tierTemp (tiers : List Nat) (t : Nat) : Nat := (tiers[t]?).getD 0

/-- The throttled tiers after a look at the sensors (R398). -/
def throttled (old : BitVec 5) (tiers : List Nat) : BitVec 5 :=
  BitVec.ofNat 5 (((List.range 5).filter fun t =>
    t != 0 && (if old.getLsbD t then decide (95 ≤ tierTemp tiers t) else decide (105 < tierTemp tiers t))).foldl (fun acc t => acc + 2 ^ t) 0)

/-- ALLOW of R397. -/
def allowance (tmax : Nat) : Nat := min 255 ((110 - tmax) * 8)

/-- `sr.tar` from its parts. -/
def tarWord (allow ktemp : Nat) (rfd : Bool) (mask : BitVec 5) : Word :=
  BitVec.ofNat 32 (allow + 2 ^ 8 * min ktemp 255 + 2 ^ 16 * rfd.toNat + 2 ^ 17 * (mask != 0).toNat + 2 ^ 18 * mask.toNat)

/-- THERMAL_REFRESH: the hottest kiln layer, the core logic and the tiers 0 to 4, in °C. DEDUCED (log entry 73). -/
def execThermalRefresh (c : CoreId) (kiln logic : Nat) (tiers : List Nat) (s : State) : Out :=
  happens (s.modCore c fun x =>
    let mask := throttled x.engine.thr tiers
    let rfd := if x.tar.getLsbD 16 then decide (80 ≤ kiln) else decide (85 < kiln)
    let tmax := ((List.range 5).filter fun t => !mask.getLsbD t).foldl (fun acc t => max acc (tierTemp tiers t)) (max kiln logic)
    let hot := decide (95 < kiln) || decide (105 < logic) || decide (105 < tierTemp tiers 0)
    let cool := decide (kiln < 90) && decide (logic < 90) && decide (tierTemp tiers 0 < 90)
    { x with tar := tarWord (allowance tmax) kiln rfd mask, half := if x.half then !cool else hot, engine := { x.engine with thr := mask } })

/-! ## Vertical buses (R399 to R401) -/

/-- VBUS_CORRECTED_ERROR. -/
def execVbusCorrectedError (c : CoreId) (b : VBus) (s : State) : Out :=
  let lim := vbusThreshold (s.getCore c)
  happens (modVbus s c b fun x => busDue lim s.clock { x with ce := min (x.ce + 1) 4095 })

/-- A context-switch boundary of the core since a repair became due: no workgroup is resident, or a gang of the core has been saved and no
other has been placed or restored on the core since (R400). -/
def boundary (s : State) (c : CoreId) (due : DWord) : Bool :=
  (s.wgs.all fun w => w.core != c) ||
    s.gangs.any fun g => (g.st == .saved || g.st == .held) && decide (due.toNat ≤ g.actionAt.toNat) && (g.savedWgs.any fun w => w.core == c) &&
      (gangsOn s c).all fun x => decide (x.placed < g.placed)

/-- A transfer on a bus of the core is in flight. -/
def inTransfer (s : State) (c : CoreId) (b : VBus) : Bool :=
  let mine (w : Warp) : Bool := s.warpCore w == c
  match b with
  | .arr => (s.getCore c).engine.queue.any fun o => o.phase != .queued
  | .cask => (s.warps.any fun w => mine w && (warpAbove w casketBase || (w.outs.any fun o => isRead o.res) || !w.reads.isEmpty || !w.stores.isEmpty)) ||
      s.copies.any fun x => x.core == c && (copyAbove (cluOf c) casketBase x || x.st == .running)
  | .kiln => (s.copies.any fun x => x.core == c && x.kind == .cpyw && x.st == .running) ||
      ((s.getCore c).engine.queue.any fun o => match o.kind with | .wld .. => o.phase != .queued | _ => false) ||
      s.warps.any fun w => mine w && ((w.outs.any fun o => match o.res with | .load .kiln .. => true | _ => false) ||
        w.stores.any fun p => match p.op with | .write .kiln _ => true | _ => false)

/-- A warp of the core sleeps in BARW, MWAIT or WAITW. -/
def sleeperOn (s : State) (c : CoreId) : Bool :=
  s.warps.any fun w => s.warpCore w == c && w.lanes.any fun x =>
    match x.st with
    | .sleeping (.bar _) _ => true
    | .sleeping (.mwait ..) _ => true
    | .sleeping (.waitw ..) _ => true
    | _ => false

/-- Ticks of the times that R400 states. -/
def boundaryWait : Nat := 10000 * Config.ticksPerUs
def deferWait : Nat := 4000 * Config.ticksPerUs

/-- VBUS_REPAIR. DEDUCED (log entry 73). -/
def execVbusRepair (c : CoreId) (b : VBus) (s : State) : Out :=
  let x := vbusGet (s.getCore c) b
  happens (if !x.pend || x.repairing then s
    else if x.deferAt.isSome then (if inTransfer s c b then s else modVbus s c b fun y => { y with repairing := true, deferAt := none })
    else if !boundary s c x.dueAt then s
    else if inTransfer s c b && sleeperOn s c then modVbus s c b fun y => { y with deferAt := some (s.clock + BitVec.ofNat 64 deferWait) }
    else modVbus s c b fun y => { y with repairing := true })

/-- VBUS_DEFER_TIMEOUT. -/
def execVbusDeferTimeout (c : CoreId) (b : VBus) (s : State) : Out :=
  happens (match (vbusGet (s.getCore c) b).deferAt with
    | some t => if t.toNat ≤ s.clock.toNat then modVbus s c b fun y => { y with repairing := true, deferAt := none } else s
    | none => s)

/-- A bus of the core has waited 10 ms for a boundary. -/
def boundaryLate (s : State) (c : CoreId) : Bool :=
  [VBus.arr, VBus.cask, VBus.kiln].any fun b =>
    let x := vbusGet (s.getCore c) b
    x.pend && !x.repairing && x.deferAt.isNone && !boundary s c x.dueAt && decide (x.dueAt.toNat + boundaryWait ≤ s.clock.toNat)

/-- VBUS_FORCED_BOUNDARY: a resident workgroup is pre-empted; which one is not stated. -/
def execVbusForcedBoundary (c : CoreId) (s : State) : Out :=
  let gs := (gangsOn s c).filter fun g => g.st == .running
  happens (if !boundaryLate s c || gs.isEmpty then s
    else
      let r := s.drawDWord
      match gs[r.1.toNat % gs.length]? with
      | some g => startPreempt r.2 g.id (chooseAction (((r.2.getRegion g.region).map (·.eff)).getD {}) g)
      | none => s)

/-- Every tier from one on fails (R401). -/
def failTiers (s : State) (c : CoreId) (tier : Nat) : State :=
  let gone : BitVec 5 := 31#5 <<< tier
  replaceSpent (tiersFail (modEngine s c fun e => { e with cut := e.cut ||| gone }) c gone) c

/-- What a repair that needs more lanes than remain leaves (R401); `link` is the tier below the failed link. -/
def degradeBus (s : State) (c : CoreId) (b : VBus) (link : Nat) : State :=
  match b with
  | .arr => failTiers s c (link + 1)
  | .kiln => s
  | .cask => retireCore s c (physOf (s.getCluster (cluOf c)) c.core) true

/-- VBUS_REPAIR_COMPLETE: `lanes` lanes had to be moved to spares. -/
def execVbusRepairComplete (c : CoreId) (b : VBus) (lanes link : Nat) (s : State) : Out :=
  let x := vbusGet (s.getCore c) b
  happens (if !x.repairing then s
    else
      let left := x.spare - lanes
      let y : VBusState := { x with ce := 0, pend := false, repairing := false, deferAt := none, spare := left,
                                    degraded := x.degraded || decide (x.spare < lanes) }
      let s1 := { modVbus s c b (fun _ => y) with degraded := s.degraded || left == 0 }
      if x.spare < lanes then degradeBus s1 c b link else s1)

/-! ## The host link (R446 to R448, R451) -/

/-- HOST_LINK_TRAINED. -/
def execHostLinkTrained (x16 : Bool) (s : State) : Out := happens { s with linkw := if x16 then 2 else 1 }

/-- The warps with posted writes to host pages on their way. -/
def postingWarps (s : State) : List Nat := (s.hostPosted.map (·.1)).eraseDups

/-- The context of a warp, resident or kept with a saved gang. -/
def keptCtx (s : State) (w : Nat) : List Nat :=
  match s.getWarp w with
  | some x => [s.warpCtx x]
  | none => ctxsOf s (s.gangs.filter fun g => g.savedWarps.any fun x => x.id == w)

/-- LINK_DOWN: the posted writes on their way end with an error, and their contexts are contained (R448). -/
def execLinkDown (s : State) : Out :=
  let cs := ((postingWarps s).flatMap (keptCtx s)).eraseDups
  happens (cs.foldl containCtx { s with linkw := 0, hostPosted := [] })

/-- The contexts of the ASIDs whose write-backs were lost are contained (R448, R467, R487). DESIGN CHOICE (log entry 101). -/
def containLost (s : State) : State :=
  ((s.regions.filter fun r => r.status == 0 && (s.lostBacks.contains r.asid.toNat || s.lostBacks.contains 0)).map (·.ctx)).eraseDups.foldl containCtx
    { s with lostBacks := [] }

/-- The recovery interface is open (R451). -/
def recoveryOpen (s : State) : Bool := s.stage == 0xF

/-- HOST_CONFIGURATION_REQUEST (R450, R451). -/
def execHostConfigurationRequest (_fn : Nat) (s : State) : Out :=
  happens { s with hostOut := s.hostOut ++ [if s.stage == 7 || s.stage == 0xF || s.stage == 0xE then .config else .retry] }

/-- Where an inbound request goes. -/
inductive Inbound where
  | svc (off : Nat)
  | bell (k off : Nat)
  | hbm (pa : Nat)
  | table (off : Nat)
  | zero
  | unsupported
  deriving DecidableEq, Repr

/-- The place of n bytes of a BAR of a function (R446, R447, R451). DEDUCED (log entry 72). -/
def inboundAt (s : State) (fn bar off n : Nat) : Inbound :=
  if recoveryOpen s then
    if fn = 0 ∧ bar = 0 then (if off + n ≤ 4 ∨ (0x088 ≤ off ∧ off + n ≤ 0x08C) then .svc off else .zero)
    else if fn = 0 ∧ bar = 2 ∧ off + n ≤ 0x08000000 then .hbm off else .unsupported
  else if s.stage == 0xE then (if fn = 0 ∧ bar = 0 ∧ off + n ≤ 4 then .svc off else .unsupported)
  else if !s.psReady then .unsupported
  else if fn = 0 then
    if bar = 0 then
      (if off + n ≤ 0x1000 then .svc off else if 0x8000 ≤ off ∧ off + n ≤ 0x8000 + 64 * 16 then .table (off - 0x8000)
       else if off + n ≤ 0x10000 then .zero else .unsupported)
    else if bar = 2 ∧ off + n ≤ hbmEnd then .hbm off else .unsupported
  else if 16 < fn then .unsupported
  else if bar = 0 then (if off + n ≤ 0x1000 then .bell fn off else .unsupported)
  else
    let f := s.fn fn
    if bar = 2 ∧ off + n ≤ f.bar2sz.toNat * 2 ^ 30 then .hbm (bitsAt f.bar2pa.toNat 30 18 * 2 ^ 30 + off) else .unsupported

/-- The aligned 8 bytes at an offset of a VF's doorbell page (R447). -/
def bellRead (s : State) (k off : Nat) : Nat :=
  let f := s.fn k
  if off = 0x000 then setBitsAt (setBitsAt (pstatWord s) 7 1 0) 9 1 0
  else if off = 0x008 then f.ring.toNat
  else if off = 0x010 then healthWord s
  else if off = 0x020 then f.cqbase.toNat
  else if off = 0x028 then f.cqhead.toNat + 2 ^ 32 * f.cqtail.toNat
  else if off = 0x030 then bitsAt f.bar2pa.toNat 30 18 * 2 ^ 30
  else if off = 0x038 then f.bar2sz.toNat
  else 0

/-- A write of 4 or 8 aligned bytes to a VF's doorbell page. -/
def bellWrite (s : State) (k off n : Nat) (v : DWord) : State :=
  let f := s.fn k
  let base := off / 8 * 8
  let half := off % 8
  if base = 0x008 then ringbaseWrite s k (merge64 f.ring half n v)
  else if base = 0x020 then s.modFn k fun x => { x with cqbase := merge64 f.cqbase half n v &&& 0x0000FFFFFFFFF000 }
  else if base = 0x028 then
    (if n = 8 then s.modFn k fun x => { x with cqtail := v.extractLsb' 32 32 }
     else if half = 4 then s.modFn k fun x => { x with cqtail := v.setWidth 32 } else s)
  else s

/-- Bytes of registers that are read as aligned 8-byte words. -/
def regBytes (f : Nat → Nat) (off n : Nat) : List Byte :=
  (List.range n).map fun k => BitVec.ofNat 8 (f ((off + k) / 8 * 8) / 2 ^ (8 * ((off + k) % 8)))

/-- Registers written by a run of bytes, in pieces of 8 and 4 aligned bytes; a piece that is shorter writes nothing. DEDUCED (log entry 72). -/
def regWrite (f : State → Nat → Nat → DWord → State) : Nat → State → Nat → List Byte → State
  | 0, s, _, _ => s
  | fuel + 1, s, off, bs =>
    if off % 8 = 0 ∧ 8 ≤ bs.length then regWrite f fuel (f s off 8 (BitVec.ofNat 64 (leNat (bs.take 8)))) (off + 8) (bs.drop 8)
    else if off % 4 = 0 ∧ 4 ≤ bs.length then regWrite f fuel (f s off 4 (BitVec.ofNat 64 (leNat (bs.take 4)))) (off + 4) (bs.drop 4)
    else s

/-- The wort range of an open region holds a byte of some physical memory (R354). -/
def wortAtPa (s : State) (pa n : Nat) : Bool :=
  s.regions.any fun r => r.status == 0 && r.worts.any fun x =>
    x.st != .closed && (List.range x.lines).any fun i =>
      (match translateNow s 0 r.asid.toNat false .write (wortLineVa x i) with
       | .mem p _ _ => decide (p < pa + n) && decide (pa < p + 128)
       | _ => false) ||
      (match translateNow s 0 r.asid.toNat false .write (x.shadow + BitVec.ofNat 64 (8 * i)) with
       | .mem p _ _ => decide (p < pa + n) && decide (pa < p + 8)
       | _ => false)

/-- A coherent write by the host link at the home (R339). -/
def hostWrite (s : State) (pa : Nat) (bs : List Byte) : State :=
  (lineParts pa bs.length).foldl (fun acc p => physStore acc p.1 ((bs.drop (p.1 - pa)).take p.2)) s

/-- The host's write may take effect at the homes of its lines (R344, R395). -/
def hostReady (s : State) (pa n : Nat) : Bool := (lineParts pa n).all fun p => physReady s p.1

/-- An inbound request that is not served: it completes with Unsupported Request, and the function records it. -/
def unsupported (s : State) (fn : Nat) : State := s.modFn fn fun f => { f with errors := f.errors + 1 }

/-- A host write of bytes performed (R339, R446, R447, R451); none while it must wait at a home. -/
def hostStore (s : State) (fn bar off : Nat) (bytes : List Byte) : Option State :=
  match inboundAt s fn bar off bytes.length with
  | .svc o => some (regWrite svcWrite (bytes.length + 1) s o bytes)
  | .bell k o => some (regWrite (fun t => bellWrite t k) (bytes.length + 1) s o bytes)
  | .hbm pa =>
    if wortAtPa s pa bytes.length then some (unsupported s fn)
    else if homeDead s pa then some (unsupported s fn)
    else if hostReady s pa bytes.length then some (hostWrite s pa bytes)
    else none
  | .table o => some { s with msix := (bytes.zipIdx o).foldl (fun m b => sput 0 m b.2 b.1) s.msix }
  | .zero => some s
  | .unsupported => some (unsupported s fn)

/-- A host read answered. -/
def hostLoad (s : State) (fn bar off len : Nat) : State :=
  let say (t : State) (r : HostReply) : State := { t with hostOut := t.hostOut ++ [r] }
  match inboundAt s fn bar off len with
  | .svc o => say s (.data (regBytes (svcRead s) o len))
  | .bell k o => say s (.data (regBytes (bellRead s k) o len))
  | .hbm pa => if homeDead s pa then say s .abort else say s (.data (s.load pa len))
  | .table o => say s (.data ((List.range len).map fun k => sget 0 s.msix (o + k)))
  | .zero => say s (.data (List.replicate len 0))
  | .unsupported => say s .unsupported

/-- One inbound request served; none while it must wait. -/
def hostServe (s : State) (q : HostReq) : Option State :=
  match q.bytes with
  | none => some (hostLoad s q.fn q.bar q.off q.len)
  | some bs => hostStore s q.fn q.bar q.off bs

/-- A write that waits tells the holders of its lines (R389). -/
def hostAnnounce (s : State) (q : HostReq) : State :=
  let n := (q.bytes.getD []).length
  match inboundAt s q.fn q.bar q.off n with
  | .hbm pa => (lineParts pa n).foldl (fun acc p => announcePhys acc p.1) s
  | _ => s

/-- The inbound requests served in their order as far as they go. DEDUCED (log entry 89). -/
def hostDrainIn (s : State) : List HostReq → State
  | [] => { s with inbound := [] }
  | q :: qs =>
    match hostServe s q with
    | some t => hostDrainIn t qs
    | none => hostAnnounce { s with inbound := q :: qs } q

/-- An inbound request arrives behind those that wait. -/
def hostArrive (s : State) (q : HostReq) : State := hostDrainIn s (s.inbound ++ [q])

/-- HOST_INBOUND_WRITE (R339, R446, R447, R451). -/
def execHostInboundWrite (fn bar off : Nat) (bytes : List Byte) (s : State) : Out := happens (hostArrive s ⟨fn, bar, off, some bytes, 0⟩)

/-- HOST_INBOUND_READ. -/
def execHostInboundRead (fn bar off len : Nat) (s : State) : Out := happens (hostArrive s ⟨fn, bar, off, none, len⟩)

/-- UNCORRECTABLE_ERROR (R294, R312, R345, R349, R380, R448): one that an inbound read of the host meets completes it with Completer Abort. -/
def execUncorrectableError (e : ErrAt) (s : State) : Out :=
  happens (match e with
    | .hostRead fn bar off len =>
      (match inboundAt s fn bar off len with
       | .hbm _ => if s.inbound.isEmpty then { s with hostOut := s.hostOut ++ [.abort] } else s
       | _ => s)
    | _ => uncorrectable s e)

/-- POISONED_TLP (R448). -/
def execPoisonedTlp (fn : Nat) (s : State) : Out := happens (unsupported s fn)

/-! ## Boot, recovery, attestation (R449 to R452) -/

/-- What lasts of a bus when the package is reset: the groups that have taken over from failed ones, and those that are slate (R461). -/
def wornBus (b : Bus) : Bus :=
  { phys := b.tuning.foldl (fun p t => p.set t.1 t.2) b.phys
    retired := b.retired ++ b.tuning.map fun t => (b.phys[t.1]?).getD t.1
    proxy := b.proxy
    st := b.st.map fun g => if g == .slate then .slate else .cobalt }

/-- Of a die: besides its buses, its fenced mesh links and a stack that fails training (R324, R375, R461). -/
def wornDie (d : Die) : Die := { id := d.id, buses := d.buses.map wornBus, fencedLinks := d.fencedLinks, noStack := d.noStack }

/-- Of a cluster: the marks of its failed cores, its cask ways that failed, its filter rings (R293, R295, R322, R461). -/
def wornCluster (c : Cluster) : Cluster :=
  { id := c.id, cmap := c.cmap, healthy := c.healthy, spares := c.spares, disabled := c.disabled, rings := c.rings,
    out := c.cmap.setWidth 32 == 0xFFFFFFFF#32 }

/-- Of a core: its failed tiers and the bond lanes left to its vertical buses (R264, R400, R461). -/
def wornCore (c : Core) : Core :=
  let bus (v : VBusState) : VBusState := { spare := v.spare, degraded := v.degraded }
  { id := c.id, engine := { fail := c.engine.fail, cut := c.engine.cut }, vbArr := bus c.vbArr, vbCask := bus c.vbCask, vbKiln := bus c.vbKiln }

/-- Of a port: its wavelengths that still work (R461, R483). -/
def wornPort (p : Port) : Port := { usable := p.usable, spareUsed := decide (p.usable < 9) }

/-- The package right after reset: what fuses hold stays, and so do failed parts, which nothing repairs in the field, the host, its link's answers and
the order of outside choices. DESIGN CHOICE (log entry 7). DESIGN CHOICE (log entry 68). -/
def powerOn (s : State) : State :=
  { State.reset with
    dies := s.dies.map wornDie
    clusters := s.clusters.map wornCluster
    cores := s.cores.map wornCore
    ports := s.ports.map wornPort
    agenda := s.agenda
    dev := s.dev
    fresh := s.fresh
    nextId := s.nextId
    hostMem := s.hostMem
    hostOut := s.hostOut
    fused := s.fused
    erased := if s.erased == 2 then 2 else 0 }

/-- RESET (R450): the package is at its reset values and the ROM begins with stage 1. -/
def execReset (s : State) : Out := happens (powerOn s)

/-- RECOVERY_GO (R451): RECOV.GO written in recovery. -/
def execRecoveryGo (s : State) : Out := happens (recoveryGo s)

/-! ### The stages of boot (R450) -/

/-- Stacks trained: a die whose stack fails homes no memory (R375). -/
def trainStacks (s : State) (failed : DWord) (dies : List Nat) : State :=
  (dies.filter fun d => failed.getLsbD d).foldl (fun acc d => acc.modDie d fun x => { x with noStack := true }) s

/-- A CMAP with a physical core marked failed (R271, R295). -/
def markFailed (m : DWord) (phys : Nat) : DWord :=
  match (List.range 8).find? fun k => bitsAt m.toNat (4 * k) 4 == phys with
  | some k => sparedMap m k phys
  | none => m ||| (1#64 <<< (32 + phys))

/-- A cluster with the map of the fuse record, on which the cores that have failed since are marked (R271, R450 stage 3). -/
def loadMap (c : Cluster) : Cluster :=
  if c.out then c
  else
    let fuse := Config.fuseCmap (c.id.die * 16 + c.id.clu) &&& 0x000003FFFFFFFFFF
    { c with cmap := (List.range 9).foldl (fun m p => if c.cmap.getLsbD (32 + p) && !m.getLsbD (32 + p) then markFailed m p else m) fuse }

/-- The body of the running image copied to its place in a die's stack (R449, R450 stages 3 and 6). DEDUCED (log entry 102). -/
def placeImage (s : State) (d : Nat) : State :=
  let load := imageField s.image 0x10 8
  let body := (s.image.drop 2048).take (imageField s.image 0xC 4)
  if (s.getDie d).noStack || 2 ^ 36 < load + body.length then s else writePa s (d * 2 ^ 36 + load) body

/-- The firmware of die 0 starts: the stacks are trained, in recovery those of the other dies, and every cluster has its map (R450 stage 3, R451).
Which stacks fail is a free value. DESIGN CHOICE (log entry 68). -/
def bootFirmware (s : State) : State :=
  let r := s.drawDWord
  let t := trainStacks r.2 r.1 ((List.range 16).drop s.recovery.toNat)
  placeImage { t with clusters := (List.range 256).map fun k => loadMap (t.getCluster ⟨k / 16, k % 16⟩), recovery := false } 0

/-- The self-test of a cluster (R450 stage 4, R461): its cores, tiers, cask ways and filter rings. What it finds failed is a free value.
DESIGN CHOICE (log entry 68). -/
def testCluster (s : State) (c : CluId) : State :=
  let bad := s.drawDWord
  let ways := bad.2.drawDWord
  let lost (b : Nat) : Nat := bitsAt bad.1.toNat (16 + 2 * b) 2
  let dark := (s.getCluster c).rings.zipIdx.any fun r => decide (r.1 < lost r.2)
  let s1 := ways.2.modCluster c fun x =>
    { x with
      cmap := (List.range 9).foldl (fun m p => if bad.1.getLsbD p && !m.getLsbD (32 + p) then markFailed m p else m) x.cmap
      rings := x.rings.mapIdx fun b n => n - lost b }
  let s2 := (List.range 32).foldl (fun acc j =>
    if ways.1.getLsbD j then let w := acc.drawDWord; caskWayFail w.2 c j (w.1.toNat % 16) else acc) s1
  let s3 := (List.range 8).foldl (fun acc i => replaceSpent (selfTest acc ⟨c.die, c.clu, i⟩) ⟨c.die, c.clu, i⟩)
    (s2.modCluster c fun x => { x with copying := [] })
  if dark then clusterOut s3 c else s3

/-- Some spare pool of R461 is empty. -/
def poolEmpty (s : State) : Bool :=
  (s.clusters.any fun c => c.cmap.getLsbD 40 || c.cmap.getLsbD 41 || !c.spares.isEmpty || c.rings.any (· == 0)) ||
    (s.cores.any fun c => c.engine.cfg.getLsbD 4 || c.engine.fail.getLsbD 4 || c.vbArr.spare == 0 || c.vbCask.spare == 0 || c.vbKiln.spare == 0) ||
    (s.dies.any fun d => !d.fencedLinks.isEmpty || d.buses.any fun b => (spareGroups b).isEmpty) || s.ports.any fun p => decide (p.usable < 9)

/-- Stage 4: every cluster tested, and DEGRADED as the spare pools are left. -/
def bootTests (s : State) : State :=
  let t := ((List.range 256).map fun k => (⟨k / 16, k % 16⟩ : CluId)).foldl testCluster s
  { t with degraded := t.degraded || poolEmpty t }

/-- Stage 7 (R446, R447, R449): READY; the firmware may have raised the fused counter, and the VFs have the ranges that system software assigns them,
within HBM. DESIGN CHOICE (log entry 68). -/
def bootReady (s : State) : State :=
  let raise := s.drawDWord
  let range (k : Nat) : Nat × Nat := let r := Config.vfRange k; if 1 ≤ r.2 && r.2 ≤ 64 && r.1 + r.2 ≤ 1024 then r else (0, 0)
  { raise.2 with
    stage := 7
    psReady := true
    fused := if s.fused.toNat < raise.1.toNat then raise.1 else s.fused
    fns := s.fns.mapIdx fun k f => if k = 0 then f else { f with bar2pa := BitVec.ofNat 64 ((range k).1 * 2 ^ 30), bar2sz := BitVec.ofNat 32 (range k).2 } }

/-- An image found not to verify (R451): recovery opens once die 0's stack is trained, or opens again; where that stack fails the package cannot be
recovered. -/
def bootRecover (s : State) : State :=
  let r := s.drawBool
  if s.recovery then { s with stage := 0xF }
  else if r.1 || (s.getDie 0).noStack then { r.2.modDie 0 (fun d => { d with noStack := true }) with stage := 0xE }
  else { r.2 with stage := 0xF, recovery := true }

/-- One stage of boot to the next (R449 to R451): the ROM reads the fuses; verifies the image of the flash, or in recovery that of die 0's stack; the
firmware starts; tests; locks groups and ports; starts the other dies; and is ready. -/
def bootStage (s : State) : State :=
  if s.psReady then s
  else match s.stage.toNat with
  | 1 => { s with stage := 2 }
  | 2 =>
    let bs := if s.recovery then stackImage s else Config.flashImage
    if imageOk s.fused bs then { s with stage := 3, image := bs.take (2048 + imageField bs 0xC 4) } else bootRecover s
  | 3 => { bootFirmware s with stage := 4 }
  | 4 => { bootTests s with stage := 5 }
  | 5 => { s with stage := 6 }
  | 6 => bootReady (((List.range 16).drop 1).foldl placeImage s)
  | _ => s

/-- ATTESTATION_REQUEST (R452): ATTDST written, the report made and signalled; a report in progress ends. -/
def execAttestationRequest (v : DWord) (s : State) : Out := happens (attFinish (attStart s v))

/-! ## Alarms (R453, R454) -/

/-- SECURITY_ALARM: POLICY 3 counts as 2; a tamper alarm erases the identity key whatever POLICY holds. DEDUCED (log entry 70). -/
def execSecurityAlarm (cls : Nat) (s : State) : Out :=
  let p := min s.policy.toNat 2
  let tamper := cls == 0
  let lost : BitVec 2 := if p == 2 || tamper then 2 else if p == 1 then 1 else 0
  let s1 : State :=
    { s with
      alarmClass := s.alarmClass ||| (1#4 <<< cls)
      psAlarm := true
      erased := if s.erased.toNat < lost.toNat then lost else s.erased
      launchLock := s.launchLock || p != 0 || tamper }
  let ctxs := ((s.regions.filter fun r => r.status == 0).map (·.ctx)).eraseDups
  happens (if 4 ≤ cls then s else if p = 0 then s1 else ctxs.foldl containCtx s1)

/-- ALARM_CLASS_CLEAR (R460). -/
def execAlarmClassClear (v : BitVec 4) (s : State) : Out := happens { s with alarmClass := s.alarmClass &&& ~~~ v }

/-! ## Heartbeats (R456, R457) -/

/-- The contexts with a workgroup resident on some cores. -/
def ctxsAt (s : State) (p : CoreId → Bool) : List Nat :=
  ctxsOf s (s.gangs.filter fun g => s.wgs.any fun w => w.gang == g.id && p w.core)

/-- The contexts with an operation under way on some cores: a copy that their scratchpads are an end of, a racking, dirty bytes in their kilns. -/
def ctxsUsing (s : State) (p : CoreId → Bool) : List Nat :=
  let on (e : CopyEnd) : Bool := match targetCore e with | some k => p k | none => false
  (s.copies.filter fun c => p c.core || on c.src || on c.dst).map (·.ctx) ++
    (s.racks.filter fun k => p k.core).flatMap (fun k => ((s.getRegion k.region).map (·.ctx)).toList) ++
    (s.cores.filter fun c => p c.id).flatMap fun c => dirtyCtxs s c.id

/-- Some byte of a range is homed on a die. -/
def homedOn (s : State) (d asid va n : Nat) : Bool :=
  (lineParts va n).any fun p => match translateNow s 0 asid false .read (BitVec.ofNat 64 p.1) with
    | .mem pa _ _ => pa / 2 ^ 36 % 16 == d
    | _ => false

/-- The contexts with a transaction that a dead home will not answer: an access of a warp, a copy, a racking, a collective. -/
def ctxsWaiting (s : State) (d : Nat) : List Nat :=
  let warps := s.warps.filter fun w =>
    ((w.outs ++ w.reads).any fun o => hasErr (entryLates s w o)) || w.stores.any fun p => hasErr (storeLates s w p)
  let copies := s.copies.filter fun c => [c.src, c.dst].any fun e =>
    match e with | .glob va => homedOn s d c.asid va.toNat (unitBytes c.kind * c.units) | _ => false
  let racks := s.racks.filter fun k => match rackEntry s k with
    | some (r, x) => homedOn s d r.asid.toNat x.base.toNat (128 * x.lines) || homedOn s d r.asid.toNat x.shadow.toNat (8 * x.lines) ||
        homedOn s d r.asid.toNat k.out.toNat (128 * x.lines)
    | none => false
  let colls := s.colls.filter fun c => homedOn s d c.asid.toNat c.block.toNat 64 ||
    (c.started && (c.steps.drop c.step).head?.any fun st => decide (st.kind < 2) && homedOn s d c.asid.toNat st.a.toNat (128 * st.n))
  (warps.map (s.warpCtx ·) ++ copies.map (·.ctx) ++ racks.flatMap (fun k => ((s.getRegion k.region).map (·.ctx)).toList) ++
    colls.flatMap fun c => ((s.getRegion c.region).map (·.ctx)).toList).eraseDups

/-- A die declared dead: every agent of it counts as dead. DEDUCED (log entry 70). -/
def dieDead (s : State) (a : Agent) (d : Nat) : State :=
  let s1 := s.modDie d fun x => { x with dead := true }
  let s2 := (List.range 16).foldl (fun acc k => acc.modCluster ⟨d, k⟩ fun x => { x with out := true, dead := true }) s1
  contain s2 a (ctxsAt s2 (fun c => c.die == d) ++ ctxsUsing s2 (fun c => c.die == d) ++ ctxsWaiting s2 d).eraseDups

/-- A core declared dead: the contexts on it are contained, and since its state can no longer be trusted it is retired (R295, R457). DEDUCED (log
entry 70). -/
def coreDead (s : State) (a : Agent) (c : CoreId) : State :=
  let phys := physOf (s.getCluster (cluOf c)) c.core
  if phys = 15 then s else swapCore (contain s a (ctxsAt s (· == c) ++ ctxsUsing s (· == c)).eraseDups) c phys

/-- A port controller declared dead: none of its wavelengths carries anything any more. -/
def portDead (s : State) (p : Nat) : State :=
  let t := s.modPort p fun x => { x with st := .slate, locked := false, width := 0, usable := 0 }
  if (s.port p).usable = 0 then s else portSlate (freezeColls t 3 p) p true

/-- The L1 lines of a cluster's cores. -/
def clusterLines (s : State) (c : CluId) : List (CoreId × L1Line) :=
  (s.cores.filter fun k => cluOf k.id == c).flatMap fun k => k.l1.map fun ln => (k.id, ln)

/-- A cluster declared dead (R325): its groups are amber and carry nothing; the requests that wait for its probe answers, or for a probe
that it was to send, end with an error and their contexts are halted, as are those whose dirty lines it held; then its presence bits
are cleared. DEDUCED (log entry 70). -/
def clusterDead (s : State) (a : Agent) (c : CluId) : State :=
  let d := s.getDie c.die
  let lost (q : Req) : Bool :=
    let region := regionOfLine q.ln.line
    q.onBus && ((presence d q.ln.asid region).getLsbD c.clu || homeCluster q.ln.asid region == c.clu)
  let gone := d.reqs.filter lost
  let asking := (s.warps.filter fun w => gone.any fun q => s.warpCore w == q.core &&
    ((loadAsks s w ++ storeAsks s w).any fun k => lineOf k.va == q.ln.line)).map (s.warpCtx ·)
  let dirty := (clusterLines s c).filter fun p => p.2.st == .m || p.2.st == .o
  let owners := (s.regions.filter fun r => r.status == 0 && dirty.any fun p => tagSees r.asid.toNat p.2.asid).map (·.ctx)
  let keep (p : Nat × BusMsg) : Bool := p.1 != c.clu && (match p.2 with | .probe q => !lost q | _ => true)
  let s1 := (s.modCluster c fun x => { x with out := true, dead := true }).modDie c.die fun x =>
    { x with
      reqs := x.reqs.filter fun q => !lost q
      buses := x.buses.map fun b =>
        { b with
          st := b.st.set c.clu .amber
          tuning := b.tuning.filter fun t => t.1 != c.clu
          queue := b.queue.filter keep
          slots := b.slots.map fun y => { y with msgs := y.msgs.filter keep } } }
  let s2 := contain s1 a ((ctxsAt s fun k => cluOf k == c) ++ ctxsUsing s (fun k => cluOf k == c) ++ asking ++ owners).eraseDups
  let s3 := (clusterLines s2 c).foldl (fun acc p => dropLine acc p.1 p.2.asid p.2.line) s2
  s3.modDie c.die fun x =>
    { x with regions := (x.regions.map fun e => { e with mask := e.mask &&& ~~~ (1#16 <<< c.clu) }).filter fun e => e.mask != 0 }

/-- HEARTBEAT_TIMEOUT. -/
def execHeartbeatTimeout (a : Agent) (s : State) : Out :=
  happens (match a with
    | .context c => containCtx s c
    | .core c => coreDead s a c
    | .cluster c => if (s.getCluster c).dead then s else clusterDead s a c
    | .memory d => if (s.getDie d).dead then s else dieDead s a d
    | .cellar d => if (s.getDie d).dead then s else dieDead s a d
    | .port p => portDead s p
    | .peer p => if p = s.dev || s.deadPkgs.contains p then s else peerDead s p)

/-! ## Registers (R4, R445) -/

/-- REGISTER_WRITE: 4 or 8 aligned bytes written to a control page. -/
def execRegisterWrite (pa size : Nat) (v : DWord) (s : State) : Out :=
  happens (if isCtrlPa pa && (size == 4 || size == 8) && pa % size == 0 && !ctrlBusy s pa then ctrlWrite s pa size v else s)

end Sys2Proof.Machine
end

