-- ==== Sys2Proof/Machine/WarpOps.lean ====
section
/-! DEFINITION. Exchange across the lanes of a run and the warp-scalar registers (R123 to R128). -/

namespace Sys2Proof.Machine

/-- The source lane of XLANE for a lane, when the mode gives one (R123). -/
def xlaneSource (mode : XMode) (z : Nat) (l b : Nat) : Option Nat :=
  let n := 2 ^ z
  let base := l - l % n
  match mode with
  | .idx => some (base + b % n)
  | .rot => some (base + (l - base + b) % n)
  | .sft =>
    let j : Int := l + valInt true 32 b
    if (base : Int) ≤ j ∧ j < base + n then some j.toNat else none
  | .xor => some (base + (l % n ^^^ b % n))

/-- XLANE: a lane outside the participants is never read. -/
def execXlane (h : Hdr) (mode : XMode) (z : BitVec 3) (d a : Reg) (b : SrcB) (s : State) : Out :=
  execLanes (.xlane h mode z d a b) s .v d fun x l =>
    match xlaneSource mode z.toNat l (srcB x .v b l) with
    | some j => if x.e.getLsbD j then (rdV x.w a j).toNat else (rdV x.w a l).toNat
    | none => (rdV x.w a l).toNat

/-- The predicate of a participant, negated under `.not` (R124). -/
def polled (x : Issue) (neg : Bool) (a : Reg) (l : Nat) : Bool := rdQ x.w a l != neg

/-- POLL.all. -/
def execPollAll (h : Hdr) (neg : Bool) (d a : Reg) (s : State) : Out :=
  execLanes (.pollAll h neg d a) s .q d fun x _ => ((lanesOf x.e).all (polled x neg a)).toNat
/-- POLL.any. -/
def execPollAny (h : Hdr) (neg : Bool) (d a : Reg) (s : State) : Out :=
  execLanes (.pollAny h neg d a) s .q d fun x _ => ((lanesOf x.e).any (polled x neg a)).toNat
/-- POLL.same. -/
def execPollSame (h : Hdr) (neg : Bool) (d a : Reg) (s : State) : Out :=
  execLanes (.pollSame h neg d a) s .q d fun x _ => ((lanesOf x.e).all fun l => polled x neg a l == polled x neg a x.low).toNat

/-- The participants whose predicate holds (R124). -/
def qmaskOf (x : Issue) (neg : Bool) (a : Reg) : LaneSet := laneSet ((lanesOf x.e).filter (polled x neg a))

/-- QMASK wD. -/
def execQmaskW (h : Hdr) (neg : Bool) (d a : Reg) (s : State) : Out :=
  execRun (.qmaskW h neg d a) s .w d fun x => (qmaskOf x neg a).toNat
/-- QMASK vD. -/
def execQmaskV (h : Hdr) (neg : Bool) (d a : Reg) (s : State) : Out :=
  execLanes (.qmaskV h neg d a) s .v d fun x _ => (qmaskOf x neg a).toNat

/-- File of a compared operand: a register or a pair. -/
def pairFile (pair : Bool) : File := if pair then .p else .v

/-- The participants with a lane's value (R124). -/
def peersOf (x : Issue) (pair : Bool) (a : Reg) (l : Nat) : List Nat :=
  (lanesOf x.e).filter fun j => readReg x (pairFile pair) a j == readReg x (pairFile pair) a l

/-- PEERS.set. -/
def execPeersSet (h : Hdr) (pair : Bool) (d a : Reg) (s : State) : Out :=
  execLanes (.peersSet h pair d a) s .v d fun x l => (laneSet (peersOf x pair a l)).toNat
/-- PEERS.uni. -/
def execPeersUni (h : Hdr) (pair : Bool) (d a : Reg) (s : State) : Out :=
  execLanes (.peersUni h pair d a) s .q d fun x _ => (peersOf x pair a x.low == lanesOf x.e).toNat
/-- PEERS.lead. -/
def execPeersLead (h : Hdr) (pair : Bool) (d a : Reg) (s : State) : Out :=
  execLanes (.peersLead h pair d a) s .v d fun x l => ((peersOf x pair a l).head?).getD l

/-- The reduction of a list of 32-bit values (R125). -/
def reduceN (op : RedOp) (t : T32) : List Nat → Nat
  | [] => 0
  | v :: vs => vs.foldl (fun acc w =>
      match op with
      | .add => (acc + w) % 2 ^ 32
      | .min => wrapInt 32 (min (valInt (T32.signed t) 32 acc) (valInt (T32.signed t) 32 w))
      | .max => wrapInt 32 (max (valInt (T32.signed t) 32 acc) (valInt (T32.signed t) 32 w))
      | .and => acc &&& w
      | .or => acc ||| w
      | .xor => acc ^^^ w) v

/-- REDUX: the result goes once to wD, or to vD in every participant. -/
def execRedux (h : Hdr) (op : RedOp) (t : T32) (d : RedDst) (a : Reg) (s : State) : Out :=
  issue (.redux h op t d a) s always fun x u =>
    let r := reduceN op t ((lanesOf x.e).map fun l => (rdV x.w a l).toNat)
    match d with
    | .w k => runEffect .w k (fun _ => r) x u
    | .v k => laneEffect .v k (fun _ _ => r) x u

/-- ELECT. -/
def execElect (h : Hdr) (d : Reg) (s : State) : Out := execLanes (.elect h d) s .q d fun x l => (l == x.low).toNat

/-- WMOV wD, vA. -/
def execWmovWFromV (h : Hdr) (d a : Reg) (s : State) : Out := execRun (.wmovWFromV h d a) s .w d fun x => (rdV x.w a x.low).toNat
/-- WMOV vD, wA. -/
def execWmovVFromW (h : Hdr) (d a : Reg) (s : State) : Out := execLanes (.wmovVFromW h d a) s .v d fun x _ => (rdW x.w a).toNat
/-- WMOV wD, wA. -/
def execWmovWFromW (h : Hdr) (d a : Reg) (s : State) : Out := execRun (.wmovWFromW h d a) s .w d fun x => (rdW x.w a).toNat
/-- WMOV wD, imm. -/
def execWmovWImm (h : Hdr) (d : Reg) (v : Word) (s : State) : Out := execRun (.wmovWImm h d v) s .w d fun _ => v.toNat

/-- The operations of WOP (R128). -/
def wopN (op : WOpK) (t : T32) (a b : Nat) : Nat :=
  match op with
  | .add => (a + b) % 2 ^ 32
  | .sub => wrapInt 32 ((a : Int) - b)
  | .mul => a * b % 2 ^ 32
  | .and => a &&& b
  | .or => a ||| b
  | .xor => a ^^^ b
  | .shl => if 32 ≤ b then 0 else a * 2 ^ b % 2 ^ 32
  | .shr => if 32 ≤ b then 0 else a / 2 ^ b
  | .sar => wrapInt 32 (valInt true 32 a / 2 ^ (min b 32))
  | .min => wrapInt 32 (min (valInt (T32.signed t) 32 a) (valInt (T32.signed t) 32 b))
  | .max => wrapInt 32 (max (valInt (T32.signed t) 32 a) (valInt (T32.signed t) 32 b))

/-- WOP. -/
def execWop (h : Hdr) (op : WOpK) (t : T32) (d a : Reg) (b : SrcB) (s : State) : Out :=
  execRun (.wop h op t d a b) s .w d fun x => wopN op t (rdW x.w a).toNat (srcB x .w b 0)

end Sys2Proof.Machine
end

