-- ==== Sys2Proof/Machine/Dispatch.lean ====
section
/-! DEFINITION. The dispatch: one arm per constructor of `Instr`, each a call of its own meaning. -/

namespace Sys2Proof.Machine

/-- The meaning of an instruction word, or of one of the machine's other steps, in a state. -/
def exec (i : Instr) (s : State) : Host.Outcome State Fault Refusal :=
  match i with
  | .nop h => Sys2Proof.Machine.execNop h s
  | .bra h off => Sys2Proof.Machine.execBra h off s
  | .brx h a => Sys2Proof.Machine.execBrx h a s
  | .call h d off => Sys2Proof.Machine.execCall h d off s
  | .callx h d a => Sys2Proof.Machine.execCallx h d a s
  | .ret h a => Sys2Proof.Machine.execRet h a s
  | .exit h => Sys2Proof.Machine.execExit h s
  | .join h m => Sys2Proof.Machine.execJoin h m s
  | .leave h m => Sys2Proof.Machine.execLeave h m s
  | .waitm h m => Sys2Proof.Machine.execWaitm h m s
  | .movmMaskFromW h m w => Sys2Proof.Machine.execMovmMaskFromW h m w s
  | .movmWFromMask h w m => Sys2Proof.Machine.execMovmWFromMask h w m s
  | .movmMaskFromMask h d a => Sys2Proof.Machine.execMovmMaskFromMask h d a s
  | .movmMaskImm h m v => Sys2Proof.Machine.execMovmMaskImm h m v s
  | .rgn h => Sys2Proof.Machine.execRgn h s
  | .trap h code => Sys2Proof.Machine.execTrap h code s
  | .wcall h d a svc => Sys2Proof.Machine.execWcall h d a svc s
  | .rttRetry h => Sys2Proof.Machine.execRttRetry h s
  | .rttSkip h => Sys2Proof.Machine.execRttSkip h s
  | .rttSub h => Sys2Proof.Machine.execRttSub h s
  | .rttRetryRgn h => Sys2Proof.Machine.execRttRetryRgn h s
  | .yield h => Sys2Proof.Machine.execYield h s
  | .iadd h t sat d a b => Sys2Proof.Machine.execIadd h t sat d a b s
  | .isum h t d x => Sys2Proof.Machine.execIsum h t d x s
  | .isub h t sat d a b => Sys2Proof.Machine.execIsub h t sat d a b s
  | .imul h t d a b => Sys2Proof.Machine.execImul h t d a b s
  | .imulhi h t d a b => Sys2Proof.Machine.execImulhi h t d a b s
  | .imad h t sat d x => Sys2Proof.Machine.execImad h t sat d x s
  | .imadw h t d x => Sys2Proof.Machine.execImadw h t d x s
  | .imin h t d a b => Sys2Proof.Machine.execImin h t d a b s
  | .imax h t d a b => Sys2Proof.Machine.execImax h t d a b s
  | .iabs h wide sat d a => Sys2Proof.Machine.execIabs h wide sat d a s
  | .isad h t d x => Sys2Proof.Machine.execIsad h t d x s
  | .shl h t d a b => Sys2Proof.Machine.execShl h t d a b s
  | .shr h t d a b => Sys2Proof.Machine.execShr h t d a b s
  | .sar h t d a b => Sys2Proof.Machine.execSar h t d a b s
  | .rotL h t d a b => Sys2Proof.Machine.execRotL h t d a b s
  | .rotR h t d a b => Sys2Proof.Machine.execRotR h t d a b s
  | .funl h d x => Sys2Proof.Machine.execFunl h d x s
  | .and h t d a b => Sys2Proof.Machine.execAnd h t d a b s
  | .or h t d a b => Sys2Proof.Machine.execOr h t d a b s
  | .xor h t d a b => Sys2Proof.Machine.execXor h t d a b s
  | .not h t d a => Sys2Proof.Machine.execNot h t d a s
  | .tern h t d x tbl => Sys2Proof.Machine.execTern h t d x tbl s
  | .popc h t d a => Sys2Proof.Machine.execPopc h t d a s
  | .clz h t d a => Sys2Proof.Machine.execClz h t d a s
  | .ctz h t d a => Sys2Proof.Machine.execCtz h t d a s
  | .brev h t d a => Sys2Proof.Machine.execBrev h t d a s
  | .bfe h t d a b => Sys2Proof.Machine.execBfe h t d a b s
  | .bfi h t d x => Sys2Proof.Machine.execBfi h t d x s
  | .bsel h d x => Sys2Proof.Machine.execBsel h d x s
  | .icmp h c t d a b => Sys2Proof.Machine.execIcmp h c t d a b s
  | .iset h c t d a b => Sys2Proof.Machine.execIset h c t d a b s
  | .sel h t d x => Sys2Proof.Machine.execSel h t d x s
  | .plop h d a b c tbl => Sys2Proof.Machine.execPlop h d a b c tbl s
  | .pmovPack h d a => Sys2Proof.Machine.execPmovPack h d a s
  | .pmovUnpack h d a => Sys2Proof.Machine.execPmovUnpack h d a s
  | .pmovCopy h d a => Sys2Proof.Machine.execPmovCopy h d a s
  | .pmovNot h d a => Sys2Proof.Machine.execPmovNot h d a s
  | .mov h d a => Sys2Proof.Machine.execMov h d a s
  | .movPair h d a => Sys2Proof.Machine.execMovPair h d a s
  | .movi h d v => Sys2Proof.Machine.execMovi h d v s
  | .moviS64 h d v => Sys2Proof.Machine.execMoviS64 h d v s
  | .moviN64 h d v => Sys2Proof.Machine.execMoviN64 h d v s
  | .movw h d v => Sys2Proof.Machine.execMovw h d v s
  | .lea h t sh d a b => Sys2Proof.Machine.execLea h t sh d a b s
  | .leax h t d x off => Sys2Proof.Machine.execLeax h t d x off s
  | .srd h d sr => Sys2Proof.Machine.execSrd h d sr s
  | .swr h sr x => Sys2Proof.Machine.execSwr h sr x s
  | .xlane h mode z d a b => Sys2Proof.Machine.execXlane h mode z d a b s
  | .pollAll h neg d a => Sys2Proof.Machine.execPollAll h neg d a s
  | .pollAny h neg d a => Sys2Proof.Machine.execPollAny h neg d a s
  | .pollSame h neg d a => Sys2Proof.Machine.execPollSame h neg d a s
  | .qmaskW h neg d a => Sys2Proof.Machine.execQmaskW h neg d a s
  | .qmaskV h neg d a => Sys2Proof.Machine.execQmaskV h neg d a s
  | .peersSet h pair d a => Sys2Proof.Machine.execPeersSet h pair d a s
  | .peersUni h pair d a => Sys2Proof.Machine.execPeersUni h pair d a s
  | .peersLead h pair d a => Sys2Proof.Machine.execPeersLead h pair d a s
  | .redux h op t d a => Sys2Proof.Machine.execRedux h op t d a s
  | .elect h d => Sys2Proof.Machine.execElect h d s
  | .wmovWFromV h d a => Sys2Proof.Machine.execWmovWFromV h d a s
  | .wmovVFromW h d a => Sys2Proof.Machine.execWmovVFromW h d a s
  | .wmovWFromW h d a => Sys2Proof.Machine.execWmovWFromW h d a s
  | .wmovWImm h d v => Sys2Proof.Machine.execWmovWImm h d v s
  | .wop h op t d a b => Sys2Proof.Machine.execWop h op t d a b s
  | .fadd h p rm d a b => Sys2Proof.Machine.execFadd h p rm d a b s
  | .fsub h p rm d a b => Sys2Proof.Machine.execFsub h p rm d a b s
  | .fmul h p rm d a b => Sys2Proof.Machine.execFmul h p rm d a b s
  | .ffma h p rm d x => Sys2Proof.Machine.execFfma h p rm d x s
  | .fmin h p d a b => Sys2Proof.Machine.execFmin h p d a b s
  | .fmax h p d a b => Sys2Proof.Machine.execFmax h p d a b s
  | .fcmp h c p d a b => Sys2Proof.Machine.execFcmp h c p d a b s
  | .fset h c p d a b => Sys2Proof.Machine.execFset h c p d a b s
  | .fclass h p d a => Sys2Proof.Machine.execFclass h p d a s
  | .fclassTest h p d a v => Sys2Proof.Machine.execFclassTest h p d a v s
  | .frnd h p rm d a => Sys2Proof.Machine.execFrnd h p rm d a s
  | .frcp h d a => Sys2Proof.Machine.execFrcp h d a s
  | .frsq h d a => Sys2Proof.Machine.execFrsq h d a s
  | .fsqrt h p rm d a => Sys2Proof.Machine.execFsqrt h p rm d a s
  | .fex2 h d a => Sys2Proof.Machine.execFex2 h d a s
  | .flg2 h d a => Sys2Proof.Machine.execFlg2 h d a s
  | .fsin h d a => Sys2Proof.Machine.execFsin h d a s
  | .fcos h d a => Sys2Proof.Machine.execFcos h d a s
  | .ftanh h d a => Sys2Proof.Machine.execFtanh h d a s
  | .fscale h p rm d a b => Sys2Proof.Machine.execFscale h p rm d a b s
  | .fgetexp h p d a => Sys2Proof.Machine.execFgetexp h p d a s
  | .hpadd h p rm d a b => Sys2Proof.Machine.execHpadd h p rm d a b s
  | .hpmul h p rm d a b => Sys2Proof.Machine.execHpmul h p rm d a b s
  | .hpfma h p rm d x => Sys2Proof.Machine.execHpfma h p rm d x s
  | .hpmnxMin h p d a b => Sys2Proof.Machine.execHpmnxMin h p d a b s
  | .hpmnxMax h p d a b => Sys2Proof.Machine.execHpmnxMax h p d a b s
  | .dot4Float h fa fb rm d x => Sys2Proof.Machine.execDot4Float h fa fb rm d x s
  | .dot4S8 h d x => Sys2Proof.Machine.execDot4S8 h d x s
  | .dot2 h p rm d x => Sys2Proof.Machine.execDot2 h p rm d x s
  | .cvt h dst src rm sat sc d a c pop => Sys2Proof.Machine.execCvt h dst src rm sat sc d a c pop s
  | .cvtp h dst rm sat sc d x => Sys2Proof.Machine.execCvtp h dst rm sat sc d x s
  | .cvtx h src rm sc hi d a c pop => Sys2Proof.Machine.execCvtx h src rm sc hi d a c pop s
  | .lmul h d a b => Sys2Proof.Machine.execLmul h d a b s
  | .lmulX4 h d a b => Sys2Proof.Machine.execLmulX4 h d a b s
  | .lcvtWiden h j d a => Sys2Proof.Machine.execLcvtWiden h j d a s
  | .lcvtNarrow h sat d a => Sys2Proof.Machine.execLcvtNarrow h sat d a s
  | .ld h sz ch d m => Sys2Proof.Machine.execLd h sz ch d m s
  | .st h sz ch x => Sys2Proof.Machine.execSt h sz ch x s
  | .lds h sz d m => Sys2Proof.Machine.execLds h sz d m s
  | .sts h sz x => Sys2Proof.Machine.execSts h sz x s
  | .ldc h sz d m => Sys2Proof.Machine.execLdc h sz d m s
  | .ldw h sz d m => Sys2Proof.Machine.execLdw h sz d m s
  | .stw h sz x => Sys2Proof.Machine.execStw h sz x s
  | .ldq h k m => Sys2Proof.Machine.execLdq h k m s
  | .ldqScratch h k m => Sys2Proof.Machine.execLdqScratch h k m s
  | .popq h n d q => Sys2Proof.Machine.execPopq h n d q s
  | .atom h t scr d x => Sys2Proof.Machine.execAtom h t scr d x s
  | .atomf h op p scr d x => Sys2Proof.Machine.execAtomf h op p scr d x s
  | .red h op t scr x => Sys2Proof.Machine.execRed h op t scr x s
  | .redf h op p scr x => Sys2Proof.Machine.execRedf h op p scr x s
  | .acq h sc => Sys2Proof.Machine.execAcq h sc s
  | .rel h sc => Sys2Proof.Machine.execRel h sc s
  | .waitc h c n => Sys2Proof.Machine.execWaitc h c n s
  | .cctlIvall h => Sys2Proof.Machine.execCctlIvall h s
  | .cctlWbl h m => Sys2Proof.Machine.execCctlWbl h m s
  | .cctlInvl h m => Sys2Proof.Machine.execCctlInvl h m s
  | .cctlKwb h m => Sys2Proof.Machine.execCctlKwb h m s
  | .cctlKinv h m => Sys2Proof.Machine.execCctlKinv h m s
  | .pref h t m => Sys2Proof.Machine.execPref h t m s
  | .bara h b => Sys2Proof.Machine.execBara h b s
  | .barw h b => Sys2Proof.Machine.execBarw h b s
  | .bars h b => Sys2Proof.Machine.execBars h b s
  | .barinit h b x => Sys2Proof.Machine.execBarinit h b x s
  | .barq h d b => Sys2Proof.Machine.execBarq h d b s
  | .marv h sc m => Sys2Proof.Machine.execMarv h sc m s
  | .mwait h sc x => Sys2Proof.Machine.execMwait h sc x s
  | .sleep h x => Sys2Proof.Machine.execSleep h x s
  | .sleept h a b => Sys2Proof.Machine.execSleept h a b s
  | .watch h arm m => Sys2Proof.Machine.execWatch h arm m s
  | .waitw h mask a => Sys2Proof.Machine.execWaitw h mask a s
  | .cpya h dir d x => Sys2Proof.Machine.execCpya h dir d x s
  | .cpyw h a b => Sys2Proof.Machine.execCpyw h a b s
  | .cpyq h k a b => Sys2Proof.Machine.execCpyq h k a b s
  | .gath h wide sh sgn d a b => Sys2Proof.Machine.execGath h wide sh sgn d a b s
  | .scat h wide sh sgn x => Sys2Proof.Machine.execScat h wide sh sgn x s
  | .wld h f a b off => Sys2Proof.Machine.execWld h f a b off s
  | .wswap h => Sys2Proof.Machine.execWswap h s
  | .mms h d m => Sys2Proof.Machine.execMms h d m s
  | .mqry h d a => Sys2Proof.Machine.execMqry h d a s
  | .mfold h d => Sys2Proof.Machine.execMfold h d s
  | .mfoldWr h a b => Sys2Proof.Machine.execMfoldWr h a b s
  | .mrst h a => Sys2Proof.Machine.execMrst h a s
  | .aopen h id a => Sys2Proof.Machine.execAopen h id a s
  | .aopenZ h id a => Sys2Proof.Machine.execAopenZ h id a s
  | .aadd h cnt id a b => Sys2Proof.Machine.execAadd h cnt id a b s
  | .acnt h id a b => Sys2Proof.Machine.execAcnt h id a b s
  | .rack h force id a b c => Sys2Proof.Machine.execRack h force id a b c s
  | .rackW h force id a b c => Sys2Proof.Machine.execRackW h force id a b c s
  | .rackX h id a b c => Sys2Proof.Machine.execRackX h id a b c s
  | .aqryReg h d a => Sys2Proof.Machine.execAqryReg h d a s
  | .aqryLine h d a b => Sys2Proof.Machine.execAqryLine h d a b s
  | .launch h d a b => Sys2Proof.Machine.execLaunch h d a b s
  | .tsig h sc x => Sys2Proof.Machine.execTsig h sc x s
  | .ctxsv h a b c => Sys2Proof.Machine.execCtxsv h a b c s
  | .ctxld h a => Sys2Proof.Machine.execCtxld h a s
  | .harv h a b c => Sys2Proof.Machine.execHarv h a b c s
  | .harvR h a b c => Sys2Proof.Machine.execHarvR h a b c s
  | .tlbiPg h a b c => Sys2Proof.Machine.execTlbiPg h a b c s
  | .tlbiAsid h c => Sys2Proof.Machine.execTlbiAsid h c s
  | .tlbiAll h => Sys2Proof.Machine.execTlbiAll h s
  | .halt h a => Sys2Proof.Machine.execHalt h a s
  | .coll h a => Sys2Proof.Machine.execColl h a s
  | .collResume h a => Sys2Proof.Machine.execCollResume h a s
  | .sendq h x deadline => Sys2Proof.Machine.execSendq h x deadline s
  | .slotq h d a => Sys2Proof.Machine.execSlotq h d a s
  | .slotqCur h d => Sys2Proof.Machine.execSlotqCur h d s
  | .topo h a => Sys2Proof.Machine.execTopo h a s
  | .rtsw h a b => Sys2Proof.Machine.execRtsw h a b s
  | .pfence h => Sys2Proof.Machine.execPfence h s
  | .pfenceDev h => Sys2Proof.Machine.execPfenceDev h s
  | .linkq h d a => Sys2Proof.Machine.execLinkq h d a s
  | .fetchPad => Sys2Proof.Machine.execFetchPad s
  | .resultWriteback w tag part => Sys2Proof.Machine.execResultWriteback w tag part s
  | .pageFault w tag => Sys2Proof.Machine.execPageFault w tag s
  | .deferredTrap w => Sys2Proof.Machine.execDeferredTrap w s
  | .fqackResume die seq => Sys2Proof.Machine.execFqackResume die seq s
  | .fqackEnd die seq => Sys2Proof.Machine.execFqackEnd die seq s
  | .storeVisible w => Sys2Proof.Machine.execStoreVisible w s
  | .queueEntryArrival wg n => Sys2Proof.Machine.execQueueEntryArrival wg n s
  | .ldqEntryPush w tag => Sys2Proof.Machine.execLdqEntryPush w tag s
  | .queueReplay wg sender q => Sys2Proof.Machine.execQueueReplay wg sender q s
  | .copyUnitWrite copy unit => Sys2Proof.Machine.execCopyUnitWrite copy unit s
  | .copyComplete copy => Sys2Proof.Machine.execCopyComplete copy s
  | .gatherComplete w tag => Sys2Proof.Machine.execGatherComplete w tag s
  | .sleepExpiry w => Sys2Proof.Machine.execSleepExpiry w s
  | .sleeptDeadline w => Sys2Proof.Machine.execSleeptDeadline w s
  | .mwaitRecheck w => Sys2Proof.Machine.execMwaitRecheck w s
  | .watchArmFire w arm => Sys2Proof.Machine.execWatchArmFire w arm s
  | .waitwDeadline w => Sys2Proof.Machine.execWaitwDeadline w s
  | .mxOperationStart c => Sys2Proof.Machine.execMxOperationStart c s
  | .wldExecute r => Sys2Proof.Machine.execWldExecute r s
  | .wswapExecute c => Sys2Proof.Machine.execWswapExecute c s
  | .mxOperandsConsumed r => Sys2Proof.Machine.execMxOperandsConsumed r s
  | .mxDone c => Sys2Proof.Machine.execMxDone c s
  | .tierFailure c tier => Sys2Proof.Machine.execTierFailure c tier s
  | .mrstComplete c => Sys2Proof.Machine.execMrstComplete c s
  | .mashApply n => Sys2Proof.Machine.execMashApply n s
  | .rackWaitTimeout rack => Sys2Proof.Machine.execRackWaitTimeout rack s
  | .rackSeal rack => Sys2Proof.Machine.execRackSeal rack s
  | .rackComplete rack => Sys2Proof.Machine.execRackComplete rack s
  | .blockingOpComplete w => Sys2Proof.Machine.execBlockingOpComplete w s
  | .releaseComplete w => Sys2Proof.Machine.execReleaseComplete w s
  | .wprWrite c v => Sys2Proof.Machine.execWprWrite c v s
  | .wprDrainDone c => Sys2Proof.Machine.execWprDrainDone c s
  | .wprReleaseDone c => Sys2Proof.Machine.execWprReleaseDone c s
  | .wprEnableDone c => Sys2Proof.Machine.execWprEnableDone c s
  | .wpsErrClear c => Sys2Proof.Machine.execWpsErrClear c s
  | .csoWrite c v => Sys2Proof.Machine.execCsoWrite c v s
  | .csvValidClear c => Sys2Proof.Machine.execCsvValidClear c s
  | .snoopProbe c asid line => Sys2Proof.Machine.execSnoopProbe c asid line s
  | .caskWayFailure c slice way => Sys2Proof.Machine.execCaskWayFailure c slice way s
  | .coreRetire c phys readable => Sys2Proof.Machine.execCoreRetire c phys readable s
  | .uncorrectableError e => Sys2Proof.Machine.execUncorrectableError e s
  | .getS die asid region => Sys2Proof.Machine.execGetS die asid region s
  | .getM die asid region => Sys2Proof.Machine.execGetM die asid region s
  | .upg die asid region => Sys2Proof.Machine.execUpg die asid region s
  | .regionRelease c asid region => Sys2Proof.Machine.execRegionRelease c asid region s
  | .lineWriteback c asid line => Sys2Proof.Machine.execLineWriteback c asid line s
  | .busSlotReceive die bus grp frame reader ok => Sys2Proof.Machine.execBusSlotReceive die bus grp frame reader ok s
  | .slotVoid die bus grp frame => Sys2Proof.Machine.execSlotVoid die bus grp frame s
  | .busDelivery die => Sys2Proof.Machine.execBusDelivery die s
  | .bwtStage die e word1 v => Sys2Proof.Machine.execBwtStage die e word1 v s
  | .bwtCommit die e v => Sys2Proof.Machine.execBwtCommit die e v s
  | .groupReassignStart die bus grp => Sys2Proof.Machine.execGroupReassignStart die bus grp s
  | .groupReassignLock die bus grp => Sys2Proof.Machine.execGroupReassignLock die bus grp s
  | .readerRingLoss die bus clu => Sys2Proof.Machine.execReaderRingLoss die bus clu s
  | .meshLinkFence die a b => Sys2Proof.Machine.execMeshLinkFence die a b s
  | .leaseGrant holder asid line => Sys2Proof.Machine.execLeaseGrant holder asid line s
  | .leaseRenewal holder asid line => Sys2Proof.Machine.execLeaseRenewal holder asid line s
  | .leaseExpiry holder asid line => Sys2Proof.Machine.execLeaseExpiry holder asid line s
  | .invalidationAck holder asid line => Sys2Proof.Machine.execInvalidationAck holder asid line s
  | .homeWriteGrant asid line => Sys2Proof.Machine.execHomeWriteGrant asid line s
  | .routingRefusal c asid region => Sys2Proof.Machine.execRoutingRefusal c asid region s
  | .sealedRefusal w => Sys2Proof.Machine.execSealedRefusal w s
  | .retryAfterExpiry w => Sys2Proof.Machine.execRetryAfterExpiry w s
  | .remoteRequestError w tag => Sys2Proof.Machine.execRemoteRequestError w tag s
  | .memorySideOp w => Sys2Proof.Machine.execMemorySideOp w s
  | .msealSeal die frame => Sys2Proof.Machine.execMsealSeal die frame s
  | .msealUnseal die frame => Sys2Proof.Machine.execMsealUnseal die frame s
  | .sealComplete die => Sys2Proof.Machine.execSealComplete die s
  | .thermalRefresh c kiln logic tiers => Sys2Proof.Machine.execThermalRefresh c kiln logic tiers s
  | .vbusCorrectedError c b => Sys2Proof.Machine.execVbusCorrectedError c b s
  | .vbusRepair c b => Sys2Proof.Machine.execVbusRepair c b s
  | .vbusForcedBoundary c => Sys2Proof.Machine.execVbusForcedBoundary c s
  | .vbusDeferTimeout c b => Sys2Proof.Machine.execVbusDeferTimeout c b s
  | .vbusRepairComplete c b lanes link => Sys2Proof.Machine.execVbusRepairComplete c b lanes link s
  | .tokenCrossing region g => Sys2Proof.Machine.execTokenCrossing region g s
  | .placementEvaluation => Sys2Proof.Machine.execPlacementEvaluation s
  | .rotationCheck => Sys2Proof.Machine.execRotationCheck s
  | .starvation region g => Sys2Proof.Machine.execStarvation region g s
  | .drainTimeout gang => Sys2Proof.Machine.execDrainTimeout gang s
  | .saveStopTimeout gang => Sys2Proof.Machine.execSaveStopTimeout gang s
  | .saveComplete gang => Sys2Proof.Machine.execSaveComplete gang s
  | .flushComplete gang => Sys2Proof.Machine.execFlushComplete gang s
  | .workgroupDrained wg => Sys2Proof.Machine.execWorkgroupDrained wg s
  | .gangRetire gang => Sys2Proof.Machine.execGangRetire gang s
  | .lockHolderCandidate w => Sys2Proof.Machine.execLockHolderCandidate w s
  | .launchRecord ring => Sys2Proof.Machine.execLaunchRecord ring s
  | .haltRecord ring => Sys2Proof.Machine.execHaltRecord ring s
  | .queryRecord ring => Sys2Proof.Machine.execQueryRecord ring s
  | .saveRecord ring => Sys2Proof.Machine.execSaveRecord ring s
  | .loadRecord ring => Sys2Proof.Machine.execLoadRecord ring s
  | .ringbaseWrite fn v => Sys2Proof.Machine.execRingbaseWrite fn v s
  | .alloc w tag => Sys2Proof.Machine.execAlloc w tag s
  | .free w tag => Sys2Proof.Machine.execFree w tag s
  | .puts w tag => Sys2Proof.Machine.execPuts w tag s
  | .health w tag => Sys2Proof.Machine.execHealth w tag s
  | .reset => Sys2Proof.Machine.execReset s
  | .recoveryGo => Sys2Proof.Machine.execRecoveryGo s
  | .attestationRequest v => Sys2Proof.Machine.execAttestationRequest v s
  | .securityAlarm cls => Sys2Proof.Machine.execSecurityAlarm cls s
  | .alarmClassClear v => Sys2Proof.Machine.execAlarmClassClear v s
  | .hostInboundWrite fn bar off bytes => Sys2Proof.Machine.execHostInboundWrite fn bar off bytes s
  | .hostInboundRead fn bar off len => Sys2Proof.Machine.execHostInboundRead fn bar off len s
  | .poisonedTlp fn => Sys2Proof.Machine.execPoisonedTlp fn s
  | .linkDown => Sys2Proof.Machine.execLinkDown s
  | .heartbeatTimeout a => Sys2Proof.Machine.execHeartbeatTimeout a s
  | .slotWindowOpen port => Sys2Proof.Machine.execSlotWindowOpen port s
  | .slotWindowClose port => Sys2Proof.Machine.execSlotWindowClose port s
  | .fabricMessageReceive port m => Sys2Proof.Machine.execFabricMessageReceive port m s
  | .relayForward port n => Sys2Proof.Machine.execRelayForward port n s
  | .collStepStart id => Sys2Proof.Machine.execCollStepStart id s
  | .reduceApply src m => Sys2Proof.Machine.execReduceApply src m s
  | .collComplete id => Sys2Proof.Machine.execCollComplete id s
  | .fabricBarrierArrival pkg asid obj => Sys2Proof.Machine.execFabricBarrierArrival pkg asid obj s
  | .fabricBarrierRelease obj lost => Sys2Proof.Machine.execFabricBarrierRelease obj lost s
  | .topoAmber => Sys2Proof.Machine.execTopoAmber s
  | .topoActivation => Sys2Proof.Machine.execTopoActivation s
  | .packageFenceDone => Sys2Proof.Machine.execPackageFenceDone s
  | .portLock port => Sys2Proof.Machine.execPortLock port s
  | .wavelengthLoss port l => Sys2Proof.Machine.execWavelengthLoss port l s
  | .powerReclaim port => Sys2Proof.Machine.execPowerReclaim port s
  | .monitorPowerRequest port berq => Sys2Proof.Machine.execMonitorPowerRequest port berq s
  | .peerHeartbeatTimeout pkg => Sys2Proof.Machine.execPeerHeartbeatTimeout pkg s
  | .registerWrite pa size v => Sys2Proof.Machine.execRegisterWrite pa size v s
  | .reservedOpcodeFetch => Sys2Proof.Machine.execReservedOpcodeFetch s
  | .slotStart port => Sys2Proof.Machine.execSlotStart port s
  | .readerRingRetuned die bus clu => Sys2Proof.Machine.execReaderRingRetuned die bus clu s
  | .spareWayCopyDone c slice way => Sys2Proof.Machine.execSpareWayCopyDone c slice way s
  | .faultQueueTailWrite die v => Sys2Proof.Machine.execFaultQueueTailWrite die v s
  | .hostConfigurationRequest fn => Sys2Proof.Machine.execHostConfigurationRequest fn s
  | .hostLinkTrained x16 => Sys2Proof.Machine.execHostLinkTrained x16 s

end Sys2Proof.Machine
end

