-- ==== Sys2Proof/Machine/Schedule.lean ====
section
/-! DEFINITION. Which step comes next: the agenda of outside choices first, then by turns a warp's issue (R174) and the first
of the machine's own events whose occasion stands. -/

namespace Sys2Proof.Machine

/-! ## The machine's own events -/

/-- An event with its arguments. -/
abbrev Event := State → Out

/-- The accesses of a warp that need a line for themselves: its stores and atomics. They come before every warp's reads, so that a
line granted for a write is written before a read can take it back. DESIGN CHOICE (log entry 3). -/
def ownerEvents (w : Warp) : List Event :=
  ((w.outs.filter fun o => isAtomic o.res).map fun o => execResultWriteback w.id o.tag ⟨o.lanes, allRegs⟩) ++
  (w.stores.flatMap fun p => if p.ctr == .gat then [execGatherComplete w.id p.tag] else []) ++
  (if w.stores.isEmpty then [] else [execRetryAfterExpiry w.id, execStoreVisible w.id, execSealedRefusal w.id])

/-- The other events of a warp's accesses, sleeps and waits. -/
def warpEvents (w : Warp) : List Event :=
  ((w.outs.filter fun o => !isAtomic o.res).flatMap fun o =>
    match o.res with
    | .wcall r =>
      let svc := recordService r
      if svc == 1 then [execAlloc w.id o.tag] else if svc == 2 then [execFree w.id o.tag] else if svc == 3 then [execPuts w.id o.tag]
      else if svc == 4 then [execHealth w.id o.tag] else [execResultWriteback w.id o.tag ⟨o.lanes, allRegs⟩]
    | _ => [execResultWriteback w.id o.tag ⟨o.lanes, allRegs⟩]) ++
  (w.reads.flatMap fun o =>
    match o.res with
    | .ldq .. => [execLdqEntryPush w.id o.tag]
    | .mwait => [execMwaitRecheck w.id]
    | _ => [execResultWriteback w.id o.tag ⟨o.lanes, allRegs⟩]) ++
  ((w.outs ++ w.reads).map fun o => execPageFault w.id o.tag) ++ (w.stores.map fun p => execPageFault w.id p.tag) ++
  (if w.outs.isEmpty && w.reads.isEmpty && w.stores.isEmpty && w.pend.isEmpty then [] else [execDeferredTrap w.id]) ++
  (if w.hold.isSome then [execReleaseComplete w.id, execBlockingOpComplete w.id] else []) ++
  (if w.lanes.any fun x => match x.st with | .sleeping .. => true | _ => false then
    [execSleepExpiry w.id, execSleeptDeadline w.id, execWaitwDeadline w.id] else []) ++
  (if w.arms.any (·.armed) then (List.range 4).map fun k => execWatchArmFire w.id k else [])

/-- The home maps' entries that an access of a warp uses, which its home may refuse (R384). -/
def routeEvents (s : State) (w : Warp) : List Event :=
  let c := s.warpCore w
  if (s.getCore c).homeMap.isEmpty then []
  else
    let reads := (w.outs ++ w.reads).flatMap fun o => if isRead o.res then (lanesOf o.lanes).map fun l => (o.asid, readAddr o l) else []
    let stores := w.stores.flatMap fun p => (storeParts p).map fun x => (p.asid, x.2.1)
    let copies := s.copies.flatMap fun k => if k.w != w.id then []
      else [k.src, k.dst].filterMap fun e => match e with | .glob va => some (k.asid, va + BitVec.ofNat 64 (unitBytes k.kind * k.written.length)) | _ => none
    (((s.warpAsid w, headPc w) :: (reads ++ stores ++ copies)).map fun p => (p.1, p.2.toNat / 512)).eraseDups.map
      fun p => execRoutingRefusal c p.1 p.2

/-- The events of a workgroup's queues and of its end. -/
def groupEvents (g : Workgroup) : List Event :=
  ((List.range g.flight.length).map fun n => execQueueEntryArrival g.id n) ++ (g.senders.map fun d => execQueueReplay g.id d.id d.q) ++
    (if g.draining then [execWorkgroupDrained g.id] else [])

/-- The events of a gang. -/
def gangEvents (g : Gang) : List Event :=
  match g.st with
  | .preempting => [execDrainTimeout g.id, execSaveComplete g.id, execSaveStopTimeout g.id, execFlushComplete g.id]
  | .draining => [execGangRetire g.id]
  | .ready => [execStarvation g.region g.g]
  | .saved => [execStarvation g.region g.g]
  | _ => []

/-- The events of a region's tokens. -/
def regionEvents (r : Region) : List Event :=
  if r.leaf && r.status == 0 then
    ((List.range r.eff.gangs).filter fun g => !r.fired.contains g).map fun g => execTokenCrossing r.handle g
  else []

/-- The events of a copy: its faults, its oldest unit, its end. -/
def copyEvents (c : Copy) : List Event :=
  (((List.range c.units).filter fun u => !c.written.contains u).take 1).map (fun u => execCopyUnitWrite c.id u) ++
    [execCopyComplete c.id, execPageFault c.w c.issue]

/-- The events of a core's engine, its home map and its vertical buses. -/
def coreEvents (s : State) (c : Core) : List Event :=
  (if c.retiring then [execCoreRetire (cluOf c.id) (physOf (s.getCluster (cluOf c.id)) c.id.core) true] else []) ++
  (if c.engine.queue.isEmpty && c.engine.draining.isEmpty && c.engine.mrst.isEmpty then []
    else (c.engine.queue.map fun o => execPageFault o.w o.tag) ++
      [execMxOperationStart c.id, execWldExecute ⟨c.id, 0⟩, execWswapExecute c.id, execMxOperandsConsumed ⟨c.id, 0⟩, execMxDone c.id, execMrstComplete c.id]) ++
  ([VBus.arr, VBus.cask, VBus.kiln].flatMap fun b =>
    let x := match b with | .arr => c.vbArr | .cask => c.vbCask | .kiln => c.vbKiln
    if x.repairing then [execVbusRepairComplete c.id b 0 0]
    else if x.pend then [execVbusRepair c.id b, execVbusDeferTimeout c.id b, execVbusForcedBoundary c.id] else [])

/-- The events of a cluster's transitions and of its reader rings. -/
def clusterEvents (c : Cluster) : List Event :=
  (if c.busy then [execWprDrainDone c.id, execWprReleaseDone c.id, execWprEnableDone c.id] else []) ++
    (c.copying.map fun p => execSpareWayCopyDone c.id p.1 p.2) ++ c.retuning.map fun r => execReaderRingRetuned c.id.die r.1 c.id.clu

/-- The lines that accesses of a die wait for: with the ASID of their page, and whether to write. -/
def wantedLines (s : State) (die : Nat) : List (Nat × Nat × Bool) :=
  let ws := s.warps.filter fun w => (s.warpCore w).die == die
  let of (write : Bool) (asks : List Ask) : List (Nat × Nat × Bool) :=
    asks.filterMap fun a => (wantedLine s write a).map fun ln => (ln.asid, ln.line, write)
  of true (ws.flatMap (storeAsks s)) ++
    of false (ws.flatMap (loadAsks s) ++ (s.cores.filter fun c => c.id.die == die).flatMap prefAsks)

/-- The requests, leases and invalidations that the waiting accesses of a die bring. DEDUCED (log entry 40). -/
def requestEvents (s : State) (die : Nat) : List Event :=
  (wantedLines s die).flatMap fun p =>
    let region := regionOfLine p.2.1
    let acks := s.dies.flatMap fun d => (d.dirs.filter fun e => e.asid == p.1 && e.line == p.2.1 && e.pending).flatMap fun e =>
      ((List.range 16).filter fun k => e.dies.getLsbD k && !e.acked.getLsbD k).map fun k => execInvalidationAck k e.asid e.line
    if p.2.2 then [execGetM die p.1 region, execUpg die p.1 region] ++ acks ++ [execHomeWriteGrant p.1 p.2.1]
    else [execGetS die p.1 region, execLeaseGrant die p.1 p.2.1]

/-- The events of a die's buses, region table, pending writes and sealed frame. DEDUCED (log entry 40). -/
def dieEvents (s : State) (d : Die) : List Event :=
  let f := frameNow s
  let sends := (List.range 8).flatMap fun b => ((busOf d b).queue.map fun p => sendGroup (busOf d b) p.1).eraseDups.map fun g => execBusSlotReceive d.id b g f 0 true
  let locks := (List.range 8).flatMap fun b => (busOf d b).tuning.map fun t => execGroupReassignLock d.id b t.1
  (if (d.buses.any fun b => !b.slots.isEmpty) then [execBusDelivery d.id] else []) ++ sends ++ locks ++
    (d.regions.flatMap fun e => ((List.range 16).filter fun k => e.mask.getLsbD k).map fun k => execRegionRelease ⟨d.id, k⟩ e.asid e.region) ++
    ((d.dirs.filter fun e => d.mbusy || e.pending).flatMap fun e =>
      ((List.range 16).filter fun k => e.dies.getLsbD k && !e.acked.getLsbD k).map fun k => execInvalidationAck k e.asid e.line) ++
    (if d.dirs.any fun e => !e.told && !e.remote.isEmpty then [fun t => happens (tellHolders t d.id)] else []) ++
    (if d.faults.any fun f => f.seq == none then [fun t => happens (recordFault t d.id)] else []) ++
    (if d.mbusy then [execSealComplete d.id] else [])

/-- The events of a command ring. -/
def ringEvents (s : State) (k : Nat) : List Event :=
  if (s.fn k).ring == 0 then []
  else [execLaunchRecord k, execHaltRecord k, execQueryRecord k, execSaveRecord k, execLoadRecord k]

/-- The events of a port: what it sends, keeps, and the tuning it ends. -/
def portEvents (s : State) (k : Nat) : List Event :=
  let p := s.port k
  (if p.queue.isEmpty then [] else [execSlotWindowOpen k]) ++
    (if p.queue.any fun m => m.2.2.isSome then [execSlotWindowClose k] else []) ++
    ((List.range p.relay.length).map fun n => execRelayForward k n) ++
    (if p.st == .umber then [execPortLock k] else []) ++ [execSlotStart k]

/-- The events of a collective. -/
def collEvents (c : Coll) : List Event := [execPageFault c.w c.tag, execCollStepStart c.id, execCollComplete c.id]

/-- Everything that may be due. -/
def candidates (s : State) : List Event :=
  s.warps.flatMap ownerEvents ++ s.warps.flatMap (routeEvents s) ++ s.warps.flatMap warpEvents ++ s.dies.flatMap (dieEvents s) ++
    ((s.warps.map fun w => (s.warpCore w).die) ++ s.cores.map (·.id.die)).eraseDups.flatMap (requestEvents s) ++
    (s.leases.map fun l => execLeaseExpiry l.die l.asid l.line) ++ (s.farLines.map fun l => execLeaseExpiry l.die l.asid l.line) ++
    (if s.farLines.any (·.renewing) then [fun t => happens (farRenewals t)] else []) ++
    s.wgs.flatMap groupEvents ++ s.copies.flatMap copyEvents ++ s.cores.flatMap (coreEvents s) ++
    ((List.range s.contribs.length).map fun n => execMashApply n) ++
    (s.racks.flatMap fun k => [execRackSeal k.id, execRackWaitTimeout k.id, execRackComplete k.id, execPageFault k.w k.tag]) ++
    s.clusters.flatMap clusterEvents ++ s.colls.flatMap collEvents ++
    (if s.topo.isSome || s.fencing then [execTopoAmber, execTopoActivation, execPackageFenceDone] else []) ++
    (List.range 16).flatMap (portEvents s) ++
    s.regions.flatMap regionEvents ++ s.gangs.flatMap gangEvents ++ (List.range 17).flatMap (ringEvents s) ++
    (s.warps.map fun w => execLockHolderCandidate w.id) ++ [execPlacementEvaluation, execRotationCheck] ++
    (if s.attbusy then [execAttestationRequest 0] else []) ++
    (if s.homeWrites.isEmpty then [] else [fun t => happens (homeWriteStep t)]) ++
    (if s.inbound.isEmpty then [] else [fun t => happens (hostDrainIn t t.inbound)]) ++
    (if s.lostBacks.isEmpty then [] else [fun t => happens (containLost t)]) ++
    (if s.psReady then [] else [fun t => happens (bootStage t)])

/-- What an event leaves, when it changes something besides the model's own counters. -/
def moves (s : State) (f : Event) : Option State :=
  match f s with
  | .next t => if { t with fresh := s.fresh, nextId := s.nextId } == s then none else some t
  | _ => none

/-- The first event that is due, with what it leaves. DESIGN CHOICE (log entry 3). -/
def nextEvent (s : State) : Option State := (candidates s).findSome? (moves s)

/-! ## Whose turn it is -/

/-- The turn of a warp: it takes the issue slot and fetches. -/
def issueTurn (s : State) (w : Nat) : Instr × State := fetchNext { s with cur := w }

/-- The instruction of a warp's turn executed. -/
def runTurn (s : State) (w : Nat) : Out := exec (issueTurn s w).1 (issueTurn s w).2

/-- Whether the turn of a warp does anything: the issue slot passes by a warp whose instruction waits (R84, R174, R197). -/
def turnMoves (s : State) (w : Warp) : Bool :=
  match runTurn s w.id with
  | .next t => { t with cur := s.cur, fresh := s.fresh, nextId := s.nextId } != s
  | _ => true

/-- The eligible warp that issued least recently (R174), among the warps or among the access warps, which an issue unit of their own
serves (R192). -/
def pickWarp (s : State) (access : Bool) : Option Warp :=
  match eligibles s access with
  | [w] => some w
  | ws => (ws.find? (turnMoves s)).or ws.head?

/-- The issue of the next warp; none when no warp can issue. -/
def issueNext (s : State) (access : Bool) : Option Out :=
  (pickWarp s access).map fun w => runTurn { s with side := if access then .engine else .access } w.id

/-- The machine's next own event. -/
def eventNext (s : State) : Option Out := (nextEvent s).map fun t => .next { t with side := .issue }

/-- What comes next; none when only the clock moves. DESIGN CHOICE (log entry 3). -/
def choose (s : State) : Option Out :=
  match s.agenda with
  | .event i :: rest => some (exec i { s with agenda := rest })
  | .issue w :: rest => some (runTurn { s with agenda := rest } w)
  | [] =>
    match s.side with
    | .issue => ((issueNext s false).or (issueNext s true)).or (eventNext s)
    | .access => ((issueNext s true).or (eventNext s)).or (issueNext s false)
    | .engine => ((eventNext s).or (issueNext s false)).or (issueNext s true)

/-- The clock moved on. -/
def idle (s : State) : State := { s with clock := s.clock + 1 }

/-- One tick of `sr.clock` (R1) after each step. -/
def tick (o : Out) : Out :=
  match o with
  | .next s => .next (idle s)
  | .fault f => .fault f
  | .refused r => .refused r

end Sys2Proof.Machine
end

