-- ==== Sys2Proof/Machine/Step.lean ====
section
/-! DEFINITION. One step of the machine, and the placing of a word where the next step fetches. -/

namespace Sys2Proof.Machine

/-- One step: what comes next is executed, and the clock moves. DESIGN CHOICE (log entry 1). -/
def step (s : State) : Host.Outcome State Fault Refusal :=
  match choose s with
  | some o => tick o
  | none => .next (idle s)

/-- The state with the instruction of some bits stored where step fetches next. -/
def State.withFetchWord (s : State) (nbits w : Nat) : State := withWord s (natToBytes 16 (w % 2 ^ nbits))

end Sys2Proof.Machine
end

