-- ==== Sys2Proof/Safety.lean ====
section
/-! DEFINITION. What counts as a safe run: no step ends in a fault or a refusal. -/

namespace Sys2Proof.Machine

/-- The step goes on. -/
def State.goesOn (s : State) : Prop := ∃ t, step s = .next t

/-- n steps all go on. -/
def safeFor : Nat → State → Prop
  | 0, _ => True
  | n + 1, s => ∃ t, step s = .next t ∧ safeFor n t

end Sys2Proof.Machine
end

