-- ==== Sys2Proof/Certificates/Slice0/Vocabulary.lean ====
section
/-! DEFINITION. The terms in which the statements are made: when the warp that holds the issue slot issues an instruction, what
the registers of a warp read as afterwards, and what an instruction leaves as it was. -/

namespace Sys2Proof.Machine

/-! ## When an instruction issues -/

/-- The warp that holds the issue slot has a run, is held back by nothing, and the checks of R58 find no fault with the
instruction: conditions on the state and on the instruction's fields. -/
abbrev Ready (i : Instr) (s : State) (w : Warp) : Prop :=
  s.getWarp s.cur = some w ∧ headRun w ≠ 0 ∧ w.parked = false ∧ w.stopped = false ∧ waitcHolds w = false ∧
    w.copyAbort = false ∧ decodeCause s w i (rawOf i) = none

/-- The entry that a queue pop supplies, and the state without it; for an instruction that pops nothing, no entry and the state
itself; none while the queue holds too few entries (R196, R210). -/
def supply (i : Instr) (s : State) (w : Warp) : Option (Issue × State) :=
  match popQueue (rawOf i) with
  | none => some (mkIssue i w, s)
  | some q =>
    match s.getWg w.wg with
    | none => none
    | some g =>
      if popCount i ≤ (queueOf g q).length then
        some ({ mkIssue i w with pop := ((queueOf g q).take (popCount i)).flatten },
          s.modWg g.id fun h => dropEntries h q (popCount i))
      else none

/-- The instruction issues with participants: x is what is fixed at issue, s0 the state without the entries popped. -/
abbrev Issues (i : Instr) (s : State) (w : Warp) (x : Issue) (s0 : State) : Prop :=
  Ready i s w ∧ x.e ≠ 0 ∧ mustWait (mkIssue i w) = false ∧ supply i s w = some (x, s0)

/-! ## What is left as it was -/

/-- The lanes' counters after an instruction that transfers no control (R78); each lane's other state is as it was. -/
abbrev Advanced (x : Issue) (w w' : Warp) : Prop :=
  ∀ l, w'.lane l = { w.lane l with pc := if x.run.getLsbD l then x.after else (w.lane l).pc }

/-- The same, with the flags an instruction raises merged into `sr.fpx` of its participants (R132). -/
abbrev AdvancedFlags (x : Issue) (flags : Nat → Flags) (w w' : Warp) : Prop :=
  ∀ l, l < 32 → w'.lane l =
    { w.lane l with
      pc := if x.run.getLsbD l then x.after else (w.lane l).pc
      fpx := if x.e.getLsbD l && decide (l < w.lanes.length) then (w.lane l).fpx ||| flags l else (w.lane l).fpx }

/-- A warp after an instruction that writes registers only: special registers, trap registers, counters c.*, outstanding
results, stores, watch arms, copy tags and engine reports are as they were. What may differ is the register files, the lanes, and
the warp's own bookkeeping of its issue. -/
abbrev WarpKept (w w' : Warp) : Prop :=
  w' = { w with
    lanes := w'.lanes
    v := w'.v
    q := w'.q
    w := w'.w
    m := w'.m
    lastw := w'.lastw
    issued := w'.issued
    stamp := w'.stamp
    waitc := none
    opbuf := w'.opbuf
    point := none
    parked := w'.parked
    stopped := w'.stopped }

/-- Everything outside the warp: every other warp, every byte of memory, every control register. A workgroup and a gang differ in
nothing but the number of instructions they have issued (R421). -/
abbrev Kept (s0 t : State) (wid : Nat) : Prop :=
  t = { s0 with
    warps := t.warps
    wgs := t.wgs
    gangs := t.gangs
    nextId := t.nextId } ∧
  (∀ k, k ≠ wid → t.getWarp k = s0.getWarp k) ∧
  (∀ k, (t.getWg k).map (fun g => { g with ret := 0 }) = (s0.getWg k).map fun g => { g with ret := 0 }) ∧
  (∀ k, (t.getGang k).map (fun g => { g with ret := 0 }) = (s0.getGang k).map fun g => { g with ret := 0 }) ∧
  ∀ a, Memory.read t.mem a = Memory.read s0.mem a

/-- The park marker of R81: the warp parks when it is set and results are outstanding. -/
abbrev ParksBy (x : Issue) (w' : Warp) : Prop := w'.parked = (x.r.pk && !w'.outs.isEmpty)

/-! ## What the registers read as -/

/-- The register files after values were written to a destination in the lanes of a set: every other register, and every lane
outside the set, reads as before; `v0`, `v0.d`, `q0` and `w0` discard the write (R49, R50). -/
abbrev LanesWritten (f : File) (d : Reg) (e : LaneSet) (val : Nat → Nat) (w w' : Warp) : Prop :=
  (∀ r l, l < 32 → rdV w' r l =
    if e.getLsbD l && f == .v && r == d && d != 0 then BitVec.ofNat 32 (val l)
    else if e.getLsbD l && f == .p && r == d && d != 0 then BitVec.ofNat 32 (val l)
    else if e.getLsbD l && f == .p && r == d + 1 && d != 0 then BitVec.ofNat 32 (val l / 2 ^ 32)
    else rdV w r l) ∧
  (∀ r l, l < 32 → rdQ w' r l = if e.getLsbD l && f == .q && r == d && d != 0 then val l % 2 == 1 else rdQ w r l) ∧
  (∀ r, rdW w' r = rdW w r) ∧
  ∀ r, rdM w' r = rdM w r

/-- The register files after one value was written to a warp-scalar register. -/
abbrev ScalarWritten (d : Reg) (val : Nat) (w w' : Warp) : Prop :=
  (∀ r, rdW w' r = if r = d ∧ d ≠ 0 then BitVec.ofNat 32 val else rdW w r) ∧
  (∀ r l, l < 32 → rdV w' r l = rdV w r l) ∧
  (∀ r l, l < 32 → rdQ w' r l = rdQ w r l) ∧
  ∀ r, rdM w' r = rdM w r

/-- Every register reads as before. -/
abbrev RegsKept (w w' : Warp) : Prop :=
  (∀ r l, l < 32 → rdV w' r l = rdV w r l) ∧ (∀ r l, l < 32 → rdQ w' r l = rdQ w r l) ∧ (∀ r, rdW w' r = rdW w r) ∧
    ∀ r, rdM w' r = rdM w r

/-- The registers other than the masks read as before. -/
abbrev RegsKeptButMasks (w w' : Warp) : Prop :=
  (∀ r l, l < 32 → rdV w' r l = rdV w r l) ∧ (∀ r l, l < 32 → rdQ w' r l = rdQ w r l) ∧ ∀ r, rdW w' r = rdW w r

/-! ## Results -/

/-- Whenever the instruction issues, it completes in this one step: a value stands in the destination of each participant, and
nothing else has changed but the counters of the run. -/
def LaneResult (i : Instr) (f : File) (d : Reg) (val : Issue → Nat → Nat) : Prop :=
  ∀ s w x s0, Issues i s w x s0 →
    ∃ t w', exec i s = .next t ∧ t.getWarp w.id = some w' ∧ LanesWritten f d x.e (val x) w w' ∧ Advanced x w w' ∧
      WarpKept w w' ∧ ParksBy x w' ∧ Kept s0 t w.id

/-- The same for an instruction whose one result goes to a warp-scalar register. -/
def ScalarResult (i : Instr) (d : Reg) (val : Issue → Nat) : Prop :=
  ∀ s w x s0, Issues i s w x s0 →
    ∃ t w', exec i s = .next t ∧ t.getWarp w.id = some w' ∧ ScalarWritten d (val x) w w' ∧ Advanced x w w' ∧
      WarpKept w w' ∧ ParksBy x w' ∧ Kept s0 t w.id

/-- The flags that a floating-point instruction raises are not trapped: no trap is enabled that it could raise, or it waits for
no outstanding result and no participant raises an enabled flag (R137, R138). -/
abbrev Untrapped (allowed : Flags) (x : Issue) (val : Issue → Nat → FRes) : Prop :=
  covered allowed x.w = false ∨
    (x.w.outs = [] ∧ ∀ l, l < 32 → x.e.getLsbD l = true → (val x l).2 &&& trapEnables x.w.fpc = 0)

/-- The result and the flags of a floating-point instruction that no trap takes. -/
def FpResult (i : Instr) (allowed : Flags) (f : File) (d : Reg) (val : Issue → Nat → FRes) : Prop :=
  ∀ s w x s0, Issues i s w x s0 → Untrapped allowed x val →
    ∃ t w', exec i s = .next t ∧ t.getWarp w.id = some w' ∧ LanesWritten f d x.e (fun l => (val x l).1) w w' ∧
      AdvancedFlags x (fun l => (val x l).2) w w' ∧ WarpKept w w' ∧ ParksBy x w' ∧ Kept s0 t w.id

/-! ## Results that come later -/

/-- A warp after an instruction that writes no register at issue: every register file with its last-writer tags, every special
register, every watch arm, copy tag and engine report is as it was. What may differ is the lanes, what is outstanding, the counters
c.*, and the bookkeeping of the issue. -/
abbrev WarpKeptOut (w w' : Warp) : Prop :=
  w' = { w with
    lanes := w'.lanes
    outs := w'.outs
    reads := w'.reads
    stores := w'.stores
    ctrs := w'.ctrs
    issued := w'.issued
    stamp := w'.stamp
    waitc := none
    opbuf := w'.opbuf
    point := none
    parked := w'.parked
    stopped := w'.stopped }

/-- The check that each participant's access passes (R203). -/
abbrev AllPass (check : State → Issue → Nat → Verdict) (s : State) (x : Issue) : Prop :=
  ∀ l, l < 32 → x.e.getLsbD l = true → check s x l = .pass

/-- Whenever the instruction issues and every participant's access passes the checks, its result is outstanding in the participants
and counted once in its counter; no register and no byte of memory has changed (R80, R206, R214). -/
def ReadIssues (i : Instr) (f : File) (d : Reg) (c : Ctr) (check : State → Issue → Nat → Verdict)
    (res : State → Issue → List Nat → Result) : Prop :=
  ∀ s w x s0, Issues i s w x s0 → AllPass check s x →
    ∃ t w', exec i s = .next t ∧ t.getWarp w.id = some w' ∧
      w'.outs = w.outs ++ [outOf x s f d x.e (res s x (lanesOf x.e)) (some c)] ∧ w'.ctrs = (countUp w c x.tag).ctrs ∧
      w'.stores = w.stores ∧ w'.reads = w.reads ∧ Advanced x w w' ∧ WarpKeptOut w w' ∧ ParksBy x w' ∧ Kept s0 t w.id

/-- Whenever a posted instruction issues and every participant's access passes the checks, one store is on its way with what each
participant stores, and it is counted; no register and no byte of memory has changed yet (R205, R214). -/
def PostIssues (i : Instr) (c : Ctr) (check : State → Issue → Nat → Verdict) (op : Issue → List Nat → StoreOp) : Prop :=
  ∀ s w x s0, Issues i s w x s0 → AllPass check s x →
    ∃ t w', exec i s = .next t ∧ t.getWarp w.id = some w' ∧
      w'.stores = w.stores ++ [{ tag := x.tag, pc := x.pc, d := x.r.d, lanes := x.e, op := op x (lanesOf x.e), asid := s.warpAsid w,
                                 ctr := c }] ∧
      w'.ctrs = (countUp w c x.tag).ctrs ∧ w'.outs = w.outs ∧ w'.reads = w.reads ∧ Advanced x w w' ∧ WarpKeptOut w w' ∧
      ParksBy x w' ∧ Kept s0 t w.id

/-- The frame of an instruction that writes no register: every register reads as before and nothing that was outstanding is lost. -/
abbrev NoRegister (w w' : Warp) : Prop := w'.v = w.v ∧ w'.q = w.q ∧ w'.w = w.w ∧ w'.m = w.m

/-! ## Wider frames -/

/-- No byte of memory has changed. -/
abbrev MemoryKept (s t : State) : Prop := ∀ a, Memory.read t.mem a = Memory.read s.mem a

/-- The special registers, the trap registers and the watch arms of a warp are as they were. -/
abbrev SpecialsKept (w w' : Warp) : Prop :=
  w'.fpc = w.fpc ∧ w'.qbo = w.qbo ∧ w'.lfm = w.lfm ∧ w'.fold = w.fold ∧ w'.htvec = w.htvec ∧ w'.hpc = w.hpc ∧ w'.hmask = w.hmask ∧
    w'.hdst = w.hdst ∧ w'.hcause = w.hcause ∧ w'.hsub = w.hsub ∧ w'.inTrap = w.inTrap ∧ w'.pend = w.pend ∧ w'.arms = w.arms

/-- Nothing of the other warps has changed. -/
abbrev OthersKept (s t : State) (wid : Nat) : Prop := ∀ k, k ≠ wid → t.getWarp k = s.getWarp k

/-- Only the engine of one core may differ among the cores. -/
abbrev CoresKeptBut (s t : State) (c : CoreId) : Prop := ∀ k, k ≠ c → t.getCore k = s.getCore k

/-- Whenever the instruction issues, its reply is outstanding for the pair of each participant; no register has changed. -/
def ReplyIssues (i : Instr) (d : Reg) (res : Issue → Result) : Prop :=
  ∀ s w x s0, Issues i s w x s0 →
    ∃ t w', exec i s = .next t ∧ t.getWarp w.id = some w' ∧ w'.outs = w.outs ++ [outOf x s .p d x.e (res x) none] ∧
      w'.ctrs = w.ctrs ∧ w'.stores = w.stores ∧ w'.reads = w.reads ∧ Advanced x w w' ∧ WarpKeptOut w w' ∧ ParksBy x w' ∧
      Kept s0 t w.id

/-- An instruction whose warp goes on at once while something of the machine outside it has begun. -/
abbrev WarpGoesOn (x : Issue) (s0 t : State) (w w' : Warp) : Prop :=
  NoRegister w w' ∧ SpecialsKept w w' ∧ Advanced x w w' ∧ w'.stores = w.stores ∧ w'.reads = w.reads ∧ OthersKept s0 t w.id ∧
    MemoryKept s0 t

/-- A store may fire watch arms; nothing else of any other warp has changed. -/
abbrev OthersKeptButArms (s t : State) (wid : Nat) : Prop :=
  ∀ k, k ≠ wid → (t.getWarp k).map (fun y => { y with arms := [] }) = (s.getWarp k).map fun y => { y with arms := [] }

/-- A warp after an instruction whose effect lies outside it: what may differ is its counters c.*, its lanes' counters, its watch
arms and the bookkeeping of its issue. -/
abbrev WarpKeptButArms (w w' : Warp) : Prop := WarpKeptOut { w with arms := w'.arms } w' ∧ w'.outs = w.outs ∧ w'.stores = w.stores ∧ w'.reads = w.reads

/-- The warp waits for a blocking instruction; nothing else of it has changed but its counters and its watch arms (R434). -/
abbrev BlockedBy (x : Issue) (w w' : Warp) : Prop :=
  w'.hold = some (.blocking x.tag) ∧ NoRegister w w' ∧ Advanced x w w' ∧ w'.outs = w.outs ∧ w'.stores = w.stores ∧ w'.reads = w.reads ∧
    w'.ctrs = w.ctrs ∧ w'.inTrap = w.inTrap ∧ w'.hmask = w.hmask ∧ w'.hcause = w.hcause ∧ w'.hpc = w.hpc ∧ w'.htvec = w.htvec

/-- Memory as another state has it. -/
abbrev MemoryOf (u t : State) : Prop := ∀ a, Memory.read t.mem a = Memory.read u.mem a

/-- A deferred trap of some lanes can be taken at once (R162). -/
abbrev TakesDeferred (w : Warp) (lanes : LaneSet) : Prop :=
  w.inTrap = false ∧ w.pend = [] ∧ w.htvec ≠ 0 ∧ lanes ≠ 0 ∧ lanes &&& exitedOf w = 0 ∧ ∀ l, l < 32 → (w.lane l).st ≠ .held .fault ∧ (w.lane l).st ≠ .held .deferred

/-- It has been taken: DEF is set in `sr.hcause` (R157, R162). -/
abbrev DeferredTaken (w w' : Warp) (cause info : Nat) (lanes : LaneSet) (pc : DWord) : Prop :=
  w'.inTrap = true ∧ w'.hcause = BitVec.ofNat 32 (cause + 2 ^ 8 + 2 ^ 16 * info) ∧ w'.hmask = lanes ∧ w'.hpc = pc ∧
    ∀ l, l < w.lanes.length → lanes.getLsbD l = true → (w'.lane l).pc = w.htvec ∧ (w'.lane l).st = .ready ∧ (w'.lane l).resume = (w.lane l).pc

end Sys2Proof.Machine
end

