-- ==== Sys2Proof/Laws/Word.lean ====
section
/-! SUPPORT. Lemmas about words: the fields that `pack` lays out are the fields that `unpack` reads (R47, R53, R54, R56),
whatever stands above the length, and bytes to numbers and back (R43). -/

namespace Sys2Proof

/-- The fields a word of each length can hold: what its length and form do not carry is zero. -/
def Raw.shaped (r : Raw) : Bool :=
  if r.len == 0 then r.c == 0 && r.qop == 0 && r.qid == 0 && r.fn2 == 0 && r.imm == 0 && r.imm64 == 0
  else if r.len == 1 && r.fn.getLsbD 9 then r.c == 0 && r.qop == 0 && r.qid == 0 && r.fn2 == 0 && r.imm64 == 0
  else if r.len == 1 then r.imm == 0 && r.imm64 == 0
  else if r.len == 2 && r.op == 0x33 then r.c == 0 && r.qop == 0 && r.qid == 0 && r.fn2 == 0 && r.imm == 0
  else if r.len == 2 then r.imm64 == 0
  else false

theorem pack_low (r : Raw) (k n : Nat) (h : k + n ≤ 64) : (pack r).extractLsb' k n = r.low.extractLsb' k n := by
  apply BitVec.eq_of_getLsbD_eq
  intro i hi
  simp only [BitVec.getLsbD_extractLsb', pack, BitVec.getLsbD_append]
  rw [if_pos (by omega)]

theorem pack_high (r : Raw) (k n : Nat) : (pack r).extractLsb' (64 + k) n = r.high.extractLsb' k n := by
  apply BitVec.eq_of_getLsbD_eq
  intro i hi
  simp only [BitVec.getLsbD_extractLsb', pack, BitVec.getLsbD_append]
  rw [if_neg (by omega)]
  congr 2
  omega

theorem pack_len (r : Raw) : (pack r).extractLsb' 0 2 = r.len := by
  rw [pack_low r 0 2 (by decide)]
  apply BitVec.eq_of_getLsbD_eq
  intro i hi
  simp only [BitVec.getLsbD_extractLsb', Raw.low, BitVec.getLsbD_append, BitVec.getLsbD_ofBool]
  interval_cases i <;> simp

theorem pack_op (r : Raw) : (pack r).extractLsb' 3 8 = r.op := by
  rw [pack_low r 3 8 (by decide)]
  apply BitVec.eq_of_getLsbD_eq
  intro i hi
  simp only [BitVec.getLsbD_extractLsb', Raw.low, BitVec.getLsbD_append, BitVec.getLsbD_ofBool]
  interval_cases i <;> simp

theorem pack_gp (r : Raw) : (pack r).extractLsb' 11 7 = r.gp := by
  rw [pack_low r 11 7 (by decide)]
  apply BitVec.eq_of_getLsbD_eq
  intro i hi
  simp only [BitVec.getLsbD_extractLsb', Raw.low, BitVec.getLsbD_append, BitVec.getLsbD_ofBool]
  interval_cases i <;> simp

theorem pack_d (r : Raw) : (pack r).extractLsb' 19 11 = r.d := by
  rw [pack_low r 19 11 (by decide)]
  apply BitVec.eq_of_getLsbD_eq
  intro i hi
  simp only [BitVec.getLsbD_extractLsb', Raw.low, BitVec.getLsbD_append, BitVec.getLsbD_ofBool]
  interval_cases i <;> simp

theorem pack_a (r : Raw) : (pack r).extractLsb' 30 11 = r.a := by
  rw [pack_low r 30 11 (by decide)]
  apply BitVec.eq_of_getLsbD_eq
  intro i hi
  simp only [BitVec.getLsbD_extractLsb', Raw.low, BitVec.getLsbD_append, BitVec.getLsbD_ofBool]
  interval_cases i <;> simp

theorem pack_b (r : Raw) : (pack r).extractLsb' 41 11 = r.b := by
  rw [pack_low r 41 11 (by decide)]
  apply BitVec.eq_of_getLsbD_eq
  intro i hi
  simp only [BitVec.getLsbD_extractLsb', Raw.low, BitVec.getLsbD_append, BitVec.getLsbD_ofBool]
  interval_cases i <;> simp

theorem pack_keep (r : Raw) : (pack r).extractLsb' 52 2 = r.keep := by
  rw [pack_low r 52 2 (by decide)]
  apply BitVec.eq_of_getLsbD_eq
  intro i hi
  simp only [BitVec.getLsbD_extractLsb', Raw.low, BitVec.getLsbD_append, BitVec.getLsbD_ofBool]
  interval_cases i <;> simp

theorem pack_fn (r : Raw) : (pack r).extractLsb' 54 10 = r.fn := by
  rw [pack_low r 54 10 (by decide)]
  apply BitVec.eq_of_getLsbD_eq
  intro i hi
  simp only [BitVec.getLsbD_extractLsb', Raw.low, BitVec.getLsbD_append, BitVec.getLsbD_ofBool]
  interval_cases i <;> simp

theorem pack_pk (r : Raw) : (pack r).getLsbD 2 = r.pk := by
  simp only [pack, Raw.low, BitVec.getLsbD_append, BitVec.getLsbD_ofBool]
  simp

theorem pack_gn (r : Raw) : (pack r).getLsbD 18 = r.gn := by
  simp only [pack, Raw.low, BitVec.getLsbD_append, BitVec.getLsbD_ofBool]
  simp

/-- Bits [127:64] of form X and of the 128-bit form (R53, R56). -/
def Raw.tailX (r : Raw) : DWord := r.imm ++ r.fn2 ++ r.qid ++ r.qop ++ r.c

theorem Raw.tailX_c (r : Raw) : r.tailX.extractLsb' 0 11 = r.c := by
  apply BitVec.eq_of_getLsbD_eq
  intro i hi
  simp only [BitVec.getLsbD_extractLsb', Raw.tailX, BitVec.getLsbD_append]
  interval_cases i <;> simp

theorem Raw.tailX_qop (r : Raw) : r.tailX.extractLsb' 11 2 = r.qop := by
  apply BitVec.eq_of_getLsbD_eq
  intro i hi
  simp only [BitVec.getLsbD_extractLsb', Raw.tailX, BitVec.getLsbD_append]
  interval_cases i <;> simp

theorem Raw.tailX_qid (r : Raw) : r.tailX.extractLsb' 13 3 = r.qid := by
  apply BitVec.eq_of_getLsbD_eq
  intro i hi
  simp only [BitVec.getLsbD_extractLsb', Raw.tailX, BitVec.getLsbD_append]
  interval_cases i <;> simp

theorem Raw.tailX_fn2 (r : Raw) : r.tailX.extractLsb' 16 16 = r.fn2 := by
  apply BitVec.eq_of_getLsbD_eq
  intro i hi
  simp only [BitVec.getLsbD_extractLsb', Raw.tailX, BitVec.getLsbD_append]
  interval_cases i <;> simp

theorem Raw.tailX_imm (r : Raw) : r.tailX.extractLsb' 32 32 = r.imm := by
  apply BitVec.eq_of_getLsbD_eq
  intro i hi
  simp only [BitVec.getLsbD_extractLsb', Raw.tailX, BitVec.getLsbD_append]
  interval_cases i <;> simp

/-- Two words that agree below n have the same fields there. -/
theorem field_of_agree (w v : BitVec 128) (n k m : Nat) (h : ∀ i, i < n → w.getLsbD i = v.getLsbD i) (hk : k + m ≤ n) :
    w.extractLsb' k m = v.extractLsb' k m := by
  apply BitVec.eq_of_getLsbD_eq
  intro i hi
  simp only [BitVec.getLsbD_extractLsb']
  rw [h _ (by omega)]

theorem high_imm (v : Word) : (v.setWidth 64 : DWord).extractLsb' 0 32 = v := by
  apply BitVec.eq_of_getLsbD_eq
  intro i hi
  simp only [BitVec.getLsbD_extractLsb', BitVec.getLsbD_setWidth]
  simp [hi]; omega

/-- Unpacking a word that agrees with a packed one below its length gives the fields back. -/
theorem unpack_of_agree (r : Raw) (hr : r.shaped = true) (w : BitVec 128)
    (h : ∀ i, i < 8 * lenBytes r.len → w.getLsbD i = (pack r).getLsbD i) : unpack w = r := by
  have h64 : 64 ≤ 8 * lenBytes r.len := by
    have : r.len.toNat < 3 := by
      rcases Nat.lt_or_ge r.len.toNat 3 with h3 | h3
      · exact h3
      · have h3' : r.len = 3 := by apply BitVec.eq_of_toNat_eq; have := r.len.isLt; simp; omega
        simp [Raw.shaped, h3'] at hr
    unfold lenBytes
    interval_cases r.len.toNat <;> simp
  have f (k m : Nat) (hk : k + m ≤ 64) := field_of_agree w (pack r) _ k m h (Nat.le_trans hk h64)
  have hlen := (f 0 2 (by decide)).trans (pack_len r)
  have hop := (f 3 8 (by decide)).trans (pack_op r)
  have hgp := (f 11 7 (by decide)).trans (pack_gp r)
  have hd := (f 19 11 (by decide)).trans (pack_d r)
  have ha := (f 30 11 (by decide)).trans (pack_a r)
  have hb := (f 41 11 (by decide)).trans (pack_b r)
  have hkeep := (f 52 2 (by decide)).trans (pack_keep r)
  have hfn := (f 54 10 (by decide)).trans (pack_fn r)
  have hpk := (h 2 (by omega)).trans (pack_pk r)
  have hgn := (h 18 (by omega)).trans (pack_gn r)
  simp only [unpack, hlen, hop, hgp, hd, ha, hb, hkeep, hfn, hpk, hgn]
  have g (k m : Nat) (hk : 64 + k + m ≤ 8 * lenBytes r.len) : w.extractLsb' (64 + k) m = r.high.extractLsb' k m :=
    (field_of_agree w (pack r) _ (64 + k) m h hk).trans (pack_high r k m)
  have tX (ht : r.high = r.tailX) (k m : Nat) (v : BitVec m) (hv : r.tailX.extractLsb' k m = v)
      (hk : 64 + k + m ≤ 8 * lenBytes r.len) : w.extractLsb' (64 + k) m = v := by
    rw [g k m hk, ht, hv]
  clear h f
  rcases r with ⟨len, pk, op, gp, gn, d, a, b, keep, fn, c, qop, qid, fn2, imm, imm64⟩
  simp only at *
  have hl : len = 0 ∨ len = 1 ∨ len = 2 := by
    have : len = 0 ∨ len = 1 ∨ len = 2 ∨ len = 3 := by
      clear * -; revert len; decide
    rcases this with h | h | h | h
    · exact .inl h
    · exact .inr (.inl h)
    · exact .inr (.inr h)
    · subst h; simp [Raw.shaped] at hr
  rcases hl with rfl | rfl | rfl
  · simp [Raw.shaped] at hr
    simp [hr]
  · by_cases h9 : fn.getLsbD 9 = true
    · have hi : w.extractLsb' 64 32 = imm := by
        rw [g 0 32 (by decide)]
        simp only [Raw.high, h9]
        exact high_imm imm
      simp only [Raw.shaped, h9] at hr
      simp at hr
      simp only [h9, hi]
      simp [hr]
    · have ht : Raw.high ⟨1, pk, op, gp, gn, d, a, b, keep, fn, c, qop, qid, fn2, imm, imm64⟩ =
          Raw.tailX ⟨1, pk, op, gp, gn, d, a, b, keep, fn, c, qop, qid, fn2, imm, imm64⟩ := by
        simp only [Raw.high, h9, Raw.tailX]; rfl
      simp only [tX ht 0 11 c (Raw.tailX_c _) (by decide), tX ht 11 2 qop (Raw.tailX_qop _) (by decide),
        tX ht 13 3 qid (Raw.tailX_qid _) (by decide), tX ht 16 16 fn2 (Raw.tailX_fn2 _) (by decide)]
      simp only [Raw.shaped, h9] at hr
      simp at hr
      simp only [h9]
      simp [hr]
  · by_cases hw : op = 51#8
    · subst hw
      have hi : w.extractLsb' 64 64 = imm64 := by
        rw [g 0 64 (by decide)]
        simp [Raw.high]
      simp only [Raw.shaped] at hr
      simp at hr
      simp only [hi]
      simp [hr]
    · have ht : Raw.high ⟨2, pk, op, gp, gn, d, a, b, keep, fn, c, qop, qid, fn2, imm, imm64⟩ =
          Raw.tailX ⟨2, pk, op, gp, gn, d, a, b, keep, fn, c, qop, qid, fn2, imm, imm64⟩ := by
        simp [Raw.high, hw, Raw.tailX]
      simp only [tX ht 0 11 c (Raw.tailX_c _) (by decide), tX ht 11 2 qop (Raw.tailX_qop _) (by decide),
        tX ht 13 3 qid (Raw.tailX_qid _) (by decide), tX ht 16 16 fn2 (Raw.tailX_fn2 _) (by decide),
        tX ht 32 32 imm (Raw.tailX_imm _) (by decide)]
      simp only [Raw.shaped] at hr
      simp [hw] at hr
      simp [hw, hr]

/-! ## Bytes -/

theorem natToBytes_length (n v : Nat) : (natToBytes n v).length = n := by
  induction n generalizing v with
  | zero => rfl
  | succ n ih => simp [natToBytes, ih]

theorem bytesToNat_append (bs rest : List Byte) :
    bytesToNat (bs ++ rest) = bytesToNat bs + 256 ^ bs.length * bytesToNat rest := by
  induction bs with
  | nil => simp [bytesToNat]
  | cons b bs ih => simp only [List.cons_append, bytesToNat, ih, List.length_cons, pow_succ]; ring

theorem bytesToNat_natToBytes (n v : Nat) : bytesToNat (natToBytes n v) = v % 256 ^ n := by
  induction n generalizing v with
  | zero => simp [natToBytes, bytesToNat, Nat.mod_one]
  | succ n ih =>
    rw [pow_succ, Nat.mul_comm (256 ^ n) 256, Nat.mod_mul]
    simp [natToBytes, bytesToNat, ih]

/-- What stands behind a word does not change what the word decodes to (R43, R47). -/
theorem decodeBytes_word (r : Raw) (hr : r.shaped = true) (rest : List Byte) :
    decodeBytes (natToBytes (lenBytes r.len) (pack r).toNat ++ rest) =
      match decodeRaw r with | some i => .instr i | none => .illegal := by
  have hl : r.len = 0 ∨ r.len = 1 ∨ r.len = 2 := by
    have : r.len = 0 ∨ r.len = 1 ∨ r.len = 2 ∨ r.len = 3 := by
      generalize r.len = l; revert l; decide
    rcases this with h | h | h | h
    · exact .inl h
    · exact .inr (.inl h)
    · exact .inr (.inr h)
    · simp [Raw.shaped, h] at hr
  have hn : lenBytes r.len ≤ 16 := by rcases hl with h | h | h <;> rw [h] <;> decide
  have agree : ∀ i, i < 8 * lenBytes r.len →
      (BitVec.ofNat 128 (bytesToNat ((natToBytes (lenBytes r.len) (pack r).toNat ++ rest).take 16))).getLsbD i
        = (pack r).getLsbD i := by
    intro i hi
    rw [List.take_append, List.take_of_length_le (by rw [natToBytes_length]; exact hn), bytesToNat_append,
      bytesToNat_natToBytes, natToBytes_length]
    have hp : (256 : Nat) ^ lenBytes r.len = 2 ^ (8 * lenBytes r.len) := by rw [Nat.pow_mul]
    rw [hp, BitVec.getLsbD_ofNat, Nat.add_comm, Nat.testBit_two_pow_mul_add _ (Nat.mod_lt _ (Nat.two_pow_pos _)),
      if_pos hi, Nat.testBit_mod_two_pow]
    simp [hi, BitVec.getLsbD, show i < 128 by omega]
  have hu := unpack_of_agree r hr _ agree
  have hlen := congrArg Raw.len hu
  simp only [unpack] at hlen
  have h3 : r.len ≠ 3#2 := by rcases hl with h | h | h <;> rw [h] <;> decide
  unfold decodeBytes decode
  generalize BitVec.ofNat 128 _ = w at *
  have hpad : ¬ w.extractLsb' 0 32 = 0xFFFFFFFF#32 := by
    intro hp
    apply h3
    rw [← hlen]
    have := congrArg (fun x : BitVec 32 => x.extractLsb' 0 2) hp
    apply BitVec.eq_of_getLsbD_eq
    intro i hi
    have e := congrArg (fun x : BitVec 32 => x.getLsbD i) hp
    simp only [BitVec.getLsbD_extractLsb'] at e ⊢
    interval_cases i <;> simpa using e
  rw [if_neg hpad, if_neg (by rw [hlen]; exact h3), hu]
  all_goals (cases decodeRaw r <;> rfl)

end Sys2Proof
end

