-- ==== Sys2Proof/Laws/PerInstr.lean ====
section
/-! SUPPORT. One lemma per constructor of the instruction type: the fields that the encoder builds have a shape the word can
hold, and the decoder reads the same instruction off them, with every operand. An event has no word. -/

namespace Sys2Proof

set_option linter.unusedSimpArgs false
set_option linter.unreachableTactic false
set_option linter.unusedTactic false
set_option linter.unnecessarySeqFocus false
set_option maxRecDepth 4000

/-! ## Codes -/

theorem Codec.bit (n k : Nat) (h : k < 10) : (BitVec.ofNat 10 n)[k] = decide (n / 2 ^ k % 2 = 1) := by
  rw [← BitVec.getLsbD_eq_getElem, BitVec.getLsbD_ofNat]
  simp [h, Nat.testBit_eq_decide_div_mod_eq]

theorem Codec.bit16 (n k : Nat) (h : k < 16) : (BitVec.ofNat 16 n)[k] = decide (n / 2 ^ k % 2 = 1) := by
  rw [← BitVec.getLsbD_eq_getElem, BitVec.getLsbD_ofNat]
  simp [h, Nat.testBit_eq_decide_div_mod_eq]

theorem Codec.rmDyn : RMode.dyn.code = 0 := rfl
theorem Codec.ctyF32 : CTy.f32.code = 0 := rfl

theorem AOp.code_ne (o : AOp) : o.code ≠ 7 := by cases o <;> decide

theorem AOp.ofCode_of {n : Nat} {t : AOp} (h : n = t.code) : AOp.ofCode n = t := by subst h; cases t <;> rfl
theorem AOp.code_le (t : AOp) : t.code ≤ 9 := by cases t <;> decide

theorem BTy.ofCode_of {n : Nat} {t : BTy} (h : n = t.code) : BTy.ofCode n = t := by subst h; cases t <;> rfl
theorem BTy.code_le (t : BTy) : t.code ≤ 2 := by cases t <;> decide

theorem CTy.ofCode_of {n : Nat} {t : CTy} (h : n = t.code) : CTy.ofCode n = t := by subst h; cases t <;> rfl
theorem CTy.code_le (t : CTy) : t.code ≤ 23 := by cases t <;> decide

theorem CpyDir.ofCode_of {n : Nat} {t : CpyDir} (h : n = t.code) : CpyDir.ofCode n = t := by subst h; cases t <;> rfl
theorem CpyDir.code_le (t : CpyDir) : t.code ≤ 3 := by cases t <;> decide

theorem Ctr.ofCode_of {n : Nat} {t : Ctr} (h : n = t.code) : Ctr.ofCode n = t := by subst h; cases t <;> rfl
theorem Ctr.code_le (t : Ctr) : t.code ≤ 7 := by cases t <;> decide

theorem FAOp.ofCode_of {n : Nat} {t : FAOp} (h : n = t.code) : FAOp.ofCode n = t := by subst h; cases t <;> rfl
theorem FAOp.code_le (t : FAOp) : t.code ≤ 2 := by cases t <;> decide

theorem FCond.ofCode_of {n : Nat} {t : FCond} (h : n = t.code) : FCond.ofCode n = t := by subst h; cases t <;> rfl
theorem FCond.code_le (t : FCond) : t.code ≤ 13 := by cases t <;> decide

theorem FTy.ofCode_of {n : Nat} {t : FTy} (h : n = t.code) : FTy.ofCode n = t := by subst h; cases t <;> rfl
theorem FTy.code_le (t : FTy) : t.code ≤ 2 := by cases t <;> decide

theorem HTy.ofCode_of {n : Nat} {t : HTy} (h : n = t.code) : HTy.ofCode n = t := by subst h; cases t <;> rfl
theorem HTy.code_le (t : HTy) : t.code ≤ 2 := by cases t <;> decide

theorem Hint.ofCode_of {n : Nat} {t : Hint} (h : n = t.code) : Hint.ofCode n = t := by subst h; cases t <;> rfl
theorem Hint.code_le (t : Hint) : t.code ≤ 2 := by cases t <;> decide

theorem ICond.ofCode_of {n : Nat} {t : ICond} (h : n = t.code) : ICond.ofCode n = t := by subst h; cases t <;> rfl
theorem ICond.code_le (t : ICond) : t.code ≤ 5 := by cases t <;> decide

theorem ITy.ofCode_of {n : Nat} {t : ITy} (h : n = t.code) : ITy.ofCode n = t := by subst h; cases t <;> rfl
theorem ITy.code_le (t : ITy) : t.code ≤ 3 := by cases t <;> decide

theorem NF8.ofCode_of {n : Nat} {t : NF8} (h : n = t.code) : NF8.ofCode n = t := by subst h; cases t <;> rfl
theorem NF8.code_le (t : NF8) : t.code ≤ 1 := by cases t <;> decide

theorem PopN.ofCode_of {n : Nat} {t : PopN} (h : n = t.code) : PopN.ofCode n = t := by subst h; cases t <;> rfl
theorem PopN.code_le (t : PopN) : t.code ≤ 2 := by cases t <;> decide

theorem PrefTo.ofCode_of {n : Nat} {t : PrefTo} (h : n = t.code) : PrefTo.ofCode n = t := by subst h; cases t <;> rfl
theorem PrefTo.code_le (t : PrefTo) : t.code ≤ 2 := by cases t <;> decide

theorem RMode.ofCode_of {n : Nat} {t : RMode} (h : n = t.code) : RMode.ofCode n = t := by subst h; cases t <;> rfl
theorem RMode.code_le (t : RMode) : t.code ≤ 4 := by cases t <;> decide

theorem ROp.ofCode_of {n : Nat} {t : ROp} (h : n = t.code) : ROp.ofCode n = t := by subst h; cases t <;> rfl
theorem ROp.code_le (t : ROp) : t.code ≤ 9 := by cases t <;> decide

theorem RedOp.ofCode_of {n : Nat} {t : RedOp} (h : n = t.code) : RedOp.ofCode n = t := by subst h; cases t <;> rfl
theorem RedOp.code_le (t : RedOp) : t.code ≤ 5 := by cases t <;> decide

theorem SReg.ofCode_of {n : Nat} {t : SReg} (h : n = t.code) : SReg.ofCode n = t := by subst h; cases t <;> rfl
theorem SReg.code_le (t : SReg) : t.code ≤ 34 := by cases t <;> decide

theorem Scope.ofCode_of {n : Nat} {t : Scope} (h : n = t.code) : Scope.ofCode n = t := by subst h; cases t <;> rfl
theorem Scope.code_le (t : Scope) : t.code ≤ 6 := by cases t <;> decide

theorem StSz.ofCode_of {n : Nat} {t : StSz} (h : n = t.code) : StSz.ofCode n = t := by subst h; cases t <;> rfl
theorem StSz.code_le (t : StSz) : t.code ≤ 5 := by cases t <;> decide

theorem Sz.ofCode_of {n : Nat} {t : Sz} (h : n = t.code) : Sz.ofCode n = t := by subst h; cases t <;> rfl
theorem Sz.code_le (t : Sz) : t.code ≤ 5 := by cases t <;> decide

theorem T32.ofCode_of {n : Nat} {t : T32} (h : n = t.code) : T32.ofCode n = t := by subst h; cases t <;> rfl
theorem T32.code_le (t : T32) : t.code ≤ 1 := by cases t <;> decide

theorem WFmt.ofCode_of {n : Nat} {t : WFmt} (h : n = t.code) : WFmt.ofCode n = t := by subst h; cases t <;> rfl
theorem WFmt.code_le (t : WFmt) : t.code ≤ 9 := by cases t <;> decide

theorem WOpK.ofCode_of {n : Nat} {t : WOpK} (h : n = t.code) : WOpK.ofCode n = t := by subst h; cases t <;> rfl
theorem WOpK.code_le (t : WOpK) : t.code ≤ 10 := by cases t <;> decide

theorem XMode.ofCode_of {n : Nat} {t : XMode} (h : n = t.code) : XMode.ofCode n = t := by subst h; cases t <;> rfl
theorem XMode.code_le (t : XMode) : t.code ≤ 3 := by cases t <;> decide

namespace Laws

/-- The field-level round trip of one instruction. -/
def Codec.Statement (i : Instr) : Prop := ∀ r, toRaw i = some r → r.shaped = true ∧ fromRaw r = some i

theorem Codec.of_none {i : Instr} (h : toRaw i = none) : Codec.Statement i := by
  intro r e; rw [h] at e; cases e



theorem Codec.nop (a0 : Hdr) : Codec.Statement (.nop a0) := by
  intro r e
  cases e
  simp [fromRaw, fromRawControl, Raw.hdr, Raw.shaped, Raw.isI, Raw.fx, Raw.fb, raw64, rawI, rawX, raw128, rawB, rawM, rawS, rawSX, Pop.qop, Pop.qid, Raw.pop, Raw.srcB, Raw.src3, Raw.srcX, Raw.addr, Raw.stAddr, Raw.off128, Raw.is128, Raw.f, intFn, fpFn, Raw.id6, Raw.ity, Raw.bty, Raw.t32, Raw.fty, Raw.hty, Raw.rm, Codec.bit, Codec.bit16, Codec.rmDyn, Codec.ctyF32]

theorem Codec.bra (a0 : Hdr) (a1 : Word) : Codec.Statement (.bra a0 a1) := by
  intro r e
  cases e
  simp [fromRaw, fromRawControl, Raw.hdr, Raw.shaped, Raw.isI, Raw.fx, Raw.fb, raw64, rawI, rawX, raw128, rawB, rawM, rawS, rawSX, Pop.qop, Pop.qid, Raw.pop, Raw.srcB, Raw.src3, Raw.srcX, Raw.addr, Raw.stAddr, Raw.off128, Raw.is128, Raw.f, intFn, fpFn, Raw.id6, Raw.ity, Raw.bty, Raw.t32, Raw.fty, Raw.hty, Raw.rm, Codec.bit, Codec.bit16, Codec.rmDyn, Codec.ctyF32]

theorem Codec.brx (a0 : Hdr) (a1 : Reg) : Codec.Statement (.brx a0 a1) := by
  intro r e
  cases e
  simp [fromRaw, fromRawControl, Raw.hdr, Raw.shaped, Raw.isI, Raw.fx, Raw.fb, raw64, rawI, rawX, raw128, rawB, rawM, rawS, rawSX, Pop.qop, Pop.qid, Raw.pop, Raw.srcB, Raw.src3, Raw.srcX, Raw.addr, Raw.stAddr, Raw.off128, Raw.is128, Raw.f, intFn, fpFn, Raw.id6, Raw.ity, Raw.bty, Raw.t32, Raw.fty, Raw.hty, Raw.rm, Codec.bit, Codec.bit16, Codec.rmDyn, Codec.ctyF32]

theorem Codec.call (a0 : Hdr) (a1 : Reg) (a2 : Word) : Codec.Statement (.call a0 a1 a2) := by
  intro r e
  cases e
  simp [fromRaw, fromRawControl, Raw.hdr, Raw.shaped, Raw.isI, Raw.fx, Raw.fb, raw64, rawI, rawX, raw128, rawB, rawM, rawS, rawSX, Pop.qop, Pop.qid, Raw.pop, Raw.srcB, Raw.src3, Raw.srcX, Raw.addr, Raw.stAddr, Raw.off128, Raw.is128, Raw.f, intFn, fpFn, Raw.id6, Raw.ity, Raw.bty, Raw.t32, Raw.fty, Raw.hty, Raw.rm, Codec.bit, Codec.bit16, Codec.rmDyn, Codec.ctyF32]

theorem Codec.callx (a0 : Hdr) (a1 : Reg) (a2 : Reg) : Codec.Statement (.callx a0 a1 a2) := by
  intro r e
  cases e
  simp [fromRaw, fromRawControl, Raw.hdr, Raw.shaped, Raw.isI, Raw.fx, Raw.fb, raw64, rawI, rawX, raw128, rawB, rawM, rawS, rawSX, Pop.qop, Pop.qid, Raw.pop, Raw.srcB, Raw.src3, Raw.srcX, Raw.addr, Raw.stAddr, Raw.off128, Raw.is128, Raw.f, intFn, fpFn, Raw.id6, Raw.ity, Raw.bty, Raw.t32, Raw.fty, Raw.hty, Raw.rm, Codec.bit, Codec.bit16, Codec.rmDyn, Codec.ctyF32]

theorem Codec.ret (a0 : Hdr) (a1 : Reg) : Codec.Statement (.ret a0 a1) := by
  intro r e
  cases e
  simp [fromRaw, fromRawControl, Raw.hdr, Raw.shaped, Raw.isI, Raw.fx, Raw.fb, raw64, rawI, rawX, raw128, rawB, rawM, rawS, rawSX, Pop.qop, Pop.qid, Raw.pop, Raw.srcB, Raw.src3, Raw.srcX, Raw.addr, Raw.stAddr, Raw.off128, Raw.is128, Raw.f, intFn, fpFn, Raw.id6, Raw.ity, Raw.bty, Raw.t32, Raw.fty, Raw.hty, Raw.rm, Codec.bit, Codec.bit16, Codec.rmDyn, Codec.ctyF32]

theorem Codec.exit (a0 : Hdr) : Codec.Statement (.exit a0) := by
  intro r e
  cases e
  simp [fromRaw, fromRawControl, Raw.hdr, Raw.shaped, Raw.isI, Raw.fx, Raw.fb, raw64, rawI, rawX, raw128, rawB, rawM, rawS, rawSX, Pop.qop, Pop.qid, Raw.pop, Raw.srcB, Raw.src3, Raw.srcX, Raw.addr, Raw.stAddr, Raw.off128, Raw.is128, Raw.f, intFn, fpFn, Raw.id6, Raw.ity, Raw.bty, Raw.t32, Raw.fty, Raw.hty, Raw.rm, Codec.bit, Codec.bit16, Codec.rmDyn, Codec.ctyF32]

theorem Codec.join (a0 : Hdr) (a1 : Reg) : Codec.Statement (.join a0 a1) := by
  intro r e
  cases e
  simp [fromRaw, fromRawControl, Raw.hdr, Raw.shaped, Raw.isI, Raw.fx, Raw.fb, raw64, rawI, rawX, raw128, rawB, rawM, rawS, rawSX, Pop.qop, Pop.qid, Raw.pop, Raw.srcB, Raw.src3, Raw.srcX, Raw.addr, Raw.stAddr, Raw.off128, Raw.is128, Raw.f, intFn, fpFn, Raw.id6, Raw.ity, Raw.bty, Raw.t32, Raw.fty, Raw.hty, Raw.rm, Codec.bit, Codec.bit16, Codec.rmDyn, Codec.ctyF32]

theorem Codec.leave (a0 : Hdr) (a1 : Reg) : Codec.Statement (.leave a0 a1) := by
  intro r e
  cases e
  simp [fromRaw, fromRawControl, Raw.hdr, Raw.shaped, Raw.isI, Raw.fx, Raw.fb, raw64, rawI, rawX, raw128, rawB, rawM, rawS, rawSX, Pop.qop, Pop.qid, Raw.pop, Raw.srcB, Raw.src3, Raw.srcX, Raw.addr, Raw.stAddr, Raw.off128, Raw.is128, Raw.f, intFn, fpFn, Raw.id6, Raw.ity, Raw.bty, Raw.t32, Raw.fty, Raw.hty, Raw.rm, Codec.bit, Codec.bit16, Codec.rmDyn, Codec.ctyF32]

theorem Codec.waitm (a0 : Hdr) (a1 : Reg) : Codec.Statement (.waitm a0 a1) := by
  intro r e
  cases e
  simp [fromRaw, fromRawControl, Raw.hdr, Raw.shaped, Raw.isI, Raw.fx, Raw.fb, raw64, rawI, rawX, raw128, rawB, rawM, rawS, rawSX, Pop.qop, Pop.qid, Raw.pop, Raw.srcB, Raw.src3, Raw.srcX, Raw.addr, Raw.stAddr, Raw.off128, Raw.is128, Raw.f, intFn, fpFn, Raw.id6, Raw.ity, Raw.bty, Raw.t32, Raw.fty, Raw.hty, Raw.rm, Codec.bit, Codec.bit16, Codec.rmDyn, Codec.ctyF32]

theorem Codec.movmMaskFromW (a0 : Hdr) (a1 : Reg) (a2 : Reg) : Codec.Statement (.movmMaskFromW a0 a1 a2) := by
  intro r e
  cases e
  simp [fromRaw, fromRawControl, Raw.hdr, Raw.shaped, Raw.isI, Raw.fx, Raw.fb, raw64, rawI, rawX, raw128, rawB, rawM, rawS, rawSX, Pop.qop, Pop.qid, Raw.pop, Raw.srcB, Raw.src3, Raw.srcX, Raw.addr, Raw.stAddr, Raw.off128, Raw.is128, Raw.f, intFn, fpFn, Raw.id6, Raw.ity, Raw.bty, Raw.t32, Raw.fty, Raw.hty, Raw.rm, Codec.bit, Codec.bit16, Codec.rmDyn, Codec.ctyF32]

theorem Codec.movmWFromMask (a0 : Hdr) (a1 : Reg) (a2 : Reg) : Codec.Statement (.movmWFromMask a0 a1 a2) := by
  intro r e
  cases e
  simp [fromRaw, fromRawControl, Raw.hdr, Raw.shaped, Raw.isI, Raw.fx, Raw.fb, raw64, rawI, rawX, raw128, rawB, rawM, rawS, rawSX, Pop.qop, Pop.qid, Raw.pop, Raw.srcB, Raw.src3, Raw.srcX, Raw.addr, Raw.stAddr, Raw.off128, Raw.is128, Raw.f, intFn, fpFn, Raw.id6, Raw.ity, Raw.bty, Raw.t32, Raw.fty, Raw.hty, Raw.rm, Codec.bit, Codec.bit16, Codec.rmDyn, Codec.ctyF32]

theorem Codec.movmMaskFromMask (a0 : Hdr) (a1 : Reg) (a2 : Reg) : Codec.Statement (.movmMaskFromMask a0 a1 a2) := by
  intro r e
  cases e
  simp [fromRaw, fromRawControl, Raw.hdr, Raw.shaped, Raw.isI, Raw.fx, Raw.fb, raw64, rawI, rawX, raw128, rawB, rawM, rawS, rawSX, Pop.qop, Pop.qid, Raw.pop, Raw.srcB, Raw.src3, Raw.srcX, Raw.addr, Raw.stAddr, Raw.off128, Raw.is128, Raw.f, intFn, fpFn, Raw.id6, Raw.ity, Raw.bty, Raw.t32, Raw.fty, Raw.hty, Raw.rm, Codec.bit, Codec.bit16, Codec.rmDyn, Codec.ctyF32]

theorem Codec.movmMaskImm (a0 : Hdr) (a1 : Reg) (a2 : Word) : Codec.Statement (.movmMaskImm a0 a1 a2) := by
  intro r e
  cases e
  simp [fromRaw, fromRawControl, Raw.hdr, Raw.shaped, Raw.isI, Raw.fx, Raw.fb, raw64, rawI, rawX, raw128, rawB, rawM, rawS, rawSX, Pop.qop, Pop.qid, Raw.pop, Raw.srcB, Raw.src3, Raw.srcX, Raw.addr, Raw.stAddr, Raw.off128, Raw.is128, Raw.f, intFn, fpFn, Raw.id6, Raw.ity, Raw.bty, Raw.t32, Raw.fty, Raw.hty, Raw.rm, Codec.bit, Codec.bit16, Codec.rmDyn, Codec.ctyF32]

theorem Codec.rgn (a0 : Hdr) : Codec.Statement (.rgn a0) := by
  intro r e
  cases e
  simp [fromRaw, fromRawControl, Raw.hdr, Raw.shaped, Raw.isI, Raw.fx, Raw.fb, raw64, rawI, rawX, raw128, rawB, rawM, rawS, rawSX, Pop.qop, Pop.qid, Raw.pop, Raw.srcB, Raw.src3, Raw.srcX, Raw.addr, Raw.stAddr, Raw.off128, Raw.is128, Raw.f, intFn, fpFn, Raw.id6, Raw.ity, Raw.bty, Raw.t32, Raw.fty, Raw.hty, Raw.rm, Codec.bit, Codec.bit16, Codec.rmDyn, Codec.ctyF32]

theorem Codec.trap (a0 : Hdr) (a1 : Option (BitVec 16)) : Codec.Statement (.trap a0 a1) := by
  intro r e
  cases a1 <;> cases e <;>
    simp [fromRaw, fromRawControl, Raw.hdr, Raw.shaped, Raw.isI, Raw.fx, Raw.fb, raw64, rawI, rawX, raw128, rawB, rawM, rawS, rawSX, Pop.qop, Pop.qid, Raw.pop, Raw.srcB, Raw.src3, Raw.srcX, Raw.addr, Raw.stAddr, Raw.off128, Raw.is128, Raw.f, intFn, fpFn, Raw.id6, Raw.ity, Raw.bty, Raw.t32, Raw.fty, Raw.hty, Raw.rm, Codec.bit, Codec.bit16, Codec.rmDyn, Codec.ctyF32]

theorem Codec.wcall (a0 : Hdr) (a1 : Reg) (a2 : Reg) (a3 : BitVec 16) : Codec.Statement (.wcall a0 a1 a2 a3) := by
  have h0 := a3.isLt
  simp only [Nat.reducePow] at *
  intro r e
  cases e
  simp [fromRaw, fromRawControl, Raw.hdr, Raw.shaped, Raw.isI, Raw.fx, Raw.fb, raw64, rawI, rawX, raw128, rawB, rawM, rawS, rawSX, Pop.qop, Pop.qid, Raw.pop, Raw.srcB, Raw.src3, Raw.srcX, Raw.addr, Raw.stAddr, Raw.off128, Raw.is128, Raw.f, intFn, fpFn, Raw.id6, Raw.ity, Raw.bty, Raw.t32, Raw.fty, Raw.hty, Raw.rm, Codec.bit, Codec.bit16, Codec.rmDyn, Codec.ctyF32] <;>
    (repeat' apply And.intro) <;> first | omega | (apply BitVec.eq_of_toNat_eq; simp; omega)

theorem Codec.rttRetry (a0 : Hdr) : Codec.Statement (.rttRetry a0) := by
  intro r e
  cases e
  simp [fromRaw, fromRawControl, Raw.hdr, Raw.shaped, Raw.isI, Raw.fx, Raw.fb, raw64, rawI, rawX, raw128, rawB, rawM, rawS, rawSX, Pop.qop, Pop.qid, Raw.pop, Raw.srcB, Raw.src3, Raw.srcX, Raw.addr, Raw.stAddr, Raw.off128, Raw.is128, Raw.f, intFn, fpFn, Raw.id6, Raw.ity, Raw.bty, Raw.t32, Raw.fty, Raw.hty, Raw.rm, Codec.bit, Codec.bit16, Codec.rmDyn, Codec.ctyF32]

theorem Codec.rttSkip (a0 : Hdr) : Codec.Statement (.rttSkip a0) := by
  intro r e
  cases e
  simp [fromRaw, fromRawControl, Raw.hdr, Raw.shaped, Raw.isI, Raw.fx, Raw.fb, raw64, rawI, rawX, raw128, rawB, rawM, rawS, rawSX, Pop.qop, Pop.qid, Raw.pop, Raw.srcB, Raw.src3, Raw.srcX, Raw.addr, Raw.stAddr, Raw.off128, Raw.is128, Raw.f, intFn, fpFn, Raw.id6, Raw.ity, Raw.bty, Raw.t32, Raw.fty, Raw.hty, Raw.rm, Codec.bit, Codec.bit16, Codec.rmDyn, Codec.ctyF32]

theorem Codec.rttSub (a0 : Hdr) : Codec.Statement (.rttSub a0) := by
  intro r e
  cases e
  simp [fromRaw, fromRawControl, Raw.hdr, Raw.shaped, Raw.isI, Raw.fx, Raw.fb, raw64, rawI, rawX, raw128, rawB, rawM, rawS, rawSX, Pop.qop, Pop.qid, Raw.pop, Raw.srcB, Raw.src3, Raw.srcX, Raw.addr, Raw.stAddr, Raw.off128, Raw.is128, Raw.f, intFn, fpFn, Raw.id6, Raw.ity, Raw.bty, Raw.t32, Raw.fty, Raw.hty, Raw.rm, Codec.bit, Codec.bit16, Codec.rmDyn, Codec.ctyF32]

theorem Codec.rttRetryRgn (a0 : Hdr) : Codec.Statement (.rttRetryRgn a0) := by
  intro r e
  cases e
  simp [fromRaw, fromRawControl, Raw.hdr, Raw.shaped, Raw.isI, Raw.fx, Raw.fb, raw64, rawI, rawX, raw128, rawB, rawM, rawS, rawSX, Pop.qop, Pop.qid, Raw.pop, Raw.srcB, Raw.src3, Raw.srcX, Raw.addr, Raw.stAddr, Raw.off128, Raw.is128, Raw.f, intFn, fpFn, Raw.id6, Raw.ity, Raw.bty, Raw.t32, Raw.fty, Raw.hty, Raw.rm, Codec.bit, Codec.bit16, Codec.rmDyn, Codec.ctyF32]

theorem Codec.yield (a0 : Hdr) : Codec.Statement (.yield a0) := by
  intro r e
  cases e
  simp [fromRaw, fromRawControl, Raw.hdr, Raw.shaped, Raw.isI, Raw.fx, Raw.fb, raw64, rawI, rawX, raw128, rawB, rawM, rawS, rawSX, Pop.qop, Pop.qid, Raw.pop, Raw.srcB, Raw.src3, Raw.srcX, Raw.addr, Raw.stAddr, Raw.off128, Raw.is128, Raw.f, intFn, fpFn, Raw.id6, Raw.ity, Raw.bty, Raw.t32, Raw.fty, Raw.hty, Raw.rm, Codec.bit, Codec.bit16, Codec.rmDyn, Codec.ctyF32]

theorem Codec.iadd (a0 : Hdr) (a1 : ITy) (a2 : Bool) (a3 : Reg) (a4 : Reg) (a5 : SrcB) : Codec.Statement (.iadd a0 a1 a2 a3 a4 a5) := by
  have h0 := a1.code_le
  intro r e
  cases a2 <;> cases a5 <;> cases e <;>
    simp [fromRaw, fromRawInteger, Raw.hdr, Raw.shaped, Raw.isI, Raw.fx, Raw.fb, raw64, rawI, rawX, raw128, rawB, rawM, rawS, rawSX, Pop.qop, Pop.qid, Raw.pop, Raw.srcB, Raw.src3, Raw.srcX, Raw.addr, Raw.stAddr, Raw.off128, Raw.is128, Raw.f, intFn, fpFn, Raw.id6, Raw.ity, Raw.bty, Raw.t32, Raw.fty, Raw.hty, Raw.rm, Codec.bit, Codec.bit16, Codec.rmDyn, Codec.ctyF32] <;>
    (repeat' apply And.intro) <;> first | omega | (apply ITy.ofCode_of; omega) | (apply BitVec.eq_of_toNat_eq; simp; omega)

theorem Codec.isum (a0 : Hdr) (a1 : ITy) (a2 : Reg) (a3 : Src3) : Codec.Statement (.isum a0 a1 a2 a3) := by
  have h0 := a1.code_le
  intro r e
  obtain ⟨x3, y3, z3, _ | _ | _ | _⟩ := a3 <;> cases e <;>
    simp [fromRaw, fromRawInteger, Raw.hdr, Raw.shaped, Raw.isI, Raw.fx, Raw.fb, raw64, rawI, rawX, raw128, rawB, rawM, rawS, rawSX, Pop.qop, Pop.qid, Raw.pop, Raw.srcB, Raw.src3, Raw.srcX, Raw.addr, Raw.stAddr, Raw.off128, Raw.is128, Raw.f, intFn, fpFn, Raw.id6, Raw.ity, Raw.bty, Raw.t32, Raw.fty, Raw.hty, Raw.rm, Codec.bit, Codec.bit16, Codec.rmDyn, Codec.ctyF32] <;>
    (repeat' apply And.intro) <;> first | omega | (apply ITy.ofCode_of; omega) | (apply BitVec.eq_of_toNat_eq; simp; omega)

theorem Codec.isub (a0 : Hdr) (a1 : ITy) (a2 : Bool) (a3 : Reg) (a4 : Reg) (a5 : SrcB) : Codec.Statement (.isub a0 a1 a2 a3 a4 a5) := by
  have h0 := a1.code_le
  intro r e
  cases a2 <;> cases a5 <;> cases e <;>
    simp [fromRaw, fromRawInteger, Raw.hdr, Raw.shaped, Raw.isI, Raw.fx, Raw.fb, raw64, rawI, rawX, raw128, rawB, rawM, rawS, rawSX, Pop.qop, Pop.qid, Raw.pop, Raw.srcB, Raw.src3, Raw.srcX, Raw.addr, Raw.stAddr, Raw.off128, Raw.is128, Raw.f, intFn, fpFn, Raw.id6, Raw.ity, Raw.bty, Raw.t32, Raw.fty, Raw.hty, Raw.rm, Codec.bit, Codec.bit16, Codec.rmDyn, Codec.ctyF32] <;>
    (repeat' apply And.intro) <;> first | omega | (apply ITy.ofCode_of; omega) | (apply BitVec.eq_of_toNat_eq; simp; omega)

theorem Codec.imul (a0 : Hdr) (a1 : ITy) (a2 : Reg) (a3 : Reg) (a4 : SrcB) : Codec.Statement (.imul a0 a1 a2 a3 a4) := by
  have h0 := a1.code_le
  intro r e
  cases a4 <;> cases e <;>
    simp [fromRaw, fromRawInteger, Raw.hdr, Raw.shaped, Raw.isI, Raw.fx, Raw.fb, raw64, rawI, rawX, raw128, rawB, rawM, rawS, rawSX, Pop.qop, Pop.qid, Raw.pop, Raw.srcB, Raw.src3, Raw.srcX, Raw.addr, Raw.stAddr, Raw.off128, Raw.is128, Raw.f, intFn, fpFn, Raw.id6, Raw.ity, Raw.bty, Raw.t32, Raw.fty, Raw.hty, Raw.rm, Codec.bit, Codec.bit16, Codec.rmDyn, Codec.ctyF32] <;>
    (repeat' apply And.intro) <;> first | omega | (apply ITy.ofCode_of; omega) | (apply BitVec.eq_of_toNat_eq; simp; omega)

theorem Codec.imulhi (a0 : Hdr) (a1 : ITy) (a2 : Reg) (a3 : Reg) (a4 : SrcB) : Codec.Statement (.imulhi a0 a1 a2 a3 a4) := by
  have h0 := a1.code_le
  intro r e
  cases a4 <;> cases e <;>
    simp [fromRaw, fromRawInteger, Raw.hdr, Raw.shaped, Raw.isI, Raw.fx, Raw.fb, raw64, rawI, rawX, raw128, rawB, rawM, rawS, rawSX, Pop.qop, Pop.qid, Raw.pop, Raw.srcB, Raw.src3, Raw.srcX, Raw.addr, Raw.stAddr, Raw.off128, Raw.is128, Raw.f, intFn, fpFn, Raw.id6, Raw.ity, Raw.bty, Raw.t32, Raw.fty, Raw.hty, Raw.rm, Codec.bit, Codec.bit16, Codec.rmDyn, Codec.ctyF32] <;>
    (repeat' apply And.intro) <;> first | omega | (apply ITy.ofCode_of; omega) | (apply BitVec.eq_of_toNat_eq; simp; omega)

theorem Codec.imad (a0 : Hdr) (a1 : ITy) (a2 : Bool) (a3 : Reg) (a4 : Src3) : Codec.Statement (.imad a0 a1 a2 a3 a4) := by
  have h0 := a1.code_le
  intro r e
  cases a2 <;> obtain ⟨x4, y4, z4, _ | _ | _ | _⟩ := a4 <;> cases e <;>
    simp [fromRaw, fromRawInteger, Raw.hdr, Raw.shaped, Raw.isI, Raw.fx, Raw.fb, raw64, rawI, rawX, raw128, rawB, rawM, rawS, rawSX, Pop.qop, Pop.qid, Raw.pop, Raw.srcB, Raw.src3, Raw.srcX, Raw.addr, Raw.stAddr, Raw.off128, Raw.is128, Raw.f, intFn, fpFn, Raw.id6, Raw.ity, Raw.bty, Raw.t32, Raw.fty, Raw.hty, Raw.rm, Codec.bit, Codec.bit16, Codec.rmDyn, Codec.ctyF32] <;>
    (repeat' apply And.intro) <;> first | omega | (apply ITy.ofCode_of; omega) | (apply BitVec.eq_of_toNat_eq; simp; omega)

theorem Codec.imadw (a0 : Hdr) (a1 : T32) (a2 : Reg) (a3 : Src3) : Codec.Statement (.imadw a0 a1 a2 a3) := by
  have h0 := a1.code_le
  intro r e
  obtain ⟨x3, y3, z3, _ | _ | _ | _⟩ := a3 <;> cases e <;>
    simp [fromRaw, fromRawInteger, Raw.hdr, Raw.shaped, Raw.isI, Raw.fx, Raw.fb, raw64, rawI, rawX, raw128, rawB, rawM, rawS, rawSX, Pop.qop, Pop.qid, Raw.pop, Raw.srcB, Raw.src3, Raw.srcX, Raw.addr, Raw.stAddr, Raw.off128, Raw.is128, Raw.f, intFn, fpFn, Raw.id6, Raw.ity, Raw.bty, Raw.t32, Raw.fty, Raw.hty, Raw.rm, Codec.bit, Codec.bit16, Codec.rmDyn, Codec.ctyF32] <;>
    (repeat' apply And.intro) <;> first | omega | (apply T32.ofCode_of; omega) | (apply BitVec.eq_of_toNat_eq; simp; omega)

theorem Codec.imin (a0 : Hdr) (a1 : ITy) (a2 : Reg) (a3 : Reg) (a4 : SrcB) : Codec.Statement (.imin a0 a1 a2 a3 a4) := by
  have h0 := a1.code_le
  intro r e
  cases a4 <;> cases e <;>
    simp [fromRaw, fromRawInteger, Raw.hdr, Raw.shaped, Raw.isI, Raw.fx, Raw.fb, raw64, rawI, rawX, raw128, rawB, rawM, rawS, rawSX, Pop.qop, Pop.qid, Raw.pop, Raw.srcB, Raw.src3, Raw.srcX, Raw.addr, Raw.stAddr, Raw.off128, Raw.is128, Raw.f, intFn, fpFn, Raw.id6, Raw.ity, Raw.bty, Raw.t32, Raw.fty, Raw.hty, Raw.rm, Codec.bit, Codec.bit16, Codec.rmDyn, Codec.ctyF32] <;>
    (repeat' apply And.intro) <;> first | omega | (apply ITy.ofCode_of; omega) | (apply BitVec.eq_of_toNat_eq; simp; omega)

theorem Codec.imax (a0 : Hdr) (a1 : ITy) (a2 : Reg) (a3 : Reg) (a4 : SrcB) : Codec.Statement (.imax a0 a1 a2 a3 a4) := by
  have h0 := a1.code_le
  intro r e
  cases a4 <;> cases e <;>
    simp [fromRaw, fromRawInteger, Raw.hdr, Raw.shaped, Raw.isI, Raw.fx, Raw.fb, raw64, rawI, rawX, raw128, rawB, rawM, rawS, rawSX, Pop.qop, Pop.qid, Raw.pop, Raw.srcB, Raw.src3, Raw.srcX, Raw.addr, Raw.stAddr, Raw.off128, Raw.is128, Raw.f, intFn, fpFn, Raw.id6, Raw.ity, Raw.bty, Raw.t32, Raw.fty, Raw.hty, Raw.rm, Codec.bit, Codec.bit16, Codec.rmDyn, Codec.ctyF32] <;>
    (repeat' apply And.intro) <;> first | omega | (apply ITy.ofCode_of; omega) | (apply BitVec.eq_of_toNat_eq; simp; omega)

theorem Codec.iabs (a0 : Hdr) (a1 : Bool) (a2 : Bool) (a3 : Reg) (a4 : Reg) : Codec.Statement (.iabs a0 a1 a2 a3 a4) := by
  intro r e
  cases a1 <;> cases a2 <;> cases e <;>
    simp [fromRaw, fromRawInteger, Raw.hdr, Raw.shaped, Raw.isI, Raw.fx, Raw.fb, raw64, rawI, rawX, raw128, rawB, rawM, rawS, rawSX, Pop.qop, Pop.qid, Raw.pop, Raw.srcB, Raw.src3, Raw.srcX, Raw.addr, Raw.stAddr, Raw.off128, Raw.is128, Raw.f, intFn, fpFn, Raw.id6, Raw.ity, Raw.bty, Raw.t32, Raw.fty, Raw.hty, Raw.rm, Codec.bit, Codec.bit16, Codec.rmDyn, Codec.ctyF32]

theorem Codec.isad (a0 : Hdr) (a1 : ITy) (a2 : Reg) (a3 : Src3) : Codec.Statement (.isad a0 a1 a2 a3) := by
  have h0 := a1.code_le
  intro r e
  obtain ⟨x3, y3, z3, _ | _ | _ | _⟩ := a3 <;> cases e <;>
    simp [fromRaw, fromRawInteger, Raw.hdr, Raw.shaped, Raw.isI, Raw.fx, Raw.fb, raw64, rawI, rawX, raw128, rawB, rawM, rawS, rawSX, Pop.qop, Pop.qid, Raw.pop, Raw.srcB, Raw.src3, Raw.srcX, Raw.addr, Raw.stAddr, Raw.off128, Raw.is128, Raw.f, intFn, fpFn, Raw.id6, Raw.ity, Raw.bty, Raw.t32, Raw.fty, Raw.hty, Raw.rm, Codec.bit, Codec.bit16, Codec.rmDyn, Codec.ctyF32] <;>
    (repeat' apply And.intro) <;> first | omega | (apply ITy.ofCode_of; omega) | (apply BitVec.eq_of_toNat_eq; simp; omega)

theorem Codec.shl (a0 : Hdr) (a1 : ITy) (a2 : Reg) (a3 : Reg) (a4 : SrcB) : Codec.Statement (.shl a0 a1 a2 a3 a4) := by
  have h0 := a1.code_le
  intro r e
  cases a4 <;> cases e <;>
    simp [fromRaw, fromRawInteger, Raw.hdr, Raw.shaped, Raw.isI, Raw.fx, Raw.fb, raw64, rawI, rawX, raw128, rawB, rawM, rawS, rawSX, Pop.qop, Pop.qid, Raw.pop, Raw.srcB, Raw.src3, Raw.srcX, Raw.addr, Raw.stAddr, Raw.off128, Raw.is128, Raw.f, intFn, fpFn, Raw.id6, Raw.ity, Raw.bty, Raw.t32, Raw.fty, Raw.hty, Raw.rm, Codec.bit, Codec.bit16, Codec.rmDyn, Codec.ctyF32] <;>
    (repeat' apply And.intro) <;> first | omega | (apply ITy.ofCode_of; omega) | (apply BitVec.eq_of_toNat_eq; simp; omega)

theorem Codec.shr (a0 : Hdr) (a1 : ITy) (a2 : Reg) (a3 : Reg) (a4 : SrcB) : Codec.Statement (.shr a0 a1 a2 a3 a4) := by
  have h0 := a1.code_le
  intro r e
  cases a4 <;> cases e <;>
    simp [fromRaw, fromRawInteger, Raw.hdr, Raw.shaped, Raw.isI, Raw.fx, Raw.fb, raw64, rawI, rawX, raw128, rawB, rawM, rawS, rawSX, Pop.qop, Pop.qid, Raw.pop, Raw.srcB, Raw.src3, Raw.srcX, Raw.addr, Raw.stAddr, Raw.off128, Raw.is128, Raw.f, intFn, fpFn, Raw.id6, Raw.ity, Raw.bty, Raw.t32, Raw.fty, Raw.hty, Raw.rm, Codec.bit, Codec.bit16, Codec.rmDyn, Codec.ctyF32] <;>
    (repeat' apply And.intro) <;> first | omega | (apply ITy.ofCode_of; omega) | (apply BitVec.eq_of_toNat_eq; simp; omega)

theorem Codec.sar (a0 : Hdr) (a1 : ITy) (a2 : Reg) (a3 : Reg) (a4 : SrcB) : Codec.Statement (.sar a0 a1 a2 a3 a4) := by
  have h0 := a1.code_le
  intro r e
  cases a4 <;> cases e <;>
    simp [fromRaw, fromRawInteger, Raw.hdr, Raw.shaped, Raw.isI, Raw.fx, Raw.fb, raw64, rawI, rawX, raw128, rawB, rawM, rawS, rawSX, Pop.qop, Pop.qid, Raw.pop, Raw.srcB, Raw.src3, Raw.srcX, Raw.addr, Raw.stAddr, Raw.off128, Raw.is128, Raw.f, intFn, fpFn, Raw.id6, Raw.ity, Raw.bty, Raw.t32, Raw.fty, Raw.hty, Raw.rm, Codec.bit, Codec.bit16, Codec.rmDyn, Codec.ctyF32] <;>
    (repeat' apply And.intro) <;> first | omega | (apply ITy.ofCode_of; omega) | (apply BitVec.eq_of_toNat_eq; simp; omega)

theorem Codec.rotL (a0 : Hdr) (a1 : ITy) (a2 : Reg) (a3 : Reg) (a4 : SrcB) : Codec.Statement (.rotL a0 a1 a2 a3 a4) := by
  intro r e
  cases a1 <;> cases a4 <;> cases e <;>
    simp [fromRaw, fromRawInteger, Raw.hdr, Raw.shaped, Raw.isI, Raw.fx, Raw.fb, raw64, rawI, rawX, raw128, rawB, rawM, rawS, rawSX, Pop.qop, Pop.qid, Raw.pop, Raw.srcB, Raw.src3, Raw.srcX, Raw.addr, Raw.stAddr, Raw.off128, Raw.is128, Raw.f, intFn, fpFn, Raw.id6, Raw.ity, Raw.bty, Raw.t32, Raw.fty, Raw.hty, Raw.rm, Codec.bit, Codec.bit16, Codec.rmDyn, Codec.ctyF32, ITy.code, ITy.ofCode]

theorem Codec.rotR (a0 : Hdr) (a1 : ITy) (a2 : Reg) (a3 : Reg) (a4 : SrcB) : Codec.Statement (.rotR a0 a1 a2 a3 a4) := by
  intro r e
  cases a1 <;> cases a4 <;> cases e <;>
    simp [fromRaw, fromRawInteger, Raw.hdr, Raw.shaped, Raw.isI, Raw.fx, Raw.fb, raw64, rawI, rawX, raw128, rawB, rawM, rawS, rawSX, Pop.qop, Pop.qid, Raw.pop, Raw.srcB, Raw.src3, Raw.srcX, Raw.addr, Raw.stAddr, Raw.off128, Raw.is128, Raw.f, intFn, fpFn, Raw.id6, Raw.ity, Raw.bty, Raw.t32, Raw.fty, Raw.hty, Raw.rm, Codec.bit, Codec.bit16, Codec.rmDyn, Codec.ctyF32, ITy.code, ITy.ofCode]

theorem Codec.funl (a0 : Hdr) (a1 : Reg) (a2 : SrcX) : Codec.Statement (.funl a0 a1 a2) := by
  intro r e
  rcases a2 with ⟨x, y, z, _ | _ | _ | _⟩ | ⟨x, y, _ | _ | _ | _, v⟩ <;> cases e <;>
    simp [fromRaw, fromRawInteger, Raw.hdr, Raw.shaped, Raw.isI, Raw.fx, Raw.fb, raw64, rawI, rawX, raw128, rawB, rawM, rawS, rawSX, Pop.qop, Pop.qid, Raw.pop, Raw.srcB, Raw.src3, Raw.srcX, Raw.addr, Raw.stAddr, Raw.off128, Raw.is128, Raw.f, intFn, fpFn, Raw.id6, Raw.ity, Raw.bty, Raw.t32, Raw.fty, Raw.hty, Raw.rm, Codec.bit, Codec.bit16, Codec.rmDyn, Codec.ctyF32]

theorem Codec.and (a0 : Hdr) (a1 : BTy) (a2 : Reg) (a3 : Reg) (a4 : SrcB) : Codec.Statement (.and a0 a1 a2 a3 a4) := by
  have h0 := a1.code_le
  intro r e
  cases a4 <;> cases e <;>
    simp [fromRaw, fromRawInteger, Raw.hdr, Raw.shaped, Raw.isI, Raw.fx, Raw.fb, raw64, rawI, rawX, raw128, rawB, rawM, rawS, rawSX, Pop.qop, Pop.qid, Raw.pop, Raw.srcB, Raw.src3, Raw.srcX, Raw.addr, Raw.stAddr, Raw.off128, Raw.is128, Raw.f, intFn, fpFn, Raw.id6, Raw.ity, Raw.bty, Raw.t32, Raw.fty, Raw.hty, Raw.rm, Codec.bit, Codec.bit16, Codec.rmDyn, Codec.ctyF32] <;>
    (repeat' apply And.intro) <;> first | omega | (apply BTy.ofCode_of; omega) | (apply BitVec.eq_of_toNat_eq; simp; omega)

theorem Codec.or (a0 : Hdr) (a1 : BTy) (a2 : Reg) (a3 : Reg) (a4 : SrcB) : Codec.Statement (.or a0 a1 a2 a3 a4) := by
  have h0 := a1.code_le
  intro r e
  cases a4 <;> cases e <;>
    simp [fromRaw, fromRawInteger, Raw.hdr, Raw.shaped, Raw.isI, Raw.fx, Raw.fb, raw64, rawI, rawX, raw128, rawB, rawM, rawS, rawSX, Pop.qop, Pop.qid, Raw.pop, Raw.srcB, Raw.src3, Raw.srcX, Raw.addr, Raw.stAddr, Raw.off128, Raw.is128, Raw.f, intFn, fpFn, Raw.id6, Raw.ity, Raw.bty, Raw.t32, Raw.fty, Raw.hty, Raw.rm, Codec.bit, Codec.bit16, Codec.rmDyn, Codec.ctyF32] <;>
    (repeat' apply And.intro) <;> first | omega | (apply BTy.ofCode_of; omega) | (apply BitVec.eq_of_toNat_eq; simp; omega)

theorem Codec.xor (a0 : Hdr) (a1 : BTy) (a2 : Reg) (a3 : Reg) (a4 : SrcB) : Codec.Statement (.xor a0 a1 a2 a3 a4) := by
  have h0 := a1.code_le
  intro r e
  cases a4 <;> cases e <;>
    simp [fromRaw, fromRawInteger, Raw.hdr, Raw.shaped, Raw.isI, Raw.fx, Raw.fb, raw64, rawI, rawX, raw128, rawB, rawM, rawS, rawSX, Pop.qop, Pop.qid, Raw.pop, Raw.srcB, Raw.src3, Raw.srcX, Raw.addr, Raw.stAddr, Raw.off128, Raw.is128, Raw.f, intFn, fpFn, Raw.id6, Raw.ity, Raw.bty, Raw.t32, Raw.fty, Raw.hty, Raw.rm, Codec.bit, Codec.bit16, Codec.rmDyn, Codec.ctyF32] <;>
    (repeat' apply And.intro) <;> first | omega | (apply BTy.ofCode_of; omega) | (apply BitVec.eq_of_toNat_eq; simp; omega)

theorem Codec.not (a0 : Hdr) (a1 : BTy) (a2 : Reg) (a3 : Reg) : Codec.Statement (.not a0 a1 a2 a3) := by
  have h0 := a1.code_le
  intro r e
  cases e
  simp [fromRaw, fromRawInteger, Raw.hdr, Raw.shaped, Raw.isI, Raw.fx, Raw.fb, raw64, rawI, rawX, raw128, rawB, rawM, rawS, rawSX, Pop.qop, Pop.qid, Raw.pop, Raw.srcB, Raw.src3, Raw.srcX, Raw.addr, Raw.stAddr, Raw.off128, Raw.is128, Raw.f, intFn, fpFn, Raw.id6, Raw.ity, Raw.bty, Raw.t32, Raw.fty, Raw.hty, Raw.rm, Codec.bit, Codec.bit16, Codec.rmDyn, Codec.ctyF32] <;>
    (repeat' apply And.intro) <;> first | omega | (apply BTy.ofCode_of; omega) | (apply BitVec.eq_of_toNat_eq; simp; omega)

theorem Codec.tern (a0 : Hdr) (a1 : BTy) (a2 : Reg) (a3 : Src3) (a4 : BitVec 8) : Codec.Statement (.tern a0 a1 a2 a3 a4) := by
  have h0 := a1.code_le
  have h1 := a4.isLt
  simp only [Nat.reducePow] at *
  intro r e
  obtain ⟨x3, y3, z3, _ | _ | _ | _⟩ := a3 <;> cases e <;>
    simp [fromRaw, fromRawInteger, Raw.hdr, Raw.shaped, Raw.isI, Raw.fx, Raw.fb, raw64, rawI, rawX, raw128, rawB, rawM, rawS, rawSX, Pop.qop, Pop.qid, Raw.pop, Raw.srcB, Raw.src3, Raw.srcX, Raw.addr, Raw.stAddr, Raw.off128, Raw.is128, Raw.f, intFn, fpFn, Raw.id6, Raw.ity, Raw.bty, Raw.t32, Raw.fty, Raw.hty, Raw.rm, Codec.bit, Codec.bit16, Codec.rmDyn, Codec.ctyF32, cvtFn2, Raw.f2] <;>
    (repeat' apply And.intro) <;> first | omega | (apply BTy.ofCode_of; omega) | (apply BitVec.eq_of_toNat_eq; simp; omega)

theorem Codec.popc (a0 : Hdr) (a1 : BTy) (a2 : Reg) (a3 : Reg) : Codec.Statement (.popc a0 a1 a2 a3) := by
  have h0 := a1.code_le
  intro r e
  cases e
  simp [fromRaw, fromRawInteger, Raw.hdr, Raw.shaped, Raw.isI, Raw.fx, Raw.fb, raw64, rawI, rawX, raw128, rawB, rawM, rawS, rawSX, Pop.qop, Pop.qid, Raw.pop, Raw.srcB, Raw.src3, Raw.srcX, Raw.addr, Raw.stAddr, Raw.off128, Raw.is128, Raw.f, intFn, fpFn, Raw.id6, Raw.ity, Raw.bty, Raw.t32, Raw.fty, Raw.hty, Raw.rm, Codec.bit, Codec.bit16, Codec.rmDyn, Codec.ctyF32] <;>
    (repeat' apply And.intro) <;> first | omega | (apply BTy.ofCode_of; omega) | (apply BitVec.eq_of_toNat_eq; simp; omega)

theorem Codec.clz (a0 : Hdr) (a1 : BTy) (a2 : Reg) (a3 : Reg) : Codec.Statement (.clz a0 a1 a2 a3) := by
  have h0 := a1.code_le
  intro r e
  cases e
  simp [fromRaw, fromRawInteger, Raw.hdr, Raw.shaped, Raw.isI, Raw.fx, Raw.fb, raw64, rawI, rawX, raw128, rawB, rawM, rawS, rawSX, Pop.qop, Pop.qid, Raw.pop, Raw.srcB, Raw.src3, Raw.srcX, Raw.addr, Raw.stAddr, Raw.off128, Raw.is128, Raw.f, intFn, fpFn, Raw.id6, Raw.ity, Raw.bty, Raw.t32, Raw.fty, Raw.hty, Raw.rm, Codec.bit, Codec.bit16, Codec.rmDyn, Codec.ctyF32] <;>
    (repeat' apply And.intro) <;> first | omega | (apply BTy.ofCode_of; omega) | (apply BitVec.eq_of_toNat_eq; simp; omega)

theorem Codec.ctz (a0 : Hdr) (a1 : BTy) (a2 : Reg) (a3 : Reg) : Codec.Statement (.ctz a0 a1 a2 a3) := by
  have h0 := a1.code_le
  intro r e
  cases e
  simp [fromRaw, fromRawInteger, Raw.hdr, Raw.shaped, Raw.isI, Raw.fx, Raw.fb, raw64, rawI, rawX, raw128, rawB, rawM, rawS, rawSX, Pop.qop, Pop.qid, Raw.pop, Raw.srcB, Raw.src3, Raw.srcX, Raw.addr, Raw.stAddr, Raw.off128, Raw.is128, Raw.f, intFn, fpFn, Raw.id6, Raw.ity, Raw.bty, Raw.t32, Raw.fty, Raw.hty, Raw.rm, Codec.bit, Codec.bit16, Codec.rmDyn, Codec.ctyF32] <;>
    (repeat' apply And.intro) <;> first | omega | (apply BTy.ofCode_of; omega) | (apply BitVec.eq_of_toNat_eq; simp; omega)

theorem Codec.brev (a0 : Hdr) (a1 : BTy) (a2 : Reg) (a3 : Reg) : Codec.Statement (.brev a0 a1 a2 a3) := by
  have h0 := a1.code_le
  intro r e
  cases e
  simp [fromRaw, fromRawInteger, Raw.hdr, Raw.shaped, Raw.isI, Raw.fx, Raw.fb, raw64, rawI, rawX, raw128, rawB, rawM, rawS, rawSX, Pop.qop, Pop.qid, Raw.pop, Raw.srcB, Raw.src3, Raw.srcX, Raw.addr, Raw.stAddr, Raw.off128, Raw.is128, Raw.f, intFn, fpFn, Raw.id6, Raw.ity, Raw.bty, Raw.t32, Raw.fty, Raw.hty, Raw.rm, Codec.bit, Codec.bit16, Codec.rmDyn, Codec.ctyF32] <;>
    (repeat' apply And.intro) <;> first | omega | (apply BTy.ofCode_of; omega) | (apply BitVec.eq_of_toNat_eq; simp; omega)

theorem Codec.bfe (a0 : Hdr) (a1 : ITy) (a2 : Reg) (a3 : Reg) (a4 : SrcB) : Codec.Statement (.bfe a0 a1 a2 a3 a4) := by
  have h0 := a1.code_le
  intro r e
  cases a4 <;> cases e <;>
    simp [fromRaw, fromRawInteger, Raw.hdr, Raw.shaped, Raw.isI, Raw.fx, Raw.fb, raw64, rawI, rawX, raw128, rawB, rawM, rawS, rawSX, Pop.qop, Pop.qid, Raw.pop, Raw.srcB, Raw.src3, Raw.srcX, Raw.addr, Raw.stAddr, Raw.off128, Raw.is128, Raw.f, intFn, fpFn, Raw.id6, Raw.ity, Raw.bty, Raw.t32, Raw.fty, Raw.hty, Raw.rm, Codec.bit, Codec.bit16, Codec.rmDyn, Codec.ctyF32] <;>
    (repeat' apply And.intro) <;> first | omega | (apply ITy.ofCode_of; omega) | (apply BitVec.eq_of_toNat_eq; simp; omega)

theorem Codec.bfi (a0 : Hdr) (a1 : BTy) (a2 : Reg) (a3 : SrcX) : Codec.Statement (.bfi a0 a1 a2 a3) := by
  have h0 := a1.code_le
  intro r e
  rcases a3 with ⟨x, y, z, _ | _ | _ | _⟩ | ⟨x, y, _ | _ | _ | _, v⟩ <;> cases e <;>
    simp [fromRaw, fromRawInteger, Raw.hdr, Raw.shaped, Raw.isI, Raw.fx, Raw.fb, raw64, rawI, rawX, raw128, rawB, rawM, rawS, rawSX, Pop.qop, Pop.qid, Raw.pop, Raw.srcB, Raw.src3, Raw.srcX, Raw.addr, Raw.stAddr, Raw.off128, Raw.is128, Raw.f, intFn, fpFn, Raw.id6, Raw.ity, Raw.bty, Raw.t32, Raw.fty, Raw.hty, Raw.rm, Codec.bit, Codec.bit16, Codec.rmDyn, Codec.ctyF32] <;>
    (repeat' apply And.intro) <;> first | omega | (apply BTy.ofCode_of; omega) | (apply BitVec.eq_of_toNat_eq; simp; omega)

theorem Codec.bsel (a0 : Hdr) (a1 : Reg) (a2 : SrcX) : Codec.Statement (.bsel a0 a1 a2) := by
  intro r e
  rcases a2 with ⟨x, y, z, _ | _ | _ | _⟩ | ⟨x, y, _ | _ | _ | _, v⟩ <;> cases e <;>
    simp [fromRaw, fromRawInteger, Raw.hdr, Raw.shaped, Raw.isI, Raw.fx, Raw.fb, raw64, rawI, rawX, raw128, rawB, rawM, rawS, rawSX, Pop.qop, Pop.qid, Raw.pop, Raw.srcB, Raw.src3, Raw.srcX, Raw.addr, Raw.stAddr, Raw.off128, Raw.is128, Raw.f, intFn, fpFn, Raw.id6, Raw.ity, Raw.bty, Raw.t32, Raw.fty, Raw.hty, Raw.rm, Codec.bit, Codec.bit16, Codec.rmDyn, Codec.ctyF32]

theorem Codec.icmp (a0 : Hdr) (a1 : ICond) (a2 : ITy) (a3 : Reg) (a4 : Reg) (a5 : SrcB) : Codec.Statement (.icmp a0 a1 a2 a3 a4 a5) := by
  have h0 := a1.code_le
  have h1 := a2.code_le
  intro r e
  cases a5 <;> cases e <;>
    simp [fromRaw, fromRawInteger, Raw.hdr, Raw.shaped, Raw.isI, Raw.fx, Raw.fb, raw64, rawI, rawX, raw128, rawB, rawM, rawS, rawSX, Pop.qop, Pop.qid, Raw.pop, Raw.srcB, Raw.src3, Raw.srcX, Raw.addr, Raw.stAddr, Raw.off128, Raw.is128, Raw.f, intFn, fpFn, Raw.id6, Raw.ity, Raw.bty, Raw.t32, Raw.fty, Raw.hty, Raw.rm, Codec.bit, Codec.bit16, Codec.rmDyn, Codec.ctyF32] <;>
    (repeat' apply And.intro) <;> first | omega | (apply ICond.ofCode_of; omega) | (apply ITy.ofCode_of; omega) | (apply BitVec.eq_of_toNat_eq; simp; omega)

theorem Codec.iset (a0 : Hdr) (a1 : ICond) (a2 : ITy) (a3 : Reg) (a4 : Reg) (a5 : SrcB) : Codec.Statement (.iset a0 a1 a2 a3 a4 a5) := by
  have h0 := a1.code_le
  have h1 := a2.code_le
  intro r e
  cases a5 <;> cases e <;>
    simp [fromRaw, fromRawInteger, Raw.hdr, Raw.shaped, Raw.isI, Raw.fx, Raw.fb, raw64, rawI, rawX, raw128, rawB, rawM, rawS, rawSX, Pop.qop, Pop.qid, Raw.pop, Raw.srcB, Raw.src3, Raw.srcX, Raw.addr, Raw.stAddr, Raw.off128, Raw.is128, Raw.f, intFn, fpFn, Raw.id6, Raw.ity, Raw.bty, Raw.t32, Raw.fty, Raw.hty, Raw.rm, Codec.bit, Codec.bit16, Codec.rmDyn, Codec.ctyF32] <;>
    (repeat' apply And.intro) <;> first | omega | (apply ICond.ofCode_of; omega) | (apply ITy.ofCode_of; omega) | (apply BitVec.eq_of_toNat_eq; simp; omega)

theorem Codec.sel (a0 : Hdr) (a1 : BTy) (a2 : Reg) (a3 : Src3) : Codec.Statement (.sel a0 a1 a2 a3) := by
  have h0 := a1.code_le
  intro r e
  obtain ⟨x3, y3, z3, _ | _ | _ | _⟩ := a3 <;> cases e <;>
    simp [fromRaw, fromRawInteger, Raw.hdr, Raw.shaped, Raw.isI, Raw.fx, Raw.fb, raw64, rawI, rawX, raw128, rawB, rawM, rawS, rawSX, Pop.qop, Pop.qid, Raw.pop, Raw.srcB, Raw.src3, Raw.srcX, Raw.addr, Raw.stAddr, Raw.off128, Raw.is128, Raw.f, intFn, fpFn, Raw.id6, Raw.ity, Raw.bty, Raw.t32, Raw.fty, Raw.hty, Raw.rm, Codec.bit, Codec.bit16, Codec.rmDyn, Codec.ctyF32] <;>
    (repeat' apply And.intro) <;> first | omega | (apply BTy.ofCode_of; omega) | (apply BitVec.eq_of_toNat_eq; simp; omega)

theorem Codec.plop (a0 : Hdr) (a1 : Reg) (a2 : Reg) (a3 : Reg) (a4 : Reg) (a5 : BitVec 8) : Codec.Statement (.plop a0 a1 a2 a3 a4 a5) := by
  have h0 := a5.isLt
  simp only [Nat.reducePow] at *
  intro r e
  cases e
  simp [fromRaw, fromRawInteger, Raw.hdr, Raw.shaped, Raw.isI, Raw.fx, Raw.fb, raw64, rawI, rawX, raw128, rawB, rawM, rawS, rawSX, Pop.qop, Pop.qid, Raw.pop, Raw.srcB, Raw.src3, Raw.srcX, Raw.addr, Raw.stAddr, Raw.off128, Raw.is128, Raw.f, intFn, fpFn, Raw.id6, Raw.ity, Raw.bty, Raw.t32, Raw.fty, Raw.hty, Raw.rm, Codec.bit, Codec.bit16, Codec.rmDyn, Codec.ctyF32, cvtFn2, Raw.f2] <;>
    (repeat' apply And.intro) <;> first | omega | (apply BitVec.eq_of_toNat_eq; simp; omega)

theorem Codec.pmovPack (a0 : Hdr) (a1 : Reg) (a2 : Reg) : Codec.Statement (.pmovPack a0 a1 a2) := by
  intro r e
  cases e
  simp [fromRaw, fromRawInteger, Raw.hdr, Raw.shaped, Raw.isI, Raw.fx, Raw.fb, raw64, rawI, rawX, raw128, rawB, rawM, rawS, rawSX, Pop.qop, Pop.qid, Raw.pop, Raw.srcB, Raw.src3, Raw.srcX, Raw.addr, Raw.stAddr, Raw.off128, Raw.is128, Raw.f, intFn, fpFn, Raw.id6, Raw.ity, Raw.bty, Raw.t32, Raw.fty, Raw.hty, Raw.rm, Codec.bit, Codec.bit16, Codec.rmDyn, Codec.ctyF32]

theorem Codec.pmovUnpack (a0 : Hdr) (a1 : Reg) (a2 : Reg) : Codec.Statement (.pmovUnpack a0 a1 a2) := by
  intro r e
  cases e
  simp [fromRaw, fromRawInteger, Raw.hdr, Raw.shaped, Raw.isI, Raw.fx, Raw.fb, raw64, rawI, rawX, raw128, rawB, rawM, rawS, rawSX, Pop.qop, Pop.qid, Raw.pop, Raw.srcB, Raw.src3, Raw.srcX, Raw.addr, Raw.stAddr, Raw.off128, Raw.is128, Raw.f, intFn, fpFn, Raw.id6, Raw.ity, Raw.bty, Raw.t32, Raw.fty, Raw.hty, Raw.rm, Codec.bit, Codec.bit16, Codec.rmDyn, Codec.ctyF32]

theorem Codec.pmovCopy (a0 : Hdr) (a1 : Reg) (a2 : Reg) : Codec.Statement (.pmovCopy a0 a1 a2) := by
  intro r e
  cases e
  simp [fromRaw, fromRawInteger, Raw.hdr, Raw.shaped, Raw.isI, Raw.fx, Raw.fb, raw64, rawI, rawX, raw128, rawB, rawM, rawS, rawSX, Pop.qop, Pop.qid, Raw.pop, Raw.srcB, Raw.src3, Raw.srcX, Raw.addr, Raw.stAddr, Raw.off128, Raw.is128, Raw.f, intFn, fpFn, Raw.id6, Raw.ity, Raw.bty, Raw.t32, Raw.fty, Raw.hty, Raw.rm, Codec.bit, Codec.bit16, Codec.rmDyn, Codec.ctyF32]

theorem Codec.pmovNot (a0 : Hdr) (a1 : Reg) (a2 : Reg) : Codec.Statement (.pmovNot a0 a1 a2) := by
  intro r e
  cases e
  simp [fromRaw, fromRawInteger, Raw.hdr, Raw.shaped, Raw.isI, Raw.fx, Raw.fb, raw64, rawI, rawX, raw128, rawB, rawM, rawS, rawSX, Pop.qop, Pop.qid, Raw.pop, Raw.srcB, Raw.src3, Raw.srcX, Raw.addr, Raw.stAddr, Raw.off128, Raw.is128, Raw.f, intFn, fpFn, Raw.id6, Raw.ity, Raw.bty, Raw.t32, Raw.fty, Raw.hty, Raw.rm, Codec.bit, Codec.bit16, Codec.rmDyn, Codec.ctyF32]

theorem Codec.mov (a0 : Hdr) (a1 : Reg) (a2 : Reg) : Codec.Statement (.mov a0 a1 a2) := by
  intro r e
  cases e
  simp [fromRaw, fromRawInteger, Raw.hdr, Raw.shaped, Raw.isI, Raw.fx, Raw.fb, raw64, rawI, rawX, raw128, rawB, rawM, rawS, rawSX, Pop.qop, Pop.qid, Raw.pop, Raw.srcB, Raw.src3, Raw.srcX, Raw.addr, Raw.stAddr, Raw.off128, Raw.is128, Raw.f, intFn, fpFn, Raw.id6, Raw.ity, Raw.bty, Raw.t32, Raw.fty, Raw.hty, Raw.rm, Codec.bit, Codec.bit16, Codec.rmDyn, Codec.ctyF32]

theorem Codec.movPair (a0 : Hdr) (a1 : Reg) (a2 : Reg) : Codec.Statement (.movPair a0 a1 a2) := by
  intro r e
  cases e
  simp [fromRaw, fromRawInteger, Raw.hdr, Raw.shaped, Raw.isI, Raw.fx, Raw.fb, raw64, rawI, rawX, raw128, rawB, rawM, rawS, rawSX, Pop.qop, Pop.qid, Raw.pop, Raw.srcB, Raw.src3, Raw.srcX, Raw.addr, Raw.stAddr, Raw.off128, Raw.is128, Raw.f, intFn, fpFn, Raw.id6, Raw.ity, Raw.bty, Raw.t32, Raw.fty, Raw.hty, Raw.rm, Codec.bit, Codec.bit16, Codec.rmDyn, Codec.ctyF32]

theorem Codec.movi (a0 : Hdr) (a1 : Reg) (a2 : Word) : Codec.Statement (.movi a0 a1 a2) := by
  intro r e
  cases e
  simp [fromRaw, fromRawInteger, Raw.hdr, Raw.shaped, Raw.isI, Raw.fx, Raw.fb, raw64, rawI, rawX, raw128, rawB, rawM, rawS, rawSX, Pop.qop, Pop.qid, Raw.pop, Raw.srcB, Raw.src3, Raw.srcX, Raw.addr, Raw.stAddr, Raw.off128, Raw.is128, Raw.f, intFn, fpFn, Raw.id6, Raw.ity, Raw.bty, Raw.t32, Raw.fty, Raw.hty, Raw.rm, Codec.bit, Codec.bit16, Codec.rmDyn, Codec.ctyF32]

theorem Codec.moviS64 (a0 : Hdr) (a1 : Reg) (a2 : Word) : Codec.Statement (.moviS64 a0 a1 a2) := by
  intro r e
  cases e
  simp [fromRaw, fromRawInteger, Raw.hdr, Raw.shaped, Raw.isI, Raw.fx, Raw.fb, raw64, rawI, rawX, raw128, rawB, rawM, rawS, rawSX, Pop.qop, Pop.qid, Raw.pop, Raw.srcB, Raw.src3, Raw.srcX, Raw.addr, Raw.stAddr, Raw.off128, Raw.is128, Raw.f, intFn, fpFn, Raw.id6, Raw.ity, Raw.bty, Raw.t32, Raw.fty, Raw.hty, Raw.rm, Codec.bit, Codec.bit16, Codec.rmDyn, Codec.ctyF32]

theorem Codec.moviN64 (a0 : Hdr) (a1 : Reg) (a2 : Word) : Codec.Statement (.moviN64 a0 a1 a2) := by
  intro r e
  cases e
  simp [fromRaw, fromRawInteger, Raw.hdr, Raw.shaped, Raw.isI, Raw.fx, Raw.fb, raw64, rawI, rawX, raw128, rawB, rawM, rawS, rawSX, Pop.qop, Pop.qid, Raw.pop, Raw.srcB, Raw.src3, Raw.srcX, Raw.addr, Raw.stAddr, Raw.off128, Raw.is128, Raw.f, intFn, fpFn, Raw.id6, Raw.ity, Raw.bty, Raw.t32, Raw.fty, Raw.hty, Raw.rm, Codec.bit, Codec.bit16, Codec.rmDyn, Codec.ctyF32]

theorem Codec.movw (a0 : Hdr) (a1 : Reg) (a2 : DWord) : Codec.Statement (.movw a0 a1 a2) := by
  intro r e
  cases e
  simp [fromRaw, fromRawInteger, Raw.hdr, Raw.shaped, Raw.isI, Raw.fx, Raw.fb, raw64, rawI, rawX, raw128, rawB, rawM, rawS, rawSX, Pop.qop, Pop.qid, Raw.pop, Raw.srcB, Raw.src3, Raw.srcX, Raw.addr, Raw.stAddr, Raw.off128, Raw.is128, Raw.f, intFn, fpFn, Raw.id6, Raw.ity, Raw.bty, Raw.t32, Raw.fty, Raw.hty, Raw.rm, Codec.bit, Codec.bit16, Codec.rmDyn, Codec.ctyF32]

theorem Codec.lea (a0 : Hdr) (a1 : T32) (a2 : BitVec 3) (a3 : Reg) (a4 : Reg) (a5 : SrcB) : Codec.Statement (.lea a0 a1 a2 a3 a4 a5) := by
  have h0 := a1.code_le
  have h1 := a2.isLt
  simp only [Nat.reducePow] at *
  intro r e
  cases a5 <;> cases e <;>
    simp [fromRaw, fromRawInteger, Raw.hdr, Raw.shaped, Raw.isI, Raw.fx, Raw.fb, raw64, rawI, rawX, raw128, rawB, rawM, rawS, rawSX, Pop.qop, Pop.qid, Raw.pop, Raw.srcB, Raw.src3, Raw.srcX, Raw.addr, Raw.stAddr, Raw.off128, Raw.is128, Raw.f, intFn, fpFn, Raw.id6, Raw.ity, Raw.bty, Raw.t32, Raw.fty, Raw.hty, Raw.rm, Codec.bit, Codec.bit16, Codec.rmDyn, Codec.ctyF32] <;>
    (repeat' apply And.intro) <;> first | omega | (apply T32.ofCode_of; omega) | (apply BitVec.eq_of_toNat_eq; simp; omega)

theorem Codec.leax (a0 : Hdr) (a1 : T32) (a2 : Reg) (a3 : Src3) (a4 : Option Word) : Codec.Statement (.leax a0 a1 a2 a3 a4) := by
  have h0 := a1.code_le
  intro r e
  obtain ⟨x3, y3, z3, _ | _ | _ | _⟩ := a3 <;> cases a4 <;> cases e <;>
    simp [fromRaw, fromRawInteger, Raw.hdr, Raw.shaped, Raw.isI, Raw.fx, Raw.fb, raw64, rawI, rawX, raw128, rawB, rawM, rawS, rawSX, Pop.qop, Pop.qid, Raw.pop, Raw.srcB, Raw.src3, Raw.srcX, Raw.addr, Raw.stAddr, Raw.off128, Raw.is128, Raw.f, intFn, fpFn, Raw.id6, Raw.ity, Raw.bty, Raw.t32, Raw.fty, Raw.hty, Raw.rm, Codec.bit, Codec.bit16, Codec.rmDyn, Codec.ctyF32] <;>
    (repeat' apply And.intro) <;> first | omega | (apply T32.ofCode_of; omega) | (apply BitVec.eq_of_toNat_eq; simp; omega)

theorem Codec.srd (a0 : Hdr) (a1 : SrdDst) (a2 : SReg) : Codec.Statement (.srd a0 a1 a2) := by
  have h0 := a2.code_le
  intro r e
  cases a1 <;> cases e <;>
    simp [fromRaw, fromRawInteger, Raw.hdr, Raw.shaped, Raw.isI, Raw.fx, Raw.fb, raw64, rawI, rawX, raw128, rawB, rawM, rawS, rawSX, Pop.qop, Pop.qid, Raw.pop, Raw.srcB, Raw.src3, Raw.srcX, Raw.addr, Raw.stAddr, Raw.off128, Raw.is128, Raw.f, intFn, fpFn, Raw.id6, Raw.ity, Raw.bty, Raw.t32, Raw.fty, Raw.hty, Raw.rm, Codec.bit, Codec.bit16, Codec.rmDyn, Codec.ctyF32] <;>
    (repeat' apply And.intro) <;> first | omega | (apply SReg.ofCode_of; omega) | (apply BitVec.eq_of_toNat_eq; simp; omega)

theorem Codec.swr (a0 : Hdr) (a1 : SReg) (a2 : SwrSrc) : Codec.Statement (.swr a0 a1 a2) := by
  have h0 := a1.code_le
  intro r e
  cases a2 <;> cases e <;>
    simp [fromRaw, fromRawInteger, Raw.hdr, Raw.shaped, Raw.isI, Raw.fx, Raw.fb, raw64, rawI, rawX, raw128, rawB, rawM, rawS, rawSX, Pop.qop, Pop.qid, Raw.pop, Raw.srcB, Raw.src3, Raw.srcX, Raw.addr, Raw.stAddr, Raw.off128, Raw.is128, Raw.f, intFn, fpFn, Raw.id6, Raw.ity, Raw.bty, Raw.t32, Raw.fty, Raw.hty, Raw.rm, Codec.bit, Codec.bit16, Codec.rmDyn, Codec.ctyF32] <;>
    (repeat' apply And.intro) <;> first | omega | (apply SReg.ofCode_of; omega) | (apply BitVec.eq_of_toNat_eq; simp; omega)

theorem Codec.xlane (a0 : Hdr) (a1 : XMode) (a2 : BitVec 3) (a3 : Reg) (a4 : Reg) (a5 : SrcB) : Codec.Statement (.xlane a0 a1 a2 a3 a4 a5) := by
  have h0 := a1.code_le
  have h1 := a2.isLt
  simp only [Nat.reducePow] at *
  intro r e
  cases a5 <;> cases e <;>
    simp [fromRaw, fromRawWarp, Raw.hdr, Raw.shaped, Raw.isI, Raw.fx, Raw.fb, raw64, rawI, rawX, raw128, rawB, rawM, rawS, rawSX, Pop.qop, Pop.qid, Raw.pop, Raw.srcB, Raw.src3, Raw.srcX, Raw.addr, Raw.stAddr, Raw.off128, Raw.is128, Raw.f, intFn, fpFn, Raw.id6, Raw.ity, Raw.bty, Raw.t32, Raw.fty, Raw.hty, Raw.rm, Codec.bit, Codec.bit16, Codec.rmDyn, Codec.ctyF32] <;>
    (repeat' apply And.intro) <;> first | omega | (apply XMode.ofCode_of; omega) | (apply BitVec.eq_of_toNat_eq; simp; omega)

theorem Codec.pollAll (a0 : Hdr) (a1 : Bool) (a2 : Reg) (a3 : Reg) : Codec.Statement (.pollAll a0 a1 a2 a3) := by
  intro r e
  cases a1 <;> cases e <;>
    simp [fromRaw, fromRawWarp, Raw.hdr, Raw.shaped, Raw.isI, Raw.fx, Raw.fb, raw64, rawI, rawX, raw128, rawB, rawM, rawS, rawSX, Pop.qop, Pop.qid, Raw.pop, Raw.srcB, Raw.src3, Raw.srcX, Raw.addr, Raw.stAddr, Raw.off128, Raw.is128, Raw.f, intFn, fpFn, Raw.id6, Raw.ity, Raw.bty, Raw.t32, Raw.fty, Raw.hty, Raw.rm, Codec.bit, Codec.bit16, Codec.rmDyn, Codec.ctyF32]

theorem Codec.pollAny (a0 : Hdr) (a1 : Bool) (a2 : Reg) (a3 : Reg) : Codec.Statement (.pollAny a0 a1 a2 a3) := by
  intro r e
  cases a1 <;> cases e <;>
    simp [fromRaw, fromRawWarp, Raw.hdr, Raw.shaped, Raw.isI, Raw.fx, Raw.fb, raw64, rawI, rawX, raw128, rawB, rawM, rawS, rawSX, Pop.qop, Pop.qid, Raw.pop, Raw.srcB, Raw.src3, Raw.srcX, Raw.addr, Raw.stAddr, Raw.off128, Raw.is128, Raw.f, intFn, fpFn, Raw.id6, Raw.ity, Raw.bty, Raw.t32, Raw.fty, Raw.hty, Raw.rm, Codec.bit, Codec.bit16, Codec.rmDyn, Codec.ctyF32]

theorem Codec.pollSame (a0 : Hdr) (a1 : Bool) (a2 : Reg) (a3 : Reg) : Codec.Statement (.pollSame a0 a1 a2 a3) := by
  intro r e
  cases a1 <;> cases e <;>
    simp [fromRaw, fromRawWarp, Raw.hdr, Raw.shaped, Raw.isI, Raw.fx, Raw.fb, raw64, rawI, rawX, raw128, rawB, rawM, rawS, rawSX, Pop.qop, Pop.qid, Raw.pop, Raw.srcB, Raw.src3, Raw.srcX, Raw.addr, Raw.stAddr, Raw.off128, Raw.is128, Raw.f, intFn, fpFn, Raw.id6, Raw.ity, Raw.bty, Raw.t32, Raw.fty, Raw.hty, Raw.rm, Codec.bit, Codec.bit16, Codec.rmDyn, Codec.ctyF32]

theorem Codec.qmaskW (a0 : Hdr) (a1 : Bool) (a2 : Reg) (a3 : Reg) : Codec.Statement (.qmaskW a0 a1 a2 a3) := by
  intro r e
  cases a1 <;> cases e <;>
    simp [fromRaw, fromRawWarp, Raw.hdr, Raw.shaped, Raw.isI, Raw.fx, Raw.fb, raw64, rawI, rawX, raw128, rawB, rawM, rawS, rawSX, Pop.qop, Pop.qid, Raw.pop, Raw.srcB, Raw.src3, Raw.srcX, Raw.addr, Raw.stAddr, Raw.off128, Raw.is128, Raw.f, intFn, fpFn, Raw.id6, Raw.ity, Raw.bty, Raw.t32, Raw.fty, Raw.hty, Raw.rm, Codec.bit, Codec.bit16, Codec.rmDyn, Codec.ctyF32]

theorem Codec.qmaskV (a0 : Hdr) (a1 : Bool) (a2 : Reg) (a3 : Reg) : Codec.Statement (.qmaskV a0 a1 a2 a3) := by
  intro r e
  cases a1 <;> cases e <;>
    simp [fromRaw, fromRawWarp, Raw.hdr, Raw.shaped, Raw.isI, Raw.fx, Raw.fb, raw64, rawI, rawX, raw128, rawB, rawM, rawS, rawSX, Pop.qop, Pop.qid, Raw.pop, Raw.srcB, Raw.src3, Raw.srcX, Raw.addr, Raw.stAddr, Raw.off128, Raw.is128, Raw.f, intFn, fpFn, Raw.id6, Raw.ity, Raw.bty, Raw.t32, Raw.fty, Raw.hty, Raw.rm, Codec.bit, Codec.bit16, Codec.rmDyn, Codec.ctyF32]

theorem Codec.peersSet (a0 : Hdr) (a1 : Bool) (a2 : Reg) (a3 : Reg) : Codec.Statement (.peersSet a0 a1 a2 a3) := by
  intro r e
  cases a1 <;> cases e <;>
    simp [fromRaw, fromRawWarp, Raw.hdr, Raw.shaped, Raw.isI, Raw.fx, Raw.fb, raw64, rawI, rawX, raw128, rawB, rawM, rawS, rawSX, Pop.qop, Pop.qid, Raw.pop, Raw.srcB, Raw.src3, Raw.srcX, Raw.addr, Raw.stAddr, Raw.off128, Raw.is128, Raw.f, intFn, fpFn, Raw.id6, Raw.ity, Raw.bty, Raw.t32, Raw.fty, Raw.hty, Raw.rm, Codec.bit, Codec.bit16, Codec.rmDyn, Codec.ctyF32]

theorem Codec.peersUni (a0 : Hdr) (a1 : Bool) (a2 : Reg) (a3 : Reg) : Codec.Statement (.peersUni a0 a1 a2 a3) := by
  intro r e
  cases a1 <;> cases e <;>
    simp [fromRaw, fromRawWarp, Raw.hdr, Raw.shaped, Raw.isI, Raw.fx, Raw.fb, raw64, rawI, rawX, raw128, rawB, rawM, rawS, rawSX, Pop.qop, Pop.qid, Raw.pop, Raw.srcB, Raw.src3, Raw.srcX, Raw.addr, Raw.stAddr, Raw.off128, Raw.is128, Raw.f, intFn, fpFn, Raw.id6, Raw.ity, Raw.bty, Raw.t32, Raw.fty, Raw.hty, Raw.rm, Codec.bit, Codec.bit16, Codec.rmDyn, Codec.ctyF32]

theorem Codec.peersLead (a0 : Hdr) (a1 : Bool) (a2 : Reg) (a3 : Reg) : Codec.Statement (.peersLead a0 a1 a2 a3) := by
  intro r e
  cases a1 <;> cases e <;>
    simp [fromRaw, fromRawWarp, Raw.hdr, Raw.shaped, Raw.isI, Raw.fx, Raw.fb, raw64, rawI, rawX, raw128, rawB, rawM, rawS, rawSX, Pop.qop, Pop.qid, Raw.pop, Raw.srcB, Raw.src3, Raw.srcX, Raw.addr, Raw.stAddr, Raw.off128, Raw.is128, Raw.f, intFn, fpFn, Raw.id6, Raw.ity, Raw.bty, Raw.t32, Raw.fty, Raw.hty, Raw.rm, Codec.bit, Codec.bit16, Codec.rmDyn, Codec.ctyF32]

theorem Codec.redux (a0 : Hdr) (a1 : RedOp) (a2 : T32) (a3 : RedDst) (a4 : Reg) : Codec.Statement (.redux a0 a1 a2 a3 a4) := by
  intro r e
  cases a1 <;> cases a2 <;> cases a3 <;> cases e <;>
    simp [fromRaw, fromRawWarp, Raw.hdr, Raw.shaped, Raw.isI, Raw.fx, Raw.fb, raw64, rawI, rawX, raw128, rawB, rawM, rawS, rawSX, Pop.qop, Pop.qid, Raw.pop, Raw.srcB, Raw.src3, Raw.srcX, Raw.addr, Raw.stAddr, Raw.off128, Raw.is128, Raw.f, intFn, fpFn, Raw.id6, Raw.ity, Raw.bty, Raw.t32, Raw.fty, Raw.hty, Raw.rm, Codec.bit, Codec.bit16, Codec.rmDyn, Codec.ctyF32, RedOp.code, RedOp.ofCode, T32.code, T32.ofCode]

theorem Codec.elect (a0 : Hdr) (a1 : Reg) : Codec.Statement (.elect a0 a1) := by
  intro r e
  cases e
  simp [fromRaw, fromRawWarp, Raw.hdr, Raw.shaped, Raw.isI, Raw.fx, Raw.fb, raw64, rawI, rawX, raw128, rawB, rawM, rawS, rawSX, Pop.qop, Pop.qid, Raw.pop, Raw.srcB, Raw.src3, Raw.srcX, Raw.addr, Raw.stAddr, Raw.off128, Raw.is128, Raw.f, intFn, fpFn, Raw.id6, Raw.ity, Raw.bty, Raw.t32, Raw.fty, Raw.hty, Raw.rm, Codec.bit, Codec.bit16, Codec.rmDyn, Codec.ctyF32]

theorem Codec.wmovWFromV (a0 : Hdr) (a1 : Reg) (a2 : Reg) : Codec.Statement (.wmovWFromV a0 a1 a2) := by
  intro r e
  cases e
  simp [fromRaw, fromRawWarp, Raw.hdr, Raw.shaped, Raw.isI, Raw.fx, Raw.fb, raw64, rawI, rawX, raw128, rawB, rawM, rawS, rawSX, Pop.qop, Pop.qid, Raw.pop, Raw.srcB, Raw.src3, Raw.srcX, Raw.addr, Raw.stAddr, Raw.off128, Raw.is128, Raw.f, intFn, fpFn, Raw.id6, Raw.ity, Raw.bty, Raw.t32, Raw.fty, Raw.hty, Raw.rm, Codec.bit, Codec.bit16, Codec.rmDyn, Codec.ctyF32]

theorem Codec.wmovVFromW (a0 : Hdr) (a1 : Reg) (a2 : Reg) : Codec.Statement (.wmovVFromW a0 a1 a2) := by
  intro r e
  cases e
  simp [fromRaw, fromRawWarp, Raw.hdr, Raw.shaped, Raw.isI, Raw.fx, Raw.fb, raw64, rawI, rawX, raw128, rawB, rawM, rawS, rawSX, Pop.qop, Pop.qid, Raw.pop, Raw.srcB, Raw.src3, Raw.srcX, Raw.addr, Raw.stAddr, Raw.off128, Raw.is128, Raw.f, intFn, fpFn, Raw.id6, Raw.ity, Raw.bty, Raw.t32, Raw.fty, Raw.hty, Raw.rm, Codec.bit, Codec.bit16, Codec.rmDyn, Codec.ctyF32]

theorem Codec.wmovWFromW (a0 : Hdr) (a1 : Reg) (a2 : Reg) : Codec.Statement (.wmovWFromW a0 a1 a2) := by
  intro r e
  cases e
  simp [fromRaw, fromRawWarp, Raw.hdr, Raw.shaped, Raw.isI, Raw.fx, Raw.fb, raw64, rawI, rawX, raw128, rawB, rawM, rawS, rawSX, Pop.qop, Pop.qid, Raw.pop, Raw.srcB, Raw.src3, Raw.srcX, Raw.addr, Raw.stAddr, Raw.off128, Raw.is128, Raw.f, intFn, fpFn, Raw.id6, Raw.ity, Raw.bty, Raw.t32, Raw.fty, Raw.hty, Raw.rm, Codec.bit, Codec.bit16, Codec.rmDyn, Codec.ctyF32]

theorem Codec.wmovWImm (a0 : Hdr) (a1 : Reg) (a2 : Word) : Codec.Statement (.wmovWImm a0 a1 a2) := by
  intro r e
  cases e
  simp [fromRaw, fromRawWarp, Raw.hdr, Raw.shaped, Raw.isI, Raw.fx, Raw.fb, raw64, rawI, rawX, raw128, rawB, rawM, rawS, rawSX, Pop.qop, Pop.qid, Raw.pop, Raw.srcB, Raw.src3, Raw.srcX, Raw.addr, Raw.stAddr, Raw.off128, Raw.is128, Raw.f, intFn, fpFn, Raw.id6, Raw.ity, Raw.bty, Raw.t32, Raw.fty, Raw.hty, Raw.rm, Codec.bit, Codec.bit16, Codec.rmDyn, Codec.ctyF32]

theorem Codec.wop (a0 : Hdr) (a1 : WOpK) (a2 : T32) (a3 : Reg) (a4 : Reg) (a5 : SrcB) : Codec.Statement (.wop a0 a1 a2 a3 a4 a5) := by
  have h0 := a1.code_le
  have h1 := a2.code_le
  intro r e
  cases a5 <;> cases e <;>
    simp [fromRaw, fromRawWarp, Raw.hdr, Raw.shaped, Raw.isI, Raw.fx, Raw.fb, raw64, rawI, rawX, raw128, rawB, rawM, rawS, rawSX, Pop.qop, Pop.qid, Raw.pop, Raw.srcB, Raw.src3, Raw.srcX, Raw.addr, Raw.stAddr, Raw.off128, Raw.is128, Raw.f, intFn, fpFn, Raw.id6, Raw.ity, Raw.bty, Raw.t32, Raw.fty, Raw.hty, Raw.rm, Codec.bit, Codec.bit16, Codec.rmDyn, Codec.ctyF32] <;>
    (repeat' apply And.intro) <;> first | omega | (apply WOpK.ofCode_of; omega) | (apply T32.ofCode_of; omega) | (apply BitVec.eq_of_toNat_eq; simp; omega)

theorem Codec.fadd (a0 : Hdr) (a1 : FTy) (a2 : RMode) (a3 : Reg) (a4 : Reg) (a5 : SrcB) : Codec.Statement (.fadd a0 a1 a2 a3 a4 a5) := by
  have h0 := a1.code_le
  have h1 := a2.code_le
  intro r e
  cases a5 <;> cases e <;>
    simp [fromRaw, fromRawFloat, Raw.hdr, Raw.shaped, Raw.isI, Raw.fx, Raw.fb, raw64, rawI, rawX, raw128, rawB, rawM, rawS, rawSX, Pop.qop, Pop.qid, Raw.pop, Raw.srcB, Raw.src3, Raw.srcX, Raw.addr, Raw.stAddr, Raw.off128, Raw.is128, Raw.f, intFn, fpFn, Raw.id6, Raw.ity, Raw.bty, Raw.t32, Raw.fty, Raw.hty, Raw.rm, Codec.bit, Codec.bit16, Codec.rmDyn, Codec.ctyF32] <;>
    (repeat' apply And.intro) <;> first | omega | (apply FTy.ofCode_of; omega) | (apply RMode.ofCode_of; omega) | (apply BitVec.eq_of_toNat_eq; simp; omega)

theorem Codec.fsub (a0 : Hdr) (a1 : FTy) (a2 : RMode) (a3 : Reg) (a4 : Reg) (a5 : SrcB) : Codec.Statement (.fsub a0 a1 a2 a3 a4 a5) := by
  have h0 := a1.code_le
  have h1 := a2.code_le
  intro r e
  cases a5 <;> cases e <;>
    simp [fromRaw, fromRawFloat, Raw.hdr, Raw.shaped, Raw.isI, Raw.fx, Raw.fb, raw64, rawI, rawX, raw128, rawB, rawM, rawS, rawSX, Pop.qop, Pop.qid, Raw.pop, Raw.srcB, Raw.src3, Raw.srcX, Raw.addr, Raw.stAddr, Raw.off128, Raw.is128, Raw.f, intFn, fpFn, Raw.id6, Raw.ity, Raw.bty, Raw.t32, Raw.fty, Raw.hty, Raw.rm, Codec.bit, Codec.bit16, Codec.rmDyn, Codec.ctyF32] <;>
    (repeat' apply And.intro) <;> first | omega | (apply FTy.ofCode_of; omega) | (apply RMode.ofCode_of; omega) | (apply BitVec.eq_of_toNat_eq; simp; omega)

theorem Codec.fmul (a0 : Hdr) (a1 : FTy) (a2 : RMode) (a3 : Reg) (a4 : Reg) (a5 : SrcB) : Codec.Statement (.fmul a0 a1 a2 a3 a4 a5) := by
  have h0 := a1.code_le
  have h1 := a2.code_le
  intro r e
  cases a5 <;> cases e <;>
    simp [fromRaw, fromRawFloat, Raw.hdr, Raw.shaped, Raw.isI, Raw.fx, Raw.fb, raw64, rawI, rawX, raw128, rawB, rawM, rawS, rawSX, Pop.qop, Pop.qid, Raw.pop, Raw.srcB, Raw.src3, Raw.srcX, Raw.addr, Raw.stAddr, Raw.off128, Raw.is128, Raw.f, intFn, fpFn, Raw.id6, Raw.ity, Raw.bty, Raw.t32, Raw.fty, Raw.hty, Raw.rm, Codec.bit, Codec.bit16, Codec.rmDyn, Codec.ctyF32] <;>
    (repeat' apply And.intro) <;> first | omega | (apply FTy.ofCode_of; omega) | (apply RMode.ofCode_of; omega) | (apply BitVec.eq_of_toNat_eq; simp; omega)

theorem Codec.ffma (a0 : Hdr) (a1 : FTy) (a2 : RMode) (a3 : Reg) (a4 : Src3) : Codec.Statement (.ffma a0 a1 a2 a3 a4) := by
  have h0 := a1.code_le
  have h1 := a2.code_le
  intro r e
  obtain ⟨x4, y4, z4, _ | _ | _ | _⟩ := a4 <;> cases e <;>
    simp [fromRaw, fromRawFloat, Raw.hdr, Raw.shaped, Raw.isI, Raw.fx, Raw.fb, raw64, rawI, rawX, raw128, rawB, rawM, rawS, rawSX, Pop.qop, Pop.qid, Raw.pop, Raw.srcB, Raw.src3, Raw.srcX, Raw.addr, Raw.stAddr, Raw.off128, Raw.is128, Raw.f, intFn, fpFn, Raw.id6, Raw.ity, Raw.bty, Raw.t32, Raw.fty, Raw.hty, Raw.rm, Codec.bit, Codec.bit16, Codec.rmDyn, Codec.ctyF32] <;>
    (repeat' apply And.intro) <;> first | omega | (apply FTy.ofCode_of; omega) | (apply RMode.ofCode_of; omega) | (apply BitVec.eq_of_toNat_eq; simp; omega)

theorem Codec.fmin (a0 : Hdr) (a1 : FTy) (a2 : Reg) (a3 : Reg) (a4 : SrcB) : Codec.Statement (.fmin a0 a1 a2 a3 a4) := by
  have h0 := a1.code_le
  intro r e
  cases a4 <;> cases e <;>
    simp [fromRaw, fromRawFloat, Raw.hdr, Raw.shaped, Raw.isI, Raw.fx, Raw.fb, raw64, rawI, rawX, raw128, rawB, rawM, rawS, rawSX, Pop.qop, Pop.qid, Raw.pop, Raw.srcB, Raw.src3, Raw.srcX, Raw.addr, Raw.stAddr, Raw.off128, Raw.is128, Raw.f, intFn, fpFn, Raw.id6, Raw.ity, Raw.bty, Raw.t32, Raw.fty, Raw.hty, Raw.rm, Codec.bit, Codec.bit16, Codec.rmDyn, Codec.ctyF32] <;>
    (repeat' apply And.intro) <;> first | omega | (apply FTy.ofCode_of; omega) | (apply BitVec.eq_of_toNat_eq; simp; omega)

theorem Codec.fmax (a0 : Hdr) (a1 : FTy) (a2 : Reg) (a3 : Reg) (a4 : SrcB) : Codec.Statement (.fmax a0 a1 a2 a3 a4) := by
  have h0 := a1.code_le
  intro r e
  cases a4 <;> cases e <;>
    simp [fromRaw, fromRawFloat, Raw.hdr, Raw.shaped, Raw.isI, Raw.fx, Raw.fb, raw64, rawI, rawX, raw128, rawB, rawM, rawS, rawSX, Pop.qop, Pop.qid, Raw.pop, Raw.srcB, Raw.src3, Raw.srcX, Raw.addr, Raw.stAddr, Raw.off128, Raw.is128, Raw.f, intFn, fpFn, Raw.id6, Raw.ity, Raw.bty, Raw.t32, Raw.fty, Raw.hty, Raw.rm, Codec.bit, Codec.bit16, Codec.rmDyn, Codec.ctyF32] <;>
    (repeat' apply And.intro) <;> first | omega | (apply FTy.ofCode_of; omega) | (apply BitVec.eq_of_toNat_eq; simp; omega)

theorem Codec.fcmp (a0 : Hdr) (a1 : FCond) (a2 : FTy) (a3 : Reg) (a4 : Reg) (a5 : SrcB) : Codec.Statement (.fcmp a0 a1 a2 a3 a4 a5) := by
  have h0 := a1.code_le
  have h1 := a2.code_le
  intro r e
  cases a5 <;> cases e <;>
    simp [fromRaw, fromRawFloat, Raw.hdr, Raw.shaped, Raw.isI, Raw.fx, Raw.fb, raw64, rawI, rawX, raw128, rawB, rawM, rawS, rawSX, Pop.qop, Pop.qid, Raw.pop, Raw.srcB, Raw.src3, Raw.srcX, Raw.addr, Raw.stAddr, Raw.off128, Raw.is128, Raw.f, intFn, fpFn, Raw.id6, Raw.ity, Raw.bty, Raw.t32, Raw.fty, Raw.hty, Raw.rm, Codec.bit, Codec.bit16, Codec.rmDyn, Codec.ctyF32] <;>
    (repeat' apply And.intro) <;> first | omega | (apply FCond.ofCode_of; omega) | (apply FTy.ofCode_of; omega) | (apply BitVec.eq_of_toNat_eq; simp; omega)

theorem Codec.fset (a0 : Hdr) (a1 : FCond) (a2 : FTy) (a3 : Reg) (a4 : Reg) (a5 : SrcB) : Codec.Statement (.fset a0 a1 a2 a3 a4 a5) := by
  have h0 := a1.code_le
  have h1 := a2.code_le
  intro r e
  cases a5 <;> cases e <;>
    simp [fromRaw, fromRawFloat, Raw.hdr, Raw.shaped, Raw.isI, Raw.fx, Raw.fb, raw64, rawI, rawX, raw128, rawB, rawM, rawS, rawSX, Pop.qop, Pop.qid, Raw.pop, Raw.srcB, Raw.src3, Raw.srcX, Raw.addr, Raw.stAddr, Raw.off128, Raw.is128, Raw.f, intFn, fpFn, Raw.id6, Raw.ity, Raw.bty, Raw.t32, Raw.fty, Raw.hty, Raw.rm, Codec.bit, Codec.bit16, Codec.rmDyn, Codec.ctyF32] <;>
    (repeat' apply And.intro) <;> first | omega | (apply FCond.ofCode_of; omega) | (apply FTy.ofCode_of; omega) | (apply BitVec.eq_of_toNat_eq; simp; omega)

theorem Codec.fclass (a0 : Hdr) (a1 : FTy) (a2 : Reg) (a3 : Reg) : Codec.Statement (.fclass a0 a1 a2 a3) := by
  intro r e
  cases a1 <;> cases e <;>
    simp [fromRaw, fromRawFloat, Raw.hdr, Raw.shaped, Raw.isI, Raw.fx, Raw.fb, raw64, rawI, rawX, raw128, rawB, rawM, rawS, rawSX, Pop.qop, Pop.qid, Raw.pop, Raw.srcB, Raw.src3, Raw.srcX, Raw.addr, Raw.stAddr, Raw.off128, Raw.is128, Raw.f, intFn, fpFn, Raw.id6, Raw.ity, Raw.bty, Raw.t32, Raw.fty, Raw.hty, Raw.rm, Codec.bit, Codec.bit16, Codec.rmDyn, Codec.ctyF32, FTy.code, FTy.ofCode]

theorem Codec.fclassTest (a0 : Hdr) (a1 : FTy) (a2 : Reg) (a3 : Reg) (a4 : Word) : Codec.Statement (.fclassTest a0 a1 a2 a3 a4) := by
  intro r e
  cases a1 <;> cases e <;>
    simp [fromRaw, fromRawFloat, Raw.hdr, Raw.shaped, Raw.isI, Raw.fx, Raw.fb, raw64, rawI, rawX, raw128, rawB, rawM, rawS, rawSX, Pop.qop, Pop.qid, Raw.pop, Raw.srcB, Raw.src3, Raw.srcX, Raw.addr, Raw.stAddr, Raw.off128, Raw.is128, Raw.f, intFn, fpFn, Raw.id6, Raw.ity, Raw.bty, Raw.t32, Raw.fty, Raw.hty, Raw.rm, Codec.bit, Codec.bit16, Codec.rmDyn, Codec.ctyF32, FTy.code, FTy.ofCode]

theorem Codec.frnd (a0 : Hdr) (a1 : FTy) (a2 : RMode) (a3 : Reg) (a4 : Reg) : Codec.Statement (.frnd a0 a1 a2 a3 a4) := by
  have h0 := a1.code_le
  have h1 := a2.code_le
  intro r e
  cases e
  simp [fromRaw, fromRawFloat, Raw.hdr, Raw.shaped, Raw.isI, Raw.fx, Raw.fb, raw64, rawI, rawX, raw128, rawB, rawM, rawS, rawSX, Pop.qop, Pop.qid, Raw.pop, Raw.srcB, Raw.src3, Raw.srcX, Raw.addr, Raw.stAddr, Raw.off128, Raw.is128, Raw.f, intFn, fpFn, Raw.id6, Raw.ity, Raw.bty, Raw.t32, Raw.fty, Raw.hty, Raw.rm, Codec.bit, Codec.bit16, Codec.rmDyn, Codec.ctyF32] <;>
    (repeat' apply And.intro) <;> first | omega | (apply FTy.ofCode_of; omega) | (apply RMode.ofCode_of; omega) | (apply BitVec.eq_of_toNat_eq; simp; omega)

theorem Codec.frcp (a0 : Hdr) (a1 : Reg) (a2 : Reg) : Codec.Statement (.frcp a0 a1 a2) := by
  intro r e
  cases e
  simp [fromRaw, fromRawFloat, Raw.hdr, Raw.shaped, Raw.isI, Raw.fx, Raw.fb, raw64, rawI, rawX, raw128, rawB, rawM, rawS, rawSX, Pop.qop, Pop.qid, Raw.pop, Raw.srcB, Raw.src3, Raw.srcX, Raw.addr, Raw.stAddr, Raw.off128, Raw.is128, Raw.f, intFn, fpFn, Raw.id6, Raw.ity, Raw.bty, Raw.t32, Raw.fty, Raw.hty, Raw.rm, Codec.bit, Codec.bit16, Codec.rmDyn, Codec.ctyF32]

theorem Codec.frsq (a0 : Hdr) (a1 : Reg) (a2 : Reg) : Codec.Statement (.frsq a0 a1 a2) := by
  intro r e
  cases e
  simp [fromRaw, fromRawFloat, Raw.hdr, Raw.shaped, Raw.isI, Raw.fx, Raw.fb, raw64, rawI, rawX, raw128, rawB, rawM, rawS, rawSX, Pop.qop, Pop.qid, Raw.pop, Raw.srcB, Raw.src3, Raw.srcX, Raw.addr, Raw.stAddr, Raw.off128, Raw.is128, Raw.f, intFn, fpFn, Raw.id6, Raw.ity, Raw.bty, Raw.t32, Raw.fty, Raw.hty, Raw.rm, Codec.bit, Codec.bit16, Codec.rmDyn, Codec.ctyF32]

theorem Codec.fsqrt (a0 : Hdr) (a1 : FTy) (a2 : RMode) (a3 : Reg) (a4 : Reg) : Codec.Statement (.fsqrt a0 a1 a2 a3 a4) := by
  have h0 := a1.code_le
  have h1 := a2.code_le
  intro r e
  cases e
  simp [fromRaw, fromRawFloat, Raw.hdr, Raw.shaped, Raw.isI, Raw.fx, Raw.fb, raw64, rawI, rawX, raw128, rawB, rawM, rawS, rawSX, Pop.qop, Pop.qid, Raw.pop, Raw.srcB, Raw.src3, Raw.srcX, Raw.addr, Raw.stAddr, Raw.off128, Raw.is128, Raw.f, intFn, fpFn, Raw.id6, Raw.ity, Raw.bty, Raw.t32, Raw.fty, Raw.hty, Raw.rm, Codec.bit, Codec.bit16, Codec.rmDyn, Codec.ctyF32] <;>
    (repeat' apply And.intro) <;> first | omega | (apply FTy.ofCode_of; omega) | (apply RMode.ofCode_of; omega) | (apply BitVec.eq_of_toNat_eq; simp; omega)

theorem Codec.fex2 (a0 : Hdr) (a1 : Reg) (a2 : Reg) : Codec.Statement (.fex2 a0 a1 a2) := by
  intro r e
  cases e
  simp [fromRaw, fromRawFloat, Raw.hdr, Raw.shaped, Raw.isI, Raw.fx, Raw.fb, raw64, rawI, rawX, raw128, rawB, rawM, rawS, rawSX, Pop.qop, Pop.qid, Raw.pop, Raw.srcB, Raw.src3, Raw.srcX, Raw.addr, Raw.stAddr, Raw.off128, Raw.is128, Raw.f, intFn, fpFn, Raw.id6, Raw.ity, Raw.bty, Raw.t32, Raw.fty, Raw.hty, Raw.rm, Codec.bit, Codec.bit16, Codec.rmDyn, Codec.ctyF32]

theorem Codec.flg2 (a0 : Hdr) (a1 : Reg) (a2 : Reg) : Codec.Statement (.flg2 a0 a1 a2) := by
  intro r e
  cases e
  simp [fromRaw, fromRawFloat, Raw.hdr, Raw.shaped, Raw.isI, Raw.fx, Raw.fb, raw64, rawI, rawX, raw128, rawB, rawM, rawS, rawSX, Pop.qop, Pop.qid, Raw.pop, Raw.srcB, Raw.src3, Raw.srcX, Raw.addr, Raw.stAddr, Raw.off128, Raw.is128, Raw.f, intFn, fpFn, Raw.id6, Raw.ity, Raw.bty, Raw.t32, Raw.fty, Raw.hty, Raw.rm, Codec.bit, Codec.bit16, Codec.rmDyn, Codec.ctyF32]

theorem Codec.fsin (a0 : Hdr) (a1 : Reg) (a2 : Reg) : Codec.Statement (.fsin a0 a1 a2) := by
  intro r e
  cases e
  simp [fromRaw, fromRawFloat, Raw.hdr, Raw.shaped, Raw.isI, Raw.fx, Raw.fb, raw64, rawI, rawX, raw128, rawB, rawM, rawS, rawSX, Pop.qop, Pop.qid, Raw.pop, Raw.srcB, Raw.src3, Raw.srcX, Raw.addr, Raw.stAddr, Raw.off128, Raw.is128, Raw.f, intFn, fpFn, Raw.id6, Raw.ity, Raw.bty, Raw.t32, Raw.fty, Raw.hty, Raw.rm, Codec.bit, Codec.bit16, Codec.rmDyn, Codec.ctyF32]

theorem Codec.fcos (a0 : Hdr) (a1 : Reg) (a2 : Reg) : Codec.Statement (.fcos a0 a1 a2) := by
  intro r e
  cases e
  simp [fromRaw, fromRawFloat, Raw.hdr, Raw.shaped, Raw.isI, Raw.fx, Raw.fb, raw64, rawI, rawX, raw128, rawB, rawM, rawS, rawSX, Pop.qop, Pop.qid, Raw.pop, Raw.srcB, Raw.src3, Raw.srcX, Raw.addr, Raw.stAddr, Raw.off128, Raw.is128, Raw.f, intFn, fpFn, Raw.id6, Raw.ity, Raw.bty, Raw.t32, Raw.fty, Raw.hty, Raw.rm, Codec.bit, Codec.bit16, Codec.rmDyn, Codec.ctyF32]

theorem Codec.ftanh (a0 : Hdr) (a1 : Reg) (a2 : Reg) : Codec.Statement (.ftanh a0 a1 a2) := by
  intro r e
  cases e
  simp [fromRaw, fromRawFloat, Raw.hdr, Raw.shaped, Raw.isI, Raw.fx, Raw.fb, raw64, rawI, rawX, raw128, rawB, rawM, rawS, rawSX, Pop.qop, Pop.qid, Raw.pop, Raw.srcB, Raw.src3, Raw.srcX, Raw.addr, Raw.stAddr, Raw.off128, Raw.is128, Raw.f, intFn, fpFn, Raw.id6, Raw.ity, Raw.bty, Raw.t32, Raw.fty, Raw.hty, Raw.rm, Codec.bit, Codec.bit16, Codec.rmDyn, Codec.ctyF32]

theorem Codec.fscale (a0 : Hdr) (a1 : FTy) (a2 : RMode) (a3 : Reg) (a4 : Reg) (a5 : SrcB) : Codec.Statement (.fscale a0 a1 a2 a3 a4 a5) := by
  have h0 := a1.code_le
  have h1 := a2.code_le
  intro r e
  cases a5 <;> cases e <;>
    simp [fromRaw, fromRawFloat, Raw.hdr, Raw.shaped, Raw.isI, Raw.fx, Raw.fb, raw64, rawI, rawX, raw128, rawB, rawM, rawS, rawSX, Pop.qop, Pop.qid, Raw.pop, Raw.srcB, Raw.src3, Raw.srcX, Raw.addr, Raw.stAddr, Raw.off128, Raw.is128, Raw.f, intFn, fpFn, Raw.id6, Raw.ity, Raw.bty, Raw.t32, Raw.fty, Raw.hty, Raw.rm, Codec.bit, Codec.bit16, Codec.rmDyn, Codec.ctyF32] <;>
    (repeat' apply And.intro) <;> first | omega | (apply FTy.ofCode_of; omega) | (apply RMode.ofCode_of; omega) | (apply BitVec.eq_of_toNat_eq; simp; omega)

theorem Codec.fgetexp (a0 : Hdr) (a1 : FTy) (a2 : Reg) (a3 : Reg) : Codec.Statement (.fgetexp a0 a1 a2 a3) := by
  have h0 := a1.code_le
  intro r e
  cases e
  simp [fromRaw, fromRawFloat, Raw.hdr, Raw.shaped, Raw.isI, Raw.fx, Raw.fb, raw64, rawI, rawX, raw128, rawB, rawM, rawS, rawSX, Pop.qop, Pop.qid, Raw.pop, Raw.srcB, Raw.src3, Raw.srcX, Raw.addr, Raw.stAddr, Raw.off128, Raw.is128, Raw.f, intFn, fpFn, Raw.id6, Raw.ity, Raw.bty, Raw.t32, Raw.fty, Raw.hty, Raw.rm, Codec.bit, Codec.bit16, Codec.rmDyn, Codec.ctyF32] <;>
    (repeat' apply And.intro) <;> first | omega | (apply FTy.ofCode_of; omega) | (apply BitVec.eq_of_toNat_eq; simp; omega)

theorem Codec.hpadd (a0 : Hdr) (a1 : HTy) (a2 : RMode) (a3 : Reg) (a4 : Reg) (a5 : SrcB) : Codec.Statement (.hpadd a0 a1 a2 a3 a4 a5) := by
  have h0 := a1.code_le
  have h1 := a2.code_le
  intro r e
  cases a5 <;> cases e <;>
    simp [fromRaw, fromRawFloat, Raw.hdr, Raw.shaped, Raw.isI, Raw.fx, Raw.fb, raw64, rawI, rawX, raw128, rawB, rawM, rawS, rawSX, Pop.qop, Pop.qid, Raw.pop, Raw.srcB, Raw.src3, Raw.srcX, Raw.addr, Raw.stAddr, Raw.off128, Raw.is128, Raw.f, intFn, fpFn, Raw.id6, Raw.ity, Raw.bty, Raw.t32, Raw.fty, Raw.hty, Raw.rm, Codec.bit, Codec.bit16, Codec.rmDyn, Codec.ctyF32] <;>
    (repeat' apply And.intro) <;> first | omega | (apply HTy.ofCode_of; omega) | (apply RMode.ofCode_of; omega) | (apply BitVec.eq_of_toNat_eq; simp; omega)

theorem Codec.hpmul (a0 : Hdr) (a1 : HTy) (a2 : RMode) (a3 : Reg) (a4 : Reg) (a5 : SrcB) : Codec.Statement (.hpmul a0 a1 a2 a3 a4 a5) := by
  have h0 := a1.code_le
  have h1 := a2.code_le
  intro r e
  cases a5 <;> cases e <;>
    simp [fromRaw, fromRawFloat, Raw.hdr, Raw.shaped, Raw.isI, Raw.fx, Raw.fb, raw64, rawI, rawX, raw128, rawB, rawM, rawS, rawSX, Pop.qop, Pop.qid, Raw.pop, Raw.srcB, Raw.src3, Raw.srcX, Raw.addr, Raw.stAddr, Raw.off128, Raw.is128, Raw.f, intFn, fpFn, Raw.id6, Raw.ity, Raw.bty, Raw.t32, Raw.fty, Raw.hty, Raw.rm, Codec.bit, Codec.bit16, Codec.rmDyn, Codec.ctyF32] <;>
    (repeat' apply And.intro) <;> first | omega | (apply HTy.ofCode_of; omega) | (apply RMode.ofCode_of; omega) | (apply BitVec.eq_of_toNat_eq; simp; omega)

theorem Codec.hpfma (a0 : Hdr) (a1 : HTy) (a2 : RMode) (a3 : Reg) (a4 : Src3) : Codec.Statement (.hpfma a0 a1 a2 a3 a4) := by
  have h0 := a1.code_le
  have h1 := a2.code_le
  intro r e
  obtain ⟨x4, y4, z4, _ | _ | _ | _⟩ := a4 <;> cases e <;>
    simp [fromRaw, fromRawFloat, Raw.hdr, Raw.shaped, Raw.isI, Raw.fx, Raw.fb, raw64, rawI, rawX, raw128, rawB, rawM, rawS, rawSX, Pop.qop, Pop.qid, Raw.pop, Raw.srcB, Raw.src3, Raw.srcX, Raw.addr, Raw.stAddr, Raw.off128, Raw.is128, Raw.f, intFn, fpFn, Raw.id6, Raw.ity, Raw.bty, Raw.t32, Raw.fty, Raw.hty, Raw.rm, Codec.bit, Codec.bit16, Codec.rmDyn, Codec.ctyF32] <;>
    (repeat' apply And.intro) <;> first | omega | (apply HTy.ofCode_of; omega) | (apply RMode.ofCode_of; omega) | (apply BitVec.eq_of_toNat_eq; simp; omega)

theorem Codec.hpmnxMin (a0 : Hdr) (a1 : HTy) (a2 : Reg) (a3 : Reg) (a4 : SrcB) : Codec.Statement (.hpmnxMin a0 a1 a2 a3 a4) := by
  intro r e
  cases a1 <;> cases a4 <;> cases e <;>
    simp [fromRaw, fromRawFloat, Raw.hdr, Raw.shaped, Raw.isI, Raw.fx, Raw.fb, raw64, rawI, rawX, raw128, rawB, rawM, rawS, rawSX, Pop.qop, Pop.qid, Raw.pop, Raw.srcB, Raw.src3, Raw.srcX, Raw.addr, Raw.stAddr, Raw.off128, Raw.is128, Raw.f, intFn, fpFn, Raw.id6, Raw.ity, Raw.bty, Raw.t32, Raw.fty, Raw.hty, Raw.rm, Codec.bit, Codec.bit16, Codec.rmDyn, Codec.ctyF32, HTy.code, HTy.ofCode]

theorem Codec.hpmnxMax (a0 : Hdr) (a1 : HTy) (a2 : Reg) (a3 : Reg) (a4 : SrcB) : Codec.Statement (.hpmnxMax a0 a1 a2 a3 a4) := by
  intro r e
  cases a1 <;> cases a4 <;> cases e <;>
    simp [fromRaw, fromRawFloat, Raw.hdr, Raw.shaped, Raw.isI, Raw.fx, Raw.fb, raw64, rawI, rawX, raw128, rawB, rawM, rawS, rawSX, Pop.qop, Pop.qid, Raw.pop, Raw.srcB, Raw.src3, Raw.srcX, Raw.addr, Raw.stAddr, Raw.off128, Raw.is128, Raw.f, intFn, fpFn, Raw.id6, Raw.ity, Raw.bty, Raw.t32, Raw.fty, Raw.hty, Raw.rm, Codec.bit, Codec.bit16, Codec.rmDyn, Codec.ctyF32, HTy.code, HTy.ofCode]

theorem Codec.dot4Float (a0 : Hdr) (a1 : NF8) (a2 : NF8) (a3 : RMode) (a4 : Reg) (a5 : Src3) : Codec.Statement (.dot4Float a0 a1 a2 a3 a4 a5) := by
  intro r e
  cases a1 <;> cases a2 <;> cases a3 <;> obtain ⟨x5, y5, z5, _ | _ | _ | _⟩ := a5 <;> cases e <;>
    simp [fromRaw, fromRawFloat, Raw.hdr, Raw.shaped, Raw.isI, Raw.fx, Raw.fb, raw64, rawI, rawX, raw128, rawB, rawM, rawS, rawSX, Pop.qop, Pop.qid, Raw.pop, Raw.srcB, Raw.src3, Raw.srcX, Raw.addr, Raw.stAddr, Raw.off128, Raw.is128, Raw.f, intFn, fpFn, Raw.id6, Raw.ity, Raw.bty, Raw.t32, Raw.fty, Raw.hty, Raw.rm, Codec.bit, Codec.bit16, Codec.rmDyn, Codec.ctyF32, NF8.code, NF8.ofCode, RMode.code, RMode.ofCode]

theorem Codec.dot4S8 (a0 : Hdr) (a1 : Reg) (a2 : Src3) : Codec.Statement (.dot4S8 a0 a1 a2) := by
  intro r e
  obtain ⟨x2, y2, z2, _ | _ | _ | _⟩ := a2 <;> cases e <;>
    simp [fromRaw, fromRawFloat, Raw.hdr, Raw.shaped, Raw.isI, Raw.fx, Raw.fb, raw64, rawI, rawX, raw128, rawB, rawM, rawS, rawSX, Pop.qop, Pop.qid, Raw.pop, Raw.srcB, Raw.src3, Raw.srcX, Raw.addr, Raw.stAddr, Raw.off128, Raw.is128, Raw.f, intFn, fpFn, Raw.id6, Raw.ity, Raw.bty, Raw.t32, Raw.fty, Raw.hty, Raw.rm, Codec.bit, Codec.bit16, Codec.rmDyn, Codec.ctyF32]

theorem Codec.dot2 (a0 : Hdr) (a1 : HTy) (a2 : RMode) (a3 : Reg) (a4 : Src3) : Codec.Statement (.dot2 a0 a1 a2 a3 a4) := by
  have h0 := a2.code_le
  intro r e
  cases a1 <;> obtain ⟨x4, y4, z4, _ | _ | _ | _⟩ := a4 <;> cases e <;>
    simp [fromRaw, fromRawFloat, Raw.hdr, Raw.shaped, Raw.isI, Raw.fx, Raw.fb, raw64, rawI, rawX, raw128, rawB, rawM, rawS, rawSX, Pop.qop, Pop.qid, Raw.pop, Raw.srcB, Raw.src3, Raw.srcX, Raw.addr, Raw.stAddr, Raw.off128, Raw.is128, Raw.f, intFn, fpFn, Raw.id6, Raw.ity, Raw.bty, Raw.t32, Raw.fty, Raw.hty, Raw.rm, Codec.bit, Codec.bit16, Codec.rmDyn, Codec.ctyF32, HTy.code, HTy.ofCode] <;>
    (repeat' apply And.intro) <;> first | omega | (apply RMode.ofCode_of; omega) | (apply BitVec.eq_of_toNat_eq; simp; omega)

theorem Codec.cvt (a0 : Hdr) (a1 : CTy) (a2 : CTy) (a3 : RMode) (a4 : Bool) (a5 : Bool) (a6 : Reg) (a7 : Reg) (a8 : Reg) (a9 : Pop) : Codec.Statement (.cvt a0 a1 a2 a3 a4 a5 a6 a7 a8 a9) := by
  have h0 := a1.code_le
  have h1 := a2.code_le
  have h2 := a3.code_le
  intro r e
  cases a4 <;> cases a5 <;> cases a9 <;> cases e <;>
    simp [fromRaw, fromRawFloat, Raw.hdr, Raw.shaped, Raw.isI, Raw.fx, Raw.fb, raw64, rawI, rawX, raw128, rawB, rawM, rawS, rawSX, Pop.qop, Pop.qid, Raw.pop, Raw.srcB, Raw.src3, Raw.srcX, Raw.addr, Raw.stAddr, Raw.off128, Raw.is128, Raw.f, intFn, fpFn, Raw.id6, Raw.ity, Raw.bty, Raw.t32, Raw.fty, Raw.hty, Raw.rm, Codec.bit, Codec.bit16, Codec.rmDyn, Codec.ctyF32, cvtFn2, Raw.f2] <;>
    (repeat' apply And.intro) <;> first | omega | (apply CTy.ofCode_of; omega) | (apply RMode.ofCode_of; omega) | (apply BitVec.eq_of_toNat_eq; simp; omega)

theorem Codec.cvtp (a0 : Hdr) (a1 : CTy) (a2 : RMode) (a3 : Bool) (a4 : Bool) (a5 : Reg) (a6 : Src3) : Codec.Statement (.cvtp a0 a1 a2 a3 a4 a5 a6) := by
  have h0 := a1.code_le
  have h1 := a2.code_le
  intro r e
  cases a3 <;> cases a4 <;> obtain ⟨x6, y6, z6, _ | _ | _ | _⟩ := a6 <;> cases e <;>
    simp [fromRaw, fromRawFloat, Raw.hdr, Raw.shaped, Raw.isI, Raw.fx, Raw.fb, raw64, rawI, rawX, raw128, rawB, rawM, rawS, rawSX, Pop.qop, Pop.qid, Raw.pop, Raw.srcB, Raw.src3, Raw.srcX, Raw.addr, Raw.stAddr, Raw.off128, Raw.is128, Raw.f, intFn, fpFn, Raw.id6, Raw.ity, Raw.bty, Raw.t32, Raw.fty, Raw.hty, Raw.rm, Codec.bit, Codec.bit16, Codec.rmDyn, Codec.ctyF32, cvtFn2, Raw.f2] <;>
    (repeat' apply And.intro) <;> first | omega | (apply CTy.ofCode_of; omega) | (apply RMode.ofCode_of; omega) | (apply BitVec.eq_of_toNat_eq; simp; omega)

theorem Codec.cvtx (a0 : Hdr) (a1 : CTy) (a2 : RMode) (a3 : Bool) (a4 : Bool) (a5 : Reg) (a6 : Reg) (a7 : Reg) (a8 : Pop) : Codec.Statement (.cvtx a0 a1 a2 a3 a4 a5 a6 a7 a8) := by
  have h0 := a1.code_le
  have h1 := a2.code_le
  intro r e
  cases a3 <;> cases a4 <;> cases a8 <;> cases e <;>
    simp [fromRaw, fromRawFloat, Raw.hdr, Raw.shaped, Raw.isI, Raw.fx, Raw.fb, raw64, rawI, rawX, raw128, rawB, rawM, rawS, rawSX, Pop.qop, Pop.qid, Raw.pop, Raw.srcB, Raw.src3, Raw.srcX, Raw.addr, Raw.stAddr, Raw.off128, Raw.is128, Raw.f, intFn, fpFn, Raw.id6, Raw.ity, Raw.bty, Raw.t32, Raw.fty, Raw.hty, Raw.rm, Codec.bit, Codec.bit16, Codec.rmDyn, Codec.ctyF32, cvtFn2, Raw.f2] <;>
    (repeat' apply And.intro) <;> first | omega | (apply CTy.ofCode_of; omega) | (apply RMode.ofCode_of; omega) | (apply BitVec.eq_of_toNat_eq; simp; omega)

theorem Codec.lmul (a0 : Hdr) (a1 : Reg) (a2 : Reg) (a3 : Reg) : Codec.Statement (.lmul a0 a1 a2 a3) := by
  intro r e
  cases e
  simp [fromRaw, fromRawFloat, Raw.hdr, Raw.shaped, Raw.isI, Raw.fx, Raw.fb, raw64, rawI, rawX, raw128, rawB, rawM, rawS, rawSX, Pop.qop, Pop.qid, Raw.pop, Raw.srcB, Raw.src3, Raw.srcX, Raw.addr, Raw.stAddr, Raw.off128, Raw.is128, Raw.f, intFn, fpFn, Raw.id6, Raw.ity, Raw.bty, Raw.t32, Raw.fty, Raw.hty, Raw.rm, Codec.bit, Codec.bit16, Codec.rmDyn, Codec.ctyF32]

theorem Codec.lmulX4 (a0 : Hdr) (a1 : Reg) (a2 : Reg) (a3 : Reg) : Codec.Statement (.lmulX4 a0 a1 a2 a3) := by
  intro r e
  cases e
  simp [fromRaw, fromRawFloat, Raw.hdr, Raw.shaped, Raw.isI, Raw.fx, Raw.fb, raw64, rawI, rawX, raw128, rawB, rawM, rawS, rawSX, Pop.qop, Pop.qid, Raw.pop, Raw.srcB, Raw.src3, Raw.srcX, Raw.addr, Raw.stAddr, Raw.off128, Raw.is128, Raw.f, intFn, fpFn, Raw.id6, Raw.ity, Raw.bty, Raw.t32, Raw.fty, Raw.hty, Raw.rm, Codec.bit, Codec.bit16, Codec.rmDyn, Codec.ctyF32]

theorem Codec.lcvtWiden (a0 : Hdr) (a1 : BitVec 2) (a2 : Reg) (a3 : Reg) : Codec.Statement (.lcvtWiden a0 a1 a2 a3) := by
  have h0 := a1.isLt
  simp only [Nat.reducePow] at *
  intro r e
  cases e
  simp [fromRaw, fromRawFloat, Raw.hdr, Raw.shaped, Raw.isI, Raw.fx, Raw.fb, raw64, rawI, rawX, raw128, rawB, rawM, rawS, rawSX, Pop.qop, Pop.qid, Raw.pop, Raw.srcB, Raw.src3, Raw.srcX, Raw.addr, Raw.stAddr, Raw.off128, Raw.is128, Raw.f, intFn, fpFn, Raw.id6, Raw.ity, Raw.bty, Raw.t32, Raw.fty, Raw.hty, Raw.rm, Codec.bit, Codec.bit16, Codec.rmDyn, Codec.ctyF32] <;>
    (repeat' apply And.intro) <;> first | omega | (apply BitVec.eq_of_toNat_eq; simp; omega) | (split <;> first | omega | (rename_i u v; exact absurd (by omega) u) | (rename_i u v; exact absurd (by omega) v) | (congr <;> first | (apply BitVec.eq_of_toNat_eq; simp; omega) | (simp; omega)))

theorem Codec.lcvtNarrow (a0 : Hdr) (a1 : Bool) (a2 : Reg) (a3 : Reg) : Codec.Statement (.lcvtNarrow a0 a1 a2 a3) := by
  intro r e
  cases a1 <;> cases e <;>
    simp [fromRaw, fromRawFloat, Raw.hdr, Raw.shaped, Raw.isI, Raw.fx, Raw.fb, raw64, rawI, rawX, raw128, rawB, rawM, rawS, rawSX, Pop.qop, Pop.qid, Raw.pop, Raw.srcB, Raw.src3, Raw.srcX, Raw.addr, Raw.stAddr, Raw.off128, Raw.is128, Raw.f, intFn, fpFn, Raw.id6, Raw.ity, Raw.bty, Raw.t32, Raw.fty, Raw.hty, Raw.rm, Codec.bit, Codec.bit16, Codec.rmDyn, Codec.ctyF32]

theorem Codec.ld (a0 : Hdr) (a1 : Sz) (a2 : Hint) (a3 : Reg) (a4 : Addr) : Codec.Statement (.ld a0 a1 a2 a3 a4) := by
  have h0 := a1.code_le
  have h1 := a2.code_le
  intro r e
  obtain ⟨x4, _ | _⟩ := a4 <;> cases e <;>
    simp [fromRaw, fromRawMemory, Raw.hdr, Raw.shaped, Raw.isI, Raw.fx, Raw.fb, raw64, rawI, rawX, raw128, rawB, rawM, rawS, rawSX, Pop.qop, Pop.qid, Raw.pop, Raw.srcB, Raw.src3, Raw.srcX, Raw.addr, Raw.stAddr, Raw.off128, Raw.is128, Raw.f, intFn, fpFn, Raw.id6, Raw.ity, Raw.bty, Raw.t32, Raw.fty, Raw.hty, Raw.rm, Codec.bit, Codec.bit16, Codec.rmDyn, Codec.ctyF32] <;>
    (repeat' apply And.intro) <;> first | omega | (apply Sz.ofCode_of; omega) | (apply Hint.ofCode_of; omega) | (apply BitVec.eq_of_toNat_eq; simp; omega)

theorem Codec.st (a0 : Hdr) (a1 : StSz) (a2 : Hint) (a3 : StAddr) : Codec.Statement (.st a0 a1 a2 a3) := by
  have h0 := a1.code_le
  have h1 := a2.code_le
  intro r e
  rcases a3 with ⟨x, y⟩ | ⟨x, y, _ | _ | _ | _, v⟩ <;> cases e <;>
    simp [fromRaw, fromRawMemory, Raw.hdr, Raw.shaped, Raw.isI, Raw.fx, Raw.fb, raw64, rawI, rawX, raw128, rawB, rawM, rawS, rawSX, Pop.qop, Pop.qid, Raw.pop, Raw.srcB, Raw.src3, Raw.srcX, Raw.addr, Raw.stAddr, Raw.off128, Raw.is128, Raw.f, intFn, fpFn, Raw.id6, Raw.ity, Raw.bty, Raw.t32, Raw.fty, Raw.hty, Raw.rm, Codec.bit, Codec.bit16, Codec.rmDyn, Codec.ctyF32] <;>
    (repeat' apply And.intro) <;> first | omega | (apply StSz.ofCode_of; omega) | (apply Hint.ofCode_of; omega) | (apply BitVec.eq_of_toNat_eq; simp; omega)

theorem Codec.lds (a0 : Hdr) (a1 : Sz) (a2 : Reg) (a3 : Addr) : Codec.Statement (.lds a0 a1 a2 a3) := by
  have h0 := a1.code_le
  intro r e
  obtain ⟨x3, _ | _⟩ := a3 <;> cases e <;>
    simp [fromRaw, fromRawMemory, Raw.hdr, Raw.shaped, Raw.isI, Raw.fx, Raw.fb, raw64, rawI, rawX, raw128, rawB, rawM, rawS, rawSX, Pop.qop, Pop.qid, Raw.pop, Raw.srcB, Raw.src3, Raw.srcX, Raw.addr, Raw.stAddr, Raw.off128, Raw.is128, Raw.f, intFn, fpFn, Raw.id6, Raw.ity, Raw.bty, Raw.t32, Raw.fty, Raw.hty, Raw.rm, Codec.bit, Codec.bit16, Codec.rmDyn, Codec.ctyF32] <;>
    (repeat' apply And.intro) <;> first | omega | (apply Sz.ofCode_of; omega) | (apply BitVec.eq_of_toNat_eq; simp; omega)

theorem Codec.sts (a0 : Hdr) (a1 : StSz) (a2 : StAddr) : Codec.Statement (.sts a0 a1 a2) := by
  have h0 := a1.code_le
  intro r e
  rcases a2 with ⟨x, y⟩ | ⟨x, y, _ | _ | _ | _, v⟩ <;> cases e <;>
    simp [fromRaw, fromRawMemory, Raw.hdr, Raw.shaped, Raw.isI, Raw.fx, Raw.fb, raw64, rawI, rawX, raw128, rawB, rawM, rawS, rawSX, Pop.qop, Pop.qid, Raw.pop, Raw.srcB, Raw.src3, Raw.srcX, Raw.addr, Raw.stAddr, Raw.off128, Raw.is128, Raw.f, intFn, fpFn, Raw.id6, Raw.ity, Raw.bty, Raw.t32, Raw.fty, Raw.hty, Raw.rm, Codec.bit, Codec.bit16, Codec.rmDyn, Codec.ctyF32] <;>
    (repeat' apply And.intro) <;> first | omega | (apply StSz.ofCode_of; omega) | (apply BitVec.eq_of_toNat_eq; simp; omega)

theorem Codec.ldc (a0 : Hdr) (a1 : Sz) (a2 : Reg) (a3 : Addr) : Codec.Statement (.ldc a0 a1 a2 a3) := by
  have h0 := a1.code_le
  intro r e
  obtain ⟨x3, _ | _⟩ := a3 <;> cases e <;>
    simp [fromRaw, fromRawMemory, Raw.hdr, Raw.shaped, Raw.isI, Raw.fx, Raw.fb, raw64, rawI, rawX, raw128, rawB, rawM, rawS, rawSX, Pop.qop, Pop.qid, Raw.pop, Raw.srcB, Raw.src3, Raw.srcX, Raw.addr, Raw.stAddr, Raw.off128, Raw.is128, Raw.f, intFn, fpFn, Raw.id6, Raw.ity, Raw.bty, Raw.t32, Raw.fty, Raw.hty, Raw.rm, Codec.bit, Codec.bit16, Codec.rmDyn, Codec.ctyF32] <;>
    (repeat' apply And.intro) <;> first | omega | (apply Sz.ofCode_of; omega) | (apply BitVec.eq_of_toNat_eq; simp; omega)

theorem Codec.ldw (a0 : Hdr) (a1 : Sz) (a2 : Reg) (a3 : Addr) : Codec.Statement (.ldw a0 a1 a2 a3) := by
  have h0 := a1.code_le
  intro r e
  obtain ⟨x3, _ | _⟩ := a3 <;> cases e <;>
    simp [fromRaw, fromRawMemory, Raw.hdr, Raw.shaped, Raw.isI, Raw.fx, Raw.fb, raw64, rawI, rawX, raw128, rawB, rawM, rawS, rawSX, Pop.qop, Pop.qid, Raw.pop, Raw.srcB, Raw.src3, Raw.srcX, Raw.addr, Raw.stAddr, Raw.off128, Raw.is128, Raw.f, intFn, fpFn, Raw.id6, Raw.ity, Raw.bty, Raw.t32, Raw.fty, Raw.hty, Raw.rm, Codec.bit, Codec.bit16, Codec.rmDyn, Codec.ctyF32] <;>
    (repeat' apply And.intro) <;> first | omega | (apply Sz.ofCode_of; omega) | (apply BitVec.eq_of_toNat_eq; simp; omega)

theorem Codec.stw (a0 : Hdr) (a1 : StSz) (a2 : StAddr) : Codec.Statement (.stw a0 a1 a2) := by
  have h0 := a1.code_le
  intro r e
  rcases a2 with ⟨x, y⟩ | ⟨x, y, _ | _ | _ | _, v⟩ <;> cases e <;>
    simp [fromRaw, fromRawSync, Raw.hdr, Raw.shaped, Raw.isI, Raw.fx, Raw.fb, raw64, rawI, rawX, raw128, rawB, rawM, rawS, rawSX, Pop.qop, Pop.qid, Raw.pop, Raw.srcB, Raw.src3, Raw.srcX, Raw.addr, Raw.stAddr, Raw.off128, Raw.is128, Raw.f, intFn, fpFn, Raw.id6, Raw.ity, Raw.bty, Raw.t32, Raw.fty, Raw.hty, Raw.rm, Codec.bit, Codec.bit16, Codec.rmDyn, Codec.ctyF32] <;>
    (repeat' apply And.intro) <;> first | omega | (apply StSz.ofCode_of; omega) | (apply BitVec.eq_of_toNat_eq; simp; omega)

theorem Codec.ldq (a0 : Hdr) (a1 : Reg) (a2 : Addr) : Codec.Statement (.ldq a0 a1 a2) := by
  intro r e
  obtain ⟨x2, _ | _⟩ := a2 <;> cases e <;>
    simp [fromRaw, fromRawMemory, Raw.hdr, Raw.shaped, Raw.isI, Raw.fx, Raw.fb, raw64, rawI, rawX, raw128, rawB, rawM, rawS, rawSX, Pop.qop, Pop.qid, Raw.pop, Raw.srcB, Raw.src3, Raw.srcX, Raw.addr, Raw.stAddr, Raw.off128, Raw.is128, Raw.f, intFn, fpFn, Raw.id6, Raw.ity, Raw.bty, Raw.t32, Raw.fty, Raw.hty, Raw.rm, Codec.bit, Codec.bit16, Codec.rmDyn, Codec.ctyF32]

theorem Codec.ldqScratch (a0 : Hdr) (a1 : Reg) (a2 : Addr) : Codec.Statement (.ldqScratch a0 a1 a2) := by
  intro r e
  obtain ⟨x2, _ | _⟩ := a2 <;> cases e <;>
    simp [fromRaw, fromRawMemory, Raw.hdr, Raw.shaped, Raw.isI, Raw.fx, Raw.fb, raw64, rawI, rawX, raw128, rawB, rawM, rawS, rawSX, Pop.qop, Pop.qid, Raw.pop, Raw.srcB, Raw.src3, Raw.srcX, Raw.addr, Raw.stAddr, Raw.off128, Raw.is128, Raw.f, intFn, fpFn, Raw.id6, Raw.ity, Raw.bty, Raw.t32, Raw.fty, Raw.hty, Raw.rm, Codec.bit, Codec.bit16, Codec.rmDyn, Codec.ctyF32]

theorem Codec.popq (a0 : Hdr) (a1 : PopN) (a2 : Reg) (a3 : BitVec 3) : Codec.Statement (.popq a0 a1 a2 a3) := by
  have h0 := a1.code_le
  have h1 := a3.isLt
  simp only [Nat.reducePow] at *
  intro r e
  cases e
  simp [fromRaw, fromRawMemory, Raw.hdr, Raw.shaped, Raw.isI, Raw.fx, Raw.fb, raw64, rawI, rawX, raw128, rawB, rawM, rawS, rawSX, Pop.qop, Pop.qid, Raw.pop, Raw.srcB, Raw.src3, Raw.srcX, Raw.addr, Raw.stAddr, Raw.off128, Raw.is128, Raw.f, intFn, fpFn, Raw.id6, Raw.ity, Raw.bty, Raw.t32, Raw.fty, Raw.hty, Raw.rm, Codec.bit, Codec.bit16, Codec.rmDyn, Codec.ctyF32] <;>
    (repeat' apply And.intro) <;> first | omega | (apply PopN.ofCode_of; omega) | (apply BitVec.eq_of_toNat_eq; simp; omega)

theorem Codec.atom (a0 : Hdr) (a1 : ITy) (a2 : Bool) (a3 : Reg) (a4 : AtomArg) : Codec.Statement (.atom a0 a1 a2 a3 a4) := by
  have h0 := a1.code_le
  intro r e
  rcases a4 with ⟨o, x⟩ | ⟨x, y, z, _ | _ | _ | _⟩ | ⟨⟨x, y, z, _ | _ | _ | _⟩, v⟩
  · have h1 := o.code_le
    have h2 := o.code_ne
    rcases x with ⟨x, y⟩ | ⟨x, y, _ | _ | _ | _, v⟩ <;> cases a2 <;> cases e <;>
      simp [fromRaw, fromRawMemory, Raw.hdr, Raw.shaped, Raw.isI, Raw.fx, Raw.fb, raw64, rawI, rawX, raw128, rawB, rawM, rawS, rawSX, Pop.qop, Pop.qid, Raw.pop, Raw.srcB, Raw.src3, Raw.srcX, Raw.addr, Raw.stAddr, Raw.off128, Raw.is128, Raw.f, intFn, fpFn, Raw.id6, Raw.ity, Raw.bty, Raw.t32, Raw.fty, Raw.hty, Raw.rm, Codec.bit, Codec.bit16, Codec.rmDyn, Codec.ctyF32, rawAtom, Raw.atomArg, AOp.code_ne o] <;>
      (repeat' apply And.intro) <;> first | omega | (apply ITy.ofCode_of; omega) | (apply AOp.ofCode_of; omega) | (split <;> first | omega | (congr; apply AOp.ofCode_of; omega))
  all_goals
    cases a2 <;> cases e <;>
      simp [fromRaw, fromRawMemory, Raw.hdr, Raw.shaped, Raw.isI, Raw.fx, Raw.fb, raw64, rawI, rawX, raw128, rawB, rawM, rawS, rawSX, Pop.qop, Pop.qid, Raw.pop, Raw.srcB, Raw.src3, Raw.srcX, Raw.addr, Raw.stAddr, Raw.off128, Raw.is128, Raw.f, intFn, fpFn, Raw.id6, Raw.ity, Raw.bty, Raw.t32, Raw.fty, Raw.hty, Raw.rm, Codec.bit, Codec.bit16, Codec.rmDyn, Codec.ctyF32, rawAtom, Raw.atomArg] <;>
      (repeat' apply And.intro) <;> first | omega | (apply ITy.ofCode_of; omega) | (apply AOp.ofCode_of; omega) | (split <;> first | omega | (congr; apply AOp.ofCode_of; omega))

theorem Codec.atomf (a0 : Hdr) (a1 : FAOp) (a2 : FTy) (a3 : Bool) (a4 : Reg) (a5 : StAddr) : Codec.Statement (.atomf a0 a1 a2 a3 a4 a5) := by
  have h0 := a1.code_le
  have h1 := a2.code_le
  intro r e
  cases a3 <;> rcases a5 with ⟨x, y⟩ | ⟨x, y, _ | _ | _ | _, v⟩ <;> cases e <;>
    simp [fromRaw, fromRawMemory, Raw.hdr, Raw.shaped, Raw.isI, Raw.fx, Raw.fb, raw64, rawI, rawX, raw128, rawB, rawM, rawS, rawSX, Pop.qop, Pop.qid, Raw.pop, Raw.srcB, Raw.src3, Raw.srcX, Raw.addr, Raw.stAddr, Raw.off128, Raw.is128, Raw.f, intFn, fpFn, Raw.id6, Raw.ity, Raw.bty, Raw.t32, Raw.fty, Raw.hty, Raw.rm, Codec.bit, Codec.bit16, Codec.rmDyn, Codec.ctyF32] <;>
    (repeat' apply And.intro) <;> first | omega | (apply FAOp.ofCode_of; omega) | (apply FTy.ofCode_of; omega) | (apply BitVec.eq_of_toNat_eq; simp; omega)

theorem Codec.red (a0 : Hdr) (a1 : ROp) (a2 : ITy) (a3 : Bool) (a4 : StAddr) : Codec.Statement (.red a0 a1 a2 a3 a4) := by
  have h0 := a1.code_le
  have h1 := a2.code_le
  intro r e
  cases a3 <;> rcases a4 with ⟨x, y⟩ | ⟨x, y, _ | _ | _ | _, v⟩ <;> cases e <;>
    simp [fromRaw, fromRawMemory, Raw.hdr, Raw.shaped, Raw.isI, Raw.fx, Raw.fb, raw64, rawI, rawX, raw128, rawB, rawM, rawS, rawSX, Pop.qop, Pop.qid, Raw.pop, Raw.srcB, Raw.src3, Raw.srcX, Raw.addr, Raw.stAddr, Raw.off128, Raw.is128, Raw.f, intFn, fpFn, Raw.id6, Raw.ity, Raw.bty, Raw.t32, Raw.fty, Raw.hty, Raw.rm, Codec.bit, Codec.bit16, Codec.rmDyn, Codec.ctyF32] <;>
    (repeat' apply And.intro) <;> first | omega | (apply ROp.ofCode_of; omega) | (apply ITy.ofCode_of; omega) | (apply BitVec.eq_of_toNat_eq; simp; omega)

theorem Codec.redf (a0 : Hdr) (a1 : FAOp) (a2 : FTy) (a3 : Bool) (a4 : StAddr) : Codec.Statement (.redf a0 a1 a2 a3 a4) := by
  have h0 := a1.code_le
  have h1 := a2.code_le
  intro r e
  cases a3 <;> rcases a4 with ⟨x, y⟩ | ⟨x, y, _ | _ | _ | _, v⟩ <;> cases e <;>
    simp [fromRaw, fromRawMemory, Raw.hdr, Raw.shaped, Raw.isI, Raw.fx, Raw.fb, raw64, rawI, rawX, raw128, rawB, rawM, rawS, rawSX, Pop.qop, Pop.qid, Raw.pop, Raw.srcB, Raw.src3, Raw.srcX, Raw.addr, Raw.stAddr, Raw.off128, Raw.is128, Raw.f, intFn, fpFn, Raw.id6, Raw.ity, Raw.bty, Raw.t32, Raw.fty, Raw.hty, Raw.rm, Codec.bit, Codec.bit16, Codec.rmDyn, Codec.ctyF32] <;>
    (repeat' apply And.intro) <;> first | omega | (apply FAOp.ofCode_of; omega) | (apply FTy.ofCode_of; omega) | (apply BitVec.eq_of_toNat_eq; simp; omega)

theorem Codec.acq (a0 : Hdr) (a1 : Scope) : Codec.Statement (.acq a0 a1) := by
  have h0 := a1.code_le
  intro r e
  cases e
  simp [fromRaw, fromRawMemory, Raw.hdr, Raw.shaped, Raw.isI, Raw.fx, Raw.fb, raw64, rawI, rawX, raw128, rawB, rawM, rawS, rawSX, Pop.qop, Pop.qid, Raw.pop, Raw.srcB, Raw.src3, Raw.srcX, Raw.addr, Raw.stAddr, Raw.off128, Raw.is128, Raw.f, intFn, fpFn, Raw.id6, Raw.ity, Raw.bty, Raw.t32, Raw.fty, Raw.hty, Raw.rm, Codec.bit, Codec.bit16, Codec.rmDyn, Codec.ctyF32] <;>
    (repeat' apply And.intro) <;> first | omega | (apply Scope.ofCode_of; omega) | (apply BitVec.eq_of_toNat_eq; simp; omega)

theorem Codec.rel (a0 : Hdr) (a1 : Scope) : Codec.Statement (.rel a0 a1) := by
  have h0 := a1.code_le
  intro r e
  cases e
  simp [fromRaw, fromRawMemory, Raw.hdr, Raw.shaped, Raw.isI, Raw.fx, Raw.fb, raw64, rawI, rawX, raw128, rawB, rawM, rawS, rawSX, Pop.qop, Pop.qid, Raw.pop, Raw.srcB, Raw.src3, Raw.srcX, Raw.addr, Raw.stAddr, Raw.off128, Raw.is128, Raw.f, intFn, fpFn, Raw.id6, Raw.ity, Raw.bty, Raw.t32, Raw.fty, Raw.hty, Raw.rm, Codec.bit, Codec.bit16, Codec.rmDyn, Codec.ctyF32] <;>
    (repeat' apply And.intro) <;> first | omega | (apply Scope.ofCode_of; omega) | (apply BitVec.eq_of_toNat_eq; simp; omega)

theorem Codec.waitc (a0 : Hdr) (a1 : Ctr) (a2 : BitVec 6) : Codec.Statement (.waitc a0 a1 a2) := by
  have h0 := a1.code_le
  have h1 := a2.isLt
  simp only [Nat.reducePow] at *
  intro r e
  cases e
  simp [fromRaw, fromRawMemory, Raw.hdr, Raw.shaped, Raw.isI, Raw.fx, Raw.fb, raw64, rawI, rawX, raw128, rawB, rawM, rawS, rawSX, Pop.qop, Pop.qid, Raw.pop, Raw.srcB, Raw.src3, Raw.srcX, Raw.addr, Raw.stAddr, Raw.off128, Raw.is128, Raw.f, intFn, fpFn, Raw.id6, Raw.ity, Raw.bty, Raw.t32, Raw.fty, Raw.hty, Raw.rm, Codec.bit, Codec.bit16, Codec.rmDyn, Codec.ctyF32] <;>
    (repeat' apply And.intro) <;> first | omega | (apply Ctr.ofCode_of; omega) | (apply BitVec.eq_of_toNat_eq; simp; omega)

theorem Codec.cctlIvall (a0 : Hdr) : Codec.Statement (.cctlIvall a0) := by
  intro r e
  cases e
  simp [fromRaw, fromRawMemory, Raw.hdr, Raw.shaped, Raw.isI, Raw.fx, Raw.fb, raw64, rawI, rawX, raw128, rawB, rawM, rawS, rawSX, Pop.qop, Pop.qid, Raw.pop, Raw.srcB, Raw.src3, Raw.srcX, Raw.addr, Raw.stAddr, Raw.off128, Raw.is128, Raw.f, intFn, fpFn, Raw.id6, Raw.ity, Raw.bty, Raw.t32, Raw.fty, Raw.hty, Raw.rm, Codec.bit, Codec.bit16, Codec.rmDyn, Codec.ctyF32]

theorem Codec.cctlWbl (a0 : Hdr) (a1 : Addr) : Codec.Statement (.cctlWbl a0 a1) := by
  intro r e
  obtain ⟨x1, _ | _⟩ := a1 <;> cases e <;>
    simp [fromRaw, fromRawMemory, Raw.hdr, Raw.shaped, Raw.isI, Raw.fx, Raw.fb, raw64, rawI, rawX, raw128, rawB, rawM, rawS, rawSX, Pop.qop, Pop.qid, Raw.pop, Raw.srcB, Raw.src3, Raw.srcX, Raw.addr, Raw.stAddr, Raw.off128, Raw.is128, Raw.f, intFn, fpFn, Raw.id6, Raw.ity, Raw.bty, Raw.t32, Raw.fty, Raw.hty, Raw.rm, Codec.bit, Codec.bit16, Codec.rmDyn, Codec.ctyF32]

theorem Codec.cctlInvl (a0 : Hdr) (a1 : Addr) : Codec.Statement (.cctlInvl a0 a1) := by
  intro r e
  obtain ⟨x1, _ | _⟩ := a1 <;> cases e <;>
    simp [fromRaw, fromRawMemory, Raw.hdr, Raw.shaped, Raw.isI, Raw.fx, Raw.fb, raw64, rawI, rawX, raw128, rawB, rawM, rawS, rawSX, Pop.qop, Pop.qid, Raw.pop, Raw.srcB, Raw.src3, Raw.srcX, Raw.addr, Raw.stAddr, Raw.off128, Raw.is128, Raw.f, intFn, fpFn, Raw.id6, Raw.ity, Raw.bty, Raw.t32, Raw.fty, Raw.hty, Raw.rm, Codec.bit, Codec.bit16, Codec.rmDyn, Codec.ctyF32]

theorem Codec.cctlKwb (a0 : Hdr) (a1 : Addr) : Codec.Statement (.cctlKwb a0 a1) := by
  intro r e
  obtain ⟨x1, _ | _⟩ := a1 <;> cases e <;>
    simp [fromRaw, fromRawMemory, Raw.hdr, Raw.shaped, Raw.isI, Raw.fx, Raw.fb, raw64, rawI, rawX, raw128, rawB, rawM, rawS, rawSX, Pop.qop, Pop.qid, Raw.pop, Raw.srcB, Raw.src3, Raw.srcX, Raw.addr, Raw.stAddr, Raw.off128, Raw.is128, Raw.f, intFn, fpFn, Raw.id6, Raw.ity, Raw.bty, Raw.t32, Raw.fty, Raw.hty, Raw.rm, Codec.bit, Codec.bit16, Codec.rmDyn, Codec.ctyF32]

theorem Codec.cctlKinv (a0 : Hdr) (a1 : Addr) : Codec.Statement (.cctlKinv a0 a1) := by
  intro r e
  obtain ⟨x1, _ | _⟩ := a1 <;> cases e <;>
    simp [fromRaw, fromRawMemory, Raw.hdr, Raw.shaped, Raw.isI, Raw.fx, Raw.fb, raw64, rawI, rawX, raw128, rawB, rawM, rawS, rawSX, Pop.qop, Pop.qid, Raw.pop, Raw.srcB, Raw.src3, Raw.srcX, Raw.addr, Raw.stAddr, Raw.off128, Raw.is128, Raw.f, intFn, fpFn, Raw.id6, Raw.ity, Raw.bty, Raw.t32, Raw.fty, Raw.hty, Raw.rm, Codec.bit, Codec.bit16, Codec.rmDyn, Codec.ctyF32]

theorem Codec.pref (a0 : Hdr) (a1 : PrefTo) (a2 : Addr) : Codec.Statement (.pref a0 a1 a2) := by
  have h0 := a1.code_le
  intro r e
  obtain ⟨x2, _ | _⟩ := a2 <;> cases e <;>
    simp [fromRaw, fromRawMemory, Raw.hdr, Raw.shaped, Raw.isI, Raw.fx, Raw.fb, raw64, rawI, rawX, raw128, rawB, rawM, rawS, rawSX, Pop.qop, Pop.qid, Raw.pop, Raw.srcB, Raw.src3, Raw.srcX, Raw.addr, Raw.stAddr, Raw.off128, Raw.is128, Raw.f, intFn, fpFn, Raw.id6, Raw.ity, Raw.bty, Raw.t32, Raw.fty, Raw.hty, Raw.rm, Codec.bit, Codec.bit16, Codec.rmDyn, Codec.ctyF32] <;>
    (repeat' apply And.intro) <;> first | omega | (apply PrefTo.ofCode_of; omega) | (apply BitVec.eq_of_toNat_eq; simp; omega)

theorem Codec.bara (a0 : Hdr) (a1 : BitVec 6) : Codec.Statement (.bara a0 a1) := by
  have h0 := a1.isLt
  simp only [Nat.reducePow] at *
  intro r e
  cases e
  simp [fromRaw, fromRawSync, Raw.hdr, Raw.shaped, Raw.isI, Raw.fx, Raw.fb, raw64, rawI, rawX, raw128, rawB, rawM, rawS, rawSX, Pop.qop, Pop.qid, Raw.pop, Raw.srcB, Raw.src3, Raw.srcX, Raw.addr, Raw.stAddr, Raw.off128, Raw.is128, Raw.f, intFn, fpFn, Raw.id6, Raw.ity, Raw.bty, Raw.t32, Raw.fty, Raw.hty, Raw.rm, Codec.bit, Codec.bit16, Codec.rmDyn, Codec.ctyF32] <;>
    (repeat' apply And.intro) <;> first | omega | (apply BitVec.eq_of_toNat_eq; simp; omega)

theorem Codec.barw (a0 : Hdr) (a1 : BitVec 6) : Codec.Statement (.barw a0 a1) := by
  have h0 := a1.isLt
  simp only [Nat.reducePow] at *
  intro r e
  cases e
  simp [fromRaw, fromRawSync, Raw.hdr, Raw.shaped, Raw.isI, Raw.fx, Raw.fb, raw64, rawI, rawX, raw128, rawB, rawM, rawS, rawSX, Pop.qop, Pop.qid, Raw.pop, Raw.srcB, Raw.src3, Raw.srcX, Raw.addr, Raw.stAddr, Raw.off128, Raw.is128, Raw.f, intFn, fpFn, Raw.id6, Raw.ity, Raw.bty, Raw.t32, Raw.fty, Raw.hty, Raw.rm, Codec.bit, Codec.bit16, Codec.rmDyn, Codec.ctyF32] <;>
    (repeat' apply And.intro) <;> first | omega | (apply BitVec.eq_of_toNat_eq; simp; omega)

theorem Codec.bars (a0 : Hdr) (a1 : BitVec 6) : Codec.Statement (.bars a0 a1) := by
  have h0 := a1.isLt
  simp only [Nat.reducePow] at *
  intro r e
  cases e
  simp [fromRaw, fromRawSync, Raw.hdr, Raw.shaped, Raw.isI, Raw.fx, Raw.fb, raw64, rawI, rawX, raw128, rawB, rawM, rawS, rawSX, Pop.qop, Pop.qid, Raw.pop, Raw.srcB, Raw.src3, Raw.srcX, Raw.addr, Raw.stAddr, Raw.off128, Raw.is128, Raw.f, intFn, fpFn, Raw.id6, Raw.ity, Raw.bty, Raw.t32, Raw.fty, Raw.hty, Raw.rm, Codec.bit, Codec.bit16, Codec.rmDyn, Codec.ctyF32] <;>
    (repeat' apply And.intro) <;> first | omega | (apply BitVec.eq_of_toNat_eq; simp; omega)

theorem Codec.barinit (a0 : Hdr) (a1 : BitVec 6) (a2 : SrcB) : Codec.Statement (.barinit a0 a1 a2) := by
  have h0 := a1.isLt
  simp only [Nat.reducePow] at *
  intro r e
  cases a2 <;> cases e <;>
    simp [fromRaw, fromRawSync, Raw.hdr, Raw.shaped, Raw.isI, Raw.fx, Raw.fb, raw64, rawI, rawX, raw128, rawB, rawM, rawS, rawSX, Pop.qop, Pop.qid, Raw.pop, Raw.srcB, Raw.src3, Raw.srcX, Raw.addr, Raw.stAddr, Raw.off128, Raw.is128, Raw.f, intFn, fpFn, Raw.id6, Raw.ity, Raw.bty, Raw.t32, Raw.fty, Raw.hty, Raw.rm, Codec.bit, Codec.bit16, Codec.rmDyn, Codec.ctyF32] <;>
    (repeat' apply And.intro) <;> first | omega | (apply BitVec.eq_of_toNat_eq; simp; omega)

theorem Codec.barq (a0 : Hdr) (a1 : Reg) (a2 : BitVec 6) : Codec.Statement (.barq a0 a1 a2) := by
  have h0 := a2.isLt
  simp only [Nat.reducePow] at *
  intro r e
  cases e
  simp [fromRaw, fromRawSync, Raw.hdr, Raw.shaped, Raw.isI, Raw.fx, Raw.fb, raw64, rawI, rawX, raw128, rawB, rawM, rawS, rawSX, Pop.qop, Pop.qid, Raw.pop, Raw.srcB, Raw.src3, Raw.srcX, Raw.addr, Raw.stAddr, Raw.off128, Raw.is128, Raw.f, intFn, fpFn, Raw.id6, Raw.ity, Raw.bty, Raw.t32, Raw.fty, Raw.hty, Raw.rm, Codec.bit, Codec.bit16, Codec.rmDyn, Codec.ctyF32] <;>
    (repeat' apply And.intro) <;> first | omega | (apply BitVec.eq_of_toNat_eq; simp; omega)

theorem Codec.marv (a0 : Hdr) (a1 : Scope) (a2 : Addr) : Codec.Statement (.marv a0 a1 a2) := by
  have h0 := a1.code_le
  intro r e
  obtain ⟨x2, _ | _⟩ := a2 <;> cases e <;>
    simp [fromRaw, fromRawSync, Raw.hdr, Raw.shaped, Raw.isI, Raw.fx, Raw.fb, raw64, rawI, rawX, raw128, rawB, rawM, rawS, rawSX, Pop.qop, Pop.qid, Raw.pop, Raw.srcB, Raw.src3, Raw.srcX, Raw.addr, Raw.stAddr, Raw.off128, Raw.is128, Raw.f, intFn, fpFn, Raw.id6, Raw.ity, Raw.bty, Raw.t32, Raw.fty, Raw.hty, Raw.rm, Codec.bit, Codec.bit16, Codec.rmDyn, Codec.ctyF32] <;>
    (repeat' apply And.intro) <;> first | omega | (apply Scope.ofCode_of; omega) | (apply BitVec.eq_of_toNat_eq; simp; omega)

theorem Codec.mwait (a0 : Hdr) (a1 : Scope) (a2 : StAddr) : Codec.Statement (.mwait a0 a1 a2) := by
  have h0 := a1.code_le
  intro r e
  rcases a2 with ⟨x, y⟩ | ⟨x, y, _ | _ | _ | _, v⟩ <;> cases e <;>
    simp [fromRaw, fromRawSync, Raw.hdr, Raw.shaped, Raw.isI, Raw.fx, Raw.fb, raw64, rawI, rawX, raw128, rawB, rawM, rawS, rawSX, Pop.qop, Pop.qid, Raw.pop, Raw.srcB, Raw.src3, Raw.srcX, Raw.addr, Raw.stAddr, Raw.off128, Raw.is128, Raw.f, intFn, fpFn, Raw.id6, Raw.ity, Raw.bty, Raw.t32, Raw.fty, Raw.hty, Raw.rm, Codec.bit, Codec.bit16, Codec.rmDyn, Codec.ctyF32] <;>
    (repeat' apply And.intro) <;> first | omega | (apply Scope.ofCode_of; omega) | (apply BitVec.eq_of_toNat_eq; simp; omega)

theorem Codec.sleep (a0 : Hdr) (a1 : SrcB) : Codec.Statement (.sleep a0 a1) := by
  intro r e
  cases a1 <;> cases e <;>
    simp [fromRaw, fromRawSync, Raw.hdr, Raw.shaped, Raw.isI, Raw.fx, Raw.fb, raw64, rawI, rawX, raw128, rawB, rawM, rawS, rawSX, Pop.qop, Pop.qid, Raw.pop, Raw.srcB, Raw.src3, Raw.srcX, Raw.addr, Raw.stAddr, Raw.off128, Raw.is128, Raw.f, intFn, fpFn, Raw.id6, Raw.ity, Raw.bty, Raw.t32, Raw.fty, Raw.hty, Raw.rm, Codec.bit, Codec.bit16, Codec.rmDyn, Codec.ctyF32]

theorem Codec.sleept (a0 : Hdr) (a1 : Reg) (a2 : Reg) : Codec.Statement (.sleept a0 a1 a2) := by
  intro r e
  cases e
  simp [fromRaw, fromRawSync, Raw.hdr, Raw.shaped, Raw.isI, Raw.fx, Raw.fb, raw64, rawI, rawX, raw128, rawB, rawM, rawS, rawSX, Pop.qop, Pop.qid, Raw.pop, Raw.srcB, Raw.src3, Raw.srcX, Raw.addr, Raw.stAddr, Raw.off128, Raw.is128, Raw.f, intFn, fpFn, Raw.id6, Raw.ity, Raw.bty, Raw.t32, Raw.fty, Raw.hty, Raw.rm, Codec.bit, Codec.bit16, Codec.rmDyn, Codec.ctyF32]

theorem Codec.watch (a0 : Hdr) (a1 : BitVec 2) (a2 : Addr) : Codec.Statement (.watch a0 a1 a2) := by
  have h0 := a1.isLt
  simp only [Nat.reducePow] at *
  intro r e
  obtain ⟨x2, _ | _⟩ := a2 <;> cases e <;>
    simp [fromRaw, fromRawSync, Raw.hdr, Raw.shaped, Raw.isI, Raw.fx, Raw.fb, raw64, rawI, rawX, raw128, rawB, rawM, rawS, rawSX, Pop.qop, Pop.qid, Raw.pop, Raw.srcB, Raw.src3, Raw.srcX, Raw.addr, Raw.stAddr, Raw.off128, Raw.is128, Raw.f, intFn, fpFn, Raw.id6, Raw.ity, Raw.bty, Raw.t32, Raw.fty, Raw.hty, Raw.rm, Codec.bit, Codec.bit16, Codec.rmDyn, Codec.ctyF32] <;>
    (repeat' apply And.intro) <;> first | omega | (apply BitVec.eq_of_toNat_eq; simp; omega)

theorem Codec.waitw (a0 : Hdr) (a1 : BitVec 4) (a2 : Reg) : Codec.Statement (.waitw a0 a1 a2) := by
  have h0 := a1.isLt
  simp only [Nat.reducePow] at *
  intro r e
  cases e
  simp [fromRaw, fromRawSync, Raw.hdr, Raw.shaped, Raw.isI, Raw.fx, Raw.fb, raw64, rawI, rawX, raw128, rawB, rawM, rawS, rawSX, Pop.qop, Pop.qid, Raw.pop, Raw.srcB, Raw.src3, Raw.srcX, Raw.addr, Raw.stAddr, Raw.off128, Raw.is128, Raw.f, intFn, fpFn, Raw.id6, Raw.ity, Raw.bty, Raw.t32, Raw.fty, Raw.hty, Raw.rm, Codec.bit, Codec.bit16, Codec.rmDyn, Codec.ctyF32] <;>
    (repeat' apply And.intro) <;> first | omega | (apply BitVec.eq_of_toNat_eq; simp; omega)

theorem Codec.cpya (a0 : Hdr) (a1 : CpyDir) (a2 : Reg) (a3 : Src3) : Codec.Statement (.cpya a0 a1 a2 a3) := by
  have h0 := a1.code_le
  intro r e
  obtain ⟨x3, y3, z3, _ | _ | _ | _⟩ := a3 <;> cases e <;>
    simp [fromRaw, fromRawSync, Raw.hdr, Raw.shaped, Raw.isI, Raw.fx, Raw.fb, raw64, rawI, rawX, raw128, rawB, rawM, rawS, rawSX, Pop.qop, Pop.qid, Raw.pop, Raw.srcB, Raw.src3, Raw.srcX, Raw.addr, Raw.stAddr, Raw.off128, Raw.is128, Raw.f, intFn, fpFn, Raw.id6, Raw.ity, Raw.bty, Raw.t32, Raw.fty, Raw.hty, Raw.rm, Codec.bit, Codec.bit16, Codec.rmDyn, Codec.ctyF32] <;>
    (repeat' apply And.intro) <;> first | omega | (apply CpyDir.ofCode_of; omega) | (apply BitVec.eq_of_toNat_eq; simp; omega)

theorem Codec.cpyw (a0 : Hdr) (a1 : Reg) (a2 : Reg) : Codec.Statement (.cpyw a0 a1 a2) := by
  intro r e
  cases e
  simp [fromRaw, fromRawSync, Raw.hdr, Raw.shaped, Raw.isI, Raw.fx, Raw.fb, raw64, rawI, rawX, raw128, rawB, rawM, rawS, rawSX, Pop.qop, Pop.qid, Raw.pop, Raw.srcB, Raw.src3, Raw.srcX, Raw.addr, Raw.stAddr, Raw.off128, Raw.is128, Raw.f, intFn, fpFn, Raw.id6, Raw.ity, Raw.bty, Raw.t32, Raw.fty, Raw.hty, Raw.rm, Codec.bit, Codec.bit16, Codec.rmDyn, Codec.ctyF32]

theorem Codec.cpyq (a0 : Hdr) (a1 : Reg) (a2 : Reg) (a3 : Reg) : Codec.Statement (.cpyq a0 a1 a2 a3) := by
  intro r e
  cases e
  simp [fromRaw, fromRawSync, Raw.hdr, Raw.shaped, Raw.isI, Raw.fx, Raw.fb, raw64, rawI, rawX, raw128, rawB, rawM, rawS, rawSX, Pop.qop, Pop.qid, Raw.pop, Raw.srcB, Raw.src3, Raw.srcX, Raw.addr, Raw.stAddr, Raw.off128, Raw.is128, Raw.f, intFn, fpFn, Raw.id6, Raw.ity, Raw.bty, Raw.t32, Raw.fty, Raw.hty, Raw.rm, Codec.bit, Codec.bit16, Codec.rmDyn, Codec.ctyF32]

theorem Codec.gath (a0 : Hdr) (a1 : Bool) (a2 : BitVec 3) (a3 : Bool) (a4 : Reg) (a5 : Reg) (a6 : Reg) : Codec.Statement (.gath a0 a1 a2 a3 a4 a5 a6) := by
  have h0 := a2.isLt
  simp only [Nat.reducePow] at *
  intro r e
  cases a1 <;> cases a3 <;> cases e <;>
    simp [fromRaw, fromRawSync, Raw.hdr, Raw.shaped, Raw.isI, Raw.fx, Raw.fb, raw64, rawI, rawX, raw128, rawB, rawM, rawS, rawSX, Pop.qop, Pop.qid, Raw.pop, Raw.srcB, Raw.src3, Raw.srcX, Raw.addr, Raw.stAddr, Raw.off128, Raw.is128, Raw.f, intFn, fpFn, Raw.id6, Raw.ity, Raw.bty, Raw.t32, Raw.fty, Raw.hty, Raw.rm, Codec.bit, Codec.bit16, Codec.rmDyn, Codec.ctyF32] <;>
    (repeat' apply And.intro) <;> first | omega | (apply BitVec.eq_of_toNat_eq; simp; omega)

theorem Codec.scat (a0 : Hdr) (a1 : Bool) (a2 : BitVec 3) (a3 : Bool) (a4 : Src3) : Codec.Statement (.scat a0 a1 a2 a3 a4) := by
  have h0 := a2.isLt
  simp only [Nat.reducePow] at *
  intro r e
  cases a1 <;> cases a3 <;> obtain ⟨x4, y4, z4, _ | _ | _ | _⟩ := a4 <;> cases e <;>
    simp [fromRaw, fromRawSync, Raw.hdr, Raw.shaped, Raw.isI, Raw.fx, Raw.fb, raw64, rawI, rawX, raw128, rawB, rawM, rawS, rawSX, Pop.qop, Pop.qid, Raw.pop, Raw.srcB, Raw.src3, Raw.srcX, Raw.addr, Raw.stAddr, Raw.off128, Raw.is128, Raw.f, intFn, fpFn, Raw.id6, Raw.ity, Raw.bty, Raw.t32, Raw.fty, Raw.hty, Raw.rm, Codec.bit, Codec.bit16, Codec.rmDyn, Codec.ctyF32] <;>
    (repeat' apply And.intro) <;> first | omega | (apply BitVec.eq_of_toNat_eq; simp; omega)

theorem Codec.wld (a0 : Hdr) (a1 : WFmt) (a2 : Reg) (a3 : Reg) (a4 : Option Word) : Codec.Statement (.wld a0 a1 a2 a3 a4) := by
  have h0 := a1.code_le
  intro r e
  cases a4 <;> cases e <;>
    simp [fromRaw, fromRawSystem, Raw.hdr, Raw.shaped, Raw.isI, Raw.fx, Raw.fb, raw64, rawI, rawX, raw128, rawB, rawM, rawS, rawSX, Pop.qop, Pop.qid, Raw.pop, Raw.srcB, Raw.src3, Raw.srcX, Raw.addr, Raw.stAddr, Raw.off128, Raw.is128, Raw.f, intFn, fpFn, Raw.id6, Raw.ity, Raw.bty, Raw.t32, Raw.fty, Raw.hty, Raw.rm, Codec.bit, Codec.bit16, Codec.rmDyn, Codec.ctyF32] <;>
    (repeat' apply And.intro) <;> first | omega | (apply WFmt.ofCode_of; omega) | (apply BitVec.eq_of_toNat_eq; simp; omega)

theorem Codec.wswap (a0 : Hdr) : Codec.Statement (.wswap a0) := by
  intro r e
  cases e
  simp [fromRaw, fromRawSystem, Raw.hdr, Raw.shaped, Raw.isI, Raw.fx, Raw.fb, raw64, rawI, rawX, raw128, rawB, rawM, rawS, rawSX, Pop.qop, Pop.qid, Raw.pop, Raw.srcB, Raw.src3, Raw.srcX, Raw.addr, Raw.stAddr, Raw.off128, Raw.is128, Raw.f, intFn, fpFn, Raw.id6, Raw.ity, Raw.bty, Raw.t32, Raw.fty, Raw.hty, Raw.rm, Codec.bit, Codec.bit16, Codec.rmDyn, Codec.ctyF32]

theorem Codec.mms (a0 : Hdr) (a1 : Reg) (a2 : Addr) : Codec.Statement (.mms a0 a1 a2) := by
  intro r e
  obtain ⟨x2, _ | _⟩ := a2 <;> cases e <;>
    simp [fromRaw, fromRawSystem, Raw.hdr, Raw.shaped, Raw.isI, Raw.fx, Raw.fb, raw64, rawI, rawX, raw128, rawB, rawM, rawS, rawSX, Pop.qop, Pop.qid, Raw.pop, Raw.srcB, Raw.src3, Raw.srcX, Raw.addr, Raw.stAddr, Raw.off128, Raw.is128, Raw.f, intFn, fpFn, Raw.id6, Raw.ity, Raw.bty, Raw.t32, Raw.fty, Raw.hty, Raw.rm, Codec.bit, Codec.bit16, Codec.rmDyn, Codec.ctyF32]

theorem Codec.mqry (a0 : Hdr) (a1 : Reg) (a2 : Reg) : Codec.Statement (.mqry a0 a1 a2) := by
  intro r e
  cases e
  simp [fromRaw, fromRawSystem, Raw.hdr, Raw.shaped, Raw.isI, Raw.fx, Raw.fb, raw64, rawI, rawX, raw128, rawB, rawM, rawS, rawSX, Pop.qop, Pop.qid, Raw.pop, Raw.srcB, Raw.src3, Raw.srcX, Raw.addr, Raw.stAddr, Raw.off128, Raw.is128, Raw.f, intFn, fpFn, Raw.id6, Raw.ity, Raw.bty, Raw.t32, Raw.fty, Raw.hty, Raw.rm, Codec.bit, Codec.bit16, Codec.rmDyn, Codec.ctyF32]

theorem Codec.mfold (a0 : Hdr) (a1 : Reg) : Codec.Statement (.mfold a0 a1) := by
  intro r e
  cases e
  simp [fromRaw, fromRawSystem, Raw.hdr, Raw.shaped, Raw.isI, Raw.fx, Raw.fb, raw64, rawI, rawX, raw128, rawB, rawM, rawS, rawSX, Pop.qop, Pop.qid, Raw.pop, Raw.srcB, Raw.src3, Raw.srcX, Raw.addr, Raw.stAddr, Raw.off128, Raw.is128, Raw.f, intFn, fpFn, Raw.id6, Raw.ity, Raw.bty, Raw.t32, Raw.fty, Raw.hty, Raw.rm, Codec.bit, Codec.bit16, Codec.rmDyn, Codec.ctyF32]

theorem Codec.mfoldWr (a0 : Hdr) (a1 : Reg) (a2 : Reg) : Codec.Statement (.mfoldWr a0 a1 a2) := by
  intro r e
  cases e
  simp [fromRaw, fromRawSystem, Raw.hdr, Raw.shaped, Raw.isI, Raw.fx, Raw.fb, raw64, rawI, rawX, raw128, rawB, rawM, rawS, rawSX, Pop.qop, Pop.qid, Raw.pop, Raw.srcB, Raw.src3, Raw.srcX, Raw.addr, Raw.stAddr, Raw.off128, Raw.is128, Raw.f, intFn, fpFn, Raw.id6, Raw.ity, Raw.bty, Raw.t32, Raw.fty, Raw.hty, Raw.rm, Codec.bit, Codec.bit16, Codec.rmDyn, Codec.ctyF32]

theorem Codec.mrst (a0 : Hdr) (a1 : Reg) : Codec.Statement (.mrst a0 a1) := by
  intro r e
  cases e
  simp [fromRaw, fromRawSystem, Raw.hdr, Raw.shaped, Raw.isI, Raw.fx, Raw.fb, raw64, rawI, rawX, raw128, rawB, rawM, rawS, rawSX, Pop.qop, Pop.qid, Raw.pop, Raw.srcB, Raw.src3, Raw.srcX, Raw.addr, Raw.stAddr, Raw.off128, Raw.is128, Raw.f, intFn, fpFn, Raw.id6, Raw.ity, Raw.bty, Raw.t32, Raw.fty, Raw.hty, Raw.rm, Codec.bit, Codec.bit16, Codec.rmDyn, Codec.ctyF32]

theorem Codec.aopen (a0 : Hdr) (a1 : BitVec 6) (a2 : Reg) : Codec.Statement (.aopen a0 a1 a2) := by
  have h0 := a1.isLt
  simp only [Nat.reducePow] at *
  intro r e
  cases e
  simp [fromRaw, fromRawSystem, Raw.hdr, Raw.shaped, Raw.isI, Raw.fx, Raw.fb, raw64, rawI, rawX, raw128, rawB, rawM, rawS, rawSX, Pop.qop, Pop.qid, Raw.pop, Raw.srcB, Raw.src3, Raw.srcX, Raw.addr, Raw.stAddr, Raw.off128, Raw.is128, Raw.f, intFn, fpFn, Raw.id6, Raw.ity, Raw.bty, Raw.t32, Raw.fty, Raw.hty, Raw.rm, Codec.bit, Codec.bit16, Codec.rmDyn, Codec.ctyF32] <;>
    (repeat' apply And.intro) <;> first | omega | (apply BitVec.eq_of_toNat_eq; simp; omega)

theorem Codec.aopenZ (a0 : Hdr) (a1 : BitVec 6) (a2 : Reg) : Codec.Statement (.aopenZ a0 a1 a2) := by
  have h0 := a1.isLt
  simp only [Nat.reducePow] at *
  intro r e
  cases e
  simp [fromRaw, fromRawSystem, Raw.hdr, Raw.shaped, Raw.isI, Raw.fx, Raw.fb, raw64, rawI, rawX, raw128, rawB, rawM, rawS, rawSX, Pop.qop, Pop.qid, Raw.pop, Raw.srcB, Raw.src3, Raw.srcX, Raw.addr, Raw.stAddr, Raw.off128, Raw.is128, Raw.f, intFn, fpFn, Raw.id6, Raw.ity, Raw.bty, Raw.t32, Raw.fty, Raw.hty, Raw.rm, Codec.bit, Codec.bit16, Codec.rmDyn, Codec.ctyF32] <;>
    (repeat' apply And.intro) <;> first | omega | (apply BitVec.eq_of_toNat_eq; simp; omega) | (split <;> first | omega | (rename_i u v; exact absurd (by omega) u) | (rename_i u v; exact absurd (by omega) v) | (congr <;> first | (apply BitVec.eq_of_toNat_eq; simp; omega) | (simp; omega)))

theorem Codec.aadd (a0 : Hdr) (a1 : Bool) (a2 : BitVec 6) (a3 : Reg) (a4 : SrcB) : Codec.Statement (.aadd a0 a1 a2 a3 a4) := by
  have h0 := a2.isLt
  simp only [Nat.reducePow] at *
  intro r e
  cases a1 <;> cases a4 <;> cases e <;>
    simp [fromRaw, fromRawSystem, Raw.hdr, Raw.shaped, Raw.isI, Raw.fx, Raw.fb, raw64, rawI, rawX, raw128, rawB, rawM, rawS, rawSX, Pop.qop, Pop.qid, Raw.pop, Raw.srcB, Raw.src3, Raw.srcX, Raw.addr, Raw.stAddr, Raw.off128, Raw.is128, Raw.f, intFn, fpFn, Raw.id6, Raw.ity, Raw.bty, Raw.t32, Raw.fty, Raw.hty, Raw.rm, Codec.bit, Codec.bit16, Codec.rmDyn, Codec.ctyF32] <;>
    (repeat' apply And.intro) <;> first | omega | (apply BitVec.eq_of_toNat_eq; simp; omega)

theorem Codec.acnt (a0 : Hdr) (a1 : BitVec 6) (a2 : Reg) (a3 : SrcB) : Codec.Statement (.acnt a0 a1 a2 a3) := by
  have h0 := a1.isLt
  simp only [Nat.reducePow] at *
  intro r e
  cases a3 <;> cases e <;>
    simp [fromRaw, fromRawSystem, Raw.hdr, Raw.shaped, Raw.isI, Raw.fx, Raw.fb, raw64, rawI, rawX, raw128, rawB, rawM, rawS, rawSX, Pop.qop, Pop.qid, Raw.pop, Raw.srcB, Raw.src3, Raw.srcX, Raw.addr, Raw.stAddr, Raw.off128, Raw.is128, Raw.f, intFn, fpFn, Raw.id6, Raw.ity, Raw.bty, Raw.t32, Raw.fty, Raw.hty, Raw.rm, Codec.bit, Codec.bit16, Codec.rmDyn, Codec.ctyF32] <;>
    (repeat' apply And.intro) <;> first | omega | (apply BitVec.eq_of_toNat_eq; simp; omega)

theorem Codec.rack (a0 : Hdr) (a1 : Bool) (a2 : BitVec 6) (a3 : Reg) (a4 : Reg) (a5 : Reg) : Codec.Statement (.rack a0 a1 a2 a3 a4 a5) := by
  have h0 := a2.isLt
  simp only [Nat.reducePow] at *
  intro r e
  cases a1 <;> cases e <;>
    simp [fromRaw, fromRawSystem, Raw.hdr, Raw.shaped, Raw.isI, Raw.fx, Raw.fb, raw64, rawI, rawX, raw128, rawB, rawM, rawS, rawSX, Pop.qop, Pop.qid, Raw.pop, Raw.srcB, Raw.src3, Raw.srcX, Raw.addr, Raw.stAddr, Raw.off128, Raw.is128, Raw.f, intFn, fpFn, Raw.id6, Raw.ity, Raw.bty, Raw.t32, Raw.fty, Raw.hty, Raw.rm, Codec.bit, Codec.bit16, Codec.rmDyn, Codec.ctyF32] <;>
    (repeat' apply And.intro) <;> first | omega | (apply BitVec.eq_of_toNat_eq; simp; omega) | (split <;> first | omega | (rename_i u v; exact absurd (by omega) u) | (rename_i u v; exact absurd (by omega) v) | (congr <;> first | (apply BitVec.eq_of_toNat_eq; simp; omega) | (simp; omega)))

theorem Codec.rackW (a0 : Hdr) (a1 : Bool) (a2 : BitVec 6) (a3 : Reg) (a4 : Reg) (a5 : Reg) : Codec.Statement (.rackW a0 a1 a2 a3 a4 a5) := by
  have h0 := a2.isLt
  simp only [Nat.reducePow] at *
  intro r e
  cases a1 <;> cases e <;>
    simp [fromRaw, fromRawSystem, Raw.hdr, Raw.shaped, Raw.isI, Raw.fx, Raw.fb, raw64, rawI, rawX, raw128, rawB, rawM, rawS, rawSX, Pop.qop, Pop.qid, Raw.pop, Raw.srcB, Raw.src3, Raw.srcX, Raw.addr, Raw.stAddr, Raw.off128, Raw.is128, Raw.f, intFn, fpFn, Raw.id6, Raw.ity, Raw.bty, Raw.t32, Raw.fty, Raw.hty, Raw.rm, Codec.bit, Codec.bit16, Codec.rmDyn, Codec.ctyF32] <;>
    (repeat' apply And.intro) <;> first | omega | (apply BitVec.eq_of_toNat_eq; simp; omega) | (split <;> first | omega | (rename_i u v; exact absurd (by omega) u) | (rename_i u v; exact absurd (by omega) v) | (congr <;> first | (apply BitVec.eq_of_toNat_eq; simp; omega) | (simp; omega)))

theorem Codec.rackX (a0 : Hdr) (a1 : BitVec 6) (a2 : Reg) (a3 : Reg) (a4 : Reg) : Codec.Statement (.rackX a0 a1 a2 a3 a4) := by
  have h0 := a1.isLt
  simp only [Nat.reducePow] at *
  intro r e
  cases e
  simp [fromRaw, fromRawSystem, Raw.hdr, Raw.shaped, Raw.isI, Raw.fx, Raw.fb, raw64, rawI, rawX, raw128, rawB, rawM, rawS, rawSX, Pop.qop, Pop.qid, Raw.pop, Raw.srcB, Raw.src3, Raw.srcX, Raw.addr, Raw.stAddr, Raw.off128, Raw.is128, Raw.f, intFn, fpFn, Raw.id6, Raw.ity, Raw.bty, Raw.t32, Raw.fty, Raw.hty, Raw.rm, Codec.bit, Codec.bit16, Codec.rmDyn, Codec.ctyF32] <;>
    (repeat' apply And.intro) <;> first | omega | (apply BitVec.eq_of_toNat_eq; simp; omega) | (split <;> first | omega | (rename_i u v; exact absurd (by omega) u) | (rename_i u v; exact absurd (by omega) v) | (congr <;> first | (apply BitVec.eq_of_toNat_eq; simp; omega) | (simp; omega)))

theorem Codec.aqryReg (a0 : Hdr) (a1 : Reg) (a2 : Reg) : Codec.Statement (.aqryReg a0 a1 a2) := by
  intro r e
  cases e
  simp [fromRaw, fromRawSystem, Raw.hdr, Raw.shaped, Raw.isI, Raw.fx, Raw.fb, raw64, rawI, rawX, raw128, rawB, rawM, rawS, rawSX, Pop.qop, Pop.qid, Raw.pop, Raw.srcB, Raw.src3, Raw.srcX, Raw.addr, Raw.stAddr, Raw.off128, Raw.is128, Raw.f, intFn, fpFn, Raw.id6, Raw.ity, Raw.bty, Raw.t32, Raw.fty, Raw.hty, Raw.rm, Codec.bit, Codec.bit16, Codec.rmDyn, Codec.ctyF32]

theorem Codec.aqryLine (a0 : Hdr) (a1 : Reg) (a2 : Reg) (a3 : Reg) : Codec.Statement (.aqryLine a0 a1 a2 a3) := by
  intro r e
  cases e
  simp [fromRaw, fromRawSystem, Raw.hdr, Raw.shaped, Raw.isI, Raw.fx, Raw.fb, raw64, rawI, rawX, raw128, rawB, rawM, rawS, rawSX, Pop.qop, Pop.qid, Raw.pop, Raw.srcB, Raw.src3, Raw.srcX, Raw.addr, Raw.stAddr, Raw.off128, Raw.is128, Raw.f, intFn, fpFn, Raw.id6, Raw.ity, Raw.bty, Raw.t32, Raw.fty, Raw.hty, Raw.rm, Codec.bit, Codec.bit16, Codec.rmDyn, Codec.ctyF32]

theorem Codec.launch (a0 : Hdr) (a1 : Reg) (a2 : Reg) (a3 : Reg) : Codec.Statement (.launch a0 a1 a2 a3) := by
  intro r e
  cases e
  simp [fromRaw, fromRawSystem, Raw.hdr, Raw.shaped, Raw.isI, Raw.fx, Raw.fb, raw64, rawI, rawX, raw128, rawB, rawM, rawS, rawSX, Pop.qop, Pop.qid, Raw.pop, Raw.srcB, Raw.src3, Raw.srcX, Raw.addr, Raw.stAddr, Raw.off128, Raw.is128, Raw.f, intFn, fpFn, Raw.id6, Raw.ity, Raw.bty, Raw.t32, Raw.fty, Raw.hty, Raw.rm, Codec.bit, Codec.bit16, Codec.rmDyn, Codec.ctyF32]

theorem Codec.tsig (a0 : Hdr) (a1 : Scope) (a2 : StAddr) : Codec.Statement (.tsig a0 a1 a2) := by
  have h0 := a1.code_le
  intro r e
  rcases a2 with ⟨x, y⟩ | ⟨x, y, _ | _ | _ | _, v⟩ <;> cases e <;>
    simp [fromRaw, fromRawSystem, Raw.hdr, Raw.shaped, Raw.isI, Raw.fx, Raw.fb, raw64, rawI, rawX, raw128, rawB, rawM, rawS, rawSX, Pop.qop, Pop.qid, Raw.pop, Raw.srcB, Raw.src3, Raw.srcX, Raw.addr, Raw.stAddr, Raw.off128, Raw.is128, Raw.f, intFn, fpFn, Raw.id6, Raw.ity, Raw.bty, Raw.t32, Raw.fty, Raw.hty, Raw.rm, Codec.bit, Codec.bit16, Codec.rmDyn, Codec.ctyF32] <;>
    (repeat' apply And.intro) <;> first | omega | (apply Scope.ofCode_of; omega) | (apply BitVec.eq_of_toNat_eq; simp; omega)

theorem Codec.ctxsv (a0 : Hdr) (a1 : Reg) (a2 : Reg) (a3 : Reg) : Codec.Statement (.ctxsv a0 a1 a2 a3) := by
  intro r e
  cases e
  simp [fromRaw, fromRawSystem, Raw.hdr, Raw.shaped, Raw.isI, Raw.fx, Raw.fb, raw64, rawI, rawX, raw128, rawB, rawM, rawS, rawSX, Pop.qop, Pop.qid, Raw.pop, Raw.srcB, Raw.src3, Raw.srcX, Raw.addr, Raw.stAddr, Raw.off128, Raw.is128, Raw.f, intFn, fpFn, Raw.id6, Raw.ity, Raw.bty, Raw.t32, Raw.fty, Raw.hty, Raw.rm, Codec.bit, Codec.bit16, Codec.rmDyn, Codec.ctyF32]

theorem Codec.ctxld (a0 : Hdr) (a1 : Reg) : Codec.Statement (.ctxld a0 a1) := by
  intro r e
  cases e
  simp [fromRaw, fromRawSystem, Raw.hdr, Raw.shaped, Raw.isI, Raw.fx, Raw.fb, raw64, rawI, rawX, raw128, rawB, rawM, rawS, rawSX, Pop.qop, Pop.qid, Raw.pop, Raw.srcB, Raw.src3, Raw.srcX, Raw.addr, Raw.stAddr, Raw.off128, Raw.is128, Raw.f, intFn, fpFn, Raw.id6, Raw.ity, Raw.bty, Raw.t32, Raw.fty, Raw.hty, Raw.rm, Codec.bit, Codec.bit16, Codec.rmDyn, Codec.ctyF32]

theorem Codec.harv (a0 : Hdr) (a1 : Reg) (a2 : Reg) (a3 : Reg) : Codec.Statement (.harv a0 a1 a2 a3) := by
  intro r e
  cases e
  simp [fromRaw, fromRawSystem, Raw.hdr, Raw.shaped, Raw.isI, Raw.fx, Raw.fb, raw64, rawI, rawX, raw128, rawB, rawM, rawS, rawSX, Pop.qop, Pop.qid, Raw.pop, Raw.srcB, Raw.src3, Raw.srcX, Raw.addr, Raw.stAddr, Raw.off128, Raw.is128, Raw.f, intFn, fpFn, Raw.id6, Raw.ity, Raw.bty, Raw.t32, Raw.fty, Raw.hty, Raw.rm, Codec.bit, Codec.bit16, Codec.rmDyn, Codec.ctyF32]

theorem Codec.harvR (a0 : Hdr) (a1 : Reg) (a2 : Reg) (a3 : Reg) : Codec.Statement (.harvR a0 a1 a2 a3) := by
  intro r e
  cases e
  simp [fromRaw, fromRawSystem, Raw.hdr, Raw.shaped, Raw.isI, Raw.fx, Raw.fb, raw64, rawI, rawX, raw128, rawB, rawM, rawS, rawSX, Pop.qop, Pop.qid, Raw.pop, Raw.srcB, Raw.src3, Raw.srcX, Raw.addr, Raw.stAddr, Raw.off128, Raw.is128, Raw.f, intFn, fpFn, Raw.id6, Raw.ity, Raw.bty, Raw.t32, Raw.fty, Raw.hty, Raw.rm, Codec.bit, Codec.bit16, Codec.rmDyn, Codec.ctyF32]

theorem Codec.tlbiPg (a0 : Hdr) (a1 : Reg) (a2 : Reg) (a3 : Reg) : Codec.Statement (.tlbiPg a0 a1 a2 a3) := by
  intro r e
  cases e
  simp [fromRaw, fromRawSystem, Raw.hdr, Raw.shaped, Raw.isI, Raw.fx, Raw.fb, raw64, rawI, rawX, raw128, rawB, rawM, rawS, rawSX, Pop.qop, Pop.qid, Raw.pop, Raw.srcB, Raw.src3, Raw.srcX, Raw.addr, Raw.stAddr, Raw.off128, Raw.is128, Raw.f, intFn, fpFn, Raw.id6, Raw.ity, Raw.bty, Raw.t32, Raw.fty, Raw.hty, Raw.rm, Codec.bit, Codec.bit16, Codec.rmDyn, Codec.ctyF32]

theorem Codec.tlbiAsid (a0 : Hdr) (a1 : Reg) : Codec.Statement (.tlbiAsid a0 a1) := by
  intro r e
  cases e
  simp [fromRaw, fromRawSystem, Raw.hdr, Raw.shaped, Raw.isI, Raw.fx, Raw.fb, raw64, rawI, rawX, raw128, rawB, rawM, rawS, rawSX, Pop.qop, Pop.qid, Raw.pop, Raw.srcB, Raw.src3, Raw.srcX, Raw.addr, Raw.stAddr, Raw.off128, Raw.is128, Raw.f, intFn, fpFn, Raw.id6, Raw.ity, Raw.bty, Raw.t32, Raw.fty, Raw.hty, Raw.rm, Codec.bit, Codec.bit16, Codec.rmDyn, Codec.ctyF32]

theorem Codec.tlbiAll (a0 : Hdr) : Codec.Statement (.tlbiAll a0) := by
  intro r e
  cases e
  simp [fromRaw, fromRawSystem, Raw.hdr, Raw.shaped, Raw.isI, Raw.fx, Raw.fb, raw64, rawI, rawX, raw128, rawB, rawM, rawS, rawSX, Pop.qop, Pop.qid, Raw.pop, Raw.srcB, Raw.src3, Raw.srcX, Raw.addr, Raw.stAddr, Raw.off128, Raw.is128, Raw.f, intFn, fpFn, Raw.id6, Raw.ity, Raw.bty, Raw.t32, Raw.fty, Raw.hty, Raw.rm, Codec.bit, Codec.bit16, Codec.rmDyn, Codec.ctyF32]

theorem Codec.halt (a0 : Hdr) (a1 : Reg) : Codec.Statement (.halt a0 a1) := by
  intro r e
  cases e
  simp [fromRaw, fromRawSystem, Raw.hdr, Raw.shaped, Raw.isI, Raw.fx, Raw.fb, raw64, rawI, rawX, raw128, rawB, rawM, rawS, rawSX, Pop.qop, Pop.qid, Raw.pop, Raw.srcB, Raw.src3, Raw.srcX, Raw.addr, Raw.stAddr, Raw.off128, Raw.is128, Raw.f, intFn, fpFn, Raw.id6, Raw.ity, Raw.bty, Raw.t32, Raw.fty, Raw.hty, Raw.rm, Codec.bit, Codec.bit16, Codec.rmDyn, Codec.ctyF32]

theorem Codec.coll (a0 : Hdr) (a1 : Reg) : Codec.Statement (.coll a0 a1) := by
  intro r e
  cases e
  simp [fromRaw, fromRawSystem, Raw.hdr, Raw.shaped, Raw.isI, Raw.fx, Raw.fb, raw64, rawI, rawX, raw128, rawB, rawM, rawS, rawSX, Pop.qop, Pop.qid, Raw.pop, Raw.srcB, Raw.src3, Raw.srcX, Raw.addr, Raw.stAddr, Raw.off128, Raw.is128, Raw.f, intFn, fpFn, Raw.id6, Raw.ity, Raw.bty, Raw.t32, Raw.fty, Raw.hty, Raw.rm, Codec.bit, Codec.bit16, Codec.rmDyn, Codec.ctyF32]

theorem Codec.collResume (a0 : Hdr) (a1 : Reg) : Codec.Statement (.collResume a0 a1) := by
  intro r e
  cases e
  simp [fromRaw, fromRawSystem, Raw.hdr, Raw.shaped, Raw.isI, Raw.fx, Raw.fb, raw64, rawI, rawX, raw128, rawB, rawM, rawS, rawSX, Pop.qop, Pop.qid, Raw.pop, Raw.srcB, Raw.src3, Raw.srcX, Raw.addr, Raw.stAddr, Raw.off128, Raw.is128, Raw.f, intFn, fpFn, Raw.id6, Raw.ity, Raw.bty, Raw.t32, Raw.fty, Raw.hty, Raw.rm, Codec.bit, Codec.bit16, Codec.rmDyn, Codec.ctyF32]

theorem Codec.sendq (a0 : Hdr) (a1 : Src3) (a2 : Option Word) : Codec.Statement (.sendq a0 a1 a2) := by
  intro r e
  obtain ⟨x1, y1, z1, _ | _ | _ | _⟩ := a1 <;> cases a2 <;> cases e <;>
    simp [fromRaw, fromRawSystem, Raw.hdr, Raw.shaped, Raw.isI, Raw.fx, Raw.fb, raw64, rawI, rawX, raw128, rawB, rawM, rawS, rawSX, Pop.qop, Pop.qid, Raw.pop, Raw.srcB, Raw.src3, Raw.srcX, Raw.addr, Raw.stAddr, Raw.off128, Raw.is128, Raw.f, intFn, fpFn, Raw.id6, Raw.ity, Raw.bty, Raw.t32, Raw.fty, Raw.hty, Raw.rm, Codec.bit, Codec.bit16, Codec.rmDyn, Codec.ctyF32]

theorem Codec.slotq (a0 : Hdr) (a1 : Reg) (a2 : Reg) : Codec.Statement (.slotq a0 a1 a2) := by
  intro r e
  cases e
  simp [fromRaw, fromRawSystem, Raw.hdr, Raw.shaped, Raw.isI, Raw.fx, Raw.fb, raw64, rawI, rawX, raw128, rawB, rawM, rawS, rawSX, Pop.qop, Pop.qid, Raw.pop, Raw.srcB, Raw.src3, Raw.srcX, Raw.addr, Raw.stAddr, Raw.off128, Raw.is128, Raw.f, intFn, fpFn, Raw.id6, Raw.ity, Raw.bty, Raw.t32, Raw.fty, Raw.hty, Raw.rm, Codec.bit, Codec.bit16, Codec.rmDyn, Codec.ctyF32]

theorem Codec.slotqCur (a0 : Hdr) (a1 : Reg) : Codec.Statement (.slotqCur a0 a1) := by
  intro r e
  cases e
  simp [fromRaw, fromRawSystem, Raw.hdr, Raw.shaped, Raw.isI, Raw.fx, Raw.fb, raw64, rawI, rawX, raw128, rawB, rawM, rawS, rawSX, Pop.qop, Pop.qid, Raw.pop, Raw.srcB, Raw.src3, Raw.srcX, Raw.addr, Raw.stAddr, Raw.off128, Raw.is128, Raw.f, intFn, fpFn, Raw.id6, Raw.ity, Raw.bty, Raw.t32, Raw.fty, Raw.hty, Raw.rm, Codec.bit, Codec.bit16, Codec.rmDyn, Codec.ctyF32]

theorem Codec.topo (a0 : Hdr) (a1 : Reg) : Codec.Statement (.topo a0 a1) := by
  intro r e
  cases e
  simp [fromRaw, fromRawSystem, Raw.hdr, Raw.shaped, Raw.isI, Raw.fx, Raw.fb, raw64, rawI, rawX, raw128, rawB, rawM, rawS, rawSX, Pop.qop, Pop.qid, Raw.pop, Raw.srcB, Raw.src3, Raw.srcX, Raw.addr, Raw.stAddr, Raw.off128, Raw.is128, Raw.f, intFn, fpFn, Raw.id6, Raw.ity, Raw.bty, Raw.t32, Raw.fty, Raw.hty, Raw.rm, Codec.bit, Codec.bit16, Codec.rmDyn, Codec.ctyF32]

theorem Codec.rtsw (a0 : Hdr) (a1 : Reg) (a2 : Reg) : Codec.Statement (.rtsw a0 a1 a2) := by
  intro r e
  cases e
  simp [fromRaw, fromRawSystem, Raw.hdr, Raw.shaped, Raw.isI, Raw.fx, Raw.fb, raw64, rawI, rawX, raw128, rawB, rawM, rawS, rawSX, Pop.qop, Pop.qid, Raw.pop, Raw.srcB, Raw.src3, Raw.srcX, Raw.addr, Raw.stAddr, Raw.off128, Raw.is128, Raw.f, intFn, fpFn, Raw.id6, Raw.ity, Raw.bty, Raw.t32, Raw.fty, Raw.hty, Raw.rm, Codec.bit, Codec.bit16, Codec.rmDyn, Codec.ctyF32]

theorem Codec.pfence (a0 : Hdr) : Codec.Statement (.pfence a0) := by
  intro r e
  cases e
  simp [fromRaw, fromRawSystem, Raw.hdr, Raw.shaped, Raw.isI, Raw.fx, Raw.fb, raw64, rawI, rawX, raw128, rawB, rawM, rawS, rawSX, Pop.qop, Pop.qid, Raw.pop, Raw.srcB, Raw.src3, Raw.srcX, Raw.addr, Raw.stAddr, Raw.off128, Raw.is128, Raw.f, intFn, fpFn, Raw.id6, Raw.ity, Raw.bty, Raw.t32, Raw.fty, Raw.hty, Raw.rm, Codec.bit, Codec.bit16, Codec.rmDyn, Codec.ctyF32]

theorem Codec.pfenceDev (a0 : Hdr) : Codec.Statement (.pfenceDev a0) := by
  intro r e
  cases e
  simp [fromRaw, fromRawSystem, Raw.hdr, Raw.shaped, Raw.isI, Raw.fx, Raw.fb, raw64, rawI, rawX, raw128, rawB, rawM, rawS, rawSX, Pop.qop, Pop.qid, Raw.pop, Raw.srcB, Raw.src3, Raw.srcX, Raw.addr, Raw.stAddr, Raw.off128, Raw.is128, Raw.f, intFn, fpFn, Raw.id6, Raw.ity, Raw.bty, Raw.t32, Raw.fty, Raw.hty, Raw.rm, Codec.bit, Codec.bit16, Codec.rmDyn, Codec.ctyF32]

theorem Codec.linkq (a0 : Hdr) (a1 : Reg) (a2 : Reg) : Codec.Statement (.linkq a0 a1 a2) := by
  intro r e
  cases e
  simp [fromRaw, fromRawSystem, Raw.hdr, Raw.shaped, Raw.isI, Raw.fx, Raw.fb, raw64, rawI, rawX, raw128, rawB, rawM, rawS, rawSX, Pop.qop, Pop.qid, Raw.pop, Raw.srcB, Raw.src3, Raw.srcX, Raw.addr, Raw.stAddr, Raw.off128, Raw.is128, Raw.f, intFn, fpFn, Raw.id6, Raw.ity, Raw.bty, Raw.t32, Raw.fty, Raw.hty, Raw.rm, Codec.bit, Codec.bit16, Codec.rmDyn, Codec.ctyF32]

theorem Codec.fetchPad : Codec.Statement .fetchPad := by
  exact Codec.of_none rfl

theorem Codec.resultWriteback (a0 : Nat) (a1 : Nat) (a2 : Arrival) : Codec.Statement (.resultWriteback a0 a1 a2) := by
  exact Codec.of_none rfl

theorem Codec.pageFault (a0 : Nat) (a1 : Nat) : Codec.Statement (.pageFault a0 a1) := by
  exact Codec.of_none rfl

theorem Codec.deferredTrap (a0 : Nat) : Codec.Statement (.deferredTrap a0) := by
  exact Codec.of_none rfl

theorem Codec.fqackResume (a0 : Nat) (a1 : BitVec 16) : Codec.Statement (.fqackResume a0 a1) := by
  exact Codec.of_none rfl

theorem Codec.fqackEnd (a0 : Nat) (a1 : BitVec 16) : Codec.Statement (.fqackEnd a0 a1) := by
  exact Codec.of_none rfl

theorem Codec.storeVisible (a0 : Nat) : Codec.Statement (.storeVisible a0) := by
  exact Codec.of_none rfl

theorem Codec.queueEntryArrival (a0 : Nat) (a1 : Nat) : Codec.Statement (.queueEntryArrival a0 a1) := by
  exact Codec.of_none rfl

theorem Codec.ldqEntryPush (a0 : Nat) (a1 : Nat) : Codec.Statement (.ldqEntryPush a0 a1) := by
  exact Codec.of_none rfl

theorem Codec.queueReplay (a0 : Nat) (a1 : Nat) (a2 : Nat) : Codec.Statement (.queueReplay a0 a1 a2) := by
  exact Codec.of_none rfl

theorem Codec.copyUnitWrite (a0 : Nat) (a1 : Nat) : Codec.Statement (.copyUnitWrite a0 a1) := by
  exact Codec.of_none rfl

theorem Codec.copyComplete (a0 : Nat) : Codec.Statement (.copyComplete a0) := by
  exact Codec.of_none rfl

theorem Codec.gatherComplete (a0 : Nat) (a1 : Nat) : Codec.Statement (.gatherComplete a0 a1) := by
  exact Codec.of_none rfl

theorem Codec.sleepExpiry (a0 : Nat) : Codec.Statement (.sleepExpiry a0) := by
  exact Codec.of_none rfl

theorem Codec.sleeptDeadline (a0 : Nat) : Codec.Statement (.sleeptDeadline a0) := by
  exact Codec.of_none rfl

theorem Codec.mwaitRecheck (a0 : Nat) : Codec.Statement (.mwaitRecheck a0) := by
  exact Codec.of_none rfl

theorem Codec.watchArmFire (a0 : Nat) (a1 : Nat) : Codec.Statement (.watchArmFire a0 a1) := by
  exact Codec.of_none rfl

theorem Codec.waitwDeadline (a0 : Nat) : Codec.Statement (.waitwDeadline a0) := by
  exact Codec.of_none rfl

theorem Codec.mxOperationStart (a0 : CoreId) : Codec.Statement (.mxOperationStart a0) := by
  exact Codec.of_none rfl

theorem Codec.wldExecute (a0 : EngineRead) : Codec.Statement (.wldExecute a0) := by
  exact Codec.of_none rfl

theorem Codec.wswapExecute (a0 : CoreId) : Codec.Statement (.wswapExecute a0) := by
  exact Codec.of_none rfl

theorem Codec.mxOperandsConsumed (a0 : EngineRead) : Codec.Statement (.mxOperandsConsumed a0) := by
  exact Codec.of_none rfl

theorem Codec.mxDone (a0 : CoreId) : Codec.Statement (.mxDone a0) := by
  exact Codec.of_none rfl

theorem Codec.tierFailure (a0 : CoreId) (a1 : Nat) : Codec.Statement (.tierFailure a0 a1) := by
  exact Codec.of_none rfl

theorem Codec.mrstComplete (a0 : CoreId) : Codec.Statement (.mrstComplete a0) := by
  exact Codec.of_none rfl

theorem Codec.mashApply (a0 : Nat) : Codec.Statement (.mashApply a0) := by
  exact Codec.of_none rfl

theorem Codec.rackWaitTimeout (a0 : Nat) : Codec.Statement (.rackWaitTimeout a0) := by
  exact Codec.of_none rfl

theorem Codec.rackSeal (a0 : Nat) : Codec.Statement (.rackSeal a0) := by
  exact Codec.of_none rfl

theorem Codec.rackComplete (a0 : Nat) : Codec.Statement (.rackComplete a0) := by
  exact Codec.of_none rfl

theorem Codec.blockingOpComplete (a0 : Nat) : Codec.Statement (.blockingOpComplete a0) := by
  exact Codec.of_none rfl

theorem Codec.releaseComplete (a0 : Nat) : Codec.Statement (.releaseComplete a0) := by
  exact Codec.of_none rfl

theorem Codec.wprWrite (a0 : CluId) (a1 : Word) : Codec.Statement (.wprWrite a0 a1) := by
  exact Codec.of_none rfl

theorem Codec.wprDrainDone (a0 : CluId) : Codec.Statement (.wprDrainDone a0) := by
  exact Codec.of_none rfl

theorem Codec.wprReleaseDone (a0 : CluId) : Codec.Statement (.wprReleaseDone a0) := by
  exact Codec.of_none rfl

theorem Codec.wprEnableDone (a0 : CluId) : Codec.Statement (.wprEnableDone a0) := by
  exact Codec.of_none rfl

theorem Codec.wpsErrClear (a0 : CluId) : Codec.Statement (.wpsErrClear a0) := by
  exact Codec.of_none rfl

theorem Codec.csoWrite (a0 : CluId) (a1 : Word) : Codec.Statement (.csoWrite a0 a1) := by
  exact Codec.of_none rfl

theorem Codec.csvValidClear (a0 : CluId) : Codec.Statement (.csvValidClear a0) := by
  exact Codec.of_none rfl

theorem Codec.snoopProbe (a0 : CluId) (a1 : Nat) (a2 : Nat) : Codec.Statement (.snoopProbe a0 a1 a2) := by
  exact Codec.of_none rfl

theorem Codec.caskWayFailure (a0 : CluId) (a1 : Nat) (a2 : Nat) : Codec.Statement (.caskWayFailure a0 a1 a2) := by
  exact Codec.of_none rfl

theorem Codec.coreRetire (a0 : CluId) (a1 : Nat) (a2 : Bool) : Codec.Statement (.coreRetire a0 a1 a2) := by
  exact Codec.of_none rfl

theorem Codec.uncorrectableError (a0 : ErrAt) : Codec.Statement (.uncorrectableError a0) := by
  exact Codec.of_none rfl

theorem Codec.getS (a0 : Nat) (a1 : Nat) (a2 : Nat) : Codec.Statement (.getS a0 a1 a2) := by
  exact Codec.of_none rfl

theorem Codec.getM (a0 : Nat) (a1 : Nat) (a2 : Nat) : Codec.Statement (.getM a0 a1 a2) := by
  exact Codec.of_none rfl

theorem Codec.upg (a0 : Nat) (a1 : Nat) (a2 : Nat) : Codec.Statement (.upg a0 a1 a2) := by
  exact Codec.of_none rfl

theorem Codec.regionRelease (a0 : CluId) (a1 : Nat) (a2 : Nat) : Codec.Statement (.regionRelease a0 a1 a2) := by
  exact Codec.of_none rfl

theorem Codec.lineWriteback (a0 : CoreId) (a1 : Nat) (a2 : Nat) : Codec.Statement (.lineWriteback a0 a1 a2) := by
  exact Codec.of_none rfl

theorem Codec.busSlotReceive (a0 : Nat) (a1 : Nat) (a2 : Nat) (a3 : Nat) (a4 : Nat) (a5 : Bool) : Codec.Statement (.busSlotReceive a0 a1 a2 a3 a4 a5) := by
  exact Codec.of_none rfl

theorem Codec.slotVoid (a0 : Nat) (a1 : Nat) (a2 : Nat) (a3 : Nat) : Codec.Statement (.slotVoid a0 a1 a2 a3) := by
  exact Codec.of_none rfl

theorem Codec.busDelivery (a0 : Nat) : Codec.Statement (.busDelivery a0) := by
  exact Codec.of_none rfl

theorem Codec.bwtStage (a0 : Nat) (a1 : Nat) (a2 : Bool) (a3 : DWord) : Codec.Statement (.bwtStage a0 a1 a2 a3) := by
  exact Codec.of_none rfl

theorem Codec.bwtCommit (a0 : Nat) (a1 : Nat) (a2 : DWord) : Codec.Statement (.bwtCommit a0 a1 a2) := by
  exact Codec.of_none rfl

theorem Codec.groupReassignStart (a0 : Nat) (a1 : Nat) (a2 : Nat) : Codec.Statement (.groupReassignStart a0 a1 a2) := by
  exact Codec.of_none rfl

theorem Codec.groupReassignLock (a0 : Nat) (a1 : Nat) (a2 : Nat) : Codec.Statement (.groupReassignLock a0 a1 a2) := by
  exact Codec.of_none rfl

theorem Codec.readerRingLoss (a0 : Nat) (a1 : Nat) (a2 : Nat) : Codec.Statement (.readerRingLoss a0 a1 a2) := by
  exact Codec.of_none rfl

theorem Codec.meshLinkFence (a0 : Nat) (a1 : Nat) (a2 : Nat) : Codec.Statement (.meshLinkFence a0 a1 a2) := by
  exact Codec.of_none rfl

theorem Codec.leaseGrant (a0 : Nat) (a1 : Nat) (a2 : Nat) : Codec.Statement (.leaseGrant a0 a1 a2) := by
  exact Codec.of_none rfl

theorem Codec.leaseRenewal (a0 : Nat) (a1 : Nat) (a2 : Nat) : Codec.Statement (.leaseRenewal a0 a1 a2) := by
  exact Codec.of_none rfl

theorem Codec.leaseExpiry (a0 : Nat) (a1 : Nat) (a2 : Nat) : Codec.Statement (.leaseExpiry a0 a1 a2) := by
  exact Codec.of_none rfl

theorem Codec.invalidationAck (a0 : Nat) (a1 : Nat) (a2 : Nat) : Codec.Statement (.invalidationAck a0 a1 a2) := by
  exact Codec.of_none rfl

theorem Codec.homeWriteGrant (a0 : Nat) (a1 : Nat) : Codec.Statement (.homeWriteGrant a0 a1) := by
  exact Codec.of_none rfl

theorem Codec.routingRefusal (a0 : CoreId) (a1 : Nat) (a2 : Nat) : Codec.Statement (.routingRefusal a0 a1 a2) := by
  exact Codec.of_none rfl

theorem Codec.sealedRefusal (a0 : Nat) : Codec.Statement (.sealedRefusal a0) := by
  exact Codec.of_none rfl

theorem Codec.retryAfterExpiry (a0 : Nat) : Codec.Statement (.retryAfterExpiry a0) := by
  exact Codec.of_none rfl

theorem Codec.remoteRequestError (a0 : Nat) (a1 : Nat) : Codec.Statement (.remoteRequestError a0 a1) := by
  exact Codec.of_none rfl

theorem Codec.memorySideOp (a0 : Nat) : Codec.Statement (.memorySideOp a0) := by
  exact Codec.of_none rfl

theorem Codec.msealSeal (a0 : Nat) (a1 : Nat) : Codec.Statement (.msealSeal a0 a1) := by
  exact Codec.of_none rfl

theorem Codec.msealUnseal (a0 : Nat) (a1 : Nat) : Codec.Statement (.msealUnseal a0 a1) := by
  exact Codec.of_none rfl

theorem Codec.sealComplete (a0 : Nat) : Codec.Statement (.sealComplete a0) := by
  exact Codec.of_none rfl

theorem Codec.thermalRefresh (a0 : CoreId) (a1 : Nat) (a2 : Nat) (a3 : List Nat) : Codec.Statement (.thermalRefresh a0 a1 a2 a3) := by
  exact Codec.of_none rfl

theorem Codec.vbusCorrectedError (a0 : CoreId) (a1 : VBus) : Codec.Statement (.vbusCorrectedError a0 a1) := by
  exact Codec.of_none rfl

theorem Codec.vbusRepair (a0 : CoreId) (a1 : VBus) : Codec.Statement (.vbusRepair a0 a1) := by
  exact Codec.of_none rfl

theorem Codec.vbusForcedBoundary (a0 : CoreId) : Codec.Statement (.vbusForcedBoundary a0) := by
  exact Codec.of_none rfl

theorem Codec.vbusDeferTimeout (a0 : CoreId) (a1 : VBus) : Codec.Statement (.vbusDeferTimeout a0 a1) := by
  exact Codec.of_none rfl

theorem Codec.vbusRepairComplete (a0 : CoreId) (a1 : VBus) (a2 : Nat) (a3 : Nat) : Codec.Statement (.vbusRepairComplete a0 a1 a2 a3) := by
  exact Codec.of_none rfl

theorem Codec.tokenCrossing (a0 : Nat) (a1 : Nat) : Codec.Statement (.tokenCrossing a0 a1) := by
  exact Codec.of_none rfl

theorem Codec.placementEvaluation : Codec.Statement .placementEvaluation := by
  exact Codec.of_none rfl

theorem Codec.rotationCheck : Codec.Statement .rotationCheck := by
  exact Codec.of_none rfl

theorem Codec.starvation (a0 : Nat) (a1 : Nat) : Codec.Statement (.starvation a0 a1) := by
  exact Codec.of_none rfl

theorem Codec.drainTimeout (a0 : Nat) : Codec.Statement (.drainTimeout a0) := by
  exact Codec.of_none rfl

theorem Codec.saveStopTimeout (a0 : Nat) : Codec.Statement (.saveStopTimeout a0) := by
  exact Codec.of_none rfl

theorem Codec.saveComplete (a0 : Nat) : Codec.Statement (.saveComplete a0) := by
  exact Codec.of_none rfl

theorem Codec.flushComplete (a0 : Nat) : Codec.Statement (.flushComplete a0) := by
  exact Codec.of_none rfl

theorem Codec.workgroupDrained (a0 : Nat) : Codec.Statement (.workgroupDrained a0) := by
  exact Codec.of_none rfl

theorem Codec.gangRetire (a0 : Nat) : Codec.Statement (.gangRetire a0) := by
  exact Codec.of_none rfl

theorem Codec.lockHolderCandidate (a0 : Nat) : Codec.Statement (.lockHolderCandidate a0) := by
  exact Codec.of_none rfl

theorem Codec.launchRecord (a0 : Nat) : Codec.Statement (.launchRecord a0) := by
  exact Codec.of_none rfl

theorem Codec.haltRecord (a0 : Nat) : Codec.Statement (.haltRecord a0) := by
  exact Codec.of_none rfl

theorem Codec.queryRecord (a0 : Nat) : Codec.Statement (.queryRecord a0) := by
  exact Codec.of_none rfl

theorem Codec.saveRecord (a0 : Nat) : Codec.Statement (.saveRecord a0) := by
  exact Codec.of_none rfl

theorem Codec.loadRecord (a0 : Nat) : Codec.Statement (.loadRecord a0) := by
  exact Codec.of_none rfl

theorem Codec.ringbaseWrite (a0 : Nat) (a1 : DWord) : Codec.Statement (.ringbaseWrite a0 a1) := by
  exact Codec.of_none rfl

theorem Codec.alloc (a0 : Nat) (a1 : Nat) : Codec.Statement (.alloc a0 a1) := by
  exact Codec.of_none rfl

theorem Codec.free (a0 : Nat) (a1 : Nat) : Codec.Statement (.free a0 a1) := by
  exact Codec.of_none rfl

theorem Codec.puts (a0 : Nat) (a1 : Nat) : Codec.Statement (.puts a0 a1) := by
  exact Codec.of_none rfl

theorem Codec.health (a0 : Nat) (a1 : Nat) : Codec.Statement (.health a0 a1) := by
  exact Codec.of_none rfl

theorem Codec.reset : Codec.Statement .reset := by
  exact Codec.of_none rfl

theorem Codec.recoveryGo : Codec.Statement .recoveryGo := by
  exact Codec.of_none rfl

theorem Codec.attestationRequest (a0 : DWord) : Codec.Statement (.attestationRequest a0) := by
  exact Codec.of_none rfl

theorem Codec.securityAlarm (a0 : Nat) : Codec.Statement (.securityAlarm a0) := by
  exact Codec.of_none rfl

theorem Codec.alarmClassClear (a0 : BitVec 4) : Codec.Statement (.alarmClassClear a0) := by
  exact Codec.of_none rfl

theorem Codec.hostInboundWrite (a0 : Nat) (a1 : Nat) (a2 : Nat) (a3 : List Byte) : Codec.Statement (.hostInboundWrite a0 a1 a2 a3) := by
  exact Codec.of_none rfl

theorem Codec.hostInboundRead (a0 : Nat) (a1 : Nat) (a2 : Nat) (a3 : Nat) : Codec.Statement (.hostInboundRead a0 a1 a2 a3) := by
  exact Codec.of_none rfl

theorem Codec.poisonedTlp (a0 : Nat) : Codec.Statement (.poisonedTlp a0) := by
  exact Codec.of_none rfl

theorem Codec.linkDown : Codec.Statement .linkDown := by
  exact Codec.of_none rfl

theorem Codec.heartbeatTimeout (a0 : Agent) : Codec.Statement (.heartbeatTimeout a0) := by
  exact Codec.of_none rfl

theorem Codec.slotWindowOpen (a0 : Nat) : Codec.Statement (.slotWindowOpen a0) := by
  exact Codec.of_none rfl

theorem Codec.slotWindowClose (a0 : Nat) : Codec.Statement (.slotWindowClose a0) := by
  exact Codec.of_none rfl

theorem Codec.fabricMessageReceive (a0 : Nat) (a1 : FabMsg) : Codec.Statement (.fabricMessageReceive a0 a1) := by
  exact Codec.of_none rfl

theorem Codec.relayForward (a0 : Nat) (a1 : Nat) : Codec.Statement (.relayForward a0 a1) := by
  exact Codec.of_none rfl

theorem Codec.collStepStart (a0 : Nat) : Codec.Statement (.collStepStart a0) := by
  exact Codec.of_none rfl

theorem Codec.reduceApply (a0 : Nat) (a1 : FabMsg) : Codec.Statement (.reduceApply a0 a1) := by
  exact Codec.of_none rfl

theorem Codec.collComplete (a0 : Nat) : Codec.Statement (.collComplete a0) := by
  exact Codec.of_none rfl

theorem Codec.fabricBarrierArrival (a0 : Nat) (a1 : Nat) (a2 : DWord) : Codec.Statement (.fabricBarrierArrival a0 a1 a2) := by
  exact Codec.of_none rfl

theorem Codec.fabricBarrierRelease (a0 : BarRef) (a1 : Option Nat) : Codec.Statement (.fabricBarrierRelease a0 a1) := by
  exact Codec.of_none rfl

theorem Codec.topoAmber : Codec.Statement .topoAmber := by
  exact Codec.of_none rfl

theorem Codec.topoActivation : Codec.Statement .topoActivation := by
  exact Codec.of_none rfl

theorem Codec.packageFenceDone : Codec.Statement .packageFenceDone := by
  exact Codec.of_none rfl

theorem Codec.portLock (a0 : Nat) : Codec.Statement (.portLock a0) := by
  exact Codec.of_none rfl

theorem Codec.wavelengthLoss (a0 : Nat) (a1 : LightLoss) : Codec.Statement (.wavelengthLoss a0 a1) := by
  exact Codec.of_none rfl

theorem Codec.powerReclaim (a0 : Nat) : Codec.Statement (.powerReclaim a0) := by
  exact Codec.of_none rfl

theorem Codec.monitorPowerRequest (a0 : Nat) (a1 : Nat) : Codec.Statement (.monitorPowerRequest a0 a1) := by
  exact Codec.of_none rfl

theorem Codec.peerHeartbeatTimeout (a0 : Nat) : Codec.Statement (.peerHeartbeatTimeout a0) := by
  exact Codec.of_none rfl

theorem Codec.registerWrite (a0 : Nat) (a1 : Nat) (a2 : DWord) : Codec.Statement (.registerWrite a0 a1 a2) := by
  exact Codec.of_none rfl

theorem Codec.reservedOpcodeFetch : Codec.Statement .reservedOpcodeFetch := by
  exact Codec.of_none rfl

theorem Codec.slotStart (a0 : Nat) : Codec.Statement (.slotStart a0) := by
  exact Codec.of_none rfl

theorem Codec.readerRingRetuned (a0 : Nat) (a1 : Nat) (a2 : Nat) : Codec.Statement (.readerRingRetuned a0 a1 a2) := by
  exact Codec.of_none rfl

theorem Codec.spareWayCopyDone (a0 : CluId) (a1 : Nat) (a2 : Nat) : Codec.Statement (.spareWayCopyDone a0 a1 a2) := by
  exact Codec.of_none rfl

theorem Codec.faultQueueTailWrite (a0 : Nat) (a1 : Word) : Codec.Statement (.faultQueueTailWrite a0 a1) := by
  exact Codec.of_none rfl

theorem Codec.hostConfigurationRequest (a0 : Nat) : Codec.Statement (.hostConfigurationRequest a0) := by
  exact Codec.of_none rfl

theorem Codec.hostLinkTrained (a0 : Bool) : Codec.Statement (.hostLinkTrained a0) := by
  exact Codec.of_none rfl

end Laws

end Sys2Proof
end

