-- ==== Sys2Proof/Certificates/Slice0/Obligations.lean ====
section
/-! DEFINITION. The statements for the provers. -/

open Sys2Proof Sys2Proof.Machine

/-! ## Results that stand at issue (R95 to R129) -/

/-- R98, R108: the eleven arithmetic instructions leave in each participant the exact result narrowed to the type's width, for every
form: register, immediate, saturating, 32 and 64 bits, with a queue pop. -/
def Obligations.IntegerArithmeticResults : Prop :=
  (∀ h t sat d a b, LaneResult (.iadd h t sat d a b) t.file d fun x l =>
    fitT t sat (valT t (readReg x t.file a l) + valT t (srcBInt x t b l))) ∧
  (∀ h t sat d a b, LaneResult (.isub h t sat d a b) t.file d fun x l =>
    fitT t sat (valT t (readReg x t.file a l) - valT t (srcBInt x t b l))) ∧
  (∀ h t d y, LaneResult (.isum h t d y) t.file d fun x l =>
    fitT t false (valT t (src3A x t.file y l) + valT t (src3B x t.file y l) + valT t (src3C x t.file y l))) ∧
  (∀ h t d a b, LaneResult (.imul h t d a b) t.file d fun x l =>
    fitT t false (valT t (readReg x t.file a l) * valT t (srcBInt x t b l))) ∧
  (∀ h t d a b, LaneResult (.imulhi h t d a b) t.file d fun x l =>
    fitT t false (valT t (readReg x t.file a l) * valT t (srcBInt x t b l) / 2 ^ (ITy.bits t))) ∧
  (∀ h t sat d y, LaneResult (.imad h t sat d y) t.file d fun x l =>
    fitT t sat (valT t (src3A x t.file y l) * valT t (src3B x t.file y l) + valT t (src3C x t.file y l))) ∧
  (∀ h t d y, LaneResult (.imadw h t d y) .p d fun x l =>
    fitT .n64 false (valInt (T32.signed t) 32 (src3A x .v y l) * valInt (T32.signed t) 32 (src3B x .v y l) + (src3C x .p y l : Int))) ∧
  (∀ h t d a b, LaneResult (.imin h t d a b) t.file d fun x l =>
    fitT t false (min (valT t (readReg x t.file a l)) (valT t (srcBInt x t b l)))) ∧
  (∀ h t d a b, LaneResult (.imax h t d a b) t.file d fun x l =>
    fitT t false (max (valT t (readReg x t.file a l)) (valT t (srcBInt x t b l)))) ∧
  (∀ h sat d a, LaneResult (.iabs h false sat d a) .v d fun x l => fitT .s32 sat (valT .s32 (readReg x .v a l)).natAbs) ∧
  (∀ h sat d a, LaneResult (.iabs h true sat d a) .p d fun x l => fitT .s64 sat (valT .s64 (readReg x .p a l)).natAbs) ∧
  ∀ h t d y, LaneResult (.isad h t d y) t.file d fun x l =>
    fitT t false ((valT t (src3A x t.file y l) - valT t (src3B x t.file y l)).natAbs + valT t (src3C x t.file y l))

/-- R98 on words: without `.sat`, IADD, ISUB and IMUL of 32 bits are addition, subtraction and multiplication of words that wrap,
whatever the sign of the type, and an immediate is the word itself; a write to `v0` is discarded. -/
def Clause.WordArithmeticWraps : Prop :=
  ∀ h (t : ITy) d a b s w x s0, t = .s32 ∨ t = .n32 →
    let opB := fun l => match b with | .reg r => rdV w r l | .imm v => v
    (Issues (.iadd h t false d a b) s w x s0 → ∃ s' w', exec (.iadd h t false d a b) s = .next s' ∧ s'.getWarp w.id = some w' ∧
      ∀ l, l < 32 → x.e.getLsbD l = true → rdV w' d l = if d = 0 then 0 else rdV w a l + opB l) ∧
    (Issues (.isub h t false d a b) s w x s0 → ∃ s' w', exec (.isub h t false d a b) s = .next s' ∧ s'.getWarp w.id = some w' ∧
      ∀ l, l < 32 → x.e.getLsbD l = true → rdV w' d l = if d = 0 then 0 else rdV w a l - opB l) ∧
    (Issues (.imul h t d a b) s w x s0 → ∃ s' w', exec (.imul h t d a b) s = .next s' ∧ s'.getWarp w.id = some w' ∧
      ∀ l, l < 32 → x.e.getLsbD l = true → rdV w' d l = if d = 0 then 0 else rdV w a l * opB l)

/-- R98: the value of a bit pattern under a type, and the two ways to narrow. -/
def Clause.FitWrapsOrClamps : Prop :=
  (∀ v : Word, valT .s32 v.toNat = v.toInt ∧ valT .n32 v.toNat = v.toNat) ∧
  (∀ v : DWord, valT .s64 v.toNat = v.toInt ∧ valT .n64 v.toNat = v.toNat) ∧
  (∀ (t : ITy) (y : Int), (fitT t false y : Int) = y % 2 ^ (ITy.bits t)) ∧
  (∀ (t : ITy) (y : Int), valT t (fitT t true y) =
    max (if ITy.signed t then -(2 ^ ((ITy.bits t) - 1)) else 0) (min (if ITy.signed t then 2 ^ ((ITy.bits t) - 1) - 1 else 2 ^ (ITy.bits t) - 1) y))

/-- R110, R111: shifts with a count that is not taken modulo the width, and rotates with one that is. -/
def Clause.ShiftResults : Prop :=
  (∀ h t d a b, LaneResult (.shl h t d a b) t.file d fun x l =>
    if (ITy.bits t) ≤ srcB x .v b l then 0 else readReg x t.file a l * 2 ^ srcB x .v b l % 2 ^ (ITy.bits t)) ∧
  (∀ h t d a b, LaneResult (.shr h t d a b) t.file d fun x l =>
    if (ITy.bits t) ≤ srcB x .v b l then 0 else readReg x t.file a l / 2 ^ srcB x .v b l) ∧
  (∀ h t d a b, LaneResult (.sar h t d a b) t.file d fun x l =>
    wrapInt (ITy.bits t) (valInt true (ITy.bits t) (readReg x t.file a l) / 2 ^ min (srcB x .v b l) (ITy.bits t))) ∧
  (∀ h t d a b, LaneResult (.rotL h t d a b) t.file d fun x l =>
    let n := srcB x .v b l % (ITy.bits t)
    readReg x t.file a l * 2 ^ n % 2 ^ (ITy.bits t) + readReg x t.file a l / 2 ^ ((ITy.bits t) - n)) ∧
  (∀ h t d a b, LaneResult (.rotR h t d a b) t.file d fun x l =>
    rotlN (ITy.bits t) (readReg x t.file a l) ((ITy.bits t) - srcB x .v b l % (ITy.bits t))) ∧
  ∀ h d y, LaneResult (.funl h d y) .v d fun x l =>
    (srcXB x .v y l * 2 ^ 32 + srcXA x .v y l) / 2 ^ min (srcXC x .v y l) 32 % 2 ^ 32

/-- R112 to R114: logic, counts of bits, and bit fields. -/
def Clause.BitResults : Prop :=
  (∀ h t d a b, LaneResult (.and h t d a b) t.file d fun x l => readReg x t.file a l &&& srcBBits x t b l) ∧
  (∀ h t d a b, LaneResult (.or h t d a b) t.file d fun x l => readReg x t.file a l ||| srcBBits x t b l) ∧
  (∀ h t d a b, LaneResult (.xor h t d a b) t.file d fun x l => readReg x t.file a l ^^^ srcBBits x t b l) ∧
  (∀ h t d a, LaneResult (.not h t d a) t.file d fun x l => 2 ^ (BTy.bits t) - 1 - readReg x t.file a l) ∧
  (∀ h t d y tbl, LaneResult (.tern h t d y tbl) t.file d fun x l =>
    ternN (BTy.bits t) tbl (src3A x t.file y l) (src3B x t.file y l) (src3C x t.file y l)) ∧
  (∀ h t d a, LaneResult (.popc h t d a) .v d fun x l => ((List.range (BTy.bits t)).filter fun i => bitAt (readReg x t.file a l) i).length) ∧
  (∀ h t d a, LaneResult (.clz h t d a) .v d fun x l => clzN (BTy.bits t) (readReg x t.file a l)) ∧
  (∀ h t d a, LaneResult (.ctz h t d a) .v d fun x l => ctzN (BTy.bits t) (readReg x t.file a l)) ∧
  (∀ h t d a, LaneResult (.brev h t d a) t.file d fun x l => brevN (BTy.bits t) (readReg x t.file a l)) ∧
  (∀ h t d a b, LaneResult (.bfe h t d a b) t.file d fun x l => bfeN t (readReg x t.file a l) (srcB x .v b l)) ∧
  (∀ h t d y, LaneResult (.bfi h t d y) t.file d fun x l =>
    bfiN (BTy.bits t) (srcXA x t.file y l) (srcXB x t.file y l) (srcXC x .v y l)) ∧
  ∀ h d y, LaneResult (.bsel h d y) .v d fun x l => bselN (srcXA x .v y l) (srcXB x .v y l) (srcXC x .v y l)

/-- What the bit functions of the statement above compute, bit by bit. -/
def Clause.BitFunctionsByBit : Prop :=
  (∀ n tbl a b c i, i < n → (ternN n tbl a b c).testBit i =
    BitVec.getLsbD tbl ((c.testBit i).toNat * 4 + (b.testBit i).toNat * 2 + (a.testBit i).toNat)) ∧
  (∀ n a i, i < n → (brevN n a).testBit i = a.testBit (n - 1 - i)) ∧
  (∀ n a, a < 2 ^ n → clzN n a ≤ n ∧ a < 2 ^ (n - clzN n a) ∧ (clzN n a < n → 2 ^ (n - 1 - clzN n a) ≤ a)) ∧
  (∀ n a, a < 2 ^ n → a ≠ 0 → ctzN n a < n ∧ a % 2 ^ ctzN n a = 0 ∧ a.testBit (ctzN n a) = true) ∧
  (∀ n, clzN n 0 = n ∧ ctzN n 0 = n) ∧
  ∀ n a b desc i, b < 2 ^ n → i < n → (bfiN n a b desc).testBit i =
    if desc % 256 ≤ i ∧ i < desc % 256 + desc / 256 % 256 then a.testBit (i - desc % 256) else b.testBit i

/-- R115 to R117: compares, selects and predicate logic. -/
def Clause.CompareAndPredicateResults : Prop :=
  (∀ h c t d a b, LaneResult (.icmp h c t d a b) .q d fun x l =>
    (icondHolds c (valT t (readReg x t.file a l)) (valT t (srcBInt x t b l))).toNat) ∧
  (∀ h c t d a b, LaneResult (.iset h c t d a b) .v d fun x l =>
    if icondHolds c (valT t (readReg x t.file a l)) (valT t (srcBInt x t b l)) then 0xFFFFFFFF else 0) ∧
  (∀ h t d y, LaneResult (.sel h t d y) t.file d fun x l => if rdQ x.w y.c l then src3A x t.file y l else src3B x t.file y l) ∧
  (∀ h d a b c tbl, LaneResult (.plop h d a b c tbl) .q d fun x l =>
    (tbl.getLsbD ((rdQ x.w c l).toNat * 4 + (rdQ x.w b l).toNat * 2 + (rdQ x.w a l).toNat)).toNat) ∧
  (∀ h d a, LaneResult (.pmovCopy h d a) .q d fun x l => (rdQ x.w a l).toNat) ∧
  ∀ h d a, LaneResult (.pmovNot h d a) .q d fun x l => (!rdQ x.w a l).toNat

/-- R117: PMOV of 32 predicates to a register and back; predicates at or above `.preds` read false and are not written. -/
def Clause.PredicatePackAndUnpack : Prop :=
  (∀ h d a s w x s0, Issues (.pmovPack h d a) s w x s0 →
    ∃ t w', exec (.pmovPack h d a) s = .next t ∧ t.getWarp w.id = some w' ∧ Advanced x w w' ∧ WarpKept w w' ∧ Kept s0 t w.id ∧
      (∀ l, l < 32 → x.e.getLsbD l = true → d ≠ 0 → ∀ i, i < 32 → (rdV w' d l).getLsbD i =
        (decide (a.toNat + i < (s.warpEff w).npreds) && rdQ w (a + BitVec.ofNat 11 i) l)) ∧
      (∀ r l, l < 32 → (r ≠ d ∨ x.e.getLsbD l = false) → rdV w' r l = rdV w r l) ∧ (∀ r l, l < 32 → rdQ w' r l = rdQ w r l) ∧
      (∀ r, rdW w' r = rdW w r) ∧ ∀ r, rdM w' r = rdM w r) ∧
  (∀ h d a s w x s0, Issues (.pmovUnpack h d a) s w x s0 →
    ∃ t w', exec (.pmovUnpack h d a) s = .next t ∧ t.getWarp w.id = some w' ∧ Advanced x w w' ∧ WarpKept w w' ∧ Kept s0 t w.id ∧
      (∀ r l, l < 32 → rdQ w' r l =
        if x.e.getLsbD l = true ∧ r ≠ 0 ∧ d.toNat ≤ r.toNat ∧ r.toNat < d.toNat + 32 ∧ r.toNat < (s.warpEff w).npreds
        then (rdV w a l).getLsbD (r.toNat - d.toNat) else rdQ w r l) ∧
      (∀ r l, l < 32 → rdV w' r l = rdV w r l) ∧ (∀ r, rdW w' r = rdW w r) ∧ ∀ r, rdM w' r = rdM w r)

/-- R118, R119: moves, immediates and address arithmetic. -/
def Clause.MoveAndAddressResults : Prop :=
  (∀ h d a, LaneResult (.mov h d a) .v d fun x l => (rdV x.w a l).toNat) ∧
  (∀ h d a, LaneResult (.movPair h d a) .p d fun x l => (rdP x.w a l).toNat) ∧
  (∀ h d v, LaneResult (.movi h d v) .v d fun _ _ => v.toNat) ∧
  (∀ h d v, LaneResult (.moviS64 h d v) .p d fun _ _ => (v.signExtend 64).toNat) ∧
  (∀ h d v, LaneResult (.moviN64 h d v) .p d fun _ _ => v.toNat) ∧
  (∀ h d v, LaneResult (.movw h d v) .p d fun _ _ => v.toNat) ∧
  (∀ h t sh d a b, LaneResult (.lea h t sh d a b) .p d fun x l =>
    fitT .n64 false ((rdP x.w a l).toNat + valInt (T32.signed t) 32 (srcB x .v b l) * 2 ^ sh.toNat)) ∧
  ∀ h t d y off, LaneResult (.leax h t d y off) .p d fun x l =>
    fitT .n64 false ((src3A x .p y l : Int) + valInt (T32.signed t) 32 (src3B x .v y l) * (src3C x .v y l : Int) + (off.getD 0).toInt)

/-- R123 to R127: exchange between the lanes of a run; only participants are read. -/
def Clause.LaneExchangeResults : Prop :=
  (∀ h mode z d a b, LaneResult (.xlane h mode z d a b) .v d fun x l =>
    match xlaneSource mode z.toNat l (srcB x .v b l) with
    | some j => if x.e.getLsbD j then (rdV x.w a j).toNat else (rdV x.w a l).toNat
    | none => (rdV x.w a l).toNat) ∧
  (∀ h neg d a, LaneResult (.pollAll h neg d a) .q d fun x _ =>
    (decide (∀ l ∈ lanesOf x.e, rdQ x.w a l ≠ neg)).toNat) ∧
  (∀ h neg d a, LaneResult (.pollAny h neg d a) .q d fun x _ =>
    (decide (∃ l ∈ lanesOf x.e, rdQ x.w a l ≠ neg)).toNat) ∧
  (∀ h neg d a, LaneResult (.pollSame h neg d a) .q d fun x _ =>
    (decide (∀ l ∈ lanesOf x.e, ∀ k ∈ lanesOf x.e, rdQ x.w a l = rdQ x.w a k)).toNat) ∧
  (∀ h neg d a, LaneResult (.qmaskV h neg d a) .v d fun x _ => (qmaskOf x neg a).toNat) ∧
  (∀ h neg d a, ScalarResult (.qmaskW h neg d a) d fun x => (qmaskOf x neg a).toNat) ∧
  (∀ h pr d a, LaneResult (.peersSet h pr d a) .v d fun x l => (laneSet (peersOf x pr a l)).toNat) ∧
  (∀ h pr d a, LaneResult (.peersUni h pr d a) .q d fun x _ =>
    (decide (∀ l ∈ lanesOf x.e, ∀ k ∈ lanesOf x.e, readReg x (pairFile pr) a l = readReg x (pairFile pr) a k)).toNat) ∧
  (∀ h pr d a, LaneResult (.peersLead h pr d a) .v d fun x l => ((peersOf x pr a l).head?).getD l) ∧
  (∀ h op t d a, LaneResult (.redux h op t (.v d) a) .v d fun x _ => reduceN op t ((lanesOf x.e).map fun l => (rdV x.w a l).toNat)) ∧
  (∀ h op t d a, ScalarResult (.redux h op t (.w d) a) d fun x => reduceN op t ((lanesOf x.e).map fun l => (rdV x.w a l).toNat)) ∧
  ∀ h d, LaneResult (.elect h d) .q d fun x l => (l == x.low).toNat

/-- R106, R126, R128: the warp-scalar registers. -/
def Clause.ScalarRegisterResults : Prop :=
  (∀ h d a, ScalarResult (.wmovWFromV h d a) d fun x => (rdV x.w a x.low).toNat) ∧
  (∀ h d a, LaneResult (.wmovVFromW h d a) .v d fun x _ => (rdW x.w a).toNat) ∧
  (∀ h d a, ScalarResult (.wmovWFromW h d a) d fun x => (rdW x.w a).toNat) ∧
  (∀ h d v, ScalarResult (.wmovWImm h d v) d fun _ => v.toNat) ∧
  (∀ h op t d a b, ScalarResult (.wop h op t d a b) d fun x => wopN op t (rdW x.w a).toNat (srcB x .w b 0)) ∧
  ∀ h d a, ScalarResult (.movmWFromMask h d a) d fun x => (rdM x.w a).toNat

/-- R121, R122: the special registers, each under its own name, read by SRD (`sr.clock` is sampled later and stays outstanding). -/
def Obligations.SpecialRegisterReads : Prop :=
  (∀ h d sr s w x s0, Issues (.srd h (.v d) sr) s w x s0 →
    ∃ t w', exec (.srd h (.v d) sr) s = .next t ∧ t.getWarp w.id = some w' ∧
      LanesWritten .v d x.e (fun l => sregValue s w l sr) w w' ∧ Advanced x w w' ∧ WarpKept w w' ∧ Kept s0 t w.id) ∧
  (∀ h d sr s w x s0, Issues (.srd h (.pair d) sr) s w x s0 → sr ≠ .clock →
    ∃ t w', exec (.srd h (.pair d) sr) s = .next t ∧ t.getWarp w.id = some w' ∧
      LanesWritten .p d x.e (fun l => sregValue s w l sr) w w' ∧ Advanced x w w' ∧ WarpKept w w' ∧ Kept s0 t w.id) ∧
  (∀ h d sr s w x s0, Issues (.srd h (.w d) sr) s w x s0 →
    ∃ t w', exec (.srd h (.w d) sr) s = .next t ∧ t.getWarp w.id = some w' ∧
      ScalarWritten d (sregValue s w x.low sr) w w' ∧ Advanced x w w' ∧ WarpKept w w' ∧ Kept s0 t w.id) ∧
  ∀ h d s w x s0, Issues (.srd h (.pair d) .clock) s w x s0 →
    ∃ t w' o, exec (.srd h (.pair d) .clock) s = .next t ∧ t.getWarp w.id = some w' ∧ w'.outs = w.outs ++ [o] ∧ o.res = .clock ∧
      o.lanes = x.e ∧ o.dsts = (if d == 0 then [] else [d.toNat, d.toNat + 1]) ∧ RegsKept w w' ∧ Advanced x w w'

/-- What the functions of the integer statements compute: narrowing with and without saturation (R98), the bit functions, bit by bit (R112 to R114), and word arithmetic
that wraps. -/
def Obligations.IntegerFunctions : Prop := Clause.FitWrapsOrClamps ∧ Clause.BitFunctionsByBit ∧ Clause.WordArithmeticWraps

/-- R110 to R114: shifts, rotates, logic, counts and fields of bits, in every form. -/
def Obligations.ShiftAndBitResults : Prop := Clause.ShiftResults ∧ Clause.BitResults

/-- R115 to R119: compares, selects, predicate logic, moves and addresses, in every form. -/
def Obligations.CompareAndMoveResults : Prop := Clause.CompareAndPredicateResults ∧ Clause.PredicatePackAndUnpack ∧ Clause.MoveAndAddressResults

/-- R106, R123 to R128: exchange between lanes, reductions and the warp-scalar registers, in every form. -/
def Obligations.LaneAndScalarResults : Prop := Clause.LaneExchangeResults ∧ Clause.ScalarRegisterResults
/-! ## Special registers written, floating point -/

/-- R75, R122: SWR writes the register it names with the value of the lowest participant (`sr.fpx` with each participant's own), its
reserved bits read zero afterwards, and no other register changes; a read-only register ignores the write. -/
def Obligations.SpecialRegisterWrites : Prop :=
  ∀ h sr src s w x s0, Issues (.swr h sr src) s w x s0 →
    let v := swrValue x src x.low
    ∃ t w', exec (.swr h sr src) s = .next t ∧ t.getWarp w.id = some w' ∧ RegsKept w w' ∧
      w'.lfm = (if sr = .lfm then BitVec.ofNat 32 v else w.lfm) ∧
      w'.fpc = (if sr = .fpc then BitVec.ofNat 32 v &&& 0x1F07#32 else w.fpc) ∧
      w'.qbo = (if sr = .qbo then BitVec.ofNat 32 v &&& 0xFFFFF#32 else w.qbo) ∧
      w'.htvec = (if sr = .htvec then BitVec.ofNat 64 v &&& ~~~3#64 else w.htvec) ∧
      w'.hpc = (if sr = .hpc then BitVec.ofNat 64 v else w.hpc) ∧
      w'.hsub = (if sr = .hsub then BitVec.ofNat 64 v else w.hsub) ∧
      w'.hmask = w.hmask ∧ w'.hdst = w.hdst ∧ w'.hcause = w.hcause ∧ w'.fold = w.fold ∧ w'.inTrap = w.inTrap ∧
      w'.outs = w.outs ∧ w'.stores = w.stores ∧ w'.ctrs = w.ctrs ∧
      (∀ l, l < w.lanes.length → l < 32 → w'.lane l =
        { w.lane l with
          pc := if x.run.getLsbD l then x.after else (w.lane l).pc
          fpx := if sr = .fpx ∧ x.e.getLsbD l = true then BitVec.ofNat 5 (swrValue x src l) else (w.lane l).fpx }) ∧
      (t.getCore (s.warpCore w)).vbthr =
        (if sr = .vbthr then BitVec.ofNat 32 v &&& 0xFFFF#32 else (s.getCore (s.warpCore w)).vbthr) ∧
      (∀ r, s.warpRegion w = some r →
        (t.getRegion r.handle).map (·.asid) = some (if sr = .asid then BitVec.ofNat 16 v else r.asid)) ∧
      (∀ a, Memory.read t.mem a = Memory.read s0.mem a)

/-- R139 to R144, R148 to R150, R156: floating-point results with the flags they raise, in the participants; every form, with the
rounding mode and FTZ of `sr.fpc`. -/
def Clause.FloatResults : Prop :=
  (∀ h p rm d a b, FpResult (.fadd h p rm d a b) flagsArith .v d fun x l =>
    faddBits (ftyFmt p) (modeOf x rm) (ftzOf x) (readReg x .v a l) (srcB x .v b l)) ∧
  (∀ h p rm d a b, FpResult (.fsub h p rm d a b) flagsArith .v d fun x l =>
    fsubBits (ftyFmt p) (modeOf x rm) (ftzOf x) (readReg x .v a l) (srcB x .v b l)) ∧
  (∀ h p rm d a b, FpResult (.fmul h p rm d a b) flagsArith .v d fun x l =>
    fmulBits (ftyFmt p) (modeOf x rm) (ftzOf x) (readReg x .v a l) (srcB x .v b l)) ∧
  (∀ h p rm d y, FpResult (.ffma h p rm d y) flagsArith .v d fun x l =>
    ffmaBits (ftyFmt p) (modeOf x rm) (ftzOf x) (src3A x .v y l) (src3B x .v y l) (src3C x .v y l)) ∧
  (∀ h p d a b, FpResult (.fmin h p d a b) flagI .v d fun x l =>
    fminmaxBits (ftyFmt p) false (ftzOf x) (readReg x .v a l) (srcB x .v b l)) ∧
  (∀ h p d a b, FpResult (.fmax h p d a b) flagI .v d fun x l =>
    fminmaxBits (ftyFmt p) true (ftzOf x) (readReg x .v a l) (srcB x .v b l)) ∧
  (∀ h c p d a b, FpResult (.fcmp h c p d a b) flagI .q d fun x l =>
    ((fcmpBits (ftyFmt p) c (ftzOf x) (readReg x .v a l) (srcB x .v b l)).1.toNat,
     (fcmpBits (ftyFmt p) c (ftzOf x) (readReg x .v a l) (srcB x .v b l)).2)) ∧
  (∀ h c p d a b, FpResult (.fset h c p d a b) flagI .v d fun x l =>
    (if (fcmpBits (ftyFmt p) c (ftzOf x) (readReg x .v a l) (srcB x .v b l)).1 then 0xFFFFFFFF else 0,
     (fcmpBits (ftyFmt p) c (ftzOf x) (readReg x .v a l) (srcB x .v b l)).2)) ∧
  (∀ h p d a, LaneResult (.fclass h p d a) .v d fun x l => fclassBits (ftyFmt p) (readReg x .v a l)) ∧
  (∀ h p d a v, LaneResult (.fclassTest h p d a v) .q d fun x l =>
    (fclassBits (ftyFmt p) (readReg x .v a l) &&& v.toNat != 0).toNat) ∧
  (∀ h p rm d a, FpResult (.frnd h p rm d a) flagI .v d fun x l =>
    frndBits (ftyFmt p) (modeOf x rm) (ftzOf x) (readReg x .v a l)) ∧
  (∀ h p rm d a b, FpResult (.fscale h p rm d a b) flagsArith .v d fun x l =>
    fscaleBits (ftyFmt p) (modeOf x rm) (ftzOf x) (readReg x .v a l) (srcB x .v b l)) ∧
  (∀ h p d a, FpResult (.fgetexp h p d a) flagI .v d fun x l => fgetexpBits (ftyFmt p) (ftzOf x) (readReg x .v a l)) ∧
  (∀ h p rm d a b, FpResult (.hpadd h p rm d a b) flagsArith .v d fun x l =>
    halves (fun u v _ => faddBits (htyFmt p) (modeOf x rm) (ftzOf x) u v) (readReg x .v a l) (srcB x .v b l) 0) ∧
  (∀ h p rm d a b, FpResult (.hpmul h p rm d a b) flagsArith .v d fun x l =>
    halves (fun u v _ => fmulBits (htyFmt p) (modeOf x rm) (ftzOf x) u v) (readReg x .v a l) (srcB x .v b l) 0) ∧
  (∀ h p rm d y, FpResult (.hpfma h p rm d y) flagsArith .v d fun x l =>
    halves (fun u v c => ffmaBits (htyFmt p) (modeOf x rm) (ftzOf x) u v c) (src3A x .v y l) (src3B x .v y l) (src3C x .v y l)) ∧
  (∀ h p d a b, FpResult (.hpmnxMin h p d a b) flagI .v d fun x l =>
    halves (fun u v _ => fminmaxBits (htyFmt p) false (ftzOf x) u v) (readReg x .v a l) (srcB x .v b l) 0) ∧
  (∀ h p d a b, FpResult (.hpmnxMax h p d a b) flagI .v d fun x l =>
    halves (fun u v _ => fminmaxBits (htyFmt p) true (ftzOf x) u v) (readReg x .v a l) (srcB x .v b l) 0)

/-- R149, R155, R156: dot products, products and conversions of the logarithmic format. -/
def Clause.DotAndLogResults : Prop :=
  (∀ h fa fb rm d y, FpResult (.dot4Float h fa fb rm d y) flagsArith .v d fun x l =>
    dotBits (nf8Fmt fa) (nf8Fmt fb) 8 (modeOf x rm) (ftzOf x) (src3A x .v y l) (src3B x .v y l) (src3C x .v y l)) ∧
  (∀ h p rm d y, FpResult (.dot2 h p rm d y) flagsArith .v d fun x l =>
    dotBits (htyFmt p) (htyFmt p) 16 (modeOf x rm) (ftzOf x) (src3A x .v y l) (src3B x .v y l) (src3C x .v y l)) ∧
  (∀ h d y, LaneResult (.dot4S8 h d y) .v d fun x l => dot4s8Bits (src3A x .v y l) (src3B x .v y l) (src3C x .v y l)) ∧
  (∀ h d a b, FpResult (.lmul h d a b) flagsLog .v d fun x l => logMul (readReg x .v a l % 64) (readReg x .v b l % 64)) ∧
  (∀ h d a b, FpResult (.lmulX4 h d a b) flagsLog .v d fun x l => lmul4Bits (readReg x .v a l) (readReg x .v b l)) ∧
  (∀ h j d a, LaneResult (.lcvtWiden h j d a) .v d fun x l => lcvtWidenBits j.toNat (readReg x .v a l)) ∧
  (∀ h sat d a, FpResult (.lcvtNarrow h sat d a) flagsLog .v d fun x l => lcvtNarrowBits sat (readReg x .v a l)) ∧
  ∀ a b c : Word, (BitVec.ofNat 32 (dot4s8Bits a.toNat b.toNat c.toNat)).toInt =
    (c.toInt + (a.extractLsb' 0 8).toInt * (b.extractLsb' 0 8).toInt + (a.extractLsb' 8 8).toInt * (b.extractLsb' 8 8).toInt +
      (a.extractLsb' 16 8).toInt * (b.extractLsb' 16 8).toInt + (a.extractLsb' 24 8).toInt * (b.extractLsb' 24 8).toInt).bmod
        (2 ^ 32)

/-- R150 to R154: conversions, without a scale or with a scale byte that is a number in every participant, every pair of types. -/
def Obligations.ConversionResults : Prop :=
  (∀ h dst src rm sat sc d a c pop s w x s0, Issues (.cvt h dst src rm sat sc d a c pop) s w x s0 →
    let k := fun l => readOpnd x ⟨.v, c, pop.isC⟩ l
    let val := fun x l => cvtBits dst src (modeOf x rm) sat (ftzOf x) (scaleExp sc (readOpnd x ⟨.v, c, pop.isC⟩ l))
      (readOpnd x ⟨src.file, a, pop.isA⟩ l)
    Untrapped flagsArith x val → nanScaleLanes x sc k = 0 →
    ∃ t w', exec (.cvt h dst src rm sat sc d a c pop) s = .next t ∧ t.getWarp w.id = some w' ∧
      LanesWritten dst.file d x.e (fun l => (val x l).1) w w' ∧ AdvancedFlags x (fun l => (val x l).2) w w' ∧ WarpKept w w' ∧
      Kept s0 t w.id) ∧
  (∀ h dst rm sat sc d y s w x s0, Issues (.cvtp h dst rm sat sc d y) s w x s0 →
    let val := fun x l => cvtpBits dst (modeOf x rm) sat (ftzOf x) (scaleExp sc (src3C x .v y l)) (cvtpSources x dst y l)
    Untrapped flagsArith x val → nanScaleLanes x sc (src3C x .v y) = 0 →
    ∃ t w', exec (.cvtp h dst rm sat sc d y) s = .next t ∧ t.getWarp w.id = some w' ∧
      LanesWritten .v d x.e (fun l => (val x l).1) w w' ∧ AdvancedFlags x (fun l => (val x l).2) w w' ∧ WarpKept w w' ∧
      Kept s0 t w.id) ∧
  (∀ h src rm sc hi d a c pop s w x s0, Issues (.cvtx h src rm sc hi d a c pop) s w x s0 →
    let k := fun l => readOpnd x ⟨.v, c, pop.isC⟩ l
    let rs := fun x l => cvtxBits src (modeOf x rm) hi (ftzOf x) (scaleExp sc (readOpnd x ⟨.v, c, pop.isC⟩ l))
      (readOpnd x ⟨.v, a, pop.isA⟩ l)
    let val : Issue → Nat → FRes := fun x l =>
      ((((rs x l)[0]?).getD (0, 0)).1 + 2 ^ 32 * (((rs x l)[1]?).getD (0, 0)).1, (rs x l).foldl (fun acc r => acc ||| r.2) 0)
    Untrapped (if sc then flagsArith else flagI) x val → nanScaleLanes x sc k = 0 →
    ∃ t w', exec (.cvtx h src rm sc hi d a c pop) s = .next t ∧ t.getWarp w.id = some w' ∧
      LanesWritten .p d x.e (fun l => (val x l).1) w w' ∧ AdvancedFlags x (fun l => (val x l).2) w w' ∧ WarpKept w w' ∧
      Kept s0 t w.id)

/-- R137, R145 to R147: the special functions. The result, with its flags and the enables under which it issued, is outstanding; no
register has changed; a covered one parks the warp. -/
def SpecialIssues (i : Instr) (allowed : Flags) (d : Reg) (val : Issue → Nat → FRes) : Prop :=
  ∀ s w x s0, Issues i s w x s0 → covered allowed w = false ∨ w.outs = [] →
    ∃ t w', exec i s = .next t ∧ t.getWarp w.id = some w' ∧
      w'.outs = w.outs ++ [outOf x s .v d x.e
        (.special ((lanesOf x.e).map fun l => (l, BitVec.ofNat 32 (val x l).1)) ((lanesOf x.e).map fun l => (l, (val x l).2))
          (if covered allowed w then trapEnables w.fpc else 0)) none] ∧
      w'.parked = (covered allowed w || x.r.pk) ∧ w'.ctrs = w.ctrs ∧ w'.stores = w.stores ∧ w'.reads = w.reads ∧ Advanced x w w' ∧
      WarpKeptOut w w' ∧ Kept s0 t w.id

def Obligations.SpecialFunctionsAreOutstanding : Prop :=
  (∀ h d a, SpecialIssues (.frcp h d a) flagsRcp d fun x l => special32 x frcpNum (readReg x .v a l)) ∧
  (∀ h d a, SpecialIssues (.frsq h d a) flagsRsqLg d fun x l => special32 x frsqNum (readReg x .v a l)) ∧
  (∀ h p rm d a, SpecialIssues (.fsqrt h p rm d a) flagsSqrtCos d fun x l =>
    ftzOut (ftyFmt p) (ftzOf x) (fsqrtNum (ftyFmt p) (modeOf x rm) (fRead (ftyFmt p) (ftzOf x) (readReg x .v a l)))) ∧
  (∀ h d a, SpecialIssues (.fex2 h d a) flagsArith d fun x l => special32 x fex2Num (readReg x .v a l)) ∧
  (∀ h d a, SpecialIssues (.flg2 h d a) flagsRsqLg d fun x l => special32 x flg2Num (readReg x .v a l)) ∧
  (∀ h d a, SpecialIssues (.fsin h d a) flagsSinTanh d fun x l => special32 x fsinNum (readReg x .v a l)) ∧
  (∀ h d a, SpecialIssues (.fcos h d a) flagsSqrtCos d fun x l => special32 x fcosNum (readReg x .v a l)) ∧
  (∀ h d a, SpecialIssues (.ftanh h d a) flagsSinTanh d fun x l => special32 x ftanhNum (readReg x .v a l))

/-- R138: a covered FADD in which some participants raise an enabled flag: the trapping lanes keep their destination and go to the
handler with the cause of the highest-priority enabled flag, the other participants have their results, and the flags are merged in
all. -/
def Obligations.CoveredFloatTraps : Prop :=
  ∀ h p rm d a b s w x s0, Issues (.fadd h p rm d a b) s w x s0 → w.outs = [] → w.htvec ≠ 0 → w.inTrap = false →
    let val := fun l => faddBits (ftyFmt p) (modeOf x rm) (ftzOf x) (readReg x .v a l) (srcB x .v b l)
    let tr := laneSet ((lanesOf x.e).filter fun l => (val l).2 &&& trapEnables w.fpc != 0)
    let raised := (lanesOf x.e).foldl (fun acc l => acc ||| ((val l).2 &&& trapEnables w.fpc)) 0
    tr ≠ 0 → covered flagsArith w = true →
    ∃ t w', exec (.fadd h p rm d a b) s = .next t ∧ t.getWarp w.id = some w' ∧ w'.inTrap = true ∧ w'.hmask = tr ∧ w'.hpc = x.pc ∧
      w'.hcause = BitVec.ofNat 32 (fpCause raised).toNat ∧
      (∀ l, l < 32 → x.e.getLsbD l = true →
        (w'.lane l).fpx = (w.lane l).fpx ||| (val l).2 ∧
        (tr.getLsbD l = true → rdV w' d l = rdV w d l ∧ (w'.lane l).pc = w.htvec ∧ (w'.lane l).st = .ready ∧ (w'.lane l).resume = x.after) ∧
        (tr.getLsbD l = false → rdV w' d l = (if d = 0 then 0 else BitVec.ofNat 32 (val l).1) ∧ (w'.lane l).pc = x.after ∧
          (w'.lane l).st = .held .handler))

/-- R139 to R144, R148 to R150, R155, R156: floating-point and logarithmic results with their flags, in every form. -/
def Obligations.FloatingPointResults : Prop := Clause.FloatResults ∧ Clause.DotAndLogResults

/-! ## Control (R99 to R107, R157 to R170) -/

/-- Whenever the instruction issues, the counters of the run are as given, registers are written as given, and nothing else has
changed. -/
def ControlResult (i : Instr) (regs : Issue → Warp → Warp → Prop) (next : Issue → Nat → DWord) : Prop :=
  ∀ s w x s0, Issues i s w x s0 →
    ∃ t w', exec i s = .next t ∧ t.getWarp w.id = some w' ∧ regs x w w' ∧
      (∀ l, l < 32 → w'.lane l =
        { w.lane l with pc := if x.e.getLsbD l then next x l else if x.run.getLsbD l then x.after else (w.lane l).pc }) ∧
      WarpKept w w' ∧ ParksBy x w' ∧ Kept s0 t w.id

/-- R99, R100, R103: NOP, YIELD, BRA, BRX, CALL, CALLX and RET. A participant of a transfer goes to its target, a lane of the run that
the guard turned off goes to the next instruction, and CALL and CALLX leave the address after themselves in the link pair. CALLX
reads its target before it writes the link. -/
def Obligations.ControlTransfers : Prop :=
  (∀ h, ControlResult (.nop h) (fun _ => RegsKept) fun x _ => x.after) ∧
  (∀ h, ControlResult (.yield h) (fun _ => RegsKept) fun x _ => x.after) ∧
  (∀ h off, ControlResult (.bra h off) (fun _ => RegsKept) fun x _ => x.pc + off.signExtend 64) ∧
  (∀ h a, ControlResult (.brx h a) (fun _ => RegsKept) fun x l => rdP x.w a l) ∧
  (∀ h a, ControlResult (.ret h a) (fun _ => RegsKept) fun x l => rdP x.w a l) ∧
  (∀ h d off, ControlResult (.call h d off) (fun x => LanesWritten .p d x.e fun _ => x.after.toNat) fun x _ => x.pc + off.signExtend 64) ∧
  (∀ h d a, ControlResult (.callx h d a) (fun x => LanesWritten .p d x.e fun _ => x.after.toNat) fun x l => rdP x.w a l)

/-- R48: where the guard lets no lane of the run execute, the instruction, whichever it is, moves the run past itself and has no other
effect: no register, no special register and no byte of memory changes, nothing is read or popped, and no access is checked. -/
def Obligations.GuardedOffOnlyAdvances : Prop :=
  ∀ i s w, Ready i s w → toRaw i ≠ none → guarded w (rawOf i).gp (rawOf i).gn (headRun w) = 0 →
    ∃ t w', exec i s = .next t ∧ t.getWarp w.id = some w' ∧ RegsKept w w' ∧ Advanced (mkIssue i w) w w' ∧ WarpKept w w' ∧
      ParksBy (mkIssue i w) w' ∧ Kept s t w.id

/-- R85, R86, R106: JOIN, LEAVE and the three moves into a mask. The mask reads as the instruction leaves it, without the bits of
exited lanes; no other register changes. A lane that waits at a WAITM on a mask that is now complete becomes ready at the
instruction after its WAITM; every lane that waits on a mask that is not complete goes on waiting. -/
def MaskResult (i : Instr) (m : Reg) (val : Issue → LaneSet) : Prop :=
  ∀ s w x s0, Issues i s w x s0 →
    ∃ t w', exec i s = .next t ∧ t.getWarp w.id = some w' ∧
      rdM w' m = val x &&& ~~~ exitedOf w ∧ (∀ r, r ≠ m → rdM w' r = rdM w r) ∧ RegsKeptButMasks w w' ∧
      (∀ l, l < 32 → x.run.getLsbD l = true → (w'.lane l).pc = x.after ∧ (w'.lane l).st = (w.lane l).st) ∧
      (∀ l n, l < 32 → (w.lane l).st = .waiting n →
        ((∀ k, k < 32 → (sget 0 w'.m n).getLsbD k = true → (w.lane k).st = .waiting n) → w'.lane l =
          { w.lane l with pc := (w.lane l).pc + 8, st := if w.inTrap && !w.hmask.getLsbD l then .held .handler else .ready }) ∧
        ((∃ k, k < 32 ∧ (sget 0 w'.m n).getLsbD k = true ∧ (w.lane k).st ≠ .waiting n) → w'.lane l = w.lane l)) ∧
      w'.outs = w.outs ∧ w'.stores = w.stores ∧ w'.ctrs = w.ctrs ∧ ∀ a, Memory.read t.mem a = Memory.read s0.mem a

def Obligations.MaskChanges : Prop :=
  (∀ h m, MaskResult (.join h m) m fun x => rdM x.w m ||| x.e) ∧
  (∀ h m, MaskResult (.leave h m) m fun x => rdM x.w m &&& ~~~ x.e) ∧
  (∀ h m r, MaskResult (.movmMaskFromW h m r) m fun x => rdW x.w r) ∧
  (∀ h m r, MaskResult (.movmMaskFromMask h m r) m fun x => rdM x.w r) ∧
  (∀ h m v, MaskResult (.movmMaskImm h m v) m fun _ => v)

/-- R85, R105: WAITM where the set does not become complete. The participants in the mask wait at the instruction's own counter, the
other participants go on, and no register changes. -/
def Clause.WaitmWaits : Prop :=
  ∀ h m s w x s0, Issues (.waitm h m) s w x s0 →
    (∃ k, k < 32 ∧ (rdM w m).getLsbD k = true ∧ (x.e &&& rdM w m).getLsbD k = false ∧ (w.lane k).st = .ready) →
    (∀ l n, l < 32 → (w.lane l).st = .waiting n → ∃ k, k < 32 ∧ (sget 0 w.m n).getLsbD k = true ∧
      (x.e &&& rdM w m).getLsbD k = false ∧ (w.lane k).st = .ready) →
    ∃ t w', exec (.waitm h m) s = .next t ∧ t.getWarp w.id = some w' ∧ RegsKept w w' ∧
      (∀ l, l < 32 → (x.e &&& rdM w m).getLsbD l = true → (w'.lane l).st = .waiting m.toNat ∧ (w'.lane l).pc = x.pc) ∧
      (∀ l, l < 32 → (x.e &&& rdM w m).getLsbD l = false → w'.lane l =
        { w.lane l with pc := if x.run.getLsbD l then x.after else (w.lane l).pc }) ∧
      w'.outs = w.outs ∧ w'.stores = w.stores ∧ w'.ctrs = w.ctrs ∧ ∀ a, Memory.read t.mem a = Memory.read s0.mem a

/-- R85, R86: WAITM that completes its set, outside a handler: every lane of the set, those that waited before and those that arrive,
is ready at the instruction after its WAITM. -/
def Clause.WaitmReleases : Prop :=
  ∀ h m s w x s0, Issues (.waitm h m) s w x s0 → w.inTrap = false →
    (∀ k, k < 32 → (rdM w m).getLsbD k = true → x.e.getLsbD k = true ∨ (w.lane k).st = .waiting m.toNat) →
    ∃ t w', exec (.waitm h m) s = .next t ∧ t.getWarp w.id = some w' ∧ RegsKept w w' ∧
      (∀ l, l < 32 → x.e.getLsbD l = true → (w'.lane l).st = .ready ∧ (w'.lane l).pc = x.pc + 8) ∧
      (∀ l, l < 32 → (w.lane l).st = .waiting m.toNat → (w'.lane l).st = .ready ∧ (w'.lane l).pc = (w.lane l).pc + 8) ∧
      w'.outs = w.outs ∧ w'.stores = w.stores ∧ w'.ctrs = w.ctrs ∧ ∀ a, Memory.read t.mem a = Memory.read s0.mem a

/-- R89, R90: RGN, with nothing outstanding, no store on its way and every queued matrix operation of the warp past translation: each participant's region entry counter is the address
after the RGN and its `sr.rgnc` has grown by one. -/
def Clause.RegionEntryRecorded : Prop :=
  ∀ h s w x s0, Issues (.rgn h) s w x s0 → w.outs = [] → w.reads = [] → w.stores = [] →
    (∀ o, o ∈ (engineOf s (s.warpCore w)).queue → o.w = w.id → opPassed s w o = true) →
    ∃ t w', exec (.rgn h) s = .next t ∧ t.getWarp w.id = some w' ∧ RegsKept w w' ∧
      (∀ l, l < 32 → x.run.getLsbD l = true → (w'.lane l).pc = x.after ∧ (w'.lane l).st = .ready) ∧
      (∀ l, l < 32 → x.e.getLsbD l = true → (w'.lane l).rgn = x.after ∧ (w'.lane l).rgnc = (w.lane l).rgnc + 1) ∧
      (∀ l, l < 32 → x.e.getLsbD l = false → (w'.lane l).rgn = (w.lane l).rgn ∧ (w'.lane l).rgnc = (w.lane l).rgnc) ∧
      ∀ a, Memory.read t.mem a = Memory.read s0.mem a

/-- R94, R107: EXIT outside a handler, with nothing outstanding and every queued matrix operation past translation: the participants have exited, for good, and no mask holds their bits
any more. -/
def Clause.ExitEndsLanes : Prop :=
  ∀ h s w x s0, Issues (.exit h) s w x s0 → w.inTrap = false → w.outs = [] → w.reads = [] → w.stores = [] →
    (∀ o, o ∈ (engineOf s (s.warpCore w)).queue → o.w = w.id → opPassed s w o = true) →
    ∃ t w', exec (.exit h) s = .next t ∧ t.getWarp w.id = some w' ∧
      (∀ l, l < 32 → x.e.getLsbD l = true → (w'.lane l).st = .exited) ∧
      (∀ n l, n < 12 → l < 32 → x.e.getLsbD l = true → (sget 0 w'.m n).getLsbD l = false) ∧
      (∀ n l, n < 12 → l < 32 → x.e.getLsbD l = false → (sget 0 w'.m n).getLsbD l = (sget 0 w.m n).getLsbD l) ∧
      RegsKeptButMasks w w' ∧ ∀ a, Memory.read t.mem a = Memory.read s0.mem a

/-! ## Traps -/

/-- `TakeTrap` (R160) on a warp that is in no handler and has one: the trap record holds cause, lanes, counter and destination, the
lanes of the trap go to the handler with their resume counters, every other ready lane is held, and no register changes. -/
abbrev TrapTaken (w w' : Warp) (cause : BitVec 8) (info : BitVec 16) (lanes : LaneSet) (pc resume : DWord) : Prop :=
  w'.inTrap = true ∧ w'.hcause = BitVec.ofNat 32 (cause.toNat + 2 ^ 16 * info.toNat) ∧ w'.hmask = lanes ∧ w'.hpc = pc ∧
    w'.hpcWritten = false ∧
    (∀ l, l < 32 → lanes.getLsbD l = true →
      (w'.lane l).pc = w.htvec ∧ (w'.lane l).st = .ready ∧ (w'.lane l).resume = resume ∧ (w'.lane l).trapRgn = (w.lane l).rgn) ∧
    (∀ l, l < 32 → lanes.getLsbD l = false → (w.lane l).st = .ready → (w'.lane l).st = .held .handler) ∧
    RegsKept w w' ∧ w'.htvec = w.htvec ∧ w'.outs = w.outs ∧ w'.stores = w.stores

/-- R58, R59, R160: an instruction that the decode checks turn down has no effect of its own. Outside a handler, with a trap vector,
the whole run takes the trap: ILLEGAL_OPCODE for a form the warp's shape or kind does not allow, PRIVILEGE for a privileged form at user
level; the saved counter is that of the instruction and each lane's resume counter is the one after it. -/
def Clause.DecodeTrapsAreTaken : Prop :=
  ∀ i s w cause, toRaw i ≠ none → s.getWarp s.cur = some w → headRun w ≠ 0 → w.parked = false → w.stopped = false → waitcHolds w = false →
    w.copyAbort = false → decodeCause s w i (rawOf i) = some cause → w.htvec ≠ 0 → w.inTrap = false →
    ∃ t w', exec i s = .next t ∧ t.getWarp w.id = some w' ∧
      TrapTaken w w' cause 0 (headRun w) (headPc w) (headPc w + BitVec.ofNat 64 (lenBytes (rawOf i).len)) ∧
      w'.hdst = BitVec.ofNat 32 (rawOf i).d.toNat ∧ t.mem = s.mem ∧ ∀ k, k ≠ w.id → t.getWarp k = s.getWarp k

/-- R59: at user level each privileged form gives cause 0x04, and none of the causes of check 3 stands before it. -/
def Clause.PrivilegedFormsTrapAtUserLevel : Prop :=
  ∀ i s w, isPrivileged i = true → s.warpUser w = true → (w.idx = 32 → accessOp (rawOf i).op = true) → i.wf = true →
    i.inRange (s.warpEff w).nregs (s.warpEff w).npreds = true → (rawOf i).gp.toNat < (s.warpEff w).npreds →
    decodeCause s w i (rawOf i) = some 0x04

/-- R165: TRAP is taken by the participants, with cause 0x30 and its code in INFO. -/
def Clause.TrapInstructionTaken : Prop :=
  ∀ h code s w x s0, Issues (.trap h code) s w x s0 → w.htvec ≠ 0 → w.inTrap = false →
    ∃ t w', exec (.trap h code) s = .next t ∧ t.getWarp w.id = some w' ∧
      TrapTaken w w' 0x30 (code.getD 0) x.e x.pc x.after ∧ t.mem = s0.mem

/-- R163: without a trap vector, or from inside a handler of the same lanes, the trap goes to service level: every warp of the workgroup
has stopped for good, its lanes have exited, and the workgroup keeps the cause, the lanes and the counter for its exit record, with a
double trap marked. -/
def Clause.ServiceLevelEndsWorkgroup : Prop :=
  ∀ h code s w x s0 g, Issues (.trap h code) s w x s0 → s.getWg w.wg = some g → w.htvec = 0 ∨ (w.inTrap = true ∧ x.e &&& w.hmask ≠ 0) →
    ∃ t g' e, exec (.trap h code) s = .next t ∧ t.getWg w.wg = some g' ∧ g'.ended = some e ∧ g'.draining = true ∧
      e.double = (w.inTrap && x.e &&& w.hmask != 0) ∧
      e.hcause = BitVec.ofNat 32 (0x30 + 2 ^ 16 * (code.getD 0).toNat) ∧ e.hmask = x.e ∧ e.hpc = x.pc ∧ e.warp = w.idx ∧
      (∀ v, v ∈ t.warps → v.wg = w.wg → (∀ l, l < v.lanes.length → (v.lane l).st = .exited) ∧ v.outs = [] ∧ v.reads = []) ∧
      t.mem = s0.mem

/-- R168 to R170: RTT by the lanes of `sr.hmask`, inside a handler with no deferred trap pending. The handler is left; a lane that was
held is ready again at its own counter; a trapped lane goes on where the form says: at `sr.hpc` when the handler wrote it, at the
trapping instruction for .RETRY (or at the region entry for a deferred trap), at the region entry for .RETRY.rgn, at the resume counter
for .SKIP and .SUB, and into the wait it was taken from when it returns to that wait. -/
def RttResult (i : Instr) (next : Warp → Lane → DWord) (subst : Bool) : Prop :=
  ∀ s w x s0, Issues i s w x s0 → w.inTrap = true → x.e = w.hmask → w.pend = [] → (∀ l, l < 32 → ∀ n, (w.lane l).waitedOn ≠ some n) →
    (∀ l, l < 32 → ∀ n, (w.lane l).st ≠ .waiting n) →
    ∃ t w', exec i s = .next t ∧ t.getWarp w.id = some w' ∧ w'.inTrap = false ∧
      (∀ l, l < 32 → w.hmask.getLsbD l = true → (w'.lane l).st = .ready ∧
        (w'.lane l).pc = if w.hpcWritten then w.hpc else next w (w.lane l)) ∧
      (∀ l, l < 32 → w.hmask.getLsbD l = false → (w.lane l).st = .held .handler → (w'.lane l).st = .ready ∧ (w'.lane l).pc = (w.lane l).pc) ∧
      (subst = false → RegsKept w w') ∧ t.mem = s0.mem

def Clause.ReturnFromTrap : Prop :=
  (∀ h, RttResult (.rttRetry h) (fun w y => if w.hcause.getLsbD 8 then y.trapRgn else w.hpc) false) ∧
  (∀ h, RttResult (.rttSkip h) (fun _ y => y.resume) false) ∧
  (∀ h, RttResult (.rttSub h) (fun _ y => y.resume) true) ∧
  (∀ h, RttResult (.rttRetryRgn h) (fun _ y => y.trapRgn) false)

/-- R169: RTT.SUB gives the trapped lanes `sr.hsub` as the result of the trapping instruction, with that instruction's issue tag: a
vector register takes it unless a younger instruction has written the register. -/
def Clause.SubstitutedResult : Prop :=
  ∀ h s w x s0 (r : Reg), Issues (.rttSub h) s w x s0 → w.inTrap = true → x.e = w.hmask → w.pend = [] →
    w.hdst = BitVec.ofNat 32 (r.toNat + 2 ^ 11) →
    ∃ t w', exec (.rttSub h) s = .next t ∧ t.getWarp w.id = some w' ∧
      (∀ l, l < 32 → w.hmask.getLsbD l = true → r ≠ 0 → tagWins w .v r l w.trapTag = true → rdV w' r l = w.hsub.setWidth 32) ∧
      (∀ l, l < 32 → w.hmask.getLsbD l = true → tagWins w .v r l w.trapTag = false → rdV w' r l = rdV w r l) ∧
      (∀ q l, l < 32 → q ≠ r ∨ w.hmask.getLsbD l = false → rdV w' q l = rdV w q l) ∧
      (∀ q l, l < 32 → rdQ w' q l = rdQ w q l) ∧ (∀ q, rdW w' q = rdW w q) ∧ ∀ q, rdM w' q = rdM w q

/-- R168: an RTT outside a handler takes ILLEGAL_OPCODE, in any form. -/
def Clause.MisplacedReturnTraps : Prop :=
  ∀ i h, i = .rttRetry h ∨ i = .rttSkip h ∨ i = .rttSub h ∨ i = .rttRetryRgn h →
    ∀ s w x s0, Issues i s w x s0 → w.htvec ≠ 0 → w.inTrap = false →
    ∃ t w', exec i s = .next t ∧ t.getWarp w.id = some w' ∧ TrapTaken w w' 0x01 0 x.e x.pc x.after ∧ t.mem = s0.mem

/-- R166, R167: WCALL. Once the warp's older stores are visible at dev scope, one request record is outstanding for the participants, with
each one's argument and zeros for the other lanes, and the pair of every participant will take the reply; until then nothing issues. Where
the warp's core holds no dirty byte nothing else changes; else the write-backs change memory and may fire watch arms. The byte order of
the record is the model's (log entry 78). -/
def Obligations.ServiceCallIsOutstanding : Prop :=
  (∀ h d a svc s w x s0, Issues (.wcall h d a svc) s w x s0 → storesVisible x s = true →
    ∃ t w', exec (.wcall h d a svc) s = .next t ∧ t.getWarp w.id = some w' ∧
      w'.outs = w.outs ++ [outOf x s .p d x.e (.wcall (wcallRecord s x svc (rdP w a))) none] ∧ NoRegister w w' ∧
      w'.ctrs = w.ctrs ∧ w'.stores = w.stores ∧ w'.reads = w.reads ∧ Advanced x w w' ∧
      ((∀ k, k ∈ (s.getCore (s.warpCore w)).kiln → dirtyOf k.bytes = []) → (∀ k, k ∈ (s.getCore (s.warpCore w)).nc → dirtyOf k.bytes = []) →
        WarpKeptOut w w' ∧ ParksBy x w' ∧ Kept s0 t w.id)) ∧
  (∀ h d a svc s w x s0, Issues (.wcall h d a svc) s w x s0 → storesVisible x s = false →
    ∃ t w', exec (.wcall h d a svc) s = .next t ∧ t.getWarp w.id = some w' ∧ w'.outs = w.outs ∧ w'.lanes = w.lanes ∧ NoRegister w w') ∧
  ∀ s x svc arg, (wcallRecord s x svc arg).length = 288 ∧ recordService (wcallRecord s x svc arg) = svc.toNat ∧
    ∀ l, l < 32 → recordArg (wcallRecord s x svc arg) l = if x.e.getLsbD l then arg l else 0

/-- R85, R86, R105: WAITM, where its set is not complete and where it is. -/
def Obligations.ReconvergenceWaits : Prop := Clause.WaitmWaits ∧ Clause.WaitmReleases

/-- R89, R90, R94, R107: RGN and EXIT. -/
def Obligations.RegionEntryAndExit : Prop := Clause.RegionEntryRecorded ∧ Clause.ExitEndsLanes

/-- R58, R59, R160: what the decode checks turn down traps, privileged forms at user level among it. -/
def Obligations.DecodeAndPrivilegeTraps : Prop := Clause.DecodeTrapsAreTaken ∧ Clause.PrivilegedFormsTrapAtUserLevel

/-- R160, R163, R165: TRAP by the handler, or by service level. -/
def Obligations.TrapsTakenAndServiceLevel : Prop := Clause.TrapInstructionTaken ∧ Clause.ServiceLevelEndsWorkgroup

/-- R168 to R170: the four forms of RTT, with the substituted result, and outside a handler. -/
def Obligations.ReturnsFromTraps : Prop := Clause.ReturnFromTrap ∧ Clause.SubstitutedResult ∧ Clause.MisplacedReturnTraps

/-! ## Memory (R202 to R221, R236) -/

/-- R205 to R208, R211, R212, R236: LD, LDW, LDC, LDS, GATH, ATOM and ATOMF, in every size, space and form. -/
def Obligations.LoadsAreOutstanding : Prop :=
  (∀ h sz ch d m, ReadIssues (.ld h sz ch d m) sz.file d .ld (fun s x => globalCheck s x false (addrGlobal x m) (Sz.bytes sz))
    fun _ x ls => .load (if ch = .na then .home else if ch = .ef then .early else .global) sz (ls.map fun l => (l, addrGlobal x m l))) ∧
  (∀ h sz d m, ReadIssues (.ldw h sz d m) sz.file d .ld (fun s x => globalCheck s x true (addrGlobal x m) (Sz.bytes sz))
    fun _ x ls => .load .kiln sz (ls.map fun l => (l, addrGlobal x m l))) ∧
  (∀ h sz d m, ReadIssues (.ldc h sz d m) sz.file d .ld (fun _ x l => judgeParam (addrScratch x m l) (Sz.bytes sz))
    fun s x ls => .load .param sz (ls.map fun l => (l, (s.warpEff x.w).params + (addrScratch x m l).setWidth 64))) ∧
  (∀ h sz d m, ReadIssues (.lds h sz d m) sz.file d .ld (fun s x => scratchCheck s x (addrScratch x m) (Sz.bytes sz))
    fun _ x ls => .load .scratch sz (ls.map fun l => (l, (addrScratch x m l).setWidth 64))) ∧
  (∀ h wide sh sgn d a b, ReadIssues (.gath h wide sh sgn d a b) (if wide then .p else .v) d .gat
    (fun s x => globalCheck s x false (gatherAddr x a (fun l => (rdV x.w b l).toNat) sh sgn) (if wide then 8 else 4))
    fun _ x ls => .load .gather (if wide then .b64 else .b32) (ls.map fun l => (l, gatherAddr x a (fun l => (rdV x.w b l).toNat) sh sgn l))) ∧
  (∀ h t scr d a, ReadIssues (.atom h t scr d a) t.file d .ld (fun s x => atomCheck s x scr (atomAddr x scr a) (ITy.bits t / 8))
    fun _ x ls => .atom scr t (atomCode a) (ls.map fun l => (l, atomAddr x scr a l, atomB x t.file a l, atomC x t.file a l))) ∧
  (∀ h op p scr d a, ReadIssues (.atomf h op p scr d a) .v d .ld (fun s x => atomCheck s x scr (spaceAddr x scr a) 4)
    fun _ x ls => .atomf scr p op (ls.map fun l => (l, spaceAddr x scr a l, BitVec.ofNat 32 (stData x .v a l))))

/-- R205, R208, R213, R220, R226, R236, R409: ST, STW, STS, RED, REDF, SCAT, MARV, TSIG and the four CCTL on addresses, in every form; the data
are the operand's low bytes, least significant first. -/
def Obligations.StoresArePosted : Prop :=
  (∀ h sz ch a, PostIssues (.st h sz ch a) .st (fun s x => globalCheck s x true (stGlobal x a) (StSz.bytes sz))
    fun x ls => .write (if ch = .na then .home else if ch = .ef then .early else .global)
      (ls.map fun l => (l, stGlobal x a l, leBytes (StSz.bytes sz) (stData x sz.file a l)))) ∧
  (∀ h sz a, PostIssues (.stw h sz a) .st (fun s x => globalCheck s x true (stGlobal x a) (StSz.bytes sz))
    fun x ls => .write .kiln (ls.map fun l => (l, stGlobal x a l, leBytes (StSz.bytes sz) (stData x sz.file a l)))) ∧
  (∀ h sz a, PostIssues (.sts h sz a) .st (fun s x => scratchCheck s x (stScratch x a) (StSz.bytes sz))
    fun x ls => .write .scratch
      (ls.map fun l => (l, (stScratch x a l).setWidth 64, leBytes (StSz.bytes sz) (stData x sz.file a l)))) ∧
  (∀ h op t scr a, PostIssues (.red h op t scr a) .st (fun s x => atomCheck s x scr (spaceAddr x scr a) (ITy.bits t / 8))
    fun x ls => .red scr t (ropCode op) (ls.map fun l => (l, spaceAddr x scr a l, BitVec.ofNat 64 (stData x t.file a l)))) ∧
  (∀ h op p scr a, PostIssues (.redf h op p scr a) .st (fun s x => atomCheck s x scr (spaceAddr x scr a) 4)
    fun x ls => .redf scr p op (ls.map fun l => (l, spaceAddr x scr a l, BitVec.ofNat 32 (stData x .v a l)))) ∧
  (∀ h wide sh sgn y, PostIssues (.scat h wide sh sgn y) .gat
    (fun s x => globalCheck s x true (gatherAddr x y.a (src3B x .v y) sh sgn) (if wide then 8 else 4))
    fun x ls => .scatter (ls.map fun l =>
      (l, gatherAddr x y.a (src3B x .v y) sh sgn l, leBytes (if wide then 8 else 4) (src3C x (if wide then .p else .v) y l)))) ∧
  (∀ h sc m, PostIssues (.marv h sc m) .st (fun s x => globalCheck s x true (addrGlobal x m) 8)
    fun x ls => .marv sc (ls.map fun l => (l, addrGlobal x m l))) ∧
  (∀ h sc a, PostIssues (.tsig h sc a) .st (fun s x => globalCheck s x false (stGlobal x a) 4)
    fun x ls => .tsig sc (ls.map fun l => (l, stGlobal x a l, BitVec.ofNat 32 (stData x .v a l)))) ∧
  (∀ h m, PostIssues (.cctlWbl h m) .st (fun _ x l => if canonical (addrGlobal x m l) then .pass else .protect 0)
    fun x ls => .cctl 1 (ls.map fun l => (l, addrGlobal x m l))) ∧
  (∀ h m, PostIssues (.cctlInvl h m) .st (fun _ x l => if canonical (addrGlobal x m l) then .pass else .protect 0)
    fun x ls => .cctl 2 (ls.map fun l => (l, addrGlobal x m l))) ∧
  (∀ h m, PostIssues (.cctlKwb h m) .st (fun _ x l => if canonical (addrGlobal x m l) then .pass else .protect 0)
    fun x ls => .cctl 3 (ls.map fun l => (l, addrGlobal x m l))) ∧
  (∀ h m, PostIssues (.cctlKinv h m) .st (fun _ x l => if canonical (addrGlobal x m l) then .pass else .protect 0)
    fun x ls => .cctl 4 (ls.map fun l => (l, addrGlobal x m l)))

/-- R203: a participant whose address is not a multiple of the access size takes MEM_ALIGN, whatever the others' checks say; here for
LD, outside a handler, when every participant's address is misaligned: nothing is outstanding and nothing is counted. -/
def Obligations.MisalignedLoadTraps : Prop :=
  ∀ h sz ch d m s w x s0, Issues (.ld h sz ch d m) s w x s0 → w.htvec ≠ 0 → w.inTrap = false →
    (∀ l, l < 32 → x.e.getLsbD l = true → (rdP w m.base l + (m.off.getD 0).signExtend 64).toNat % Sz.bytes sz ≠ 0) →
    ∃ t w', exec (.ld h sz ch d m) s = .next t ∧ t.getWarp w.id = some w' ∧
      TrapTaken w w' 0x10 0 x.e x.pc x.after ∧ w'.ctrs = w.ctrs ∧ w'.reads = w.reads ∧ t.mem = s0.mem

/-- R209: LDQ in either space, when its window has room and every participant passes: the entry takes the next place in the sender's
sequence for that queue at issue, its loads are outstanding and counted in c.ld, and no register and no byte of memory has changed. -/
def LdqResult (i : Instr) (q : Nat) (sp : Space) (check : State → Issue → Nat → Verdict) (addr : Issue → Nat → DWord) : Prop :=
  ∀ s w x s0 g, Issues i s w x s0 → AllPass check s x → s.getWg w.wg = some g →
    (senderOf g w.id q).window.length < 8 → w.reads = [] →
    ∃ t w' g', exec i s = .next t ∧ t.getWarp w.id = some w' ∧ t.getWg w.wg = some g' ∧
      w'.reads = [{ outOf x s .v 0 x.e (.ldq sp q ((lanesOf x.e).map fun l => (l, addr x l)) []) (some .ld) with dsts := [], file := 0 }] ∧
      (senderOf g' w.id q).nextSeq = (senderOf g w.id q).nextSeq + 1 ∧
      (senderOf g' w.id q).window = (senderOf g w.id q).window ++ [((senderOf g w.id q).nextSeq, false, [])] ∧
      g'.queues = g.queues ∧ w'.ctrs = (countUp w .ld x.tag).ctrs ∧ w'.outs = w.outs ∧ w'.stores = w.stores ∧ Advanced x w w' ∧
      WarpKeptOut w w' ∧ ∀ a, Memory.read t.mem a = Memory.read s0.mem a

def Clause.QueueLoadsTakeTheirPlace : Prop :=
  (∀ h k m, LdqResult (.ldq h k m) k.toNat .global (fun s x => globalCheck s x false (addrGlobal x m) 4) fun x => addrGlobal x m) ∧
  (∀ h k m, LdqResult (.ldqScratch h k m) k.toNat .scratch (fun s x => scratchCheck s x (addrScratch x m) 4)
    fun x l => (addrScratch x m l).setWidth 64)

/-- R196, R210: POPQ takes one, two or four entries off the head of the queue at issue, oldest first, and the values of each
participant's lane are outstanding for the consecutive registers. -/
def Clause.QueuePopTakesEntries : Prop :=
  ∀ h n d q s w x s0 g, Issues (.popq h n d q) s w x s0 → s.getWg w.wg = some g →
    ∃ t w' g', exec (.popq h n d q) s = .next t ∧ t.getWarp w.id = some w' ∧ t.getWg w.wg = some g' ∧
      queueOf g' q.toNat = (queueOf g q.toNat).drop (popNum n) ∧ (∀ k, k ≠ q.toNat → queueOf g' k = queueOf g k) ∧
      w'.outs = w.outs ++ [{ outOf x s .v d x.e (.values ((lanesOf x.e).map fun l =>
          (l, (List.range (popNum n)).map fun j => popLane x.pop (32 * j + l))) []) none with
          dsts := (List.range (popNum n)).map fun j => d.toNat + j }] ∧
      x.pop = ((queueOf g q.toNat).take (popNum n)).flatten ∧
      w'.ctrs = w.ctrs ∧ w'.stores = w.stores ∧ Advanced x w w' ∧ WarpKeptOut w w' ∧ Kept s0 t w.id

/-- R197: where the queue holds too few entries the instruction does not execute: nothing at all changes while the queue can still be filled. -/
def Clause.EmptyQueueHoldsThePop : Prop :=
  ∀ h n d q s w g, Ready (.popq h n d q) s w → guarded w h.gp h.gn (headRun w) ≠ 0 → s.getWg w.wg = some g →
    (queueOf g q.toNat).length < popNum n → queueDead s w g q.toNat = false →
    exec (.popq h n d q) s = .next s

/-- R216: WAITC records what it waits for; the warp issues nothing more until the counter has fallen to n. -/
def Clause.CounterWaitRecorded : Prop :=
  (∀ h c n s w x s0, Issues (.waitc h c n) s w x s0 →
    ∃ t w', exec (.waitc h c n) s = .next t ∧ t.getWarp w.id = some w' ∧ w'.waitc = some (c, n.toNat) ∧ NoRegister w w' ∧
      Advanced x w w' ∧ w'.outs = w.outs ∧ w'.stores = w.stores ∧ ∀ a, Memory.read t.mem a = Memory.read s0.mem a) ∧
  ∀ i s w c n, toRaw i ≠ none → s.getWarp s.cur = some w → headRun w ≠ 0 → w.waitc = some (c, n) → n < ctrVal w c →
    exec i s = .next s

/-- R218, R219, R221: REL holds the warp's later MEM and MX instructions back until RELEASE_COMPLETE; ACQ does so while an older load has
not completed; CCTL.ivall empties the core's instruction cache of its ASID, and of global pages (log entry 27); PREF changes no register and raises no trap. -/
def Clause.OrderingInstructions : Prop :=
  (∀ h sc s w x s0, Issues (.rel h sc) s w x s0 →
    ∃ t w', exec (.rel h sc) s = .next t ∧ t.getWarp w.id = some w' ∧ w'.hold = some (.rel sc x.tag) ∧ NoRegister w w' ∧
      Advanced x w w' ∧ w'.outs = w.outs ∧ w'.stores = w.stores ∧ w'.ctrs = w.ctrs ∧ Kept s0 t w.id) ∧
  (∀ h sc s w x s0, Issues (.acq h sc) s w x s0 → olderDone w .ld x.tag = false →
    ∃ t w', exec (.acq h sc) s = .next t ∧ t.getWarp w.id = some w' ∧ w'.hold = some (.acq sc x.tag) ∧ NoRegister w w' ∧
      Advanced x w w' ∧ w'.outs = w.outs ∧ w'.stores = w.stores ∧ w'.ctrs = w.ctrs ∧ Kept s0 t w.id) ∧
  (∀ h sc s w x s0, Issues (.acq h sc) s w x s0 → olderDone w .ld x.tag = true →
    ∃ t w', exec (.acq h sc) s = .next t ∧ t.getWarp w.id = some w' ∧ w'.hold = w.hold ∧ NoRegister w w' ∧ Advanced x w w' ∧
      w'.outs = w.outs ∧ w'.stores = w.stores ∧ (∀ a, Memory.read t.mem a = Memory.read s0.mem a) ∧
      (sc ≠ .wg → ∀ y, y ∈ (t.getCore (s.warpCore w)).nc → tagSees (s.warpAsid w) y.asid = true → ∀ e, e ∈ y.bytes → e.2.2 = true)) ∧
  (∀ h s w x s0, Issues (.cctlIvall h) s w x s0 →
    ∃ t w', exec (.cctlIvall h) s = .next t ∧ t.getWarp w.id = some w' ∧ NoRegister w w' ∧ Advanced x w w' ∧
      (∀ e, e ∈ (t.getCore (s.warpCore w)).icache ↔ e ∈ (s.getCore (s.warpCore w)).icache ∧ e.1 ≠ s.warpAsid w ∧ e.1 ≠ 0) ∧
      w'.outs = w.outs ∧ w'.stores = w.stores ∧ ∀ a, Memory.read t.mem a = Memory.read s0.mem a) ∧
  (∀ h t m s w x s0, Issues (.pref h t m) s w x s0 →
    ∃ u w', exec (.pref h t m) s = .next u ∧ u.getWarp w.id = some w' ∧ NoRegister w w' ∧ Advanced x w w' ∧
      w'.outs = w.outs ∧ w'.stores = w.stores ∧ w'.ctrs = w.ctrs ∧ w'.inTrap = w.inTrap)

/-- R196, R197, R209, R210: LDQ and POPQ, and a pop from a queue that holds too few entries. -/
def Obligations.QueueInstructions : Prop := Clause.QueueLoadsTakeTheirPlace ∧ Clause.QueuePopTakesEntries ∧ Clause.EmptyQueueHoldsThePop

/-- R216, R218 to R221: WAITC, REL, ACQ, CCTL.ivall and PREF. -/
def Obligations.WaitsAndOrderingInstructions : Prop := Clause.CounterWaitRecorded ∧ Clause.OrderingInstructions

/-! ## Synchronisation (R222 to R233) -/

/-- A lane that is woken: ready where it goes on, or held while a handler of others runs (R161). -/
abbrev WokenAt (w : Warp) (l : Nat) (next : DWord) (y : Lane) : Prop :=
  y.pc = next ∧ y.st = if w.inTrap && !w.hmask.getLsbD l then .held .handler else .ready

/-- R224: BARA adds the participants to the barrier's arrivals and records the phase in which the warp arrived. Arrivals short of the
expected number leave the phase; the arrival that meets it starts the next phase with no arrivals and wakes every lane of the gang
that sleeps on the barrier, and one that passes it also sets OVR. On a barrier that has not been initialised it has no effect. -/
def Clause.BarrierArrive : Prop :=
  ∀ h b s w x s0 g, Issues (.bara h b) s w x s0 → s.warpGang w = some g →
    let y := barGet g b.toNat
    ∃ t w' g', exec (.bara h b) s = .next t ∧ t.getWarp w.id = some w' ∧ t.getGang g.id = some g' ∧ NoRegister w w' ∧
      (∀ l, l < 32 → x.run.getLsbD l = true → (w'.lane l).pc = x.after ∧ (w'.lane l).st = .ready) ∧
      w'.outs = w.outs ∧ w'.stores = w.stores ∧ t.mem = s0.mem ∧
      (y.expn = 0 → g'.bars = g.bars ∧ g'.recs = g.recs) ∧
      (y.expn ≠ 0 → y.arr + laneCount x.e < y.expn → barGet g' b.toNat = { y with arr := y.arr + laneCount x.e }) ∧
      (y.expn ≠ 0 → y.expn ≤ y.arr + laneCount x.e →
        barGet g' b.toNat = { y with arr := 0, ph := y.ph + 1, ovr := y.ovr || decide (y.expn < y.arr + laneCount x.e) } ∧
        ∀ k v gv l nxt, s.getWarp k = some v → s.getWg v.wg = some gv → gv.gang = g.id → l < 32 →
          (v.lane l).st = .sleeping (.bar b.toNat) nxt → ∃ v', t.getWarp k = some v' ∧ WokenAt v l nxt (v'.lane l))

/-- R224: BARW. The participants sleep on the barrier, to go on after the instruction, unless the phase in which their warp last arrived is
complete or the barrier is not initialised; then they go on at once. -/
def Clause.BarrierWait : Prop :=
  ∀ h b s w x s0 g, Issues (.barw h b) s w x s0 → s.warpGang w = some g →
    let y := barGet g b.toNat
    let past := match g.recs.find? fun r => r.1 == recKey s w b.toNat with | some r => r.2 != y.ph | none => false
    ∃ t w', exec (.barw h b) s = .next t ∧ t.getWarp w.id = some w' ∧ NoRegister w w' ∧
      (y.expn = 0 ∨ past = true → Advanced x w w') ∧
      (y.expn ≠ 0 → past = false → ∀ l, l < 32 → x.e.getLsbD l = true →
        (w'.lane l).st = .sleeping (.bar b.toNat) x.after ∧ (w'.lane l).pc = x.pc) ∧
      (∀ l, l < 32 → x.e.getLsbD l = false → w'.lane l = { w.lane l with pc := if x.run.getLsbD l then x.after else (w.lane l).pc }) ∧
      w'.outs = w.outs ∧ w'.stores = w.stores ∧ t.mem = s0.mem

/-- R224: BARS by warps that do not yet meet the expected number arrives and then waits for that phase; when it meets the number, the
participants go on at once. -/
def Clause.BarrierSync : Prop :=
  ∀ h b s w x s0 g, Issues (.bars h b) s w x s0 → s.warpGang w = some g →
    let y := barGet g b.toNat
    ∃ t w' g', exec (.bars h b) s = .next t ∧ t.getWarp w.id = some w' ∧ t.getGang g.id = some g' ∧ NoRegister w w' ∧
      (y.expn = 0 → Advanced x w w') ∧
      (y.expn ≠ 0 → y.arr + laneCount x.e < y.expn → barGet g' b.toNat = { y with arr := y.arr + laneCount x.e } ∧
        ∀ l, l < 32 → x.e.getLsbD l = true → (w'.lane l).st = .sleeping (.bar b.toNat) x.after ∧ (w'.lane l).pc = x.pc) ∧
      (y.expn ≠ 0 → y.expn ≤ y.arr + laneCount x.e → (barGet g' b.toNat).ph = y.ph + 1 ∧ (barGet g' b.toNat).arr = 0 ∧
        ∀ l, l < 32 → x.e.getLsbD l = true → (w'.lane l).st = .ready ∧ (w'.lane l).pc = x.after) ∧
      w'.outs = w.outs ∧ w'.stores = w.stores ∧ t.mem = s0.mem

/-- R223, R225: BARINIT sets the expected number from the lowest participant, clears the arrivals and OVR and advances the phase; BARQ's
pair is outstanding. -/
def Clause.BarrierInitAndQuery : Prop :=
  (∀ h b v s w x s0 g, Issues (.barinit h b v) s w x s0 → s.warpGang w = some g →
    ∃ t w' g', exec (.barinit h b v) s = .next t ∧ t.getWarp w.id = some w' ∧ t.getGang g.id = some g' ∧ NoRegister w w' ∧
      barGet g' b.toNat = { expn := srcB x .v v x.low % 2 ^ 14, arr := 0, ph := (barGet g b.toNat).ph + 1, ovr := false } ∧
      (∀ c, c ≠ b.toNat → barGet g' c = barGet g c) ∧
      (∀ l, l < 32 → x.run.getLsbD l = true → (w'.lane l).pc = x.after ∧ (w'.lane l).st = .ready) ∧
      w'.outs = w.outs ∧ w'.stores = w.stores ∧ t.mem = s0.mem) ∧
  ∀ h d b s w x s0, Issues (.barq h d b) s w x s0 →
    ∃ t w', exec (.barq h d b) s = .next t ∧ t.getWarp w.id = some w' ∧
      w'.outs = w.outs ++ [outOf x s .p d x.e (.barq b.toNat) none] ∧ w'.ctrs = w.ctrs ∧ w'.stores = w.stores ∧ Advanced x w w' ∧
      WarpKeptOut w w' ∧ Kept s0 t w.id

/-- R228, R232: SLEEP puts the participants whose count is not zero to sleep until that many ticks from now; SLEEPT those whose deadline
has not passed, with the copy tag of their promise. They keep the instruction's counter while they sleep and go on after it. -/
def Clause.SleepsBegin : Prop :=
  (∀ h v s w x s0, Issues (.sleep h v) s w x s0 →
    ∃ t w', exec (.sleep h v) s = .next t ∧ t.getWarp w.id = some w' ∧ NoRegister w w' ∧
      (∀ l, l < 32 → w'.lane l =
        if x.e.getLsbD l = true ∧ srcB x .v v l ≠ 0 then
          { w.lane l with
            pc := x.pc
            st := .sleeping (.clock (s.clock + BitVec.ofNat 64 (srcB x .v v l))) x.after
            since := s.clock }
        else { w.lane l with pc := if x.run.getLsbD l then x.after else (w.lane l).pc }) ∧
      w'.outs = w.outs ∧ w'.stores = w.stores ∧ w'.ctrs = w.ctrs ∧ Kept s0 t w.id) ∧
  ∀ h a b s w x s0, Issues (.sleept h a b) s w x s0 →
    (∀ l, l < 32 → x.e.getLsbD l = true → s.clock.toNat < (rdP w a l).toNat) →
    ∃ t w', exec (.sleept h a b) s = .next t ∧ t.getWarp w.id = some w' ∧ NoRegister w w' ∧
      (∀ l, l < 32 → w'.lane l =
        if x.e.getLsbD l = true then
          { w.lane l with
            pc := x.pc
            st := .sleeping (.promise (rdP w a l) (bitsAt (rdV w b l).toNat 0 16)) x.after
            since := s.clock }
        else { w.lane l with pc := if x.run.getLsbD l then x.after else (w.lane l).pc }) ∧
      w'.outs = w.outs ∧ w'.stores = w.stores ∧ w'.ctrs = w.ctrs ∧ Kept s0 t w.id

/-- R232: a SLEEPT whose deadline has passed at issue, on a copy tag that is still running, takes PROMISE_MISSED with the tag in INFO. -/
def Clause.MissedPromiseTraps : Prop :=
  ∀ h a b s w x s0 tag, Issues (.sleept h a b) s w x s0 → w.htvec ≠ 0 → w.inTrap = false → tag < 2 ^ 16 →
    (∀ l, l < 32 → x.e.getLsbD l = true → (rdP w a l).toNat ≤ s.clock.toNat ∧ (rdV w b l).toNat % 2 ^ 16 = tag) →
    tagComplete w tag = false →
    ∃ t w', exec (.sleept h a b) s = .next t ∧ t.getWarp w.id = some w' ∧
      TrapTaken w w' 0x18 (BitVec.ofNat 16 tag) x.e x.pc (x.pc + 8) ∧ t.mem = s0.mem

/-- R229, R230: WATCH arms its arm on the line of the lowest participant's address, with a coherent read of it under way; WAITW goes on when
an arm of its mask has fired or is not armed, and else puts the participants to sleep with their deadlines. -/
def Clause.WatchesAndWaits : Prop :=
  (∀ h arm m s w x s0, Issues (.watch h arm m) s w x s0 → canonical (addrGlobal x m x.low) = true →
    ∃ t w', exec (.watch h arm m) s = .next t ∧ t.getWarp w.id = some w' ∧ NoRegister w w' ∧ Advanced x w w' ∧
      (arm.toNat < w.arms.length → w'.arms[arm.toNat]? =
        some { armed := true, fired := false, asid := s.warpAsid w, line := lineOf (addrGlobal x m x.low) }) ∧
      (∀ k, k ≠ arm.toNat → w'.arms[k]? = w.arms[k]?) ∧ w'.reads.length = w.reads.length + 1 ∧
      w'.outs = w.outs ∧ w'.stores = w.stores ∧ w'.ctrs = w.ctrs ∧ Kept s0 t w.id) ∧
  (∀ h mask a s w x s0, Issues (.waitw h mask a) s w x s0 →
    ∃ t w', exec (.waitw h mask a) s = .next t ∧ t.getWarp w.id = some w' ∧ NoRegister w w' ∧
      (armsOpen w mask = true → Advanced x w w') ∧
      (armsOpen w mask = false → ∀ l, l < 32 → x.e.getLsbD l = true →
        (w'.lane l).st = .sleeping (.waitw mask (rdP w a l)) x.after ∧ (w'.lane l).pc = x.pc) ∧
      (∀ l, l < 32 → x.e.getLsbD l = false → w'.lane l = { w.lane l with pc := if x.run.getLsbD l then x.after else (w.lane l).pc }) ∧
      w'.arms = w.arms ∧ w'.outs = w.outs ∧ w'.stores = w.stores ∧ w'.ctrs = w.ctrs ∧ Kept s0 t w.id)

/-- R227: MWAIT, whose participants pass the checks, with an older load of the warp not yet complete: the participants sleep, each on its
own barrier word with the phase it names, and read the word only when the older loads have completed. -/
def Clause.BarrierWordWait : Prop :=
  ∀ h sc a s w x s0, Issues (.mwait h sc a) s w x s0 → AllPass (fun s x => globalCheck s x false (stGlobal x a) 8) s x →
    olderDone w .ld x.tag = false → (∀ l, l < 32 → mwaitOf (w.lane l) = none) → (∀ o, o ∈ w.reads → o.res ≠ .mwait) →
    ∃ t w', exec (.mwait h sc a) s = .next t ∧ t.getWarp w.id = some w' ∧ NoRegister w w' ∧
      (∀ l, l < 32 → w'.lane l =
        if x.e.getLsbD l = true then
          { w.lane l with
            pc := x.pc
            st := .sleeping (.mwait (stGlobal x a l) sc (BitVec.ofNat 32 (stData x .v a l)) x.tag) x.after
            since := s.clock }
        else { w.lane l with pc := if x.run.getLsbD l then x.after else (w.lane l).pc }) ∧
      w'.outs = w.outs ∧ w'.stores = w.stores ∧ w'.ctrs = w.ctrs ∧ Kept s0 t w.id

/-- R86, R232, R230: the events that wake. SLEEP_EXPIRY wakes exactly the lanes whose count has run out, WAITW_DEADLINE exactly those
whose deadline is set and has passed; nothing else changes. -/
def Obligations.SleepersWake : Prop :=
  (∀ s k w, s.getWarp k = some w →
    ∃ t w', exec (.sleepExpiry k) s = .next t ∧ t.getWarp k = some w' ∧ NoRegister w w' ∧ t.mem = s.mem ∧
      (∀ l d nxt, l < 32 → (w.lane l).st = .sleeping (.clock d) nxt → d.toNat ≤ s.clock.toNat → WokenAt w l nxt (w'.lane l)) ∧
      (∀ l, l < 32 → (∀ d nxt, (w.lane l).st = .sleeping (.clock d) nxt → s.clock.toNat < d.toNat) → w'.lane l = w.lane l)) ∧
  (∀ s k w, s.getWarp k = some w →
    ∃ t w', exec (.waitwDeadline k) s = .next t ∧ t.getWarp k = some w' ∧ NoRegister w w' ∧ t.mem = s.mem ∧
      (∀ l mask d nxt, l < 32 → (w.lane l).st = .sleeping (.waitw mask d) nxt → d ≠ 0 → d.toNat ≤ s.clock.toNat →
        WokenAt w l nxt (w'.lane l)) ∧
      (∀ l, l < 32 → (∀ mask d nxt, (w.lane l).st = .sleeping (.waitw mask d) nxt → d = 0 ∨ s.clock.toNat < d.toNat) →
        w'.lane l = w.lane l)) ∧
  (∀ s k w, s.getWarp k = some w → (∀ l tag d nxt, l < 32 → (w.lane l).st = .sleeping (.promise d tag) nxt → s.clock.toNat < d.toNat) →
    exec (.sleeptDeadline k) s = .next s) ∧
  (∀ s k w l d tag, s.getWarp k = some w → w.inTrap = false → l < 32 → (w.lane l).st = .sleeping (.promise d tag) ((w.lane l).pc + 8) →
    d.toNat ≤ s.clock.toNat → tagComplete w tag = true →
    (∀ j, j < 32 → j ≠ l → ∀ e u n, (w.lane j).st ≠ .sleeping (.promise e u) n) →
    ∃ t w', exec (.sleeptDeadline k) s = .next t ∧ t.getWarp k = some w' ∧ NoRegister w w' ∧ (w'.lane l).st = .ready ∧
      (w'.lane l).pc = (w.lane l).pc + 8 ∧ t.mem = s.mem) ∧
  (∀ s k w arm, s.getWarp k = some w → arm < 4 → ((w.arms[arm]?).getD {}).fired = true →
    ∃ t w', exec (.watchArmFire k arm) s = .next t ∧ t.getWarp k = some w' ∧ NoRegister w w' ∧ t.mem = s.mem ∧
      ∀ l mask d nxt, l < 32 → (w.lane l).st = .sleeping (.waitw mask d) nxt → mask.getLsbD arm = true → WokenAt w l nxt (w'.lane l))

/-- R223 to R225: BARA, BARINIT and BARQ. -/
def Obligations.BarrierArrivals : Prop := Clause.BarrierArrive ∧ Clause.BarrierInitAndQuery

/-- R224: BARW and BARS. -/
def Obligations.BarrierWaits : Prop := Clause.BarrierWait ∧ Clause.BarrierSync

/-- R228, R232: SLEEP and SLEEPT, and a promise that was missed. -/
def Obligations.SleepsAndPromises : Prop := Clause.SleepsBegin ∧ Clause.MissedPromiseTraps

/-- R227, R229, R230: WATCH, WAITW and MWAIT. -/
def Obligations.WatchesAndMemoryWaits : Prop := Clause.WatchesAndWaits ∧ Clause.BarrierWordWait

/-! ## Asynchronous copies and queues (R195, R198, R209, R231 to R235) -/

/-- R231 to R234: CPYA, CPYW and CPYQ on aligned operands of at most 16 MiB (65,536 blocks for CPYQ) whose ends pass the checks. The copy
is running and counted in c.cpy; CPYA gives its tag and a promised time, which is the model's free value (log entry 32), to three registers of each
participant. A length of 0 is complete at once. -/
def Obligations.AsynchronousCopiesStart : Prop :=
  (∀ h dir d q s w x s0 src dst, Issues (.cpya h dir d q) s w x s0 →
    let gs := dir == .g2s || dir == .g2g
    let gd := dir == .s2g || dir == .g2g
    let a := src3A x (if gs then .p else .v) q x.low
    let b := src3B x (if gd then .p else .v) q x.low
    let n := src3C x .v q x.low
    n % 16 = 0 → a % 16 = 0 → b % 16 = 0 → n ≤ 0x1000000 → endOf s x gs a n = .ok src → endOf s x gd b n = .ok dst →
    ∃ t w' o at_, exec (.cpya h dir d q) s = .next t ∧ t.getWarp w.id = some w' ∧ w'.outs = w.outs ++ [o] ∧ o.lanes = x.e ∧
      o.dsts = (if d == 0 then [0, 0] else [d.toNat, d.toNat + 1]) ++ [d.toNat + 2] ∧
      o.res = .values ((lanesOf x.e).map fun l => (l, [BitVec.setWidth 32 at_, BitVec.extractLsb' 32 32 at_, BitVec.ofNat 32 w.nextTag])) [] ∧
      w'.nextTag = (if w.nextTag = 0xFFFF then 1 else w.nextTag + 1) ∧
      (w.nextTag, if n = 0 then TagStatus.complete else .running) ∈ w'.tags ∧
      (n = 0 → at_ = s.clock ∧ t.copies = s0.copies ∧ w'.ctrs = (countDone (countUp w .cpy x.tag) .cpy x.tag).ctrs) ∧
      (n ≠ 0 → w'.ctrs = (countUp w .cpy x.tag).ctrs ∧ ∃ c, t.copies = s0.copies ++ [c] ∧ c.kind = .cpya dir ∧ c.w = w.id ∧ c.src = src ∧
        c.dst = dst ∧ c.units = n / 16 ∧ c.tag = w.nextTag ∧ c.issue = x.tag ∧ c.lanes = x.e ∧ c.st = .running ∧ c.written = []) ∧
      WarpGoesOn x s0 t w w') ∧
  (∀ h a b s w x s0, Issues (.cpyw h a b) s w x s0 →
    let va := rdP w a x.low
    let n := (rdV w b x.low).toNat
    va.toNat % 1024 = 0 → n % 1024 = 0 → n ≤ 0x1000000 → rangeCanonical va n = true → wortIssueHit s w va.toNat n = false →
    n ≠ 0 → (s.warpEff w).kilnMib ≠ 0 →
    ∃ t w' c, exec (.cpyw h a b) s = .next t ∧ t.getWarp w.id = some w' ∧ t.copies = s0.copies ++ [c] ∧ c.kind = .cpyw ∧
      c.src = .glob va ∧ c.units = n / 1024 ∧ c.issue = x.tag ∧ c.w = w.id ∧ w'.ctrs = (countUp w .cpy x.tag).ctrs ∧ w'.outs = w.outs ∧
      w'.nextTag = w.nextTag ∧ WarpGoesOn x s0 t w w') ∧
  ∀ h k a b s w x s0 g, Issues (.cpyq h k a b) s w x s0 → s.getWg w.wg = some g →
    let va := rdP w a x.low
    let n := (rdV w b x.low).toNat
    va.toNat % 128 = 0 → n ≤ 65536 → rangeCanonical va (128 * n) = true → n ≠ 0 →
    ∃ t w' g' c, exec (.cpyq h k a b) s = .next t ∧ t.getWarp w.id = some w' ∧ t.getWg w.wg = some g' ∧ t.copies = s0.copies ++ [c] ∧
      c.kind = .cpyq k.toNat ∧ c.src = .glob va ∧ c.units = n ∧ c.issue = x.tag ∧
      senderOf g' (2 ^ 32 + c.id) k.toNat = { id := 2 ^ 32 + c.id, q := k.toNat, qbo := w.qbo } ∧ g'.queues = g.queues ∧
      w'.ctrs = (countUp w .cpy x.tag).ctrs ∧ w'.outs = w.outs ∧ w'.nextTag = w.nextTag ∧ WarpGoesOn x s0 t w w'

/-- R186, R198, R209, R214, R232, R234: the events of copies and of queue entries on their way. A unit of a CPYA whose source has been read,
and which does not lie in the source itself (R231), is written at its place in the target scratchpad; a sector of a CPYW is clean in the kiln; a block of a CPYQ is sent to its queue; a
copy that has ended counts in c.cpy and its tag reads complete; an entry that is its sender's oldest is taken by a queue with room, and
any other is refused; a refused entry is sent again when its back-off has run out; the entry of an LDQ whose loads have returned is
sent. -/
def Obligations.CopiesAndEntriesMove : Prop :=
  (∀ s id unit c dir r bs s1, s.copies.find? (fun y => y.id == id) = some c → copyLive s c = true → c.kind = .cpya dir → unit < c.units →
    c.written.contains unit = false → c.dst = .bank r → unitRead s c unit = (.done bs, s1) →
    let o := r.off + 16 * unit
    let bank := (r.banks[o / 0x4000]?).getD 0
    (sget 0 (s1.getCore r.core).owner bank).toNat = c.ctx →
    (∀ q, c.src = .bank q → q.wg ≠ r.wg ∨ o + bs.length ≤ q.off ∨ q.off + 16 * c.units ≤ o) →
    ∃ t, exec (.copyUnitWrite id unit) s = .next t ∧
      (∀ i, i < bs.length → sget 0 (t.getCore r.core).scratch (bank * 0x4000 + o % 0x4000 + i) = (bs[i]?).getD 0) ∧
      (∀ k, k < bank * 0x4000 + o % 0x4000 ∨ bank * 0x4000 + o % 0x4000 + bs.length ≤ k →
        sget 0 (t.getCore r.core).scratch k = sget 0 (s1.getCore r.core).scratch k) ∧
      t.copies = updAt (fun y => y.id == c.id) (fun y => { y with
        written := y.written ++ [unit]
        parts := y.parts.filter fun p => p.1 != unit }) s1.copies ∧ CoresKeptBut s1 t r.core ∧ t.mem = s1.mem ∧ t.warps = s1.warps) ∧
  (∀ s id c, s.copies.find? (fun y => y.id == id) = some c → copyEnded s c = true → c.st = .running →
    ∃ t, exec (.copyComplete id) s = .next t ∧ (∀ y, y ∈ t.copies → y.id ≠ id) ∧ MemoryKept s t ∧
      ∀ w, s.getWarp c.w = some w → ∃ w', t.getWarp c.w = some w' ∧ NoRegister w w' ∧ SpecialsKept w w' ∧
        w'.ctrs = (countDone w .cpy c.issue).ctrs ∧ (∀ st, (c.tag, st) ∈ w'.tags → st = .complete)) ∧
  (∀ s wg n g m, s.getWg wg = some g → g.flight[n]? = some m →
    ((g.flight.take n).any fun f => f.sender == m.sender && f.q == m.q) = false → m.q < g.queues.length →
    let d := senderOf g m.sender m.q
    ∃ t g', exec (.queueEntryArrival wg n) s = .next t ∧ t.getWg wg = some g' ∧ t.mem = s.mem ∧
      ((d.window.head?).map (·.1) = some m.seq → (queueOf g m.q).length < 64 → queueOf g' m.q = queueOf g m.q ++ [m.data] ∧
        ∀ k, k ≠ m.q → queueOf g' k = queueOf g k) ∧
      ((d.window.head?).map (·.1) ≠ some m.seq ∨ 64 ≤ (queueOf g m.q).length → d.failed < 15 → d.id < 2 ^ 32 →
        g'.queues = g.queues ∧ g'.flight = g.flight.filter fun f => !(f == m))) ∧
  (∀ s wg sender q g e tm, s.getWg wg = some g → (senderOf g sender q).backoff = some tm → tm.toNat ≤ s.clock.toNat →
    ((senderOf g sender q).window.find? fun e => e.2.1 && !(g.flight.any fun f => f.sender == sender && f.q == q && f.seq == e.1)) = some e →
    ∃ t g', exec (.queueReplay wg sender q) s = .next t ∧ t.getWg wg = some g' ∧ g'.flight = g.flight ++ [⟨sender, q, e.1, e.2.2⟩] ∧
      g'.queues = g.queues ∧ (senderOf g' sender q).backoff = none ∧ t.warps = s.warps ∧ t.mem = s.mem) ∧
  ∀ s k tag w g o sp q addrs got p, s.getWarp k = some w → w.reads.find? (fun y => y.tag == tag) = some o → o.res = .ldq sp q addrs got →
    s.getWg w.wg = some g → o.faulted = 0 → olderReads w tag = [] → (∀ l, l < 32 → o.lanes.getLsbD l = true → ∃ v, (l, v) ∈ got) →
    (senderOf g k q).pushes.find? (fun p => p.2.2.2 == tag) = some p → ((senderOf g k q).window.any fun e => decide (e.1 < p.1) && !e.2.1) = false →
    (∀ y, y ∈ w.outs → y.tag ≠ tag) →
    ∃ t w' g', exec (.ldqEntryPush k tag) s = .next t ∧ t.getWarp k = some w' ∧ t.getWg w.wg = some g' ∧ NoRegister w w' ∧
      w'.reads = w.reads.filter (fun y => y.tag != tag) ∧
      g'.flight = g.flight ++ [⟨k, q, p.1, (List.range 32).map fun l => ((got.find? fun y => y.1 == l).map (·.2)).getD 0⟩] ∧ t.mem = s.mem

/-! ## The matrix engine (R237 to R265) -/

/-- An operation as it enters the queue of an engine. -/
abbrev Entered (x : Issue) (w : Warp) (file : BitVec 3) (k : MxKind) (o : MxOp) : Prop :=
  o.w = w.id ∧ o.wg = w.wg ∧ o.tag = x.tag ∧ o.pc = x.pc ∧ o.d = x.r.d ∧ o.file = file ∧ o.lanes = x.e ∧ o.kind = k ∧ o.phase = .queued ∧
    o.chain = []

/-- R247, R248, R260 to R265: WLD, WSWAP and MMS enter the engine queue of their core when it has room and their checks pass; MMS gives its
sequence number to each participant and keeps a report. MQRY's pair is outstanding; MFOLD gives the fold state at issue; MFOLD.wr sets
CFG of the engine it names, and traps when no tier would be left; MRST is counted in c.mx and begins at the engine it names. -/
def Obligations.MatrixInstructions : Prop :=
  (∀ h f a b off s w x s0, Issues (.wld h f a b off) s w x s0 → queueRoom x s = true →
    let va := rdP w a x.low + (off.getD 0).signExtend 64
    let sc := (rdV w b x.low).toNat
    va.toNat % 1024 = 0 → canonical va = true →
    sc = absent ∨ (sc % 4 = 0 ∧ tileFails s x sc 128 = none) → wortIssueHit s w va.toNat (tileBytes f) = false →
    ∃ t w' o, exec (.wld h f a b off) s = .next t ∧ t.getWarp w.id = some w' ∧
      (engineOf t (s.warpCore w)).queue = (engineOf s (s.warpCore w)).queue ++ [o] ∧ Entered x w 0 (.wld va f (BitVec.ofNat 32 sc)) o ∧
      CoresKeptBut s0 t (s.warpCore w) ∧ w'.ctrs = (countUp (countUp w .mxi x.tag) .mx x.tag).ctrs ∧ w'.outs = w.outs ∧
      WarpGoesOn x s0 t w w') ∧
  (∀ h s w x s0, Issues (.wswap h) s w x s0 → queueRoom x s = true →
    ∃ t w' o, exec (.wswap h) s = .next t ∧ t.getWarp w.id = some w' ∧
      (engineOf t (s.warpCore w)).queue = (engineOf s (s.warpCore w)).queue ++ [o] ∧ Entered x w 0 .wswap o ∧
      CoresKeptBut s0 t (s.warpCore w) ∧ w'.ctrs = w.ctrs ∧ w'.outs = w.outs ∧ WarpGoesOn x s0 t w w') ∧
  (∀ h d m s w x s0 bs s1 g w1, Issues (.mms h d m) s w x s0 → mmsReady m x s = true →
    let va := rdP w m.base x.low + (m.off.getD 0).signExtend 64
    let b := mmsBlk bs
    va.toNat % 64 = 0 → canonical va = true → blockGot (begin_ x s0) x va 64 = (.done bs, s1) → (begin_ x s0).getWg w.wg = some g →
    s1.getWarp w.id = some w1 → s1.warpCore w = s.warpCore w →
    let s2 := if b.dkind = 0 then s1.modGang g.gang fun y => { y with posted := true } else s1
    mmsParam s2 g b = 0 → (b.dkind = 0 → (copyOf s2 g (blkRegion b)).map (·.2) = some .opened) → (b.sOff = absent ∨ b.sOff % 4 = 0) →
    (∀ p, p ∈ mmsTiles b → tileFails s2 x p.1 p.2 = none) →
    let seq := if w.mxSeq + 1 = 0 then 1 else w.mxSeq + 1
    ∃ t w' o, exec (.mms h d m) s = .next t ∧ t.getWarp w.id = some w' ∧
      (engineOf t (s.warpCore w)).queue = (engineOf s1 (s.warpCore w)).queue ++ [o] ∧ Entered x w 1 (.mms bs seq) o ∧
      LanesWritten .v d x.e (fun _ => BitVec.toNat seq) w1 w' ∧ w'.mxSeq = seq ∧ (∃ r, r ∈ w'.reports ∧ r.seq = seq ∧ r.tag = x.tag ∧ r.lanes = x.e ∧
        r.cons = false ∧ r.done = false) ∧ w'.ctrs = (countUp (countUp w1 .mxi x.tag) .mx x.tag).ctrs ∧ SpecialsKept w1 w' ∧ t.mem = s1.mem) ∧
  (∀ h d a, ReplyIssues (.mqry h d a) d fun x => .mqry ((lanesOf x.e).map fun l => (l, rdV x.w a l))) ∧
  (∀ h d s w x s0, Issues (.mfold h d) s w x s0 →
    ∃ t w', exec (.mfold h d) s = .next t ∧ t.getWarp w.id = some w' ∧
      LanesWritten .v d x.e (fun _ => (mfoldWord (engineOf s (s.warpCore w))).toNat) w w' ∧ Advanced x w w' ∧ WarpKept w w' ∧
      Kept s0 t w.id) ∧
  (∀ h a b s w x s0, Issues (.mfoldWr h a b) s w x s0 → (rdV w b x.low).setWidth 5 ≠ 0#5 →
    ∃ t w', exec (.mfoldWr h a b) s = .next t ∧ t.getWarp w.id = some w' ∧
      engineOf t (targetOf s x a) = { engineOf s (targetOf s x a) with cfg := (rdV w b x.low).setWidth 5 } ∧
      CoresKeptBut s0 t (targetOf s x a) ∧ w'.outs = w.outs ∧ w'.ctrs = w.ctrs ∧ WarpGoesOn x s0 t w w') ∧
  (∀ h a b s w x s0, Issues (.mfoldWr h a b) s w x s0 → (rdV w b x.low).setWidth 5 = 0#5 → w.htvec ≠ 0 → w.inTrap = false →
    ∃ t w', exec (.mfoldWr h a b) s = .next t ∧ t.getWarp w.id = some w' ∧ TrapTaken w w' 0x21 11 x.e x.pc x.after ∧
      (∀ c, t.getCore c = s.getCore c) ∧ t.mem = s0.mem) ∧
  ∀ h a s w x s0, Issues (.mrst h a) s w x s0 →
    ∃ t w', exec (.mrst h a) s = .next t ∧ t.getWarp w.id = some w' ∧
      engineOf t (targetOf s x a) = { engineOf s (targetOf s x a) with mrst := (engineOf s (targetOf s x a)).mrst ++ [(w.id, x.tag)] } ∧
      CoresKeptBut s0 t (targetOf s x a) ∧ w'.ctrs = (countUp w .mx x.tag).ctrs ∧ w'.outs = w.outs ∧ WarpGoesOn x s0 t w w'

/-- R237, R241, R246, R248, R251, R256, R258, R260 to R262, R264: the events of the engine. The next MMS starts with the active plane and
the chain of live tiers; WLD fills the shadow plane of its workgroup and is counted done; WSWAP exchanges the planes; an operation
whose operands have been read is counted in c.mxi, and while units are left to read nothing is counted; one whose contributions have all been applied is done, and one with an FP32 tile
has added its sums to it; a failed tier, not the last one, is in no chain any more; a reset whose self-test leaves a tier leaves no operation and invalid planes. -/
def Obligations.MatrixEngineEvents : Prop :=
  (∀ s c o g, liveTiers (engineOf s c) ≠ 0 → ((engineOf s c).queue.find? fun o => o.phase != .queued && o.chain.isEmpty) = none →
    nextOp (engineOf s c) = some o → isMms o.kind = true → storesBehind s o.w o.tag = true → s.getWg o.wg = some g → g.active.valid = true →
    (pathOf ((wfmtOf (opBlk o).afmt).getD .f16) g.active.fmt).isSome = true → arrDown s c = false →
    ∃ t, exec (.mxOperationStart c) s = .next t ∧
      (engineOf t c).queue = updAt (fun y => y.w == o.w && y.tag == o.tag)
        (fun y => { y with
          phase := .started
          plane := some g.active
          chain := chainOf (engineOf s c) }) (engineOf s c).queue ∧ CoresKeptBut s t c ∧ t.warps = s.warps ∧ t.wgs = s.wgs ∧ t.mem = s.mem) ∧
  (∀ s c o va f sc w tile s1 scs g1, nextOp (engineOf s c) = some o → o.kind = .wld va f sc → liveTiers (engineOf s c) ≠ 0 →
    storesBehind s o.w o.tag = true → s.getWarp o.w = some w → arrDown s c = false → o.early = [] →
    tileLines (s.modWg o.wg fun g => { g with shadow := { g.shadow with valid := false } }) w (s.warpAsid w) va (tileBytes f / 128) =
      (.done tile, s1) →
    (if sc.toNat = absent then some (List.replicate 128 127, s1) else opScratch s1 o sc.toNat 128) = some scs → scs.1.contains 0xFF = false →
    scs.2.getWg o.wg = some g1 →
    ∃ t, exec (.wldExecute ⟨c, 0⟩) s = .next t ∧ t.getWg o.wg = some { g1 with shadow := ⟨true, f, tile, scs.1⟩ } ∧
      (engineOf t c).queue = ((engineOf scs.2 c).queue.filter fun y => !(y.w == o.w && y.tag == o.tag)) ∧ t.mem = scs.2.mem) ∧
  (∀ s c o g, nextOp (engineOf s c) = some o → o.kind = .wswap → liveTiers (engineOf s c) ≠ 0 → arrDown s c = false → s.getWg o.wg = some g →
    ∃ t, exec (.wswapExecute c) s = .next t ∧
      t.getWg o.wg = some { g with
        active := g.shadow
        shadow := g.active } ∧
      (engineOf t c).queue = ((engineOf s c).queue.filter fun y => !(y.w == o.w && y.tag == o.tag)) ∧ t.warps = s.warps ∧ t.mem = s.mem) ∧
  (∀ s c o r q w, ((engineOf s c).queue.find? fun o => o.phase == .started) = some o →
    let b := opBlk o
    opReads s o ((List.range b.rows).map fun i => (b.aOff + i * b.stride, blkRow b)) = some r →
    opReads r.2 o (if b.sOff = absent then [] else (List.range b.rows).map fun i => (b.sOff + 4 * i, 4)) = some q →
    badScale b (o.plane.getD {}) q.1 = false → q.2.getWarp o.w = some w → arrDown s c = false → o.early = [] →
    ∃ t, exec (.mxOperandsConsumed ⟨c, 0⟩) s = .next t ∧
      t.getWarp o.w = some (countDone (modReport w o.tag fun y => { y with cons := true }) .mxi o.tag) ∧
      (engineOf t c).queue = updAt (fun y => y.w == o.w && y.tag == o.tag)
        (fun y => { y with
          phase := .consumed
          rows := r.1
          scales := q.1
          early := [] }) (engineOf q.2 c).queue ∧ t.mem = q.2.mem) ∧
  (∀ s c left, left ≠ 0 → ∃ t, exec (.mxOperandsConsumed ⟨c, left⟩) s = .next t ∧ t.warps = s.warps ∧ t.mem = s.mem) ∧
  (∀ s c d w, ((engineOf s c).draining.find? fun d => !contribPending s d.1.w .mx d.1.tag) = some d → s.getWarp d.1.w = some w →
    ∃ t, exec (.mxDone c) s = .next t ∧
      t.getWarp d.1.w = some (countDone { modReport w d.1.tag (fun r => { r with done := true }) with fold := d.2 } .mx d.1.tag) ∧
      (engineOf t c).draining = (engineOf s c).draining.filter (· != d) ∧ t.mem = s.mem) ∧
  (∀ s c o g, ((engineOf s c).draining.find? fun d => !contribPending s d.1.w .mx d.1.tag) = none → arrDown s c = false →
    ((engineOf s c).queue.find? fun o => o.phase == .consumed) = some o → o.chain ≠ [] → tileBusy s o = false → s.getWg o.wg = some g →
    let k := mmsWork s o
    let b := k.b
    b.dkind = 1 → b.dest + blkDstSpan b ≤ g.scratch → g.scratch ≤ 0x80000 → 128 ≤ b.dstride → g.scratch ≤ 0x4000 * g.banks.length →
    g.banks.Nodup →
    ∃ t, exec (.mxDone c) s = .next t ∧ (∀ y, y ∈ (engineOf t c).queue → ¬(y.w = o.w ∧ y.tag = o.tag)) ∧ t.mem = s.mem ∧
      ∀ i j, i < b.rows → j < 32 → bankRead t g.id (b.dest + i * b.dstride + 4 * j) 4 =
        leBytes 4 (faddBits .f32 .rne false (leNat (bankRead s g.id (b.dest + i * b.dstride + 4 * j) 4))
          (roundElem k.order ((k.rows[i]?).getD []) (columnOf k.cols j))).1) ∧
  (∀ s c tier, tier < 5 → (engineOf s c).fail ||| (1#5 <<< tier) ≠ 0b11111 →
    ∃ t, exec (.tierFailure c tier) s = .next t ∧ (engineOf t c).fail = (engineOf s c).fail ||| (1#5 <<< tier) ∧
      (∀ o, o ∈ (engineOf t c).queue → tier ∉ o.chain) ∧ CoresKeptBut s t c ∧ t.warps = s.warps ∧ t.mem = s.mem) ∧
  ∀ s c m rest, (engineOf s c).mrst = m :: rest →
    ∃ t, exec (.mrstComplete c) s = .next t ∧ (tiersSpent (engineOf (selfTest (resetEngine s c) c) c) = false →
      (engineOf t c).queue = [] ∧ (engineOf t c).mrst = rest ∧ t.mem = s.mem ∧
      ∀ o g, o ∈ (engineOf s c).queue → s.getWg o.wg = some g →
        ∃ g', t.getWg o.wg = some g' ∧ g'.active.valid = false ∧ g'.shadow.valid = false)

/-! ## Accumulators (R346 to R369) -/

/-- RACK in any form, at a region whose core copy is open, with output addresses that pass: the racking is under way with what its
operands say and counted in c.acc; the output addresses of RACK.X are not looked at. -/
def RackIssues (i : Instr) (mode : RackMode) (force : Bool) (id : Nat) (a b c : Reg) : Prop :=
  ∀ s w x s0 r rg, Issues i s w x s0 → copyHere s x id = some (r, .opened) → s.warpRegion w = some rg →
    (mode = .close ∨ rackBad r (rdP w a x.low) (rdP w b x.low) = none) →
    ∃ t w' k, exec i s = .next t ∧ t.getWarp w.id = some w' ∧ k ∈ t.racks ∧ k.w = w.id ∧ k.wort = id ∧ k.region = rg.handle ∧ k.mode = mode ∧
      k.force = force ∧ k.out = rdP w a x.low ∧ k.hist = rdP w b x.low ∧ k.shift = (rdV w c x.low).setWidth 8 ∧
      k.timeout = (rdV w c x.low).toNat / 256 ∧ k.lanes = x.e ∧ k.pc = x.pc ∧ k.tag = x.tag ∧ k.phase = .waiting ∧
      w'.ctrs = (countUp w .acc x.tag).ctrs ∧ w'.outs = w.outs ∧ NoRegister w w' ∧ SpecialsKept w w' ∧ Advanced x w w' ∧
      OthersKept s0 t w.id ∧ MemoryKept s0 t

/-- AOPEN in either form once its descriptor has been read and passes: the warp is held, and the region's entry is on its way to open with
what the descriptor says. -/
def OpenIssues (i : Instr) (id : Nat) (zero : Bool) (a : Reg) : Prop :=
  ∀ s w x s0 bs s1 d r g s2 w1, Issues i s w x s0 → aopenReady a x s = true → (rdP w a x.low).toNat % 32 = 0 → canonical (rdP w a x.low) = true →
    blockGot (begin_ x s0) x (rdP w a x.low) 32 = (.done bs, s1) → wortDesc id bs = some d → s1.warpRegion w = some r → s1.warpWg w = some g →
    (∀ y, wortOf r id = some y → taken y = false) → (∀ y, y ∈ r.worts → y.id ≠ id → taken y = true → wortsMeet d y = false) →
    judgePages s1 g.core r.asid.toNat (!r.service) ((wortSpans d).flatMap fun p => pagesOf p.1 p.2) = (.ok, s2) → s2.getWarp w.id = some w1 →
    ∃ t w' e, exec i s = .next t ∧ t.getWarp w.id = some w' ∧ w'.hold = some (.blocking x.tag) ∧ NoRegister w1 w' ∧ SpecialsKept w1 w' ∧
      w'.lanes = w1.lanes ∧ w'.outs = w1.outs ∧ w'.ctrs = w1.ctrs ∧ t.regions = (putWort s2 r.ctx e).regions ∧ e.opening = some (w.id, zero) ∧
      e.id = id ∧ e.st = .closed ∧ e.base = d.base ∧ e.lines = d.lines ∧ e.scale = d.scale ∧ e.fmt = d.fmt ∧ e.scope = d.scope ∧
      e.shadow = d.shadow ∧ e.expect = d.expect ∧ t.mem = s2.mem

/-- R355, R362, R364 to R367, R369: AOPEN, AADD, ACNT, RACK and AQRY. AADD posts one contribution for each line that its participants
name: each element is the sum of the values of the lanes that name it, rounded to the grid; ACNT posts one pitch count for each
participant; both are counted in c.acc, and nothing in memory has changed yet. -/
def Obligations.AccumulatorInstructions : Prop :=
  (∀ h id a, OpenIssues (.aopen h id a) id.toNat false a) ∧
  (∀ h id a, OpenIssues (.aopenZ h id a) id.toNat true a) ∧
  (∀ h cnt id a b s w x s0 r, Issues (.aadd h cnt id a b) s w x s0 → copyHere s x id.toNat = some (r, .opened) →
    (∀ l, l < 32 → x.e.getLsbD l = true → (rdV w a l).toNat < 16 * r.lines) →
    ∃ t w' cs, exec (.aadd h cnt id a b) s = .next t ∧ t.getWarp w.id = some w' ∧ t.contribs = s0.contribs ++ cs ∧
      cs.map (fun c => c.add.line) = ((lanesOf x.e).map fun l => (rdV w a l).toNat / 16).eraseDups ∧
      (∀ c, c ∈ cs → c.owners = [(w.id, Ctr.acc, x.tag)] ∧ c.add.ctx = s.warpCtx w ∧ c.add.region = id.toNat ∧ c.add.pitch = cnt.toNat ∧
        c.add.g = (List.range 16).map fun e => ((lanesOf x.e).filter fun l => (rdV w a l).toNat == 16 * c.add.line + e).foldl
          (fun acc l => acc + BitVec.ofInt 64 (roundToGrid r.scale.toInt (Fmt.read .f32 (srcB x .v b l))).1) 0) ∧
      w'.ctrs = (countUp w .acc x.tag).ctrs ∧ w'.outs = w.outs ∧ WarpGoesOn x s0 t w w') ∧
  (∀ h id a b s w x s0 r, Issues (.acnt h id a b) s w x s0 → copyHere s x id.toNat = some (r, .opened) →
    (∀ l, l < 32 → x.e.getLsbD l = true → (rdV w a l).toNat < r.lines) →
    ∃ t w', exec (.acnt h id a b) s = .next t ∧ t.getWarp w.id = some w' ∧
      t.contribs = s0.contribs ++ (lanesOf x.e).map (fun l =>
        { add := { ctx := s.warpCtx w, region := id.toNat, line := (rdV w a l).toNat, g := List.replicate 16 0, clip := false,
                   pitch := srcB x .v b l }
          owners := [(w.id, Ctr.acc, x.tag)] }) ∧
      w'.ctrs = (countUp w .acc x.tag).ctrs ∧ w'.outs = w.outs ∧ WarpGoesOn x s0 t w w') ∧
  (∀ h force id a b c, RackIssues (.rack h force id a b c) .once force id.toNat a b c) ∧
  (∀ h force id a b c, RackIssues (.rackW h force id a b c) .wait force id.toNat a b c) ∧
  (∀ h id a b c, RackIssues (.rackX h id a b c) .close false id.toNat a b c) ∧
  (∀ h d a, ReplyIssues (.aqryReg h d a) d fun x => .aqryReg ((lanesOf x.e).map fun l => (l, (rdV x.w a l).toNat % 64))) ∧
  (∀ h d a b, ReplyIssues (.aqryLine h d a b) d fun x =>
    .aqryLine ((lanesOf x.e).map fun l => (l, (rdV x.w a l).toNat % 64, (rdV x.w b l).toNat)))

/-- R348 to R352, R362 to R365: the events of the accumulators. A contribution is added to the 16 elements of its line, each modulo 2^64,
and to its header; a wait that times out ends its RACK; a granted seal leaves the region racking; a RACK.X closes its region; the
blocking instruction that opened a region, of whose lines no holder is left, has opened it, and the warp goes on. -/
def Obligations.AccumulatorEvents : Prop :=
  (∀ s n c r y pa, s.contribs[n]? = some c → s.ctxRegion c.add.ctx = some r → wortOf r c.add.region = some y → y.st ≠ .closed →
    wortLinePa s r y c.add.line = some pa → sealedPa s pa = false → c.add.g.length = 16 →
    ∃ t, exec (.mashApply n) s = .next t ∧ t.contribs = s.contribs.eraseIdx n ∧
      (∀ e, e < 16 → t.loadNat (pa + 8 * e) 8 = (s.loadNat (pa + 8 * e) 8 + ((c.add.g[e]?).getD 0).toNat) % 2 ^ 64) ∧
      (∀ a, a < pa ∨ pa + 128 ≤ a → Memory.read t.mem a = Memory.read s.mem a) ∧
      ((t.ctxRegion c.add.ctx).bind fun q => wortOf q c.add.region) = some (raisePitch y c.add.line c.add.pitch c.add.clip)) ∧
  (∀ s id k r y tm, s.racks.find? (fun k => k.id == id) = some k → rackEntry s k = some (r, y) → k.deadline = some tm → k.phase = .waiting →
    y.expect ≠ 0 → y.done ≠ y.lines → (y.passed = true ∨ tm.toNat ≤ s.clock.toNat) →
    ∃ t, exec (.rackWaitTimeout id) s = .next t ∧ (∀ j, j ∈ t.racks → j.id ≠ id) ∧ t.mem = s.mem ∧
      ∀ w, s.getWarp k.w = some w → TakesDeferred w k.lanes → ∃ w', t.getWarp k.w = some w' ∧
        DeferredTaken w w' 0x23 (offCount y) k.lanes k.pc ∧ NoRegister w w') ∧
  (∀ s id k r y, s.racks.find? (fun k => k.id == id) = some k → rackEntry s k = some (r, y) → r.status = 0 → sealReady s k y = true →
    ∃ t k', exec (.rackSeal id) s = .next t ∧ t.racks.find? (fun k => k.id == id) = some k' ∧ k' = { k with phase := .sealed } ∧ t.mem = s.mem ∧
      (rackEntry t k').map (·.2.st) = some .racking ∧
      ∀ j, j ∈ t.racks → j.region = k.region → j.wort = k.wort → j.id ≠ id → j.phase ≠ .waiting) ∧
  (∀ s id k r y, s.racks.find? (fun k => k.id == id) = some k → rackEntry s k = some (r, y) → r.status = 0 → k.mode = .close → k.phase = .sealed →
    k.asks = [] → k.refused = false → (s.contribs.any fun c => c.add.ctx == r.ctx && c.add.region == y.id) = false →
    vaOk s r.asid.toNat .read y.base.toNat (128 * y.lines) = true → vaOk s r.asid.toNat .write y.shadow.toNat (8 * y.lines) = true →
    queueFree s r.asid.toNat = true →
    (∀ p, p ∈ shadowPlaces s r.asid.toNat y → engineReady s r.asid.toNat (p.1 * 128) p.2 = true) →
    ∃ t, exec (.rackComplete id) s = .next t ∧ (∀ j, j ∈ t.racks → j.id ≠ id) ∧ (rackEntry t k).map (·.2.st) = some .closed) ∧
  (∀ s k w tag, s.getWarp k = some w → w.hold = some (.blocking tag) → (∀ y, y ∈ s.gangs → ∀ p, y.svTarget = some p → p.2.2 ≠ k) →
    fwQuiet s (s.warpAsid w) = true →
    (∀ p, p ∈ openings s k → openReady s p.1.asid.toNat p.2 = true) →
    ∃ t w', exec (.blockingOpComplete k) s = .next t ∧ t.getWarp k = some w' ∧ w'.hold = none ∧ NoRegister w w' ∧
      ∀ r y z, r ∈ s.regions → r.status = 0 → y ∈ r.worts → y.opening = some (k, z) → ∃ r', r' ∈ t.regions ∧ r'.handle = r.handle ∧
        ∀ v, v ∈ r'.worts → v.id = y.id → v.st = .opened ∧ v.opening = none) ∧
  (∀ s k w tag ids, s.getWarp k = some w → w.hold = some (.pfence tag ids) → pfenceDone s w tag ids = true →
    exec (.blockingOpComplete k) s = .next (s.modWarp k fun y => { y with hold := none }))

/-! ## System instructions (R407, R434 to R439) -/

/-- R407: LAUNCH on an aligned, canonical address; at user level the context and ASID operand is 0. One reply is outstanding. -/
def Clause.LaunchIsOutstanding : Prop :=
  ∀ h d a b s w x s0, Issues (.launch h d a b) s w x s0 → (rdP w a x.low).toNat % 256 = 0 → canonical (rdP w a x.low) = true →
    s.warpUser w = false ∨ rdV w b x.low = 0 →
    ∃ t w', exec (.launch h d a b) s = .next t ∧ t.getWarp w.id = some w' ∧
      w'.outs = w.outs ++ [outOf x s .p d x.e (.launch (rdP w a x.low) (rdV w b x.low)) none] ∧ w'.ctrs = w.ctrs ∧
      w'.stores = w.stores ∧ w'.reads = w.reads ∧ Advanced x w w' ∧ WarpKeptOut w w' ∧ ParksBy x w' ∧ Kept s0 t w.id

/-- R435: CTXSV of another gang. A running gang is being pre-empted by a save, whose record goes to the address given; a saved gang is held,
its record, once it is here, copied there with STATUS 1; a handle and index that name no gang are answered in STATUS. The warp waits in each case. -/
def Clause.ContextSaves : Prop :=
  (∀ h a b c s w x s0 y r, Issues (.ctxsv h a b c) s w x s0 → (rdP w c x.low).toNat % 4096 = 0 →
    gangNamed s (rdP w a x.low).toNat (rdV w b x.low).toNat = some y → s.getGang y.id = some y → y.st = .running →
    (s.warpGang w).map (·.id) ≠ some y.id → s.getRegion (rdP w a x.low).toNat = some r →
    ∃ t w' y', exec (.ctxsv h a b c) s = .next t ∧ t.getWarp w.id = some w' ∧ BlockedBy x w w' ∧ t.getGang y.id = some y' ∧
      y' = { y with
        st := .preempting
        action := .save
        choice := .save
        actionAt := s.clock
        preempts := min (y.preempts + 1) 0xFFFF
        svTarget := some (s.warpAsid w, rdP w c x.low, w.id) } ∧ MemoryKept s0 t) ∧
  (∀ h a b c s w x s0 y r k, Issues (.ctxsv h a b c) s w x s0 → (rdP w c x.low).toNat % 4096 = 0 →
    gangNamed s (rdP w a x.low).toNat (rdV w b x.low).toNat = some y → s.getGang y.id = some y → y.st = .saved → y.slot = some k →
    (s.warpGang w).map (·.id) ≠ some y.id → s.getRegion (rdP w a x.low).toNat = some r →
    saveHere s (rdP w a x.low).toNat (rdV w b x.low).toNat = true →
    ∃ t w' y', exec (.ctxsv h a b c) s = .next t ∧ t.getWarp w.id = some w' ∧ BlockedBy x w w' ∧ t.getGang y.id = some y' ∧
      y'.st = .held ∧ y'.slot = none ∧
      MemoryOf (putStatus (writeVa (vaDone s0 (gangOwner y.id)) (s.warpAsid w) (rdP w c x.low).toNat
        (vaBytes s0 (gangOwner y.id) r.asid.toNat (slotVa r k) (recSize r.eff))) (s.warpAsid w) (rdP w c x.low) 1) t) ∧
  ∀ h a b c s w x s0, Issues (.ctxsv h a b c) s w x s0 → (rdP w c x.low).toNat % 4096 = 0 →
    gangNamed s (rdP w a x.low).toNat (rdV w b x.low).toNat = none →
    ∃ t w', exec (.ctxsv h a b c) s = .next t ∧ t.getWarp w.id = some w' ∧ BlockedBy x w w' ∧
      MemoryOf (putStatus s0 (s.warpAsid w) (rdP w c x.low) (if haltedUnfired s (rdP w a x.low).toNat (rdV w b x.low).toNat then 5 else 4)) t

/-- R436: CTXLD of a record that is here. A record that meets the conditions is copied into a free save slot with STATUS 0 there, its gang is saved, and the record's
STATUS is 2; any other record has STATUS 3 and the gangs are as they were. -/
def Clause.ContextLoads : Prop :=
  (∀ h a s w x s0 r y k, Issues (.ctxld h a) s w x s0 → (rdP w a x.low).toNat % 4096 = 0 →
    loadHere s (svcOwner w.id) (s.warpAsid w) (rdP w a x.low) = true →
    let s1 := vaDone s0 (svcOwner w.id)
    let rd : Rd := fun off n => leNat (vaBytes s (svcOwner w.id) (s.warpAsid w) ((rdP w a x.low).toNat + off) n)
    s.getRegion (rd 8 8) = some r → recordOk s rd r = true → gangNamed s r.handle (rd 0x10 4) = some y → s.getGang y.id = some y →
    freeSlot s r = some k →
    ∃ t w' y', exec (.ctxld h a) s = .next t ∧ t.getWarp w.id = some w' ∧ BlockedBy x w w' ∧ t.getGang y.id = some y' ∧
      y'.st = .saved ∧ y'.slot = some k ∧
      MemoryOf (writeVa (putStatus s1 (s.warpAsid w) (rdP w a x.low) 2) r.asid.toNat (slotVa r k)
        ((vaBytes s (svcOwner w.id) (s.warpAsid w) (rdP w a x.low).toNat (recSize r.eff)).set 7 0)) t) ∧
  ∀ h a s w x s0, Issues (.ctxld h a) s w x s0 → (rdP w a x.low).toNat % 4096 = 0 →
    loadHere s (svcOwner w.id) (s.warpAsid w) (rdP w a x.low) = true →
    let s1 := vaDone s0 (svcOwner w.id)
    let rd : Rd := fun off n => leNat (vaBytes s (svcOwner w.id) (s.warpAsid w) ((rdP w a x.low).toNat + off) n)
    (∀ r, s.getRegion (rd 8 8) = some r → recordOk s rd r = false) →
    ∃ t w', exec (.ctxld h a) s = .next t ∧ t.getWarp w.id = some w' ∧ BlockedBy x w w' ∧
      MemoryOf (putStatus s1 (s.warpAsid w) (rdP w a x.low) 3) t ∧
      ∀ g, (t.getGang g).map (fun y => { y with ret := 0 }) = (s.getGang g).map fun y => { y with ret := 0 }

/-- R437: HARV over a range of at most 512 pages. The pages are taken one after another, and nothing else in memory changes. One page of
4 KiB in this package: bit 5 of its leaf entry is set when its frame had been written, and its write record is clear. -/
def Clause.HarvestsDirtyBits : Prop :=
  (∀ pull h a b c s w x s0, let i := if pull then Instr.harvR h a b c else .harv h a b c
    Issues i s w x s0 → (rdP w a x.low).toNat % 4096 = 0 → (rdV w b x.low).toNat ≤ 512 →
    rangeCanonical (rdP w a x.low) (4096 * (rdV w b x.low).toNat) = true →
    ∃ t w', exec i s = .next t ∧ t.getWarp w.id = some w' ∧ BlockedBy x w w' ∧
      MemoryOf ((List.range (rdV w b x.low).toNat).foldl (fun acc k => harvPage acc (s.warpCore w).die ((rdV w c x.low).toNat % 2 ^ 16) pull
        (rdP w a x.low).toNat ((rdP w a x.low).toNat + 4096 * k)) (begin_ x s0)) t) ∧
  ∀ s die asid va pte addr, walkTables (tableMem s) (s.getDie die).ptbase.toNat asid va = .leaf pte addr false → bitsAt pte 48 12 = s.dev →
    bitsAt pte 12 36 * 4096 < hbmEnd →
    let pa := bitsAt pte 12 36 * 4096
    let t := harvPage s die asid false va va
    (sget false (s.getDie (pa / 2 ^ 36 % 16)).written (pa / 4096) = true → t.loadNat addr 8 = setBitsAt pte 5 1 1 % 2 ^ 64 ∧
      (∀ k, k < addr ∨ addr + 8 ≤ k → Memory.read t.mem k = Memory.read s.mem k) ∧
      ((∀ k, k < 8 → (addr + k) / 4096 ≠ pa / 4096) → sget false (t.getDie (pa / 2 ^ 36 % 16)).written (pa / 4096) = false)) ∧
    (sget false (s.getDie (pa / 2 ^ 36 % 16)).written (pa / 4096) = false → MemoryKept s t)

/-- R438: TLBI.pg, TLBI.asid and TLBI.all once every named line can be written back: no die's TLB holds an entry for a named page, no kiln
a named sector and no die a named lease copy. -/
def Clause.InvalidatesTranslations : Prop :=
  let gone (k : Named) (s t : State) : Prop :=
    (∀ d, d ∈ t.dies → ∀ e, e ∈ d.tlb → isNamed k e.asid (if e.big then e.page / 512 * 512 else e.page) (if e.big then 512 else 1) = false) ∧
    (∀ c, c ∈ s.cores.map (·.id) → ∀ y, y ∈ (t.getCore c).kiln → namedKiln k y = false) ∧
    ∀ y, y ∈ t.leases → isNamed k y.asid (y.line / 32) 1 = false
  (∀ h a b c s w x s0, Issues (.tlbiPg h a b c) s w x s0 → tlbiReady s (tlbiRange x a b c) = true → (rdP w a x.low).toNat % 4096 = 0 →
    (rdV w b x.low).toNat ≤ 512 → rangeCanonical (rdP w a x.low) (4096 * (rdV w b x.low).toNat) = true →
    ∃ t w', exec (.tlbiPg h a b c) s = .next t ∧ t.getWarp w.id = some w' ∧ BlockedBy x w w' ∧
      gone (.range ((rdV w c x.low).toNat % 2 ^ 16) ((rdP w a x.low).toNat / 4096) (rdV w b x.low).toNat) s t) ∧
  (∀ h c s w x s0, Issues (.tlbiAsid h c) s w x s0 → tlbiReady s (.asid ((rdV w c x.low).toNat % 2 ^ 16)) = true →
    ∃ t w', exec (.tlbiAsid h c) s = .next t ∧ t.getWarp w.id = some w' ∧ BlockedBy x w w' ∧ gone (.asid ((rdV w c x.low).toNat % 2 ^ 16)) s t) ∧
  ∀ h s w x s0, Issues (.tlbiAll h) s w x s0 → tlbiReady s .all = true →
    ∃ t w', exec (.tlbiAll h) s = .next t ∧ t.getWarp w.id = some w' ∧ BlockedBy x w w' ∧ gone .all s t

/-- R439: HALT of a live region: it is halted, none of its workgroups is resident, every gang of it that has not retired is halted; its
issuing warp waits if it is still there. A handle that names no live region changes nothing. -/
def Clause.HaltsRegions : Prop :=
  (∀ h a s w x s0 r, Issues (.halt h a) s w x s0 → s.getRegion (rdP w a x.low).toNat = some r → r.status = 0 →
    ∃ t r', exec (.halt h a) s = .next t ∧ t.getRegion r.handle = some r' ∧ r'.status = 2 ∧ r'.allocs = [] ∧
      (∀ g, g ∈ t.gangs → g.region = r.handle → g.st = .retired ∨ g.st = .halted) ∧
      (∀ y, y ∈ t.wgs → ∀ g, g ∈ s.gangs → g.id = y.gang → g.region ≠ r.handle) ∧
      ∀ w', t.getWarp w.id = some w' → w'.hold = some (.blocking x.tag)) ∧
  ∀ h a s w x s0, Issues (.halt h a) s w x s0 → (∀ r, r ∈ s.regions → r.handle = (rdP w a x.low).toNat → r.status ≠ 0) →
    ∃ t w', exec (.halt h a) s = .next t ∧ t.getWarp w.id = some w' ∧ BlockedBy x w w' ∧ Kept s0 t w.id

/-- R407, R434 to R439: LAUNCH, CTXSV, CTXLD, HARV, TLBI and HALT. -/
def Obligations.SystemInstructions : Prop :=
  Clause.LaunchIsOutstanding ∧ Clause.ContextSaves ∧ Clause.ContextLoads ∧ Clause.HarvestsDirtyBits ∧ Clause.InvalidatesTranslations ∧
    Clause.HaltsRegions

/-! ## The fabric (R462 to R495) -/

/-- What a warp is after an instruction that read a block at issue and then acts outside the warp: w1 is the warp once the block has
been read. -/
abbrev AfterBlock (s1 t : State) (w1 w' : Warp) : Prop :=
  w' = { w1 with
    arms := w'.arms
    ctrs := w'.ctrs
    opbuf := w'.opbuf
    parked := w'.parked
    stopped := w'.stopped } ∧ OthersKeptButArms s1 t w1.id

/-- The operation that a COLL started at a step of its block is (R478, R479, R489). -/
abbrev CollIs (s1 : State) (x : Issue) (w : Warp) (va : DWord) (bs : List Byte) (step : Nat) (c : Coll) : Prop :=
  c.what = 0 ∧ c.w = w.id ∧ c.wg = w.wg ∧ c.tag = x.tag ∧ c.lanes = x.e ∧ c.pc = x.pc ∧ c.block = va ∧ c.asid = BitVec.ofNat 16 (s1.warpAsid w) ∧
    c.cid = BitVec.ofNat 64 (wordAt bs 8 8) ∧ c.freeze = BitVec.ofNat 64 (wordAt bs 0x10 8) ∧ c.peerCtx = wordAt bs 2 2 ∧
    c.steps = (List.range (wordAt bs 0 2)).map (fun k => stepOf (stepBytes bs k)) ∧ c.step = step ∧ c.started = false ∧ c.fin = none ∧
    c.base = baseTick s1 (wordAt bs 0x18 4)

/-- R478, R489: COLL on a block that is here and breaks no rule of R478: the operation is in flight at step 0, STATUS reads running, and
c.col counts it. COLL.resume does so at the step that the freeze record names. -/
def Clause.CollectivesStart : Prop :=
  (∀ h a s w x s0 bs s1 w1, Issues (.coll h a) s w x s0 → blockBad (rdP w a x.low) = false → snapReady x s (rdP w a x.low) 64 collSize = true →
    snapGot x (begin_ x s0) (rdP w a x.low) 64 collSize = (.done bs, s1) → s1.getWarp w.id = some w1 → collOk bs = true →
    ∃ t w' c, exec (.coll h a) s = .next t ∧ t.getWarp w.id = some w' ∧ t.colls = s1.colls ++ [c] ∧ CollIs s1 x w (rdP w a x.low) bs 0 c ∧
      w'.ctrs = (countUp w1 .col x.tag).ctrs ∧ AfterBlock s1 t w1 w' ∧
      MemoryOf (writeVa s1 (s1.warpAsid w) ((rdP w a x.low).toNat + 4) (leBytes 4 0)) t) ∧
  ∀ h a s w x s0 rc bs s1 s2 w2, Issues (.collResume h a) s w x s0 → blockBad (rdP w a x.low) = false →
    snapReady x s (rdP w a x.low) 64 (fun _ => 64) = true →
    (∀ p, frozenBlock x s (rdP w a x.low) = some p → snapReady x s p.2 64 collSize = true) →
    snapGot x (begin_ x s0) (rdP w a x.low) 64 (fun _ => 64) = (.done rc, s1) →
    let b := BitVec.ofNat 64 (wordAt rc 0 8)
    blockBad b = false → snapGot x s1 b 64 collSize = (.done bs, s2) → s2.getWarp w.id = some w2 → collOk bs = true →
    wordAt rc 8 8 = wordAt bs 8 8 → wordAt rc 0x10 2 < wordAt bs 0 2 →
    ∃ t w' c, exec (.collResume h a) s = .next t ∧ t.getWarp w.id = some w' ∧ t.colls = s2.colls ++ [c] ∧
      CollIs s2 x w b bs (wordAt rc 0x10 2) c ∧ w'.ctrs = (countUp w2 .col x.tag).ctrs ∧ AfterBlock s2 t w2 w' ∧
      MemoryOf (writeVa s2 (s2.warpAsid w) (b.toNat + 4) (leBytes 4 0)) t

/-- R490: SENDQ of an aligned range of at most 16 MiB: one copy in flight, counted in c.col, with its deadline; a length of 0 is complete
at once. -/
def Clause.QueuedSendsStart : Prop :=
  ∀ h q dl s w x s0, Issues (.sendq h q dl) s w x s0 →
    let dst := src3A x .p q x.low
    let src := src3B x .p q x.low
    let n := src3C x .v q x.low
    dst % 128 = 0 → src % 128 = 0 → n % 128 = 0 → n ≤ 0x1000000 → rangeCanonical (BitVec.ofNat 64 dst) n = true →
    rangeCanonical (BitVec.ofNat 64 src) n = true →
    ∃ t w', exec (.sendq h q dl) s = .next t ∧ t.getWarp w.id = some w' ∧ w'.outs = w.outs ∧ WarpGoesOn x s0 t w w' ∧
      (n = 0 → w'.ctrs = (countDone (countUp w .col x.tag) .col x.tag).ctrs ∧ t.colls = s0.colls) ∧
      (n ≠ 0 → w'.ctrs = (countUp w .col x.tag).ctrs ∧ ∃ c, t.colls = s0.colls ++ [c] ∧ c.what = 1 ∧ c.w = w.id ∧ c.tag = x.tag ∧
        c.lanes = x.e ∧ c.steps = [⟨0, 0xFF, 0, 0, 0, BitVec.ofNat 64 src, BitVec.ofNat 64 dst, n⟩] ∧ c.fin = none ∧
        c.base = if (dl.getD 0).toNat = 0 then 0 else s.clock.toNat + (dl.getD 0).toNat * Config.ticksPerUs)

/-- R466, R493: RTSW on a table that breaks no rule of R466: an arrival at the barrier object is in flight with the table to install, and
c.col counts it. No route has changed. -/
def Clause.RouteSwitchStarts : Prop :=
  ∀ h a b s w x s0 bs s1 w1, Issues (.rtsw h a b) s w x s0 → (rdP w a x.low).toNat % 64 = 0 → blockBad (rdP w b x.low) = false →
    snapReady x s (rdP w b x.low) 64 routeSize = true → snapGot x (begin_ x s0) (rdP w b x.low) 64 routeSize = (.done bs, s1) →
    s1.getWarp w.id = some w1 → routesOk bs = true →
    ∃ t w' c, exec (.rtsw h a b) s = .next t ∧ t.getWarp w.id = some w' ∧ t.colls = s1.colls ++ [c] ∧ c.what = 2 ∧ c.w = w.id ∧ c.tag = x.tag ∧
      c.lanes = x.e ∧ c.routes = some (routesOf bs) ∧ c.steps.map (fun k => (k.kind, k.b)) = [(2, rdP w a x.low)] ∧ c.started = false ∧
      w'.ctrs = (countUp w1 .col x.tag).ctrs ∧ AfterBlock s1 t w1 w' ∧ MemoryOf s1 t ∧ t.routes = s1.routes ∧ t.table = s1.table

/-- The route table that a topology block names, once it has been read: none where it names none or the table breaks a rule of R466. -/
abbrev RoutesRead (x : Issue) (s1 s2 : State) (bs : List Byte) (rts : Option (Nat × List Route)) : Prop :=
  (namesRoutes bs = false ∧ s2 = s1 ∧ rts = none) ∨
    (namesRoutes bs = true ∧ ∃ rs, snapGot x s1 (topoRoutes bs) 64 routeSize = (.done rs, s2) ∧
      rts = if routesOk rs then some (routesOf rs) else none)

/-- R474, R492: TOPO on a block that is here, with the route table it names. With no reason to refuse it, the change is under way with the
block's table, mask and activation time, and c.col counts it: while the package runs a table nothing of the ports and routes changes
yet, else the route table is installed at once. Otherwise STATUS is 2 with the reason, and with it visible at its home the instruction is
complete; until then only its end is left. -/
def Clause.TopologyChangeStarts : Prop :=
  ∀ h a s w x s0 bs s1 s2 w2 rts, Issues (.topo h a) s w x s0 → blockBad (rdP w a x.low) = false →
    snapReady x s (rdP w a x.low) 0x440 topoSize = true →
    (∀ bs', (snapGot x s (rdP w a x.low) 0x440 topoSize).1 = .done bs' → namesRoutes bs' = false ∨ snapReady x s (topoRoutes bs') 64 routeSize = true) →
    snapGot x (begin_ x s0) (rdP w a x.low) 0x440 topoSize = (.done bs, s1) → RoutesRead x s1 s2 bs rts → s2.getWarp w.id = some w2 →
    (topoReason (begin_ x s0) bs rts (topoRoutes bs).toNat = none →
      ∃ t w' y, exec (.topo h a) s = .next t ∧ t.getWarp w.id = some w' ∧ t.topo = some y ∧ y.mask = BitVec.ofNat 16 (wordAt bs 0 2) ∧
        y.act = BitVec.ofNat 64 (wordAt bs 8 8) ∧ y.table = tableOf bs ∧ y.routes = rts ∧ y.block = rdP w a x.low ∧ y.w = w.id ∧
        y.tag = x.tag ∧ (hasTable s2 = true → y.phase = 0 ∧ t.ports = s2.ports ∧ t.routes = s2.routes ∧ t.seed = s2.seed) ∧
        (hasTable s2 = false → y.phase = 3 ∧ ∀ r, rts = some r → t.seed = r.1 ∧ t.routes = r.2) ∧
        t.table = s2.table ∧ w'.ctrs = (countUp w2 .col x.tag).ctrs ∧ AfterBlock s2 t w2 w' ∧ MemoryOf s2 t) ∧
    ∀ k, topoReason (begin_ x s0) bs rts (topoRoutes bs).toNat = some k →
      let u := writeVa s2 (s2.warpAsid w) ((rdP w a x.low).toNat + 4) (leBytes 4 (2 + 2 ^ 8 * k))
      ∃ t w', exec (.topo h a) s = .next t ∧ t.getWarp w.id = some w' ∧ t.topo = s2.topo ∧ t.ports = u.ports ∧ t.table = s2.table ∧
        AfterBlock s2 t w2 w' ∧ MemoryOf u t ∧
        if fwPending u (BitVec.ofNat 16 (s2.warpAsid w)).toNat ((rdP w a x.low).toNat + 4) 4 then
          w'.ctrs = (countUp w2 .col x.tag).ctrs ∧ ∃ c, t.colls = s2.colls ++ [c] ∧ c.what = 3 ∧ c.w = w.id ∧ c.tag = x.tag ∧
            c.fin = some (2, k, none) ∧ c.wrote = true
        else w'.ctrs = (countDone (countUp w2 .col x.tag) .col x.tag).ctrs ∧ t.colls = s2.colls

/-- R491, R494, R495: SLOTQ, SLOTQ.cur and LINKQ have one reply outstanding; PFENCE holds the warp until what it waits for is done, at once
where that is so already. -/
def Clause.FabricQueriesAndFences : Prop :=
  (∀ h d a, ReplyIssues (.slotq h d a) d fun x => .slotq ((lanesOf x.e).map fun l => (l, (rdV x.w a l).toNat % 4096))) ∧
  (∀ h d, ReplyIssues (.slotqCur h d) d fun _ => .slotqCur) ∧
  (∀ h d a, ReplyIssues (.linkq h d a) d fun x => .linkq ((lanesOf x.e).map fun l => (l, (rdV x.w a l).toNat % 16))) ∧
  ∀ (dev : Bool) h s w x s0, let i := if dev then Instr.pfenceDev h else .pfence h
    let ids := if dev then 0 :: openIds s else []
    Issues i s w x s0 →
    ∃ t w', exec i s = .next t ∧ t.getWarp w.id = some w' ∧
      w'.hold = (if pfenceDone s w x.tag ids then w.hold else some (.pfence x.tag ids)) ∧ NoRegister w w' ∧ Advanced x w w' ∧
      w'.outs = w.outs ∧ w'.stores = w.stores ∧ w'.ctrs = w.ctrs ∧ Kept s0 t w.id

/-- R466, R474, R478, R479, R489 to R495: COLL, SENDQ, RTSW, TOPO, SLOTQ, LINKQ and PFENCE. -/
def Obligations.FabricInstructions : Prop :=
  Clause.CollectivesStart ∧ Clause.QueuedSendsStart ∧ Clause.RouteSwitchStarts ∧ Clause.TopologyChangeStarts ∧ Clause.FabricQueriesAndFences

/-- R472 to R474, R492, R493: the change of topology. One rotation before the activation the cobalt ports of the mask turn amber; at the
activation the package fences and the messages of all ports go to the holding queue, ahead of newer ones; when the fence is clear the
ports retrain, or are dark where the table leaves them or fewer than four wavelengths are left, and an RTSW whose barrier has released
installs its table; the new table is in force from its epoch; and TOPO is complete once every port of the mask is cobalt or dark and its
STATUS is visible. -/
def Clause.TopologyChanges : Prop :=
  (∀ s t o, s.topo = some t → s.table = some o → t.phase = 0 → t.act.toNat ≤ s.clock.toNat + periodOf o →
    ∃ u, exec .topoAmber s = .next u ∧ u.topo = some { t with phase := 1 } ∧
      (∀ p, p < s.ports.length → u.port p = { s.port p with
        st := if t.mask.getLsbD p ∧ (s.port p).st = .cobalt then .amber else (s.port p).st }) ∧
      u = { s with
        topo := u.topo
        ports := u.ports }) ∧
  (∀ s t, s.topo = some t → t.phase = 1 → t.act.toNat ≤ s.clock.toNat →
    ∃ u, exec .topoActivation s = .next u ∧ u.topo = some { t with phase := 2 } ∧ u.fencing = true ∧
      u.holding = ((List.range 16).flatMap fun p => (s.port p).queue) ++ s.holding ∧
      (∀ p, p < 16 → u.port p = { s.port p with queue := [] }) ∧
      u = { s with
        topo := u.topo
        fencing := true
        holding := u.holding
        ports := u.ports }) ∧
  (∀ s t, s.fencing = true → fenceClear s = true → s.holding = [] → s.topo = some t → t.phase = 2 →
    (∀ c, c ∈ s.colls → c.what = 2 → c.step = 1 → c.fin ≠ none) →
    ∃ u, exec .packageFenceDone s = .next u ∧ u.fencing = false ∧ u.topo = some { t with phase := 3 } ∧
      (∀ p, p < s.ports.length → u.port p = if t.mask.getLsbD p then { s.port p with
          st := if connected t.table p ∧ 4 ≤ (s.port p).usable then .umber else .slate
          locked := false } else s.port p) ∧
      (∀ r, t.routes = some r → u.seed = r.1 ∧ u.routes = r.2) ∧ u.table = s.table ∧ u.mem = s.mem) ∧
  (∀ s c r, s.fencing = true → fenceClear s = true → s.holding = [] → s.barWait = [] → s.topo = none →
    s.colls.filter (fun c => c.what == 2 && c.step == 1 && c.fin.isNone) = [c] → c.routes = some r →
    ∃ u, exec .packageFenceDone s = .next u ∧ u.fencing = false ∧ u.seed = r.1 ∧ u.routes = r.2 ∧ u.ports = s.ports ∧
      (∃ d, d ∈ u.colls ∧ d.id = c.id ∧ d.fin = some (1, 0, none)) ∧ u.mem = s.mem) ∧
  (∀ s t port, s.topo = some t → t.phase = 3 → t.table.epoch.toNat ≤ s.clock.toNat → s.holding = [] → s.barWait = [] →
    ∃ u, exec (.slotStart port) s = .next u ∧ u.table = some (mergeTable s.table t.table t.mask)) ∧
  (∀ s port, s.topo = none → port < s.ports.length → (s.port port).st = .umber → (s.port port).locked = true → inGuard s = true →
    ∃ u, exec (.slotStart port) s = .next u ∧ u.port port = { s.port port with st := .cobalt, locked := false } ∧
      (∀ p, p ≠ port → u.port p = s.port p) ∧ u = { s with ports := u.ports }) ∧
  (∀ s t port, s.topo = some t → t.phase = 4 → (s.port port).st ≠ .umber →
    (∀ p, p < 16 → t.mask.getLsbD p = true → (s.port p).st = .cobalt ∨ (s.port p).st = .slate) →
    let v := writeVa s t.asid.toNat (t.block.toNat + 4) (leBytes 4 1)
    ∃ u, exec (.slotStart port) s = .next u ∧ u.table = s.table ∧ MemoryOf v u ∧
      (fwPending v t.asid.toNat (t.block.toNat + 4) 4 = true → u = { v with topo := some { t with phase := 5 } }) ∧
      (fwPending v t.asid.toNat (t.block.toNat + 4) 4 = false → u.topo = none ∧
        ∀ w, s.getWarp t.w = some w → ∃ w', u.getWarp t.w = some w' ∧ w'.ctrs = (countDone w .col t.tag).ctrs ∧ NoRegister w w')) ∧
  ∀ s t port, s.topo = some t → t.phase = 5 → (s.port port).st ≠ .umber → fwPending s t.asid.toNat (t.block.toNat + 4) 4 = false →
    ∃ u, exec (.slotStart port) s = .next u ∧ u.topo = none ∧ MemoryKept s u ∧
      ∀ w, s.getWarp t.w = some w → ∃ w', u.getWarp t.w = some w' ∧ w'.ctrs = (countDone w .col t.tag).ctrs ∧ NoRegister w w'

/-- R462, R469, R470, R479, R483 to R487: ports. An open window sends the queued messages of its peer, oldest first, those of a SEND or
REDUCE step in their step's slot; at a window's close a queued message stays, and only a SENDQ unit whose deadline its own port's next
window misses goes to a relay of its route that is sooner; a retraining port that locks has its usable wavelengths, at most the width it
is narrowed to; a lost wavelength makes the port retrain, or dark below four, and freezes the collectives in flight; the monitor's request
is granted while the error rate is below 120; the manager may then narrow the port by a wavelength, never below four. -/
def Clause.PortsChange : Prop :=
  (∀ s port peer, openPeer s port = some peer → s.fencing = false → port < s.ports.length →
    ∃ u, exec (.slotWindowOpen port) s = .next u ∧
      u.port port = { s.port port with queue := (s.port port).queue.filter fun m => !(m.1 == peer && inItsSlot s m.2.1) } ∧
      u.sent = s.sent ++ ((s.port port).queue.filter fun m => m.1 == peer && inItsSlot s m.2.1).map (fun m => (port, m.2.1)) ∧
      (∀ p, p ≠ port → u.port p = s.port p) ∧ u.holding = s.holding ∧ u.mem = s.mem ∧ u.warps = s.warps) ∧
  (∀ s port, openPeer s port = none → (∀ m, m ∈ (s.port port).queue → m.2.2 = none) → exec (.slotWindowClose port) s = .next s) ∧
  (∀ s port first src dst id asid user va bs d, openPeer s port = none → peerNow s port = some first →
    (s.port port).queue = [(first, .unit src dst id asid user false va bs, some d)] →
    let m := (first, FabMsg.unit src dst id asid user false va bs, some d)
    ∃ u, exec (.slotWindowClose port) s = .next u ∧ u.mem = s.mem ∧ u.warps = s.warps ∧ u.sent = s.sent ∧
      ((divertVia s port m).1 = none → u.ports = s.ports ∧ u.holding = s.holding) ∧
      ∀ k, (divertVia s port m).1 = some k → first = dst ∧ (routeOf s dst).mode = 2 ∧ k.2 ∉ s.deadPkgs ∧
        (k.2 = (routeOf s dst).ra ∨ ((routeOf s dst).bv = true ∧ k.2 = (routeOf s dst).rb)) ∧
        ∀ v, windowFrom s [port] dst = some v → d.toNat < s.clock.toNat + v.1 ∧ ∃ z, nextWindow s k.2 = some z ∧ z.1 < v.1 ∧ z.2.2 = k.1) ∧
  (∀ s port, (s.port port).st = .umber → port < s.ports.length →
    ∃ u, exec (.portLock port) s = .next u ∧ u.port port = { s.port port with
        locked := true
        width := min (s.port port).usable (s.port port).cap } ∧ (∀ p, p ≠ port → u.port p = s.port p) ∧ u = { s with ports := u.ports }) ∧
  (∀ s port l, port < s.ports.length → (s.port port).st ≠ .slate → 5 ≤ (s.port port).usable →
    ∃ u, exec (.wavelengthLoss port l) s = .next u ∧ u.degraded = true ∧ u.port port = { s.port port with
        usable := (s.port port).usable - 1
        spareUsed := true
        cap := if (s.port port).spareUsed then portWidth (s.port port) - 1 else (s.port port).cap
        st := .umber
        locked := false } ∧ (∀ p, p ≠ port → u.port p = s.port p) ∧ u.colls.length = s.colls.length ∧
      (∀ (k : Nat) (c d : Coll), s.colls[k]? = some c → u.colls[k]? = some d → c.what = 0 → c.fin = none →
        d.freezing = some ((match l with | .wavelength => 1 | .laser => 2), port) ∧
        (c.started = true → d.fin = none) ∧ (c.started = false → d.fin = some (if c.freeze = 0 then 3 else 2, 1, none) ∧ d.frozeAt = s.clock)) ∧
      u = { s with
        degraded := true
        ports := u.ports
        colls := u.colls }) ∧
  (∀ s port l, port < 16 → port < s.ports.length → (s.port port).st ≠ .slate → (s.port port).usable ≤ 4 → (∀ x, x ∈ s.sent → x.1 ≠ port) →
    ∃ u, exec (.wavelengthLoss port l) s = .next u ∧ (u.port port).st = .slate ∧ (u.port port).queue = [] ∧ u.fencing = true ∧
      u.degraded = true ∧ u.mem = s.mem ∧ ∀ p, p < 16 → p ≠ port → u.port p = { s.port p with queue := (u.port p).queue } ∧
        (u.port p).queue.Sublist (s.port p).queue) ∧
  (∀ s port n, port < s.ports.length →
    ∃ u, exec (.monitorPowerRequest port n) s = .next u ∧ u.port port = { s.port port with
        berq := min n 255
        hold := decide (n < 120) } ∧ (∀ p, p ≠ port → u.port p = s.port p) ∧ u = { s with ports := u.ports }) ∧
  ∀ s port, port < s.ports.length → (s.port port).hold = true → 4 < portWidth (s.port port) →
    ∃ u, exec (.powerReclaim port) s = .next u ∧ u.port port = { s.port port with
        cap := portWidth (s.port port) - 1
        st := if (s.port port).st = .slate then .slate else .umber
        locked := false } ∧ (∀ p, p ≠ port → u.port p = s.port p) ∧ u = { s with ports := u.ports }

/-- R391, R467, R468, R471, R480, R487, R490: messages. One for another package is kept for its next hop while the relay has room, a SENDQ
unit that finds none is refused back to its source, and the oldest kept goes on by the relay's own path; a unit is written at its destination and acknowledged, and is kept
behind an earlier access of its source to its line that waits; a value returned to a load is kept for its lane; a peer
declared dead is recorded and a collective with steps toward it ends with INFO 5. -/
def Clause.MessagesMove : Prop :=
  (∀ s port m, msgDst m ≠ s.dev → port < s.ports.length → relayHolds s port m = true →
    ∃ u, exec (.fabricMessageReceive port m) s = .next u ∧ u.port port = { s.port port with relay := (s.port port).relay ++ [m] } ∧
      (∀ p, p ≠ port → u.port p = s.port p) ∧ u = { s with ports := u.ports }) ∧
  (∀ s port src dst id asid user va bs p, dst ≠ s.dev → relayHolds s port (.unit src dst id asid user false va bs) = false →
    pathFor s src asid va.toNat = some p → holds s p.1 = false →
    ∃ u, exec (.fabricMessageReceive port (.unit src dst id asid user false va bs)) s = .next u ∧
      (u.port p.1).queue = (s.port p.1).queue ++ [(p.2, .unitRefused s.dev src id asid va, none)] ∧ u = { s with ports := u.ports }) ∧
  (∀ s port n m p, (s.port port).relay[n]? = some m → msgDst m ≠ s.dev → (∀ k, k ∈ (s.port port).relay.take n → msgDst k = s.dev) → pathFor s (msgDst m) (msgLine m).1 (msgLine m).2 = some p →
    holds s p.1 = false →
    ∃ u, exec (.relayForward port n) s = .next u ∧ (u.port port).relay = (s.port port).relay.eraseIdx n ∧
      (u.port p.1).queue = (s.port p.1).queue ++ [(p.2, m, none)] ∧ u = { s with ports := u.ports }) ∧
  (∀ s port src id asid user coll va bs pa kind z s1, keptAt s (.unit src s.dev id asid user coll va bs) = none →
    translateHome s asid user .write va = (.mem pa kind z, s1) → kind ≠ 3 → kind ≠ 5 →
    homeDead s1 pa = false → wortHomeHit s1 asid va.toNat bs.length = false → engineReady s1 asid va.toNat pa = true →
    ∃ u, exec (.fabricMessageReceive port (.unit src s.dev id asid user coll va bs)) s = .next u ∧ u.load pa bs.length = bs ∧
      (∀ a, a < pa ∨ pa + bs.length ≤ a → Memory.read u.mem a = Memory.read s1.mem a) ∧
      ∀ p, pathFor s1 src asid va.toNat = some p → holds s1 p.1 = false → p.1 < s1.ports.length →
        (u.port p.1).queue = (s1.port p.1).queue ++ [(p.2, .unitAck s1.dev src id true 0 asid va, none)]) ∧
  (∀ s port src id asid user coll va bs q, keptAt s (.unit src s.dev id asid user coll va bs) = some q →
    ∃ u, exec (.fabricMessageReceive port (.unit src s.dev id asid user coll va bs)) s = .next u ∧
      (u.port q).relay = (s.port q).relay ++ [.unit src s.dev id asid user coll va bs] ∧ (∀ p, p ≠ q → u.port p = s.port p) ∧
      u = { s with ports := u.ports }) ∧
  (∀ s port src id w tag lane v asid va x o, s.unacked.find? (fun u => u.1 == id) = some (id, w, tag, lane) → ownEngine w = false → unitTag tag = false →
    s.getWarp w = some x →
    x.stores.find? (fun p => p.tag == tag) = none → x.outs.find? (fun o => o.tag == tag) = some o →
    ∃ u x', exec (.fabricMessageReceive port (.reply src s.dev id true v asid va)) s = .next u ∧ u.getWarp w = some x' ∧
      x'.outs = x.outs.map (fun q => if q.tag = tag then { q with got := q.got ++ [(lane, v)] } else q) ∧ NoRegister x x' ∧ x'.ctrs = x.ctrs ∧
      (∀ e, e ∈ u.unacked → e.1 ≠ id) ∧ u.mem = s.mem) ∧
  ∀ s pkg, pkg ≠ s.dev → pkg ∉ s.deadPkgs →
    ∃ u, exec (.peerHeartbeatTimeout pkg) s = .next u ∧ u.deadPkgs = s.deadPkgs ++ [pkg] ∧
      ∀ c, c ∈ s.colls → c.what = 0 → c.fin = none → (∀ d, d ∈ s.colls → d.id = c.id → d = c) → towards [] pkg c = true →
        ∀ d, d ∈ u.colls → d.id = c.id → d.fin = some (3, 5, none)

/-- R462 to R474, R483 to R487, R490, R492, R493: the events of the fabric. -/
def Obligations.FabricEvents : Prop := Clause.TopologyChanges ∧ Clause.PortsChange ∧ Clause.MessagesMove

/-- R476, R477: an arrival of another package at a barrier that stands here and takes part in it: ARRIVED and the bitmap are raised and the
package waits for its answer; with the last arrival the phase rises by 1, ARRIVED and the bitmap are 0 and nobody waits. The answer of
another package's coordinator lets the waiting step go on, or ends it with INFO 6 and the package that was lost. -/
def Clause.FabricBarriers : Prop :=
  (∀ s pkg asid obj pa z, translateNow s 0 asid false .write obj = .mem pa 2 z → pkg ≠ s.dev → barGone s asid obj = [] →
    let o := barObj s asid obj
    bitsAt o.1 48 2 ≠ 1 → bitAt o.2.1 pkg = true → bitAt o.2.2 pkg = false →
    let s1 := writeVa (writeVa s asid obj.toNat (leBytes 8 (setBitsAt o.1 32 16 ((bitsAt o.1 32 16 + 1) % 2 ^ 16)))) asid (obj.toNat + 0x240)
      (leBytes 512 (o.2.2 + 2 ^ pkg))
    let p := barObj s1 asid obj
    ((p.2.1 &&& p.2.2) ≠ p.2.1 → ∃ u, exec (.fabricBarrierArrival pkg asid obj) s = .next u ∧ MemoryOf s1 u ∧ pkg ∈ barWaiters u asid obj ∧
      u.colls = s.colls) ∧
    ((p.2.1 &&& p.2.2) = p.2.1 → ∃ u, exec (.fabricBarrierArrival pkg asid obj) s = .next u ∧ barWaiters u asid obj = [] ∧
      MemoryOf (writeVa (writeVa s1 asid obj.toNat (leBytes 8 (setBitsAt (setBitsAt p.1 0 32 ((bitsAt p.1 0 32 + 1) % 2 ^ 32)) 32 16 0)))
        asid (obj.toNat + 0x240) (leBytes 512 0)) u)) ∧
  (∀ s asid obj c, s.colls.filter (fun c => c.waitBar == some obj && c.asid.toNat == asid) = [c] → getColl s c.id = some c →
    coordinator s c obj ≠ some s.dev → c.what ≠ 2 →
    c.fin = none → c.freezing = none →
    ∃ u, exec (.fabricBarrierRelease ⟨asid, obj⟩ none) s = .next u ∧ getColl u c.id = some { c with
        step := c.step + 1
        started := false
        pendingU := []
        waitBar := none
        awaits := none
        fin := if c.steps.length ≤ c.step + 1 then some (1, 0, none) else none } ∧ u = { s with colls := u.colls }) ∧
  (∀ s asid obj c, s.colls.filter (fun c => c.waitBar == some obj && c.asid.toNat == asid) = [c] → getColl s c.id = some c →
    coordinator s c obj ≠ some s.dev → c.what = 2 →
    ∃ u, exec (.fabricBarrierRelease ⟨asid, obj⟩ none) s = .next u ∧ u.fencing = true ∧ getColl u c.id = some { c with step := 1, waitBar := none }) ∧
  ∀ s asid obj c pkg, s.colls.filter (fun c => c.waitBar == some obj && c.asid.toNat == asid) = [c] → getColl s c.id = some c →
    coordinator s c obj ≠ some s.dev → c.fin = none →
    ∃ u, exec (.fabricBarrierRelease ⟨asid, obj⟩ (some pkg)) s = .next u ∧ (getColl u c.id).map (·.fin) = some (some (3, 6, some pkg)) ∧
      u = { s with colls := u.colls }

/-- R479, R480, R490: a step that may begin. A SEND reads its source at once and queues one unit for each line on the lowest port of its
slot; the arrival of a BARRIER step or of an RTSW goes by the path of R467 for the object's line; a WAIT stands from the opening of
its window. -/
def Clause.CollectiveStepsBegin : Prop :=
  (∀ s id c st port bs s1, getColl s id = some c → collLive s c = true → c.what = 0 → c.started = false → c.steps[c.step]? = some st → st.kind = 0 →
    gate s c st.slot st.peer = .now port → sourceGot c (lineParts st.a.toNat st.n) s = (.done bs, s1) → s1.colls = s.colls →
    (∀ q, q ∈ lineParts st.b.toNat st.n → ∀ l, translateNow s 0 c.asid.toNat c.user .write (BitVec.ofNat 64 q.1) ≠ .absent l) →
    holds s1 port = false → port < s1.ports.length →
    let us := sendUnits st bs
    ∃ u d, exec (.collStepStart id) s = .next u ∧ getColl u id = some d ∧ d.started = true ∧ d.step = c.step ∧
      d.pendingU.map (·.1) = (List.range us.length).map (fun k => s1.nextId + k) ∧
      (u.port port).queue = (s1.port port).queue ++ (List.range us.length).filterMap (fun k => (us[k]?).map fun y =>
        (st.peer, FabMsg.unit s1.dev st.peer (s1.nextId + k) c.asid.toNat c.user true (BitVec.ofNat 64 y.1) y.2, none)) ∧ u.mem = s1.mem) ∧
  (∀ s id c st k p, getColl s id = some c → collLive s c = true → c.started = false →
    c.steps[if c.what = 0 then c.step else 0]? = some st → (c.what = 0 ∧ st.kind = 2) ∨ c.what = 2 → coordinator s c st.b = some k → k ≠ s.dev →
    k ∉ s.deadPkgs → pathFor s k c.asid.toNat st.b.toNat = some p → holds s p.1 = false →
    ∃ u, exec (.collStepStart id) s = .next u ∧ getColl u id = some { c with started := true, waitBar := some st.b } ∧
      (u.port p.1).queue = (s.port p.1).queue ++ [(p.2, .barArrive s.dev k c.asid.toNat st.b, none)] ∧ u.mem = s.mem) ∧
  ∀ s id c st t r i off, getColl s id = some c → collLive s c = true → c.what = 0 → c.started = false → c.steps[c.step]? = some st → st.kind = 3 →
    s.table = some t → tablePos t s.clock.toNat = some (r, i, off) → c.base ≤ s.clock.toNat → st.slot = 0xFF ∨ st.slot = i → inWindow t i off = true →
    ∃ u, exec (.collStepStart id) s = .next u ∧ getColl u id = some { c with started := true } ∧ u = { s with colls := u.colls }

/-- The state once the STATUS word of a COLL that ends has been written: with its code, its step and its INFO, unless it has been before. -/
abbrev StatusWritten (s : State) (c : Coll) (code info : Nat) : State :=
  if c.what = 0 ∧ c.wrote = false then writeVa s c.asid.toNat (c.block.toNat + 4) (leBytes 4 (code + 2 ^ 8 * (c.step % 256) + 2 ^ 16 * info)) else s

/-- R480 to R482, R490: an operation whose end is known. The STATUS word of a COLL is written with its code, step and INFO; once it is visible
at its home c.col counts the operation and it is gone; a failure traps FABRIC_PATH, deferred, in its lanes. -/
def Clause.CollectivesEnd : Prop :=
  (∀ s id c w, getColl s id = some c → c.fin = some (1, 0, none) → s.getWarp c.w = some w → c.what < 3 →
    let v := StatusWritten s c 1 0
    (c.what = 0 ∧ finalPending v c 1 = true → ∃ u, exec (.collComplete id) s = .next u ∧ MemoryOf v u ∧
      getColl u id = some { c with wrote := true } ∧ u.warps = v.warps) ∧
    (c.what ≠ 0 ∨ finalPending v c 1 = false → ∃ u w', exec (.collComplete id) s = .next u ∧ (∀ d, d ∈ u.colls → d.id ≠ id) ∧
      u.getWarp c.w = some w' ∧ w'.ctrs = (countDone w .col c.tag).ctrs ∧ NoRegister w w' ∧ w'.outs = w.outs ∧ MemoryOf v u)) ∧
  ∀ s id c w info, getColl s id = some c → c.fin = some (3, info, none) → c.what = 0 → info ≠ 6 → info < 0x60 → s.getWarp c.w = some w →
    TakesDeferred w c.lanes → finalPending (StatusWritten s c 3 info) c 3 = false →
    ∃ u w', exec (.collComplete id) s = .next u ∧ (∀ d, d ∈ u.colls → d.id ≠ id) ∧ u.getWarp c.w = some w' ∧
      DeferredTaken w w' 0x29 info c.lanes c.pc ∧ NoRegister w w' ∧ MemoryOf (StatusWritten s c 3 info) u

/-- R469, R480: a REDUCE message with which its step is not whole is staged; a whole step of one line that names an open region of scope sys
is added to that line, rounded to the receiver's grid, and remembered; one that has been applied before changes no byte. -/
def Clause.ReduceAtReceiver : Prop :=
  (∀ s src dst cid step ctx region first scale off total ls,
    let m : FabMsg := .reduce src dst cid step ctx region first scale off total ls
    reduceWhole s m = none → exec (.reduceApply src m) s = .next { s with staged := s.staged ++ [m] }) ∧
  (∀ s src cid step ctx region first scale l r y pa, let m : FabMsg := .reduce src s.dev cid step ctx region first scale 0 1 [l]
    (∀ k, k ∈ s.staged → sameReduce m k = false) → s.applied.contains (src, cid, step) = false → s.ctxRegion ctx = some r →
    wortOf r region = some y → y.st = .opened → y.scope = .sys → first < y.lines → wortLinePa s r y first = some pa → sealedPa s pa = false →
    l.1.length = 16 →
    ∃ u, exec (.reduceApply src m) s = .next u ∧ (src, cid, step) ∈ u.applied ∧
      (∀ e, e < 16 → u.loadNat (pa + 8 * e) 8 = (s.loadNat (pa + 8 * e) 8 +
        (((reduceLine ctx region first y.scale (BitVec.ofNat 8 scale) l).g[e]?).getD 0).toNat) % 2 ^ 64) ∧
      ∀ a, a < pa ∨ pa + 128 ≤ a → Memory.read u.mem a = Memory.read s.mem a) ∧
  ∀ s src cid step ctx region first scale off total ls k, s.applied.contains (src, cid, step) = true →
    reduceWhole s (.reduce src s.dev cid step ctx region first scale off total ls) = some k → reduceWaits s k = false →
    ∃ u, exec (.reduceApply src (.reduce src s.dev cid step ctx region first scale off total ls)) s = .next u ∧ u.mem = s.mem ∧ u.applied = s.applied ∧
      u.regions = s.regions

/-- R476, R477, R479 to R482, R490: the events of collectives and of fabric barriers. -/
def Obligations.CollectiveEvents : Prop :=
  Clause.FabricBarriers ∧ Clause.CollectiveStepsBegin ∧ Clause.CollectivesEnd ∧ Clause.ReduceAtReceiver

/-! ## Results, stores and faults that arrive later (R80, R83, R92, R162, R214, R385, R386, R455) -/

/-- What arrives for an outstanding entry in some lanes stands in its registers, but where a younger instruction has written the
register since (R83); every other register and lane reads as before. -/
abbrev Arrived (w w' : Warp) (o : Outst) (lanes : LaneSet) (val : Nat → List Word) : Prop :=
  (∀ (r : Reg) l, l < 32 → rdV w' r l =
    match (o.dsts.zip (val l)).find? fun p => p.1 == r.toNat with
    | some p => if lanes.getLsbD l && tagWins w .v r l o.tag && r != 0 then p.2 else rdV w r l
    | none => rdV w r l) ∧ w'.q = w.q ∧ w'.w = w.w ∧ w'.m = w.m

/-- An entry is the only one with its tag, and its registers are different ones. -/
abbrev OnlyEntry (w : Warp) (o : Outst) : Prop :=
  w.outs.find? (fun y => y.tag == o.tag) = some o ∧ (∀ y, y ∈ w.outs ++ w.reads → y.tag = o.tag → y = o) ∧ o.dsts.Nodup ∧ ∀ d, d ∈ o.dsts → d < 2048

/-- It is gone, and its counter, where it has one, has counted it done (R80, R214). -/
abbrev EntryGone (w w' : Warp) (o : Outst) : Prop :=
  (∀ y, y ∈ w'.outs → y.tag ≠ o.tag) ∧ (∀ y, y ∈ w.outs → y.tag ≠ o.tag → y ∈ w'.outs) ∧ w'.stores = w.stores ∧
    w'.ctrs = match o.ctr with | some c => (countDone w c o.tag).ctrs | none => w.ctrs

/-- R80, R83, R132, R206, R208, R214: RESULT_WRITEBACK. Values already formed are written in the lanes that arrive, with their flags, and those
lanes are outstanding no more; the clock is sampled once, when its reply is formed (log entry 94); a scratch load gives the bytes of its workgroup's scratchpad at that
moment, and a load whose line stands in its core's L1 gives memory's bytes, each extended as its size says. R82: where some registers of a
result arrive alone, they are written and the others stay outstanding with their values. -/
def Clause.ResultsArrive : Prop :=
  (∀ s k w o ls regs vals flags, s.getWarp k = some w → OnlyEntry w o → o.res = .values vals flags → o.lanes &&& ls ≠ 0 →
    chosen (~~~ regs) o.dsts = [] → (vals.map (·.1)).Nodup → (flags.map (·.1)).Nodup → (∀ l, o.lanes.getLsbD l = true → l ∈ vals.map (·.1)) → (∀ v, v ∈ vals → v.1 < 32) →
    (∀ f, f ∈ flags → f.1 < 32) →
    ∃ t w', exec (.resultWriteback k o.tag ⟨ls, regs⟩) s = .next t ∧ t.getWarp k = some w' ∧ Arrived w w' o (o.lanes &&& ls) (argOf [] vals) ∧
      (∀ l, l < w.lanes.length → l < 32 → (w'.lane l).pc = (w.lane l).pc ∧ (w'.lane l).st = (w.lane l).st ∧
        (w'.lane l).fpx = if (o.lanes &&& ls).getLsbD l then (w.lane l).fpx ||| argOf 0 flags l else (w.lane l).fpx) ∧
      (∀ y, y ∈ w'.outs → y.tag = o.tag → y.lanes = o.lanes &&& ~~~ ls) ∧ (o.lanes &&& ~~~ ls = 0 → EntryGone w w' o) ∧
      t = { s with warps := t.warps }) ∧
  (∀ s k w o regs vals, s.getWarp k = some w → OnlyEntry w o → o.res = .values vals [] → o.lanes ≠ 0 → vals.map (·.1) = lanesOf o.lanes →
    (∀ v, v ∈ vals → v.2.length = o.dsts.length) → chosen regs o.dsts ≠ [] → chosen (~~~ regs) o.dsts ≠ [] →
    ∃ t w' q, exec (.resultWriteback k o.tag ⟨o.lanes, regs⟩) s = .next t ∧ t.getWarp k = some w' ∧
      Arrived w w' { o with dsts := chosen regs o.dsts } o.lanes (fun l => chosen regs (argOf [] vals l)) ∧
      (∀ y, y ∈ w'.outs → y.tag = o.tag → y = q) ∧ q ∈ w'.outs ∧ q.tag = o.tag ∧ q.lanes = o.lanes ∧ q.dsts = chosen (~~~ regs) o.dsts ∧
      q.res = .values (vals.map fun v => (v.1, chosen (~~~ regs) v.2)) [] ∧ w'.ctrs = w.ctrs ∧ w'.lanes = w.lanes ∧
      t = { s with warps := t.warps }) ∧
  (∀ s k w o ls regs, s.getWarp k = some w → OnlyEntry w o → o.res = .clock → o.lanes &&& ls ≠ 0 → chosen (~~~ regs) o.dsts = [] →
    ∃ t w', exec (.resultWriteback k o.tag ⟨ls, regs⟩) s = .next t ∧ t.getWarp k = some w' ∧
      Arrived w w' o (o.lanes &&& ls) (fun _ => [s.clock.setWidth 32, s.clock.extractLsb' 32 32]) ∧
      (∀ y, y ∈ w'.outs → y.tag = o.tag → y.lanes = o.lanes &&& ~~~ ls ∧ y.res = .values (perLane o fun _ => s.clock.toNat) []) ∧
      (o.lanes &&& ~~~ ls = 0 → EntryGone w w' o) ∧ t = { s with warps := t.warps }) ∧
  (∀ s k w o g sz addrs regs, s.getWarp k = some w → OnlyEntry w o → o.res = .load .scratch sz addrs → o.lanes ≠ 0 →
    chosen (~~~ regs) o.dsts = [] → olderReads w o.tag = [] →
    olderStores w o.tag = [] → s.warpWg w = some g → s.getWg g.id = some g →
    (∀ l, l < 32 → o.lanes.getLsbD l = true → (argOf 0 addrs l).toNat < 0x80000 ∧ (argOf 0 addrs l).toNat + Sz.bytes sz ≤ g.scratch) →
    ∃ t w', exec (.resultWriteback k o.tag ⟨o.lanes, regs⟩) s = .next t ∧ t.getWarp k = some w' ∧
      Arrived w w' o o.lanes (fun l => extendLoad sz (leNat (bankRead s g.id (argOf 0 addrs l).toNat (Sz.bytes sz)))) ∧ EntryGone w w' o ∧
      t = { s with warps := t.warps }) ∧
  (∀ s k w o sz addrs regs, s.getWarp k = some w → OnlyEntry w o → o.res = .load .global sz addrs → o.lanes ≠ 0 →
    chosen (~~~ regs) o.dsts = [] → olderReads w o.tag = [] →
    olderStores w o.tag = [] →
    (∀ l, l < 32 → o.lanes.getLsbD l = true → let va := argOf 0 addrs l
      wortLineHit s o.asid va.toNat (Sz.bytes sz) = false ∧ ∃ ln, l1Get s (s.warpCore w) o.asid (lineOf va) = some ln ∧
        (s.warpUser w = true → ln.user = true) ∧ homeDead s ln.pa = false ∧
        renewLease s (s.warpCore w).die ln.asid (lineOf va) = s) →
    ∃ t w', exec (.resultWriteback k o.tag ⟨o.lanes, regs⟩) s = .next t ∧ t.getWarp k = some w' ∧
      Arrived w w' o o.lanes (fun l => let va := argOf 0 addrs l
        extendLoad sz (leNat (s.load (((l1Get s (s.warpCore w) o.asid (lineOf va)).map (·.pa)).getD 0 + va.toNat % 128) (Sz.bytes sz)))) ∧
      EntryGone w w' o ∧ t = { s with warps := t.warps }) ∧
  ∀ s k w o sz addrs ws, s.getWarp k = some w → OnlyEntry w o → o.res = .load .gather sz addrs → o.ctr = some .gat → o.lanes ≠ 0 →
    (∀ l, l < 32 → o.lanes.getLsbD l = true → readLane s w o l = (.done (ws l), s)) →
    ∃ t w', exec (.gatherComplete k o.tag) s = .next t ∧ t.getWarp k = some w' ∧ Arrived w w' o o.lanes ws ∧ EntryGone w w' o ∧
      t = { s with warps := t.warps }

/-- A posted store of one participant that is the warp's oldest and has nothing before it. -/
abbrev OldestStore (w : Warp) (p : PStore) : Prop :=
  headStore w = some p ∧ (∀ q, q ∈ w.stores → q.tag = p.tag → q = p) ∧ p.retryAt = none ∧ p.remote = [] ∧ p.window = 0 ∧ p.frame = none ∧ olderReads w p.tag = []

/-- The store is over: it is gone and c.st has counted it done (R214). -/
abbrev StoreGone (w w' : Warp) (p : PStore) : Prop :=
  (∀ q, q ∈ w'.stores → q.tag ≠ p.tag) ∧ w'.ctrs = (countDone w p.ctr p.tag).ctrs ∧ NoRegister w w' ∧ w'.outs = w.outs

/-- R184, R214, R333, R395: STORE_VISIBLE. A scratch store writes its bytes in its workgroup's scratchpad, a global store to a line that its core
owns writes them in memory, and nothing else; then it is complete. A store to a sealed frame backs off, and goes to its home again when
the back-off has run out. -/
def Clause.StoresArrive : Prop :=
  (∀ s k w p g l off bs, s.getWarp k = some w → OldestStore w p → p.op = .write .scratch [(l, off, bs)] → bs ≠ [] → s.warpWg w = some g →
    s.getWg g.id = some g → off.toNat < 0x80000 → off.toNat + bs.length ≤ g.scratch → off.toNat % 0x4000 + bs.length ≤ 0x4000 →
    ∃ t w', exec (.storeVisible k) s = .next t ∧ t.getWarp k = some w' ∧ StoreGone w w' p ∧
      (∀ i, i < bs.length → sget 0 (t.getCore g.core).scratch (bankKey g off.toNat + i) = (bs[i]?).getD 0) ∧
      (∀ j, j < bankKey g off.toNat ∨ bankKey g off.toNat + bs.length ≤ j →
        sget 0 (t.getCore g.core).scratch j = sget 0 (s.getCore g.core).scratch j) ∧ CoresKeptBut s t g.core ∧ t.mem = s.mem ∧
      OthersKept s t k) ∧
  (∀ s k w p l va bs pa s1, s.getWarp k = some w → OldestStore w p → p.op = .write .global [(l, va, bs)] → bs ≠ [] →
    windowPlace s w p.asid (BitVec.ofNat 64 (lineOf va * 128)) = none → writePlace s (accOf s w p.asid) va bs.length = (.done (.own pa), s1) →
    s1.getWarp k = some w → (∀ c, walkNow s (s.warpCore w) p.asid (s.warpUser w) .write va ≠ .ctrl c) →
    ∃ t w', exec (.storeVisible k) s = .next t ∧ t.getWarp k = some w' ∧ StoreGone w w' p ∧ t.load pa bs.length = bs ∧
      (∀ a, a < pa ∨ pa + bs.length ≤ a → Memory.read t.mem a = Memory.read s1.mem a) ∧ OthersKeptButArms s1 t k) ∧
  (∀ s k w p d, s.getWarp k = some w → headStore w = some p → p.retryAt = none → sealedHome s w p = some d →
    ∃ t w', exec (.sealedRefusal k) s = .next t ∧ t.getWarp k = some w' ∧ NoRegister w w' ∧ w'.ctrs = w.ctrs ∧
      w'.stores = w.stores.map (fun q => if q.tag = p.tag then
        { q with retryAt := some (s.clock + BitVec.ofNat 64 (max (bitsAt (s.getDie d).lctl.toNat 8 8) 1 * Config.ticksPerUs)) } else q) ∧
      t = { s with warps := t.warps }) ∧
  ∀ s k w p tm, s.getWarp k = some w → headStore w = some p → p.retryAt = some tm → tm.toNat ≤ s.clock.toNat →
    let u := s.modWarp k fun x => { x with stores := x.stores.map fun q => if q.tag == p.tag then { q with retryAt := none } else q }
    ∃ t, exec (.retryAfterExpiry k) s = .next t ∧ exec (.storeVisible k) u = .next t

/-- R213, R218, R219, R227, R384, R391, R392: memory-side operations, releases, and answers. An atomic of one participant on a memory-side page
changes its word at its home and keeps what stood there; REL and ACQ end when what they wait for is done; a lane that sleeps in MWAIT and
reads another phase is ready; a refusal by another package traps in its lane; a home map entry that names another home goes. -/
def Clause.AccessesProceed : Prop :=
  (∀ s k w o t op l va b c pa s1, s.getWarp k = some w → OnlyEntry w o → headRead w = some o → o.res = .atom false t op [(l, va, b, c)] →
    o.got = [] → lanesOf o.lanes = [l] → olderStores w o.tag = [] → onSidePage s w o.asid .read va = true →
    writePlace s (accOf s w o.asid) va (ITy.bits t / 8) = (.done (.side pa), s1) → remoteAllowed (atomOp t op b c) 2 = true →
    engineReady s1 o.asid va.toNat pa = true → s1.getWarp k = some w →
    let old := s1.loadNat pa (ITy.bits t / 8)
    ∃ u w', exec (.memorySideOp k) s = .next u ∧ u.getWarp k = some w' ∧ NoRegister w w' ∧ w'.ctrs = w.ctrs ∧ w'.stores = w.stores ∧
      (∃ y, y ∈ w'.outs ∧ y.tag = o.tag ∧ y.res = .values [(l, wordsOf (ITy.bits t == 64) old)] []) ∧
      u.load pa (remoteNew (atomOp t op b c) old).length = remoteNew (atomOp t op b c) old ∧
      ∀ a, a < pa ∨ pa + (remoteNew (atomOp t op b c) old).length ≤ a → Memory.read u.mem a = Memory.read s1.mem a) ∧
  (∀ s k w sc tag u, s.getWarp k = some w → w.hold = some (.rel sc tag) → olderDone w .st tag = true → olderStores w tag = [] →
    releaseEffects s w sc = some u → backPending u (s.warpAsid w) = false →
    ∃ t w', exec (.releaseComplete k) s = .next t ∧ t.getWarp k = some w' ∧ w'.hold = none ∧ NoRegister w w' ∧ w'.outs = w.outs ∧
      (sc ≠ .wg → ∀ y, y ∈ (t.getCore (s.warpCore w)).nc → tagSees (s.warpAsid w) y.asid = true → ∀ e, e ∈ y.bytes → e.2.2 = false) ∧
      MemoryOf u t) ∧
  (∀ s k w sc tag, s.getWarp k = some w → w.hold = some (.acq sc tag) → olderDone w .ld tag = true →
    ∃ t w', exec (.releaseComplete k) s = .next t ∧ t.getWarp k = some w' ∧ w'.hold = none ∧ NoRegister w w' ∧ w'.outs = w.outs ∧
      (sc ≠ .wg → ∀ y, y ∈ (t.getCore (s.warpCore w)).nc → tagSees (s.warpAsid w) y.asid = true → ∀ e, e ∈ y.bytes → e.2.2 = true) ∧ t.mem = s.mem) ∧
  (∀ s k w l va v tag next ph, s.getWarp k = some w → l < w.lanes.length → l < 32 → (w.lane l).st = .sleeping (.mwait va .wg v tag) next →
    (∀ j, j < 32 → j ≠ l → mwaitOf (w.lane j) = none) → olderDone w .ld tag = true → olderStores w tag = [] →
    mwaitRead s w l va tag = (.done ph, s) → w.inTrap = false → (∀ y, y ∈ w.outs → y.tag ≠ tag) →
    ∃ t w', exec (.mwaitRecheck k) s = .next t ∧ t.getWarp k = some w' ∧ NoRegister w w' ∧ w'.outs = w.outs ∧ w'.ctrs = w.ctrs ∧
      (∀ j, w'.lane j = if j = l ∧ ph ≠ v then { w.lane l with pc := next, st := .ready } else w.lane j) ∧ t = { s with warps := t.warps }) ∧
  (∀ s k tag id lane w o, s.unacked.find? (fun u => u.2.1 == k && u.2.2.1 == tag) = some (id, k, tag, lane) →
    s.unacked.find? (fun u => u.1 == id) = some (id, k, tag, lane) → ownEngine k = false → unitTag tag = false → s.getWarp k = some w → w.stores.find? (fun p => p.tag == tag) = none →
    w.outs.find? (fun o => o.tag == tag) = some o → TakesDeferred w (1#32 <<< lane) →
    ∃ t w', exec (.remoteRequestError k tag) s = .next t ∧ t.getWarp k = some w' ∧ DeferredTaken w w' 0x11 0x60 (1#32 <<< lane) o.pc ∧
      NoRegister w w' ∧ t.mem = s.mem) ∧
  ∀ s c asid region e pa kind z, homeMapOf (s.getCore c) asid (region * 512) = some e →
    translateNow s c.die asid false .read (BitVec.ofNat 64 (region * 512)) = .mem pa kind z → e ≠ (s.dev, pa / 2 ^ 36) →
    ∃ t, exec (.routingRefusal c asid region) s = .next t ∧ homeMapOf (t.getCore c) asid (region * 512) = none ∧ CoresKeptBut s t c ∧
      t = { s with cores := t.cores }

/-- R80, R83, R206, R213 to R219, R227, R333, R384, R391, R392, R395: the events of memory accesses. -/
def Obligations.MemoryEvents : Prop := Clause.ResultsArrive ∧ Clause.StoresArrive ∧ Clause.AccessesProceed

/-- R45: a run that meets a pad goes on at the next multiple of 32, in every one of its lanes; nothing else of the warp changes, no register, no
counter c.*, no region count and no park state; nothing is outstanding, no trap is taken, and nothing outside the warp but what the
fetch itself keeps. -/
def Obligations.FetchPads : Prop :=
  ∀ s w s1, s.getWarp s.cur = some w → headRun w ≠ 0 → w.blocked = false → fetchAt s w = (.pad, s1) → s1.getWarp w.id = some w →
    ∃ t w', exec .fetchPad s = .next t ∧ t.getWarp w.id = some w' ∧
      (∀ l, w'.lane l = if (headRun w).getLsbD l then { w.lane l with pc := BitVec.ofNat 64 (((w.lane l).pc.toNat / 32 + 1) * 32) } else w.lane l) ∧
      w' = { w with lanes := w'.lanes } ∧ t = { s1 with warps := t.warps } ∧ OthersKept s1 t w.id

/-- R46, R58, R101, R160: a fetch that finds no instruction takes its trap for the whole run; FETCH_MISALIGNED where the counter is no multiple of 4,
and FABRIC_PATH, deferred, where no path leads to the block. -/
def Clause.FetchesThatIssueNothing : Prop :=
  (∀ s w s1 cause info d len, s.getWarp s.cur = some w → headRun w ≠ 0 → w.blocked = false → fetchAt s w = (.trap cause info d len, s1) →
    cause ≠ 0x29 → s1.getWarp w.id = some w → w.htvec ≠ 0 → w.inTrap = false →
    ∃ t w', exec .reservedOpcodeFetch s = .next t ∧ t.getWarp w.id = some w' ∧
      TrapTaken w w' cause info (headRun w) (headPc w) (headPc w + BitVec.ofNat 64 len) ∧ t = { s1 with warps := t.warps }) ∧
  (∀ s w s1 info d len, s.getWarp s.cur = some w → headRun w ≠ 0 → w.blocked = false → fetchAt s w = (.trap 0x29 info d len, s1) →
    s1.getWarp w.id = some w → TakesDeferred w (headRun w) → (∀ y, y ∈ w.outs ++ w.reads → y.tag ≠ 0) →
    ∃ t w', exec .reservedOpcodeFetch s = .next t ∧ t.getWarp w.id = some w' ∧ DeferredTaken w w' 0x29 info.toNat (headRun w) (headPc w) ∧
      NoRegister w w' ∧ t = { s1 with warps := t.warps }) ∧
  ∀ s w, s.getWarp s.cur = some w → headRun w ≠ 0 → w.blocked = false → (headPc w).toNat % 4 ≠ 0 → w.htvec ≠ 0 → w.inTrap = false →
    ∃ t w', exec .reservedOpcodeFetch s = .next t ∧ t.getWarp w.id = some w' ∧ TrapTaken w w' 0x03 0 (headRun w) (headPc w) (headPc w) ∧
      t = { s with warps := t.warps }

/-- R92, R385: PAGE_FAULT: the faulting lanes are held, their results of that instruction are outstanding no more, and the fault stands in the
list of the die that walked, with its access kind, the lanes, the address, the level and the ASID of the access; no register has changed. -/
def Clause.PageFaultsHoldLanes : Prop :=
  ∀ s k tag w o l va lv fs, s.getWarp k = some w → (w.outs ++ w.reads).find? (fun y => y.tag == tag) = some o →
    faultLanes (entryLates s w o) = (l, va, lv) :: fs → w.lanes.length = 32 →
    let m := laneSet (((l, va, lv) :: fs).map (·.1))
    m &&& exitedOf w = 0 →
    ∃ t w', exec (.pageFault k tag) s = .next t ∧ t.getWarp k = some w' ∧ NoRegister w w' ∧
      (∀ j, j < 32 → m.getLsbD j = true → (w'.lane j).st = .held .fault) ∧
      (∀ y, y ∈ w'.outs → y.tag = tag → y.lanes &&& m = 0) ∧
      let by_ := walkBy s (s.warpCore w) o.asid va.toNat (readKind o.res)
      ∃ f, f ∈ (t.getDie by_.1).faults ∧ f.who = .lanes k m ∧ f.kind = by_.2 ∧ f.va = va ∧ f.level = lv ∧ f.asid = o.asid ∧ f.ctx = s.warpCtx w

/-- R162: DEFERRED_TRAP: a pending trap is taken when none is in progress, with DEF as its kind has it; a refused access of the oldest instruction takes MEM_PROTECT,
deferred, in its lanes. -/
def Clause.DeferredTrapsAreTaken : Prop :=
  (∀ s k w p ps, s.getWarp k = some w → oldestLate s w = none → w.pend = p :: ps → (∀ q, q ∈ w.pend → q.double = false) → w.inTrap = false → w.htvec ≠ 0 → p.lanes ≠ 0 →
    ∃ t w', exec (.deferredTrap k) s = .next t ∧ t.getWarp k = some w' ∧ w'.pend = ps ∧ w'.inTrap = true ∧ w'.hmask = p.lanes ∧ w'.hpc = p.pc ∧
      w'.hcause = BitVec.ofNat 32 (p.cause.toNat + 2 ^ 8 * p.deferred.toNat + 2 ^ 16 * p.info.toNat) ∧
      (∀ l, l < w.lanes.length → p.lanes.getLsbD l = true → (w'.lane l).pc = w.htvec ∧ (w'.lane l).st = .ready) ∧ NoRegister w w' ∧
      t = { s with warps := t.warps }) ∧
  ∀ s k w tr l i fs, s.getWarp k = some w → oldestLate s w = some tr → hasErr tr.fails = false → denyLanes tr.fails = (l, i) :: fs → i ≠ 0xFFFF →
    w.stores.find? (fun p => p.tag == tr.tag) = none →
    let m := laneSet (((l, i) :: fs).map (·.1))
    TakesDeferred w m →
    ∃ t w', exec (.deferredTrap k) s = .next t ∧ t.getWarp k = some w' ∧ DeferredTaken w w' 0x11 i.toNat m tr.pc ∧ NoRegister w w' ∧
      (∀ y, y ∈ w'.outs → y.tag = tr.tag → y.lanes &&& m = 0) ∧ t.mem = s.mem

/-- R93, R386: FQACK_RESUME: the fault is resolved and its lanes are ready at their region entry counters; FQACK_END: the context of the fault
ends by containment. R385, R389: a new TAIL lets the waiting fault into the queue once its record can be written: at HEAD, HEAD and the sequence number one on. -/
def Clause.FaultQueueWrites : Prop :=
  (∀ s die seq f k m w, (s.getDie die).faults.find? (fun f => f.seq == some seq) = some f → f.who = .lanes k m → s.getWarp k = some w → w.inTrap = false →
    w.pend = [] → (∃ l, l < 32 ∧ l < w.lanes.length ∧ m.getLsbD l = true ∧ (w.lane l).st = .held .fault) → (∀ d, d ∈ s.dies → ∀ g, g ∈ d.faults → d.id ≠ die ∨ g ≠ f → ∀ n, g.who ≠ .lanes k n) →
    ∃ t w', exec (.fqackResume die seq) s = .next t ∧ t.getWarp k = some w' ∧ NoRegister w w' ∧ (∀ g, g ∈ (t.getDie die).faults → g ≠ f) ∧
      t.mem = s.mem ∧ ∀ l, l < 32 → l < w.lanes.length → m.getLsbD l = true → (w.lane l).st = .held .fault →
        (w'.lane l).st = .ready ∧ (w'.lane l).pc = (w.lane l).rgn) ∧
  (∀ s die seq f r, (s.getDie die).faults.find? (fun f => f.seq == some seq) = some f → s.getRegion r.handle = some r → r.ctx = f.ctx → r.status = 0 →
    ∃ t, exec (.fqackEnd die seq) s = .next t ∧ (t.getRegion r.handle).map (·.status) = some 2 ∧ (∀ g, g ∈ (t.getDie die).faults → g ≠ f) ∧
      ∀ y, y ∈ t.wgs → ∀ g, g ∈ s.gangs → g.id = y.gang → g.region ≠ r.handle) ∧
  (∀ s die v f, (s.getDie die).faults = [f] → f.seq = none → (s.getDie die).fqhead + 1 ≠ BitVec.setWidth 8 v →
    let d := s.getDie die
    let a := bitsAt d.fqbase.toNat 9 39 * 512 + 512 * d.fqhead.toNat
    (∀ k, k < 4 → physReady s (a + 128 * k) = true) →
    ∃ t, exec (.faultQueueTailWrite die v) s = .next t ∧ (t.getDie die).fqtail = BitVec.setWidth 8 v ∧ (t.getDie die).fqhead = d.fqhead + 1 ∧
      (t.getDie die).fqseq = d.fqseq + 1 ∧ (t.getDie die).faults = [{ f with seq := some d.fqseq }] ∧
      t.load a 512 = faultRecord f d.fqseq ∧ (∀ k, k < a ∨ a + 512 ≤ k → Memory.read t.mem k = Memory.read s.mem k) ∧ t.warps = s.warps) ∧
  ∀ s die v, (∀ f, f ∈ (s.getDie die).faults → f.seq ≠ none) →
    exec (.faultQueueTailWrite die v) s = .next (s.modDie die fun d => { d with fqtail := BitVec.setWidth 8 v })

/-- R46, R58, R92, R93, R162, R385, R386: the events of fetches, faults and deferred traps. -/
def Obligations.FaultEvents : Prop :=
  Clause.FetchesThatIssueNothing ∧ Clause.PageFaultsHoldLanes ∧ Clause.DeferredTrapsAreTaken ∧ Clause.FaultQueueWrites

/-! ## The cask layer, failed cores, coherence (R271 to R295, R304 to R322, R388 to R394) -/

/-- Every live region of a context has been halted. -/
abbrev ContextEnded (s t : State) (ctx : Nat) : Prop :=
  ∀ r, s.getRegion r.handle = some r → r.ctx = ctx → r.status = 0 → (t.getRegion r.handle).map (·.status) = some 2

/-- R270, R278, R279, R283, R285, R287: the registers of the cluster page. A write of WPR that a condition of R278 refuses sets ERR and the lowest
code of those that hold, and leaves WPR; an accepted one writes WPR and begins phase 1, with the counts of WBC at 0. -/
def Clause.ClusterRegisters : Prop :=
  (∀ s c v, let x := s.getCluster c
    let role (k : Nat) : Nat := v.toNat / 4 ^ k % 4
    let count (r : Nat) : Nat := ((List.range 16).filter fun k => role k == r).length
    ∃ t, exec (.wprWrite c v) s = .next t ∧ t = { s with clusters := t.clusters } ∧ (∀ k, k ≠ c → t.getCluster k = s.getCluster k) ∧
      t.getCluster c =
        if x.busy then { x with err := true, ecode := 1 }
        else if 8 < count 2 then { x with err := true, ecode := 2 }
        else if count 0 < 4 then { x with err := true, ecode := 3 }
        else if 0 < count 3 then { x with err := true, ecode := 4 }
        else if (List.range 16).any fun k => role k == 2 && !x.healthy.getLsbD k then { x with err := true, ecode := 5 }
        else { x with wpr := v, oldWpr := x.wpr, busy := true, phase := 1, wbDirty := 0, invClean := 0, rdcDrop := 0, fenced := false }) ∧
  (∀ s c, ∃ t, exec (.wpsErrClear c) s = .next t ∧ t.getCluster c = { s.getCluster c with err := false } ∧ t = { s with clusters := t.clusters } ∧
    ∀ k, k ≠ c → t.getCluster k = s.getCluster k) ∧
  (∀ s c v, ∃ t, exec (.csoWrite c v) s = .next t ∧ t.getCluster c = { s.getCluster c with cso := v.setWidth 16 } ∧
    t = { s with clusters := t.clusters } ∧ ∀ k, k ≠ c → t.getCluster k = s.getCluster k) ∧
  (∀ s c, ∃ t, exec (.csvValidClear c) s = .next t ∧ (t.getCluster c).csv.toNat = (s.getCluster c).csv.toNat % 2 ^ 63 ∧
    t = { s with clusters := t.clusters } ∧ ∀ k, k ≠ c → t.getCluster k = s.getCluster k) ∧
  ∀ s c asid line, (∀ e, e ∈ (s.getCluster c).filter → e.mask ≠ 0) →
    ∃ t, exec (.snoopProbe c asid line) s = .next t ∧ t = { s with clusters := t.clusters } ∧
      (t.getCluster c).filter = (s.getCluster c).filter ∧
      if (s.getCluster c).filter.any fun e => (e.asid == asid || e.asid == 0) && e.line == line then
        (t.getCluster c).forwarded = (s.getCluster c).forwarded + 1 ∧ (t.getCluster c).filtered = (s.getCluster c).filtered
      else (t.getCluster c).filtered = (s.getCluster c).filtered + 1 ∧ (t.getCluster c).forwarded = (s.getCluster c).forwarded

/-- The copies of other dies' and packages' lines that some portions, slice and way, of a cluster's RDC ways hold. -/
abbrev RdcIn (s : State) (c : CluId) (p : Nat → Nat → Bool) : Nat :=
  let here (asid line way : Nat) : Bool := homeCluster asid (regionOfLine line) == c.clu && p (lineSlice asid line) way
  (s.leases.filter fun l => l.die == c.die && here l.asid l.line l.way).length +
    (s.farLines.filter fun l => l.die == c.die && here l.asid l.line l.way).length

/-- Those portions are empty afterwards, and WBC has counted every line that was in them, by what became of it (R280). -/
abbrev Released (s t : State) (c : CluId) (p : Nat → Nat → Bool) : Prop :=
  let x := s.getCluster c
  let y := t.getCluster c
  let gone := x.lines.filter fun e => p (lineSlice e.asid e.line) e.way
  y.lines = (x.lines.filter fun e => !p (lineSlice e.asid e.line) e.way) ∧ y.wbDirty = x.wbDirty + (gone.filter (·.dirty)).length ∧
    y.invClean = x.invClean + (gone.filter fun e => !e.dirty).length ∧ y.rdcDrop = x.rdcDrop + RdcIn s c p ∧ RdcIn t c p = 0

/-- R280: the three phases end one after another: phase 1 fences the limit at the leading scratch MiBs that keep their way, and ends when
every access above the fence is performed; the release empties the ways that leave a role, counted in WBC, and the end of phase 3
leaves every scratch MiB zero that is not served by the same way as before, the limit at the scratch ways of WPR, SWAYS at their number and BUSY clear. -/
def Clause.WayTransition : Prop :=
  (∀ a b : List Nat, let p := preserved a b
    a.take p = b.take p ∧ ∀ x y, a[p]? = some x → b[p]? = some y → x ≠ y) ∧
  (∀ s c, (s.getCluster c).phase = 1 → (s.getCluster c).fenced = false → let x := s.getCluster c
    ∃ t, exec (.wprDrainDone c) s = .next t ∧ t = { s with clusters := t.clusters } ∧
      t.getCluster c = { x with limit := 0x08000000 + preserved (scratchWays x.oldWpr) (scratchWays x.wpr) * 0x00100000, fenced := true }) ∧
  (∀ s c, (s.getCluster c).phase = 1 → (s.getCluster c).fenced = true → drainedAbove s c = true →
    ∃ t, exec (.wprDrainDone c) s = .next t ∧ t.getCluster c = { s.getCluster c with phase := 2 } ∧ t = { s with clusters := t.clusters }) ∧
  (∀ s c, (s.getCluster c).phase = 2 → let x := s.getCluster c
    let gone (way : Nat) : Bool := (List.range 16).any fun k => (scratchWays x.oldWpr)[k]? == some way && (scratchWays x.wpr)[k]? != some way
    ∃ t, exec (.wprReleaseDone c) s = .next t ∧ Released s t c (fun _ k => (leaving x 0).contains k || (leaving x 1).contains k) ∧
      (t.getCluster c).phase = 3 ∧ (t.getCluster c).busy = x.busy ∧ (t.getCluster c).limit = x.limit ∧ (t.getCluster c).wpr = x.wpr ∧
      (∀ j, sget 0 (t.getCluster c).cask j = if gone (j / 2 ^ 20) then 0 else sget 0 x.cask j) ∧ t.mem = s.mem) ∧
  ∀ s c, (s.getCluster c).phase = 3 → let x := s.getCluster c
    let n := (scratchWays x.wpr).length
    let new (way : Nat) : Bool := (List.range 16).any fun k => (scratchWays x.wpr)[k]? == some way && (scratchWays x.oldWpr)[k]? != some way
    ∃ t, exec (.wprEnableDone c) s = .next t ∧
      t.getCluster c = { x with busy := false, phase := 0, limit := 0x08000000 + n * 0x00100000, sways := BitVec.ofNat 4 n, cask := (t.getCluster c).cask } ∧
      (∀ j, sget 0 (t.getCluster c).cask j = if new (j / 2 ^ 20) then 0 else sget 0 x.cask j) ∧
      t = { s with clusters := t.clusters }

/-- R293: a failing way of a slice: the spare takes its place, at once for a cache role, after a copy for scratch, of which nothing is lost;
with the spare in use the portion is disabled, and a scratch way's owner is halted. The HEALTHY bit clears in every case. -/
def Clause.WaysFail : Prop :=
  (∀ s c sl way, sl < 32 → way < 16 → let x := s.getCluster c
    (∀ p, p ∈ x.spares → p.1 ≠ sl) → x.disabled.contains (sl, way) = false → x.copying.contains (sl, way) = false →
    ∃ t, exec (.caskWayFailure c sl way) s = .next t ∧ (t.getCluster c).healthy.getLsbD way = false ∧
      (∀ k, k ≠ way → (t.getCluster c).healthy.getLsbD k = x.healthy.getLsbD k) ∧ (t.getCluster c).spares = x.spares ++ [(sl, way)] ∧
      (t.getCluster c).cask = x.cask ∧ (t.getCluster c).disabled = x.disabled ∧ t.degraded = true ∧ t.mem = s.mem ∧
      if roleOf x.wpr way = 2 then (t.getCluster c).copying = x.copying ++ [(sl, way)]
      else (t.getCluster c).copying = x.copying ∧ Released s t c (fun i k => i == sl && k == way)) ∧
  (∀ s c sl way, ∃ t, exec (.spareWayCopyDone c sl way) s = .next t ∧ t = { s with clusters := t.clusters } ∧
    t.getCluster c = { s.getCluster c with copying := (t.getCluster c).copying } ∧
    ∀ p, p ∈ (t.getCluster c).copying ↔ p ∈ (s.getCluster c).copying ∧ p ≠ (sl, way)) ∧
  ∀ s c sl way, sl < 32 → way < 16 → let x := s.getCluster c
    (∃ p, p ∈ x.spares ∧ p.1 = sl) → x.disabled.contains (sl, way) = false → x.copying.contains (sl, way) = false →
    ∃ t, exec (.caskWayFailure c sl way) s = .next t ∧ (t.getCluster c).healthy.getLsbD way = false ∧
      (t.getCluster c).disabled = x.disabled ++ [(sl, way)] ∧ t.degraded = true ∧
      (roleOf x.wpr way = 2 → x.cso ≠ 0 → ContextEnded s t x.cso.toNat) ∧ (roleOf x.wpr way ≠ 2 → t.mem = s.mem ∧ t.regions = s.regions)

/-- The core holds no byte that its homes have not (R180, R187). -/
abbrev CoreClean (s : State) (c : CoreId) : Prop :=
  (∀ x, x ∈ (s.getCore c).kiln → dirtyOf x.bytes = []) ∧ ∀ x, x ∈ (s.getCore c).nc → dirtyOf x.bytes = []

/-- R271, R294, R295: a failed core's gangs are saved where their state can be read and their contexts halted where it cannot, and with them
the contexts whose dirty bytes its kiln held; once no gang is on it physical core 8 serves its index, or nothing does when the spare is
used or has failed itself; a core 8 that fails unused never will. An uncorrectable error of data halts its context, one of a page-table entry every context of its ASID; one of a
snoop filter entry without dirty copies makes the copies absent. -/
def Clause.CoresFail : Prop :=
  (∀ s c phys k, k < 8 → physOf (s.getCluster c) k = phys → (∀ j, j < k → physOf (s.getCluster c) j ≠ phys) → phys < 9 →
    gangsOn s ⟨c.die, c.clu, k⟩ = [] → CoreClean s ⟨c.die, c.clu, k⟩ → ∀ readable, let m := (s.getCluster c).cmap
    ∃ t, exec (.coreRetire c phys readable) s = .next t ∧ t.degraded = true ∧ t.mem = s.mem ∧
      (∀ j, j < 8 → physOf (t.getCluster c) j = if j = k then (if m.getLsbD 41 || m.getLsbD 40 then 15 else 8) else physOf (s.getCluster c) j) ∧
      (t.getCluster c).cmap.getLsbD 41 = (m.getLsbD 41 || !m.getLsbD 40) ∧ ∀ j, j < 9 → (t.getCluster c).cmap.getLsbD (32 + j) = (m.getLsbD (32 + j) || decide (j = phys))) ∧
  (∀ s c readable, (∀ k, k < 8 → physOf (s.getCluster c) k ≠ 8) →
    ∃ t, exec (.coreRetire c 8 readable) s = .next t ∧ t = { s with clusters := t.clusters, degraded := true } ∧
      t.getCluster c = { s.getCluster c with cmap := (s.getCluster c).cmap ||| (1#64 <<< 40) }) ∧
  (∀ s c phys k, k < 8 → physOf (s.getCluster c) k = phys → (∀ j, j < k → physOf (s.getCluster c) j ≠ phys) →
    gangsOn s ⟨c.die, c.clu, k⟩ ≠ [] →
    (∃ t, exec (.coreRetire c phys true) s = .next t ∧ t.mem = s.mem ∧
      ∀ g, g ∈ gangsOn s ⟨c.die, c.clu, k⟩ → g.st = .running → (t.getGang g.id).map (fun y => (y.st, y.action)) = some (.preempting, .save)) ∧
    ∃ t, exec (.coreRetire c phys false) s = .next t ∧
      ∀ g r, g ∈ gangsOn s ⟨c.die, c.clu, k⟩ → s.getRegion g.region = some r → ContextEnded s t r.ctx) ∧
  (∀ s c phys k, k < 8 → physOf (s.getCluster c) k = phys → (∀ j, j < k → physOf (s.getCluster c) j ≠ phys) →
    ∃ t, exec (.coreRetire c phys false) s = .next t ∧ ∀ ctx, ctx ∈ dirtyCtxs s ⟨c.die, c.clu, k⟩ → ContextEnded s t ctx) ∧
  (∀ s asid, ∃ t, exec (.uncorrectableError (.tableEntry asid)) s = .next t ∧
    ∀ r, r ∈ s.regions → r.status = 0 → r.asid.toNat = asid → ContextEnded s t r.ctx) ∧
  (∀ s ctx, ∀ e, e = ErrAt.data ctx ∨ e = .caskLine ctx ∨ (∃ r n, e = .wortLine ctx r n) →
    ∃ t, exec (.uncorrectableError e) s = .next t ∧ ContextEnded s t ctx) ∧
  ∀ s c asid line, dirtyIn s (fun k => cluOf k == c) asid line = false → (∀ k, k ∈ s.cores → ∀ y, y ∈ k.l1 → y.line = line → y.asid = asid) →
    ∃ t, exec (.uncorrectableError (.filterEntry c asid line)) s = .next t ∧ t.mem = s.mem ∧
      ∀ k y, k < 8 → y ∈ (t.getCore ⟨c.die, c.clu, k⟩).l1 → ¬(y.asid = asid ∧ y.line = line)

/-- R270, R271, R278 to R280, R283, R285, R287, R293 to R295: the cask layer and the failures of ways and cores. -/
def Obligations.CaskLayerEvents : Prop := Clause.ClusterRegisters ∧ Clause.WayTransition ∧ Clause.WaysFail ∧ Clause.CoresFail

/-- The line's sets in the requester's L1 and in its cluster's filter have room for one more, and the line stands under one tag wherever it stands. -/
abbrev HasRoom (s : State) (c : CoreId) (ln : L1Line) : Prop :=
  ((s.getCore c).l1.filter fun y => l1Set y.asid y.line == l1Set ln.asid ln.line).length +
      ((s.getCore c).nc.filter fun y => l1Set y.asid y.line == l1Set ln.asid ln.line).length < 8 ∧
    ((s.getCluster (cluOf c)).filter.filter fun e => filterSet e.line == filterSet ln.line).length < 16 ∧ c.clu < 16 ∧
    ∀ k, k ∈ s.cores → ∀ y, y ∈ k.l1 → y.line = ln.line → y.asid = ln.asid

/-- R309 and R388 for a load of a line of the die: each holder's state as the table has it, and the requester in S, or in E when nobody
holds the line, here or under a lease elsewhere. -/
abbrev LoadGranted (s t : State) (c : CoreId) (ln : L1Line) : Prop :=
  (∃ y, y ∈ (t.getCore c).l1 ∧ y.asid = ln.asid ∧ y.line = ln.line ∧ y.pa = ln.pa ∧
    y.st = if (holdersOf s c.die ln.asid ln.line).isEmpty && noLeaseOut s ln.asid ln.line ln.pa then .e else .s) ∧
  (∀ k, k.die = c.die → k ≠ c → (t.getCore k).l1 = (s.getCore k).l1.map fun y =>
    if y.asid = ln.asid ∧ y.line = ln.line then { y with st := match y.st with | .m => .o | .o => .o | _ => .s } else y) ∧
  (presence (t.getDie c.die) ln.asid (regionOfLine ln.line)).getLsbD c.clu = true ∧ t.mem = s.mem

/-- R309 for a store: the requester in M, no other copy on the die, and the frame's write record set (R393). -/
abbrev StoreGranted (s t : State) (c : CoreId) (ln : L1Line) : Prop :=
  (∃ y, y ∈ (t.getCore c).l1 ∧ y.asid = ln.asid ∧ y.line = ln.line ∧ y.st = .m) ∧
  (∀ k, k.die = c.die → k ≠ c → ∀ y, y ∈ (t.getCore k).l1 → ¬(y.asid = ln.asid ∧ y.line = ln.line)) ∧
  (presence (t.getDie c.die) ln.asid (regionOfLine ln.line)).getLsbD c.clu = true ∧
  sget false (t.getDie (ln.pa / 2 ^ 36 % 16)).written (ln.pa / 4096) = true ∧ t.mem = s.mem

/-- R307 to R311, R313: requests at the home die, which translates the line's address (`askedLine`, with its TLB and A bits in `u`). With no other cluster present the home answers at once, counted in P2P; else a probe
record is queued on the region's bus, counted in BUSREQ. With the line granted for a store, the access that waited for it goes on in the same
step (R310). A cluster that holds no line of a region any more leaves its mask, and a dirty
line that is evicted leaves its frame recorded. -/
def Clause.RequestsServed : Prop :=
  (∀ s u die asid region a l0 ln, wanted s die false (inRegion asid region) = some (a, l0) → askedLine s false a = (some ln, u) →
    a.acc.core.die = die → homeOf ln = die →
    (dirOf (u.getDie die) ln.asid ln.line).owner = none → recallVictim (u.getDie die) ln.asid (regionOfLine ln.line) = none →
    (∀ q, q ∈ (u.getDie die).reqs → q.onBus = false) → HasRoom u a.acc.core ln →
    presence (u.getDie die) ln.asid (regionOfLine ln.line) &&& ~~~ (1#16 <<< a.acc.core.clu) = 0 →
    ∃ t, exec (.getS die asid region) s = .next t ∧ LoadGranted u t a.acc.core ln ∧ (t.getDie die).p2p = (u.getDie die).p2p + 1) ∧
  (∀ s u die asid region a l0 ln, wanted s die false (inRegion asid region) = some (a, l0) → askedLine s false a = (some ln, u) →
    a.acc.core.die = die → homeOf ln = die → a.pref = false →
    (dirOf (u.getDie die) ln.asid ln.line).owner = none → recallVictim (u.getDie die) ln.asid (regionOfLine ln.line) = none →
    (∀ q, q ∈ (u.getDie die).reqs → q.onBus = false) → (u.getDie die).buses.length = 8 →
    presence (u.getDie die) ln.asid (regionOfLine ln.line) &&& ~~~ (1#16 <<< a.acc.core.clu) ≠ 0 →
    let r : Req := ⟨.getS, a.acc.core, ln, true, waysFor u (askCtx u a)⟩
    let b := homeBus ln.asid (regionOfLine ln.line)
    ∃ t, exec (.getS die asid region) s = .next t ∧ t = { u with dies := t.dies } ∧ (t.getDie die).reqs = (u.getDie die).reqs ++ [r] ∧
      (t.getDie die).busreq = (u.getDie die).busreq + 1 ∧
      (busOf (t.getDie die) b).queue = (busOf (u.getDie die) b).queue ++
        [(homeCluster ln.asid (regionOfLine ln.line), .probe r)]) ∧
  (∀ s u die asid region a l0 ln, wanted s die true (inRegion asid region) = some (a, l0) → askedLine s true a = (some ln, u) →
    a.acc.core.die = die → homeOf ln = die →
    sealedPa u ln.pa = false → dirClear (dirOf (u.getDie die) ln.asid ln.line) = true → (dirOf (u.getDie die) ln.asid ln.line).owner = none →
    (dirOf (u.getDie die) ln.asid ln.line).pending = false → (∀ l, l ∈ u.leases → l.line ≠ ln.line) →
    recallVictim (u.getDie die) ln.asid (regionOfLine ln.line) = none → (∀ q, q ∈ (u.getDie die).reqs → q.onBus = false) → HasRoom u a.acc.core ln →
    presence (u.getDie die) ln.asid (regionOfLine ln.line) &&& ~~~ (1#16 <<< a.acc.core.clu) = 0 →
    ∃ t, StoreGranted u t a.acc.core ln ∧
      exec (if (l1Find (s.getCore a.acc.core) ln.asid ln.line).isSome then .upg die asid region else .getM die asid region) s =
        .next (visibleNow t a.acc.core ln.line)) ∧
  (∀ s c asid region, (∀ k, k ∈ s.cores → cluOf k.id = c → ∀ y, y ∈ k.l1 → ¬(y.asid = asid ∧ regionOfLine y.line = region)) →
    (∀ e, e ∈ (s.getDie c.die).regions → e.mask ≠ 0) →
    ∃ t, exec (.regionRelease c asid region) s = .next t ∧ (presence (t.getDie c.die) asid region).getLsbD c.clu = false ∧
      (∀ a r, ¬(a = asid ∧ r = region) → presence (t.getDie c.die) a r = presence (s.getDie c.die) a r) ∧ t = { s with dies := t.dies }) ∧
  ∀ s c asid line ln, wortAt s asid (line * 128) = none → l1Find (s.getCore c) asid line = some ln → ln.st = .m ∨ ln.st = .o →
    ∃ t, exec (.lineWriteback c asid line) s = .next t ∧ (∀ y, y ∈ (t.getCore c).l1 → ¬(y.asid = ln.asid ∧ y.line = line)) ∧
      sget false (t.getDie (ln.pa / 2 ^ 36 % 16)).written (ln.pa / 4096) = true ∧ t.mem = s.mem

/-- R304, R305, R306, R309, R312, R318, R319: the slots of a bus. A frame's slot takes the oldest messages of its group, up to eight probe records
or one line message; a void takes every later slot of the group with it, idle ones too, puts the messages back in order and counts the
slots, and with the limit of VTHR reached the group is reassigned; no void comes once a frame's decision is final, and none of a slot that is void; at frame F + 8 the messages
of F that are not void act: a probe serves its request, or decides an access that fills no L1 and leaves every copy shared; a recall empties
its region. -/
def Clause.BusSlots : Prop :=
  (∀ s die bus grp rd, bus < 8 → grp < 16 → (s.getDie die).buses.length = 8 → let x := busOf (s.getDie die) bus
    (∀ y, y ∈ x.slots → y.grp = grp → y.frame < frameNow s) → grpState x grp = .cobalt →
    x.quiet = none →
    let ms := slotLoad (x.queue.filter fun p => sendGroup x p.1 == grp)
    ∃ t, exec (.busSlotReceive die bus grp (frameNow s) rd true) s = .next t ∧ t = { s with dies := t.dies } ∧
      (busOf (t.getDie die) bus).slots = x.slots ++ [⟨frameNow s, bus, grp, ms, false⟩] ∧
      (∀ g, (busOf (t.getDie die) bus).queue.filter (fun p => sendGroup x p.1 == g) =
        if g = grp then (x.queue.filter fun p => sendGroup x p.1 == g).drop ms.length else x.queue.filter fun p => sendGroup x p.1 == g)) ∧
  (∀ l, slotLoad l <+: l ∧ (slotLoad l).length ≤ 8 ∧ (l ≠ [] → slotLoad l ≠ []) ∧
    (1 < (slotLoad l).length → ∀ m, m ∈ slotLoad l → isProbe m.2 = true)) ∧
  (∀ s die bus grp frame, bus < 8 → grp < 16 → (s.getDie die).buses.length = 8 → frame ≤ frameNow s → frameNow s < frame + 8 →
    let x := busOf (s.getDie die) bus
    let hit := x.slots.filter fun y => y.grp == grp && decide (frame ≤ y.frame)
    let n := frameNow s + 1 - frame
    x.quiet = none → (∀ y, y ∈ hit → y.frame ≤ frameNow s ∧ y.void = false) →
    ∃ t, exec (.slotVoid die bus grp frame) s = .next t ∧ t.mem = s.mem ∧ t.warps = s.warps ∧
      (∀ f, frame ≤ f → f ≤ frameNow s → ⟨f, bus, grp, [], true⟩ ∈ (busOf (t.getDie die) bus).slots) ∧
      (∀ y, y ∈ (busOf (t.getDie die) bus).slots → y.grp = grp → frame ≤ y.frame → y.void = true ∧ y.msgs = []) ∧
      ((busOf (t.getDie die) bus).slots.filter fun y => !(y.grp == grp && decide (frame ≤ y.frame))) =
        (x.slots.filter fun y => !(y.grp == grp && decide (frame ≤ y.frame))) ∧
      (busOf (t.getDie die) bus).queue = hit.flatMap (·.msgs) ++ x.queue ∧
      (busOf (t.getDie die) bus).voids = x.voids + BitVec.ofNat 16 n ∧
      (recentVoids s x grp + n < voidLimit (s.getDie die) → t = { s with dies := t.dies } ∧ (busOf (t.getDie die) bus).st = x.st) ∧
      (voidLimit (s.getDie die) ≤ recentVoids s x grp + n → x.st.length = 16 → grpState (busOf (t.getDie die) bus) grp ≠ .cobalt)) ∧
  (∀ s die bus grp frame, frame + 8 ≤ frameNow s ∨ (∃ y, y ∈ (busOf (s.getDie die) bus).slots ∧ y.grp = grp ∧ y.frame = frame ∧ y.void = true) →
    exec (.slotVoid die bus grp frame) s = .next s) ∧
  (∀ s die bus grp frame rd, (∃ y, y ∈ (busOf (s.getDie die) bus).slots ∧ y.grp = grp ∧ y.frame = frame) →
    exec (.busSlotReceive die bus grp frame rd false) s = exec (.slotVoid die bus grp frame) s) ∧
  (∀ s die f r, dueFrame s die = some f → frameMsgs (s.getDie die) f = [.probe r] → r.kind = .getS → r.core.die = die → homeOf r.ln = die →
    (dirOf (s.getDie die) r.ln.asid r.ln.line).owner = none → recallVictim (s.getDie die) r.ln.asid (regionOfLine r.ln.line) = none →
    HasRoom s r.core r.ln →
    ∃ t, exec (.busDelivery die) s = .next t ∧ LoadGranted s t r.core r.ln ∧ (∀ q, q ∈ (t.getDie die).reqs → q ≠ r) ∧
      ∀ b, b ∈ (t.getDie die).buses → ∀ y, y ∈ b.slots → y.frame ≠ f) ∧
  (∀ s die f r, dueFrame s die = some f → frameMsgs (s.getDie die) f = [.probe r] → r.kind = .look → r.core.die = die →
    (∀ k, k ∈ s.cores → ∀ y, y ∈ k.l1 → y.line = r.ln.line → y.asid = r.ln.asid) →
    ∃ t, exec (.busDelivery die) s = .next t ∧ t.mem = s.mem ∧ (r.core, r.ln.asid, r.ln.line) ∈ (t.getDie die).looked ∧
      ∀ k, k.die = die → ∀ y, y ∈ (t.getCore k).l1 → y.asid = r.ln.asid → y.line = r.ln.line → y.st = .o ∨ y.st = .s) ∧
  ∀ s die f asid region, dueFrame s die = some f → frameMsgs (s.getDie die) f = [.recall asid region] →
    (∀ k, k ∈ s.cores → ∀ y, y ∈ k.l1 → regionOfLine y.line = region → y.asid = asid) →
    ∃ t, exec (.busDelivery die) s = .next t ∧ t.mem = s.mem ∧
      (∀ k, k.die = die → ∀ y, y ∈ (t.getCore k).l1 → ¬(y.asid = asid ∧ regionOfLine y.line = region)) ∧
      (t.getDie die).regions = ((s.getDie die).regions.filter fun e => !(e.asid == asid && e.region == region)) ∧
      ∀ b, b ∈ (t.getDie die).buses → ∀ y, y ∈ b.slots → y.frame ≠ f

/-- R314: staging leaves the entry's words; a commit writes word 0 with the staged word 1, for messages from the next frame on. R318 to R322, R324:
reassignment, lost rings and fenced links. -/
def Clause.BusMaintenance : Prop :=
  (∀ s die e w1 v, e < 64 → let x := bwtOf (s.getDie die) e
    ∃ t, exec (.bwtStage die e w1 v) s = .next t ∧ t = { s with dies := t.dies } ∧
      bwtOf (t.getDie die) e = if w1 then { x with staged1 := some (v &&& 0x000007FFFFFFFFFF) } else { x with stagedHi := some (v.setWidth 32) }) ∧
  (∀ s die e v, e < 64 → bwtBusy s die e = false → let x := bwtOf (s.getDie die) e
    ∃ t, exec (.bwtCommit die e v) s = .next t ∧ t = { s with dies := t.dies } ∧ let y := bwtOf (t.getDie die) e
      y.w0 = v &&& 0x01FFFFFFFFFFF001 ∧ y.w1 = x.staged1.getD x.w1 ∧ y.staged1 = none ∧ y.stagedHi = none ∧
      (∀ f, f ≤ frameNow s → bwtWords y f = (x.w0, x.w1)) ∧ ∀ f, frameNow s < f → bwtWords y f = (y.w0, y.w1)) ∧
  (∀ s die bus grp p rest, bus < 8 → grp < 16 → (s.getDie die).buses.length = 8 → let x := busOf (s.getDie die) bus
    x.st.length = 16 → grpState x grp = .cobalt → spareGroups x = p :: rest →
    ∃ t, exec (.groupReassignStart die bus grp) s = .next t ∧ let y := busOf (t.getDie die) bus
      grpState y grp = .amber ∧ (grp, p) ∈ y.tuning ∧ y.phys = x.phys ∧ y.queue = x.queue ∧ ∀ g, g ≠ grp → grpState y g = grpState x g) ∧
  (∀ s die bus grp, bus < 8 → grp < 16 → (s.getDie die).buses.length = 8 → let x := busOf (s.getDie die) bus
    x.st.length = 16 → grpState x grp = .cobalt → spareGroups x = [] → (∀ p, p ∈ x.proxy → p.1 ≠ grp) →
    ∃ t, exec (.groupReassignStart die bus grp) s = .next t ∧ let y := busOf (t.getDie die) bus
      grpState y grp = .slate ∧ t.degraded = true ∧ ∀ k, (meshNeighbours grp).find? (fun k => grpState x k == .cobalt) = some k →
        (grp, k) ∈ y.proxy ∧ sendGroup y grp = k ∧ y.queue = x.queue) ∧
  (∀ s die bus grp p, bus < 8 → grp < 16 → (s.getDie die).buses.length = 8 → let x := busOf (s.getDie die) bus
    x.st.length = 16 → x.phys.length = 16 → x.tuning.find? (fun t => t.1 == grp) = some (grp, p) →
    ∃ t, exec (.groupReassignLock die bus grp) s = .next t ∧ t = { s with dies := t.dies } ∧ let y := busOf (t.getDie die) bus
      grpState y grp = .cobalt ∧ y.phys[grp]? = some p ∧ (x.phys[grp]?).getD grp ∈ y.retired ∧ y.queue = x.queue) ∧
  (∀ s die bus clu, let x := s.getCluster ⟨die, clu⟩
    x.out = false → bus < 8 → (s.getDie die).buses.length = 8 →
    ∃ t, exec (.readerRingLoss die bus clu) s = .next t ∧
      ((busOf (s.getDie die) bus).quiet = none →
        ∀ y, y ∈ (busOf (t.getDie die) bus).slots → y.frame = frameNow s → y.grp < 16 → y.void = true) ∧
      if (x.rings[bus]?).getD 0 = 0 then (t.getCluster ⟨die, clu⟩).out = true ∧ ∀ k, k < 8 → physOf (t.getCluster ⟨die, clu⟩) k = 15
      else t.getCluster ⟨die, clu⟩ = { x with rings := x.rings.set bus ((x.rings[bus]?).getD 0 - 1), retuning := x.retuning ++ [(bus, frameNow s + 1)] } ∧
        (busOf (t.getDie die) bus).quiet = (busOf (s.getDie die) bus).quiet.or (some (frameNow s + 1)) ∧
        ((x.rings[bus]?).getD 0 = 1 → t.degraded = true)) ∧
  (∀ s die bus clu r, bus < 8 → (s.getDie die).buses.length = 8 →
    (s.getCluster ⟨die, clu⟩).retuning.find? (fun r => r.1 == bus) = some r →
    ∃ t, exec (.readerRingRetuned die bus clu) s = .next t ∧ t = { s with clusters := t.clusters, dies := t.dies } ∧
      t.getCluster ⟨die, clu⟩ = { s.getCluster ⟨die, clu⟩ with retuning := (s.getCluster ⟨die, clu⟩).retuning.erase r } ∧
      let x := busOf (s.getDie die) bus
      let y := busOf (t.getDie die) bus
      if t.clusters.any fun k => k.id.die == die && k.retuning.any fun r => r.1 == bus then y = x
      else y.quiet = none ∧ y.queue = x.queue ∧
        (∀ q, x.quiet = some q → y.voids = x.voids + BitVec.ofNat 16 (16 * (frameNow s + 1 - q)) ∧
          (q ≤ frameNow s → ∀ z, z ∈ y.slots → z.frame = frameNow s → z.void = true ∧ z.msgs = []))) ∧
  ∀ s die a b, ∃ t, exec (.meshLinkFence die a b) s = .next t ∧ (a, b) ∈ (t.getDie die).fencedLinks ∧ t.degraded = true ∧
    t = { s with dies := t.dies, degraded := true } ∧ (t.getDie die).buses = (s.getDie die).buses

/-- The directory of a home die holds a line under one tag. -/
abbrev OneDir (s : State) (home : Nat) (ln : L1Line) : Prop := ∀ e, e ∈ (s.getDie home).dirs → e.line = ln.line → e.asid = ln.asid

/-- R343, R344, R387 to R390: leases end LMAX after the home's clock and are listed, with an RDC way for the
copy, without which there is none; a renewal sets a new end; an expired copy is absent; an
acknowledgement is recorded, and an entry that its home evicts goes with its last holder; a write waits while a holder is left, and then makes the other die the line's owner. -/
def Clause.LeasesAndOwners : Prop :=
  (∀ s die ln a asid line, die < 16 → wanted s die false (isLine asid line) = some (a, ln) → homeOf ln ≠ die → leasesFlow s ln.asid ln.line ln.pa = true →
    leaseHolds s die ln.asid ln.line = false → (dirOf (s.getDie (homeOf ln)) ln.asid ln.line).owner = none → OneDir s (homeOf ln) ln →
    let known := (s.leases.find? fun x => x.die == die && x.asid == ln.asid && x.line == ln.line).map (·.way)
    match known.or (rdcWay s die ln.asid ln.line (waysFor s (askCtx s a))) with
    | none => exec (.leaseGrant die asid line) s = .next s
    | some k =>
    let e := s.clock + BitVec.ofNat 64 (leaseTicks (s.getDie (homeOf ln)))
    ∃ t, exec (.leaseGrant die asid line) s = .next t ∧ ⟨die, ln.asid, ln.line, e, ln.pa, k⟩ ∈ t.leases ∧
      (dirOf (t.getDie (homeOf ln)) ln.asid ln.line).dies.getLsbD die = true ∧
      e.toNat ≤ (dirOf (t.getDie (homeOf ln)) ln.asid ln.line).dieExp.toNat ∧ t.mem = s.mem) ∧
  (∀ s die asid line l, die < 16 → s.leases.find? (fun x => x.die == die && x.asid == asid && x.line == line) = some l →
    leasesFlow s asid line l.pa = true → s.clock.toNat < l.expiry.toNat →
    l.expiry.toNat < s.clock.toNat + leaseTicks (s.getDie (l.pa / 2 ^ 36 % 16)) / 4 →
    ∃ t, exec (.leaseRenewal die asid line) s = .next t ∧ t.mem = s.mem ∧
      ⟨die, asid, line, s.clock + BitVec.ofNat 64 (leaseTicks (s.getDie (l.pa / 2 ^ 36 % 16))), l.pa, l.way⟩ ∈ t.leases) ∧
  (∀ s die asid line, (∃ x, x ∈ s.leases ∧ x.die = die ∧ x.asid = asid ∧ x.line = line ∧ x.expiry.toNat ≤ s.clock.toNat + 16) →
    (∀ k, k ∈ s.cores → ∀ y, y ∈ k.l1 → y.line = line → y.asid = asid) →
    ∃ t, exec (.leaseExpiry die asid line) s = .next t ∧ (∀ x, x ∈ t.leases → ¬(x.die = die ∧ x.asid = asid ∧ x.line = line)) ∧
      (∀ k, k.die = die → ∀ y, y ∈ (t.getCore k).l1 → ¬(y.asid = asid ∧ y.line = line)) ∧ t.mem = s.mem) ∧
  (∀ s die asid line home, die < 16 → dirDie s asid line = some home → (dirOf (s.getDie home) asid line).pending = true →
    ∃ t, exec (.invalidationAck die asid line) s = .next t ∧ (dirOf (t.getDie home) asid line).acked.getLsbD die = true ∧
      (∀ x, x ∈ t.leases → ¬(x.die = die ∧ x.asid = asid ∧ x.line = line)) ∧ t.mem = s.mem) ∧
  (∀ s die asid line home, die < 16 → dirDie s asid line = some home → let x := dirOf (s.getDie home) asid line
    x.pending = false → sealedPa s x.pa = false → x.owner = none → holdersGone s { x with acked := x.acked ||| (1#16 <<< die) } = true →
    ∃ t, exec (.invalidationAck die asid line) s = .next t ∧ dirClear (dirOf (t.getDie home) asid line) = true ∧
      (∀ y, y ∈ t.leases → ¬(y.die = die ∧ y.asid = asid ∧ y.line = line)) ∧ t.mem = s.mem) ∧
  (∀ s asid line d a ln, (List.range 16).findSome? (fun d => (wanted s d true (isLine asid line)).map fun p => (d, p.1, p.2)) = some (d, a, ln) →
    homeOf ln ≠ d → sealedPa s ln.pa = false → writeComing s (homeOf ln) ln.asid ln.line = false → OneDir s (homeOf ln) ln →
    let x := dirOf (s.getDie (homeOf ln)) ln.asid ln.line
    x.owner = none → dirClear x = true ∨ holdersGone s x = true →
    ∃ t, exec (.homeWriteGrant asid line) s = .next t ∧ let y := dirOf (t.getDie (homeOf ln)) ln.asid ln.line
      y.owner = some d ∧ y.pending = false ∧ dirClear y = true ∧ sget false (t.getDie (homeOf ln)).written (ln.pa / 4096) = true ∧ t.mem = s.mem) ∧
  ∀ s asid line d a ln, (List.range 16).findSome? (fun d => (wanted s d true (isLine asid line)).map fun p => (d, p.1, p.2)) = some (d, a, ln) →
    homeOf ln ≠ d → sealedPa s ln.pa = false → writeComing s (homeOf ln) ln.asid ln.line = false → OneDir s (homeOf ln) ln →
    let x := dirOf (s.getDie (homeOf ln)) ln.asid ln.line
    x.owner = none → dirClear x = false → holdersGone s x = false →
    ∃ t, exec (.homeWriteGrant asid line) s = .next t ∧ (dirOf (t.getDie (homeOf ln)) ln.asid ln.line) = { x with pending := true, pa := ln.pa / 128 * 128 } ∧
      t = { s with dies := t.dies }

/-- R376, R394: MSEAL is written with its frame and SEAL; the seal is complete when every line of the frame is without holders, and not before;
an owned line of the frame first comes back. -/
def Clause.Seals : Prop :=
  (∀ s die frame, frame < 2 ^ 28 → ∃ t, exec (.msealSeal die frame) s = .next t ∧ t = { s with dies := t.dies } ∧
    (t.getDie die).mseal.toNat = frame * 4096 + 1 ∧ (t.getDie die).mbusy = true ∧ (t.getDie die).msealed = false) ∧
  (∀ s die frame, frame < 2 ^ 28 → (∀ d, d ∈ s.dies → ∀ f, f ∈ d.faults → f.seq ≠ none) → ∃ t, exec (.msealUnseal die frame) s = .next t ∧ t = { s with dies := t.dies } ∧
    (t.getDie die).mseal.toNat = frame * 4096 ∧ (t.getDie die).mbusy = false ∧ (t.getDie die).msealed = false) ∧
  ∀ s die, die < 16 → (s.getDie die).mbusy = true → (∀ x, x ∈ (s.getDie die).dirs → x.owner = none) →
    ((∀ x, x ∈ sealDirs (s.getDie die) → dirClear x = true ∨ holdersGone s x = true) →
      ∃ t, exec (.sealComplete die) s = .next t ∧ (t.getDie die).msealed = true ∧ (t.getDie die).mbusy = false ∧ t.mem = s.mem) ∧
    ((∃ x, x ∈ sealDirs (s.getDie die) ∧ dirClear x = false ∧ holdersGone s x = false) → exec (.sealComplete die) s = .next s)

/-- R304 to R322, R343, R344, R376, R387 to R394: coherence within the die and across the dies of the package. -/
def Obligations.CoherenceEvents : Prop :=
  Clause.RequestsServed ∧ Clause.BusSlots ∧ Clause.BusMaintenance ∧ Clause.LeasesAndOwners ∧ Clause.Seals

/-! ## The maltster (R408, R412 to R425, R429 to R433) -/

/-- R408, R415: a gang whose token word has reached its threshold, now or by an earlier write, becomes ready now; 1 ms after its ready time an
unplaced gang is starved and has the span reserved that R413 would choose, as soon as there is one. -/
def Clause.GangsBecomeReady : Prop :=
  (∀ s r g, s.getRegion r.handle = some r → r.leaf = true → r.status = 0 → g < r.eff.gangs → r.fired.contains g = false → r.eff.token ≠ 0 →
    (r.crossed.contains g = true ∨
      ∃ pa k z, translateNow s 0 r.asid.toNat false .read (r.eff.token + BitVec.ofNat 64 (g * r.eff.stride)) = .mem pa k z ∧
        r.eff.threshold ≤ s.loadNat pa 4) →
    ∃ t y, exec (.tokenCrossing r.handle g) s = .next t ∧ t.gangs = s.gangs ++ [y] ∧ y.region = r.handle ∧ y.g = g ∧ y.st = .ready ∧
      y.readyTime = s.clock ∧ (t.getRegion r.handle).map (·.fired) = some (r.fired ++ [g]) ∧
      t = { s with gangs := t.gangs, regions := t.regions, nextId := t.nextId }) ∧
  (∀ s r g, s.getRegion r.handle = some r → r.eff.token ≠ 0 → r.crossed.contains g = false →
    (∃ pa k z, translateNow s 0 r.asid.toNat false .read (r.eff.token + BitVec.ofNat 64 (g * r.eff.stride)) = .mem pa k z ∧
      s.loadNat pa 4 < r.eff.threshold) → exec (.tokenCrossing r.handle g) s = .next s) ∧
  ∀ s r y, s.getRegion r.handle = some r → s.getGang y.id = some y → s.gangs.find? (fun z => z.region == r.handle && z.g == y.g) = some y →
    y.st = .ready ∨ y.st = .saved → y.starved = false ∨ y.reserved = none → r.status = 0 → y.readyTime.toNat + 1000 * 1500 ≤ s.clock.toNat →
    ∃ t, exec (.starvation r.handle y.g) s = .next t ∧ t = { s with gangs := t.gangs } ∧
      t.getGang y.id = some { y with starved := true,
                                     reserved := if y.rotating then y.reserved else bestSpan s r fun cs =>
                                       budgetOk s r (gangsAt s cs) && cs.all fun c => unreserved s y r.eff.prio c &&
                                         coreFits s r.eff (slotsFor s y r) (gangsAt s cs) c }

/-- A gang has entered pre-empting with an action. -/
abbrev Preempting (t : State) (g : Nat) (c : Choice3) : Prop := (t.getGang g).map (fun y => (y.st, y.action)) = some (.preempting, c)

/-- R74, R182, R273, R410, R412, R413: the first gang in the order of R412 is placed on the span of R413, its members one to a core, each with its warps at
the code entry, its lanes ready and nothing outstanding; R416: where no span is free, every gang of the smallest set of victims enters
pre-empting. -/
def Clause.GangsArePlaced : Prop :=
  (∀ s y r p, let s1 := fireUntokened s
    nextGang s1 [] = some y → y.st = .ready → s1.getRegion y.region = some r → s1.getGang y.id = some y → spanFor s1 y r = some p →
    nextGang (fireUntokened (placeFresh s1 y r p)) [] = none →
    ∃ t, exec .placementEvaluation s = .next t ∧
      (t.getGang y.id).map (fun z => (z.st, z.die, z.clu, z.c0, z.recs, z.bars)) = some (.running, p.1, p.2.1, p.2.2, [], []) ∧
      (∀ m, m < r.eff.cores → ∃ g, g ∈ t.wgs ∧ g.gang = y.id ∧ g.member = m ∧ g.core = ⟨p.1, p.2.1, p.2.2 + m⟩ ∧ g.scratch = r.eff.scratch ∧
        ∀ i, i ∈ List.range r.eff.warps ++ (if r.eff.affine then [32] else []) → ∃ w, w ∈ t.warps ∧ w.wg = g.id ∧ w.idx = i) ∧
      (∀ w, w ∈ t.warps → w ∈ s.warps ∨
        (w = freshWarp w.id w.wg w.idx r.eff w.stamp ∧ w.lanes = List.replicate 32 { pc := r.eff.entry, rgn := r.eff.entry })) ∧
      t.mem = s.mem) ∧
  (∀ s y r vs p, let s1 := fireUntokened s
    nextGang s1 [] = some y → y.st = .ready → s1.getRegion y.region = some r → spanFor s1 y r = none → bestVictims s1 y r = some (vs, p) →
    tryPlace (makeRoom s1 y) (((makeRoom s1 y).getGang y.id).getD y) = none →
    (∀ v, v ∈ y.victims → ∀ z, s1.getGang v = some z → z.st ≠ .preempting ∧ z.st ≠ .draining) →
    nextGang (fireUntokened (makeRoom s1 y)) [y.id] = none → (∀ v, v ∈ vs → s1.getGang v ≠ none ∧ v ≠ y.id) →
    ∃ t, exec .placementEvaluation s = .next t ∧ ∀ v, v ∈ vs → (t.getGang v).map (·.st) = some .preempting) ∧
  ∀ e g, let near := e.expected ≠ 0 ∧ 9 * e.expected ≤ 10 * g.ret
    let flushable := e.idempotent = true ∧ e.det = false ∧ g.posted = false ∧ (e.policy = 3 ∨ (e.expected ≠ 0 ∧ 4 * g.ret < e.expected))
    (e.policy = 1 → chooseAction e g = .drain) ∧ (e.policy = 0 ∨ e.policy = 3 → near → chooseAction e g = .drain) ∧
    (e.policy = 0 ∨ e.policy = 3 → ¬near → flushable → chooseAction e g = .flush) ∧ (e.policy = 2 → e.saveArea ≠ 0 → chooseAction e g = .save) ∧
    (e.policy = 0 ∨ e.policy = 3 → ¬near → ¬flushable → chooseAction e g = if e.saveArea = 0 then .drain else .save)

/-- R414, R422 to R424, R429, R431: rotation each millisecond, at most one gang of a cluster, by the choice of R421, with the free span it found kept for it unless it drains; a drain that lasts 2 ms becomes a save; 20 µs after a save began
every warp has stopped; a flush whose copies have ended makes the gang ready again, with what it had
issued and posted; sleepers that hold up a saved gang are saved. -/
def Clause.GangsMove : Prop :=
  (∀ s, s.clock.toNat < s.rotAt.toNat + 1000 * 1500 → exec .rotationCheck s = .next s) ∧
  (∀ s, s.rotAt.toNat + 1000 * 1500 ≤ s.clock.toNat → (s.gangs.map (·.id)).Nodup → let s1 := { s with rotAt := s.clock }
    ∃ t, exec .rotationCheck s = .next t ∧ t.rotAt = s.clock ∧ t.mem = s.mem ∧
      (∀ pre y post p r, s.gangs = pre ++ y :: post → (∀ z, z ∈ pre → rotationSpan s1 z = none) → rotationSpan s1 y = some p →
        s.getRegion y.region = some r → Preempting t y.id (chooseAction r.eff y) ∧
          (chooseAction r.eff y ≠ .drain → (t.getGang y.id).map (·.reserved) = some (some p))) ∧
      ((∀ z, z ∈ s.gangs → rotationSpan s1 z = none) → t = s1) ∧
      ∀ a b, a ∈ s.gangs → b ∈ s.gangs → a.id ≠ b.id → a.st = .running → b.st = .running → a.die = b.die → a.clu = b.clu →
        ¬((t.getGang a.id).map (·.st) = some .preempting ∧ (t.getGang b.id).map (·.st) = some .preempting)) ∧
  (∀ s y r, s.getGang y.id = some y → s.getRegion y.region = some r → y.st = .preempting → y.action = .drain → r.eff.policy = 0 ∨ r.eff.policy = 3 →
    r.eff.saveArea ≠ 0 → y.actionAt.toNat + 2000 * 1500 ≤ s.clock.toNat →
    ∃ t, exec (.drainTimeout y.id) s = .next t ∧ Preempting t y.id .save ∧ (t.getGang y.id).map (·.actionAt) = some s.clock ∧
      t = { s with gangs := t.gangs, warps := t.warps }) ∧
  (∀ s y, s.getGang y.id = some y → y.st = .preempting → y.action = .save → y.actionAt.toNat + 20 * 1500 ≤ s.clock.toNat →
    ∃ t, exec (.saveStopTimeout y.id) s = .next t ∧ t = { s with warps := t.warps } ∧
      ∀ w, w ∈ t.warps → (∃ g, g ∈ s.wgs ∧ g.gang = y.id ∧ g.id = w.wg) → w.stopped = true) ∧
  (∀ s y, s.getGang y.id = some y → y.st = .preempting → y.action = .flush → (∀ c, c ∈ s.copies → ∀ w, w ∈ y.savedWgs → w.id ≠ c.wg) →
    ∃ t, exec (.flushComplete y.id) s = .next t ∧ t = { s with gangs := t.gangs } ∧
      t.getGang y.id = some { y with st := .ready, action := .none, savedWgs := y.savedWgs.map flushedGroup }) ∧
  ∀ s w y r vs, s.getWarp w.id = some w → candidate s w = true → (placeable s).filter (fun y => (tryPlace s y).isNone) = [y] →
    s.getRegion y.region = some r → y.st = .saved → hasRunning s r = true → y.victims = [] → takeEvicted s y r [] (evictOrder s r) = some vs →
    (∀ v, v ∈ vs → s.getGang v ≠ none ∧ v ≠ y.id) →
    ∃ t, exec (.lockHolderCandidate w.id) s = .next t ∧ (∀ v, v ∈ vs → Preempting t v .save) ∧ t.mem = s.mem

/-- R417 to R419, R424 to R426: a workgroup is drained once nothing of it is left; a retiring gang writes its exit records; once they stand and
its writes are visible the completion word is raised by 1 at its home; once that is done it leaves its cores, and its region is complete with
the last; a save writes the record into a slot and the gang leaves its cores. -/
def Clause.GangsEnd : Prop :=
  (∀ s g, s.getWg g.id = some g → g.draining = true → g.drained = false → groupQuiet (flushEntries s g.core fun e => e.wg == g.id) g = true →
    ∃ t, exec (.workgroupDrained g.id) s = .next t ∧ (t.getWg g.id).map (·.drained) = some true) ∧
  (∀ s y r, s.getGang y.id = some y → s.getRegion y.region = some r → y.st = .draining → (∀ g, g ∈ s.wgs → g.gang = y.id → g.drained = true) →
    (y.retire = 0 → ∃ t, exec (.gangRetire y.id) s = .next t ∧ (t.getGang y.id).map (fun z => (z.st, z.retire)) = some (.draining, 1) ∧
      MemoryOf (writeExits s r y.g 0) t ∧ t.wgs = s.wgs) ∧
    (∀ u v pa k z, y.retire = 1 → gangVisible s (gangWarps s y.id) = some u → backPending u r.asid.toNat = false → exitsPending u r y = false →
      translateHome u r.asid.toNat false .write r.eff.completion = (.mem pa k z, v) →
      ∃ t, exec (.gangRetire y.id) s = .next t ∧ (t.getGang y.id).map (fun z => (z.st, z.retire)) = some (.draining, 2) ∧
        let w : HomeWrite := { who := some (r.asid.toNat, r.eff.completion.toNat), pa := pa, bytes := leBytes 8 1, op := .add }
        MemoryOf (homeWrite v w) t ∧ homeBytes v w = leBytes 8 ((v.loadNat pa 8 + 1) % 2 ^ 64)) ∧
    (y.retire = 2 → fwPending s r.asid.toNat r.eff.completion.toNat 8 = false → r.worts = [] →
      ∃ t, exec (.gangRetire y.id) s = .next t ∧ (t.getGang y.id).map (fun z => (z.st, z.slot)) = some (.retired, none) ∧
        (∀ g, g ∈ t.wgs → g.gang ≠ y.id) ∧ t.mem = s.mem ∧
        (t.getRegion y.region).map (fun x => (x.retired, x.status)) = some (r.retired + 1, if r.retired + 1 < r.eff.gangs then r.status else 1))) ∧
  (∀ s y r k, s.getGang y.id = some y → s.getRegion y.region = some r → y.st = .preempting → y.action = .save → y.svTarget = none →
    let s0 := flushGroups s (membersOf s y)
    let u := handGang s0 (gangWarps s0 y.id)
    saveReady u r (membersOf s y) (gangWarps u y.id) = true → freeSlot u r = some k →
    ∃ t, exec (.saveComplete y.id) s = .next t ∧
      (t.getGang y.id).map (fun z => (z.st, z.slot, z.savedWarps)) =
        some (.saved, some k, (gangWarps u y.id).map fun w => { w with savedC := w.ctrs.map (·.length) }) ∧ (∀ g, g ∈ t.wgs → g.gang ≠ y.id) ∧
      (∀ w, w ∈ gangWarps u y.id → ∀ x, x ∈ t.warps → x.id ≠ w.id) ∧
      MemoryOf (writeVa u r.asid.toNat (r.eff.saveArea.toNat + k * recSize r.eff) (saveRecord u r y 0)) t) ∧
  (∀ s y r asid va by_, s.getGang y.id = some y → s.getRegion y.region = some r → y.st = .preempting → y.action = .save →
    y.svTarget = some (asid, va, by_) → let s0 := flushGroups s (membersOf s y)
    let u := handGang s0 (gangWarps s0 y.id)
    saveReady u r (membersOf s y) (gangWarps u y.id) = true →
    ∃ t, exec (.saveComplete y.id) s = .next t ∧ (t.getGang y.id).map (·.st) = some .held ∧ (∀ g, g ∈ t.wgs → g.gang ≠ y.id) ∧
      MemoryOf (writeVa u asid va.toNat (saveRecord u r y 1)) t) ∧
  ∀ s r y st, (saveRecord s r y st).take 40 =
    leBytes 2 1 ++ leBytes 2 r.ctx ++ leBytes 2 r.asid.toNat ++ leBytes 1 (choiceCode y.choice) ++ leBytes 1 st ++ leBytes 8 r.handle ++
      leBytes 4 y.g ++ leBytes 2 y.preempts ++ leBytes 1 r.eff.cores ++
      leBytes 1 (if r.eff.expected = 0 then 255 else min 255 (y.ret * 100 / r.eff.expected)) ++ leBytes 8 y.ret ++ leBytes 8 s.clock.toNat

/-- No write of the firmware waits in a state, and the homes of a ring's HEAD and of its record take the answer at once (R389, R395). -/
abbrev AnswersNow (u : State) (ring rec : Nat) : Prop :=
  (∀ q, q ∈ u.homeWrites → q.who ≠ none) ∧
    ∀ p, p ∈ lineParts (rec + 0x18) 8 ++ lineParts (rec + 1) 1 ++ lineParts (ring + 4) 4 → physReady u p.1 = true

/-- The same regions, but for the token crossings that the maltster has seen in the bytes just written (R408). -/
abbrev SameRegions (as bs : List Region) : Prop := as.map (fun r => { r with crossed := [] }) = bs.map fun r => { r with crossed := [] }

/-- The record of a ring is answered: reply, STATUS, and HEAD one further than another state has it. -/
abbrev Replied (u t : State) (ring rec status : Nat) (reply : DWord) : Prop :=
  t.loadNat (rec + 0x18) 8 = reply.toNat ∧ t.loadNat (rec + 1) 1 = status ∧ t.loadNat (ring + 4) 4 = (u.loadNat (ring + 4) 4 + 1) % 2 ^ 32

/-- R406, R407, R432, R433, R447, R460: the command ring. A launch record is accepted with the handle of the next generation, or refused with the
lowest reason; halt, query, save and load act as HALT, CTXSV and CTXLD do; a VF's record for a region of another ring is refused. -/
def Clause.CommandRing : Prop :=
  (∀ s k rec, ringRecord s k = some rec → s.loadNat rec 1 = 1 → s.launchLock = false →
    let a := BitVec.ofNat 64 (s.loadNat (rec + 8) 8)
    let asid := s.loadNat (rec + 4) 2
    let who : Launcher := { service := true, ctx := s.loadNat (rec + 2) 2, asid := asid, ring := k }
    a.toNat % 256 = 0 → canonical a = true → AnswersNow s (s.fn k).ring.toNat rec → ∀ bs, rcbBytes s asid false a = some bs →
    (∀ n ns, refusals s (rcbOf bs) who = n :: ns →
      ∃ t, exec (.launchRecord k) s = .next t ∧ Replied s t (s.fn k).ring.toNat rec 2 (BitVec.ofNat 64 (n * 2 ^ 16)) ∧ SameRegions t.regions s.regions ∧ t.gen = s.gen) ∧
    (refusals s (rcbOf bs) who = [] →
      ∃ t r, exec (.launchRecord k) s = .next t ∧ SameRegions t.regions (s.regions ++ [r]) ∧ t.gen = (s.gen + 1) % 2 ^ 32 ∧
        r.handle = who.ctx + 2 ^ 16 * t.gen ∧ r.ctx = who.ctx ∧ r.asid = BitVec.ofNat 16 asid ∧ r.status = 0 ∧ r.retired = 0 ∧ r.launchTime = s.clock ∧
        r.ring = k ∧ r.service = bitAt (rcbOf bs).flags 7 ∧ Replied s t (s.fn k).ring.toNat rec 1 (BitVec.ofNat 64 r.handle))) ∧
  (∀ s k rec, ringRecord s k = some rec → s.loadNat rec 1 = 2 → foreign s k (s.loadNat (rec + 8) 8) = false →
    let u := haltHandle s (s.loadNat (rec + 8) 8)
    AnswersNow u (s.fn k).ring.toNat rec → ∃ t reply, exec (.haltRecord k) s = .next t ∧ Replied u t (s.fn k).ring.toNat rec 1 reply ∧ SameRegions t.regions u.regions) ∧
  (∀ s k rec, ringRecord s k = some rec → s.loadNat rec 1 = 3 → foreign s k (s.loadNat (rec + 8) 8) = false →
    AnswersNow s (s.fn k).ring.toNat rec → ∃ t, exec (.queryRecord k) s = .next t ∧ SameRegions t.regions s.regions ∧
      Replied s t (s.fn k).ring.toNat rec 1 (match s.getRegion (s.loadNat (rec + 8) 8) with
        | some r => BitVec.ofNat 64 (r.status + 2 ^ 32 * r.retired)
        | none => 3)) ∧
  (∀ s k rec y r, ringRecord s k = some rec → s.loadNat rec 1 = 4 → (s.fn k).saving = false → k < s.fns.length →
    let h := s.loadNat (rec + 8) 8
    let f := s.loadNat (rec + 0x10) 8
    foreign s k h = false → gangNamed s h (f % 4096) = some y → s.getRegion h = some r → s.getGang y.id = some y → y.st = .running →
    ∃ t, exec (.saveRecord k) s = .next t ∧ Preempting t y.id .save ∧ (t.fn k).saving = true ∧ t.mem = s.mem ∧
      (t.getGang y.id).map (·.svTarget) = some (some (r.asid.toNat, BitVec.ofNat 64 (f / 4096 * 4096), 2 ^ 32 + k))) ∧
  (∀ s k rec, ringRecord s k = some rec → s.loadNat rec 1 = 5 → (s.fn k).saving = false →
    let h := s.loadNat (rec + 8) 8
    let va := s.loadNat (rec + 0x10) 8
    let asid := ((s.getRegion h).map (·.asid.toNat)).getD 0
    let owner := ringOwner k
    foreign s k h = false → va % 4096 = 0 → loadHere s owner asid (BitVec.ofNat 64 va) = true →
    let u := loadContext s owner asid (BitVec.ofNat 64 va)
    let st := leNat (vaBytes u owner asid (va + 7) 1)
    fwPending u asid (va + 7) 1 = false → vaHere u owner asid (va + 7) 1 = true →
    AnswersNow u (s.fn k).ring.toNat rec → ∃ t, exec (.loadRecord k) s = .next t ∧ Replied u t (s.fn k).ring.toNat rec (if 3 ≤ st then 2 else 1) (BitVec.ofNat 64 st)) ∧
  (∀ s k rec, ringRecord s k = some rec → k ≠ 0 → (∃ r, s.getRegion (s.loadNat (rec + 8) 8) = some r ∧ r.ring ≠ k) →
    AnswersNow s (s.fn k).ring.toNat rec →
    (s.loadNat rec 1 = 2 → ∃ t reply, exec (.haltRecord k) s = .next t ∧ Replied s t (s.fn k).ring.toNat rec 2 reply ∧ SameRegions t.regions s.regions) ∧
    (s.loadNat rec 1 = 3 → ∃ t reply, exec (.queryRecord k) s = .next t ∧ Replied s t (s.fn k).ring.toNat rec 2 reply ∧ SameRegions t.regions s.regions)) ∧
  ∀ s k v, k < s.fns.length → ∃ t, exec (.ringbaseWrite k v) s = .next t ∧ t.fn k = { s.fn k with ring := v &&& 0x0000FFFFFFFFFFC0 } ∧
    t = { s with fns := t.fns } ∧ ∀ j, j ≠ k → t.fn j = s.fn j

/-- R408, R412 to R426, R429 to R433: the maltster's steps. -/
def Obligations.MaltsterEvents : Prop :=
  Clause.GangsBecomeReady ∧ Clause.GangsArePlaced ∧ Clause.GangsMove ∧ Clause.GangsEnd ∧ Clause.CommandRing

/-! ## The package service (R396 to R401, R446 to R460) -/

/-- R396 to R401: the refresh of `sr.tar` with its hystereses, and the vertical buses: an error counts up to 4,095 and makes a repair due at the
threshold, a repair waits for a transfer that a sleeper needs, for 4 ms at most, and clears the count. -/
def Clause.CoreHealth : Prop :=
  (∀ s c kiln logic (tiers : List Nat), kiln < 256 → let x := s.getCore c
    let temp (t : Nat) : Nat := (tiers[t]?).getD 0
    let thr (t : Nat) : Bool := t != 0 && (if x.engine.thr.getLsbD t then decide (95 ≤ temp t) else decide (105 < temp t))
    ∃ t, exec (.thermalRefresh c kiln logic tiers) s = .next t ∧ t = { s with cores := t.cores } ∧ CoresKeptBut s t c ∧ let y := t.getCore c
      (∀ i, i < 5 → y.engine.thr.getLsbD i = thr i ∧ y.tar.getLsbD (18 + i) = thr i) ∧ bitsAt y.tar.toNat 8 8 = kiln ∧
      y.tar.getLsbD 16 = (if x.tar.getLsbD 16 then decide (80 ≤ kiln) else decide (85 < kiln)) ∧ y.tar.getLsbD 17 = (List.range 5).any thr ∧
      bitsAt y.tar.toNat 23 9 = 0 ∧
      (∀ m, (m = kiln ∨ m = logic ∨ ∃ i, i < 5 ∧ thr i = false ∧ m = temp i) → kiln ≤ m → logic ≤ m →
        (∀ i, i < 5 → thr i = false → temp i ≤ m) → bitsAt y.tar.toNat 0 8 = min 255 ((110 - m) * 8)) ∧
      y.half = (if x.half then !decide (kiln < 90 ∧ logic < 90 ∧ temp 0 < 90) else decide (95 < kiln ∨ 105 < logic ∨ 105 < temp 0)) ∧
      y = { x with tar := y.tar, half := y.half, engine := { x.engine with thr := y.engine.thr } }) ∧
  (∀ s c b, let x := vbusGet (s.getCore c) b
    let n := min (x.ce + 1) 4095
    let lim := min (max ((s.getCore c).vbthr.toNat % 2 ^ 16) 1) 4095
    ∃ t, exec (.vbusCorrectedError c b) s = .next t ∧ t = { s with cores := t.cores } ∧ CoresKeptBut s t c ∧
      vbusGet (t.getCore c) b = if lim ≤ n ∧ x.pend = false then { x with ce := n, pend := true, dueAt := s.clock } else { x with ce := n }) ∧
  (∀ s c b, let x := vbusGet (s.getCore c) b
    x.pend = true → x.repairing = false → x.deferAt = none → boundary s c x.dueAt = true →
    ∃ t, exec (.vbusRepair c b) s = .next t ∧ t = { s with cores := t.cores } ∧ CoresKeptBut s t c ∧
      vbusGet (t.getCore c) b = if inTransfer s c b && sleeperOn s c then { x with deferAt := some (s.clock + BitVec.ofNat 64 (4000 * 1500)) }
        else { x with repairing := true }) ∧
  (∀ s c b tm, let x := vbusGet (s.getCore c) b
    x.deferAt = some tm → tm.toNat ≤ s.clock.toNat →
    ∃ t, exec (.vbusDeferTimeout c b) s = .next t ∧ t = { s with cores := t.cores } ∧ vbusGet (t.getCore c) b = { x with repairing := true, deferAt := none }) ∧
  (∀ s c b lanes link, let x := vbusGet (s.getCore c) b
    x.repairing = true → lanes ≤ x.spare →
    ∃ t, exec (.vbusRepairComplete c b lanes link) s = .next t ∧ t.degraded = (s.degraded || x.spare == lanes) ∧ CoresKeptBut s t c ∧
      vbusGet (t.getCore c) b = { x with ce := 0, pend := false, repairing := false, deferAt := none, spare := x.spare - lanes } ∧
      t = { s with cores := t.cores, degraded := t.degraded }) ∧
  ∀ s c g r, (gangsOn s c).filter (fun g => g.st == .running) = [g] → boundaryLate s c = true → s.getGang g.id = some g → s.getRegion g.region = some r →
    ∃ t, exec (.vbusForcedBoundary c) s = .next t ∧ Preempting t g.id (chooseAction r.eff g)

/-- The outstanding service call of one lane. -/
abbrev OneCall (s : State) (k : Nat) (w : Warp) (o : Outst) (svc l : Nat) (arg : DWord) : Prop :=
  s.getWarp k = some w ∧ OnlyEntry w o ∧ o.lanes = 1#32 <<< l ∧ l < 32 ∧ ∃ bs, o.res = .wcall bs ∧ recordService bs = svc ∧ recordArg bs l = arg

/-- The reply of a call is formed: its one lane has a value, which arrives like any other (R82), and its registers read as before. -/
abbrev ReplyFormed (t : State) (k : Nat) (w : Warp) (o : Outst) (l val : Nat) : Prop :=
  ∃ w', t.getWarp k = some w' ∧
    w' = { w with outs := w.outs.map fun q => if q == o then { q with res := .values [(l, wordsOf true val)] [] } else q, arms := w'.arms }

/-- R166, R455: the services of WCALL. ALLOC answers a fresh block of its ASID or 0, FREE 0 or all ones, PUTS the bytes before the zero byte, which
the console ring takes, or all ones where the string cannot be read or does not end, HEALTH the register of R460. Where a block stands is not
stated. -/
def Clause.Services : Prop :=
  (∀ s k w o l n g, OneCall s k w o 1 l n → s.warpRegion w = some g → s.getRegion g.handle = some g →
    ∃ t a, exec (.alloc k o.tag) s = .next t ∧ ReplyFormed t k w o l a ∧ (n = 0 ∨ 2 ^ 32 < n.toNat → a = 0) ∧
      if a = 0 then (t.getRegion g.handle).map (·.allocs) = some g.allocs ∧ t.mem = s.mem
      else a % 4096 = 0 ∧ a < 2 ^ 64 ∧ blockFree s (s.warpAsid w) (BitVec.ofNat 64 a) n.toNat = true ∧
        (∀ p, p ∈ lineParts a n.toNat → ∃ pa z, translateNow s 0 (s.warpAsid w) (s.warpUser w) .write (BitVec.ofNat 64 p.1) = .mem pa 0 z) ∧
        (t.getRegion g.handle).map (·.allocs) = some (g.allocs ++ [(BitVec.ofNat 64 a, n.toNat)])) ∧
  (∀ s k w o l va, OneCall s k w o 2 l va →
    let live (g : Region) : Bool := g.status == 0 && g.asid.toNat == s.warpAsid w && g.allocs.any fun b => b.1 == va
    ((∀ g, g ∈ s.regions → live g = false) → ∃ t, exec (.free k o.tag) s = .next t ∧ ReplyFormed t k w o l (2 ^ 64 - 1) ∧
      t = { s with warps := t.warps }) ∧
    ∀ g, s.regions.find? live = some g → s.getRegion g.handle = some g →
      ∃ t, exec (.free k o.tag) s = .next t ∧ ReplyFormed t k w o l 0 ∧ t = { s with warps := t.warps, regions := t.regions } ∧
        (t.getRegion g.handle).map (·.allocs) = some (g.allocs.filter fun b => b.1 != va)) ∧
  (∀ s u k w o l va bs, OneCall s k w o 3 l va → stringAt s w va 256 = (.is bs, u) →
    (∀ q, q ∈ u.homeWrites → q.who ≠ none) → (∀ i, i < bs.length → physReady u (u.conbase.toNat + (u.conpos + i) % 65536) = true) →
    ∃ t, exec (.puts k o.tag) s = .next t ∧ ReplyFormed t k w o l bs.length ∧
      if u.conbase = 0 then t.mem = u.mem
      else t.conpos = (u.conpos + bs.length) % 65536 ∧
        ∀ i, i < bs.length → Memory.read t.mem (u.conbase.toNat + (u.conpos + i) % 65536) = (bs[i]?).getD 0) ∧
  (∀ s u k w o l va, OneCall s k w o 3 l va → stringAt s w va 256 = (.bad, u) →
    ∃ t, exec (.puts k o.tag) s = .next t ∧ ReplyFormed t k w o l (2 ^ 64 - 1) ∧ t.mem = u.mem ∧ t.conpos = u.conpos) ∧
  ∀ s k w o l va, OneCall s k w o 4 l va →
    ∃ t, exec (.health k o.tag) s = .next t ∧ ReplyFormed t k w o l (healthWord s) ∧ t = { s with warps := t.warps }

/-- The state a reset leaves a die, a cluster, a core and a port in: its reset values, but for the failed parts that nothing repairs in the
field (R461). -/
abbrev WornParts (s t : State) : Prop :=
  (∀ d, let x := t.getDie d
    x = { id := d, buses := x.buses, fencedLinks := (s.getDie d).fencedLinks, noStack := (s.getDie d).noStack }) ∧
  (∀ c, let x := s.getCluster c
    t.getCluster c = { id := c, cmap := x.cmap, healthy := x.healthy, spares := x.spares, disabled := x.disabled, rings := x.rings,
                       out := (t.getCluster c).out }) ∧
  (∀ c, let x := s.getCore c
    let y := t.getCore c
    y = { id := c, engine := { fail := x.engine.fail, cut := x.engine.cut }, vbArr := y.vbArr, vbCask := y.vbCask, vbKiln := y.vbKiln } ∧
      ∀ b, vbusGet y b = { spare := (vbusGet x b).spare, degraded := (vbusGet x b).degraded }) ∧
  ∀ p, p ∈ t.ports → p.st = .slate ∧ p.locked = false ∧ p.width = 0 ∧ p.queue = []

/-- R449 to R451: the stages of boot. The image of the flash, or in recovery that of die 0's stack, must verify; the fused counter of a firmware
that is ready is not below its former value, and a VF's range is of 1 to 64 GiB within HBM, or empty. -/
abbrev BootStages : Prop :=
  (∀ s, s.psReady = true ∨ s.stage = 0xE ∨ s.stage = 0xF → bootStage s = s) ∧
  (∀ s, s.psReady = false → s.stage = 1 → bootStage s = { s with stage := 2 }) ∧
  (∀ s, s.psReady = false → s.stage = 2 → let bs := if s.recovery then stackImage s else Config.flashImage
    (imageOk s.fused bs = true → imageField bs 0 4 = 0x43454449 ∧ imageField bs 0xC 4 % 4096 = 0 ∧ imageField bs 0xC 4 ≤ 2 ^ 26 ∧
      s.fused.toNat ≤ imageField bs 8 4 ∧ bootStage s = { s with stage := 3, image := bs.take (2048 + imageField bs 0xC 4) }) ∧
    (imageOk s.fused bs = false → s.recovery = true → bootStage s = { s with stage := 0xF }) ∧
    (imageOk s.fused bs = false → s.recovery = false →
      ((bootStage s).stage = 0xF ∧ (bootStage s).recovery = true ∧ ((bootStage s).getDie 0).noStack = false) ∨
        ((bootStage s).stage = 0xE ∧ ((bootStage s).getDie 0).noStack = true))) ∧
  (∀ s n, s.psReady = false → s.stage = BitVec.ofNat 4 n → 3 ≤ n → n < 6 → (bootStage s).stage = BitVec.ofNat 4 (n + 1) ∧ (bootStage s).psReady = false) ∧
  ∀ s, s.psReady = false → s.stage = 6 → let t := bootStage s
    t.stage = 7 ∧ t.psReady = true ∧ s.fused.toNat ≤ t.fused.toNat ∧
      ∀ k f, 0 < k → t.fns[k]? = some f → f.bar2sz.toNat ≤ 64 ∧ f.bar2pa.toNat % 2 ^ 30 = 0 ∧ f.bar2pa.toNat / 2 ^ 30 + f.bar2sz.toNat ≤ 1024

/-- R449 to R454, R460: reset and boot, recovery, attestation and alarms. A reset leaves every register of the package at its reset value and what
is worn as it is, and boot begins with stage 1. An alarm sets its class and PSTAT.ALARM and acts by POLICY. -/
def Clause.BootAndSecurity : Prop :=
  (∀ s, ∃ t, exec .reset s = .next t ∧ t.stage = State.reset.stage ∧ t.psReady = false ∧ WornParts s t ∧
    t.warps = [] ∧ t.regions = [] ∧ t.mem = [] ∧ t.fns = State.reset.fns ∧ t.contain = 0 ∧ t.psAlarm = false ∧ t.alarmClass = 0 ∧
    t.policy = 1 ∧ t.alock = false ∧ t.launchLock = false ∧ t.attbusy = false ∧ t.conbase = 0 ∧ t.fused = s.fused ∧ t.hostMem = s.hostMem ∧
    (s.erased = 2 → t.erased = 2)) ∧
  BootStages ∧
  (∀ s, exec .recoveryGo s = .next (if s.stage = 0xF ∧ s.recovery = true then { s with stage := 2 } else s)) ∧
  (∀ s v, s.attbusy = false → s.nonce.length = 64 → let a := v &&& 0x0000FFFFFFFFFC00
    (∀ q, q ∈ s.homeWrites → q.who ≠ none) → (∀ p, p ∈ lineParts a.toNat 1024 → physReady s p.1 = true) →
    ∃ t, exec (.attestationRequest v) s = .next t ∧ t.attbusy = false ∧ t.hostOut = s.hostOut ++ [.msix 0 2] ∧ t.load a.toNat 64 = s.nonce ∧
      t.load (a.toNat + 0x40) 64 = (List.range 64).map (Config.sha512 s.image) ∧ t.loadNat (a.toNat + 0xC0) 8 = Config.serial.toNat ∧
      t.loadNat (a.toNat + 0xC8) 8 = s.fused.toNat ∧ t.loadNat (a.toNat + 0xD8) 8 = s.clock.toNat ∧ t.load (a.toNat + 0xE0) 288 = List.replicate 288 0 ∧
      (s.erased = 2 → t.load (a.toNat + 0x200) 512 = List.replicate 512 0) ∧
      ∀ k, k < a.toNat ∨ a.toNat + 1024 ≤ k → Memory.read t.mem k = Memory.read s.mem k) ∧
  (∀ s cls, cls < 4 → ∃ t, exec (.securityAlarm cls) s = .next t ∧ t.psAlarm = true ∧ t.alarmClass = s.alarmClass ||| (1#4 <<< cls) ∧
    (cls = 0 → 2 ≤ t.erased.toNat) ∧ (2 ≤ s.policy.toNat → 2 ≤ t.erased.toNat) ∧ (s.policy = 1 → 1 ≤ t.erased.toNat) ∧ s.erased.toNat ≤ t.erased.toNat ∧
    (s.policy ≠ 0 ∨ cls = 0 → t.launchLock = true) ∧ (s.policy = 0 → t.regions = s.regions ∧ t.warps = s.warps ∧ t.mem = s.mem) ∧
    (s.policy ≠ 0 → ∀ ctx, ContextEnded s t ctx)) ∧
  ∀ s v, exec (.alarmClassClear v) s = .next { s with alarmClass := s.alarmClass &&& ~~~ v }

/-- The regions of a context are contained: they stop with END 2 (R457). -/
abbrev Contained (s t : State) (p : Nat → Prop) : Prop := ∀ ctx, p ctx → ContextEnded s t ctx

/-- R295, R325, R339, R389, R395, R446 to R448, R450, R451, R456, R457: what the host link brings, and agents without a heartbeat. An inbound write that its home serves stands in
memory; one that must wait for the holders of its line, or for a sealed frame, stands with the requests behind it; a request to no BAR is
unsupported and counted; configuration requests are answered or retried; a link that goes down contains
the contexts whose posted writes it loses. -/
def Clause.HostLinkAndHeartbeats : Prop :=
  (∀ s fn bar off bs pa, s.inbound = [] → inboundAt s fn bar off bs.length = .hbm pa → homeDead s pa = false → hostReady s pa bs.length = true →
    wortAtPa s pa bs.length = false → ∃ t, exec (.hostInboundWrite fn bar off bs) s = .next t ∧ t.load pa bs.length = bs ∧
      (∀ k, k < pa ∨ pa + bs.length ≤ k → Memory.read t.mem k = Memory.read s.mem k) ∧ t.hostOut = s.hostOut ∧ t.inbound = []) ∧
  (∀ s fn bar off bs pa, s.inbound = [] → inboundAt s fn bar off bs.length = .hbm pa → homeDead s pa = false → hostReady s pa bs.length = false →
    wortAtPa s pa bs.length = false → ∃ t, exec (.hostInboundWrite fn bar off bs) s = .next t ∧ t.mem = s.mem ∧ t.hostOut = s.hostOut ∧
      t.inbound = [⟨fn, bar, off, some bs, 0⟩]) ∧
  (∀ s q qs fn bar off len, s.inbound = q :: qs → hostServe s q = none →
    ∃ t, exec (.hostInboundRead fn bar off len) s = .next t ∧ t.mem = s.mem ∧ t.hostOut = s.hostOut ∧ t.inbound = s.inbound ++ [⟨fn, bar, off, none, len⟩]) ∧
  (∀ s fn bar off bs, s.inbound = [] → inboundAt s fn bar off bs.length = .unsupported → fn < s.fns.length →
    ∃ t, exec (.hostInboundWrite fn bar off bs) s = .next t ∧ (t.fn fn).errors = (s.fn fn).errors + 1 ∧ t = { s with fns := t.fns }) ∧
  (∀ s bs, s.inbound = [] → inboundAt s 0 0 0x030 bs.length = .svc 0x030 → bs.length = 8 →
    ∃ t, exec (.hostInboundWrite 0 0 0x030 bs) s = .next t ∧ t.conbase = BitVec.ofNat 64 (leNat bs) &&& 0x0000FFFFFFFFF000 ∧ t.conpos = 0 ∧
      t = { s with conbase := t.conbase, conpos := 0 }) ∧
  (∀ s fn bar off len pa, s.inbound = [] → inboundAt s fn bar off len = .hbm pa → homeDead s pa = false →
    exec (.hostInboundRead fn bar off len) s = .next { s with hostOut := s.hostOut ++ [.data (s.load pa len)] }) ∧
  (∀ s fn bar off len pa, s.inbound = [] → inboundAt s fn bar off len = .hbm pa → homeDead s pa = true →
    exec (.hostInboundRead fn bar off len) s = .next { s with hostOut := s.hostOut ++ [.abort] }) ∧
  (∀ s fn bar off len pa, s.inbound = [] → inboundAt s fn bar off len = .hbm pa →
    exec (.uncorrectableError (.hostRead fn bar off len)) s = .next { s with hostOut := s.hostOut ++ [.abort] }) ∧
  (∀ s bs off, s.inbound = [] → inboundAt s 0 0 (0x8000 + off) bs.length = .table off →
    ∃ t, exec (.hostInboundWrite 0 0 (0x8000 + off) bs) s = .next t ∧ t = { s with msix := t.msix } ∧
      ∀ k, sget 0 t.msix k = if off ≤ k ∧ k < off + bs.length then (bs[k - off]?).getD 0 else sget 0 s.msix k) ∧
  (∀ s fn bar off len, s.inbound = [] → inboundAt s fn bar off len = .unsupported →
    exec (.hostInboundRead fn bar off len) s = .next { s with hostOut := s.hostOut ++ [.unsupported] }) ∧
  (∀ s fn bar off n, s.psReady = false → s.stage ≠ 0xF → s.stage ≠ 0xE → inboundAt s fn bar off n = .unsupported) ∧
  (∀ s off n, s.psReady = true → s.stage = 7 → off + n ≤ 2 ^ 40 → inboundAt s 0 2 off n = .hbm off) ∧
  (∀ s fn, fn < s.fns.length → ∃ t, exec (.poisonedTlp fn) s = .next t ∧ (t.fn fn).errors = (s.fn fn).errors + 1 ∧ t = { s with fns := t.fns }) ∧
  (∀ s, ∃ t, exec .linkDown s = .next t ∧ t.linkw = 0 ∧ t.hostPosted = [] ∧
    Contained s t fun ctx => ∃ p w, p ∈ s.hostPosted ∧ s.getWarp p.1 = some w ∧ s.warpCtx w = ctx) ∧
  (∀ s fn, exec (.hostConfigurationRequest fn) s = .next { s with hostOut := s.hostOut ++
    [if s.stage = 7 ∨ s.stage = 0xE ∨ s.stage = 0xF then .config else .retry] }) ∧
  (∀ s x16, exec (.hostLinkTrained x16) s = .next { s with linkw := if x16 then 2 else 1 }) ∧
  (∀ s ctx, ∃ t, exec (.heartbeatTimeout (.context ctx)) s = .next t ∧ ContextEnded s t ctx) ∧
  (∀ s c, c.core < 8 → physOf (s.getCluster (cluOf c)) c.core < 9 → let m := (s.getCluster (cluOf c)).cmap
    ∃ t, exec (.heartbeatTimeout (.core c)) s = .next t ∧ t.degraded = true ∧
      physOf (t.getCluster (cluOf c)) c.core = (if m.getLsbD 41 || m.getLsbD 40 then 15 else 8) ∧
      Contained s t fun ctx => ∃ w, w ∈ s.wgs ∧ w.core = c ∧ ∃ g, g ∈ s.gangs ∧ w.gang = g.id ∧ ∃ r, s.getRegion g.region = some r ∧ r.ctx = ctx) ∧
  (∀ s c, (s.getCluster c).dead = false → ∃ t, exec (.heartbeatTimeout (.cluster c)) s = .next t ∧
    (t.getCluster c).out = true ∧ (t.getCluster c).dead = true ∧
    (∀ asid region, (presence (t.getDie c.die) asid region).getLsbD c.clu = false) ∧ (∀ k, cluOf k = c → (t.getCore k).l1 = []) ∧
    (c.clu < 16 → (∀ b, b ∈ (s.getDie c.die).buses → b.st.length = 16) → ∀ b, b ∈ (t.getDie c.die).buses →
      grpState b c.clu = .amber ∧ ∀ x, x ∈ b.tuning → x.1 ≠ c.clu) ∧
    Contained s t fun ctx => ctx ∈ ctxsAt s fun k => cluOf k == c) ∧
  (∀ s d, d < 16 → (s.getDie d).dead = false → ∀ a, a = Agent.memory d ∨ a = .cellar d →
    ∃ t, exec (.heartbeatTimeout a) s = .next t ∧ (t.getDie d).dead = true ∧
      (∀ k, k < 16 → (t.getCluster ⟨d, k⟩).out = true ∧ (t.getCluster ⟨d, k⟩).dead = true) ∧
      Contained s t fun ctx => ctx ∈ ctxsAt s fun c => c.die == d) ∧
  (∀ s p, p < s.ports.length → (s.port p).usable ≠ 0 →
    ∃ t, exec (.heartbeatTimeout (.port p)) s = .next t ∧ (t.port p).st = .slate ∧ (t.port p).usable = 0 ∧ t.fencing = true) ∧
  ∀ s p, p ≠ s.dev → s.deadPkgs.contains p = false → ∃ t, exec (.heartbeatTimeout (.peer p)) s = .next t ∧ p ∈ t.deadPkgs

/-- R4, R270, R301, R376, R460: aligned writes of 4 or 8 bytes to registers of the control pages; each register keeps its defined bits and nothing else
changes. -/
def Clause.RegisterWrites : Prop :=
  (∀ s d v, d < 16 → ∃ t, exec (.registerWrite (0x10000000000 + d * 0x1000000) 4 v) s = .next t ∧ t = { s with dies := t.dies } ∧
    t.getDie d = { s.getDie d with vthr := v.setWidth 16 }) ∧
  (∀ s d v, d < 16 → ∃ t, exec (.registerWrite (0x10000001000 + d * 0x1000000) 8 v) s = .next t ∧ t = { s with dies := t.dies } ∧
    t.getDie d = { s.getDie d with ptbase := v &&& 0x0000FFFFFFFFF000 }) ∧
  (∀ s d v, d < 16 → ∃ t, exec (.registerWrite (0x10000001008 + d * 0x1000000) 4 v) s = .next t ∧ t = { s with dies := t.dies } ∧
    t.getDie d = { s.getDie d with lctl := v.setWidth 32 &&& 0x0000FF7F }) ∧
  (∀ s d v, d < 16 → ∃ t, exec (.registerWrite (0x10000001010 + d * 0x1000000) 8 v) s = .next t ∧ t = { s with dies := t.dies } ∧
    t.getDie d = { s.getDie d with fqbase := v &&& 0x0000FFFFFFFFFE00 }) ∧
  (∀ s d k v, d < 16 → k < 16 → ∃ t, exec (.registerWrite (0x10000010018 + d * 0x1000000 + k * 0x1000) 4 v) s = .next t ∧
    t = { s with clusters := t.clusters } ∧ t.getCluster ⟨d, k⟩ = { s.getCluster ⟨d, k⟩ with cso := v.setWidth 16 }) ∧
  (∀ s v, 0 < s.fns.length → ∃ t, exec (.registerWrite 0x11000000008 8 v) s = .next t ∧ t = { s with fns := t.fns } ∧
    t.fn 0 = { s.fn 0 with ring := v &&& 0x0000FFFFFFFFFFC0 }) ∧
  (∀ s v, ∃ t, exec (.registerWrite 0x11000000018 4 v) s = .next t ∧ t = { s with alarmClass := t.alarmClass, policy := t.policy, alock := t.alock } ∧
    t.alarmClass = s.alarmClass &&& ~~~ v.setWidth 4 ∧
    if s.alock then t.policy = s.policy ∧ t.alock = true else t.policy = v.extractLsb' 4 2 ∧ t.alock = v.getLsbD 6) ∧
  ∀ s pa size v, isCtrlPa pa = false ∨ pa % size ≠ 0 → exec (.registerWrite pa size v) s = .next s

/-- R396 to R401, R446 to R460: the events of the package service. -/
def Obligations.ServiceEvents : Prop :=
  Clause.CoreHealth ∧ Clause.Services ∧ Clause.BootAndSecurity ∧ Clause.HostLinkAndHeartbeats ∧ Clause.RegisterWrites

/-! ## Encoding (R43 to R61) -/

/-- R47, R101, R409, R475 and others: words written out from the manual's own examples, each with its bytes, decode to the instructions they
stand for, and the all-zero word to NOP. -/
def Obligations.SpecWordsDecode : Prop :=
  decode 0x00100002C054298C = .instr (.mov ⟨true, 5, true, 1⟩ 10 11) ∧
  decode 0x123456788000000000A00191 = .instr (.movi ⟨false, 0, false, 0⟩ 20 0x12345678) ∧
  decode 0x0000000300800C90 = .instr (.mms ⟨false, 1, false, 0⟩ 16 ⟨12, none⟩) ∧
  decode 0x000001008100000500480315 = .instr (.lds ⟨true, 0, false, 0⟩ .b32 9 ⟨20, some 0x100⟩) ∧
  decode 0x10C00800800004C8 = .instr (.aadd ⟨false, 0, false, 0⟩ true 3 2 (.reg 4)) ∧
  decode 0x0000000280400500 = .instr (.launch ⟨false, 0, false, 0⟩ 8 10 0) ∧
  decode 0x01400E0500000508 = .instr (.tsig ⟨false, 0, false, 0⟩ .dev (.short 20 7)) ∧
  decode 0x0000000280000580 = .instr (.coll ⟨false, 0, false, 0⟩ 10) ∧
  decode 0x00400000000005A8 = .instr (.pfenceDev ⟨false, 0, false, 0⟩) ∧
  decode 0 = .instr (.nop ⟨false, 0, false, 0⟩) ∧ decode 0xFFFFFFFF = .pad ∧ decode 0x00000003 = .badLength ∧
  decodeBytes [0x8C, 0x29, 0x54, 0xC0, 0x02, 0x00, 0x10, 0x00] = .instr (.mov ⟨true, 5, true, 1⟩ 10 11) ∧
  decodeBytes [0x91, 0x01, 0xA0, 0x00, 0x00, 0x00, 0x00, 0x80, 0x78, 0x56, 0x34, 0x12] = .instr (.movi ⟨false, 0, false, 0⟩ 20 0x12345678)

/-- R43 to R60: decoding the bytes of a well-formed instruction gives it back with every operand, whatever bytes stand behind it. -/
def Obligations.DecodeEncodeAgree : Prop :=
  ∀ (i : Instr) bs rest, i.wf = true → encode i = some bs → decodeBytes (bs ++ rest) = .instr i

/-- R49, R58: what decodes is well formed and its fields are those of the word: every field that the instruction does not use is zero. -/
def Obligations.DecodedWordIsExact : Prop :=
  ∀ (w : BitVec 128) i, decode w = .instr i → i.wf = true ∧ toRaw i = some (unpack w) ∧
    ∃ bs, encode i = some bs ∧ bytesToNat bs = w.toNat % 2 ^ (8 * bs.length)

/-- OP of a word is one that R60 reserves. -/
abbrev ReservedOp (v : BitVec 128) : Prop :=
  let op := (v.extractLsb' 3 8).toNat
  op = 0x5F ∨ (0x82 ≤ op ∧ op ≤ 0x8F) ∨ op = 0x96 ∨ op = 0x97 ∨ (0x9D ≤ op ∧ op ≤ 0x9F) ∨ (0xA7 ≤ op ∧ op ≤ 0xAF) ∨ 0xB7 ≤ op

/-- The 128 bits that stand at a counter in its 32-byte block. -/
abbrev codeAt (pc : DWord) (bs : List Byte) : BitVec 128 := BitVec.ofNat 128 (bytesToNat ((bs.drop (pc.toNat % 32)).take 16))

/-- R61: an instruction whose OP is reserved decodes to nothing, whatever its length, guard and other fields, and a run that reaches one inside its
block takes ILLEGAL_OPCODE in every lane; the all-zero word is NOP with guard `q0`, FN 0 and no park. -/
def Obligations.ReservedOpcodesAreIllegal : Prop :=
  (∀ v : BitVec 128, v.extractLsb' 0 2 ≠ 3#2 → ReservedOp v → decode v = .illegal) ∧
  (∀ s w bs s1, s.getWarp s.cur = some w → headRun w ≠ 0 → w.blocked = false → w.htvec ≠ 0 → w.inTrap = false → (headPc w).toNat % 4 = 0 →
    canonical (headPc w) = true → fetchBlock s w (headPc w) = (.ok bs, s1) → s1.getWarp w.id = some w →
    let v := codeAt (headPc w) bs
    let len := lenBytes (v.extractLsb' 0 2)
    v.extractLsb' 0 2 ≠ 3#2 → ReservedOp v → (headPc w).toNat % 32 + len ≤ 32 →
    ∃ t w', exec .reservedOpcodeFetch s = .next t ∧ t.getWarp w.id = some w' ∧
      TrapTaken w w' 0x01 0 (headRun w) (headPc w) (headPc w + BitVec.ofNat 64 len)) ∧
  decode 0 = .instr (.nop ⟨false, 0, false, 0⟩)

/-- R44: the word at the counter, in the order of the table: a pad; a length code 0b11, which takes ILLEGAL_LENGTH; else an instruction of 64, 96 or 128
bits as the code says. -/
def Obligations.WordLengths : Prop :=
  (∀ pc bs, (codeAt pc bs).extractLsb' 0 32 = 0xFFFFFFFF#32 → decodeAt pc bs = .pad) ∧
  (∀ pc bs, (codeAt pc bs).extractLsb' 0 2 = 3#2 → (codeAt pc bs).extractLsb' 0 32 ≠ 0xFFFFFFFF#32 →
    decodeAt pc bs = .trap 0x02 0 ((codeAt pc bs).extractLsb' 19 11) 0) ∧
  (∀ pc bs i, decodeAt pc bs = .instr i → ∃ e, encode i = some e ∧
    ((codeAt pc bs).extractLsb' 0 2 = 0#2 → e.length = 8) ∧ ((codeAt pc bs).extractLsb' 0 2 = 1#2 → e.length = 12) ∧
    ((codeAt pc bs).extractLsb' 0 2 = 2#2 → e.length = 16) ∧ (codeAt pc bs).extractLsb' 0 2 ≠ 3#2) ∧
  ∀ pc bs, decodeAt pc bs = .pad → (codeAt pc bs).extractLsb' 0 32 = 0xFFFFFFFF#32

/-! ## The machine as a whole -/

/-- R270, R278, R279, R301, R376, R396, R399, R460: every register of the control pages that can be read there reads at reset as its Reset column says, on
every die, cluster and core, and no warp exists. KTEMP of `sr.tar`, for which the manual gives no reset value (log entry 8), is left out. -/
def Obligations.ResetControlRegisters : Prop :=
  (∀ c, cluRead (State.reset.getCluster c) 0x000 = 0x76543210 ∧ cluRead (State.reset.getCluster c) 0x008 = 0x0000FFFF50000000 ∧
    cluRead (State.reset.getCluster c) 0x010 = 0 ∧ cluRead (State.reset.getCluster c) 0x018 = 0 ∧ cluRead (State.reset.getCluster c) 0x020 = 0 ∧
    cluRead (State.reset.getCluster c) 0x030 = 0 ∧ cluRead (State.reset.getCluster c) 0x038 = 0) ∧
  (∀ d f, dieRead (State.reset.getDie d) f 0x000 = 0x10 ∧ dieRead (State.reset.getDie d) f 0x008 = 0 ∧ dieRead (State.reset.getDie d) f 0x010 = 0 ∧
    (∀ b, b < 8 → dieRead (State.reset.getDie d) f (0x100 + 16 * b) = 0x0706050403020100 ∧
      dieRead (State.reset.getDie d) f (0x108 + 16 * b) = 0x0F0E0D0C0B0A0908 ∧ dieRead (State.reset.getDie d) f (0x180 + 8 * b) = 0) ∧
    ∀ e, e < 64 → dieRead (State.reset.getDie d) f (0x400 + 16 * e) = 0 ∧ dieRead (State.reset.getDie d) f (0x408 + 16 * e) = 0) ∧
  (∀ d, memRead State.reset d 0x000 = 0 ∧ memRead State.reset d 0x008 = 0x240 ∧ memRead State.reset d 0x010 = 0 ∧ memRead State.reset d 0x018 = 0 ∧
    memRead State.reset d 0x028 = 0 ∧ memRead State.reset d 0x030 = 0 ∧
    ∀ k, k < 128 → memRead State.reset d (0x400 + 8 * k) = 8 * 2 ^ 39 + 8 * 2 ^ 43 + 8 * 2 ^ 47) ∧
  (∀ c, (State.reset.getCore c).tar.toNat % 256 = 255 ∧ (State.reset.getCore c).tar.toNat / 2 ^ 16 = 0 ∧ (State.reset.getCore c).vbthr = 0x100) ∧
  svcRead State.reset 0x000 = 1 ∧ svcRead State.reset 0x008 = 0 ∧ svcRead State.reset 0x010 = 0 ∧ svcRead State.reset 0x018 = 16 ∧
  svcRead State.reset 0x020 = 0 ∧ svcRead State.reset 0x028 = 0 ∧ svcRead State.reset 0x030 = 0 ∧ State.reset.warps = [] ∧ State.reset.regions = []

/-- Memory and the host's memory list no byte twice, in rising order, and no byte that reads as an unlisted one (the form is the model's, and what
an unlisted byte reads as is its choice: log entry 6). -/
abbrev MemoriesCanonical (s : State) : Prop := Memory.wf s.mem = true ∧ Memory.wf s.hostMem = true

/-- The memories have their canonical form at reset. -/
def Obligations.ResetMemoriesCanonical : Prop := MemoriesCanonical State.reset

/-- Every step keeps the canonical form of the memories. -/
def Obligations.StepKeepsMemoriesCanonical : Prop := ∀ s t, MemoriesCanonical s → step s = .next t → MemoriesCanonical t

/-- The step is the turn of a warp, and s0 is the state that it starts from: an outside choice names the warp, or an issue unit picks it. -/
abbrev TurnOf (s s0 : State) (w : Warp) : Prop :=
  (∃ rest, s.agenda = .issue w.id :: rest ∧ s0 = { s with agenda := rest }) ∨
    (s.agenda = [] ∧ s.side = .issue ∧ pickWarp s false = some w ∧ s0 = { s with side := .access }) ∨
    (s.agenda = [] ∧ s.side = .access ∧ pickWarp s true = some w ∧ s0 = { s with side := .engine })

/-- R43, R77, R101, R174: where the bytes at the head run's counter of the warp whose turn it is decode to an instruction that ends within its 32-byte block, the
step executes exactly that instruction on the state with the block fetched, and the clock goes on by one tick. Which of issue, events and outside choices comes next, and one tick a step, are the model's choice
(log entry 3). -/
def Obligations.StepRunsDecodedInstruction : Prop :=
  (∀ s s0 w i n pa k z r, TurnOf s s0 w → s0.getWarp w.id = some w →
    (headPc w).toNat % 4 = 0 → canonical (headPc w) = true →
    let s1 := { s0 with cur := w.id }
    let core := s1.warpCore w
    let asid := s1.warpAsid w
    let blk := blockOf (headPc w)
    icacheFind (s1.getCore core) asid blk = none →
    route s1 core asid (s1.warpUser w) .fetch (BitVec.ofNat 64 blk) = (some (.mem pa k z), r) → homeDead r pa = false →
    decodeBytes ((r.load pa 32).drop ((headPc w).toNat % 32)) = .instr i → (encode i).map List.length = some n → (headPc w).toNat % 32 + n ≤ 32 →
    let u := if k = 2 then r else fillICache r core (if z then 0 else asid) blk (r.load pa 32)
    step s = tick (exec i u) ∧ u.cur = w.id ∧ u.warps = s.warps ∧ u.wgs = s.wgs ∧ u.gangs = s.gangs ∧ u.regions = s.regions) ∧
  (∀ s i rest, s.agenda = .event i :: rest → step s = tick (exec i { s with agenda := rest })) ∧
  ∀ o t, o = Host.Outcome.next t → tick o = .next { t with clock := t.clock + 1 }

/-- R6, R77: no instruction and no event stops the machine while a run is there to issue: with a warp in the issue slot that has a run, whatever its operands,
exec answers a next state; without one it answers a next state or says that there is no run; it never refuses. -/
def Obligations.ExecNeverStops : Prop :=
  (∀ (i : Instr) s w, s.getWarp s.cur = some w → headRun w ≠ 0 → ∃ t, exec i s = .next t) ∧
  (∀ (i : Instr) s, toRaw i = none → ∃ t, exec i s = .next t) ∧
  ∀ (i : Instr) s, (∃ t, exec i s = .next t) ∨ exec i s = .fault .noRun

/-- Left to itself the machine always goes on: while warps have different identities, every step answers a next state. R174, R192: the warp
that an issue unit picks is eligible, and every eligible warp of the unit that issued before it has nothing to do in its turn. -/
def Obligations.StepAlwaysGoesOn : Prop :=
  (∀ s, s.agenda = [] → (s.warps.map (·.id)).Nodup → ∃ t, step s = .next t) ∧
  ∀ s access w, pickWarp s access = some w → w ∈ s.warps ∧ eligible w = true ∧ (w.idx == 32) = access ∧
    ∀ x, x ∈ s.warps → eligible x = true → (x.idx == 32) = access → x.stamp < w.stamp → turnMoves s x = false

/-- R75: `sr.clock` counts on with every step of the package, whatever runs in it, and `sr.dev` never changes; only a reset starts the clock again. One
tick a step (log entry 3) and the start at 0 (log entry 7) are the model's choice. -/
def Obligations.ClockCountsSteps : Prop :=
  ∀ s t, step s = .next t → t.dev = s.dev ∧ (t.clock = s.clock + 1 ∨ (t.clock = 1 ∧ ∃ rest, s.agenda = .event .reset :: rest))

/-- R449, R454, R460: whatever a step does, the fused security counter never falls and an erased identity key stays erased; short of a reset a
set LOCK holds itself and POLICY, and LAUNCH stays locked out after an alarm. -/
def Obligations.SecurityLatchesHold : Prop :=
  (∀ s t, step s = .next t → s.fused.toNat ≤ t.fused.toNat ∧ (s.erased = 2 → t.erased = 2)) ∧
  ∀ s t, step s = .next t → (∀ rest, s.agenda ≠ .event .reset :: rest) →
    (s.alock = true → t.alock = true ∧ t.policy = s.policy) ∧ (s.launchLock = true → t.launchLock = true)
end

