-- ==== Sys2Proof/Laws/Store.lean ====
section
/-! SUPPORT. The laws of the sparse store and of memory: read after write, writes elsewhere, and the canonical form that
every write keeps. -/

namespace Sys2Proof.Machine

variable {α : Type}

theorem sget_sdel_self (d : α) (m : Sparse α) (n : Nat) : sget d (sdel m n) n = d := by
  induction m with
  | nil => rfl
  | cons p t ih =>
    obtain ⟨k, v⟩ := p
    by_cases h : n = k
    · subst h; simpa [sdel] using ih
    · simpa [sdel, sget, h] using ih

theorem sget_sdel_ne (d : α) (m : Sparse α) {n k : Nat} (h : k ≠ n) : sget d (sdel m n) k = sget d m k := by
  induction m with
  | nil => rfl
  | cons p t ih =>
    obtain ⟨j, v⟩ := p
    by_cases hj : n = j
    · subst hj; simp [sdel, sget, h, ih]
    · simp [sdel, hj, sget, ih]

/-- A key reads as it was last written. -/
@[simp] theorem sget_sput_self [DecidableEq α] (d : α) (m : Sparse α) (n : Nat) (x : α) : sget d (sput d m n x) n = x := by
  induction m with
  | nil => by_cases h : x = d <;> simp [sput, sget, h]
  | cons p t ih =>
    obtain ⟨k, v⟩ := p
    simp only [sput]
    split
    · rename_i hlt
      split
      · rename_i hx
        subst hx; exact sget_sdel_self _ _ _
      · simp [sget]
    · split
      · exact ih
      · rename_i h; simp [sget, h, ih]

/-- A write changes no other key. -/
theorem sget_sput_ne [DecidableEq α] (d : α) (m : Sparse α) {n k : Nat} (x : α) (h : k ≠ n) :
    sget d (sput d m n x) k = sget d m k := by
  induction m with
  | nil => by_cases hx : x = d <;> simp [sput, sget, hx, h]
  | cons p t ih =>
    obtain ⟨j, v⟩ := p
    simp only [sput]
    split
    · split
      · exact sget_sdel_ne _ _ h
      · simp [sget, h, sget_sdel_ne _ _ h]
    · split
      · rename_i hj
        subst hj; simp [sget, h, ih]
      · simp [sget, ih]

theorem sget_sput [DecidableEq α] (d : α) (m : Sparse α) (n k : Nat) (x : α) :
    sget d (sput d m n x) k = if k = n then x else sget d m k := by
  split
  · rename_i h; subst h; simp
  · rename_i h; exact sget_sput_ne d m x h

theorem swfFrom_mono [DecidableEq α] (d : α) (m : Sparse α) {lo hi : Nat} (h : lo ≤ hi) (w : swfFrom d hi m = true) :
    swfFrom d lo m = true := by
  cases m with
  | nil => rfl
  | cons p t =>
    obtain ⟨k, v⟩ := p
    simp only [swfFrom, Bool.and_eq_true, decide_eq_true_eq] at *
    exact ⟨⟨by omega, w.1.2⟩, w.2⟩

/-- In the canonical form nothing below the first key is listed. -/
theorem sdel_below [DecidableEq α] (d : α) (m : Sparse α) {lo n : Nat} (h : n < lo) (w : swfFrom d lo m = true) :
    sdel m n = m := by
  induction m generalizing lo with
  | nil => rfl
  | cons p t ih =>
    obtain ⟨k, v⟩ := p
    simp only [swfFrom, Bool.and_eq_true, decide_eq_true_eq] at w
    have hk : n ≠ k := by omega
    simp [sdel, hk, ih (lo := k + 1) (by omega) w.2]

theorem swfFrom_sput [DecidableEq α] (d : α) (m : Sparse α) {lo n : Nat} (x : α) (h : lo ≤ n) (w : swfFrom d lo m = true) :
    swfFrom d lo (sput d m n x) = true := by
  induction m generalizing lo with
  | nil =>
    simp only [sput]
    split
    · rfl
    · rename_i hx; simp [swfFrom, h, hx]
  | cons p t ih =>
    obtain ⟨k, v⟩ := p
    have w' := w
    simp only [swfFrom, Bool.and_eq_true, decide_eq_true_eq] at w
    simp only [sput]
    split
    · rename_i hlt
      have ht := sdel_below d t (lo := k + 1) (n := n) (by omega) w.2
      split
      · rw [sdel_below d _ (lo := k) hlt (by simp [swfFrom, w.1.2, w.2])]; exact w'
      · rename_i hx
        rw [ht]
        simp only [swfFrom, Bool.and_eq_true, decide_eq_true_eq]
        exact ⟨⟨h, hx⟩, ⟨by omega, w.1.2⟩, w.2⟩
    · split
      · exact ih h (swfFrom_mono d t (by omega) w.2)
      · simp only [swfFrom, Bool.and_eq_true, decide_eq_true_eq]
        exact ⟨w.1, ih (by omega) w.2⟩

/-- A write keeps the canonical form. -/
@[simp] theorem swf_sput [DecidableEq α] (d : α) (m : Sparse α) (n : Nat) (x : α) (w : swf d m = true) :
    swf d (sput d m n x) = true := swfFrom_sput d m x (Nat.zero_le n) w

/-- A key that is listed reads as something else than the default. -/
theorem sget_below [DecidableEq α] (d : α) (m : Sparse α) {lo n : Nat} (h : n < lo) (w : swfFrom d lo m = true) :
    sget d m n = d := by
  induction m generalizing lo with
  | nil => rfl
  | cons p t ih =>
    obtain ⟨k, v⟩ := p
    simp only [swfFrom, Bool.and_eq_true, decide_eq_true_eq] at w
    have hk : n ≠ k := by omega
    simp [sget, hk, ih (lo := k + 1) (by omega) w.2]

/-- In the canonical form equal contents are equal data. -/
theorem sparse_ext [DecidableEq α] (d : α) {lo : Nat} (a b : Sparse α) (ha : swfFrom d lo a = true)
    (hb : swfFrom d lo b = true) (h : ∀ n, sget d a n = sget d b n) : a = b := by
  induction a generalizing b lo with
  | nil =>
    cases b with
    | nil => rfl
    | cons p t =>
      obtain ⟨k, v⟩ := p
      simp only [swfFrom, Bool.and_eq_true, decide_eq_true_eq] at hb
      have e := h k
      simp only [sget, if_true] at e
      exact absurd e.symm hb.1.2
  | cons p t ih =>
    obtain ⟨k, v⟩ := p
    have ha' := ha
    simp only [swfFrom, Bool.and_eq_true, decide_eq_true_eq] at ha
    cases b with
    | nil =>
      have e := h k
      simp only [sget, if_true] at e
      exact absurd e ha.1.2
    | cons q u =>
      obtain ⟨j, y⟩ := q
      have hb' := hb
      simp only [swfFrom, Bool.and_eq_true, decide_eq_true_eq] at hb
      have hkj : k = j := by
        rcases Nat.lt_trichotomy k j with hl | he | hl
        · have e := h k
          have hb0 : sget d ((j, y) :: u) k = d := sget_below d _ (lo := j) hl (by simp [swfFrom, hb.1.2, hb.2])
          rw [hb0] at e
          simp only [sget, if_true] at e
          exact absurd e ha.1.2
        · exact he
        · have e := h j
          have ha0 : sget d ((k, v) :: t) j = d := sget_below d _ (lo := k) hl (by simp [swfFrom, ha.1.2, ha.2])
          rw [ha0] at e
          simp only [sget, if_true] at e
          exact absurd e.symm hb.1.2
      subst hkj
      have hv : v = y := by have e := h k; simpa [sget] using e
      subst hv
      have ht : t = u := by
        apply ih u ha.2 hb.2
        intro n
        by_cases hn : n = k
        · subst hn
          rw [sget_below d t (lo := n + 1) (by omega) ha.2, sget_below d u (lo := n + 1) (by omega) hb.2]
        · have e := h n
          simpa [sget, hn] using e
      rw [ht]

/-! ## Memory -/

@[simp] theorem Memory.read_write_self (m : List Host.Cell) (a : Nat) (b : Byte) : Memory.read (Memory.write m a b) a = b :=
  sget_sput_self _ m a b

theorem Memory.read_write_ne (m : List Host.Cell) {a c : Nat} (b : Byte) (h : c ≠ a) :
    Memory.read (Memory.write m a b) c = Memory.read m c := sget_sput_ne _ m b h

theorem Memory.read_write (m : List Host.Cell) (a c : Nat) (b : Byte) :
    Memory.read (Memory.write m a b) c = if c = a then b else Memory.read m c := sget_sput _ m a c b

@[simp] theorem Memory.wf_write (m : List Host.Cell) (a : Nat) (b : Byte) (h : Memory.wf m = true) :
    Memory.wf (Memory.write m a b) = true := swf_sput _ m a b h

/-- Bytes written at an address read back there, and every other address keeps its byte. -/
theorem Memory.read_writeN (m : List Host.Cell) (a : Nat) (bs : List Byte) (c : Nat) :
    Memory.read (Memory.writeN m a bs) c = if a ≤ c ∧ c < a + bs.length then (bs[c - a]?).getD 0 else Memory.read m c := by
  induction bs generalizing m a with
  | nil => simp [Memory.writeN]
  | cons b bs ih =>
    simp only [Memory.writeN, ih, Memory.read_write, List.length_cons]
    by_cases h1 : c = a
    · subst h1
      simp
    · by_cases h2 : a + 1 ≤ c ∧ c < a + 1 + bs.length
      · rw [if_pos h2, if_pos (by omega)]
        have : c - a = (c - (a + 1)) + 1 := by omega
        rw [this]; simp
      · rw [if_neg h2, if_neg h1, if_neg (by omega)]

@[simp] theorem Memory.wf_writeN (m : List Host.Cell) (a : Nat) (bs : List Byte) (h : Memory.wf m = true) :
    Memory.wf (Memory.writeN m a bs) = true := by
  induction bs generalizing m a with
  | nil => exact h
  | cons b bs ih => exact ih _ _ (Memory.wf_write m a b h)

theorem Memory.readN_length (m : List Host.Cell) (a n : Nat) : (Memory.readN m a n).length = n := by
  induction n generalizing a with
  | zero => rfl
  | succ n ih => simp [Memory.readN, ih]

/-- Equal memories are equal data. -/
theorem Memory.ext (m n : List Host.Cell) (hm : Memory.wf m = true) (hn : Memory.wf n = true)
    (h : ∀ a, Memory.read m a = Memory.read n a) : m = n := sparse_ext _ m n hm hn h

/-- The memory of the machine at reset has the canonical form. -/
theorem reset_mem_wf : Memory.wf State.reset.mem = true := by decide

end Sys2Proof.Machine
end

