-- ==== Sys2Proof/Laws/State.lean ====
section
/-! SUPPORT. What each named update of the state leaves: one lemma per field per update, and what a part reads as after the
parts of its kind were updated. -/

namespace Sys2Proof.Machine

/-! ## Updates of the state -/

section
variable (s : State) (x : Warp)

@[simp] theorem setWarp_agenda : (s.setWarp x).agenda = s.agenda := rfl
@[simp] theorem setWarp_side : (s.setWarp x).side = s.side := rfl
@[simp] theorem setWarp_clock : (s.setWarp x).clock = s.clock := rfl
@[simp] theorem setWarp_dev : (s.setWarp x).dev = s.dev := rfl
@[simp] theorem setWarp_fresh : (s.setWarp x).fresh = s.fresh := rfl
@[simp] theorem setWarp_nextId : (s.setWarp x).nextId = s.nextId := rfl
@[simp] theorem setWarp_cur : (s.setWarp x).cur = s.cur := rfl
@[simp] theorem setWarp_warps : (s.setWarp x).warps = updAt (fun y => y.id == x.id) (fun _ => x) s.warps := rfl
@[simp] theorem setWarp_wgs : (s.setWarp x).wgs = s.wgs := rfl
@[simp] theorem setWarp_gangs : (s.setWarp x).gangs = s.gangs := rfl
@[simp] theorem setWarp_regions : (s.setWarp x).regions = s.regions := rfl
@[simp] theorem setWarp_gen : (s.setWarp x).gen = s.gen := rfl
@[simp] theorem setWarp_launchLock : (s.setWarp x).launchLock = s.launchLock := rfl
@[simp] theorem setWarp_rotAt : (s.setWarp x).rotAt = s.rotAt := rfl
@[simp] theorem setWarp_mem : (s.setWarp x).mem = s.mem := rfl
@[simp] theorem setWarp_hostMem : (s.setWarp x).hostMem = s.hostMem := rfl
@[simp] theorem setWarp_hostPosted : (s.setWarp x).hostPosted = s.hostPosted := rfl
@[simp] theorem setWarp_lostBacks : (s.setWarp x).lostBacks = s.lostBacks := rfl
@[simp] theorem setWarp_cores : (s.setWarp x).cores = s.cores := rfl
@[simp] theorem setWarp_clusters : (s.setWarp x).clusters = s.clusters := rfl
@[simp] theorem setWarp_dies : (s.setWarp x).dies = s.dies := rfl
@[simp] theorem setWarp_copies : (s.setWarp x).copies = s.copies := rfl
@[simp] theorem setWarp_contribs : (s.setWarp x).contribs = s.contribs := rfl
@[simp] theorem setWarp_racks : (s.setWarp x).racks = s.racks := rfl
@[simp] theorem setWarp_leases : (s.setWarp x).leases = s.leases := rfl
@[simp] theorem setWarp_farLines : (s.setWarp x).farLines = s.farLines := rfl
@[simp] theorem setWarp_stage : (s.setWarp x).stage = s.stage := rfl
@[simp] theorem setWarp_psReady : (s.setWarp x).psReady = s.psReady := rfl
@[simp] theorem setWarp_linkw : (s.setWarp x).linkw = s.linkw := rfl
@[simp] theorem setWarp_psAlarm : (s.setWarp x).psAlarm = s.psAlarm := rfl
@[simp] theorem setWarp_degraded : (s.setWarp x).degraded = s.degraded := rfl
@[simp] theorem setWarp_attbusy : (s.setWarp x).attbusy = s.attbusy := rfl
@[simp] theorem setWarp_contain : (s.setWarp x).contain = s.contain := rfl
@[simp] theorem setWarp_alarmClass : (s.setWarp x).alarmClass = s.alarmClass := rfl
@[simp] theorem setWarp_policy : (s.setWarp x).policy = s.policy := rfl
@[simp] theorem setWarp_alock : (s.setWarp x).alock = s.alock := rfl
@[simp] theorem setWarp_erased : (s.setWarp x).erased = s.erased := rfl
@[simp] theorem setWarp_conbase : (s.setWarp x).conbase = s.conbase := rfl
@[simp] theorem setWarp_conpos : (s.setWarp x).conpos = s.conpos := rfl
@[simp] theorem setWarp_nonce : (s.setWarp x).nonce = s.nonce := rfl
@[simp] theorem setWarp_attdst : (s.setWarp x).attdst = s.attdst := rfl
@[simp] theorem setWarp_fused : (s.setWarp x).fused = s.fused := rfl
@[simp] theorem setWarp_recovery : (s.setWarp x).recovery = s.recovery := rfl
@[simp] theorem setWarp_image : (s.setWarp x).image = s.image := rfl
@[simp] theorem setWarp_msix : (s.setWarp x).msix = s.msix := rfl
@[simp] theorem setWarp_fns : (s.setWarp x).fns = s.fns := rfl
@[simp] theorem setWarp_hostOut : (s.setWarp x).hostOut = s.hostOut := rfl
@[simp] theorem setWarp_inbound : (s.setWarp x).inbound = s.inbound := rfl
@[simp] theorem setWarp_homeWrites : (s.setWarp x).homeWrites = s.homeWrites := rfl
@[simp] theorem setWarp_ports : (s.setWarp x).ports = s.ports := rfl
@[simp] theorem setWarp_table : (s.setWarp x).table = s.table := rfl
@[simp] theorem setWarp_seed : (s.setWarp x).seed = s.seed := rfl
@[simp] theorem setWarp_routes : (s.setWarp x).routes = s.routes := rfl
@[simp] theorem setWarp_topo : (s.setWarp x).topo = s.topo := rfl
@[simp] theorem setWarp_holding : (s.setWarp x).holding = s.holding := rfl
@[simp] theorem setWarp_staged : (s.setWarp x).staged = s.staged := rfl
@[simp] theorem setWarp_fencing : (s.setWarp x).fencing = s.fencing := rfl
@[simp] theorem setWarp_sent : (s.setWarp x).sent = s.sent := rfl
@[simp] theorem setWarp_unacked : (s.setWarp x).unacked = s.unacked := rfl
@[simp] theorem setWarp_fetchBuf : (s.setWarp x).fetchBuf = s.fetchBuf := rfl
@[simp] theorem setWarp_colls : (s.setWarp x).colls = s.colls := rfl
@[simp] theorem setWarp_applied : (s.setWarp x).applied = s.applied := rfl
@[simp] theorem setWarp_barWait : (s.setWarp x).barWait = s.barWait := rfl
@[simp] theorem setWarp_deadPkgs : (s.setWarp x).deadPkgs = s.deadPkgs := rfl

end

section
variable (s : State) (n : Nat) (f : Warp → Warp)

@[simp] theorem modWarp_agenda : (s.modWarp n f).agenda = s.agenda := rfl
@[simp] theorem modWarp_side : (s.modWarp n f).side = s.side := rfl
@[simp] theorem modWarp_clock : (s.modWarp n f).clock = s.clock := rfl
@[simp] theorem modWarp_dev : (s.modWarp n f).dev = s.dev := rfl
@[simp] theorem modWarp_fresh : (s.modWarp n f).fresh = s.fresh := rfl
@[simp] theorem modWarp_nextId : (s.modWarp n f).nextId = s.nextId := rfl
@[simp] theorem modWarp_cur : (s.modWarp n f).cur = s.cur := rfl
@[simp] theorem modWarp_warps : (s.modWarp n f).warps = updAt (fun y => y.id == n) f s.warps := rfl
@[simp] theorem modWarp_wgs : (s.modWarp n f).wgs = s.wgs := rfl
@[simp] theorem modWarp_gangs : (s.modWarp n f).gangs = s.gangs := rfl
@[simp] theorem modWarp_regions : (s.modWarp n f).regions = s.regions := rfl
@[simp] theorem modWarp_gen : (s.modWarp n f).gen = s.gen := rfl
@[simp] theorem modWarp_launchLock : (s.modWarp n f).launchLock = s.launchLock := rfl
@[simp] theorem modWarp_rotAt : (s.modWarp n f).rotAt = s.rotAt := rfl
@[simp] theorem modWarp_mem : (s.modWarp n f).mem = s.mem := rfl
@[simp] theorem modWarp_hostMem : (s.modWarp n f).hostMem = s.hostMem := rfl
@[simp] theorem modWarp_hostPosted : (s.modWarp n f).hostPosted = s.hostPosted := rfl
@[simp] theorem modWarp_lostBacks : (s.modWarp n f).lostBacks = s.lostBacks := rfl
@[simp] theorem modWarp_cores : (s.modWarp n f).cores = s.cores := rfl
@[simp] theorem modWarp_clusters : (s.modWarp n f).clusters = s.clusters := rfl
@[simp] theorem modWarp_dies : (s.modWarp n f).dies = s.dies := rfl
@[simp] theorem modWarp_copies : (s.modWarp n f).copies = s.copies := rfl
@[simp] theorem modWarp_contribs : (s.modWarp n f).contribs = s.contribs := rfl
@[simp] theorem modWarp_racks : (s.modWarp n f).racks = s.racks := rfl
@[simp] theorem modWarp_leases : (s.modWarp n f).leases = s.leases := rfl
@[simp] theorem modWarp_farLines : (s.modWarp n f).farLines = s.farLines := rfl
@[simp] theorem modWarp_stage : (s.modWarp n f).stage = s.stage := rfl
@[simp] theorem modWarp_psReady : (s.modWarp n f).psReady = s.psReady := rfl
@[simp] theorem modWarp_linkw : (s.modWarp n f).linkw = s.linkw := rfl
@[simp] theorem modWarp_psAlarm : (s.modWarp n f).psAlarm = s.psAlarm := rfl
@[simp] theorem modWarp_degraded : (s.modWarp n f).degraded = s.degraded := rfl
@[simp] theorem modWarp_attbusy : (s.modWarp n f).attbusy = s.attbusy := rfl
@[simp] theorem modWarp_contain : (s.modWarp n f).contain = s.contain := rfl
@[simp] theorem modWarp_alarmClass : (s.modWarp n f).alarmClass = s.alarmClass := rfl
@[simp] theorem modWarp_policy : (s.modWarp n f).policy = s.policy := rfl
@[simp] theorem modWarp_alock : (s.modWarp n f).alock = s.alock := rfl
@[simp] theorem modWarp_erased : (s.modWarp n f).erased = s.erased := rfl
@[simp] theorem modWarp_conbase : (s.modWarp n f).conbase = s.conbase := rfl
@[simp] theorem modWarp_conpos : (s.modWarp n f).conpos = s.conpos := rfl
@[simp] theorem modWarp_nonce : (s.modWarp n f).nonce = s.nonce := rfl
@[simp] theorem modWarp_attdst : (s.modWarp n f).attdst = s.attdst := rfl
@[simp] theorem modWarp_fused : (s.modWarp n f).fused = s.fused := rfl
@[simp] theorem modWarp_recovery : (s.modWarp n f).recovery = s.recovery := rfl
@[simp] theorem modWarp_image : (s.modWarp n f).image = s.image := rfl
@[simp] theorem modWarp_msix : (s.modWarp n f).msix = s.msix := rfl
@[simp] theorem modWarp_fns : (s.modWarp n f).fns = s.fns := rfl
@[simp] theorem modWarp_hostOut : (s.modWarp n f).hostOut = s.hostOut := rfl
@[simp] theorem modWarp_inbound : (s.modWarp n f).inbound = s.inbound := rfl
@[simp] theorem modWarp_homeWrites : (s.modWarp n f).homeWrites = s.homeWrites := rfl
@[simp] theorem modWarp_ports : (s.modWarp n f).ports = s.ports := rfl
@[simp] theorem modWarp_table : (s.modWarp n f).table = s.table := rfl
@[simp] theorem modWarp_seed : (s.modWarp n f).seed = s.seed := rfl
@[simp] theorem modWarp_routes : (s.modWarp n f).routes = s.routes := rfl
@[simp] theorem modWarp_topo : (s.modWarp n f).topo = s.topo := rfl
@[simp] theorem modWarp_holding : (s.modWarp n f).holding = s.holding := rfl
@[simp] theorem modWarp_staged : (s.modWarp n f).staged = s.staged := rfl
@[simp] theorem modWarp_fencing : (s.modWarp n f).fencing = s.fencing := rfl
@[simp] theorem modWarp_sent : (s.modWarp n f).sent = s.sent := rfl
@[simp] theorem modWarp_unacked : (s.modWarp n f).unacked = s.unacked := rfl
@[simp] theorem modWarp_fetchBuf : (s.modWarp n f).fetchBuf = s.fetchBuf := rfl
@[simp] theorem modWarp_colls : (s.modWarp n f).colls = s.colls := rfl
@[simp] theorem modWarp_applied : (s.modWarp n f).applied = s.applied := rfl
@[simp] theorem modWarp_barWait : (s.modWarp n f).barWait = s.barWait := rfl
@[simp] theorem modWarp_deadPkgs : (s.modWarp n f).deadPkgs = s.deadPkgs := rfl

end

section
variable (s : State) (n : Nat) (f : Warp → Warp)

@[simp] theorem modKept_agenda : (s.modKept n f).agenda = s.agenda := rfl
@[simp] theorem modKept_side : (s.modKept n f).side = s.side := rfl
@[simp] theorem modKept_clock : (s.modKept n f).clock = s.clock := rfl
@[simp] theorem modKept_dev : (s.modKept n f).dev = s.dev := rfl
@[simp] theorem modKept_fresh : (s.modKept n f).fresh = s.fresh := rfl
@[simp] theorem modKept_nextId : (s.modKept n f).nextId = s.nextId := rfl
@[simp] theorem modKept_cur : (s.modKept n f).cur = s.cur := rfl
@[simp] theorem modKept_warps : (s.modKept n f).warps = updAt (fun y => y.id == n) f s.warps := rfl
@[simp] theorem modKept_wgs : (s.modKept n f).wgs = s.wgs := rfl
@[simp] theorem modKept_gangs : (s.modKept n f).gangs = s.gangs.map fun g => { g with savedWarps := updAt (fun y => y.id == n) f g.savedWarps } := rfl
@[simp] theorem modKept_regions : (s.modKept n f).regions = s.regions := rfl
@[simp] theorem modKept_gen : (s.modKept n f).gen = s.gen := rfl
@[simp] theorem modKept_launchLock : (s.modKept n f).launchLock = s.launchLock := rfl
@[simp] theorem modKept_rotAt : (s.modKept n f).rotAt = s.rotAt := rfl
@[simp] theorem modKept_mem : (s.modKept n f).mem = s.mem := rfl
@[simp] theorem modKept_hostMem : (s.modKept n f).hostMem = s.hostMem := rfl
@[simp] theorem modKept_hostPosted : (s.modKept n f).hostPosted = s.hostPosted := rfl
@[simp] theorem modKept_lostBacks : (s.modKept n f).lostBacks = s.lostBacks := rfl
@[simp] theorem modKept_cores : (s.modKept n f).cores = s.cores := rfl
@[simp] theorem modKept_clusters : (s.modKept n f).clusters = s.clusters := rfl
@[simp] theorem modKept_dies : (s.modKept n f).dies = s.dies := rfl
@[simp] theorem modKept_copies : (s.modKept n f).copies = s.copies := rfl
@[simp] theorem modKept_contribs : (s.modKept n f).contribs = s.contribs := rfl
@[simp] theorem modKept_racks : (s.modKept n f).racks = s.racks := rfl
@[simp] theorem modKept_leases : (s.modKept n f).leases = s.leases := rfl
@[simp] theorem modKept_farLines : (s.modKept n f).farLines = s.farLines := rfl
@[simp] theorem modKept_stage : (s.modKept n f).stage = s.stage := rfl
@[simp] theorem modKept_psReady : (s.modKept n f).psReady = s.psReady := rfl
@[simp] theorem modKept_linkw : (s.modKept n f).linkw = s.linkw := rfl
@[simp] theorem modKept_psAlarm : (s.modKept n f).psAlarm = s.psAlarm := rfl
@[simp] theorem modKept_degraded : (s.modKept n f).degraded = s.degraded := rfl
@[simp] theorem modKept_attbusy : (s.modKept n f).attbusy = s.attbusy := rfl
@[simp] theorem modKept_contain : (s.modKept n f).contain = s.contain := rfl
@[simp] theorem modKept_alarmClass : (s.modKept n f).alarmClass = s.alarmClass := rfl
@[simp] theorem modKept_policy : (s.modKept n f).policy = s.policy := rfl
@[simp] theorem modKept_alock : (s.modKept n f).alock = s.alock := rfl
@[simp] theorem modKept_erased : (s.modKept n f).erased = s.erased := rfl
@[simp] theorem modKept_conbase : (s.modKept n f).conbase = s.conbase := rfl
@[simp] theorem modKept_conpos : (s.modKept n f).conpos = s.conpos := rfl
@[simp] theorem modKept_nonce : (s.modKept n f).nonce = s.nonce := rfl
@[simp] theorem modKept_attdst : (s.modKept n f).attdst = s.attdst := rfl
@[simp] theorem modKept_fused : (s.modKept n f).fused = s.fused := rfl
@[simp] theorem modKept_recovery : (s.modKept n f).recovery = s.recovery := rfl
@[simp] theorem modKept_image : (s.modKept n f).image = s.image := rfl
@[simp] theorem modKept_msix : (s.modKept n f).msix = s.msix := rfl
@[simp] theorem modKept_fns : (s.modKept n f).fns = s.fns := rfl
@[simp] theorem modKept_hostOut : (s.modKept n f).hostOut = s.hostOut := rfl
@[simp] theorem modKept_inbound : (s.modKept n f).inbound = s.inbound := rfl
@[simp] theorem modKept_homeWrites : (s.modKept n f).homeWrites = s.homeWrites := rfl
@[simp] theorem modKept_ports : (s.modKept n f).ports = s.ports := rfl
@[simp] theorem modKept_table : (s.modKept n f).table = s.table := rfl
@[simp] theorem modKept_seed : (s.modKept n f).seed = s.seed := rfl
@[simp] theorem modKept_routes : (s.modKept n f).routes = s.routes := rfl
@[simp] theorem modKept_topo : (s.modKept n f).topo = s.topo := rfl
@[simp] theorem modKept_holding : (s.modKept n f).holding = s.holding := rfl
@[simp] theorem modKept_staged : (s.modKept n f).staged = s.staged := rfl
@[simp] theorem modKept_fencing : (s.modKept n f).fencing = s.fencing := rfl
@[simp] theorem modKept_sent : (s.modKept n f).sent = s.sent := rfl
@[simp] theorem modKept_unacked : (s.modKept n f).unacked = s.unacked := rfl
@[simp] theorem modKept_fetchBuf : (s.modKept n f).fetchBuf = s.fetchBuf := rfl
@[simp] theorem modKept_colls : (s.modKept n f).colls = s.colls := rfl
@[simp] theorem modKept_applied : (s.modKept n f).applied = s.applied := rfl
@[simp] theorem modKept_barWait : (s.modKept n f).barWait = s.barWait := rfl
@[simp] theorem modKept_deadPkgs : (s.modKept n f).deadPkgs = s.deadPkgs := rfl

end

section
variable (s : State) (n : Nat) (f : Workgroup → Workgroup)

@[simp] theorem modWg_agenda : (s.modWg n f).agenda = s.agenda := rfl
@[simp] theorem modWg_side : (s.modWg n f).side = s.side := rfl
@[simp] theorem modWg_clock : (s.modWg n f).clock = s.clock := rfl
@[simp] theorem modWg_dev : (s.modWg n f).dev = s.dev := rfl
@[simp] theorem modWg_fresh : (s.modWg n f).fresh = s.fresh := rfl
@[simp] theorem modWg_nextId : (s.modWg n f).nextId = s.nextId := rfl
@[simp] theorem modWg_cur : (s.modWg n f).cur = s.cur := rfl
@[simp] theorem modWg_warps : (s.modWg n f).warps = s.warps := rfl
@[simp] theorem modWg_wgs : (s.modWg n f).wgs = updAt (fun y => y.id == n) f s.wgs := rfl
@[simp] theorem modWg_gangs : (s.modWg n f).gangs = s.gangs := rfl
@[simp] theorem modWg_regions : (s.modWg n f).regions = s.regions := rfl
@[simp] theorem modWg_gen : (s.modWg n f).gen = s.gen := rfl
@[simp] theorem modWg_launchLock : (s.modWg n f).launchLock = s.launchLock := rfl
@[simp] theorem modWg_rotAt : (s.modWg n f).rotAt = s.rotAt := rfl
@[simp] theorem modWg_mem : (s.modWg n f).mem = s.mem := rfl
@[simp] theorem modWg_hostMem : (s.modWg n f).hostMem = s.hostMem := rfl
@[simp] theorem modWg_hostPosted : (s.modWg n f).hostPosted = s.hostPosted := rfl
@[simp] theorem modWg_lostBacks : (s.modWg n f).lostBacks = s.lostBacks := rfl
@[simp] theorem modWg_cores : (s.modWg n f).cores = s.cores := rfl
@[simp] theorem modWg_clusters : (s.modWg n f).clusters = s.clusters := rfl
@[simp] theorem modWg_dies : (s.modWg n f).dies = s.dies := rfl
@[simp] theorem modWg_copies : (s.modWg n f).copies = s.copies := rfl
@[simp] theorem modWg_contribs : (s.modWg n f).contribs = s.contribs := rfl
@[simp] theorem modWg_racks : (s.modWg n f).racks = s.racks := rfl
@[simp] theorem modWg_leases : (s.modWg n f).leases = s.leases := rfl
@[simp] theorem modWg_farLines : (s.modWg n f).farLines = s.farLines := rfl
@[simp] theorem modWg_stage : (s.modWg n f).stage = s.stage := rfl
@[simp] theorem modWg_psReady : (s.modWg n f).psReady = s.psReady := rfl
@[simp] theorem modWg_linkw : (s.modWg n f).linkw = s.linkw := rfl
@[simp] theorem modWg_psAlarm : (s.modWg n f).psAlarm = s.psAlarm := rfl
@[simp] theorem modWg_degraded : (s.modWg n f).degraded = s.degraded := rfl
@[simp] theorem modWg_attbusy : (s.modWg n f).attbusy = s.attbusy := rfl
@[simp] theorem modWg_contain : (s.modWg n f).contain = s.contain := rfl
@[simp] theorem modWg_alarmClass : (s.modWg n f).alarmClass = s.alarmClass := rfl
@[simp] theorem modWg_policy : (s.modWg n f).policy = s.policy := rfl
@[simp] theorem modWg_alock : (s.modWg n f).alock = s.alock := rfl
@[simp] theorem modWg_erased : (s.modWg n f).erased = s.erased := rfl
@[simp] theorem modWg_conbase : (s.modWg n f).conbase = s.conbase := rfl
@[simp] theorem modWg_conpos : (s.modWg n f).conpos = s.conpos := rfl
@[simp] theorem modWg_nonce : (s.modWg n f).nonce = s.nonce := rfl
@[simp] theorem modWg_attdst : (s.modWg n f).attdst = s.attdst := rfl
@[simp] theorem modWg_fused : (s.modWg n f).fused = s.fused := rfl
@[simp] theorem modWg_recovery : (s.modWg n f).recovery = s.recovery := rfl
@[simp] theorem modWg_image : (s.modWg n f).image = s.image := rfl
@[simp] theorem modWg_msix : (s.modWg n f).msix = s.msix := rfl
@[simp] theorem modWg_fns : (s.modWg n f).fns = s.fns := rfl
@[simp] theorem modWg_hostOut : (s.modWg n f).hostOut = s.hostOut := rfl
@[simp] theorem modWg_inbound : (s.modWg n f).inbound = s.inbound := rfl
@[simp] theorem modWg_homeWrites : (s.modWg n f).homeWrites = s.homeWrites := rfl
@[simp] theorem modWg_ports : (s.modWg n f).ports = s.ports := rfl
@[simp] theorem modWg_table : (s.modWg n f).table = s.table := rfl
@[simp] theorem modWg_seed : (s.modWg n f).seed = s.seed := rfl
@[simp] theorem modWg_routes : (s.modWg n f).routes = s.routes := rfl
@[simp] theorem modWg_topo : (s.modWg n f).topo = s.topo := rfl
@[simp] theorem modWg_holding : (s.modWg n f).holding = s.holding := rfl
@[simp] theorem modWg_staged : (s.modWg n f).staged = s.staged := rfl
@[simp] theorem modWg_fencing : (s.modWg n f).fencing = s.fencing := rfl
@[simp] theorem modWg_sent : (s.modWg n f).sent = s.sent := rfl
@[simp] theorem modWg_unacked : (s.modWg n f).unacked = s.unacked := rfl
@[simp] theorem modWg_fetchBuf : (s.modWg n f).fetchBuf = s.fetchBuf := rfl
@[simp] theorem modWg_colls : (s.modWg n f).colls = s.colls := rfl
@[simp] theorem modWg_applied : (s.modWg n f).applied = s.applied := rfl
@[simp] theorem modWg_barWait : (s.modWg n f).barWait = s.barWait := rfl
@[simp] theorem modWg_deadPkgs : (s.modWg n f).deadPkgs = s.deadPkgs := rfl

end

section
variable (s : State) (n : Nat) (f : Gang → Gang)

@[simp] theorem modGang_agenda : (s.modGang n f).agenda = s.agenda := rfl
@[simp] theorem modGang_side : (s.modGang n f).side = s.side := rfl
@[simp] theorem modGang_clock : (s.modGang n f).clock = s.clock := rfl
@[simp] theorem modGang_dev : (s.modGang n f).dev = s.dev := rfl
@[simp] theorem modGang_fresh : (s.modGang n f).fresh = s.fresh := rfl
@[simp] theorem modGang_nextId : (s.modGang n f).nextId = s.nextId := rfl
@[simp] theorem modGang_cur : (s.modGang n f).cur = s.cur := rfl
@[simp] theorem modGang_warps : (s.modGang n f).warps = s.warps := rfl
@[simp] theorem modGang_wgs : (s.modGang n f).wgs = s.wgs := rfl
@[simp] theorem modGang_gangs : (s.modGang n f).gangs = updAt (fun y => y.id == n) f s.gangs := rfl
@[simp] theorem modGang_regions : (s.modGang n f).regions = s.regions := rfl
@[simp] theorem modGang_gen : (s.modGang n f).gen = s.gen := rfl
@[simp] theorem modGang_launchLock : (s.modGang n f).launchLock = s.launchLock := rfl
@[simp] theorem modGang_rotAt : (s.modGang n f).rotAt = s.rotAt := rfl
@[simp] theorem modGang_mem : (s.modGang n f).mem = s.mem := rfl
@[simp] theorem modGang_hostMem : (s.modGang n f).hostMem = s.hostMem := rfl
@[simp] theorem modGang_hostPosted : (s.modGang n f).hostPosted = s.hostPosted := rfl
@[simp] theorem modGang_lostBacks : (s.modGang n f).lostBacks = s.lostBacks := rfl
@[simp] theorem modGang_cores : (s.modGang n f).cores = s.cores := rfl
@[simp] theorem modGang_clusters : (s.modGang n f).clusters = s.clusters := rfl
@[simp] theorem modGang_dies : (s.modGang n f).dies = s.dies := rfl
@[simp] theorem modGang_copies : (s.modGang n f).copies = s.copies := rfl
@[simp] theorem modGang_contribs : (s.modGang n f).contribs = s.contribs := rfl
@[simp] theorem modGang_racks : (s.modGang n f).racks = s.racks := rfl
@[simp] theorem modGang_leases : (s.modGang n f).leases = s.leases := rfl
@[simp] theorem modGang_farLines : (s.modGang n f).farLines = s.farLines := rfl
@[simp] theorem modGang_stage : (s.modGang n f).stage = s.stage := rfl
@[simp] theorem modGang_psReady : (s.modGang n f).psReady = s.psReady := rfl
@[simp] theorem modGang_linkw : (s.modGang n f).linkw = s.linkw := rfl
@[simp] theorem modGang_psAlarm : (s.modGang n f).psAlarm = s.psAlarm := rfl
@[simp] theorem modGang_degraded : (s.modGang n f).degraded = s.degraded := rfl
@[simp] theorem modGang_attbusy : (s.modGang n f).attbusy = s.attbusy := rfl
@[simp] theorem modGang_contain : (s.modGang n f).contain = s.contain := rfl
@[simp] theorem modGang_alarmClass : (s.modGang n f).alarmClass = s.alarmClass := rfl
@[simp] theorem modGang_policy : (s.modGang n f).policy = s.policy := rfl
@[simp] theorem modGang_alock : (s.modGang n f).alock = s.alock := rfl
@[simp] theorem modGang_erased : (s.modGang n f).erased = s.erased := rfl
@[simp] theorem modGang_conbase : (s.modGang n f).conbase = s.conbase := rfl
@[simp] theorem modGang_conpos : (s.modGang n f).conpos = s.conpos := rfl
@[simp] theorem modGang_nonce : (s.modGang n f).nonce = s.nonce := rfl
@[simp] theorem modGang_attdst : (s.modGang n f).attdst = s.attdst := rfl
@[simp] theorem modGang_fused : (s.modGang n f).fused = s.fused := rfl
@[simp] theorem modGang_recovery : (s.modGang n f).recovery = s.recovery := rfl
@[simp] theorem modGang_image : (s.modGang n f).image = s.image := rfl
@[simp] theorem modGang_msix : (s.modGang n f).msix = s.msix := rfl
@[simp] theorem modGang_fns : (s.modGang n f).fns = s.fns := rfl
@[simp] theorem modGang_hostOut : (s.modGang n f).hostOut = s.hostOut := rfl
@[simp] theorem modGang_inbound : (s.modGang n f).inbound = s.inbound := rfl
@[simp] theorem modGang_homeWrites : (s.modGang n f).homeWrites = s.homeWrites := rfl
@[simp] theorem modGang_ports : (s.modGang n f).ports = s.ports := rfl
@[simp] theorem modGang_table : (s.modGang n f).table = s.table := rfl
@[simp] theorem modGang_seed : (s.modGang n f).seed = s.seed := rfl
@[simp] theorem modGang_routes : (s.modGang n f).routes = s.routes := rfl
@[simp] theorem modGang_topo : (s.modGang n f).topo = s.topo := rfl
@[simp] theorem modGang_holding : (s.modGang n f).holding = s.holding := rfl
@[simp] theorem modGang_staged : (s.modGang n f).staged = s.staged := rfl
@[simp] theorem modGang_fencing : (s.modGang n f).fencing = s.fencing := rfl
@[simp] theorem modGang_sent : (s.modGang n f).sent = s.sent := rfl
@[simp] theorem modGang_unacked : (s.modGang n f).unacked = s.unacked := rfl
@[simp] theorem modGang_fetchBuf : (s.modGang n f).fetchBuf = s.fetchBuf := rfl
@[simp] theorem modGang_colls : (s.modGang n f).colls = s.colls := rfl
@[simp] theorem modGang_applied : (s.modGang n f).applied = s.applied := rfl
@[simp] theorem modGang_barWait : (s.modGang n f).barWait = s.barWait := rfl
@[simp] theorem modGang_deadPkgs : (s.modGang n f).deadPkgs = s.deadPkgs := rfl

end

section
variable (s : State) (n : Nat) (f : Region → Region)

@[simp] theorem modRegion_agenda : (s.modRegion n f).agenda = s.agenda := rfl
@[simp] theorem modRegion_side : (s.modRegion n f).side = s.side := rfl
@[simp] theorem modRegion_clock : (s.modRegion n f).clock = s.clock := rfl
@[simp] theorem modRegion_dev : (s.modRegion n f).dev = s.dev := rfl
@[simp] theorem modRegion_fresh : (s.modRegion n f).fresh = s.fresh := rfl
@[simp] theorem modRegion_nextId : (s.modRegion n f).nextId = s.nextId := rfl
@[simp] theorem modRegion_cur : (s.modRegion n f).cur = s.cur := rfl
@[simp] theorem modRegion_warps : (s.modRegion n f).warps = s.warps := rfl
@[simp] theorem modRegion_wgs : (s.modRegion n f).wgs = s.wgs := rfl
@[simp] theorem modRegion_gangs : (s.modRegion n f).gangs = s.gangs := rfl
@[simp] theorem modRegion_regions : (s.modRegion n f).regions = updAt (fun y => y.handle == n) f s.regions := rfl
@[simp] theorem modRegion_gen : (s.modRegion n f).gen = s.gen := rfl
@[simp] theorem modRegion_launchLock : (s.modRegion n f).launchLock = s.launchLock := rfl
@[simp] theorem modRegion_rotAt : (s.modRegion n f).rotAt = s.rotAt := rfl
@[simp] theorem modRegion_mem : (s.modRegion n f).mem = s.mem := rfl
@[simp] theorem modRegion_hostMem : (s.modRegion n f).hostMem = s.hostMem := rfl
@[simp] theorem modRegion_hostPosted : (s.modRegion n f).hostPosted = s.hostPosted := rfl
@[simp] theorem modRegion_lostBacks : (s.modRegion n f).lostBacks = s.lostBacks := rfl
@[simp] theorem modRegion_cores : (s.modRegion n f).cores = s.cores := rfl
@[simp] theorem modRegion_clusters : (s.modRegion n f).clusters = s.clusters := rfl
@[simp] theorem modRegion_dies : (s.modRegion n f).dies = s.dies := rfl
@[simp] theorem modRegion_copies : (s.modRegion n f).copies = s.copies := rfl
@[simp] theorem modRegion_contribs : (s.modRegion n f).contribs = s.contribs := rfl
@[simp] theorem modRegion_racks : (s.modRegion n f).racks = s.racks := rfl
@[simp] theorem modRegion_leases : (s.modRegion n f).leases = s.leases := rfl
@[simp] theorem modRegion_farLines : (s.modRegion n f).farLines = s.farLines := rfl
@[simp] theorem modRegion_stage : (s.modRegion n f).stage = s.stage := rfl
@[simp] theorem modRegion_psReady : (s.modRegion n f).psReady = s.psReady := rfl
@[simp] theorem modRegion_linkw : (s.modRegion n f).linkw = s.linkw := rfl
@[simp] theorem modRegion_psAlarm : (s.modRegion n f).psAlarm = s.psAlarm := rfl
@[simp] theorem modRegion_degraded : (s.modRegion n f).degraded = s.degraded := rfl
@[simp] theorem modRegion_attbusy : (s.modRegion n f).attbusy = s.attbusy := rfl
@[simp] theorem modRegion_contain : (s.modRegion n f).contain = s.contain := rfl
@[simp] theorem modRegion_alarmClass : (s.modRegion n f).alarmClass = s.alarmClass := rfl
@[simp] theorem modRegion_policy : (s.modRegion n f).policy = s.policy := rfl
@[simp] theorem modRegion_alock : (s.modRegion n f).alock = s.alock := rfl
@[simp] theorem modRegion_erased : (s.modRegion n f).erased = s.erased := rfl
@[simp] theorem modRegion_conbase : (s.modRegion n f).conbase = s.conbase := rfl
@[simp] theorem modRegion_conpos : (s.modRegion n f).conpos = s.conpos := rfl
@[simp] theorem modRegion_nonce : (s.modRegion n f).nonce = s.nonce := rfl
@[simp] theorem modRegion_attdst : (s.modRegion n f).attdst = s.attdst := rfl
@[simp] theorem modRegion_fused : (s.modRegion n f).fused = s.fused := rfl
@[simp] theorem modRegion_recovery : (s.modRegion n f).recovery = s.recovery := rfl
@[simp] theorem modRegion_image : (s.modRegion n f).image = s.image := rfl
@[simp] theorem modRegion_msix : (s.modRegion n f).msix = s.msix := rfl
@[simp] theorem modRegion_fns : (s.modRegion n f).fns = s.fns := rfl
@[simp] theorem modRegion_hostOut : (s.modRegion n f).hostOut = s.hostOut := rfl
@[simp] theorem modRegion_inbound : (s.modRegion n f).inbound = s.inbound := rfl
@[simp] theorem modRegion_homeWrites : (s.modRegion n f).homeWrites = s.homeWrites := rfl
@[simp] theorem modRegion_ports : (s.modRegion n f).ports = s.ports := rfl
@[simp] theorem modRegion_table : (s.modRegion n f).table = s.table := rfl
@[simp] theorem modRegion_seed : (s.modRegion n f).seed = s.seed := rfl
@[simp] theorem modRegion_routes : (s.modRegion n f).routes = s.routes := rfl
@[simp] theorem modRegion_topo : (s.modRegion n f).topo = s.topo := rfl
@[simp] theorem modRegion_holding : (s.modRegion n f).holding = s.holding := rfl
@[simp] theorem modRegion_staged : (s.modRegion n f).staged = s.staged := rfl
@[simp] theorem modRegion_fencing : (s.modRegion n f).fencing = s.fencing := rfl
@[simp] theorem modRegion_sent : (s.modRegion n f).sent = s.sent := rfl
@[simp] theorem modRegion_unacked : (s.modRegion n f).unacked = s.unacked := rfl
@[simp] theorem modRegion_fetchBuf : (s.modRegion n f).fetchBuf = s.fetchBuf := rfl
@[simp] theorem modRegion_colls : (s.modRegion n f).colls = s.colls := rfl
@[simp] theorem modRegion_applied : (s.modRegion n f).applied = s.applied := rfl
@[simp] theorem modRegion_barWait : (s.modRegion n f).barWait = s.barWait := rfl
@[simp] theorem modRegion_deadPkgs : (s.modRegion n f).deadPkgs = s.deadPkgs := rfl

end

section
variable (s : State) (x : Core)

@[simp] theorem setCore_agenda : (s.setCore x).agenda = s.agenda := rfl
@[simp] theorem setCore_side : (s.setCore x).side = s.side := rfl
@[simp] theorem setCore_clock : (s.setCore x).clock = s.clock := rfl
@[simp] theorem setCore_dev : (s.setCore x).dev = s.dev := rfl
@[simp] theorem setCore_fresh : (s.setCore x).fresh = s.fresh := rfl
@[simp] theorem setCore_nextId : (s.setCore x).nextId = s.nextId := rfl
@[simp] theorem setCore_cur : (s.setCore x).cur = s.cur := rfl
@[simp] theorem setCore_warps : (s.setCore x).warps = s.warps := rfl
@[simp] theorem setCore_wgs : (s.setCore x).wgs = s.wgs := rfl
@[simp] theorem setCore_gangs : (s.setCore x).gangs = s.gangs := rfl
@[simp] theorem setCore_regions : (s.setCore x).regions = s.regions := rfl
@[simp] theorem setCore_gen : (s.setCore x).gen = s.gen := rfl
@[simp] theorem setCore_launchLock : (s.setCore x).launchLock = s.launchLock := rfl
@[simp] theorem setCore_rotAt : (s.setCore x).rotAt = s.rotAt := rfl
@[simp] theorem setCore_mem : (s.setCore x).mem = s.mem := rfl
@[simp] theorem setCore_hostMem : (s.setCore x).hostMem = s.hostMem := rfl
@[simp] theorem setCore_hostPosted : (s.setCore x).hostPosted = s.hostPosted := rfl
@[simp] theorem setCore_lostBacks : (s.setCore x).lostBacks = s.lostBacks := rfl
@[simp] theorem setCore_cores : (s.setCore x).cores = putAt (fun y => y.id == x.id) x s.cores := rfl
@[simp] theorem setCore_clusters : (s.setCore x).clusters = s.clusters := rfl
@[simp] theorem setCore_dies : (s.setCore x).dies = s.dies := rfl
@[simp] theorem setCore_copies : (s.setCore x).copies = s.copies := rfl
@[simp] theorem setCore_contribs : (s.setCore x).contribs = s.contribs := rfl
@[simp] theorem setCore_racks : (s.setCore x).racks = s.racks := rfl
@[simp] theorem setCore_leases : (s.setCore x).leases = s.leases := rfl
@[simp] theorem setCore_farLines : (s.setCore x).farLines = s.farLines := rfl
@[simp] theorem setCore_stage : (s.setCore x).stage = s.stage := rfl
@[simp] theorem setCore_psReady : (s.setCore x).psReady = s.psReady := rfl
@[simp] theorem setCore_linkw : (s.setCore x).linkw = s.linkw := rfl
@[simp] theorem setCore_psAlarm : (s.setCore x).psAlarm = s.psAlarm := rfl
@[simp] theorem setCore_degraded : (s.setCore x).degraded = s.degraded := rfl
@[simp] theorem setCore_attbusy : (s.setCore x).attbusy = s.attbusy := rfl
@[simp] theorem setCore_contain : (s.setCore x).contain = s.contain := rfl
@[simp] theorem setCore_alarmClass : (s.setCore x).alarmClass = s.alarmClass := rfl
@[simp] theorem setCore_policy : (s.setCore x).policy = s.policy := rfl
@[simp] theorem setCore_alock : (s.setCore x).alock = s.alock := rfl
@[simp] theorem setCore_erased : (s.setCore x).erased = s.erased := rfl
@[simp] theorem setCore_conbase : (s.setCore x).conbase = s.conbase := rfl
@[simp] theorem setCore_conpos : (s.setCore x).conpos = s.conpos := rfl
@[simp] theorem setCore_nonce : (s.setCore x).nonce = s.nonce := rfl
@[simp] theorem setCore_attdst : (s.setCore x).attdst = s.attdst := rfl
@[simp] theorem setCore_fused : (s.setCore x).fused = s.fused := rfl
@[simp] theorem setCore_recovery : (s.setCore x).recovery = s.recovery := rfl
@[simp] theorem setCore_image : (s.setCore x).image = s.image := rfl
@[simp] theorem setCore_msix : (s.setCore x).msix = s.msix := rfl
@[simp] theorem setCore_fns : (s.setCore x).fns = s.fns := rfl
@[simp] theorem setCore_hostOut : (s.setCore x).hostOut = s.hostOut := rfl
@[simp] theorem setCore_inbound : (s.setCore x).inbound = s.inbound := rfl
@[simp] theorem setCore_homeWrites : (s.setCore x).homeWrites = s.homeWrites := rfl
@[simp] theorem setCore_ports : (s.setCore x).ports = s.ports := rfl
@[simp] theorem setCore_table : (s.setCore x).table = s.table := rfl
@[simp] theorem setCore_seed : (s.setCore x).seed = s.seed := rfl
@[simp] theorem setCore_routes : (s.setCore x).routes = s.routes := rfl
@[simp] theorem setCore_topo : (s.setCore x).topo = s.topo := rfl
@[simp] theorem setCore_holding : (s.setCore x).holding = s.holding := rfl
@[simp] theorem setCore_staged : (s.setCore x).staged = s.staged := rfl
@[simp] theorem setCore_fencing : (s.setCore x).fencing = s.fencing := rfl
@[simp] theorem setCore_sent : (s.setCore x).sent = s.sent := rfl
@[simp] theorem setCore_unacked : (s.setCore x).unacked = s.unacked := rfl
@[simp] theorem setCore_fetchBuf : (s.setCore x).fetchBuf = s.fetchBuf := rfl
@[simp] theorem setCore_colls : (s.setCore x).colls = s.colls := rfl
@[simp] theorem setCore_applied : (s.setCore x).applied = s.applied := rfl
@[simp] theorem setCore_barWait : (s.setCore x).barWait = s.barWait := rfl
@[simp] theorem setCore_deadPkgs : (s.setCore x).deadPkgs = s.deadPkgs := rfl

end

section
variable (s : State) (c : CoreId) (f : Core → Core)

@[simp] theorem modCore_agenda : (s.modCore c f).agenda = s.agenda := rfl
@[simp] theorem modCore_side : (s.modCore c f).side = s.side := rfl
@[simp] theorem modCore_clock : (s.modCore c f).clock = s.clock := rfl
@[simp] theorem modCore_dev : (s.modCore c f).dev = s.dev := rfl
@[simp] theorem modCore_fresh : (s.modCore c f).fresh = s.fresh := rfl
@[simp] theorem modCore_nextId : (s.modCore c f).nextId = s.nextId := rfl
@[simp] theorem modCore_cur : (s.modCore c f).cur = s.cur := rfl
@[simp] theorem modCore_warps : (s.modCore c f).warps = s.warps := rfl
@[simp] theorem modCore_wgs : (s.modCore c f).wgs = s.wgs := rfl
@[simp] theorem modCore_gangs : (s.modCore c f).gangs = s.gangs := rfl
@[simp] theorem modCore_regions : (s.modCore c f).regions = s.regions := rfl
@[simp] theorem modCore_gen : (s.modCore c f).gen = s.gen := rfl
@[simp] theorem modCore_launchLock : (s.modCore c f).launchLock = s.launchLock := rfl
@[simp] theorem modCore_rotAt : (s.modCore c f).rotAt = s.rotAt := rfl
@[simp] theorem modCore_mem : (s.modCore c f).mem = s.mem := rfl
@[simp] theorem modCore_hostMem : (s.modCore c f).hostMem = s.hostMem := rfl
@[simp] theorem modCore_hostPosted : (s.modCore c f).hostPosted = s.hostPosted := rfl
@[simp] theorem modCore_lostBacks : (s.modCore c f).lostBacks = s.lostBacks := rfl
@[simp] theorem modCore_cores : (s.modCore c f).cores = putAt (fun y => y.id == (f (s.getCore c)).id) (f (s.getCore c)) s.cores := rfl
@[simp] theorem modCore_clusters : (s.modCore c f).clusters = s.clusters := rfl
@[simp] theorem modCore_dies : (s.modCore c f).dies = s.dies := rfl
@[simp] theorem modCore_copies : (s.modCore c f).copies = s.copies := rfl
@[simp] theorem modCore_contribs : (s.modCore c f).contribs = s.contribs := rfl
@[simp] theorem modCore_racks : (s.modCore c f).racks = s.racks := rfl
@[simp] theorem modCore_leases : (s.modCore c f).leases = s.leases := rfl
@[simp] theorem modCore_farLines : (s.modCore c f).farLines = s.farLines := rfl
@[simp] theorem modCore_stage : (s.modCore c f).stage = s.stage := rfl
@[simp] theorem modCore_psReady : (s.modCore c f).psReady = s.psReady := rfl
@[simp] theorem modCore_linkw : (s.modCore c f).linkw = s.linkw := rfl
@[simp] theorem modCore_psAlarm : (s.modCore c f).psAlarm = s.psAlarm := rfl
@[simp] theorem modCore_degraded : (s.modCore c f).degraded = s.degraded := rfl
@[simp] theorem modCore_attbusy : (s.modCore c f).attbusy = s.attbusy := rfl
@[simp] theorem modCore_contain : (s.modCore c f).contain = s.contain := rfl
@[simp] theorem modCore_alarmClass : (s.modCore c f).alarmClass = s.alarmClass := rfl
@[simp] theorem modCore_policy : (s.modCore c f).policy = s.policy := rfl
@[simp] theorem modCore_alock : (s.modCore c f).alock = s.alock := rfl
@[simp] theorem modCore_erased : (s.modCore c f).erased = s.erased := rfl
@[simp] theorem modCore_conbase : (s.modCore c f).conbase = s.conbase := rfl
@[simp] theorem modCore_conpos : (s.modCore c f).conpos = s.conpos := rfl
@[simp] theorem modCore_nonce : (s.modCore c f).nonce = s.nonce := rfl
@[simp] theorem modCore_attdst : (s.modCore c f).attdst = s.attdst := rfl
@[simp] theorem modCore_fused : (s.modCore c f).fused = s.fused := rfl
@[simp] theorem modCore_recovery : (s.modCore c f).recovery = s.recovery := rfl
@[simp] theorem modCore_image : (s.modCore c f).image = s.image := rfl
@[simp] theorem modCore_msix : (s.modCore c f).msix = s.msix := rfl
@[simp] theorem modCore_fns : (s.modCore c f).fns = s.fns := rfl
@[simp] theorem modCore_hostOut : (s.modCore c f).hostOut = s.hostOut := rfl
@[simp] theorem modCore_inbound : (s.modCore c f).inbound = s.inbound := rfl
@[simp] theorem modCore_homeWrites : (s.modCore c f).homeWrites = s.homeWrites := rfl
@[simp] theorem modCore_ports : (s.modCore c f).ports = s.ports := rfl
@[simp] theorem modCore_table : (s.modCore c f).table = s.table := rfl
@[simp] theorem modCore_seed : (s.modCore c f).seed = s.seed := rfl
@[simp] theorem modCore_routes : (s.modCore c f).routes = s.routes := rfl
@[simp] theorem modCore_topo : (s.modCore c f).topo = s.topo := rfl
@[simp] theorem modCore_holding : (s.modCore c f).holding = s.holding := rfl
@[simp] theorem modCore_staged : (s.modCore c f).staged = s.staged := rfl
@[simp] theorem modCore_fencing : (s.modCore c f).fencing = s.fencing := rfl
@[simp] theorem modCore_sent : (s.modCore c f).sent = s.sent := rfl
@[simp] theorem modCore_unacked : (s.modCore c f).unacked = s.unacked := rfl
@[simp] theorem modCore_fetchBuf : (s.modCore c f).fetchBuf = s.fetchBuf := rfl
@[simp] theorem modCore_colls : (s.modCore c f).colls = s.colls := rfl
@[simp] theorem modCore_applied : (s.modCore c f).applied = s.applied := rfl
@[simp] theorem modCore_barWait : (s.modCore c f).barWait = s.barWait := rfl
@[simp] theorem modCore_deadPkgs : (s.modCore c f).deadPkgs = s.deadPkgs := rfl

end

section
variable (s : State) (x : Cluster)

@[simp] theorem setCluster_agenda : (s.setCluster x).agenda = s.agenda := rfl
@[simp] theorem setCluster_side : (s.setCluster x).side = s.side := rfl
@[simp] theorem setCluster_clock : (s.setCluster x).clock = s.clock := rfl
@[simp] theorem setCluster_dev : (s.setCluster x).dev = s.dev := rfl
@[simp] theorem setCluster_fresh : (s.setCluster x).fresh = s.fresh := rfl
@[simp] theorem setCluster_nextId : (s.setCluster x).nextId = s.nextId := rfl
@[simp] theorem setCluster_cur : (s.setCluster x).cur = s.cur := rfl
@[simp] theorem setCluster_warps : (s.setCluster x).warps = s.warps := rfl
@[simp] theorem setCluster_wgs : (s.setCluster x).wgs = s.wgs := rfl
@[simp] theorem setCluster_gangs : (s.setCluster x).gangs = s.gangs := rfl
@[simp] theorem setCluster_regions : (s.setCluster x).regions = s.regions := rfl
@[simp] theorem setCluster_gen : (s.setCluster x).gen = s.gen := rfl
@[simp] theorem setCluster_launchLock : (s.setCluster x).launchLock = s.launchLock := rfl
@[simp] theorem setCluster_rotAt : (s.setCluster x).rotAt = s.rotAt := rfl
@[simp] theorem setCluster_mem : (s.setCluster x).mem = s.mem := rfl
@[simp] theorem setCluster_hostMem : (s.setCluster x).hostMem = s.hostMem := rfl
@[simp] theorem setCluster_hostPosted : (s.setCluster x).hostPosted = s.hostPosted := rfl
@[simp] theorem setCluster_lostBacks : (s.setCluster x).lostBacks = s.lostBacks := rfl
@[simp] theorem setCluster_cores : (s.setCluster x).cores = s.cores := rfl
@[simp] theorem setCluster_clusters : (s.setCluster x).clusters = putAt (fun y => y.id == x.id) x s.clusters := rfl
@[simp] theorem setCluster_dies : (s.setCluster x).dies = s.dies := rfl
@[simp] theorem setCluster_copies : (s.setCluster x).copies = s.copies := rfl
@[simp] theorem setCluster_contribs : (s.setCluster x).contribs = s.contribs := rfl
@[simp] theorem setCluster_racks : (s.setCluster x).racks = s.racks := rfl
@[simp] theorem setCluster_leases : (s.setCluster x).leases = s.leases := rfl
@[simp] theorem setCluster_farLines : (s.setCluster x).farLines = s.farLines := rfl
@[simp] theorem setCluster_stage : (s.setCluster x).stage = s.stage := rfl
@[simp] theorem setCluster_psReady : (s.setCluster x).psReady = s.psReady := rfl
@[simp] theorem setCluster_linkw : (s.setCluster x).linkw = s.linkw := rfl
@[simp] theorem setCluster_psAlarm : (s.setCluster x).psAlarm = s.psAlarm := rfl
@[simp] theorem setCluster_degraded : (s.setCluster x).degraded = s.degraded := rfl
@[simp] theorem setCluster_attbusy : (s.setCluster x).attbusy = s.attbusy := rfl
@[simp] theorem setCluster_contain : (s.setCluster x).contain = s.contain := rfl
@[simp] theorem setCluster_alarmClass : (s.setCluster x).alarmClass = s.alarmClass := rfl
@[simp] theorem setCluster_policy : (s.setCluster x).policy = s.policy := rfl
@[simp] theorem setCluster_alock : (s.setCluster x).alock = s.alock := rfl
@[simp] theorem setCluster_erased : (s.setCluster x).erased = s.erased := rfl
@[simp] theorem setCluster_conbase : (s.setCluster x).conbase = s.conbase := rfl
@[simp] theorem setCluster_conpos : (s.setCluster x).conpos = s.conpos := rfl
@[simp] theorem setCluster_nonce : (s.setCluster x).nonce = s.nonce := rfl
@[simp] theorem setCluster_attdst : (s.setCluster x).attdst = s.attdst := rfl
@[simp] theorem setCluster_fused : (s.setCluster x).fused = s.fused := rfl
@[simp] theorem setCluster_recovery : (s.setCluster x).recovery = s.recovery := rfl
@[simp] theorem setCluster_image : (s.setCluster x).image = s.image := rfl
@[simp] theorem setCluster_msix : (s.setCluster x).msix = s.msix := rfl
@[simp] theorem setCluster_fns : (s.setCluster x).fns = s.fns := rfl
@[simp] theorem setCluster_hostOut : (s.setCluster x).hostOut = s.hostOut := rfl
@[simp] theorem setCluster_inbound : (s.setCluster x).inbound = s.inbound := rfl
@[simp] theorem setCluster_homeWrites : (s.setCluster x).homeWrites = s.homeWrites := rfl
@[simp] theorem setCluster_ports : (s.setCluster x).ports = s.ports := rfl
@[simp] theorem setCluster_table : (s.setCluster x).table = s.table := rfl
@[simp] theorem setCluster_seed : (s.setCluster x).seed = s.seed := rfl
@[simp] theorem setCluster_routes : (s.setCluster x).routes = s.routes := rfl
@[simp] theorem setCluster_topo : (s.setCluster x).topo = s.topo := rfl
@[simp] theorem setCluster_holding : (s.setCluster x).holding = s.holding := rfl
@[simp] theorem setCluster_staged : (s.setCluster x).staged = s.staged := rfl
@[simp] theorem setCluster_fencing : (s.setCluster x).fencing = s.fencing := rfl
@[simp] theorem setCluster_sent : (s.setCluster x).sent = s.sent := rfl
@[simp] theorem setCluster_unacked : (s.setCluster x).unacked = s.unacked := rfl
@[simp] theorem setCluster_fetchBuf : (s.setCluster x).fetchBuf = s.fetchBuf := rfl
@[simp] theorem setCluster_colls : (s.setCluster x).colls = s.colls := rfl
@[simp] theorem setCluster_applied : (s.setCluster x).applied = s.applied := rfl
@[simp] theorem setCluster_barWait : (s.setCluster x).barWait = s.barWait := rfl
@[simp] theorem setCluster_deadPkgs : (s.setCluster x).deadPkgs = s.deadPkgs := rfl

end

section
variable (s : State) (c : CluId) (f : Cluster → Cluster)

@[simp] theorem modCluster_agenda : (s.modCluster c f).agenda = s.agenda := rfl
@[simp] theorem modCluster_side : (s.modCluster c f).side = s.side := rfl
@[simp] theorem modCluster_clock : (s.modCluster c f).clock = s.clock := rfl
@[simp] theorem modCluster_dev : (s.modCluster c f).dev = s.dev := rfl
@[simp] theorem modCluster_fresh : (s.modCluster c f).fresh = s.fresh := rfl
@[simp] theorem modCluster_nextId : (s.modCluster c f).nextId = s.nextId := rfl
@[simp] theorem modCluster_cur : (s.modCluster c f).cur = s.cur := rfl
@[simp] theorem modCluster_warps : (s.modCluster c f).warps = s.warps := rfl
@[simp] theorem modCluster_wgs : (s.modCluster c f).wgs = s.wgs := rfl
@[simp] theorem modCluster_gangs : (s.modCluster c f).gangs = s.gangs := rfl
@[simp] theorem modCluster_regions : (s.modCluster c f).regions = s.regions := rfl
@[simp] theorem modCluster_gen : (s.modCluster c f).gen = s.gen := rfl
@[simp] theorem modCluster_launchLock : (s.modCluster c f).launchLock = s.launchLock := rfl
@[simp] theorem modCluster_rotAt : (s.modCluster c f).rotAt = s.rotAt := rfl
@[simp] theorem modCluster_mem : (s.modCluster c f).mem = s.mem := rfl
@[simp] theorem modCluster_hostMem : (s.modCluster c f).hostMem = s.hostMem := rfl
@[simp] theorem modCluster_hostPosted : (s.modCluster c f).hostPosted = s.hostPosted := rfl
@[simp] theorem modCluster_lostBacks : (s.modCluster c f).lostBacks = s.lostBacks := rfl
@[simp] theorem modCluster_cores : (s.modCluster c f).cores = s.cores := rfl
@[simp] theorem modCluster_clusters : (s.modCluster c f).clusters = putAt (fun y => y.id == (f (s.getCluster c)).id) (f (s.getCluster c)) s.clusters := rfl
@[simp] theorem modCluster_dies : (s.modCluster c f).dies = s.dies := rfl
@[simp] theorem modCluster_copies : (s.modCluster c f).copies = s.copies := rfl
@[simp] theorem modCluster_contribs : (s.modCluster c f).contribs = s.contribs := rfl
@[simp] theorem modCluster_racks : (s.modCluster c f).racks = s.racks := rfl
@[simp] theorem modCluster_leases : (s.modCluster c f).leases = s.leases := rfl
@[simp] theorem modCluster_farLines : (s.modCluster c f).farLines = s.farLines := rfl
@[simp] theorem modCluster_stage : (s.modCluster c f).stage = s.stage := rfl
@[simp] theorem modCluster_psReady : (s.modCluster c f).psReady = s.psReady := rfl
@[simp] theorem modCluster_linkw : (s.modCluster c f).linkw = s.linkw := rfl
@[simp] theorem modCluster_psAlarm : (s.modCluster c f).psAlarm = s.psAlarm := rfl
@[simp] theorem modCluster_degraded : (s.modCluster c f).degraded = s.degraded := rfl
@[simp] theorem modCluster_attbusy : (s.modCluster c f).attbusy = s.attbusy := rfl
@[simp] theorem modCluster_contain : (s.modCluster c f).contain = s.contain := rfl
@[simp] theorem modCluster_alarmClass : (s.modCluster c f).alarmClass = s.alarmClass := rfl
@[simp] theorem modCluster_policy : (s.modCluster c f).policy = s.policy := rfl
@[simp] theorem modCluster_alock : (s.modCluster c f).alock = s.alock := rfl
@[simp] theorem modCluster_erased : (s.modCluster c f).erased = s.erased := rfl
@[simp] theorem modCluster_conbase : (s.modCluster c f).conbase = s.conbase := rfl
@[simp] theorem modCluster_conpos : (s.modCluster c f).conpos = s.conpos := rfl
@[simp] theorem modCluster_nonce : (s.modCluster c f).nonce = s.nonce := rfl
@[simp] theorem modCluster_attdst : (s.modCluster c f).attdst = s.attdst := rfl
@[simp] theorem modCluster_fused : (s.modCluster c f).fused = s.fused := rfl
@[simp] theorem modCluster_recovery : (s.modCluster c f).recovery = s.recovery := rfl
@[simp] theorem modCluster_image : (s.modCluster c f).image = s.image := rfl
@[simp] theorem modCluster_msix : (s.modCluster c f).msix = s.msix := rfl
@[simp] theorem modCluster_fns : (s.modCluster c f).fns = s.fns := rfl
@[simp] theorem modCluster_hostOut : (s.modCluster c f).hostOut = s.hostOut := rfl
@[simp] theorem modCluster_inbound : (s.modCluster c f).inbound = s.inbound := rfl
@[simp] theorem modCluster_homeWrites : (s.modCluster c f).homeWrites = s.homeWrites := rfl
@[simp] theorem modCluster_ports : (s.modCluster c f).ports = s.ports := rfl
@[simp] theorem modCluster_table : (s.modCluster c f).table = s.table := rfl
@[simp] theorem modCluster_seed : (s.modCluster c f).seed = s.seed := rfl
@[simp] theorem modCluster_routes : (s.modCluster c f).routes = s.routes := rfl
@[simp] theorem modCluster_topo : (s.modCluster c f).topo = s.topo := rfl
@[simp] theorem modCluster_holding : (s.modCluster c f).holding = s.holding := rfl
@[simp] theorem modCluster_staged : (s.modCluster c f).staged = s.staged := rfl
@[simp] theorem modCluster_fencing : (s.modCluster c f).fencing = s.fencing := rfl
@[simp] theorem modCluster_sent : (s.modCluster c f).sent = s.sent := rfl
@[simp] theorem modCluster_unacked : (s.modCluster c f).unacked = s.unacked := rfl
@[simp] theorem modCluster_fetchBuf : (s.modCluster c f).fetchBuf = s.fetchBuf := rfl
@[simp] theorem modCluster_colls : (s.modCluster c f).colls = s.colls := rfl
@[simp] theorem modCluster_applied : (s.modCluster c f).applied = s.applied := rfl
@[simp] theorem modCluster_barWait : (s.modCluster c f).barWait = s.barWait := rfl
@[simp] theorem modCluster_deadPkgs : (s.modCluster c f).deadPkgs = s.deadPkgs := rfl

end

section
variable (s : State) (x : Die)

@[simp] theorem setDie_agenda : (s.setDie x).agenda = s.agenda := rfl
@[simp] theorem setDie_side : (s.setDie x).side = s.side := rfl
@[simp] theorem setDie_clock : (s.setDie x).clock = s.clock := rfl
@[simp] theorem setDie_dev : (s.setDie x).dev = s.dev := rfl
@[simp] theorem setDie_fresh : (s.setDie x).fresh = s.fresh := rfl
@[simp] theorem setDie_nextId : (s.setDie x).nextId = s.nextId := rfl
@[simp] theorem setDie_cur : (s.setDie x).cur = s.cur := rfl
@[simp] theorem setDie_warps : (s.setDie x).warps = s.warps := rfl
@[simp] theorem setDie_wgs : (s.setDie x).wgs = s.wgs := rfl
@[simp] theorem setDie_gangs : (s.setDie x).gangs = s.gangs := rfl
@[simp] theorem setDie_regions : (s.setDie x).regions = s.regions := rfl
@[simp] theorem setDie_gen : (s.setDie x).gen = s.gen := rfl
@[simp] theorem setDie_launchLock : (s.setDie x).launchLock = s.launchLock := rfl
@[simp] theorem setDie_rotAt : (s.setDie x).rotAt = s.rotAt := rfl
@[simp] theorem setDie_mem : (s.setDie x).mem = s.mem := rfl
@[simp] theorem setDie_hostMem : (s.setDie x).hostMem = s.hostMem := rfl
@[simp] theorem setDie_hostPosted : (s.setDie x).hostPosted = s.hostPosted := rfl
@[simp] theorem setDie_lostBacks : (s.setDie x).lostBacks = s.lostBacks := rfl
@[simp] theorem setDie_cores : (s.setDie x).cores = s.cores := rfl
@[simp] theorem setDie_clusters : (s.setDie x).clusters = s.clusters := rfl
@[simp] theorem setDie_dies : (s.setDie x).dies = putAt (fun y => y.id == x.id) x s.dies := rfl
@[simp] theorem setDie_copies : (s.setDie x).copies = s.copies := rfl
@[simp] theorem setDie_contribs : (s.setDie x).contribs = s.contribs := rfl
@[simp] theorem setDie_racks : (s.setDie x).racks = s.racks := rfl
@[simp] theorem setDie_leases : (s.setDie x).leases = s.leases := rfl
@[simp] theorem setDie_farLines : (s.setDie x).farLines = s.farLines := rfl
@[simp] theorem setDie_stage : (s.setDie x).stage = s.stage := rfl
@[simp] theorem setDie_psReady : (s.setDie x).psReady = s.psReady := rfl
@[simp] theorem setDie_linkw : (s.setDie x).linkw = s.linkw := rfl
@[simp] theorem setDie_psAlarm : (s.setDie x).psAlarm = s.psAlarm := rfl
@[simp] theorem setDie_degraded : (s.setDie x).degraded = s.degraded := rfl
@[simp] theorem setDie_attbusy : (s.setDie x).attbusy = s.attbusy := rfl
@[simp] theorem setDie_contain : (s.setDie x).contain = s.contain := rfl
@[simp] theorem setDie_alarmClass : (s.setDie x).alarmClass = s.alarmClass := rfl
@[simp] theorem setDie_policy : (s.setDie x).policy = s.policy := rfl
@[simp] theorem setDie_alock : (s.setDie x).alock = s.alock := rfl
@[simp] theorem setDie_erased : (s.setDie x).erased = s.erased := rfl
@[simp] theorem setDie_conbase : (s.setDie x).conbase = s.conbase := rfl
@[simp] theorem setDie_conpos : (s.setDie x).conpos = s.conpos := rfl
@[simp] theorem setDie_nonce : (s.setDie x).nonce = s.nonce := rfl
@[simp] theorem setDie_attdst : (s.setDie x).attdst = s.attdst := rfl
@[simp] theorem setDie_fused : (s.setDie x).fused = s.fused := rfl
@[simp] theorem setDie_recovery : (s.setDie x).recovery = s.recovery := rfl
@[simp] theorem setDie_image : (s.setDie x).image = s.image := rfl
@[simp] theorem setDie_msix : (s.setDie x).msix = s.msix := rfl
@[simp] theorem setDie_fns : (s.setDie x).fns = s.fns := rfl
@[simp] theorem setDie_hostOut : (s.setDie x).hostOut = s.hostOut := rfl
@[simp] theorem setDie_inbound : (s.setDie x).inbound = s.inbound := rfl
@[simp] theorem setDie_homeWrites : (s.setDie x).homeWrites = s.homeWrites := rfl
@[simp] theorem setDie_ports : (s.setDie x).ports = s.ports := rfl
@[simp] theorem setDie_table : (s.setDie x).table = s.table := rfl
@[simp] theorem setDie_seed : (s.setDie x).seed = s.seed := rfl
@[simp] theorem setDie_routes : (s.setDie x).routes = s.routes := rfl
@[simp] theorem setDie_topo : (s.setDie x).topo = s.topo := rfl
@[simp] theorem setDie_holding : (s.setDie x).holding = s.holding := rfl
@[simp] theorem setDie_staged : (s.setDie x).staged = s.staged := rfl
@[simp] theorem setDie_fencing : (s.setDie x).fencing = s.fencing := rfl
@[simp] theorem setDie_sent : (s.setDie x).sent = s.sent := rfl
@[simp] theorem setDie_unacked : (s.setDie x).unacked = s.unacked := rfl
@[simp] theorem setDie_fetchBuf : (s.setDie x).fetchBuf = s.fetchBuf := rfl
@[simp] theorem setDie_colls : (s.setDie x).colls = s.colls := rfl
@[simp] theorem setDie_applied : (s.setDie x).applied = s.applied := rfl
@[simp] theorem setDie_barWait : (s.setDie x).barWait = s.barWait := rfl
@[simp] theorem setDie_deadPkgs : (s.setDie x).deadPkgs = s.deadPkgs := rfl

end

section
variable (s : State) (d : Nat) (f : Die → Die)

@[simp] theorem modDie_agenda : (s.modDie d f).agenda = s.agenda := rfl
@[simp] theorem modDie_side : (s.modDie d f).side = s.side := rfl
@[simp] theorem modDie_clock : (s.modDie d f).clock = s.clock := rfl
@[simp] theorem modDie_dev : (s.modDie d f).dev = s.dev := rfl
@[simp] theorem modDie_fresh : (s.modDie d f).fresh = s.fresh := rfl
@[simp] theorem modDie_nextId : (s.modDie d f).nextId = s.nextId := rfl
@[simp] theorem modDie_cur : (s.modDie d f).cur = s.cur := rfl
@[simp] theorem modDie_warps : (s.modDie d f).warps = s.warps := rfl
@[simp] theorem modDie_wgs : (s.modDie d f).wgs = s.wgs := rfl
@[simp] theorem modDie_gangs : (s.modDie d f).gangs = s.gangs := rfl
@[simp] theorem modDie_regions : (s.modDie d f).regions = s.regions := rfl
@[simp] theorem modDie_gen : (s.modDie d f).gen = s.gen := rfl
@[simp] theorem modDie_launchLock : (s.modDie d f).launchLock = s.launchLock := rfl
@[simp] theorem modDie_rotAt : (s.modDie d f).rotAt = s.rotAt := rfl
@[simp] theorem modDie_mem : (s.modDie d f).mem = s.mem := rfl
@[simp] theorem modDie_hostMem : (s.modDie d f).hostMem = s.hostMem := rfl
@[simp] theorem modDie_hostPosted : (s.modDie d f).hostPosted = s.hostPosted := rfl
@[simp] theorem modDie_lostBacks : (s.modDie d f).lostBacks = s.lostBacks := rfl
@[simp] theorem modDie_cores : (s.modDie d f).cores = s.cores := rfl
@[simp] theorem modDie_clusters : (s.modDie d f).clusters = s.clusters := rfl
@[simp] theorem modDie_dies : (s.modDie d f).dies = putAt (fun y => y.id == (f (s.getDie d)).id) (f (s.getDie d)) s.dies := rfl
@[simp] theorem modDie_copies : (s.modDie d f).copies = s.copies := rfl
@[simp] theorem modDie_contribs : (s.modDie d f).contribs = s.contribs := rfl
@[simp] theorem modDie_racks : (s.modDie d f).racks = s.racks := rfl
@[simp] theorem modDie_leases : (s.modDie d f).leases = s.leases := rfl
@[simp] theorem modDie_farLines : (s.modDie d f).farLines = s.farLines := rfl
@[simp] theorem modDie_stage : (s.modDie d f).stage = s.stage := rfl
@[simp] theorem modDie_psReady : (s.modDie d f).psReady = s.psReady := rfl
@[simp] theorem modDie_linkw : (s.modDie d f).linkw = s.linkw := rfl
@[simp] theorem modDie_psAlarm : (s.modDie d f).psAlarm = s.psAlarm := rfl
@[simp] theorem modDie_degraded : (s.modDie d f).degraded = s.degraded := rfl
@[simp] theorem modDie_attbusy : (s.modDie d f).attbusy = s.attbusy := rfl
@[simp] theorem modDie_contain : (s.modDie d f).contain = s.contain := rfl
@[simp] theorem modDie_alarmClass : (s.modDie d f).alarmClass = s.alarmClass := rfl
@[simp] theorem modDie_policy : (s.modDie d f).policy = s.policy := rfl
@[simp] theorem modDie_alock : (s.modDie d f).alock = s.alock := rfl
@[simp] theorem modDie_erased : (s.modDie d f).erased = s.erased := rfl
@[simp] theorem modDie_conbase : (s.modDie d f).conbase = s.conbase := rfl
@[simp] theorem modDie_conpos : (s.modDie d f).conpos = s.conpos := rfl
@[simp] theorem modDie_nonce : (s.modDie d f).nonce = s.nonce := rfl
@[simp] theorem modDie_attdst : (s.modDie d f).attdst = s.attdst := rfl
@[simp] theorem modDie_fused : (s.modDie d f).fused = s.fused := rfl
@[simp] theorem modDie_recovery : (s.modDie d f).recovery = s.recovery := rfl
@[simp] theorem modDie_image : (s.modDie d f).image = s.image := rfl
@[simp] theorem modDie_msix : (s.modDie d f).msix = s.msix := rfl
@[simp] theorem modDie_fns : (s.modDie d f).fns = s.fns := rfl
@[simp] theorem modDie_hostOut : (s.modDie d f).hostOut = s.hostOut := rfl
@[simp] theorem modDie_inbound : (s.modDie d f).inbound = s.inbound := rfl
@[simp] theorem modDie_homeWrites : (s.modDie d f).homeWrites = s.homeWrites := rfl
@[simp] theorem modDie_ports : (s.modDie d f).ports = s.ports := rfl
@[simp] theorem modDie_table : (s.modDie d f).table = s.table := rfl
@[simp] theorem modDie_seed : (s.modDie d f).seed = s.seed := rfl
@[simp] theorem modDie_routes : (s.modDie d f).routes = s.routes := rfl
@[simp] theorem modDie_topo : (s.modDie d f).topo = s.topo := rfl
@[simp] theorem modDie_holding : (s.modDie d f).holding = s.holding := rfl
@[simp] theorem modDie_staged : (s.modDie d f).staged = s.staged := rfl
@[simp] theorem modDie_fencing : (s.modDie d f).fencing = s.fencing := rfl
@[simp] theorem modDie_sent : (s.modDie d f).sent = s.sent := rfl
@[simp] theorem modDie_unacked : (s.modDie d f).unacked = s.unacked := rfl
@[simp] theorem modDie_fetchBuf : (s.modDie d f).fetchBuf = s.fetchBuf := rfl
@[simp] theorem modDie_colls : (s.modDie d f).colls = s.colls := rfl
@[simp] theorem modDie_applied : (s.modDie d f).applied = s.applied := rfl
@[simp] theorem modDie_barWait : (s.modDie d f).barWait = s.barWait := rfl
@[simp] theorem modDie_deadPkgs : (s.modDie d f).deadPkgs = s.deadPkgs := rfl

end

section
variable (s : State) (p : Nat) (f : Port → Port)

@[simp] theorem modPort_agenda : (s.modPort p f).agenda = s.agenda := rfl
@[simp] theorem modPort_side : (s.modPort p f).side = s.side := rfl
@[simp] theorem modPort_clock : (s.modPort p f).clock = s.clock := rfl
@[simp] theorem modPort_dev : (s.modPort p f).dev = s.dev := rfl
@[simp] theorem modPort_fresh : (s.modPort p f).fresh = s.fresh := rfl
@[simp] theorem modPort_nextId : (s.modPort p f).nextId = s.nextId := rfl
@[simp] theorem modPort_cur : (s.modPort p f).cur = s.cur := rfl
@[simp] theorem modPort_warps : (s.modPort p f).warps = s.warps := rfl
@[simp] theorem modPort_wgs : (s.modPort p f).wgs = s.wgs := rfl
@[simp] theorem modPort_gangs : (s.modPort p f).gangs = s.gangs := rfl
@[simp] theorem modPort_regions : (s.modPort p f).regions = s.regions := rfl
@[simp] theorem modPort_gen : (s.modPort p f).gen = s.gen := rfl
@[simp] theorem modPort_launchLock : (s.modPort p f).launchLock = s.launchLock := rfl
@[simp] theorem modPort_rotAt : (s.modPort p f).rotAt = s.rotAt := rfl
@[simp] theorem modPort_mem : (s.modPort p f).mem = s.mem := rfl
@[simp] theorem modPort_hostMem : (s.modPort p f).hostMem = s.hostMem := rfl
@[simp] theorem modPort_hostPosted : (s.modPort p f).hostPosted = s.hostPosted := rfl
@[simp] theorem modPort_lostBacks : (s.modPort p f).lostBacks = s.lostBacks := rfl
@[simp] theorem modPort_cores : (s.modPort p f).cores = s.cores := rfl
@[simp] theorem modPort_clusters : (s.modPort p f).clusters = s.clusters := rfl
@[simp] theorem modPort_dies : (s.modPort p f).dies = s.dies := rfl
@[simp] theorem modPort_copies : (s.modPort p f).copies = s.copies := rfl
@[simp] theorem modPort_contribs : (s.modPort p f).contribs = s.contribs := rfl
@[simp] theorem modPort_racks : (s.modPort p f).racks = s.racks := rfl
@[simp] theorem modPort_leases : (s.modPort p f).leases = s.leases := rfl
@[simp] theorem modPort_farLines : (s.modPort p f).farLines = s.farLines := rfl
@[simp] theorem modPort_stage : (s.modPort p f).stage = s.stage := rfl
@[simp] theorem modPort_psReady : (s.modPort p f).psReady = s.psReady := rfl
@[simp] theorem modPort_linkw : (s.modPort p f).linkw = s.linkw := rfl
@[simp] theorem modPort_psAlarm : (s.modPort p f).psAlarm = s.psAlarm := rfl
@[simp] theorem modPort_degraded : (s.modPort p f).degraded = s.degraded := rfl
@[simp] theorem modPort_attbusy : (s.modPort p f).attbusy = s.attbusy := rfl
@[simp] theorem modPort_contain : (s.modPort p f).contain = s.contain := rfl
@[simp] theorem modPort_alarmClass : (s.modPort p f).alarmClass = s.alarmClass := rfl
@[simp] theorem modPort_policy : (s.modPort p f).policy = s.policy := rfl
@[simp] theorem modPort_alock : (s.modPort p f).alock = s.alock := rfl
@[simp] theorem modPort_erased : (s.modPort p f).erased = s.erased := rfl
@[simp] theorem modPort_conbase : (s.modPort p f).conbase = s.conbase := rfl
@[simp] theorem modPort_conpos : (s.modPort p f).conpos = s.conpos := rfl
@[simp] theorem modPort_nonce : (s.modPort p f).nonce = s.nonce := rfl
@[simp] theorem modPort_attdst : (s.modPort p f).attdst = s.attdst := rfl
@[simp] theorem modPort_fused : (s.modPort p f).fused = s.fused := rfl
@[simp] theorem modPort_recovery : (s.modPort p f).recovery = s.recovery := rfl
@[simp] theorem modPort_image : (s.modPort p f).image = s.image := rfl
@[simp] theorem modPort_msix : (s.modPort p f).msix = s.msix := rfl
@[simp] theorem modPort_fns : (s.modPort p f).fns = s.fns := rfl
@[simp] theorem modPort_hostOut : (s.modPort p f).hostOut = s.hostOut := rfl
@[simp] theorem modPort_inbound : (s.modPort p f).inbound = s.inbound := rfl
@[simp] theorem modPort_homeWrites : (s.modPort p f).homeWrites = s.homeWrites := rfl
@[simp] theorem modPort_ports : (s.modPort p f).ports = s.ports.modify p f := rfl
@[simp] theorem modPort_table : (s.modPort p f).table = s.table := rfl
@[simp] theorem modPort_seed : (s.modPort p f).seed = s.seed := rfl
@[simp] theorem modPort_routes : (s.modPort p f).routes = s.routes := rfl
@[simp] theorem modPort_topo : (s.modPort p f).topo = s.topo := rfl
@[simp] theorem modPort_holding : (s.modPort p f).holding = s.holding := rfl
@[simp] theorem modPort_staged : (s.modPort p f).staged = s.staged := rfl
@[simp] theorem modPort_fencing : (s.modPort p f).fencing = s.fencing := rfl
@[simp] theorem modPort_sent : (s.modPort p f).sent = s.sent := rfl
@[simp] theorem modPort_unacked : (s.modPort p f).unacked = s.unacked := rfl
@[simp] theorem modPort_fetchBuf : (s.modPort p f).fetchBuf = s.fetchBuf := rfl
@[simp] theorem modPort_colls : (s.modPort p f).colls = s.colls := rfl
@[simp] theorem modPort_applied : (s.modPort p f).applied = s.applied := rfl
@[simp] theorem modPort_barWait : (s.modPort p f).barWait = s.barWait := rfl
@[simp] theorem modPort_deadPkgs : (s.modPort p f).deadPkgs = s.deadPkgs := rfl

end

section
variable (s : State) (k : Nat) (f : Fn → Fn)

@[simp] theorem modFn_agenda : (s.modFn k f).agenda = s.agenda := rfl
@[simp] theorem modFn_side : (s.modFn k f).side = s.side := rfl
@[simp] theorem modFn_clock : (s.modFn k f).clock = s.clock := rfl
@[simp] theorem modFn_dev : (s.modFn k f).dev = s.dev := rfl
@[simp] theorem modFn_fresh : (s.modFn k f).fresh = s.fresh := rfl
@[simp] theorem modFn_nextId : (s.modFn k f).nextId = s.nextId := rfl
@[simp] theorem modFn_cur : (s.modFn k f).cur = s.cur := rfl
@[simp] theorem modFn_warps : (s.modFn k f).warps = s.warps := rfl
@[simp] theorem modFn_wgs : (s.modFn k f).wgs = s.wgs := rfl
@[simp] theorem modFn_gangs : (s.modFn k f).gangs = s.gangs := rfl
@[simp] theorem modFn_regions : (s.modFn k f).regions = s.regions := rfl
@[simp] theorem modFn_gen : (s.modFn k f).gen = s.gen := rfl
@[simp] theorem modFn_launchLock : (s.modFn k f).launchLock = s.launchLock := rfl
@[simp] theorem modFn_rotAt : (s.modFn k f).rotAt = s.rotAt := rfl
@[simp] theorem modFn_mem : (s.modFn k f).mem = s.mem := rfl
@[simp] theorem modFn_hostMem : (s.modFn k f).hostMem = s.hostMem := rfl
@[simp] theorem modFn_hostPosted : (s.modFn k f).hostPosted = s.hostPosted := rfl
@[simp] theorem modFn_lostBacks : (s.modFn k f).lostBacks = s.lostBacks := rfl
@[simp] theorem modFn_cores : (s.modFn k f).cores = s.cores := rfl
@[simp] theorem modFn_clusters : (s.modFn k f).clusters = s.clusters := rfl
@[simp] theorem modFn_dies : (s.modFn k f).dies = s.dies := rfl
@[simp] theorem modFn_copies : (s.modFn k f).copies = s.copies := rfl
@[simp] theorem modFn_contribs : (s.modFn k f).contribs = s.contribs := rfl
@[simp] theorem modFn_racks : (s.modFn k f).racks = s.racks := rfl
@[simp] theorem modFn_leases : (s.modFn k f).leases = s.leases := rfl
@[simp] theorem modFn_farLines : (s.modFn k f).farLines = s.farLines := rfl
@[simp] theorem modFn_stage : (s.modFn k f).stage = s.stage := rfl
@[simp] theorem modFn_psReady : (s.modFn k f).psReady = s.psReady := rfl
@[simp] theorem modFn_linkw : (s.modFn k f).linkw = s.linkw := rfl
@[simp] theorem modFn_psAlarm : (s.modFn k f).psAlarm = s.psAlarm := rfl
@[simp] theorem modFn_degraded : (s.modFn k f).degraded = s.degraded := rfl
@[simp] theorem modFn_attbusy : (s.modFn k f).attbusy = s.attbusy := rfl
@[simp] theorem modFn_contain : (s.modFn k f).contain = s.contain := rfl
@[simp] theorem modFn_alarmClass : (s.modFn k f).alarmClass = s.alarmClass := rfl
@[simp] theorem modFn_policy : (s.modFn k f).policy = s.policy := rfl
@[simp] theorem modFn_alock : (s.modFn k f).alock = s.alock := rfl
@[simp] theorem modFn_erased : (s.modFn k f).erased = s.erased := rfl
@[simp] theorem modFn_conbase : (s.modFn k f).conbase = s.conbase := rfl
@[simp] theorem modFn_conpos : (s.modFn k f).conpos = s.conpos := rfl
@[simp] theorem modFn_nonce : (s.modFn k f).nonce = s.nonce := rfl
@[simp] theorem modFn_attdst : (s.modFn k f).attdst = s.attdst := rfl
@[simp] theorem modFn_fused : (s.modFn k f).fused = s.fused := rfl
@[simp] theorem modFn_recovery : (s.modFn k f).recovery = s.recovery := rfl
@[simp] theorem modFn_image : (s.modFn k f).image = s.image := rfl
@[simp] theorem modFn_msix : (s.modFn k f).msix = s.msix := rfl
@[simp] theorem modFn_fns : (s.modFn k f).fns = s.fns.modify k f := rfl
@[simp] theorem modFn_hostOut : (s.modFn k f).hostOut = s.hostOut := rfl
@[simp] theorem modFn_inbound : (s.modFn k f).inbound = s.inbound := rfl
@[simp] theorem modFn_homeWrites : (s.modFn k f).homeWrites = s.homeWrites := rfl
@[simp] theorem modFn_ports : (s.modFn k f).ports = s.ports := rfl
@[simp] theorem modFn_table : (s.modFn k f).table = s.table := rfl
@[simp] theorem modFn_seed : (s.modFn k f).seed = s.seed := rfl
@[simp] theorem modFn_routes : (s.modFn k f).routes = s.routes := rfl
@[simp] theorem modFn_topo : (s.modFn k f).topo = s.topo := rfl
@[simp] theorem modFn_holding : (s.modFn k f).holding = s.holding := rfl
@[simp] theorem modFn_staged : (s.modFn k f).staged = s.staged := rfl
@[simp] theorem modFn_fencing : (s.modFn k f).fencing = s.fencing := rfl
@[simp] theorem modFn_sent : (s.modFn k f).sent = s.sent := rfl
@[simp] theorem modFn_unacked : (s.modFn k f).unacked = s.unacked := rfl
@[simp] theorem modFn_fetchBuf : (s.modFn k f).fetchBuf = s.fetchBuf := rfl
@[simp] theorem modFn_colls : (s.modFn k f).colls = s.colls := rfl
@[simp] theorem modFn_applied : (s.modFn k f).applied = s.applied := rfl
@[simp] theorem modFn_barWait : (s.modFn k f).barWait = s.barWait := rfl
@[simp] theorem modFn_deadPkgs : (s.modFn k f).deadPkgs = s.deadPkgs := rfl

end

/-! ## Updates of a warp -/

section
variable (w : Warp) (m : LaneSet) (f : Nat → Lane → Lane)

@[simp] theorem modLanes_id : (w.modLanes m f).id = w.id := rfl
@[simp] theorem modLanes_wg : (w.modLanes m f).wg = w.wg := rfl
@[simp] theorem modLanes_idx : (w.modLanes m f).idx = w.idx := rfl
@[simp] theorem modLanes_v : (w.modLanes m f).v = w.v := rfl
@[simp] theorem modLanes_q : (w.modLanes m f).q = w.q := rfl
@[simp] theorem modLanes_w : (w.modLanes m f).w = w.w := rfl
@[simp] theorem modLanes_m : (w.modLanes m f).m = w.m := rfl
@[simp] theorem modLanes_lastw : (w.modLanes m f).lastw = w.lastw := rfl
@[simp] theorem modLanes_issued : (w.modLanes m f).issued = w.issued := rfl
@[simp] theorem modLanes_parked : (w.modLanes m f).parked = w.parked := rfl
@[simp] theorem modLanes_outs : (w.modLanes m f).outs = w.outs := rfl
@[simp] theorem modLanes_reads : (w.modLanes m f).reads = w.reads := rfl
@[simp] theorem modLanes_stores : (w.modLanes m f).stores = w.stores := rfl
@[simp] theorem modLanes_ctrs : (w.modLanes m f).ctrs = w.ctrs := rfl
@[simp] theorem modLanes_fpc : (w.modLanes m f).fpc = w.fpc := rfl
@[simp] theorem modLanes_qbo : (w.modLanes m f).qbo = w.qbo := rfl
@[simp] theorem modLanes_lfm : (w.modLanes m f).lfm = w.lfm := rfl
@[simp] theorem modLanes_fold : (w.modLanes m f).fold = w.fold := rfl
@[simp] theorem modLanes_htvec : (w.modLanes m f).htvec = w.htvec := rfl
@[simp] theorem modLanes_hpc : (w.modLanes m f).hpc = w.hpc := rfl
@[simp] theorem modLanes_hmask : (w.modLanes m f).hmask = w.hmask := rfl
@[simp] theorem modLanes_hdst : (w.modLanes m f).hdst = w.hdst := rfl
@[simp] theorem modLanes_hcause : (w.modLanes m f).hcause = w.hcause := rfl
@[simp] theorem modLanes_hsub : (w.modLanes m f).hsub = w.hsub := rfl
@[simp] theorem modLanes_hpcWritten : (w.modLanes m f).hpcWritten = w.hpcWritten := rfl
@[simp] theorem modLanes_inTrap : (w.modLanes m f).inTrap = w.inTrap := rfl
@[simp] theorem modLanes_copyAbort : (w.modLanes m f).copyAbort = w.copyAbort := rfl
@[simp] theorem modLanes_trapTag : (w.modLanes m f).trapTag = w.trapTag := rfl
@[simp] theorem modLanes_handlerTag : (w.modLanes m f).handlerTag = w.handlerTag := rfl
@[simp] theorem modLanes_pend : (w.modLanes m f).pend = w.pend := rfl
@[simp] theorem modLanes_waitc : (w.modLanes m f).waitc = w.waitc := rfl
@[simp] theorem modLanes_hold : (w.modLanes m f).hold = w.hold := rfl
@[simp] theorem modLanes_arms : (w.modLanes m f).arms = w.arms := rfl
@[simp] theorem modLanes_nextTag : (w.modLanes m f).nextTag = w.nextTag := rfl
@[simp] theorem modLanes_tags : (w.modLanes m f).tags = w.tags := rfl
@[simp] theorem modLanes_mxSeq : (w.modLanes m f).mxSeq = w.mxSeq := rfl
@[simp] theorem modLanes_reports : (w.modLanes m f).reports = w.reports := rfl
@[simp] theorem modLanes_opbuf : (w.modLanes m f).opbuf = w.opbuf := rfl
@[simp] theorem modLanes_point : (w.modLanes m f).point = w.point := rfl
@[simp] theorem modLanes_stamp : (w.modLanes m f).stamp = w.stamp := rfl
@[simp] theorem modLanes_savedC : (w.modLanes m f).savedC = w.savedC := rfl
@[simp] theorem modLanes_stopped : (w.modLanes m f).stopped = w.stopped := rfl

end

section
variable (w : Warp) (c : Ctr) (t : Nat)

@[simp] theorem countUp_id : (countUp w c t).id = w.id := rfl
@[simp] theorem countUp_wg : (countUp w c t).wg = w.wg := rfl
@[simp] theorem countUp_idx : (countUp w c t).idx = w.idx := rfl
@[simp] theorem countUp_lanes : (countUp w c t).lanes = w.lanes := rfl
@[simp] theorem countUp_v : (countUp w c t).v = w.v := rfl
@[simp] theorem countUp_q : (countUp w c t).q = w.q := rfl
@[simp] theorem countUp_w : (countUp w c t).w = w.w := rfl
@[simp] theorem countUp_m : (countUp w c t).m = w.m := rfl
@[simp] theorem countUp_lastw : (countUp w c t).lastw = w.lastw := rfl
@[simp] theorem countUp_issued : (countUp w c t).issued = w.issued := rfl
@[simp] theorem countUp_parked : (countUp w c t).parked = w.parked := rfl
@[simp] theorem countUp_outs : (countUp w c t).outs = w.outs := rfl
@[simp] theorem countUp_reads : (countUp w c t).reads = w.reads := rfl
@[simp] theorem countUp_stores : (countUp w c t).stores = w.stores := rfl
@[simp] theorem countUp_fpc : (countUp w c t).fpc = w.fpc := rfl
@[simp] theorem countUp_qbo : (countUp w c t).qbo = w.qbo := rfl
@[simp] theorem countUp_lfm : (countUp w c t).lfm = w.lfm := rfl
@[simp] theorem countUp_fold : (countUp w c t).fold = w.fold := rfl
@[simp] theorem countUp_htvec : (countUp w c t).htvec = w.htvec := rfl
@[simp] theorem countUp_hpc : (countUp w c t).hpc = w.hpc := rfl
@[simp] theorem countUp_hmask : (countUp w c t).hmask = w.hmask := rfl
@[simp] theorem countUp_hdst : (countUp w c t).hdst = w.hdst := rfl
@[simp] theorem countUp_hcause : (countUp w c t).hcause = w.hcause := rfl
@[simp] theorem countUp_hsub : (countUp w c t).hsub = w.hsub := rfl
@[simp] theorem countUp_hpcWritten : (countUp w c t).hpcWritten = w.hpcWritten := rfl
@[simp] theorem countUp_inTrap : (countUp w c t).inTrap = w.inTrap := rfl
@[simp] theorem countUp_copyAbort : (countUp w c t).copyAbort = w.copyAbort := rfl
@[simp] theorem countUp_trapTag : (countUp w c t).trapTag = w.trapTag := rfl
@[simp] theorem countUp_handlerTag : (countUp w c t).handlerTag = w.handlerTag := rfl
@[simp] theorem countUp_pend : (countUp w c t).pend = w.pend := rfl
@[simp] theorem countUp_waitc : (countUp w c t).waitc = w.waitc := rfl
@[simp] theorem countUp_hold : (countUp w c t).hold = w.hold := rfl
@[simp] theorem countUp_arms : (countUp w c t).arms = w.arms := rfl
@[simp] theorem countUp_nextTag : (countUp w c t).nextTag = w.nextTag := rfl
@[simp] theorem countUp_tags : (countUp w c t).tags = w.tags := rfl
@[simp] theorem countUp_mxSeq : (countUp w c t).mxSeq = w.mxSeq := rfl
@[simp] theorem countUp_reports : (countUp w c t).reports = w.reports := rfl
@[simp] theorem countUp_opbuf : (countUp w c t).opbuf = w.opbuf := rfl
@[simp] theorem countUp_point : (countUp w c t).point = w.point := rfl
@[simp] theorem countUp_stamp : (countUp w c t).stamp = w.stamp := rfl
@[simp] theorem countUp_savedC : (countUp w c t).savedC = w.savedC := rfl
@[simp] theorem countUp_stopped : (countUp w c t).stopped = w.stopped := rfl

end

section
variable (w : Warp) (c : Ctr) (t : Nat)

@[simp] theorem countDone_id : (countDone w c t).id = w.id := rfl
@[simp] theorem countDone_wg : (countDone w c t).wg = w.wg := rfl
@[simp] theorem countDone_idx : (countDone w c t).idx = w.idx := rfl
@[simp] theorem countDone_lanes : (countDone w c t).lanes = w.lanes := rfl
@[simp] theorem countDone_v : (countDone w c t).v = w.v := rfl
@[simp] theorem countDone_q : (countDone w c t).q = w.q := rfl
@[simp] theorem countDone_w : (countDone w c t).w = w.w := rfl
@[simp] theorem countDone_m : (countDone w c t).m = w.m := rfl
@[simp] theorem countDone_lastw : (countDone w c t).lastw = w.lastw := rfl
@[simp] theorem countDone_issued : (countDone w c t).issued = w.issued := rfl
@[simp] theorem countDone_parked : (countDone w c t).parked = w.parked := rfl
@[simp] theorem countDone_outs : (countDone w c t).outs = w.outs := rfl
@[simp] theorem countDone_reads : (countDone w c t).reads = w.reads := rfl
@[simp] theorem countDone_stores : (countDone w c t).stores = w.stores := rfl
@[simp] theorem countDone_fpc : (countDone w c t).fpc = w.fpc := rfl
@[simp] theorem countDone_qbo : (countDone w c t).qbo = w.qbo := rfl
@[simp] theorem countDone_lfm : (countDone w c t).lfm = w.lfm := rfl
@[simp] theorem countDone_fold : (countDone w c t).fold = w.fold := rfl
@[simp] theorem countDone_htvec : (countDone w c t).htvec = w.htvec := rfl
@[simp] theorem countDone_hpc : (countDone w c t).hpc = w.hpc := rfl
@[simp] theorem countDone_hmask : (countDone w c t).hmask = w.hmask := rfl
@[simp] theorem countDone_hdst : (countDone w c t).hdst = w.hdst := rfl
@[simp] theorem countDone_hcause : (countDone w c t).hcause = w.hcause := rfl
@[simp] theorem countDone_hsub : (countDone w c t).hsub = w.hsub := rfl
@[simp] theorem countDone_hpcWritten : (countDone w c t).hpcWritten = w.hpcWritten := rfl
@[simp] theorem countDone_inTrap : (countDone w c t).inTrap = w.inTrap := rfl
@[simp] theorem countDone_copyAbort : (countDone w c t).copyAbort = w.copyAbort := rfl
@[simp] theorem countDone_trapTag : (countDone w c t).trapTag = w.trapTag := rfl
@[simp] theorem countDone_handlerTag : (countDone w c t).handlerTag = w.handlerTag := rfl
@[simp] theorem countDone_pend : (countDone w c t).pend = w.pend := rfl
@[simp] theorem countDone_waitc : (countDone w c t).waitc = w.waitc := rfl
@[simp] theorem countDone_hold : (countDone w c t).hold = w.hold := rfl
@[simp] theorem countDone_arms : (countDone w c t).arms = w.arms := rfl
@[simp] theorem countDone_nextTag : (countDone w c t).nextTag = w.nextTag := rfl
@[simp] theorem countDone_tags : (countDone w c t).tags = w.tags := rfl
@[simp] theorem countDone_mxSeq : (countDone w c t).mxSeq = w.mxSeq := rfl
@[simp] theorem countDone_reports : (countDone w c t).reports = w.reports := rfl
@[simp] theorem countDone_opbuf : (countDone w c t).opbuf = w.opbuf := rfl
@[simp] theorem countDone_point : (countDone w c t).point = w.point := rfl
@[simp] theorem countDone_stamp : (countDone w c t).stamp = w.stamp := rfl
@[simp] theorem countDone_savedC : (countDone w c t).savedC = w.savedC := rfl
@[simp] theorem countDone_stopped : (countDone w c t).stopped = w.stopped := rfl

end

section
variable (w : Warp) (o : Outst)

@[simp] theorem addOut_id : (addOut w o).id = w.id := rfl
@[simp] theorem addOut_wg : (addOut w o).wg = w.wg := rfl
@[simp] theorem addOut_idx : (addOut w o).idx = w.idx := rfl
@[simp] theorem addOut_lanes : (addOut w o).lanes = w.lanes := rfl
@[simp] theorem addOut_v : (addOut w o).v = w.v := rfl
@[simp] theorem addOut_q : (addOut w o).q = w.q := rfl
@[simp] theorem addOut_w : (addOut w o).w = w.w := rfl
@[simp] theorem addOut_m : (addOut w o).m = w.m := rfl
@[simp] theorem addOut_lastw : (addOut w o).lastw = w.lastw := rfl
@[simp] theorem addOut_issued : (addOut w o).issued = w.issued := rfl
@[simp] theorem addOut_parked : (addOut w o).parked = w.parked := rfl
@[simp] theorem addOut_reads : (addOut w o).reads = w.reads := rfl
@[simp] theorem addOut_stores : (addOut w o).stores = w.stores := rfl
@[simp] theorem addOut_ctrs : (addOut w o).ctrs = w.ctrs := rfl
@[simp] theorem addOut_fpc : (addOut w o).fpc = w.fpc := rfl
@[simp] theorem addOut_qbo : (addOut w o).qbo = w.qbo := rfl
@[simp] theorem addOut_lfm : (addOut w o).lfm = w.lfm := rfl
@[simp] theorem addOut_fold : (addOut w o).fold = w.fold := rfl
@[simp] theorem addOut_htvec : (addOut w o).htvec = w.htvec := rfl
@[simp] theorem addOut_hpc : (addOut w o).hpc = w.hpc := rfl
@[simp] theorem addOut_hmask : (addOut w o).hmask = w.hmask := rfl
@[simp] theorem addOut_hdst : (addOut w o).hdst = w.hdst := rfl
@[simp] theorem addOut_hcause : (addOut w o).hcause = w.hcause := rfl
@[simp] theorem addOut_hsub : (addOut w o).hsub = w.hsub := rfl
@[simp] theorem addOut_hpcWritten : (addOut w o).hpcWritten = w.hpcWritten := rfl
@[simp] theorem addOut_inTrap : (addOut w o).inTrap = w.inTrap := rfl
@[simp] theorem addOut_copyAbort : (addOut w o).copyAbort = w.copyAbort := rfl
@[simp] theorem addOut_trapTag : (addOut w o).trapTag = w.trapTag := rfl
@[simp] theorem addOut_handlerTag : (addOut w o).handlerTag = w.handlerTag := rfl
@[simp] theorem addOut_pend : (addOut w o).pend = w.pend := rfl
@[simp] theorem addOut_waitc : (addOut w o).waitc = w.waitc := rfl
@[simp] theorem addOut_hold : (addOut w o).hold = w.hold := rfl
@[simp] theorem addOut_arms : (addOut w o).arms = w.arms := rfl
@[simp] theorem addOut_nextTag : (addOut w o).nextTag = w.nextTag := rfl
@[simp] theorem addOut_tags : (addOut w o).tags = w.tags := rfl
@[simp] theorem addOut_mxSeq : (addOut w o).mxSeq = w.mxSeq := rfl
@[simp] theorem addOut_reports : (addOut w o).reports = w.reports := rfl
@[simp] theorem addOut_opbuf : (addOut w o).opbuf = w.opbuf := rfl
@[simp] theorem addOut_point : (addOut w o).point = w.point := rfl
@[simp] theorem addOut_stamp : (addOut w o).stamp = w.stamp := rfl
@[simp] theorem addOut_savedC : (addOut w o).savedC = w.savedC := rfl
@[simp] theorem addOut_stopped : (addOut w o).stopped = w.stopped := rfl

end

section
variable (w : Warp) (r : Reg) (l t : Nat) (x : Word)

@[simp] theorem wrV_id : (wrV w r l t x).id = w.id := by unfold wrV; split <;> rfl
@[simp] theorem wrV_wg : (wrV w r l t x).wg = w.wg := by unfold wrV; split <;> rfl
@[simp] theorem wrV_idx : (wrV w r l t x).idx = w.idx := by unfold wrV; split <;> rfl
@[simp] theorem wrV_lanes : (wrV w r l t x).lanes = w.lanes := by unfold wrV; split <;> rfl
@[simp] theorem wrV_q : (wrV w r l t x).q = w.q := by unfold wrV; split <;> rfl
@[simp] theorem wrV_w : (wrV w r l t x).w = w.w := by unfold wrV; split <;> rfl
@[simp] theorem wrV_m : (wrV w r l t x).m = w.m := by unfold wrV; split <;> rfl
@[simp] theorem wrV_issued : (wrV w r l t x).issued = w.issued := by unfold wrV; split <;> rfl
@[simp] theorem wrV_parked : (wrV w r l t x).parked = w.parked := by unfold wrV; split <;> rfl
@[simp] theorem wrV_outs : (wrV w r l t x).outs = w.outs := by unfold wrV; split <;> rfl
@[simp] theorem wrV_reads : (wrV w r l t x).reads = w.reads := by unfold wrV; split <;> rfl
@[simp] theorem wrV_stores : (wrV w r l t x).stores = w.stores := by unfold wrV; split <;> rfl
@[simp] theorem wrV_ctrs : (wrV w r l t x).ctrs = w.ctrs := by unfold wrV; split <;> rfl
@[simp] theorem wrV_fpc : (wrV w r l t x).fpc = w.fpc := by unfold wrV; split <;> rfl
@[simp] theorem wrV_qbo : (wrV w r l t x).qbo = w.qbo := by unfold wrV; split <;> rfl
@[simp] theorem wrV_lfm : (wrV w r l t x).lfm = w.lfm := by unfold wrV; split <;> rfl
@[simp] theorem wrV_fold : (wrV w r l t x).fold = w.fold := by unfold wrV; split <;> rfl
@[simp] theorem wrV_htvec : (wrV w r l t x).htvec = w.htvec := by unfold wrV; split <;> rfl
@[simp] theorem wrV_hpc : (wrV w r l t x).hpc = w.hpc := by unfold wrV; split <;> rfl
@[simp] theorem wrV_hmask : (wrV w r l t x).hmask = w.hmask := by unfold wrV; split <;> rfl
@[simp] theorem wrV_hdst : (wrV w r l t x).hdst = w.hdst := by unfold wrV; split <;> rfl
@[simp] theorem wrV_hcause : (wrV w r l t x).hcause = w.hcause := by unfold wrV; split <;> rfl
@[simp] theorem wrV_hsub : (wrV w r l t x).hsub = w.hsub := by unfold wrV; split <;> rfl
@[simp] theorem wrV_hpcWritten : (wrV w r l t x).hpcWritten = w.hpcWritten := by unfold wrV; split <;> rfl
@[simp] theorem wrV_inTrap : (wrV w r l t x).inTrap = w.inTrap := by unfold wrV; split <;> rfl
@[simp] theorem wrV_copyAbort : (wrV w r l t x).copyAbort = w.copyAbort := by unfold wrV; split <;> rfl
@[simp] theorem wrV_trapTag : (wrV w r l t x).trapTag = w.trapTag := by unfold wrV; split <;> rfl
@[simp] theorem wrV_handlerTag : (wrV w r l t x).handlerTag = w.handlerTag := by unfold wrV; split <;> rfl
@[simp] theorem wrV_pend : (wrV w r l t x).pend = w.pend := by unfold wrV; split <;> rfl
@[simp] theorem wrV_waitc : (wrV w r l t x).waitc = w.waitc := by unfold wrV; split <;> rfl
@[simp] theorem wrV_hold : (wrV w r l t x).hold = w.hold := by unfold wrV; split <;> rfl
@[simp] theorem wrV_arms : (wrV w r l t x).arms = w.arms := by unfold wrV; split <;> rfl
@[simp] theorem wrV_nextTag : (wrV w r l t x).nextTag = w.nextTag := by unfold wrV; split <;> rfl
@[simp] theorem wrV_tags : (wrV w r l t x).tags = w.tags := by unfold wrV; split <;> rfl
@[simp] theorem wrV_mxSeq : (wrV w r l t x).mxSeq = w.mxSeq := by unfold wrV; split <;> rfl
@[simp] theorem wrV_reports : (wrV w r l t x).reports = w.reports := by unfold wrV; split <;> rfl
@[simp] theorem wrV_point : (wrV w r l t x).point = w.point := by unfold wrV; split <;> rfl
@[simp] theorem wrV_stamp : (wrV w r l t x).stamp = w.stamp := by unfold wrV; split <;> rfl
@[simp] theorem wrV_savedC : (wrV w r l t x).savedC = w.savedC := by unfold wrV; split <;> rfl
@[simp] theorem wrV_stopped : (wrV w r l t x).stopped = w.stopped := by unfold wrV; split <;> rfl

end

section
variable (w : Warp) (r : Reg) (l t : Nat) (x : DWord)

@[simp] theorem wrP_id : (wrP w r l t x).id = w.id := by unfold wrP; split <;> simp
@[simp] theorem wrP_wg : (wrP w r l t x).wg = w.wg := by unfold wrP; split <;> simp
@[simp] theorem wrP_idx : (wrP w r l t x).idx = w.idx := by unfold wrP; split <;> simp
@[simp] theorem wrP_lanes : (wrP w r l t x).lanes = w.lanes := by unfold wrP; split <;> simp
@[simp] theorem wrP_q : (wrP w r l t x).q = w.q := by unfold wrP; split <;> simp
@[simp] theorem wrP_w : (wrP w r l t x).w = w.w := by unfold wrP; split <;> simp
@[simp] theorem wrP_m : (wrP w r l t x).m = w.m := by unfold wrP; split <;> simp
@[simp] theorem wrP_issued : (wrP w r l t x).issued = w.issued := by unfold wrP; split <;> simp
@[simp] theorem wrP_parked : (wrP w r l t x).parked = w.parked := by unfold wrP; split <;> simp
@[simp] theorem wrP_outs : (wrP w r l t x).outs = w.outs := by unfold wrP; split <;> simp
@[simp] theorem wrP_reads : (wrP w r l t x).reads = w.reads := by unfold wrP; split <;> simp
@[simp] theorem wrP_stores : (wrP w r l t x).stores = w.stores := by unfold wrP; split <;> simp
@[simp] theorem wrP_ctrs : (wrP w r l t x).ctrs = w.ctrs := by unfold wrP; split <;> simp
@[simp] theorem wrP_fpc : (wrP w r l t x).fpc = w.fpc := by unfold wrP; split <;> simp
@[simp] theorem wrP_qbo : (wrP w r l t x).qbo = w.qbo := by unfold wrP; split <;> simp
@[simp] theorem wrP_lfm : (wrP w r l t x).lfm = w.lfm := by unfold wrP; split <;> simp
@[simp] theorem wrP_fold : (wrP w r l t x).fold = w.fold := by unfold wrP; split <;> simp
@[simp] theorem wrP_htvec : (wrP w r l t x).htvec = w.htvec := by unfold wrP; split <;> simp
@[simp] theorem wrP_hpc : (wrP w r l t x).hpc = w.hpc := by unfold wrP; split <;> simp
@[simp] theorem wrP_hmask : (wrP w r l t x).hmask = w.hmask := by unfold wrP; split <;> simp
@[simp] theorem wrP_hdst : (wrP w r l t x).hdst = w.hdst := by unfold wrP; split <;> simp
@[simp] theorem wrP_hcause : (wrP w r l t x).hcause = w.hcause := by unfold wrP; split <;> simp
@[simp] theorem wrP_hsub : (wrP w r l t x).hsub = w.hsub := by unfold wrP; split <;> simp
@[simp] theorem wrP_hpcWritten : (wrP w r l t x).hpcWritten = w.hpcWritten := by unfold wrP; split <;> simp
@[simp] theorem wrP_inTrap : (wrP w r l t x).inTrap = w.inTrap := by unfold wrP; split <;> simp
@[simp] theorem wrP_copyAbort : (wrP w r l t x).copyAbort = w.copyAbort := by unfold wrP; split <;> simp
@[simp] theorem wrP_trapTag : (wrP w r l t x).trapTag = w.trapTag := by unfold wrP; split <;> simp
@[simp] theorem wrP_handlerTag : (wrP w r l t x).handlerTag = w.handlerTag := by unfold wrP; split <;> simp
@[simp] theorem wrP_pend : (wrP w r l t x).pend = w.pend := by unfold wrP; split <;> simp
@[simp] theorem wrP_waitc : (wrP w r l t x).waitc = w.waitc := by unfold wrP; split <;> simp
@[simp] theorem wrP_hold : (wrP w r l t x).hold = w.hold := by unfold wrP; split <;> simp
@[simp] theorem wrP_arms : (wrP w r l t x).arms = w.arms := by unfold wrP; split <;> simp
@[simp] theorem wrP_nextTag : (wrP w r l t x).nextTag = w.nextTag := by unfold wrP; split <;> simp
@[simp] theorem wrP_tags : (wrP w r l t x).tags = w.tags := by unfold wrP; split <;> simp
@[simp] theorem wrP_mxSeq : (wrP w r l t x).mxSeq = w.mxSeq := by unfold wrP; split <;> simp
@[simp] theorem wrP_reports : (wrP w r l t x).reports = w.reports := by unfold wrP; split <;> simp
@[simp] theorem wrP_point : (wrP w r l t x).point = w.point := by unfold wrP; split <;> simp
@[simp] theorem wrP_stamp : (wrP w r l t x).stamp = w.stamp := by unfold wrP; split <;> simp
@[simp] theorem wrP_savedC : (wrP w r l t x).savedC = w.savedC := by unfold wrP; split <;> simp
@[simp] theorem wrP_stopped : (wrP w r l t x).stopped = w.stopped := by unfold wrP; split <;> simp

end

section
variable (w : Warp) (r : Reg) (l t : Nat) (x : Bool)

@[simp] theorem wrQ_id : (wrQ w r l t x).id = w.id := by unfold wrQ; split <;> rfl
@[simp] theorem wrQ_wg : (wrQ w r l t x).wg = w.wg := by unfold wrQ; split <;> rfl
@[simp] theorem wrQ_idx : (wrQ w r l t x).idx = w.idx := by unfold wrQ; split <;> rfl
@[simp] theorem wrQ_lanes : (wrQ w r l t x).lanes = w.lanes := by unfold wrQ; split <;> rfl
@[simp] theorem wrQ_v : (wrQ w r l t x).v = w.v := by unfold wrQ; split <;> rfl
@[simp] theorem wrQ_w : (wrQ w r l t x).w = w.w := by unfold wrQ; split <;> rfl
@[simp] theorem wrQ_m : (wrQ w r l t x).m = w.m := by unfold wrQ; split <;> rfl
@[simp] theorem wrQ_issued : (wrQ w r l t x).issued = w.issued := by unfold wrQ; split <;> rfl
@[simp] theorem wrQ_parked : (wrQ w r l t x).parked = w.parked := by unfold wrQ; split <;> rfl
@[simp] theorem wrQ_outs : (wrQ w r l t x).outs = w.outs := by unfold wrQ; split <;> rfl
@[simp] theorem wrQ_reads : (wrQ w r l t x).reads = w.reads := by unfold wrQ; split <;> rfl
@[simp] theorem wrQ_stores : (wrQ w r l t x).stores = w.stores := by unfold wrQ; split <;> rfl
@[simp] theorem wrQ_ctrs : (wrQ w r l t x).ctrs = w.ctrs := by unfold wrQ; split <;> rfl
@[simp] theorem wrQ_fpc : (wrQ w r l t x).fpc = w.fpc := by unfold wrQ; split <;> rfl
@[simp] theorem wrQ_qbo : (wrQ w r l t x).qbo = w.qbo := by unfold wrQ; split <;> rfl
@[simp] theorem wrQ_lfm : (wrQ w r l t x).lfm = w.lfm := by unfold wrQ; split <;> rfl
@[simp] theorem wrQ_fold : (wrQ w r l t x).fold = w.fold := by unfold wrQ; split <;> rfl
@[simp] theorem wrQ_htvec : (wrQ w r l t x).htvec = w.htvec := by unfold wrQ; split <;> rfl
@[simp] theorem wrQ_hpc : (wrQ w r l t x).hpc = w.hpc := by unfold wrQ; split <;> rfl
@[simp] theorem wrQ_hmask : (wrQ w r l t x).hmask = w.hmask := by unfold wrQ; split <;> rfl
@[simp] theorem wrQ_hdst : (wrQ w r l t x).hdst = w.hdst := by unfold wrQ; split <;> rfl
@[simp] theorem wrQ_hcause : (wrQ w r l t x).hcause = w.hcause := by unfold wrQ; split <;> rfl
@[simp] theorem wrQ_hsub : (wrQ w r l t x).hsub = w.hsub := by unfold wrQ; split <;> rfl
@[simp] theorem wrQ_hpcWritten : (wrQ w r l t x).hpcWritten = w.hpcWritten := by unfold wrQ; split <;> rfl
@[simp] theorem wrQ_inTrap : (wrQ w r l t x).inTrap = w.inTrap := by unfold wrQ; split <;> rfl
@[simp] theorem wrQ_copyAbort : (wrQ w r l t x).copyAbort = w.copyAbort := by unfold wrQ; split <;> rfl
@[simp] theorem wrQ_trapTag : (wrQ w r l t x).trapTag = w.trapTag := by unfold wrQ; split <;> rfl
@[simp] theorem wrQ_handlerTag : (wrQ w r l t x).handlerTag = w.handlerTag := by unfold wrQ; split <;> rfl
@[simp] theorem wrQ_pend : (wrQ w r l t x).pend = w.pend := by unfold wrQ; split <;> rfl
@[simp] theorem wrQ_waitc : (wrQ w r l t x).waitc = w.waitc := by unfold wrQ; split <;> rfl
@[simp] theorem wrQ_hold : (wrQ w r l t x).hold = w.hold := by unfold wrQ; split <;> rfl
@[simp] theorem wrQ_arms : (wrQ w r l t x).arms = w.arms := by unfold wrQ; split <;> rfl
@[simp] theorem wrQ_nextTag : (wrQ w r l t x).nextTag = w.nextTag := by unfold wrQ; split <;> rfl
@[simp] theorem wrQ_tags : (wrQ w r l t x).tags = w.tags := by unfold wrQ; split <;> rfl
@[simp] theorem wrQ_mxSeq : (wrQ w r l t x).mxSeq = w.mxSeq := by unfold wrQ; split <;> rfl
@[simp] theorem wrQ_reports : (wrQ w r l t x).reports = w.reports := by unfold wrQ; split <;> rfl
@[simp] theorem wrQ_opbuf : (wrQ w r l t x).opbuf = w.opbuf := by unfold wrQ; split <;> rfl
@[simp] theorem wrQ_point : (wrQ w r l t x).point = w.point := by unfold wrQ; split <;> rfl
@[simp] theorem wrQ_stamp : (wrQ w r l t x).stamp = w.stamp := by unfold wrQ; split <;> rfl
@[simp] theorem wrQ_savedC : (wrQ w r l t x).savedC = w.savedC := by unfold wrQ; split <;> rfl
@[simp] theorem wrQ_stopped : (wrQ w r l t x).stopped = w.stopped := by unfold wrQ; split <;> rfl

end

section
variable (w : Warp) (r : Reg) (t : Nat) (x : Word)

@[simp] theorem wrW_id : (wrW w r t x).id = w.id := by unfold wrW; split <;> rfl
@[simp] theorem wrW_wg : (wrW w r t x).wg = w.wg := by unfold wrW; split <;> rfl
@[simp] theorem wrW_idx : (wrW w r t x).idx = w.idx := by unfold wrW; split <;> rfl
@[simp] theorem wrW_lanes : (wrW w r t x).lanes = w.lanes := by unfold wrW; split <;> rfl
@[simp] theorem wrW_v : (wrW w r t x).v = w.v := by unfold wrW; split <;> rfl
@[simp] theorem wrW_q : (wrW w r t x).q = w.q := by unfold wrW; split <;> rfl
@[simp] theorem wrW_m : (wrW w r t x).m = w.m := by unfold wrW; split <;> rfl
@[simp] theorem wrW_issued : (wrW w r t x).issued = w.issued := by unfold wrW; split <;> rfl
@[simp] theorem wrW_parked : (wrW w r t x).parked = w.parked := by unfold wrW; split <;> rfl
@[simp] theorem wrW_outs : (wrW w r t x).outs = w.outs := by unfold wrW; split <;> rfl
@[simp] theorem wrW_reads : (wrW w r t x).reads = w.reads := by unfold wrW; split <;> rfl
@[simp] theorem wrW_stores : (wrW w r t x).stores = w.stores := by unfold wrW; split <;> rfl
@[simp] theorem wrW_ctrs : (wrW w r t x).ctrs = w.ctrs := by unfold wrW; split <;> rfl
@[simp] theorem wrW_fpc : (wrW w r t x).fpc = w.fpc := by unfold wrW; split <;> rfl
@[simp] theorem wrW_qbo : (wrW w r t x).qbo = w.qbo := by unfold wrW; split <;> rfl
@[simp] theorem wrW_lfm : (wrW w r t x).lfm = w.lfm := by unfold wrW; split <;> rfl
@[simp] theorem wrW_fold : (wrW w r t x).fold = w.fold := by unfold wrW; split <;> rfl
@[simp] theorem wrW_htvec : (wrW w r t x).htvec = w.htvec := by unfold wrW; split <;> rfl
@[simp] theorem wrW_hpc : (wrW w r t x).hpc = w.hpc := by unfold wrW; split <;> rfl
@[simp] theorem wrW_hmask : (wrW w r t x).hmask = w.hmask := by unfold wrW; split <;> rfl
@[simp] theorem wrW_hdst : (wrW w r t x).hdst = w.hdst := by unfold wrW; split <;> rfl
@[simp] theorem wrW_hcause : (wrW w r t x).hcause = w.hcause := by unfold wrW; split <;> rfl
@[simp] theorem wrW_hsub : (wrW w r t x).hsub = w.hsub := by unfold wrW; split <;> rfl
@[simp] theorem wrW_hpcWritten : (wrW w r t x).hpcWritten = w.hpcWritten := by unfold wrW; split <;> rfl
@[simp] theorem wrW_inTrap : (wrW w r t x).inTrap = w.inTrap := by unfold wrW; split <;> rfl
@[simp] theorem wrW_copyAbort : (wrW w r t x).copyAbort = w.copyAbort := by unfold wrW; split <;> rfl
@[simp] theorem wrW_trapTag : (wrW w r t x).trapTag = w.trapTag := by unfold wrW; split <;> rfl
@[simp] theorem wrW_handlerTag : (wrW w r t x).handlerTag = w.handlerTag := by unfold wrW; split <;> rfl
@[simp] theorem wrW_pend : (wrW w r t x).pend = w.pend := by unfold wrW; split <;> rfl
@[simp] theorem wrW_waitc : (wrW w r t x).waitc = w.waitc := by unfold wrW; split <;> rfl
@[simp] theorem wrW_hold : (wrW w r t x).hold = w.hold := by unfold wrW; split <;> rfl
@[simp] theorem wrW_arms : (wrW w r t x).arms = w.arms := by unfold wrW; split <;> rfl
@[simp] theorem wrW_nextTag : (wrW w r t x).nextTag = w.nextTag := by unfold wrW; split <;> rfl
@[simp] theorem wrW_tags : (wrW w r t x).tags = w.tags := by unfold wrW; split <;> rfl
@[simp] theorem wrW_mxSeq : (wrW w r t x).mxSeq = w.mxSeq := by unfold wrW; split <;> rfl
@[simp] theorem wrW_reports : (wrW w r t x).reports = w.reports := by unfold wrW; split <;> rfl
@[simp] theorem wrW_opbuf : (wrW w r t x).opbuf = w.opbuf := by unfold wrW; split <;> rfl
@[simp] theorem wrW_point : (wrW w r t x).point = w.point := by unfold wrW; split <;> rfl
@[simp] theorem wrW_stamp : (wrW w r t x).stamp = w.stamp := by unfold wrW; split <;> rfl
@[simp] theorem wrW_savedC : (wrW w r t x).savedC = w.savedC := by unfold wrW; split <;> rfl
@[simp] theorem wrW_stopped : (wrW w r t x).stopped = w.stopped := by unfold wrW; split <;> rfl

end

section
variable (w : Warp) (r : Reg) (t : Nat) (x : LaneSet)

@[simp] theorem wrM_id : (wrM w r t x).id = w.id := rfl
@[simp] theorem wrM_wg : (wrM w r t x).wg = w.wg := rfl
@[simp] theorem wrM_idx : (wrM w r t x).idx = w.idx := rfl
@[simp] theorem wrM_lanes : (wrM w r t x).lanes = w.lanes := rfl
@[simp] theorem wrM_v : (wrM w r t x).v = w.v := rfl
@[simp] theorem wrM_q : (wrM w r t x).q = w.q := rfl
@[simp] theorem wrM_w : (wrM w r t x).w = w.w := rfl
@[simp] theorem wrM_issued : (wrM w r t x).issued = w.issued := rfl
@[simp] theorem wrM_parked : (wrM w r t x).parked = w.parked := rfl
@[simp] theorem wrM_outs : (wrM w r t x).outs = w.outs := rfl
@[simp] theorem wrM_reads : (wrM w r t x).reads = w.reads := rfl
@[simp] theorem wrM_stores : (wrM w r t x).stores = w.stores := rfl
@[simp] theorem wrM_ctrs : (wrM w r t x).ctrs = w.ctrs := rfl
@[simp] theorem wrM_fpc : (wrM w r t x).fpc = w.fpc := rfl
@[simp] theorem wrM_qbo : (wrM w r t x).qbo = w.qbo := rfl
@[simp] theorem wrM_lfm : (wrM w r t x).lfm = w.lfm := rfl
@[simp] theorem wrM_fold : (wrM w r t x).fold = w.fold := rfl
@[simp] theorem wrM_htvec : (wrM w r t x).htvec = w.htvec := rfl
@[simp] theorem wrM_hpc : (wrM w r t x).hpc = w.hpc := rfl
@[simp] theorem wrM_hmask : (wrM w r t x).hmask = w.hmask := rfl
@[simp] theorem wrM_hdst : (wrM w r t x).hdst = w.hdst := rfl
@[simp] theorem wrM_hcause : (wrM w r t x).hcause = w.hcause := rfl
@[simp] theorem wrM_hsub : (wrM w r t x).hsub = w.hsub := rfl
@[simp] theorem wrM_hpcWritten : (wrM w r t x).hpcWritten = w.hpcWritten := rfl
@[simp] theorem wrM_inTrap : (wrM w r t x).inTrap = w.inTrap := rfl
@[simp] theorem wrM_copyAbort : (wrM w r t x).copyAbort = w.copyAbort := rfl
@[simp] theorem wrM_trapTag : (wrM w r t x).trapTag = w.trapTag := rfl
@[simp] theorem wrM_handlerTag : (wrM w r t x).handlerTag = w.handlerTag := rfl
@[simp] theorem wrM_pend : (wrM w r t x).pend = w.pend := rfl
@[simp] theorem wrM_waitc : (wrM w r t x).waitc = w.waitc := rfl
@[simp] theorem wrM_hold : (wrM w r t x).hold = w.hold := rfl
@[simp] theorem wrM_arms : (wrM w r t x).arms = w.arms := rfl
@[simp] theorem wrM_nextTag : (wrM w r t x).nextTag = w.nextTag := rfl
@[simp] theorem wrM_tags : (wrM w r t x).tags = w.tags := rfl
@[simp] theorem wrM_mxSeq : (wrM w r t x).mxSeq = w.mxSeq := rfl
@[simp] theorem wrM_reports : (wrM w r t x).reports = w.reports := rfl
@[simp] theorem wrM_opbuf : (wrM w r t x).opbuf = w.opbuf := rfl
@[simp] theorem wrM_point : (wrM w r t x).point = w.point := rfl
@[simp] theorem wrM_stamp : (wrM w r t x).stamp = w.stamp := rfl
@[simp] theorem wrM_savedC : (wrM w r t x).savedC = w.savedC := rfl
@[simp] theorem wrM_stopped : (wrM w r t x).stopped = w.stopped := rfl

end

section
variable (w : Warp) (f : File) (r : Reg) (t l x : Nat)

@[simp] theorem wrLane_id : (wrLane w f r t l x).id = w.id := by cases f <;> simp [wrLane]
@[simp] theorem wrLane_wg : (wrLane w f r t l x).wg = w.wg := by cases f <;> simp [wrLane]
@[simp] theorem wrLane_idx : (wrLane w f r t l x).idx = w.idx := by cases f <;> simp [wrLane]
@[simp] theorem wrLane_lanes : (wrLane w f r t l x).lanes = w.lanes := by cases f <;> simp [wrLane]
@[simp] theorem wrLane_issued : (wrLane w f r t l x).issued = w.issued := by cases f <;> simp [wrLane]
@[simp] theorem wrLane_parked : (wrLane w f r t l x).parked = w.parked := by cases f <;> simp [wrLane]
@[simp] theorem wrLane_outs : (wrLane w f r t l x).outs = w.outs := by cases f <;> simp [wrLane]
@[simp] theorem wrLane_reads : (wrLane w f r t l x).reads = w.reads := by cases f <;> simp [wrLane]
@[simp] theorem wrLane_stores : (wrLane w f r t l x).stores = w.stores := by cases f <;> simp [wrLane]
@[simp] theorem wrLane_ctrs : (wrLane w f r t l x).ctrs = w.ctrs := by cases f <;> simp [wrLane]
@[simp] theorem wrLane_fpc : (wrLane w f r t l x).fpc = w.fpc := by cases f <;> simp [wrLane]
@[simp] theorem wrLane_qbo : (wrLane w f r t l x).qbo = w.qbo := by cases f <;> simp [wrLane]
@[simp] theorem wrLane_lfm : (wrLane w f r t l x).lfm = w.lfm := by cases f <;> simp [wrLane]
@[simp] theorem wrLane_fold : (wrLane w f r t l x).fold = w.fold := by cases f <;> simp [wrLane]
@[simp] theorem wrLane_htvec : (wrLane w f r t l x).htvec = w.htvec := by cases f <;> simp [wrLane]
@[simp] theorem wrLane_hpc : (wrLane w f r t l x).hpc = w.hpc := by cases f <;> simp [wrLane]
@[simp] theorem wrLane_hmask : (wrLane w f r t l x).hmask = w.hmask := by cases f <;> simp [wrLane]
@[simp] theorem wrLane_hdst : (wrLane w f r t l x).hdst = w.hdst := by cases f <;> simp [wrLane]
@[simp] theorem wrLane_hcause : (wrLane w f r t l x).hcause = w.hcause := by cases f <;> simp [wrLane]
@[simp] theorem wrLane_hsub : (wrLane w f r t l x).hsub = w.hsub := by cases f <;> simp [wrLane]
@[simp] theorem wrLane_hpcWritten : (wrLane w f r t l x).hpcWritten = w.hpcWritten := by cases f <;> simp [wrLane]
@[simp] theorem wrLane_inTrap : (wrLane w f r t l x).inTrap = w.inTrap := by cases f <;> simp [wrLane]
@[simp] theorem wrLane_copyAbort : (wrLane w f r t l x).copyAbort = w.copyAbort := by cases f <;> simp [wrLane]
@[simp] theorem wrLane_trapTag : (wrLane w f r t l x).trapTag = w.trapTag := by cases f <;> simp [wrLane]
@[simp] theorem wrLane_handlerTag : (wrLane w f r t l x).handlerTag = w.handlerTag := by cases f <;> simp [wrLane]
@[simp] theorem wrLane_pend : (wrLane w f r t l x).pend = w.pend := by cases f <;> simp [wrLane]
@[simp] theorem wrLane_waitc : (wrLane w f r t l x).waitc = w.waitc := by cases f <;> simp [wrLane]
@[simp] theorem wrLane_hold : (wrLane w f r t l x).hold = w.hold := by cases f <;> simp [wrLane]
@[simp] theorem wrLane_arms : (wrLane w f r t l x).arms = w.arms := by cases f <;> simp [wrLane]
@[simp] theorem wrLane_nextTag : (wrLane w f r t l x).nextTag = w.nextTag := by cases f <;> simp [wrLane]
@[simp] theorem wrLane_tags : (wrLane w f r t l x).tags = w.tags := by cases f <;> simp [wrLane]
@[simp] theorem wrLane_mxSeq : (wrLane w f r t l x).mxSeq = w.mxSeq := by cases f <;> simp [wrLane]
@[simp] theorem wrLane_reports : (wrLane w f r t l x).reports = w.reports := by cases f <;> simp [wrLane]
@[simp] theorem wrLane_point : (wrLane w f r t l x).point = w.point := by cases f <;> simp [wrLane]
@[simp] theorem wrLane_stamp : (wrLane w f r t l x).stamp = w.stamp := by cases f <;> simp [wrLane]
@[simp] theorem wrLane_savedC : (wrLane w f r t l x).savedC = w.savedC := by cases f <;> simp [wrLane]
@[simp] theorem wrLane_stopped : (wrLane w f r t l x).stopped = w.stopped := by cases f <;> simp [wrLane]

end

section
variable (f : File) (r : Reg) (t : Nat) (vs : List (Nat × Nat))

@[simp] theorem wrLanes_id (w : Warp) : (wrLanes w f r t vs).id = w.id := by
  induction vs generalizing w with
  | nil => rfl
  | cons p ps ih => simpa [wrLanes] using ih (wrLane w f r t p.1 p.2)
@[simp] theorem wrLanes_wg (w : Warp) : (wrLanes w f r t vs).wg = w.wg := by
  induction vs generalizing w with
  | nil => rfl
  | cons p ps ih => simpa [wrLanes] using ih (wrLane w f r t p.1 p.2)
@[simp] theorem wrLanes_idx (w : Warp) : (wrLanes w f r t vs).idx = w.idx := by
  induction vs generalizing w with
  | nil => rfl
  | cons p ps ih => simpa [wrLanes] using ih (wrLane w f r t p.1 p.2)
@[simp] theorem wrLanes_lanes (w : Warp) : (wrLanes w f r t vs).lanes = w.lanes := by
  induction vs generalizing w with
  | nil => rfl
  | cons p ps ih => simpa [wrLanes] using ih (wrLane w f r t p.1 p.2)
@[simp] theorem wrLanes_issued (w : Warp) : (wrLanes w f r t vs).issued = w.issued := by
  induction vs generalizing w with
  | nil => rfl
  | cons p ps ih => simpa [wrLanes] using ih (wrLane w f r t p.1 p.2)
@[simp] theorem wrLanes_parked (w : Warp) : (wrLanes w f r t vs).parked = w.parked := by
  induction vs generalizing w with
  | nil => rfl
  | cons p ps ih => simpa [wrLanes] using ih (wrLane w f r t p.1 p.2)
@[simp] theorem wrLanes_outs (w : Warp) : (wrLanes w f r t vs).outs = w.outs := by
  induction vs generalizing w with
  | nil => rfl
  | cons p ps ih => simpa [wrLanes] using ih (wrLane w f r t p.1 p.2)
@[simp] theorem wrLanes_reads (w : Warp) : (wrLanes w f r t vs).reads = w.reads := by
  induction vs generalizing w with
  | nil => rfl
  | cons p ps ih => simpa [wrLanes] using ih (wrLane w f r t p.1 p.2)
@[simp] theorem wrLanes_stores (w : Warp) : (wrLanes w f r t vs).stores = w.stores := by
  induction vs generalizing w with
  | nil => rfl
  | cons p ps ih => simpa [wrLanes] using ih (wrLane w f r t p.1 p.2)
@[simp] theorem wrLanes_ctrs (w : Warp) : (wrLanes w f r t vs).ctrs = w.ctrs := by
  induction vs generalizing w with
  | nil => rfl
  | cons p ps ih => simpa [wrLanes] using ih (wrLane w f r t p.1 p.2)
@[simp] theorem wrLanes_fpc (w : Warp) : (wrLanes w f r t vs).fpc = w.fpc := by
  induction vs generalizing w with
  | nil => rfl
  | cons p ps ih => simpa [wrLanes] using ih (wrLane w f r t p.1 p.2)
@[simp] theorem wrLanes_qbo (w : Warp) : (wrLanes w f r t vs).qbo = w.qbo := by
  induction vs generalizing w with
  | nil => rfl
  | cons p ps ih => simpa [wrLanes] using ih (wrLane w f r t p.1 p.2)
@[simp] theorem wrLanes_lfm (w : Warp) : (wrLanes w f r t vs).lfm = w.lfm := by
  induction vs generalizing w with
  | nil => rfl
  | cons p ps ih => simpa [wrLanes] using ih (wrLane w f r t p.1 p.2)
@[simp] theorem wrLanes_fold (w : Warp) : (wrLanes w f r t vs).fold = w.fold := by
  induction vs generalizing w with
  | nil => rfl
  | cons p ps ih => simpa [wrLanes] using ih (wrLane w f r t p.1 p.2)
@[simp] theorem wrLanes_htvec (w : Warp) : (wrLanes w f r t vs).htvec = w.htvec := by
  induction vs generalizing w with
  | nil => rfl
  | cons p ps ih => simpa [wrLanes] using ih (wrLane w f r t p.1 p.2)
@[simp] theorem wrLanes_hpc (w : Warp) : (wrLanes w f r t vs).hpc = w.hpc := by
  induction vs generalizing w with
  | nil => rfl
  | cons p ps ih => simpa [wrLanes] using ih (wrLane w f r t p.1 p.2)
@[simp] theorem wrLanes_hmask (w : Warp) : (wrLanes w f r t vs).hmask = w.hmask := by
  induction vs generalizing w with
  | nil => rfl
  | cons p ps ih => simpa [wrLanes] using ih (wrLane w f r t p.1 p.2)
@[simp] theorem wrLanes_hdst (w : Warp) : (wrLanes w f r t vs).hdst = w.hdst := by
  induction vs generalizing w with
  | nil => rfl
  | cons p ps ih => simpa [wrLanes] using ih (wrLane w f r t p.1 p.2)
@[simp] theorem wrLanes_hcause (w : Warp) : (wrLanes w f r t vs).hcause = w.hcause := by
  induction vs generalizing w with
  | nil => rfl
  | cons p ps ih => simpa [wrLanes] using ih (wrLane w f r t p.1 p.2)
@[simp] theorem wrLanes_hsub (w : Warp) : (wrLanes w f r t vs).hsub = w.hsub := by
  induction vs generalizing w with
  | nil => rfl
  | cons p ps ih => simpa [wrLanes] using ih (wrLane w f r t p.1 p.2)
@[simp] theorem wrLanes_hpcWritten (w : Warp) : (wrLanes w f r t vs).hpcWritten = w.hpcWritten := by
  induction vs generalizing w with
  | nil => rfl
  | cons p ps ih => simpa [wrLanes] using ih (wrLane w f r t p.1 p.2)
@[simp] theorem wrLanes_inTrap (w : Warp) : (wrLanes w f r t vs).inTrap = w.inTrap := by
  induction vs generalizing w with
  | nil => rfl
  | cons p ps ih => simpa [wrLanes] using ih (wrLane w f r t p.1 p.2)
@[simp] theorem wrLanes_copyAbort (w : Warp) : (wrLanes w f r t vs).copyAbort = w.copyAbort := by
  induction vs generalizing w with
  | nil => rfl
  | cons p ps ih => simpa [wrLanes] using ih (wrLane w f r t p.1 p.2)
@[simp] theorem wrLanes_trapTag (w : Warp) : (wrLanes w f r t vs).trapTag = w.trapTag := by
  induction vs generalizing w with
  | nil => rfl
  | cons p ps ih => simpa [wrLanes] using ih (wrLane w f r t p.1 p.2)
@[simp] theorem wrLanes_handlerTag (w : Warp) : (wrLanes w f r t vs).handlerTag = w.handlerTag := by
  induction vs generalizing w with
  | nil => rfl
  | cons p ps ih => simpa [wrLanes] using ih (wrLane w f r t p.1 p.2)
@[simp] theorem wrLanes_pend (w : Warp) : (wrLanes w f r t vs).pend = w.pend := by
  induction vs generalizing w with
  | nil => rfl
  | cons p ps ih => simpa [wrLanes] using ih (wrLane w f r t p.1 p.2)
@[simp] theorem wrLanes_waitc (w : Warp) : (wrLanes w f r t vs).waitc = w.waitc := by
  induction vs generalizing w with
  | nil => rfl
  | cons p ps ih => simpa [wrLanes] using ih (wrLane w f r t p.1 p.2)
@[simp] theorem wrLanes_hold (w : Warp) : (wrLanes w f r t vs).hold = w.hold := by
  induction vs generalizing w with
  | nil => rfl
  | cons p ps ih => simpa [wrLanes] using ih (wrLane w f r t p.1 p.2)
@[simp] theorem wrLanes_arms (w : Warp) : (wrLanes w f r t vs).arms = w.arms := by
  induction vs generalizing w with
  | nil => rfl
  | cons p ps ih => simpa [wrLanes] using ih (wrLane w f r t p.1 p.2)
@[simp] theorem wrLanes_nextTag (w : Warp) : (wrLanes w f r t vs).nextTag = w.nextTag := by
  induction vs generalizing w with
  | nil => rfl
  | cons p ps ih => simpa [wrLanes] using ih (wrLane w f r t p.1 p.2)
@[simp] theorem wrLanes_tags (w : Warp) : (wrLanes w f r t vs).tags = w.tags := by
  induction vs generalizing w with
  | nil => rfl
  | cons p ps ih => simpa [wrLanes] using ih (wrLane w f r t p.1 p.2)
@[simp] theorem wrLanes_mxSeq (w : Warp) : (wrLanes w f r t vs).mxSeq = w.mxSeq := by
  induction vs generalizing w with
  | nil => rfl
  | cons p ps ih => simpa [wrLanes] using ih (wrLane w f r t p.1 p.2)
@[simp] theorem wrLanes_reports (w : Warp) : (wrLanes w f r t vs).reports = w.reports := by
  induction vs generalizing w with
  | nil => rfl
  | cons p ps ih => simpa [wrLanes] using ih (wrLane w f r t p.1 p.2)
@[simp] theorem wrLanes_point (w : Warp) : (wrLanes w f r t vs).point = w.point := by
  induction vs generalizing w with
  | nil => rfl
  | cons p ps ih => simpa [wrLanes] using ih (wrLane w f r t p.1 p.2)
@[simp] theorem wrLanes_stamp (w : Warp) : (wrLanes w f r t vs).stamp = w.stamp := by
  induction vs generalizing w with
  | nil => rfl
  | cons p ps ih => simpa [wrLanes] using ih (wrLane w f r t p.1 p.2)
@[simp] theorem wrLanes_savedC (w : Warp) : (wrLanes w f r t vs).savedC = w.savedC := by
  induction vs generalizing w with
  | nil => rfl
  | cons p ps ih => simpa [wrLanes] using ih (wrLane w f r t p.1 p.2)
@[simp] theorem wrLanes_stopped (w : Warp) : (wrLanes w f r t vs).stopped = w.stopped := by
  induction vs generalizing w with
  | nil => rfl
  | cons p ps ih => simpa [wrLanes] using ih (wrLane w f r t p.1 p.2)

end

/-! ## Parts by identity -/

theorem find_updAt_self {α : Type} {p : α → Bool} {f : α → α} (h : ∀ x, p (f x) = p x) (l : List α) :
    (updAt p f l).find? p = (l.find? p).map f := by
  induction l with
  | nil => rfl
  | cons a l ih =>
    by_cases ha : p a = true
    · simp [updAt, ha, h]
    · simpa [updAt, ha, h] using ih

theorem find_updAt_ne {α : Type} {p q : α → Bool} {f : α → α} (h : ∀ x, p x = true → q x = false ∧ q (f x) = false)
    (l : List α) : (updAt p f l).find? q = l.find? q := by
  induction l with
  | nil => rfl
  | cons a l ih =>
    by_cases ha : p a = true
    · simpa [updAt, ha, (h a ha).1, (h a ha).2] using ih
    · by_cases hq : q a = true
      · simp [updAt, ha, hq]
      · simpa [updAt, ha, hq] using ih

/-- A warp reads as it was changed. -/
theorem getWarp_modWarp_self (s : State) (n : Nat) (f : Warp → Warp) (h : ∀ x, (f x).id = x.id) :
    (s.modWarp n f).getWarp n = (s.getWarp n).map f :=
  find_updAt_self (by simp [h]) _

/-- A change of a warp changes no other warp. -/
theorem getWarp_modWarp_ne (s : State) {n k : Nat} (f : Warp → Warp) (h : ∀ x, (f x).id = x.id) (hk : k ≠ n) :
    (s.modWarp n f).getWarp k = s.getWarp k :=
  find_updAt_ne (by intro x hx; simp at hx; simp [h, hx, hk.symm]) _

/-- A workgroup reads as it was changed. -/
theorem getWg_modWg_self (s : State) (n : Nat) (f : Workgroup → Workgroup) (h : ∀ x, (f x).id = x.id) :
    (s.modWg n f).getWg n = (s.getWg n).map f :=
  find_updAt_self (by simp [h]) _

/-- A change of a workgroup changes no other workgroup. -/
theorem getWg_modWg_ne (s : State) {n k : Nat} (f : Workgroup → Workgroup) (h : ∀ x, (f x).id = x.id) (hk : k ≠ n) :
    (s.modWg n f).getWg k = s.getWg k :=
  find_updAt_ne (by intro x hx; simp at hx; simp [h, hx, hk.symm]) _

/-- A gang reads as it was changed. -/
theorem getGang_modGang_self (s : State) (n : Nat) (f : Gang → Gang) (h : ∀ x, (f x).id = x.id) :
    (s.modGang n f).getGang n = (s.getGang n).map f :=
  find_updAt_self (by simp [h]) _

/-- A change of a gang changes no other gang. -/
theorem getGang_modGang_ne (s : State) {n k : Nat} (f : Gang → Gang) (h : ∀ x, (f x).id = x.id) (hk : k ≠ n) :
    (s.modGang n f).getGang k = s.getGang k :=
  find_updAt_ne (by intro x hx; simp at hx; simp [h, hx, hk.symm]) _

/-- A region reads as it was changed. -/
theorem getRegion_modRegion_self (s : State) (n : Nat) (f : Region → Region) (h : ∀ x, (f x).handle = x.handle) :
    (s.modRegion n f).getRegion n = (s.getRegion n).map f :=
  find_updAt_self (by simp [h]) _

theorem find_updAt_self_const {α : Type} {p : α → Bool} (x : α) (hx : p x = true) (l : List α) :
    (updAt p (fun _ => x) l).find? p = (l.find? p).map fun _ => x := by
  induction l with
  | nil => rfl
  | cons a l ih =>
    by_cases ha : p a = true
    · simp [updAt, ha, hx]
    · simpa [updAt, ha] using ih

theorem find_putAt_self {α : Type} {p : α → Bool} (x : α) (hx : p x = true) (l : List α) : (putAt p x l).find? p = some x := by
  unfold putAt
  split
  · rename_i h
    rw [find_updAt_self_const x hx]
    obtain ⟨a, ha, hp⟩ := List.any_eq_true.1 h
    obtain ⟨b, hb⟩ := Option.isSome_iff_exists.1 (List.find?_isSome.2 ⟨a, ha, hp⟩)
    simp [hb]
  · rename_i h
    have : l.find? p = none := by simpa using h
    simp [List.find?_append, this, hx]

theorem find_putAt_ne {α : Type} {p q : α → Bool} (x : α) (h : ∀ y, p y = true → q y = false) (hx : q x = false) (l : List α) :
    (putAt p x l).find? q = l.find? q := by
  unfold putAt
  split
  · exact find_updAt_ne (fun y hy => ⟨h y hy, hx⟩) _
  · simp [List.find?_append, hx]

/-- A warp reads as it was set. -/
theorem getWarp_setWarp_self (s : State) (x : Warp) : (s.setWarp x).getWarp x.id = (s.getWarp x.id).map fun _ => x :=
  find_updAt_self_const x (by simp) _

theorem getWarp_setWarp_of {s : State} {n : Nat} {v : Warp} (h : s.getWarp n = some v) {x : Warp} (hx : x.id = n) :
    (s.setWarp x).getWarp n = some x := by
  subst hx; rw [getWarp_setWarp_self, h]; rfl

/-- A warp set changes no other warp. -/
theorem getWarp_setWarp_ne (s : State) (x : Warp) {k : Nat} (hk : k ≠ x.id) : (s.setWarp x).getWarp k = s.getWarp k :=
  find_updAt_ne (by intro y hy; simp at hy; simp [hy, hk.symm]) _

/-- A core reads as it was set. -/
theorem getCore_setCore_self (s : State) (x : Core) : (s.setCore x).getCore x.id = x := by
  simp [State.getCore, find_putAt_self]

/-- A core set changes no other core. -/
theorem getCore_setCore_ne (s : State) (x : Core) {c : CoreId} (h : c ≠ x.id) : (s.setCore x).getCore c = s.getCore c := by
  have e := find_putAt_ne (p := fun y : Core => y.id == x.id) (q := fun y => y.id == c) x
    (by intro y hy; simp at hy; simp [hy, h.symm]) (by simp [h.symm]) s.cores
  simp [State.getCore, e]

/-- A core reads as it was changed. -/
theorem getCore_modCore_self (s : State) (c : CoreId) (f : Core → Core) (h : (f (s.getCore c)).id = c) :
    (s.modCore c f).getCore c = f (s.getCore c) := by
  have e := getCore_setCore_self s (f (s.getCore c))
  rw [h] at e; exact e

/-- A die reads as it was set. -/
theorem getDie_setDie_self (s : State) (x : Die) : (s.setDie x).getDie x.id = x := by
  simp [State.getDie, find_putAt_self]

/-- A die reads as it was changed. -/
theorem getDie_modDie_self (s : State) (d : Nat) (f : Die → Die) (h : (f (s.getDie d)).id = d) :
    (s.modDie d f).getDie d = f (s.getDie d) := by
  have e := getDie_setDie_self s (f (s.getDie d))
  rw [h] at e; exact e

/-- A cluster reads as it was set. -/
theorem getCluster_setCluster_self (s : State) (x : Cluster) : (s.setCluster x).getCluster x.id = x := by
  simp [State.getCluster, find_putAt_self]

/-! ## Memory -/

/-- A store in memory leaves the bytes it stores there, and every other byte. -/
@[simp] theorem store_mem (s : State) (pa : Nat) (bs : List Byte) : (s.store pa bs).mem = Memory.writeN s.mem pa bs := by
  unfold State.store markWritten
  split <;> rfl

@[simp] theorem store_warps (s : State) (pa : Nat) (bs : List Byte) : (s.store pa bs).warps = s.warps := by
  unfold State.store markWritten
  split <;> rfl

@[simp] theorem store_hostMem (s : State) (pa : Nat) (bs : List Byte) : (s.store pa bs).hostMem = s.hostMem := by
  unfold State.store markWritten
  split <;> rfl

/-! ## Registers of a warp -/

/-- A vector register reads as it was written in its lane; `v0` still reads zero (R49). -/
theorem rdV_wrV_self (w : Warp) (r : Reg) (l t : Nat) (x : Word) : rdV (wrV w r l t x) r l = if r = 0 then 0 else x := by
  unfold rdV wrV
  split <;> simp

theorem rdQ_wrQ_self (w : Warp) (r : Reg) (l t : Nat) (x : Bool) : rdQ (wrQ w r l t x) r l = if r = 0 then true else x := by
  unfold rdQ wrQ
  split <;> simp

theorem rdW_wrW_self (w : Warp) (r : Reg) (t : Nat) (x : Word) : rdW (wrW w r t x) r = if r = 0 then 0 else x := by
  unfold rdW wrW
  split <;> simp

theorem keyOf_inj {r s : Reg} {l k : Nat} (hl : l < 32) (hk : k < 32) (h : keyOf r l = keyOf s k) : r = s ∧ l = k := by
  unfold keyOf at h
  have h1 : r.toNat = s.toNat := by omega
  exact ⟨BitVec.eq_of_toNat_eq h1, by omega⟩

/-- A write to a vector register changes no other register and no other lane. -/
theorem rdV_wrV_ne (w : Warp) {r s : Reg} {l k : Nat} (t : Nat) (x : Word) (hl : l < 32) (hk : k < 32)
    (h : s ≠ r ∨ k ≠ l) : rdV (wrV w r l t x) s k = rdV w s k := by
  unfold wrV
  split
  · rfl
  · unfold rdV
    split
    · rfl
    · refine sget_sput_ne _ _ _ fun e => ?_
      obtain ⟨h1, h2⟩ := keyOf_inj hk hl e
      rcases h with h | h <;> contradiction

/-- A write to a predicate changes no other predicate and no other lane. -/
theorem rdQ_wrQ_ne (w : Warp) {r s : Reg} {l k : Nat} (t : Nat) (x : Bool) (hl : l < 32) (hk : k < 32)
    (h : s ≠ r ∨ k ≠ l) : rdQ (wrQ w r l t x) s k = rdQ w s k := by
  unfold wrQ
  split
  · rfl
  · unfold rdQ
    split
    · rfl
    · refine sget_sput_ne _ _ _ fun e => ?_
      obtain ⟨h1, h2⟩ := keyOf_inj hk hl e
      rcases h with h | h <;> contradiction

end Sys2Proof.Machine
end

