-- ==== Sys2Proof/Laws/Issue.lean ====
section
/-! SUPPORT. What issuing an instruction can do: the three ways of `form`, what the shared operations of an issue change, and the
one lemma from which the result of every instruction with a value per participant follows. -/

namespace Sys2Proof.Machine

/-! ## Sets of lanes -/

@[simp] theorem mem_lanesOf (m : LaneSet) (l : Nat) : l ∈ lanesOf m ↔ l < 32 ∧ m.getLsbD l = true := by
  simp [lanesOf]

theorem lanesOf_nodup (m : LaneSet) : (lanesOf m).Nodup := List.Nodup.filter _ List.nodup_range

theorem laneSet_fold_getLsbD (ls : List Nat) (a : LaneSet) {l : Nat} (hl : l < 32) :
    (ls.foldl (fun acc k => acc ||| (1#32 <<< k)) a).getLsbD l = (a.getLsbD l || decide (l ∈ ls)) := by
  induction ls generalizing a with
  | nil => simp
  | cons k ks ih =>
    rw [List.foldl_cons, ih]
    have : (1#32 <<< k).getLsbD l = decide (l = k) := by
      simp only [BitVec.getLsbD_shiftLeft, hl, decide_true, Bool.true_and, BitVec.getLsbD_one]
      by_cases h : l = k
      · subst h; simp
      · by_cases h2 : l < k
        · simp [h2, h]
        · have : l - k ≠ 0 := by omega
          simp [h2, h]
          omega
    rw [BitVec.getLsbD_or, this]
    by_cases h : l = k <;> simp [h]

/-- A lane stands in the set of some lanes when it is one of them. -/
theorem getLsbD_laneSet (ls : List Nat) {l : Nat} (hl : l < 32) : (laneSet ls).getLsbD l = decide (l ∈ ls) := by
  unfold laneSet
  rw [laneSet_fold_getLsbD ls 0 hl]
  simp

/-- The lanes that meet a test. -/
theorem getLsbD_lanesWhere (w : Warp) (p : Lane → Bool) {l : Nat} (hl : l < 32) :
    (w.lanesWhere p).getLsbD l = match w.lanes[l]? with | some x => p x | none => false := by
  unfold Warp.lanesWhere
  rw [getLsbD_laneSet _ hl]
  cases h : w.lanes[l]? <;> simp [h, hl]

/-- A participant belongs to the head run (R48, R95). -/
theorem run_of_participant (i : Instr) (w : Warp) {l : Nat} (hl : l < 32) (h : (mkIssue i w).e.getLsbD l = true) :
    (mkIssue i w).run.getLsbD l = true := by
  simp only [mkIssue, guarded, getLsbD_laneSet _ hl, decide_eq_true_eq, List.mem_filter, mem_lanesOf] at h
  exact h.1.2

/-- A lane of the head run is a lane of the warp that is ready at the run's counter (R77). -/
theorem lane_of_run (w : Warp) {l : Nat} (h : (headRun w).getLsbD l = true) :
    l < w.lanes.length ∧ (w.lane l).st = .ready ∧ (w.lane l).pc = headPc w := by
  have hl : l < 32 := BitVec.lt_of_getLsbD h
  rw [headRun, readyAt, getLsbD_lanesWhere w _ hl] at h
  cases hx : w.lanes[l]? with
  | none => simp [hx] at h
  | some x =>
    obtain ⟨hlt, -⟩ := List.getElem?_eq_some_iff.1 hx
    simp only [hx, Bool.and_eq_true, beq_iff_eq] at h
    exact ⟨hlt, by simp [Warp.lane, hx, h.1], by simp [Warp.lane, hx, h.2]⟩

/-- A lane after the lanes of a set were changed. -/
theorem lane_modLanes (w : Warp) (m : LaneSet) (f : Nat → Lane → Lane) (l : Nat) :
    (w.modLanes m f).lane l = if l < w.lanes.length ∧ m.getLsbD l = true then f l (w.lane l) else w.lane l := by
  unfold Warp.lane Warp.modLanes
  by_cases h : l < w.lanes.length
  · by_cases hm : m.getLsbD l = true <;> simp [h, hm]
  · simp [h]

/-! ## The three ways of an instruction at issue -/

/-- An instruction that issues through `issueP` stops for want of a run, waits or traps before its effect, or takes its effect in
its participants and its park marker. -/
theorem issueP_cases (i : Instr) (s : State) (ready : Issue → State → Bool) (prep : Issue → State → State)
    (effect : Issue → State → State) :
    (form i s ready prep = .noRun ∧ issueP i s ready prep effect = .fault .noRun) ∨
    (∃ t, form i s ready prep = .stop t ∧ issueP i s ready prep effect = .next t) ∨
    ∃ x t, form i s ready prep = .go x t ∧
      issueP i s ready prep effect = .next (park x (if x.e == 0 then t else effect x t)) := by
  unfold issueP
  cases h : form i s ready prep with
  | noRun => exact .inl ⟨rfl, rfl⟩
  | stop t => exact .inr (.inl ⟨t, rfl, rfl⟩)
  | go x t => exact .inr (.inr ⟨x, t, rfl, rfl⟩)

/-- There is no way but want of a run to stop: `form` has no run exactly when no warp holds the slot or its warp has none. -/
theorem form_noRun_iff (i : Instr) (s : State) (ready : Issue → State → Bool) (prep : Issue → State → State) :
    form i s ready prep = .noRun ↔ s.getWarp s.cur = none ∨ ∃ w, s.getWarp s.cur = some w ∧ headRun w = 0 := by
  have pop_ne : ∀ x q f, popForm x s q f ≠ .noRun := by
    intro x q f
    unfold popForm
    split
    · simp
    · simp only
      split
      · simp
      · split <;> simp
  unfold form
  cases hw : s.getWarp s.cur with
  | none => simp
  | some w =>
    by_cases h0 : headRun w = 0
    · simp [h0]
    · have hrhs : ¬ (some w = none ∨ ∃ w', some w = some w' ∧ headRun w' = 0) := by
        rintro (h | ⟨w', h, hz⟩)
        · cases h
        · cases h; exact h0 hz
      have hb : ¬ (headRun w == 0) = true := by rwa [beq_iff_eq]
      simp only [hrhs, iff_false, if_neg hb]
      repeat' (first | split | exact pop_ne _ _ _ | (intro h; cases h))

/-- An instruction that issues through `issueP` answers a next state whenever a run stands. -/
theorem issueP_next (i : Instr) (s : State) (ready : Issue → State → Bool) (prep : Issue → State → State)
    (effect : Issue → State → State) {w : Warp} (hw : s.getWarp s.cur = some w) (h : headRun w ≠ 0) :
    ∃ t, issueP i s ready prep effect = .next t := by
  rcases issueP_cases i s ready prep effect with ⟨hf, -⟩ | ⟨t, -, he⟩ | ⟨x, t, -, he⟩
  · rw [form_noRun_iff] at hf
    rcases hf with hn | ⟨w', hw', h0⟩
    · rw [hw] at hn; cases hn
    · rw [hw] at hw'; cases hw'; exact absurd h0 h
  · exact ⟨t, he⟩
  · exact ⟨_, he⟩

/-- No instruction is refused once it has its meaning. -/
theorem issueP_not_refused (i : Instr) (s : State) (ready : Issue → State → Bool) (prep : Issue → State → State)
    (effect : Issue → State → State) (r : Refusal) : issueP i s ready prep effect ≠ .refused r := by
  rcases issueP_cases i s ready prep effect with ⟨-, he⟩ | ⟨t, -, he⟩ | ⟨x, t, -, he⟩ <;> rw [he] <;> simp

/-- When the instruction issues with participants and its own wait is over, it goes on from the state without the entries popped. -/
theorem form_of_issues {i : Instr} {s : State} {w : Warp} {x : Issue} {s0 : State} (h : Issues i s w x s0)
    {ready : Issue → State → Bool} {prep : Issue → State → State} (hr : ready (mkIssue i w) s = true) :
    form i s ready prep = .go x (begin_ x s0) := by
  obtain ⟨⟨hw, h0, hp, hst, hwc, hca, hd⟩, he, hmw, hs⟩ := h
  have hr0 : (mkIssue i w).r = rawOf i := rfl
  have hid : (mkIssue i w).w = w := rfl
  have hb : ¬ (headRun w == 0) = true := by rwa [beq_iff_eq]
  have hbl : w.blocked = false := by simp [Warp.blocked, hp, hst, hwc]
  unfold supply at hs
  cases hq : popQueue (rawOf i) with
  | none =>
    simp only [hq, Option.some.injEq, Prod.mk.injEq] at hs
    obtain ⟨rfl, rfl⟩ := hs
    have he' : ¬ ((mkIssue i w).e == 0) = true := by rwa [beq_iff_eq]
    simp only [form, hw, if_neg hb, hbl, hca, hr0, hd, if_neg he', hmw, hr, hq, Bool.false_eq_true, if_false, Bool.not_true]
  | some q =>
    simp only [hq] at hs
    cases hg : s.getWg w.wg with
    | none => simp [hg] at hs
    | some g =>
      simp only [hg] at hs
      split at hs
      · rename_i hle
        simp only [Option.some.injEq, Prod.mk.injEq] at hs
        obtain ⟨rfl, rfl⟩ := hs
        have he' : ¬ ((mkIssue i w).e == 0) = true := by rwa [beq_iff_eq]
        simp only [form, hw, if_neg hb, hbl, hca, hr0, hd, if_neg he', hmw, hr, hq, Bool.false_eq_true, if_false, Bool.not_true,
          popForm, hid, hg, show (mkIssue i w).i = i from rfl, hle, if_true]
      · cases hs

/-- What an instruction that issues with participants leaves: its effect on the begun state, then its park marker. -/
theorem issueP_of_issues {i : Instr} {s : State} {w : Warp} {x : Issue} {s0 : State} (h : Issues i s w x s0)
    {ready : Issue → State → Bool} {prep : Issue → State → State} (effect : Issue → State → State)
    (hr : ready (mkIssue i w) s = true) :
    issueP i s ready prep effect = .next (park x (effect x (begin_ x s0))) := by
  have he : ¬ (x.e == 0) = true := by rw [beq_iff_eq]; exact h.2.1
  simp only [issueP, form_of_issues h hr, if_neg he]

/-- What is fixed at issue, whatever the pop supplied. -/
theorem issues_fixed {i : Instr} {s : State} {w : Warp} {x : Issue} {s0 : State} (h : Issues i s w x s0) :
    x = { mkIssue i w with pop := x.pop } := by
  obtain ⟨-, -, -, hs⟩ := h
  unfold supply at hs
  split at hs
  · simp only [Option.some.injEq, Prod.mk.injEq] at hs
    rw [← hs.1]
  · split at hs
    · cases hs
    · split at hs
      · simp only [Option.some.injEq, Prod.mk.injEq] at hs
        rw [← hs.1]
      · cases hs

/-- The warp that issues is the one in the slot, and it stands in the state without the entries popped. -/
theorem issues_warp {i : Instr} {s : State} {w : Warp} {x : Issue} {s0 : State} (h : Issues i s w x s0) :
    x.w = w ∧ s0.getWarp w.id = some w := by
  have hx := issues_fixed h
  obtain ⟨⟨hw, -⟩, -, -, hs⟩ := h
  have hid : w.id = s.cur := by simpa using List.find?_some hw
  refine ⟨by rw [hx]; rfl, ?_⟩
  unfold supply at hs
  split at hs
  · simp only [Option.some.injEq, Prod.mk.injEq] at hs
    rw [← hs.2, hid]; exact hw
  · split at hs
    · cases hs
    · split at hs
      · simp only [Option.some.injEq, Prod.mk.injEq] at hs
        rw [← hs.2, hid]; exact hw
      · cases hs

/-! ## What beginning and parking change -/

/-- The warp once its instruction has begun (R78, R177). -/
abbrev begunWarp (x : Issue) (n : Nat) (w : Warp) : Warp :=
  { (w.modLanes x.run fun _ y => { y with pc := x.after }) with
    issued := x.tag, stamp := n, waitc := none, opbuf := (keptOpnd x).or w.opbuf, point := none }

/-- Beginning an instruction changes the warps, the counts of R421 and the model's source of orders, and nothing else. -/
theorem begin_state (x : Issue) (s : State) :
    begin_ x s = { s with warps := (begin_ x s).warps, wgs := (begin_ x s).wgs, gangs := (begin_ x s).gangs,
                          nextId := s.nextId + 1 } := by
  unfold begin_
  simp only
  split <;> rfl

theorem begin_warps (x : Issue) (s : State) : (begin_ x s).warps = (s.modWarp x.w.id (begunWarp x s.nextId)).warps := by
  unfold begin_
  simp only
  split <;> rfl

/-- The warp that issues has begun. -/
theorem begin_getWarp_self (x : Issue) (s : State) :
    (begin_ x s).getWarp x.w.id = (s.getWarp x.w.id).map (begunWarp x s.nextId) := by
  have e := getWarp_modWarp_self s x.w.id (begunWarp x s.nextId) fun _ => rfl
  unfold State.getWarp at *
  rw [begin_warps]; exact e

/-- No other warp has. -/
theorem begin_getWarp_ne (x : Issue) (s : State) {k : Nat} (hk : k ≠ x.w.id) : (begin_ x s).getWarp k = s.getWarp k := by
  have e := getWarp_modWarp_ne s (begunWarp x s.nextId) (fun _ => rfl) hk
  unfold State.getWarp at *
  rw [begin_warps]; exact e

theorem map_modWg {β : Type} (s : State) (n k : Nat) (f : Workgroup → Workgroup) (g : Workgroup → β)
    (h : ∀ x, (f x).id = x.id) (hg : ∀ x, g (f x) = g x) : ((s.modWg n f).getWg k).map g = (s.getWg k).map g := by
  by_cases hk : k = n
  · subst hk; simp [getWg_modWg_self s k f h, Option.map_map, Function.comp_def, hg]
  · rw [getWg_modWg_ne s f h hk]

theorem map_modGang {β : Type} (s : State) (n k : Nat) (f : Gang → Gang) (g : Gang → β)
    (h : ∀ x, (f x).id = x.id) (hg : ∀ x, g (f x) = g x) : ((s.modGang n f).getGang k).map g = (s.getGang k).map g := by
  by_cases hk : k = n
  · subst hk; simp [getGang_modGang_self s k f h, Option.map_map, Function.comp_def, hg]
  · rw [getGang_modGang_ne s f h hk]

/-- The workgroups differ in nothing but their counts of R421. -/
theorem begin_getWg (x : Issue) (s : State) (k : Nat) :
    ((begin_ x s).getWg k).map (fun g => { g with ret := 0 }) = (s.getWg k).map fun g => { g with ret := 0 } := by
  unfold begin_
  simp only
  split
  · exact map_modWg _ _ _ _ _ (fun _ => rfl) fun _ => rfl
  · rfl

/-- The gangs differ in nothing but their counts of R421. -/
theorem begin_getGang (x : Issue) (s : State) (k : Nat) :
    ((begin_ x s).getGang k).map (fun g => { g with ret := 0 }) = (s.getGang k).map fun g => { g with ret := 0 } := by
  unfold begin_
  simp only
  split
  · exact map_modGang _ _ _ _ _ (fun _ => rfl) fun _ => rfl
  · rfl

/-- A save point may stop the warp, and changes nothing else (R424). -/
theorem savePoint_cases (s : State) (n : Nat) :
    savePoint s n = s ∨ ∃ w, s.getWarp n = some w ∧ savePoint s n = s.setWarp { w with stopped := true } := by
  unfold savePoint
  cases hw : s.getWarp n with
  | none => exact .inl rfl
  | some w =>
    simp only
    split
    · split
      · exact .inr ⟨w, rfl, rfl⟩
      · exact .inl rfl
    · exact .inl rfl

theorem setWarp_eq_modWarp (s : State) (x : Warp) : s.setWarp x = s.modWarp x.id fun _ => x := rfl

/-- The warp after its park marker: it is parked when the marker is set and results are outstanding (R81). -/
theorem park_getWarp (x : Issue) (s : State) {w : Warp} (hw : s.getWarp x.w.id = some w) (hp : w.parked = false) :
    ∃ w', (park x s).getWarp x.w.id = some w' ∧
      w' = { w with parked := x.r.pk && !w.outs.isEmpty, stopped := w'.stopped, opbuf := if x.r.pk then none else w.opbuf } := by
  have hid : w.id = x.w.id := by simpa using List.find?_some hw
  unfold park
  cases hk : x.r.pk with
  | false => exact ⟨w, hw, by cases w; simp only at hp; subst hp; rfl⟩
  | true =>
    simp only [if_true, Bool.true_and]
    have h1 := getWarp_modWarp_self s x.w.id (fun w => { w with parked := !w.outs.isEmpty, opbuf := none }) fun _ => rfl
    rw [hw] at h1
    rcases savePoint_cases (s.modWarp x.w.id fun w => { w with parked := !w.outs.isEmpty, opbuf := none }) x.w.id with e | ⟨v, hv, e⟩
    · exact ⟨_, by rw [e]; exact h1, rfl⟩
    · rw [h1] at hv
      simp only [Option.map_some, Option.some.injEq] at hv
      refine ⟨{ v with stopped := true }, ?_, by rw [← hv]⟩
      have hvid : v.id = x.w.id := by rw [← hv]; exact hid
      rw [e, getWarp_setWarp_of (h1.trans (congrArg some hv)) (by exact hvid)]

/-- A park changes no other warp. -/
theorem park_getWarp_ne (x : Issue) (s : State) {k : Nat} (hk : k ≠ x.w.id) : (park x s).getWarp k = s.getWarp k := by
  unfold park
  split
  · have h1 := getWarp_modWarp_ne s (fun w => { w with parked := !w.outs.isEmpty, opbuf := none }) (fun _ => rfl) hk
    rcases savePoint_cases (s.modWarp x.w.id fun w => { w with parked := !w.outs.isEmpty, opbuf := none }) x.w.id with e | ⟨v, hv, e⟩
    · rw [e]; exact h1
    · have hvid : v.id = x.w.id := by simpa using List.find?_some hv
      rw [e, getWarp_setWarp_ne _ _ (by simpa [hvid] using hk)]; exact h1
  · rfl

/-- A park changes the warps, and nothing else. -/
theorem park_state (x : Issue) (s : State) : park x s = { s with warps := (park x s).warps } := by
  unfold park
  split
  · rcases savePoint_cases (s.modWarp x.w.id fun w => { w with parked := !w.outs.isEmpty, opbuf := none }) x.w.id with e | ⟨v, -, e⟩ <;>
      rw [e] <;> rfl
  · rfl

/-! ## Instructions whose effect lies in the warp -/

/-- When an instruction issues whose effect changes its own warp and nothing else, it completes: the warp has begun, has the effect
and its park marker, and everything outside it is kept. -/
theorem issue_own_warp {i : Instr} {s : State} {w : Warp} {x : Issue} {s0 : State} (h : Issues i s w x s0) (g : Warp → Warp)
    (effect : Issue → State → State) (he : ∀ u, effect x u = u.modWarp x.w.id g) (hgid : ∀ y, (g y).id = y.id)
    (hgp : ∀ y, (g y).parked = y.parked) :
    ∃ t w' n, issue i s always effect = .next t ∧ t.getWarp w.id = some w' ∧ Kept s0 t w.id ∧
      w' = { g (begunWarp x n w) with
        parked := x.r.pk && !(g (begunWarp x n w)).outs.isEmpty
        stopped := w'.stopped
        opbuf := if x.r.pk then none else (g (begunWarp x n w)).opbuf } := by
  obtain ⟨hxw, hw0⟩ := issues_warp h
  have hpk : w.parked = false := h.1.2.2.1
  have hrun : issue i s always effect = .next (park x ((begin_ x s0).modWarp x.w.id g)) := by
    rw [← he]; exact issueP_of_issues h effect rfl
  have hb : ((begin_ x s0).modWarp x.w.id g).getWarp x.w.id = some (g (begunWarp x s0.nextId w)) := by
    rw [getWarp_modWarp_self _ _ _ hgid, begin_getWarp_self, hxw, hw0]; rfl
  obtain ⟨w', hw', heq⟩ := park_getWarp x _ hb (by rw [hgp]; exact hpk)
  refine ⟨_, w', s0.nextId, hrun, by rw [← hxw]; exact hw', ?_, heq⟩
  have hstate : park x ((begin_ x s0).modWarp x.w.id g) =
      { s0 with warps := (park x ((begin_ x s0).modWarp x.w.id g)).warps, wgs := (begin_ x s0).wgs,
                gangs := (begin_ x s0).gangs, nextId := s0.nextId + 1 } := by
    conv_lhs => rw [park_state]
    have hb2 := begin_state x s0
    generalize (park x ((begin_ x s0).modWarp x.w.id g)).warps = ws
    generalize hB : begin_ x s0 = B at *
    rw [hb2]
    rfl
  have hwgs : (park x ((begin_ x s0).modWarp x.w.id g)).wgs = (begin_ x s0).wgs := by rw [hstate]
  have hgangs : (park x ((begin_ x s0).modWarp x.w.id g)).gangs = (begin_ x s0).gangs := by rw [hstate]
  have hmem : (park x ((begin_ x s0).modWarp x.w.id g)).mem = s0.mem := by rw [hstate]
  have hnext : (park x ((begin_ x s0).modWarp x.w.id g)).nextId = s0.nextId + 1 := by rw [hstate]
  refine ⟨?_, ?_, ?_, ?_, ?_⟩
  · rw [hwgs, hgangs, hnext]; exact hstate
  · intro k hk
    have hk' : k ≠ x.w.id := by rw [hxw]; exact hk
    rw [park_getWarp_ne x _ hk', getWarp_modWarp_ne _ _ hgid hk', begin_getWarp_ne x s0 hk']
  · intro k
    have := begin_getWg x s0 k
    unfold State.getWg at *
    rw [hwgs]; exact this
  · intro k
    have := begin_getGang x s0 k
    unfold State.getGang at *
    rw [hgangs]; exact this
  · intro a; rw [hmem]

/-! ## Results written lane by lane -/

theorem low_of_pair (n : Nat) : (BitVec.ofNat 64 n).setWidth 32 = BitVec.ofNat 32 n := by
  apply BitVec.eq_of_toNat_eq; simp

theorem high_of_pair (n : Nat) : (BitVec.ofNat 64 n).extractLsb' 32 32 = BitVec.ofNat 32 (n / 2 ^ 32) := by
  apply BitVec.eq_of_toNat_eq
  simp [BitVec.extractLsb'_toNat, Nat.shiftRight_eq_div_pow]
  omega

/-- A vector register after one write, in every lane. -/
theorem rdV_wrV (w : Warp) (r k : Reg) {l j : Nat} (t : Nat) (v : Word) (hl : l < 32) (hj : j < 32) :
    rdV (wrV w r l t v) k j = if j = l ∧ k = r ∧ r ≠ 0 then v else rdV w k j := by
  by_cases hr : r = 0
  · rw [if_neg fun h => h.2.2 hr]; unfold wrV; rw [if_pos hr]
  by_cases h : j = l ∧ k = r
  · obtain ⟨rfl, rfl⟩ := h
    rw [rdV_wrV_self, if_neg hr, if_pos ⟨rfl, rfl, hr⟩]
  · rw [rdV_wrV_ne w t v hl hj (by tauto), if_neg fun h' => h ⟨h'.1, h'.2.1⟩]

/-- A predicate after one write, in every lane. -/
theorem rdQ_wrQ (w : Warp) (r k : Reg) {l j : Nat} (t : Nat) (v : Bool) (hl : l < 32) (hj : j < 32) :
    rdQ (wrQ w r l t v) k j = if j = l ∧ k = r ∧ r ≠ 0 then v else rdQ w k j := by
  by_cases hr : r = 0
  · rw [if_neg fun h => h.2.2 hr]; unfold wrQ; rw [if_pos hr]
  by_cases h : j = l ∧ k = r
  · obtain ⟨rfl, rfl⟩ := h
    rw [rdQ_wrQ_self, if_neg hr, if_pos ⟨rfl, rfl, hr⟩]
  · rw [rdQ_wrQ_ne w t v hl hj (by tauto), if_neg fun h' => h ⟨h'.1, h'.2.1⟩]

/-- A vector register after a write to a pair (R50). -/
theorem rdV_wrP (w : Warp) (r k : Reg) {l j : Nat} (t n : Nat) (hr1 : r + 1 ≠ 0) (hl : l < 32) (hj : j < 32) :
    rdV (wrP w r l t (BitVec.ofNat 64 n)) k j =
      if j = l ∧ k = r ∧ r ≠ 0 then BitVec.ofNat 32 n
      else if j = l ∧ k = r + 1 ∧ r ≠ 0 then BitVec.ofNat 32 (n / 2 ^ 32) else rdV w k j := by
  by_cases hr : r = 0
  · rw [if_neg fun h => h.2.2 hr, if_neg fun h => h.2.2 hr]; unfold wrP; rw [if_pos hr]
  have hne : r ≠ r + 1 := by bv_omega
  unfold wrP
  rw [if_neg hr, low_of_pair, high_of_pair, rdV_wrV _ _ _ _ _ hl hj, rdV_wrV _ _ _ _ _ hl hj]
  by_cases h1 : j = l ∧ k = r
  · obtain ⟨rfl, rfl⟩ := h1
    rw [if_neg fun h => hne h.2.1, if_pos ⟨rfl, rfl, hr⟩, if_pos ⟨rfl, rfl, hr⟩]
  · rw [if_neg (c := j = l ∧ k = r ∧ r ≠ 0) fun h => h1 ⟨h.1, h.2.1⟩, if_neg (c := j = l ∧ k = r ∧ r ≠ 0) fun h => h1 ⟨h.1, h.2.1⟩]
    by_cases h2 : j = l ∧ k = r + 1
    · rw [if_pos ⟨h2.1, h2.2, hr1⟩, if_pos ⟨h2.1, h2.2, hr⟩]
    · rw [if_neg fun h => h2 ⟨h.1, h.2.1⟩, if_neg fun h => h2 ⟨h.1, h.2.1⟩]

theorem ite_cons {α : Type} {A B P : Prop} [Decidable A] [Decidable B] [Decidable P] (x y u : α) (h : A → x = y) :
    (if B ∧ P then y else if A ∧ P then x else u) = if (A ∨ B) ∧ P then y else u := by
  by_cases hA : A <;> by_cases hB : B <;> by_cases hP : P <;> simp [hA, hB, hP, h]

theorem ite_cons_pair {α : Type} {A B P Q : Prop} [Decidable A] [Decidable B] [Decidable P] [Decidable Q] (x y x' y' u : α)
    (h : A → x = y) (h' : A → x' = y') :
    (if B ∧ P then y else if B ∧ Q then y' else if A ∧ P then x else if A ∧ Q then x' else u) =
      if (A ∨ B) ∧ P then y else if (A ∨ B) ∧ Q then y' else u := by
  by_cases hA : A <;> by_cases hB : B <;> by_cases hP : P <;> by_cases hQ : Q <;> simp [hA, hB, hP, hQ, h, h']

section
variable (d : Reg) (t : Nat) (val : Nat → Nat) (ls : List Nat)

/-- A vector register after values were written lane by lane. -/
theorem rdV_wrLanes_v (w : Warp) (r : Reg) {j : Nat} (hj : j < 32) (hls : ∀ l ∈ ls, l < 32) :
    rdV (wrLanes w .v d t (ls.map fun l => (l, val l))) r j =
      if j ∈ ls ∧ r = d ∧ d ≠ 0 then BitVec.ofNat 32 (val j) else rdV w r j := by
  induction ls generalizing w with
  | nil => simp [wrLanes]
  | cons a ls ih =>
    refine (ih (wrLane w .v d t a (val a)) fun l hl => hls l (by simp [hl])).trans ?_
    simp only [wrLane, rdV_wrV _ _ _ _ _ (hls a (by simp)) hj, List.mem_cons]
    exact ite_cons _ _ _ (by rintro rfl; rfl)

/-- A vector register after pairs were written lane by lane. -/
theorem rdV_wrLanes_p (hd : d + 1 ≠ 0) (w : Warp) (r : Reg) {j : Nat} (hj : j < 32) (hls : ∀ l ∈ ls, l < 32) :
    rdV (wrLanes w .p d t (ls.map fun l => (l, val l))) r j =
      if j ∈ ls ∧ r = d ∧ d ≠ 0 then BitVec.ofNat 32 (val j)
      else if j ∈ ls ∧ r = d + 1 ∧ d ≠ 0 then BitVec.ofNat 32 (val j / 2 ^ 32) else rdV w r j := by
  induction ls generalizing w with
  | nil => simp [wrLanes]
  | cons a ls ih =>
    refine (ih (wrLane w .p d t a (val a)) fun l hl => hls l (by simp [hl])).trans ?_
    simp only [wrLane, rdV_wrP _ _ _ _ _ hd (hls a (by simp)) hj, List.mem_cons]
    exact ite_cons_pair _ _ _ _ _ (by rintro rfl; rfl) (by rintro rfl; rfl)

/-- A predicate after values were written lane by lane. -/
theorem rdQ_wrLanes_q (w : Warp) (r : Reg) {j : Nat} (hj : j < 32) (hls : ∀ l ∈ ls, l < 32) :
    rdQ (wrLanes w .q d t (ls.map fun l => (l, val l))) r j =
      if j ∈ ls ∧ r = d ∧ d ≠ 0 then val j % 2 == 1 else rdQ w r j := by
  induction ls generalizing w with
  | nil => simp [wrLanes]
  | cons a ls ih =>
    refine (ih (wrLane w .q d t a (val a)) fun l hl => hls l (by simp [hl])).trans ?_
    simp only [wrLane, rdQ_wrQ _ _ _ _ _ (hls a (by simp)) hj, List.mem_cons]
    exact ite_cons _ _ _ (by rintro rfl; rfl)

end

/-- A write to one file leaves the registers of the others. -/
theorem wrLanes_v_q (w : Warp) (d : Reg) (t : Nat) (vs : List (Nat × Nat)) :
    (wrLanes w .v d t vs).q = w.q ∧ (wrLanes w .v d t vs).w = w.w ∧ (wrLanes w .v d t vs).m = w.m := by
  induction vs generalizing w with
  | nil => exact ⟨rfl, rfl, rfl⟩
  | cons p ps ih => simpa [wrLanes, wrLane] using ih (wrLane w .v d t p.1 p.2)

theorem wrLanes_p_q (w : Warp) (d : Reg) (t : Nat) (vs : List (Nat × Nat)) :
    (wrLanes w .p d t vs).q = w.q ∧ (wrLanes w .p d t vs).w = w.w ∧ (wrLanes w .p d t vs).m = w.m := by
  induction vs generalizing w with
  | nil => exact ⟨rfl, rfl, rfl⟩
  | cons p ps ih => simpa [wrLanes, wrLane] using ih (wrLane w .p d t p.1 p.2)

theorem wrLanes_q_v (w : Warp) (d : Reg) (t : Nat) (vs : List (Nat × Nat)) :
    (wrLanes w .q d t vs).v = w.v ∧ (wrLanes w .q d t vs).w = w.w ∧ (wrLanes w .q d t vs).m = w.m := by
  induction vs generalizing w with
  | nil => exact ⟨rfl, rfl, rfl⟩
  | cons p ps ih => simpa [wrLanes, wrLane] using ih (wrLane w .q d t p.1 p.2)

/-- Values written lane by lane stand in the destination of the lanes of the set, and every other register of every file reads as
before; `v0`, `v0.d` and `q0` discard the write (R49, R50). -/
theorem wrLanes_written (w : Warp) (f : File) (d : Reg) (e : LaneSet) (t : Nat) (val : Nat → Nat)
    (hf : f = .v ∨ f = .p ∨ f = .q) (hd : f = .p → d + 1 ≠ 0) :
    LanesWritten f d e val w (wrLanes w f d t ((lanesOf e).map fun l => (l, val l))) := by
  have hls : ∀ l ∈ lanesOf e, l < 32 := fun l hl => ((mem_lanesOf e l).1 hl).1
  rcases hf with rfl | rfl | rfl
  · obtain ⟨hq, hw, hm⟩ := wrLanes_v_q w d t ((lanesOf e).map fun l => (l, val l))
    refine ⟨fun r l hl => ?_, fun r l _ => by simp [rdQ, hq], fun r => by simp [rdW, hw], fun r => by simp [rdM, hm]⟩
    rw [rdV_wrLanes_v _ _ _ _ _ _ hl hls]
    simp [hl, and_assoc]
  · obtain ⟨hq, hw, hm⟩ := wrLanes_p_q w d t ((lanesOf e).map fun l => (l, val l))
    refine ⟨fun r l hl => ?_, fun r l _ => by simp [rdQ, hq], fun r => by simp [rdW, hw], fun r => by simp [rdM, hm]⟩
    rw [rdV_wrLanes_p _ _ _ _ (hd rfl) _ _ hl hls]
    simp [hl, and_assoc]
  · obtain ⟨hv, hw, hm⟩ := wrLanes_q_v w d t ((lanesOf e).map fun l => (l, val l))
    refine ⟨fun r l _ => by simp [rdV, hv], fun r l hl => ?_, fun r => by simp [rdW, hw], fun r => by simp [rdM, hm]⟩
    rw [rdQ_wrLanes_q _ _ _ _ _ _ hl hls]
    simp [hl, and_assoc]

/-! ## The results of the shared shapes of effect -/

theorem begunWarp_lane (x : Issue) (n : Nat) (w : Warp) (hrun : ∀ l, x.run.getLsbD l = true → l < w.lanes.length) (l : Nat) :
    (begunWarp x n w).lane l = { w.lane l with pc := if x.run.getLsbD l then x.after else (w.lane l).pc } := by
  have e : (begunWarp x n w).lane l = (w.modLanes x.run fun _ y => { y with pc := x.after }).lane l := rfl
  rw [e, lane_modLanes]
  by_cases h : x.run.getLsbD l = true
  · simp [h, hrun l h]
  · simp [h]

/-- The lanes of a run are lanes of the warp. -/
theorem issues_run {i : Instr} {s : State} {w : Warp} {x : Issue} {s0 : State} (h : Issues i s w x s0) :
    x.run = headRun w ∧ ∀ l, x.run.getLsbD l = true → l < w.lanes.length := by
  have hr : x.run = headRun w := by rw [issues_fixed h]; rfl
  exact ⟨hr, fun l hl => (lane_of_run w (hr ▸ hl)).1⟩

/-- An instruction that issues is well formed (R58). -/
theorem issues_wf {i : Instr} {s : State} {w : Warp} {x : Issue} {s0 : State} (h : Issues i s w x s0) : i.wf = true := by
  obtain ⟨⟨-, -, -, -, -, -, hd⟩, -⟩ := h
  unfold decodeCause at hd
  simp only at hd
  split at hd
  · cases hd
  · split at hd
    · cases hd
    · rename_i h2
      simp only [Bool.or_eq_true, Bool.not_eq_true', decide_eq_true_eq, not_or] at h2
      simpa using h2.1.1

/-- Every instruction whose meaning is `execLanes` completes with its value in each participant, and leaves everything else but the
counters of its run. -/
theorem laneResult_of_execLanes {i : Instr} {f : File} {d : Reg} {val : Issue → Nat → Nat}
    (he : ∀ s, exec i s = execLanes i s f d val) (hf : f = .v ∨ f = .p ∨ f = .q)
    (hd : f = .p → i.wf = true → d.getLsbD 0 = false) : LaneResult i f d val := by
  intro s w x s0 h
  obtain ⟨hxw, -⟩ := issues_warp h
  obtain ⟨-, hrun⟩ := issues_run h
  obtain ⟨t, w', n, h1, h2, h3, h4⟩ := issue_own_warp h
    (fun y => wrLanes y f d x.tag ((lanesOf x.e).map fun l => (l, val x l))) (laneEffect f d val) (fun _ => rfl)
    (fun y => by simp) (fun y => by simp)
  have hpair : f = .p → d + 1 ≠ 0 := fun hp => by
    have e := hd hp (issues_wf h)
    intro h0
    have : d = 2047#11 := by bv_omega
    subst this; simp at e
  have hw := wrLanes_written (begunWarp x n w) f d x.e x.tag (val x) hf hpair
  have e1 : w'.v = (wrLanes (begunWarp x n w) f d x.tag ((lanesOf x.e).map fun l => (l, val x l))).v := by rw [h4]
  have e2 : w'.q = (wrLanes (begunWarp x n w) f d x.tag ((lanesOf x.e).map fun l => (l, val x l))).q := by rw [h4]
  have e3 : w'.w = (wrLanes (begunWarp x n w) f d x.tag ((lanesOf x.e).map fun l => (l, val x l))).w := by rw [h4]
  have e4 : w'.m = (wrLanes (begunWarp x n w) f d x.tag ((lanesOf x.e).map fun l => (l, val x l))).m := by rw [h4]
  have e5 : w'.lanes = (begunWarp x n w).lanes := by rw [h4]; simp
  refine ⟨t, w', (he s).trans h1, h2, ?_, ?_, ?_, ?_, h3⟩
  · obtain ⟨a, b, c, g⟩ := hw
    refine ⟨fun r l hl => ?_, fun r l hl => ?_, fun r => ?_, fun r => ?_⟩
    · have := a r l hl
      unfold rdV at this ⊢
      rw [e1]; exact this
    · have := b r l hl
      unfold rdQ at this ⊢
      rw [e2]; exact this
    · have := c r
      unfold rdW at this ⊢
      rw [e3]; exact this
    · have := g r
      unfold rdM at this ⊢
      rw [e4]; exact this
  · intro l
    have := begunWarp_lane x n w hrun l
    unfold Warp.lane at this ⊢
    rw [e5]; exact this
  · rw [h4]; simp
  · rw [ParksBy, h4]

/-- Every instruction whose meaning is `execRun` on a warp-scalar register completes with its one value. -/
theorem scalarResult_of_execRun {i : Instr} {d : Reg} {val : Issue → Nat} (he : ∀ s, exec i s = execRun i s .w d val) :
    ScalarResult i d val := by
  intro s w x s0 h
  obtain ⟨hxw, -⟩ := issues_warp h
  obtain ⟨-, hrun⟩ := issues_run h
  obtain ⟨t, w', n, h1, h2, h3, h4⟩ := issue_own_warp h (fun y => wrW y d x.tag (BitVec.ofNat 32 (val x))) (runEffect .w d val)
    (fun _ => rfl) (fun y => by simp) (fun y => by simp)
  have e1 : w'.v = w.v := by rw [h4]; simp
  have e2 : w'.q = w.q := by rw [h4]; simp
  have e3 : w'.w = (wrW (begunWarp x n w) d x.tag (BitVec.ofNat 32 (val x))).w := by rw [h4]
  have e4 : w'.m = w.m := by rw [h4]; simp
  have e5 : w'.lanes = (begunWarp x n w).lanes := by rw [h4]; simp
  refine ⟨t, w', (he s).trans h1, h2, ⟨fun r => ?_, fun r l _ => by simp [rdV, e1], fun r l _ => by simp [rdQ, e2],
    fun r => by simp [rdM, e4]⟩, fun l => ?_, ?_, ?_, h3⟩
  · unfold rdW
    rw [e3]
    unfold wrW
    by_cases hd : d = 0
    · rw [if_neg (c := r = d ∧ d ≠ 0) fun h => h.2 hd, if_pos hd]; rfl
    · rw [if_neg (c := d = 0) hd]
      by_cases hr : r = d
      · subst hr; rw [if_neg hd, if_pos ⟨rfl, hd⟩]; exact sget_sput_self _ _ _ _
      · rw [if_neg (c := r = d ∧ d ≠ 0) fun h => hr h.1]
        by_cases hr0 : r = 0
        · rw [if_pos hr0, if_pos hr0]
        · rw [if_neg hr0, if_neg hr0]
          exact sget_sput_ne _ _ _ fun e => hr (BitVec.eq_of_toNat_eq e)
  · have := begunWarp_lane x n w hrun l
    unfold Warp.lane at this ⊢
    rw [e5]; exact this
  · rw [h4]; simp
  · rw [ParksBy, h4]

/-! ## What waits and traps change -/

theorem noteEnd_state (s : State) (g : Nat) : noteEnd s g = { s with gangs := (noteEnd s g).gangs } := by
  unfold noteEnd
  split
  · rfl
  · split <;> rfl

/-- A trap changes warps, workgroups and gangs, and nothing else of the machine (R160, R163). -/
theorem serviceTrap_state (s : State) (n : Nat) (t : Trap) (b : Bool) :
    serviceTrap s n t b = { s with warps := (serviceTrap s n t b).warps, wgs := (serviceTrap s n t b).wgs,
                                   gangs := (serviceTrap s n t b).gangs } := by
  unfold serviceTrap
  split
  · rfl
  · simp only
    conv_lhs => rw [noteEnd_state]
    generalize (noteEnd _ _).gangs = g
    unfold noteEnd
    split
    · rfl
    · split <;> rfl

theorem takeTrap_state (s : State) (n : Nat) (t : Trap) (r : Nat → Lane → DWord) :
    takeTrap s n t r = { s with warps := (takeTrap s n t r).warps, wgs := (takeTrap s n t r).wgs,
                                gangs := (takeTrap s n t r).gangs } := by
  unfold takeTrap
  split
  · rfl
  · simp only
    split
    · rfl
    · split
      · exact serviceTrap_state _ _ _ _
      · rfl

/-- A warp that enters its handler (R160): what the trap record holds, where the trapped lanes go, and which lanes wait. -/
theorem takeTrap_enters (s : State) {n : Nat} {w : Warp} (t : Trap) (r : Nat → Lane → DWord) (hw : s.getWarp n = some w)
    (hl : t.lanes ≠ 0) (hv : w.htvec ≠ 0) (hd : w.inTrap = false ∨ t.lanes &&& w.hmask = 0) :
    takeTrap s n t r = s.setWarp (enterHandler w t r) := by
  have h1 : ¬ (t.lanes == 0) = true := by rwa [beq_iff_eq]
  have h2 : ¬ (w.htvec == 0 || (w.inTrap && (t.lanes &&& w.hmask) != 0)) = true := by
    rw [Bool.or_eq_true, beq_iff_eq, not_or]
    refine ⟨hv, ?_⟩
    rcases hd with hd | hd
    · rw [hd]; simp
    · rw [hd]; simp
  unfold takeTrap
  simp only [hw, if_neg h1, if_neg h2]

theorem deliverPending_state (s : State) (n : Nat) :
    deliverPending s n = { s with warps := (deliverPending s n).warps, wgs := (deliverPending s n).wgs,
                                  gangs := (deliverPending s n).gangs } := by
  unfold deliverPending
  split
  · rfl
  · split
    · exact serviceTrap_state _ _ _ _
    · rfl
    · split
      · rfl
      · exact takeTrap_state _ _ _ _

/-- A trap that is recognised late changes warps, workgroups and gangs (R162). -/
theorem lateTrap_state (s : State) (n : Nat) (t : Trap) :
    lateTrap s n t = { s with warps := (lateTrap s n t).warps, wgs := (lateTrap s n t).wgs,
                              gangs := (lateTrap s n t).gangs } := by
  unfold lateTrap
  split
  · rfl
  · simp only
    split
    · rfl
    · split
      · exact serviceTrap_state _ _ _ _
      · exact deliverPending_state _ _

theorem deferTrap_state (s : State) (n : Nat) (t : Trap) :
    deferTrap s n t = { s with warps := (deferTrap s n t).warps, wgs := (deferTrap s n t).wgs,
                               gangs := (deferTrap s n t).gangs } := lateTrap_state _ _ _

theorem settle_state (s : State) (n : Nat) :
    settle s n = { s with warps := (settle s n).warps, wgs := (settle s n).wgs, gangs := (settle s n).gangs } := by
  unfold settle
  simp only
  split
  · rfl
  · split
    · exact takeTrap_state _ _ _ _
    · rfl

/-- No wait, trap or release writes memory. -/
@[simp] theorem takeTrap_mem (s : State) (n : Nat) (t : Trap) (r : Nat → Lane → DWord) : (takeTrap s n t r).mem = s.mem := by
  rw [takeTrap_state]
@[simp] theorem deferTrap_mem (s : State) (n : Nat) (t : Trap) : (deferTrap s n t).mem = s.mem := by rw [deferTrap_state]
@[simp] theorem settle_mem (s : State) (n : Nat) : (settle s n).mem = s.mem := by rw [settle_state]
@[simp] theorem deliverPending_mem (s : State) (n : Nat) : (deliverPending s n).mem = s.mem := by rw [deliverPending_state]
@[simp] theorem begin_mem (x : Issue) (s : State) : (begin_ x s).mem = s.mem := by rw [begin_state]
@[simp] theorem park_mem (x : Issue) (s : State) : (park x s).mem = s.mem := by rw [park_state]

end Sys2Proof.Machine
end

