-- ==== Sys2Proof/Tests/Slice0.lean ====
section
/-! SUPPORT. The model's own tests: ill-formed terms are refused, words laid out from the manual's tables decode to their
instructions, single steps give the manual's values, and for every statement a state and operands that meet its hypotheses. -/

namespace Sys2Proof.Machine

set_option Elab.async false

/-! ## Small states -/

/-- No park marker, guard `q0`, no KEEP. -/
def h0 : Hdr := ⟨false, 0, false, 0⟩

/-- One service-level warp of 32 ready lanes that holds the issue slot, with its region, gang, workgroup and page tables. -/
def tS : State := { bootWarp State.reset with cur := 1 }

/-- The same with the warp changed. -/
def tWarp (f : Warp → Warp) : State := tS.modWarp 1 f

/-- The same with the workgroup changed. -/
def tWg (f : Workgroup → Workgroup) : State := tS.modWg 1 f

/-- A vector register set in every lane, a pair, and a register set in one lane. -/
def setV (w : Warp) (r : Reg) (v : Word) : Warp := wrLanes w .v r 0 ((List.range 32).map fun l => (l, v.toNat))
def setP (w : Warp) (r : Reg) (v : Nat) : Warp := wrLanes w .p r 0 ((List.range 32).map fun l => (l, v))
def setLane (w : Warp) (r : Reg) (l : Nat) (v : Word) : Warp := wrV w r l 0 v

/-- A warp with a trap vector. -/
def withHandler (w : Warp) : Warp := { w with htvec := 0x8000 }

/-- Whether an instruction issues in a state and a further condition holds of the warp, the issue and the state without the
entries popped. -/
def holdsAt (i : Instr) (s : State) (p : Warp → Issue → State → Bool) : Bool :=
  match s.getWarp s.cur with
  | none => false
  | some w =>
    match supply i s w with
    | none => false
    | some (x, s0) => decide (Ready i s w) && decide (x.e ≠ 0) && !mustWait (mkIssue i w) && p w x s0

/-- What `holdsAt` shows: the hypotheses are met together. -/
theorem holdsAt_spec {i : Instr} {s : State} {p : Warp → Issue → State → Bool} (h : holdsAt i s p = true) :
    ∃ w x s0, Issues i s w x s0 ∧ p w x s0 = true := by
  unfold holdsAt at h
  split at h
  · cases h
  · rename_i w hw
    split at h
    · cases h
    · rename_i x s0 hs
      simp only [Bool.and_eq_true, decide_eq_true_eq, Bool.not_eq_true'] at h
      exact ⟨w, x, s0, ⟨h.1.1.1, h.1.1.2, h.1.2, hs⟩, h.2⟩

/-- Whether an instruction issues in a state. -/
def issuesIn (s : State) (i : Instr) : Bool := holdsAt i s fun _ _ _ => true

/-- What the current warp of the state is after an instruction, when it answers a next state. -/
def warpAfter (i : Instr) (s : State) : Option Warp :=
  match exec i s with
  | .next t => t.getWarp s.cur
  | _ => none

/-- What a register of the current warp reads as after an instruction, in some lane. -/
def vAfter (i : Instr) (s : State) (r : Reg) (l : Nat) : Option Nat := (warpAfter i s).map fun w => (rdV w r l).toNat
def pAfter (i : Instr) (s : State) (r : Reg) (l : Nat) : Option Nat := (warpAfter i s).map fun w => (rdP w r l).toNat
def qAfter (i : Instr) (s : State) (r : Reg) (l : Nat) : Option Bool := (warpAfter i s).map fun w => rdQ w r l

/-- The state that an instruction or an event leaves. -/
def after (i : Instr) (s : State) : Option State :=
  match exec i s with
  | .next t => some t
  | _ => none

/-- Queues with four entries each, for the instructions that pop. -/
def tQ : State := tWg fun g => { g with queues := List.replicate 8 (List.replicate 4 (List.replicate 32 7)) }

/-- One scratchpad bank. -/
def tScr : State := tWg fun g => { g with scratch := 0x4000, banks := [0] }

/-- A region at user level whose kernel has 16 registers and 8 predicates. -/
def tUser : State := (tWarp withHandler).modRegion 0x10001 fun r => { r with service := false, eff := { bootEff with nregs := 16, npreds := 8 } }

/-! ## Words of the manual decode to their instructions, and each instruction can issue -/

/-- Words of the control family, laid out by R47, R53, R54 and R56 with the FN values of the entries. -/
def wordsControl : List (Nat × Instr) := [
  (0x0, .nop h0), (0x123456788000000000000009, .bra h0 0x12345678), (0x280000010, .brx h0 10),
  (0x123456788000000000300019, .call h0 6 0x12345678), (0x280300020, .callx h0 6 10), (0x280000028, .ret h0 10),
  (0x30, .exit h0), (0x300038, .join h0 6), (0x300040, .leave h0 6), (0x300048, .waitm h0 6),
  (0x280300050, .movmMaskFromW h0 6 10), (0x40000280300050, .movmWFromMask h0 6 10),
  (0x80000280300050, .movmMaskFromMask h0 6 10), (0x123456788000000000300051, .movmMaskImm h0 6 0x12345678), (0x58, .rgn h0),
  (0x60, .trap h0 none), (0x56788000000000000061, .trap h0 (some 0x5678)), (0x56788000000280300069, .wcall h0 6 10 0x5678),
  (0x70, .rttRetry h0), (0x40000000000070, .rttSkip h0), (0x80000000000070, .rttSub h0),
  (0x100000000000070, .rttRetryRgn h0), (0x78, .yield h0)]

theorem test_decode_control : wordsControl.all (fun p => decide (decode (BitVec.ofNat 128 p.1) = .instr p.2)) = true := by decide +kernel

/-- Each can issue with participants: the hypothesis of the statements of its result (IntegerArithmeticResults, ShiftAndBitResults,
CompareAndMoveResults, LaneAndScalarResults and the rest) is met. -/
theorem witness_issues_control : wordsControl.all (fun p => issuesIn tQ p.2) = true := by decide +kernel

/-- Words of the integer family, laid out by R47, R53, R54 and R56 with the FN values of the entries. -/
def wordsInteger : List (Nat × Instr) := [
  (0xFFFFFFFB8180000280300081, .iadd h0 .s64 true 6 10 (.imm 0xFFFFFFFB)),
  (0x1C0280300080, .iadd h0 .s32 false 6 10 (.reg 14)), (0x1200401C0280300089, .isum h0 .n32 6 ⟨10, 14, 18, .none⟩),
  (0xC01C0280300090, .isub h0 .n64 false 6 10 (.reg 14)), (0x801C0280300098, .imul h0 .s64 6 10 (.reg 14)),
  (0x1234567880400002803000A1, .imulhi h0 .n32 6 10 (.imm 0x12345678)),
  (0x1201001C02803000A9, .imad h0 .s32 true 6 ⟨10, 14, 18, .none⟩),
  (0xA81200001C00003000A9, .imad h0 .s32 false 6 ⟨0, 14, 18, .a 5⟩),
  (0x1200401C02803000B1, .imadw h0 .n32 6 ⟨10, 14, 18, .none⟩), (0x1C02803000B8, .imin h0 .s32 6 10 (.reg 14)),
  (0xC01C02803000C0, .imax h0 .n64 6 10 (.reg 14)), (0x1800002803000C8, .iabs h0 true true 6 10),
  (0x1200801C02803000D1, .isad h0 .s64 6 ⟨10, 14, 18, .none⟩)]

theorem test_decode_integer : wordsInteger.all (fun p => decide (decode (BitVec.ofNat 128 p.1) = .instr p.2)) = true := by decide +kernel

/-- Each can issue with participants: the hypothesis of the statements of its result (IntegerArithmeticResults, ShiftAndBitResults,
CompareAndMoveResults, LaneAndScalarResults and the rest) is met. -/
theorem witness_issues_integer : wordsInteger.all (fun p => issuesIn tQ p.2) = true := by decide +kernel

/-- Words of the shifts family, laid out by R47, R53, R54 and R56 with the FN values of the entries. -/
def wordsShifts : List (Nat × Instr) := [
  (0x1234567880400002803000D9, .shl h0 .n32 6 10 (.imm 0x12345678)), (0x801C02803000E0, .shr h0 .s64 6 10 (.reg 14)),
  (0x1C02803000E8, .sar h0 .s32 6 10 (.reg 14)), (0x1200001C02803000F1, .funl h0 6 (.reg ⟨10, 14, 18, .none⟩)),
  (0x123456780000000000001C02803000F2, .funl h0 6 (.imm 10 14 .none 0x12345678)),
  (0x401C02803000F8, .rotL h0 .n32 6 10 (.reg 14)), (0x2001C02803000F8, .rotR h0 .s32 6 10 (.reg 14)),
  (0x1C0280300100, .and h0 .b32 6 10 (.reg 14)), (0x123456788080000280300109, .or h0 .b64 6 10 (.imm 0x12345678)),
  (0x801C0280300110, .xor h0 .b64 6 10 (.reg 14)), (0x280300118, .not h0 .b32 6 10),
  (0xA001200001C0280300121, .tern h0 .b32 6 ⟨10, 14, 18, .none⟩ 0x0A), (0x80000280300128, .popc h0 .b64 6 10),
  (0x280300130, .clz h0 .b32 6 10), (0x280300138, .ctz h0 .b32 6 10), (0x80000280300140, .brev h0 .b64 6 10),
  (0xA048040000280300149, .bfe h0 .n32 6 10 (.imm 0x0A04)),
  (0x1200001C0280300151, .bfi h0 .b32 6 (.reg ⟨10, 14, 18, .none⟩)),
  (0x8040000000000801C0280300152, .bfi h0 .b64 6 (.imm 10 14 .none 0x0804)),
  (0x1200001C0280300159, .bsel h0 6 (.reg ⟨10, 14, 18, .none⟩))]

theorem test_decode_shifts : wordsShifts.all (fun p => decide (decode (BitVec.ofNat 128 p.1) = .instr p.2)) = true := by decide +kernel

/-- Each can issue with participants: the hypothesis of the statements of its result (IntegerArithmeticResults, ShiftAndBitResults,
CompareAndMoveResults, LaneAndScalarResults and the rest) is met. -/
theorem witness_issues_shifts : wordsShifts.all (fun p => issuesIn tQ p.2) = true := by decide +kernel

/-- Words of the moves family, laid out by R47, R53, R54 and R56 with the FN values of the entries. -/
def wordsMoves : List (Nat × Instr) := [
  (0xA401C0280300160, .icmp h0 .ge .n32 6 10 (.reg 14)), (0x4801C0280300168, .iset h0 .lt .s64 6 10 (.reg 14)),
  (0x1200801C0280300171, .sel h0 .b64 6 ⟨10, 14, 18, .none⟩), (0x88001200001C0280300179, .plop h0 6 10 14 18 0x88),
  (0x800300180, .pmovPack h0 6 32), (0x200000283000180, .pmovUnpack h0 96 10), (0x400000280300180, .pmovCopy h0 6 10),
  (0x600000280300180, .pmovNot h0 6 10), (0x280300188, .mov h0 6 10), (0x200000280300188, .movPair h0 6 10),
  (0x3FC000008000000000300191, .movi h0 6 0x3FC00000), (0x123456788080000000300191, .moviS64 h0 6 0x12345678),
  (0x1234567880C0000000300191, .moviN64 h0 6 0x12345678),
  (0x123456789ABCDEF0000000000030019A, .movw h0 6 0x123456789ABCDEF0), (0x6401C02803001A0, .lea h0 .n32 3 6 10 (.reg 14)),
  (0x1200001C02803001A9, .leax h0 .s32 6 ⟨10, 14, 18, .none⟩ none),
  (0x123456780000001200401C02803001AA, .leax h0 .n32 6 ⟨10, 14, 18, .none⟩ (some 0x12345678)),
  (0x3001B0, .srd h0 (.v 6) .lane), (0x400002403001B0, .srd h0 (.pair 6) .clock), (0x800008003001B0, .srd h0 (.w 6) .tar),
  (0x2809001B8, .swr h0 .fpc (.v 10)), (0x40000280C001B8, .swr h0 .htvec (.pair 10)),
  (0x1234567880000000009801B9, .swr h0 .qbo (.imm 0x12345678))]

theorem test_decode_moves : wordsMoves.all (fun p => decide (decode (BitVec.ofNat 128 p.1) = .instr p.2)) = true := by decide +kernel

/-- Each can issue with participants: the hypothesis of the statements of its result (IntegerArithmeticResults, ShiftAndBitResults,
CompareAndMoveResults, LaneAndScalarResults and the rest) is met. -/
theorem witness_issues_moves : wordsMoves.all (fun p => issuesIn tQ p.2) = true := by decide +kernel

/-- Words of the lanes family, laid out by R47, R53, R54 and R56 with the FN values of the entries. -/
def wordsLanes : List (Nat × Instr) := [
  (0x1085C00002803001C1, .xlane h0 .xor 5 6 10 (.imm 0x10)), (0x3801C02803001C0, .xlane h0 .sft 3 6 10 (.reg 14)),
  (0x2803001C8, .pollAll h0 false 6 10), (0x1400002803001C8, .pollAny h0 true 6 10),
  (0x800002803001C8, .pollSame h0 false 6 10), (0x2803001D0, .qmaskW h0 false 6 10),
  (0x1400002803001D0, .qmaskV h0 true 6 10), (0x2803001D8, .peersSet h0 false 6 10),
  (0xC00002803001D8, .peersUni h0 true 6 10), (0x1000002803001D8, .peersLead h0 false 6 10),
  (0x5400002803001E0, .redux h0 .max .n32 (.v 6) 10), (0xA000002803001E0, .redux h0 .xor .s32 (.w 6) 10),
  (0x3001E8, .elect h0 6), (0x2803001F0, .wmovWFromV h0 6 10), (0x400002803001F0, .wmovVFromW h0 6 10),
  (0x800002803001F0, .wmovWFromW h0 6 10), (0x1234567880000000003001F1, .wmovWImm h0 6 0x12345678),
  (0x14401C02803001F8, .wop h0 .max .n32 6 10 (.reg 14)),
  (0x1234567882000002803001F9, .wop h0 .sub .s32 6 10 (.imm 0x12345678))]

theorem test_decode_lanes : wordsLanes.all (fun p => decide (decode (BitVec.ofNat 128 p.1) = .instr p.2)) = true := by decide +kernel

/-- Each can issue with participants: the hypothesis of the statements of its result (IntegerArithmeticResults, ShiftAndBitResults,
CompareAndMoveResults, LaneAndScalarResults and the rest) is met. -/
theorem witness_issues_lanes : wordsLanes.all (fun p => issuesIn tQ p.2) = true := by decide +kernel

/-- Words of the float family, laid out by R47, R53, R54 and R56 with the FN values of the entries. -/
def wordsFloat : List (Nat × Instr) := [
  (0x1C0280300200, .fadd h0 .f32 .dyn 6 10 (.reg 14)), (0x1401C0280300208, .fsub h0 .f16 .rne 6 10 (.reg 14)),
  (0x123456788280000280300211, .fmul h0 .bf16 .rz 6 10 (.imm 0x12345678)),
  (0x1204001C0280300219, .ffma h0 .f32 .rd 6 ⟨10, 14, 18, .none⟩), (0x401C0280300220, .fmin h0 .f16 6 10 (.reg 14)),
  (0x1C0280300228, .fmax h0 .f32 6 10 (.reg 14)), (0x68801C0280300230, .fcmp h0 .geu .bf16 6 10 (.reg 14)),
  (0x30001C0280300238, .fset h0 .num .f32 6 10 (.reg 14)), (0x40000280300240, .fclass h0 .f16 6 10),
  (0x3008800000280300241, .fclassTest h0 .f32 6 10 0x300), (0x300000280300248, .frnd h0 .f32 .ru 6 10),
  (0x280300250, .frcp h0 6 10), (0x280300258, .frsq h0 6 10), (0x280300268, .fex2 h0 6 10), (0x280300270, .flg2 h0 6 10),
  (0x280300278, .fsin h0 6 10), (0x280300280, .fcos h0 6 10), (0x280300288, .ftanh h0 6 10),
  (0x480000280300260, .fsqrt h0 .bf16 .rd 6 10), (0x123456788040000280300291, .fscale h0 .f16 .dyn 6 10 (.imm 0x12345678)),
  (0x80000280300298, .fgetexp h0 .bf16 6 10)]

theorem test_decode_float : wordsFloat.all (fun p => decide (decode (BitVec.ofNat 128 p.1) = .instr p.2)) = true := by decide +kernel

/-- Each can issue with participants: the hypothesis of the statements of its result (IntegerArithmeticResults, ShiftAndBitResults,
CompareAndMoveResults, LaneAndScalarResults and the rest) is met. -/
theorem witness_issues_float : wordsFloat.all (fun p => issuesIn tQ p.2) = true := by decide +kernel

/-- Words of the packed family, laid out by R47, R53, R54 and R56 with the FN values of the entries. -/
def wordsPacked : List (Nat × Instr) := [
  (0x1401C02803002A0, .hpadd h0 .f16 .rne 6 10 (.reg 14)),
  (0x1234567880800002803002A9, .hpmul h0 .bf16 .dyn 6 10 (.imm 0x12345678)),
  (0x1200401C02803002B1, .hpfma h0 .f16 .dyn 6 ⟨10, 14, 18, .none⟩), (0x401C02803002B8, .hpmnxMin h0 .f16 6 10 (.reg 14)),
  (0x8801C02803002B8, .hpmnxMax h0 .bf16 6 10 (.reg 14)),
  (0x1209001C02803002C1, .dot4Float h0 .e5m2 .e4m3 .rne 6 ⟨10, 14, 18, .none⟩),
  (0x1250001C02803002C1, .dot4S8 h0 6 ⟨10, 14, 18, .none⟩), (0x120A001C02803002C9, .dot2 h0 .bf16 .rz 6 ⟨10, 14, 18, .none⟩),
  (0x832001202000002803002D1, .cvt h0 .s64 .f16 .rz false true 6 10 18 .none),
  (0x14480000000000003002D1, .cvt h0 .n8 .f32 .dyn false false 6 0 0 (.a 2)),
  (0x403000000001C02803002D9, .cvtp h0 .e4m3 .dyn true false 6 ⟨10, 14, 0, .none⟩),
  (0x18E0001203000002803002E1, .cvtx h0 .e2m1 .ru true true 6 10 18 .none), (0x1C02803002E8, .lmul h0 6 10 14),
  (0x8001C02803002E8, .lmulX4 h0 6 10 14), (0x18000002803002F0, .lcvtWiden h0 3 6 10),
  (0x20000002803002F0, .lcvtNarrow h0 false 6 10), (0x28000002803002F0, .lcvtNarrow h0 true 6 10)]

theorem test_decode_packed : wordsPacked.all (fun p => decide (decode (BitVec.ofNat 128 p.1) = .instr p.2)) = true := by decide +kernel

/-- Each can issue with participants: the hypothesis of the statements of its result (IntegerArithmeticResults, ShiftAndBitResults,
CompareAndMoveResults, LaneAndScalarResults and the rest) is met. -/
theorem witness_issues_packed : wordsPacked.all (fun p => issuesIn tQ p.2) = true := by decide +kernel

/-- Words of the memory family, laid out by R47, R53, R54 and R56 with the FN values of the entries. -/
def wordsMemory : List (Nat × Instr) := [
  (0x540000280300300, .ld h0 .b64 .na 6 ⟨10, none⟩), (0x1234567882C0000280300301, .ld h0 .s16 .ef 6 ⟨10, some 0x12345678⟩),
  (0x3001C0280000308, .st h0 .b32 .ef (.short 10 14)),
  (0x123456780000000000001C028000030A, .st h0 .b8 .none (.long 10 14 .none 0x12345678)),
  (0x1234567800007000010000028000030A, .st h0 .b32 .none (.long 10 0 (.b 3) 0x12345678)),
  (0x123456788080000280300311, .lds h0 .n16 6 ⟨10, some 0x12345678⟩), (0x1401C0280000318, .sts h0 .b64 (.short 10 14)),
  (0x123456788100000280300321, .ldc h0 .b32 6 ⟨10, some 0x12345678⟩), (0x140000280300328, .ldw h0 .b64 6 ⟨10, none⟩),
  (0x123456780000000000801C028000040A, .stw h0 .b16 (.long 10 14 .none 0x12345678)), (0x280300330, .ldq h0 6 ⟨10, none⟩),
  (0x123456788040000280300331, .ldqScratch h0 6 ⟨10, some 0x12345678⟩), (0xA8000000000000300339, .popq h0 .x1 6 5),
  (0xA8000080000000400339, .popq h0 .x4 8 5), (0x8401C0280300340, .atom h0 .n32 false 6 (.op .inc (.short 10 14))),
  (0x123456780000000016801C0280300342, .atom h0 .s64 true 6 (.op .exch (.long 10 14 .none 0x12345678))),
  (0x1207401C0280300341, .atom h0 .n32 false 6 (.cas ⟨10, 14, 18, .none⟩)),
  (0x123456780000001217401C0280300342, .atom h0 .n32 true 6 (.casOff ⟨10, 14, 18, .none⟩ 0x12345678)),
  (0x12401C0280300348, .atomf h0 .max .f16 true 6 (.short 10 14)),
  (0x9C01C0280000350, .red h0 .dec .n64 false (.short 10 14)),
  (0x123456780000000000801C028000035A, .redf h0 .add .bf16 false (.long 10 14 .none 0x12345678)),
  (0x17401C02803003F8, .gath h0 true 3 true 6 10 14), (0x1205001C0280000401, .scat h0 false 2 false ⟨10, 14, 18, .none⟩)]

theorem test_decode_memory : wordsMemory.all (fun p => decide (decode (BitVec.ofNat 128 p.1) = .instr p.2)) = true := by decide +kernel

/-- Each can issue with participants: the hypothesis of the statements of its result (IntegerArithmeticResults, ShiftAndBitResults,
CompareAndMoveResults, LaneAndScalarResults and the rest) is met. -/
theorem witness_issues_memory : wordsMemory.all (fun p => issuesIn tQ p.2) = true := by decide +kernel

/-- Words of the sync family, laid out by R47, R53, R54 and R56 with the FN values of the entries. -/
def wordsSync : List (Nat × Instr) := [
  (0x180000000000360, .acq h0 .sys), (0xC0000000000368, .rel h0 .clu), (0x7FC0000000000370, .waitc h0 .acc 63),
  (0x378, .cctlIvall h0), (0x123456788040000280000379, .cctlWbl h0 ⟨10, some 0x12345678⟩),
  (0x80000280000378, .cctlInvl h0 ⟨10, none⟩), (0x1234567880C0000280000379, .cctlKwb h0 ⟨10, some 0x12345678⟩),
  (0x100000280000378, .cctlKinv h0 ⟨10, none⟩), (0x80000280000380, .pref h0 .kiln ⟨10, none⟩),
  (0xFC0000000000388, .bara h0 63), (0x140000000000390, .barw h0 5), (0x140000000000398, .bars h0 5),
  (0x1401C00000003A0, .barinit h0 5 (.reg 14)), (0x3FFF81400000000003A1, .barinit h0 5 (.imm 0x3FFF)),
  (0x1400000003003A8, .barq h0 6 5), (0x1234567880800002800003B1, .marv h0 .gang ⟨10, some 0x12345678⟩),
  (0x1401C02800003B8, .mwait h0 .dev (.short 10 14)),
  (0x123456780000000000401C02800003BA, .mwait h0 .core (.long 10 14 .none 0x12345678)), (0x2800003C0, .sleep h0 (.reg 10)),
  (0x1234567880000000000003C1, .sleep h0 (.imm 0x12345678)), (0x1C02800003C8, .sleept h0 10 14),
  (0xC00002800003D0, .watch h0 3 ⟨10, none⟩), (0x2400002800003D8, .waitw h0 9 10),
  (0x1200401C02803003E1, .cpya h0 .s2g 6 ⟨10, 14, 18, .none⟩), (0x1C02800003E8, .cpyw h0 10 14),
  (0x1C02803003F0, .cpyq h0 6 10 14)]

theorem test_decode_sync : wordsSync.all (fun p => decide (decode (BitVec.ofNat 128 p.1) = .instr p.2)) = true := by decide +kernel

/-- Each can issue with participants: the hypothesis of the statements of its result (IntegerArithmeticResults, ShiftAndBitResults,
CompareAndMoveResults, LaneAndScalarResults and the rest) is met. -/
theorem witness_issues_sync : wordsSync.all (fun p => issuesIn tQ p.2) = true := by decide +kernel

/-- Words of the engines family, laid out by R47, R53, R54 and R56 with the FN values of the entries. -/
def wordsEngines : List (Nat × Instr) := [
  (0xC01C0280000480, .wld h0 .e4m3 10 14 none), (0x123456780000000002401C0280000482, .wld h0 .log6 10 14 (some 0x12345678)),
  (0x488, .wswap h0), (0x123456788000000280300491, .mms h0 6 ⟨10, some 0x12345678⟩), (0x280300498, .mqry h0 6 10),
  (0x3004A0, .mfold h0 6), (0x401C02800004A0, .mfoldWr h0 10 14), (0x2800004A8, .mrst h0 10),
  (0x1400002800004C0, .aopen h0 5 10), (0x11400002800004C0, .aopenZ h0 5 10),
  (0x1234567890C00002800004C9, .aadd h0 true 3 10 (.imm 0x12345678)), (0xFC01C02800004D0, .acnt h0 63 10 (.reg 14)),
  (0x1241401C02800004D9, .rack h0 true 5 10 14 18), (0x1211001C02800004D9, .rackW h0 false 4 10 14 18),
  (0x1221401C02800004D9, .rackX h0 5 10 14 18), (0x2803004E0, .aqryReg h0 6 10), (0x401C02803004E0, .aqryLine h0 6 10 14)]

theorem test_decode_engines : wordsEngines.all (fun p => decide (decode (BitVec.ofNat 128 p.1) = .instr p.2)) = true := by decide +kernel

/-- Each can issue with participants: the hypothesis of the statements of its result (IntegerArithmeticResults, ShiftAndBitResults,
CompareAndMoveResults, LaneAndScalarResults and the rest) is met. -/
theorem witness_issues_engines : wordsEngines.all (fun p => issuesIn tQ p.2) = true := by decide +kernel

/-- Words of the system family, laid out by R47, R53, R54 and R56 with the FN values of the entries. -/
def wordsSystem : List (Nat × Instr) := [
  (0x1C0280300500, .launch h0 6 10 14), (0x440000000001401C028000050A, .tsig h0 .dev (.long 10 14 .none 0x44)),
  (0x1200001C0280000511, .ctxsv h0 10 14 18), (0x280000518, .ctxld h0 10), (0x1200001C0280000521, .harv h0 10 14 18),
  (0x1200401C0280000521, .harvR h0 10 14 18), (0x1200001C0280000529, .tlbiPg h0 10 14 18),
  (0x120040000000000529, .tlbiAsid h0 18), (0x80000000000529, .tlbiAll h0), (0x280000530, .halt h0 10),
  (0x280000580, .coll h0 10), (0x40000280000580, .collResume h0 10),
  (0x1200001C0280000589, .sendq h0 ⟨10, 14, 18, .none⟩ none),
  (0x280000001200001C028000058A, .sendq h0 ⟨10, 14, 18, .none⟩ (some 40)), (0x280300590, .slotq h0 6 10),
  (0x40000000300590, .slotqCur h0 6), (0x280000598, .topo h0 10), (0x1C02800005A0, .rtsw h0 10 14), (0x5A8, .pfence h0),
  (0x400000000005A8, .pfenceDev h0), (0x2803005B0, .linkq h0 6 10)]

theorem test_decode_system : wordsSystem.all (fun p => decide (decode (BitVec.ofNat 128 p.1) = .instr p.2)) = true := by decide +kernel

/-- Each can issue with participants: the hypothesis of the statements of its result (IntegerArithmeticResults, ShiftAndBitResults,
CompareAndMoveResults, LaneAndScalarResults and the rest) is met. -/
theorem witness_issues_system : wordsSystem.all (fun p => issuesIn tQ p.2) = true := by decide +kernel

/-! ## Hypotheses of the statements are met: registers, arithmetic, control, traps -/

/-- SpecialRegisterReads: a 32-bit register, a 64-bit register, a warp-scalar destination, and `sr.clock`. -/
theorem witness_SpecialRegisterReads :
    issuesIn tS (.srd h0 (.v 2047) .asid) ∧ (issuesIn tS (.srd h0 (.pair 2046) .hsub) ∧ SReg.hsub ≠ .clock) ∧
      issuesIn tS (.srd h0 (.w 63) .vbthr) ∧ issuesIn tS (.srd h0 (.pair 0) .clock) := by decide +kernel

/-- IntegerFunctions: the bounds of the bit functions at both ends, and word arithmetic for both 32-bit types. -/
theorem witness_IntegerFunctions :
    (0 < 32 ∧ 31 < 32 ∧ (0 : Nat) < 2 ^ 32 ∧ 2 ^ 32 - 1 < 2 ^ 32 ∧ (2 ^ 32 - 1 ≠ 0)) ∧
      (∀ t, t = ITy.s32 ∨ t = ITy.n32 → issuesIn tS (.iadd h0 t false 1 2 (.imm 0xFFFFFFFF)) ∧ issuesIn tS (.isub h0 t false 0 2 (.reg 3)) ∧
        issuesIn tS (.imul h0 t 1 2 (.reg 3))) := by
  refine ⟨by decide, fun t ht => ?_⟩
  rcases ht with rfl | rfl <;> decide +kernel

/-- SpecialRegisterWrites: each kind of register, with the region of the warp. -/
theorem witness_SpecialRegisterWrites :
    ([.swr h0 .lfm (.v 1), .swr h0 .fpx (.v 1), .swr h0 .fpc (.imm 0xFFFFFFFF), .swr h0 .htvec (.pair 2), .swr h0 .hsub (.pair 2),
      .swr h0 .vbthr (.v 1), .swr h0 .asid (.v 1)] : List Instr).all (fun i => holdsAt i tS fun w _ _ => (tS.warpRegion w).isSome) := by
  decide +kernel

/-- A warp in which every trap of a flag is enabled; `v2` holds a signalling NaN in lane 0. -/
def tEnabled : State := tWarp fun w => setLane { w with fpc := 0x1F00, htvec := 0x8000 } 2 0 0x7F800001

/-- FloatingPointResults: no trap enabled; and every trap enabled, nothing outstanding and no flag raised. -/
theorem witness_FloatingPointResults :
    holdsAt (.fadd h0 .f32 .dyn 1 2 (.reg 3)) tS (fun w _ _ => !covered flagsArith w) ∧
      holdsAt (.fadd h0 .f32 .dyn 1 4 (.reg 3)) tEnabled (fun w x _ => covered flagsArith w && w.outs.isEmpty &&
        (lanesOf x.e).all fun l => (faddBits (ftyFmt .f32) (modeOf x .dyn) (ftzOf x) (readReg x .v 4 l) (srcB x .v (.reg 3) l)).2 &&& trapEnables x.w.fpc == 0) := by
  decide +kernel

/-- ConversionResults: with and without a scale byte that is a number, and no flag that a trap takes. -/
theorem witness_ConversionResults :
    holdsAt (.cvt h0 .f16 .f32 .dyn false false 1 2 0 .none) tS (fun w x _ => !covered flagsArith w &&
      nanScaleLanes x false (fun l => readOpnd x ⟨.v, 0, false⟩ l) == 0) ∧
      holdsAt (.cvt h0 .f16 .f32 .dyn false true 1 2 3 .none) tS (fun w x _ => !covered flagsArith w &&
        nanScaleLanes x true (fun l => readOpnd x ⟨.v, 3, false⟩ l) == 0) ∧
      holdsAt (.cvtp h0 .e4m3 .dyn true true 1 ⟨2, 4, 6, .none⟩) tS (fun w x _ => !covered flagsArith w &&
        nanScaleLanes x true (src3C x .v ⟨2, 4, 6, .none⟩) == 0) ∧
      holdsAt (.cvtx h0 .e2m1 .dyn true true 2 4 6 .none) tS (fun w x _ => !covered flagsArith w &&
        nanScaleLanes x true (fun l => readOpnd x ⟨.v, 6, false⟩ l) == 0) := by decide +kernel

/-- SpecialFunctionsAreOutstanding: not covered, and covered with nothing outstanding. -/
theorem witness_SpecialFunctionsAreOutstanding :
    holdsAt (.frcp h0 1 2) tS (fun w _ _ => !covered flagsRcp w) ∧
      holdsAt (.frcp h0 1 2) tEnabled (fun w _ _ => covered flagsRcp w && w.outs.isEmpty) := by decide +kernel

/-- CoveredFloatTraps: one participant raises an enabled flag and the others none. -/
theorem witness_CoveredFloatTraps :
    holdsAt (.fadd h0 .f32 .dyn 1 2 (.reg 3)) tEnabled (fun w x _ => w.outs.isEmpty && w.htvec != 0 && !w.inTrap && covered flagsArith w &&
      laneSet ((lanesOf x.e).filter fun l => (faddBits (ftyFmt .f32) (modeOf x .dyn) (ftzOf x) (readReg x .v 2 l)
        (srcB x .v (.reg 3) l)).2 &&& trapEnables w.fpc != 0) == 1) := by decide +kernel

/-- ControlTransfers: each of the seven instructions. -/
theorem witness_ControlTransfers :
    [Instr.nop h0, .yield h0, .bra h0 0xFFFFFFF8, .brx h0 2, .ret h0 2, .call h0 0 8, .callx h0 2 2].all (issuesIn tS) := by decide +kernel

/-- GuardedOffOnlyAdvances: a guard that is false in every lane, for an instruction that would trap and one that would pop. -/
theorem witness_GuardedOffOnlyAdvances :
    ([.trap ⟨true, 1, false, 0⟩ none, .popq ⟨false, 127, false, 0⟩ .x4 8 7, .halt ⟨false, 0, true, 0⟩ 2] : List Instr).all fun i =>
      match tS.getWarp 1 with
      | some w => decide (Ready i tS w) && decide (toRaw i ≠ none) && guarded w (rawOf i).gp (rawOf i).gn (headRun w) == 0
      | none => false := by decide +kernel

/-- Lane 31 stands at a later counter and the rest are ready; mask 3 holds the lanes of a word. -/
def tLate (m : LaneSet) : State := tWarp fun w =>
  { (w.modLanes 0x80000000 fun _ x => { x with pc := 0x400040 }) with m := sput 0 w.m 3 m, htvec := 0x8000 }

/-- Lanes 8 to 15 wait at a WAITM on mask 3. -/
def tWaiting (m : LaneSet) : State := tWarp fun w =>
  { (w.modLanes 0x0000FF00 fun _ x => { x with pc := 0x400080, st := .waiting 3 }) with m := sput 0 w.m 3 m }

/-- MaskChanges: the five instructions; a waiter whose mask is complete and one whose mask is not. -/
theorem witness_MaskChanges :
    ([.join h0 3, .leave h0 3, .movmMaskFromW h0 3 1, .movmMaskFromMask h0 3 4, .movmMaskImm h0 3 0xFFFFFFFF] : List Instr).all
        (issuesIn (tWaiting 0xFFFF)) ∧
      (∀ l, l < 32 → 8 ≤ l → l < 16 → ((tWaiting 0xFFFF).getWarp 1).map (fun w => (w.lane l).st) = some (.waiting 3)) ∧
      ((after (.leave h0 3) (tWaiting 0xFFFF)).bind fun t => t.getWarp 1).map (fun w => (rdM w 3, (w.lane 8).st, (w.lane 8).pc)) =
        some (0xFF00, .ready, 0x400088) ∧
      ((after (.join h0 3) (tWaiting 0xFF00)).bind fun t => t.getWarp 1).map (fun w => (rdM w 3, (w.lane 8).st)) =
        some (0xFFFFFFFF, .waiting 3) := by decide +kernel

/-- ReconvergenceWaits: a mask with a lane that is still on its way, and masks that the participants complete, alone and with lanes
that wait already. -/
theorem witness_ReconvergenceWaits :
    holdsAt (.waitm h0 3) (tLate 0xFFFFFFFF) (fun w x _ => (rdM w 3).getLsbD 31 && !(x.e &&& rdM w 3).getLsbD 31 && (w.lane 31).st == .ready) ∧
      holdsAt (.waitm h0 3) (tLate 1) (fun w x _ => !w.inTrap && (lanesOf (rdM w 3)).all fun k => x.e.getLsbD k) ∧
      holdsAt (.waitm h0 3) (tWaiting 0xFFFF) (fun w x _ => !w.inTrap &&
        (lanesOf (rdM w 3)).all fun k => x.e.getLsbD k || (w.lane k).st == .waiting 3) := by decide +kernel

/-- RegionEntryAndExit: nothing outstanding, no store on its way, no handler. -/
theorem witness_RegionEntryAndExit :
    holdsAt (.rgn h0) tS (fun w _ _ => w.outs.isEmpty && w.reads.isEmpty && w.stores.isEmpty && (engineOf tS (tS.warpCore w)).queue.isEmpty) ∧
      holdsAt (.exit h0) tS (fun w _ _ => !w.inTrap && w.outs.isEmpty && w.reads.isEmpty && w.stores.isEmpty &&
        (engineOf tS (tS.warpCore w)).queue.isEmpty) ∧
      (let o : MxOp := { w := 1, wg := 1, ctx := 1, tag := 4, pc := 0, d := 2, file := 1, lanes := 1, kind := .wswap, phase := .queued, chain := [], plane := none }
       let s := { tS with cores := [{ id := ⟨0, 0, 0⟩, engine := { queue := [o] } }] }
       holdsAt (.rgn h0) s fun w _ _ => (engineOf s (s.warpCore w)).queue == [o] && opPassed s w o) := by decide +kernel

/-- DecodeAndPrivilegeTraps: the first register and predicate past the counts, a privileged form at user level. -/
theorem witness_DecodeAndPrivilegeTraps :
    (([(.mov h0 16 1, 0x01), (.elect h0 8, 0x01), (.nop ⟨false, 8, false, 0⟩, 0x01), (.mrst h0 1, 0x04), (.halt h0 2, 0x04),
        (.swr h0 .asid (.v 1), 0x04), (.srd h0 (.v 1) .asid, 0x04)] : List (Instr × BitVec 8)).all fun p =>
      match tUser.getWarp 1 with
      | some w => decide (headRun w ≠ 0) && !w.blocked && !w.copyAbort && decide (toRaw p.1 ≠ none) && w.htvec != 0 && !w.inTrap &&
          decodeCause tUser w p.1 (rawOf p.1) == some p.2
      | none => false) ∧
    ((tUser.getWarp 1).map fun w => isPrivileged (.mrst h0 15) && tUser.warpUser w && (Instr.mrst h0 15).wf &&
      (Instr.mrst h0 15).inRange 16 8 && decide (w.idx ≠ 32)) = some true := by decide +kernel

/-- A warp in a handler of some lanes, the others held; the trap came from an instruction that writes `v5`. -/
def tHandler (m : LaneSet) (f : Warp → Warp) : State := tWarp fun w =>
  f { (w.modLanes (~~~ m) fun _ x => { x with st := .held .handler, pc := 0x400010 }) with
    inTrap := true, hmask := m, htvec := 0x8000, hpc := 0x400000, hdst := 5 + 2 ^ 11, trapTag := 7 }

/-- TrapsTakenAndServiceLevel: with a trap vector; without one; and from inside a handler of the same lanes. -/
theorem witness_TrapsTakenAndServiceLevel :
    holdsAt (.trap h0 (some 0xFFFF)) (tWarp withHandler) (fun w _ _ => w.htvec != 0 && !w.inTrap) ∧
      holdsAt (.trap h0 none) tS (fun w _ _ => w.htvec == 0 && (tS.getWg w.wg).isSome) ∧
      holdsAt (.trap h0 none) (tHandler 1 id) (fun w x _ => w.inTrap && x.e &&& w.hmask != 0 && ((tHandler 1 id).getWg w.wg).isSome) := by
  decide +kernel

/-- ReturnsFromTraps: by the lanes of `sr.hmask`, one lane or all of them, with `sr.hpc` written by the handler or not; a younger write
to the destination and none; and outside a handler. -/
theorem witness_ReturnsFromTraps :
    ([.rttRetry h0, .rttSkip h0, .rttSub h0, .rttRetryRgn h0] : List Instr).all (fun i =>
      [tHandler 1 id, tHandler 0xFFFFFFFF id, tHandler 1 fun w => { w with hpcWritten := true }].all (fun s =>
        holdsAt i s fun w x _ => w.inTrap && x.e == w.hmask && w.pend.isEmpty &&
          (List.range 32).all fun l => (w.lane l).waitedOn == none && match (w.lane l).st with | .waiting _ => false | _ => true) &&
      holdsAt i (tWarp withHandler) fun w _ _ => w.htvec != 0 && !w.inTrap) ∧
    holdsAt (.rttSub h0) (tHandler 1 id) (fun w _ _ => tagWins w .v 5 0 w.trapTag && w.hdst == 5 + 2 ^ 11) ∧
    holdsAt (.rttSub h0) (tHandler 1 fun w => { w with lastw := sput 0 w.lastw (tagKey .v 5 0) 8 })
      (fun w _ _ => !tagWins w .v 5 0 w.trapTag) := by decide +kernel

/-- ServiceCallIsOutstanding: no older store on its way, and one. -/
theorem witness_ServiceCallIsOutstanding :
    holdsAt (.wcall h0 2 4 0xFFFF) tS (fun w x _ => storesVisible x tS && (tS.getCore (tS.warpCore w)).kiln.isEmpty && (tS.getCore (tS.warpCore w)).nc.isEmpty) ∧
      (let p : PStore := { tag := 1, pc := 0x400000, d := 2, lanes := 1, op := .write .global [(0, 0x600000, [1])], asid := 1 }
       let s := tWarp fun w => { w with stores := [p], issued := 2 }
       holdsAt (.wcall h0 2 4 0xFFFF) s fun _ x _ => !storesVisible x s) := by decide +kernel

/-! ## Hypotheses of the statements are met: memory, synchronisation, copies -/

/-- All participants pass a check. -/
def passes (s : State) (x : Issue) (check : State → Issue → Nat → Verdict) : Bool := (lanesOf x.e).all fun l => check s x l == .pass

/-- LoadsAreOutstanding: each instruction, at the last address of the scratchpad and of the parameter space for those that have one. -/
theorem witness_LoadsAreOutstanding :
    holdsAt (.ld h0 .b64 .none 2 ⟨4, some 0xFFFFFFF8⟩) tS (fun _ x _ => passes tS x fun s x => globalCheck s x false (addrGlobal x ⟨4, some 0xFFFFFFF8⟩) 8) ∧
      holdsAt (.ldw h0 .b32 2 ⟨4, none⟩) tS (fun _ x _ => passes tS x fun s x => globalCheck s x true (addrGlobal x ⟨4, none⟩) 4) ∧
      holdsAt (.ldc h0 .n8 2 ⟨4, some 0xFFFF⟩) tS (fun _ x _ => passes tS x fun _ x l => judgeParam (addrScratch x ⟨4, some 0xFFFF⟩ l) 1) ∧
      holdsAt (.lds h0 .b64 2 ⟨4, some 0x3FF8⟩) tScr (fun _ x _ => passes tScr x fun s x => scratchCheck s x (addrScratch x ⟨4, some 0x3FF8⟩) 8) ∧
      holdsAt (.gath h0 true 7 true 2 4 6) tS (fun _ x _ => passes tS x fun s x =>
        globalCheck s x false (gatherAddr x 4 (fun l => (rdV x.w 6 l).toNat) 7 true) 8) ∧
      holdsAt (.atom h0 .n64 true 2 (.op .add (.long 4 6 .none 0x3FF8))) tScr (fun _ x _ => passes tScr x fun s x =>
        atomCheck s x true (atomAddr x true (.op .add (.long 4 6 .none 0x3FF8))) 8) ∧
      holdsAt (.atomf h0 .min .f32 false 2 (.short 4 6)) tS (fun _ x _ => passes tS x fun s x =>
        atomCheck s x false (spaceAddr x false (.short 4 6)) 4) := by decide +kernel

/-- StoresArePosted: each instruction. -/
theorem witness_StoresArePosted :
    holdsAt (.st h0 .b64 .na (.short 4 6)) tS (fun _ x _ => passes tS x fun s x => globalCheck s x true (stGlobal x (.short 4 6)) 8) ∧
      holdsAt (.stw h0 .b8 (.short 4 6)) tS (fun _ x _ => passes tS x fun s x => globalCheck s x true (stGlobal x (.short 4 6)) 1) ∧
      holdsAt (.sts h0 .b32 (.long 4 6 .none 0x3FFC)) tScr (fun _ x _ => passes tScr x fun s x =>
        scratchCheck s x (stScratch x (.long 4 6 .none 0x3FFC)) 4) ∧
      holdsAt (.red h0 .inc .n32 false (.short 4 6)) tS (fun _ x _ => passes tS x fun s x => atomCheck s x false (spaceAddr x false (.short 4 6)) 4) ∧
      holdsAt (.redf h0 .add .bf16 true (.short 4 6)) tScr (fun _ x _ => passes tScr x fun s x => atomCheck s x true (spaceAddr x true (.short 4 6)) 4) ∧
      holdsAt (.scat h0 false 0 false ⟨4, 6, 7, .none⟩) tS (fun _ x _ => passes tS x fun s x =>
        globalCheck s x true (gatherAddr x 4 (src3B x .v ⟨4, 6, 7, .none⟩) 0 false) 4) ∧
      holdsAt (.marv h0 .sys ⟨4, none⟩) tS (fun _ x _ => passes tS x fun s x => globalCheck s x true (addrGlobal x ⟨4, none⟩) 8) ∧
      holdsAt (.tsig h0 .wg (.short 4 6)) tS (fun _ x _ => passes tS x fun s x => globalCheck s x false (stGlobal x (.short 4 6)) 4) ∧
      ([.cctlWbl h0 ⟨4, none⟩, .cctlInvl h0 ⟨4, none⟩, .cctlKwb h0 ⟨4, none⟩, .cctlKinv h0 ⟨4, none⟩] : List Instr).all fun i =>
        holdsAt i tS fun _ x _ => (lanesOf x.e).all fun l => canonical (addrGlobal x ⟨4, none⟩ l) := by decide +kernel

/-- MisalignedLoadTraps: an odd address in every participant. -/
theorem witness_MisalignedLoadTraps :
    holdsAt (.ld h0 .n16 .none 2 ⟨4, some 1⟩) (tWarp withHandler) (fun w x _ => w.htvec != 0 && !w.inTrap &&
      (lanesOf x.e).all fun l => (rdP w 4 l + (1 : Word).signExtend 64).toNat % 2 != 0) := by decide +kernel

/-- QueueInstructions: an LDQ in either space with an empty window, a POPQ of four entries, and a POPQ of four from a queue of three that
another warp can still fill. -/
theorem witness_QueueInstructions :
    holdsAt (.ldq h0 7 ⟨4, none⟩) tS (fun w x _ => w.reads.isEmpty && passes tS x (fun s x => globalCheck s x false (addrGlobal x ⟨4, none⟩) 4) &&
        ((tS.getWg w.wg).map fun g => decide ((senderOf g w.id 7).window.length < 8)) == some true) ∧
      holdsAt (.ldqScratch h0 0 ⟨4, none⟩) tScr (fun w x _ => w.reads.isEmpty && (tScr.getWg w.wg).isSome &&
        passes tScr x fun s x => scratchCheck s x (addrScratch x ⟨4, none⟩) 4) ∧
      holdsAt (.popq h0 .x4 8 7) tQ (fun w _ _ => (tQ.getWg w.wg).isSome) ∧
      (let s : State := { tWg (fun g => { g with queues := List.replicate 8 (List.replicate 3 (List.replicate 32 7)) }) with
          warps := tS.warps ++ tS.warps.map fun w => { w with id := 2, idx := 1 } }
       (s.getWarp 1).bind (fun w => (s.getWg w.wg).map fun g => decide (Ready (.popq h0 .x4 8 7) s w) && guarded w 0 false (headRun w) != 0 &&
         decide ((queueOf g 7).length < 4) && !queueDead s w g 7) = some true) := by decide +kernel

/-- WaitsAndOrderingInstructions: a counter above its bound; older loads complete and not; each instruction. -/
theorem witness_WaitsAndOrderingInstructions :
    ([.waitc h0 .acc 63, .rel h0 .wg, .cctlIvall h0, .pref h0 .kiln ⟨4, none⟩] : List Instr).all (issuesIn tS) ∧
      (let s := tWarp fun w => { countUp w .ld 1 with waitc := some (.ld, 0) }
       (s.getWarp 1).map (fun w => headRun w != 0 && decide (0 < ctrVal w .ld)) = some true) ∧
      holdsAt (.acq h0 .sys) (tWarp fun w => { countUp w .ld 1 with issued := 1 }) (fun w x _ => !olderDone w .ld x.tag) ∧
      holdsAt (.acq h0 .wg) tS (fun w x _ => olderDone w .ld x.tag) := by decide +kernel

/-- A gang with a barrier. -/
def tBar (y : BarHead) : State := tS.modGang 1 fun g => { g with bars := [(63, y)] }

/-- BarrierArrivals: a barrier not in use, short of its number, exactly at it, and past it, with a sleeper of another warp. -/
theorem witness_BarrierArrivals :
    ([{}, { expn := 33 }, { expn := 32 }, { expn := 1 }] : List BarHead).all (fun y =>
      holdsAt (.bara h0 63) (tBar y) fun w _ _ => (tBar y).warpGang w != none) ∧
    (let s : State := { tBar { expn := 32 } with warps := tS.warps ++ tS.warps.map fun w =>
        { w.modLanes 1 (fun _ x => { x with st := .sleeping (.bar 63) 0x400008 }) with id := 2, idx := 1 } }
     (s.getWarp 2).bind (fun v => (s.getWg v.wg).map fun gv => gv.gang == 1 && (v.lane 0).st == .sleeping (.bar 63) 0x400008) = some true) ∧
    holdsAt (.barinit h0 0 (.imm 0x3FFF)) tS (fun w _ _ => tS.warpGang w != none) ∧ issuesIn tS (.barq h0 2 63) := by
  decide +kernel

/-- BarrierWaits: not in use; the phase of the last arrival complete and not; and BARS short of the number and at it. -/
theorem witness_BarrierWaits :
    (let s (y : BarHead) (ph : BitVec 16) := tS.modGang 1 fun g => { g with bars := [(0, y)], recs := [((0, 0, 0), ph)] }
     holdsAt (.barw h0 0) (s { expn := 1, ph := 5 } 4) (fun w _ _ => (s { expn := 1, ph := 5 } 4).warpGang w != none &&
        recKey (s { expn := 1, ph := 5 } 4) w 0 == (0, 0, 0)) ∧
      holdsAt (.barw h0 0) (s { expn := 1, ph := 5 } 5) (fun w _ _ => (s { expn := 1, ph := 5 } 5).warpGang w != none)) ∧
    ([{}, { expn := 33 }, { expn := 32 }, { expn := 31 }] : List BarHead).all (fun y =>
      holdsAt (.bars h0 63) (tBar y) (fun w _ _ => (tBar y).warpGang w != none) &&
      holdsAt (.barw h0 63) (tBar y) fun w _ _ => (tBar y).warpGang w != none) := by decide +kernel

/-- SleepsAndPromises: counts of 0 and of the most; deadlines still to come; and a deadline that is this very tick on a running copy. -/
theorem witness_SleepsAndPromises :
    issuesIn tS (.sleep h0 (.imm 0)) ∧ issuesIn tS (.sleep h0 (.imm 0xFFFFFFFF)) ∧
      holdsAt (.sleept h0 4 6) (tWarp fun w => setP w 4 1) (fun w x _ => (lanesOf x.e).all fun l => decide (0 < (rdP w 4 l).toNat)) ∧
      holdsAt (.sleept h0 4 6) (tWarp fun w => { setV (withHandler w) 6 1 with nextTag := 2, tags := [(1, .running)] }) (fun w x _ =>
        w.htvec != 0 && !w.inTrap && !tagComplete w 1 &&
          (lanesOf x.e).all fun l => decide ((rdP w 4 l).toNat ≤ 0) && (rdV w 6 l).toNat % 2 ^ 16 == 1) := by decide +kernel

/-- WatchesAndMemoryWaits: an arm on a canonical address; an arm of the mask never armed, and one that is armed and has not fired; a
barrier word with an older load still under way. -/
theorem witness_WatchesAndMemoryWaits :
    holdsAt (.watch h0 3 ⟨4, none⟩) tS (fun w x _ => canonical (addrGlobal x ⟨4, none⟩ x.low) && decide (3 < w.arms.length)) ∧
      holdsAt (.waitw h0 1 4) tS (fun w _ _ => armsOpen w 1) ∧
      holdsAt (.waitw h0 15 4) (tWarp fun w => { w with arms := List.replicate 4 { armed := true } }) (fun w _ _ => !armsOpen w 15) ∧
      holdsAt (.mwait h0 .dev (.short 4 6)) (tWarp fun w => { countUp w .ld 1 with issued := 1 }) (fun w x _ =>
        !olderDone w .ld x.tag && w.reads.isEmpty && (List.range 32).all (fun l => mwaitOf (w.lane l) == none) &&
          (lanesOf x.e).all fun l => judgeGlobal tS x.w false (stGlobal x (.short 4 6) l) 8 == .pass) := by decide +kernel

/-- Lane 0 sleeps. -/
def tSleeper (k : SleepKind) : State := tWarp fun w =>
  { w.modLanes 1 (fun _ x => { x with st := .sleeping k 0x400008 }) with tags := [(1, .complete)], nextTag := 2, arms := List.replicate 4 { armed := true, fired := true } }

/-- SleepersWake: each kind of sleep at the very tick of its deadline and one tick before, a promise on a copy that has completed, and a
fired arm. -/
theorem witness_SleepersWake :
    ([.clock 0, .clock 1, .waitw 8 0, .waitw 8 1, .promise 1 1] : List SleepKind).all (fun k => ((tSleeper k).getWarp 1).isSome) ∧
      ((tSleeper (.promise 1 1)).getWarp 1).map (fun w => (List.range 32).all fun l => match (w.lane l).st with
        | .sleeping (.promise d _) _ => decide (0 < d.toNat) | _ => true) = some true ∧
      ((tSleeper (.promise 0 1)).getWarp 1).map (fun w => !w.inTrap && tagComplete w 1 && (w.lane 0).st == .sleeping (.promise 0 1) ((w.lane 0).pc + 8) &&
        (List.range 32).all fun j => j == 0 || match (w.lane j).st with | .sleeping .. => false | _ => true) = some true ∧
      ((tSleeper (.waitw 8 0)).getWarp 1).map (fun w => ((w.arms[3]?).getD default).fired) = some true ∧
      ((after (.sleepExpiry 1) (tSleeper (.clock 0))).bind fun t => t.getWarp 1).map (fun w => (w.lane 0).st) = some .ready := by decide +kernel

/-- A length in `v8`, and one in `v6`. -/
def tLen (n : Word) : State := tScr.modWarp 1 fun w => setV w 8 n
def tCount (n : Word) : State := (tWarp fun w => setV w 6 n).modRegion 0x10001 fun r => { r with eff := { r.eff with kilnMib := 1 } }

/-- Both ends of a copy from global memory pass. -/
def endsPass (n : Nat) (q : Src3) (scr : Bool) (s : State) (x : Issue) : Bool :=
  match endOf s x true (src3A x .p q x.low) n, endOf s x (!scr) (src3B x (if scr then .v else .p) q x.low) n with
  | .ok _, .ok _ => true
  | _, _ => false

/-- AsynchronousCopiesStart: ends that pass, a length of 0 and one of 16 MiB; CPYW and CPYQ at their longest. -/
theorem witness_AsynchronousCopiesStart :
    holdsAt (.cpya h0 .g2s 2 ⟨4, 6, 8, .none⟩) (tLen 0) (fun _ x _ => src3C x .v ⟨4, 6, 8, .none⟩ x.low == 0 &&
        endsPass 0 ⟨4, 6, 8, .none⟩ true (tLen 0) x) ∧
      holdsAt (.cpya h0 .g2g 2 ⟨4, 6, 8, .none⟩) (tLen 0x1000000) (fun _ x _ => src3C x .v ⟨4, 6, 8, .none⟩ x.low == 0x1000000 &&
        endsPass 0x1000000 ⟨4, 6, 8, .none⟩ false (tLen 0x1000000) x) ∧
      holdsAt (.cpyw h0 4 6) (tCount 0x1000000) (fun w x _ => rangeCanonical (rdP w 4 x.low) 0x1000000 && (rdV w 6 x.low) == 0x1000000 &&
        !wortIssueHit (tCount 0x1000000) w 0 0x1000000 && ((tCount 0x1000000).warpEff w).kilnMib != 0) ∧
      holdsAt (.cpyq h0 7 4 6) (tCount 65536) (fun w x _ => rangeCanonical (rdP w 4 x.low) (128 * 65536) && (rdV w 6 x.low) == 65536 &&
        ((tCount 65536).getWg w.wg).isSome) := by
  decide +kernel

/-- A running copy of one unit from the constants of a mapped page into the scratchpad. -/
def tCopy : Copy := { id := 9, kind := .cpya .g2s, w := 1, wg := 1, ctx := 1, asid := 1, user := false, lanes := 1, pc := 0, d := 2, tag := 1, issue := 4,
                      src := .glob 0x400000, dst := .bank ⟨⟨0, 0, 0⟩, 1, [0], 0⟩, units := 1, core := ⟨0, 0, 0⟩ }
def tCopies (c : Copy) : State := { tScr with copies := [c], cores := [{ id := ⟨0, 0, 0⟩, owner := [(0, 1)] }] }

/-- CopiesAndEntriesMove: a unit whose source can be read; a copy all of whose units are written; an entry that is its sender's oldest
meeting a queue with room and a full one; a refused entry whose back-off has run out; and a queue load whose loads have returned. -/
theorem witness_CopiesAndEntriesMove :
    (copyLive (tCopies tCopy) tCopy && (match unitRead (tCopies tCopy) tCopy 0 with
      | (.done _, s1) => (sget 0 (s1.getCore ⟨0, 0, 0⟩).owner 0).toNat == 1 | _ => false)) ∧
    copyEnded (tCopies { tCopy with written := [0] }) { tCopy with written := [0] } ∧
    (∀ len ∈ [63, 64],
      let g : Workgroup := { (tS.wgs[0]?).getD ⟨0, 0, 0, default, 0, [], [], [], [], {}, {}, false, false, none, 0, 0⟩ with
        queues := List.replicate 8 (List.replicate len []), flight := [⟨1, 7, 0, []⟩], senders := [{ id := 1, q := 7, window := [(0, true, [])] }] }
      (g.flight[0]? = some ⟨1, 7, 0, []⟩ ∧ 7 < g.queues.length ∧ ((senderOf g 1 7).window.head?).map (·.1) = some 0 ∧
        (queueOf g 7).length = len ∧ (senderOf g 1 7).failed < 15)) ∧
    (let s := tWg fun g => { g with senders := [{ id := 1, q := 7, window := [(3, true, [1])], backoff := some 0 }] }
     (s.getWg 1).map (fun g => (senderOf g 1 7).backoff == some 0 && ((senderOf g 1 7).window.find? fun e => e.2.1 &&
        !(g.flight.any fun f => f.sender == 1 && f.q == 7 && f.seq == e.1)) == some (3, true, [1])) = some true) ∧
    (let o : Outst := { tag := 4, pc := 0, d := 0, file := 0, dsts := [], lanes := 1, res := .ldq .global 7 [(0, 0)] [(0, 5)], ctr := some .ld }
     let s := (tWarp fun w => { w with reads := [o] }).modWg 1 fun g =>
       { g with senders := [{ id := 1, q := 7, window := [(0, false, [])], pushes := [(0, 1, 0, 4)] }] }
     (s.getWarp 1).bind (fun w => (s.getWg w.wg).map fun g => olderReads w 4 == [] && o.faulted == 0 &&
       (senderOf g 1 7).pushes.find? (fun p => p.2.2.2 == 4) == some (0, 1, 0, 4) &&
       !((senderOf g 1 7).window.any fun e => decide (e.1 < 0) && !e.2.1)) = some true) := by decide +kernel

/-! ## Hypotheses of the statements are met: matrix engine, accumulators, system instructions -/

/-- The cells of some bytes from an address on. -/
def cellsAt (a : Nat) (bs : List Byte) : List (Nat × Byte) := ((List.range bs.length).zip bs).filterMap fun p => if p.2 = 0 then none else some (a + p.1, p.2)

/-- A page of a kind at 0x600000, holding some bytes. -/
def tPage (kind : Nat) (bs : List Byte) (s : State) : State :=
  { s with mem := Memory.writeNat s.mem (bootTables + 0x3000 + 24) 8 (0x60008F + 256 * kind) ++ cellsAt 0x600000 bs }

/-- The address of that page in `v4.d`. -/
def atPage (w : Warp) : Warp := setP w 4 0x600000

/-- An MMS block: one row of 32 BF16 elements at 0, no scales, to an FP32 tile at 0x1000 of stride 128. -/
def tBlock : List Byte :=
  leBytes 4 0 ++ leBytes 4 0xFFFFFFFF ++ leBytes 2 1 ++ leBytes 2 64 ++ leBytes 1 2 ++ leBytes 1 0 ++ leBytes 1 1 ++ leBytes 1 0 ++
    leBytes 8 0x1000 ++ leBytes 4 128 ++ leBytes 2 32 ++ leBytes 34 0

def tMms : State := tPage 1 tBlock (tScr.modWarp 1 atPage)

/-- The MMS block can be read, passes the checks, and its tiles lie in the scratchpad. -/
def mmsPasses (s : State) (x : Issue) (s0 : State) : Bool :=
  mmsReady ⟨4, none⟩ x s &&
    match blockGot (begin_ x s0) x 0x600000 64 with
    | (.done bs, s1) =>
      (match (begin_ x s0).getWg x.w.wg with
       | some g => mmsParam s1 g (mmsBlk bs) == 0 && (mmsBlk bs).dkind == 1 && (mmsBlk bs).sOff == absent &&
           (mmsTiles (mmsBlk bs)).all (fun p => tileFails s1 x p.1 p.2 == none) && (s1.getWarp x.w.id).isSome && s1.warpCore x.w == s.warpCore x.w
       | none => false)
    | _ => false

/-- MatrixInstructions: room in the queue; with and without W scales; an MMS that passes; the least and no tier left for MFOLD.wr. -/
theorem witness_MatrixInstructions :
    holdsAt (.wld h0 .e4m3 4 6 none) (tScr.modWarp 1 fun w => setV (atPage w) 6 0xFFFFFFFF) (fun w x _ => queueRoom x tScr &&
        rangeCanonical (rdP w 4 x.low) (tileBytes .e4m3) && (rdV w 6 x.low).toNat == absent && !wortIssueHit tScr w 0x600000 (tileBytes .e4m3)) ∧
      holdsAt (.wld h0 .log6 4 6 none) (tScr.modWarp 1 fun w => setV (atPage w) 6 0x3F80) (fun w x _ => queueRoom x tScr &&
        rangeCanonical (rdP w 4 x.low) (tileBytes .log6) && (rdV w 6 x.low).toNat == 0x3F80 && tileFails tScr x 0x3F80 128 == none) ∧
      holdsAt (.wswap h0) tS (fun _ x _ => queueRoom x tS) ∧
      holdsAt (.mms h0 2 ⟨4, none⟩) tMms (fun w x s0 => rdP w 4 x.low == 0x600000 && mmsPasses tMms x s0) ∧
      issuesIn tS (.mqry h0 2 4) ∧ issuesIn tS (.mfold h0 1) ∧
      holdsAt (.mfoldWr h0 4 6) (tWarp fun w => setV w 6 1) (fun w x _ => (rdV w 6 x.low).setWidth 5 != 0#5) ∧
      holdsAt (.mfoldWr h0 4 6) (tWarp fun w => setV (withHandler w) 6 0x20) (fun w x _ => (rdV w 6 x.low).setWidth 5 == 0#5 && w.htvec != 0 && !w.inTrap) ∧
      issuesIn tS (.mrst h0 4) := by decide +kernel

/-- An operation of the warp in the engine queue, an MMS or another kind, in a phase. -/
def tOp (k : MxKind) (p : MxPhase) (ch : List Nat) : MxOp :=
  { w := 1, wg := 1, ctx := 1, tag := 4, pc := 0, d := 2, file := 1, lanes := 1, kind := k, phase := p, chain := ch,
    plane := some { valid := true, fmt := .bf16, scales := List.replicate 128 127 } }

def tEngine (e : Engine) (s : State) : State := { s with cores := [{ id := ⟨0, 0, 0⟩, engine := e }] }
def core0 : CoreId := ⟨0, 0, 0⟩

/-- MatrixEngineEvents: each event with the operation, plane, tile or reset it needs. -/
theorem witness_MatrixEngineEvents :
    (let s := (tEngine { queue := [tOp (.mms tBlock 1) .queued []] } tScr).modWg 1 fun g => { g with active := { valid := true, fmt := .bf16 } }
     (liveTiers (engineOf s core0) != 0 && ((engineOf s core0).queue.find? fun o => o.phase != .queued && o.chain.isEmpty) == none &&
       nextOp (engineOf s core0) == some (tOp (.mms tBlock 1) .queued []) && storesBehind s 1 4 &&
       (pathOf ((wfmtOf (mmsBlk tBlock).afmt).getD .f16) .bf16).isSome && !arrDown s core0)) ∧
    (let o := tOp (.wld 0x600000 .e2m1 0xFFFFFFFF) .queued []
     let s := tPage 1 (List.replicate 64 3) (tEngine { queue := [o] } tS)
     (nextOp (engineOf s core0) == some o && liveTiers (engineOf s core0) != 0 && storesBehind s 1 4 && (s.getWarp 1).isSome && !arrDown s core0 && o.early.isEmpty &&
       ((s.getWarp 1).map fun w => match tileLines (s.modWg 1 fun g => { g with shadow := { g.shadow with valid := false } }) w (s.warpAsid w) 0x600000
         (tileBytes .e2m1 / 128) with | (.done _, s1) => (s1.getWg 1).isSome | _ => false) == some true)) ∧
    (let s := tEngine { queue := [tOp .wswap .queued []] } tS
     (nextOp (engineOf s core0) == some (tOp .wswap .queued []) && liveTiers (engineOf s core0) != 0 && (s.getWg 1).isSome && !arrDown s core0)) ∧
    (let o := tOp (.mms tBlock 1) .started [0, 1, 2, 3]
     let s := (tEngine { queue := [o] } tScr).modWg 1 fun g => { g with scratch := 0x4000 }
     ((engineOf s core0).queue.find? (fun o => o.phase == .started) == some o && !arrDown s core0 && o.early.isEmpty &&
       match opReads s o ((List.range (opBlk o).rows).map fun i => ((opBlk o).aOff + i * (opBlk o).stride, blkRow (opBlk o))) with
       | some r => (opReads r.2 o []).isSome && !badScale (opBlk o) (o.plane.getD {}) [] && (r.2.getWarp o.w).isSome
       | none => false)) ∧
    (let d : MxOp := tOp (.mms tBlock 1) .consumed []
     let s := tEngine { draining := [(d, 0xFF)] } tS
     (((engineOf s core0).draining.find? fun d => !contribPending s d.1.w .mx d.1.tag) == some (d, 0xFF) && (s.getWarp 1).isSome)) ∧
    (let o := { tOp (.mms tBlock 1) .consumed [0, 1, 2, 3] with rows := [List.replicate 64 0] }
     let s := tEngine { queue := [o] } tScr
     ((engineOf s core0).draining.find? (fun d => !contribPending s d.1.w .mx d.1.tag) == none &&
       (engineOf s core0).queue.find? (fun o => o.phase == .consumed) == some o && !tileBusy s o && !arrDown s core0 && (mmsWork s o).b.dkind == 1 &&
       decide ((mmsWork s o).b.dest + blkDstSpan (mmsWork s o).b ≤ 0x4000))) ∧
    (engineOf (tEngine {} tS) core0).fail ||| (1#5 <<< 4) ≠ 0b11111 ∧
    (engineOf (tEngine { mrst := [(1, 4)], queue := [tOp .wswap .queued []] } tS) core0).mrst = [(1, 4)] := by decide +kernel

/-- A wort region of 64 lines, in a state, opened by the workgroup. -/
def tEntry (st : WortState) : Wort :=
  { id := 5, st := st, base := 0x600000, lines := 64, scale := 0, fmt := 0, scope := .gang, shadow := 0x610000, expect := 0, opener := 1, openerGang := 1,
    openerCore := core0 }
def tWort (e : Wort) (s : State) : State := s.modRegion 0x10001 fun r => { r with worts := [e] }

/-- A page of kind 1 at 0x600000, where the descriptor stands, and one of kind 0 at 0x800000, where the region lies. -/
def tOpenState : State :=
  let s := tPage 1 (leBytes 8 0x810000 ++ leBytes 4 1 ++ leBytes 1 0 ++ leBytes 1 0 ++ leBytes 1 2 ++ leBytes 1 0 ++ leBytes 8 0x820000 ++ leBytes 8 0)
    (tWarp atPage)
  { s with mem := Memory.writeNat s.mem (bootTables + 0x3000 + 32) 8 0x80008F }

/-- The descriptor can be read and passes, and its pages can hold a region. -/
def openPasses (s : State) (x : Issue) (s0 : State) : Bool :=
  aopenReady 4 x s &&
    match blockGot (begin_ x s0) x 0x600000 32 with
    | (.done bs, s1) =>
      (match wortDesc 5 bs, s1.warpRegion x.w, s1.warpWg x.w with
       | some d, some r, some g => r.worts.isEmpty &&
           (match judgePages s1 g.core r.asid.toNat (!r.service) ((wortSpans d).flatMap fun p => pagesOf p.1 p.2) with
            | (.ok, s2) => (s2.getWarp x.w.id).isSome
            | _ => false)
       | _, _, _ => false)
    | _ => false

/-- AccumulatorInstructions: a descriptor that passes; the last element and the last line of an open region; each RACK. -/
theorem witness_AccumulatorInstructions :
    holdsAt (.aopen h0 5 4) tOpenState (fun w x s0 => rdP w 4 x.low == 0x600000 && openPasses tOpenState x s0) ∧
      holdsAt (.aopenZ h0 5 4) tOpenState (fun w x s0 => rdP w 4 x.low == 0x600000 && openPasses tOpenState x s0) ∧
      (let s := tWort (tEntry .opened) (tWarp fun w => setV w 4 (16 * 64 - 1))
       holdsAt (.aadd h0 true 5 4 (.imm 0x3F800000)) s fun w x _ => (copyHere s x 5).map (·.2) == some .opened &&
         (lanesOf x.e).all fun l => decide ((rdV w 4 l).toNat < 16 * 64)) ∧
      (let s := tWort (tEntry .opened) (tWarp fun w => setV w 4 63)
       holdsAt (.acnt h0 5 4 (.imm 1)) s fun w x _ => (copyHere s x 5).map (·.2) == some .opened &&
         (lanesOf x.e).all fun l => decide ((rdV w 4 l).toNat < 64)) ∧
      (let s := tWort (tEntry .opened) (tWarp atPage)
       ([.rack h0 true 5 4 6 8, .rackW h0 false 5 4 6 8, .rackX h0 5 4 6 8] : List Instr).all fun i =>
         holdsAt i s fun w x _ => (copyHere s x 5).map (·.2) == some .opened && (s.warpRegion w).isSome &&
           rackBad (tEntry .opened) (rdP w 4 x.low) (rdP w 6 x.low) == none) ∧
      issuesIn tS (.aqryReg h0 2 4) ∧ issuesIn tS (.aqryLine h0 2 4 6) := by decide +kernel

/-- A racking of the region. -/
def tRack (m : RackMode) (p : RackPhase) : Rack :=
  { id := 9, w := 1, wg := 1, region := 0x10001, wort := 5, core := core0, mode := m, force := false, out := 0x600000, hist := 0, shift := 0, timeout := 1,
    deadline := some 0, lanes := 1, pc := 0, tag := 4, phase := p }

/-- AccumulatorEvents: a contribution to a line that can be reached; a wait whose time has come; a seal that can be granted; a RACK.X that
has been sealed; and a warp held by a blocking instruction and by a PFENCE. -/
theorem witness_AccumulatorEvents :
    (let c : Contrib := { add := { ctx := 1, region := 5, line := 63, g := List.replicate 16 1, clip := false, pitch := 1 }, owners := [] }
     let s := { tPage 0 [] (tWort (tEntry .opened) tS) with contribs := [c] }
     ((s.ctxRegion 1).bind fun r => (wortOf r 5).bind fun y => (wortLinePa s r y 63).map fun pa => sealedPa s pa) = some false) ∧
    (let s := { tWort { tEntry .opened with expect := 2 } (tWarp withHandler) with racks := [tRack .wait .waiting] }
     (rackEntry s (tRack .wait .waiting)).map (fun p => p.2.expect != 0 && p.2.done != p.2.lines) = some true) ∧
    ((tWarp withHandler).getWarp 1).map (fun w => !w.inTrap && w.pend.isEmpty && w.htvec != 0 && 1 &&& exitedOf w == 0 &&
      (List.range 32).all fun l => (w.lane l).st != .held .fault && (w.lane l).st != .held .deferred) = some true ∧
    (let s := { tWort (tEntry .opened) tS with racks := [tRack .once .waiting] }
     sealReady s (tRack .once .waiting) (tEntry .opened) && (rackEntry s (tRack .once .waiting)).isSome) ∧
    (let s := { tPage 0 [] (tWort (tEntry .racking) tS) with racks := [tRack .close .sealed] }
     vaOk s 1 .read 0x600000 (128 * 64) && vaOk s 1 .write 0x610000 (8 * 64) && queueFree s 1 && (rackEntry s (tRack .close .sealed)).isSome && s.contribs.isEmpty &&
       (shadowPlaces s 1 (tEntry .racking)).all fun p => engineReady s 1 (p.1 * 128) p.2) ∧
    (let s := tWort { tEntry .closed with opening := some (1, true) } (tWarp fun w => { w with hold := some (.blocking 4) })
     (s.getWarp 1).isSome && fwQuiet s (((s.getWarp 1).map s.warpAsid).getD 0) && (openings s 1).length == 1 && (openings s 1).all fun p => openReady s p.1.asid.toNat p.2) ∧
    (let s := tWarp fun w => { w with hold := some (.pfence 4 []) }
     (s.getWarp 1).map (fun w => pfenceDone s w 4 []) = some true) := by decide +kernel

/-- A second gang of the region, in a state, and a region with a save area for one slot. -/
def tGang (st : GangState) (slot : Option Nat) : Gang := { id := 2, region := 0x10001, g := 1, st := st, slot := slot }
def tSaving (st : GangState) (slot : Option Nat) (f : Warp → Warp) : State :=
  { (tPage 0 [] (tWarp f)).modRegion 0x10001 (fun r => { r with eff := { bootEff with nregs := 16, npreds := 128, saveArea := 0x680000, gangs := 2 } }) with
    gangs := [{ id := 1, region := 0x10001, g := 0, st := .running }, tGang st slot] }
/-- The handle in `v2.d`, the gang index in `v6`, a record's address in `v4.d`. -/
def naming (g : Word) (w : Warp) : Warp := setV (setP (atPage w) 2 0x10001) 6 g

/-- What R436 asks of a record, for the held gang. -/
def tRecordHead (e : Eff) : List Byte :=
  leBytes 2 1 ++ leBytes 2 1 ++ leBytes 2 1 ++ leBytes 2 0 ++ leBytes 8 0x10001 ++ leBytes 4 1 ++ leBytes 2 0 ++ leBytes 1 1 ++ leBytes 25 0 ++
    leBytes 8 256 ++ leBytes 56 0 ++ leBytes 8 (recBars e) ++ leBytes 8 (recWorts e) ++ leBytes 128 0 ++ leBytes 4 1 ++ leBytes 4 16 ++ leBytes 4 128
def tHeld : State :=
  let s := tSaving .held none atPage
  { s with mem := Memory.writeN s.mem 0x600000 (tRecordHead { bootEff with nregs := 16, npreds := 128, saveArea := 0x680000, gangs := 2 }) }

/-- The record at 0x600000 as the firmware reads it. -/
def tRd (s : State) : Rd := fun off n => leNat (vaBytes s (svcOwner 1) 1 (0x600000 + off) n)

/-- SystemInstructions: LAUNCH at service level. -/
theorem witness_SystemInstructions_launch :
    holdsAt (.launch h0 2 4 6) tS (fun w x _ => canonical (rdP w 4 x.low) && !tS.warpUser w) := by
  decide +kernel

/-- SystemInstructions: LAUNCH at user level. -/
theorem witness_SystemInstructions_launchUser :
    holdsAt (.launch h0 2 4 6) tUser (fun w x _ => tUser.warpUser w && rdV w 6 x.low == 0) := by
  decide +kernel

/-- SystemInstructions: CTXSV of a running gang. -/
theorem witness_SystemInstructions_ctxsv :
    holdsAt (.ctxsv h0 2 6 4) (tSaving .running none (naming 1)) (fun w x _ => (rdP w 4 x.low).toNat % 4096 == 0 &&
        gangNamed (tSaving .running none (naming 1)) (rdP w 2 x.low).toNat (rdV w 6 x.low).toNat == some (tGang .running none) &&
        ((tSaving .running none (naming 1)).warpGang w).map (·.id) != some 2 && ((tSaving .running none (naming 1)).getRegion (rdP w 2 x.low).toNat).isSome) := by
  decide +kernel

/-- SystemInstructions: CTXSV of a saved gang. -/
theorem witness_SystemInstructions_ctxsvSaved :
    holdsAt (.ctxsv h0 2 6 4) (tSaving .saved (some 0) (naming 1)) (fun w x _ =>
        gangNamed (tSaving .saved (some 0) (naming 1)) (rdP w 2 x.low).toNat (rdV w 6 x.low).toNat == some (tGang .saved (some 0)) &&
        saveHere (tSaving .saved (some 0) (naming 1)) (rdP w 2 x.low).toNat (rdV w 6 x.low).toNat &&
        ((tSaving .saved (some 0) (naming 1)).warpGang w).map (·.id) != some 2) := by
  decide +kernel

/-- SystemInstructions: CTXSV of a gang that is none. -/
theorem witness_SystemInstructions_ctxsvNone :
    holdsAt (.ctxsv h0 2 6 4) (tSaving .saved (some 0) (naming 2)) (fun w x _ =>
        gangNamed (tSaving .saved (some 0) (naming 2)) (rdP w 2 x.low).toNat (rdV w 6 x.low).toNat == none) := by
  decide +kernel

/-- SystemInstructions: CTXLD of a record that meets the conditions. -/
theorem witness_SystemInstructions_ctxld :
    holdsAt (.ctxld h0 4) tHeld (fun w x _ => rdP w 4 x.low == 0x600000 && w.id == 1 && tHeld.warpAsid w == 1 && loadHere tHeld (svcOwner 1) 1 0x600000 &&
        match tHeld.getRegion (tRd tHeld 8 8) with
        | some r => recordOk tHeld (tRd tHeld) r && gangNamed tHeld r.handle (tRd tHeld 0x10 4) == some (tGang .held none) && freeSlot tHeld r == some 0
        | none => false) := by
  decide +kernel

/-- SystemInstructions: CTXLD of a record of no region. -/
theorem witness_SystemInstructions_ctxldNone :
    holdsAt (.ctxld h0 4) (tSaving .held none atPage) (fun w x _ => rdP w 4 x.low == 0x600000 &&
        w.id == 1 && (tSaving .held none atPage).warpAsid w == 1 && loadHere (tSaving .held none atPage) (svcOwner 1) 1 0x600000 &&
        (tSaving .held none atPage).getRegion (tRd (tSaving .held none atPage) 8 8) == none) := by
  decide +kernel

/-- SystemInstructions: HARV of no page. -/
theorem witness_SystemInstructions_harv :
    holdsAt (.harv h0 4 6 8) (tWarp atPage) (fun w x _ => (rdV w 6 x.low).toNat == 0 && rangeCanonical (rdP w 4 x.low) 0) := by
  decide +kernel

/-- SystemInstructions: HARV.r of 512 pages. -/
theorem witness_SystemInstructions_harvR :
    holdsAt (.harvR h0 4 6 8) (tWarp fun w => setV (atPage w) 6 512) (fun w x _ => (rdV w 6 x.low).toNat == 512 &&
        rangeCanonical (rdP w 4 x.low) (4096 * 512)) := by
  decide +kernel

/-- SystemInstructions: a page whose write-record can be read. -/
theorem witness_SystemInstructions_harvLine :
    (let s := { tS with mem := Memory.writeNat (Memory.writeNat tS.mem (bootTables + 0x3000 + 24) 8 (bootTables + 0x4001)) (bootTables + 0x4000) 8 0x60000F }
     ((some ()).map fun _ => match walkTables (tableMem s) (s.getDie 0).ptbase.toNat 1 0x600000 with
       | .leaf pte _ big => !big && bitsAt pte 48 12 == s.dev && bitsAt pte 12 36 == 0x600
       | _ => false) = some true) := by
  decide +kernel

/-- SystemInstructions: TLBI of 512 pages. -/
theorem witness_SystemInstructions_tlbiPg :
    holdsAt (.tlbiPg h0 4 6 8) (tWarp fun w => setV (atPage w) 6 512) (fun w x _ => tlbiReady tS (tlbiRange x 4 6 8) && rangeCanonical (rdP w 4 x.low) (4096 * 512)) := by
  decide +kernel

/-- SystemInstructions: TLBI of an ASID. -/
theorem witness_SystemInstructions_tlbiAsid :
    holdsAt (.tlbiAsid h0 8) tS (fun w x _ => tlbiReady tS (.asid ((rdV w 8 x.low).toNat % 2 ^ 16))) := by
  decide +kernel

/-- SystemInstructions: TLBI of all. -/
theorem witness_SystemInstructions_tlbiAll :
    holdsAt (.tlbiAll h0) tS (fun _ _ _ => tlbiReady tS .all) := by
  decide +kernel

/-- SystemInstructions: HALT of a live region. -/
theorem witness_SystemInstructions_halt :
    holdsAt (.halt h0 2) (tWarp fun w => setP w 2 0x10001) (fun w x _ => (tS.getRegion (rdP w 2 x.low).toNat).map (·.status) == some 0) := by
  decide +kernel

/-- SystemInstructions: HALT of no region. -/
theorem witness_SystemInstructions_haltNone :
    holdsAt (.halt h0 2) tS (fun w x _ => tS.regions.all fun r => r.handle != (rdP w 2 x.low).toNat) := by
  decide +kernel

/-! ## Hypotheses of the statements are met: fabric, collectives -/

/-- The page at 0x600000 holding some bytes, its address in `v4.d`. -/
def tBlk (bs : List Byte) : State := tPage 1 bs (tWarp atPage)

/-- Bytes of zero. -/
def zeros (n : Nat) : List Byte := List.replicate n 0

/-- A COLL block of one WAIT step of any slot, with collective 9. -/
def tCollBlock : List Byte :=
  leBytes 2 1 ++ leBytes 2 1 ++ leBytes 4 0 ++ leBytes 8 9 ++ leBytes 48 0 ++ leBytes 1 3 ++ leBytes 1 0xFF ++ leBytes 30 0
/-- A freeze record that names the block at 0x600100 and its step 0, and the block. -/
def tFreeze : List Byte := leBytes 8 0x600100 ++ leBytes 8 9 ++ zeros 0xF0 ++ tCollBlock

/-- A block is here and passes a check. -/
def snapPasses (x : Issue) (s s0 : State) (va : DWord) (hdr : Nat) (size : List Byte → Nat) (ok : List Byte → State → Bool) : Bool :=
  !blockBad va && snapReady x s va hdr size && match snapGot x (begin_ x s0) va hdr size with
    | (.done bs, s1) => (s1.getWarp x.w.id).isSome && ok bs s1
    | _ => false

/-- A route table of one entry, sent direct. -/
def tRoutes : List Byte := leBytes 4 1 ++ leBytes 4 5 ++ leBytes 56 0 ++ leBytes 16 7

/-- A topology block for port 0, activation at 0 and epoch at 330000, of one slot and one matching, which connects port 0 to
package 3; its route table at some address. -/
def tTopoBlock (rt : Nat) : List Byte :=
  leBytes 2 1 ++ leBytes 1 1 ++ leBytes 1 1 ++ leBytes 4 0 ++ leBytes 8 0 ++ leBytes 8 330000 ++ leBytes 8 rt ++ leBytes 32 0 ++
    (leBytes 4 2100 ++ leBytes 2 300 ++ leBytes 2 300 ++ leBytes 8 0) ++ zeros 0x3F0 ++ (leBytes 4 0x10003 ++ zeros 60)

/-- What TopologyChangeStarts asks of a block that names no route table or a good one, with the reason for which it is refused. -/
def topoPasses (w : Warp) (x : Issue) (s s0 : State) (reason : Option Nat) : Bool :=
  snapPasses x s s0 (rdP w 4 x.low) 0x440 topoSize fun bs s1 =>
    if namesRoutes bs then
      snapReady x s (topoRoutes bs) 64 routeSize && (match snapGot x s1 (topoRoutes bs) 64 routeSize with
        | (.done rs, s2) => (s2.getWarp w.id).isSome && routesOk rs &&
            topoReason (begin_ x s0) bs (some (routesOf rs)) (topoRoutes bs).toNat == reason
        | _ => false)
    else topoReason (begin_ x s0) bs none (topoRoutes bs).toNat == reason

/-- FabricInstructions: a COLL with a block of one step. -/
theorem witness_FabricInstructions_coll :
    holdsAt (.coll h0 4) (tBlk tCollBlock) (fun w x s0 => snapPasses x (tBlk tCollBlock) s0 (rdP w 4 x.low) 64 collSize fun bs _ => collOk bs) := by
  decide +kernel

/-- FabricInstructions: a COLL.resume with a record that names its step 0. -/
theorem witness_FabricInstructions_resume :
    holdsAt (.collResume h0 4) (tBlk tFreeze) (fun w x s0 => snapPasses x (tBlk tFreeze) s0 (rdP w 4 x.low) 64 (fun _ => 64) fun rc s1 =>
      wordAt rc 0 8 == 0x600100 && ((frozenBlock x (tBlk tFreeze) (rdP w 4 x.low)).map (·.2) == some 0x600100) &&
        snapReady x (tBlk tFreeze) 0x600100 64 collSize && (match snapGot x s1 0x600100 64 collSize with
          | (.done bs, s2) => (s2.getWarp w.id).isSome && collOk bs && wordAt rc 8 8 == wordAt bs 8 8 && wordAt rc 0x10 2 < wordAt bs 0 2
          | _ => false)) := by decide +kernel

/-- FabricInstructions: a copy of no byte and of 16 MiB. -/
theorem witness_FabricInstructions_sendq :
    (let q : Src3 := ⟨4, 6, 8, .none⟩
     let sq (n : Word) : State := tWarp fun w => setV (setP (setP w 4 0x600000) 6 0x601000) 8 n
     ([0, 0x1000000] : List Word).all fun n => holdsAt (.sendq h0 q (some 5)) (sq n) fun w x _ => src3A x .p q x.low % 128 == 0 &&
       src3B x .p q x.low % 128 == 0 && src3C x .v q x.low == n.toNat && rdP w 4 x.low == 0x600000 && rangeCanonical 0x600000 n.toNat &&
       rangeCanonical 0x601000 n.toNat) := by decide +kernel

/-- FabricInstructions: a route table. -/
theorem witness_FabricInstructions_rtsw :
    (let s := tPage 1 tRoutes (tWarp fun w => setP (setP w 6 0x600000) 4 0x700000)
     holdsAt (.rtsw h0 4 6) s fun w x s0 => (rdP w 4 x.low).toNat % 64 == 0 && snapPasses x s s0 (rdP w 6 x.low) 64 routeSize fun bs _ => routesOk bs) := by
  decide +kernel

/-- FabricInstructions: a topology block without a route table, at the earliest epoch. -/
theorem witness_FabricInstructions_topo :
    holdsAt (.topo h0 4) (tBlk (tTopoBlock 0)) (fun w x s0 => topoPasses w x (tBlk (tTopoBlock 0)) s0 none) := by decide +kernel

/-- FabricInstructions: a topology block with a route table. -/
theorem witness_FabricInstructions_topoRoutes :
    (let s := (fun s : State => { s with mem := Memory.writeN s.mem 0x600800 tRoutes }) (tBlk (tTopoBlock 0x600800))
     holdsAt (.topo h0 4) s fun w x s0 => topoPasses w x s s0 none) := by decide +kernel

/-- FabricInstructions: a topology block whose epoch is an instant too early (reason 5). -/
theorem witness_FabricInstructions_topoEpoch :
    (let s := { tBlk (tTopoBlock 0) with clock := 1 }
     holdsAt (.topo h0 4) s fun w x s0 => topoPasses w x s s0 (some 5)) := by decide +kernel

/-- FabricInstructions: the queries and both fences. -/
theorem witness_FabricInstructions_queries :
    issuesIn tS (.slotq h0 2 4) ∧ issuesIn tS (.slotqCur h0 2) ∧ issuesIn tS (.linkq h0 2 4) ∧ issuesIn tS (.pfence h0) ∧
      issuesIn tS (.pfenceDev h0) := by decide +kernel
/-- A table of one slot of 2100 ticks from the epoch, that connects port 0 to port 5 of package 3; the package is 2. -/
def tSlots (epoch : DWord) : Table := { epoch := epoch, slots := [⟨2100, 300, 300, 0⟩], matchings := [some (3, 5) :: List.replicate 15 none] }
def tPort (f : Port → Port) : State :=
  { tS with dev := 2, table := some (tSlots 0), ports := f { st := .cobalt } :: List.replicate 15 {} }
def tTopo (ph : Nat) (act : DWord) : Topo :=
  { mask := 1, act := act, table := tSlots 0, routes := some (5, []), block := 0x600000, asid := 1, w := 1, tag := 4, phase := ph }
/-- A unit for package 3, and one of a SENDQ with a deadline. -/
def tUnit (dst : Nat) : FabMsg := .unit 2 dst 9 1 false false 0x600000 [1, 2, 3, 4, 5, 6, 7, 8]
/-- A collective of a warp, one step long. -/
def tColl (what : Nat) (steps : List CollStep) : Coll :=
  { id := 7, w := 1, wg := 1, region := 0x10001, asid := 1, user := false, lanes := 1, pc := 0x400000, tag := 4, what := what, block := 0x600000,
    steps := steps }

/-- A page of package 3 at VA 0x600000. -/
def tFarPage (s : State) : State :=
  let s := tPage 1 [] s
  { s with mem := Memory.writeNat s.mem (bootTables + 0x3000 + 24) 8 (0x60028F + 3 * 2 ^ 48) }

/-- FabricEvents: the change of topology in each of its phases, at the first instant of each; a route switch; a port that has locked. -/
theorem witness_TopologyChanges :
    (let s := { tPort id with topo := some (tTopo 0 2100) }
     s.topo = some (tTopo 0 2100) ∧ s.table = some (tSlots 0) ∧ (tTopo 0 2100).act.toNat ≤ s.clock.toNat + periodOf (tSlots 0)) ∧
    (let s := { tPort id with topo := some (tTopo 1 0) }
     s.topo = some (tTopo 1 0) ∧ (tTopo 1 0).act.toNat ≤ s.clock.toNat) ∧
    (let s := { tPort id with topo := some (tTopo 2 0), fencing := true }
     s.fencing = true ∧ fenceClear s = true ∧ s.holding = [] ∧ s.topo = some (tTopo 2 0) ∧ s.colls = []) ∧
    (let c := { tColl 2 [⟨2, 0xFF, 0, 0, 0, 0, 0x600000, 0⟩] with step := 1, routes := some (5, []) }
     let s := { tPort id with colls := [c], fencing := true }
     s.fencing = true ∧ fenceClear s = true ∧ s.holding = [] ∧ s.barWait = [] ∧ s.topo = none ∧
       s.colls.filter (fun c => c.what == 2 && c.step == 1 && c.fin.isNone) = [c] ∧ c.routes = some (5, [])) ∧
    (let s := { tPort id with topo := some (tTopo 3 0) }
     s.topo = some (tTopo 3 0) ∧ (tTopo 3 0).table.epoch.toNat ≤ s.clock.toNat ∧ s.holding = [] ∧ s.barWait = []) ∧
    (let s := tPort fun p => { p with st := .umber, locked := true }
     s.topo = none ∧ 0 < s.ports.length ∧ (s.port 0).st = .umber ∧ (s.port 0).locked = true ∧ inGuard s = true) ∧
    (let s := { tPort id with topo := some (tTopo 4 0) }
     s.topo = some (tTopo 4 0) ∧ (s.port 0).st ≠ .umber ∧
       ((List.range 16).all fun p => !(tTopo 4 0).mask.getLsbD p || (s.port p).st == .cobalt || (s.port p).st == .slate) ∧
       (s.getWarp 1).isSome ∧ fwPending (writeVa s 1 0x600004 (leBytes 4 1)) 1 0x600004 4 = false) ∧
    (let s := { tFarPage tS with topo := some (tTopo 4 0), table := some (tSlots 0), ports := { st := .cobalt } :: List.replicate 15 {} }
     (s.port 0).st ≠ .umber ∧ fwPending (writeVa s 1 0x600004 (leBytes 4 1)) 1 0x600004 4 = true) ∧
    (let s := { tPort id with topo := some (tTopo 5 0) }
     s.topo = some (tTopo 5 0) ∧ (s.port 0).st ≠ .umber ∧ fwPending s 1 0x600004 4 = false ∧ (s.getWarp 1).isSome) := by decide +kernel

/-- FabricEvents: an open window with a queued message, at its first and last tick; a closed one, with and without a SENDQ unit; a port that
retrains; five and four wavelengths left; the monitor's request; five in use on hold. -/
theorem witness_PortsChange :
    (let m := (3, tUnit 3, none)
     let s (t : DWord) := { tPort (fun p => { p with queue := [m] }) with clock := t }
     openPeer (s 300) 0 = some 3 ∧ openPeer (s 1799) 0 = some 3 ∧ openPeer (s 1800) 0 = none ∧ openPeer (s 299) 0 = none ∧ (s 300).fencing = false ∧
       ((s 299).port 0).queue.all (fun m => m.2.2 == none) ∧ ((s 299).port 0).queue ≠ []) ∧
    (let s := tPort fun p => { p with queue := [(3, tUnit 3, some 1)] }
     openPeer s 0 = none ∧ peerNow s 0 = some 3 ∧
       (s.port 0).queue = [(3, FabMsg.unit 2 3 9 1 false false 0x600000 [1, 2, 3, 4, 5, 6, 7, 8], some 1)] ∧
       (divertVia s 0 (3, tUnit 3, some 1)).1 = none) ∧
    (((tPort fun p => { p with st := .umber }).port 0).st = .umber ∧ 0 < (tPort id).ports.length) ∧
    (let s := tPort fun p => { p with usable := 5 }
     (s.port 0).st ≠ .slate ∧ 5 ≤ (s.port 0).usable) ∧
    (let s := tPort fun p => { p with usable := 4 }
     (s.port 0).st ≠ .slate ∧ (s.port 0).usable ≤ 4 ∧ s.sent = []) ∧
    (let s := tPort fun p => { p with usable := 5, hold := true }
     (s.port 0).hold = true ∧ 4 < portWidth (s.port 0)) := by decide +kernel

/-- FabricEvents: a message for another package, one in the relay buffer whose way is free, a unit for an ordinary page, a value for a load,
a package not yet dead toward which a collective has a step. -/
theorem witness_MessagesMove :
    (msgDst (tUnit 3) ≠ (tPort id).dev ∧ 0 < (tPort id).ports.length ∧ relayHolds (tPort id) 0 (tUnit 3) = true) ∧
    (let s := tPort id
     4 ≠ s.dev ∧ pathFor s 3 1 0x600000 = some (0, 3) ∧ holds s 0 = false) ∧
    (let s := tPort fun p => { p with relay := [tUnit 3] }
     (s.port 0).relay[0]? = some (tUnit 3) ∧ pathFor s 3 (msgLine (tUnit 3)).1 (msgLine (tUnit 3)).2 = some (0, 3) ∧ holds s 0 = false) ∧
    (let s := { tPage 1 [] tS with dev := 0, table := some (tSlots 0), ports := { st := .cobalt } :: List.replicate 15 {} }
     let r := translateHome s 1 false .write 0x600000
     keptAt s (.unit 3 s.dev 9 1 false false 0x600000 [1, 2, 3, 4, 5, 6, 7, 8]) = none ∧ (r.1 == .mem 0x600000 1 false) ∧
       homeDead r.2 0x600000 = false ∧ wortHomeHit r.2 1 0x600000 8 = false ∧
       engineReady r.2 1 0x600000 0x600000 = true ∧ pathFor r.2 3 1 0x600000 = some (0, 3) ∧ holds r.2 0 = false ∧ 0 < r.2.ports.length) ∧
    (let u (k : Nat) : FabMsg := .unit 3 2 k 1 false false 0x600000 [1, 2, 3, 4, 5, 6, 7, 8]
     keptAt (tPort fun p => { p with relay := [u 8] }) (u 9) = some 0) ∧
    (let o : Outst := { tag := 4, pc := 0, d := 2, file := 1, dsts := [2], lanes := 1, res := .clock, ctr := none }
     let s := { (tWarp fun w => { w with outs := [o] }) with unacked := [(9, 1, 4, 0)] }
     s.unacked.find? (fun u => u.1 == 9) = some (9, 1, 4, 0) ∧ ownEngine 1 = false ∧ unitTag 4 = false ∧ ((s.getWarp 1).map fun x => (x.stores.find? fun p => p.tag == 4).isNone &&
       (x.outs.find? fun o => o.tag == 4) == some o) = some true) ∧
    (let c := tColl 0 [⟨0, 0xFF, 3, 0, 0, 0x600000, 0x700000, 128⟩]
     let s := { tPort id with colls := [c] }
     (3 : Nat) ≠ s.dev ∧ 3 ∉ s.deadPkgs ∧ s.colls = [c] ∧ c.what = 0 ∧ c.fin = none ∧ towards [] 3 c = true) := by decide +kernel

/-- FabricEvents: a relay buffer that is full, for one byte more. -/
theorem witness_relay_full (bs : List Byte) (h : bs.length = relayRoom) :
    relayHolds (tPort fun p => { p with relay := [.unit 3 4 8 1 false false 0x600000 bs] }) 0
      (.unit 3 4 9 1 false false 0x600000 [1]) = false := by
  have k : (1 : Nat) + relayRoom ≤ relayRoom ↔ False := ⟨fun h => by omega, False.elim⟩
  simp [relayHolds, msgBytes, State.port, tPort, msgDst, List.filter_cons, h, k]

/-- A barrier object of kind 2 at 0x600000 for packages 0 and 3. -/
def tFabBar (arrived : Nat) (here : Byte) : State :=
  tPage 2 (leBytes 8 (arrived * 2 ^ 32) ++ zeros 56 ++ [9] ++ zeros 511 ++ [here]) tS

/-- CollectiveEvents: the first and the last of two arrivals; a release and a loss told to a waiting collective and to a route switch. -/
theorem witness_FabricBarriers :
    ((tFabBar 0 0).dev = 0 ∧ barGone (tFabBar 0 0) 1 0x600000 = [] ∧ barGone (tFabBar 1 1) 1 0x600000 = [] ∧ translateNow (tFabBar 0 0) 0 1 false .write 0x600000 = .mem 0x600000 2 false ∧
      (let o := barObj (tFabBar 0 0) 1 0x600000
       bitsAt o.1 48 2 ≠ 1 ∧ bitAt o.2.1 3 = true ∧ bitAt o.2.2 3 = false ∧ (o.2.1 &&& (o.2.2 + 2 ^ 3)) ≠ o.2.1) ∧
      (let o := barObj (tFabBar 1 1) 1 0x600000
       bitsAt o.1 48 2 ≠ 1 ∧ bitAt o.2.1 3 = true ∧ bitAt o.2.2 3 = false ∧ (o.2.1 &&& (o.2.2 + 2 ^ 3)) = o.2.1)) ∧
    (let st : CollStep := ⟨2, 0xFF, 0, 0, 0, 0, 0x600000, 0⟩
     [0, 2].all fun k =>
       let c := { tColl k [st] with waitBar := some 0x600000, started := true }
       let s := { tS with colls := [c] }
       decide (s.colls.filter (fun c => c.waitBar == some 0x600000 && c.asid.toNat == 1) = [c]) && decide (getColl s c.id = some c) &&
         decide (coordinator s c 0x600000 ≠ some s.dev) && c.fin == none && c.freezing == none) := by decide +kernel

/-- A page of another package, 3, at 0x800000, with a collective. -/
def tFarBar (c : Coll) (clock : DWord) : State :=
  let s := { tPage 1 [] (tPort id) with colls := [c], clock := clock }
  { s with mem := Memory.writeNat s.mem (bootTables + 0x3000 + 32) 8 (0x80028F + 3 * 2 ^ 48) }

/-- CollectiveEvents: a SEND whose window is open; the arrivals of a BARRIER step and of a route switch; a WAIT at both ends of its window. -/
theorem witness_CollectiveStepsBegin :
    (let st : CollStep := ⟨0, 0xFF, 3, 0, 0, 0x600000, 0x600080, 128⟩
     let c := tColl 0 [st]
     let s := { tPage 1 [] tS with table := some (tSlots 0), ports := { st := .cobalt } :: List.replicate 15 {}, colls := [c], clock := 300 }
     getColl s 7 = some c ∧ collLive s c = true ∧ c.started = false ∧ c.steps[c.step]? = some st ∧ (gate s c st.slot st.peer matches .now 0) ∧
       (match sourceGot c (lineParts st.a.toNat st.n) s with
        | (.done _, s1) => decide (s1.colls = s.colls) && !holds s1 0 && decide (0 < s1.ports.length)
        | _ => false) = true ∧
       (lineParts st.b.toNat st.n).all fun q => !(translateNow s 0 c.asid.toNat c.user .write (BitVec.ofNat 64 q.1) matches .absent _)) ∧
    ([0, 2].all fun k =>
       let st : CollStep := ⟨2, 0xFF, 0, 0, 0, 0, 0x800000, 0⟩
       let c := tColl k [st]
       let s := tFarBar c 0
       decide (getColl s 7 = some c) && collLive s c && !c.started && decide (c.steps[c.step]? = some st) && decide (coordinator s c st.b = some 3) &&
         decide (3 ≠ s.dev ∧ 3 ∉ s.deadPkgs) && decide (pathFor s 3 c.asid.toNat st.b.toNat = some (0, 3)) && !holds s 0) ∧
    (let st : CollStep := ⟨3, 0xFF, 0, 0, 0, 0, 0, 0⟩
     let c := tColl 0 [st]
     [300, 1799].all fun k =>
       let s := { tPort id with colls := [c], clock := k }
       decide (getColl s 7 = some c) && collLive s c && decide (tablePos (tSlots 0) s.clock.toNat = some (0, 0, k.toNat)) && inWindow (tSlots 0) 0 k.toNat) := by
  decide +kernel

/-- CollectiveEvents: a COLL that is done; one that has failed, with the least and the greatest INFO. -/
theorem witness_CollectivesEnd :
    (let c := { tColl 0 [] with fin := some (1, 0, none) }
     let s := { tS with colls := [c] }
     getColl s 7 = some c ∧ (s.getWarp c.w).isSome ∧ c.what < 3 ∧ finalPending (StatusWritten s c 1 0) c 1 = false) ∧
    (let c := { tColl 0 [] with fin := some (1, 0, none) }
     let s := { tFarPage tS with colls := [c], table := some (tSlots 0), ports := { st := .cobalt } :: List.replicate 15 {} }
     getColl s 7 = some c ∧ finalPending (StatusWritten s c 1 0) c 1 = true) ∧
    ([0, 0x5F].all fun info =>
     let c := { tColl 0 [] with fin := some (3, info, none) }
     let s := { (tWarp withHandler) with colls := [c] }
     decide (getColl s 7 = some c) && !finalPending (StatusWritten s c 3 info) c 3 && (s.getWarp c.w).map (fun w => !w.inTrap && w.pend.isEmpty && w.htvec != 0 && c.lanes &&& exitedOf w == 0 &&
      (List.range 32).all fun l => (w.lane l).st != .held .fault && (w.lane l).st != .held .deferred) == some true) := by decide +kernel

/-- CollectiveEvents: the first of two messages of a step; the last line of an open region; a REDUCE that has been applied. -/
theorem witness_ReduceAtReceiver :
    (let l : List DWord × Nat × Bool := (List.replicate 16 1, 0, false)
     reduceWhole tS (.reduce 3 tS.dev 9 0 1 5 0 0 0 2 [l]) = none ∧ reduceWhole tS (.reduce 3 tS.dev 9 0 1 5 1 0 1 2 [l]) = none) ∧
    (let s := tPage 0 [] (tWort { tEntry .opened with scope := .sys } tS)
     let y := { tEntry .opened with scope := .sys }
     s.applied.contains (3, 9, 0) = false ∧ ((s.ctxRegion 1).bind fun r => (wortOf r 5).bind fun z => (wortLinePa s r z 63).map fun pa => sealedPa s pa) = some false ∧
       ((s.ctxRegion 1).bind fun r => wortOf r 5) = some y ∧ (63 : Nat) < y.lines ∧ s.staged = []) ∧
    (let s := { tS with applied := [(3, 9, 0)] }
     s.applied.contains (3, 9, 0) = true ∧
       ((reduceWhole s (.reduce 3 s.dev 9 0 1 5 0 0 0 0 [])).map fun k => reduceWaits s k) = some false) := by decide +kernel
/-! ## Hypotheses of the statements are met: memory events, fetches, faults -/

/-- One outstanding entry of a warp, and a warp that has it and no other. -/
def tOut (res : Result) (ctr : Option Ctr) : Outst :=
  { tag := 4, pc := 0x400000, d := 2, file := 1, dsts := [2, 3], lanes := 0x80000001, res := res, ctr := ctr, asid := 1 }
def tWith (o : Outst) : State := tWarp fun w => { withHandler w with outs := [o], issued := 9 }

/-- The entry is the only one of its warp, its registers differ, and it has lanes. -/
def onlyEntry (s : State) (o : Outst) : Bool :=
  (s.getWarp 1).map (fun w => w.outs.find? (fun y => y.tag == o.tag) == some o && (w.outs ++ w.reads) == [o] && olderReads w o.tag == [] &&
    olderStores w o.tag == []) == some true && (chosen (~~~ allRegs) o.dsts).isEmpty && decide (o.dsts.Nodup) && o.dsts.all (fun d => decide (d < 2048)) && o.lanes != 0

/-- A coherent line in the core's L1. -/
def tL1 (st : Moesi) (s : State) : State :=
  { s with cores := [{ id := core0, l1 := [{ asid := 1, line := 0x600000 / 128, st := st, pa := 0x600000, kind := 0, user := true, writable := true }] }] }

/-- MemoryEvents: formed values in lanes 0 and 31; the clock; scratch loads at the last byte; a line in the L1; a gather. -/
theorem witness_ResultsArrive :
    (let o := tOut (.values [(0, [1, 2]), (31, [3, 4])] [(0, 1), (31, 16)]) none
     onlyEntry (tWith o) o) ∧
    (let o := tOut (.values [(0, [1, 2]), (31, [3, 4])] []) none
     onlyEntry (tWith o) o && chosen 2#4 o.dsts == [3] && chosen (~~~ 2#4) o.dsts == [2] && lanesOf o.lanes == [0, 31]) ∧
    (let o := tOut .clock none
     onlyEntry (tWith o) o) ∧
    (let o := tOut (.load .scratch .b64 [(0, 0), (31, 0x3FF8)]) (some .ld)
     let s := { tWith o with wgs := tScr.wgs }
     onlyEntry s o && (s.getWarp 1).map (fun w => ((s.warpWg w).map fun g => (s.getWg g.id == some g) && [0, 31].all fun l =>
       decide ((argOf 0 [(0, (0 : DWord)), (31, 0x3FF8)] l).toNat + 8 ≤ g.scratch)) == some true) == some true) ∧
    (let o := tOut (.load .global .b32 [(0, 0x600000), (31, 0x60007C)]) (some .ld)
     let s := tL1 .s (tWith o)
     onlyEntry s o && (s.getWarp 1).map (fun w => [0x600000, 0x60007C].all fun a => !wortLineHit s 1 a 4 &&
       (l1Get s (s.warpCore w) 1 (lineOf (BitVec.ofNat 64 a))).isSome && !homeDead s 0x600000 &&
       renewLease s (s.warpCore w).die 1 (lineOf (BitVec.ofNat 64 a)) == s) == some true) ∧
    (let o := tOut (.load .gather .b32 [(0, 0x600000), (31, 0x60007C)]) (some .gat)
     let s := tPage 2 [1, 2, 3, 4] (tWith o)
     (s.getWarp 1).map (fun w =>
       let s1 := (readLane s w o 0).2
       onlyEntry s1 o && (s1.getWarp 1).map (fun w => [0, 31].all fun l => match readLane s1 w o l with
         | (.done _, t) => decide (t = s1)
         | _ => false) == some true) = some true) := by decide +kernel

/-- One store of a warp. -/
def tStore (op : StoreOp) : PStore := { tag := 4, pc := 0x400000, d := 2, lanes := 1, op := op, asid := 1 }
def tStoring (p : PStore) : State := tWarp fun w => { w with stores := [p], issued := 9 }
def oldestStore (s : State) (p : PStore) : Bool :=
  (s.getWarp 1).map (fun w => headStore w == some p && w.stores == [p] && p.retryAt == none && p.remote == [] && p.window == 0 && p.frame == none && olderReads w p.tag == [])
    == some true

/-- MemoryEvents: a store to the last bytes of the scratchpad; one to an owned line; one to a sealed frame; one whose back-off is over. -/
theorem witness_StoresArrive :
    (let p := tStore (.write .scratch [(0, 0x3FF8, [1, 2, 3, 4, 5, 6, 7, 8])])
     let s := { tStoring p with wgs := tScr.wgs }
     oldestStore s p && ((s.getWarp 1).bind fun w => s.warpWg w).map (fun g => (s.getWg g.id == some g) && decide (0x3FF8 + 8 ≤ g.scratch)) == some true) ∧
    (let p := tStore (.write .global [(0, 0x60007C, [1, 2, 3, 4])])
     let s := tPage 0 [] (tL1 .m (tStoring p))
     oldestStore s p && (s.getWarp 1).map (fun w => (windowPlace s w p.asid (BitVec.ofNat 64 (lineOf 0x60007C * 128)) == none) &&
       match writePlace s (accOf s w p.asid) 0x60007C 4 with
       | (.done (.own pa), s1) => pa == 0x60007C && s1.getWarp 1 == some w &&
           (match walkNow s (s.warpCore w) p.asid (s.warpUser w) .write 0x60007C with | .ctrl _ => false | _ => true)
       | _ => false) == some true) ∧
    (let p := tStore (.write .global [(0, 0x60007C, [1, 2, 3, 4])])
     let s := (tPage 0 [] (tStoring p)).modDie 0 fun d => { d with mseal := 0x600001 }
     oldestStore s p && (s.getWarp 1).map (fun w => sealedHome s w p) == some (some 0)) ∧
    (let p := { tStore (.write .global [(0, 0x60007C, [1, 2, 3, 4])]) with retryAt := some 5 }
     let s := { tStoring p with clock := 5 }
     (s.getWarp 1).map (fun w => headStore w == some p && decide ((5 : DWord).toNat ≤ s.clock.toNat)) = some true) := by decide +kernel

/-- MemoryEvents: an atomic on a memory-side page; releases and an acquire; a lane in MWAIT; a refused request; a stale home map entry. -/
theorem witness_AccessesProceed :
    (let o := { tOut (.atom false .s32 0 [(0, 0x600000, 1, 0)]) (some .ld) with lanes := 1 }
     let s := tPage 2 [] (tWith o)
     onlyEntry s o && (s.getWarp 1).map (fun w => headRead w == some o && lanesOf o.lanes == [0] && onSidePage s w 1 .read 0x600000 &&
       match writePlace s (accOf s w o.asid) 0x600000 4 with
       | (.done (.side pa), s1) => s1.getWarp 1 == some w && engineReady s1 1 0x600000 pa
       | _ => false) == some true) ∧
    ([Scope.wg, .gang, .dev, .sys].all fun sc =>
     let s := tWarp fun w => { w with hold := some (.rel sc 4) }
     (s.getWarp 1).map (fun w => olderDone w .st 4 && olderStores w 4 == [] && (releaseEffects s w sc).map (fun u => backPending u (s.warpAsid w)) == some false) == some true) ∧
    (let s := tWarp fun w => { w with hold := some (.acq .sys 4) }
     (s.getWarp 1).map (fun w => olderDone w .ld 4) = some true) ∧
    (let s := tPage 2 [1] ((tWarp fun w => w.modLanes 1 fun _ x => { x with st := .sleeping (.mwait 0x600000 .wg 0 4) 0x400010 }))
     (s.getWarp 1).map (fun w =>
       let s1 := (mwaitRead s w 0 0x600000 4).2
       s1.getWarp 1 == some w && ((List.range 32).all fun j => j == 0 || mwaitOf (w.lane j) == none) && olderDone w .ld 4 && olderStores w 4 == [] &&
       (match mwaitRead s1 w 0 0x600000 4 with | (.done ph, t) => decide (t = s1) && ph == 1 | _ => false) && !w.inTrap && w.outs.isEmpty) = some true) ∧
    (let o := tOut .clock none
     let s := { tWith o with unacked := [(9, 1, 4, 31)] }
     s.unacked.find? (fun u => u.2.1 == 1 && u.2.2.1 == 4) = some (9, 1, 4, 31) ∧ ownEngine 1 = false ∧ unitTag 4 = false ∧ (s.getWarp 1).map (fun w => w.stores.isEmpty &&
       w.outs.find? (fun o => o.tag == 4) == some o && !w.inTrap && w.pend.isEmpty && w.htvec != 0) = some true) ∧
    (let s := (tPage 1 [] tS).modCore core0 fun c => { c with homeMap := [(1, 3, 0, 1)] }
     homeMapOf (s.getCore core0) 1 (0x3000 * 512) = some (0, 1) ∧
       translateNow s 0 1 false .read 0x600000 = .mem 0x600000 1 false ∧ ((0 : Nat), 1) ≠ (s.dev, 0x600000 / 2 ^ 36)) := by decide +kernel

/-- A word at the head counter. -/
def tFetch (bs : List Byte) (f : Warp → Warp) : State := { (tWarp f) with mem := Memory.writeN tS.mem bootCode bs }

/-- FetchPads: a pad at the first slot of a block. -/
theorem witness_FetchPads :
    (let s := tFetch (leBytes 4 0xFFFFFFFF) id
     (s.getWarp s.cur).map (fun w => headRun w != 0 && !w.blocked && match fetchAt s w with
       | (.pad, s1) => s1.getWarp w.id == some w
       | _ => false) = some true) := by decide +kernel

/-- Lanes 0 and 31 held by a page fault, which stands in the die's list. -/
def tFaulting (f : PFault → PFault) (g : Die → Die) : State :=
  (tWarp fun w => w.modLanes 0x80000001 fun _ x => { x with st := .held .fault }).modDie 0 fun d =>
    g { d with faults := [f { who := .lanes 1 0x80000001, kind := 0, ctx := 1, asid := 1, core := 0, warp := 0, tag := 0, va := 0x700000, level := 4,
                              rgns := [], seq := some 7 }], fqbase := 0x900001 }

/-- FaultEvents: a reserved opcode at the counter, a counter in a page of another package to which no path leads, a counter that is no multiple of 4. -/
theorem witness_FetchesThatIssueNothing :
    (let s := tFetch (leBytes 8 0x3FC) withHandler
     (s.getWarp s.cur).map (fun w => headRun w != 0 && !w.blocked && w.htvec != 0 && !w.inTrap && match fetchAt s w with
       | (.trap cause .., s1) => cause != 0x29 && s1.getWarp w.id == some w
       | _ => false) = some true) ∧
    (let s0 := tWarp fun w => (withHandler w).modLanes 0xFFFFFFFF fun _ x => { x with pc := 0x800000 }
     let s := { s0 with mem := Memory.writeNat s0.mem (bootTables + 0x3000 + 32) 8 (0x80008F + 3 * 2 ^ 48), fetchBuf := (List.range 4).map fun k => (fetchOwner 1, 0x800000 + 8 * k, 2, 0) }
     (s.getWarp s.cur).map (fun w => headRun w != 0 && !w.blocked && !w.inTrap && w.pend.isEmpty && w.htvec != 0 && headRun w &&& exitedOf w == 0 &&
       ((List.range 32).all fun l => (w.lane l).st != .held .fault) && w.outs.isEmpty && w.reads.isEmpty && match fetchAt s w with
       | (.trap 0x29 .., s1) => s1.getWarp w.id == some w
       | _ => false) = some true) ∧
    (let s := tWarp fun w => (withHandler w).modLanes 0xFFFFFFFF fun _ x => { x with pc := 0x400003 }
     (s.getWarp s.cur).map (fun w => headRun w != 0 && !w.blocked && w.htvec != 0 && !w.inTrap && (headPc w).toNat % 4 != 0) = some true) := by
  decide +kernel

/-- FaultEvents: a load from an absent page in lanes 0 and 31. -/
theorem witness_PageFaultsHoldLanes :
    (let o := tOut (.load .global .b32 [(0, 0xE00000), (31, 0xE0007C)]) (some .ld)
     let s := tWith o
     onlyEntry s o && (s.getWarp 1).map (fun w => w.lanes.length == 32 && laneSet [0, 31] &&& exitedOf w == 0 &&
       (faultLanes (entryLates s w o)).map (·.1) == [0, 31]) == some true) := by decide +kernel

/-- FaultEvents: a pending trap; a refused load of a lane. -/
theorem witness_DeferredTrapsAreTaken :
    (let p : PendTrap := { cause := 0x11, lanes := 0x80000001, pc := 0x400000, d := 2, file := 1, info := 0, tag := 4 }
     let s := tWarp fun w => { withHandler w with pend := [p] }
     (s.getWarp 1).map (fun w => (oldestLate s w).isNone && w.pend == [p] && !p.double && !w.inTrap && w.htvec != 0 && p.lanes != 0) = some true) ∧
    (let o := tOut (.load .global .b32 [(0, 0x800000), (31, 0x600000)]) (some .ld)
     let s := { tPage 1 [] (tWith o) with mem := Memory.writeNat (tPage 1 [] (tWith o)).mem (bootTables + 0x3000 + 32) 8 0x80088F }
     (s.getWarp 1).map (fun w => (oldestLate s w).map (fun tr => !hasErr tr.fails && (denyLanes tr.fails).map (·.1) == [0] &&
       (denyLanes tr.fails).all (fun d => d.2 != 0xFFFF) && w.stores.isEmpty && tr.tag == 4) == some true) = some true) := by decide +kernel

/-- FaultEvents: acknowledgements of a fault of lanes; a fault that waits for room in the queue, and none that does. -/
theorem witness_FaultQueueWrites :
    (let s := tFaulting id id
     ((s.getDie 0).faults.find? (fun f => f.seq == some 7)).map (fun f => f.who == .lanes 1 0x80000001 && f.ctx == 1) = some true ∧
       (s.getWarp 1).map (fun w => !w.inTrap && w.pend.isEmpty && w.lanes.length == 32 && (w.lane 31).st == .held .fault) = some true ∧ s.dies.flatMap (fun d => d.faults) = (s.getDie 0).faults ∧
       (s.getDie 0).faults.length = 1 ∧ (s.getRegion 0x10001).map (fun r => r.ctx == 1 && r.status == 0) = some true) ∧
    (let s := tFaulting (fun f => { f with seq := none }) fun d => { d with fqhead := 255, fqtail := 0 }
     (s.getDie 0).faults.length = 1 ∧ (s.getDie 0).faults.all (fun f => f.seq == none) ∧ (s.getDie 0).fqhead + 1 ≠ BitVec.setWidth 8 (5 : Word) ∧
       ([0, 1, 2, 3].all fun k => physReady s (bitsAt (s.getDie 0).fqbase.toNat 9 39 * 512 + 512 * (s.getDie 0).fqhead.toNat + 128 * k)) = true) ∧
    (tFaulting id id).dies.all (fun d => d.faults.all fun f => f.seq != none) := by decide +kernel
/-! ## Hypotheses of the statements are met: the cask layer, coherence -/

def clu0 : CluId := ⟨0, 0⟩
def tClu (f : Cluster → Cluster) : State := { tS with clusters := [f { id := clu0 }] }

/-- CaskLayerEvents: filters without entries; each phase; a way's first and second failure, at the last slice and way; a core whose
index is served by core 0, with and without a gang; a line of the filter with no dirty copy. -/
theorem witness_CaskLayerEvents :
    (tClu id).clusters.all (fun c => c.filter.all fun e => e.mask != 0) ∧
    (let s (f : Bool) := tClu fun c => { c with phase := 1, busy := true, fenced := f }
     ((s false).getCluster clu0).phase = 1 ∧ ((s false).getCluster clu0).fenced = false ∧ ((s true).getCluster clu0).fenced = true ∧
       drainedAbove (s true) clu0 = true) ∧
    ((tClu fun c => { c with phase := 2, busy := true }).getCluster clu0).phase = 2 ∧
    ((tClu fun c => { c with phase := 3, busy := true }).getCluster clu0).phase = 3 ∧
    (let x := (tClu id).getCluster clu0
     x.spares.all (fun p => p.1 != 31) ∧ x.disabled.contains (31, 15) = false ∧ x.copying.contains (31, 15) = false) ∧
    (let x := (tClu fun c => { c with spares := [(31, 0)], cso := 1, wpr := 0x50000002 }).getCluster clu0
     x.spares.any (fun p => p.1 == 31) ∧ x.disabled.contains (31, 15) = false ∧ x.copying.contains (31, 15) = false ∧ roleOf x.wpr 15 ≠ 2 ∧ x.cso ≠ 0 ∧
       (List.range 16).any fun w => roleOf x.wpr w == 2) ∧
    (let s := tClu id
     physOf (s.getCluster clu0) 0 = 0 ∧ (gangsOn s ⟨0, 0, 0⟩).map (fun g => (g.id, g.st)) = [(1, .running)] ∧ physOf (s.getCluster clu0) 7 = 7 ∧
       (List.range 7).all (fun j => physOf (s.getCluster clu0) j != 7) ∧ (List.range 8).all (fun j => physOf (s.getCluster clu0) j != 8) ∧ gangsOn s ⟨0, 0, 7⟩ = [] ∧ (s.getRegion 0x10001).map (·.ctx) = some 1 ∧
       (s.getCore ⟨0, 0, 7⟩).kiln = [] ∧ (s.getCore ⟨0, 0, 7⟩).nc = []) ∧
    (let k : KSector := { asid := 1, sector := 0x600000 / 32, ctx := 1, kind := 0, user := true, writable := true, place := .mem 0x600000, bytes := [(0, 7, true)], used := 0 }
     let s : State := { tClu id with cores := [{ id := core0, kiln := [k] }] }
     physOf (s.getCluster clu0) 0 = 0 ∧ dirtyCtxs s core0 = [1]) ∧
    (let s := tL1 .s tS
     dirtyIn s (fun k => cluOf k == clu0) 1 (0x600000 / 128) = false ∧ s.cores.all fun k => k.l1.all fun y => y.asid == 1) := by decide +kernel

/-- A load or a store of the warp to the line at 0x600000, the warp on a die. -/
def tAsk (die : Nat) (wr : Bool) (f : State → State) : State :=
  let s := tPage 0 [] (tWarp fun w =>
    if wr then { w with stores := [tStore (.write .global [(0, 0x60007C, [1, 2, 3, 4])])], issued := 9 }
    else { w with outs := [{ tOut (.load .global .b32 [(0, 0x600000)]) (some .ld) with lanes := 1 }], issued := 9 })
  f (State.modDie { s with wgs := s.wgs.map fun g => { g with core := ⟨die, 0, 0⟩ } } die fun d => { d with ptbase := BitVec.ofNat 64 bootRoot })

def tLine : Nat := 0x600000 / 128
def tRegionNo : Nat := regionOfLine tLine

/-- Room for a line, as HasRoom asks. -/
def hasRoom (s : State) (c : CoreId) (ln : L1Line) : Bool :=
  decide (((s.getCore c).l1.filter fun y => l1Set y.asid y.line == l1Set ln.asid ln.line).length +
      ((s.getCore c).nc.filter fun y => l1Set y.asid y.line == l1Set ln.asid ln.line).length < 8) &&
    decide (((s.getCluster (cluOf c)).filter.filter fun e => filterSet e.line == filterSet ln.line).length < 16) && decide (c.clu < 16) &&
    s.cores.all fun k => k.l1.all fun y => y.line != ln.line || y.asid == ln.asid

/-- What RequestsServed asks of a request of the die 0, with the region in other clusters or not. -/
def askServed (s : State) (wr others : Bool) : Bool :=
  match (wanted s 0 wr (inRegion 1 tRegionNo)).map fun p => (p.1, askedLine s wr p.1) with
  | some (a, some ln, s) => a.acc.core.die == 0 && homeOf ln == 0 && !a.pref && (dirOf (s.getDie 0) ln.asid ln.line).owner == none &&
      recallVictim (s.getDie 0) ln.asid (regionOfLine ln.line) == none && (s.getDie 0).reqs.all (fun q => !q.onBus) &&
      (s.getDie 0).buses.length == 8 && hasRoom s a.acc.core ln && !sealedPa s ln.pa && dirClear (dirOf (s.getDie 0) ln.asid ln.line) &&
      !(dirOf (s.getDie 0) ln.asid ln.line).pending && s.leases.all (fun l => l.line != ln.line) &&
      (presence (s.getDie 0) ln.asid (regionOfLine ln.line) &&& ~~~ (1#16 <<< a.acc.core.clu) != 0) == others
  | _ => false

def inClusters (m : BitVec 16) (s : State) : State := s.modDie 0 fun d => { d with regions := [{ asid := 1, region := tRegionNo, mask := m, used := 0 }] }

/-- CoherenceEvents: loads and stores that the home answers at once or by a probe; a region that a cluster no longer holds; a dirty line. -/
theorem witness_RequestsServed :
    askServed (tAsk 0 false id) false false ∧ askServed (tAsk 0 false (inClusters 0x8000)) false true ∧ askServed (tAsk 0 true id) true false ∧
    (let s := inClusters 1 tS
     s.cores.isEmpty && (s.getDie 0).regions.all fun e => e.mask != 0) ∧
    ([Moesi.m, .o].all fun y => wortAt (tL1 y tS) 1 (tLine * 128) == none && (l1Find ((tL1 y tS).getCore core0) 1 tLine).map (·.st) == some y) := by
  decide +kernel

/-- A bus of the die 0 changed, at a time. -/
def tBus (b : Nat) (clock : DWord) (f : Bus → Bus) : State := modBus { tS with clock := clock, dies := [{ id := 0 }] } 0 b f
def tProbe : Req := { kind := .getS, core := core0, ln := { asid := 1, line := tLine, st := .s, pa := 0x600000, kind := 0, user := true, writable := true }, onBus := true }

/-- CoherenceEvents: a group of the last bus with two messages and no slot of this frame; a slot that can still be voided; a frame of a probe
and one of a recall that act now. -/
theorem witness_BusSlots :
    (let s := tBus 7 5 fun b => { b with queue := [(15, .recall 1 2), (15, .recall 1 3)] }
     let x := busOf (s.getDie 0) 7
     (s.getDie 0).buses.length = 8 ∧ x.slots.isEmpty ∧ grpState x 15 = .cobalt ∧ x.quiet = none ∧ x.queue.length = 2) ∧
    ([0, 1].all fun vthr =>
     let s := (tBus 7 0 fun b => { b with slots := [⟨0, 7, 15, [(15, .recall 1 2)], false⟩] }).modDie 0 fun d => { d with vthr := vthr + 1 }
     let x := busOf (s.getDie 0) 7
     (s.getDie 0).buses.length == 8 && x.quiet == none && decide (0 ≤ frameNow s ∧ frameNow s < 0 + 8) &&
       ((x.slots.filter fun y => y.grp == 15 && decide (0 ≤ y.frame)).all fun y => decide (y.frame ≤ frameNow s) && !y.void) &&
       (x.slots.any fun y => y.grp == 15 && y.frame == 0) && x.st.length == 16 &&
       decide (recentVoids s x 15 + (frameNow s + 1 - 0) < voidLimit (s.getDie 0)) == (vthr == 1)) ∧
    8 ≤ frameNow (tBus 7 1000 id) ∧
    ((busOf ((tBus 7 0 fun b => { b with slots := [⟨0, 7, 15, [], true⟩] }).getDie 0) 7).slots.any fun y => y.grp == 15 && y.frame == 0 && y.void) ∧
    (let s := tBus 7 1000 fun b => { b with slots := [⟨0, 7, 15, [(15, .probe tProbe)], false⟩] }
     dueFrame s 0 = some 0 ∧ frameMsgs (s.getDie 0) 0 = [.probe tProbe] ∧ homeOf tProbe.ln = 0 ∧ (dirOf (s.getDie 0) 1 tLine).owner = none ∧
       recallVictim (s.getDie 0) 1 (regionOfLine tLine) = none ∧ hasRoom s core0 tProbe.ln = true) ∧
    (let r := { tProbe with kind := .look }
     let s := tBus 7 1000 fun b => { b with slots := [⟨0, 7, 15, [(15, .probe r)], false⟩] }
     dueFrame s 0 = some 0 ∧ frameMsgs (s.getDie 0) 0 = [.probe r] ∧ s.cores.isEmpty) ∧
    (let s := tBus 7 1000 fun b => { b with slots := [⟨0, 7, 15, [(15, .recall 1 tRegionNo)], false⟩] }
     dueFrame s 0 = some 0 ∧ frameMsgs (s.getDie 0) 0 = [.recall 1 tRegionNo] ∧ s.cores.isEmpty) ∧
    slotLoad [(15, .probe tProbe), (15, .probe tProbe)] = [(15, .probe tProbe), (15, .probe tProbe)] := by decide +kernel

/-- CoherenceEvents: a commit with no commit on its way; a group with a spare, with none, and being tuned; a ring lost with a spare and with none. -/
theorem witness_BusMaintenance :
    bwtBusy tS 0 63 = false ∧
    (let x := busOf ((tBus 7 0 id).getDie 0) 7
     x.st.length = 16 ∧ grpState x 15 = .cobalt ∧ spareGroups x = [16, 17]) ∧
    (let x := busOf ((tBus 7 0 fun b => { b with retired := [16, 17] }).getDie 0) 7
     x.st.length = 16 ∧ grpState x 15 = .cobalt ∧ spareGroups x = [] ∧ ((meshNeighbours 15).find? fun k => grpState x k == .cobalt).isSome ∧ x.proxy = []) ∧
    (let x := busOf ((tBus 7 0 fun b => { b with tuning := [(15, 16)] }).getDie 0) 7
     x.st.length = 16 ∧ x.phys.length = 16 ∧ x.tuning.find? (fun t => t.1 == 15) = some (15, 16)) ∧
    ([0, 2].all fun n =>
     let x := (tClu fun c => { c with rings := List.replicate 8 n }).getCluster clu0
     !x.out && x.retuning.all (fun r => r.1 != 7) && x.rings.length == 8 && (x.rings[7]?).getD 0 == n) ∧
    ([[(7, 0)], [(7, 0), (7, 1)]].all fun rs =>
     let s := { (tBus 7 0 fun b => { b with quiet := some 0 }) with clusters := (tClu fun c => { c with retuning := rs }).clusters }
     (s.getDie 0).buses.length == 8 && (s.getCluster clu0).retuning.find? (fun r => r.1 == 7) == some (7, 0) &&
       (busOf (s.getDie 0) 7).quiet == some 0) := by decide +kernel

/-- A directory entry of the line at the home die 0. -/
def tDir (f : Dir → Dir) (s : State) : State := s.modDie 0 fun d => { d with dirs := [f { asid := 1, line := tLine }] }

/-- What LeasesAndOwners asks of a write of die 1 to a line of die 0: nobody holds it, or somebody does. -/
def writeAsked (s : State) (held : Bool) : Bool :=
  match (List.range 16).findSome? fun d => (wanted s d true (isLine 1 tLine)).map fun p => (d, p.1, p.2) with
  | some (d, _, ln) => decide (homeOf ln ≠ d) && !sealedPa s ln.pa && !writeComing s (homeOf ln) ln.asid ln.line &&
      (s.getDie (homeOf ln)).dirs.all (fun e => e.line != ln.line || e.asid == ln.asid) &&
      (dirOf (s.getDie (homeOf ln)) ln.asid ln.line).owner == none &&
      (dirClear (dirOf (s.getDie (homeOf ln)) ln.asid ln.line) || holdersGone s (dirOf (s.getDie (homeOf ln)) ln.asid ln.line)) == !held
  | none => false

/-- CoherenceEvents: a load of die 1; a copy in the last quarter of its lease, and one that ends; an acknowledgement; writes of die 1. -/
theorem witness_LeasesAndOwners :
    (let s := tAsk 1 false id
     (match wanted s 1 false (isLine 1 tLine) with
      | some (_, ln) => decide (homeOf ln ≠ 1) && leasesFlow s ln.asid ln.line ln.pa && !leaseHolds s 1 ln.asid ln.line &&
          (dirOf (s.getDie (homeOf ln)) ln.asid ln.line).owner == none && (s.getDie (homeOf ln)).dirs.isEmpty
      | none => false) = true) ∧
    ([(0x50000000, true), (0, false)].all fun (wpr, found) =>
     let s := tAsk 1 false fun s => { s with clusters := [{ id := ⟨1, homeCluster 1 (regionOfLine tLine)⟩, wpr := wpr }] }
     match wanted s 1 false (isLine 1 tLine) with
      | some (a, ln) => (rdcWay s 1 ln.asid ln.line (waysFor s (askCtx s a))).isSome == found && s.leases.isEmpty
      | none => false) ∧
    (let l : Lease := ⟨1, 1, tLine, 1, 0x600000, 14⟩
     let s := { tAsk 1 false id with leases := [l] }
     (leasesFlow s 1 tLine l.pa &&
       (s.leases.find? fun x => x.die == 1 && x.asid == 1 && x.line == tLine) == some l && decide (s.clock.toNat < l.expiry.toNat) &&
       decide (l.expiry.toNat < s.clock.toNat + leaseTicks (s.getDie (l.pa / 2 ^ 36 % 16)) / 4)) = true ∧
     s.leases.any (fun x => decide (x.expiry.toNat ≤ s.clock.toNat + 16)) ∧ s.cores.isEmpty) ∧
    (let s := tDir (fun x => { x with pending := true, dies := 0x8000, dieExp := 9 }) tS
     dirDie s 1 tLine = some 0 ∧ (dirOf (s.getDie 0) 1 tLine).pending = true) ∧
    (let s := tDir (fun x => { x with dies := 0x8000, dieExp := 9, pa := 0x600000 }) tS
     let x := dirOf (s.getDie 0) 1 tLine
     dirDie s 1 tLine = some 0 ∧ x.pending = false ∧ sealedPa s x.pa = false ∧ x.owner = none ∧ holdersGone s x = false ∧
       holdersGone s { x with acked := x.acked ||| (1#16 <<< 15) } = true) ∧
    writeAsked (tAsk 1 true id) false ∧ writeAsked (tAsk 1 true (tDir fun x => { x with dies := 4, dieExp := 9, acked := 4 })) false ∧
    writeAsked (tAsk 1 true (tDir fun x => { x with dies := 4, dieExp := 9 })) true := by decide +kernel

/-- CoherenceEvents: a seal under way, of a frame without holders and with one. -/
theorem witness_Seals :
    (let s := (tPage 0 [] (tDir (fun x => { x with pa := 0x600000 }) tS)).modDie 0 fun d => { d with mseal := 0x600001, mbusy := true }
     (s.getDie 0).mbusy = true ∧ (s.getDie 0).dirs.all (fun x => x.owner == none) ∧ (sealDirs (s.getDie 0)).length = 1 ∧
       (sealDirs (s.getDie 0)).all fun x => dirClear x || holdersGone s x) ∧
    (let s := (tPage 0 [] (tDir (fun x => { x with pa := 0x600000, dies := 4, dieExp := 9 }) tS)).modDie 0 fun d => { d with mseal := 0x600001, mbusy := true }
     (s.getDie 0).mbusy = true ∧ (s.getDie 0).dirs.all (fun x => x.owner == none) ∧
       (sealDirs (s.getDie 0)).any fun x => !dirClear x && !holdersGone s x) ∧
    (tS.dies.all fun d => d.faults.isEmpty) := by decide +kernel
/-! ## Hypotheses of the statements are met: maltster, service -/

/-- A second region, of some effective values, with a gang in a state, tied to cluster 0. -/
def tRegion2 (e : Eff) : Region :=
  { handle := 0x10002, ctx := 2, asid := 1, service := true, leaf := true, parent := none, eff := e, order := 1, launchTime := 0, fired := [0] }
def tGang2 (st : GangState) : Gang := { id := 2, region := 0x10002, g := 0, st := st }
def tTwo (e : Eff) (y : Gang) : State :=
  { tClu (fun c => { c with cso := 2 }) with regions := tS.regions ++ [tRegion2 e], gangs := tS.gangs ++ [y], nextId := 3 }
/-- Eight cores, priority 5, two warps and an access warp. -/
def tEff8 : Eff := { bootEff with prio := 5, cores := 8, maxCores := 8, warps := 2, affine := true, nregs := 16, scratch := 0x4000, gangs := 1 }

/-- MaltsterEvents: a token at its threshold and one below it; a gang that has waited exactly 1 ms. -/
theorem witness_GangsBecomeReady :
    ([7, 6].all fun v =>
     let r := { tRegion2 { bootEff with token := 0x600000, threshold := 7, stride := 4, gangs := 2 } with fired := [0] }
     let s := { tPage 2 (zeros 4 ++ leBytes 4 v) tS with regions := tS.regions ++ [r] }
     decide (s.getRegion r.handle = some r) && r.leaf && r.status == 0 && decide (1 < r.eff.gangs) && !r.fired.contains 1 && r.eff.token != 0 &&
       (match translateNow s 0 r.asid.toNat false .read (r.eff.token + BitVec.ofNat 64 (1 * r.eff.stride)) with
        | .mem pa _ _ => s.loadNat pa 4 == v
        | _ => false)) ∧
    (let r := { tRegion2 { bootEff with token := 0x600000, threshold := 7, stride := 4, gangs := 2 } with fired := [0], crossed := [1] }
     let s := { tS with regions := tS.regions ++ [r] }
     s.getRegion r.handle = some r ∧ r.leaf = true ∧ r.status = 0 ∧ r.fired.contains 1 = false ∧ r.crossed.contains 1 = true) ∧
    (let s := { tTwo tEff8 (tGang2 .ready) with clock := 1500000 }
     let r := tRegion2 tEff8
     let y := tGang2 .ready
     s.getRegion r.handle = some r ∧ s.getGang y.id = some y ∧ (s.gangs.find? fun z => z.region == r.handle && z.g == y.g) = some y ∧
       y.starved = false ∧ y.readyTime.toNat + 1000 * 1500 ≤ s.clock.toNat) := by decide +kernel

/-- MaltsterEvents: a gang of eight cores that fits, and one for which another must leave. -/
theorem witness_GangsArePlaced :
    (let y := tGang2 .ready
     let s := tTwo tEff8 y
     y.st = .ready ∧ let s1 := fireUntokened s
     nextGang s1 [] = some y ∧ s1.getRegion y.region = some (tRegion2 tEff8) ∧ s1.getGang y.id = some y ∧
       spanFor s1 y (tRegion2 tEff8) = some (0, 0, 0) ∧ nextGang (fireUntokened (placeFresh s1 y (tRegion2 tEff8) (0, 0, 0))) [] = none) ∧
    (let y := tGang2 .ready
     let s := { tTwo tEff8 y with wgs := tS.wgs.map fun g => { g with banks := List.range 32 } }
     let s1 := fireUntokened s
     nextGang s1 [] = some y ∧ s1.getRegion y.region = some (tRegion2 tEff8) ∧ spanFor s1 y (tRegion2 tEff8) = none ∧
       bestVictims s1 y (tRegion2 tEff8) = some ([1], (0, 0, 0)) ∧ y.victims = [] ∧ y.st = .ready ∧
       tryPlace (makeRoom s1 y) (((makeRoom s1 y).getGang y.id).getD y) = none ∧ nextGang (fireUntokened (makeRoom s1 y)) [y.id] = none ∧ (s1.getGang 1).isSome) := by
  decide +kernel

/-- The running gang with an action under way since 0. -/
def tActing (e : Eff → Eff) (c : Choice3) (clock : DWord) : State :=
  { (tS.modGang 1 fun y => { y with st := .preempting, action := c }).modRegion 0x10001 (fun r => { r with eff := e r.eff }) with clock := clock }

/-- MaltsterEvents: before and at the end of a millisecond; a drain of 2 ms, a save of 20 µs, a flush; a saved gang beside a running one. -/
theorem witness_GangsMove :
    (let s := { tS with clock := 1499999 }
     s.clock.toNat < s.rotAt.toNat + 1000 * 1500 ∧ s.rotAt.toNat + 1000 * 1500 ≤ ({ tS with clock := 1500000 } : State).clock.toNat) ∧
    (let s (tar : Word) : State := { tS.modGang 1 (fun y => { y with action := .none }) with clock := 1500000, clusters := [{ id := clu0, cso := 1 }], cores := [{ id := core0, tar := tar }] }
     ((s 31).gangs.map (·.id)).Nodup ∧ (s 31).gangs.map (rotationSpan { s 31 with rotAt := (s 31).clock }) = [some (0, 0, 1)] ∧
       (s 32).gangs.map (rotationSpan { s 32 with rotAt := (s 32).clock }) = [none]) ∧
    (let s := tActing (fun e => { e with policy := 3, saveArea := 0x680000 }) .drain 3000000
     (s.getGang 1).map (fun y => y.st == .preempting && y.action == .drain && decide (y.actionAt.toNat + 2000 * 1500 ≤ s.clock.toNat)) = some true) ∧
    (let s := tActing id .save 30000
     (s.getGang 1).map (fun y => y.st == .preempting && y.action == .save && decide (y.actionAt.toNat + 20 * 1500 ≤ s.clock.toNat)) = some true) ∧
    (let s := tActing id .flush 0
     (s.getGang 1).map (fun y => y.st == .preempting && y.action == .flush) = some true ∧ s.copies = []) := by decide +kernel

/-- MaltsterEvents: sleepers that hold up a saved gang of the other region are saved. -/
theorem witness_LockHolders :
    (let y : Gang := { tGang2 .saved with slot := some 0, savedWarps := [], savedWgs := [] }
     let s := { (tTwo tEff8 y).modWarp 1 (fun w => w.modLanes 0xFFFFFFFF fun _ x => { x with st := .sleeping (.mwait 0x600000 .wg 0 4) 0x400010 }) with
       clock := 200000
       wgs := (tS.wgs.map fun g => { g with banks := List.range 32 }) ++ [{ id := 3, gang := 3, member := 0, core := ⟨0, 1, 0⟩, scratch := 0, banks := [] }]
       gangs := (tS.gangs.map fun g => { g with st := .running }) ++ [y, { tGang2 .running with id := 3, g := 1 }]
       regions := (tS.regions.map fun r => { r with eff := { r.eff with saveArea := 0x680000 } }) ++ [tRegion2 { tEff8 with maxCores := 16 }] }
     (s.getWarp 1).map (candidate s) = some true ∧ (placeable s).filter (fun y => (tryPlace s y).isNone) = [y] ∧
       (s.getRegion y.region).map (fun r => hasRunning s r && y.victims.isEmpty && takeEvicted s y r [] (evictOrder s r) == some [1]) = some true ∧
       (s.getGang 1).isSome) := by decide +kernel

/-- MaltsterEvents: a quiet draining workgroup; the first of two gangs to retire, and the last; saves into a slot and to an address. -/
theorem witness_GangsEnd :
    (let s := tWg fun g => { g with draining := true }
     (s.getWg 1).map (fun g => g.draining && !g.drained && groupQuiet (flushEntries s g.core fun e => e.wg == g.id) g) = some true) ∧
    ([1, 2].all fun n =>
     let s := ((tWg fun g => { g with draining := true, drained := true }).modGang 1 fun y => { y with st := .draining }).modRegion 0x10001 fun r =>
       { r with eff := { r.eff with gangs := n, completion := 0x400800 } }
     (s.getGang 1).bind (fun y => (s.getRegion y.region).map fun r => y.st == .draining && (s.wgs.all fun g => g.gang != y.id || g.drained) &&
       (match gangVisible s (gangWarps s y.id) with
        | some u => !backPending u r.asid.toNat && !exitsPending u r y && ((translateHome u r.asid.toNat false .write r.eff.completion).1 matches .mem ..)
        | none => false) && !fwPending s r.asid.toNat r.eff.completion.toNat 8 && r.worts.isEmpty) == some true) ∧
    ([none, some (1, 0x600000, 1)].all fun tg =>
     let s := ((tActing (fun e => { e with saveArea := 0x680000, nregs := 16 }) .save 0).modGang 1 fun y => { y with svTarget := tg }).modWarp 1 fun w =>
       { w with stopped := true }
     (s.getGang 1).bind (fun y => (s.getRegion y.region).map fun r =>
       let s0 := flushGroups s (membersOf s y)
       let u := handGang s0 (gangWarps s0 y.id)
       saveReady u r (membersOf s y) (gangWarps u y.id) && freeSlot u r == some 0 && y.svTarget == tg) == some true) := by decide +kernel

/-- A command ring of function k at 0x900000 with one record, of some bytes; the package is ready. -/
def tRing (k : Nat) (rec : List Byte) (s : State) : State :=
  { s with psReady := true, stage := 7, fns := s.fns.modify k (fun f => { f with ring := 0x900000 }),
           mem := Memory.writeN (Memory.writeN s.mem 0x900000 (leBytes 4 1)) 0x900040 rec }
/-- A record of a kind that names the region or an address, with a field at 0x10. -/
def tRec (kind : Nat) (h f : Nat) : List Byte := [BitVec.ofNat 8 kind, 0] ++ leBytes 2 7 ++ leBytes 2 1 ++ leBytes 2 0 ++ leBytes 8 h ++ leBytes 8 f
/-- A leaf RCB of one core, one warp, 16 registers and one gang, its completion word at 0x600800. -/
def tRcb (prio : Nat) : List Byte :=
  leBytes 1 1 ++ leBytes 1 prio ++ leBytes 2 0 ++ leBytes 4 0 ++ leBytes 8 0 ++ leBytes 2 1 ++ leBytes 2 0 ++ leBytes 4 0 ++ leBytes 8 0x400000 ++
    leBytes 1 1 ++ leBytes 1 1 ++ leBytes 2 16 ++ leBytes 4 0 ++ leBytes 4 1 ++ leBytes 4 0 ++ zeros 0x18 ++ leBytes 8 0x600800 ++ zeros 0xB0

/-- The ring's homes answer at once. -/
def answersNow (s : State) : Bool :=
  s.homeWrites.isEmpty && (lineParts (0x900040 + 0x18) 8 ++ lineParts (0x900040 + 1) 1 ++ lineParts (0x900000 + 4) 4).all fun p => physReady s p.1

/-- MaltsterEvents: a launch that is accepted and one refused; halt, query, save and load; a VF's record for a region of the PF. -/
theorem witness_CommandRing :
    (let s (p : Nat) := tRing 0 (tRec 1 0x600000 0) (tPage 2 (tRcb p) tS)
     [15, 16].all fun p => ringRecord (s p) 0 == some 0x900040 && ((s p).fn 0).ring == 0x900000 && answersNow (s p) && (s p).loadNat 0x900040 1 == 1 && !(s p).launchLock &&
       ((s p).loadNat 0x900048 8 == 0x600000) && ((rcbBytes (s p) 1 false 0x600000).map fun bs =>
         refusals (s p) (rcbOf bs) { service := true, ctx := 7, asid := 1, ring := 0 }) == some (if p = 15 then [] else [3])) ∧
    (let s (k : Nat) := tRing 16 (tRec k 0x10001 0) { tS with regions := tS.regions.map fun r => { r with ring := 16 } }
     [2, 3].all fun k => ringRecord (s k) 16 == some 0x900040 && (s k).loadNat 0x900040 1 == k && !foreign (s k) 16 0x10001 &&
       answersNow (s k) && answersNow (haltHandle (s k) 0x10001)) ∧
    (let s := tRing 0 (tRec 4 0x10001 0x600000) tS
     ringRecord s 0 = some 0x900040 ∧ (s.fn 0).saving = false ∧ 0 < s.fns.length ∧ foreign s 0 0x10001 = false ∧
       (gangNamed s 0x10001 (0x600000 % 4096)).map (fun y => (y.id, y.st)) = some (1, .running) ∧ (s.getRegion 0x10001).isSome) ∧
    (let s := tRing 0 (tRec 5 0x10001 0x600000) tS
     ringRecord s 0 = some 0x900040 ∧ s.loadNat 0x900040 1 = 5 ∧ foreign s 0 0x10001 = false ∧
       (s.fn 0).saving = false ∧ ((s.getRegion 0x10001).map (·.asid.toNat)) = some 1 ∧ s.loadNat (0x900040 + 0x10) 8 = 0x600000 ∧
       loadHere s (ringOwner 0) 1 0x600000 = true ∧ (let u := loadContext s (ringOwner 0) 1 0x600000
         fwPending u 1 0x600007 1 = false ∧ vaHere u (ringOwner 0) 1 0x600007 1 = true ∧ answersNow u = true)) ∧
    (let s (k : Nat) := tRing 16 (tRec k 0x10001 0) tS
     [2, 3].all fun k => ringRecord (s k) 16 == some 0x900040 && answersNow (s k) && (s k).loadNat 0x900040 1 == k && ((s k).getRegion 0x10001).map (·.ring != 16) == some true) := by
  decide +kernel
def tVbus (f : VBusState → VBusState) : State := modVbus { tS with cores := [{ id := core0 }] } core0 .kiln f

/-- ServiceEvents: a repair that is due while no workgroup is resident; one deferred until now; one under way with all the spare lanes asked for;
a boundary that has been late for too long. -/
theorem witness_CoreHealth :
    (let s := { tVbus (fun x => { x with pend := true }) with wgs := [], warps := [] }
     let x := vbusGet (s.getCore core0) .kiln
     x.pend = true ∧ x.repairing = false ∧ x.deferAt = none ∧ boundary s core0 x.dueAt = true) ∧
    (let x := vbusGet ((tVbus fun x => { x with deferAt := some 0 }).getCore core0) .kiln
     x.deferAt = some 0 ∧ (0 : DWord).toNat ≤ (tVbus id).clock.toNat) ∧
    (let x := vbusGet ((tVbus fun x => { x with repairing := true }).getCore core0) .kiln
     x.repairing = true ∧ 8 ≤ x.spare) ∧
    (let s := { tVbus (fun x => { x with pend := true }) with clock := BitVec.ofNat 64 boundaryWait }
     (gangsOn s core0).filter (fun g => g.st == .running) = [{ id := 1, region := 0x10001, g := 0, st := .running }] ∧ boundaryLate s core0 = true ∧
       (s.getRegion 0x10001).isSome) := by decide +kernel

/-- A service call of lane 31, by its request record. -/
def tCall (svc arg : Nat) (f : State → State) : State × Outst :=
  let o := { tOut (.wcall (leBytes 2 svc ++ leBytes 2 0 ++ leBytes 4 0x80000000 ++ leBytes 8 0x400000 ++ leBytes 16 0 ++ leBytes 248 0 ++ leBytes 8 arg)) none with
    lanes := 0x80000000 }
  (f (tWith o), o)

/-- ServiceEvents: ALLOC of nothing, of the most and of more; FREE of a block and of none; PUTS of a string, with and without a console, and of one
that nothing ends; HEALTH. -/
theorem witness_Services :
    (match (tCall 3 0x600000 id).2.res with
     | .wcall bs => bs.length == 288 && recordService bs == 3 && recordArg bs 31 == 0x600000
     | _ => false) = true ∧
    ([0, 2 ^ 32, 2 ^ 32 + 1].all fun n =>
     let c := tCall 1 n id
     onlyEntry c.1 c.2 && ((c.1.getWarp 1).bind fun w => c.1.warpRegion w).map (fun g => c.1.getRegion g.handle == some g) == some true) ∧
    ([[], [((0x700000 : DWord), 9)]].all fun bs =>
     let c := tCall 2 0x700000 fun s => s.modRegion 0x10001 fun r => { r with allocs := bs }
     onlyEntry c.1 c.2 && ((c.1.getWarp 1).bind fun w => c.1.warpRegion w).map (fun g => c.1.getRegion g.handle == some g && g.allocs == bs) == some true &&
       c.1.regions.find? (fun g => g.status == 0 && g.asid.toNat == 1 && g.allocs.any fun b => b.1 == 0x700000) == (if bs.isEmpty then none else c.1.getRegion 0x10001)) ∧
    ([0, 0xA00000].all fun b =>
     let c := tCall 3 0x600000 fun s => { tPage 2 [0x68, 0x69, 0] s with conbase := b }
     onlyEntry c.1 c.2 && (c.1.getWarp 1).map (fun w => (stringAt c.1 w 0x600000 256).1 == .is [0x68, 0x69] && (stringAt c.1 w 0x600000 256).2.homeWrites.isEmpty) == some true &&
       (c.1.getWarp 1).map (fun w => let u := (stringAt c.1 w 0x600000 256).2
         [0, 1].all fun i => physReady u (u.conbase.toNat + (u.conpos + i) % 65536)) == some true) ∧
    (let c := tCall 3 0xE00000 id
     onlyEntry c.1 c.2 && (c.1.getWarp 1).map (fun w => (stringAt c.1 w 0xE00000 256).1) == some .bad) ∧
    (let c := tCall 4 0 id
     onlyEntry c.1 c.2) := by decide +kernel

/-- ServiceEvents: each stage of boot; a package that waits for its recovery image; a free attestation unit. -/
theorem witness_BootAndSecurity :
    ([(1 : BitVec 4), 2, 3, 5, 6].all fun k => let s := { tS with stage := k, psReady := false }
     !s.psReady && s.stage == k && !imageOk s.fused (stackImage s)) ∧
    (let s := { tS with stage := 0xF, recovery := true, psReady := false }
     s.stage = 0xF ∧ s.recovery = true ∧ s.psReady = false) ∧
    (tS.attbusy = false ∧ tS.nonce.length = 64 ∧ tS.homeWrites = [] ∧
      (lineParts ((0xA00000 &&& 0x0000FFFFFFFFFC00 : DWord)).toNat 1024).all fun p => physReady tS p.1) ∧ tS.policy = 1 ∧ ({ tS with policy := 0 } : State).policy = 0 := by decide +kernel

/-- ServiceEvents: requests from the host to memory at the last byte of its window, to no BAR, to a register, before and after boot; a port that is not dark. -/
theorem witness_HostLinkAndHeartbeats :
    (let s := { tS with psReady := true, stage := 7 }
     s.inbound = [] ∧ inboundAt s 0 2 (2 ^ 40 - 1) 1 = .hbm (2 ^ 40 - 1) ∧ hostReady s (2 ^ 40 - 1) 1 = true ∧ wortAtPa s (2 ^ 40 - 1) 1 = false ∧
       homeDead s (2 ^ 40 - 1) = false ∧ homeDead (s.modDie 15 fun d => { d with noStack := true }) (2 ^ 40 - 1) = true ∧
       inboundAt s 0 0 (0x8000 + 0) 4 = .table 0 ∧ inboundAt s 0 5 0 8 = .unsupported ∧ 0 < s.fns.length ∧ inboundAt s 0 0 0x030 8 = .svc 0x030) ∧
    (let s := tDir (fun x => { x with pa := 0x600000, dies := 4, dieExp := 9 }) { tS with psReady := true, stage := 7 }
     inboundAt s 0 2 0x600000 1 = .hbm 0x600000 ∧ hostReady s 0x600000 1 = false ∧ wortAtPa s 0x600000 1 = false ∧
       hostServe s ⟨0, 2, 0x600000, some [5], 0⟩ = none) ∧
    ((tClu id).getCluster clu0).dead = false ∧ (tS.getDie 15).dead = false ∧ physOf (tS.getCluster clu0) 7 < 9 ∧
    (let s := { tS with psReady := false, stage := 1 }
     s.psReady = false ∧ s.stage ≠ 0xF ∧ s.stage ≠ 0xE) ∧
    (let s := { tS with hostPosted := [(1, 5, 6)] }
     (s.getWarp 1).map (fun w => s.warpCtx w) = some 1) ∧
    (let s := tPort id
     0 < s.ports.length ∧ (s.port 0).usable ≠ 0 ∧ 3 ≠ s.dev ∧ s.deadPkgs.contains 3 = false) := by decide +kernel

/-- RegisterWrites: an address of no control page, and one that is not aligned. -/
theorem witness_RegisterWrites : isCtrlPa 0x600000 = false ∧ isCtrlPa 0x10000000004 = true ∧ 0x10000000004 % 8 ≠ 0 := by decide +kernel

/-- DecodeEncodeAgree, DecodedWordIsExact: an instruction with an encoding, and its word. -/
theorem witness_DecodeEncodeAgree :
    (Instr.wf (.mov ⟨true, 5, true, 1⟩ 10 11) = true ∧ encode (.mov ⟨true, 5, true, 1⟩ 10 11) = some [0x8C, 0x29, 0x54, 0xC0, 0x02, 0x00, 0x10, 0x00]) ∧
    decode 0x00100002C054298C = .instr (.mov ⟨true, 5, true, 1⟩ 10 11) := by decide +kernel

/-- ReservedOpcodesAreIllegal, WordLengths: the reserved opcodes at their bounds, in a code page; a pad, an illegal length and words of each length. -/
theorem witness_ReservedOpcodesAreIllegal :
    ([0x5F, 0x82, 0x8F, 0x96, 0x97, 0x9D, 0x9F, 0xA7, 0xAF, 0xB7, 0xFF].all fun op =>
     let v : BitVec 128 := BitVec.ofNat 128 (op * 8)
     let s := tFetch (leBytes 8 (op * 8)) withHandler
     decide (v.extractLsb' 0 2 ≠ 3#2 ∧ ReservedOp v) && (s.getWarp s.cur).map (fun w => headRun w != 0 && !w.blocked && w.htvec != 0 && !w.inTrap &&
       (headPc w).toNat % 32 == 0 && canonical (headPc w) && match fetchBlock s w (headPc w) with
         | (.ok bs, s1) => s1.getWarp w.id == some w && codeAt (headPc w) bs == v
         | _ => false) == some true) ∧
    decodeAt 0 (leBytes 4 0xFFFFFFFF ++ zeros 28) = .pad ∧ (codeAt 0 (leBytes 4 3 ++ zeros 28)).extractLsb' 0 2 = 3#2 ∧
    (decodeAt 0 (zeros 32) = .instr (.nop ⟨false, 0, false, 0⟩) ∧
      decodeAt 0 ([0x91, 0x01, 0xA0, 0x00, 0x00, 0x00, 0x00, 0x80, 0x78, 0x56, 0x34, 0x12] ++ zeros 20) = .instr (.movi ⟨false, 0, false, 0⟩ 20 0x12345678)) := by
  decide +kernel

/-- StepRunsDecodedInstruction: the warp whose turn it is stands at a word that ends at the end of its block; an event that comes next. -/
theorem witness_StepRunsDecodedInstruction :
    (let s := { (tWarp fun w => w.modLanes 0xFFFFFFFF fun _ x => { x with pc := 0x400018 }) with
       mem := Memory.writeN tS.mem (bootCode + 24) [0x8C, 0x29, 0x54, 0xC0, 0x02, 0x00, 0x10, 0x00], agenda := [], side := .issue }
     (pickWarp s false).map (fun w =>
       let s1 := { s with side := .access, cur := w.id }
       let core := s1.warpCore w
       let tr := route s1 core (s1.warpAsid w) (s1.warpUser w) .fetch (BitVec.ofNat 64 (blockOf (headPc w)))
       s.getWarp w.id == some w && (headPc w).toNat % 4 == 0 && canonical (headPc w) &&
         icacheFind (s1.getCore core) (s1.warpAsid w) (blockOf (headPc w)) == none &&
         (match tr.1 with
          | some (.mem pa _ _) => !homeDead tr.2 pa && decodeBytes ((tr.2.load pa 32).drop 24) == .instr (.mov ⟨true, 5, true, 1⟩ 10 11)
          | _ => false)) = some true) ∧
    tS.agenda = .issue 1 :: [] ∧ ({ tS with agenda := [.event .reset] } : State).agenda = .event .reset :: [] := by decide +kernel

/-- StepKeepsMemoriesCanonical, ExecNeverStops, StepAlwaysGoesOn, ClockCountsSteps, SecurityLatchesHold: canonical memories, a warp with a run, an
instruction and an event, identities that differ, latches that are set, and steps that answer. -/
theorem witness_WholeMachine :
    (Memory.wf tS.mem = true ∧ Memory.wf tS.hostMem = true) ∧ ((tS.getWarp tS.cur).map fun w => headRun w != 0) = some true ∧
      toRaw .reset = none ∧ (tS.warps.map (·.id)).Nodup ∧ ({ tS with agenda := [] } : State).agenda = [] ∧
      (pickWarp tS false).map (·.id) = some 1 ∧
      (match step { tS with alock := true, launchLock := true, erased := 2, agenda := [] } with | .next _ => true | _ => false) = true ∧
      (match step { tS with agenda := [.event .reset] } with | .next _ => true | _ => false) = true := by decide +kernel
/-! ## Ill-formed terms and words are refused -/

/-- Each check of well-formedness refuses a term: pairs, predicates, warp-scalar registers and masks of R49 (`v2047` names no pair), a queue
pop's file and field (R55), and the limits of the entries. -/
theorem test_ill_formed_terms_refused :
    ([.movPair h0 7 10, .elect h0 128, .wmovWImm h0 64 0, .join h0 12, .imad h0 .s32 false 6 ⟨10, 14, 18, .a 0⟩, .imad h0 .s64 false 6 ⟨0, 14, 18, .a 0⟩,
      .xlane h0 .idx 0 6 10 (.reg 14), .xlane h0 .idx 6 6 10 (.reg 14), .pmovPack h0 6 31, .pmovUnpack h0 31 6, .srd h0 (.v 6) .clock,
      .srd h0 (.pair 6) .lane, .swr h0 .htvec (.v 6), .swr h0 .fpc (.pair 6), .cvt h0 .f32 .f16 .dyn true false 6 10 0 .none,
      .cvt h0 .s32 .f32 .dyn true false 6 10 0 .none, .cvt h0 .s32 .s8 .dyn false true 6 10 14 .none, .cvt h0 .f16 .f32 .dyn false false 6 10 1 .none,
      .cvtp h0 .f32 .dyn false false 6 ⟨10, 14, 0, .none⟩, .cvtx h0 .s32 .dyn false false 6 10 0 .none, .cvtx h0 .f16 .dyn false true 6 10 0 .none,
      .ldq h0 8 ⟨4, none⟩, .ldqScratch h0 8 ⟨4, none⟩, .cpyq h0 8 4 6, .popq h0 .x2 7 0, .popq h0 .x4 6 0,
      .atom h0 .s32 false 2 (.op .inc (.short 4 6)), .red h0 .dec .s64 false (.short 4 6), .st h0 .b32 .none (.long 4 6 (.c 0) 0),
      .funl h0 6 (.imm 10 14 (.c 0) 0), .barinit h0 5 (.imm 0x4000), .waitw h0 0 4] : List Instr).all (fun i => !i.wf) = true := by decide +kernel

/-- Words whose fields the manual reserves, forbids or does not name are no instruction (R49, R55, R58, R60, and the entries named). -/
def wordsRefused : List (Nat × String) := [
  (0x18040000000300191, "MOVI FN 0x201"),
  (0x1200401C02803000F1, "FUNL FN 1"),
  (0xC00002803001C8, "POLL FN 3"),
  (0x1800002803001D8, "PEERS FN 6"),
  (0xD000002803001E0, "REDUX op 6"),
  (0x7C0300180, "PMOV pack of q31"),
  (0xC001C0280300160, "ICMP condition 6"),
  (0x1C02803001C0, "XLANE segment 0"),
  (0x6001C02803001C0, "XLANE segment 6"),
  (0xC000002803002F0, "LCVT F 6"),
  (0x200000280380188, "odd pair"),
  (0x2001C0284000160, "q128"),
  (0x2820001F0, "w64"),
  (0x600038, "m12"),
  (0x20280300188, "unused B"),
  (0x80000, "NOP with D"),
  (0x8000000280300189, "form I of MOV"),
  (0x59, "RGN form X"),
  (0x601200001C02803000A9, "QID without QOP"),
  (0x81200001C02803000A9, "pop on A with A named"),
  (0x81200801C00003000A9, "pop of a 64-bit operand"),
  (0x100001200001C0280300121, "TERN FN2 bit 8"),
  (0x100008000000000000061, "TRAP immediate bit 16"),
  (0x2F8, "reserved OP 0x5F"),
  (0x410, "reserved OP 0x82"),
  (0x7F8, "reserved OP 0xFF")]

theorem test_reserved_words_refused : wordsRefused.all (fun p => decide (decode (BitVec.ofNat 128 p.1) = .illegal)) = true := by decide +kernel

/-- A register past the kernel's count is refused at issue (R49): `v16` where 16 are allocated, the pair that ends past them, `q8` where 8 are. -/
theorem test_out_of_range_refused :
    ([.mov h0 16 1, .movPair h0 16 2, .elect h0 8] : List Instr).all (fun i => i.wf && !i.inRange 16 8) ∧
      ([.mov h0 15 1, .movPair h0 14 2, .elect h0 7] : List Instr).all (fun i => i.inRange 16 8) := by decide +kernel

/-! ## The manual's worked examples -/

def tLanes (r : Reg) (f : Nat → Word) : Warp → Warp := fun w => wrLanes w .v r 0 ((List.range 32).map fun l => (l, (f l).toNat))

/-- R109: the example of `IADD.s64.sat` and of the form without `.sat`. -/
theorem test_iadd_saturates :
    let s := tWarp fun w => setP w 12 0x8000000000000002
    pAfter (.iadd h0 .s64 true 10 12 (.imm 0xFFFFFFFB)) s 10 5 = some 0x8000000000000000 ∧
      pAfter (.iadd h0 .s64 false 10 12 (.imm 0xFFFFFFFB)) s 10 5 = some 0x7FFFFFFFFFFFFFFD := by decide +kernel

/-- R112: the tables of a and not c, the majority and the exclusive or, on the column bytes. -/
theorem test_tern_tables :
    let s := tWarp fun w => setV (setV (setV w 4 0xAA) 5 0xCC) 6 0xF0
    vAfter (.tern h0 .b32 7 ⟨4, 5, 6, .none⟩ 0x0A) s 7 0 = some 0x0A ∧ vAfter (.tern h0 .b32 7 ⟨4, 5, 6, .none⟩ 0xE8) s 7 0 = some 0xE8 ∧
      vAfter (.tern h0 .b32 7 ⟨4, 5, 6, .none⟩ 0x96) s 7 31 = some 0x96 := by decide +kernel

/-- R110: a count equal to the width gives 0, all sign bits, and the value itself. -/
theorem test_shift_by_width :
    let s := tWarp fun w => setV w 4 0x80000001
    vAfter (.shl h0 .s32 5 4 (.imm 32)) s 5 0 = some 0 ∧ vAfter (.sar h0 .n32 5 4 (.imm 32)) s 5 0 = some 0xFFFFFFFF ∧
      vAfter (.rotL h0 .s32 5 4 (.imm 33)) s 5 0 = some 3 := by decide +kernel

/-- R114: the selectors of the example of BSEL. -/
theorem test_bsel_selectors :
    let s := tWarp fun w => setV (setV w 4 0x8142A3C4) 5 0x11223344
    vAfter (.bsel h0 6 (.imm 4 5 .none 0x00010203)) s 6 0 = some 0xC4A34281 ∧ vAfter (.bsel h0 6 (.imm 4 5 .none 0x05040100)) s 6 0 = some 0x3344A3C4 ∧
      vAfter (.bsel h0 6 (.imm 4 5 .none 0x10101000)) s 6 0 = some 0xFFFFFFC4 ∧
      vAfter (.bsel h0 6 (.imm 4 5 .none 0x20212223)) s 6 0 = some 0x23C54281 := by decide +kernel

/-- R113: a signed field that ends at the top bit, and an insertion that is cut there. -/
theorem test_bit_fields :
    let s := tWarp fun w => setV (setV w 4 0xF0000000) 5 0x0000000F
    vAfter (.bfe h0 .s32 6 4 (.imm 0x081C)) s 6 0 = some 0xFFFFFFFF ∧ vAfter (.bfe h0 .n32 6 4 (.imm 0x0420)) s 6 0 = some 0 ∧
      vAfter (.bfi h0 .b32 6 (.imm 5 4 .none 0x0804)) s 6 0 = some 0xF00000F0 := by decide +kernel

/-- R118: the example of LEAX. -/
theorem test_leax_example :
    pAfter (.leax h0 .n32 20 ⟨16, 9, 10, .none⟩ (some 0x40)) (tWarp fun w => setV (setV (setP w 16 0x200000000000) 9 3) 10 0x300) 20 0 =
      some 0x200000000940 := by decide +kernel

/-- R123: the example of XLANE, with lanes 28 to 31 at another counter. -/
theorem test_xlane_example :
    let s := tWarp fun w => (tLanes 4 (fun l => BitVec.ofNat 32 (10 * l)) (setV w 5 7)).modLanes 0xF0000000 fun _ x => { x with pc := 0x500000 }
    (warpAfter (.xlane h0 .sft 3 5 4 (.imm 2)) s).map (fun w => [0, 5, 6, 7, 13, 14, 23, 25, 26, 27, 28].map fun l => (rdV w 5 l).toNat) =
      some [20, 70, 60, 70, 150, 140, 230, 270, 260, 270, 7] := by decide +kernel

/-- R115: signed and natural order differ where bit 31 is set. -/
theorem test_icmp_signedness :
    let s := tWarp fun w => setV (setV w 4 0x80000000) 5 1
    qAfter (.icmp h0 .lt .s32 6 4 (.reg 5)) s 6 0 = some true ∧ qAfter (.icmp h0 .lt .n32 6 4 (.reg 5)) s 6 0 = some false := by decide +kernel

/-- R125: a sum keeps its low 32 bits, and a signed minimum. -/
theorem test_redux :
    let s := tWarp fun w => setV (setLane w 4 0 0x80000000) 5 0xFFFFFFFF
    (warpAfter (.redux h0 .add .n32 (.w 6) 5) s).map (fun w => (rdW w 6).toNat) = some 0xFFFFFFE0 ∧
      vAfter (.redux h0 .min .s32 (.v 6) 4) s 6 31 = some 0x80000000 := by decide +kernel

/-- R100: CALLX with D equal to A jumps to the old value of the pair and leaves the link in it. -/
theorem test_callx_same_register :
    let s := tWarp fun w => setP w 4 0x400100
    (warpAfter (.callx h0 4 4) s).map (fun w => ((rdP w 4 9).toNat, (w.lane 9).pc.toNat)) = some (0x400008, 0x400100) := by decide +kernel

/-- R12: FP32 0.3 as FP16 and as BF16; R154: the example of CVT to E4M3 with a scale of 2^-3. -/
theorem test_cvt_examples :
    let s := tWarp fun w => setV (setV (setV w 4 0x3E99999A) 6 0x447A0000) 7 0x7C
    vAfter (.cvt h0 .f16 .f32 .rne false false 5 4 0 .none) s 5 0 = some 0x34CD ∧
      vAfter (.cvt h0 .bf16 .f32 .rne false false 5 4 0 .none) s 5 0 = some 0x3E9A ∧
      vAfter (.cvt h0 .e4m3 .f32 .rne true true 5 6 7 .none) s 5 0 = some 0x70 := by decide +kernel

/-- R27: the roundings of 2.5, 3.5, -2.5 and -0.3 to integers, by FRND and by CVT. -/
theorem test_round_examples :
    let s := tWarp fun w => setV (setV (setV (setV w 4 0x40200000) 5 0x40600000) 6 0xC0200000) 7 0xBE99999A
    vAfter (.frnd h0 .f32 .rne 8 4) s 8 0 = some 0x40000000 ∧ vAfter (.frnd h0 .f32 .rne 8 5) s 8 0 = some 0x40800000 ∧
      vAfter (.cvt h0 .s32 .f32 .rz false false 8 6 0 .none) s 8 0 = some 0xFFFFFFFE ∧
      vAfter (.cvt h0 .s32 .f32 .rd false false 8 6 0 .none) s 8 0 = some 0xFFFFFFFD ∧
      vAfter (.cvt h0 .s32 .f32 .ru false false 8 7 0 .none) s 8 0 = some 0 := by decide +kernel

/-- R24 and R25: 3.0 and -0.5 as LOG6, and their product. -/
theorem test_log6_examples :
    let s := tWarp fun w => setV (setV (setV (setV w 4 0x40400000) 5 0xBF000000) 6 0x16) 7 0x2C
    vAfter (.cvt h0 .log6 .f32 .rne false false 8 4 0 .none) s 8 0 = some 0x16 ∧
      vAfter (.cvt h0 .log6 .f32 .rne false false 8 5 0 .none) s 8 0 = some 0x2C ∧ vAfter (.lmul h0 8 6 7) s 8 0 = some 0x32 := by decide +kernel

/-- R156: the four statements of the example of LCVT. -/
theorem test_lcvt_example :
    let s := tWarp fun w => setV (setV (setV w 2 0x16) 3 0x32) 6 0x0005A820
    vAfter (.lcvtWiden h0 0 4 2) s 4 0 = some 0x000B5040 ∧ vAfter (.lcvtWiden h0 0 5 3) s 5 0 = some 0xFFFA57E0 ∧
      vAfter (.lcvtNarrow h0 false 7 6) s 7 0 = some 0x12 := by decide +kernel

/-- R138: the example of FMUL with only the invalid trap enabled: lane 3 traps with its register kept, lane 9 has its infinity. -/
theorem test_fmul_trap_example :
    let s := tWarp fun w => setLane (setLane (setLane (setLane { setV (setV (setV w 10 7) 2 0x3F800000) 3 0x40000000 with fpc := 0x100, htvec := 0x8000 }
      2 3 0) 3 3 0x7F800000) 2 9 0x7F000000) 3 9 0x40400000
    (warpAfter (.fmul h0 .f32 .dyn 10 2 (.reg 3)) s).map (fun w => (w.hcause.toNat, w.hmask.toNat, w.hdst.toNat % 2 ^ 11, (rdV w 10 3).toNat, (rdV w 10 9).toNat,
      (rdV w 10 0).toNat)) = some (0x08, 0x8, 10, 7, 0x7F800000, 0x40000000) := by decide +kernel

/-- R302: the home of an address in ASID 0x42. -/
theorem test_home_hash : regionHash 0x42 0x0000010000600000 = 0x04A := by decide +kernel

/-- R47, R43: the fetched bytes of the manual's MOVI run as the first instruction after reset, in a page of their own, and the word decodes. -/
theorem test_first_step_runs :
    decodeTableWord 96 0x123456788000000000A00191 = some (.movi h0 20 0x12345678) ∧ decodeTableWord 64 0x0000000280400500 = some (.launch h0 8 10 0) ∧
      (match step (State.reset.withFetchWord 96 0x123456788000000000A00191) with
       | .next t => (t.getWarp t.cur).map (fun w => (rdV w 20 31).toNat) == some 0x12345678
       | _ => false) = true ∧
      (match step (State.reset.withFetchWord 64 0x0000000280400500) with | .next _ => true | _ => false) = true := by decide +kernel
end Sys2Proof.Machine
end

section
/-! What `exec` answers: an instruction goes through `issueP`, and an event always happens. -/

namespace Sys2Proof.Machine

theorem execFetchPad_next (s : State) : ∃ t, execFetchPad s = .next t := by
  unfold execFetchPad
  cases s.getWarp s.cur with
  | none => exact ⟨_, rfl⟩
  | some w =>
    dsimp only
    split
    · exact ⟨_, rfl⟩
    · split <;> exact ⟨_, rfl⟩

theorem execReservedOpcodeFetch_next (s : State) : ∃ t, execReservedOpcodeFetch s = .next t := by
  unfold execReservedOpcodeFetch
  cases s.getWarp s.cur with
  | none => exact ⟨_, rfl⟩
  | some w =>
    dsimp only
    split
    · exact ⟨_, rfl⟩
    · split <;> exact ⟨_, rfl⟩

/-- Every constructor is of one of two kinds: an instruction has a word and issues through `issueP`; an event of the machine has no word
and answers a next state. -/
theorem exec_instruction_or_event (i : Instr) (s : State) :
    (toRaw i ≠ none ∧ ∃ ready prep effect, exec i s = issueP i s ready prep effect) ∨
      (toRaw i = none ∧ ∃ t, exec i s = .next t) := by
  cases i
  -- A fetch pad or a fetch that finds no instruction looks at what stands at the counter.
  case fetchPad => exact .inr ⟨rfl, execFetchPad_next s⟩
  case reservedOpcodeFetch => exact .inr ⟨rfl, execReservedOpcodeFetch_next s⟩
  -- The other events.
  case resultWriteback | pageFault | deferredTrap | fqackResume | fqackEnd | storeVisible | queueEntryArrival | ldqEntryPush | queueReplay |
      copyUnitWrite | copyComplete | gatherComplete | sleepExpiry | sleeptDeadline | mwaitRecheck | watchArmFire | waitwDeadline |
      mxOperationStart | wldExecute | wswapExecute | mxOperandsConsumed | mxDone | tierFailure | mrstComplete | mashApply | rackWaitTimeout |
      rackSeal | rackComplete | blockingOpComplete | releaseComplete | wprWrite | wprDrainDone | wprReleaseDone | wprEnableDone | wpsErrClear |
      csoWrite | csvValidClear | snoopProbe | caskWayFailure | coreRetire | uncorrectableError | getS | getM | upg | regionRelease |
      lineWriteback | busSlotReceive | slotVoid | busDelivery | bwtStage | bwtCommit | groupReassignStart | groupReassignLock | readerRingLoss |
      meshLinkFence | leaseGrant | leaseRenewal | leaseExpiry | invalidationAck | homeWriteGrant | routingRefusal | sealedRefusal |
      retryAfterExpiry | remoteRequestError | memorySideOp | msealSeal | msealUnseal | sealComplete | thermalRefresh | vbusCorrectedError |
      vbusRepair | vbusForcedBoundary | vbusDeferTimeout | vbusRepairComplete | tokenCrossing | placementEvaluation | rotationCheck | starvation |
      drainTimeout | saveStopTimeout | saveComplete | flushComplete | workgroupDrained | gangRetire | lockHolderCandidate | launchRecord |
      haltRecord | queryRecord | saveRecord | loadRecord | ringbaseWrite | alloc | free | puts | health | reset | recoveryGo | attestationRequest |
      securityAlarm | alarmClassClear | hostInboundWrite | hostInboundRead | poisonedTlp | linkDown | heartbeatTimeout | slotWindowOpen |
      slotWindowClose | fabricMessageReceive | relayForward | collStepStart | reduceApply | collComplete | fabricBarrierArrival |
      fabricBarrierRelease | topoAmber | topoActivation | packageFenceDone | portLock | wavelengthLoss | powerReclaim | monitorPowerRequest |
      peerHeartbeatTimeout | registerWrite | slotStart | readerRingRetuned | spareWayCopyDone | faultQueueTailWrite | hostConfigurationRequest |
      hostLinkTrained =>
    exact .inr ⟨rfl, _, rfl⟩
  -- Instructions whose form of word depends on an operand.
  case trap _ a | leax _ _ _ _ a | srd _ a _ | swr _ _ a | redux _ _ _ a _ | sleep _ a | wld _ _ _ _ a | sendq _ _ a =>
    exact .inl ⟨by cases a <;> nofun, _, _, _, rfl⟩
  -- The other instructions have one form each.
  all_goals exact .inl ⟨nofun, _, _, _, rfl⟩

theorem exec_event_next {i : Instr} (h : toRaw i = none) (s : State) : ∃ t, exec i s = .next t := by
  obtain ⟨hi, -⟩ | ⟨-, ht⟩ := exec_instruction_or_event i s
  · exact absurd h hi
  · exact ht

/-- With a run in the issue slot every constructor answers a next state (R77). -/
theorem exec_next_of_run (i : Instr) {s : State} {w : Warp} (hw : s.getWarp s.cur = some w) (hr : headRun w ≠ 0) :
    ∃ t, exec i s = .next t := by
  obtain ⟨-, ready, prep, effect, he⟩ | ⟨-, ht⟩ := exec_instruction_or_event i s
  · rw [he]; exact issueP_next i s ready prep effect hw hr
  · exact ht

/-- Without one the only other answer is that there is no run. -/
theorem exec_next_or_noRun (i : Instr) (s : State) : (∃ t, exec i s = .next t) ∨ exec i s = .fault .noRun := by
  obtain ⟨-, ready, prep, effect, he⟩ | ⟨-, ht⟩ := exec_instruction_or_event i s
  · rw [he]
    obtain ⟨-, hf⟩ | ⟨t, -, ht⟩ | ⟨x, t, -, ht⟩ := issueP_cases i s ready prep effect
    · exact .inr hf
    · exact .inl ⟨t, ht⟩
    · exact .inl ⟨_, ht⟩
  · exact .inl ht

/-- Settles O57: an instruction stops only through `issueP`, which stops only for want of a run (log entry 5); an event always
happens, and one without its occasion leaves the state (log entry 2). -/
theorem execNeverStops : Obligations.ExecNeverStops :=
  ⟨fun i _ _ hw hr => exec_next_of_run i hw hr, fun _ s h => exec_event_next h s, exec_next_or_noRun⟩

end Sys2Proof.Machine
end

section
/-! What a fetch leaves alone. It can fill caches, draw free values and set A bits in page tables, but it changes no warp and not
whose turn it is. -/

namespace Sys2Proof.Machine

/-- The part of the state that decides who issues: the slot, the agenda and the turn, the clock, and the warps with the workgroups, gangs and
regions they run in. -/
def issueView (s : State) :
    Nat × List Turn × Side × DWord × Nat × List Warp × List Workgroup × List Gang × List Region :=
  (s.cur, s.agenda, s.side, s.clock, s.dev, s.warps, s.wgs, s.gangs, s.regions)

theorem cur_of_issueView {s t : State} (h : issueView t = issueView s) : t.cur = s.cur := congrArg (·.1) h

theorem warps_of_issueView {s t : State} (h : issueView t = issueView s) : t.warps = s.warps :=
  congrArg (·.2.2.2.2.2.1) h

theorem getWarp_of_issueView {s t : State} (h : issueView t = issueView s) (n : Nat) : t.getWarp n = s.getWarp n := by
  unfold State.getWarp; rw [warps_of_issueView h]

section
variable (s : State)

@[simp] theorem issueView_modDie (d : Nat) (f : Die → Die) : issueView (s.modDie d f) = issueView s := rfl
@[simp] theorem issueView_modCore (c : CoreId) (f : Core → Core) : issueView (s.modCore c f) = issueView s := rfl
@[simp] theorem issueView_drawBool : issueView s.drawBool.2 = issueView s := rfl
@[simp] theorem issueView_dropFar (w va n : Nat) : issueView (dropFar s w va n) = issueView s := rfl
@[simp] theorem issueView_fillHomeMap (c : CoreId) (asid va : Nat) (home : Nat × Nat) :
    issueView (fillHomeMap s c asid va home) = issueView s := rfl
@[simp] theorem issueView_fillICache (c : CoreId) (asid blk : Nat) (bs : List Byte) :
    issueView (fillICache s c asid blk bs) = issueView s := rfl

@[simp] theorem issueView_store (pa : Nat) (bs : List Byte) : issueView (s.store pa bs) = issueView s := by
  unfold State.store markWritten
  split <;> rfl

@[simp] theorem issueView_setA (a e : Nat) : issueView (setA s a e) = issueView s := by
  unfold setA
  split
  · exact issueView_store s a _
  · split <;> rfl

@[simp] theorem issueView_leafOf (d asid va : Nat) : issueView (leafOf s d asid va).2 = issueView s := by
  unfold leafOf
  dsimp only
  split
  · rfl
  · split
    · rfl
    · split <;> rfl

@[simp] theorem issueView_fillTlb (d asid va : Nat) (l : Leaf) : issueView (fillTlb s d asid va l) = issueView s := by
  cases l with
  | leaf e a big =>
    unfold fillTlb
    dsimp only
    split
    · rfl
    · rw [issueView_modDie]
      split
      · rfl
      · exact issueView_setA s a e
  | absent => rfl
  | bad => rfl

@[simp] theorem issueView_translate (d asid : Nat) (user : Bool) (want : Want) (va : DWord) :
    issueView (translate s d asid user want va).2 = issueView s := by
  unfold translate
  dsimp only
  split <;> simp

@[simp] theorem issueView_route (c : CoreId) (asid : Nat) (user : Bool) (want : Want) (va : DWord) :
    issueView (route s c asid user want va).2 = issueView s := by
  unfold route
  dsimp only
  split
  · rfl
  · split
    -- The home map has no entry: the core's own die translates, and perhaps the home's.
    · split
      · simp
      · split <;> simp
    -- It has one, in this package or in another.
    · split
      · split
        · split <;> simp
        · simp
      · split
        · rfl
        · rfl
        · rfl
        · split <;> rfl
        · rfl

@[simp] theorem issueView_fetchBlock (w : Warp) (pc : DWord) : issueView (fetchBlock s w pc).2 = issueView s := by
  unfold fetchBlock
  dsimp only
  split
  -- The instruction cache holds the block.
  · split
    · split <;> simp
    · rfl
  -- It is read where a translation finds it.
  · split
    · simp
    · simp
    · simp
    · simp
    · split
      · dsimp only; split <;> simp
      · simp
      · simp
      · simp
    · split
      · dsimp only; split <;> simp
      · simp

@[simp] theorem issueView_fetchAt (w : Warp) : issueView (fetchAt s w).2 = issueView s := by
  unfold fetchAt
  dsimp only
  split
  · rfl
  · split
    · rfl
    · split <;> simp

@[simp] theorem issueView_fetchNext : issueView (fetchNext s).2 = issueView s := by
  unfold fetchNext
  split
  · rfl
  · dsimp only
    split <;> simp

end

end Sys2Proof.Machine
end

section
/-! Whose turn it is: the eligible warps in the order of their last issues, the choice among them, and what the step that follows
answers. -/

namespace Sys2Proof.Machine

/-! ## The eligible warps of an issue unit -/

@[simp] theorem mem_insertStamp {w x : Warp} {l : List Warp} : x ∈ insertStamp w l ↔ x = w ∨ x ∈ l := by
  induction l with
  | nil => simp [insertStamp]
  | cons y ys ih =>
    unfold insertStamp
    split
    · simp
    · simp only [List.mem_cons, ih]; tauto

/-- The order of last issues. -/
abbrev ByStamp (l : List Warp) : Prop := l.Pairwise fun x y => x.stamp ≤ y.stamp

theorem byStamp_insertStamp (w : Warp) {l : List Warp} (h : ByStamp l) : ByStamp (insertStamp w l) := by
  induction l with
  | nil => simp [insertStamp]
  | cons y ys ih =>
    obtain ⟨hy, hys⟩ := List.pairwise_cons.1 h
    unfold insertStamp
    split
    case isTrue hlt =>
      refine List.pairwise_cons.2 ⟨fun z hz => ?_, h⟩
      obtain rfl | hz := List.mem_cons.1 hz
      · omega
      · have := hy z hz; omega
    case isFalse hge =>
      refine List.pairwise_cons.2 ⟨fun z hz => ?_, ih hys⟩
      obtain rfl | hz := mem_insertStamp.1 hz
      · omega
      · exact hy z hz

theorem mem_foldl_insertStamp {x : Warp} (l acc : List Warp) :
    x ∈ l.foldl (fun acc w => insertStamp w acc) acc ↔ x ∈ l ∨ x ∈ acc := by
  induction l generalizing acc with
  | nil => simp
  | cons y ys ih => rw [List.foldl_cons, ih, mem_insertStamp, List.mem_cons]; tauto

theorem byStamp_foldl_insertStamp (l : List Warp) {acc : List Warp} (h : ByStamp acc) :
    ByStamp (l.foldl (fun acc w => insertStamp w acc) acc) := by
  induction l generalizing acc with
  | nil => exact h
  | cons y ys ih => exact ih (byStamp_insertStamp y h)

theorem mem_eligibles {s : State} {access : Bool} {w : Warp} :
    w ∈ eligibles s access ↔ w ∈ s.warps ∧ eligible w = true ∧ (w.idx == 32) = access := by
  simp [eligibles, mem_foldl_insertStamp]

theorem byStamp_eligibles (s : State) (access : Bool) : ByStamp (eligibles s access) :=
  byStamp_foldl_insertStamp _ List.Pairwise.nil

/-! ## The choice among them (R174) -/

/-- The warp picked is an eligible one, and those that stand before it have nothing to do in their turn. -/
theorem pickWarp_split {s : State} {access : Bool} {w : Warp} (h : pickWarp s access = some w) :
    ∃ before after, eligibles s access = before ++ w :: after ∧ ∀ x ∈ before, turnMoves s x = false := by
  unfold pickWarp at h
  split at h
  case h_1 v hv =>
    obtain rfl := Option.some.inj h
    exact ⟨[], [], hv, by simp⟩
  case h_2 =>
    obtain hfind | ⟨-, hhead⟩ := Option.or_eq_some_iff.1 h
    · obtain ⟨-, before, after, he, hb⟩ := List.find?_eq_some_iff_append.1 hfind
      exact ⟨before, after, he, fun x hx => by simpa using hb x hx⟩
    · obtain ⟨after, he⟩ := List.head?_eq_some_iff.1 hhead
      exact ⟨[], after, he, by simp⟩

theorem pickWarp_mem {s : State} {access : Bool} {w : Warp} (h : pickWarp s access = some w) :
    w ∈ s.warps ∧ eligible w = true ∧ (w.idx == 32) = access := by
  obtain ⟨before, after, he, -⟩ := pickWarp_split h
  exact mem_eligibles.1 (by simp [he])

/-- An eligible warp of the unit that issued before the one picked stands before it in the order, and so has nothing to do. -/
theorem turnMoves_of_older {s : State} {access : Bool} {w x : Warp} (h : pickWarp s access = some w) (hx : x ∈ eligibles s access)
    (hlt : x.stamp < w.stamp) : turnMoves s x = false := by
  obtain ⟨before, after, he, hb⟩ := pickWarp_split h
  have hsorted := byStamp_eligibles s access
  rw [he] at hx hsorted
  obtain ⟨-, htail, -⟩ := List.pairwise_append.1 hsorted
  obtain hx | hx := List.mem_append.1 hx
  · exact hb x hx
  · obtain rfl | hx := List.mem_cons.1 hx
    · omega
    · have := (List.pairwise_cons.1 htail).1 x hx; omega

/-! ## What the step answers -/

theorem headRun_of_eligible {w : Warp} (h : eligible w = true) : headRun w ≠ 0 := by
  simp only [eligible, Bool.and_eq_true, bne_iff_ne] at h
  exact h.1

/-- A warp that stands among warps of different identities is the one its identity names. -/
theorem getWarp_of_mem {s : State} (hn : (s.warps.map (·.id)).Nodup) {w : Warp} (hw : w ∈ s.warps) : s.getWarp w.id = some w := by
  unfold State.getWarp
  cases hf : s.warps.find? fun x => x.id == w.id with
  | none => exact absurd (beq_self_eq_true w.id) (List.find?_eq_none.1 hf w hw)
  | some v =>
    have hid : v.id = w.id := by simpa using List.find?_some hf
    rw [List.inj_on_of_nodup_map hn (List.mem_of_find?_eq_some hf) hw hid]

/-- The turn of a warp that has a run answers a next state: the fetch leaves the run in the slot. -/
theorem runTurn_next {s : State} {n : Nat} {w : Warp} (hw : s.getWarp n = some w) (hr : headRun w ≠ 0) : ∃ t, runTurn s n = .next t := by
  have hv : issueView (issueTurn s n).2 = issueView { s with cur := n } := issueView_fetchNext _
  refine exec_next_of_run _ (w := w) ?_ hr
  rw [cur_of_issueView hv, getWarp_of_issueView hv]
  exact hw

/-- What comes next, if anything does, answers a next state. -/
def Goes (c : Option Out) : Prop := ∀ o, c = some o → ∃ t, o = .next t

theorem Goes.or {a b : Option Out} (ha : Goes a) (hb : Goes b) : Goes (a.or b) := by
  cases a with
  | none => exact hb
  | some o => exact ha

theorem goes_issueNext {s : State} (hn : (s.warps.map (·.id)).Nodup) (access : Bool) : Goes (issueNext s access) := by
  intro o h
  obtain ⟨w, hp, rfl⟩ := Option.map_eq_some_iff.1 h
  obtain ⟨hw, he, -⟩ := pickWarp_mem hp
  exact runTurn_next (s := { s with side := if access then .engine else .access }) (getWarp_of_mem hn hw) (headRun_of_eligible he)

theorem goes_eventNext (s : State) : Goes (eventNext s) := by
  intro o h
  obtain ⟨t, -, rfl⟩ := Option.map_eq_some_iff.1 h
  exact ⟨_, rfl⟩

/-- The machine's own choice answers a next state, whichever of the two issue units and the events goes first. -/
theorem goes_choose {s : State} (ha : s.agenda = []) (hn : (s.warps.map (·.id)).Nodup) : Goes (choose s) := by
  have hi := goes_issueNext hn
  have hev := goes_eventNext s
  unfold choose
  rw [ha]
  cases s.side with
  | issue => exact ((hi false).or (hi true)).or hev
  | access => exact ((hi true).or hev).or (hi false)
  | engine => exact (hev.or (hi false)).or (hi true)

theorem step_next {s : State} (ha : s.agenda = []) (hn : (s.warps.map (·.id)).Nodup) : ∃ t, step s = .next t := by
  unfold step
  cases hc : choose s with
  | none => exact ⟨_, rfl⟩
  | some o =>
    obtain ⟨t, rfl⟩ := goes_choose ha hn o hc
    exact ⟨_, rfl⟩

/-- Settles O58: the warp picked has a run that its fetch leaves in the slot, so its turn answers a next state, as an event does (the
turns are log entry 3's); and the warps before it in the order of last issues have nothing to do. -/
theorem stepAlwaysGoesOn : Obligations.StepAlwaysGoesOn := by
  refine ⟨fun s ha hn => step_next ha hn, fun s access w h => ?_⟩
  obtain ⟨hw, he, hi⟩ := pickWarp_mem h
  exact ⟨hw, he, hi, fun x hx hxe hxi hlt => turnMoves_of_older h (mem_eligibles.2 ⟨hx, hxe, hxi⟩) hlt⟩

end Sys2Proof.Machine
end

section
/-! The functions of the integer instructions: narrowing (R98), the bit functions bit by bit (R112, R113), and 32-bit arithmetic as
arithmetic on words. -/

namespace Sys2Proof.Machine

/-! ## Values and narrowing (R98) -/

theorem valInt_signed_toNat {n : Nat} (v : BitVec n) : valInt true n v.toNat = v.toInt := by
  have hlt := v.isLt
  cases n with
  | zero => simp [valInt, v.eq_nil]
  | succ n =>
    simp only [valInt, Nat.mod_eq_of_lt hlt, BitVec.toInt_eq_toNat_cond, Bool.true_and, decide_eq_true_eq, Nat.add_sub_cancel]
    rw [Nat.pow_succ] at *
    split <;> split <;> omega

theorem valInt_natural_toNat {n : Nat} (v : BitVec n) : valInt false n v.toNat = v.toNat := by
  simp [valInt, Nat.mod_eq_of_lt v.isLt]

theorem wrapInt_eq_toNat (n : Nat) (y : Int) : wrapInt n y = (BitVec.ofInt n y).toNat := (BitVec.toNat_ofInt y).symm

theorem wrapInt_cast (n : Nat) (y : Int) : (wrapInt n y : Int) = y % 2 ^ n := by
  have hpos : (0 : Int) < ((2 ^ n : Nat) : Int) := by positivity
  simpa [wrapInt] using Int.emod_nonneg y hpos.ne'

/-- A number in the range of a type is the value of its own narrowing. -/
theorem valInt_wrapInt {signed : Bool} {n : Nat} {y : Int} (hn : 0 < n) (hlo : intLo signed n ≤ y) (hhi : y ≤ intHi signed n) :
    valInt signed n (wrapInt n y) = y := by
  cases signed
  case true =>
    simp only [intLo, intHi, if_true] at hlo hhi
    rw [wrapInt_eq_toNat, valInt_signed_toNat]
    exact BitVec.toInt_ofInt_eq_self hn (by exact_mod_cast hlo) (by push_cast at hhi; omega)
  case false =>
    simp only [intLo, intHi, Bool.false_eq_true, if_false] at hlo hhi
    rw [wrapInt_eq_toNat, valInt_natural_toNat, ← wrapInt_eq_toNat, wrapInt_cast]
    exact Int.emod_eq_of_lt hlo (by push_cast at hhi; omega)

theorem intLo_le_intHi (signed : Bool) (n : Nat) : intLo signed n ≤ intHi signed n := by
  have h1 : 0 < 2 ^ n := by positivity
  have h2 : 0 < 2 ^ (n - 1) := by positivity
  cases signed <;> simp only [intLo, intHi, Bool.false_eq_true, if_false, if_true] <;> omega

theorem bits_pos (t : ITy) : 0 < ITy.bits t := by cases t <;> decide

/-- Fit without saturation reduces. -/
theorem fitT_wraps (t : ITy) (y : Int) : (fitT t false y : Int) = y % 2 ^ ITy.bits t := wrapInt_cast _ _

/-- Fit with saturation clamps. -/
theorem valT_fitT_sat (t : ITy) (y : Int) :
    valT t (fitT t true y) = max (intLo (ITy.signed t) (ITy.bits t)) (min (intHi (ITy.signed t) (ITy.bits t)) y) :=
  valInt_wrapInt (bits_pos t) (le_max_left _ _) (max_le (intLo_le_intHi _ _) (min_le_left _ _))

theorem fitWrapsOrClamps : Clause.FitWrapsOrClamps := by
  refine ⟨fun v => ⟨valInt_signed_toNat v, valInt_natural_toNat v⟩, fun v => ⟨valInt_signed_toNat v, valInt_natural_toNat v⟩,
    fitT_wraps, fun t y => ?_⟩
  rw [valT_fitT_sat]
  simp [intLo, intHi]

/-! ## Bits (R112) -/

theorem bitAt_eq_testBit (a i : Nat) : bitAt a i = a.testBit i := by
  rw [bitAt, Nat.testBit_eq_decide_div_mod_eq]; rfl

theorem bitsAt_one (a i : Nat) : bitsAt a i 1 = (a.testBit i).toNat := by
  rw [bitsAt, Nat.toNat_testBit, pow_one]

/-- The number put together of n bits, lowest first: the shape of `ternN` and `brevN`. -/
def bitSum (f : Nat → Bool) (n : Nat) : Nat := (List.range n).foldl (fun acc i => acc + (f i).toNat * 2 ^ i) 0

theorem bitSum_succ (f : Nat → Bool) (n : Nat) : bitSum f (n + 1) = 2 ^ n * (f n).toNat + bitSum f n := by
  simp [bitSum, List.range_succ, Nat.add_comm, Nat.mul_comm]

theorem bitSum_lt (f : Nat → Bool) (n : Nat) : bitSum f n < 2 ^ n := by
  induction n with
  | zero => simp [bitSum]
  | succ n ih =>
    have hb := (f n).toNat_le
    rw [bitSum_succ, Nat.pow_succ]
    nlinarith

theorem testBit_bitSum (f : Nat → Bool) {n i : Nat} (h : i < n) : (bitSum f n).testBit i = f i := by
  induction n with
  | zero => omega
  | succ n ih =>
    rw [bitSum_succ, Nat.testBit_two_pow_mul_add _ (bitSum_lt f n)]
    split
    case isTrue hi => exact ih hi
    case isFalse hi =>
      obtain rfl : i = n := by omega
      cases f i <;> simp

theorem ternN_eq_bitSum (n : Nat) (tbl : BitVec 8) (a b c : Nat) :
    ternN n tbl a b c = bitSum (fun i => tbl.getLsbD ((c.testBit i).toNat * 4 + (b.testBit i).toNat * 2 + (a.testBit i).toNat)) n := by
  simp only [ternN, bitSum, bitsAt_one]

theorem brevN_eq_bitSum (n a : Nat) : brevN n a = bitSum (fun i => a.testBit (n - 1 - i)) n := by
  simp only [brevN, bitSum, bitsAt_one]

/-! ## Counts of zeros (R112) -/

/-- How many of the indices below n pass in a row: those counted pass, and the next one does not. -/
theorem takeWhile_range_length {p : Nat → Bool} {n k : Nat} (hk : ((List.range n).takeWhile p).length = k) :
    k ≤ n ∧ (∀ i < k, p i = true) ∧ (k < n → p k = false) := by
  have hle : (List.range n).findIdx (fun i => !p i) ≤ n := by simpa using List.findIdx_le_length (xs := List.range n)
  rw [List.takeWhile_eq_take_findIdx_not, List.length_take, List.length_range, Nat.min_eq_left hle] at hk
  subst hk
  refine ⟨hle, fun i hi => ?_, fun hlt => ?_⟩
  · simpa using List.not_of_lt_findIdx hi
  · have hnext := List.findIdx_getElem (xs := List.range n) (p := fun i => !p i) (w := by simpa using hlt)
    rw [List.getElem_range] at hnext
    simpa using hnext

/-- CLZ counts clear bits down from the top of the word, and stops at a set one. -/
theorem clzN_spec (n a : Nat) :
    clzN n a ≤ n ∧ (∀ i < clzN n a, a.testBit (n - 1 - i) = false) ∧ (clzN n a < n → a.testBit (n - 1 - clzN n a) = true) := by
  obtain ⟨hle, hzero, hone⟩ := takeWhile_range_length (k := clzN n a) rfl
  exact ⟨hle, by simpa [bitAt_eq_testBit] using hzero, by simpa [bitAt_eq_testBit] using hone⟩

/-- CTZ counts clear bits up from bit 0, and stops at a set one. -/
theorem ctzN_spec (n a : Nat) :
    ctzN n a ≤ n ∧ (∀ i < ctzN n a, a.testBit i = false) ∧ (ctzN n a < n → a.testBit (ctzN n a) = true) := by
  obtain ⟨hle, hzero, hone⟩ := takeWhile_range_length (k := ctzN n a) rfl
  exact ⟨hle, by simpa [bitAt_eq_testBit] using hzero, by simpa [bitAt_eq_testBit] using hone⟩

/-- Above the zeros that CLZ counts stands the number's highest one. -/
theorem clzN_bounds {n a : Nat} (ha : a < 2 ^ n) :
    clzN n a ≤ n ∧ a < 2 ^ (n - clzN n a) ∧ (clzN n a < n → 2 ^ (n - 1 - clzN n a) ≤ a) := by
  obtain ⟨hle, hzero, hone⟩ := clzN_spec n a
  refine ⟨hle, Nat.lt_pow_two_of_testBit _ fun i hi => ?_, fun hlt => Nat.ge_two_pow_of_testBit (hone hlt)⟩
  by_cases hin : i < n
  · have hbit := hzero (n - 1 - i) (by omega)
    rwa [show n - 1 - (n - 1 - i) = i by omega] at hbit
  · exact Nat.testBit_lt_two_pow (ha.trans_le (Nat.pow_le_pow_right (by omega) (by omega)))

theorem ctzN_lt {n a : Nat} (ha : a < 2 ^ n) (h0 : a ≠ 0) : ctzN n a < n := by
  obtain ⟨hle, hzero, -⟩ := ctzN_spec n a
  obtain ⟨i, hi⟩ := Nat.exists_testBit_of_ne_zero h0
  by_contra hge
  have hin : i < n := (Nat.pow_lt_pow_iff_right (by omega)).1 ((Nat.ge_two_pow_of_testBit hi).trans_lt ha)
  simp [hzero i (by omega)] at hi

/-- The zeros that CTZ counts make the number a multiple of their power of two. -/
theorem mod_two_pow_ctzN (n a : Nat) : a % 2 ^ ctzN n a = 0 := by
  obtain ⟨-, hzero, -⟩ := ctzN_spec n a
  refine Nat.eq_of_testBit_eq fun i => ?_
  by_cases hi : i < ctzN n a
  · simp [hzero i hi]
  · simp [hi]

theorem clzN_zero (n : Nat) : clzN n 0 = n := by
  obtain ⟨hle, -, hone⟩ := clzN_spec n 0
  exact hle.antisymm (not_lt.1 fun hlt => by simpa using hone hlt)

theorem ctzN_zero (n : Nat) : ctzN n 0 = n := by
  obtain ⟨hle, -, hone⟩ := ctzN_spec n 0
  exact hle.antisymm (not_lt.1 fun hlt => by simpa using hone hlt)

/-! ## Fields (R113) -/

/-- A number with a field replaced: the bits above the field, the new field, and the bits below. -/
theorem setBitsAt_eq (x i k v : Nat) :
    setBitsAt x i k v = 2 ^ i * (2 ^ k * (x / 2 ^ i / 2 ^ k) + v % 2 ^ k) + x % 2 ^ i := by
  have hlow := Nat.mod_add_div x (2 ^ i)
  have hmid := Nat.mod_add_div (x / 2 ^ i) (2 ^ k)
  unfold setBitsAt bitsAt
  generalize x / 2 ^ i / 2 ^ k = hi at *
  generalize x / 2 ^ i % 2 ^ k = mid at *
  have hx : x = 2 ^ i * (2 ^ k * hi) + x % 2 ^ i + mid * 2 ^ i := by
    calc x = x % 2 ^ i + 2 ^ i * (mid + 2 ^ k * hi) := by rw [hmid, hlow]
      _ = _ := by ring
  generalize x % 2 ^ i = low at *
  rw [hx, Nat.add_sub_cancel]
  ring

theorem testBit_setBitsAt (x i k v j : Nat) :
    (setBitsAt x i k v).testBit j = if i ≤ j ∧ j < i + k then v.testBit (j - i) else x.testBit j := by
  have hpow (m : Nat) : 0 < 2 ^ m := by positivity
  rw [setBitsAt_eq, Nat.testBit_two_pow_mul_add _ (Nat.mod_lt _ (hpow i)), Nat.testBit_two_pow_mul_add _ (Nat.mod_lt _ (hpow k))]
  by_cases hlow : j < i
  · rw [if_pos hlow, if_neg (by omega), Nat.testBit_mod_two_pow]
    simp [hlow]
  · rw [if_neg hlow]
    by_cases hmid : j - i < k
    · rw [if_pos hmid, if_pos (by omega), Nat.testBit_mod_two_pow]
      simp [hmid]
    · rw [if_neg hmid, if_neg (by omega), Nat.testBit_div_two_pow, Nat.testBit_div_two_pow]
      congr 1; omega

theorem testBit_bfiN {n i : Nat} (a b desc : Nat) (hi : i < n) : (bfiN n a b desc).testBit i =
    if desc % 256 ≤ i ∧ i < desc % 256 + desc / 256 % 256 then a.testBit (i - desc % 256) else b.testBit i := by
  unfold bfiN
  generalize desc % 256 = pos
  generalize desc / 256 % 256 = len
  simp only [Bool.or_eq_true, decide_eq_true_eq]
  split
  case isTrue hnone => rw [if_neg (by omega)]
  case isFalse hsome =>
    rw [testBit_setBitsAt]
    congr 1
    simp only [eq_iff_iff]; omega

theorem bitFunctionsByBit : Clause.BitFunctionsByBit := by
  refine ⟨fun n tbl a b c i hi => ?_, fun n a i hi => ?_, fun n a ha => clzN_bounds ha, fun n a ha h0 => ?_,
    fun n => ⟨clzN_zero n, ctzN_zero n⟩, fun n a b desc i _ hi => testBit_bfiN a b desc hi⟩
  · rw [ternN_eq_bitSum, testBit_bitSum _ hi]
  · rw [brevN_eq_bitSum, testBit_bitSum _ hi]
  · obtain ⟨-, -, hone⟩ := ctzN_spec n a
    have hlt := ctzN_lt ha h0
    exact ⟨hlt, mod_two_pow_ctzN n a, hone hlt⟩

/-! ## 32-bit arithmetic on words (R98, R108) -/

theorem ofNat_fitT_word {t : ITy} (ht : t = .s32 ∨ t = .n32) (y : Int) : BitVec.ofNat 32 (fitT t false y) = BitVec.ofInt 32 y := by
  have hfit : fitT t false y = wrapInt 32 y := by rcases ht with rfl | rfl <;> rfl
  rw [hfit, wrapInt_eq_toNat, BitVec.ofNat_toNat, BitVec.setWidth_eq]

/-- A word is determined by its value modulo 2^32, whatever the sign of the type. -/
theorem ofInt_valT_word {t : ITy} (ht : t = .s32 ∨ t = .n32) (v : Word) : BitVec.ofInt 32 (valT t v.toNat) = v := by
  obtain rfl | rfl := ht
  · rw [show valT .s32 v.toNat = v.toInt from valInt_signed_toNat v, BitVec.ofInt_toInt]
  · rw [show valT .n32 v.toNat = v.toNat from valInt_natural_toNat v, BitVec.ofInt_natCast, BitVec.ofNat_toNat, BitVec.setWidth_eq]

/-- Source B as a word: a register, or the immediate as written (R54). -/
def wordB (w : Warp) (b : SrcB) (l : Nat) : Word :=
  match b with
  | .reg r => rdV w r l
  | .imm v => v

theorem file_of_word {t : ITy} (ht : t = .s32 ∨ t = .n32) : t.file = .v := by rcases ht with rfl | rfl <;> rfl

theorem readReg_v (x : Issue) (r : Reg) (l : Nat) : readReg x .v r l = (rdV x.w r l).toNat := rfl

theorem srcBInt_word {t : ITy} (ht : t = .s32 ∨ t = .n32) (x : Issue) (b : SrcB) (l : Nat) :
    srcBInt x t b l = (wordB x.w b l).toNat := by
  cases b with
  | reg r => rw [srcBInt, file_of_word ht, readReg_v]; rfl
  | imm v => rcases ht with rfl | rfl <;> rfl

/-- What LanesWritten says of a participant's own vector destination. -/
theorem rdV_of_lanesWritten {d : Reg} {e : LaneSet} {val : Nat → Nat} {w w' : Warp} (h : LanesWritten .v d e val w w') {l : Nat}
    (hl : l < 32) (he : e.getLsbD l = true) : rdV w' d l = if d = 0 then 0 else BitVec.ofNat 32 (val l) := by
  obtain ⟨hv, -⟩ := h
  by_cases hd : d = 0
  · rw [if_pos hd, rdV, if_pos hd]
  · rw [if_neg hd, hv d l hl, he, if_pos (by simpa using hd)]

/-- A 32-bit instruction that narrows without saturation leaves in each participant what the operation on words gives, for every
operation that respects reduction modulo 2^32. -/
theorem wordResult_of_execLanes {i : Instr} {t : ITy} {d a : Reg} {b : SrcB} {op : Int → Int → Int} {opW : Word → Word → Word}
    (he : ∀ s, exec i s = execLanes i s t.file d fun x l => fitT t false (op (valT t (readReg x t.file a l)) (valT t (srcBInt x t b l))))
    (hop : ∀ y z, BitVec.ofInt 32 (op y z) = opW (BitVec.ofInt 32 y) (BitVec.ofInt 32 z)) (ht : t = .s32 ∨ t = .n32)
    {s : State} {w : Warp} {x : Issue} {s0 : State} (h : Issues i s w x s0) :
    ∃ s' w', exec i s = .next s' ∧ s'.getWarp w.id = some w' ∧
      ∀ l, l < 32 → x.e.getLsbD l = true → rdV w' d l = if d = 0 then 0 else opW (rdV w a l) (wordB w b l) := by
  rw [file_of_word ht] at he
  have hres : LaneResult i .v d _ := laneResult_of_execLanes he (.inl rfl) nofun
  obtain ⟨s', w', hs', hw', hwritten, -⟩ := hres s w x s0 h
  refine ⟨s', w', hs', hw', fun l hl hlane => ?_⟩
  rw [rdV_of_lanesWritten hwritten hl hlane, ofNat_fitT_word ht, hop, readReg_v, srcBInt_word ht, ofInt_valT_word ht,
    ofInt_valT_word ht, (issues_warp h).1]

theorem ofInt_sub_word (y z : Int) : BitVec.ofInt 32 (y - z) = BitVec.ofInt 32 y - BitVec.ofInt 32 z := by
  rw [Int.sub_eq_add_neg, BitVec.ofInt_add, BitVec.ofInt_neg, BitVec.sub_eq_add_neg]

theorem wordArithmeticWraps : Clause.WordArithmeticWraps := fun _ _ _ _ _ _ _ _ _ ht =>
  ⟨wordResult_of_execLanes (op := (· + ·)) (fun _ => rfl) BitVec.ofInt_add ht,
    wordResult_of_execLanes (op := (· - ·)) (fun _ => rfl) ofInt_sub_word ht,
    wordResult_of_execLanes (op := (· * ·)) (fun _ => rfl) BitVec.ofInt_mul ht⟩

/-- Settles O3: narrowing is reduction or clamping, the bit functions are described bit by bit through the sums and counts they are,
and 32-bit arithmetic respects reduction modulo 2^32, so it is the arithmetic of words. -/
theorem integerFunctions : Obligations.IntegerFunctions := ⟨fitWrapsOrClamps, bitFunctionsByBit, wordArithmeticWraps⟩

end Sys2Proof.Machine
end

section
/-! The word of an instruction and back (R43 to R61): every instruction is read back off its own fields, a word that decodes is the
word of its fields, and an opcode that R60 reserves has no entry in the map. -/

namespace Sys2Proof

/-! ## From the instruction to its word and back -/

/-- The fields of every instruction have a shape that a word can hold, and the opcode map reads the instruction back off them. -/
theorem Laws.Codec.statement (i : Instr) : Codec.Statement i := by
  cases i with
  | nop => apply Codec.nop | bra => apply Codec.bra | brx => apply Codec.brx | call => apply Codec.call | callx => apply Codec.callx
  | ret => apply Codec.ret | exit => apply Codec.exit | join => apply Codec.join | leave => apply Codec.leave
  | waitm => apply Codec.waitm | movmMaskFromW => apply Codec.movmMaskFromW | movmWFromMask => apply Codec.movmWFromMask
  | movmMaskFromMask => apply Codec.movmMaskFromMask | movmMaskImm => apply Codec.movmMaskImm | rgn => apply Codec.rgn
  | trap => apply Codec.trap | wcall => apply Codec.wcall | rttRetry => apply Codec.rttRetry | rttSkip => apply Codec.rttSkip
  | rttSub => apply Codec.rttSub | rttRetryRgn => apply Codec.rttRetryRgn | yield => apply Codec.yield | iadd => apply Codec.iadd
  | isum => apply Codec.isum | isub => apply Codec.isub | imul => apply Codec.imul | imulhi => apply Codec.imulhi
  | imad => apply Codec.imad | imadw => apply Codec.imadw | imin => apply Codec.imin | imax => apply Codec.imax
  | iabs => apply Codec.iabs | isad => apply Codec.isad | shl => apply Codec.shl | shr => apply Codec.shr | sar => apply Codec.sar
  | rotL => apply Codec.rotL | rotR => apply Codec.rotR | funl => apply Codec.funl | and => apply Codec.and | or => apply Codec.or
  | xor => apply Codec.xor | not => apply Codec.not | tern => apply Codec.tern | popc => apply Codec.popc | clz => apply Codec.clz
  | ctz => apply Codec.ctz | brev => apply Codec.brev | bfe => apply Codec.bfe | bfi => apply Codec.bfi | bsel => apply Codec.bsel
  | icmp => apply Codec.icmp | iset => apply Codec.iset | sel => apply Codec.sel | plop => apply Codec.plop
  | pmovPack => apply Codec.pmovPack | pmovUnpack => apply Codec.pmovUnpack | pmovCopy => apply Codec.pmovCopy
  | pmovNot => apply Codec.pmovNot | mov => apply Codec.mov | movPair => apply Codec.movPair | movi => apply Codec.movi
  | moviS64 => apply Codec.moviS64 | moviN64 => apply Codec.moviN64 | movw => apply Codec.movw | lea => apply Codec.lea
  | leax => apply Codec.leax | srd => apply Codec.srd | swr => apply Codec.swr | xlane => apply Codec.xlane
  | pollAll => apply Codec.pollAll | pollAny => apply Codec.pollAny | pollSame => apply Codec.pollSame | qmaskW => apply Codec.qmaskW
  | qmaskV => apply Codec.qmaskV | peersSet => apply Codec.peersSet | peersUni => apply Codec.peersUni
  | peersLead => apply Codec.peersLead | redux => apply Codec.redux | elect => apply Codec.elect | wmovWFromV => apply Codec.wmovWFromV
  | wmovVFromW => apply Codec.wmovVFromW | wmovWFromW => apply Codec.wmovWFromW | wmovWImm => apply Codec.wmovWImm
  | wop => apply Codec.wop | fadd => apply Codec.fadd | fsub => apply Codec.fsub | fmul => apply Codec.fmul | ffma => apply Codec.ffma
  | fmin => apply Codec.fmin | fmax => apply Codec.fmax | fcmp => apply Codec.fcmp | fset => apply Codec.fset
  | fclass => apply Codec.fclass | fclassTest => apply Codec.fclassTest | frnd => apply Codec.frnd | frcp => apply Codec.frcp
  | frsq => apply Codec.frsq | fsqrt => apply Codec.fsqrt | fex2 => apply Codec.fex2 | flg2 => apply Codec.flg2
  | fsin => apply Codec.fsin | fcos => apply Codec.fcos | ftanh => apply Codec.ftanh | fscale => apply Codec.fscale
  | fgetexp => apply Codec.fgetexp | hpadd => apply Codec.hpadd | hpmul => apply Codec.hpmul | hpfma => apply Codec.hpfma
  | hpmnxMin => apply Codec.hpmnxMin | hpmnxMax => apply Codec.hpmnxMax | dot4Float => apply Codec.dot4Float
  | dot4S8 => apply Codec.dot4S8 | dot2 => apply Codec.dot2 | cvt => apply Codec.cvt | cvtp => apply Codec.cvtp
  | cvtx => apply Codec.cvtx | lmul => apply Codec.lmul | lmulX4 => apply Codec.lmulX4 | lcvtWiden => apply Codec.lcvtWiden
  | lcvtNarrow => apply Codec.lcvtNarrow | ld => apply Codec.ld | st => apply Codec.st | lds => apply Codec.lds
  | sts => apply Codec.sts | ldc => apply Codec.ldc | ldw => apply Codec.ldw | stw => apply Codec.stw | ldq => apply Codec.ldq
  | ldqScratch => apply Codec.ldqScratch | popq => apply Codec.popq | atom => apply Codec.atom | atomf => apply Codec.atomf
  | red => apply Codec.red | redf => apply Codec.redf | acq => apply Codec.acq | rel => apply Codec.rel | waitc => apply Codec.waitc
  | cctlIvall => apply Codec.cctlIvall | cctlWbl => apply Codec.cctlWbl | cctlInvl => apply Codec.cctlInvl
  | cctlKwb => apply Codec.cctlKwb | cctlKinv => apply Codec.cctlKinv | pref => apply Codec.pref | bara => apply Codec.bara
  | barw => apply Codec.barw | bars => apply Codec.bars | barinit => apply Codec.barinit | barq => apply Codec.barq
  | marv => apply Codec.marv | mwait => apply Codec.mwait | sleep => apply Codec.sleep | sleept => apply Codec.sleept
  | watch => apply Codec.watch | waitw => apply Codec.waitw | cpya => apply Codec.cpya | cpyw => apply Codec.cpyw
  | cpyq => apply Codec.cpyq | gath => apply Codec.gath | scat => apply Codec.scat | wld => apply Codec.wld
  | wswap => apply Codec.wswap | mms => apply Codec.mms | mqry => apply Codec.mqry | mfold => apply Codec.mfold
  | mfoldWr => apply Codec.mfoldWr | mrst => apply Codec.mrst | aopen => apply Codec.aopen | aopenZ => apply Codec.aopenZ
  | aadd => apply Codec.aadd | acnt => apply Codec.acnt | rack => apply Codec.rack | rackW => apply Codec.rackW
  | rackX => apply Codec.rackX | aqryReg => apply Codec.aqryReg | aqryLine => apply Codec.aqryLine | launch => apply Codec.launch
  | tsig => apply Codec.tsig | ctxsv => apply Codec.ctxsv | ctxld => apply Codec.ctxld | harv => apply Codec.harv
  | harvR => apply Codec.harvR | tlbiPg => apply Codec.tlbiPg | tlbiAsid => apply Codec.tlbiAsid | tlbiAll => apply Codec.tlbiAll
  | halt => apply Codec.halt | coll => apply Codec.coll | collResume => apply Codec.collResume | sendq => apply Codec.sendq
  | slotq => apply Codec.slotq | slotqCur => apply Codec.slotqCur | topo => apply Codec.topo | rtsw => apply Codec.rtsw
  | pfence => apply Codec.pfence | pfenceDev => apply Codec.pfenceDev | linkq => apply Codec.linkq
  -- The events have no word.
  | _ => exact Codec.of_none rfl

theorem shaped_of_toRaw {i : Instr} {r : Raw} (h : toRaw i = some r) : r.shaped = true := (Laws.Codec.statement i r h).1

theorem fromRaw_of_toRaw {i : Instr} {r : Raw} (h : toRaw i = some r) : fromRaw r = some i := (Laws.Codec.statement i r h).2

/-- The decoder answers a well-formed instruction exactly on the fields that the encoder gives it. -/
theorem decodeRaw_eq_some_iff {i : Instr} {r : Raw} : decodeRaw r = some i ↔ toRaw i = some r ∧ i.wf = true := by
  unfold decodeRaw
  constructor
  · intro h
    split at h
    case h_1 j _ =>
      split at h
      case isTrue hj =>
        obtain rfl := Option.some.inj h
        simpa using hj
      case isFalse => cases h
    case h_2 => cases h
  · rintro ⟨hr, hw⟩
    simp [fromRaw_of_toRaw hr, hr, hw]

theorem encode_of_toRaw {i : Instr} {r : Raw} (h : toRaw i = some r) :
    encode i = some (natToBytes (lenBytes r.len) (pack r).toNat) := by
  rw [encode, h]; rfl

end Sys2Proof

namespace Sys2Proof.Machine

/-- Settles O49: the encoder's fields have the shape of a word, so they are read back from its bytes (`decodeBytes_word`), and the opcode
map gives the instruction back from them. -/
theorem decodeEncodeAgree : Obligations.DecodeEncodeAgree := by
  intro i bs rest hwf he
  obtain ⟨r, hr, rfl⟩ := Option.map_eq_some_iff.1 he
  rw [decodeBytes_word r (shaped_of_toRaw hr) rest, decodeRaw_eq_some_iff.2 ⟨hr, hwf⟩]

end Sys2Proof.Machine

namespace Sys2Proof

/-! ## From the word to the instruction and back -/

/-- A word decodes to an instruction exactly when it is no pad, has a length, and its fields are an instruction's (R44, R58). -/
theorem decode_eq_instr_iff {v : BitVec 128} {i : Instr} :
    decode v = .instr i ↔
      v.extractLsb' 0 32 ≠ 0xFFFFFFFF#32 ∧ v.extractLsb' 0 2 ≠ 3#2 ∧ toRaw i = some (unpack v) ∧ i.wf = true := by
  rw [← decodeRaw_eq_some_iff]
  unfold decode
  split
  case isTrue h => simp [h]
  case isFalse h =>
    split
    case isTrue h3 => simp [h3]
    case isFalse h3 =>
      cases hd : decodeRaw (unpack v) <;> simp [h, h3]

/-- A word is a pad exactly when its low 32 bits are ones (R44). -/
theorem decode_eq_pad_iff {v : BitVec 128} : decode v = .pad ↔ v.extractLsb' 0 32 = 0xFFFFFFFF#32 := by
  unfold decode
  split
  case isTrue h => simp [h]
  case isFalse h =>
    split
    · simp [h]
    · cases decodeRaw (unpack v) <;> simp [h]

theorem decode_eq_badLength {v : BitVec 128} (hp : v.extractLsb' 0 32 ≠ 0xFFFFFFFF#32) (h3 : v.extractLsb' 0 2 = 3#2) :
    decode v = .badLength := by
  unfold decode
  rw [if_neg hp, if_pos h3]

/-- The length code stands in the low 32 bits, so a word with a length is no pad. -/
theorem not_pad_of_length {v : BitVec 128} (h3 : v.extractLsb' 0 2 ≠ 3#2) : v.extractLsb' 0 32 ≠ 0xFFFFFFFF#32 := by
  intro hp
  apply h3
  have h : v.extractLsb' 0 2 = (v.extractLsb' 0 32).extractLsb' 0 2 := by
    apply BitVec.eq_of_getLsbD_eq
    intro i hi
    simp [hi]
  rw [h, hp]; rfl

theorem decode_eq_illegal {v : BitVec 128} (h3 : v.extractLsb' 0 2 ≠ 3#2) (hr : fromRaw (unpack v) = none) : decode v = .illegal := by
  unfold decode
  rw [if_neg (not_pad_of_length h3), if_neg h3]
  simp [decodeRaw, hr]

@[simp] theorem unpack_len (v : BitVec 128) : (unpack v).len = v.extractLsb' 0 2 := rfl
@[simp] theorem unpack_op (v : BitVec 128) : (unpack v).op = v.extractLsb' 3 8 := rfl

theorem ofBool_getLsbD (v : BitVec 128) (k : Nat) : BitVec.ofBool (v.getLsbD k) = v.extractLsb' k 1 := by
  apply BitVec.eq_of_getLsbD_eq
  intro i hi
  obtain rfl : i = 0 := by omega
  simp

theorem length_code_cases (c : BitVec 2) : c = 0#2 ∨ c = 1#2 ∨ c = 2#2 ∨ c = 3#2 := by
  revert c; decide

/-- A word with a bit at 64 + k is a 96-bit word or a 128-bit word. -/
theorem form_of_high_bit {c : BitVec 2} {k : Nat} (h : 64 + k < 8 * lenBytes c) : c = 1#2 ∧ k < 32 ∨ c = 2#2 ∧ k < 64 := by
  obtain rfl | rfl | rfl | rfl := length_code_cases c
  · change 64 + k < 64 at h; omega
  · change 64 + k < 96 at h; exact .inl ⟨rfl, by omega⟩
  · change 64 + k < 128 at h; exact .inr ⟨rfl, by omega⟩
  · change 64 + k < 0 at h; omega

/-- The low fields of a word are its low 64 bits (R47). -/
theorem low_unpack (v : BitVec 128) : (unpack v).low = v.extractLsb' 0 64 := by
  simp only [Raw.low, unpack, ofBool_getLsbD, BitVec.extractLsb'_append_extractLsb'_eq_extractLsb']

/-- The fields of form X above an immediate are the 32 bits from 64 (R53). -/
theorem fieldsX_eq (v : BitVec 128) (x : Word) :
    x ++ v.extractLsb' 80 16 ++ v.extractLsb' 77 3 ++ v.extractLsb' 75 2 ++ v.extractLsb' 64 11 = x ++ v.extractLsb' 64 32 := by
  have h : v.extractLsb' 80 16 ++ v.extractLsb' 77 3 ++ v.extractLsb' 75 2 ++ v.extractLsb' 64 11 = v.extractLsb' 64 32 := by
    simp only [BitVec.extractLsb'_append_extractLsb'_eq_extractLsb']
  rw [← h]
  apply BitVec.eq_of_getLsbD_eq
  intro i hi
  simp only [BitVec.getLsbD_append]
  grind

/-- The high fields of a word are the bits from 64 up to its length: an immediate in form I, those of form X, or all 64 (R53, R54, R56). -/
theorem getLsbD_high_unpack (v : BitVec 128) {k : Nat} (h : 64 + k < 8 * lenBytes (v.extractLsb' 0 2)) :
    (unpack v).high.getLsbD k = v.getLsbD (64 + k) := by
  obtain ⟨h1, hk⟩ | ⟨h2, hk⟩ := form_of_high_bit h
  · cases h9 : v[63] with
    | true =>
      have hI : (unpack v).high = (v.extractLsb' 64 32).setWidth 64 := by simp [Raw.high, unpack, h1, h9]
      rw [hI]; simp [hk, show k < 64 by omega]
    | false =>
      have hX : (unpack v).high = 0#32 ++ v.extractLsb' 64 32 := by
        rw [← fieldsX_eq]; simp [Raw.high, unpack, h1, h9]
      rw [hX, BitVec.getLsbD_append, if_pos hk]; simp [hk]
  · have hX : (unpack v).high = v.extractLsb' 64 64 := by
      by_cases hw : v.extractLsb' 3 8 = 0x33#8
      · simp [Raw.high, unpack, h2, hw]
      · have h : v.extractLsb' 96 32 ++ v.extractLsb' 64 32 = v.extractLsb' 64 64 := by
          simp only [BitVec.extractLsb'_append_extractLsb'_eq_extractLsb']
        rw [← h, ← fieldsX_eq]; simp [Raw.high, unpack, h2, hw]
    rw [hX]; simp [hk]

/-- The word of the fields of a word is the word itself, below its length. -/
theorem getLsbD_pack_unpack (v : BitVec 128) {k : Nat} (h : k < 8 * lenBytes (v.extractLsb' 0 2)) :
    (pack (unpack v)).getLsbD k = v.getLsbD k := by
  rw [pack, BitVec.getLsbD_append]
  split
  case isTrue hk => rw [low_unpack]; simp [hk]
  case isFalse hk =>
    rw [getLsbD_high_unpack v (by omega), Nat.add_sub_cancel' (by omega)]

theorem toNat_pack_unpack (v : BitVec 128) :
    (pack (unpack v)).toNat % 2 ^ (8 * lenBytes (v.extractLsb' 0 2)) = v.toNat % 2 ^ (8 * lenBytes (v.extractLsb' 0 2)) := by
  apply Nat.eq_of_testBit_eq
  intro k
  rw [Nat.testBit_mod_two_pow, Nat.testBit_mod_two_pow]
  by_cases h : k < 8 * lenBytes (v.extractLsb' 0 2)
  · have := getLsbD_pack_unpack v h
    simp only [BitVec.getLsbD] at this
    simp [this]
  · simp [h]

end Sys2Proof

namespace Sys2Proof.Machine

/-- Settles O50: a word that decodes has the fields of its instruction, and packing the fields of a word gives its bits up to its length. -/
theorem decodedWordIsExact : Obligations.DecodedWordIsExact := by
  intro v i h
  obtain ⟨-, -, hr, hw⟩ := decode_eq_instr_iff.1 h
  refine ⟨hw, hr, _, encode_of_toRaw hr, ?_⟩
  rw [bytesToNat_natToBytes, natToBytes_length, unpack_len, ← toNat_pack_unpack, Nat.pow_mul]

end Sys2Proof.Machine
end

section
/-! What stands at a counter (R44, R46, R61), and the words that the manual writes out. -/

namespace Sys2Proof.Machine

/-- What decodes at a counter, from what its 128 bits decode to: a trap takes the place of a word that leaves its block or has no meaning. -/
theorem decodeAt_eq (pc : DWord) (bs : List Byte) :
    decodeAt pc bs =
      let d := (codeAt pc bs).extractLsb' 19 11
      let len := lenBytes ((codeAt pc bs).extractLsb' 0 2)
      match decode (codeAt pc bs) with
      | .pad => .pad
      | .badLength => .trap 0x02 0 d 0
      | .illegal => if 32 < pc.toNat % 32 + len then .trap 0x03 0 d len else .trap 0x01 0 d len
      | .instr i => if 32 < pc.toNat % 32 + len then .trap 0x03 0 d len else .instr i := by
  unfold decodeAt
  dsimp only
  cases decode (codeAt pc bs) <;> rfl

theorem decodeAt_eq_pad_iff {pc : DWord} {bs : List Byte} :
    decodeAt pc bs = .pad ↔ (codeAt pc bs).extractLsb' 0 32 = 0xFFFFFFFF#32 := by
  rw [← decode_eq_pad_iff, decodeAt_eq]
  cases decode (codeAt pc bs) with
  | pad => simp
  | badLength => simp
  | illegal => dsimp only; split <;> simp
  | instr i => dsimp only; split <;> simp

theorem decodeAt_eq_instr_iff {pc : DWord} {bs : List Byte} {i : Instr} :
    decodeAt pc bs = .instr i ↔
      decode (codeAt pc bs) = .instr i ∧ pc.toNat % 32 + lenBytes ((codeAt pc bs).extractLsb' 0 2) ≤ 32 := by
  rw [decodeAt_eq]
  cases decode (codeAt pc bs) with
  | pad => simp
  | badLength => simp
  | illegal => dsimp only; split <;> simp
  | instr j =>
    dsimp only
    split
    · simp; omega
    · simp; omega

/-- The bytes of an instruction that decodes are as many as the length code of its word says (R47). -/
theorem encode_length_of_decode {v : BitVec 128} {i : Instr} (h : decode v = .instr i) :
    ∃ e, encode i = some e ∧ e.length = lenBytes (v.extractLsb' 0 2) := by
  obtain ⟨-, -, hr, -⟩ := decode_eq_instr_iff.1 h
  exact ⟨_, encode_of_toRaw hr, natToBytes_length _ _⟩

/-- Settles O52: the order of R44's table is the order of the decoder's tests, and an instruction has as many bytes as its length code
says. The length 0 of ILLEGAL_LENGTH is log entry 79's. -/
theorem wordLengths : Obligations.WordLengths := by
  refine ⟨fun pc bs hp => decodeAt_eq_pad_iff.2 hp, fun pc bs h3 hp => ?_, fun pc bs i h => ?_, fun pc bs h => decodeAt_eq_pad_iff.1 h⟩
  · rw [decodeAt_eq, decode_eq_badLength hp h3]
  · obtain ⟨hd, -⟩ := decodeAt_eq_instr_iff.1 h
    obtain ⟨-, h3, -, -⟩ := decode_eq_instr_iff.1 hd
    obtain ⟨e, he, hlen⟩ := encode_length_of_decode hd
    exact ⟨e, he, fun hc => by rw [hlen, hc]; rfl, fun hc => by rw [hlen, hc]; rfl, fun hc => by rw [hlen, hc]; rfl, h3⟩

/-- Settles O48: each word and each list of bytes is decoded. -/
theorem specWordsDecode : Obligations.SpecWordsDecode := by
  unfold Obligations.SpecWordsDecode
  decide +kernel

end Sys2Proof.Machine
end

section
/-! Steps that leave everything but the counters of the run: a fetch pad (R45), and an instruction that no lane executes (R48). -/

namespace Sys2Proof.Machine

/-! ## Fetch pads (R45) -/

/-- The warp in the issue slot is the one that its identity names. -/
theorem getWarp_of_slot {s : State} {w : Warp} (hw : s.getWarp s.cur = some w) : s.getWarp w.id = some w := by
  have hid : w.id = s.cur := by simpa using List.find?_some hw
  rw [hid]; exact hw

/-- A warp with a run that nothing holds back can fetch. -/
theorem run_goes {w : Warp} (hr : headRun w ≠ 0) (hb : w.blocked = false) : ¬ (headRun w == 0 || w.blocked) = true := by
  rwa [Bool.or_eq_true, beq_iff_eq, hb, or_iff_left (by decide)]

theorem execFetchPad_of_pad {s s1 : State} {w : Warp} (hw : s.getWarp s.cur = some w) (hr : headRun w ≠ 0) (hb : w.blocked = false)
    (hf : fetchAt s w = (.pad, s1)) :
    execFetchPad s = .next (s1.modWarp w.id fun x => x.modLanes (headRun w) fun _ y => { y with pc := padTarget y.pc }) := by
  simp only [execFetchPad, hw, if_neg (run_goes hr hb), hf, happens]

/-- Settles O42: the event changes the lanes of the run, and in them their counters. -/
theorem fetchPads : Obligations.FetchPads := by
  intro s w s1 hw hr hb hf h1
  have hself := getWarp_modWarp_self s1 w.id (fun x => x.modLanes (headRun w) fun _ y => { y with pc := padTarget y.pc }) fun _ => rfl
  rw [h1] at hself
  refine ⟨_, _, execFetchPad_of_pad hw hr hb hf, hself, fun l => ?_, rfl, rfl, fun k hk => getWarp_modWarp_ne _ _ (fun _ => rfl) hk⟩
  · rw [lane_modLanes]
    by_cases hl : (headRun w).getLsbD l = true
    · rw [if_pos ⟨(lane_of_run w hl).1, hl⟩, if_pos hl]; rfl
    · rw [if_neg fun h => hl h.2, if_neg hl]

/-! ## An instruction that no lane executes (R48) -/

/-- The checks of R58 stand before the guard; with no participant nothing after it waits or pops. -/
theorem form_of_no_participant {i : Instr} {s : State} {w : Warp} (h : Ready i s w) (he : (mkIssue i w).e = 0)
    (ready : Issue → State → Bool) (prep : Issue → State → State) :
    form i s ready prep = .go (mkIssue i w) (begin_ (mkIssue i w) s) := by
  obtain ⟨hw, hr, hp, hst, hwc, hca, hd⟩ := h
  have hb : w.blocked = false := by simp [Warp.blocked, hp, hst, hwc]
  have hd' : decodeCause s w i (mkIssue i w).r = none := hd
  have hr' : ¬ (headRun w == 0) = true := by rwa [beq_iff_eq]
  have he' : ((mkIssue i w).e == 0) = true := by rw [he]; rfl
  simp only [form, hw, if_neg hr', hb, hca, hd', if_pos he', Bool.false_eq_true, if_false]

theorem issueP_of_no_participant {i : Instr} {s : State} {w : Warp} (h : Ready i s w) (he : (mkIssue i w).e = 0)
    (ready : Issue → State → Bool) (prep : Issue → State → State) (effect : Issue → State → State) :
    issueP i s ready prep effect = .next (park (mkIssue i w) (begin_ (mkIssue i w) s)) := by
  simp [issueP, form_of_no_participant h he, he]

/-- An instruction that begins and parks keeps everything outside its warp but the counts of R421. -/
theorem kept_park_begin (x : Issue) (s : State) : Kept s (park x (begin_ x s)) x.w.id := by
  have hp := park_state x (begin_ x s)
  have hb := begin_state x s
  have hwgs : (park x (begin_ x s)).wgs = (begin_ x s).wgs := by rw [hp]
  have hgangs : (park x (begin_ x s)).gangs = (begin_ x s).gangs := by rw [hp]
  refine ⟨?_, fun k hk => ?_, fun k => ?_, fun k => ?_, fun a => ?_⟩
  · rw [hp, hb]
  · rw [park_getWarp_ne x _ hk, begin_getWarp_ne x s hk]
  · have := begin_getWg x s k
    unfold State.getWg at *
    rw [hwgs]; exact this
  · have := begin_getGang x s k
    unfold State.getGang at *
    rw [hgangs]; exact this
  · simp

/-- The warp after an instruction that began and parked without an effect: the run has moved on, and no register has changed. -/
theorem warp_park_begin {i : Instr} {s : State} {w : Warp} (hw : s.getWarp w.id = some w) (hp : w.parked = false) :
    ∃ w', (park (mkIssue i w) (begin_ (mkIssue i w) s)).getWarp w.id = some w' ∧ RegsKept w w' ∧ Advanced (mkIssue i w) w w' ∧
      WarpKept w w' ∧ ParksBy (mkIssue i w) w' := by
  have hb : (begin_ (mkIssue i w) s).getWarp w.id = some (begunWarp (mkIssue i w) s.nextId w) := by
    have h := begin_getWarp_self (mkIssue i w) s
    rw [show (mkIssue i w).w = w from rfl, hw] at h
    exact h
  obtain ⟨w', hw', e⟩ := park_getWarp (mkIssue i w) _ hb hp
  refine ⟨w', hw', ?_, fun l => ?_, ?_, ?_⟩
  · rw [e]; exact ⟨fun _ _ _ => rfl, fun _ _ _ => rfl, fun _ => rfl, fun _ => rfl⟩
  · rw [e]; exact begunWarp_lane (mkIssue i w) s.nextId w (fun l hl => (lane_of_run w hl).1) l
  · rw [e]; rfl
  · rw [e, ParksBy]

/-- Settles O13: with no participant an instruction begins and meets its park marker; its effect is not reached. -/
theorem guardedOffOnlyAdvances : Obligations.GuardedOffOnlyAdvances := by
  intro i s w hready hraw hguard
  obtain ⟨-, ready, prep, effect, he⟩ | ⟨hnone, -⟩ := exec_instruction_or_event i s
  · have hself := getWarp_of_slot hready.1
    obtain ⟨w', hw', hregs, hadv, hkept, hpark⟩ := warp_park_begin (i := i) hself hready.2.2.1
    exact ⟨_, w', he.trans (issueP_of_no_participant hready hguard ready prep effect), hw', hregs, hadv, hkept, hpark,
      kept_park_begin (mkIssue i w) s⟩
  · exact absurd hnone hraw

end Sys2Proof.Machine
end

section
/-! The turn of a warp: the block it fetches, the instruction that stands there, and the step that executes it (R43, R77, R101, R174). -/

namespace Sys2Proof.Machine

/-! ## The fetch -/

/-- A block that no cache holds is read where its translation finds it; a memory-side page is not cached (R392). -/
theorem fetchBlock_of_miss {s r : State} {w : Warp} {pc : DWord} {pa k : Nat} {z : Bool}
    (hmiss : icacheFind (s.getCore (s.warpCore w)) (s.warpAsid w) (blockOf pc) = none)
    (hroute : route s (s.warpCore w) (s.warpAsid w) (s.warpUser w) .fetch (BitVec.ofNat 64 (blockOf pc)) = (some (.mem pa k z), r))
    (hlive : homeDead r pa = false) :
    fetchBlock s w pc = (.ok (r.load pa 32),
      if k = 2 then r else fillICache r (s.warpCore w) (if z then 0 else s.warpAsid w) (blockOf pc) (r.load pa 32)) := by
  have hbytes : blockBytes r (.mem pa k z) = some (r.load pa 32) := by simp [blockBytes, hlive]
  by_cases hk : k = 2
  · subst hk
    simp [fetchBlock, hmiss, hroute, hbytes]
  · simp [fetchBlock, hmiss, hroute, hbytes, hk]

theorem fetchAt_of_block {s u : State} {w : Warp} {bs : List Byte} (ha : (headPc w).toNat % 4 = 0) (hc : canonical (headPc w) = true)
    (h : fetchBlock s w (headPc w) = (.ok bs, u)) : fetchAt s w = (decodeAt (headPc w) bs, u) := by
  simp [fetchAt, ha, hc, h]

/-- Bytes that decode to an instruction within their block are what a fetch finds there. -/
theorem decodeAt_of_decodeBytes {pc : DWord} {bs : List Byte} {i : Instr} {n : Nat} (hd : decodeBytes (bs.drop (pc.toNat % 32)) = .instr i)
    (hn : (encode i).map List.length = some n) (hfit : pc.toNat % 32 + n ≤ 32) : decodeAt pc bs = .instr i := by
  have hd' : decode (codeAt pc bs) = .instr i := hd
  obtain ⟨e, he, hlen⟩ := encode_length_of_decode hd'
  rw [he] at hn
  obtain rfl := Option.some.inj hn
  exact decodeAt_eq_instr_iff.2 ⟨hd', hlen ▸ hfit⟩

/-! ## The turn -/

theorem issueTurn_of_fetchAt {s u : State} {w : Warp} {i : Instr} (hw : s.getWarp w.id = some w)
    (h : fetchAt { s with cur := w.id } w = (.instr i, u)) : issueTurn s w.id = (i, u) := by
  have hcur : ({ s with cur := w.id } : State).getWarp w.id = some w := hw
  simp only [issueTurn, fetchNext, hcur, h]

/-- A turn that an outside choice gives or an issue unit takes is what comes next. -/
theorem choose_of_turnOf {s s0 : State} {w : Warp} (h : TurnOf s s0 w) : choose s = some (runTurn s0 w.id) := by
  obtain ⟨rest, ha, rfl⟩ | ⟨ha, hside, hp, rfl⟩ | ⟨ha, hside, hp, rfl⟩ := h
  · simp only [choose, ha]
  · simp [choose, ha, hside, issueNext, hp]
  · simp [choose, ha, hside, issueNext, hp]

theorem step_of_turnOf {s s0 : State} {w : Warp} (h : TurnOf s s0 w) : step s = tick (exec (issueTurn s0 w.id).1 (issueTurn s0 w.id).2) := by
  simp only [step, choose_of_turnOf h, runTurn]

/-- Whose turn it is changes the agenda and the side, and nothing of the warps and what they run in. -/
theorem turnOf_kept {s s0 : State} {w : Warp} (h : TurnOf s s0 w) :
    s0.warps = s.warps ∧ s0.wgs = s.wgs ∧ s0.gangs = s.gangs ∧ s0.regions = s.regions := by
  obtain ⟨rest, -, rfl⟩ | ⟨-, -, -, rfl⟩ | ⟨-, -, -, rfl⟩ := h <;> exact ⟨rfl, rfl, rfl, rfl⟩

/-- Settles O56: the warp whose turn it is takes the slot and fetches its block, whose word decodes to the instruction; the fetch leaves
the warps and what they run in. Which turn comes next is log entry 3's. -/
theorem stepRunsDecodedInstruction : Obligations.StepRunsDecodedInstruction := by
  refine ⟨?_, fun s i rest ha => by simp only [step, choose, ha], fun o t ho => by rw [ho]; rfl⟩
  intro s s0 w i n pa k z r hturn hw halign hcanon s1 core asid blk hmiss hroute hlive hd hn hfit u
  have hfetch : fetchAt s1 w = (.instr i, u) := by
    rw [fetchAt_of_block halign hcanon (fetchBlock_of_miss hmiss hroute hlive), decodeAt_of_decodeBytes hd hn hfit]
  have hview : issueView u = issueView s1 := by
    have h := issueView_fetchAt s1 w
    rwa [hfetch] at h
  obtain ⟨hwarps, hwgs, hgangs, hregions⟩ := turnOf_kept hturn
  refine ⟨by rw [step_of_turnOf hturn, issueTurn_of_fetchAt hw hfetch], cur_of_issueView hview, (warps_of_issueView hview).trans hwarps, ?_, ?_, ?_⟩
  · exact (congrArg (·.2.2.2.2.2.2.1) hview).trans hwgs
  · exact (congrArg (·.2.2.2.2.2.2.2.1) hview).trans hgangs
  · exact (congrArg (·.2.2.2.2.2.2.2.2) hview).trans hregions

end Sys2Proof.Machine
end

section
/-! Traps of a whole run: an instruction that the decode checks turn down (R58, R59) and a fetch that finds no instruction (R44, R46,
R61). A warp has 32 lanes (R74), but the statements about these traps do not ask for it, and `Warp.lane` reads a lane that the list
does not hold as a ready one, which no trap holds: each claim is true of exactly the warps that list 32 lanes. -/

namespace Sys2Proof.Machine

/-! ## The warp in its handler (R160) -/

/-- The trap that a whole run takes before its instruction issues. -/
def runTrap (w : Warp) (cause : BitVec 8) (info : BitVec 16) (d : BitVec 11) : Trap :=
  { cause := cause, info := info, lanes := headRun w, pc := headPc w, d := d }

/-- The warp that has taken it, of a word of some length. -/
def trappedRun (w : Warp) (cause : BitVec 8) (info : BitVec 16) (d : BitVec 11) (len : Nat) : Warp :=
  enterHandler w (runTrap w cause info d) fun _ y => y.pc + BitVec.ofNat 64 len

theorem takeTrap_runTrap {s : State} {w : Warp} (hw : s.getWarp w.id = some w) (hr : headRun w ≠ 0) (hv : w.htvec ≠ 0) (ht : w.inTrap = false)
    (cause : BitVec 8) (info : BitVec 16) (d : BitVec 11) (len : Nat) :
    takeTrap s w.id (runTrap w cause info d) (fun _ y => y.pc + BitVec.ofNat 64 len) = s.setWarp (trappedRun w cause info d len) :=
  takeTrap_enters s (runTrap w cause info d) _ hw hr hv (.inl ht)

section
variable (w : Warp) (cause : BitVec 8) (info : BitVec 16) (d : BitVec 11) (len : Nat) {l : Nat}

/-- A lane of the run stands at the handler's entry, with its resume counter behind the word. -/
theorem lane_trappedRun_of_run (h : (headRun w).getLsbD l = true) :
    (trappedRun w cause info d len).lane l =
      { w.lane l with trapRgn := (w.lane l).rgn, resume := headPc w + BitVec.ofNat 64 len, pc := w.htvec, st := .ready } := by
  obtain ⟨hlt, hst, hpc⟩ := lane_of_run w h
  simp only [Warp.lane, List.getElem?_eq_getElem hlt, Option.getD_some] at hst hpc ⊢
  simp [trappedRun, enterHandler, runTrap, hlt, h, hpc]

/-- A ready lane of another run is held (R161). -/
theorem lane_trappedRun_of_ready (hlt : l < w.lanes.length) (h : (headRun w).getLsbD l = false) (hst : (w.lane l).st = .ready) :
    (trappedRun w cause info d len).lane l = { w.lane l with st := .held .handler } := by
  simp only [Warp.lane, List.getElem?_eq_getElem hlt, Option.getD_some] at hst ⊢
  simp [trappedRun, enterHandler, runTrap, hlt, h, hst]

/-- A lane that the warp does not list reads as a ready lane, and does so after the trap. -/
theorem lane_of_absent (h : w.lanes.length ≤ l) : w.lane l = {} ∧ (trappedRun w cause info d len).lane l = {} := by
  constructor
  · simp [Warp.lane, h]
  · simp [Warp.lane, trappedRun, enterHandler, h]

/-- A run's trap is taken as R160 says it, for every lane below 32, exactly when the warp lists its 32 lanes. -/
theorem trapTaken_trappedRun_iff :
    TrapTaken w (trappedRun w cause info d len) cause info (headRun w) (headPc w) (headPc w + BitVec.ofNat 64 len) ↔ 32 ≤ w.lanes.length := by
  constructor
  · rintro ⟨-, -, -, -, -, -, hheld, -⟩
    by_contra hlen
    obtain ⟨hbefore, hafter⟩ := lane_of_absent w cause info d len (l := 31) (by omega)
    have hrun : (headRun w).getLsbD 31 = false := Bool.eq_false_iff.2 fun h => by have := (lane_of_run w h).1; omega
    have := hheld 31 (by decide) hrun (by rw [hbefore])
    rw [hafter] at this
    cases this
  · intro hlen
    refine ⟨rfl, ?_, rfl, rfl, rfl, fun l _ h => ?_, fun l hl h hst => ?_, ?_, rfl, rfl, rfl⟩
    · simp [trappedRun, enterHandler, runTrap, hcauseWord]
    · rw [lane_trappedRun_of_run w cause info d len h]; exact ⟨rfl, rfl, rfl, rfl⟩
    · rw [lane_trappedRun_of_ready w cause info d len (by omega) h hst]
    · exact ⟨fun _ _ _ => rfl, fun _ _ _ => rfl, fun _ => rfl, fun _ => rfl⟩

/-- What a statement says that a run's trap is taken shows that the warp lists its 32 lanes. -/
theorem lanes_of_trapTaken {s : State} {w' : Warp} (hw : s.getWarp w.id = some w)
    (hw' : (s.setWarp (trappedRun w cause info d len)).getWarp w.id = some w')
    (h : TrapTaken w w' cause info (headRun w) (headPc w) (headPc w + BitVec.ofNat 64 len)) : 32 ≤ w.lanes.length := by
  rw [getWarp_setWarp_of hw (by rfl)] at hw'
  obtain rfl := Option.some.inj hw'
  exact (trapTaken_trappedRun_iff w cause info d len).1 h

end

/-! ## An instruction that the decode checks turn down (R58, R59) -/

section
variable {i : Instr} {s : State} {w : Warp} {cause : BitVec 8} (hraw : toRaw i ≠ none) (hw : s.getWarp s.cur = some w)
  (hr : headRun w ≠ 0) (hp : w.parked = false) (hst : w.stopped = false) (hwc : waitcHolds w = false) (hca : w.copyAbort = false)
  (hd : decodeCause s w i (rawOf i) = some cause) (hv : w.htvec ≠ 0) (ht : w.inTrap = false)
include hraw hw hr hp hst hwc hca hd hv ht

theorem exec_of_decodeCause : exec i s = .next (s.setWarp (trappedRun w cause 0 (rawOf i).d (lenBytes (rawOf i).len))) := by
  have hself := getWarp_of_slot hw
  have hrun : ¬ (headRun w == 0) = true := by rwa [beq_iff_eq]
  have hb : w.blocked = false := by simp [Warp.blocked, hp, hst, hwc]
  have hd' : decodeCause s w i (mkIssue i w).r = some cause := hd
  obtain ⟨-, ready, prep, effect, he⟩ | ⟨hnone, -⟩ := exec_instruction_or_event i s
  · rw [he]
    simp only [issueP, form, hw, if_neg hrun, hb, hca, hd', Bool.false_eq_true, if_false]
    exact congrArg _ (takeTrap_runTrap hself hr hv ht cause 0 _ _)
  · exact absurd hnone hraw

/-- R58, R160 of a warp of 32 lanes: the whole run takes the decode trap, and nothing else happens. -/
theorem decodeTrap_taken (hlanes : 32 ≤ w.lanes.length) :
    ∃ t w', exec i s = .next t ∧ t.getWarp w.id = some w' ∧
      TrapTaken w w' cause 0 (headRun w) (headPc w) (headPc w + BitVec.ofNat 64 (lenBytes (rawOf i).len)) ∧
      w'.hdst = BitVec.ofNat 32 (rawOf i).d.toNat ∧ t.mem = s.mem ∧ ∀ k, k ≠ w.id → t.getWarp k = s.getWarp k := by
  have hself := getWarp_of_slot hw
  refine ⟨_, _, exec_of_decodeCause hraw hw hr hp hst hwc hca hd hv ht, getWarp_setWarp_of hself rfl,
    (trapTaken_trappedRun_iff w cause 0 _ _).2 hlanes, ?_, rfl, fun k hk => getWarp_setWarp_ne _ _ hk⟩
  simp [trappedRun, enterHandler, runTrap, hdstWord]

end

/-- A privileged form that the checks before it let pass takes PRIVILEGE at user level (R58, R59). -/
theorem privilegedFormsTrapAtUserLevel : Clause.PrivilegedFormsTrapAtUserLevel := by
  intro i s w hpriv huser haccess hwf hrange hgp
  have h1 : ¬ (w.idx == 32 && !accessOp (rawOf i).op) = true := by
    simpa using haccess
  have h2 : ¬ (!i.wf || !i.inRange (s.warpEff w).nregs (s.warpEff w).npreds || decide ((s.warpEff w).npreds ≤ (rawOf i).gp.toNat)) = true := by
    simp [hwf, hrange, hgp]
  unfold decodeCause
  rw [if_neg h1, if_neg h2, if_pos (by simp [hpriv, huser])]

/-! ## A fetch that finds no instruction (R44, R46, R61) -/

section
variable {s s1 : State} {w : Warp} {cause : BitVec 8} {info : BitVec 16} {d : BitVec 11} {len : Nat} (hw : s.getWarp s.cur = some w)
  (hr : headRun w ≠ 0) (hb : w.blocked = false) (hf : fetchAt s w = (.trap cause info d len, s1)) (hc : cause ≠ 0x29)
  (h1 : s1.getWarp w.id = some w) (hv : w.htvec ≠ 0) (ht : w.inTrap = false)
include hw hr hb hf hc h1 hv ht

theorem exec_of_fetchTrap : exec .reservedOpcodeFetch s = .next (s1.setWarp (trappedRun w cause info d len)) := by
  change execReservedOpcodeFetch s = _
  simp only [execReservedOpcodeFetch, hw, if_neg (run_goes hr hb), hf, happens]
  rw [if_neg (by simpa using hc)]
  exact congrArg _ (takeTrap_runTrap h1 hr hv ht cause info d len)

/-- R46, R58, R160 of a warp of 32 lanes: the whole run takes the trap of a faulty fetch. -/
theorem fetchTrap_taken (hlanes : 32 ≤ w.lanes.length) :
    ∃ t w', exec .reservedOpcodeFetch s = .next t ∧ t.getWarp w.id = some w' ∧
      TrapTaken w w' cause info (headRun w) (headPc w) (headPc w + BitVec.ofNat 64 len) ∧ t = { s1 with warps := t.warps } :=
  ⟨_, _, exec_of_fetchTrap hw hr hb hf hc h1 hv ht, getWarp_setWarp_of h1 rfl, (trapTaken_trappedRun_iff w cause info d len).2 hlanes, rfl⟩

end

theorem fetchAt_of_misaligned (s : State) {w : Warp} (h : (headPc w).toNat % 4 ≠ 0) : fetchAt s w = (.trap 0x03 0 0 0, s) := by
  unfold fetchAt
  dsimp only
  rw [if_pos h]

/-! ## Reserved opcodes (R60, R61) -/

theorem fromRawFloat_of_reserved {r : Raw} (h : Hdr) (hop : r.op.toNat = 0x5F) : fromRawFloat r h = none := by
  simp [fromRawFloat, hop]

theorem fromRawSync_of_reserved {r : Raw} (h : Hdr) (hop : 0x82 ≤ r.op.toNat ∧ r.op.toNat ≤ 0x8F) : fromRawSync r h = none := by
  unfold fromRawSync
  split
  case h_18 => rfl
  all_goals omega

theorem fromRawSystem_of_reserved {r : Raw} (h : Hdr) (hop : r.op.toNat = 0x96 ∨ r.op.toNat = 0x97 ∨ (0x9D ≤ r.op.toNat ∧ r.op.toNat ≤ 0x9F) ∨
    (0xA7 ≤ r.op.toNat ∧ r.op.toNat ≤ 0xAF) ∨ 0xB7 ≤ r.op.toNat) : fromRawSystem r h = none := by
  unfold fromRawSystem
  split
  case h_26 => rfl
  all_goals omega

/-- The map of R60 has no entry for an opcode that it reserves. -/
theorem fromRaw_of_reserved {v : BitVec 128} (h : ReservedOp v) : fromRaw (unpack v) = none := by
  have hop : (unpack v).op.toNat = (v.extractLsb' 3 8).toNat := rfl
  unfold fromRaw
  dsimp only [ReservedOp] at h ⊢
  rw [← hop] at h
  obtain h | h | h := h
  · simp only [h]; exact fromRawFloat_of_reserved _ h
  · rw [if_neg (by omega), if_neg (by omega), if_neg (by omega), if_neg (by omega), if_neg (by omega), if_pos (by omega)]
    exact fromRawSync_of_reserved _ h
  · rw [if_neg (by omega), if_neg (by omega), if_neg (by omega), if_neg (by omega), if_neg (by omega), if_neg (by omega)]
    exact fromRawSystem_of_reserved _ h

/-- A reserved opcode decodes to nothing, whatever the other fields of its word. -/
theorem decode_of_reserved {v : BitVec 128} (h3 : v.extractLsb' 0 2 ≠ 3#2) (h : ReservedOp v) : decode v = .illegal :=
  decode_eq_illegal h3 (fromRaw_of_reserved h)

/-- A fetch that finds a reserved opcode inside its block brings ILLEGAL_OPCODE. -/
theorem fetchAt_of_reserved {s s1 : State} {w : Warp} {bs : List Byte} (ha : (headPc w).toNat % 4 = 0) (hc : canonical (headPc w) = true)
    (hfetch : fetchBlock s w (headPc w) = (.ok bs, s1)) (h3 : (codeAt (headPc w) bs).extractLsb' 0 2 ≠ 3#2) (h : ReservedOp (codeAt (headPc w) bs))
    (hfit : (headPc w).toNat % 32 + lenBytes ((codeAt (headPc w) bs).extractLsb' 0 2) ≤ 32) :
    fetchAt s w = (.trap 0x01 0 ((codeAt (headPc w) bs).extractLsb' 19 11) (lenBytes ((codeAt (headPc w) bs).extractLsb' 0 2)), s1) := by
  rw [fetchAt_of_block ha hc hfetch, decodeAt_eq, decode_of_reserved h3 h]
  dsimp only
  rw [if_neg (by omega)]

/-- R61 of a warp of 32 lanes: a run that fetches a reserved opcode inside its block takes ILLEGAL_OPCODE. -/
theorem reservedOpcode_taken {s s1 : State} {w : Warp} {bs : List Byte} (hw : s.getWarp s.cur = some w) (hr : headRun w ≠ 0)
    (hb : w.blocked = false) (hv : w.htvec ≠ 0) (ht : w.inTrap = false) (ha : (headPc w).toNat % 4 = 0) (hc : canonical (headPc w) = true)
    (hfetch : fetchBlock s w (headPc w) = (.ok bs, s1)) (h1 : s1.getWarp w.id = some w)
    (h3 : (codeAt (headPc w) bs).extractLsb' 0 2 ≠ 3#2) (h : ReservedOp (codeAt (headPc w) bs))
    (hfit : (headPc w).toNat % 32 + lenBytes ((codeAt (headPc w) bs).extractLsb' 0 2) ≤ 32) (hlanes : 32 ≤ w.lanes.length) :
    ∃ t w', exec .reservedOpcodeFetch s = .next t ∧ t.getWarp w.id = some w' ∧
      TrapTaken w w' 0x01 0 (headRun w) (headPc w) (headPc w + BitVec.ofNat 64 (lenBytes ((codeAt (headPc w) bs).extractLsb' 0 2))) := by
  obtain ⟨t, w', he, hw', htaken, -⟩ :=
    fetchTrap_taken hw hr hb (fetchAt_of_reserved ha hc hfetch h3 h hfit) (by decide) h1 hv ht hlanes
  exact ⟨t, w', he, hw', htaken⟩

/-! ## A warp that lists one lane -/

/-- A warp of one lane at a counter, with a trap vector. -/
def oneLane (pc : DWord) : Warp := { id := 0, wg := 0, idx := 0, lanes := [{ pc := pc }], htvec := 0x8000 }

/-- The package with that warp in the issue slot. -/
def oneLaneState (pc : DWord) : State := { State.reset with warps := [oneLane pc] }

/-- A reserved opcode, 0xFF, in 8 bytes. -/
def reservedWord : List Byte := [0xF8, 0x07, 0, 0, 0, 0, 0, 0]

/-- The same with that word in the instruction cache of its core. -/
def oneLaneCached : State := { oneLaneState 0 with cores := [{ id := default, icache := [(0, 0, reservedWord)] }] }

/-- A MOV to the register `v2047`, which no warp has (R49). -/
def outOfRange : Instr := .mov ⟨false, 0, false, 0⟩ 2047 0

/-- Refutes O18: a warp that lists lane 0 only takes ILLEGAL_OPCODE for a register out of range, and lane 1, which reads as ready, is not held as the
statement says. With 32 lanes it is `decodeTrap_taken`; the second clause holds as it stands, `privilegedFormsTrapAtUserLevel`. -/
theorem not_decodeAndPrivilegeTraps : ¬ Obligations.DecodeAndPrivilegeTraps := by
  rintro ⟨h, -⟩
  have hraw : toRaw outOfRange ≠ none := by decide
  have hr : headRun (oneLane 0) ≠ 0 := by decide
  have hd : decodeCause (oneLaneState 0) (oneLane 0) outOfRange (rawOf outOfRange) = some 0x01 := by decide
  obtain ⟨t, w', he, hw', htaken, -⟩ := h outOfRange (oneLaneState 0) (oneLane 0) 0x01 hraw rfl hr rfl rfl rfl rfl hd (by decide) rfl
  rw [exec_of_decodeCause hraw rfl hr rfl rfl rfl rfl hd (by decide) rfl] at he
  obtain rfl := Host.Outcome.next.inj he
  exact absurd (lanes_of_trapTaken _ _ _ _ _ rfl hw' htaken) (by decide)

/-- Refutes O43: a warp that lists lane 0 only, at the counter 2, takes FETCH_MISALIGNED, and lane 1, which reads as ready, is not held as the
clause on misaligned counters says. With 32 lanes it is `fetchTrap_taken`. -/
theorem not_faultEvents : ¬ Obligations.FaultEvents := by
  rintro ⟨⟨-, -, h⟩, -⟩
  have hr : headRun (oneLane 2) ≠ 0 := by decide
  have hpc : (headPc (oneLane 2)).toNat % 4 ≠ 0 := by decide
  obtain ⟨t, w', he, hw', htaken, -⟩ := h (oneLaneState 2) (oneLane 2) rfl hr rfl hpc (by decide) rfl
  rw [exec_of_fetchTrap rfl hr rfl (fetchAt_of_misaligned _ hpc) (by decide) rfl (by decide) rfl] at he
  obtain rfl := Host.Outcome.next.inj he
  have hlanes := lanes_of_trapTaken (oneLane 2) 0x03 0 0 0 rfl hw' (by simpa using htaken)
  exact absurd hlanes (by decide)

/-- Refutes O51: a warp that lists lane 0 only fetches the opcode 0xFF from its instruction cache and takes ILLEGAL_OPCODE, and lane 1, which
reads as ready, is not held as the statement says. With 32 lanes it is `reservedOpcode_taken`; that such a word decodes to nothing is
`decode_of_reserved`. -/
theorem not_reservedOpcodesAreIllegal : ¬ Obligations.ReservedOpcodesAreIllegal := by
  rintro ⟨-, h, -⟩
  have hr : headRun (oneLane 0) ≠ 0 := by decide
  have hpc : headPc (oneLane 0) = 0 := by decide
  have h3 : (codeAt (headPc (oneLane 0)) reservedWord).extractLsb' 0 2 ≠ 3#2 := by decide
  have hop : ReservedOp (codeAt (headPc (oneLane 0)) reservedWord) := by decide
  have hfit : (headPc (oneLane 0)).toNat % 32 + lenBytes ((codeAt (headPc (oneLane 0)) reservedWord).extractLsb' 0 2) ≤ 32 := by decide
  have hfetch : fetchBlock oneLaneCached (oneLane 0) (headPc (oneLane 0)) = (.ok reservedWord, oneLaneCached) := by
    rw [hpc]; rfl
  have ha : (headPc (oneLane 0)).toNat % 4 = 0 := by decide
  have hc : canonical (headPc (oneLane 0)) = true := by decide
  obtain ⟨t, w', he, hw', htaken⟩ :=
    h oneLaneCached (oneLane 0) reservedWord oneLaneCached rfl hr rfl (by decide) rfl ha hc hfetch rfl h3 hop hfit
  rw [exec_of_fetchTrap rfl hr rfl (fetchAt_of_reserved ha hc hfetch h3 hop hfit) (by decide) rfl (by decide) rfl] at he
  obtain rfl := Host.Outcome.next.inj he
  exact absurd (lanes_of_trapTaken _ _ _ _ _ rfl hw' htaken) (by decide)

end Sys2Proof.Machine
end

section
/-! What an instruction leaves that writes registers at issue, and the arithmetic, shifts and bits (R95 to R98, R108 to R114). -/

namespace Sys2Proof.Machine

/-! ## Instructions that write registers at issue (R95, R96) -/

/-- A warp after a change of its register files, their last-writer tags and the operand buffer only. -/
def RegistersOnly (w w' : Warp) : Prop :=
  w' = { w with v := w'.v, q := w'.q, w := w'.w, m := w'.m, lastw := w'.lastw, opbuf := w'.opbuf }

theorem RegistersOnly.trans {w u y : Warp} (h : RegistersOnly w u) (h' : RegistersOnly u y) : RegistersOnly w y :=
  Eq.trans h' (by rw [h])

theorem RegistersOnly.foldl {α : Type} {f : Warp → α → Warp} (hf : ∀ w a, RegistersOnly w (f w a)) (ls : List α) (w : Warp) :
    RegistersOnly w (ls.foldl f w) := by
  induction ls generalizing w with
  | nil => exact rfl
  | cons a ls ih => exact (hf w a).trans (ih _)

theorem registersOnly_wrV (w : Warp) (r : Reg) (l t : Nat) (v : Word) : RegistersOnly w (wrV w r l t v) := by
  unfold wrV; split <;> rfl

theorem registersOnly_wrP (w : Warp) (r : Reg) (l t : Nat) (v : DWord) : RegistersOnly w (wrP w r l t v) := by
  unfold wrP
  split
  · exact rfl
  · exact (registersOnly_wrV _ _ _ _ _).trans (registersOnly_wrV _ _ _ _ _)

theorem registersOnly_wrQ (w : Warp) (r : Reg) (l t : Nat) (b : Bool) : RegistersOnly w (wrQ w r l t b) := by
  unfold wrQ; split <;> rfl

theorem registersOnly_wrW (w : Warp) (r : Reg) (t : Nat) (v : Word) : RegistersOnly w (wrW w r t v) := by
  unfold wrW; split <;> rfl

theorem registersOnly_wrLane (w : Warp) (f : File) (r : Reg) (t l n : Nat) : RegistersOnly w (wrLane w f r t l n) := by
  cases f with
  | v => exact registersOnly_wrV _ _ _ _ _
  | p => exact registersOnly_wrP _ _ _ _ _
  | q => exact registersOnly_wrQ _ _ _ _ _
  | w => exact registersOnly_wrW _ _ _ _
  | m => exact rfl

theorem registersOnly_wrLanes (w : Warp) (f : File) (d : Reg) (t : Nat) (vs : List (Nat × Nat)) : RegistersOnly w (wrLanes w f d t vs) :=
  .foldl (fun _ _ => registersOnly_wrLane _ _ _ _ _ _) vs w

/-- Two warps hold the same in every register file. -/
def SameFiles (w w' : Warp) : Prop := w'.v = w.v ∧ w'.q = w.q ∧ w'.w = w.w ∧ w'.m = w.m

theorem SameFiles.reads {w w' : Warp} (h : SameFiles w w') :
    (∀ r l, rdV w' r l = rdV w r l) ∧ (∀ r l, rdQ w' r l = rdQ w r l) ∧ (∀ r, rdW w' r = rdW w r) ∧ ∀ r, rdM w' r = rdM w r := by
  obtain ⟨hv, hq, hw, hm⟩ := h
  exact ⟨fun r l => by rw [rdV, hv, rdV], fun r l => by rw [rdQ, hq, rdQ], fun r => by rw [rdW, hw, rdW], fun r => by rw [rdM, hm, rdM]⟩

theorem lanesWritten_congr {f : File} {d : Reg} {e : LaneSet} {val : Nat → Nat} {w u w' u' : Warp} (h : SameFiles w u)
    (h' : SameFiles w' u') (hw : LanesWritten f d e val w w') : LanesWritten f d e val u u' := by
  obtain ⟨hv, hq, hs, hm⟩ := h.reads
  obtain ⟨hv', hq', hs', hm'⟩ := h'.reads
  simpa only [LanesWritten, hv, hq, hs, hm, hv', hq', hs', hm'] using hw

section
variable {i : Instr} {s s0 : State} {w : Warp} {x : Issue}

/-- An instruction whose effect writes registers of its own warp and nothing else completes: the files hold what the effect leaves, the
run has moved on, and everything else is kept. -/
theorem issue_of_registersOnly {effect : Issue → State → State} (hexec : exec i s = issue i s always effect) (h : Issues i s w x s0)
    {g : Warp → Warp} (he : ∀ u, effect x u = u.modWarp x.w.id g) (hg : ∀ y, RegistersOnly y (g y)) :
    ∃ t w' n, exec i s = .next t ∧ t.getWarp w.id = some w' ∧ SameFiles (g (begunWarp x n w)) w' ∧ Advanced x w w' ∧
      WarpKept w w' ∧ ParksBy x w' ∧ Kept s0 t w.id := by
  obtain ⟨-, hrun⟩ := issues_run h
  obtain ⟨t, w', n, hs, hw', hkept, e⟩ :=
    issue_own_warp h g effect he (fun y => by rw [hg y]) (fun y => by rw [hg y])
  refine ⟨t, w', n, hexec.trans hs, hw', ?_, fun l => ?_, ?_, ?_, hkept⟩
  · rw [e]; exact ⟨rfl, rfl, rfl, rfl⟩
  · have hl : w'.lane l = (begunWarp x n w).lane l := by rw [e, hg]; rfl
    rw [hl]; exact begunWarp_lane x n w hrun l
  · rw [e, hg]; rfl
  · rw [e, ParksBy]

/-- A value per participant, which may depend on the state at issue. -/
theorem issue_of_laneEffect {effect : Issue → State → State} (hexec : exec i s = issue i s always effect) (h : Issues i s w x s0) {f : File}
    {d : Reg} {val : Issue → Nat → Nat} (he : ∀ u, effect x u = laneEffect f d val x u) (hf : f = .v ∨ f = .p ∨ f = .q)
    (hd : f = .p → d + 1 ≠ 0) :
    ∃ t w', exec i s = .next t ∧ t.getWarp w.id = some w' ∧ LanesWritten f d x.e (val x) w w' ∧ Advanced x w w' ∧ WarpKept w w' ∧
      ParksBy x w' ∧ Kept s0 t w.id := by
  obtain ⟨t, w', n, hs, hw', hfiles, hrest⟩ := issue_of_registersOnly hexec h he fun y => registersOnly_wrLanes y f d x.tag _
  exact ⟨t, w', hs, hw', lanesWritten_congr ⟨rfl, rfl, rfl, rfl⟩ hfiles (wrLanes_written (begunWarp x n w) f d x.e x.tag (val x) hf hd),
    hrest⟩

end

/-! ## The destination of a value per participant (R49, R50) -/

section
variable {i : Instr} {d : Reg} {val : Issue → Nat → Nat}

/-- An instruction that is well formed names an even pair. -/
theorem even_of_wf_of_pair (hd : i.operands.head? = some (.mk1 .p d)) (hwf : i.wf = true) : d.getLsbD 0 = false := by
  have hok := List.all_eq_true.1 (Bool.and_eq_true_iff.1 hwf).1 _ (List.mem_of_head? hd)
  simpa [Opnd.ok, Opnd.mk1] using hok

/-- An instruction with a value per participant, whose first operand is its destination. -/
theorem laneResult_of_dest {f : File} (hf : f = .v ∨ f = .p ∨ f = .q) (he : ∀ s, exec i s = execLanes i s f d val)
    (hd : i.operands.head? = some (.mk1 f d)) : LaneResult i f d val :=
  laneResult_of_execLanes he hf fun hp hwf => even_of_wf_of_pair (hp ▸ hd) hwf

theorem laneResult_v (he : ∀ s, exec i s = execLanes i s .v d val) : LaneResult i .v d val := laneResult_of_execLanes he (.inl rfl) nofun

theorem laneResult_q (he : ∀ s, exec i s = execLanes i s .q d val) : LaneResult i .q d val :=
  laneResult_of_execLanes he (.inr (.inr rfl)) nofun

theorem laneResult_p (he : ∀ s, exec i s = execLanes i s .p d val) (hd : i.operands.head? = some (.mk1 .p d)) : LaneResult i .p d val :=
  laneResult_of_dest (.inr (.inl rfl)) he hd

/-- An integer type has registers or pairs. -/
theorem laneResult_ity {t : ITy} (he : ∀ s, exec i s = execLanes i s t.file d val) (hd : i.operands.head? = some (.mk1 t.file d)) :
    LaneResult i t.file d val :=
  laneResult_of_dest (by cases t <;> decide) he hd

/-- So has a bit type. -/
theorem laneResult_bty {t : BTy} (he : ∀ s, exec i s = execLanes i s t.file d val) (hd : i.operands.head? = some (.mk1 t.file d)) :
    LaneResult i t.file d val :=
  laneResult_of_dest (by cases t <;> decide) he hd

end

/-! ## Arithmetic (R108) -/

/-- Settles O1: the meaning of each is its value per participant, narrowed to the type of its destination. -/
theorem integerArithmeticResults : Obligations.IntegerArithmeticResults :=
  ⟨fun _ _ _ _ _ _ => laneResult_ity (fun _ => rfl) rfl,
   fun _ _ _ _ _ _ => laneResult_ity (fun _ => rfl) rfl,
   fun _ _ _ _ => laneResult_ity (fun _ => rfl) rfl,
   fun _ _ _ _ _ => laneResult_ity (fun _ => rfl) rfl,
   fun _ _ _ _ _ => laneResult_ity (fun _ => rfl) rfl,
   fun _ _ _ _ _ => laneResult_ity (fun _ => rfl) rfl,
   fun _ _ _ _ => laneResult_p (fun _ => rfl) rfl,
   fun _ _ _ _ _ => laneResult_ity (fun _ => rfl) rfl,
   fun _ _ _ _ _ => laneResult_ity (fun _ => rfl) rfl,
   fun _ _ _ _ => laneResult_v fun _ => rfl,
   fun _ _ _ _ => laneResult_p (fun _ => rfl) rfl,
   fun _ _ _ _ => laneResult_ity (fun _ => rfl) rfl⟩

/-! ## Shifts and bits (R110 to R114) -/

theorem shiftResults : Clause.ShiftResults :=
  ⟨fun _ _ _ _ _ => laneResult_ity (fun _ => rfl) rfl,
   fun _ _ _ _ _ => laneResult_ity (fun _ => rfl) rfl,
   fun _ _ _ _ _ => laneResult_ity (fun _ => rfl) rfl,
   fun _ _ _ _ _ => laneResult_ity (fun _ => rfl) rfl,
   fun _ _ _ _ _ => laneResult_ity (fun _ => rfl) rfl,
   fun _ _ _ => laneResult_v fun _ => rfl⟩

theorem bitResults : Clause.BitResults :=
  ⟨fun _ _ _ _ _ => laneResult_bty (fun _ => rfl) rfl,
   fun _ _ _ _ _ => laneResult_bty (fun _ => rfl) rfl,
   fun _ _ _ _ _ => laneResult_bty (fun _ => rfl) rfl,
   fun _ _ _ _ => laneResult_bty (fun _ => rfl) rfl,
   fun _ _ _ _ _ => laneResult_bty (fun _ => rfl) rfl,
   fun _ _ _ _ => laneResult_v fun _ => rfl,
   fun _ _ _ _ => laneResult_v fun _ => rfl,
   fun _ _ _ _ => laneResult_v fun _ => rfl,
   fun _ _ _ _ => laneResult_bty (fun _ => rfl) rfl,
   fun _ _ _ _ _ => laneResult_ity (fun _ => rfl) rfl,
   fun _ _ _ _ => laneResult_bty (fun _ => rfl) rfl,
   fun _ _ _ => laneResult_v fun _ => rfl⟩

/-- Settles O4: the meaning of each is its value per participant. -/
theorem shiftAndBitResults : Obligations.ShiftAndBitResults := ⟨shiftResults, bitResults⟩

end Sys2Proof.Machine
end

section
/-! Compares, predicates, moves and addresses (R115 to R119). -/

namespace Sys2Proof.Machine

/-! ## Compares, selects and predicate logic (R115 to R117) -/

theorem compareAndPredicateResults : Clause.CompareAndPredicateResults :=
  ⟨fun _ _ _ _ _ _ => laneResult_q fun _ => rfl,
   fun _ _ _ _ _ _ => laneResult_v fun _ => rfl,
   fun _ _ _ _ => laneResult_bty (fun _ => rfl) rfl,
   fun _ _ _ _ _ _ => laneResult_q fun _ => rfl,
   fun _ _ _ => laneResult_q fun _ => rfl,
   fun _ _ _ => laneResult_q fun _ => rfl⟩

/-! ## Predicates packed into a register (R117) -/

/-- The word that PMOV packs in a lane: 32 predicates from one on, false at and above the count. -/
def packWord (w : Warp) (np : Nat) (a : Reg) (l : Nat) : Nat :=
  bitSum (fun i => decide (a.toNat + i < np) && rdQ w (a + BitVec.ofNat 11 i) l) 32

theorem exec_pmovPack (h : Hdr) (d a : Reg) (s : State) :
    exec (.pmovPack h d a) s = issue (.pmovPack h d a) s always fun x =>
      laneEffect .v d (fun y l => packWord y.w (s.warpEff x.w).npreds a l) x := rfl

theorem getLsbD_packWord (w : Warp) (np : Nat) (a : Reg) (l : Nat) {i : Nat} (hi : i < 32) :
    (BitVec.ofNat 32 (packWord w np a l)).getLsbD i = (decide (a.toNat + i < np) && rdQ w (a + BitVec.ofNat 11 i) l) := by
  rw [BitVec.getLsbD_ofNat, packWord, testBit_bitSum _ hi, decide_eq_true hi, Bool.true_and]

/-! ## A register unpacked into predicates (R117) -/

/-- The first n bits of a word written to the predicates of a lane from d on, as far as there are predicates. -/
def unpackLane (d : Reg) (np tag : Nat) (v : Word) (l n : Nat) (w : Warp) : Warp :=
  (List.range n).foldl (fun acc i => if d.toNat + i < np then wrQ acc (d + BitVec.ofNat 11 i) l tag (v.getLsbD i) else acc) w

/-- The same in some lanes, each with its word. -/
def unpackLanes (d : Reg) (np tag : Nat) (v : Nat → Word) (ls : List Nat) (w : Warp) : Warp :=
  ls.foldl (fun acc l => unpackLane d np tag (v l) l 32 acc) w

theorem exec_pmovUnpack (h : Hdr) (d a : Reg) (s : State) :
    exec (.pmovUnpack h d a) s = issue (.pmovUnpack h d a) s always fun x t =>
      t.modWarp x.w.id (unpackLanes d (s.warpEff x.w).npreds x.tag (rdV x.w a) (lanesOf x.e)) := rfl

theorem unpackLane_succ (d : Reg) (np tag : Nat) (v : Word) (l n : Nat) (w : Warp) :
    unpackLane d np tag v l (n + 1) w =
      if d.toNat + n < np then wrQ (unpackLane d np tag v l n w) (d + BitVec.ofNat 11 n) l tag (v.getLsbD n)
      else unpackLane d np tag v l n w := by
  simp [unpackLane, List.range_succ]

/-- A warp after a change of its predicates and their last-writer tags only. -/
def PredicatesOnly (w w' : Warp) : Prop := w' = { w with q := w'.q, lastw := w'.lastw }

theorem PredicatesOnly.trans {w u y : Warp} (h : PredicatesOnly w u) (h' : PredicatesOnly u y) : PredicatesOnly w y :=
  Eq.trans h' (by rw [h])

theorem PredicatesOnly.registersOnly {w w' : Warp} (h : PredicatesOnly w w') : RegistersOnly w w' :=
  Eq.trans h (by rw [h])

theorem predicatesOnly_unpackLane (d : Reg) (np tag : Nat) (v : Word) (l n : Nat) (w : Warp) :
    PredicatesOnly w (unpackLane d np tag v l n w) := by
  induction n with
  | zero => exact rfl
  | succ n ih =>
    refine ih.trans ?_
    rw [unpackLane_succ]
    split
    · unfold wrQ; split <;> rfl
    · exact rfl

theorem predicatesOnly_unpackLanes (d : Reg) (np tag : Nat) (v : Nat → Word) (ls : List Nat) (w : Warp) :
    PredicatesOnly w (unpackLanes d np tag v ls w) := by
  induction ls generalizing w with
  | nil => exact rfl
  | cons l ls ih => exact (predicatesOnly_unpackLane d np tag (v l) l 32 w).trans (ih _)

/-- The predicates that an unpacked word of n bits reaches (R117); `q0` is never written. -/
abbrev Unpacked (d : Reg) (np n : Nat) (r : Reg) : Prop := r ≠ 0 ∧ d.toNat ≤ r.toNat ∧ r.toNat < d.toNat + n ∧ r.toNat < np

theorem rdQ_unpackLane {d : Reg} {n : Nat} (hd : d.toNat + n ≤ 2048) (np tag : Nat) (v : Word) (w : Warp) (r : Reg) {l j : Nat}
    (hl : l < 32) (hj : j < 32) :
    rdQ (unpackLane d np tag v l n w) r j = if j = l ∧ Unpacked d np n r then v.getLsbD (r.toNat - d.toNat) else rdQ w r j := by
  induction n with
  | zero => rw [if_neg (by omega)]; rfl
  | succ n ih =>
    have hn : (d + BitVec.ofNat 11 n).toNat = d.toNat + n := by rw [BitVec.toNat_add, BitVec.toNat_ofNat]; omega
    have hlast : r = d + BitVec.ofNat 11 n ↔ r.toNat = d.toNat + n := by rw [← hn, BitVec.toNat_inj]
    rw [unpackLane_succ]
    split
    case isTrue hlt =>
      rw [rdQ_wrQ _ _ _ _ _ hl hj, ih (by omega)]
      by_cases h : r = d + BitVec.ofNat 11 n
      · have hr := hlast.1 h
        have hbit : r.toNat - d.toNat = n := by omega
        rw [← h, hbit]
        by_cases h0 : r = 0 <;> simp [Unpacked, hr, h0, hlt]
      · have hr : r.toNat ≠ d.toNat + n := fun e => h (hlast.2 e)
        have hstep : Unpacked d np (n + 1) r ↔ Unpacked d np n r := by
          refine and_congr_right fun _ => ?_
          omega
        rw [if_neg fun e => h e.2.1, if_congr (and_congr_right fun _ => hstep) rfl rfl]
    case isFalse hge =>
      have hstep : Unpacked d np (n + 1) r ↔ Unpacked d np n r := by
        refine and_congr_right fun _ => ?_
        omega
      rw [ih (by omega), if_congr (and_congr_right fun _ => hstep) rfl rfl]

theorem rdQ_unpackLanes {d : Reg} (hd : d.toNat + 32 ≤ 2048) (np tag : Nat) (v : Nat → Word) {ls : List Nat} (hls : ∀ l ∈ ls, l < 32)
    (w : Warp) (r : Reg) {j : Nat} (hj : j < 32) :
    rdQ (unpackLanes d np tag v ls w) r j =
      if j ∈ ls ∧ Unpacked d np 32 r then (v j).getLsbD (r.toNat - d.toNat) else rdQ w r j := by
  induction ls generalizing w with
  | nil => simp [unpackLanes]
  | cons l ls ih =>
    refine (ih (fun k hk => hls k (by simp [hk])) _).trans ?_
    rw [rdQ_unpackLane hd np tag (v l) w r (hls l (by simp)) hj]
    simp only [List.mem_cons]
    exact ite_cons _ _ _ (by rintro rfl; rfl)

/-- The last predicate that a well-formed PMOV unpacks to has a number (R49, R117). -/
theorem unpack_fits {h : Hdr} {d a : Reg} (hwf : (Instr.pmovUnpack h d a).wf = true) : d.toNat + 32 ≤ 2048 := by
  have hok := List.all_eq_true.1 (Bool.and_eq_true_iff.1 hwf).1 _ List.mem_cons_self
  have hlt : d.toNat < 128 := of_decide_eq_true hok
  omega

theorem predicatePackAndUnpack : Clause.PredicatePackAndUnpack := by
  constructor
  · intro h d a s w x s0 hi
    obtain ⟨hx, -⟩ := issues_warp hi
    obtain ⟨t, w', hs, hw', ⟨hv, hq, hsc, hm⟩, hadv, hkept, -, hout⟩ :=
      issue_of_laneEffect (exec_pmovPack h d a s) hi (fun _ => rfl) (.inl rfl) nofun
    rw [hx] at hv
    refine ⟨t, w', hs, hw', hadv, hkept, hout, fun l hl he hd i hbit => ?_, fun r l hl hr => ?_, fun r l hl => ?_, hsc, hm⟩
    · rw [hv d l hl, he, if_pos (by simpa using hd), getLsbD_packWord _ _ _ _ hbit]
    · rw [hv r l hl]
      rcases hr with hr | hr <;> simp [hr]
    · rw [hq r l hl]; simp
  · intro h d a s w x s0 hi
    obtain ⟨hx, -⟩ := issues_warp hi
    obtain ⟨t, w', n, hs, hw', hfiles, hadv, hkept, -, hout⟩ := issue_of_registersOnly (exec_pmovUnpack h d a s) hi (fun _ => rfl)
      fun y => (predicatesOnly_unpackLanes _ _ _ _ _ y).registersOnly
    rw [hx] at hfiles
    obtain ⟨hv, hq, hsc, hm⟩ := hfiles.reads
    have honly := predicatesOnly_unpackLanes d (s.warpEff w).npreds x.tag (rdV w a) (lanesOf x.e) (begunWarp x n w)
    refine ⟨t, w', hs, hw', hadv, hkept, hout, fun r l hl => ?_, fun r l _ => ?_, fun r => ?_, fun r => ?_⟩
    · rw [hq, rdQ_unpackLanes (unpack_fits (issues_wf hi)) _ _ _ (fun k hk => ((mem_lanesOf _ k).1 hk).1) _ _ hl]
      simp only [mem_lanesOf, hl, true_and]
      rfl
    · rw [hv, honly]; rfl
    · rw [hsc, honly]; rfl
    · rw [hm, honly]; rfl

/-! ## Moves and addresses (R118, R119) -/

theorem moveAndAddressResults : Clause.MoveAndAddressResults :=
  ⟨fun _ _ _ => laneResult_v fun _ => rfl,
   fun _ _ _ => laneResult_p (fun _ => rfl) rfl,
   fun _ _ _ => laneResult_v fun _ => rfl,
   fun _ _ _ => laneResult_p (fun _ => rfl) rfl,
   fun _ _ _ => laneResult_p (fun _ => rfl) rfl,
   fun _ _ _ => laneResult_p (fun _ => rfl) rfl,
   fun _ _ _ _ _ _ => laneResult_p (fun _ => rfl) rfl,
   fun _ _ _ _ _ => laneResult_p (fun _ => rfl) rfl⟩

/-- Settles O5: the meaning of each is its value per participant; PMOV packs predicates into a sum of bits and unpacks a word by one
write for each bit below the count of predicates. -/
theorem compareAndMoveResults : Obligations.CompareAndMoveResults :=
  ⟨compareAndPredicateResults, predicatePackAndUnpack, moveAndAddressResults⟩

end Sys2Proof.Machine
end

section
/-! Exchange between the lanes of a run, and the warp-scalar registers (R106, R123 to R128). -/

namespace Sys2Proof.Machine

/-! ## Polls and comparisons over the participants (R124) -/

theorem polled_iff (x : Issue) (neg : Bool) (a : Reg) (l : Nat) : polled x neg a l = true ↔ rdQ x.w a l ≠ neg := bne_iff_ne

theorem all_polled (x : Issue) (neg : Bool) (a : Reg) :
    (lanesOf x.e).all (polled x neg a) = decide (∀ l ∈ lanesOf x.e, rdQ x.w a l ≠ neg) := by
  rw [Bool.eq_iff_iff]
  simp only [List.all_eq_true, decide_eq_true_eq, polled_iff]

theorem any_polled (x : Issue) (neg : Bool) (a : Reg) :
    (lanesOf x.e).any (polled x neg a) = decide (∃ l ∈ lanesOf x.e, rdQ x.w a l ≠ neg) := by
  rw [Bool.eq_iff_iff]
  simp only [List.any_eq_true, decide_eq_true_eq, polled_iff]

/-- The lowest participant is one, when there is any. -/
theorem low_mem {x : Issue} {l : Nat} (h : l ∈ lanesOf x.e) : x.low ∈ lanesOf x.e := by
  rw [Issue.low, List.head?_eq_some_head (List.ne_nil_of_mem h)]
  exact List.head_mem _

/-- A function takes one value on the participants when each value is that of the lowest. -/
theorem same_as_low_iff {β : Type} (x : Issue) (f : Nat → β) :
    (∀ l ∈ lanesOf x.e, f l = f x.low) ↔ ∀ l ∈ lanesOf x.e, ∀ k ∈ lanesOf x.e, f l = f k :=
  ⟨fun h l hl k hk => (h l hl).trans (h k hk).symm, fun h l hl => h l hl _ (low_mem hl)⟩

theorem all_polled_as_low (x : Issue) (neg : Bool) (a : Reg) :
    ((lanesOf x.e).all fun l => polled x neg a l == polled x neg a x.low) =
      decide (∀ l ∈ lanesOf x.e, ∀ k ∈ lanesOf x.e, rdQ x.w a l = rdQ x.w a k) := by
  have hneg : ∀ l, polled x neg a l = polled x neg a x.low ↔ rdQ x.w a l = rdQ x.w a x.low := fun l => Bool.xor_left_inj
  rw [Bool.eq_iff_iff]
  simp only [List.all_eq_true, beq_iff_eq, decide_eq_true_eq, hneg, same_as_low_iff]

theorem peersOf_low (x : Issue) (pr : Bool) (a : Reg) :
    (peersOf x pr a x.low == lanesOf x.e) =
      decide (∀ l ∈ lanesOf x.e, ∀ k ∈ lanesOf x.e, readReg x (pairFile pr) a l = readReg x (pairFile pr) a k) := by
  rw [Bool.eq_iff_iff, beq_iff_eq, decide_eq_true_eq, ← same_as_low_iff x fun l => readReg x (pairFile pr) a l, peersOf,
    List.filter_eq_self]
  simp only [beq_iff_eq]

/-- An instruction with one predicate for all participants, in another form of its value. -/
theorem laneResult_q_of_eq {i : Instr} {d : Reg} {val val' : Issue → Bool} (hval : ∀ x, val x = val' x)
    (he : ∀ s, exec i s = execLanes i s .q d fun x _ => (val x).toNat) : LaneResult i .q d fun x _ => (val' x).toNat :=
  laneResult_q fun s => (funext hval : val = val') ▸ he s

theorem laneExchangeResults : Clause.LaneExchangeResults :=
  ⟨fun _ _ _ _ _ _ => laneResult_v fun _ => rfl,
   fun _ neg _ a => laneResult_q_of_eq (fun x => all_polled x neg a) fun _ => rfl,
   fun _ neg _ a => laneResult_q_of_eq (fun x => any_polled x neg a) fun _ => rfl,
   fun _ neg _ a => laneResult_q_of_eq (fun x => all_polled_as_low x neg a) fun _ => rfl,
   fun _ _ _ _ => laneResult_v fun _ => rfl,
   fun _ _ _ _ => scalarResult_of_execRun fun _ => rfl,
   fun _ _ _ _ => laneResult_v fun _ => rfl,
   fun _ pr _ a => laneResult_q_of_eq (fun x => peersOf_low x pr a) fun _ => rfl,
   fun _ _ _ _ => laneResult_v fun _ => rfl,
   fun _ _ _ _ _ => laneResult_v fun _ => rfl,
   fun _ _ _ _ _ => scalarResult_of_execRun fun _ => rfl,
   fun _ _ => laneResult_q fun _ => rfl⟩

/-! ## Warp-scalar registers (R106, R126, R128) -/

theorem scalarRegisterResults : Clause.ScalarRegisterResults :=
  ⟨fun _ _ _ => scalarResult_of_execRun fun _ => rfl,
   fun _ _ _ => laneResult_v fun _ => rfl,
   fun _ _ _ => scalarResult_of_execRun fun _ => rfl,
   fun _ _ _ => scalarResult_of_execRun fun _ => rfl,
   fun _ _ _ _ _ _ => scalarResult_of_execRun fun _ => rfl,
   fun _ _ _ => scalarResult_of_execRun fun _ => rfl⟩

/-- Settles O6: the meaning of each is its value per participant or per run; a poll and a comparison over the participants are the
statements they decide, since agreeing with the lowest participant is agreeing with one another. -/
theorem laneAndScalarResults : Obligations.LaneAndScalarResults := ⟨laneExchangeResults, scalarRegisterResults⟩

end Sys2Proof.Machine
end

section
/-! What a floating-point instruction leaves (R132, R137, R138): the results and flags of its participants, and the trap that a covered
one takes in the lanes that raise an enabled flag. -/

namespace Sys2Proof.Machine

/-! ## Changes of one warp -/

/-- Two states differ in nothing but one warp. -/
def OnlyWarp (n : Nat) (s t : State) : Prop := t = { s with warps := t.warps } ∧ ∀ k, k ≠ n → t.getWarp k = s.getWarp k

theorem OnlyWarp.refl (n : Nat) (s : State) : OnlyWarp n s s := ⟨rfl, fun _ _ => rfl⟩

theorem OnlyWarp.symm {n : Nat} {s t : State} (h : OnlyWarp n s t) : OnlyWarp n t s := by
  obtain ⟨ht, hne⟩ := h
  exact ⟨by rw [ht], fun k hk => (hne k hk).symm⟩

theorem OnlyWarp.trans {n : Nat} {s t u : State} (h : OnlyWarp n s t) (h' : OnlyWarp n t u) : OnlyWarp n s u := by
  obtain ⟨ht, hne⟩ := h
  obtain ⟨hu, hne'⟩ := h'
  exact ⟨hu.trans (by rw [ht]), fun k hk => (hne' k hk).trans (hne k hk)⟩

theorem onlyWarp_modWarp (s : State) (n : Nat) {f : Warp → Warp} (h : ∀ x, (f x).id = x.id) : OnlyWarp n s (s.modWarp n f) :=
  ⟨rfl, fun _ hk => getWarp_modWarp_ne s f h hk⟩

theorem onlyWarp_setWarp (s : State) {n : Nat} {x : Warp} (h : x.id = n) : OnlyWarp n s (s.setWarp x) :=
  ⟨rfl, fun _ hk => getWarp_setWarp_ne s x (h ▸ hk)⟩

theorem onlyWarp_savePoint (s : State) (n : Nat) : OnlyWarp n s (savePoint s n) := by
  obtain e | ⟨w, hw, e⟩ := savePoint_cases s n
  · rw [e]; exact .refl n s
  · rw [e]; exact onlyWarp_setWarp s (by simpa using List.find?_some hw)

theorem onlyWarp_park (x : Issue) (s : State) : OnlyWarp x.w.id s (park x s) :=
  ⟨park_state x s, fun _ hk => park_getWarp_ne x s hk⟩

theorem kept_of_onlyWarp {s0 s t : State} {n : Nat} (h : Kept s0 s n) (h' : OnlyWarp n s t) : Kept s0 t n := by
  obtain ⟨hs, hwarps, hwgs, hgangs, hmem⟩ := h
  obtain ⟨ht, hne⟩ := h'
  refine ⟨ht.trans ?_, fun k hk => (hne k hk).trans (hwarps k hk), ?_, ?_, ?_⟩
  · rw [ht, hs]
  · rw [ht]; exact hwgs
  · rw [ht]; exact hgangs
  · rw [ht]; exact hmem

/-- An instruction whose effect changes its own warp only keeps everything outside it. -/
theorem kept_park_of_onlyWarp {x : Issue} {s0 u : State} (h : OnlyWarp x.w.id (begin_ x s0) u) : Kept s0 (park x u) x.w.id :=
  kept_of_onlyWarp (kept_park_begin x s0) ((onlyWarp_park x _).symm.trans (h.trans (onlyWarp_park x u)))

/-- The warp after a save point: nothing has changed in it but that it may have stopped (R424). -/
theorem savePoint_getWarp {s : State} {n : Nat} {w : Warp} (hw : s.getWarp n = some w) :
    ∃ b, (savePoint s n).getWarp n = some { w with stopped := b } := by
  have hid : w.id = n := by simpa using List.find?_some hw
  obtain e | ⟨v, hv, e⟩ := savePoint_cases s n
  · exact ⟨w.stopped, by rw [e]; exact hw⟩
  · obtain rfl : w = v := Option.some.inj (hw.symm.trans hv)
    exact ⟨true, by rw [e]; exact getWarp_setWarp_of hw hid⟩

/-! ## Sets of lanes as lists -/

theorem lanesOf_and_not (e : LaneSet) (ls : List Nat) :
    lanesOf (e &&& ~~~ laneSet ls) = (lanesOf e).filter fun l => !ls.contains l := by
  unfold lanesOf
  rw [List.filter_filter]
  refine List.filter_congr fun l hl => ?_
  have hl' : l < 32 := List.mem_range.1 hl
  rw [BitVec.getLsbD_and, BitVec.getLsbD_not, getLsbD_laneSet _ hl']
  simp [hl', Bool.and_comm]

theorem laneSet_eq_zero_iff {ls : List Nat} (h : ∀ l ∈ ls, l < 32) : laneSet ls = 0 ↔ ls = [] := by
  refine ⟨fun h0 => List.eq_nil_iff_forall_not_mem.2 fun l hl => ?_, fun e => by rw [e]; rfl⟩
  have hbit := getLsbD_laneSet ls (h l hl)
  rw [h0] at hbit
  simp [hl] at hbit

/-! ## Flags merged into the lanes (R132) -/

theorem mergeFlags_eq (fs : List (Nat × Flags)) (w : Warp) : mergeFlags fs w = { w with lanes := (mergeFlags fs w).lanes } := by
  induction fs generalizing w with
  | nil => rfl
  | cons p fs ih => exact (ih (w.modLanes (1#32 <<< p.1) _)).trans rfl

theorem mergeFlags_length (fs : List (Nat × Flags)) (w : Warp) : (mergeFlags fs w).lanes.length = w.lanes.length := by
  induction fs generalizing w with
  | nil => rfl
  | cons p fs ih => exact (ih (w.modLanes (1#32 <<< p.1) _)).trans (by simp [Warp.modLanes])

/-- A lane after the flags of different lanes were merged. -/
theorem lane_mergeFlags (fl : Nat → Flags) {ls : List Nat} (hnd : ls.Nodup) (w : Warp) {l : Nat} (hl : l < 32) :
    (mergeFlags (ls.map fun k => (k, fl k)) w).lane l =
      { w.lane l with fpx := if l ∈ ls ∧ l < w.lanes.length then (w.lane l).fpx ||| fl l else (w.lane l).fpx } := by
  induction ls generalizing w with
  | nil => simp [mergeFlags]
  | cons k ks ih =>
    obtain ⟨hk, hks⟩ := List.nodup_cons.1 hnd
    have hone : (1#32 <<< k).getLsbD l = decide (l = k) := by
      simpa [laneSet] using getLsbD_laneSet [k] hl
    refine (ih hks (w.modLanes (1#32 <<< k) fun _ y => { y with fpx := y.fpx ||| fl k })).trans ?_
    have hlen : (w.modLanes (1#32 <<< k) fun _ y => { y with fpx := y.fpx ||| fl k }).lanes.length = w.lanes.length := by
      simp [Warp.modLanes]
    rw [lane_modLanes, hlen, hone]
    by_cases hlk : l = k
    · subst hlk
      by_cases hlt : l < w.lanes.length <;> simp [hk, hlt]
    · simp [hlk]

/-! ## The effect of R138 -/

/-- The enables under which an instruction traps: those of `sr.fpc` when it is covered (R137). -/
def fpEnables (allowed : Flags) (w : Warp) : Flags := if covered allowed w then trapEnables w.fpc else 0

/-- The participants that trap. -/
def fpTraps (allowed : Flags) (val : Issue → Nat → FRes) (x : Issue) : LaneSet :=
  laneSet ((lanesOf x.e).filter fun l => (val x l).2 &&& fpEnables allowed x.w != 0)

/-- The cause of the trap they take. -/
def fpTrapCause (allowed : Flags) (val : Issue → Nat → FRes) (x : Issue) : BitVec 8 :=
  fpCause ((lanesOf x.e).foldl (fun acc l => acc ||| ((val x l).2 &&& fpEnables allowed x.w)) 0)

/-- The warp with the results of the participants outside a set, and the flags of all. -/
def fpWarp (f : File) (d : Reg) (val : Issue → Nat → FRes) (x : Issue) (tr : LaneSet) (w : Warp) : Warp :=
  mergeFlags ((lanesOf x.e).map fun l => (l, (val x l).2))
    (wrLanes w f d x.tag ((lanesOf (x.e &&& ~~~ tr)).map fun l => (l, (val x l).1)))

/-- The state with that warp; a covered instruction is a point at which a save stops it (R84, R137). -/
def fpState (allowed : Flags) (f : File) (d : Reg) (val : Issue → Nat → FRes) (x : Issue) (t : State) : State :=
  let t1 := t.modWarp x.w.id (fpWarp f d val x (fpTraps allowed val x))
  if covered allowed x.w then savePoint t1 x.w.id else t1

theorem lt_of_mem_participants (x : Issue) (p : Nat → Bool) : ∀ l ∈ (lanesOf x.e).filter p, l < 32 := fun l hl =>
  ((mem_lanesOf x.e l).1 (List.mem_of_mem_filter hl)).1

section
variable (allowed : Flags) (f : File) (d : Reg) (val : Issue → Nat → FRes) (x : Issue) (t : State)

/-- The effect is the results and flags of the participants, and a trap when some of them trap. -/
theorem fpEffect_eq : fpEffect allowed f d val x t =
    if fpTraps allowed val x = 0 then fpState allowed f d val x t
    else issueTrap x (fpState allowed f d val x t) (fpTrapCause allowed val x) 0 (fpTraps allowed val x) (fileCode f) := by
  have htr : trappingLanes (fpEnables allowed x.w) ((lanesOf x.e).map fun l => (l, val x l)) =
      (lanesOf x.e).filter fun l => (val x l).2 &&& fpEnables allowed x.w != 0 := by
    simp [trappingLanes, List.filter_map, Function.comp_def]
  have hzero := laneSet_eq_zero_iff (lt_of_mem_participants x fun l => (val x l).2 &&& fpEnables allowed x.w != 0)
  simp only [fpEffect, ← fpEnables.eq_def, htr, List.isEmpty_iff, enabledFlags, List.foldl_map, List.filter_map, List.map_map,
    Function.comp_def, ← lanesOf_and_not, fpTraps, hzero]
  rfl

theorem fpEffect_of_no_trap (h : fpTraps allowed val x = 0) : fpEffect allowed f d val x t = fpState allowed f d val x t := by
  rw [fpEffect_eq, if_pos h]

theorem fpEffect_of_trap (h : fpTraps allowed val x ≠ 0) : fpEffect allowed f d val x t =
    issueTrap x (fpState allowed f d val x t) (fpTrapCause allowed val x) 0 (fpTraps allowed val x) (fileCode f) := by
  rw [fpEffect_eq, if_neg h]

/-- No trap is taken when none is enabled that the instruction could raise, or no participant raises one. -/
theorem fpTraps_of_untrapped {x : Issue} (h : Untrapped allowed x val) : fpTraps allowed val x = 0 := by
  refine (laneSet_eq_zero_iff (lt_of_mem_participants x _)).2 (List.filter_eq_nil_iff.2 fun l hl => ?_)
  obtain ⟨hlt, he⟩ := (mem_lanesOf x.e l).1 hl
  unfold fpEnables
  obtain hcov | ⟨-, hflags⟩ := h
  · simp [hcov]
  · split <;> simp [hflags l hlt he]

/-- What the effect may change in its warp. -/
theorem fpWarp_eq (tr : LaneSet) (w : Warp) : fpWarp f d val x tr w =
    { w with
      lanes := (fpWarp f d val x tr w).lanes
      v := (fpWarp f d val x tr w).v
      q := (fpWarp f d val x tr w).q
      w := (fpWarp f d val x tr w).w
      m := (fpWarp f d val x tr w).m
      lastw := (fpWarp f d val x tr w).lastw
      opbuf := (fpWarp f d val x tr w).opbuf } := by
  have hreg := registersOnly_wrLanes w f d x.tag ((lanesOf (x.e &&& ~~~ tr)).map fun l => (l, (val x l).1))
  unfold fpWarp
  rw [mergeFlags_eq, hreg]

theorem fpWarp_length (tr : LaneSet) (w : Warp) : (fpWarp f d val x tr w).lanes.length = w.lanes.length := by
  rw [fpWarp, mergeFlags_length, wrLanes_lanes]

/-- A lane has its flags, whether it traps or not. -/
theorem lane_fpWarp (tr : LaneSet) (w : Warp) {l : Nat} (hl : l < 32) : (fpWarp f d val x tr w).lane l =
    { w.lane l with
      fpx := if x.e.getLsbD l && decide (l < w.lanes.length) then (w.lane l).fpx ||| (val x l).2 else (w.lane l).fpx } := by
  have hlane : ∀ y : Warp, y.lanes = w.lanes → y.lane l = w.lane l := fun y hy => by rw [Warp.lane, hy, Warp.lane]
  rw [fpWarp, lane_mergeFlags (fun l => (val x l).2) (lanesOf_nodup x.e) _ hl, hlane _ (wrLanes_lanes _ _ _ _ _), wrLanes_lanes]
  simp [hl]

/-- The participants outside the set have their results. -/
theorem fpWarp_written (tr : LaneSet) (w : Warp) (hf : f = .v ∨ f = .p ∨ f = .q) (hd : f = .p → d + 1 ≠ 0) :
    LanesWritten f d (x.e &&& ~~~ tr) (fun l => (val x l).1) w (fpWarp f d val x tr w) := by
  refine lanesWritten_congr ⟨rfl, rfl, rfl, rfl⟩ ?_ (wrLanes_written w f d (x.e &&& ~~~ tr) x.tag (fun l => (val x l).1) hf hd)
  rw [fpWarp, mergeFlags_eq]
  exact ⟨rfl, rfl, rfl, rfl⟩

theorem fpWarp_id (tr : LaneSet) (w : Warp) : (fpWarp f d val x tr w).id = w.id := by rw [fpWarp_eq]

theorem onlyWarp_fpState : OnlyWarp x.w.id t (fpState allowed f d val x t) := by
  have h1 := onlyWarp_modWarp t x.w.id (fpWarp_id f d val x (fpTraps allowed val x))
  unfold fpState
  dsimp only
  split
  · exact h1.trans (onlyWarp_savePoint _ _)
  · exact h1

theorem fpState_getWarp {w : Warp} (hw : t.getWarp x.w.id = some w) : ∃ b, (fpState allowed f d val x t).getWarp x.w.id =
    some { fpWarp f d val x (fpTraps allowed val x) w with stopped := b } := by
  have h1 : (t.modWarp x.w.id (fpWarp f d val x (fpTraps allowed val x))).getWarp x.w.id =
      some (fpWarp f d val x (fpTraps allowed val x) w) := by
    rw [getWarp_modWarp_self _ _ _ (fpWarp_id f d val x _), hw]; rfl
  unfold fpState
  dsimp only
  split
  · exact savePoint_getWarp h1
  · exact ⟨_, h1⟩

end

/-! ## An instruction that issues and is not trapped -/

/-- A pair that is even leaves room for its upper half (R50). -/
theorem succ_ne_zero_of_even {d : Reg} (h : d.getLsbD 0 = false) : d + 1 ≠ 0 := by
  intro h0
  obtain rfl : d = 2047#11 := by bv_omega
  simp at h

section
variable {i : Instr} {s s0 : State} {w : Warp} {x : Issue} {allowed : Flags} {f : File} {d : Reg} {val : Issue → Nat → FRes}

theorem parked_of_issues (h : Issues i s w x s0) : w.parked = false := by
  obtain ⟨⟨-, -, hp, -⟩, -⟩ := h
  exact hp

theorem issueFp_of_issues (h : Issues i s w x s0) (hready : covered allowed w = false ∨ w.outs = []) (effect : Issue → State → State) :
    issueFp i s allowed effect = .next (park x (effect x (begin_ x s0))) := by
  refine issueP_of_issues h effect ?_
  change (!covered allowed w || w.outs.isEmpty) = true
  obtain hcov | hout := hready
  · simp [hcov]
  · simp [hout]

theorem begin_getWarp_of_issues (h : Issues i s w x s0) : (begin_ x s0).getWarp x.w.id = some (begunWarp x s0.nextId w) := by
  obtain ⟨hxw, hw0⟩ := issues_warp h
  rw [begin_getWarp_self, hxw, hw0]; rfl

/-- A participant is a lane of the warp, ready at the run's counter. -/
theorem participant_of_issues (h : Issues i s w x s0) {l : Nat} (hl : l < 32) (he : x.e.getLsbD l = true) :
    x.run.getLsbD l = true ∧ l < w.lanes.length ∧ (w.lane l).st = .ready := by
  have hx := issues_fixed h
  have hrun : x.run.getLsbD l = true := by
    rw [hx] at he ⊢; exact run_of_participant i w hl he
  obtain ⟨hlen, hst, -⟩ := lane_of_run w ((issues_run h).1 ▸ hrun)
  exact ⟨hrun, hlen, hst⟩

/-- An instruction with the effect of R138 that no trap takes completes with the results and flags of its participants. -/
theorem fp_completes (h : Issues i s w x s0) (hu : Untrapped allowed x val) (hf : f = .v ∨ f = .p ∨ f = .q)
    (hd : f = .p → d.getLsbD 0 = false) {effect : Issue → State → State} (he : ∀ t, effect x t = fpEffect allowed f d val x t) :
    ∃ t w', issueFp i s allowed effect = .next t ∧ t.getWarp w.id = some w' ∧ LanesWritten f d x.e (fun l => (val x l).1) w w' ∧
      AdvancedFlags x (fun l => (val x l).2) w w' ∧ WarpKept w w' ∧ ParksBy x w' ∧ Kept s0 t w.id := by
  obtain ⟨hxw, -⟩ := issues_warp h
  obtain ⟨-, hrun⟩ := issues_run h
  have hpk := parked_of_issues h
  have htr := fpTraps_of_untrapped allowed val hu
  have hready : covered allowed w = false ∨ w.outs = [] := by
    obtain hcov | ⟨hout, -⟩ := hu
    · exact .inl (hxw ▸ hcov)
    · exact .inr (hxw ▸ hout)
  have hstep := issueFp_of_issues h hready effect
  rw [he, fpEffect_of_no_trap _ _ _ _ _ _ htr] at hstep
  obtain ⟨b, hb⟩ := fpState_getWarp allowed f d val x _ (begin_getWarp_of_issues h)
  have hfp := fpWarp_eq f d val x 0 (begunWarp x s0.nextId w)
  rw [htr] at hb
  obtain ⟨w', hw', e⟩ := park_getWarp x _ hb (by rw [hfp]; exact hpk)
  refine ⟨_, w', hstep, hxw ▸ hw', ?_, fun l hl => ?_, ?_, ?_, hxw ▸ kept_park_of_onlyWarp (onlyWarp_fpState allowed f d val x _)⟩
  · have hwr := fpWarp_written f d val x 0 (begunWarp x s0.nextId w) hf fun hp => succ_ne_zero_of_even (hd hp)
    rw [show ~~~ (0 : LaneSet) = BitVec.allOnes 32 from BitVec.not_zero, BitVec.and_allOnes] at hwr
    exact lanesWritten_congr ⟨rfl, rfl, rfl, rfl⟩ (by rw [e]; exact ⟨rfl, rfl, rfl, rfl⟩) hwr
  · have hlane : w'.lane l = (fpWarp f d val x 0 (begunWarp x s0.nextId w)).lane l := by rw [e]; rfl
    have hlen : (begunWarp x s0.nextId w).lanes.length = w.lanes.length := by simp [Warp.modLanes]
    rw [hlane, lane_fpWarp _ _ _ _ _ _ hl, begunWarp_lane x _ w hrun l, hlen]
  · rw [e, hfp]; rfl
  · rw [e, ParksBy]

end

section
variable {i : Instr} {allowed : Flags} {f : File} {d : Reg} {val : Issue → Nat → FRes}

theorem fpResult_v (he : ∀ s, exec i s = execFp i s allowed .v d val) : FpResult i allowed .v d val := by
  intro s w x s0 h hu
  rw [he]
  exact fp_completes h hu (.inl rfl) nofun fun _ => rfl

theorem fpResult_q (he : ∀ s, exec i s = execFp i s allowed .q d val) : FpResult i allowed .q d val := by
  intro s w x s0 h hu
  rw [he]
  exact fp_completes h hu (.inr (.inr rfl)) nofun fun _ => rfl

end

end Sys2Proof.Machine
end

section
/-! The trap of a covered floating-point instruction (R137, R138, R157, R159). -/

namespace Sys2Proof.Machine

/-! ## The lanes of a warp that enters its handler (R160, R161) -/

section
variable (w : Warp) (t : Trap) (resume : Nat → Lane → DWord) {l : Nat} (hlt : l < w.lanes.length)
include hlt

/-- A trapped lane stands at the handler's entry, with its resume counter. -/
theorem lane_enterHandler_of_trapped (h : t.lanes.getLsbD l = true) : (enterHandler w t resume).lane l =
    { w.lane l with trapRgn := (w.lane l).rgn, resume := resume l (w.lane l), pc := w.htvec, st := .ready } := by
  simp [Warp.lane, enterHandler, hlt, h]

/-- Another lane that was ready is held. -/
theorem lane_enterHandler_of_ready (h : t.lanes.getLsbD l = false) (hst : (w.lane l).st = .ready) :
    (enterHandler w t resume).lane l = { w.lane l with st := .held .handler } := by
  simp only [Warp.lane, List.getElem?_eq_getElem hlt, Option.getD_some] at hst ⊢
  simp [enterHandler, hlt, h, hst]

end

/-! ## An instruction that issues and traps -/

/-- The trap that some participants take at issue (R159). -/
def fpTrap (allowed : Flags) (f : File) (val : Issue → Nat → FRes) (x : Issue) : Trap :=
  { cause := fpTrapCause allowed val x, lanes := fpTraps allowed val x, pc := x.pc, d := x.r.d, file := fileCode f, tag := x.tag }

section
variable {i : Instr} {s s0 : State} {w : Warp} {x : Issue} {allowed : Flags} {f : File} {d : Reg} {val : Issue → Nat → FRes}
  (h : Issues i s w x s0) (hout : w.outs = []) (hv : w.htvec ≠ 0) (ht : w.inTrap = false) (htr : fpTraps allowed val x ≠ 0)
include h hout hv ht htr

/-- What a covered instruction leaves of its warp when some participants trap: the warp u with the results and flags, which may have
stopped for a save, enters its handler. -/
theorem fp_enters_handler : ∃ t w' u, execFp i s allowed f d val = .next t ∧ t.getWarp w.id = some w' ∧
    u = { fpWarp f d val x (fpTraps allowed val x) (begunWarp x s0.nextId w) with stopped := u.stopped } ∧
    w' = { enterHandler u (fpTrap allowed f val x) (fun _ _ => x.after) with
      parked := w'.parked
      stopped := w'.stopped
      opbuf := w'.opbuf } := by
  obtain ⟨hxw, -⟩ := issues_warp h
  have hpk := parked_of_issues h
  have hstep := issueFp_of_issues (allowed := allowed) h (.inr hout) (fpEffect allowed f d val)
  obtain ⟨b, hb⟩ := fpState_getWarp allowed f d val x _ (begin_getWarp_of_issues h)
  have hfp := fpWarp_eq f d val x (fpTraps allowed val x) (begunWarp x s0.nextId w)
  generalize fpWarp f d val x (fpTraps allowed val x) (begunWarp x s0.nextId w) = u at hb hfp ⊢
  have henter := takeTrap_enters _ (fpTrap allowed f val x) (fun _ _ => x.after) hb htr (by rw [hfp]; exact hv)
    (.inl (by rw [hfp]; exact ht))
  have hid : u.id = x.w.id := by rw [hfp, hxw]; rfl
  rw [fpEffect_of_trap _ _ _ _ _ _ htr, show issueTrap x _ _ 0 _ _ = _ from henter] at hstep
  obtain ⟨w', hw', e⟩ := park_getWarp x _ (getWarp_setWarp_of hb (x := enterHandler { u with stopped := b } _ _) hid)
    (by rw [hfp]; exact hpk)
  exact ⟨_, w', { u with stopped := b }, hstep, hxw ▸ hw', rfl, by rw [e]⟩

/-- The trap record, the results of the participants that do not trap, and where each participant stands. -/
theorem fp_traps (hf : f = .v ∨ f = .p ∨ f = .q) (hd : f = .p → d.getLsbD 0 = false) :
    ∃ t w', execFp i s allowed f d val = .next t ∧ t.getWarp w.id = some w' ∧ w'.inTrap = true ∧ w'.hmask = fpTraps allowed val x ∧
      w'.hpc = x.pc ∧ w'.hcause = BitVec.ofNat 32 (fpTrapCause allowed val x).toNat ∧
      LanesWritten f d (x.e &&& ~~~ fpTraps allowed val x) (fun l => (val x l).1) w w' ∧
      ∀ l, l < 32 → x.e.getLsbD l = true →
        (w'.lane l).fpx = (w.lane l).fpx ||| (val x l).2 ∧
        ((fpTraps allowed val x).getLsbD l = true →
          (w'.lane l).pc = w.htvec ∧ (w'.lane l).st = .ready ∧ (w'.lane l).resume = x.after) ∧
        ((fpTraps allowed val x).getLsbD l = false → (w'.lane l).pc = x.after ∧ (w'.lane l).st = .held .handler) := by
  obtain ⟨-, hrun⟩ := issues_run h
  obtain ⟨t, w', u, hstep, hw', hu, e⟩ := fp_enters_handler (f := f) (d := d) h hout hv ht htr
  refine ⟨t, w', hstep, hw', by rw [e]; rfl, by rw [e]; rfl, by rw [e]; rfl, ?_, ?_, fun l hl he => ?_⟩
  · rw [e]; simp [enterHandler, hcauseWord, fpTrap]
  · have hwr := fpWarp_written f d val x (fpTraps allowed val x) (begunWarp x s0.nextId w) hf fun hp => succ_ne_zero_of_even (hd hp)
    exact lanesWritten_congr ⟨rfl, rfl, rfl, rfl⟩ (by rw [e, hu]; exact ⟨rfl, rfl, rfl, rfl⟩) hwr
  · obtain ⟨hr, hlt, hst⟩ := participant_of_issues h hl he
    have hvec : u.htvec = w.htvec := by rw [hu, fpWarp_eq]; rfl
    have hbegun : (begunWarp x s0.nextId w).lanes.length = w.lanes.length := by simp [Warp.modLanes]
    have hlen : l < u.lanes.length := by rw [hu, fpWarp_length, hbegun]; exact hlt
    have hlane : u.lane l = { w.lane l with pc := x.after, fpx := (w.lane l).fpx ||| (val x l).2 } := by
      have hflags : u.lane l = (fpWarp f d val x (fpTraps allowed val x) (begunWarp x s0.nextId w)).lane l := by rw [hu]; rfl
      rw [hflags, lane_fpWarp _ _ _ _ _ _ hl, begunWarp_lane x _ w hrun l, hbegun]
      simp [he, hlt, hr]
    have hafter : w'.lane l = (enterHandler u (fpTrap allowed f val x) fun _ _ => x.after).lane l := by rw [e]; rfl
    have htrap : (fpTrap allowed f val x).lanes = fpTraps allowed val x := rfl
    cases hbit : (fpTraps allowed val x).getLsbD l with
    | true =>
      rw [hafter, lane_enterHandler_of_trapped _ _ _ hlen (htrap ▸ hbit), hlane, hvec]
      exact ⟨rfl, fun _ => ⟨rfl, rfl, rfl⟩, nofun⟩
    | false =>
      rw [hafter, lane_enterHandler_of_ready _ _ _ hlen (htrap ▸ hbit) (by rw [hlane]; exact hst), hlane]
      exact ⟨rfl, nofun, fun _ => ⟨rfl, rfl⟩⟩

end

/-- The sum that FADD forms in a lane, with its flags (R140). -/
def faddOf (p : FTy) (rm : RMode) (a : Reg) (b : SrcB) (x : Issue) (l : Nat) : FRes :=
  faddBits (ftyFmt p) (modeOf x rm) (ftzOf x) (readReg x .v a l) (srcB x .v b l)

theorem exec_fadd (h : Hdr) (p : FTy) (rm : RMode) (d a : Reg) (b : SrcB) (s : State) :
    exec (.fadd h p rm d a b) s = execFp (.fadd h p rm d a b) s flagsArith .v d (faddOf p rm a b) := rfl

/-- Settles O10: FADD takes the trap of R138 as every covered instruction does that writes its destination at issue. -/
theorem coveredFloatTraps : Obligations.CoveredFloatTraps := by
  intro h p rm d a b s w x s0 hi hout hv ht val tr raised htr hcov
  obtain ⟨hxw, -⟩ := issues_warp hi
  have hen : fpEnables flagsArith x.w = trapEnables w.fpc := by rw [fpEnables, hxw, if_pos hcov]
  have htraps : fpTraps flagsArith (faddOf p rm a b) x = tr := by rw [fpTraps, hen]; rfl
  have hcause : fpTrapCause flagsArith (faddOf p rm a b) x = fpCause raised := by rw [fpTrapCause, hen]; rfl
  obtain ⟨t, w', hstep, hw', hin, hmask, hpc, hhc, hwritten, hlanes⟩ :=
    fp_traps (f := .v) (d := d) hi hout hv ht (htraps ▸ htr) (.inl rfl) nofun
  rw [htraps] at hmask hwritten hlanes
  refine ⟨t, w', (exec_fadd h p rm d a b s).trans hstep, hw', hin, hmask, hpc, hcause ▸ hhc, fun l hl he => ?_⟩
  obtain ⟨hfpx, htrapped, hothers⟩ := hlanes l hl he
  refine ⟨hfpx, fun hbit => ⟨?_, htrapped hbit⟩, fun hbit => ⟨?_, hothers hbit⟩⟩
  · obtain ⟨hv', -⟩ := hwritten
    rw [hv' d l hl]
    simp [hbit]
  · exact rdV_of_lanesWritten hwritten hl (by rw [BitVec.getLsbD_and, BitVec.getLsbD_not, he, hbit, decide_eq_true hl]; rfl)

end Sys2Proof.Machine
end

section
/-! The floating-point, logarithmic and conversion instructions (R139 to R144, R148 to R156). -/

namespace Sys2Proof.Machine

/-! ## Arithmetic, compares and packed halves (R139 to R144, R148) -/

theorem floatResults : Clause.FloatResults :=
  ⟨fun _ _ _ _ _ _ => fpResult_v fun _ => rfl,
   fun _ _ _ _ _ _ => fpResult_v fun _ => rfl,
   fun _ _ _ _ _ _ => fpResult_v fun _ => rfl,
   fun _ _ _ _ _ => fpResult_v fun _ => rfl,
   fun _ _ _ _ _ => fpResult_v fun _ => rfl,
   fun _ _ _ _ _ => fpResult_v fun _ => rfl,
   fun _ _ _ _ _ _ => fpResult_q fun _ => rfl,
   fun _ _ _ _ _ _ => fpResult_v fun _ => rfl,
   fun _ _ _ _ => laneResult_v fun _ => rfl,
   fun _ _ _ _ _ => laneResult_q fun _ => rfl,
   fun _ _ _ _ _ => fpResult_v fun _ => rfl,
   fun _ _ _ _ _ _ => fpResult_v fun _ => rfl,
   fun _ _ _ _ => fpResult_v fun _ => rfl,
   fun _ _ _ _ _ _ => fpResult_v fun _ => rfl,
   fun _ _ _ _ _ _ => fpResult_v fun _ => rfl,
   fun _ _ _ _ _ => fpResult_v fun _ => rfl,
   fun _ _ _ _ _ => fpResult_v fun _ => rfl,
   fun _ _ _ _ _ => fpResult_v fun _ => rfl⟩

/-! ## The dot product of signed bytes (R149) -/

/-- An element of a packed word, as a signed number. -/
theorem valInt_element (v : Word) (n i : Nat) : valInt true n (v.toNat / 2 ^ i) = (v.extractLsb' i n).toInt := by
  rw [← valInt_signed_toNat, BitVec.extractLsb'_toNat, Nat.shiftRight_eq_div_pow]
  simp [valInt]

/-- A word that was narrowed from a number has the number's value modulo 2^32, balanced about zero. -/
theorem toInt_ofNat_wrapInt (y : Int) : (BitVec.ofNat 32 (wrapInt 32 y)).toInt = y.bmod (2 ^ 32) := by
  rw [wrapInt_eq_toNat, BitVec.ofNat_toNat, BitVec.setWidth_eq, BitVec.toInt_ofInt]

theorem dot4s8_toInt (a b c : Word) : (BitVec.ofNat 32 (dot4s8Bits a.toNat b.toNat c.toNat)).toInt =
    (c.toInt + (a.extractLsb' 0 8).toInt * (b.extractLsb' 0 8).toInt + (a.extractLsb' 8 8).toInt * (b.extractLsb' 8 8).toInt +
      (a.extractLsb' 16 8).toInt * (b.extractLsb' 16 8).toInt + (a.extractLsb' 24 8).toInt * (b.extractLsb' 24 8).toInt).bmod
        (2 ^ 32) := by
  have hrange : List.range 4 = [0, 1, 2, 3] := rfl
  rw [dot4s8Bits, toInt_ofNat_wrapInt, hrange, BitVec.toInt_eq_toNat_bmod (x := c)]
  simp only [List.foldl_cons, List.foldl_nil, valInt_element, Int.add_assoc, Int.bmod_add_bmod]

/-! ## Dot products and the logarithmic format (R149, R155, R156) -/

theorem dotAndLogResults : Clause.DotAndLogResults :=
  ⟨fun _ _ _ _ _ _ => fpResult_v fun _ => rfl,
   fun _ _ _ _ _ => fpResult_v fun _ => rfl,
   fun _ _ _ => laneResult_v fun _ => rfl,
   fun _ _ _ _ => fpResult_v fun _ => rfl,
   fun _ _ _ _ => fpResult_v fun _ => rfl,
   fun _ _ _ _ => laneResult_v fun _ => rfl,
   fun _ _ _ _ => fpResult_v fun _ => rfl,
   dot4s8_toInt⟩

/-- Settles O11: the meaning of each is its value and flags per participant; the sum of a dot product of bytes is taken modulo 2^32. -/
theorem floatingPointResults : Obligations.FloatingPointResults := ⟨floatResults, dotAndLogResults⟩

/-! ## Conversions (R150 to R154) -/

/-- A conversion whose scale bytes are numbers has the effect of R138. -/
theorem cvtEffect_of_no_nan (allowed : Flags) (f : File) (d : Reg) {sc : Bool} {c : Issue → Nat → Nat} (val : Issue → Nat → FRes)
    {x : Issue} (h : nanScaleLanes x sc (c x) = 0) (t : State) : cvtEffect allowed f d sc c val x t = fpEffect allowed f d val x t := by
  simp [cvtEffect, h]

section
variable {i : Instr} {s s0 : State} {w : Warp} {x : Issue} {allowed : Flags} {f : File} {d : Reg} {val : Issue → Nat → FRes} {sc : Bool}
  {c : Issue → Nat → Nat}

/-- A conversion that no trap takes and whose scale bytes are numbers completes with its value and flags in each participant. -/
theorem cvt_completes (he : exec i s = issueFp i s allowed (cvtEffect allowed f d sc c val)) (hf : f = .v ∨ f = .p)
    (hd : i.operands.head? = some (.mk1 f d)) (h : Issues i s w x s0) (hu : Untrapped allowed x val) (hnan : nanScaleLanes x sc (c x) = 0) :
    ∃ t w', exec i s = .next t ∧ t.getWarp w.id = some w' ∧ LanesWritten f d x.e (fun l => (val x l).1) w w' ∧
      AdvancedFlags x (fun l => (val x l).2) w w' ∧ WarpKept w w' ∧ Kept s0 t w.id := by
  obtain ⟨t, w', hstep, hw', hwritten, hflags, hkept, -, hout⟩ := fp_completes h hu (hf.imp_right .inl)
    (fun hp => even_of_wf_of_pair (hp ▸ hd) (issues_wf h)) (cvtEffect_of_no_nan allowed f d val hnan)
  exact ⟨t, w', he.trans hstep, hw', hwritten, hflags, hkept, hout⟩

end

theorem file_v_or_p (t : CTy) : t.file = .v ∨ t.file = .p := by cases t <;> decide

/-- Settles O8: with no scale byte that is not a number, the meaning of each is its value and flags per participant. -/
theorem conversionResults : Obligations.ConversionResults :=
  ⟨fun _ dst _ _ _ _ _ _ _ _ _ _ _ _ h hu hnan => cvt_completes rfl (file_v_or_p dst) rfl h hu hnan,
   fun _ _ _ _ _ _ _ _ _ _ _ h hu hnan => cvt_completes rfl (.inl rfl) rfl h hu hnan,
   fun _ _ _ _ _ _ _ _ _ _ _ _ _ h hu hnan => cvt_completes rfl (.inr rfl) rfl h hu hnan⟩

end Sys2Proof.Machine
end

section
/-! Traps that the participants take as they issue (R159, R160, R165), and traps that go to service level (R163). A warp has 32 lanes (R74),
but the statements do not ask for it, and a lane that the list does not hold reads as a ready one, which no trap holds: what they say of a
trap that is taken is true of exactly the warps that list 32 lanes. -/

namespace Sys2Proof.Machine

/-! ## The participants in their handler (R160) -/

/-- The trap that every participant takes at issue (R159). -/
def participantsTrap (x : Issue) (cause : BitVec 8) (info : BitVec 16) (file : BitVec 3) : Trap :=
  { cause := cause, info := info, lanes := x.e, pc := x.pc, d := x.r.d, file := file, tag := x.tag }

theorem issueTrap_participants (x : Issue) (s : State) (cause : BitVec 8) (info : BitVec 16) (file : BitVec 3) :
    issueTrap x s cause info x.e file = takeTrap s x.w.id (participantsTrap x cause info file) fun _ _ => x.after := rfl

/-- The warp that has taken it. -/
def trappedIssue (x : Issue) (n : Nat) (w : Warp) (cause : BitVec 8) (info : BitVec 16) (file : BitVec 3) : Warp :=
  enterHandler (begunWarp x n w) (participantsTrap x cause info file) fun _ _ => x.after

/-- A lane that a warp does not list reads the same in its handler. -/
theorem lane_enterHandler_of_absent (w : Warp) (t : Trap) (resume : Nat → Lane → DWord) {l : Nat} (h : w.lanes.length ≤ l) :
    w.lane l = {} ∧ (enterHandler w t resume).lane l = {} :=
  ⟨by simp [Warp.lane, h], by simp [Warp.lane, enterHandler, h]⟩

theorem begunWarp_length (x : Issue) (n : Nat) (w : Warp) : (begunWarp x n w).lanes.length = w.lanes.length := by simp [Warp.modLanes]

section
variable {i : Instr} {s s0 : State} {w : Warp} {x : Issue} (h : Issues i s w x s0) (cause : BitVec 8) (info : BitVec 16) (file : BitVec 3)
include h

theorem lane_trappedIssue_of_participant (n : Nat) {l : Nat} (hl : l < 32) (he : x.e.getLsbD l = true) :
    (trappedIssue x n w cause info file).lane l =
      { w.lane l with trapRgn := (w.lane l).rgn, resume := x.after, pc := w.htvec, st := .ready } := by
  obtain ⟨-, hrun⟩ := issues_run h
  obtain ⟨-, hlt, -⟩ := participant_of_issues h hl he
  rw [trappedIssue, lane_enterHandler_of_trapped _ _ _ ((begunWarp_length x n w).symm ▸ hlt) he, begunWarp_lane x n w hrun]
  rfl

theorem lane_trappedIssue_of_ready (n : Nat) {l : Nat} (hlt : l < w.lanes.length) (he : x.e.getLsbD l = false)
    (hst : (w.lane l).st = .ready) : ((trappedIssue x n w cause info file).lane l).st = .held .handler := by
  obtain ⟨-, hrun⟩ := issues_run h
  rw [trappedIssue, lane_enterHandler_of_ready _ _ _ ((begunWarp_length x n w).symm ▸ hlt) he]
  rw [begunWarp_lane x n w hrun]; exact hst

/-- The trap of the participants is taken as R160 says it, for every lane below 32, exactly when the warp lists its 32 lanes. -/
theorem trapTaken_trappedIssue_iff (n : Nat) {w' : Warp}
    (e : w' = { trappedIssue x n w cause info file with parked := w'.parked, stopped := w'.stopped, opbuf := w'.opbuf }) :
    TrapTaken w w' cause info x.e x.pc x.after ↔ 32 ≤ w.lanes.length := by
  have hlane (l : Nat) : w'.lane l = (trappedIssue x n w cause info file).lane l := by rw [e]; rfl
  constructor
  · rintro ⟨-, -, -, -, -, -, hheld, -⟩
    by_contra hlen
    obtain ⟨-, hafter⟩ := lane_enterHandler_of_absent (begunWarp x n w) (participantsTrap x cause info file) (fun _ _ => x.after) (l := 31)
      (by rw [begunWarp_length]; omega)
    have hbefore : w.lane 31 = {} := (lane_enterHandler_of_absent w (participantsTrap x cause info file) (fun _ _ => x.after) (by omega)).1
    have hpart : x.e.getLsbD 31 = false := Bool.eq_false_iff.2 fun he => by
      obtain ⟨-, hlt, -⟩ := participant_of_issues h (by decide) he
      omega
    have hst := hheld 31 (by decide) hpart (by rw [hbefore])
    rw [hlane, trappedIssue, hafter] at hst
    cases hst
  · intro hlen
    refine ⟨by rw [e]; rfl, ?_, by rw [e]; rfl, by rw [e]; rfl, by rw [e]; rfl, fun l hl he => ?_, fun l hl he hst => ?_, ?_, by rw [e]; rfl,
      by rw [e]; rfl, by rw [e]; rfl⟩
    · rw [e]; simp [trappedIssue, enterHandler, participantsTrap, hcauseWord]
    · rw [hlane, lane_trappedIssue_of_participant h cause info file n hl he]; exact ⟨rfl, rfl, rfl, rfl⟩
    · rw [hlane, lane_trappedIssue_of_ready h cause info file n (by omega) he hst]
    · rw [e]; exact ⟨fun _ _ _ => rfl, fun _ _ _ => rfl, fun _ => rfl, fun _ => rfl⟩

variable {ready : Issue → State → Bool} {prep : Issue → State → State} {effect : Issue → State → State}
  (hexec : exec i s = issueP i s ready prep effect) (hready : ready (mkIssue i w) s = true)
  (heff : effect x (begin_ x s0) = issueTrap x (begin_ x s0) cause info x.e file) (hv : w.htvec ≠ 0) (ht : w.inTrap = false)
include hexec hready heff hv ht

/-- An instruction whose effect is a trap of its participants, outside a handler: its warp has begun and enters the handler, and meets the
park marker there. -/
theorem issue_enters_handler :
    ∃ t w', exec i s = .next t ∧ t.getWarp w.id = some w' ∧ t.mem = s0.mem ∧
      w' = { trappedIssue x s0.nextId w cause info file with parked := w'.parked, stopped := w'.stopped, opbuf := w'.opbuf } := by
  obtain ⟨hxw, -⟩ := issues_warp h
  have ⟨_, he, _, _⟩ := h
  have hbegun := begin_getWarp_of_issues h
  have henter := takeTrap_enters _ (participantsTrap x cause info file) (fun _ _ => x.after) hbegun he hv (.inl ht)
  have hstep := issueP_of_issues (prep := prep) h effect hready
  rw [heff, issueTrap_participants, henter] at hstep
  have hself := getWarp_setWarp_of hbegun (x := trappedIssue x s0.nextId w cause info file) (by rw [hxw]; rfl)
  obtain ⟨w', hw', e⟩ := park_getWarp x _ hself (show w.parked = false from parked_of_issues h)
  exact ⟨_, w', hexec.trans hstep, hxw ▸ hw', by simp, by rw [e]⟩

/-- R159, R160 of a warp of 32 lanes. -/
theorem issueTrap_taken (hlanes : 32 ≤ w.lanes.length) :
    ∃ t w', exec i s = .next t ∧ t.getWarp w.id = some w' ∧ TrapTaken w w' cause info x.e x.pc x.after ∧ t.mem = s0.mem := by
  obtain ⟨t, w', hstep, hw', hmem, e⟩ := issue_enters_handler h cause info file hexec hready heff hv ht
  exact ⟨t, w', hstep, hw', (trapTaken_trappedIssue_iff h cause info file _ e).2 hlanes, hmem⟩

/-- What a statement says that the participants' trap is taken shows that the warp lists its 32 lanes. -/
theorem lanes_of_issueTrap_taken (hclaim : ∃ t w', exec i s = .next t ∧ t.getWarp w.id = some w' ∧
    TrapTaken w w' cause info x.e x.pc x.after ∧ t.mem = s0.mem) : 32 ≤ w.lanes.length := by
  obtain ⟨t, w', hstep, hw', htaken, -⟩ := hclaim
  obtain ⟨u, u', hstep', hu', -, e⟩ := issue_enters_handler h cause info file hexec hready heff hv ht
  obtain rfl := Host.Outcome.next.inj (hstep.symm.trans hstep')
  obtain rfl := Option.some.inj (hw'.symm.trans hu')
  exact (trapTaken_trappedIssue_iff h cause info file _ e).1 htaken

end

end Sys2Proof.Machine
end

section
/-! Traps that go to service level (R163): what becomes of the warps of the workgroup, and what the workgroup keeps for its exit record. -/

namespace Sys2Proof.Machine

/-! ## A warp that is stopped for good -/

/-- A warp after a change of its counters c.* and of what the matrix engine has told it. -/
def CountsOnly (w w' : Warp) : Prop := w' = { w with ctrs := w'.ctrs, reports := w'.reports, fold := w'.fold }

theorem CountsOnly.trans {w u y : Warp} (h : CountsOnly w u) (h' : CountsOnly u y) : CountsOnly w y := Eq.trans h' (by rw [h])

theorem CountsOnly.foldl {α : Type} {f : Warp → α → Warp} (hf : ∀ w a, CountsOnly w (f w a)) (ls : List α) (w : Warp) :
    CountsOnly w (ls.foldl f w) := by
  induction ls generalizing w with
  | nil => exact rfl
  | cons a ls ih => exact (hf w a).trans (ih _)

theorem countsOnly_dropReads (w : Warp) : CountsOnly w (dropReads w) :=
  .foldl (fun _ _ => by split <;> exact rfl) _ w

/-- A warp that service level has stopped: its lanes have exited and nothing of it will return. -/
def Killed (w : Warp) : Prop := (∀ l, l < w.lanes.length → (w.lane l).st = .exited) ∧ w.outs = [] ∧ w.reads = []

theorem killed_killWarp (w : Warp) : Killed (killWarp w) := by
  refine ⟨fun l hl => ?_, rfl, rfl⟩
  have hlt : l < w.lanes.length := by simpa [killWarp] using hl
  simp [Warp.lane, killWarp, hlt]

/-- It keeps its identity and its registers. -/
theorem killWarp_kept (w : Warp) :
    (killWarp w).id = w.id ∧ (killWarp w).wg = w.wg ∧ (killWarp w).pend = [] ∧ SameFiles w (killWarp w) := by
  have h := countsOnly_dropReads w
  unfold killWarp
  rw [h]
  exact ⟨rfl, rfl, rfl, rfl, rfl, rfl, rfl⟩

/-! ## A trap that goes to service level -/

section
variable {s : State} {n : Nat} {w : Warp} (t : Trap) (double : Bool) (hw : s.getWarp n = some w)
include hw

theorem serviceTrap_warps : (serviceTrap s n t double).warps = s.warps.map fun x => if x.wg == w.wg then killWarp x else x := by
  simp only [serviceTrap, hw]
  rw [noteEnd_state]; rfl

/-- Every warp of the workgroup is stopped. -/
theorem killed_of_serviceTrap {v : Warp} (hv : v ∈ (serviceTrap s n t double).warps) (hwg : v.wg = w.wg) : Killed v := by
  rw [serviceTrap_warps t double hw] at hv
  obtain ⟨z, -, rfl⟩ := List.mem_map.1 hv
  split at hwg
  case isTrue hz => rw [if_pos hz]; exact killed_killWarp z
  case isFalse hz => exact absurd (beq_iff_eq.2 hwg) hz

/-- What the workgroup keeps for its exit record. -/
theorem serviceTrap_getWg {g : Workgroup} (hg : s.getWg w.wg = some g) :
    ∃ g', (serviceTrap s n t double).getWg w.wg = some g' ∧ g'.draining = true ∧
      g'.ended = some ⟨double, hcauseWord t, t.lanes, t.pc, w.idx, exitRgns w double⟩ := by
  have hmod := getWg_modWg_self s w.wg (fun y =>
    { y with
      ended := some ⟨double, hcauseWord t, t.lanes, t.pc, w.idx, exitRgns w double⟩
      draining := true
      lfm := (s.warps.filter fun x => x.wg == w.wg).foldl (fun acc x => acc ||| x.lfm) y.lfm }) fun _ => rfl
  rw [hg] at hmod
  simp only [serviceTrap, hw]
  rw [noteEnd_state]
  exact ⟨_, hmod, rfl, rfl⟩

/-- The warp of the trap is stopped with the others. -/
theorem serviceTrap_getWarp : (serviceTrap s n t double).getWarp n = some (killWarp w) := by
  have hid : ∀ x : Warp, (if x.wg == w.wg then killWarp x else x).id = x.id := fun x => by split <;> simp [killWarp_kept]
  unfold State.getWarp at hw ⊢
  rw [serviceTrap_warps t double hw, List.find?_map]
  simp only [Function.comp_def, hid, hw]
  simp

/-- `TakeTrap` without a trap vector, or by lanes of the handler that runs (R160, R163). -/
theorem takeTrap_serves (resume : Nat → Lane → DWord) (hl : t.lanes ≠ 0)
    (h : w.htvec = 0 ∨ (w.inTrap = true ∧ t.lanes &&& w.hmask ≠ 0)) :
    takeTrap s n t resume = serviceTrap s n t (w.inTrap && t.lanes &&& w.hmask != 0) := by
  have h1 : ¬ (t.lanes == 0) = true := by rwa [beq_iff_eq]
  have h2 : (w.htvec == 0 || (w.inTrap && t.lanes &&& w.hmask != 0)) = true := by simpa using h
  simp only [takeTrap, hw, if_neg h1, if_pos h2]

end

/-! ## The park marker behind it -/

/-- A warp behind a park marker is one from before it, but for its park, its stop and its operand buffer. -/
theorem mem_park_warps {x : Issue} {s : State} {v : Warp} (h : v ∈ (park x s).warps) :
    ∃ y ∈ s.warps, v = { y with parked := v.parked, stopped := v.stopped, opbuf := v.opbuf } := by
  have hmod : ∀ v ∈ (s.modWarp x.w.id fun w => { w with parked := !w.outs.isEmpty, opbuf := none }).warps,
      ∃ y ∈ s.warps, v = { y with parked := v.parked, stopped := v.stopped, opbuf := v.opbuf } := by
    intro v hv
    obtain ⟨y, hy, rfl⟩ := List.mem_map.1 hv
    exact ⟨y, hy, by split <;> rfl⟩
  unfold park at h
  split at h
  · obtain e | ⟨u, hu, e⟩ := savePoint_cases (s.modWarp x.w.id fun w => { w with parked := !w.outs.isEmpty, opbuf := none }) x.w.id
    · exact hmod v (e ▸ h)
    · rw [e] at h
      obtain ⟨z, hz, rfl⟩ := List.mem_map.1 h
      split
      · obtain ⟨y, hy, hyu⟩ := hmod u (List.mem_of_find?_eq_some hu)
        exact ⟨y, hy, by rw [hyu]⟩
      · exact hmod z hz
  · exact ⟨v, h, rfl⟩

theorem Killed.of_park {y v : Warp} (h : Killed y) (e : v = { y with parked := v.parked, stopped := v.stopped, opbuf := v.opbuf }) :
    Killed v := by
  rw [e]; exact h

/-! ## TRAP (R165) -/

theorem exec_trap (h : Hdr) (code : Option (BitVec 16)) (s : State) :
    exec (.trap h code) s = issue (.trap h code) s always fun x t => issueTrap x t 0x30 (code.getD 0) x.e 0 := rfl

/-- An instruction that pops nothing issues from the state itself. -/
theorem issues_state {i : Instr} {s s0 : State} {w : Warp} {x : Issue} (h : Issues i s w x s0) (hq : popQueue (rawOf i) = none) : s0 = s := by
  obtain ⟨-, -, -, hs⟩ := h
  rw [supply, hq] at hs
  exact (congrArg Prod.snd (Option.some.inj hs)).symm

theorem popQueue_trap (h : Hdr) (code : Option (BitVec 16)) : popQueue (rawOf (.trap h code)) = none := by cases code <;> rfl

/-- R160, R165 of a warp of 32 lanes: TRAP enters the handler. -/
theorem trapInstruction_taken {h : Hdr} {code : Option (BitVec 16)} {s s0 : State} {w : Warp} {x : Issue} (hi : Issues (.trap h code) s w x s0)
    (hv : w.htvec ≠ 0) (ht : w.inTrap = false) (hlanes : 32 ≤ w.lanes.length) :
    ∃ t w', exec (.trap h code) s = .next t ∧ t.getWarp w.id = some w' ∧ TrapTaken w w' 0x30 (code.getD 0) x.e x.pc x.after ∧
      t.mem = s0.mem :=
  issueTrap_taken hi 0x30 (code.getD 0) 0 (exec_trap h code s) rfl rfl hv ht hlanes

/-- The workgroup of the warp that begins is in the state it begins in. -/
theorem begin_getWg_of_some {x : Issue} {s : State} {k : Nat} {g : Workgroup} (hg : s.getWg k = some g) :
    ∃ g', (begin_ x s).getWg k = some g' := by
  have h := begin_getWg x s k
  rw [hg] at h
  obtain ⟨g', hg', -⟩ := Option.map_eq_some_iff.1 h
  exact ⟨g', hg'⟩

/-- R163, R165: TRAP without a trap vector or inside the handler of its lanes ends the workgroup. -/
theorem serviceLevelEndsWorkgroup : Clause.ServiceLevelEndsWorkgroup := by
  intro h code s w x s0 g hi hg hserve
  obtain ⟨hxw, -⟩ := issues_warp hi
  obtain rfl := issues_state hi (popQueue_trap h code)
  have ⟨_, he, _, _⟩ := hi
  have hbegun := begin_getWarp_of_issues hi
  obtain ⟨g1, hg1⟩ := begin_getWg_of_some (x := x) hg
  have hstep := issueP_of_issues hi (ready := always) (prep := fun _ t => t)
    (fun y t => issueTrap y t 0x30 (code.getD 0) y.e 0) rfl
  rw [issueTrap_participants, takeTrap_serves (participantsTrap x 0x30 (code.getD 0) 0) hbegun _ he hserve] at hstep
  obtain ⟨g', hg', hdrain, hended⟩ :=
    serviceTrap_getWg (participantsTrap x 0x30 (code.getD 0) 0) (w.inTrap && x.e &&& w.hmask != 0) hbegun hg1
  refine ⟨_, g', _, (exec_trap h code s0).trans hstep, ?_, hended, hdrain, rfl, ?_, rfl, rfl, rfl, fun v hv hvw => ?_, ?_⟩
  · rw [park_state]; exact hg'
  · simp [participantsTrap, hcauseWord]
  · obtain ⟨y, hy, e⟩ := mem_park_warps hv
    have hwg : y.wg = w.wg := by rw [← hvw, e]
    exact (killed_of_serviceTrap _ _ hbegun hy hwg).of_park e
  · rw [park_mem, serviceTrap_state]; exact begin_mem x s0

/-- Refutes O19: a warp that lists lane 0 only executes TRAP, and lane 1, which reads as ready, is not held as the clause on traps taken says.
With 32 lanes it is `trapInstruction_taken`; the clause on service level holds as it stands, `serviceLevelEndsWorkgroup`. -/
theorem not_trapsTakenAndServiceLevel : ¬ Obligations.TrapsTakenAndServiceLevel := by
  rintro ⟨h, -⟩
  have hi : Issues (.trap h0 none) (oneLaneState 0) (oneLane 0) (mkIssue (.trap h0 none) (oneLane 0)) (oneLaneState 0) :=
    ⟨⟨rfl, by decide, rfl, rfl, rfl, rfl, by decide⟩, by decide, by decide, rfl⟩
  have hlanes := lanes_of_issueTrap_taken hi 0x30 0 0 (exec_trap h0 none _) rfl rfl (by decide) rfl (h _ _ _ _ _ _ hi (by decide) rfl)
  exact absurd hlanes (by decide)

end Sys2Proof.Machine
end

section
/-! The steps of a return from a trap (R86, R162, R169, R255): the substituted result, the lanes, the masks, and matrix work taken back. -/

namespace Sys2Proof.Machine

/-! ## The substituted result (R169) -/

theorem registersOnly_wrVLate (w : Warp) (r : Reg) (l t : Nat) (v : Word) : RegistersOnly w (wrVLate w r l t v) := by
  unfold wrVLate
  split
  · exact registersOnly_wrV _ _ _ _ _
  · exact rfl

theorem registersOnly_wrQLate (w : Warp) (r : Reg) (l t : Nat) (b : Bool) : RegistersOnly w (wrQLate w r l t b) := by
  unfold wrQLate
  split
  · exact registersOnly_wrQ _ _ _ _ _
  · exact rfl

theorem registersOnly_wrWLate (w : Warp) (r : Reg) (t : Nat) (v : Word) : RegistersOnly w (wrWLate w r t v) := by
  unfold wrWLate
  split
  · exact registersOnly_wrW _ _ _ _
  · exact rfl

theorem registersOnly_wrMLate (w : Warp) (r : Reg) (t : Nat) (v : LaneSet) : RegistersOnly w (wrMLate w r t v) := by
  unfold wrMLate
  split <;> exact rfl

/-- The substituted result goes to the register files, whatever FILE names. -/
theorem registersOnly_rttSub (w : Warp) : RegistersOnly w (rttSub w) := by
  unfold rttSub
  extract_lets r put w1
  have hlanes : RegistersOnly w w1 := by
    refine .foldl (fun acc l => ?_) _ w
    simp only [put]
    split
    · exact registersOnly_wrVLate _ _ _ _ _
    · split
      · exact rfl
      · exact (registersOnly_wrVLate _ _ _ _ _).trans (registersOnly_wrVLate _ _ _ _ _)
    · exact registersOnly_wrQLate _ _ _ _ _
    · exact rfl
  split
  · exact hlanes.trans (registersOnly_wrWLate _ _ _ _)
  · exact hlanes.trans (registersOnly_wrMLate _ _ _ _)
  · exact hlanes

/-- With FILE 1 it is a late write of the vector register in each trapped lane. -/
theorem rttSub_of_v {w : Warp} {r : Reg} (h : w.hdst = BitVec.ofNat 32 (r.toNat + 2 ^ 11)) :
    rttSub w = (lanesOf w.hmask).foldl (fun acc l => wrVLate acc r l w.trapTag (w.hsub.setWidth 32)) w := by
  have hlt := r.isLt
  have hnum : w.hdst.toNat = r.toNat + 2 ^ 11 := by rw [h, BitVec.toNat_ofNat]; omega
  have hfile : bitsAt w.hdst.toNat 11 3 = 1 := by rw [hnum, bitsAt]; omega
  have hreg : w.hdst.extractLsb' 0 11 = r := by
    apply BitVec.eq_of_toNat_eq
    rw [BitVec.extractLsb'_toNat, hnum, Nat.shiftRight_zero]; omega
  simp only [rttSub, hfile, hreg]

/-- A late write leaves unchanged which of its own tag's writes still win (R83). -/
theorem tagWins_wrVLate (w : Warp) (r : Reg) (tag : Nat) (v : Word) {l j : Nat} (hl : l < 32) (hj : j < 32) :
    tagWins (wrVLate w r l tag v) .v r j tag = tagWins w .v r j tag := by
  unfold wrVLate
  split
  case isFalse => rfl
  case isTrue hwins =>
    unfold wrV
    split
    · rfl
    · by_cases hjl : j = l
      · subst hjl
        rw [hwins]; simp [tagWins]
      · have hkey : tagKey .v r j ≠ tagKey .v r l := fun e =>
          hjl (keyOf_inj hj hl (by simpa [tagKey] using e)).2
        simp only [tagWins, sget_sput_ne _ _ _ hkey]

theorem rdV_wrVLate (w : Warp) (r q : Reg) (tag : Nat) (v : Word) {l j : Nat} (hl : l < 32) (hj : j < 32) :
    rdV (wrVLate w r l tag v) q j = if j = l ∧ q = r ∧ r ≠ 0 ∧ tagWins w .v r j tag = true then v else rdV w q j := by
  unfold wrVLate
  split
  case isTrue hwins =>
    rw [rdV_wrV w r q tag v hl hj]
    refine if_congr ⟨?_, fun ⟨h1, h2, h3, _⟩ => ⟨h1, h2, h3⟩⟩ rfl rfl
    rintro ⟨rfl, h2, h3⟩
    exact ⟨rfl, h2, h3, hwins⟩
  case isFalse hloses =>
    rw [if_neg]
    rintro ⟨rfl, -, -, hwins⟩
    exact hloses hwins

/-- A vector register after late writes of one value in some lanes. -/
theorem rdV_wrVLate_lanes (r q : Reg) (tag : Nat) (v : Word) {ls : List Nat} (hls : ∀ l ∈ ls, l < 32) (w : Warp) {j : Nat} (hj : j < 32) :
    rdV (ls.foldl (fun acc l => wrVLate acc r l tag v) w) q j =
      if j ∈ ls ∧ q = r ∧ r ≠ 0 ∧ tagWins w .v r j tag = true then v else rdV w q j := by
  induction ls generalizing w with
  | nil => simp
  | cons l ls ih =>
    have hl : l < 32 := hls l (by simp)
    rw [List.foldl_cons, ih (fun k hk => hls k (by simp [hk])), tagWins_wrVLate w r tag v hl hj, rdV_wrVLate w r q tag v hl hj]
    simp only [List.mem_cons]
    exact ite_cons _ _ _ fun _ => rfl

/-- The other files keep what they hold. -/
theorem wrVLate_lanes_kept (r : Reg) (tag : Nat) (v : Word) (ls : List Nat) (w : Warp) :
    let w' := ls.foldl (fun acc l => wrVLate acc r l tag v) w
    w'.q = w.q ∧ w'.w = w.w ∧ w'.m = w.m := by
  induction ls generalizing w with
  | nil => exact ⟨rfl, rfl, rfl⟩
  | cons l ls ih =>
    obtain ⟨hq, hw, hm⟩ := ih (wrVLate w r l tag v)
    have hone : (wrVLate w r l tag v).q = w.q ∧ (wrVLate w r l tag v).w = w.w ∧ (wrVLate w r l tag v).m = w.m := by
      unfold wrVLate
      split
      · unfold wrV; split <;> exact ⟨rfl, rfl, rfl⟩
      · exact ⟨rfl, rfl, rfl⟩
    obtain ⟨hq1, hw1, hm1⟩ := hone
    exact ⟨hq.trans hq1, hw.trans hw1, hm.trans hm1⟩

/-! ## The warp that returns (R169, R170) -/

/-- The warp with its files as the return leaves them. -/
def rttFiles (k : RttForm) (w : Warp) : Warp := if k == .sub then rttSub w else w

theorem registersOnly_rttFiles (k : RttForm) (w : Warp) : RegistersOnly w (rttFiles k w) := by
  unfold rttFiles
  split
  · exact registersOnly_rttSub w
  · exact rfl

theorem rttWarp_of_files (k : RttForm) (w : Warp) : rttWarp k w =
    { rttFiles k w with
      inTrap := false
      opbuf := none
      lanes := (rttFiles k w).lanes.mapIdx fun l x =>
        if w.hmask.getLsbD l then rttLane w k x else if x.st == .held .handler then { x with st := .ready } else x } := rfl

theorem sameFiles_rttWarp (k : RttForm) (w : Warp) : SameFiles (rttFiles k w) (rttWarp k w) := ⟨rfl, rfl, rfl, rfl⟩

/-- The return changes the lanes, the files and what the handler was. -/
theorem rttWarp_eq (k : RttForm) (w : Warp) : rttWarp k w =
    { w with
      inTrap := false
      opbuf := none
      lanes := (rttWarp k w).lanes
      v := (rttWarp k w).v
      q := (rttWarp k w).q
      w := (rttWarp k w).w
      m := (rttWarp k w).m
      lastw := (rttWarp k w).lastw } := by
  rw [rttWarp_of_files, registersOnly_rttFiles]

theorem rttWarp_id (k : RttForm) (w : Warp) : (rttWarp k w).id = w.id := by rw [rttWarp_eq]
theorem rttWarp_pend (k : RttForm) (w : Warp) : (rttWarp k w).pend = w.pend := by rw [rttWarp_eq]
theorem rttWarp_parked (k : RttForm) (w : Warp) : (rttWarp k w).parked = w.parked := by rw [rttWarp_eq]
theorem rttWarp_inTrap (k : RttForm) (w : Warp) : (rttWarp k w).inTrap = false := rfl

theorem rttWarp_lanes (k : RttForm) (w : Warp) : (rttWarp k w).lanes = w.lanes.mapIdx fun l x =>
    if w.hmask.getLsbD l then rttLane w k x else if x.st == .held .handler then { x with st := .ready } else x := by
  rw [rttWarp_of_files, registersOnly_rttFiles]

theorem rttWarp_length (k : RttForm) (w : Warp) : (rttWarp k w).lanes.length = w.lanes.length := by simp [rttWarp_lanes]

/-- Where a lane stands after the return. -/
theorem lane_rttWarp (k : RttForm) (w : Warp) {l : Nat} (hlt : l < w.lanes.length) : (rttWarp k w).lane l =
    if w.hmask.getLsbD l then rttLane w k (w.lane l)
    else if (w.lane l).st == .held .handler then { w.lane l with st := .ready } else w.lane l := by
  simp [Warp.lane, rttWarp_lanes, hlt]

/-- A trapped lane that was in no wait is ready where its form of RTT says. -/
theorem rttLane_of_not_waited {w : Warp} {k : RttForm} {y : Lane} (h : ∀ n, y.waitedOn ≠ some n) :
    rttLane w k y = { y with pc := rttNext w k y, st := .ready, restart := false } := by
  have hnone : y.waitedOn = none := Option.eq_none_iff_forall_ne_some.2 h
  simp only [rttLane, hnone]

/-! ## The masks and the watchdog evaluated (R86, R88) -/

theorem lane_releaseMasks_of_not_waiting {w : Warp} {l : Nat} (h : ∀ n, (w.lane l).st ≠ .waiting n) : (releaseMasks w).lane l = w.lane l := by
  by_cases hlt : l < w.lanes.length
  · simp only [Warp.lane, List.getElem?_eq_getElem hlt, Option.getD_some] at h ⊢
    cases hst : w.lanes[l].st with
    | waiting n => exact absurd hst (h n)
    | _ => simp [releaseMasks, hlt, hst]
  · simp [Warp.lane, releaseMasks, hlt]

/-- A ready lane keeps the watchdog from its warp. -/
theorem watchdogDue_of_ready {w : Warp} {l : Nat} (hlt : l < w.lanes.length) (hst : (w.lane l).st = .ready) : watchdogDue w = false := by
  have hlane : w.lane l = w.lanes[l] := by simp [Warp.lane, hlt]
  rw [hlane] at hst
  unfold watchdogDue
  rw [Bool.and_eq_false_iff, List.all_eq_false]
  exact .inr ⟨w.lanes[l], List.getElem_mem hlt, by simp [hst]⟩

/-- With a ready lane there is nothing to evaluate but the masks. -/
theorem settle_of_ready {s : State} {n : Nat} {w : Warp} (hw : s.getWarp n = some w) {l : Nat} (hlt : l < w.lanes.length)
    (hst : (w.lane l).st = .ready) : settle s n = s.modWarp n releaseMasks := by
  have hself := getWarp_modWarp_self s n releaseMasks fun _ => rfl
  rw [hw] at hself
  have hdue : watchdogDue (releaseMasks w) = false :=
    watchdogDue_of_ready (l := l) (by simpa [releaseMasks] using hlt)
      (by rw [lane_releaseMasks_of_not_waiting (by rw [hst]; nofun)]; exact hst)
  simp only [settle, hself, Option.map_some, hdue, Bool.false_eq_true, if_false]

/-- What a trap leaves of its warp wherever it goes: the registers; and nothing pending and no park where there was none. -/
def TrapKeeps (w w' : Warp) : Prop := SameFiles w w' ∧ (w.pend = [] → w'.pend = []) ∧ (w.parked = false → w'.parked = false)

theorem takeTrap_getWarp {s : State} {n : Nat} {w : Warp} (hw : s.getWarp n = some w) (t : Trap) (resume : Nat → Lane → DWord) :
    ∃ w', (takeTrap s n t resume).getWarp n = some w' ∧ TrapKeeps w w' := by
  have hid : w.id = n := by simpa using List.find?_some hw
  simp only [takeTrap, hw]
  split
  · exact ⟨w, hw, ⟨rfl, rfl, rfl, rfl⟩, id, id⟩
  · split
    · obtain ⟨-, -, hpend, hfiles⟩ := killWarp_kept w
      exact ⟨_, serviceTrap_getWarp t _ hw, hfiles, fun _ => hpend, fun _ => rfl⟩
    · exact ⟨_, getWarp_setWarp_of hw hid, ⟨rfl, rfl, rfl, rfl⟩, id, id⟩

theorem settle_getWarp {s : State} {n : Nat} {w : Warp} (hw : s.getWarp n = some w) :
    ∃ w', (settle s n).getWarp n = some w' ∧ TrapKeeps w w' := by
  have hself := getWarp_modWarp_self s n releaseMasks fun _ => rfl
  rw [hw] at hself
  simp only [settle, hself, Option.map_some]
  split
  · exact takeTrap_getWarp hself _ _
  · exact ⟨_, hself, ⟨rfl, rfl, rfl, rfl⟩, id, id⟩

theorem deliverPending_of_none {s : State} {n : Nat} {w : Warp} (hw : s.getWarp n = some w) (hp : w.pend = []) : deliverPending s n = s := by
  simp [deliverPending, hw, hp]

/-! ## Matrix work taken back, and senders that start again (R93, R200, R255) -/

/-- The report of an operation that is taken back, and its place in the counters. -/
def reportTakenBack (w : Warp) (o : MxOp) : Warp :=
  countDone (countDone { modReport w o.tag (fun r => { r with reset := true, cons := true, done := true }) with fold := 0 } .mxi o.tag)
    .mx o.tag

theorem countsOnly_countDone (w : Warp) (c : Ctr) (t : Nat) : CountsOnly w (countDone w c t) := rfl

theorem countsOnly_reportTakenBack (w : Warp) (o : MxOp) : CountsOnly w (reportTakenBack w o) :=
  CountsOnly.trans (u := { modReport w o.tag (fun r => { r with reset := true, cons := true, done := true }) with fold := 0 }) rfl
    ((countsOnly_countDone _ _ _).trans (countsOnly_countDone _ _ _))

theorem restartDiscard_eq {s : State} {n : Nat} {w : Warp} (hw : s.getWarp n = some w) (tags : List Nat) :
    ∃ (s1 : State) (gone : List MxOp), restartDiscard s n tags = s1.modWarp n (fun y => gone.foldl reportTakenBack y) ∧ s1.warps = s.warps ∧ s1.mem = s.mem := by
  simp only [restartDiscard, hw]
  exact ⟨_, _, rfl, rfl, rfl⟩

theorem restartDiscard_kept {s : State} {n : Nat} {w : Warp} (hw : s.getWarp n = some w) (tags : List Nat) :
    (∃ y, (restartDiscard s n tags).getWarp n = some y ∧ CountsOnly w y) ∧ (restartDiscard s n tags).mem = s.mem := by
  obtain ⟨s1, gone, e, hwarps, hmem⟩ := restartDiscard_eq hw tags
  have hcounts : ∀ y, CountsOnly y (gone.foldl reportTakenBack y) := .foldl countsOnly_reportTakenBack gone
  have hself := getWarp_modWarp_self s1 n (fun y => gone.foldl reportTakenBack y) fun y => (congrArg Warp.id (hcounts y)).trans rfl
  have hw1 : s1.getWarp n = some w := by rw [State.getWarp, hwarps]; exact hw
  rw [hw1] at hself
  exact ⟨⟨_, e ▸ hself, hcounts w⟩, by rw [e]; exact hmem⟩

/-! ## RTT (R168, R169) -/

/-- The instruction of each form. -/
def rttInstr (h : Hdr) : RttForm → Instr
  | .retry => .rttRetry h
  | .skip => .rttSkip h
  | .sub => .rttSub h
  | .retryRgn => .rttRetryRgn h

theorem exec_rttInstr (h : Hdr) (k : RttForm) (s : State) : exec (rttInstr h k) s = issue (rttInstr h k) s always (rttEffect k) := by
  cases k <;> rfl

/-- The state in which the lanes have returned, before the masks are evaluated. -/
def rttState (k : RttForm) (x : Issue) (t : State) : State :=
  restartSenders ((restartDiscard t x.w.id (rttTags k x.w)).modWarp x.w.id (rttWarp k)) x.w

theorem rttEffect_of_trapped {k : RttForm} {x : Issue} (ht : x.w.inTrap = true) (he : x.e = x.w.hmask) (t : State) :
    rttEffect k x t = deliverPending (settle (rttState k x t) x.w.id) x.w.id := by
  simp [rttEffect, rttState, ht, he]

theorem rttEffect_of_no_trap {k : RttForm} {x : Issue} (ht : x.w.inTrap = false) (t : State) :
    rttEffect k x t = issueTrap x t 0x01 0 x.e 0 := by
  simp [rttEffect, ht]

/-- In it the warp has returned, after matrix work may have been taken back from it; memory is as it was. -/
theorem rttState_kept {x : Issue} {t : State} {w : Warp} (hw : t.getWarp x.w.id = some w) (k : RttForm) :
    (∃ y, (rttState k x t).getWarp x.w.id = some (rttWarp k y) ∧ CountsOnly w y) ∧ (rttState k x t).mem = t.mem := by
  obtain ⟨⟨y, hy, hcounts⟩, hmem⟩ := restartDiscard_kept hw (rttTags k x.w)
  have hself := getWarp_modWarp_self (restartDiscard t x.w.id (rttTags k x.w)) x.w.id (rttWarp k) (rttWarp_id k)
  rw [hy] at hself
  exact ⟨⟨y, hself, hcounts⟩, hmem⟩

section
variable {h : Hdr} {k : RttForm} {s s0 : State} {w : Warp} {x : Issue} (hi : Issues (rttInstr h k) s w x s0) (ht : w.inTrap = true)
  (he : x.e = w.hmask) (hp : w.pend = [])
include hi ht he hp

/-- RTT by the trapped lanes with no trap pending: the warp y, from which matrix work may have been taken back, returns, its masks are
evaluated, and it meets the park marker; its registers are those of the return, and memory is as it was. -/
theorem rtt_steps : ∃ t w' y u, exec (rttInstr h k) s = .next t ∧ t.getWarp w.id = some w' ∧ t.mem = s0.mem ∧
    CountsOnly (begunWarp x s0.nextId w) y ∧ (rttState k x (begin_ x s0)).getWarp x.w.id = some (rttWarp k y) ∧
    (settle (rttState k x (begin_ x s0)) x.w.id).getWarp x.w.id = some u ∧ SameFiles (rttWarp k y) u ∧
    w' = { u with parked := w'.parked, stopped := w'.stopped, opbuf := w'.opbuf } := by
  obtain ⟨hxw, -⟩ := issues_warp hi
  have hstep := issueP_of_issues hi (ready := always) (prep := fun _ t => t) (rttEffect k) rfl
  obtain ⟨⟨y, hy, hcounts⟩, hmem⟩ := rttState_kept (begin_getWarp_of_issues hi) k
  obtain ⟨u, hu, hfiles, hpend, hparked⟩ := settle_getWarp hy
  have hypend : (rttWarp k y).pend = [] := by rw [rttWarp_pend, hcounts]; exact hp
  have hyparked : (rttWarp k y).parked = false := by rw [rttWarp_parked, hcounts]; exact (parked_of_issues hi : w.parked = false)
  rw [rttEffect_of_trapped (hxw ▸ ht) (hxw ▸ he), deliverPending_of_none hu (hpend hypend)] at hstep
  obtain ⟨w', hw', e⟩ := park_getWarp x _ hu (hparked hyparked)
  exact ⟨_, w', y, u, (exec_rttInstr h k s).trans hstep, hxw ▸ hw', by rw [park_mem, settle_mem, hmem, begin_mem], hcounts, hy, hu, hfiles,
    by rw [e]⟩

end

end Sys2Proof.Machine
end

section
/-! Where RTT leaves the lanes and what RTT.SUB writes (R168, R169), and an RTT outside a handler (R168). -/

namespace Sys2Proof.Machine

theorem SameFiles.trans {w u y : Warp} (h : SameFiles w u) (h' : SameFiles u y) : SameFiles w y := by
  obtain ⟨hv, hq, hw, hm⟩ := h
  obtain ⟨hv', hq', hw', hm'⟩ := h'
  exact ⟨hv'.trans hv, hq'.trans hq, hw'.trans hw, hm'.trans hm⟩

/-! ## The lanes of a return without waits -/

/-- No lane below 32 waits, and none was taken from a wait. -/
def NoWaits (w : Warp) : Prop := ∀ l, l < 32 → (∀ n, (w.lane l).waitedOn ≠ some n) ∧ ∀ n, (w.lane l).st ≠ .waiting n

section
variable {w : Warp} (k : RttForm) (hnw : NoWaits w) {l : Nat} (hl : l < 32)
include hnw hl

theorem lane_rttWarp_of_trapped (hlt : l < w.lanes.length) (hm : w.hmask.getLsbD l = true) :
    (rttWarp k w).lane l = { w.lane l with pc := rttNext w k (w.lane l), st := .ready, restart := false } := by
  rw [lane_rttWarp k w hlt, if_pos hm, rttLane_of_not_waited (hnw l hl).1]

/-- After the return none waits. -/
theorem not_waiting_rttWarp (n : Nat) : ((rttWarp k w).lane l).st ≠ .waiting n := by
  by_cases hlt : l < w.lanes.length
  · cases hm : w.hmask.getLsbD l with
    | true => rw [lane_rttWarp_of_trapped k hnw hl hlt hm]; nofun
    | false =>
      rw [lane_rttWarp k w hlt, hm, if_neg Bool.false_ne_true]
      split
      · nofun
      · exact (hnw l hl).2 n
  · have habsent : (rttWarp k w).lane l = {} := by simp [Warp.lane, rttWarp_lanes, hlt]
    rw [habsent]; nofun

end

/-! ## The warp that RTT finds -/

section
variable {i : Instr} {s s0 : State} {w y : Warp} {x : Issue} (hc : CountsOnly (begunWarp x s0.nextId w) y)
include hc

theorem length_of_countsOnly : y.lanes.length = w.lanes.length := by
  rw [hc]; exact begunWarp_length x s0.nextId w

/-- It has the trap record, the registers and their last writers. -/
theorem trapRecord_of_countsOnly : y.hmask = w.hmask ∧ y.hdst = w.hdst ∧ y.hsub = w.hsub ∧ y.trapTag = w.trapTag ∧ y.lastw = w.lastw ∧
    SameFiles w y := by
  rw [hc]; exact ⟨rfl, rfl, rfl, rfl, rfl, rfl, rfl, rfl, rfl⟩

variable (hi : Issues i s w x s0)
include hi

theorem lane_of_countsOnly (l : Nat) : y.lane l = { w.lane l with pc := if x.run.getLsbD l then x.after else (w.lane l).pc } := by
  obtain ⟨-, hrun⟩ := issues_run hi
  rw [hc]; exact begunWarp_lane x s0.nextId w hrun l

theorem rttNext_of_countsOnly (k : RttForm) (l : Nat) : rttNext y k (y.lane l) = rttNext w k (w.lane l) := by
  rw [lane_of_countsOnly hc hi, hc]
  cases k <;> rfl

theorem noWaits_of_countsOnly (hnw : NoWaits w) : NoWaits y := by
  intro l hl
  rw [lane_of_countsOnly hc hi]
  exact hnw l hl

/-- A lane that was held keeps its counter. -/
theorem lane_of_countsOnly_of_held {l : Nat} {why : Held} (hst : (w.lane l).st = .held why) : y.lane l = w.lane l := by
  obtain ⟨hrun, -⟩ := issues_run hi
  have hout : x.run.getLsbD l = false := Bool.eq_false_iff.2 fun hr => by
    obtain ⟨-, hready, -⟩ := lane_of_run w (hrun ▸ hr)
    rw [hready] at hst; cases hst
  rw [lane_of_countsOnly hc hi, hout]; rfl

end

theorem exists_lane_of_ne_zero {m : LaneSet} (h : m ≠ 0) : ∃ l, l < 32 ∧ m.getLsbD l = true := by
  by_contra hnone
  exact h (BitVec.eq_of_getLsbD_eq fun l hl => by simpa using fun hm => hnone ⟨l, hl, hm⟩)

/-- R169 of each form, with no lane in a wait: the masks have nothing to release, and the watchdog finds the trapped lanes ready. -/
theorem rttResult_of_form (h : Hdr) (k : RttForm) {next : Warp → Lane → DWord}
    (hnext : ∀ w y, rttNext w k y = if w.hpcWritten then w.hpc else next w y) : RttResult (rttInstr h k) next (k == .sub) := by
  intro s w x s0 hi ht he hp hwaited hwaiting
  obtain ⟨t, w', y, u, hstep, hw', hmem, hc, hy, hu, hfiles, e⟩ := rtt_steps hi ht he hp
  have hnw : NoWaits y := noWaits_of_countsOnly hc hi fun l hl => ⟨hwaited l hl, hwaiting l hl⟩
  obtain ⟨hmask, -, -, -, -, hbegun⟩ := trapRecord_of_countsOnly hc
  have hlen := length_of_countsOnly hc
  have htrapped (l : Nat) (hl : l < 32) (hm : w.hmask.getLsbD l = true) : l < w.lanes.length ∧
      (rttWarp k y).lane l = { y.lane l with pc := rttNext w k (w.lane l), st := .ready, restart := false } := by
    obtain ⟨-, hlt, -⟩ := participant_of_issues hi hl (he ▸ hm)
    refine ⟨hlt, ?_⟩
    rw [lane_rttWarp_of_trapped k hnw hl (hlen ▸ hlt) (hmask ▸ hm), rttNext_of_countsOnly hc hi]
  have hrelease : u = releaseMasks (rttWarp k y) := by
    have ⟨_, hne, _, _⟩ := hi
    obtain ⟨l, hl, hpart⟩ := exists_lane_of_ne_zero hne
    obtain ⟨hlt, hlane⟩ := htrapped l hl (he ▸ hpart)
    rw [settle_of_ready hy (l := l) (by rw [rttWarp_length, hlen]; exact hlt) (by rw [hlane]),
      getWarp_modWarp_self _ _ releaseMasks fun _ => rfl, hy] at hu
    exact (Option.some.inj hu).symm
  have hlane (l : Nat) (hl : l < 32) : w'.lane l = (rttWarp k y).lane l := by
    rw [← lane_releaseMasks_of_not_waiting (not_waiting_rttWarp k hnw hl), ← hrelease, e]; rfl
  refine ⟨t, w', hstep, hw', by rw [e, hrelease]; rfl, fun l hl hm => ?_, fun l hl hm hst => ?_, fun hk => ?_, hmem⟩
  · rw [hlane l hl, (htrapped l hl hm).2]
    exact ⟨rfl, hnext w (w.lane l)⟩
  · have hlt : l < y.lanes.length := by
      by_contra hge
      rw [hlen] at hge
      simp [Warp.lane, hge] at hst
    have hheld : ((y.lane l).st == .held .handler) = true := by rw [lane_of_countsOnly_of_held hc hi hst, hst]; rfl
    rw [hlane l hl, lane_rttWarp k y hlt, hmask, hm, if_neg Bool.false_ne_true, if_pos hheld, lane_of_countsOnly_of_held hc hi hst]
    exact ⟨rfl, rfl⟩
  · have hfilesy : rttFiles k y = y := by rw [rttFiles, hk, if_neg Bool.false_ne_true]
    have hend : SameFiles u w' := by rw [e]; exact ⟨rfl, rfl, rfl, rfl⟩
    obtain ⟨hv, hq, hs, hm⟩ := (hbegun.trans ((hfilesy ▸ sameFiles_rttWarp k y).trans (hfiles.trans hend))).reads
    exact ⟨fun r l _ => hv r l, fun r l _ => hq r l, hs, hm⟩

theorem returnFromTrap : Clause.ReturnFromTrap :=
  ⟨fun h => rttResult_of_form h .retry fun _ _ => rfl, fun h => rttResult_of_form h .skip fun _ _ => rfl,
   fun h => rttResult_of_form h .sub fun _ _ => rfl, fun h => rttResult_of_form h .retryRgn fun _ _ => rfl⟩

/-! ## The substituted result (R83, R169) -/

/-- RTT.SUB writes the register of the trapping instruction late, and the evaluation of the masks, even a trap of the watchdog, writes
none. -/
theorem substitutedResult : Clause.SubstitutedResult := by
  intro h s w x s0 r hi ht he hp hdst
  obtain ⟨t, w', y, u, hstep, hw', -, hc, -, -, hfiles, e⟩ := rtt_steps (k := .sub) hi ht he hp
  obtain ⟨hmask, hdsty, hsub, htag, hlast, hbegun⟩ := trapRecord_of_countsOnly hc
  have hsame : SameFiles (rttSub y) w' :=
    (show SameFiles (rttSub y) (rttWarp .sub y) from sameFiles_rttWarp .sub y).trans (hfiles.trans (by rw [e]; exact ⟨rfl, rfl, rfl, rfl⟩))
  rw [rttSub_of_v (hdsty.trans hdst), hmask, htag, hsub] at hsame
  obtain ⟨hv, hq, hs, hm⟩ := hsame.reads
  obtain ⟨hyv, hyq, hyw, hym⟩ := hbegun.reads
  obtain ⟨hkq, hkw, hkm⟩ := wrVLate_lanes_kept r w.trapTag (w.hsub.setWidth 32) (lanesOf w.hmask) y
  have hread (q : Reg) (l : Nat) (hl : l < 32) : rdV w' q l =
      if w.hmask.getLsbD l = true ∧ q = r ∧ r ≠ 0 ∧ tagWins w .v r l w.trapTag = true then w.hsub.setWidth 32 else rdV w q l := by
    rw [hv, rdV_wrVLate_lanes r q w.trapTag _ (fun k hk => ((mem_lanesOf _ k).1 hk).1) y hl]
    have htags : tagWins y .v r l w.trapTag = tagWins w .v r l w.trapTag := by rw [tagWins, hlast, tagWins]
    simp only [mem_lanesOf, hl, true_and, htags, hyv]
  refine ⟨t, w', hstep, hw', fun l hl hml hr hwins => ?_, fun l hl hml hloses => ?_, fun q l hl hother => ?_, fun q l _ => ?_, fun q => ?_,
    fun q => ?_⟩
  · rw [hread r l hl, if_pos ⟨hml, rfl, hr, hwins⟩]
  · rw [hread r l hl, if_neg]
    rintro ⟨-, -, -, hwins⟩
    rw [hloses] at hwins; cases hwins
  · rw [hread q l hl, if_neg]
    rintro ⟨hml, hqr, -, -⟩
    rcases hother with hq | hq
    · exact hq hqr
    · rw [hq] at hml; cases hml
  · rw [hq, rdQ, hkq]; exact hyq q l
  · rw [hs, rdW, hkw]; exact hyw q
  · rw [hm, rdM, hkm]; exact hym q

/-! ## Outside a handler (R168) -/

/-- R160, R168 of a warp of 32 lanes: an RTT outside a handler takes ILLEGAL_OPCODE. -/
theorem misplacedReturn_taken {h : Hdr} {k : RttForm} {s s0 : State} {w : Warp} {x : Issue} (hi : Issues (rttInstr h k) s w x s0)
    (hv : w.htvec ≠ 0) (ht : w.inTrap = false) (hlanes : 32 ≤ w.lanes.length) :
    ∃ t w', exec (rttInstr h k) s = .next t ∧ t.getWarp w.id = some w' ∧ TrapTaken w w' 0x01 0 x.e x.pc x.after ∧ t.mem = s0.mem :=
  issueTrap_taken hi 0x01 0 0 (exec_rttInstr h k s) rfl (rttEffect_of_no_trap ((issues_warp hi).1 ▸ ht) _) hv ht hlanes

/-- Refutes O20: a warp that lists lane 0 only executes RTT.RETRY outside a handler, and lane 1, which reads as ready, is not held as the clause
on misplaced returns says. With 32 lanes it is `misplacedReturn_taken`; the clauses on returns and on the substituted result hold as they
stand, `returnFromTrap` and `substitutedResult`. -/
theorem not_returnsFromTraps : ¬ Obligations.ReturnsFromTraps := by
  rintro ⟨-, -, h⟩
  have hi : Issues (rttInstr h0 .retry) (oneLaneState 0) (oneLane 0) (mkIssue (.rttRetry h0) (oneLane 0)) (oneLaneState 0) :=
    ⟨⟨rfl, by decide, rfl, rfl, rfl, rfl, by decide⟩, by decide, by decide, rfl⟩
  have hlanes := lanes_of_issueTrap_taken hi 0x01 0 0 (exec_rttInstr h0 .retry _) rfl (rttEffect_of_no_trap rfl _) (by decide) rfl
    (h _ _ (.inl rfl) _ _ _ _ hi (by decide) rfl)
  exact absurd hlanes (by decide)

end Sys2Proof.Machine
end

section
/-! What a warp reads of its workgroup, gang and region while it issues: beginning an instruction changes nothing of them but the counts of
R421, so an access is judged the same before and after (R203). -/

namespace Sys2Proof.Machine

/-! ## Workgroups but for their counts (R421) -/

/-- A workgroup without its count of instructions. -/
def uncounted (g : Workgroup) : Workgroup := { g with ret := 0 }

theorem eq_of_uncounted {g g' : Workgroup} (h : uncounted g' = uncounted g) : g' = { g with ret := g'.ret } :=
  congrArg (fun y : Workgroup => { y with ret := g'.ret }) h

/-- The workgroups of two states differ in nothing but their counts. -/
def SameGroups (s t : State) : Prop := t.wgs.map uncounted = s.wgs.map uncounted

theorem sameGroups_modWg (s : State) (n : Nat) {f : Workgroup → Workgroup} (h : ∀ g, uncounted (f g) = uncounted g) :
    SameGroups s (s.modWg n f) := by
  unfold SameGroups State.modWg updAt
  rw [List.map_map]
  exact List.map_congr_left fun g _ => by rw [Function.comp_apply]; split <;> simp [h]

theorem sameGroups_begin (x : Issue) (s : State) : SameGroups s (begin_ x s) := by
  unfold begin_
  dsimp only
  split
  · exact sameGroups_modWg _ _ fun _ => rfl
  · exact rfl

/-- A search that does not look at the counts finds the same workgroup. -/
theorem SameGroups.find {s t : State} (h : SameGroups s t) {p : Workgroup → Bool} (hp : ∀ g, p (uncounted g) = p g) :
    (t.wgs.find? p).map uncounted = (s.wgs.find? p).map uncounted := by
  have hcomp : p ∘ uncounted = p := funext hp
  have hfind (l : List Workgroup) : (l.map uncounted).find? p = (l.find? p).map uncounted := by rw [List.find?_map, hcomp]
  rw [← hfind, ← hfind, h]

theorem SameGroups.getWg {s t : State} (h : SameGroups s t) (k : Nat) :
    (t.getWg k).map uncounted = (s.getWg k).map uncounted := h.find fun _ => rfl

theorem exists_of_map_uncounted {o o' : Option Workgroup} (h : o'.map uncounted = o.map uncounted) {g : Workgroup} (hg : o = some g) :
    ∃ g', o' = some g' ∧ uncounted g' = uncounted g := by
  rw [hg] at h
  exact Option.map_eq_some_iff.1 h

/-- Neither finds one, or both find the same. -/
theorem uncounted_cases {o o' : Option Workgroup} (h : o'.map uncounted = o.map uncounted) :
    (o = none ∧ o' = none) ∨ ∃ g r, o = some g ∧ o' = some { g with ret := r } := by
  cases o with
  | none => exact .inl ⟨rfl, by simpa using h⟩
  | some g =>
    obtain ⟨g', hg', he⟩ := exists_of_map_uncounted h rfl
    exact .inr ⟨g, g'.ret, rfl, hg'.trans (congrArg some (eq_of_uncounted he))⟩

/-! ## The region of a warp -/

theorem warpRegion_congr {s t : State} (hwgs : ∀ k, (t.getWg k).map (·.gang) = (s.getWg k).map (·.gang))
    (hgangs : ∀ k, (t.getGang k).map (·.region) = (s.getGang k).map (·.region)) (hregions : t.regions = s.regions) (w : Warp) :
    t.warpRegion w = s.warpRegion w := by
  have hsplit (u : State) : u.warpRegion w =
      (((u.getWg w.wg).map (·.gang)).bind fun g => (u.getGang g).map (·.region)).bind fun r => u.regions.find? fun x => x.handle == r := by
    simp only [State.warpRegion, State.warpGang, State.warpWg, State.getRegion, Option.bind_map, Option.bind_assoc, Function.comp_def]
  simp only [hsplit, hwgs, hgangs, hregions]

theorem warpRegion_modWg (s : State) (n : Nat) {f : Workgroup → Workgroup} (hid : ∀ g, (f g).id = g.id) (hgang : ∀ g, (f g).gang = g.gang)
    (w : Warp) : (s.modWg n f).warpRegion w = s.warpRegion w :=
  warpRegion_congr (fun k => map_modWg s n k f _ hid hgang) (fun _ => rfl) rfl w

theorem warpRegion_begin (x : Issue) (s : State) (w : Warp) : (begin_ x s).warpRegion w = s.warpRegion w := by
  refine warpRegion_congr (fun k => ?_) (fun k => ?_) (by rw [begin_state]) w
  · have h := congrArg (Option.map Workgroup.gang) ((sameGroups_begin x s).getWg k)
    simpa only [Option.map_map, Function.comp_def, uncounted] using h
  · have h := congrArg (Option.map Gang.region) (begin_getGang x s k)
    simpa only [Option.map_map, Function.comp_def] using h

theorem warpAsid_begin (x : Issue) (s : State) (w : Warp) : (begin_ x s).warpAsid w = s.warpAsid w := by
  rw [State.warpAsid, warpRegion_begin, State.warpAsid]

theorem warpCtx_begin (x : Issue) (s : State) (w : Warp) : (begin_ x s).warpCtx w = s.warpCtx w := by
  rw [State.warpCtx, warpRegion_begin, State.warpCtx]

/-! ## The checks of an access (R183, R184, R203) -/

section
variable {s t : State} (h : SameGroups s t)
include h

theorem scratchPlace_congr (g : Workgroup) (r off n : Nat) : scratchPlace t { g with ret := r } off n = scratchPlace s g off n := by
  have hmember := h.find (p := fun y => y.gang == g.gang && y.member == (off - 0x01000000) / 0x100000) fun _ => rfl
  unfold scratchPlace gangMember
  obtain ⟨hs, ht⟩ | ⟨m, k, hs, ht⟩ := uncounted_cases hmember <;> simp only [hs, ht]

theorem hitsCopy_congr (hc : t.copies = s.copies) (p : SPlace) (n : Nat) : hitsCopy t p n = hitsCopy s p n := by
  cases p with
  | cask => rfl
  | bank wg x =>
    unfold hitsCopy
    obtain ⟨hs, ht⟩ | ⟨m, k, hs, ht⟩ := uncounted_cases (h.getWg wg) <;> simp only [hs, ht, hc]
    exact congrArg (List.any s.copies) (funext fun c => by cases c.dst <;> rfl)

theorem judgeScratch_congr (hc : t.copies = s.copies) (hcl : t.clusters = s.clusters) (g : Workgroup) (r ctx off n : Nat) :
    judgeScratch t { g with ret := r } ctx off n = judgeScratch s g ctx off n := by
  have hcluster (c : CluId) : t.getCluster c = s.getCluster c := by rw [State.getCluster, hcl, State.getCluster]
  simp only [judgeScratch, scratchPlace_congr h, hitsCopy_congr h hc, hcluster]

end

theorem scratchCheck_begin (s : State) (x : Issue) (off : Nat → Word) (n l : Nat) :
    scratchCheck (begin_ x s) x off n l = scratchCheck s x off n l := by
  have h := sameGroups_begin x s
  unfold scratchCheck
  rw [warpCtx_begin]
  obtain ⟨hs, ht⟩ | ⟨g, r, hs, ht⟩ := uncounted_cases (h.getWg x.w.wg) <;> simp only [State.warpWg, hs, ht]
  exact judgeScratch_congr h (by rw [begin_state]) (by rw [begin_state]) g r _ _ _

/-- The check of a load in global memory looks at nothing but the address. -/
theorem globalCheck_load (s t : State) (x : Issue) (addr : Nat → DWord) (n l : Nat) :
    globalCheck t x false addr n l = globalCheck s x false addr n l := rfl

end Sys2Proof.Machine
end

section
/-! LDQ and POPQ (R196, R197, R209, R210). -/

namespace Sys2Proof.Machine

/-! ## Instructions whose effect lies in the warp and its workgroup -/

theorem modWarp_of_forall_eq {s : State} {n : Nat} {f : Warp → Warp} (h : ∀ w, f w = w) : s.modWarp n f = s := by
  have hmap : updAt (fun x : Warp => x.id == n) f s.warps = s.warps :=
    (List.map_congr_left fun w _ => by rw [h]; exact ite_self w).trans (List.map_id _)
  rw [State.modWarp, hmap]

/-- An instruction that issues depends on its effect at the state in which it has begun, and on no other. -/
theorem issue_congr {i : Instr} {s s0 : State} {w : Warp} {x : Issue} (h : Issues i s w x s0) {effect effect' : Issue → State → State}
    (he : effect x (begin_ x s0) = effect' x (begin_ x s0)) : issue i s always effect = issue i s always effect' := by
  rw [issue, issue, issueP_of_issues h effect rfl, issueP_of_issues h effect' rfl, he]

/-- An instruction whose effect changes its own warp and its own workgroup completes: the warp has begun, has the effect and its park marker,
the workgroup has the effect, and memory is as it was. -/
theorem issueP_own_warp_and_group {i : Instr} {s s0 : State} {w : Warp} {x : Issue} (h : Issues i s w x s0)
    {ready : Issue → State → Bool} {prep : Issue → State → State} {effect : Issue → State → State} (hr : ready (mkIssue i w) s = true)
    {f : Warp → Warp} {f' : Workgroup → Workgroup} (he : effect x (begin_ x s0) = ((begin_ x s0).modWarp w.id f).modWg w.wg f')
    (hid : ∀ y, (f y).id = y.id) (hpk : ∀ y, (f y).parked = y.parked) (hid' : ∀ y, (f' y).id = y.id) {g : Workgroup}
    (hg : s0.getWg w.wg = some g) :
    ∃ t w' g1, issueP i s ready prep effect = .next t ∧ t.getWarp w.id = some w' ∧ t.getWg w.wg = some (f' g1) ∧
      uncounted g1 = uncounted g ∧ t.mem = s0.mem ∧
      w' = { f (begunWarp x s0.nextId w) with parked := w'.parked, stopped := w'.stopped, opbuf := w'.opbuf } := by
  obtain ⟨rfl, -⟩ := issues_warp h
  have hself := getWarp_modWarp_self (begin_ x s0) x.w.id f hid
  rw [begin_getWarp_of_issues h] at hself
  obtain ⟨g1, hg1, hcount⟩ := exists_of_map_uncounted ((sameGroups_begin x s0).getWg x.w.wg) hg
  have hgroup := getWg_modWg_self ((begin_ x s0).modWarp x.w.id f) x.w.wg f' hid'
  rw [show ((begin_ x s0).modWarp x.w.id f).getWg x.w.wg = some g1 from hg1] at hgroup
  obtain ⟨w', hw', e⟩ := park_getWarp x (((begin_ x s0).modWarp x.w.id f).modWg x.w.wg f') hself
    ((hpk _).trans (parked_of_issues h : x.w.parked = false))
  refine ⟨_, w', g1, issueP_of_issues h effect hr, by rw [he]; exact hw', ?_, hcount, ?_, by rw [e]⟩
  · rw [he, park_state]; exact hgroup
  · rw [he, park_mem]; exact begin_mem x s0

/-! ## The senders of a workgroup (R195) -/

theorem senderOf_key (g : Workgroup) (id q : Nat) : (senderOf g id q).id = id ∧ (senderOf g id q).q = q := by
  unfold senderOf
  cases hf : g.senders.find? fun d => d.id == id && d.q == q with
  | none => exact ⟨rfl, rfl⟩
  | some d => simpa using List.find?_some hf

/-- A sender reads as it was put. -/
theorem senderOf_putSender {d : Sender} {id q : Nat} (hid : d.id = id) (hq : d.q = q) (g : Workgroup) : senderOf (putSender g d) id q = d := by
  subst hid hq
  unfold senderOf putSender
  rw [find_putAt_self (p := fun e : Sender => e.id == d.id && e.q == d.q) d (by simp)]
  rfl

/-- The counts of R421 are no part of a sender's state. -/
theorem senderOf_congr {g g' : Workgroup} (h : uncounted g' = uncounted g) (id q : Nat) : senderOf g' id q = senderOf g id q := by
  rw [eq_of_uncounted h]; rfl

/-! ## Verdicts of which each is a pass (R203) -/

section
variable {x : Issue} {check : Nat → Verdict} (h : ∀ l, l < 32 → x.e.getLsbD l = true → check l = .pass)
include h

theorem verdicts_of_pass : verdicts x check = (lanesOf x.e).map fun l => (l, .pass) :=
  List.map_congr_left fun l hl => by
    obtain ⟨hlt, he⟩ := (mem_lanesOf x.e l).1 hl
    rw [h l hlt he]

theorem passing_of_pass : passing (verdicts x check) = x.e := by
  have hset : laneSet (lanesOf x.e) = x.e := BitVec.eq_of_getLsbD_eq fun l hl => by
    rw [getLsbD_laneSet _ hl]; simp [hl]
  rw [verdicts_of_pass h]
  simpa [passing, lanesWith, List.filter_map, Function.comp_def] using hset

/-- No lane is switched off and none traps. -/
theorem settleChecks_of_pass (s : State) (offs : Nat → Nat) (file : BitVec 3) : settleChecks x s (verdicts x check) offs file = s := by
  have hnone (p : Verdict → Bool) (hp : p .pass = false) : lanesWith (verdicts x check) p = 0 := by
    rw [verdicts_of_pass h]; simp [lanesWith, List.filter_map, Function.comp_def, hp, laneSet]
  have hfind (p : Nat × Verdict → Bool) (hp : ∀ l, p (l, .pass) = false) : (verdicts x check).find? p = none := by
    rw [verdicts_of_pass h]; simp [hp]
  have hlfm : s.modWarp x.w.id (fun w => { w with lfm := w.lfm ||| 0 }) = s := modWarp_of_forall_eq fun w => by simp
  simp only [settleChecks, hnone (fun v => v == .off) rfl, hnone isFail rfl, hlfm]
  rw [hfind]
  · rfl
  · exact fun _ => rfl

end

/-! ## LDQ (R209) -/

/-- A sender whose entry has taken the next place of its sequence. -/
def placeTaken (d : Sender) (lanes : LaneSet) (pc : DWord) (tag : Nat) : Sender :=
  { d with nextSeq := d.nextSeq + 1, window := d.window ++ [(d.nextSeq, false, [])], pushes := d.pushes ++ [(d.nextSeq, lanes, pc, tag)] }

/-- The read of a queue load. -/
def ldqRead (x : Issue) (s : State) (sp : Space) (q : Nat) (addr : Nat → DWord) : Outst :=
  { outOf x s .v 0 x.e (.ldq sp q ((lanesOf x.e).map fun l => (l, addr l)) []) (some .ld) with dsts := [], file := 0 }

/-- A warp with one more queue load under way. -/
def withLdqRead (x : Issue) (o : Outst) (w : Warp) : Warp := { countUp w .ld x.tag with reads := w.reads ++ [o] }

/-- A workgroup in which the sender's entry has taken its place. -/
def withPlace (x : Issue) (q : Nat) (g : Workgroup) : Workgroup := putSender g (placeTaken (senderOf g x.w.id q) x.e x.pc x.tag)

/-- A queue load whose participants pass, with no earlier read under way. -/
theorem ldqEffect_of_pass {x : Issue} {check : Nat → Verdict} (h : ∀ l, l < 32 → x.e.getLsbD l = true → check l = .pass) (he : x.e ≠ 0)
    (hreads : x.w.reads = []) (sp : Space) (q : Nat) (addr : Nat → DWord) (t : State) :
    ldqEffect sp q check addr x t = (t.modWarp x.w.id (withLdqRead x (ldqRead x t sp q addr))).modWg x.w.wg (withPlace x q) := by
  have he' : ¬ (x.e == 0) = true := by rwa [beq_iff_eq]
  simp only [ldqEffect, hreads, List.filter_nil, List.map_nil, List.foldl_nil, settleChecks_of_pass h, passing_of_pass h, if_neg he']
  rfl

theorem ldqReady_of_room {i : Instr} {s : State} {w : Warp} {g : Workgroup} {q : Nat} (hg : s.getWg w.wg = some g)
    (hroom : (senderOf g w.id q).window.length < 8) : ldqReady q (mkIssue i w) s = true := by
  simp only [ldqReady, show s.warpWg (mkIssue i w).w = some g from hg]
  exact decide_eq_true (Nat.lt_add_right _ hroom)

/-- R209 of an LDQ in one of the spaces. -/
theorem ldqResult_of_effect {i : Instr} {q : Nat} {sp : Space} {check : State → Issue → Nat → Verdict} {addr : Issue → Nat → DWord}
    (hpop : popQueue (rawOf i) = none) (hcheck : ∀ s x l, check (begin_ x s) x l = check s x l)
    (hexec : ∀ s, exec i s = issue i s (ldqReady q) fun x t => ldqEffect sp q (check t x) (addr x) x t) : LdqResult i q sp check addr := by
  intro s w x s0 g hi hpass hg hroom hreads
  obtain rfl := issues_state hi hpop
  obtain ⟨rfl, -⟩ := issues_warp hi
  obtain ⟨-, hrun⟩ := issues_run hi
  have ⟨_, hne, _, _⟩ := hi
  have heff := ldqEffect_of_pass (fun l hl he => (hcheck s0 x l).trans (hpass l hl he)) hne hreads sp q (addr x) (begin_ x s0)
  obtain ⟨t, w', g1, hstep, hw', hg', hcount, hmem, e⟩ :=
    issueP_own_warp_and_group (prep := fun _ t => t) hi (ldqReady_of_room hg hroom)
      (effect := fun y t => ldqEffect sp q (check t y) (addr y) y t) heff (fun _ => rfl) (fun _ => rfl) (fun _ => rfl) hg
  obtain ⟨hid, hq⟩ := senderOf_key g1 x.w.id q
  have hsender : senderOf (withPlace x q g1) x.w.id q = placeTaken (senderOf g x.w.id q) x.e x.pc x.tag := by
    rw [withPlace, senderOf_putSender (d := placeTaken _ _ _ _) hid hq, senderOf_congr hcount]
  have hread : ldqRead x (begin_ x s0) sp q (addr x) = ldqRead x s0 sp q (addr x) := by
    simp only [ldqRead, outOf, warpAsid_begin]
  refine ⟨t, w', _, (hexec s0).trans hstep, hw', hg', ?_, ?_, ?_, ?_, ?_, ?_, ?_, fun l => ?_, ?_, fun a => by rw [hmem]⟩
  · rw [e, hread]
    exact congrArg (· ++ [_]) hreads
  · rw [hsender]; rfl
  · rw [hsender]; rfl
  · rw [eq_of_uncounted hcount]; rfl
  · rw [e]; rfl
  · rw [e]; rfl
  · rw [e]; rfl
  · rw [e]; exact begunWarp_lane x s0.nextId x.w hrun l
  · rw [e]; rfl

/-- A word with a memory operand pops no queue. -/
theorem popQueue_rawM (h : Hdr) (op fn : Nat) (d : Reg) (m : Addr) : popQueue (rawM h op fn d m) = none := by
  obtain ⟨base, _ | v⟩ := m <;> rfl

theorem queueLoadsTakeTheirPlace : Clause.QueueLoadsTakeTheirPlace :=
  ⟨fun h k m => ldqResult_of_effect (check := fun s x => globalCheck s x false (addrGlobal x m) 4) (addr := fun x => addrGlobal x m)
      (popQueue_rawM h 0x66 0 k m) (fun _ _ _ => rfl) fun _ => rfl,
   fun h k m => ldqResult_of_effect (check := fun s x => scratchCheck s x (addrScratch x m) 4)
      (addr := fun x l => (addrScratch x m l).setWidth 64) (popQueue_rawM h 0x66 1 k m)
      (fun s x l => scratchCheck_begin s x _ _ l) fun _ => rfl⟩

/-! ## POPQ (R196, R197, R210) -/

theorem popQueue_popq (h : Hdr) (n : PopN) (d : Reg) (q : BitVec 3) : popQueue (rawOf (.popq h n d q)) = some q.toNat := rfl

theorem popCount_popq (h : Hdr) (n : PopN) (d : Reg) (q : BitVec 3) : popCount (.popq h n d q) = popNum n := by cases n <;> rfl

/-- The result of a pop, outstanding for consecutive registers. -/
def popOut (x : Issue) (s : State) (n : PopN) (d : Reg) : Outst :=
  { outOf x s .v d x.e (.values ((lanesOf x.e).map fun l => (l, (List.range (popNum n)).map fun j => popLane x.pop (32 * j + l))) []) none with
    dsts := (List.range (popNum n)).map fun j => d.toNat + j }

theorem exec_popq (h : Hdr) (n : PopN) (d : Reg) (q : BitVec 3) (s : State) : exec (.popq h n d q) s =
    issue (.popq h n d q) s always fun x t => t.modWarp x.w.id fun w => addOut w (popOut x t n d) := rfl

/-- What a pop takes from its queue. -/
theorem supply_of_issues {i : Instr} {s s0 : State} {w : Warp} {x : Issue} {g : Workgroup} {q : Nat} (h : Issues i s w x s0)
    (hq : popQueue (rawOf i) = some q) (hg : s.getWg w.wg = some g) :
    x.pop = ((queueOf g q).take (popCount i)).flatten ∧ s0 = s.modWg w.wg fun y => dropEntries y q (popCount i) := by
  have hid : g.id = w.wg := by simpa using List.find?_some hg
  obtain ⟨-, -, -, hs⟩ := h
  simp only [supply, hq, hg, hid] at hs
  split at hs
  · obtain ⟨rfl, rfl⟩ := Prod.mk.inj (Option.some.inj hs)
    exact ⟨rfl, rfl⟩
  · cases hs

theorem queueOf_dropEntries (g : Workgroup) (q n k : Nat) :
    queueOf (dropEntries g q n) k = if k = q then (queueOf g k).drop n else queueOf g k := by
  unfold queueOf dropEntries
  rw [List.getElem?_modify]
  by_cases hk : q = k
  · subst hk; cases g.queues[q]? <;> simp
  · simp [hk, Ne.symm hk]

theorem queuePopTakesEntries : Clause.QueuePopTakesEntries := by
  intro h n d q s w x s0 g hi hg
  obtain ⟨hxw, -⟩ := issues_warp hi
  obtain ⟨-, hrun⟩ := issues_run hi
  obtain ⟨hpop, hs0⟩ := supply_of_issues hi (popQueue_popq h n d q) hg
  rw [popCount_popq] at hpop hs0
  have hout : popOut x (begin_ x s0) n d = popOut x s n d := by
    have hasid : (begin_ x s0).warpAsid x.w = s.warpAsid x.w := by
      rw [warpAsid_begin, hs0, State.warpAsid, warpRegion_modWg s w.wg (by exact fun _ => rfl) (by exact fun _ => rfl), State.warpAsid]
    simp only [popOut, outOf, hasid]
  have hcongr := issue_congr hi (effect := fun x t => t.modWarp x.w.id fun w => addOut w (popOut x t n d))
    (effect' := fun y t => t.modWarp y.w.id fun w => addOut w (popOut x s n d)) (by simp only [hout])
  obtain ⟨t, w', m, hstep, hw', hkept, e⟩ := issue_own_warp hi (fun y => addOut y (popOut x s n d))
    (fun y t => t.modWarp y.w.id fun w => addOut w (popOut x s n d)) (fun _ => rfl) (fun _ => rfl) fun _ => rfl
  have ⟨_, _, hwgs, _, _⟩ := hkept
  have hdropped : s0.getWg w.wg = some (dropEntries g q.toNat (popNum n)) := by
    rw [hs0, getWg_modWg_self s w.wg _ (by exact fun _ => rfl), hg]; rfl
  obtain ⟨g', hg', hcount⟩ := exists_of_map_uncounted (hwgs w.wg) hdropped
  have hqueue (k : Nat) : queueOf g' k = if k = q.toNat then (queueOf g k).drop (popNum n) else queueOf g k := by
    rw [← queueOf_dropEntries, eq_of_uncounted hcount]; rfl
  refine ⟨t, w', g', (exec_popq h n d q s).trans (hcongr.trans hstep), hw', hg', ?_, fun k hk => ?_, ?_, hpop, ?_, ?_,
    fun l => ?_, ?_, hkept⟩
  · rw [hqueue, if_pos rfl]
  · rw [hqueue, if_neg hk]
  · rw [e]; rfl
  · rw [e]; rfl
  · rw [e]; rfl
  · rw [e]; exact begunWarp_lane x m w hrun l
  · rw [e]; rfl

/-- The pop waits in its place: neither the warp nor its queue has changed. -/
theorem emptyQueueHoldsThePop : Clause.EmptyQueueHoldsThePop := by
  intro h n d q s w g hready he hg hshort hdead
  obtain ⟨hw, hr, hp, hst, hwc, hca, hd⟩ := hready
  have hb : w.blocked = false := by simp [Warp.blocked, hp, hst, hwc]
  have hr' : ¬ (headRun w == 0) = true := by rwa [beq_iff_eq]
  have he' : ¬ ((mkIssue (.popq h n d q) w).e == 0) = true := by rw [beq_iff_eq]; exact he
  have hd' : decodeCause s w (.popq h n d q) (mkIssue (.popq h n d q) w).r = none := hd
  have hpop : popForm (mkIssue (.popq h n d q) w) s q.toNat (destFile (.popq h n d q)) = .stop s := by
    have hless : ¬ popCount (mkIssue (.popq h n d q) w).i ≤ (queueOf g q.toNat).length := by
      rw [show (mkIssue (.popq h n d q) w).i = .popq h n d q from rfl, popCount_popq]; omega
    simp only [popForm, show (mkIssue (.popq h n d q) w).w = w from rfl, hg, if_neg hless, hdead, Bool.false_eq_true, if_false]
  have hform (prep : Issue → State → State) : form (.popq h n d q) s always prep = .stop s := by
    have hq : popQueue (mkIssue (.popq h n d q) w).r = some q.toNat := popQueue_popq h n d q
    simp only [form, hw, if_neg hr', hb, hca, hd', if_neg he', hq, hpop, always, Bool.not_true, Bool.false_eq_true, if_false, ite_self]
  rw [exec_popq, issue, issueP, hform]

/-- Settles O24: LDQ takes its place and POPQ its entries in one step of their warp and its workgroup; a pop of too few entries waits. -/
theorem queueInstructions : Obligations.QueueInstructions :=
  ⟨queueLoadsTakeTheirPlace, queuePopTakesEntries, emptyQueueHoldsThePop⟩

end Sys2Proof.Machine
end

section
/-! COPY_UNIT_WRITE into a scratchpad, and COPY_COMPLETE (R186, R214, R231, R232). -/

namespace Sys2Proof.Machine

theorem map_updAt {α β : Type} (p : α → Bool) {f : α → α} {g : α → β} (h : ∀ x, g (f x) = g x) (l : List α) :
    (updAt p f l).map g = l.map g := by
  unfold updAt
  rw [List.map_map]
  exact List.map_congr_left fun x _ => by rw [Function.comp_apply]; split <;> simp [h]

theorem getCore_id (s : State) (c : CoreId) : (s.getCore c).id = c := by
  unfold State.getCore
  cases hf : s.cores.find? fun x => x.id == c with
  | none => rfl
  | some y => simpa using List.find?_some hf

/-! ## Bytes written one after another in a scratchpad -/

/-- A scratchpad with bytes written from a key on. -/
def putBytes (m : Sparse Byte) (a : Nat) (bs : List Byte) : Sparse Byte :=
  (List.range bs.length).foldl (fun m i => sput 0 m (a + i) ((bs[i]?).getD 0)) m

theorem sget_foldl_sput (m : Sparse Byte) (a : Nat) (val : Nat → Byte) (n k : Nat) :
    sget 0 ((List.range n).foldl (fun m i => sput 0 m (a + i) (val i)) m) k =
      if a ≤ k ∧ k < a + n then val (k - a) else sget 0 m k := by
  induction n with
  | zero => rw [if_neg (by omega)]; rfl
  | succ n ih =>
    rw [List.range_succ, List.foldl_append, List.foldl_cons, List.foldl_nil, sget_sput, ih]
    by_cases hlast : k = a + n
    · rw [if_pos hlast, if_pos (by omega), hlast, Nat.add_sub_cancel_left]
    · rw [if_neg hlast]
      exact if_congr (by omega) rfl rfl

theorem sget_putBytes (m : Sparse Byte) (a : Nat) (bs : List Byte) (k : Nat) :
    sget 0 (putBytes m a bs) k = if a ≤ k ∧ k < a + bs.length then (bs[k - a]?).getD 0 else sget 0 m k :=
  sget_foldl_sput m a (fun i => (bs[i]?).getD 0) bs.length k

/-- The key of an offset of a target range in its scratchpad, by the bank that holds it. -/
def rangeKey (r : BankRange) (o : Nat) : Nat := (r.banks[o / 0x4000]?).getD 0 * 0x4000 + o % 0x4000

/-- A state with bytes written at an offset of a target range. -/
def wroteRange (s : State) (r : BankRange) (o : Nat) (bs : List Byte) : State :=
  s.modCore r.core fun y => { y with scratch := putBytes y.scratch (rangeKey r o) bs }

theorem wroteRange_scratch (s : State) (r : BankRange) (o : Nat) (bs : List Byte) :
    ((wroteRange s r o bs).getCore r.core).scratch = putBytes (s.getCore r.core).scratch (rangeKey r o) bs := by
  rw [wroteRange, getCore_modCore_self _ _ _ (by exact getCore_id s r.core)]

theorem wroteRange_getCore_ne (s : State) (r : BankRange) (o : Nat) (bs : List Byte) {k : CoreId} (hk : k ≠ r.core) :
    (wroteRange s r o bs).getCore k = s.getCore k :=
  getCore_setCore_ne s _ (by show k ≠ (s.getCore r.core).id; rwa [getCore_id])

/-! ## The source of a unit -/

theorem leBytes_length (n v : Nat) : (leBytes n v).length = n := by
  induction n generalizing v with
  | zero => rfl
  | succ n ih => simp [leBytes, ih]

theorem drawBytes_length (s : State) (n : Nat) : (s.drawBytes n).1.length = n := by
  induction n generalizing s with
  | zero => rfl
  | succ n ih => simp [State.drawBytes, ih]

theorem unitKept_length {c : Copy} {unit : Nat} {bs : List Byte} (h : unitKept c unit 16 = some bs) : bs.length = 16 := by
  simp only [unitKept] at h
  split at h
  · rw [← Option.some.inj h]; simp [List.range_succ, leBytes_length]
  · cases h

/-- A unit of a CPYA that is read in a scratchpad has 16 bytes. -/
theorem unitRead_length_of_bank {s s1 : State} {c : Copy} {dir : CpyDir} {q : BankRange} {unit : Nat} {bs : List Byte}
    (hk : c.kind = .cpya dir) (hq : c.src = .bank q) (h : unitRead s c unit = (.done bs, s1)) : bs.length = 16 := by
  simp only [unitRead, hk, unitBytes, hq] at h
  split at h
  case h_1 bs' hkept =>
    obtain ⟨e, -⟩ := Prod.mk.inj h
    rw [← Got.done.inj e]; exact unitKept_length hkept
  case h_2 =>
    obtain ⟨e, -⟩ := Prod.mk.inj h
    rw [← Got.done.inj e, rangeRead]
    split
    · simp
    · exact drawBytes_length _ _

/-! ## A unit that does not lie in the source (R231) -/

/-- The bytes from an offset of the target range on do not lie in the source range. -/
def ClearOfSource (c : Copy) (r : BankRange) (o n : Nat) : Prop :=
  ∀ q, c.src = .bank q → q.wg ≠ r.wg ∨ o + n ≤ q.off ∨ q.off + 16 * c.units ≤ o

/-- Such a range has no byte of the source's space and place. -/
theorem not_in_source {c : Copy} {r : BankRange} {o n i : Nat} (h : ClearOfSource c r o n) (hi : i < n) :
    (1, r.wg) ≠ (endByte c.src 0).1 ∨ o + i < (endByte c.src 0).2 ∨ (endByte c.src 0).2 + 16 * c.units ≤ o + i := by
  cases hsrc : c.src with
  | glob va => exact .inl (by simp [endByte])
  | cask k j => exact .inl (by simp [endByte])
  | bank q =>
    obtain hwg | hbelow | habove := h q hsrc
    · exact .inl (by simpa [endByte] using hwg.symm)
    · exact .inr (.inl (by simp only [endByte]; omega))
    · exact .inr (.inr (by simp only [endByte]; omega))

section
variable {c : Copy} {r : BankRange} {unit n : Nat} (hdst : c.dst = .bank r) (hclear : ClearOfSource c r (r.off + 16 * unit) n)
include hdst hclear

theorem unitUnder_of_clear (hn : 0 < n) : unitUnder c unit = none := by
  have hend : endByte c.dst (16 * unit) = ((1, r.wg), r.off + 16 * unit) := by rw [hdst]; rfl
  have hout := not_in_source hclear hn
  simp only [unitUnder, hend]
  split
  · rfl
  · rename_i hspace
    have hwg : (1, r.wg) = (endByte c.src 0).1 := by simpa using hspace
    have hplace := hout.resolve_left fun h => h hwg
    rw [if_neg]
    simp only [Bool.and_eq_true, decide_eq_true_eq, not_and_or]
    refine .inl (.inl ?_)
    rw [if_neg (by simp)]
    split <;> omega

theorem unitFinal_of_clear (s : State) {bs : List Byte} (hn : bs.length = n) : unitFinal s c unit bs = (bs, s) := by
  have hend (i : Nat) : endByte c.dst (16 * unit + i) = ((1, r.wg), r.off + 16 * unit + i) := by
    rw [hdst]; exact congrArg (Prod.mk _) (Nat.add_assoc _ _ _).symm
  simp only [unitFinal, hend]
  rw [if_neg]
  simp only [List.any_eq_true, List.mem_range, not_exists, not_and]
  intro i hi
  have hout := not_in_source hclear (hn ▸ hi)
  rw [if_neg (by simp)]
  simp only [Bool.and_eq_true, beq_iff_eq, decide_eq_true_eq, not_and]
  intro hwg hle
  have hplace := hout.resolve_left fun h => h hwg
  omega

end

/-! ## A unit written (R186, R231) -/

theorem unitWrite_bank {s : State} {c : Copy} {r : BankRange} {unit : Nat} (hdst : c.dst = .bank r)
    (howner : (sget 0 (s.getCore r.core).owner ((r.banks[(r.off + 16 * unit) / 0x4000]?).getD 0)).toNat = c.ctx) (bs : List Byte) :
    unitWrite s c unit bs = (.done, wroteRange s r (r.off + 16 * unit) bs) := by
  simp only [unitWrite, hdst, howner, beq_self_eq_true, if_true]
  rfl

theorem exec_copyUnitWrite_cpya {s : State} {id unit : Nat} {c : Copy} {dir : CpyDir} (hfind : s.copies.find? (fun y => y.id == id) = some c)
    (hlive : copyLive s c = true) (hk : c.kind = .cpya dir) (hu : unit < c.units) (hleft : c.written.contains unit = false) :
    exec (.copyUnitWrite id unit) s = .next (moveUnit s c unit) := by
  show execCopyUnitWrite id unit s = _
  have hgo : ¬ (!copyLive s c || decide (c.units ≤ unit) || c.written.contains unit) = true := by
    rw [hlive, hleft, decide_eq_false (by omega)]; decide
  simp only [execCopyUnitWrite, hfind, if_neg hgo, hk]
  rfl

/-- A unit whose source has been read, and which does not lie in the source, is written at its place. -/
theorem moveUnit_bank {s s1 : State} {c : Copy} {dir : CpyDir} {r : BankRange} {unit : Nat} {bs : List Byte} (hk : c.kind = .cpya dir)
    (hdst : c.dst = .bank r) (hread : unitRead s c unit = (.done bs, s1))
    (howner : (sget 0 (s1.getCore r.core).owner ((r.banks[(r.off + 16 * unit) / 0x4000]?).getD 0)).toNat = c.ctx)
    (hclear : ClearOfSource c r (r.off + 16 * unit) bs.length) :
    moveUnit s c unit = unitDone (wroteRange s1 r (r.off + 16 * unit) bs) c unit := by
  have hunder : unitUnder c unit = none := by
    by_cases hbank : ∃ q, c.src = .bank q
    · obtain ⟨q, hq⟩ := hbank
      exact unitUnder_of_clear hdst hclear (by rw [unitRead_length_of_bank hk hq hread]; decide)
    · exact unitUnder_of_clear (n := 1) hdst (fun q hq => absurd ⟨q, hq⟩ hbank) (by decide)
  have hkeep : keepUnder s1 c unit = (true, s1) := by simp only [keepUnder, hunder]
  simp only [moveUnit, hread, hkeep, unitFinal_of_clear hdst hclear s1 rfl, unitWrite_bank hdst howner]
  rfl

/-! ## The end of a copy (R214, R232) -/

/-- A start of waiting copies changes the copies, and none of their identities. -/
theorem startWaiting_kept (s : State) (e : CopyEnd) :
    startWaiting s e = { s with copies := (startWaiting s e).copies } ∧ (startWaiting s e).copies.map (·.id) = s.copies.map (·.id) := by
  unfold startWaiting
  split
  · exact ⟨rfl, rfl⟩
  · split
    · exact ⟨rfl, rfl⟩
    · split
      · exact ⟨rfl, map_updAt _ (by exact fun _ => rfl) _⟩
      · exact ⟨rfl, rfl⟩

/-- The warp of a copy that has ended: its tag reads complete, and c.cpy counts it. -/
def copyOverWarp (c : Copy) (w : Warp) : Warp :=
  countDone { w with
    tags := w.tags.map (fun t => if t.1 == c.tag then (t.1, TagStatus.complete) else t)
    copyAbort := w.copyAbort || c.st == .aborted } .cpy c.issue

theorem copyOverWarp_tag {c : Copy} {w : Warp} {st : TagStatus} (h : (c.tag, st) ∈ (copyOverWarp c w).tags) : st = .complete := by
  obtain ⟨t, -, ht⟩ := List.mem_map.1 (show (c.tag, st) ∈ w.tags.map _ from h)
  split at ht
  case isTrue => exact (Prod.mk.inj ht).2.symm
  case isFalse hne => rw [ht] at hne; simp at hne

section
variable (s : State) (c : Copy)

theorem copyOver_getWarp {w : Warp} (hw : s.getWarp c.w = some w) : (copyOver s c).getWarp c.w = some (copyOverWarp c w) := by
  have hself := getWarp_modWarp_self s c.w (copyOverWarp c) fun _ => rfl
  rw [hw] at hself
  rw [copyOver]
  dsimp only
  rw [(startWaiting_kept _ _).1]
  exact hself

theorem copyOver_mem : (copyOver s c).mem = s.mem := by
  rw [copyOver]
  dsimp only
  rw [(startWaiting_kept _ _).1]
  rfl

/-- The copy is gone. -/
theorem copyOver_gone {y : Copy} (hy : y ∈ (copyOver s c).copies) : y.id ≠ c.id := by
  have hmem : y.id ∈ (copyOver s c).copies.map (·.id) := List.mem_map.2 ⟨y, hy, rfl⟩
  rw [copyOver] at hmem
  dsimp only at hmem
  rw [(startWaiting_kept _ _).2] at hmem
  obtain ⟨z, hz, hzy⟩ := List.mem_map.1 hmem
  have hne := (List.mem_filter.1 hz).2
  rw [← hzy]; simpa using hne

end

theorem exec_copyComplete {s : State} {id : Nat} {c : Copy} (hfind : s.copies.find? (fun y => y.id == id) = some c)
    (hend : copyEnded s c = true) (hst : c.st = .running) : exec (.copyComplete id) s = .next (copyOver s c) := by
  show execCopyComplete id s = _
  simp only [execCopyComplete, hfind, hend, hst]
  rfl

end Sys2Proof.Machine
end

section
/-! The entries of the queues on their way (R195, R198 to R200, R209). -/

namespace Sys2Proof.Machine

/-! ## Workgroups that stay (R163) -/

/-- The workgroups of two states are the same by their identities. -/
def SameGroupIds (s t : State) : Prop := t.wgs.map (·.id) = s.wgs.map (·.id)

theorem SameGroupIds.trans {s t u : State} (h : SameGroupIds s t) (h' : SameGroupIds t u) : SameGroupIds s u := Eq.trans h' h

theorem sameGroupIds_modWg (s : State) (n : Nat) {f : Workgroup → Workgroup} (h : ∀ g, (f g).id = g.id) : SameGroupIds s (s.modWg n f) :=
  map_updAt _ h _

theorem SameGroupIds.getWg {s t : State} (h : SameGroupIds s t) {k : Nat} {g : Workgroup} (hg : s.getWg k = some g) :
    ∃ g', t.getWg k = some g' := by
  have hid : g.id = k := by simpa using List.find?_some hg
  have hmem : g.id ∈ t.wgs.map (·.id) := h ▸ List.mem_map.2 ⟨g, List.mem_of_find?_eq_some hg, rfl⟩
  obtain ⟨y, hy, hyk⟩ := List.mem_map.1 hmem
  exact Option.isSome_iff_exists.1 (List.find?_isSome.2 ⟨y, hy, by simpa [hid] using hyk⟩)

/-- No trap takes a workgroup away. -/
theorem sameGroupIds_serviceTrap (s : State) (n : Nat) (t : Trap) (double : Bool) : SameGroupIds s (serviceTrap s n t double) := by
  unfold serviceTrap
  split
  · exact rfl
  · dsimp only
    rw [noteEnd_state]
    exact sameGroupIds_modWg s _ fun _ => rfl

theorem sameGroupIds_takeTrap (s : State) (n : Nat) (t : Trap) (resume : Nat → Lane → DWord) : SameGroupIds s (takeTrap s n t resume) := by
  unfold takeTrap
  split
  · exact rfl
  · dsimp only
    split
    · exact rfl
    · split
      · exact sameGroupIds_serviceTrap _ _ _ _
      · exact rfl

theorem sameGroupIds_deliverPending (s : State) (n : Nat) : SameGroupIds s (deliverPending s n) := by
  unfold deliverPending
  split
  · exact rfl
  · split
    · exact sameGroupIds_serviceTrap _ _ _ _
    · exact rfl
    · split
      · exact rfl
      · exact SameGroupIds.trans (t := s.setWarp _) rfl (sameGroupIds_takeTrap _ _ _ _)

theorem sameGroupIds_deferTrap (s : State) (n : Nat) (t : Trap) : SameGroupIds s (deferTrap s n t) := by
  unfold deferTrap lateTrap
  split
  · exact rfl
  · dsimp only
    split
    · exact rfl
    · split
      · exact sameGroupIds_serviceTrap _ _ _ _
      · exact SameGroupIds.trans (t := s.setWarp _) rfl (sameGroupIds_deliverPending _ _)

/-! ## Arrivals (R198, R200) -/

theorem exec_queueEntryArrival {s : State} {wg n : Nat} {g : Workgroup} {m : QMsg} (hg : s.getWg wg = some g) (hm : g.flight[n]? = some m)
    (holdest : ((g.flight.take n).any fun f => f.sender == m.sender && f.q == m.q) = false) :
    exec (.queueEntryArrival wg n) s = .next
      (if ((senderOf g m.sender m.q).window.head?).map (·.1) = some m.seq ∧ (queueOf g m.q).length < 64
        then acceptEntry s g (senderOf g m.sender m.q) m else refuseEntry s g (senderOf g m.sender m.q) m) := by
  show execQueueEntryArrival wg n s = _
  simp only [execQueueEntryArrival, queueArrival, hg, hm, holdest, happens, Bool.false_eq_true, if_false]
  refine congrArg Host.Outcome.next (if_congr ?_ rfl rfl)
  rw [Bool.and_eq_true, decide_eq_true_iff]
  exact and_congr_left fun _ => by cases (senderOf g m.sender m.q).window <;> simp

/-- A workgroup whose queue has the entry behind the others. -/
def Accepts (m : QMsg) (g g' : Workgroup) : Prop := g'.id = g.id ∧ g'.queues = g.queues.modify m.q fun l => l ++ [m.data]

/-- A workgroup with a sender put, whose queue has taken an entry, and some others on their way again. -/
def acceptedGroup (m : QMsg) (e : Sender) (again : List QMsg) (g : Workgroup) : Workgroup :=
  { putSender g e with
    queues := g.queues.modify m.q fun l => l ++ [m.data]
    flight := (g.flight.filter fun f => !(f == m)) ++ again }

theorem acceptEntry_kept (s : State) (g : Workgroup) (d : Sender) (m : QMsg) :
    (∃ f, (∀ y, Accepts m y (f y)) ∧ (acceptEntry s g d m).wgs = (s.modWg g.id f).wgs) ∧ (acceptEntry s g d m).mem = s.mem := by
  unfold acceptEntry
  extract_lets again coming refused d1 s1
  split
  · split <;> exact ⟨⟨acceptedGroup m d1 again, fun _ => ⟨rfl, rfl⟩, rfl⟩, rfl⟩
  · exact ⟨⟨acceptedGroup m d1 again, fun _ => ⟨rfl, rfl⟩, rfl⟩, rfl⟩

theorem queueOf_of_accepts {m : QMsg} {g g' : Workgroup} (h : Accepts m g g') (hq : m.q < g.queues.length) :
    queueOf g' m.q = queueOf g m.q ++ [m.data] ∧ ∀ k, k ≠ m.q → queueOf g' k = queueOf g k := by
  obtain ⟨-, hqueues⟩ := h
  refine ⟨?_, fun k hk => ?_⟩
  · simp [queueOf, hqueues, hq]
  · simp [queueOf, hqueues, hk.symm]

/-- A workgroup with a sender put, from which an entry on its way has gone. -/
def refusedGroup (m : QMsg) (e : Sender) (g : Workgroup) : Workgroup :=
  { putSender g e with flight := g.flight.filter fun f => !(f == m) }

/-- The trap of the sixteenth failed replay takes no workgroup away and writes no memory. -/
theorem exhausted_kept (s : State) (d : Sender) (seq : Nat) : SameGroupIds s (exhausted s d seq) ∧ (exhausted s d seq).mem = s.mem := by
  unfold exhausted
  split
  · exact ⟨rfl, rfl⟩
  · dsimp only
    split
    · exact ⟨sameGroupIds_deferTrap _ _ _, deferTrap_mem _ _ _⟩
    · split
      · exact ⟨SameGroupIds.trans (t := modCopy s _ _) rfl (sameGroupIds_deferTrap _ _ _), deferTrap_mem _ _ _⟩
      · exact ⟨rfl, rfl⟩

/-- A refusal puts the sender, and after fifteen failed replays may take the trap of the sixteenth. -/
theorem refuseEntry_cases (s : State) (g : Workgroup) (d : Sender) (m : QMsg) :
    (∃ e, refuseEntry s g d m = s.modWg g.id (refusedGroup m e)) ∨
      15 ≤ d.failed ∧ ∃ e e', refuseEntry s g d m = exhausted (s.modWg g.id (refusedGroup m e)) e' m.seq := by
  unfold refuseEntry
  dsimp only
  split
  · split
    case isTrue hmany => exact .inr ⟨by omega, _, _, rfl⟩
    case isFalse => exact .inl ⟨_, rfl⟩
  · split <;> exact .inl ⟨_, rfl⟩

theorem refuseEntry_kept (s : State) (g : Workgroup) (d : Sender) (m : QMsg) :
    SameGroupIds s (refuseEntry s g d m) ∧ (refuseEntry s g d m).mem = s.mem := by
  have hput (e : Sender) : SameGroupIds s (s.modWg g.id (refusedGroup m e)) := sameGroupIds_modWg s _ fun _ => rfl
  obtain ⟨e, he⟩ | ⟨-, e, e', he⟩ := refuseEntry_cases s g d m
  · rw [he]; exact ⟨hput e, rfl⟩
  · obtain ⟨hids, hmem⟩ := exhausted_kept (s.modWg g.id (refusedGroup m e)) e' m.seq
    rw [he]; exact ⟨(hput e).trans hids, hmem⟩

/-- Before that an entry refused leaves its workgroup's queues, and is no longer on its way. -/
theorem refuseEntry_getWg {s : State} {wg : Nat} {g : Workgroup} {d : Sender} {m : QMsg} (hg : s.getWg wg = some g) (hd : d.failed < 15) :
    ∃ g', (refuseEntry s g d m).getWg wg = some g' ∧ g'.queues = g.queues ∧ g'.flight = g.flight.filter fun f => !(f == m) := by
  obtain rfl : g.id = wg := by simpa using List.find?_some hg
  obtain ⟨e, he⟩ | ⟨hmany, -⟩ := refuseEntry_cases s g d m
  · have hself := getWg_modWg_self s g.id (refusedGroup m e) fun _ => rfl
    rw [hg] at hself
    exact ⟨refusedGroup m e g, by rw [he]; exact hself, rfl, rfl⟩
  · omega

theorem acceptEntry_getWg {s : State} {wg : Nat} {g : Workgroup} {d : Sender} {m : QMsg} (hg : s.getWg wg = some g) :
    ∃ g', (acceptEntry s g d m).getWg wg = some g' ∧ Accepts m g g' := by
  obtain rfl : g.id = wg := by simpa using List.find?_some hg
  obtain ⟨⟨f, hf, hwgs⟩, -⟩ := acceptEntry_kept s g d m
  have hself := getWg_modWg_self s g.id f fun y => (hf y).1
  rw [hg] at hself
  exact ⟨f g, by rw [State.getWg, hwgs]; exact hself, hf g⟩

/-! ## Replays (R198, R199) -/

/-- A workgroup in which a sender has sent an entry of its window again. -/
def replayedGroup (sender q : Nat) (d : Sender) (e : Nat × Bool × QEntry) (g : Workgroup) : Workgroup :=
  { putSender g { d with backoff := none, replaying := some e.1 } with flight := g.flight ++ [⟨sender, q, e.1, e.2.2⟩] }

theorem exec_queueReplay {s : State} {wg sender q : Nat} {g : Workgroup} {e : Nat × Bool × QEntry} {tm : DWord} (hg : s.getWg wg = some g)
    (hb : (senderOf g sender q).backoff = some tm) (ht : tm.toNat ≤ s.clock.toNat)
    (he : ((senderOf g sender q).window.find? fun e => e.2.1 && !(g.flight.any fun f => f.sender == sender && f.q == q && f.seq == e.1)) =
      some e) :
    exec (.queueReplay wg sender q) s = .next (s.modWg wg (replayedGroup sender q (senderOf g sender q) e)) := by
  show execQueueReplay wg sender q s = _
  simp only [execQueueReplay, queueReplay, hg, hb, he, if_pos ht]
  rfl

/-! ## The entry of an LDQ (R209) -/

/-- A queue load with the values that have returned to it. -/
def ldqReturned (sp : Space) (q : Nat) (addrs : List (Nat × DWord)) (got : List (Nat × Word)) (o : Outst) : Outst :=
  { o with res := .ldq sp q addrs got }

/-- A queue load of which every lane has returned is performed at once; nothing of it changes. -/
theorem performRead_of_returned {s : State} {k : Nat} {w : Warp} {o : Outst} {sp : Space} {q : Nat} {addrs : List (Nat × DWord)}
    {got : List (Nat × Word)} (hw : s.getWarp k = some w) (hres : o.res = .ldq sp q addrs got)
    (hgot : ∀ l, l < 32 → o.lanes.getLsbD l = true → ∃ v, (l, v) ∈ got) :
    performRead s k o = (true, modOut s k o.tag (ldqReturned sp q addrs got)) := by
  have hready : atomReady w o = true := by simp [atomReady, isAtomic, hres]
  have hnone : ((lanesOf o.lanes).filter fun l => !(got.any fun g => g.1 == l)) = [] := by
    refine List.filter_eq_nil_iff.2 fun l hl => ?_
    obtain ⟨hlt, hlane⟩ := (mem_lanesOf _ l).1 hl
    obtain ⟨v, hv⟩ := hgot l hlt hlane
    simpa using ⟨v, hv⟩
  simp only [performRead, hw, hready, hres, hnone, readLanes, Bool.not_true, Bool.false_eq_true, if_false, List.map_nil, List.append_nil]
  rfl

theorem getWarp_modOut {s : State} {k : Nat} {w : Warp} (hw : s.getWarp k = some w) (tag : Nat) (f : Outst → Outst) :
    (modOut s k tag f).getWarp k =
      some { w with outs := updAt (fun y => y.tag == tag) f w.outs, reads := updAt (fun y => y.tag == tag) f w.reads } :=
  (getWarp_modWarp_self s k _ (by exact fun _ => rfl)).trans (by rw [hw]; rfl)

/-- A filter that leaves out what was changed does not see the change. -/
theorem filter_updAt {α : Type} {p q : α → Bool} {f : α → α} (h : ∀ x, p x = true → q x = false ∧ q (f x) = false) (l : List α) :
    (updAt p f l).filter q = l.filter q := by
  induction l with
  | nil => rfl
  | cons a l ih =>
    have ih' : (l.map fun x => if p x then f x else x).filter q = l.filter q := ih
    by_cases ha : p a = true
    · simp [updAt, ha, h a ha, ih']
    · simp [updAt, ha, List.filter_cons, ih']

/-- The values of an entry, lane by lane. -/
def laneEntry (got : List (Nat × Word)) : QEntry := (List.range 32).map fun l => ((got.find? fun y => y.1 == l).map (·.2)).getD 0

/-- A workgroup in which a sender has sent an entry that had its place. -/
def pushedGroup (sender q seq : Nat) (d : Sender) (ent : QEntry) (g : Workgroup) : Workgroup :=
  { putSender g { d with window := d.window.map fun e => if e.1 == seq then (seq, true, ent) else e } with
    flight := g.flight ++ [⟨sender, q, seq, ent⟩] }

/-- A warp without the reads of a tag. -/
def withoutRead (tag : Nat) (w : Warp) : Warp := { w with reads := w.reads.filter fun y => y.tag != tag }

section
variable {s : State} {k tag q : Nat} {w : Warp} {g : Workgroup} {o : Outst} {sp : Space} {addrs : List (Nat × DWord)}
  {got : List (Nat × Word)} {p : Nat × LaneSet × DWord × Nat} (hw : s.getWarp k = some w)
  (ho : w.reads.find? (fun y => y.tag == tag) = some o)
include hw ho

/-- The warp once the loads of the entry have been performed: the read holds their values, and no register has changed. -/
theorem getWarp_of_performed : ∃ y, (modOut s k tag (ldqReturned sp q addrs got)).getWarp k = some y ∧
    y.reads.find? (fun y => y.tag == tag) = some (ldqReturned sp q addrs got o) ∧ NoRegister w y ∧
    y.reads.filter (fun y => y.tag != tag) = w.reads.filter fun y => y.tag != tag := by
  refine ⟨_, getWarp_modOut hw tag _, ?_, ⟨rfl, rfl, rfl, rfl⟩, filter_updAt (fun x hx => ?_) _⟩
  · have hfind := find_updAt_self (p := fun y : Outst => y.tag == tag) (f := ldqReturned sp q addrs got) (fun _ => rfl) w.reads
    rw [ho] at hfind; exact hfind
  · have htag : x.tag = tag := by simpa using hx
    simp [ldqReturned, htag]

theorem exec_ldqEntryPush (hres : o.res = .ldq sp q addrs got) (hg : s.getWg w.wg = some g) (hfault : o.faulted = 0)
    (holder : olderReads w tag = []) (hgot : ∀ l, l < 32 → o.lanes.getLsbD l = true → ∃ v, (l, v) ∈ got)
    (hp : (senderOf g k q).pushes.find? (fun p => p.2.2.2 == tag) = some p)
    (hfirst : ((senderOf g k q).window.any fun e => decide (e.1 < p.1) && !e.2.1) = false) :
    exec (.ldqEntryPush k tag) s = .next
      (((modOut s k tag (ldqReturned sp q addrs got)).modWarp k (withoutRead tag)).modWg w.wg
        (pushedGroup k q p.1 (senderOf g k q) (laneEntry got))) := by
  obtain rfl : o.tag = tag := by simpa using List.find?_some ho
  have hgid : g.id = w.wg := by simpa using List.find?_some hg
  obtain ⟨y, hy, hread, -, -⟩ := getWarp_of_performed (sp := sp) (q := q) (addrs := addrs) (got := got) hw ho
  show execLdqEntryPush k o.tag s = _
  simp only [execLdqEntryPush, ldqPush, hw, ho, hres, hg, hfault, holder, performOlder, performRead_of_returned hw hres hgot, hp, hy, hread,
    hgid, Option.bind_some, Option.getD_some, bne_self_eq_false, Bool.not_true, Bool.false_eq_true, if_false, Bool.false_or, hfirst]
  rfl

end

/-- Settles O32: each event is one write, one end, one arrival, one replay or one push, and leaves the rest. -/
theorem copiesAndEntriesMove : Obligations.CopiesAndEntriesMove := by
  refine ⟨?unit, ?ended, ?arrival, ?replay, ?push⟩
  case unit =>
    intro s id unit c dir r bs s1 hfind hlive hk hu hleft hdst hread o bank howner hclear
    have hkey : rangeKey r o = bank * 0x4000 + o % 0x4000 := rfl
    have hscratch := wroteRange_scratch s1 r o bs
    refine ⟨_, (exec_copyUnitWrite_cpya hfind hlive hk hu hleft).trans
      (congrArg _ (moveUnit_bank hk hdst hread howner hclear)), fun i hi => ?_, fun k hkout => ?_, rfl,
      fun k hk => wroteRange_getCore_ne s1 r o bs hk, rfl, rfl⟩
    · refine (congrArg (sget 0 · _) hscratch).trans ?_
      rw [sget_putBytes, hkey, if_pos (by omega), Nat.add_sub_cancel_left]
    · refine (congrArg (sget 0 · _) hscratch).trans ?_
      rw [sget_putBytes, hkey, if_neg (by omega)]
  case ended =>
    intro s id c hfind hend hst
    obtain rfl : c.id = id := by simpa using List.find?_some hfind
    exact ⟨_, exec_copyComplete hfind hend hst, fun y hy => copyOver_gone s c hy, fun a => by rw [copyOver_mem], fun w hw =>
      ⟨_, copyOver_getWarp s c hw, ⟨rfl, rfl, rfl, rfl⟩, ⟨rfl, rfl, rfl, rfl, rfl, rfl, rfl, rfl, rfl, rfl, rfl, rfl, rfl⟩, rfl,
        fun st h => copyOverWarp_tag h⟩⟩
  case arrival =>
    intro s wg n g m hg hm holdest hq d
    have hexec := exec_queueEntryArrival hg hm holdest
    by_cases hacc : (d.window.head?).map (·.1) = some m.seq ∧ (queueOf g m.q).length < 64
    · rw [if_pos hacc] at hexec
      obtain ⟨g', hg', haccepts⟩ := acceptEntry_getWg (d := d) (m := m) hg
      refine ⟨_, g', hexec, hg', (acceptEntry_kept s g d m).2, fun _ _ => queueOf_of_accepts haccepts hq, fun hrefused _ _ => ?_⟩
      obtain hhead | hfull := hrefused
      · exact absurd hacc.1 hhead
      · exact absurd hacc.2 (by omega)
    · rw [if_neg hacc] at hexec
      obtain ⟨hids, hmem⟩ := refuseEntry_kept s g d m
      obtain ⟨g', hg'⟩ := hids.getWg hg
      refine ⟨_, g', hexec, hg', hmem, fun hhead hroom => absurd ⟨hhead, hroom⟩ hacc, fun _ hfailed _ => ?_⟩
      obtain ⟨g1, hg1, hkept⟩ := refuseEntry_getWg (d := d) (m := m) hg hfailed
      obtain rfl := Option.some.inj (hg'.symm.trans hg1)
      exact hkept
  case replay =>
    intro s wg sender q g e tm hg hb ht he
    obtain ⟨hid, hq⟩ := senderOf_key g sender q
    have hself := getWg_modWg_self s wg (replayedGroup sender q (senderOf g sender q) e) fun _ => rfl
    rw [hg] at hself
    refine ⟨_, _, exec_queueReplay hg hb ht he, hself, rfl, rfl, ?_, rfl, rfl⟩
    exact congrArg Sender.backoff (senderOf_putSender (d := { senderOf g sender q with backoff := none, replaying := some e.1 }) hid hq g)
  case push =>
    intro s k tag w g o sp q addrs got p hw ho hres hg hfault holder hgot hp hfirst _
    obtain ⟨y, hy, -, hfiles, hreads⟩ := getWarp_of_performed (sp := sp) (q := q) (addrs := addrs) (got := got) hw ho
    have hself := getWarp_modWarp_self (modOut s k tag (ldqReturned sp q addrs got)) k (withoutRead tag) fun _ => rfl
    rw [hy] at hself
    have hgroup := getWg_modWg_self s w.wg (pushedGroup k q p.1 (senderOf g k q) (laneEntry got)) fun _ => rfl
    rw [hg] at hgroup
    exact ⟨_, _, _, exec_ldqEntryPush hw ho hres hg hfault holder hgot hp hfirst, hself, hgroup, hfiles, hreads, rfl, rfl⟩

end Sys2Proof.Machine
end

section
/-! What an instruction reads of the machine around its warp while it issues. The entries it pops and its beginning change the warps, the
queues, the counts of R421 and the model's source of orders, and nothing else: what looks at none of these reads the same before and after. -/

namespace Sys2Proof.Machine

/-! ## The machine around the warps -/

/-- A workgroup without its queues and its count of instructions. -/
def bareGroup (g : Workgroup) : Workgroup := { g with queues := [], ret := 0 }

/-- A gang without its count of instructions. -/
def bareGang (g : Gang) : Gang := { g with ret := 0 }

/-- The machine without its warps, its queues, its counts of instructions and its source of orders. -/
def bare (s : State) : State := { s with warps := [], wgs := s.wgs.map bareGroup, gangs := s.gangs.map bareGang, nextId := 0 }

theorem bare_modWg {s : State} {f : Workgroup → Workgroup} (n : Nat) (hf : ∀ g, bareGroup (f g) = bareGroup g) :
    bare (s.modWg n f) = bare s := by
  simp only [bare, State.modWg, map_updAt _ hf]

theorem bare_modGang {s : State} {f : Gang → Gang} (n : Nat) (hf : ∀ g, bareGang (f g) = bareGang g) :
    bare (s.modGang n f) = bare s := by
  simp only [bare, State.modGang, map_updAt _ hf]

theorem bare_begin (x : Issue) (s : State) : bare (begin_ x s) = bare s := by
  unfold begin_
  dsimp only
  split
  · exact (bare_modWg _ (by exact fun _ => rfl)).trans (bare_modGang _ (by exact fun _ => rfl))
  · rfl

/-- The machine around the warp that issues is the one before, when it begins. -/
theorem bare_of_issues {i : Instr} {s s0 : State} {w : Warp} {x : Issue} (h : Issues i s w x s0) : bare (begin_ x s0) = bare s := by
  obtain ⟨-, -, -, hs⟩ := h
  rw [bare_begin]
  unfold supply at hs
  split at hs
  · obtain ⟨-, rfl⟩ := Prod.mk.inj (Option.some.inj hs)
    rfl
  · split at hs
    · cases hs
    · split at hs
      · obtain ⟨-, rfl⟩ := Prod.mk.inj (Option.some.inj hs)
        exact bare_modWg _ (by exact fun _ => rfl)
      · cases hs

/-- What looks at nothing but the machine around the warps reads the same when the instruction begins. -/
theorem read_of_issues {α : Type} {i : Instr} {s s0 : State} {w : Warp} {x : Issue} (h : Issues i s w x s0) {F : State → α}
    (hF : ∀ u, F (bare u) = F u) : F (begin_ x s0) = F s := by
  rw [← hF, bare_of_issues h, hF]

/-! ## What looks at nothing else -/

section
variable (s : State)

theorem getWg_bare (k : Nat) : (bare s).getWg k = (s.getWg k).map bareGroup := List.find?_map

theorem getGang_bare (k : Nat) : (bare s).getGang k = (s.getGang k).map bareGang := List.find?_map

theorem warpGang_bare (w : Warp) : (bare s).warpGang w = (s.warpGang w).map bareGang := by
  unfold State.warpGang State.warpWg
  rw [getWg_bare]
  cases s.getWg w.wg with
  | none => rfl
  | some g => exact getGang_bare s g.gang

theorem warpRegion_bare (w : Warp) : (bare s).warpRegion w = s.warpRegion w := by
  unfold State.warpRegion
  rw [warpGang_bare]
  cases s.warpGang w <;> rfl

theorem warpAsid_bare (w : Warp) : (bare s).warpAsid w = s.warpAsid w := by rw [State.warpAsid, warpRegion_bare, State.warpAsid]
theorem warpCtx_bare (w : Warp) : (bare s).warpCtx w = s.warpCtx w := by rw [State.warpCtx, warpRegion_bare, State.warpCtx]
theorem warpEff_bare (w : Warp) : (bare s).warpEff w = s.warpEff w := by rw [State.warpEff, warpRegion_bare, State.warpEff]

theorem warpCore_bare (w : Warp) : (bare s).warpCore w = s.warpCore w := by
  unfold State.warpCore State.warpWg
  rw [getWg_bare]
  cases s.getWg w.wg <;> rfl

theorem recKey_bare (w : Warp) (b : Nat) : recKey (bare s) w b = recKey s w b := by
  unfold recKey State.warpWg
  rw [getWg_bare]
  cases s.getWg w.wg <;> rfl

theorem outOf_bare (x : Issue) (f : File) (d : Reg) (lanes : LaneSet) (res : Result) (c : Option Ctr) :
    outOf x (bare s) f d lanes res c = outOf x s f d lanes res c := by
  simp only [outOf, warpAsid_bare]

/-! ## The checks of an access (R203, R354) -/

theorem copyState_bare (x : Wort) (g : Workgroup) : copyState (bare s) x (bareGroup g) = copyState s x g := by
  have hsees : seesWort (bare s) x (bareGroup g) = seesWort s x g := by
    unfold seesWort
    rw [getWg_bare]
    cases s.getWg x.opener <;> rfl
  rw [copyState, hsees]; rfl

theorem wortIssueHit_bare (w : Warp) (va n : Nat) : wortIssueHit (bare s) w va n = wortIssueHit s w va n := by
  unfold wortIssueHit State.warpWg
  rw [warpRegion_bare, getWg_bare]
  cases s.warpRegion w with
  | none => rfl
  | some r =>
    cases s.getWg w.wg with
    | none => rfl
    | some g => simp only [Option.map_some, copyState_bare]

theorem globalCheck_bare (x : Issue) (ban : Bool) (addr : Nat → DWord) (n l : Nat) :
    globalCheck (bare s) x ban addr n l = globalCheck s x ban addr n l := by
  simp only [globalCheck, judgeGlobal, wortIssueHit_bare]

theorem scratchPlace_bare (g : Workgroup) (off n : Nat) : scratchPlace (bare s) (bareGroup g) off n = scratchPlace s g off n := by
  have hmember (m : Nat) : gangMember (bare s) (bareGroup g) m = (gangMember s g m).map bareGroup := List.find?_map
  simp only [scratchPlace, hmember]
  cases gangMember s g ((off - 0x01000000) / 0x100000) <;> rfl

theorem hitsCopy_bare (p : SPlace) (n : Nat) : hitsCopy (bare s) p n = hitsCopy s p n := by
  cases p with
  | cask => rfl
  | bank wg k =>
    simp only [hitsCopy, getWg_bare]
    cases s.getWg wg with
    | none => rfl
    | some g => exact congrArg (List.any s.copies) (funext fun c => by cases c.dst <;> rfl)

theorem scratchCheck_bare (x : Issue) (off : Nat → Word) (n l : Nat) : scratchCheck (bare s) x off n l = scratchCheck s x off n l := by
  unfold scratchCheck State.warpWg
  rw [getWg_bare, warpCtx_bare]
  cases s.getWg x.w.wg with
  | none => rfl
  | some g =>
    simp only [Option.map_some, judgeScratch, scratchPlace_bare, hitsCopy_bare]
    rfl

theorem atomCheck_bare (x : Issue) (scr : Bool) (addr : Nat → DWord) (n l : Nat) :
    atomCheck (bare s) x scr addr n l = atomCheck s x scr addr n l := by
  simp only [atomCheck, scratchCheck_bare, globalCheck_bare]

theorem bankEnd_bare (p : SPlace) : bankEnd (bare s) p = bankEnd s p := by
  cases p with
  | cask => rfl
  | bank wg k =>
    simp only [bankEnd, getWg_bare]
    cases s.getWg wg <;> rfl

theorem endOf_bare (x : Issue) (glob : Bool) (a n : Nat) : endOf (bare s) x glob a n = endOf s x glob a n := by
  unfold endOf State.warpWg
  rw [getWg_bare, warpCtx_bare]
  cases s.getWg x.w.wg with
  | none => rfl
  | some g =>
    simp only [Option.map_some, scratchPlace_bare, bankEnd_bare]
    rfl

end

/-! ## What is read when an instruction begins -/

section
variable {i : Instr} {s s0 : State} {w : Warp} {x : Issue} (h : Issues i s w x s0)
include h

theorem clock_of_issues : (begin_ x s0).clock = s.clock := read_of_issues h (F := State.clock) fun _ => rfl

theorem warpAsid_of_issues (v : Warp) : (begin_ x s0).warpAsid v = s.warpAsid v :=
  read_of_issues h (F := (State.warpAsid · v)) (warpAsid_bare · v)

theorem warpCore_of_issues (v : Warp) : (begin_ x s0).warpCore v = s.warpCore v :=
  read_of_issues h (F := (State.warpCore · v)) (warpCore_bare · v)

theorem outOf_of_issues (f : File) (d : Reg) (lanes : LaneSet) (res : Result) (c : Option Ctr) :
    outOf x (begin_ x s0) f d lanes res c = outOf x s f d lanes res c :=
  read_of_issues h (F := (outOf x · f d lanes res c)) (outOf_bare · x f d lanes res c)

/-- The gang of the warp that issues differs in nothing but its count of instructions. -/
theorem warpGang_of_issues {g : Gang} (hg : s.warpGang w = some g) :
    ∃ r, (begin_ x s0).warpGang w = some { g with ret := r } := by
  have hbare := congrArg (State.warpGang · w) (bare_of_issues h)
  simp only [warpGang_bare, hg, Option.map_some] at hbare
  obtain ⟨g', hg', he⟩ := Option.map_eq_some_iff.1 hbare
  exact ⟨g'.ret, hg'.trans (congrArg some (congrArg (fun y : Gang => { y with ret := g'.ret }) he))⟩

end

end Sys2Proof.Machine
end

section
/-! What an instruction leaves of its own warp when it issues (R78, R81), and the instructions whose result is outstanding or whose store is
posted (R205 to R214, R220, R226, R236, R409). -/

namespace Sys2Proof.Machine

/-! ## The warp behind its park marker -/

/-- A warp behind the park marker of an instruction (R81). -/
def ParkedAs (x : Issue) (u w' : Warp) : Prop :=
  w' = { u with parked := x.r.pk && !u.outs.isEmpty, stopped := w'.stopped, opbuf := if x.r.pk then none else u.opbuf }

theorem ParkedAs.lane {x : Issue} {u w' : Warp} (h : ParkedAs x u w') (l : Nat) : w'.lane l = u.lane l := by rw [h]; rfl

/-- The warp that issues has begun, under its own identity. -/
theorem getWarp_begun {i : Instr} {s s0 : State} {w : Warp} {x : Issue} (h : Issues i s w x s0) :
    (begin_ x s0).getWarp w.id = some (begunWarp x s0.nextId w) := by
  obtain ⟨rfl, -⟩ := issues_warp h
  exact begin_getWarp_of_issues h

section
variable {i : Instr} {s s0 : State} {w : Warp} {x : Issue} (h : Issues i s w x s0) {effect : Issue → State → State} {u : Warp}
  (hu : (effect x (begin_ x s0)).getWarp w.id = some u) (hp : u.parked = false)
include h hu hp

/-- An instruction that issues leaves its effect behind the park marker. -/
theorem issue_leaves : ∃ w', issue i s always effect = .next (park x (effect x (begin_ x s0))) ∧
    (park x (effect x (begin_ x s0))).getWarp w.id = some w' ∧ ParkedAs x u w' := by
  obtain ⟨rfl, -⟩ := issues_warp h
  obtain ⟨w', hw', e⟩ := park_getWarp x _ hu hp
  exact ⟨w', issueP_of_issues h effect rfl, hw', e⟩

/-- When its effect lies in its own warp, everything outside that is kept. -/
theorem issue_keeps (honly : OnlyWarp w.id (begin_ x s0) (effect x (begin_ x s0))) :
    ∃ t w', issue i s always effect = .next t ∧ t.getWarp w.id = some w' ∧ ParkedAs x u w' ∧ Kept s0 t w.id := by
  obtain ⟨w', hstep, hw', e⟩ := issue_leaves h hu hp
  obtain ⟨rfl, -⟩ := issues_warp h
  exact ⟨_, w', hstep, hw', e, kept_park_of_onlyWarp honly⟩

end

/-! ## Instructions that change what is outstanding -/

/-- A warp after a change of what is outstanding, on its way and counted. -/
def OutstandingOnly (w w' : Warp) : Prop := w' = { w with outs := w'.outs, reads := w'.reads, stores := w'.stores, ctrs := w'.ctrs }

section
variable {i : Instr} {s s0 : State} {w : Warp} {x : Issue}

theorem issue_of_outstandingOnly (h : Issues i s w x s0) {effect : Issue → State → State} {g : Warp → Warp}
    (he : effect x (begin_ x s0) = (begin_ x s0).modWarp x.w.id g) (hg : ∀ y, OutstandingOnly y (g y)) :
    ∃ t w' n, issue i s always effect = .next t ∧ t.getWarp w.id = some w' ∧
      (w'.outs = (g (begunWarp x n w)).outs ∧ w'.reads = (g (begunWarp x n w)).reads ∧ w'.stores = (g (begunWarp x n w)).stores ∧
        w'.ctrs = (g (begunWarp x n w)).ctrs) ∧ Advanced x w w' ∧ WarpKeptOut w w' ∧ ParksBy x w' ∧ Kept s0 t w.id := by
  obtain ⟨-, hrun⟩ := issues_run h
  rw [issue_congr h (effect' := fun y u => u.modWarp y.w.id g) he]
  obtain ⟨t, w', n, hstep, hw', hkept, e⟩ :=
    issue_own_warp h g (fun y u => u.modWarp y.w.id g) (fun _ => rfl) (fun y => by rw [hg y]) fun y => by rw [hg y]
  refine ⟨t, w', n, hstep, hw', ?_, fun l => ?_, ?_, ?_, hkept⟩
  · rw [e]; exact ⟨rfl, rfl, rfl, rfl⟩
  · rw [← begunWarp_lane x n w hrun l, e, hg]; rfl
  · rw [e, hg]; rfl
  · rw [e, ParksBy]

end

/-! ## Accesses whose participants pass (R203) -/

/-- A warp with one more result outstanding, counted. -/
def withResult (x : Issue) (c : Ctr) (o : Outst) (w : Warp) : Warp := addOut (countUp w c x.tag) o

/-- The store that an instruction posts. -/
def postOf (x : Issue) (s : State) (c : Ctr) (op : StoreOp) : PStore :=
  { tag := x.tag, pc := x.pc, d := x.r.d, lanes := x.e, op := op, asid := s.warpAsid x.w, ctr := c }

/-- A warp with one more store on its way, counted. -/
def withStore (x : Issue) (c : Ctr) (p : PStore) (w : Warp) : Warp := { countUp w c x.tag with stores := w.stores ++ [p] }

section
variable {x : Issue} {check : Nat → Verdict} (h : ∀ l, l < 32 → x.e.getLsbD l = true → check l = .pass) (he : x.e ≠ 0)
include h he

theorem readEffect_of_pass (s : State) (f : File) (d : Reg) (c : Ctr) (offs : Nat → Nat) (res : List Nat → Result) :
    readEffect x s f d c check offs res =
      s.modWarp x.w.id (withResult x c (outOf x s f d x.e (res (lanesOf x.e)) (some c))) := by
  have he' : ¬ (x.e == 0) = true := by rwa [beq_iff_eq]
  simp only [readEffect, passing_of_pass h, if_neg he', settleChecks_of_pass h]
  rfl

theorem postEffect_of_pass (s : State) (c : Ctr) (offs : Nat → Nat) (op : List Nat → StoreOp) :
    postEffect x s c check offs op = s.modWarp x.w.id (withStore x c (postOf x s c (op (lanesOf x.e)))) := by
  have he' : ¬ (x.e == 0) = true := by rwa [beq_iff_eq]
  simp only [postEffect, passing_of_pass h, if_neg he', settleChecks_of_pass h]
  rfl

end

section
variable {i : Instr} {c : Ctr} {check : State → Issue → Nat → Verdict} {offs : Issue → Nat → Nat}
  (hcheck : ∀ s x l, check (bare s) x l = check s x l)
include hcheck

/-- An instruction with a result from memory, whose check and result look at nothing that its beginning changes. -/
theorem readIssues_of_effect {f : File} {d : Reg} {res : State → Issue → List Nat → Result}
    (hres : ∀ s x ls, res (bare s) x ls = res s x ls)
    (hexec : ∀ s, exec i s = issue i s always fun x t => readEffect x t f d c (check t x) (offs x) (res t x)) :
    ReadIssues i f d c check res := by
  intro s w x s0 h hpass
  obtain ⟨rfl, -⟩ := issues_warp h
  have ⟨_, hne, _, _⟩ := h
  have hpass' : ∀ l, l < 32 → x.e.getLsbD l = true → check (begin_ x s0) x l = .pass := fun l hl he =>
    (read_of_issues h (F := (check · x l)) (hcheck · x l)).trans (hpass l hl he)
  obtain ⟨t, w', n, hstep, hw', ⟨houts, hreads, hstores, hctrs⟩, hadv, hkeep⟩ :=
    issue_of_outstandingOnly h (effect := fun y t => readEffect y t f d c (check t y) (offs y) (res t y))
      (readEffect_of_pass hpass' hne (begin_ x s0) f d c (offs x) (res (begin_ x s0) x)) fun _ => rfl
  change w'.outs = x.w.outs ++ [outOf x (begin_ x s0) f d x.e (res (begin_ x s0) x (lanesOf x.e)) (some c)] at houts
  rw [read_of_issues h (F := (res · x (lanesOf x.e))) (hres · x (lanesOf x.e)), outOf_of_issues h] at houts
  exact ⟨t, w', (hexec s).trans hstep, hw', houts, hctrs, hstores, hreads, hadv, hkeep⟩

/-- A posted instruction, whose check looks at nothing that its beginning changes. -/
theorem postIssues_of_effect {op : Issue → List Nat → StoreOp}
    (hexec : ∀ s, exec i s = issue i s always fun x t => postEffect x t c (check t x) (offs x) (op x)) : PostIssues i c check op := by
  intro s w x s0 h hpass
  obtain ⟨rfl, -⟩ := issues_warp h
  have ⟨_, hne, _, _⟩ := h
  have hpass' : ∀ l, l < 32 → x.e.getLsbD l = true → check (begin_ x s0) x l = .pass := fun l hl he =>
    (read_of_issues h (F := (check · x l)) (hcheck · x l)).trans (hpass l hl he)
  obtain ⟨t, w', n, hstep, hw', ⟨houts, hreads, hstores, hctrs⟩, hadv, hkeep⟩ :=
    issue_of_outstandingOnly h (effect := fun y t => postEffect y t c (check t y) (offs y) (op y))
      (postEffect_of_pass hpass' hne (begin_ x s0) c (offs x) (op x)) fun _ => rfl
  change w'.stores = x.w.stores ++ [postOf x (begin_ x s0) c (op x (lanesOf x.e))] at hstores
  rw [postOf, warpAsid_of_issues h] at hstores
  exact ⟨t, w', (hexec s).trans hstep, hw', hstores, hctrs, houts, hreads, hadv, hkeep⟩

end

/-! ## Loads, gathers and atomics (R205 to R208, R211, R212, R236) -/

theorem hintSpace_eq (ch : Hint) : hintSpace ch = if ch = .na then .home else if ch = .ef then .early else .global := by
  cases ch <;> rfl

theorem gath_readIssues (h : Hdr) (wide : Bool) (sh : BitVec 3) (sgn : Bool) (d a b : Reg) :
    ReadIssues (.gath h wide sh sgn d a b) (if wide then .p else .v) d .gat
      (fun s x => globalCheck s x false (gatherAddr x a (fun l => (rdV x.w b l).toNat) sh sgn) (if wide then 8 else 4))
      fun _ x ls => .load .gather (if wide then .b64 else .b32)
        (ls.map fun l => (l, gatherAddr x a (fun l => (rdV x.w b l).toNat) sh sgn l)) := by
  cases wide with
  | false => exact readIssues_of_effect (fun s x l => globalCheck_bare s x _ _ _ l) (fun _ _ _ => rfl) fun _ => rfl
  | true => exact readIssues_of_effect (fun s x l => globalCheck_bare s x _ _ _ l) (fun _ _ _ => rfl) fun _ => rfl

/-- Settles O21: each is the shared effect of an instruction with a result from memory, under the check of its space. -/
theorem loadsAreOutstanding : Obligations.LoadsAreOutstanding :=
  ⟨fun _ _ ch _ _ => hintSpace_eq ch ▸ readIssues_of_effect (fun s x l => globalCheck_bare s x _ _ _ l) (fun _ _ _ => rfl) fun _ => rfl,
   fun _ _ _ _ => readIssues_of_effect (fun s x l => globalCheck_bare s x _ _ _ l) (fun _ _ _ => rfl) fun _ => rfl,
   fun _ _ _ _ => readIssues_of_effect (fun _ _ _ => rfl) (fun s x ls => by simp only [warpEff_bare]) fun _ => rfl,
   fun _ _ _ _ => readIssues_of_effect (fun s x l => scratchCheck_bare s x _ _ l) (fun _ _ _ => rfl) fun _ => rfl,
   gath_readIssues,
   fun _ _ _ _ _ => readIssues_of_effect (fun s x l => atomCheck_bare s x _ _ _ l) (fun _ _ _ => rfl) fun _ => rfl,
   fun _ _ _ _ _ _ => readIssues_of_effect (fun s x l => atomCheck_bare s x _ _ _ l) (fun _ _ _ => rfl) fun _ => rfl⟩

/-! ## Stores, reductions and the other posted instructions (R205, R208, R213, R220, R226, R236, R409) -/

/-- Settles O22: each is the shared effect of a posted instruction, under the check of its space. -/
theorem storesArePosted : Obligations.StoresArePosted :=
  ⟨fun _ _ ch _ => hintSpace_eq ch ▸ postIssues_of_effect (fun s x l => globalCheck_bare s x _ _ _ l) fun _ => rfl,
   fun _ _ _ => postIssues_of_effect (fun s x l => globalCheck_bare s x _ _ _ l) fun _ => rfl,
   fun _ _ _ => postIssues_of_effect (fun s x l => scratchCheck_bare s x _ _ l) fun _ => rfl,
   fun _ _ _ _ _ => postIssues_of_effect (fun s x l => atomCheck_bare s x _ _ _ l) fun _ => rfl,
   fun _ _ _ _ _ => postIssues_of_effect (fun s x l => atomCheck_bare s x _ _ _ l) fun _ => rfl,
   fun _ _ _ _ _ => postIssues_of_effect (fun s x l => globalCheck_bare s x _ _ _ l) fun _ => rfl,
   fun _ _ _ => postIssues_of_effect (fun s x l => globalCheck_bare s x _ _ _ l) fun _ => rfl,
   fun _ _ _ => postIssues_of_effect (fun s x l => globalCheck_bare s x _ _ _ l) fun _ => rfl,
   fun _ _ => postIssues_of_effect (fun _ _ _ => rfl) fun _ => rfl,
   fun _ _ => postIssues_of_effect (fun _ _ _ => rfl) fun _ => rfl,
   fun _ _ => postIssues_of_effect (fun _ _ _ => rfl) fun _ => rfl,
   fun _ _ => postIssues_of_effect (fun _ _ _ => rfl) fun _ => rfl⟩

end Sys2Proof.Machine
end

section
/-! A misaligned load (R203). A warp has 32 lanes (R74), but the statement does not ask for it; what it says of the trap is true of exactly
the warps that list 32 lanes. -/

namespace Sys2Proof.Machine

theorem lanesOf_ne_nil {m : LaneSet} (h : m ≠ 0) : lanesOf m ≠ [] := fun hnil => h <| BitVec.eq_of_getLsbD_eq fun l hl => by
  have hnot : ¬ l ∈ lanesOf m := by rw [hnil]; exact List.not_mem_nil
  rw [mem_lanesOf] at hnot
  simpa [hl] using hnot

theorem laneSet_lanesOf (m : LaneSet) : laneSet (lanesOf m) = m := BitVec.eq_of_getLsbD_eq fun l hl => by
  rw [getLsbD_laneSet _ hl]; simp [hl]

section
variable {x : Issue} {check : Nat → Verdict} (h : ∀ l, l < 32 → x.e.getLsbD l = true → check l = .align)
include h

theorem verdicts_of_align : verdicts x check = (lanesOf x.e).map fun l => (l, .align) :=
  List.map_congr_left fun l hl => by
    obtain ⟨hlt, he⟩ := (mem_lanesOf x.e l).1 hl
    rw [h l hlt he]

/-- No lane passes, and the participants take MEM_ALIGN together. -/
theorem readEffect_of_align (he : x.e ≠ 0) (s : State) (f : File) (d : Reg) (c : Ctr) (offs : Nat → Nat) (res : List Nat → Result) :
    readEffect x s f d c check offs res = issueTrap x s 0x10 0 x.e (fileCode f) := by
  have hnone (p : Verdict → Bool) (hp : p .align = false) : lanesWith (verdicts x check) p = 0 := by
    rw [verdicts_of_align h]; simp [lanesWith, List.filter_map, Function.comp_def, hp, laneSet]
  have hall : lanesWith (verdicts x check) isFail = x.e := by
    rw [verdicts_of_align h]
    simpa [lanesWith, List.filter_map, Function.comp_def, isFail] using laneSet_lanesOf x.e
  have hany : ((verdicts x check).any fun v => v.2 == .align) = true := by
    rw [verdicts_of_align h]
    obtain ⟨l, hl⟩ := List.exists_mem_of_ne_nil _ (lanesOf_ne_nil he)
    exact List.any_eq_true.2 ⟨(l, .align), List.mem_map_of_mem hl, rfl⟩
  have hinfo : failInfo (verdicts x check) = 0 := by
    have hother : ((verdicts x check).any fun v => isFail v.2 && v.2 != .align) = false := by
      rw [verdicts_of_align h]; simp
    simp only [failInfo, hany, hother, if_true]
    rfl
  have hfind (p : Nat × Verdict → Bool) (hp : ∀ l, p (l, .align) = false) : (verdicts x check).find? p = none := by
    rw [verdicts_of_align h]; simp [hp]
  have hlfm : s.modWarp x.w.id (fun w => { w with lfm := w.lfm ||| 0 }) = s := modWarp_of_forall_eq fun w => by simp
  have he' : ¬ (x.e == 0) = true := by rwa [beq_iff_eq]
  have hpass : passing (verdicts x check) = 0 := hnone _ rfl
  simp only [readEffect, hpass, settleChecks, hnone (fun v => v == .off) rfl, hall, hany, hinfo, hlfm, beq_self_eq_true, if_true, if_neg he']
  rw [hfind]
  exact fun _ => rfl

end

theorem exec_ld (h : Hdr) (sz : Sz) (ch : Hint) (d : Reg) (m : Addr) (s : State) : exec (.ld h sz ch d m) s =
    issue (.ld h sz ch d m) s always fun x t => readEffect x t sz.file d .ld (globalCheck t x false (addrGlobal x m) (Sz.bytes sz)) noOff
      fun ls => .load (hintSpace ch) sz (ls.map fun l => (l, addrGlobal x m l)) := rfl

section
variable {h : Hdr} {sz : Sz} {ch : Hint} {d : Reg} {m : Addr} {s s0 : State} {w : Warp} {x : Issue} (hi : Issues (.ld h sz ch d m) s w x s0)
  (hmis : ∀ l, l < 32 → x.e.getLsbD l = true → (rdP w m.base l + (m.off.getD 0).signExtend 64).toNat % Sz.bytes sz ≠ 0)
include hi hmis

/-- LD at misaligned addresses is the trap of its participants. -/
theorem ldEffect_of_misaligned (t : State) :
    readEffect x t sz.file d .ld (globalCheck t x false (addrGlobal x m) (Sz.bytes sz)) noOff
      (fun ls => .load (hintSpace ch) sz (ls.map fun l => (l, addrGlobal x m l))) = issueTrap x t 0x10 0 x.e (fileCode sz.file) := by
  obtain ⟨rfl, -⟩ := issues_warp hi
  have ⟨_, hne, _, _⟩ := hi
  refine readEffect_of_align (fun l hl he => ?_) hne t _ _ _ _ _
  have hbad : (addrGlobal x m l).toNat % Sz.bytes sz ≠ 0 := hmis l hl he
  rw [globalCheck, judgeGlobal, if_pos hbad]

/-- R203 of a warp of 32 lanes: LD at misaligned addresses takes MEM_ALIGN, and nothing of it is outstanding or counted. -/
theorem misalignedLoad_taken (hv : w.htvec ≠ 0) (ht : w.inTrap = false) (hlanes : 32 ≤ w.lanes.length) :
    ∃ t w', exec (.ld h sz ch d m) s = .next t ∧ t.getWarp w.id = some w' ∧
      TrapTaken w w' 0x10 0 x.e x.pc x.after ∧ w'.ctrs = w.ctrs ∧ w'.reads = w.reads ∧ t.mem = s0.mem := by
  obtain ⟨t, w', hstep, hw', hmem, e⟩ := issue_enters_handler hi 0x10 0 (fileCode sz.file) (exec_ld h sz ch d m s) rfl
    (ldEffect_of_misaligned hi hmis _) hv ht
  exact ⟨t, w', hstep, hw', (trapTaken_trappedIssue_iff hi _ _ _ _ e).2 hlanes, by rw [e]; rfl, by rw [e]; rfl, hmem⟩

end

/-- A load of 4 bytes at an odd address. -/
def oddLoad : Instr := .ld h0 .b32 .none 2 ⟨0, some 1⟩

/-- Refutes O23: a warp that lists lane 0 only takes MEM_ALIGN for a load at the address 1, and lane 1, which reads as ready, is not held as
the statement says. With 32 lanes it is `misalignedLoad_taken`. -/
theorem not_misalignedLoadTraps : ¬ Obligations.MisalignedLoadTraps := by
  intro hclaim
  have hi : Issues oddLoad (oneLaneState 0) (oneLane 0) (mkIssue oddLoad (oneLane 0)) (oneLaneState 0) :=
    ⟨⟨rfl, by decide, rfl, rfl, rfl, rfl, by decide⟩, by decide, by decide, rfl⟩
  have hmis : ∀ l, l < 32 → (mkIssue oddLoad (oneLane 0)).e.getLsbD l = true →
      (rdP (oneLane 0) 0 l + (1 : Word).signExtend 64).toNat % Sz.bytes .b32 ≠ 0 := by decide
  obtain ⟨t, w', hstep, hw', htaken, -, -, hmem⟩ := hclaim _ _ _ _ _ _ _ _ _ hi (by decide) rfl hmis
  have hlanes := lanes_of_issueTrap_taken hi 0x10 0 (fileCode Sz.b32.file) (exec_ld h0 .b32 .none 2 ⟨0, some 1⟩ _) rfl
    (ldEffect_of_misaligned hi hmis _) (by decide) rfl ⟨t, w', hstep, hw', htaken, hmem⟩
  exact absurd hlanes (by decide)

end Sys2Proof.Machine
end

section
/-! Participants put to sleep: SLEEP, SLEEPT, WAITW and MWAIT, and WATCH (R227 to R232). -/

namespace Sys2Proof.Machine

/-! ## Lanes put to sleep -/

/-- A warp with the lanes of a set asleep since an instant. -/
def asleep (m : LaneSet) (pc next : DWord) (k : Nat → SleepKind) (now : DWord) (w : Warp) : Warp :=
  w.modLanes m fun l y => { y with pc := pc, st := .sleeping (k l) next, since := now }

theorem modLanes_none (w : Warp) (f : Nat → Lane → Lane) : w.modLanes 0 f = w := by
  have hlanes : (w.modLanes 0 f).lanes = w.lanes := List.ext_getElem (by simp [Warp.modLanes]) fun l _ _ => by simp [Warp.modLanes]
  exact congrArg (fun ls => { w with lanes := ls }) hlanes

theorem asleep_none (pc next : DWord) (k : Nat → SleepKind) (now : DWord) (w : Warp) : asleep 0 pc next k now w = w := modLanes_none w _

/-- A warp after a change of its lanes and the bookkeeping of its issue. -/
def LanesOnly (w w' : Warp) : Prop :=
  w' = { w with
    lanes := w'.lanes
    issued := w'.issued
    stamp := w'.stamp
    waitc := none
    opbuf := w'.opbuf
    point := none
    parked := w'.parked
    stopped := w'.stopped }

section
variable (s : State) (n : Nat) (m : LaneSet) (pc next : DWord) (k : Nat → SleepKind)

theorem onlyWarp_sleepLanes : OnlyWarp n s (sleepLanes s n m pc next k) :=
  (onlyWarp_modWarp s n (f := asleep m pc next k s.clock) fun _ => rfl).trans (onlyWarp_savePoint _ _)

theorem sleepLanes_getWarp {w : Warp} (hw : s.getWarp n = some w) :
    ∃ b, (sleepLanes s n m pc next k).getWarp n = some { asleep m pc next k s.clock w with stopped := b } := by
  have hself := getWarp_modWarp_self s n (asleep m pc next k s.clock) fun _ => rfl
  rw [hw] at hself
  exact savePoint_getWarp hself

/-- The same where the set may have no lane. -/
theorem sleepSome_getWarp {w : Warp} (hw : s.getWarp n = some w) :
    ∃ b, (if m == 0 then s else sleepLanes s n m pc next k).getWarp n = some { asleep m pc next k s.clock w with stopped := b } := by
  by_cases hm : m = 0
  · subst hm
    exact ⟨w.stopped, by rw [asleep_none]; exact hw⟩
  · rw [if_neg (by rwa [beq_iff_eq])]
    exact sleepLanes_getWarp s n m pc next k hw

theorem onlyWarp_sleepSome : OnlyWarp n s (if m == 0 then s else sleepLanes s n m pc next k) := by
  split
  · exact .refl n s
  · exact onlyWarp_sleepLanes s n m pc next k

end

section
variable {i : Instr} {s s0 : State} {w : Warp} {x : Issue} (h : Issues i s w x s0) {m : LaneSet}
  (hm : ∀ l, m.getLsbD l = true → x.e.getLsbD l = true) (k : Nat → SleepKind)
include h

include hm

/-- Where the lanes stand when some participants have been put to sleep. -/
theorem lane_asleep_begunWarp (now : DWord) (n l : Nat) : (asleep m x.pc x.after k now (begunWarp x n w)).lane l =
    if m.getLsbD l = true then { w.lane l with pc := x.pc, st := .sleeping (k l) x.after, since := now }
    else { w.lane l with pc := if x.run.getLsbD l then x.after else (w.lane l).pc } := by
  obtain ⟨-, hrun⟩ := issues_run h
  rw [asleep, lane_modLanes, begunWarp_lane x n w hrun, begunWarp_length]
  by_cases hl : m.getLsbD l = true
  · obtain ⟨-, hlt, -⟩ := participant_of_issues h (BitVec.lt_of_getLsbD hl) (hm l hl)
    rw [if_pos ⟨hlt, hl⟩, if_pos hl]
  · rw [if_neg fun hc => hl hc.2, if_neg hl]

/-- An instruction whose effect puts some participants to sleep completes: they keep its counter and will go on after it, the rest of the run
has moved on, and everything else is kept. -/
theorem issue_sleeps {effect : Issue → State → State}
    (he : effect x (begin_ x s0) = if m == 0 then begin_ x s0 else sleepLanes (begin_ x s0) w.id m x.pc x.after k) :
    ∃ t w', issue i s always effect = .next t ∧ t.getWarp w.id = some w' ∧ LanesOnly w w' ∧
      (∀ l, w'.lane l = if m.getLsbD l = true then { w.lane l with pc := x.pc, st := .sleeping (k l) x.after, since := s.clock }
        else { w.lane l with pc := if x.run.getLsbD l then x.after else (w.lane l).pc }) ∧ Kept s0 t w.id := by
  have hb := getWarp_begun h
  obtain ⟨b, hu⟩ := sleepSome_getWarp (begin_ x s0) w.id m x.pc x.after k hb
  rw [← he, clock_of_issues h] at hu
  obtain ⟨t, w', hstep, hw', e, hkept⟩ := issue_keeps h hu (show w.parked = false from parked_of_issues h)
    (he ▸ onlyWarp_sleepSome (begin_ x s0) w.id m x.pc x.after k)
  refine ⟨t, w', hstep, hw', ?_, fun l => ?_, hkept⟩
  · rw [LanesOnly, e]; rfl
  · exact (e.lane l).trans (lane_asleep_begunWarp h hm k s.clock s0.nextId l)

end

/-- What a change of lanes only leaves of a warp. -/
theorem LanesOnly.kept {w w' : Warp} (h : LanesOnly w w') :
    NoRegister w w' ∧ w'.outs = w.outs ∧ w'.stores = w.stores ∧ w'.ctrs = w.ctrs ∧ w'.arms = w.arms := by
  rw [h]; exact ⟨⟨rfl, rfl, rfl, rfl⟩, rfl, rfl, rfl, rfl⟩

/-! ## SLEEP (R228) -/

/-- The participants with a count. -/
def sleepers (x : Issue) (v : SrcB) : LaneSet := laneSet ((lanesOf x.e).filter fun l => srcB x .v v l != 0)

theorem mem_sleepers (x : Issue) (v : SrcB) (l : Nat) : (sleepers x v).getLsbD l = true ↔ x.e.getLsbD l = true ∧ srcB x .v v l ≠ 0 := by
  by_cases hl : l < 32
  · rw [sleepers, getLsbD_laneSet _ hl]; simp [hl]
  · rw [BitVec.getLsbD_of_ge _ _ (by omega), BitVec.getLsbD_of_ge _ _ (by omega)]; simp

theorem exec_sleep (h : Hdr) (v : SrcB) (s : State) : exec (.sleep h v) s = issue (.sleep h v) s always fun x t =>
    if sleepers x v == 0 then t
    else sleepLanes t x.w.id (sleepers x v) x.pc x.after fun l => .clock (t.clock + BitVec.ofNat 64 (srcB x .v v l)) := rfl

/-! ## SLEEPT (R232) -/

/-- The participants whose deadline has passed. -/
def pastDeadline (x : Issue) (a : Reg) (now : DWord) : List Nat :=
  (lanesOf x.e).filter fun l => decide ((rdP x.w a l).toNat ≤ now.toNat)

/-- SLEEPT as it issues: the other participants sleep, and these are checked. -/
def sleeptEffect (a b : Reg) (x : Issue) (t : State) : State :=
  let m := x.e &&& ~~~ laneSet (pastDeadline x a t.clock)
  promiseCheck
    (if m == 0 then t
      else sleepLanes t x.w.id m x.pc x.after fun l => .promise (rdP x.w a l) (bitsAt (rdV x.w b l).toNat 0 16))
    x.w.id x.pc ((pastDeadline x a t.clock).map fun l => (l, bitsAt (rdV x.w b l).toNat 0 16))

theorem exec_sleept (h : Hdr) (a b : Reg) (s : State) : exec (.sleept h a b) s = issue (.sleept h a b) s always (sleeptEffect a b) := rfl

theorem promiseCheck_nil (s : State) (n : Nat) (pc : DWord) : promiseCheck s n pc [] = s := by
  unfold promiseCheck
  split
  · rfl
  · exact modWarp_of_forall_eq fun w => modLanes_none w _

/-- With every deadline still to come the participants sleep. -/
theorem sleeptEffect_of_early {x : Issue} {a : Reg} {t : State} (h : pastDeadline x a t.clock = []) (b : Reg) :
    sleeptEffect a b x t = if x.e == 0 then t
      else sleepLanes t x.w.id x.e x.pc x.after fun l => .promise (rdP x.w a l) (bitsAt (rdV x.w b l).toNat 0 16) := by
  have hm : x.e &&& ~~~ laneSet [] = x.e := by
    rw [show laneSet [] = 0 from rfl, show ~~~ (0 : LaneSet) = BitVec.allOnes 32 from BitVec.not_zero, BitVec.and_allOnes]
  simp only [sleeptEffect, h, hm, List.map_nil, promiseCheck_nil]

theorem sleepsBegin : Clause.SleepsBegin := by
  refine ⟨fun h v s w x s0 hi => ?_, fun h a b s w x s0 hi hlate => ?_⟩
  · obtain ⟨rfl, -⟩ := issues_warp hi
    obtain ⟨t, w', hstep, hw', honly, hlane, hkept⟩ := issue_sleeps hi (fun l hl => ((mem_sleepers x v l).1 hl).1)
      (fun l => .clock (s.clock + BitVec.ofNat 64 (srcB x .v v l)))
      (effect := fun y t => if sleepers y v == 0 then t
        else sleepLanes t y.w.id (sleepers y v) y.pc y.after fun l => .clock (t.clock + BitVec.ofNat 64 (srcB y .v v l)))
      (by rw [clock_of_issues hi])
    obtain ⟨hreg, houts, hstores, hctrs, -⟩ := honly.kept
    refine ⟨t, w', (exec_sleep h v s).trans hstep, hw', hreg, fun l _ => (hlane l).trans ?_, houts, hstores, hctrs, hkept⟩
    exact if_congr (mem_sleepers x v l) rfl rfl
  · obtain ⟨rfl, -⟩ := issues_warp hi
    have hnone : pastDeadline x a (begin_ x s0).clock = [] := List.filter_eq_nil_iff.2 fun l hl => by
      obtain ⟨hlt, he⟩ := (mem_lanesOf x.e l).1 hl
      have := hlate l hlt he
      rw [clock_of_issues hi]
      simpa using this
    obtain ⟨t, w', hstep, hw', honly, hlane, hkept⟩ := issue_sleeps hi (fun _ => id)
      (fun l => .promise (rdP x.w a l) (bitsAt (rdV x.w b l).toNat 0 16)) (sleeptEffect_of_early hnone b)
    obtain ⟨hreg, houts, hstores, hctrs, -⟩ := honly.kept
    exact ⟨t, w', (exec_sleept h a b s).trans hstep, hw', hreg, fun l _ => hlane l, houts, hstores, hctrs, hkept⟩

/-! ## A promise that was missed (R232) -/

/-- Lanes past their deadline whose copy still runs take PROMISE_MISSED together. -/
theorem promiseCheck_of_running {s : State} {n : Nat} {w : Warp} (hw : s.getWarp n = some w) (pc : DWord) {tag : Nat}
    (h : tagComplete w tag = false) {ls : List Nat} (hls : ls ≠ []) : promiseCheck s n pc (ls.map fun l => (l, tag)) =
      takeTrap s n { cause := 0x18, info := BitVec.ofNat 16 tag, lanes := laneSet ls, pc := pc } fun _ _ => pc + 8 := by
  have hgood : (ls.map fun l => (l, tag)).filter (fun d => tagComplete w d.2) = [] := by simp [h]
  have hbad : (ls.map fun l => (l, tag)).filter (fun d => !tagComplete w d.2) = ls.map fun l => (l, tag) := by simp [h]
  have hsame : s.modWarp n (fun y => y.modLanes (laneSet []) fun l z => wakeLane y l (pc + 8) z) = s :=
    modWarp_of_forall_eq fun y => modLanes_none y _
  have hfst : (ls.map fun l => (l, tag)).map (·.1) = ls := by rw [List.map_map]; exact List.map_id ls
  obtain ⟨l, rest, rfl⟩ := List.exists_cons_of_ne_nil hls
  simp only [promiseCheck, hw, hgood, hbad, List.map_nil, hsame, hfst]
  rfl

/-- The trap of participants whose copy is still running at their deadline. -/
def missedTrap (x : Issue) (tag : Nat) : Trap := { cause := 0x18, info := BitVec.ofNat 16 tag, lanes := x.e, pc := x.pc }

section
variable {h : Hdr} {a b : Reg} {s s0 : State} {w : Warp} {x : Issue} {tag : Nat} (hi : Issues (.sleept h a b) s w x s0)
  (hlate : ∀ l, l < 32 → x.e.getLsbD l = true → (rdP w a l).toNat ≤ s.clock.toNat ∧ (rdV w b l).toNat % 2 ^ 16 = tag)
  (hrunning : tagComplete w tag = false)
include hi hlate hrunning

/-- With every deadline past and one copy still running, SLEEPT is the trap of its participants. -/
theorem sleeptEffect_of_missed : sleeptEffect a b x (begin_ x s0) = takeTrap (begin_ x s0) w.id (missedTrap x tag) fun _ _ => x.pc + 8 := by
  obtain ⟨rfl, -⟩ := issues_warp hi
  have ⟨_, hne, _, _⟩ := hi
  have hpast : pastDeadline x a (begin_ x s0).clock = lanesOf x.e := List.filter_eq_self.2 fun l hl => by
    obtain ⟨hlt, he⟩ := (mem_lanesOf x.e l).1 hl
    rw [clock_of_issues hi]
    exact decide_eq_true (hlate l hlt he).1
  have hdue : (lanesOf x.e).map (fun l => (l, bitsAt (rdV x.w b l).toNat 0 16)) = (lanesOf x.e).map fun l => (l, tag) :=
    List.map_congr_left fun l hl => by
      obtain ⟨hlt, he⟩ := (mem_lanesOf x.e l).1 hl
      rw [← (hlate l hlt he).2]; simp [bitsAt]
  have hm : x.e &&& ~~~ laneSet (lanesOf x.e) = 0 := by rw [laneSet_lanesOf]; exact BitVec.and_not_self _
  simp only [sleeptEffect, hpast, hm, beq_self_eq_true, if_true, hdue]
  rw [promiseCheck_of_running (begin_getWarp_of_issues hi) x.pc hrunning (lanesOf_ne_nil hne), laneSet_lanesOf]
  rfl

variable (hv : w.htvec ≠ 0) (ht : w.inTrap = false)
include hv ht

/-- The warp enters its handler: but for what the record says of the instruction it is as after any trap of the participants. -/
theorem sleept_enters_handler :
    ∃ t w', exec (.sleept h a b) s = .next t ∧ t.getWarp w.id = some w' ∧ t.mem = s0.mem ∧
      w' = { trappedIssue x s0.nextId w 0x18 (BitVec.ofNat 16 tag) 0 with
        hdst := w'.hdst
        trapTag := w'.trapTag
        handlerTag := w'.handlerTag
        parked := w'.parked
        stopped := w'.stopped
        opbuf := w'.opbuf } := by
  have ⟨_, hne, _, _⟩ := hi
  have hafter : x.after = x.pc + 8 := by rw [Issue.after, show x.len = 8 by rw [issues_fixed hi]; rfl]; rfl
  have hb := getWarp_begun hi
  have henter := takeTrap_enters _ (missedTrap x tag) (fun _ _ => x.pc + 8) hb hne hv (.inl ht)
  have heff := (sleeptEffect_of_missed hi hlate hrunning).trans henter
  have hself := getWarp_setWarp_of hb (x := enterHandler (begunWarp x s0.nextId w) (missedTrap x tag) fun _ _ => x.pc + 8) rfl
  rw [← heff] at hself
  obtain ⟨w', hstep, hw', e⟩ := issue_leaves hi (effect := sleeptEffect a b) hself
    (show w.parked = false from parked_of_issues hi)
  refine ⟨_, w', (exec_sleept h a b s).trans hstep, hw', by rw [heff]; simp, ?_⟩
  rw [e, trappedIssue, hafter]; rfl

/-- Whether SLEEPT is seen to take PROMISE_MISSED as R160 says it depends on the lanes that the warp lists. -/
theorem missedPromise_taken_iff : (∃ t w', exec (.sleept h a b) s = .next t ∧ t.getWarp w.id = some w' ∧
      TrapTaken w w' 0x18 (BitVec.ofNat 16 tag) x.e x.pc (x.pc + 8) ∧ t.mem = s0.mem) ↔ 32 ≤ w.lanes.length := by
  have hafter : x.after = x.pc + 8 := by rw [Issue.after, show x.len = 8 by rw [issues_fixed hi]; rfl]; rfl
  obtain ⟨t, w', hstep, hw', hmem, e⟩ := sleept_enters_handler hi hlate hrunning hv ht
  have hiff : TrapTaken w w' 0x18 (BitVec.ofNat 16 tag) x.e x.pc (x.pc + 8) ↔ 32 ≤ w.lanes.length := by
    rw [← trapTaken_trappedIssue_iff hi 0x18 (BitVec.ofNat 16 tag) 0 s0.nextId
      (w' := trappedIssue x s0.nextId w 0x18 (BitVec.ofNat 16 tag) 0) rfl, hafter, e]
    exact Iff.rfl
  constructor
  · rintro ⟨t1, w1, hstep1, hw1, htaken, -⟩
    obtain rfl := Host.Outcome.next.inj (hstep.symm.trans hstep1)
    obtain rfl := Option.some.inj (hw'.symm.trans hw1)
    exact hiff.1 htaken
  · exact fun hlanes => ⟨t, w', hstep, hw', hiff.2 hlanes, hmem⟩

end

/-- The warp of one lane with a copy under way whose tag stands in `v6`. -/
def promisedLane : Warp := { wrV (oneLane 0) 6 0 0 1 with nextTag := 2, tags := [(1, .running)] }

/-- The package with that warp in the issue slot. -/
def promisedState : State := { State.reset with warps := [promisedLane] }

/-- Refutes O29: a warp that lists lane 0 only takes PROMISE_MISSED for the deadline 0 of a running copy, and lane 1, which reads as ready, is
not held as the clause on missed promises says. With 32 lanes it is `missedPromise_taken_iff`; the clause on sleeps holds as it stands,
`sleepsBegin`. -/
theorem not_sleepsAndPromises : ¬ Obligations.SleepsAndPromises := by
  rintro ⟨-, hclaim⟩
  have hi : Issues (.sleept h0 4 6) promisedState promisedLane (mkIssue (.sleept h0 4 6) promisedLane) promisedState :=
    ⟨⟨rfl, by decide, rfl, rfl, rfl, rfl, by decide⟩, by decide, by decide, rfl⟩
  have hlate : ∀ l, l < 32 → (mkIssue (.sleept h0 4 6) promisedLane).e.getLsbD l = true →
      (rdP promisedLane 4 l).toNat ≤ promisedState.clock.toNat ∧ (rdV promisedLane 6 l).toNat % 2 ^ 16 = 1 := by decide
  have hlanes := (missedPromise_taken_iff hi hlate rfl (by decide) rfl).1 (hclaim _ _ _ _ _ _ _ 1 hi (by decide) rfl (by decide) hlate rfl)
  exact absurd hlanes (by decide)

/-! ## WATCH and WAITW (R229, R230) -/

/-- The read of a WATCH. -/
def watchRead (x : Issue) (s : State) (arm : Nat) (va : DWord) : Outst :=
  { outOf x s .v 0 (1#32 <<< x.low) (.watch arm x.low va) none with dsts := [], file := 0 }

/-- A warp with an arm on a line, whose read is under way. -/
def armedOn (x : Issue) (s : State) (arm : Nat) (va : DWord) (w : Warp) : Warp :=
  { w with
    reads := w.reads ++ [watchRead x s arm va]
    arms := w.arms.set arm { armed := true, fired := false, asid := s.warpAsid x.w, line := lineOf va } }

/-- WATCH as it issues. -/
def watchEffect (arm : BitVec 2) (m : Addr) (x : Issue) (t : State) : State :=
  if !canonical (addrGlobal x m x.low) then issueTrap x t 0x11 0 x.e 0
  else t.modWarp x.w.id (armedOn x t arm.toNat (addrGlobal x m x.low))

theorem exec_watch (h : Hdr) (arm : BitVec 2) (m : Addr) (s : State) :
    exec (.watch h arm m) s = issue (.watch h arm m) s always (watchEffect arm m) := rfl

theorem exec_waitw (h : Hdr) (mask : BitVec 4) (a : Reg) (s : State) : exec (.waitw h mask a) s = issue (.waitw h mask a) s always fun x t =>
    if armsOpen x.w mask then t else sleepLanes t x.w.id x.e x.pc x.after fun l => .waitw mask (rdP x.w a l) := rfl

theorem watchesAndWaits : Clause.WatchesAndWaits := by
  refine ⟨fun h arm m s w x s0 hi hcanon => ?_, fun h mask a s w x s0 hi => ?_⟩
  · obtain ⟨rfl, -⟩ := issues_warp hi
    obtain ⟨-, hrun⟩ := issues_run hi
    have hasid := warpAsid_of_issues hi x.w
    have heff : watchEffect arm m x (begin_ x s0) =
        (begin_ x s0).modWarp x.w.id (armedOn x (begin_ x s0) arm.toNat (addrGlobal x m x.low)) := by
      rw [watchEffect, hcanon]; rfl
    have hself := getWarp_modWarp_self (begin_ x s0) x.w.id (armedOn x (begin_ x s0) arm.toNat (addrGlobal x m x.low)) fun _ => rfl
    have honly := onlyWarp_modWarp (begin_ x s0) x.w.id (f := armedOn x (begin_ x s0) arm.toNat (addrGlobal x m x.low)) fun _ => rfl
    rw [getWarp_begun hi, ← heff] at hself
    obtain ⟨t, w', hstep, hw', e, hkept⟩ := issue_keeps hi hself (show x.w.parked = false from parked_of_issues hi) (heff ▸ honly)
    refine ⟨t, w', (exec_watch h arm m s).trans hstep, hw', ?_, fun l => ?_, fun hlt => ?_, fun k hk => ?_, ?_, ?_, ?_, ?_, hkept⟩
    · rw [e]; exact ⟨rfl, rfl, rfl, rfl⟩
    · exact (e.lane l).trans (begunWarp_lane x s0.nextId x.w hrun l)
    · rw [e, ← hasid]
      exact List.getElem?_set_self hlt
    · rw [e]
      exact List.getElem?_set_ne hk.symm
    · rw [e]; simp [armedOn]
    · rw [e]; rfl
    · rw [e]; rfl
    · rw [e]; rfl
  · obtain ⟨rfl, -⟩ := issues_warp hi
    have ⟨_, hne, _, _⟩ := hi
    have hne' : ¬ (x.e == 0) = true := by rwa [beq_iff_eq]
    obtain ⟨t, w', hstep, hw', honly, hlane, hkept⟩ := issue_sleeps hi (m := if armsOpen x.w mask then 0 else x.e)
      (fun l hl => by split at hl <;> simp_all) (fun l => .waitw mask (rdP x.w a l))
      (effect := fun y t => if armsOpen y.w mask then t
        else sleepLanes t y.w.id y.e y.pc y.after fun l => .waitw mask (rdP y.w a l))
      (by cases armsOpen x.w mask
          · simp only [Bool.false_eq_true, if_false, if_neg hne']
          · rfl)
    obtain ⟨hreg, houts, hstores, hctrs, harms⟩ := honly.kept
    refine ⟨t, w', (exec_waitw h mask a s).trans hstep, hw', hreg, fun hopen l => ?_, fun hshut l _ he => ?_, fun l _ he => ?_, harms, houts,
      hstores, hctrs, hkept⟩
    · rw [hlane l, hopen]; simp
    · rw [hlane l, hshut]; simp [he]
    · rw [hlane l]
      cases armsOpen x.w mask <;> simp [he]

/-! ## MWAIT (R227) -/

/-- The entry that stands for the sleepers of an MWAIT. -/
def mwaitOut (x : Issue) (s : State) (ok : LaneSet) : Outst := { outOf x s .v 0 ok .mwait none with dsts := [], file := 0 }

/-- The kinds of sleep of an MWAIT. -/
def mwaitKind (sc : Scope) (a : StAddr) (x : Issue) (l : Nat) : SleepKind :=
  .mwait (stGlobal x a l) sc (BitVec.ofNat 32 (stData x .v a l)) x.tag

/-- MWAIT as it issues. -/
def mwaitEffect (sc : Scope) (a : StAddr) (x : Issue) (t : State) : State :=
  let vs := verdicts x (globalCheck t x false (stGlobal x a) 8)
  let ok := passing vs
  let t1 := if ok == 0 then t
    else sleepLanes (t.modWarp x.w.id fun w => { w with reads := w.reads ++ [mwaitOut x t ok] }) x.w.id ok x.pc x.after (mwaitKind sc a x)
  mwaitRecheck (settleChecks x t1 vs noOff 0) x.w.id

theorem exec_mwait (h : Hdr) (sc : Scope) (a : StAddr) (s : State) : exec (.mwait h sc a) s = issue (.mwait h sc a) s always (mwaitEffect sc a) := rfl

/-- A lane whose older loads have not completed does not read its word. -/
theorem mwaitTry_of_older {s : State} {n : Nat} {w : Warp} (hw : s.getWarp n = some w) {l : Nat}
    (h : ∀ va sc v tag next, mwaitOf (w.lane l) = some (va, sc, v, tag, next) → olderDone w .ld tag = false) : mwaitTry n s l = s := by
  unfold mwaitTry
  split
  · rfl
  · rename_i v hv
    obtain rfl := Option.some.inj (hw.symm.trans hv)
    split
    · rfl
    · rename_i va sc v tag next hm
      exact if_pos (by rw [h va sc v tag next hm]; rfl)

theorem foldl_of_fixed {α β : Type} {f : α → β → α} {a : α} {ls : List β} (h : ∀ b ∈ ls, f a b = a) : ls.foldl f a = a := by
  induction ls with
  | nil => rfl
  | cons b ls ih => rw [List.foldl_cons, h b (by simp), ih fun c hc => h c (by simp [hc])]

/-- While they all wait for older loads, a recheck changes nothing but what the warp reads. -/
theorem mwaitRecheck_of_older {s : State} {n : Nat} {w : Warp} (hw : s.getWarp n = some w)
    (h : ∀ l, l < 32 → ∀ va sc v tag next, mwaitOf (w.lane l) = some (va, sc, v, tag, next) → olderDone w .ld tag = false) :
    mwaitRecheck s n = mwaitTidy s n := by
  rw [mwaitRecheck, foldl_of_fixed fun l hl => mwaitTry_of_older hw (h l (List.mem_range.1 hl))]

/-- A warp without the entries of an MWAIT whose last lane has gone on. -/
def tidied (w : Warp) : Warp := { w with reads := w.reads.filter fun o => !(o.res == .mwait && o.lanes == 0) }

/-- A warp with the entry of an MWAIT. -/
def withMwait (x : Issue) (s : State) (w : Warp) : Warp := { w with reads := w.reads ++ [mwaitOut x s x.e] }

section
variable {h : Hdr} {sc : Scope} {a : StAddr} {s s0 : State} {w : Warp} {x : Issue} (hi : Issues (.mwait h sc a) s w x s0)
include hi

/-- The state in which the participants sleep and the warp has begun. -/
theorem mwait_asleep : ∃ b, (sleepLanes ((begin_ x s0).modWarp w.id (withMwait x (begin_ x s0))) w.id x.e x.pc x.after (mwaitKind sc a x)).getWarp
    w.id = some { asleep x.e x.pc x.after (mwaitKind sc a x) s.clock (withMwait x (begin_ x s0) (begunWarp x s0.nextId w)) with stopped := b } := by
  have hb := getWarp_begun hi
  have hself := getWarp_modWarp_self (begin_ x s0) w.id (withMwait x (begin_ x s0)) fun _ => rfl
  rw [hb] at hself
  rw [← clock_of_issues hi]
  exact sleepLanes_getWarp _ _ x.e x.pc x.after (mwaitKind sc a x) hself

/-- With an older load under way, MWAIT puts its participants to sleep and reads nothing. -/
theorem mwaitEffect_of_older (hpass : AllPass (fun s x => globalCheck s x false (stGlobal x a) 8) s x) (holder : olderDone w .ld x.tag = false)
    (hnone : ∀ l, l < 32 → mwaitOf (w.lane l) = none) : mwaitEffect sc a x (begin_ x s0) =
      (sleepLanes ((begin_ x s0).modWarp w.id (withMwait x (begin_ x s0))) w.id x.e x.pc x.after (mwaitKind sc a x)).modWarp w.id tidied := by
  obtain ⟨b, hu⟩ := mwait_asleep (sc := sc) (a := a) hi
  obtain ⟨rfl, -⟩ := issues_warp hi
  have ⟨_, hne, _, _⟩ := hi
  have hne' : ¬ (x.e == 0) = true := by rwa [beq_iff_eq]
  have hpass' : ∀ l, l < 32 → x.e.getLsbD l = true → globalCheck (begin_ x s0) x false (stGlobal x a) 8 l = .pass := hpass
  simp only [mwaitEffect, passing_of_pass hpass', if_neg hne', settleChecks_of_pass hpass']
  refine mwaitRecheck_of_older hu fun l hl va sc' v tag next hm => ?_
  have hlane := lane_asleep_begunWarp hi (fun _ => id) (mwaitKind sc a x) s.clock s0.nextId l
  change mwaitOf ((asleep x.e x.pc x.after (mwaitKind sc a x) s.clock (begunWarp x s0.nextId x.w)).lane l) = _ at hm
  rw [hlane] at hm
  by_cases he : x.e.getLsbD l = true
  · rw [if_pos he] at hm
    cases hm
    exact holder
  · rw [if_neg he] at hm
    cases (hnone l hl).symm.trans hm

end

theorem barrierWordWait : Clause.BarrierWordWait := by
  intro h sc a s w x s0 hi hpass holder hnone _
  have heff := mwaitEffect_of_older hi hpass holder hnone
  obtain ⟨b, hu⟩ := mwait_asleep (sc := sc) (a := a) hi
  have hself := getWarp_modWarp_self (sleepLanes ((begin_ x s0).modWarp w.id (withMwait x (begin_ x s0))) w.id x.e x.pc x.after
    (mwaitKind sc a x)) w.id tidied fun _ => rfl
  rw [hu, ← heff] at hself
  obtain ⟨t, w', hstep, hw', e, hkept⟩ := issue_keeps hi hself (show w.parked = false from parked_of_issues hi)
    (heff ▸ ((onlyWarp_modWarp _ _ (f := withMwait x (begin_ x s0)) fun _ => rfl).trans (onlyWarp_sleepLanes _ _ _ _ _ _)).trans
      (onlyWarp_modWarp _ _ (f := tidied) fun _ => rfl))
  refine ⟨t, w', (exec_mwait h sc a s).trans hstep, hw', ?_, fun l _ => ?_, ?_, ?_, ?_, hkept⟩
  · rw [e]; exact ⟨rfl, rfl, rfl, rfl⟩
  · exact (e.lane l).trans (lane_asleep_begunWarp hi (fun _ => id) (mwaitKind sc a x) s.clock s0.nextId l)
  · rw [e]; rfl
  · rw [e]; rfl
  · rw [e]; rfl

/-- Settles O30: WATCH changes its warp, WAITW and MWAIT put their participants to sleep. -/
theorem watchesAndMemoryWaits : Obligations.WatchesAndMemoryWaits := ⟨watchesAndWaits, barrierWordWait⟩

end Sys2Proof.Machine
end

section
/-! Named barriers: BARA, BARW, BARS, BARINIT and BARQ (R222 to R225). -/

namespace Sys2Proof.Machine

/-! ## Lanes that wake -/

theorem lane_wakeLanes_of_sleeping {w : Warp} {l : Nat} {k : SleepKind} {next : DWord} {p : Nat → SleepKind → Bool}
    (h : (w.lane l).st = .sleeping k next) (hp : p l k = true) : (wakeLanes w p).lane l = wakeLane w l next (w.lane l) := by
  unfold Warp.lane wakeLanes at *
  rw [List.getElem?_mapIdx]
  cases hx : w.lanes[l]? with
  | none => rw [hx] at h; cases h
  | some x =>
    rw [hx] at h
    simp only [Option.getD_some] at h
    simp only [Option.map_some, Option.getD_some, h, hp, if_true]

theorem lane_wakeLanes_of_awake {w : Warp} {l : Nat} (p : Nat → SleepKind → Bool) (h : ∀ k next, (w.lane l).st ≠ .sleeping k next) :
    (wakeLanes w p).lane l = w.lane l := by
  unfold Warp.lane wakeLanes at *
  rw [List.getElem?_mapIdx]
  cases hx : w.lanes[l]? with
  | none => rfl
  | some x =>
    rw [hx] at h
    simp only [Option.getD_some] at h
    simp only [Option.map_some, Option.getD_some]

/-- A warp in which lanes that slept may have woken. -/
def Roused (w w' : Warp) : Prop :=
  w' = { w with lanes := w'.lanes } ∧ w'.lanes.length = w.lanes.length ∧
    ∀ l, (∀ k next, (w.lane l).st ≠ .sleeping k next) → w'.lane l = w.lane l

theorem Roused.refl (w : Warp) : Roused w w := ⟨rfl, rfl, fun _ _ => rfl⟩

theorem roused_wakeLanes (w : Warp) (p : Nat → SleepKind → Bool) : Roused w (wakeLanes w p) :=
  ⟨rfl, by simp [wakeLanes], fun _ h => lane_wakeLanes_of_awake p h⟩

/-! ## The warps of a gang -/

/-- A warp with its sleepers on a barrier awake, where it belongs to the gang. -/
def barWoken (s : State) (gang b : Nat) (w : Warp) : Warp :=
  match s.getWg w.wg with
  | some g => if g.gang == gang then wakeLanes w fun _ k => k == .bar b else w
  | none => w

theorem roused_barWoken (s : State) (gang b : Nat) (w : Warp) : Roused w (barWoken s gang b w) := by
  unfold barWoken
  split
  · split
    · exact roused_wakeLanes w _
    · exact .refl w
  · exact .refl w

theorem barWoken_of_member {s : State} {gang b : Nat} {w : Warp} {g : Workgroup} (hg : s.getWg w.wg = some g) (he : g.gang = gang) :
    barWoken s gang b w = wakeLanes w fun _ k => k == .bar b := by
  rw [barWoken, hg]
  exact if_pos (beq_iff_eq.2 he)

theorem barWake_getWarp (s : State) (gang b k : Nat) : (barWake s gang b).getWarp k = (s.getWarp k).map (barWoken s gang b) := by
  have hid : ∀ w : Warp, (barWoken s gang b w).id = w.id := fun w => by rw [(roused_barWoken s gang b w).1]
  have hmap : (s.warps.map (barWoken s gang b)).find? (fun w => w.id == k) = (s.warps.find? fun w => w.id == k).map (barWoken s gang b) := by
    rw [List.find?_map]
    simp only [Function.comp_def, hid]
  exact hmap

/-! ## The head of a barrier and the arrival records -/

theorem barGet_barPut_self (g : Gang) (b : Nat) (y : BarHead) : barGet (barPut g b y) b = y := by
  have hfind := find_putAt_self (p := fun p : Nat × BarHead => p.1 == b) (b, y) (by simp) g.bars
  rw [barGet, barPut, hfind]; rfl

theorem barGet_barPut_ne (g : Gang) {b c : Nat} (y : BarHead) (hc : c ≠ b) : barGet (barPut g b y) c = barGet g c := by
  have hfind := find_putAt_ne (p := fun p : Nat × BarHead => p.1 == b) (q := fun p => p.1 == c) (b, y)
    (fun p hp => by simp at hp ⊢; omega) (by simp; omega) g.bars
  rw [barGet, barPut, hfind]; rfl

/-- A gang with the record that a warp arrived in a phase. -/
def withArrival (key : Nat × Nat × Nat) (ph : BitVec 16) (g : Gang) : Gang :=
  { g with recs := putAt (fun r => r.1 == key) (key, ph) g.recs }

/-- The machine with that record and the head of the barrier set. -/
def arrived (s : State) (gang : Nat) (key : Nat × Nat × Nat) (ph : BitVec 16) (b : Nat) (y : BarHead) : State :=
  (s.modGang gang (withArrival key ph)).modGang gang fun g => barPut g b y

section
variable {s : State} {w : Warp} {g : Gang} (hg : s.warpGang w = some g) (b n : Nat)
include hg

/-- The gang of a warp is found under its own identity. -/
theorem getGang_of_warpGang : s.getGang g.id = some g := by
  obtain ⟨wg, -, hgang⟩ := Option.bind_eq_some_iff.1 hg
  have hid : g.id = wg.gang := by simpa using List.find?_some hgang
  rw [hid]; exact hgang

theorem arrive_unused (h : (barGet g b).expn = 0) : arrive s w b n = s := by
  rw [arrive, hg]
  exact if_pos h

theorem arrive_short (h : (barGet g b).expn ≠ 0) (hn : (barGet g b).arr + n < (barGet g b).expn) :
    arrive s w b n = arrived s g.id (recKey s w b) (barGet g b).ph b { barGet g b with arr := (barGet g b).arr + n } := by
  rw [arrive, hg]
  exact (if_neg h).trans (if_neg (by omega))

theorem arrive_met (h : (barGet g b).expn ≠ 0) (hn : (barGet g b).expn ≤ (barGet g b).arr + n) :
    arrive s w b n = barWake (arrived s g.id (recKey s w b) (barGet g b).ph b
      { barGet g b with
        arr := 0
        ph := (barGet g b).ph + 1
        ovr := (barGet g b).ovr || decide ((barGet g b).expn < (barGet g b).arr + n) }) g.id b := by
  rw [arrive, hg]
  exact (if_neg h).trans (if_pos hn)

end

/-- Whether the wait of a warp is over: the barrier is not in use, or the phase in which the warp last arrived is complete (R224). -/
def waitOver (g : Gang) (key : Nat × Nat × Nat) (b : Nat) : Bool :=
  (barGet g b).expn == 0 || match g.recs.find? fun r => r.1 == key with | some r => r.2 != (barGet g b).ph | none => false

/-- The participants that a barrier puts to sleep. -/
def barSleeping (g : Gang) (key : Nat × Nat × Nat) (b : Nat) (e : LaneSet) : LaneSet := if waitOver g key b then 0 else e

theorem barSleeping_subset {g : Gang} {key : Nat × Nat × Nat} {b : Nat} {e : LaneSet} {l : Nat}
    (h : (barSleeping g key b e).getLsbD l = true) : e.getLsbD l = true := by
  unfold barSleeping at h
  split at h
  · simp at h
  · exact h

/-- The wait of a barrier puts every participant to sleep or none. -/
theorem barWait_eq {s : State} {x : Issue} {g : Gang} (hg : s.warpGang x.w = some g) (he : x.e ≠ 0) (b : Nat) :
    barWait s x b = if barSleeping g (recKey s x.w b) b x.e == 0 then s
      else sleepLanes s x.w.id (barSleeping g (recKey s x.w b) b x.e) x.pc x.after fun _ => .bar b := by
  have he' : ¬ (x.e == 0) = true := by rwa [beq_iff_eq]
  rw [barWait, hg]
  change (if waitOver g (recKey s x.w b) b = true then s else _) = _
  unfold barSleeping
  cases waitOver g (recKey s x.w b) b with
  | true => rfl
  | false => simp only [Bool.false_eq_true, if_false, if_neg he']

/-! ## What a barrier instruction leaves -/

/-- A state in which lanes may have woken and the gang may have changed. -/
def BarStep (n : Nat) (g' : Gang) (s u : State) : Prop :=
  u = { s with warps := u.warps, gangs := u.gangs } ∧ u.getGang n = some g' ∧
    ∀ k v, s.getWarp k = some v → ∃ v', u.getWarp k = some v' ∧ Roused v v'

theorem barStep_refl {s : State} {n : Nat} {g : Gang} (hg : s.getGang n = some g) : BarStep n g s s :=
  ⟨rfl, hg, fun _ v hv => ⟨v, hv, .refl v⟩⟩

theorem barStep_modGang {s : State} {n : Nat} {g : Gang} (hg : s.getGang n = some g) {f : Gang → Gang} (hf : ∀ y, (f y).id = y.id) :
    BarStep n (f g) s (s.modGang n f) :=
  ⟨rfl, by rw [getGang_modGang_self s n f hf, hg]; rfl, fun _ v hv => ⟨v, hv, .refl v⟩⟩

theorem BarStep.trans {n : Nat} {g g' : Gang} {s t u : State} (h : BarStep n g s t) (h' : BarStep n g' t u) : BarStep n g' s u := by
  obtain ⟨ht, -, hwarps⟩ := h
  obtain ⟨hu, hg', hwarps'⟩ := h'
  refine ⟨hu.trans (by rw [ht]), hg', fun k v hv => ?_⟩
  obtain ⟨v1, hv1, hid1, hlen1, hlane1⟩ := hwarps k v hv
  obtain ⟨v2, hv2, hid2, hlen2, hlane2⟩ := hwarps' k v1 hv1
  refine ⟨v2, hv2, by rw [hid2, hid1], hlen2.trans hlen1, fun l hl => ?_⟩
  have hl1 := hlane1 l hl
  exact (hlane2 l (by rwa [hl1])).trans hl1

theorem barStep_barWake {s : State} {n : Nat} {g : Gang} (hg : s.getGang n = some g) (b : Nat) : BarStep n g s (barWake s n b) :=
  ⟨rfl, hg, fun k v hv => ⟨barWoken s n b v, by rw [barWake_getWarp, hv]; rfl, roused_barWoken s n b v⟩⟩

theorem barStep_arrived {s : State} {n : Nat} {g : Gang} (hg : s.getGang n = some g) (key : Nat × Nat × Nat) (ph : BitVec 16) (b : Nat)
    (y : BarHead) : BarStep n (barPut (withArrival key ph g) b y) s (arrived s n key ph b y) := by
  have h1 := barStep_modGang hg (f := withArrival key ph) fun _ => rfl
  exact h1.trans (barStep_modGang h1.2.1 fun _ => rfl)

section
variable {i : Instr} {s s0 : State} {w : Warp} {x : Issue} (h : Issues i s w x s0)
include h

/-- A lane of the run has gone on when the instruction begins. -/
theorem run_begun {l : Nat} (hr : x.run.getLsbD l = true) (n : Nat) :
    ((begunWarp x n w).lane l).pc = x.after ∧ ((begunWarp x n w).lane l).st = .ready := by
  obtain ⟨hx, hrun⟩ := issues_run h
  obtain ⟨-, hst, -⟩ := lane_of_run w (hx ▸ hr)
  rw [begunWarp_lane x n w hrun, if_pos hr]
  exact ⟨rfl, hst⟩

/-- A barrier instruction completes: its gang is the changed one, the participants that wait sleep, the other lanes of the run have gone on,
and no register, nothing outstanding and no byte of memory has changed. -/
theorem issue_rouses {effect : Issue → State → State} {u : State} {n : Nat} {g' : Gang} {m : LaneSet} {k : Nat → SleepKind}
    (hstep : BarStep n g' (begin_ x s0) u) (hm : ∀ l, m.getLsbD l = true → x.e.getLsbD l = true)
    (he : effect x (begin_ x s0) = if m == 0 then u else sleepLanes u w.id m x.pc x.after k) :
    ∃ w', issue i s always effect = .next (park x (effect x (begin_ x s0))) ∧ (park x (effect x (begin_ x s0))).getWarp w.id = some w' ∧
      (park x (effect x (begin_ x s0))).getGang n = some g' ∧ NoRegister w w' ∧
      (∀ l, m.getLsbD l = true → (w'.lane l).st = .sleeping (k l) x.after ∧ (w'.lane l).pc = x.pc) ∧
      (∀ l, m.getLsbD l = false → x.run.getLsbD l = true → (w'.lane l).pc = x.after ∧ (w'.lane l).st = .ready) ∧
      w'.outs = w.outs ∧ w'.stores = w.stores ∧ (park x (effect x (begin_ x s0))).mem = s0.mem := by
  obtain ⟨hu, hgang, hwarps⟩ := hstep
  obtain ⟨v, hv, hid, hlen, hlane⟩ := hwarps _ _ (getWarp_begun h)
  obtain ⟨b, hself⟩ := sleepSome_getWarp u w.id m x.pc x.after k hv
  obtain ⟨hrest, -⟩ := onlyWarp_sleepSome u w.id m x.pc x.after k
  rw [← he] at hself hrest
  obtain ⟨w', hissue, hw', e⟩ := issue_leaves h hself (by rw [hid]; exact (show w.parked = false from parked_of_issues h))
  have hlanes (l : Nat) : w'.lane l = (asleep m x.pc x.after k u.clock v).lane l := e.lane l
  refine ⟨w', hissue, hw', ?_, ?_, fun l hl => ?_, fun l hl hr => ?_, ?_, ?_, ?_⟩
  · rw [park_state, hrest]; exact hgang
  · rw [e, hid]; exact ⟨rfl, rfl, rfl, rfl⟩
  · obtain ⟨-, hlt, -⟩ := participant_of_issues h (BitVec.lt_of_getLsbD hl) (hm l hl)
    rw [hlanes, asleep, lane_modLanes, if_pos ⟨by rwa [hlen, begunWarp_length], hl⟩]
    exact ⟨rfl, rfl⟩
  · obtain ⟨hpc, hst⟩ := run_begun h hr s0.nextId
    rw [hlanes, asleep, lane_modLanes, if_neg (by simp [hl]), hlane l (by rw [hst]; exact fun _ _ => nofun)]
    exact ⟨hpc, hst⟩
  · rw [e, hid]; rfl
  · rw [e, hid]; rfl
  · rw [park_mem, hrest, hu]; exact begin_mem x s0

/-- The same where no participant waits. -/
theorem issue_rouses_awake {effect : Issue → State → State} {u : State} {n : Nat} {g' : Gang} (hstep : BarStep n g' (begin_ x s0) u)
    (he : effect x (begin_ x s0) = u) :
    ∃ w', issue i s always effect = .next (park x u) ∧ (park x u).getWarp w.id = some w' ∧ (park x u).getGang n = some g' ∧
      NoRegister w w' ∧
      (∀ l, l < 32 → x.run.getLsbD l = true → (w'.lane l).pc = x.after ∧ (w'.lane l).st = .ready) ∧
      w'.outs = w.outs ∧ w'.stores = w.stores ∧ (park x u).mem = s0.mem := by
  subst he
  obtain ⟨w', hissue, hw', hg', hreg, -, hlanes, hrest⟩ := issue_rouses h hstep (m := 0) (k := fun _ => .bar 0) (effect := effect) (by simp)
    (by rw [if_pos (by rfl)])
  exact ⟨w', hissue, hw', hg', hreg, fun l _ hr => hlanes l (by simp) hr, hrest⟩

/-- The key of the arrival records is the one before. -/
theorem recKey_of_issues (v : Warp) (b : Nat) : recKey (begin_ x s0) v b = recKey s v b :=
  read_of_issues h (F := (recKey · v b)) (recKey_bare · v b)

/-- A workgroup belongs to the gang it belonged to. -/
theorem gang_of_issues {k : Nat} {g : Workgroup} (hg : s.getWg k = some g) : ∃ g', (begin_ x s0).getWg k = some g' ∧ g'.gang = g.gang := by
  have hbare := congrArg (State.getWg · k) (bare_of_issues h)
  simp only [getWg_bare, hg, Option.map_some] at hbare
  obtain ⟨g', hg', he⟩ := Option.map_eq_some_iff.1 hbare
  have hgang : (bareGroup g').gang = (bareGroup g).gang := congrArg Workgroup.gang he
  exact ⟨g', hg', hgang⟩

end

/-! ## BARA (R224) -/

theorem exec_bara (h : Hdr) (b : BitVec 6) (s : State) :
    exec (.bara h b) s = issue (.bara h b) s always fun x t => arrive t x.w b.toNat (laneCount x.e) := rfl

theorem popQueue_bara (h : Hdr) (b : BitVec 6) : popQueue (rawOf (.bara h b)) = none := rfl

/-- A lane that slept on a barrier of the gang is awake. -/
theorem barWake_wokenAt {s : State} {gang b k : Nat} {v : Warp} (hv : s.getWarp k = some v) {gv : Workgroup} (hgv : s.getWg v.wg = some gv)
    (hgang : gv.gang = gang) {l : Nat} {next : DWord} (hl : (v.lane l).st = .sleeping (.bar b) next) :
    ∃ v', (barWake s gang b).getWarp k = some v' ∧ WokenAt v l next (v'.lane l) := by
  refine ⟨barWoken s gang b v, by rw [barWake_getWarp, hv]; rfl, ?_⟩
  rw [barWoken_of_member hgv hgang, lane_wakeLanes_of_sleeping hl (beq_self_eq_true _)]
  exact ⟨rfl, rfl⟩

section
variable {i : Instr} {s s0 : State} {w : Warp} {x : Issue} (h : Issues i s w x s0)
include h

/-- A warp that the instruction finds asleep in a lane is the same in that lane when the instruction begins. -/
theorem getWarp_begin_of_sleeping {k : Nat} {v : Warp} (hv : s0.getWarp k = some v) {l : Nat} {q : SleepKind} {next : DWord}
    (hl : (v.lane l).st = .sleeping q next) :
    ∃ v', (begin_ x s0).getWarp k = some v' ∧ v'.wg = v.wg ∧ v'.inTrap = v.inTrap ∧ v'.hmask = v.hmask ∧ v'.lane l = v.lane l := by
  obtain ⟨rfl, hw⟩ := issues_warp h
  by_cases hk : k = x.w.id
  · subst hk
    obtain rfl := Option.some.inj (hw.symm.trans hv)
    obtain ⟨hx, hrun⟩ := issues_run h
    refine ⟨_, getWarp_begun h, rfl, rfl, rfl, ?_⟩
    rw [begunWarp_lane x s0.nextId x.w hrun, if_neg]
    intro hr
    obtain ⟨-, hst, -⟩ := lane_of_run x.w (hx ▸ hr)
    rw [hst] at hl
    cases hl
  · exact ⟨v, (begin_getWarp_ne x s0 hk).trans hv, rfl, rfl, rfl, rfl⟩

/-- A completed phase wakes a sleeper of the gang, whichever warp it belongs to. -/
theorem sleeper_wakes {u : State} (hwarps : u.warps = (begin_ x s0).warps) (hwgs : u.wgs = (begin_ x s0).wgs) {k gang b : Nat} {v : Warp}
    (hv : s0.getWarp k = some v) {gv : Workgroup} (hgv : s.getWg v.wg = some gv) (hgang : gv.gang = gang) {l : Nat} {next : DWord}
    (hl : (v.lane l).st = .sleeping (.bar b) next) :
    ∃ v', (park x (barWake u gang b)).getWarp k = some v' ∧ WokenAt v l next (v'.lane l) := by
  obtain ⟨v1, hv1, hwg, htrap, hmask, hlane⟩ := getWarp_begin_of_sleeping h hv hl
  obtain ⟨gv1, hgv1, hgang1⟩ := gang_of_issues h hgv
  have hu : u.getWarp k = some v1 := by rw [State.getWarp, hwarps]; exact hv1
  have hug : u.getWg v1.wg = some gv1 := by rw [State.getWg, hwgs, hwg]; exact hgv1
  obtain ⟨v2, hv2, hwoken⟩ := barWake_wokenAt hu hug (hgang1.trans hgang) (hlane ▸ hl)
  have hwoken' : WokenAt v l next (v2.lane l) := by rw [WokenAt, ← htrap, ← hmask]; exact hwoken
  by_cases hk : k = x.w.id
  · subst hk
    obtain ⟨rfl, -⟩ := issues_warp h
    obtain rfl := Option.some.inj ((getWarp_begun h).symm.trans hv1)
    obtain rfl : barWoken u gang b (begunWarp x s0.nextId x.w) = v2 := by
      rw [barWake_getWarp, hu] at hv2
      exact Option.some.inj hv2
    obtain ⟨v', hv', e⟩ := park_getWarp x _ hv2 (by
      rw [(roused_barWoken u gang b _).1]; exact (show x.w.parked = false from parked_of_issues h))
    exact ⟨v', hv', by rw [e]; exact hwoken'⟩
  · exact ⟨v2, (park_getWarp_ne x _ hk).trans hv2, hwoken'⟩

/-- The gang in which a barrier instruction finds its barrier. -/
theorem gang_begun {g : Gang} (hg : s.warpGang w = some g) :
    ∃ r, (begin_ x s0).warpGang w = some { g with ret := r } ∧ (begin_ x s0).getGang g.id = some { g with ret := r } := by
  obtain ⟨r, hr⟩ := warpGang_of_issues h hg
  exact ⟨r, hr, getGang_of_warpGang hr⟩

end

theorem barrierArrive : Clause.BarrierArrive := by
  intro h b s w x s0 g hi hg y
  obtain ⟨rfl, -⟩ := issues_warp hi
  obtain ⟨r, hwarp, hgang⟩ := gang_begun hi hg
  by_cases hin : y.expn = 0
  · obtain ⟨w', hstep, hw', hg', hreg, hlanes, houts, hstores, hmem⟩ := issue_rouses_awake hi (barStep_refl hgang)
      (effect := fun x t => arrive t x.w b.toNat (laneCount x.e)) (arrive_unused hwarp b.toNat _ hin)
    exact ⟨_, w', _, (exec_bara h b s).trans hstep, hw', hg', hreg, hlanes, houts, hstores, hmem, fun _ => ⟨rfl, rfl⟩,
      fun hc => absurd hin hc, fun hc => absurd hin hc⟩
  · by_cases hmet : y.expn ≤ y.arr + laneCount x.e
    · have heff := arrive_met hwarp b.toNat (laneCount x.e) hin hmet
      have hbar := barStep_arrived hgang (recKey (begin_ x s0) x.w b.toNat) y.ph b.toNat
        { y with arr := 0, ph := y.ph + 1, ovr := y.ovr || decide (y.expn < y.arr + laneCount x.e) }
      obtain ⟨w', hstep, hw', hg', hreg, hlanes, houts, hstores, hmem⟩ := issue_rouses_awake hi
        (hbar.trans (barStep_barWake hbar.2.1 b.toNat)) (effect := fun x t => arrive t x.w b.toNat (laneCount x.e)) heff
      refine ⟨_, w', _, (exec_bara h b s).trans hstep, hw', hg', hreg, hlanes, houts, hstores, hmem, fun hc => absurd hc hin,
        fun _ hc => absurd hmet (by omega), fun _ _ => ⟨barGet_barPut_self _ _ _, fun k v gv l nxt hv hgv hgv' _ hl => ?_⟩⟩
      have hs : s0 = s := issues_state hi (popQueue_bara h b)
      obtain ⟨v', hv', hwoken⟩ := sleeper_wakes hi (u := arrived (begin_ x s0) g.id (recKey (begin_ x s0) x.w b.toNat) y.ph b.toNat
        { y with arr := 0, ph := y.ph + 1, ovr := y.ovr || decide (y.expn < y.arr + laneCount x.e) }) rfl rfl (hs ▸ hv) hgv hgv' hl
      exact ⟨v', hv', hwoken⟩
    · obtain ⟨w', hstep, hw', hg', hreg, hlanes, houts, hstores, hmem⟩ := issue_rouses_awake hi
        (barStep_arrived hgang (recKey (begin_ x s0) x.w b.toNat) y.ph b.toNat { y with arr := y.arr + laneCount x.e })
        (effect := fun x t => arrive t x.w b.toNat (laneCount x.e))
        (arrive_short hwarp b.toNat (laneCount x.e) hin (Nat.not_le.1 hmet))
      exact ⟨_, w', _, (exec_bara h b s).trans hstep, hw', hg', hreg, hlanes, houts, hstores, hmem, fun hc => absurd hc hin,
        fun _ _ => barGet_barPut_self _ _ _, fun _ hc => absurd hc hmet⟩

/-! ## BARINIT and BARQ (R223, R225) -/

/-- BARINIT as it issues. -/
def barinitEffect (b : BitVec 6) (v : SrcB) (x : Issue) (t : State) : State :=
  match t.warpGang x.w with
  | none => t
  | some g => barAdvance t g.id b.toNat { expn := srcB x .v v x.low % 2 ^ 14, ph := (barGet g b.toNat).ph }

theorem exec_barinit (h : Hdr) (b : BitVec 6) (v : SrcB) (s : State) :
    exec (.barinit h b v) s = issue (.barinit h b v) s always (barinitEffect b v) := rfl

theorem exec_barq (h : Hdr) (d : Reg) (b : BitVec 6) (s : State) : exec (.barq h d b) s = issue (.barq h d b) s always fun x t =>
    t.modWarp x.w.id fun w => addOut w (outOf x t .p d x.e (.barq b.toNat) none) := rfl

theorem barrierInitAndQuery : Clause.BarrierInitAndQuery := by
  refine ⟨fun h b v s w x s0 g hi hg => ?_, fun h d b s w x s0 hi => ?_⟩
  · obtain ⟨rfl, -⟩ := issues_warp hi
    obtain ⟨r, hwarp, hgang⟩ := gang_begun hi hg
    have hput := barStep_modGang hgang (f := fun y => barPut y b.toNat
      { expn := srcB x .v v x.low % 2 ^ 14, ph := (barGet g b.toNat).ph + 1 }) fun _ => rfl
    obtain ⟨w', hstep, hw', hg', hreg, hlanes, houts, hstores, hmem⟩ := issue_rouses_awake hi
      (hput.trans (barStep_barWake hput.2.1 b.toNat)) (effect := barinitEffect b v)
      (by rw [barinitEffect, hwarp]; rfl)
    exact ⟨_, w', _, (exec_barinit h b v s).trans hstep, hw', hg', hreg, barGet_barPut_self _ _ _, fun c hc => barGet_barPut_ne _ _ hc,
      hlanes, houts, hstores, hmem⟩
  · obtain ⟨rfl, -⟩ := issues_warp hi
    obtain ⟨t, w', n, hstep, hw', ⟨houts, -, hstores, hctrs⟩, hadv, hkeep, -, hkept⟩ := issue_of_outstandingOnly hi
      (effect := fun x t => t.modWarp x.w.id fun w => addOut w (outOf x t .p d x.e (.barq b.toNat) none))
      (g := fun w => addOut w (outOf x s .p d x.e (.barq b.toNat) none)) (by rw [outOf_of_issues hi]) fun _ => rfl
    exact ⟨t, w', (exec_barq h d b s).trans hstep, hw', houts, hctrs, hstores, hadv, hkeep, hkept⟩

/-- Settles O27: BARA changes its gang in one of three ways, BARINIT completes a phase, and the reply of BARQ is outstanding. -/
theorem barrierArrivals : Obligations.BarrierArrivals := ⟨barrierArrive, barrierInitAndQuery⟩

/-! ## BARW (R224) -/

theorem exec_barw (h : Hdr) (b : BitVec 6) (s : State) :
    exec (.barw h b) s = issue (.barw h b) s always fun x t => barWait t x b.toNat := rfl

theorem waitOver_iff (g : Gang) (key : Nat × Nat × Nat) (b : Nat) : waitOver g key b = true ↔ (barGet g b).expn = 0 ∨
    (match g.recs.find? fun r => r.1 == key with | some r => r.2 != (barGet g b).ph | none => false) = true := by
  rw [waitOver, Bool.or_eq_true, beq_iff_eq]

theorem barrierWait : Clause.BarrierWait := by
  intro h b s w x s0 g hi hg y past
  obtain ⟨rfl, -⟩ := issues_warp hi
  have ⟨_, hne, _, _⟩ := hi
  obtain ⟨r, hwarp, -⟩ := gang_begun hi hg
  have heff := barWait_eq hwarp hne b.toNat
  rw [recKey_of_issues hi] at heff
  obtain ⟨t, w', hstep, hw', honly, hlane, hkept⟩ := issue_sleeps hi (m := barSleeping g (recKey s x.w b.toNat) b.toNat x.e)
    (fun _ => barSleeping_subset) (fun _ => .bar b.toNat) (effect := fun x t => barWait t x b.toNat) heff
  obtain ⟨hreg, houts, hstores, -, -⟩ := honly.kept
  refine ⟨t, w', (exec_barw h b s).trans hstep, hw', hreg, fun hover l => ?_, fun hin hpast l _ he => ?_, fun l _ he => ?_, houts, hstores,
    ?_⟩
  · rw [hlane l, barSleeping, (waitOver_iff _ _ _).2 hover]; simp
  · have hwait : waitOver g (recKey s x.w b.toNat) b.toNat = false := by
      rw [Bool.eq_false_iff, Ne, waitOver_iff]
      exact fun hc => hc.elim hin fun hc => by cases hpast.symm.trans hc
    rw [hlane l, barSleeping, hwait]; simp [he]
  · rw [hlane l, barSleeping]
    cases waitOver g (recKey s x.w b.toNat) b.toNat <;> simp [he]
  · obtain ⟨ht, -⟩ := hkept
    rw [ht]

/-! ## BARS (R224) -/

/-- BARS as it issues. -/
def barsEffect (b : BitVec 6) (x : Issue) (t : State) : State := barWait (arrive t x.w b.toNat (laneCount x.e)) x b.toNat

theorem exec_bars (h : Hdr) (b : BitVec 6) (s : State) : exec (.bars h b) s = issue (.bars h b) s always (barsEffect b) := rfl

/-- A wait behind a barrier step of the warp's own gang. -/
theorem barWait_of_barStep {t u : State} {x : Issue} {g g' : Gang} (hg : t.warpGang x.w = some g) (hstep : BarStep g.id g' t u) (hne : x.e ≠ 0)
    (b : Nat) : barWait u x b = if barSleeping g' (recKey t x.w b) b x.e == 0 then u
      else sleepLanes u x.w.id (barSleeping g' (recKey t x.w b) b x.e) x.pc x.after fun _ => .bar b := by
  obtain ⟨hu, hg', -⟩ := hstep
  have hwarp : u.warpGang x.w = some g' := by
    obtain ⟨wg, hwg, hgang⟩ := Option.bind_eq_some_iff.1 hg
    have hid : g.id = wg.gang := by simpa using List.find?_some hgang
    have hwg' : u.warpWg x.w = some wg := by rw [hu]; exact hwg
    rw [State.warpGang, hwg', Option.bind_some, ← hid]; exact hg'
  have hkey : recKey u x.w b = recKey t x.w b := by rw [hu]; rfl
  rw [← hkey]
  exact barWait_eq hwarp hne b

theorem barsEffect_eq {t u : State} {x : Issue} {b : BitVec 6} {g g' : Gang} (harrive : arrive t x.w b.toNat (laneCount x.e) = u)
    (hg : t.warpGang x.w = some g) (hstep : BarStep g.id g' t u) (hne : x.e ≠ 0) :
    barsEffect b x t = if barSleeping g' (recKey t x.w b.toNat) b.toNat x.e == 0 then u
      else sleepLanes u x.w.id (barSleeping g' (recKey t x.w b.toNat) b.toNat x.e) x.pc x.after fun _ => .bar b.toNat := by
  rw [barsEffect, harrive, barWait_of_barStep hg hstep hne]

/-- A warp that has just arrived waits while the phase stands, and does not when it has turned. -/
theorem barSleeping_of_arrived {g : Gang} {key : Nat × Nat × Nat} {ph : BitVec 16} {b : Nat} {y : BarHead} (hin : y.expn ≠ 0) (e : LaneSet) :
    barSleeping (barPut (withArrival key ph g) b y) key b e = if ph = y.ph then e else 0 := by
  have hfind : (barPut (withArrival key ph g) b y).recs.find? (fun r => r.1 == key) = some (key, ph) :=
    find_putAt_self (p := fun r => r.1 == key) (key, ph) (by simp) g.recs
  have hin' : (y.expn == 0) = false := by simpa using hin
  rw [barSleeping, waitOver, hfind, barGet_barPut_self, hin']
  by_cases hph : ph = y.ph <;> simp [hph]

theorem barrierSync : Clause.BarrierSync := by
  intro h b s w x s0 g hi hg y
  obtain ⟨rfl, -⟩ := issues_warp hi
  have ⟨_, hne, _, _⟩ := hi
  obtain ⟨_, hrun⟩ := issues_run hi
  obtain ⟨r, hwarp, hgang⟩ := gang_begun hi hg
  have hparked : x.w.parked = false := parked_of_issues hi
  by_cases hin : y.expn = 0
  · have hover : waitOver { g with ret := r } (recKey (begin_ x s0) x.w b.toNat) b.toNat = true := (waitOver_iff _ _ _).2 (.inl hin)
    have heff := barsEffect_eq (arrive_unused hwarp b.toNat _ hin) hwarp (barStep_refl hgang) hne
    rw [barSleeping, hover, if_pos rfl, if_pos (by rfl)] at heff
    obtain ⟨w', hstep, hw', e⟩ := issue_leaves hi (effect := barsEffect b) (u := begunWarp x s0.nextId x.w)
      (heff.symm ▸ getWarp_begun hi) hparked
    refine ⟨_, w', { g with ret := r }, (exec_bars h b s).trans hstep, hw', ?_, ?_, fun _ l => ?_, fun hc => absurd hin hc,
      fun hc => absurd hin hc, ?_, ?_, ?_⟩
    · rw [heff, park_state]; exact hgang
    · rw [e]; exact ⟨rfl, rfl, rfl, rfl⟩
    · exact (e.lane l).trans (begunWarp_lane x s0.nextId x.w hrun l)
    · rw [e]; rfl
    · rw [e]; rfl
    · rw [heff, park_mem, begin_mem]
  · by_cases hmet : y.expn ≤ y.arr + laneCount x.e
    · have hbar := barStep_arrived hgang (recKey (begin_ x s0) x.w b.toNat) y.ph b.toNat
        { y with arr := 0, ph := y.ph + 1, ovr := y.ovr || decide (y.expn < y.arr + laneCount x.e) }
      have hbar := hbar.trans (barStep_barWake hbar.2.1 b.toNat)
      have heff := barsEffect_eq (arrive_met hwarp b.toNat (laneCount x.e) hin hmet) hwarp hbar hne
      rw [barSleeping_of_arrived (by exact hin), if_neg (show ¬ y.ph = y.ph + 1 by simp), if_pos (by rfl)] at heff
      obtain ⟨w', hstep, hw', hg', hreg, hlanes, houts, hstores, hmem⟩ := issue_rouses_awake hi hbar (effect := barsEffect b) heff
      exact ⟨_, w', _, (exec_bars h b s).trans hstep, hw', hg', hreg, fun hc => absurd hc hin, fun _ hc => absurd hmet (by omega),
        fun _ _ => ⟨by rw [barGet_barPut_self], by rw [barGet_barPut_self], fun l hl he =>
          (hlanes l hl (participant_of_issues hi hl he).1).symm⟩, houts, hstores, hmem⟩
    · have hbar := barStep_arrived hgang (recKey (begin_ x s0) x.w b.toNat) y.ph b.toNat { y with arr := y.arr + laneCount x.e }
      have heff := barsEffect_eq (arrive_short hwarp b.toNat (laneCount x.e) hin (Nat.not_le.1 hmet)) hwarp hbar hne
      rw [barSleeping_of_arrived (by exact hin), if_pos (show y.ph = y.ph from rfl)] at heff
      obtain ⟨w', hstep, hw', hg', hreg, hasleep, -, houts, hstores, hmem⟩ := issue_rouses hi hbar (m := x.e) (fun _ => id)
        (k := fun _ => .bar b.toNat) (effect := barsEffect b) heff
      exact ⟨_, w', _, (exec_bars h b s).trans hstep, hw', hg', hreg, fun hc => absurd hc hin,
        fun _ _ => ⟨barGet_barPut_self _ _ _, fun l _ he => hasleep l he⟩, fun _ hc => absurd hc hmet, houts, hstores, hmem⟩

/-- Settles O28: BARW waits while the phase in which its warp arrived stands, and BARS is the arrival with that wait behind it. -/
theorem barrierWaits : Obligations.BarrierWaits := ⟨barrierWait, barrierSync⟩

end Sys2Proof.Machine
end

section
/-! The asynchronous copies CPYA, CPYW and CPYQ as they start (R231 to R234). -/

namespace Sys2Proof.Machine

/-! ## A copy started -/

/-- A warp after a copy has started: what may differ is what is outstanding, the counters and the copy tags. -/
def CopyOnly (w w' : Warp) : Prop := w' = { w with outs := w'.outs, ctrs := w'.ctrs, tags := w'.tags, nextTag := w'.nextTag }

/-- The machine with one more copy, counted. -/
def withCopy (s : State) (x : Issue) (c : Copy) : State :=
  { s.modWarp x.w.id fun w => countUp w .cpy x.tag with nextId := s.nextId + 1, copies := s.copies ++ [c] }

/-- A copy as it is added: it may have to wait for its scratchpad (R186). -/
def added (c : Copy) (waits : Bool) : Copy := { c with waiting := waits }

theorem startCopy_of_units {c : Copy} (hc : c.units ≠ 0) (s : State) (x : Issue) : ∃ b, startCopy s x c = withCopy s x (added c b) :=
  ⟨_, if_neg hc⟩

/-- The machine with a copy of no units counted and done. -/
def withDone (s : State) (x : Issue) : State :=
  { s.modWarp x.w.id fun w => countDone (countUp w .cpy x.tag) .cpy x.tag with nextId := s.nextId + 1 }

theorem startCopy_of_none {c : Copy} (hc : c.units = 0) (s : State) (x : Issue) : startCopy s x c = withDone s x := if_pos hc

theorem withCopy_getWarp {s : State} {x : Issue} {c : Copy} {w : Warp} (hw : s.getWarp x.w.id = some w) :
    (withCopy s x c).getWarp x.w.id = some (countUp w .cpy x.tag) := by
  have hself := getWarp_modWarp_self s x.w.id (fun w => countUp w .cpy x.tag) fun _ => rfl
  rw [hw] at hself
  exact hself

theorem withDone_getWarp {s : State} {x : Issue} {w : Warp} (hw : s.getWarp x.w.id = some w) :
    (withDone s x).getWarp x.w.id = some (countDone (countUp w .cpy x.tag) .cpy x.tag) := by
  have hself := getWarp_modWarp_self s x.w.id (fun w => countDone (countUp w .cpy x.tag) .cpy x.tag) fun _ => rfl
  rw [hw] at hself
  exact hself

theorem othersKept_withCopy (s : State) (x : Issue) (c : Copy) : OthersKept s (withCopy s x c) x.w.id :=
  fun _ hk => getWarp_modWarp_ne s (fun w => countUp w .cpy x.tag) (fun _ => rfl) hk

theorem othersKept_withDone (s : State) (x : Issue) : OthersKept s (withDone s x) x.w.id :=
  fun _ hk => getWarp_modWarp_ne s (fun w => countDone (countUp w .cpy x.tag) .cpy x.tag) (fun _ => rfl) hk

theorem OthersKept.trans {s t u : State} {n : Nat} (h : OthersKept s t n) (h' : OthersKept t u n) : OthersKept s u n :=
  fun k hk => (h' k hk).trans (h k hk)

/-- An instruction that starts a copy completes: its warp goes on at once with what has changed of it. -/
theorem issue_starts {i : Instr} {s s0 : State} {w : Warp} {x : Issue} (h : Issues i s w x s0) {effect : Issue → State → State} {v : Warp}
    {u : State} (he : effect x (begin_ x s0) = u) (hv : u.getWarp w.id = some v) (honly : CopyOnly (begunWarp x s0.nextId w) v)
    (hothers : OthersKept (begin_ x s0) u w.id) (hmem : u.mem = s0.mem) :
    ∃ w', issue i s always effect = .next (park x u) ∧ (park x u).getWarp w.id = some w' ∧
      (w'.outs = v.outs ∧ w'.ctrs = v.ctrs ∧ w'.tags = v.tags ∧ w'.nextTag = v.nextTag) ∧ WarpGoesOn x s0 (park x u) w w' := by
  subst he
  obtain ⟨rfl, -⟩ := issues_warp h
  obtain ⟨-, hrun⟩ := issues_run h
  obtain ⟨w', hstep, hw', e⟩ := issue_leaves h hv (by rw [honly]; exact (show x.w.parked = false from parked_of_issues h))
  refine ⟨w', hstep, hw', ?_, ?_, ?_, fun l => ?_, ?_, ?_, fun k hk => ?_, fun a => ?_⟩
  · rw [e]; exact ⟨rfl, rfl, rfl, rfl⟩
  · rw [e, honly]; exact ⟨rfl, rfl, rfl, rfl⟩
  · rw [e, honly]; exact ⟨rfl, rfl, rfl, rfl, rfl, rfl, rfl, rfl, rfl, rfl, rfl, rfl, rfl⟩
  · rw [e.lane, honly]; exact begunWarp_lane x s0.nextId x.w hrun l
  · rw [e, honly]; rfl
  · rw [e, honly]; rfl
  · exact (park_getWarp_ne x _ hk).trans ((hothers k hk).trans (begin_getWarp_ne x s0 hk))
  · rw [park_mem, hmem]

@[simp] theorem begin_copies (x : Issue) (s : State) : (begin_ x s).copies = s.copies := by rw [begin_state]

@[simp] theorem park_copies (x : Issue) (s : State) : (park x s).copies = s.copies := by rw [park_state]

theorem park_withCopy_copies {x : Issue} {s0 s : State} {c : Copy} (h : s.copies = s0.copies) :
    (park x (withCopy s x c)).copies = s0.copies ++ [c] := by
  rw [park_copies, ← h]; rfl

/-! ## CPYA (R231, R232) -/

/-- What CPYA gives its participants: the promised time and the copy tag. -/
def copyReply (x : Issue) (s : State) (d : Reg) (at_ : DWord) : Outst :=
  { outOf x s .p d x.e
      (.values ((lanesOf x.e).map fun l => (l, [at_.setWidth 32, at_.extractLsb' 32 32, BitVec.ofNat 32 x.w.nextTag])) []) none with
    dsts := (if d == 0 then [0, 0] else [d.toNat, d.toNat + 1]) ++ [d.toNat + 2] }

/-- A warp to which a copy tag is given, with the reply outstanding. -/
def tagGiven (x : Issue) (s : State) (d : Reg) (at_ : DWord) (st : TagStatus) (w : Warp) : Warp := addOut (giveTag w st) (copyReply x s d at_)

/-- The tag just given is among those whose status is kept. -/
theorem mem_giveTag (w : Warp) (st : TagStatus) : (w.nextTag, st) ∈ (giveTag w st).tags := by
  have hlast (l : List (Nat × TagStatus)) (y : Nat × TagStatus) : y ∈ (l ++ [y]).drop ((l ++ [y]).length - 64) := by
    rw [List.drop_append_of_le_length (by simp)]
    exact List.mem_append_right _ (List.mem_singleton_self y)
  exact hlast _ _

theorem exec_cpya (h : Hdr) (dir : CpyDir) (d : Reg) (q : Src3) (s : State) :
    exec (.cpya h dir d q) s = issue (.cpya h dir d q) s always (cpyaEffect dir d q) := rfl

section
variable {dir : CpyDir} {q : Src3} {x : Issue} {s : State} {src dst : CopyEnd} {gs gd : Bool} {a b n : Nat}
  (hgs : gs = (dir == .g2s || dir == .g2g)) (hgd : gd = (dir == .s2g || dir == .g2g)) (ha : a = src3A x (if gs then .p else .v) q x.low)
  (hb : b = src3B x (if gd then .p else .v) q x.low) (hn : n = src3C x .v q x.low) (haligned : n % 16 = 0 ∧ a % 16 = 0 ∧ b % 16 = 0)
  (hle : n ≤ 0x1000000) (hsrc : endOf s x gs a n = .ok src) (hdst : endOf s x gd b n = .ok dst) (d : Reg)
include hgs hgd ha hb hn haligned hle hsrc hdst

/-- A CPYA whose operands pass the checks gives its tag and starts its copy. -/
theorem cpyaEffect_of_pass : cpyaEffect dir d q x s =
    let s1 := (if n = 0 then s else s.drawDWord.2).modWarp x.w.id
      (tagGiven x s d (if n = 0 then s.clock else s.drawDWord.1) (if n = 0 then .complete else .running))
    startCopy s1 x (newCopy s1 x (.cpya dir) x.w.nextTag src dst (n / 16)) := by
  subst hgs hgd ha hb hn
  obtain ⟨hn, ha, hb⟩ := haligned
  rw [cpyaEffect]
  simp only []
  rw [if_neg (by rintro (hc | hc | hc) <;> contradiction), if_neg (by omega), hsrc, hdst]
  rfl

theorem cpyaEffect_of_none (hzero : n = 0) :
    cpyaEffect dir d q x s = withDone (s.modWarp x.w.id (tagGiven x s d s.clock .complete)) x := by
  rw [cpyaEffect_of_pass hgs hgd ha hb hn haligned hle hsrc hdst d]
  simp only [if_pos hzero]
  exact startCopy_of_none (by rw [hzero]; rfl) _ x

theorem cpyaEffect_of_units (hpos : n ≠ 0) : ∃ w,
    let s1 := s.drawDWord.2.modWarp x.w.id (tagGiven x s d s.drawDWord.1 .running)
    cpyaEffect dir d q x s = withCopy s1 x (added (newCopy s1 x (.cpya dir) x.w.nextTag src dst (n / 16)) w) := by
  rw [cpyaEffect_of_pass hgs hgd ha hb hn haligned hle hsrc hdst d]
  obtain ⟨hdvd, -⟩ := haligned
  simp only [if_neg hpos]
  exact startCopy_of_units (by change n / 16 ≠ 0; omega) _ x

end

/-! ## CPYW and CPYQ (R233, R234) -/

/-- The copy of a CPYW. -/
def cpywCopy (x : Issue) (t : State) (va : DWord) (n : Nat) : Copy :=
  newCopy t x .cpyw 0 (.glob va) (.glob va) (if (t.warpEff x.w).kilnMib = 0 then 0 else n / 1024)

/-- CPYW as it issues. -/
def cpywEffect (a b : Reg) (x : Issue) (t : State) : State :=
  let va := rdP x.w a x.low
  let n := (rdV x.w b x.low).toNat
  if va.toNat % 1024 ≠ 0 ∨ n % 1024 ≠ 0 then issueTrap x t 0x10 0 x.e 0
  else if 0x1000000 < n ∨ rangeCanonical va n = false then issueTrap x t 0x11 0 x.e 0
  else if wortIssueHit t x.w va.toNat n then issueTrap x t 0x11 0x40 x.e 0
  else startCopy t x (cpywCopy x t va n)

theorem exec_cpyw (h : Hdr) (a b : Reg) (s : State) : exec (.cpyw h a b) s = issue (.cpyw h a b) s always (cpywEffect a b) := rfl

/-- The copy of a CPYQ. -/
def cpyqCopy (x : Issue) (t : State) (q : Nat) (va : DWord) (n : Nat) : Copy := newCopy t x (.cpyq q) 0 (.glob va) (.glob va) n

/-- The sender of a CPYQ. -/
def cpyqSender (x : Issue) (t : State) (q : Nat) : Sender := { id := 2 ^ 32 + t.nextId, q := q, qbo := x.w.qbo }

/-- CPYQ as it issues. -/
def cpyqEffect (k a b : Reg) (x : Issue) (t : State) : State :=
  let va := rdP x.w a x.low
  let n := (rdV x.w b x.low).toNat
  if va.toNat % 128 ≠ 0 then issueTrap x t 0x10 0 x.e 0
  else if 65536 < n ∨ rangeCanonical va (128 * n) = false then issueTrap x t 0x11 0 x.e 0
  else
    let t1 := startCopy t x (cpyqCopy x t k.toNat va n)
    if n = 0 then t1 else t1.modWg x.w.wg fun g => putSender g (cpyqSender x t k.toNat)

theorem exec_cpyq (h : Hdr) (k a b : Reg) (s : State) : exec (.cpyq h k a b) s = issue (.cpyq h k a b) s always (cpyqEffect k a b) := rfl

theorem cpywEffect_of_pass {a b : Reg} {x : Issue} {t : State} {va : DWord} {n : Nat} (ha : va = rdP x.w a x.low)
    (hb : n = (rdV x.w b x.low).toNat) (haligned : va.toNat % 1024 = 0 ∧ n % 1024 = 0) (hle : n ≤ 0x1000000)
    (hcanon : rangeCanonical va n = true) (hwort : wortIssueHit t x.w va.toNat n = false) :
    cpywEffect a b x t = startCopy t x (cpywCopy x t va n) := by
  subst ha hb
  obtain ⟨hva, hn⟩ := haligned
  rw [cpywEffect, if_neg (by rintro (hc | hc) <;> contradiction),
    if_neg (by rw [hcanon]; rintro (hc | hc); exacts [absurd hle (by omega), nomatch hc]), if_neg (by rw [hwort]; exact Bool.false_ne_true)]

theorem cpyqEffect_of_pass {k a b : Reg} {x : Issue} {t : State} {va : DWord} {n : Nat} (ha : va = rdP x.w a x.low)
    (hb : n = (rdV x.w b x.low).toNat) (haligned : va.toNat % 128 = 0) (hle : n ≤ 65536) (hcanon : rangeCanonical va (128 * n) = true)
    (hpos : n ≠ 0) : cpyqEffect k a b x t =
      (startCopy t x (cpyqCopy x t k.toNat va n)).modWg x.w.wg fun g => putSender g (cpyqSender x t k.toNat) := by
  subst ha hb
  rw [cpyqEffect]
  simp only []
  rw [if_neg (by rw [haligned]; exact fun hc => hc rfl),
    if_neg (by rw [hcanon]; rintro (hc | hc); exacts [absurd hle (by omega), nomatch hc]), if_neg hpos]

theorem popQueue_cpyq (h : Hdr) (k a b : Reg) : popQueue (rawOf (.cpyq h k a b)) = none := rfl

/-- Tag, outstanding reply, counter and copy of a CPYA, and its warp goes on. -/
theorem tagGiven_getWarp {i : Instr} {s s0 : State} {w : Warp} {x : Issue} (h : Issues i s w x s0) (t : State) (d : Reg) (at_ : DWord)
    (st : TagStatus) : ((begin_ x s0).modWarp w.id (tagGiven x t d at_ st)).getWarp w.id =
      some (tagGiven x t d at_ st (begunWarp x s0.nextId w)) := by
  have hself := getWarp_modWarp_self (begin_ x s0) w.id (tagGiven x t d at_ st) fun _ => rfl
  rw [getWarp_begun h] at hself
  exact hself

theorem othersKept_tagGiven (s t : State) (n : Nat) (x : Issue) (d : Reg) (at_ : DWord) (st : TagStatus) :
    OthersKept s (s.modWarp n (tagGiven x t d at_ st)) n := fun _ hk => getWarp_modWarp_ne s _ (fun _ => rfl) hk

theorem getWg_begin_of_some {x : Issue} {s : State} {k : Nat} {g : Workgroup} (hg : s.getWg k = some g) :
    ∃ r, (begin_ x s).getWg k = some { g with ret := r } := by
  have h := begin_getWg x s k
  rw [hg] at h
  obtain ⟨g', hg', he⟩ := Option.map_eq_some_iff.1 h
  exact ⟨g'.ret, hg'.trans (congrArg some (congrArg (fun y : Workgroup => { y with ret := g'.ret }) he))⟩

/-- Settles O31: each starts its copy behind the checks of its operands. -/
theorem asynchronousCopiesStart : Obligations.AsynchronousCopiesStart := by
  refine ⟨fun h dir d q s w x s0 src dst hi => ?_, fun h a b s w x s0 hi => ?_, fun h k a b s w x s0 g hi hg => ?_⟩
  · intro gs gd a b n hn ha hb hle hsrc hdst
    obtain ⟨rfl, -⟩ := issues_warp hi
    have hsrc' := (read_of_issues hi (F := (endOf · x gs a n)) (endOf_bare · x gs a n)).trans hsrc
    have hdst' := (read_of_issues hi (F := (endOf · x gd b n)) (endOf_bare · x gd b n)).trans hdst
    by_cases hzero : n = 0
    · have heff := cpyaEffect_of_none (dir := dir) (q := q) (n := n) rfl rfl rfl rfl rfl ⟨hn, ha, hb⟩ hle hsrc' hdst' d hzero
      obtain ⟨w', hstep, hw', ⟨houts, hctrs, htags, hnext⟩, hgoes⟩ := issue_starts hi heff
        (withDone_getWarp (tagGiven_getWarp hi (begin_ x s0) d (begin_ x s0).clock .complete)) rfl
        ((othersKept_tagGiven _ _ _ x d _ _).trans (othersKept_withDone _ x)) (begin_mem x s0)
      refine ⟨_, w', _, (begin_ x s0).clock, (exec_cpya h dir d q s).trans hstep, hw', houts, rfl, rfl, rfl, hnext, ?_,
        fun _ => ⟨?_, ?_, hctrs⟩, fun hc => absurd hzero hc, hgoes⟩
      · rw [htags, if_pos hzero]; exact mem_giveTag (begunWarp x s0.nextId x.w) .complete
      · exact clock_of_issues hi
      · rw [park_copies]; exact begin_copies x s0
    · obtain ⟨c, heff⟩ := cpyaEffect_of_units (dir := dir) (q := q) (n := n) rfl rfl rfl rfl rfl ⟨hn, ha, hb⟩ hle hsrc' hdst' d hzero
      obtain ⟨w', hstep, hw', ⟨houts, hctrs, htags, hnext⟩, hgoes⟩ := issue_starts hi heff
        (withCopy_getWarp (tagGiven_getWarp hi (begin_ x s0) d (begin_ x s0).drawDWord.1 .running)) rfl
        ((othersKept_tagGiven (begin_ x s0) _ _ x d _ _).trans (othersKept_withCopy _ x _)) (begin_mem x s0)
      refine ⟨_, w', _, (begin_ x s0).drawDWord.1, (exec_cpya h dir d q s).trans hstep, hw', houts, rfl, rfl, rfl, hnext, ?_,
        fun hc => absurd hc hzero, fun _ =>
          ⟨hctrs, _, park_withCopy_copies (begin_copies x s0), rfl, rfl, rfl, rfl, rfl, rfl, rfl, rfl, rfl, rfl⟩,
        hgoes⟩
      · rw [htags, if_neg hzero]; exact mem_giveTag (begunWarp x s0.nextId x.w) .running
  · intro va n hva hn hle hcanon hwort hpos hkiln
    obtain ⟨rfl, -⟩ := issues_warp hi
    have hwort' := (read_of_issues hi (F := (wortIssueHit · x.w va.toNat n)) (wortIssueHit_bare · x.w va.toNat n)).trans hwort
    have hkiln' : ((begin_ x s0).warpEff x.w).kilnMib ≠ 0 := by
      rwa [read_of_issues hi (F := (State.warpEff · x.w)) (warpEff_bare · x.w)]
    have hunits : (cpywCopy x (begin_ x s0) va n).units = n / 1024 := if_neg hkiln'
    obtain ⟨c, hstart⟩ := startCopy_of_units (c := cpywCopy x (begin_ x s0) va n) (by rw [hunits]; omega) (begin_ x s0) x
    have heff := (cpywEffect_of_pass (a := a) (b := b) rfl rfl ⟨hva, hn⟩ hle hcanon hwort').trans hstart
    obtain ⟨w', hstep, hw', ⟨houts, hctrs, -, hnext⟩, hgoes⟩ := issue_starts hi heff
      (withCopy_getWarp (getWarp_begun hi)) rfl (othersKept_withCopy _ x _) (begin_mem x s0)
    exact ⟨_, w', _, (exec_cpyw h a b s).trans hstep, hw', park_withCopy_copies (begin_copies x s0), rfl, rfl, hunits, rfl, rfl, hctrs, houts,
      hnext, hgoes⟩
  · intro va n hva hle hcanon hpos
    obtain ⟨rfl, -⟩ := issues_warp hi
    obtain ⟨c, hstart⟩ := startCopy_of_units (c := cpyqCopy x (begin_ x s0) k.toNat va n) hpos (begin_ x s0) x
    have heff := cpyqEffect_of_pass (k := k) (a := a) (b := b) (t := begin_ x s0) rfl rfl hva hle hcanon hpos
    rw [hstart] at heff
    obtain ⟨w', hstep, hw', ⟨houts, hctrs, -, hnext⟩, hgoes⟩ := issue_starts hi heff
      (withCopy_getWarp (c := added (cpyqCopy x (begin_ x s0) k.toNat va n) c) (getWarp_begun hi)) rfl
      (othersKept_withCopy _ x (added (cpyqCopy x (begin_ x s0) k.toNat va n) c)) (begin_mem x s0)
    have hs : s0 = s := issues_state hi (popQueue_cpyq h k a b)
    obtain ⟨r, hbegun⟩ := getWg_begin_of_some (x := x) (hs ▸ hg)
    have hmod := getWg_modWg_self (begin_ x s0) x.w.wg (putSender · (cpyqSender x (begin_ x s0) k.toNat)) fun _ => rfl
    rw [hbegun] at hmod
    refine ⟨_, w', putSender { g with ret := r } (cpyqSender x (begin_ x s0) k.toNat),
      added (cpyqCopy x (begin_ x s0) k.toNat va n) c, (exec_cpyq h k a b s).trans hstep, hw', ?_, ?_, rfl, rfl, rfl, rfl,
      senderOf_putSender (d := cpyqSender x (begin_ x s0) k.toNat) rfl rfl _, rfl, hctrs, houts, hnext, hgoes⟩
    · rw [park_state]; exact hmod
    · rw [park_copies]; exact congrArg (· ++ _) (begin_copies x s0)

end Sys2Proof.Machine
end

section
/-! What a read that fills the caches leaves of the warps: their watch arms may fire, when lines leave the caches or written bytes become
visible, and nothing else of any warp changes (R206, R221, R229). -/

namespace Sys2Proof.Machine

/-- The warps without their watch arms. -/
def disarmed (s : State) : List Warp := s.warps.map fun w => { w with arms := [] }

theorem disarmed_of_warps {s t : State} (h : t.warps = s.warps) : disarmed t = disarmed s := by rw [disarmed, disarmed, h]

theorem disarmed_of_issueView {s t : State} (h : issueView t = issueView s) : disarmed t = disarmed s :=
  disarmed_of_warps (warps_of_issueView h)

/-- What no step of a fold changes reads the same behind it. -/
theorem foldl_keeps {α β : Type} {F : State → α} {f : State → β → State} (h : ∀ s b, F (f s b) = F s) (l : List β) (s : State) :
    F (l.foldl f s) = F s := by
  induction l generalizing s with
  | nil => rfl
  | cons b l ih => rw [List.foldl_cons, ih, h]

theorem disarmed_foldl {β : Type} {f : State → β → State} (h : ∀ s b, disarmed (f s b) = disarmed s) (l : List β) (s : State) :
    disarmed (l.foldl f s) = disarmed s := foldl_keeps h l s

/-- Firing arms of some warps changes nothing but arms. -/
theorem disarmed_of_map {s t : State} {f : Warp → Warp} (ht : t.warps = s.warps.map f)
    (hf : ∀ w, { f w with arms := [] } = { w with arms := [] }) :
    disarmed t = disarmed s := by
  rw [disarmed, ht, List.map_map]
  exact List.map_congr_left fun w _ => hf w

section
variable (s : State)

@[simp] theorem disarmed_modCore (c : CoreId) (f : Core → Core) : disarmed (s.modCore c f) = disarmed s := rfl
@[simp] theorem disarmed_setCore (c : Core) : disarmed (s.setCore c) = disarmed s := rfl
@[simp] theorem disarmed_modCluster (c : CluId) (f : Cluster → Cluster) : disarmed (s.modCluster c f) = disarmed s := rfl
@[simp] theorem disarmed_route (c : CoreId) (asid : Nat) (user : Bool) (want : Want) (va : DWord) :
    disarmed (route s c asid user want va).2 = disarmed s := disarmed_of_issueView (issueView_route s c asid user want va)
@[simp] theorem disarmed_store (pa : Nat) (bs : List Byte) : disarmed (s.store pa bs) = disarmed s :=
  disarmed_of_issueView (issueView_store s pa bs)
@[simp] theorem disarmed_dropFar (w va n : Nat) : disarmed (dropFar s w va n) = disarmed s := rfl
@[simp] theorem disarmed_putDir (d : Nat) (x : Dir) : disarmed (putDir s d x) = disarmed s := rfl
@[simp] theorem disarmed_setL1 (c : CoreId) (asid line : Nat) (f : L1Line → L1Line) : disarmed (setL1 s c asid line f) = disarmed s := rfl
@[simp] theorem disarmed_kTouch (c : CoreId) (x : KSector) : disarmed (kTouch s c x) = disarmed s := rfl
@[simp] theorem disarmed_caskFill (d asid line : Nat) (dirty : Bool) (lim : Nat) (early : Bool) :
    disarmed (caskFill s d asid line dirty lim early) = disarmed s := rfl
@[simp] theorem disarmed_caskBack (ln : L1Line) : disarmed (caskBack s ln) = disarmed s := rfl
@[simp] theorem disarmed_prefSector (a : Acc) (va : DWord) : disarmed (prefSector s a va) = disarmed s := rfl

@[simp] theorem disarmed_markWritten (pa n : Nat) : disarmed (markWritten s pa n) = disarmed s := by
  unfold markWritten
  split <;> rfl

@[simp] theorem disarmed_settleLines (c : CoreId) (tag : Nat) (lines : List Nat) : disarmed (settleLines s c tag lines).2 = disarmed s := by
  unfold settleLines
  split
  · rfl
  · exact disarmed_foldl (fun t l => by split <;> rfl) lines s

/-! ## Arms that fire -/

@[simp] theorem disarmed_fireArms (asid line : Nat) : disarmed (fireArms s asid line) = disarmed s := by
  unfold fireArms
  dsimp only
  split
  · exact disarmed_of_map rfl fun _ => rfl
  · rfl

@[simp] theorem disarmed_fireCoreArms (c : CoreId) (line : Nat) : disarmed (fireCoreArms s c line) = disarmed s :=
  disarmed_of_map rfl fun w => by dsimp only; split <;> rfl

@[simp] theorem disarmed_farDrop (die asid line : Nat) : disarmed (farDrop s die asid line) = disarmed s := by
  unfold farDrop
  dsimp only
  split
  · rfl
  · exact disarmed_of_map rfl fun w => by dsimp only; split <;> rfl

/-! ## Lines made absent -/

@[simp] theorem disarmed_dropLine (c : CoreId) (asid line : Nat) : disarmed (dropLine s c asid line) = disarmed s := by
  unfold dropLine
  split
  · rfl
  · simp

@[simp] theorem disarmed_dropOthers (die asid line : Nat) (keep : Option CoreId) : disarmed (dropOthers s die asid line keep) = disarmed s :=
  disarmed_foldl (fun t c => by split <;> simp) _ s

@[simp] theorem disarmed_dropLease (die asid line : Nat) : disarmed (dropLease s die asid line) = disarmed s := by
  rw [dropLease, disarmed_dropOthers]; rfl

@[simp] theorem disarmed_clearHolders (home asid line : Nat) (owner : Option Nat) : disarmed (clearHolders s home asid line owner) = disarmed s := by
  have hfold (l : List Lease) : disarmed (l.foldl (fun acc l => dropLease acc l.die l.asid l.line) s) = disarmed s :=
    disarmed_foldl (fun t l => by simp) l s
  unfold clearHolders
  dsimp only
  split <;> simp [hfold]

@[simp] theorem disarmed_dropEverywhere (pa asid line : Nat) : disarmed (dropEverywhere s pa asid line) = disarmed s :=
  (disarmed_foldl (fun t d => by simp) _ _).trans (by simp)

@[simp] theorem disarmed_rdcFree (die asid line way : Nat) : disarmed (rdcFree s die asid line way) = disarmed s :=
  (disarmed_foldl (fun t l => by simp) _ _).trans (disarmed_foldl (fun t l => by simp) _ _)

/-! ## Bytes written back -/

@[simp] theorem disarmed_storeAt (asid : Nat) (va : DWord) (pa : Nat) (bs : List Byte) : disarmed (storeAt s asid va pa bs) = disarmed s :=
  (disarmed_foldl (fun t l => by simp) _ _).trans (by simp)

@[simp] theorem disarmed_tokenCross (pa n : Nat) : disarmed (tokenCross s pa n) = disarmed s := by
  unfold tokenCross
  dsimp only
  split <;> rfl

@[simp] theorem disarmed_engineStore (asid : Nat) (va : DWord) (pa : Nat) (bs : List Byte) :
    disarmed (engineStore s asid va pa bs) = disarmed s := by
  rw [engineStore, disarmed_tokenCross, disarmed_storeAt]
  exact disarmed_foldl (fun t l => by simp) _ s

@[simp] theorem disarmed_enqueue (port first : Nat) (m : FabMsg) (dl : Option DWord) : disarmed (enqueue s port first m dl) = disarmed s := by
  unfold enqueue
  split <;> rfl

theorem disarmed_sendFor {s t : State} {pkg asid va : Nat} {m : FabMsg} {dl : Option DWord} (h : sendFor s pkg asid va m dl = some t) :
    disarmed t = disarmed s := by
  obtain ⟨p, -, rfl⟩ := Option.map_eq_some_iff.1 h
  simp

@[simp] theorem disarmed_backSend (pkg asid va : Nat) (bs : List Byte) : disarmed (backSend s pkg asid va bs) = disarmed s := by
  unfold backSend
  dsimp only
  split
  · rfl
  · split
    · rename_i t ht
      have hkept := disarmed_sendFor ht
      exact hkept
    · rfl

@[simp] theorem disarmed_writeBack (asid va : Nat) (p : Place) (ds : List (Nat × Byte)) : disarmed (writeBack s asid va p ds) = disarmed s := by
  cases p with
  | mem pa => exact disarmed_foldl (fun t d => by simp) ds s
  | host a =>
    unfold writeBack
    dsimp only
    split
    · split <;> rfl
    · rfl
  | far k => exact disarmed_foldl (fun t r => by simp) _ s

@[simp] theorem disarmed_kWriteBack (x : KSector) : disarmed (kWriteBack s x) = disarmed s := disarmed_writeBack s _ _ _ _

@[simp] theorem disarmed_kEvict (c : CoreId) (x : KSector) : disarmed (kEvict s c x) = disarmed s := by
  rw [kEvict, disarmed_kWriteBack]; rfl

theorem disarmed_kMakeRoom {s t : State} {c : CoreId} {ctx mibs : Nat} (h : kMakeRoom s c ctx mibs = some t) : disarmed t = disarmed s := by
  unfold kMakeRoom at h
  dsimp only at h
  split at h
  · obtain ⟨x, -, rfl⟩ := Option.map_eq_some_iff.1 h
    simp
  · split at h
    · obtain ⟨x, -, rfl⟩ := Option.map_eq_some_iff.1 h
      simp
    · rw [Option.some.inj h]

theorem disarmed_l1MakeRoom {s t : State} {c : CoreId} {asid line : Nat} (h : l1MakeRoom s c asid line = some t) : disarmed t = disarmed s := by
  unfold l1MakeRoom at h
  dsimp only at h
  split at h
  · rw [Option.some.inj h]
  · split at h
    · rw [← Option.some.inj h, disarmed_dropLine]
      split <;> simp
    · rw [← Option.some.inj h]; simp
    · cases h

/-! ## Leases, and copies of other packages' lines -/

@[simp] theorem disarmed_listDie (home asid line pa die : Nat) (t : DWord) : disarmed (listDie s home asid line pa die t) = disarmed s := rfl

theorem disarmed_withLeases (l : List Lease) : disarmed { s with leases := l } = disarmed s := rfl

@[simp] theorem disarmed_giveLease (holder asid line pa lim : Nat) : disarmed (giveLease s holder asid line pa lim) = disarmed s := by
  unfold giveLease
  dsimp only
  split
  · split
    · rfl
    · rw [disarmed_withLeases, disarmed_listDie]
      split
      · rfl
      · rw [disarmed_rdcFree]; rfl
  · rfl

@[simp] theorem disarmed_renewLease (die asid line : Nat) : disarmed (renewLease s die asid line) = disarmed s := by
  unfold renewLease
  split
  · rfl
  · split <;> simp

@[simp] theorem disarmed_farHit (x : FarLine) : disarmed (farHit s x) = disarmed s := by
  unfold farHit
  split <;> rfl

@[simp] theorem disarmed_farAsk (die asid : Nat) (user : Bool) (pkg line : Nat) : disarmed (farAsk s die asid user pkg line) = disarmed s := by
  unfold farAsk
  dsimp only
  split
  · rfl
  · split
    · rename_i t ht
      have hkept := disarmed_sendFor ht
      exact hkept
    · rfl

@[simp] theorem disarmed_prefFar (a : Acc) (pkg : Nat) (va : DWord) : disarmed (prefFar s a pkg va) = disarmed s := by
  unfold prefFar
  split <;> simp

/-! ## L1 fills -/

@[simp] theorem disarmed_backInvalidate (c : CluId) (e : Filter) : disarmed (backInvalidate s c e) = disarmed s := by
  rw [backInvalidate, disarmed_modCluster]
  exact (disarmed_foldl (fun t k => by simp) _ _).trans (disarmed_foldl (fun t pa => by simp) _ s)

@[simp] theorem disarmed_filterFill (c : CoreId) (asid line : Nat) : disarmed (filterFill s c asid line) = disarmed s := by
  unfold filterFill
  dsimp only
  split
  · rfl
  · rw [disarmed_modCluster]
    split
    · split <;> simp
    · rfl

@[simp] theorem disarmed_fillL1 (c : CoreId) (ln : L1Line) : disarmed (fillL1 s c ln) = disarmed s := by
  unfold fillL1
  dsimp only
  split
  · rename_i t ht
    rw [disarmed_filterFill]
    have hkept := disarmed_l1MakeRoom ht
    exact hkept
  · rfl

@[simp] theorem disarmed_grantGetS (c : CoreId) (ln : L1Line) (lease : Bool) : disarmed (grantGetS s c ln lease) = disarmed s := by
  change disarmed (fillL1 _ _ _) = _
  rw [disarmed_fillL1]
  exact disarmed_foldl (fun t h => by simp) _ s

/-! ## Reads -/

@[simp] theorem disarmed_ncRead (a : Acc) (va : DWord) (n tag : Nat) (p : Place) (user writable : Bool) :
    disarmed (ncRead s a va n tag p user writable).2 = disarmed s := by
  unfold ncRead
  dsimp only
  split
  · rfl
  · rename_i t ht
    split
    · rfl
    · change disarmed t = _
      split at ht
      · rw [Option.some.inj ht]
      · exact disarmed_l1MakeRoom ht

@[simp] theorem disarmed_readHome (a : Acc) (va : DWord) (n : Nat) : disarmed (readHome s a va n).2 = disarmed s := by
  unfold readHome
  dsimp only
  split
  · simp
  · simp
  · simp
  · simp
  · simp
  · split <;> simp
  · rename_i pa kind glob _
    generalize (if glob = true then 0 else a.asid) = tag
    split
    · simp
    · split
      · simp
      · split <;> simp

@[simp] theorem disarmed_loadMiss (a : Acc) (va : DWord) (n : Nat) : disarmed (loadMiss s a va n).2 = disarmed s := by
  unfold loadMiss
  dsimp only
  split
  · simp
  · simp
  · simp
  · simp
  · split
    · simp
    · split <;> simp
  · split <;> simp
  · rename_i pa kind glob _
    generalize (if glob = true then 0 else a.asid) = tag
    split
    · simp
    · split
      · simp
      · split
        · simp
        · split
          · simp
          · split <;> simp

@[simp] theorem disarmed_readGlobal (a : Acc) (va : DWord) (n : Nat) : disarmed (readGlobal s a va n).2 = disarmed s := by
  unfold readGlobal
  dsimp only
  split
  · simp
  · split
    · split
      · rfl
      · split <;> simp
    · split
      · split
        · split <;> simp
        · simp
      · split
        · split
          · rfl
          · split <;> simp
        · simp

@[simp] theorem disarmed_readKilnFar (a : Acc) (mibs pkg : Nat) (va : DWord) (n : Nat) :
    disarmed (readKilnFar s a mibs pkg va n).2 = disarmed s := by
  unfold readKilnFar
  dsimp only
  split
  · rfl
  · split
    · rfl
    · split
      · simp
      · split
        · simp
        · split
          · simp
          · rename_i t ht
            have hkept := disarmed_kMakeRoom ht
            exact (disarmed_kTouch t _ _).trans hkept
    · simp
    · simp

@[simp] theorem disarmed_readKiln (a : Acc) (mibs : Nat) (va : DWord) (n : Nat) : disarmed (readKiln s a mibs va n).2 = disarmed s := by
  unfold readKiln
  dsimp only
  split
  · rfl
  · split
    · rfl
    · split
      · split <;> simp
      · split
        · simp
        · split
          · simp
          · simp
          · simp
          · split <;> simp
          · simp
          · simp
          · rename_i pa kind glob _
            generalize (if glob = true then 0 else a.asid) = tag
            split
            · simp
            · split
              · simp
              · split
                · simp
                · split
                  · simp
                  · split
                    · simp
                    · split
                      · simp
                      · rename_i t ht
                        exact (disarmed_kTouch t _ _).trans ((disarmed_kMakeRoom ht).trans (by simp))

/-! ## Prefetches (R221) -/

@[simp] theorem disarmed_prefLane (w : Warp) (t : PrefTo) (va : DWord) : disarmed (prefLane s w t va) = disarmed s := by
  unfold prefLane
  dsimp only
  generalize accOf s w (s.warpAsid w) = a
  split
  · rfl
  · cases t with
    | l2 =>
      dsimp only
      split
      · rename_i pa kind glob _ _
        generalize (if glob = true then 0 else a.asid) = tag
        split <;> simp
      · simp
      · simp
      · rfl
    | kiln =>
      dsimp only
      split
      · rfl
      · split
        · simp
        · split <;> simp
        · simp
        · rfl
    | l1 =>
      dsimp only
      split
      · simp
      · simp
      · simp
      · rfl

end

end Sys2Proof.Machine
end

section
/-! WAITC, REL, ACQ, CCTL.ivall and PREF (R216, R218 to R221). -/

namespace Sys2Proof.Machine

/-! ## Effects outside the lanes and registers of their warp -/

/-- An instruction whose effect changes of its own warp at most its waits, its arms and whether a save has stopped it (R424) completes. -/
theorem issue_outside {i : Instr} {s s0 : State} {w : Warp} {x : Issue} (h : Issues i s w x s0) {effect : Issue → State → State} {v : Warp}
    (hself : (effect x (begin_ x s0)).getWarp w.id = some v)
    (hv : v = { begunWarp x s0.nextId w with waitc := v.waitc, hold := v.hold, arms := v.arms, stopped := v.stopped }) :
    ∃ w', issue i s always effect = .next (park x (effect x (begin_ x s0))) ∧ (park x (effect x (begin_ x s0))).getWarp w.id = some w' ∧
      (w'.waitc = v.waitc ∧ w'.hold = v.hold) ∧ NoRegister w w' ∧ Advanced x w w' ∧ w'.outs = w.outs ∧ w'.stores = w.stores ∧
      w'.ctrs = w.ctrs ∧ w'.inTrap = w.inTrap := by
  obtain ⟨-, hrun⟩ := issues_run h
  obtain ⟨w', hstep, hw', e⟩ := issue_leaves h hself (by rw [hv]; exact (show w.parked = false from parked_of_issues h))
  refine ⟨w', hstep, hw', ?_, ?_, fun l => ?_, ?_, ?_, ?_, ?_⟩
  · rw [e]; exact ⟨rfl, rfl⟩
  · rw [e, hv]; exact ⟨rfl, rfl, rfl, rfl⟩
  · rw [e.lane, hv]; exact begunWarp_lane x s0.nextId w hrun l
  · rw [e, hv]; rfl
  · rw [e, hv]; rfl
  · rw [e, hv]; rfl
  · rw [e, hv]; rfl

/-! ## WAITC (R216, R254) -/

/-- A warp that waits for a counter. -/
def waitingFor (c : Ctr) (n : BitVec 6) (w : Warp) : Warp := { w with waitc := some (c, n.toNat) }

/-- WAITC as it issues. -/
def waitcEffect (c : Ctr) (n : BitVec 6) (x : Issue) (t : State) : State :=
  let u := t.modWarp x.w.id (waitingFor c n)
  waitcFlush (if (waitedTags x.w c n.toNat).isEmpty then u else savePoint u x.w.id) x.w.id

theorem exec_waitc (h : Hdr) (c : Ctr) (n : BitVec 6) (s : State) : exec (.waitc h c n) s = issue (.waitc h c n) s always (waitcEffect c n) := rfl

/-- The warps and the memory. -/
def warpsAndMemory (s : State) : List Warp × Sparse Byte := (s.warps, s.mem)

theorem warpsAndMemory_sendEntry (s : State) (e : WideEntry) : warpsAndMemory (sendEntry s e) = warpsAndMemory s := by
  unfold sendEntry
  dsimp only
  split
  · split <;> rfl
  · rfl

theorem warpsAndMemory_flushWarp (s : State) (w : Warp) : warpsAndMemory (flushWarp s w) = warpsAndMemory s :=
  foldl_keeps warpsAndMemory_sendEntry _ _

/-- Flushing the buffer for a wait changes neither the warps nor the memory. -/
theorem warpsAndMemory_waitcFlush (s : State) (n : Nat) : warpsAndMemory (waitcFlush s n) = warpsAndMemory s := by
  unfold waitcFlush
  split
  · rfl
  · split
    · dsimp only
      split
      · exact warpsAndMemory_flushWarp s _
      · rfl
    · rfl

theorem getWarp_of_warpsAndMemory {s t : State} (h : warpsAndMemory t = warpsAndMemory s) (n : Nat) : t.getWarp n = s.getWarp n := by
  have hwarps : t.warps = s.warps := congrArg Prod.fst h
  rw [State.getWarp, State.getWarp, hwarps]

theorem mem_of_warpsAndMemory {s t : State} (h : warpsAndMemory t = warpsAndMemory s) : t.mem = s.mem := congrArg Prod.snd h

/-- The warp of a WAITC waits, and may have stopped for a save (R424). -/
theorem waitcEffect_getWarp {t : State} {x : Issue} {w : Warp} (hw : t.getWarp x.w.id = some w) (c : Ctr) (n : BitVec 6) :
    ∃ b, (waitcEffect c n x t).getWarp x.w.id = some { waitingFor c n w with stopped := b } := by
  have hself := getWarp_modWarp_self t x.w.id (waitingFor c n) fun _ => rfl
  rw [hw] at hself
  rw [waitcEffect, getWarp_of_warpsAndMemory (warpsAndMemory_waitcFlush _ _)]
  split
  · exact ⟨w.stopped, hself⟩
  · exact savePoint_getWarp hself

theorem waitcEffect_mem (t : State) (x : Issue) (c : Ctr) (n : BitVec 6) : (waitcEffect c n x t).mem = t.mem := by
  rw [waitcEffect, mem_of_warpsAndMemory (warpsAndMemory_waitcFlush _ _)]
  split
  · rfl
  · obtain ⟨hrest, -⟩ := onlyWarp_savePoint (t.modWarp x.w.id (waitingFor c n)) x.w.id
    rw [hrest]; rfl

/-- A warp held back issues nothing. -/
theorem issueP_of_blocked {i : Instr} {s : State} {w : Warp} (hw : s.getWarp s.cur = some w) (hrun : headRun w ≠ 0) (hb : w.blocked = true)
    (ready : Issue → State → Bool) (prep effect : Issue → State → State) : issueP i s ready prep effect = .next s := by
  have hrun' : ¬ (headRun w == 0) = true := by rwa [beq_iff_eq]
  simp only [issueP, form, hw, if_neg hrun', if_pos hb]

theorem counterWaitRecorded : Clause.CounterWaitRecorded := by
  refine ⟨fun h c n s w x s0 hi => ?_, fun i s w c n hraw hw hrun hwait hlt => ?_⟩
  · obtain ⟨rfl, -⟩ := issues_warp hi
    obtain ⟨b, hself⟩ := waitcEffect_getWarp (getWarp_begun hi) c n
    obtain ⟨w', hstep, hw', ⟨hwaitc, -⟩, hreg, hadv, houts, hstores, -⟩ := issue_outside hi hself rfl
    refine ⟨_, w', (exec_waitc h c n s).trans hstep, hw', hwaitc, hreg, hadv, houts, hstores, fun a => ?_⟩
    rw [park_mem, waitcEffect_mem, begin_mem]
  · have hb : w.blocked = true := by simp [Warp.blocked, waitcHolds, hwait, hlt]
    obtain ⟨-, ready, prep, effect, he⟩ | ⟨hnone, -⟩ := exec_instruction_or_event i s
    · rw [he]; exact issueP_of_blocked hw hrun hb ready prep effect
    · exact absurd hnone hraw

/-! ## REL and ACQ (R218, R219) -/

/-- A warp held by an instruction. -/
def withHold (k : Hold) (w : Warp) : Warp := { w with hold := some k }

theorem exec_rel (h : Hdr) (sc : Scope) (s : State) :
    exec (.rel h sc) s = issue (.rel h sc) s always fun x t => t.modWarp x.w.id (withHold (.rel sc x.tag)) := rfl

/-- ACQ as it issues. -/
def acqEffect (sc : Scope) (x : Issue) (t : State) : State :=
  if olderDone x.w .ld x.tag then acquireEffects t x.w sc else t.modWarp x.w.id (withHold (.acq sc x.tag))

theorem exec_acq (h : Hdr) (sc : Scope) (s : State) : exec (.acq h sc) s = issue (.acq h sc) s always (acqEffect sc) := rfl

/-- An instruction that does no more than hold its warp. -/
theorem issue_holds {i : Instr} {s s0 : State} {w : Warp} {x : Issue} (h : Issues i s w x s0) {effect : Issue → State → State} {k : Hold}
    (he : effect x (begin_ x s0) = (begin_ x s0).modWarp w.id (withHold k)) :
    ∃ t w', issue i s always effect = .next t ∧ t.getWarp w.id = some w' ∧ w'.hold = some k ∧ NoRegister w w' ∧ Advanced x w w' ∧
      w'.outs = w.outs ∧ w'.stores = w.stores ∧ w'.ctrs = w.ctrs ∧ Kept s0 t w.id := by
  have hself := getWarp_modWarp_self (begin_ x s0) w.id (withHold k) fun _ => rfl
  have honly := onlyWarp_modWarp (begin_ x s0) w.id (f := withHold k) fun _ => rfl
  rw [getWarp_begun h, ← he] at hself
  rw [← he] at honly
  obtain ⟨w', hstep, hw', ⟨-, hhold⟩, hreg, hadv, houts, hstores, hctrs, -⟩ := issue_outside h hself rfl
  obtain ⟨rfl, -⟩ := issues_warp h
  exact ⟨_, w', hstep, hw', hhold, hreg, hadv, houts, hstores, hctrs, kept_park_of_onlyWarp honly⟩

theorem warpsAndMemory_acquireEffects (s : State) (w : Warp) (sc : Scope) : warpsAndMemory (acquireEffects s w sc) = warpsAndMemory s := by
  unfold acquireEffects
  split <;> rfl

/-- What an ACQ leaves of the non-coherent lines that its context sees: the bytes its core has written. -/
theorem acquireEffects_dirty {s : State} {w : Warp} {sc : Scope} (hsc : sc ≠ .wg) {y : NcLine}
    (hy : y ∈ ((acquireEffects s w sc).getCore (s.warpCore w)).nc) (hsees : tagSees (s.warpAsid w) y.asid = true) :
    ∀ e ∈ y.bytes, e.2.2 = true := by
  have hsc' : ¬ (sc == .wg) = true := by rwa [beq_iff_eq]
  rw [acquireEffects, if_neg hsc', getCore_modCore_self _ _ _ (getCore_id _ _)] at hy
  obtain ⟨z, -, rfl⟩ := List.mem_map.1 (List.mem_filter.1 hy).1
  split at hsees
  · rename_i hz
    intro e he
    rw [if_pos hz] at he
    exact (List.mem_filter.1 he).2
  · rename_i hz
    exact absurd hsees hz

/-! ## CCTL.ivall (R220) -/

/-- CCTL.ivall as it issues. -/
def ivallEffect (x : Issue) (t : State) : State :=
  (dropFetches t (t.warpCore x.w)).modCore (t.warpCore x.w) fun c => { c with icache := c.icache.filter fun e => !tagSees (t.warpAsid x.w) e.1 }

theorem exec_cctlIvall (h : Hdr) (s : State) : exec (.cctlIvall h) s = issue (.cctlIvall h) s always ivallEffect := rfl

theorem mem_icache_ivallEffect (x : Issue) (t : State) (e : Nat × Nat × List Byte) :
    e ∈ ((ivallEffect x t).getCore (t.warpCore x.w)).icache ↔
      e ∈ (t.getCore (t.warpCore x.w)).icache ∧ e.1 ≠ t.warpAsid x.w ∧ e.1 ≠ 0 := by
  rw [ivallEffect, getCore_modCore_self _ _ _ (getCore_id _ _)]
  have hsees : (!tagSees (t.warpAsid x.w) e.1) = true ↔ e.1 ≠ t.warpAsid x.w ∧ e.1 ≠ 0 := by simp [tagSees]
  exact List.mem_filter.trans (and_congr_right fun _ => hsees)

/-! ## PREF (R221) -/

/-- PREF as it issues. -/
def prefEffect (t : PrefTo) (m : Addr) (x : Issue) (u : State) : State :=
  (lanesOf x.e).foldl (fun acc l => prefLane acc x.w t (addrGlobal x m l)) u

theorem exec_pref (h : Hdr) (t : PrefTo) (m : Addr) (s : State) : exec (.pref h t m) s = issue (.pref h t m) s always (prefEffect t m) := rfl

/-- Where only arms have changed, a warp differs in its arms only. -/
theorem getWarp_of_disarmed {s t : State} (h : disarmed t = disarmed s) {n : Nat} {w : Warp} (hw : s.getWarp n = some w) :
    ∃ v, t.getWarp n = some v ∧ v = { w with arms := v.arms } := by
  have hfind (u : State) : (disarmed u).find? (fun w => w.id == n) = (u.getWarp n).map fun w => { w with arms := [] } := List.find?_map
  have hmap := hfind t
  rw [h, hfind s, hw] at hmap
  obtain ⟨v, hv, e⟩ := Option.map_eq_some_iff.1 hmap.symm
  exact ⟨v, hv, congrArg (fun y : Warp => { y with arms := v.arms }) e⟩

/-! ## The ordering instructions -/

theorem orderingInstructions : Clause.OrderingInstructions := by
  refine ⟨fun h sc s w x s0 hi => ?_, fun h sc s w x s0 hi holder => ?_, fun h sc s w x s0 hi hdone => ?_, fun h s w x s0 hi => ?_,
    fun h t m s w x s0 hi => ?_⟩
  · obtain ⟨rfl, -⟩ := issues_warp hi
    rw [exec_rel]
    exact issue_holds hi rfl
  · obtain ⟨rfl, -⟩ := issues_warp hi
    rw [exec_acq]
    exact issue_holds hi (if_neg (by rw [holder]; exact Bool.false_ne_true))
  · obtain ⟨rfl, -⟩ := issues_warp hi
    have heff : acqEffect sc x (begin_ x s0) = acquireEffects (begin_ x s0) x.w sc := if_pos hdone
    have hsame := warpsAndMemory_acquireEffects (begin_ x s0) x.w sc
    rw [← heff] at hsame
    obtain ⟨w', hstep, hw', ⟨-, hhold⟩, hreg, hadv, houts, hstores, -⟩ := issue_outside hi
      ((getWarp_of_warpsAndMemory hsame _).trans (getWarp_begun hi)) rfl
    refine ⟨_, w', (exec_acq h sc s).trans hstep, hw', hhold, hreg, hadv, houts, hstores, fun a => ?_, fun hsc y hy hsees => ?_⟩
    · rw [park_mem, mem_of_warpsAndMemory hsame, begin_mem]
    · rw [park_state, heff, ← warpCore_of_issues hi] at hy
      rw [← warpAsid_of_issues hi] at hsees
      exact acquireEffects_dirty hsc hy hsees
  · obtain ⟨rfl, -⟩ := issues_warp hi
    obtain ⟨w', hstep, hw', -, hreg, hadv, houts, hstores, -⟩ := issue_outside hi (effect := ivallEffect) (getWarp_begun hi) rfl
    refine ⟨_, w', (exec_cctlIvall h s).trans hstep, hw', hreg, hadv, fun e => ?_, houts, hstores, fun a => ?_⟩
    · have hcore : (begin_ x s0).getCore (s.warpCore x.w) = s.getCore (s.warpCore x.w) :=
        read_of_issues hi (F := (State.getCore · (s.warpCore x.w))) fun _ => rfl
      have hmem := mem_icache_ivallEffect x (begin_ x s0) e
      rw [warpCore_of_issues hi, warpAsid_of_issues hi, hcore] at hmem
      rw [park_state]
      exact hmem
    · rw [park_mem]
      exact congrArg (Memory.read · a) (begin_mem x s0)
  · obtain ⟨rfl, -⟩ := issues_warp hi
    have hkept : disarmed (prefEffect t m x (begin_ x s0)) = disarmed (begin_ x s0) :=
      disarmed_foldl (fun u l => disarmed_prefLane u x.w t (addrGlobal x m l)) _ _
    obtain ⟨v, hv, e⟩ := getWarp_of_disarmed hkept (getWarp_begun hi)
    obtain ⟨w', hstep, hw', -, hreg, hadv, houts, hstores, hctrs, htrap⟩ := issue_outside hi hv (by rw [e])
    exact ⟨_, w', (exec_pref h t m s).trans hstep, hw', hreg, hadv, houts, hstores, hctrs, htrap⟩

/-- Settles O25: WAITC and the ordering instructions record their wait in the warp, and the caches' share leaves warp and memory alone. -/
theorem waitsAndOrderingInstructions : Obligations.WaitsAndOrderingInstructions := ⟨counterWaitRecorded, orderingInstructions⟩

end Sys2Proof.Machine
end

section
/-! MFOLD.wr of a configuration without tiers (R264). A warp has 32 lanes (R74), but the statement does not ask for it; what it says of the
trap is true of exactly the warps that list 32 lanes. -/

namespace Sys2Proof.Machine

/-- MFOLD.wr as it issues. -/
def mfoldWrEffect (a b : Reg) (x : Issue) (t : State) : State :=
  if (rdV x.w b x.low).setWidth 5 == 0#5 then issueTrap x t 0x21 11 x.e 0
  else modEngine t (targetOf t x a) fun e => { e with cfg := (rdV x.w b x.low).setWidth 5 }

theorem exec_mfoldWr (h : Hdr) (a b : Reg) (s : State) : exec (.mfoldWr h a b) s = issue (.mfoldWr h a b) s always (mfoldWrEffect a b) := rfl

theorem mfoldWrEffect_of_no_tier {a b : Reg} {x : Issue} (hcfg : (rdV x.w b x.low).setWidth 5 = 0#5) (t : State) :
    mfoldWrEffect a b x t = issueTrap x t 0x21 11 x.e 0 := if_pos (by rw [hcfg]; rfl)

section
variable {h : Hdr} {a b : Reg} {s s0 : State} {w : Warp} {x : Issue} (hi : Issues (.mfoldWr h a b) s w x s0)
  (hcfg : (rdV w b x.low).setWidth 5 = 0#5) (hv : w.htvec ≠ 0) (ht : w.inTrap = false)
include hi hcfg hv ht

/-- R264 of a warp of 32 lanes: no tier left for the chain is MX_PARAM with INFO 11, taken by the participants. -/
theorem mfoldWrNoTier_taken (hlanes : 32 ≤ w.lanes.length) :
    ∃ t w', exec (.mfoldWr h a b) s = .next t ∧ t.getWarp w.id = some w' ∧ TrapTaken w w' 0x21 11 x.e x.pc x.after ∧ t.mem = s0.mem := by
  obtain ⟨rfl, -⟩ := issues_warp hi
  exact issueTrap_taken hi 0x21 11 0 (exec_mfoldWr h a b s) rfl (mfoldWrEffect_of_no_tier hcfg _) hv ht hlanes

/-- What a statement says that this trap is taken shows that the warp lists its 32 lanes. -/
theorem lanes_of_mfoldWrNoTier_taken (hclaim : ∃ t w', exec (.mfoldWr h a b) s = .next t ∧ t.getWarp w.id = some w' ∧
    TrapTaken w w' 0x21 11 x.e x.pc x.after ∧ t.mem = s0.mem) : 32 ≤ w.lanes.length := by
  obtain ⟨rfl, -⟩ := issues_warp hi
  exact lanes_of_issueTrap_taken hi 0x21 11 0 (exec_mfoldWr h a b s) rfl (mfoldWrEffect_of_no_tier hcfg _) hv ht hclaim

end

/-! ## A warp at service level that lists one lane -/

/-- The package with a warp of one lane in the issue slot, whose region is at service level: MFOLD.wr is privileged (R59). -/
def oneLaneService : State :=
  { oneLaneState 0 with
    wgs := [{ id := 0, gang := 0, member := 0, core := default, scratch := 0, banks := [] }]
    gangs := [{ id := 0, region := 0, g := 0, st := .running }]
    regions := [{ handle := 0, ctx := 0, asid := 0, service := true, leaf := true, parent := none, eff := {}, order := 0, launchTime := 0 }] }

/-- MFOLD.wr of the engine 0 with the configuration 0: both operands are `v0`, which reads zero. -/
def noTier : Instr := .mfoldWr h0 0 0

/-- Refutes O33: a warp at service level that lists lane 0 only takes MX_PARAM for the configuration 0, and lane 1, which reads as ready, is
not held as the clause on MFOLD.wr says. With 32 lanes it is `mfoldWrNoTier_taken`. -/
theorem not_matrixInstructions : ¬ Obligations.MatrixInstructions := by
  rintro ⟨-, -, -, -, -, -, hclaim, -⟩
  have hi : Issues noTier oneLaneService (oneLane 0) (mkIssue noTier (oneLane 0)) oneLaneService :=
    ⟨⟨rfl, by decide, rfl, rfl, rfl, rfl, by decide⟩, by decide, by decide, rfl⟩
  have hcfg : (rdV (oneLane 0) 0 (mkIssue noTier (oneLane 0)).low).setWidth 5 = 0#5 := by decide
  obtain ⟨t, w', hstep, hw', htaken, -, hmem⟩ := hclaim _ _ _ _ _ _ _ hi hcfg (by decide) rfl
  exact absurd (lanes_of_mfoldWrNoTier_taken hi hcfg (by decide) rfl ⟨t, w', hstep, hw', htaken, hmem⟩) (by decide)

end Sys2Proof.Machine
end

section
/-! The engine of a core: what its updates leave, and the operations that start, load, swap and read their operands (R237, R246 to R249,
R260 to R262). -/

namespace Sys2Proof.Machine

/-! ## One engine changed -/

theorem engineOf_of_cores {s t : State} (h : t.cores = s.cores) (c : CoreId) : engineOf t c = engineOf s c := by
  unfold engineOf State.getCore
  rw [h]

section
variable (s : State) (c : CoreId) (f : Engine → Engine)

@[simp] theorem engineOf_modEngine : engineOf (modEngine s c f) c = f (engineOf s c) := by
  unfold engineOf modEngine
  rw [getCore_modCore_self s c _ (getCore_id s c)]

theorem getCore_modEngine_ne {k : CoreId} (hk : k ≠ c) : (modEngine s c f).getCore k = s.getCore k :=
  getCore_setCore_ne s _ (by show k ≠ (s.getCore c).id; rwa [getCore_id])

/-- The scratchpad of a core is no part of its engine. -/
theorem scratch_modEngine (k : CoreId) : ((modEngine s c f).getCore k).scratch = (s.getCore k).scratch := by
  by_cases hk : k = c
  · subst hk
    rw [modEngine, getCore_modCore_self s k _ (getCore_id s k)]
  · rw [getCore_modEngine_ne s c f hk]

theorem coresKeptBut_modEngine : CoresKeptBut s (modEngine s c f) c := fun _ => getCore_modEngine_ne s c f

end

theorem queue_modOp (s : State) (c : CoreId) (w tag : Nat) (f : MxOp → MxOp) :
    (engineOf (modOp s c w tag f) c).queue = updAt (fun o => o.w == w && o.tag == tag) f (engineOf s c).queue := by
  rw [modOp, engineOf_modEngine]

theorem queue_dropOp (s : State) (c : CoreId) (w tag : Nat) :
    (engineOf (dropOp s c w tag) c).queue = (engineOf s c).queue.filter fun o => !(o.w == w && o.tag == tag) := by
  rw [dropOp, engineOf_modEngine]

/-- No entry of the queue is left of an operation that was dropped. -/
theorem not_mem_queue_dropOp (s : State) (c : CoreId) {w tag : Nat} {y : MxOp} (hy : y ∈ (engineOf (dropOp s c w tag) c).queue) :
    ¬(y.w = w ∧ y.tag = tag) := by
  rw [queue_dropOp] at hy
  rintro ⟨hw, htag⟩
  simpa [hw, htag] using (List.mem_filter.1 hy).2

/-! ## MX_OPERATION_START (R237, R246, R262) -/

/-- An operation that has started with a plane and a chain. -/
def startedOp (p : Plane) (ch : List Nat) (o : MxOp) : MxOp := { o with phase := .started, plane := some p, chain := ch }

theorem exec_mxOperationStart {s : State} {c : CoreId} {o : MxOp} {g : Workgroup} (hlive : liveTiers (engineOf s c) ≠ 0)
    (hstuck : ((engineOf s c).queue.find? fun o => o.phase != .queued && o.chain.isEmpty) = none) (hnext : nextOp (engineOf s c) = some o)
    (hmms : isMms o.kind = true) (hstores : storesBehind s o.w o.tag = true) (hg : s.getWg o.wg = some g) (hvalid : g.active.valid = true)
    (hpath : (pathOf ((wfmtOf (opBlk o).afmt).getD .f16) g.active.fmt).isSome = true) (harr : arrDown s c = false) :
    exec (.mxOperationStart c) s = .next (modOp s c o.w o.tag (startedOp g.active (chainOf (engineOf s c)))) := by
  have hwait : ¬ (liveTiers (engineOf s c) == 0 || arrDown s c) = true := by rw [beq_false_of_ne hlive, harr]; decide
  have hready : (isMms o.kind && storesBehind s o.w o.tag) = true := by rw [hmms, hstores]; rfl
  have hstart : mmsStart s c o = modOp s c o.w o.tag (startedOp g.active (chainOf (engineOf s c))) := by
    have hsome : (pathOf ((wfmtOf (opBlk o).afmt).getD .f16) g.active.fmt).isNone = false := by rw [← Option.not_isSome, hpath]; rfl
    simp only [mmsStart, hg, hvalid, hsome, Bool.not_true, Bool.false_eq_true, if_false]
    rfl
  show execMxOperationStart c s = _
  simp only [execMxOperationStart, happens, if_neg hwait, hstuck, hnext, if_pos hready, hstart]

/-! ## WLD_EXECUTE and WSWAP_EXECUTE (R260, R261) -/

/-- Without units read before, operand bytes are those that stand there now. -/
theorem withEarly_of_none {o : MxOp} (h : o.early = []) (glob : Bool) (a : Nat) (bs : List Byte) : withEarly o glob a bs = bs := by
  rw [withEarly, h]; rfl

/-- A workgroup with its shadow plane invalid, as a WLD begins to fill it. -/
def shadowInvalid (g : Workgroup) : Workgroup := { g with shadow := { g.shadow with valid := false } }

/-- The state that a WLD leaves which has read its tile and its scales. -/
def wldFilled (s : State) (c : CoreId) (o : MxOp) (va : DWord) (f : WFmt) (tile scales : List Byte) : State :=
  endCounts (dropOp (modPlanes (dropFar s o.w va.toNat (tileBytes f / 8)) o.wg fun g => { g with shadow := ⟨true, f, tile, scales⟩ }) c o.w o.tag)
    o.w o.tag

theorem exec_wldExecute {s s1 : State} {c : CoreId} {o : MxOp} {va : DWord} {f : WFmt} {sc : Word} {w : Warp} {tile : List Byte}
    {scs : List Byte × State} (hnext : nextOp (engineOf s c) = some o) (hk : o.kind = .wld va f sc) (hlive : liveTiers (engineOf s c) ≠ 0)
    (hstores : storesBehind s o.w o.tag = true) (hw : s.getWarp o.w = some w) (harr : arrDown s c = false) (hearly : o.early = [])
    (htile : tileLines (s.modWg o.wg shadowInvalid) w (s.warpAsid w) va (tileBytes f / 128) = (.done tile, s1))
    (hsc : (if sc.toNat = absent then some (List.replicate 128 127, s1) else opScratch s1 o sc.toNat 128) = some scs)
    (hgood : scs.1.contains 0xFF = false) : exec (.wldExecute ⟨c, 0⟩) s = .next (wldFilled scs.2 c o va f tile scs.1) := by
  have hid : w.id = o.w := by simpa using List.find?_some hw
  have hready : (liveTiers (engineOf s c) != 0 && !arrDown s c && storesBehind s o.w o.tag) = true := by
    rw [bne, beq_false_of_ne hlive, harr, hstores]; rfl
  have hall : ¬ ((0 : BitVec 64) != 0) = true := by decide
  have htile' : tileLines (modPlanes s o.wg fun g => { g with shadow := { g.shadow with valid := false } }) w (s.warpAsid w) va
      (tileBytes f / 128) = (.done tile, s1) := htile
  show execWldExecute ⟨c, 0⟩ s = _
  simp only [execWldExecute, happens, hnext, hk, if_pos hready, wldRun, hw, htile', hsc, if_neg hall, withEarly_of_none hearly, ite_self, hgood,
    Bool.false_eq_true, if_false, hid]
  rfl

/-- The planes of a workgroup exchanged. -/
def planesSwapped (g : Workgroup) : Workgroup := { g with active := g.shadow, shadow := g.active }

theorem exec_wswapExecute {s : State} {c : CoreId} {o : MxOp} (hnext : nextOp (engineOf s c) = some o) (hk : o.kind = .wswap)
    (hlive : liveTiers (engineOf s c) ≠ 0) (harr : arrDown s c = false) :
    exec (.wswapExecute c) s = .next ((dropOp s c o.w o.tag).modWg o.wg planesSwapped) := by
  have hready : (o.kind == .wswap && liveTiers (engineOf s c) != 0 && !arrDown s c) = true := by
    rw [hk, bne, beq_false_of_ne hlive, harr]; rfl
  show execWswapExecute c s = _
  simp only [execWswapExecute, happens, hnext, if_pos hready]
  rfl

/-! ## MX_OPERANDS_CONSUMED (R248, R249) -/

/-- What an operation reads in a scratchpad or in cluster scratch changes neither the warps nor the memory. -/
theorem warpsAndMemory_caskRead (s : State) (c : CluId) (j n : Nat) : warpsAndMemory (caskRead s c j n).2 = warpsAndMemory s := by
  induction n generalizing s j with
  | zero => rfl
  | succ n ih =>
    simp only [caskRead, ih]
    split <;> rfl

theorem warpsAndMemory_opScratch {s : State} {o : MxOp} {off n : Nat} {r : List Byte × State} (h : opScratch s o off n = some r) :
    warpsAndMemory r.2 = warpsAndMemory s := by
  simp only [opScratch, Option.bind_eq_some_iff] at h
  obtain ⟨g, -, p, -, h⟩ := h
  split at h
  · cases h
  · obtain rfl := Option.some.inj h
    cases p with
    | bank => rfl
    | cask k j => exact warpsAndMemory_caskRead s k j n

/-- Reads in sequence give one list of bytes for each range. -/
theorem opReads_kept {o : MxOp} {ts : List (Nat × Nat)} {s : State} {r : List (List Byte) × State} (h : opReads s o ts = some r) :
    warpsAndMemory r.2 = warpsAndMemory s ∧ r.1.length = ts.length := by
  induction ts generalizing s r with
  | nil =>
    obtain rfl := Option.some.inj h
    exact ⟨rfl, rfl⟩
  | cons t ts ih =>
    simp only [opReads] at h
    split at h
    · cases h
    · rename_i u hu
      obtain ⟨q, hq, rfl⟩ := Option.map_eq_some_iff.1 h
      obtain ⟨hsame, hlen⟩ := ih hq
      exact ⟨hsame.trans (warpsAndMemory_opScratch hu), congrArg (· + 1) hlen⟩

/-- Reading some units and leaving others changes neither the warps nor the memory, and nothing is counted. -/
theorem warpsAndMemory_unitsOf (s : State) (c : CoreId) (o : MxOp) (left : BitVec 64) (ts : List (Nat × Nat)) :
    warpsAndMemory (unitsOf s c o left ts) = warpsAndMemory s := by
  unfold unitsOf
  dsimp only
  split
  · rfl
  · rename_i r hr
    exact (opReads_kept hr).1

/-- The ranges of the A rows and of their scales (R243). -/
def rowSpans (b : MmsBlk) : List (Nat × Nat) := (List.range b.rows).map fun i => (b.aOff + i * b.stride, blkRow b)
def scaleSpans (b : MmsBlk) : List (Nat × Nat) := if b.sOff = absent then [] else (List.range b.rows).map fun i => (b.sOff + 4 * i, 4)

/-- An operation with its operands. -/
def consumedOp (rows scales : List (List Byte)) (o : MxOp) : MxOp := { o with phase := .consumed, rows := rows, scales := scales, early := [] }

/-- A warp whose operation has read its operands. -/
def consumedWarp (tag : Nat) (w : Warp) : Warp := countDone (modReport w tag fun y => { y with cons := true }) .mxi tag

theorem exec_mxOperandsConsumed_left (s : State) (c : CoreId) {left : BitVec 64} (hleft : left ≠ 0) :
    ∃ t, exec (.mxOperandsConsumed ⟨c, left⟩) s = .next t ∧ warpsAndMemory t = warpsAndMemory s := by
  have hleft' : (left != 0) = true := by simpa using hleft
  refine ⟨_, rfl, ?_⟩
  split
  · split
    · rfl
    · rw [consume, if_pos hleft']
      exact warpsAndMemory_unitsOf _ _ _ _ _
  · rfl

theorem exec_mxOperandsConsumed {s : State} {c : CoreId} {o : MxOp} {r q : List (List Byte) × State}
    (hfind : ((engineOf s c).queue.find? fun o => o.phase == .started) = some o) (hr : opReads s o (rowSpans (opBlk o)) = some r)
    (hq : opReads r.2 o (scaleSpans (opBlk o)) = some q) (hgood : badScale (opBlk o) (o.plane.getD {}) q.1 = false)
    (harr : arrDown s c = false) (hearly : o.early = []) : exec (.mxOperandsConsumed ⟨c, 0⟩) s =
      .next ((modOp q.2 c o.w o.tag (consumedOp r.1 q.1)).modWarp o.w (consumedWarp o.tag)) := by
  have hnow {ts : List (Nat × Nat)} {u : State} {p : List (List Byte) × State} (hp : opReads u o ts = some p) :
      ((ts.zip p.1).map fun y => withEarly o false y.1.1 y.2) = p.1 := by
    simp only [withEarly_of_none hearly]
    exact List.map_snd_zip (opReads_kept hp).2.le
  have hrows := hnow hr
  have hscales := hnow hq
  have hall : ¬ ((0 : BitVec 64) != 0) = true := by decide
  show execMxOperandsConsumed ⟨c, 0⟩ s = _
  unfold rowSpans at hr hrows
  unfold scaleSpans at hq hscales
  simp only [execMxOperandsConsumed, happens, hfind, harr, Bool.false_eq_true, if_false, consume, if_neg hall, hr, hq, hrows, hscales, hgood]
  rfl

/-! ## Contributions that have all been applied (R248, R256) -/

/-- A warp whose operation is done. -/
def doneWarp (tag : Nat) (fold : Word) (w : Warp) : Warp :=
  countDone { modReport w tag (fun r => { r with done := true }) with fold := fold } .mx tag

/-- An engine without an operation that waits for its contributions. -/
def withoutDraining (d : MxOp × Word) (e : Engine) : Engine := { e with draining := e.draining.filter (· != d) }

theorem exec_mxDone_of_applied {s : State} {c : CoreId} {d : MxOp × Word}
    (hfind : ((engineOf s c).draining.find? fun d => !contribPending s d.1.w .mx d.1.tag) = some d) :
    exec (.mxDone c) s =
      .next ((modEngine s c (withoutDraining d)).modWarp d.1.w (doneWarp d.1.tag d.2)) := by
  show execMxDone c s = _
  simp only [execMxDone, happens, hfind]
  rfl

end Sys2Proof.Machine
end

section
/-! The FP32 tile of an MMS (R243, R251): the bytes of a workgroup's banks (R181, R182), one row after another. -/

namespace Sys2Proof.Machine

/-! ## What a write in a scratchpad leaves -/

/-- A state after writes in scratchpads. -/
def ScratchOnly (s t : State) : Prop := t = { s with cores := t.cores } ∧ ∀ c, engineOf t c = engineOf s c

theorem ScratchOnly.refl (s : State) : ScratchOnly s s := ⟨rfl, fun _ => rfl⟩

theorem ScratchOnly.trans {s t u : State} (h : ScratchOnly s t) (h' : ScratchOnly t u) : ScratchOnly s u := by
  obtain ⟨e, heng⟩ := h
  obtain ⟨e', heng'⟩ := h'
  exact ⟨by rw [e', e], fun c => (heng' c).trans (heng c)⟩

theorem ScratchOnly.getWg {s t : State} (h : ScratchOnly s t) (k : Nat) : t.getWg k = s.getWg k := by rw [h.1]; rfl

theorem scratchOnly_bankWrite (s : State) (k x : Nat) (bs : List Byte) : ScratchOnly s (bankWrite s k x bs) := by
  unfold bankWrite
  split
  · rename_i g _
    refine ⟨rfl, fun c => ?_⟩
    unfold engineOf
    by_cases hc : c = g.core
    · subst hc
      rw [getCore_modCore_self s g.core _ (getCore_id s g.core)]
    · rw [State.modCore, getCore_setCore_ne s _ (by show c ≠ (s.getCore g.core).id; rwa [getCore_id])]
  · exact .refl s

/-! ## Bytes in the banks of a workgroup (R181, R182) -/

/-- A scratchpad offset stands in one place: the banks of a workgroup are different ones. -/
theorem bankKey_inj {g : Workgroup} (hbanks : g.banks.Nodup) {x y : Nat} (hx : x < 0x4000 * g.banks.length) (hy : y < 0x4000 * g.banks.length)
    (h : bankKey g x = bankKey g y) : x = y := by
  have hxb : x / 0x4000 < g.banks.length := Nat.div_lt_of_lt_mul hx
  have hyb : y / 0x4000 < g.banks.length := Nat.div_lt_of_lt_mul hy
  simp only [bankKey, List.getElem?_eq_getElem hxb, List.getElem?_eq_getElem hyb, Option.getD_some] at h
  have hbank : g.banks[x / 0x4000] = g.banks[y / 0x4000] := by omega
  have hidx := (hbanks.getElem_inj_iff).1 hbank
  omega

/-- The byte at an offset of a workgroup's scratchpad. -/
def bankByte (s : State) (g : Workgroup) (x : Nat) : Byte := sget 0 (s.getCore g.core).scratch (bankKey g x)

theorem bankRead_eq {s : State} {k : Nat} {g : Workgroup} (hg : s.getWg k = some g) (x n : Nat) :
    bankRead s k x n = (List.range n).map fun i => bankByte s g (x + i) := by simp only [bankRead, hg]; rfl

/-- A part of the bytes read is what is read there. -/
theorem drop_take_bankRead {s : State} {k : Nat} {g : Workgroup} (hg : s.getWg k = some g) (x : Nat) {n d m : Nat} (h : d + m ≤ n) :
    ((bankRead s k x n).drop d).take m = bankRead s k (x + d) m := by
  simp only [bankRead_eq hg]
  refine List.ext_getElem (by simp; omega) fun i _ _ => ?_
  simp [Nat.add_assoc]

theorem sget_bankPut {g : Workgroup} (hbanks : g.banks.Nodup) {y : Nat} (hy : y < 0x4000 * g.banks.length) (m : Sparse Byte) (x : Nat)
    (bs : List Byte) (hx : x + bs.length ≤ 0x4000 * g.banks.length) : sget 0 (bankPut g m x bs) (bankKey g y) =
      if x ≤ y ∧ y < x + bs.length then (bs[y - x]?).getD 0 else sget 0 m (bankKey g y) := by
  induction bs generalizing m x with
  | nil => rw [if_neg (by simp)]; rfl
  | cons b bs ih =>
    rw [List.length_cons] at hx ⊢
    rw [bankPut, ih _ _ (by omega), sget_sput]
    by_cases hfirst : y = x
    · subst hfirst
      rw [if_neg (by omega), if_pos rfl, if_pos (by omega), Nat.sub_self]; rfl
    · have hkey : bankKey g y ≠ bankKey g x := fun h => hfirst (bankKey_inj hbanks hy (by omega) h)
      rw [if_neg hkey]
      by_cases hin : x + 1 ≤ y ∧ y < x + 1 + bs.length
      · rw [if_pos hin, if_pos (by omega), show y - x = y - (x + 1) + 1 by omega, List.getElem?_cons_succ]
      · rw [if_neg hin, if_neg (by omega)]

section
variable {s : State} {k : Nat} {g : Workgroup} (hg : s.getWg k = some g) (hbanks : g.banks.Nodup)
include hg hbanks

theorem bankByte_bankWrite {x y : Nat} {bs : List Byte} (hx : x + bs.length ≤ 0x4000 * g.banks.length) (hy : y < 0x4000 * g.banks.length) :
    bankByte (bankWrite s k x bs) g y = if x ≤ y ∧ y < x + bs.length then (bs[y - x]?).getD 0 else bankByte s g y := by
  have hwrite : bankWrite s k x bs = s.modCore g.core fun c => { c with scratch := bankPut g c.scratch x bs } := by simp only [bankWrite, hg]
  rw [bankByte, hwrite, getCore_modCore_self s g.core _ (getCore_id s g.core)]
  exact sget_bankPut hbanks hy _ x bs hx

/-- Bytes written are read back where they stand. -/
theorem bankRead_bankWrite_in {x d n : Nat} {bs : List Byte} (hx : x + bs.length ≤ 0x4000 * g.banks.length) (hin : d + n ≤ bs.length) :
    bankRead (bankWrite s k x bs) k (x + d) n = (bs.drop d).take n := by
  have hg' : (bankWrite s k x bs).getWg k = some g := ((scratchOnly_bankWrite s k x bs).getWg k).trans hg
  rw [bankRead_eq hg']
  refine List.ext_getElem (by simp; omega) fun i hi _ => ?_
  have hi' : i < n := by simpa using hi
  have hlt : d + i < bs.length := by omega
  have hidx : x + d + i - x = d + i := by omega
  rw [List.getElem_map, List.getElem_range, bankByte_bankWrite hg hbanks hx (by omega), if_pos (by omega), hidx]
  simp [hlt]

/-- The bytes beside them are as they were. -/
theorem bankRead_bankWrite_out {x y n : Nat} {bs : List Byte} (hx : x + bs.length ≤ 0x4000 * g.banks.length)
    (hy : y + n ≤ 0x4000 * g.banks.length) (hout : y + n ≤ x ∨ x + bs.length ≤ y) :
    bankRead (bankWrite s k x bs) k y n = bankRead s k y n := by
  have hg' : (bankWrite s k x bs).getWg k = some g := ((scratchOnly_bankWrite s k x bs).getWg k).trans hg
  rw [bankRead_eq hg', bankRead_eq hg]
  refine List.map_congr_left fun i hi => ?_
  have hi' : i < n := List.mem_range.1 hi
  rw [bankByte_bankWrite hg hbanks hx (by omega), if_neg (by omega)]

end

/-! ## Rows of an FP32 tile (R251) -/

/-- Of pieces of one length, one after another, each is found at its place. -/
theorem drop_take_flatMap_range {α : Type} {f : Nat → List α} {n : Nat} (hf : ∀ i, (f i).length = n) {j m : Nat} (hj : j < m) :
    (((List.range m).flatMap f).drop (n * j)).take n = f j := by
  have hbefore : ((List.range j).flatMap f).length = n * j := by simp [List.length_flatMap, hf, Nat.mul_comm]
  obtain ⟨r, rfl⟩ := Nat.exists_eq_add_of_lt hj
  rw [show j + r + 1 = j + (r + 1) by omega, List.range_add, List.flatMap_append, List.drop_left' hbefore, List.range_succ_eq_map,
    List.map_cons, List.flatMap_cons, Nat.add_zero, List.take_left' (hf j)]

/-- An element of the tile with the sum of its slices added. -/
def tileElem (k : MmsWork) (i j : Nat) (old : List Byte) : List Byte :=
  leBytes 4 (faddBits .f32 .rne false (leNat old) (roundElem k.order ((k.rows[i]?).getD []) (columnOf k.cols j))).1

theorem tileElem_length (k : MmsWork) (i j : Nat) (old : List Byte) : (tileElem k i j old).length = 4 := leBytes_length _ _

/-- A row of the tile after the step. -/
def newRow (k : MmsWork) (i : Nat) (old : List Byte) : List Byte :=
  (List.range 32).flatMap fun j => tileElem k i j ((old.drop (4 * j)).take 4)

theorem newRow_length (k : MmsWork) (i : Nat) (old : List Byte) : (newRow k i old).length = 128 := by
  simp [newRow, List.length_flatMap, tileElem_length]

/-- The offset of a row. -/
def rowOff (k : MmsWork) (i : Nat) : Nat := k.b.dest + i * k.b.dstride

/-- A tile that lies in the scratchpad of its workgroup, with rows that do not overlap and banks that are different ones. -/
structure TileFits (k : MmsWork) (g : Workgroup) : Prop where
  inside : k.b.dest + blkDstSpan k.b ≤ g.scratch
  small : g.scratch ≤ 0x80000
  apart : 128 ≤ k.b.dstride
  banked : g.scratch ≤ 0x4000 * g.banks.length
  nodup : g.banks.Nodup

theorem TileFits.rowOff_le {k : MmsWork} {g : Workgroup} (h : TileFits k g) {i : Nat} (hi : i < k.b.rows) : rowOff k i + 128 ≤ g.scratch := by
  have hspan := h.inside
  have hrow : i * k.b.dstride ≤ (k.b.rows - 1) * k.b.dstride := Nat.mul_le_mul_right _ (by omega)
  unfold blkDstSpan at hspan
  unfold rowOff
  omega

theorem TileFits.rowOff_lt {k : MmsWork} {g : Workgroup} (h : TileFits k g) {i j : Nat} (hij : i < j) : rowOff k i + 128 ≤ rowOff k j := by
  have hstep : (i + 1) * k.b.dstride ≤ j * k.b.dstride := Nat.mul_le_mul_right _ hij
  have hapart := h.apart
  rw [Nat.add_mul, Nat.one_mul] at hstep
  unfold rowOff
  omega

section
variable {o : MxOp} {k : MmsWork} {g : Workgroup} (hfit : TileFits k g)
include hfit

theorem tileRow_eq {s : State} (hg : s.getWg o.wg = some g) {i : Nat} (hi : i < k.b.rows) :
    tileRow s o k i = bankWrite s o.wg (rowOff k i) (newRow k i (bankRead s o.wg (rowOff k i) 128)) := by
  have hid : g.id = o.wg := by simpa using List.find?_some hg
  have hin := hfit.rowOff_le hi
  have hplace : scratchPlace s g (rowOff k i) 128 = some (.bank o.wg (rowOff k i)) := by
    have hsmall := hfit.small
    rw [scratchPlace, if_pos (by omega), if_pos hin, hid]
  unfold rowOff at hplace
  simp only [tileRow, hg, Option.bind_some, hplace]
  rfl

theorem scratchOnly_tileRow {s : State} (hg : s.getWg o.wg = some g) {i : Nat} (hi : i < k.b.rows) : ScratchOnly s (tileRow s o k i) := by
  rw [tileRow_eq hfit hg hi]
  exact scratchOnly_bankWrite _ _ _ _

/-- A row reads its old elements with the sums added, and every other row reads as before. -/
theorem bankRead_tileRow {s : State} (hg : s.getWg o.wg = some g) {i l j : Nat} (hi : i < k.b.rows) (hl : l < k.b.rows) (hj : j < 32) :
    bankRead (tileRow s o k i) o.wg (rowOff k l + 4 * j) 4 =
      if l = i then tileElem k i j (bankRead s o.wg (rowOff k l + 4 * j) 4) else bankRead s o.wg (rowOff k l + 4 * j) 4 := by
  have hbanked := hfit.banked
  have hini := hfit.rowOff_le hi
  have hinl := hfit.rowOff_le hl
  have hlen := newRow_length k i (bankRead s o.wg (rowOff k i) 128)
  rw [tileRow_eq hfit hg hi]
  split
  · rename_i hli
    subst hli
    rw [bankRead_bankWrite_in hg hfit.nodup (by omega) (by omega), newRow, drop_take_flatMap_range (fun _ => tileElem_length _ _ _ _) hj,
      drop_take_bankRead hg _ (by omega)]
  · rename_i hli
    have hapart : rowOff k l + 128 ≤ rowOff k i ∨ rowOff k i + 128 ≤ rowOff k l :=
      (Nat.lt_or_gt_of_ne hli).imp hfit.rowOff_lt hfit.rowOff_lt
    exact bankRead_bankWrite_out hg hfit.nodup (by omega) (by omega) (by omega)

/-- The first rows of a tile, one after another. -/
theorem tileRows_done {s : State} (hg : s.getWg o.wg = some g) {n : Nat} (hn : n ≤ k.b.rows) :
    ScratchOnly s ((List.range n).foldl (fun acc i => tileRow acc o k i) s) ∧
      ∀ l j, l < k.b.rows → j < 32 →
        bankRead ((List.range n).foldl (fun acc i => tileRow acc o k i) s) o.wg (rowOff k l + 4 * j) 4 =
          if l < n then tileElem k l j (bankRead s o.wg (rowOff k l + 4 * j) 4) else bankRead s o.wg (rowOff k l + 4 * j) 4 := by
  induction n with
  | zero => exact ⟨.refl s, fun l j _ _ => rfl⟩
  | succ n ih =>
    obtain ⟨honly, hread⟩ := ih (by omega)
    rw [List.range_succ, List.foldl_append, List.foldl_cons, List.foldl_nil]
    generalize (List.range n).foldl (fun acc i => tileRow acc o k i) s = u at honly hread
    have hgu : u.getWg o.wg = some g := (honly.getWg _).trans hg
    refine ⟨honly.trans (scratchOnly_tileRow hfit hgu (by omega)), fun l j hl hj => ?_⟩
    rw [bankRead_tileRow hfit hgu (by omega) hl hj, hread l j hl hj]
    by_cases hln : l = n
    · subst hln
      rw [if_pos rfl, if_neg (by omega), if_pos (by omega)]
    · rw [if_neg hln]
      exact if_congr (by omega) rfl rfl

end

/-! ## The passes of an operation with an FP32 tile end (R251, R256) -/

/-- The report of an operation with its fold report. -/
def foldedWarp (tag : Nat) (report : Word) (w : Warp) : Warp := modReport w tag fun r => { r with fold := report }

/-- The state in which the rows are written: the operation has left the queue. -/
def tileBase (s : State) (c : CoreId) (o : MxOp) : State := dropOp (s.modWarp o.w (foldedWarp o.tag (mmsWork s o).report)) c o.w o.tag

/-- The state in which all rows have been written. -/
def tileWritten (s : State) (c : CoreId) (o : MxOp) : State :=
  (List.range (mmsWork s o).b.rows).foldl (fun acc i => tileRow acc o (mmsWork s o) i) (tileBase s c o)

theorem exec_mxDone_of_tile {s : State} {c : CoreId} {o : MxOp}
    (hnone : ((engineOf s c).draining.find? fun d => !contribPending s d.1.w .mx d.1.tag) = none) (harr : arrDown s c = false)
    (hfind : ((engineOf s c).queue.find? fun o => o.phase == .consumed) = some o) (hchain : o.chain ≠ []) (hbusy : tileBusy s o = false)
    (hkind : (mmsWork s o).b.dkind = 1) :
    exec (.mxDone c) s = .next ((tileWritten s c o).modWarp o.w (doneWarp o.tag (mmsWork s o).report)) := by
  have hgoes : ¬ (o.chain.isEmpty || tileBusy s o || arrDown s c) = true := by simp [hchain, hbusy, harr]
  have hkind' : ¬ (mmsWork s o).b.dkind = 0 := by omega
  show execMxDone c s = _
  simp only [execMxDone, happens, hnone, hfind, if_neg hgoes, finishPasses, if_neg hkind']
  rfl

/-- The scratchpads are as they were when the rows are written. -/
theorem bankRead_tileBase (s : State) (c : CoreId) (o : MxOp) (k x n : Nat) : bankRead (tileBase s c o) k x n = bankRead s k x n := by
  have hgetWg : (tileBase s c o).getWg k = s.getWg k := rfl
  unfold bankRead
  rw [hgetWg]
  cases s.getWg k with
  | none => rfl
  | some g =>
    dsimp only
    rw [tileBase, dropOp, scratch_modEngine]
    rfl

theorem scratchOnly_tileWritten {s : State} {c : CoreId} {o : MxOp} {g : Workgroup} (hg : s.getWg o.wg = some g)
    (hfit : TileFits (mmsWork s o) g) : ScratchOnly (tileBase s c o) (tileWritten s c o) :=
  (tileRows_done hfit (s := tileBase s c o) hg le_rfl).1

/-- The tile reads its old elements with the sums of the operation added. -/
theorem bankRead_tileWritten {s : State} {c : CoreId} {o : MxOp} {g : Workgroup} (hg : s.getWg o.wg = some g) (hfit : TileFits (mmsWork s o) g)
    {i j : Nat} (hi : i < (mmsWork s o).b.rows) (hj : j < 32) :
    bankRead (tileWritten s c o) g.id (rowOff (mmsWork s o) i + 4 * j) 4 =
      tileElem (mmsWork s o) i j (bankRead s g.id (rowOff (mmsWork s o) i + 4 * j) 4) := by
  have hid : g.id = o.wg := by simpa using List.find?_some hg
  have hread := (tileRows_done hfit (s := tileBase s c o) hg le_rfl).2 i j hi hj
  rw [tileWritten, hid, hread, if_pos hi, bankRead_tileBase]

end Sys2Proof.Machine
end

section
/-! Failed tiers and resets of an engine (R237, R256, R258, R264, R265), and the events of the engine together. -/

namespace Sys2Proof.Machine

/-! ## Failed tiers (R256, R264) -/

/-- A state after changes of one core and of the package's note that a spare has been used (R461). -/
def CoreOnly (c : CoreId) (s t : State) : Prop := t = { s with cores := t.cores, degraded := t.degraded } ∧ CoresKeptBut s t c

theorem CoreOnly.trans {c : CoreId} {s t u : State} (h : CoreOnly c s t) (h' : CoreOnly c t u) : CoreOnly c s u := by
  obtain ⟨e, hcores⟩ := h
  obtain ⟨e', hcores'⟩ := h'
  exact ⟨by rw [e', e], fun k hk => (hcores' k hk).trans (hcores k hk)⟩

theorem coreOnly_modEngine (s : State) (c : CoreId) (f : Engine → Engine) : CoreOnly c s (modEngine s c f) :=
  ⟨rfl, coresKeptBut_modEngine s c f⟩

/-- An engine whose spare tier has come in (R461). -/
def spareIn (e : Engine) : Engine := { e with cfg := (e.cfg ||| 0b10000) &&& ~~~ e.fail }

/-- A spare tier changes the configuration of the engine and nothing else of it. -/
theorem spareTier_kept (s : State) (c : CoreId) (gone : BitVec 5) :
    CoreOnly c s (spareTier s c gone) ∧ ∃ cfg, engineOf (spareTier s c gone) c = { engineOf s c with cfg := cfg } := by
  unfold spareTier
  dsimp only
  split
  · exact ⟨⟨rfl, fun _ _ => rfl⟩, _, rfl⟩
  · split
    · exact ⟨⟨rfl, fun _ _ => rfl⟩, _, rfl⟩
    · exact ⟨⟨rfl, coresKeptBut_modEngine s c spareIn⟩, _, engineOf_modEngine s c spareIn⟩

/-- An operation restarted on the chain that is left, when its own has lost a tier. -/
def rechained (gone : BitVec 5) (e : Engine) (o : MxOp) : MxOp :=
  if o.chain.any fun t => gone.getLsbD t then { o with chain := chainOf e } else o

/-- An engine with tiers found failed, and with the operations that used them restarted. -/
def tiersLost (gone : BitVec 5) (e : Engine) : Engine := { e with fail := e.fail ||| gone }
def restarted (gone : BitVec 5) (e : Engine) : Engine := { e with queue := e.queue.map (rechained gone e) }

theorem tiersFail_eq (s : State) (c : CoreId) (gone : BitVec 5) :
    tiersFail s c gone = modEngine (spareTier (modEngine s c (tiersLost gone)) c gone) c (restarted gone) := rfl

theorem tiersFail_kept (s : State) (c : CoreId) (gone : BitVec 5) : CoreOnly c s (tiersFail s c gone) ∧
    ∃ cfg, engineOf (tiersFail s c gone) c = restarted gone { tiersLost gone (engineOf s c) with cfg := cfg } := by
  obtain ⟨honly, cfg, he⟩ := spareTier_kept (modEngine s c (tiersLost gone)) c gone
  rw [engineOf_modEngine] at he
  rw [tiersFail_eq]
  exact ⟨((coreOnly_modEngine s c _).trans honly).trans (coreOnly_modEngine _ c _), cfg, by rw [engineOf_modEngine, he]⟩

/-- A tier that has failed stands in no chain. -/
theorem not_mem_chainOf_of_fail {e : Engine} {tier : Nat} (h : e.fail.getLsbD tier = true) : tier ∉ chainOf e := by
  simp [chainOf, liveTiers, h]

theorem not_mem_chain_rechained {gone : BitVec 5} {e : Engine} {tier : Nat} (hgone : gone.getLsbD tier = true) (hfail : e.fail.getLsbD tier = true)
    (o : MxOp) : tier ∉ (rechained gone e o).chain := by
  unfold rechained
  split
  · exact not_mem_chainOf_of_fail hfail
  · rename_i hnone
    exact fun hmem => hnone (List.any_eq_true.2 ⟨tier, hmem, hgone⟩)

theorem replaceSpent_of_tier {s : State} {c : CoreId} (h : tiersSpent (engineOf s c) = false) : replaceSpent s c = s := by
  rw [replaceSpent, h]; rfl

theorem exec_tierFailure {s : State} {c : CoreId} {tier : Nat} (htier : tier < 5)
    (hleft : (engineOf s c).fail ||| (1#5 <<< tier) ≠ 0b11111) : exec (.tierFailure c tier) s = .next (tiersFail s c (1#5 <<< tier)) := by
  obtain ⟨-, cfg, he⟩ := tiersFail_kept s c (1#5 <<< tier)
  have hgo : tiersSpent (engineOf (tiersFail s c (1#5 <<< tier)) c) = false := by rw [he]; exact beq_false_of_ne hleft
  show execTierFailure c tier s = _
  rw [execTierFailure, if_neg (by omega), replaceSpent_of_tier hgo]
  rfl

theorem getLsbD_one_shiftLeft_self {tier : Nat} (h : tier < 5) : (1#5 <<< tier).getLsbD tier = true := by simp [h]

/-! ## Planes through a trap (R163) -/

/-- A workgroup without what a trap that goes to service level writes. -/
def unended (g : Workgroup) : Workgroup := { g with ended := none, draining := false, lfm := 0 }

/-- The workgroups of two states differ in nothing but how they have ended. -/
def SameButEnds (s t : State) : Prop := t.wgs.map unended = s.wgs.map unended

theorem SameButEnds.trans {s t u : State} (h : SameButEnds s t) (h' : SameButEnds t u) : SameButEnds s u := Eq.trans h' h

theorem sameButEnds_modWg (s : State) (n : Nat) {f : Workgroup → Workgroup} (h : ∀ g, unended (f g) = unended g) :
    SameButEnds s (s.modWg n f) := map_updAt _ h _

theorem sameButEnds_serviceTrap (s : State) (n : Nat) (t : Trap) (double : Bool) : SameButEnds s (serviceTrap s n t double) := by
  unfold serviceTrap
  split
  · exact rfl
  · dsimp only
    rw [noteEnd_state]
    exact sameButEnds_modWg s _ fun _ => rfl

theorem sameButEnds_takeTrap (s : State) (n : Nat) (t : Trap) (resume : Nat → Lane → DWord) : SameButEnds s (takeTrap s n t resume) := by
  unfold takeTrap
  split
  · exact rfl
  · dsimp only
    split
    · exact rfl
    · split
      · exact sameButEnds_serviceTrap _ _ _ _
      · exact rfl

theorem sameButEnds_deliverPending (s : State) (n : Nat) : SameButEnds s (deliverPending s n) := by
  unfold deliverPending
  split
  · exact rfl
  · split
    · exact sameButEnds_serviceTrap _ _ _ _
    · exact rfl
    · split
      · exact rfl
      · exact SameButEnds.trans (t := s.setWarp _) rfl (sameButEnds_takeTrap _ _ _ _)

theorem sameButEnds_deferTrap (s : State) (n : Nat) (t : Trap) : SameButEnds s (deferTrap s n t) := by
  unfold deferTrap lateTrap
  split
  · exact rfl
  · dsimp only
    split
    · exact rfl
    · split
      · exact sameButEnds_serviceTrap _ _ _ _
      · exact SameButEnds.trans (t := s.setWarp _) rfl (sameButEnds_deliverPending _ _)

/-- A workgroup found before is found after, with the same planes. -/
theorem SameButEnds.getWg {s t : State} (h : SameButEnds s t) {k : Nat} {g : Workgroup} (hg : s.getWg k = some g) :
    ∃ g', t.getWg k = some g' ∧ g'.active = g.active ∧ g'.shadow = g.shadow := by
  have hfind (u : State) : (u.wgs.map unended).find? (fun y => y.id == k) = (u.getWg k).map unended := List.find?_map
  have heq : (t.getWg k).map unended = (s.getWg k).map unended := by rw [← hfind, ← hfind, h]
  rw [hg] at heq
  obtain ⟨g', hg', he⟩ := Option.map_eq_some_iff.1 heq
  exact ⟨g', hg', congrArg (·.active) he, congrArg (·.shadow) he⟩

/-! ## Resets (R258, R265) -/

/-- The cores, the workgroups and the memory. -/
def coresGroupsMemory (s : State) : List Core × List Workgroup × Sparse Byte := (s.cores, s.wgs, s.mem)

/-- Operations removed from an engine leave its queue, and nothing else of it, of the workgroups or of memory has changed. -/
theorem removeOps_kept (c : CoreId) (ops : List MxOp) (s : State) :
    (ops.foldl (fun acc o => removeOp acc c o false) s).wgs = s.wgs ∧ (ops.foldl (fun acc o => removeOp acc c o false) s).mem = s.mem ∧
      engineOf (ops.foldl (fun acc o => removeOp acc c o false) s) c =
        { engineOf s c with queue := (engineOf s c).queue.filter fun y => ops.all fun o => !(y.w == o.w && y.tag == o.tag) } := by
  induction ops generalizing s with
  | nil => exact ⟨rfl, rfl, by simp⟩
  | cons o ops ih =>
    have hone : coresGroupsMemory (removeOp s c o false) = coresGroupsMemory (dropOp s c o.w o.tag) := by
      unfold removeOp
      dsimp only
      split <;> rfl
    have hcores : (removeOp s c o false).cores = (dropOp s c o.w o.tag).cores := congrArg Prod.fst hone
    have hwgs : (removeOp s c o false).wgs = s.wgs := congrArg (fun p => p.2.1) hone
    have hmem : (removeOp s c o false).mem = s.mem := congrArg (fun p => p.2.2) hone
    obtain ⟨hw, hm, he⟩ := ih (removeOp s c o false)
    refine ⟨hw.trans hwgs, hm.trans hmem, he.trans ?_⟩
    rw [engineOf_of_cores hcores, dropOp, engineOf_modEngine]
    simp only [List.filter_filter, List.all_cons, Bool.and_comm]

/-- All of them removed leave the queue empty. -/
theorem filter_all_self (q : List MxOp) : (q.filter fun y => q.all fun o => !(y.w == o.w && y.tag == o.tag)) = [] :=
  List.filter_eq_nil_iff.2 fun y hy hall => by simpa using List.all_eq_true.1 hall y hy

/-- Planes made invalid in some workgroups. -/
def planesLost (g : Workgroup) : Workgroup := { g with active := {}, shadow := {} }

theorem planesLost_getWg {vs : List Nat} {s : State} {k : Nat} {g : Workgroup} (hg : s.getWg k = some g) :
    ∃ g', (vs.foldl (fun acc v => modPlanes acc v planesLost) s).getWg k = some g' ∧
      (k ∈ vs ∨ (g.active.valid = false ∧ g.shadow.valid = false) → g'.active.valid = false ∧ g'.shadow.valid = false) := by
  induction vs generalizing s g with
  | nil => exact ⟨g, hg, fun h => h.resolve_left List.not_mem_nil⟩
  | cons v vs ih =>
    rw [List.foldl_cons]
    by_cases hv : k = v
    · subst hv
      have hg1 : (modPlanes s k planesLost).getWg k = some (planesLost g) := by
        rw [modPlanes, getWg_modWg_self s k planesLost fun _ => rfl, hg]; rfl
      obtain ⟨g', hg', hlost⟩ := ih hg1
      exact ⟨g', hg', fun _ => hlost (.inr ⟨rfl, rfl⟩)⟩
    · have hg1 : (modPlanes s v planesLost).getWg k = some g := by
        rw [modPlanes, getWg_modWg_ne s planesLost (fun _ => rfl) hv]; exact hg
      obtain ⟨g', hg', hlost⟩ := ih hg1
      exact ⟨g', hg', fun h => hlost (h.imp_left fun hm => (List.mem_cons.1 hm).resolve_left hv)⟩

/-- A state in which one victim warp has been given its trap. -/
def victimTrapped (e : Engine) (s : State) (w : Nat) : State :=
  match victimTrap (warpOps e w) with
  | some p => deferTrap s w p
  | none => s

/-- The traps of the victims change no core and no byte of memory, and nothing of a workgroup but how it ends. -/
theorem victimTrapped_kept (e : Engine) (ws : List Nat) (s : State) : (ws.foldl (victimTrapped e) s).cores = s.cores ∧
    (ws.foldl (victimTrapped e) s).mem = s.mem ∧ SameButEnds s (ws.foldl (victimTrapped e) s) := by
  induction ws generalizing s with
  | nil => exact ⟨rfl, rfl, rfl⟩
  | cons w ws ih =>
    obtain ⟨hcores, hmem, hends⟩ := ih (victimTrapped e s w)
    have hone : (victimTrapped e s w).cores = s.cores ∧ (victimTrapped e s w).mem = s.mem ∧ SameButEnds s (victimTrapped e s w) := by
      unfold victimTrapped
      split
      · exact ⟨by rw [deferTrap_state], deferTrap_mem _ _ _, sameButEnds_deferTrap _ _ _⟩
      · exact ⟨rfl, rfl, rfl⟩
    obtain ⟨hcores1, hmem1, hends1⟩ := hone
    exact ⟨hcores.trans hcores1, hmem.trans hmem1, hends1.trans hends⟩

/-- A warp whose operation was in flight when its engine was reset. -/
def resetWarp (tag : Nat) (w : Warp) : Warp :=
  countDone { modReport w tag (fun r => { r with reset := true, done := true }) with fold := 0 } .mx tag

/-- An owner of contributions is a warp of one of the workgroups. -/
def ownedBy (s : State) (vs : List Nat) (o : Nat × Nat) : Bool := s.warps.any fun w => w.id == o.1 && vs.contains w.wg

/-- The operations of an engine removed from it, and their warps told. -/
def opsRemoved (s : State) (c : CoreId) : State :=
  (engineOf s c).draining.foldl (fun acc d => acc.modWarp d.1.w (resetWarp d.1.tag))
    ((engineOf s c).queue.foldl (fun acc o => removeOp acc c o false) s)

theorem opsRemoved_kept (s : State) (c : CoreId) : (opsRemoved s c).wgs = s.wgs ∧ (opsRemoved s c).mem = s.mem ∧
    engineOf (opsRemoved s c) c = { engineOf s c with queue := [] } := by
  obtain ⟨hwgs, hmem, he⟩ := removeOps_kept c (engineOf s c).queue s
  have hsame : coresGroupsMemory (opsRemoved s c) =
      coresGroupsMemory ((engineOf s c).queue.foldl (fun acc o => removeOp acc c o false) s) := foldl_keeps (by exact fun _ _ => rfl) _ _
  have hcores : (opsRemoved s c).cores = _ := congrArg Prod.fst hsame
  have hwgs' : (opsRemoved s c).wgs = _ := congrArg (fun p => p.2.1) hsame
  have hmem' : (opsRemoved s c).mem = _ := congrArg (fun p => p.2.2) hsame
  rw [filter_all_self] at he
  exact ⟨hwgs'.trans hwgs, hmem'.trans hmem, (engineOf_of_cores hcores c).trans he⟩

/-- An engine without the contributions that some owners have not delivered. -/
def undelivered (mine : Nat × Nat → Bool) (e : Engine) : Engine :=
  { e with draining := [], buffer := e.buffer.filterMap (dropParts mine) }

/-- A state without the contributions of some owners, buffered or on their way. -/
def contribsLost (mine : Nat × Nat → Bool) (s : State) (c : CoreId) : State :=
  { modEngine s c (undelivered mine) with contribs := s.contribs.filterMap (dropContrib mine) }

/-- A reset removes the operations, then their contributions, then the planes of their workgroups, and then posts the traps (R258). -/
theorem resetEngine_eq (s : State) (c : CoreId) : resetEngine s c =
    ((liveOps (engineOf s c)).map (·.w)).eraseDups.foldl (victimTrapped (engineOf s c))
      ((victims (engineOf s c)).foldl (fun acc v => modPlanes acc v planesLost)
        (contribsLost (ownedBy s (victims (engineOf s c))) (opsRemoved s c) c)) := rfl

/-- What a reset leaves of the engine's queue, of its list of resets, of memory, and of the planes of the victims. -/
theorem resetEngine_kept (s : State) (c : CoreId) : (engineOf (resetEngine s c) c).queue = [] ∧
    (engineOf (resetEngine s c) c).mrst = (engineOf s c).mrst ∧ (resetEngine s c).mem = s.mem ∧
    ∀ o g, o ∈ (engineOf s c).queue → s.getWg o.wg = some g →
      ∃ g', (resetEngine s c).getWg o.wg = some g' ∧ g'.active.valid = false ∧ g'.shadow.valid = false := by
  obtain ⟨hwgs, hmem, he⟩ := opsRemoved_kept s c
  let u := contribsLost (ownedBy s (victims (engineOf s c))) (opsRemoved s c) c
  let p := (victims (engineOf s c)).foldl (fun acc v => modPlanes acc v planesLost) u
  have heng : engineOf u c = undelivered (ownedBy s (victims (engineOf s c))) { engineOf s c with queue := [] } :=
    (engineOf_modEngine (opsRemoved s c) c _).trans (by rw [he])
  have hplanes : (fun t : State => (t.cores, t.mem)) p = (u.cores, u.mem) :=
    foldl_keeps (F := fun t : State => (t.cores, t.mem)) (by exact fun _ _ => rfl) _ _
  obtain ⟨hcores, hmem', hends⟩ := victimTrapped_kept (engineOf s c) ((liveOps (engineOf s c)).map (·.w)).eraseDups p
  rw [← resetEngine_eq] at hcores hmem' hends
  have heng' : engineOf (resetEngine s c) c = engineOf u c := engineOf_of_cores (hcores.trans (congrArg Prod.fst hplanes)) c
  refine ⟨by rw [heng', heng]; rfl, by rw [heng', heng]; rfl, hmem'.trans ((congrArg Prod.snd hplanes).trans hmem), fun o g ho hg => ?_⟩
  have hg' : u.getWg o.wg = some g := by
    show (opsRemoved s c).wgs.find? _ = _
    rw [hwgs]; exact hg
  have hvictim : o.wg ∈ victims (engineOf s c) := by
    simp only [victims, liveOps, List.mem_eraseDups, List.mem_map, List.mem_append]
    exact ⟨o, .inr ho, rfl⟩
  obtain ⟨g1, hg1, hlost⟩ := planesLost_getWg (vs := victims (engineOf s c)) hg'
  obtain ⟨hactive, hshadow⟩ := hlost (.inl hvictim)
  obtain ⟨g2, hg2, ha, hs⟩ := hends.getWg hg1
  exact ⟨g2, hg2, by rw [ha, hactive], by rw [hs, hshadow]⟩

/-- A self-test changes the engine's tiers and the chains of its operations, and no workgroup and no byte of memory (R265). -/
theorem selfTest_kept (s : State) (c : CoreId) : (selfTest s c).wgs = s.wgs ∧ (selfTest s c).mem = s.mem ∧
    ((engineOf s c).queue = [] → (engineOf (selfTest s c) c).queue = []) ∧ (engineOf (selfTest s c) c).mrst = (engineOf s c).mrst := by
  obtain ⟨⟨hrest, -⟩, cfg, he⟩ := tiersFail_kept s.drawDWord.2 c (s.drawDWord.1.setWidth 5 &&& ~~~ (engineOf s c).fail)
  have hdraw : engineOf s.drawDWord.2 c = engineOf s c := engineOf_of_cores rfl c
  rw [hdraw] at he
  unfold selfTest
  dsimp only
  refine ⟨by rw [hrest]; rfl, by rw [hrest]; rfl, fun hq => ?_, by rw [he]; rfl⟩
  rw [he]
  show (engineOf s c).queue.map _ = []
  rw [hq]; rfl

/-- An engine whose oldest reset is over. -/
def resetOver (e : Engine) : Engine := { e with mrst := e.mrst.drop 1 }

/-- The state in which a reset is over and counted. -/
def resetDone (s : State) (c : CoreId) (m : Nat × Nat) : State :=
  (modEngine (selfTest (resetEngine s c) c) c resetOver).modWarp m.1 fun x => countDone x .mx m.2

theorem exec_mrstComplete {s : State} {c : CoreId} {m : Nat × Nat} {rest : List (Nat × Nat)} (hm : (engineOf s c).mrst = m :: rest) :
    exec (.mrstComplete c) s = .next (replaceSpent (resetDone s c m) c) := by
  show execMrstComplete c s = _
  simp only [execMrstComplete, hm]
  rfl

theorem engineOf_resetDone (s : State) (c : CoreId) (m : Nat × Nat) :
    engineOf (resetDone s c m) c = resetOver (engineOf (selfTest (resetEngine s c) c) c) :=
  engineOf_modEngine (selfTest (resetEngine s c) c) c resetOver

end Sys2Proof.Machine
end

section
/-! The events of the matrix engine (R237, R241, R246, R248, R251, R256, R258, R260 to R262, R264). -/

namespace Sys2Proof.Machine

/-! ## What the warps and workgroups read as after each event -/

/-- The workgroup of a WLD that has filled its shadow plane. -/
theorem wldFilled_getWg {s : State} {o : MxOp} {g : Workgroup} (hg : s.getWg o.wg = some g) (c : CoreId) (va : DWord) (f : WFmt)
    (tile scales : List Byte) : (wldFilled s c o va f tile scales).getWg o.wg = some { g with shadow := ⟨true, f, tile, scales⟩ } := by
  have hself := getWg_modWg_self (dropFar s o.w va.toNat (tileBytes f / 8)) o.wg (fun g => { g with shadow := ⟨true, f, tile, scales⟩ })
    fun _ => rfl
  rw [show (dropFar s o.w va.toNat (tileBytes f / 8)).getWg o.wg = some g from hg] at hself
  exact hself

theorem wldFilled_queue (s : State) (c : CoreId) (o : MxOp) (va : DWord) (f : WFmt) (tile scales : List Byte) :
    (engineOf (wldFilled s c o va f tile scales) c).queue =
      (engineOf s c).queue.filter fun y => !(y.w == o.w && y.tag == o.tag) := queue_dropOp _ c o.w o.tag

/-! ## The events -/

/-- Settles O34: each event is the state that its rule names, read part by part. -/
theorem matrixEngineEvents : Obligations.MatrixEngineEvents := by
  refine ⟨?start, ?wld, ?wswap, ?consumed, ?left, ?applied, ?tile, ?failed, ?reset⟩
  case start =>
    intro s c o g hlive hstuck hnext hmms hstores hg hvalid hpath harr
    exact ⟨_, exec_mxOperationStart hlive hstuck hnext hmms hstores hg hvalid hpath harr, queue_modOp _ _ _ _ _,
      coresKeptBut_modEngine _ _ _, rfl, rfl, rfl⟩
  case wld =>
    intro s c o va f sc w tile s1 scs g1 hnext hk hlive hstores hw harr hearly htile hsc hgood hg
    exact ⟨_, exec_wldExecute hnext hk hlive hstores hw harr hearly htile hsc hgood, wldFilled_getWg hg _ _ _ _ _,
      wldFilled_queue _ _ _ _ _ _ _, rfl⟩
  case wswap =>
    intro s c o g hnext hk hlive harr hg
    refine ⟨_, exec_wswapExecute hnext hk hlive harr, ?_, queue_dropOp s c o.w o.tag, rfl, rfl⟩
    rw [getWg_modWg_self _ _ planesSwapped fun _ => rfl, show (dropOp s c o.w o.tag).getWg o.wg = some g from hg]
    rfl
  case consumed =>
    intro s c o r q w hfind b hr hq hgood hw harr hearly
    refine ⟨_, exec_mxOperandsConsumed hfind hr hq hgood harr hearly, ?_, queue_modOp _ _ _ _ _, rfl⟩
    rw [getWarp_modWarp_self _ _ (consumedWarp o.tag) fun _ => rfl, show (modOp q.2 c o.w o.tag _).getWarp o.w = some w from hw]
    rfl
  case left =>
    intro s c left hleft
    obtain ⟨t, hstep, hsame⟩ := exec_mxOperandsConsumed_left s c hleft
    exact ⟨t, hstep, congrArg Prod.fst hsame, mem_of_warpsAndMemory hsame⟩
  case applied =>
    intro s c d w hfind hw
    refine ⟨_, exec_mxDone_of_applied hfind, ?_, congrArg Engine.draining (engineOf_modEngine s c (withoutDraining d)), rfl⟩
    rw [getWarp_modWarp_self _ _ (doneWarp d.1.tag d.2) fun _ => rfl, show (modEngine s c _).getWarp d.1.w = some w from hw]
    rfl
  case tile =>
    intro s c o g hnone harr hfind hchain hbusy hg k b hkind hinside hsmall hapart hbanked hnodup
    have hfit : TileFits (mmsWork s o) g := ⟨hinside, hsmall, hapart, hbanked, hnodup⟩
    obtain ⟨hrest, heng⟩ := scratchOnly_tileWritten (c := c) hg hfit
    refine ⟨_, exec_mxDone_of_tile hnone harr hfind hchain hbusy hkind, fun y hy => ?_, ?_, fun i j hi hj => bankRead_tileWritten hg hfit hi hj⟩
    · have hbase : y ∈ (engineOf (tileBase s c o) c).queue := heng c ▸ hy
      exact not_mem_queue_dropOp _ c hbase
    · rw [modWarp_mem, hrest]; rfl
  case failed =>
    intro s c tier htier hleft
    obtain ⟨⟨hrest, hcores⟩, cfg, he⟩ := tiersFail_kept s c (1#5 <<< tier)
    refine ⟨_, exec_tierFailure htier hleft, by rw [he]; rfl, fun o ho => ?_, hcores, by rw [hrest], by rw [hrest]⟩
    rw [he] at ho
    obtain ⟨y, -, rfl⟩ := List.mem_map.1 ho
    have hgone := getLsbD_one_shiftLeft_self htier
    exact not_mem_chain_rechained hgone (by rw [tiersLost, BitVec.getLsbD_or, hgone, Bool.or_true]) y
  case reset =>
    intro s c m rest hm
    refine ⟨_, exec_mrstComplete hm, fun hgo => ?_⟩
    obtain ⟨hqueue, hmrst, hmem, hplanes⟩ := resetEngine_kept s c
    obtain ⟨hwgs', hmem', hqueue', hmrst'⟩ := selfTest_kept (resetEngine s c) c
    have hover := engineOf_resetDone s c m
    rw [replaceSpent_of_tier (by rw [hover]; exact hgo)]
    refine ⟨by rw [hover]; exact hqueue' hqueue, by rw [hover, resetOver, hmrst', hmrst, hm]; rfl, hmem'.trans hmem, fun o g ho hg => ?_⟩
    have hsame : (resetDone s c m).wgs = (resetEngine s c).wgs := hwgs'
    simp only [State.getWg, hsame]
    exact hplanes o g ho hg

end Sys2Proof.Machine
end

section
/-! The control registers at reset (R270, R301, R376, R396, R399, R460): no cluster, die or core has been changed yet, so that each reads as a
new one of its identity. -/

namespace Sys2Proof.Machine

theorem reset_getCluster (c : CluId) : State.reset.getCluster c = { id := c } := rfl
theorem reset_getDie (d : Nat) : State.reset.getDie d = { id := d } := rfl
theorem reset_getCore (c : CoreId) : State.reset.getCore c = { id := c } := rfl

/-! ## The tables of the die control page by offset (R301) -/

theorem dieRead_gmap (d : Die) (f : Nat) {off : Nat} (hlo : 0x100 ≤ off) (hhi : off < 0x180) :
    dieRead d f off = gmapWord (busOf d ((off - 0x100) / 16)) ((off - 0x100) % 16 == 8) := by
  rw [dieRead, if_neg (by omega), if_neg (by omega), if_neg (by omega), if_pos ⟨hlo, hhi⟩]

theorem dieRead_gst (d : Die) (f : Nat) {off : Nat} (hlo : 0x180 ≤ off) (hhi : off < 0x1C0) :
    dieRead d f off = gstWord (busOf d ((off - 0x180) / 8)) f := by
  rw [dieRead, if_neg (by omega), if_neg (by omega), if_neg (by omega), if_neg (by omega), if_pos ⟨hlo, hhi⟩]

theorem dieRead_bwt (d : Die) (f : Nat) {off : Nat} (hlo : 0x400 ≤ off) (hhi : off < 0x800) :
    dieRead d f off = if (off - 0x400) % 16 = 0 then (bwtOf d ((off - 0x400) / 16)).w0.toNat else (bwtOf d ((off - 0x400) / 16)).w1.toNat := by
  rw [dieRead, if_neg (by omega), if_neg (by omega), if_neg (by omega), if_neg (by omega), if_neg (by omega), if_pos ⟨hlo, hhi⟩]

theorem memRead_vbstat (s : State) (d : Nat) {off : Nat} (hlo : 0x400 ≤ off) (hhi : off < 0x800) :
    memRead s d off = vbstatWord (s.getCore ⟨d, (off - 0x400) / 8 / 8, (off - 0x400) / 8 % 8⟩) := by
  rw [memRead, if_neg (by omega), if_neg (by omega), if_neg (by omega), if_neg (by omega), if_neg (by omega), if_neg (by omega),
    if_pos ⟨hlo, hhi⟩]

/-! ## What new parts read -/

/-- Every bus of a new die has each logical group on its own physical one, no group slate and nothing voided (R303, R318). -/
theorem busOf_new (d b : Nat) : busOf { id := d } b = {} := by
  simp only [busOf, List.getElem?_replicate]
  split <;> rfl

theorem gmapWord_new : gmapWord {} false = 0x0706050403020100 ∧ gmapWord {} true = 0x0F0E0D0C0B0A0908 := by decide

theorem dieRead_gmap_new (d f : Nat) {b : Nat} (hb : b < 8) :
    dieRead { id := d } f (0x100 + 16 * b) = 0x0706050403020100 ∧ dieRead { id := d } f (0x108 + 16 * b) = 0x0F0E0D0C0B0A0908 := by
  have hlow : (0x100 + 16 * b - 0x100) % 16 = 0 := by omega
  have hhigh : (0x108 + 16 * b - 0x100) % 16 = 8 := by
    rw [show 0x108 + 16 * b - 0x100 = 16 * b + 8 by omega, Nat.mul_add_mod]
  constructor
  · rw [dieRead_gmap _ f (by omega) (by omega), busOf_new, hlow]
    exact gmapWord_new.1
  · rw [dieRead_gmap _ f (by omega) (by omega), busOf_new, hhigh]
    exact gmapWord_new.2

theorem dieRead_gst_new (d f : Nat) {b : Nat} (hb : b < 8) : dieRead { id := d } f (0x180 + 8 * b) = 0 := by
  rw [dieRead_gst _ f (by omega) (by omega), busOf_new]
  rfl

theorem dieRead_bwt_new (d f : Nat) {off : Nat} (hlo : 0x400 ≤ off) (hhi : off < 0x800) : dieRead { id := d } f off = 0 := by
  rw [dieRead_bwt _ f hlo hhi]
  exact ite_self _

/-- A new core has eight spare lines on each vertical bus and has counted nothing (R399). -/
theorem vbstatWord_new (c : CoreId) : vbstatWord { id := c } = 8 * 2 ^ 39 + 8 * 2 ^ 43 + 8 * 2 ^ 47 := by
  simp [vbstatWord, kcap]

/-- A new cluster has its home-cache and RDC ways, all healthy, and its cores in their order (R271, R278, R279). -/
theorem cluRead_new (c : CluId) :
    cluRead { id := c } 0x000 = 0x76543210 ∧ cluRead { id := c } 0x008 = 0x0000FFFF50000000 ∧
      ∀ off, off ∈ [0x010, 0x018, 0x020, 0x030, 0x038] → cluRead { id := c } off = 0 := by
  simp [cluRead, wpsWord, wbcWord]

theorem healthWord_reset : healthWord State.reset = 0 := by decide

/-- Settles O53: each register at its offset, read off a new part. -/
theorem resetControlRegisters : Obligations.ResetControlRegisters := by
  refine ⟨fun c => ?cluster, fun d f => ?die, fun d => ?memory, fun c => ?core, ?service⟩
  case cluster =>
    obtain ⟨hcmap, hways, hzero⟩ := cluRead_new c
    rw [reset_getCluster]
    exact ⟨hcmap, hways, hzero _ (by decide), hzero _ (by decide), hzero _ (by decide), hzero _ (by decide), hzero _ (by decide)⟩
  case die =>
    rw [reset_getDie]
    refine ⟨rfl, rfl, rfl, fun b hb => ?_, fun e he => ⟨dieRead_bwt_new d f (by omega) (by omega), dieRead_bwt_new d f (by omega) (by omega)⟩⟩
    exact ⟨(dieRead_gmap_new d f hb).1, (dieRead_gmap_new d f hb).2, dieRead_gst_new d f hb⟩
  case memory =>
    refine ⟨rfl, rfl, rfl, rfl, rfl, rfl, fun k hk => ?_⟩
    rw [memRead_vbstat _ _ (by omega) (by omega), reset_getCore, vbstatWord_new]
  case core =>
    rw [reset_getCore]
    exact ⟨rfl, Nat.div_eq_of_lt (show (0xFF : Nat) < 2 ^ 16 by decide), rfl⟩
  case service => exact ⟨rfl, rfl, healthWord_reset, rfl, rfl, rfl, rfl, rfl, rfl⟩

end Sys2Proof.Machine
end

section
/-! The registers of the cluster page (R270, R278, R279, R283, R285, R287), and what a cluster reads as once one cluster was changed. -/

namespace Sys2Proof.Machine

/-! ## One cluster changed -/

theorem getCluster_id (s : State) (c : CluId) : (s.getCluster c).id = c := by
  unfold State.getCluster
  cases hfind : s.clusters.find? fun x => x.id == c with
  | none => rfl
  | some x => simpa using List.find?_some hfind

/-- A cluster reads as it was changed. -/
theorem getCluster_modCluster_self (s : State) (c : CluId) (f : Cluster → Cluster) (h : (f (s.getCluster c)).id = c) :
    (s.modCluster c f).getCluster c = f (s.getCluster c) := by
  have e := getCluster_setCluster_self s (f (s.getCluster c))
  rw [h] at e; exact e

/-- A cluster set changes no other cluster. -/
theorem getCluster_setCluster_ne (s : State) (x : Cluster) {c : CluId} (h : c ≠ x.id) : (s.setCluster x).getCluster c = s.getCluster c := by
  have e := find_putAt_ne (p := fun y : Cluster => y.id == x.id) (q := fun y => y.id == c) x
    (by intro y hy; simp at hy; simp [hy, h.symm]) (by simp [h.symm]) s.clusters
  simp [State.getCluster, e]

/-- A change of a cluster changes no other cluster. -/
theorem getCluster_modCluster_ne (s : State) {c k : CluId} (f : Cluster → Cluster) (h : (f (s.getCluster c)).id = c) (hk : k ≠ c) :
    (s.modCluster c f).getCluster k = s.getCluster k := getCluster_setCluster_ne s _ (by rwa [h])

/-- What reads the same of a cluster before and after it is changed reads the same of every cluster. -/
theorem read_modCluster {α : Type} {F : Cluster → α} (s : State) (c : CluId) (f : Cluster → Cluster) (h : (f (s.getCluster c)).id = c)
    (hF : F (f (s.getCluster c)) = F (s.getCluster c)) (k : CluId) : F ((s.modCluster c f).getCluster k) = F (s.getCluster k) := by
  by_cases hk : k = c
  · rw [hk, getCluster_modCluster_self s c f h, hF]
  · rw [getCluster_modCluster_ne s f h hk]

/-! ## The roles that a word gives the ways (R278) -/

theorem roleOf_eq (v : Word) (k : Nat) : roleOf v k = v.toNat / 4 ^ k % 4 := by
  rw [roleOf, bitsAt, pow_mul]; rfl

theorem any_scratchWays (v : Word) (p : Nat → Bool) : (scratchWays v).any p = (List.range 16).any fun k => roleOf v k == 2 && p k := by
  rw [scratchWays, List.any_filter]

/-- A write of WPR: refused with the lowest code whose condition holds, else the beginning of phase 1. -/
theorem wprWriteC_eq (x : Cluster) (v : Word) :
    wprWriteC x v =
      if x.busy then { x with err := true, ecode := 1 }
      else if 8 < countRole v 2 then { x with err := true, ecode := 2 }
      else if countRole v 0 < 4 then { x with err := true, ecode := 3 }
      else if 0 < countRole v 3 then { x with err := true, ecode := 4 }
      else if (List.range 16).any fun k => roleOf v k == 2 && !x.healthy.getLsbD k then { x with err := true, ecode := 5 }
      else { x with wpr := v, oldWpr := x.wpr, busy := true, phase := 1, wbDirty := 0, invClean := 0, rdcDrop := 0, fenced := false } := by
  unfold wprWriteC wprRefusal
  rw [any_scratchWays]
  dsimp only
  split
  · rfl
  · split
    · rfl
    · split
      · rfl
      · split
        · rfl
        · split <;> rfl

/-! ## The registers -/

/-- The event changes one cluster and nothing else. -/
theorem onlyCluster {i : Instr} {s : State} {c : CluId} {f : Cluster → Cluster} (hexec : exec i s = .next (s.modCluster c f))
    (hid : (f (s.getCluster c)).id = c) :
    ∃ t, exec i s = .next t ∧ t = { s with clusters := t.clusters } ∧ t.getCluster c = f (s.getCluster c) ∧
      ∀ k, k ≠ c → t.getCluster k = s.getCluster k :=
  ⟨_, hexec, rfl, getCluster_modCluster_self s c f hid, fun _ hk => getCluster_modCluster_ne s f hid hk⟩

theorem wprWriteC_id (x : Cluster) (v : Word) : (wprWriteC x v).id = x.id := by
  unfold wprWriteC
  dsimp only
  split <;> rfl

theorem countRole_eq (v : Word) (r : Nat) : countRole v r = ((List.range 16).filter fun k => v.toNat / 4 ^ k % 4 == r).length := by
  simp only [countRole, roleOf_eq]

/-- CSV.VALID is bit 63 (R285). -/
theorem csv_valid_cleared (v : DWord) : (v &&& 0x7FFFFFFFFFFFFFFF).toNat = v.toNat % 2 ^ 63 := by
  rw [BitVec.toNat_and]
  exact Nat.and_two_pow_sub_one_eq_mod v.toNat 63

/-- The filter's answer to a probe while no entry is empty (R287). -/
theorem filter_answers {x : Cluster} (h : ∀ e, e ∈ x.filter → e.mask ≠ 0) (asid line : Nat) :
    (x.filter.any fun e => tagSees asid e.asid && e.line == line && e.mask != 0) =
      x.filter.any fun e => (e.asid == asid || e.asid == 0) && e.line == line := by
  rw [Bool.eq_iff_iff, List.any_eq_true, List.any_eq_true]
  refine exists_congr fun e => and_congr_right fun he => ?_
  rw [bne_iff_ne.2 (h e he), Bool.and_true]
  rfl

/-- What a probe counts (R287). -/
def probed (asid line : Nat) (x : Cluster) : Cluster :=
  if x.filter.any fun e => tagSees asid e.asid && e.line == line && e.mask != 0 then { x with forwarded := x.forwarded + 1 }
  else { x with filtered := x.filtered + 1 }

theorem probed_id (asid line : Nat) (x : Cluster) : (probed asid line x).id = x.id := by
  unfold probed
  split <;> rfl

theorem clusterRegisters : Clause.ClusterRegisters := by
  refine ⟨fun s c v => ?write, fun s c => ?err, fun s c v => ?cso, fun s c => ?csv, fun s c asid line hmask => ?probe⟩
  case write =>
    obtain ⟨t, hexec, hrest, hself, hothers⟩ := onlyCluster (i := .wprWrite c v) (s := s) rfl ((wprWriteC_id _ v).trans (getCluster_id s c))
    refine ⟨t, hexec, hrest, hothers, ?_⟩
    rw [hself, wprWriteC_eq]
    simp only [countRole_eq, roleOf_eq]
  case err =>
    obtain ⟨t, hexec, hrest, hself, hothers⟩ := onlyCluster (i := .wpsErrClear c) (s := s) rfl (getCluster_id s c)
    exact ⟨t, hexec, hself, hrest, hothers⟩
  case cso =>
    obtain ⟨t, hexec, hrest, hself, hothers⟩ := onlyCluster (i := .csoWrite c v) (s := s) rfl (getCluster_id s c)
    exact ⟨t, hexec, hself, hrest, hothers⟩
  case csv =>
    obtain ⟨t, hexec, hrest, hself, hothers⟩ := onlyCluster (i := .csvValidClear c) (s := s) rfl (getCluster_id s c)
    exact ⟨t, hexec, by rw [hself]; exact csv_valid_cleared _, hrest, hothers⟩
  case probe =>
    obtain ⟨t, hexec, hrest, hself, -⟩ :=
      onlyCluster (f := probed asid line) (i := .snoopProbe c asid line) (s := s) rfl ((probed_id _ _ _).trans (getCluster_id s c))
    refine ⟨t, hexec, hrest, ?_⟩
    rw [hself]
    rw [probed, filter_answers hmask]
    split <;> exact ⟨rfl, rfl, rfl⟩

end Sys2Proof.Machine
end

section
/-! Lines that leave the caches, and the phases of a transition of the ways (R229, R276, R280, R286, R343). -/

namespace Sys2Proof.Machine

/-! ## What a line made absent leaves -/

/-- A cluster without its snoop filter. -/
def unfiltered (x : Cluster) : Cluster := { x with filter := [] }

/-- The machine without its warps, its cores, its snoop filters and the copies in its RDC ways: what lines that leave the caches do not change. -/
def uncached (s : State) : State × (CluId → Cluster) :=
  ({ s with warps := [], cores := [], clusters := [], leases := [], farLines := [] }, fun k => unfiltered (s.getCluster k))

/-- The copies in the RDC ways. -/
def rdcCopies (s : State) : List Lease × List FarLine := (s.leases, s.farLines)

section
variable (s : State)

@[simp] theorem uncached_dropLine (c : CoreId) (asid line : Nat) : uncached (dropLine s c asid line) = uncached s := by
  unfold dropLine
  split
  · rfl
  · rename_i ln _
    let s1 := s.modCore c fun x => { x with l1 := x.l1.filter fun y => !(y.asid == ln.asid && y.line == line) }
    exact Prod.ext rfl (funext fun k =>
      read_modCluster (F := unfiltered) s1 (cluOf c) (fun x => filterClear x ln.asid line (physOf x c.core)) (getCluster_id s1 _) rfl k)

@[simp] theorem rdcCopies_dropLine (c : CoreId) (asid line : Nat) : rdcCopies (dropLine s c asid line) = rdcCopies s := by
  unfold dropLine
  split <;> rfl

@[simp] theorem uncached_dropOthers (die asid line : Nat) (keep : Option CoreId) : uncached (dropOthers s die asid line keep) = uncached s :=
  foldl_keeps (fun t c => by split <;> simp) _ s

@[simp] theorem rdcCopies_dropOthers (die asid line : Nat) (keep : Option CoreId) : rdcCopies (dropOthers s die asid line keep) = rdcCopies s :=
  foldl_keeps (fun t c => by split <;> simp) _ s

@[simp] theorem uncached_dropLease (die asid line : Nat) : uncached (dropLease s die asid line) = uncached s := by
  rw [dropLease, uncached_dropOthers]; rfl

theorem leases_dropLease (die asid line : Nat) : (dropLease s die asid line).leases =
    s.leases.filter fun x => !(x.die == die && x.asid == asid && x.line == line) :=
  congrArg Prod.fst (rdcCopies_dropOthers _ die asid line none)

theorem farLines_dropLease (die asid line : Nat) : (dropLease s die asid line).farLines = s.farLines :=
  congrArg Prod.snd (rdcCopies_dropOthers _ die asid line none)

@[simp] theorem uncached_farDrop (die asid line : Nat) : uncached (farDrop s die asid line) = uncached s := by
  unfold farDrop
  dsimp only
  split <;> rfl

theorem leases_farDrop (die asid line : Nat) : (farDrop s die asid line).leases = s.leases := by
  unfold farDrop
  dsimp only
  split <;> rfl

theorem farLines_farDrop (die asid line : Nat) : (farDrop s die asid line).farLines =
    s.farLines.filter fun x => !(x.die == die && (x.asid == asid || asid == 0) && x.line == line) := by
  unfold farDrop
  dsimp only
  split
  · rename_i hnone
    rw [Bool.not_eq_true', List.any_eq_false] at hnone
    exact (List.filter_eq_self.2 fun x hx => by rw [Bool.not_eq_true', Bool.eq_false_iff]; exact hnone x hx).symm
  · rfl

end

theorem mem_leases_of_dropped {ls : List Lease} {s : State} {x : Lease}
    (h : x ∈ (ls.foldl (fun acc l => dropLease acc l.die l.asid l.line) s).leases) : x ∈ s.leases ∧ x ∉ ls := by
  induction ls generalizing s with
  | nil => exact ⟨h, List.not_mem_nil⟩
  | cons l ls ih =>
    obtain ⟨hin, hout⟩ := ih h
    rw [leases_dropLease, List.mem_filter] at hin
    refine ⟨hin.1, fun hmem => ?_⟩
    obtain rfl | hmem := List.mem_cons.1 hmem
    · simp at hin
    · exact hout hmem

theorem mem_farLines_of_dropped {fs : List FarLine} {s : State} {x : FarLine}
    (h : x ∈ (fs.foldl (fun acc l => farDrop acc l.die l.asid l.line) s).farLines) : x ∈ s.farLines ∧ x ∉ fs := by
  induction fs generalizing s with
  | nil => exact ⟨h, List.not_mem_nil⟩
  | cons l fs ih =>
    obtain ⟨hin, hout⟩ := ih h
    rw [farLines_farDrop, List.mem_filter] at hin
    refine ⟨hin.1, fun hmem => ?_⟩
    obtain rfl | hmem := List.mem_cons.1 hmem
    · simp at hin
    · exact hout hmem

theorem farLines_dropLeases (ls : List Lease) (s : State) :
    (ls.foldl (fun acc l => dropLease acc l.die l.asid l.line) s).farLines = s.farLines :=
  foldl_keeps (F := State.farLines) (fun t l => farLines_dropLease t l.die l.asid l.line) ls s

/-! ## Portions of ways released (R280, R293) -/

section
variable (s : State) (c : CluId) (count : Bool) (p : Nat → Nat → Bool)

/-- The copies of other dies' lines, and of other packages', that stand in some portions. -/
def leasesIn : List Lease :=
  s.leases.filter fun l => l.die == c.die && (homeCluster l.asid (regionOfLine l.line) == c.clu && p (lineSlice l.asid l.line) l.way)
def farLinesIn : List FarLine :=
  s.farLines.filter fun l => l.die == c.die && (homeCluster l.asid (regionOfLine l.line) == c.clu && p (lineSlice l.asid l.line) l.way)

/-- The machine once those copies are absent. -/
def rdcEmptied : State :=
  (farLinesIn s c p).foldl (fun acc l => farDrop acc l.die l.asid l.line)
    ((leasesIn s c p).foldl (fun acc l => dropLease acc l.die l.asid l.line) s)

/-- The cluster once the home lines of some portions are released, and counted if they are to be. -/
def linesReleased (x : Cluster) : Cluster :=
  let gone := x.lines.filter fun e => p (lineSlice e.asid e.line) e.way
  let n (k : Nat) : Nat := if count then k else 0
  { x with
    lines := x.lines.filter fun e => !p (lineSlice e.asid e.line) e.way
    wbDirty := x.wbDirty + n (gone.filter (·.dirty)).length
    invClean := x.invClean + n (gone.filter fun e => !e.dirty).length
    rdcDrop := x.rdcDrop + n (RdcIn s c p) }

theorem releaseLines_eq : releaseLines s c count p = (rdcEmptied s c p).modCluster c (linesReleased s c count p) := rfl

theorem uncached_rdcEmptied : uncached (rdcEmptied s c p) = uncached s := by
  rw [rdcEmptied, foldl_keeps (F := uncached) fun t l => uncached_farDrop t _ _ _]
  exact foldl_keeps (F := uncached) (fun t l => uncached_dropLease t _ _ _) _ s

theorem leases_rdcEmptied {l : Lease} (h : l ∈ (rdcEmptied s c p).leases) : l ∈ s.leases ∧ l ∉ leasesIn s c p := by
  rw [rdcEmptied, foldl_keeps (F := State.leases) fun t l => leases_farDrop t _ _ _] at h
  exact mem_leases_of_dropped h

theorem farLines_rdcEmptied {l : FarLine} (h : l ∈ (rdcEmptied s c p).farLines) : l ∈ s.farLines ∧ l ∉ farLinesIn s c p := by
  obtain ⟨hin, hout⟩ := mem_farLines_of_dropped h
  rw [farLines_dropLeases] at hin
  exact ⟨hin, hout⟩

/-- No copy is left in the portions. -/
theorem rdcIn_rdcEmptied : RdcIn (rdcEmptied s c p) c p = 0 := by
  refine Nat.add_eq_zero_iff.2 ⟨List.length_eq_zero_iff.2 (List.filter_eq_nil_iff.2 fun l hl hin => ?_),
    List.length_eq_zero_iff.2 (List.filter_eq_nil_iff.2 fun l hl hin => ?_)⟩
  · obtain ⟨hmem, hout⟩ := leases_rdcEmptied s c p hl
    exact hout (List.mem_filter.2 ⟨hmem, hin⟩)
  · obtain ⟨hmem, hout⟩ := farLines_rdcEmptied s c p hl
    exact hout (List.mem_filter.2 ⟨hmem, hin⟩)

/-- Nothing outside the clusters, the caches and the warps' arms changes. -/
theorem uncached_releaseLines_fst : (uncached (releaseLines s c count p)).1 = (uncached s).1 :=
  (show (uncached (releaseLines s c count p)).1 = (uncached (rdcEmptied s c p)).1 from rfl).trans (congrArg Prod.fst (uncached_rdcEmptied s c p))

/-- The cluster is as before but for the lines released and its filter. -/
theorem unfiltered_releaseLines :
    unfiltered ((releaseLines s c count p).getCluster c) = linesReleased s c count p (unfiltered (s.getCluster c)) := by
  have hkept : unfiltered ((rdcEmptied s c p).getCluster c) = unfiltered (s.getCluster c) := congrFun (congrArg Prod.snd (uncached_rdcEmptied s c p)) c
  rw [releaseLines_eq, getCluster_modCluster_self _ c _ (getCluster_id _ c), ← hkept]
  rfl

theorem released_releaseLines : Released s (releaseLines s c true p) c p := by
  have hread := unfiltered_releaseLines s c true p
  exact ⟨congrArg Cluster.lines hread, congrArg Cluster.wbDirty hread, congrArg Cluster.invClean hread, congrArg Cluster.rdcDrop hread,
    rdcIn_rdcEmptied s c p⟩

end

/-! ## The scratch ways of the old and of the new word (R280) -/

/-- P counts the leading scratch MiBs that keep their way. -/
theorem preserved_spec (a b : List Nat) :
    a.take (preserved a b) = b.take (preserved a b) ∧ ∀ x y, a[preserved a b]? = some x → b[preserved a b]? = some y → x ≠ y := by
  induction a generalizing b with
  | nil => exact ⟨rfl, nofun⟩
  | cons x a ih =>
    cases b with
    | nil => exact ⟨rfl, nofun⟩
    | cons y b =>
      unfold preserved
      split
      · rename_i hxy
        obtain ⟨htake, hdiffer⟩ := ih b
        exact ⟨by rw [List.take_succ_cons, List.take_succ_cons, htake, hxy], hdiffer⟩
      · rename_i hxy
        refine ⟨rfl, fun u v hu hv => ?_⟩
        rwa [← Option.some.inj hu, ← Option.some.inj hv]

/-- Where the two words name a place's way alike, its MiB is preserved. -/
theorem mem_movedWays (a b : List Nat) (way : Nat) : way ∈ movedWays a b ↔ ∃ k : Nat, a[k]? = some way ∧ b[k]? ≠ some way := by
  induction a generalizing b with
  | nil => cases b <;> simp [movedWays]
  | cons x a ih =>
    cases b with
    | nil => simp [movedWays, List.mem_iff_getElem?]
    | cons y b =>
      rw [← Nat.or_exists_add_one]
      simp only [List.getElem?_cons_zero, List.getElem?_cons_succ, Option.some.injEq, ne_eq, ← ih b, movedWays]
      split
      · rename_i hxy
        subst hxy
        exact (or_iff_right fun h => h.2 h.1).symm
      · rename_i hxy
        rw [List.mem_cons]
        exact or_congr_left ⟨fun h => ⟨h.symm, fun hy => hxy (h.symm.trans hy.symm)⟩, fun h => h.1.symm⟩

theorem movedWays_scratchWays (v v' : Word) (way : Nat) : way ∈ movedWays (scratchWays v) (scratchWays v') ↔
    ((List.range 16).any fun k => (scratchWays v)[k]? == some way && (scratchWays v')[k]? != some way) = true := by
  simp only [mem_movedWays, List.any_eq_true, List.mem_range, Bool.and_eq_true, beq_iff_eq, bne_iff_ne]
  refine exists_congr fun k => (and_iff_right_of_imp fun h => ?_).symm
  have hlen : (scratchWays v).length ≤ 16 := List.length_filter_le _ (List.range 16)
  exact (List.getElem?_eq_some_iff.1 h.1).1.trans_le hlen

theorem sget_zeroWay (m : Sparse Byte) (way j : Nat) : sget 0 (zeroWay m way) j = if j / mib = way then 0 else sget 0 m j := by
  induction m with
  | nil => simp [zeroWay, sget]
  | cons e m ih =>
    obtain ⟨k, v⟩ := e
    unfold zeroWay at *
    by_cases hk : k / mib = way
    · rw [List.filter_cons_of_neg (by simp [hk]), ih]
      split
      · rfl
      · rename_i hj
        rw [sget, if_neg fun h : j = k => hj (h ▸ hk)]
    · rw [List.filter_cons_of_pos (by simp [hk]), sget, sget, ih]
      split
      · rename_i hj
        rw [if_neg (hj ▸ hk)]
      · rfl

theorem sget_zeroWays (ways : List Nat) (m : Sparse Byte) (j : Nat) :
    sget 0 (ways.foldl zeroWay m) j = if j / mib ∈ ways then 0 else sget 0 m j := by
  induction ways generalizing m with
  | nil => simp
  | cons way ways ih =>
    rw [List.foldl_cons, ih, sget_zeroWay]
    by_cases hin : j / mib ∈ ways
    · simp [hin]
    · simp [hin]

/-- The scratch bytes once the MiBs are zero that the two words serve by different ways. -/
theorem sget_movedWays (v v' : Word) (m : Sparse Byte) (j : Nat) :
    sget 0 ((movedWays (scratchWays v) (scratchWays v')).foldl zeroWay m) j =
      if (List.range 16).any fun k => (scratchWays v)[k]? == some (j / 2 ^ 20) && (scratchWays v')[k]? != some (j / 2 ^ 20) then 0
      else sget 0 m j := by
  rw [sget_zeroWays]
  exact if_congr (movedWays_scratchWays v v' (j / mib)) rfl rfl

/-! ## The phases (R280) -/

section
variable {s : State} {c : CluId}

theorem exec_wprDrainDone_unfenced (hphase : (s.getCluster c).phase = 1) (hfenced : (s.getCluster c).fenced = false) :
    exec (.wprDrainDone c) s = .next (s.modCluster c wprFenceC) := by
  show execWprDrainDone c s = _
  simp [execWprDrainDone, happens, hphase, hfenced]

theorem exec_wprDrainDone_drained (hphase : (s.getCluster c).phase = 1) (hfenced : (s.getCluster c).fenced = true)
    (hdrained : drainedAbove s c = true) :
    exec (.wprDrainDone c) s = .next (s.modCluster c fun y => { y with phase := 2 }) := by
  show execWprDrainDone c s = _
  simp [execWprDrainDone, happens, hphase, hfenced, hdrained]

theorem exec_wprReleaseDone (hphase : (s.getCluster c).phase = 2) : exec (.wprReleaseDone c) s = .next (wprRelease s c) := by
  show execWprReleaseDone c s = _
  simp [execWprReleaseDone, happens, hphase]

theorem exec_wprEnableDone (hphase : (s.getCluster c).phase = 3) : exec (.wprEnableDone c) s = .next (s.modCluster c wprEnableC) := by
  show execWprEnableDone c s = _
  simp [execWprEnableDone, happens, hphase]

/-- The ways that leave the home-cache or the RDC role, as a test. -/
def leavesRole (x : Cluster) (k : Nat) : Bool := (leaving x 0).contains k || (leaving x 1).contains k

/-- The end of phase 2 in the cluster once the leaving ways are released. -/
def scratchDiscarded (x y : Cluster) : Cluster := { y with phase := 3, cask := (discarded x).foldl zeroWay y.cask }

theorem wprRelease_eq (s : State) (c : CluId) : wprRelease s c =
    (releaseLines s c true fun _ k => leavesRole (s.getCluster c) k).modCluster c (scratchDiscarded (s.getCluster c)) := by
  have hways : (fun _ k : Nat => (leaving (s.getCluster c) 0 ++ leaving (s.getCluster c) 1).contains k) = fun _ k => leavesRole (s.getCluster c) k :=
    funext fun _ => funext fun k => List.contains_append
  rw [← hways]
  rfl

theorem wayTransition : Clause.WayTransition := by
  refine ⟨preserved_spec, fun s c hphase hfenced => ?fence, fun s c hphase hfenced hdrained => ?drained, fun s c hphase => ?release,
    fun s c hphase => ?enable⟩
  case fence =>
    obtain ⟨t, hexec, hrest, hself, -⟩ := onlyCluster (exec_wprDrainDone_unfenced hphase hfenced) (getCluster_id s c)
    exact ⟨t, hexec, hrest, hself⟩
  case drained =>
    obtain ⟨t, hexec, hrest, hself, -⟩ := onlyCluster (exec_wprDrainDone_drained hphase hfenced hdrained) (getCluster_id s c)
    exact ⟨t, hexec, hself, hrest⟩
  case release =>
    let p (_ k : Nat) : Bool := leavesRole (s.getCluster c) k
    have hread := unfiltered_releaseLines s c true p
    have hself : (wprRelease s c).getCluster c = scratchDiscarded (s.getCluster c) ((releaseLines s c true p).getCluster c) := by
      rw [wprRelease_eq]
      exact getCluster_modCluster_self _ c _ (getCluster_id _ c)
    refine ⟨_, exec_wprReleaseDone hphase, ?_, ?_, ?_, ?_, ?_, fun j => ?_, ?_⟩
    · obtain ⟨hlines, hdirty, hclean, hdrop, hempty⟩ := released_releaseLines s c p
      exact ⟨by rw [hself]; exact hlines, by rw [hself]; exact hdirty, by rw [hself]; exact hclean, by rw [hself]; exact hdrop,
        by rw [wprRelease_eq]; exact hempty⟩
    · rw [hself]; rfl
    · rw [hself]; exact (congrArg Cluster.busy hread :)
    · rw [hself]; exact (congrArg Cluster.limit hread :)
    · rw [hself]; exact (congrArg Cluster.wpr hread :)
    · rw [hself]
      have hcask : ((releaseLines s c true p).getCluster c).cask = (s.getCluster c).cask := (congrArg Cluster.cask hread :)
      rw [scratchDiscarded, hcask]
      exact sget_movedWays _ _ _ j
    · rw [wprRelease_eq]
      exact (congrArg State.mem (uncached_releaseLines_fst s c true p) :)
  case enable =>
    obtain ⟨t, hexec, hrest, hself, -⟩ := onlyCluster (exec_wprEnableDone hphase) (getCluster_id s c)
    refine ⟨t, hexec, by rw [hself]; rfl, fun j => ?_, hrest⟩
    rw [hself]
    exact sget_movedWays _ _ _ j

end

end Sys2Proof.Machine
end

section
/-! What the end of a region leaves standing (R389, R391, R419, R439, R457 to R459): the records it writes and the work it drops change the
worts and the observed token words of regions, the snoop filters, and no other part of a region or a cluster. -/

namespace Sys2Proof.Machine

/-- A region without its worts and without the token words observed at their thresholds. -/
def bareRegion (r : Region) : Region := { r with worts := [], crossed := [] }

/-- The regions, the clusters without their snoop filters, and whether something of the package has failed. -/
def standing (s : State) : List Region × (CluId → Cluster) × Bool := (s.regions.map bareRegion, fun k => unfiltered (s.getCluster k), s.degraded)

theorem standing_of_uncached {s t : State} (h : uncached t = uncached s) : standing t = standing s :=
  congrArg (fun u : State × (CluId → Cluster) => (u.1.regions.map bareRegion, u.2, u.1.degraded)) h

theorem standing_of_map {s t : State} {f : Region → Region} (hregions : t.regions = s.regions.map f) (hclusters : t.clusters = s.clusters)
    (hdegraded : t.degraded = s.degraded) (hf : ∀ r, bareRegion (f r) = bareRegion r) : standing t = standing s := by
  have hread (k : CluId) : t.getCluster k = s.getCluster k := by rw [State.getCluster, hclusters, State.getCluster]
  unfold standing
  rw [hregions, List.map_map, hdegraded]
  simp only [hread]
  exact congrArg (·, _) (List.map_congr_left fun r _ => hf r)

section
variable (s : State)

@[simp] theorem standing_modDie (d : Nat) (f : Die → Die) : standing (s.modDie d f) = standing s := rfl
@[simp] theorem standing_modCore (c : CoreId) (f : Core → Core) : standing (s.modCore c f) = standing s := rfl
@[simp] theorem standing_modFn (k : Nat) (f : Fn → Fn) : standing (s.modFn k f) = standing s := rfl
@[simp] theorem standing_modCopy (k : Nat) (f : Copy → Copy) : standing (modCopy s k f) = standing s := rfl
@[simp] theorem standing_putDir (d : Nat) (x : Dir) : standing (putDir s d x) = standing s := rfl
@[simp] theorem standing_announcePhys (pa : Nat) : standing (announcePhys s pa) = standing s := rfl
@[simp] theorem standing_dropLine (c : CoreId) (asid line : Nat) : standing (dropLine s c asid line) = standing s :=
  standing_of_uncached (uncached_dropLine s c asid line)
@[simp] theorem standing_dropOthers (die asid line : Nat) (keep : Option CoreId) : standing (dropOthers s die asid line keep) = standing s :=
  standing_of_uncached (uncached_dropOthers s die asid line keep)
@[simp] theorem standing_dropLease (die asid line : Nat) : standing (dropLease s die asid line) = standing s :=
  standing_of_uncached (uncached_dropLease s die asid line)

/-! ## Bytes stored -/

@[simp] theorem standing_markWritten (pa n : Nat) : standing (markWritten s pa n) = standing s := by
  unfold markWritten
  split <;> rfl

@[simp] theorem standing_store (pa : Nat) (bs : List Byte) : standing (s.store pa bs) = standing s := standing_markWritten _ pa bs.length

@[simp] theorem standing_fireArms (asid line : Nat) : standing (fireArms s asid line) = standing s := by
  unfold fireArms
  dsimp only
  split <;> rfl

@[simp] theorem standing_storeAt (asid : Nat) (va : DWord) (pa : Nat) (bs : List Byte) : standing (storeAt s asid va pa bs) = standing s :=
  (foldl_keeps (fun t l => standing_fireArms t asid l) _ _).trans (standing_store s pa bs)

@[simp] theorem standing_tokenCross (pa n : Nat) : standing (tokenCross s pa n) = standing s := by
  unfold tokenCross
  dsimp only
  split
  · rfl
  · exact standing_of_map rfl rfl rfl fun r => by split <;> rfl

@[simp] theorem standing_clearHolders (home asid line : Nat) (owner : Option Nat) : standing (clearHolders s home asid line owner) = standing s := by
  have hfold (l : List Lease) : standing (l.foldl (fun acc l => dropLease acc l.die l.asid l.line) s) = standing s :=
    foldl_keeps (fun t l => standing_dropLease t _ _ _) l s
  unfold clearHolders
  dsimp only
  split <;> simp [hfold]

@[simp] theorem standing_dropEverywhere (pa asid line : Nat) : standing (dropEverywhere s pa asid line) = standing s :=
  (foldl_keeps (fun t d => standing_dropOthers t d asid line none) _ _).trans (by simp)

@[simp] theorem standing_engineStore (asid : Nat) (va : DWord) (pa : Nat) (bs : List Byte) : standing (engineStore s asid va pa bs) = standing s := by
  rw [engineStore, standing_tokenCross, standing_storeAt]
  exact foldl_keeps (fun t l => standing_dropEverywhere t pa asid l) _ s

@[simp] theorem standing_dropPhysical (pa : Nat) : standing (dropPhysical s pa) = standing s := by
  rw [dropPhysical, standing_modDie, foldl_keeps fun t l => standing_dropLease t _ _ _]
  exact foldl_keeps (fun t (c : Core) => foldl_keeps (fun u ln => standing_dropLine u c.id _ _) _ t) _ s

@[simp] theorem standing_physStore (pa : Nat) (bs : List Byte) : standing (physStore s pa bs) = standing s := by
  rw [physStore, standing_tokenCross, standing_store, standing_dropPhysical]

/-! ## Writes of the firmware -/

@[simp] theorem standing_windowDone (w : HomeWrite) : standing (windowDone s w) = standing s := by
  unfold windowDone
  split <;> rfl

@[simp] theorem standing_homeWriteNow (w : HomeWrite) : standing (homeWriteNow s w) = standing s := by
  rw [homeWriteNow, standing_windowDone]
  split <;> simp

@[simp] theorem standing_announceWrite (pa asid line : Nat) : standing (announceWrite s pa asid line) = standing s := by
  unfold announceWrite
  dsimp only
  split <;> rfl

@[simp] theorem standing_homeWrite (w : HomeWrite) : standing (homeWrite s w) = standing s := by
  unfold homeWrite
  split
  · simp
  · dsimp only
    split
    · rw [standing_announceWrite]; rfl
    · rfl

@[simp] theorem standing_enqueue (port first : Nat) (m : FabMsg) (dl : Option DWord) : standing (enqueue s port first m dl) = standing s := by
  unfold enqueue
  split <;> rfl

theorem standing_sendFor {s t : State} {pkg asid va : Nat} {m : FabMsg} {dl : Option DWord} (h : sendFor s pkg asid va m dl = some t) :
    standing t = standing s := by
  obtain ⟨p, -, rfl⟩ := Option.map_eq_some_iff.1 h
  simp

@[simp] theorem standing_fwSend (pkg asid va : Nat) (bs : List Byte) : standing (fwSend s pkg asid va bs) = standing s := by
  unfold fwSend
  dsimp only
  split
  · rfl
  · split
    · rename_i t ht
      have hkept := standing_sendFor ht
      exact hkept
    · rfl

@[simp] theorem standing_setA (a e : Nat) : standing (setA s a e) = standing s := by
  unfold setA
  split
  · exact standing_store s a _
  · split <;> rfl

@[simp] theorem standing_leafOf (d asid va : Nat) : standing (leafOf s d asid va).2 = standing s := by
  unfold leafOf
  dsimp only
  split
  · rfl
  · split
    · rfl
    · split <;> rfl

@[simp] theorem standing_fillTlb (d asid va : Nat) (l : Leaf) : standing (fillTlb s d asid va l) = standing s := by
  cases l with
  | leaf e a big =>
    unfold fillTlb
    dsimp only
    split
    · rfl
    · rw [standing_modDie]
      split
      · rfl
      · exact standing_setA s a e
  | absent => rfl
  | bad => rfl

@[simp] theorem standing_translate (d asid : Nat) (user : Bool) (want : Want) (va : DWord) :
    standing (translate s d asid user want va).2 = standing s := by
  unfold translate
  dsimp only
  split <;> simp

@[simp] theorem standing_translateHome (asid : Nat) (user : Bool) (want : Want) (va : DWord) :
    standing (translateHome s asid user want va).2 = standing s := by
  unfold translateHome
  split <;> simp

theorem standing_withHostMem (m : Sparse Byte) : standing { s with hostMem := m } = standing s := rfl

@[simp] theorem standing_writeVa (asid va : Nat) (bs : List Byte) : standing (writeVa s asid va bs) = standing s := by
  refine foldl_keeps (fun t _ => ?_) _ s
  dsimp only
  split
  · simp
  · split
    · rfl
    · rw [standing_withHostMem, standing_translateHome]
  · simp
  · rfl

@[simp] theorem standing_writePa (pa : Nat) (bs : List Byte) : standing (writePa s pa bs) = standing s :=
  foldl_keeps (fun t _ => standing_homeWrite t _) _ s

/-! ## The work of a region dropped -/

@[simp] theorem standing_writeExits (r : Region) (gi end0 : Nat) : standing (writeExits s r gi end0) = standing s := by
  unfold writeExits
  split
  · rfl
  · exact foldl_keeps (fun t m => standing_writeVa t _ _ _) _ s

@[simp] theorem standing_removeGroups (p : Workgroup → Bool) : standing (removeGroups s p) = standing s :=
  foldl_keeps (F := standing) (f := freeBanks) (fun t g => standing_modCore t g.core _) _ _

@[simp] theorem standing_modWort (ctx id : Nat) (f : Wort → Wort) : standing (modWort s ctx id f) = standing s :=
  standing_of_map rfl rfl rfl fun r => by split <;> rfl

@[simp] theorem standing_evictWortLine (ctx id line : Nat) : standing (evictWortLine s ctx id line) = standing s := by
  unfold evictWortLine
  split
  · rfl
  · split
    · rfl
    · dsimp only
      split <;> simp

@[simp] theorem standing_closeWort (r : Region) (x : Wort) : standing (closeWort s r x) = standing s := by
  unfold closeWort
  split
  · rfl
  · rw [standing_modWort]
    exact foldl_keeps (fun t i => standing_evictWortLine t _ _ i) _ s

@[simp] theorem standing_startWaiting (e : CopyEnd) : standing (startWaiting s e) = standing s := by
  unfold startWaiting
  split
  · rfl
  · split
    · rfl
    · split <;> rfl

@[simp] theorem standing_dropCopies (p : Copy → Bool) : standing (dropCopies s p) = standing s :=
  foldl_keeps (F := standing) (fun t (c : Copy) => standing_startWaiting t c.dst) _ _

/-! ## The records of a containment (R459) -/

@[simp] theorem standing_queueRecord (k : Nat) (bs : List Byte) : standing (queueRecord s k bs) = standing s := by
  unfold queueRecord
  dsimp only
  split
  · rfl
  · rw [standing_modFn, standing_writePa]; rfl

@[simp] theorem standing_reportContain (a : Agent) (rings : List Nat) (domain : Nat) : standing (reportContain a rings s domain) = standing s := by
  refine (foldl_keeps (fun t k => standing_queueRecord t k _) _ _).trans ?_
  rw [standing_queueRecord]; rfl

/-! ## A wort line that is lost (R359) -/

theorem standing_drawBytes (n : Nat) : standing (s.drawBytes n).2 = standing s := by
  induction n generalizing s with
  | zero => rfl
  | succ n ih => exact ih s.drawByte.2

@[simp] theorem standing_wortLost (ctx region line : Nat) : standing (wortLost s ctx region line) = standing s := by
  unfold wortLost
  split
  · rfl
  · split
    · rfl
    · dsimp only
      split
      · rw [standing_modWort]; rfl
      · rw [standing_storeAt, standing_drawBytes, standing_modWort]; rfl

end

end Sys2Proof.Machine
end

section
/-! Containment ends every live region of the contexts it is made for (R457 to R459): a stop ends the region of a handle for good, and
leaves each other region as it is or ends it. -/

namespace Sys2Proof.Machine

/-- A live region is as it was or has been halted; what has ended stays as it is. No cluster changes but in its snoop filter. -/
structure OnlyEnds (s t : State) : Prop where
  clusters : ∀ k, unfiltered (t.getCluster k) = unfiltered (s.getCluster k)
  degraded : t.degraded = s.degraded
  regions : ∀ h r, s.getRegion h = some r → ∃ r', t.getRegion h = some r' ∧ r'.ctx = r.ctx ∧ r'.eff = r.eff ∧
    (r'.status = r.status ∨ r.status = 0 ∧ r'.status = 2)

theorem OnlyEnds.refl (s : State) : OnlyEnds s s := ⟨fun _ => rfl, rfl, fun _ r h => ⟨r, h, rfl, rfl, .inl rfl⟩⟩

theorem OnlyEnds.trans {s t u : State} (h : OnlyEnds s t) (h' : OnlyEnds t u) : OnlyEnds s u where
  clusters k := (h'.clusters k).trans (h.clusters k)
  degraded := h'.degraded.trans h.degraded
  regions k r hr := by
    obtain ⟨r1, hr1, hctx1, heff1, hst1⟩ := h.regions k r hr
    obtain ⟨r2, hr2, hctx2, heff2, hst2⟩ := h'.regions k r1 hr1
    refine ⟨r2, hr2, hctx2.trans hctx1, heff2.trans heff1, ?_⟩
    omega

theorem OnlyEnds.foldl {β : Type} {f : State → β → State} (h : ∀ s b, OnlyEnds s (f s b)) (l : List β) (s : State) : OnlyEnds s (l.foldl f s) := by
  induction l generalizing s with
  | nil => exact .refl s
  | cons b l ih => exact (h s b).trans (ih _)

/-- A region of a list whose elements a function maps without a change of their handles. -/
theorem find_map_handle {f : Region → Region} (hf : ∀ r, (f r).handle = r.handle) (l : List Region) (h : Nat) :
    (l.map f).find? (fun r => r.handle == h) = (l.find? fun r => r.handle == h).map f := by
  rw [List.find?_map]
  exact congrArg _ (congrArg (List.find? · l) (funext fun r => by simp [hf]))

theorem getRegion_of_standing {s t : State} (h : standing t = standing s) (k : Nat) :
    (t.getRegion k).map bareRegion = (s.getRegion k).map bareRegion := by
  rw [State.getRegion, State.getRegion, ← find_map_handle (f := bareRegion) fun _ => rfl, ← find_map_handle (f := bareRegion) fun _ => rfl]
  exact congrArg (List.find? _) (congrArg Prod.fst h)

theorem onlyEnds_of_standing {s t : State} (h : standing t = standing s) : OnlyEnds s t where
  clusters k := congrFun (congrArg (·.2.1) h) k
  degraded := congrArg (·.2.2) h
  regions k r hr := by
    have hsame := getRegion_of_standing h k
    rw [hr] at hsame
    obtain ⟨r', hr', hbare⟩ := Option.map_eq_some_iff.1 hsame
    exact ⟨r', hr', (congrArg Region.ctx hbare :), (congrArg Region.eff hbare :), .inl (congrArg Region.status hbare :)⟩

/-! ## A region stopped -/

/-- The region of a handle has been halted. -/
def HasEnded (s : State) (h : Nat) : Prop := (s.getRegion h).map (·.status) = some 2

theorem HasEnded.kept {s t : State} {h : Nat} (he : HasEnded s h) (hk : OnlyEnds s t) : HasEnded t h := by
  obtain ⟨r, hr, hst⟩ := Option.map_eq_some_iff.1 he
  obtain ⟨r', hr', -, -, hst'⟩ := hk.regions h r hr
  rw [HasEnded, hr', Option.map_some]
  exact congrArg some (by omega)

/-- A region that has been halted and holds nothing more. -/
def endedRegion (r : Region) : Region := { r with status := 2, allocs := [] }

/-- The machine before the region itself ends: its records are written, its work is dropped and its worts are closed. -/
def regionDropped (end0 : Nat) (s : State) (r : Region) : State :=
  let retired (gi : Nat) : Bool := s.gangs.any fun x => x.region == r.handle && x.g == gi && (x.st == .retired || x.retire == 2)
  let mine (g : Nat) : Bool := s.gangs.any fun x => x.id == g && x.region == r.handle
  r.worts.foldl (fun acc x => closeWort acc r x)
    (removeGroups (if r.leaf then (List.range r.eff.gangs).foldl (fun acc gi => if retired gi then acc else writeExits acc r gi end0) s else s)
      fun g => mine g.gang)

theorem standing_regionDropped (end0 : Nat) (s : State) (r : Region) : standing (regionDropped end0 s r) = standing s := by
  unfold regionDropped
  dsimp only
  rw [foldl_keeps fun t x => standing_closeWort t r x, standing_removeGroups]
  split
  · exact foldl_keeps (fun t gi => by split <;> simp) _ s
  · rfl

/-- What the stop of a handle does to a region. -/
def endedAt (h : Nat) (r : Region) : Region := if r.handle == h then endedRegion r else r

theorem endedAt_self {h : Nat} {r : Region} (hr : r.handle = h) : endedAt h r = endedRegion r := if_pos (beq_iff_eq.2 hr)

theorem endedAt_ne {h : Nat} {r : Region} (hr : r.handle ≠ h) : endedAt h r = r := if_neg fun e => hr (beq_iff_eq.1 e)

theorem stopRegion_live {end0 : Nat} {s : State} {r0 r : Region} (hr : s.getRegion r0.handle = some r) (hst : r.status = 0) :
    standing (stopRegion end0 s r0) = ((standing s).1.map (endedAt r.handle), (standing s).2) := by
  have hkept := standing_regionDropped end0 s r
  unfold stopRegion
  rw [hr]
  dsimp only
  rw [if_neg (by simp [hst])]
  refine Prod.ext ?_ ((congrArg Prod.snd (standing_dropCopies (regionDropped end0 s r) _)).trans (congrArg Prod.snd hkept :))
  rw [← hkept]
  show ((regionDropped end0 s r).regions.map (endedAt r.handle)).map bareRegion = ((regionDropped end0 s r).regions.map bareRegion).map (endedAt r.handle)
  rw [List.map_map, List.map_map]
  refine List.map_congr_left fun x _ => ?_
  show bareRegion (endedAt r.handle x) = endedAt r.handle (bareRegion x)
  by_cases hx : x.handle = r.handle
  · rw [endedAt_self hx, endedAt_self (show (bareRegion x).handle = r.handle from hx)]; rfl
  · rw [endedAt_ne hx, endedAt_ne (show (bareRegion x).handle ≠ r.handle from hx)]

theorem stopRegion_dead {end0 : Nat} {s : State} {r0 : Region} (h : ∀ r, s.getRegion r0.handle = some r → r.status ≠ 0) :
    stopRegion end0 s r0 = s := by
  unfold stopRegion
  cases hr : s.getRegion r0.handle with
  | none => rfl
  | some r => exact if_pos (bne_iff_ne.2 (h r hr))

theorem endedAt_handle (h : Nat) (r : Region) : (endedAt h r).handle = r.handle := by
  unfold endedAt
  split <;> rfl

theorem handle_of_getRegion {s : State} {h : Nat} {r : Region} (hr : s.getRegion h = some r) : r.handle = h := by
  simpa using List.find?_some hr

/-- What a handle's region reads as once a live region is stopped. -/
theorem getRegion_stopRegion {end0 : Nat} {s : State} {r0 r : Region} (hr : s.getRegion r0.handle = some r) (hst : r.status = 0) (h : Nat) :
    ((stopRegion end0 s r0).getRegion h).map bareRegion = (s.getRegion h).map fun x => endedAt r.handle (bareRegion x) := by
  rw [State.getRegion, State.getRegion, ← find_map_handle (f := bareRegion) fun _ => rfl,
    show (stopRegion end0 s r0).regions.map bareRegion = _ from congrArg Prod.fst (stopRegion_live hr hst),
    ← find_map_handle fun x => endedAt_handle r.handle (bareRegion x)]
  exact congrArg (List.find? _) (List.map_map ..)

theorem stopRegion_onlyEnds (end0 : Nat) (s : State) (r0 : Region) : OnlyEnds s (stopRegion end0 s r0) := by
  by_cases hlive : ∃ r, s.getRegion r0.handle = some r ∧ r.status = 0
  · obtain ⟨r, hr, hst⟩ := hlive
    have hsnd := congrArg Prod.snd (stopRegion_live (end0 := end0) hr hst)
    refine ⟨fun k => congrFun (congrArg Prod.fst hsnd) k, congrArg Prod.snd hsnd, fun h x hx => ?_⟩
    have hread := getRegion_stopRegion (end0 := end0) hr hst h
    rw [hx, Option.map_some] at hread
    obtain ⟨x', hx', hbare⟩ := Option.map_eq_some_iff.1 hread
    refine ⟨x', hx', ?_⟩
    by_cases hat : x.handle = r.handle
    · have hxr : x = r := by
        rw [handle_of_getRegion hx, handle_of_getRegion hr] at hat
        rw [hat, hr] at hx
        exact (Option.some.inj hx).symm
      rw [endedAt_self (show (bareRegion x).handle = r.handle from hat)] at hbare
      exact ⟨(congrArg Region.ctx hbare :), (congrArg Region.eff hbare :), .inr ⟨hxr ▸ hst, (congrArg Region.status hbare :)⟩⟩
    · rw [endedAt_ne (show (bareRegion x).handle ≠ r.handle from hat)] at hbare
      exact ⟨(congrArg Region.ctx hbare :), (congrArg Region.eff hbare :), .inl (congrArg Region.status hbare :)⟩
  · rw [stopRegion_dead fun r hr hst => hlive ⟨r, hr, hst⟩]
    exact .refl s

theorem stopRegion_ends {end0 : Nat} {s : State} {r0 r : Region} (hr : s.getRegion r0.handle = some r) (hst : r.status = 0) :
    HasEnded (stopRegion end0 s r0) r0.handle := by
  have hread := getRegion_stopRegion (end0 := end0) hr hst r0.handle
  rw [hr, Option.map_some, endedAt_self (show (bareRegion r).handle = r.handle from rfl)] at hread
  obtain ⟨r', hr', hbare⟩ := Option.map_eq_some_iff.1 hread
  rw [HasEnded, hr', Option.map_some]
  exact congrArg some (congrArg Region.status hbare :)

/-! ## Several regions -/

/-- In a row of steps that only end regions, a live region ends if one of the steps would end it while it is live. -/
theorem hasEnded_foldl {β : Type} {f : State → β → State} (hf : ∀ s b, OnlyEnds s (f s b)) {h : Nat} {b : β} {l : List β} {s : State} {r : Region}
    (hr : s.getRegion h = some r) (hst : r.status = 0) (hb : b ∈ l)
    (hends : ∀ u r', u.getRegion h = some r' → r'.status = 0 → r'.ctx = r.ctx → r'.eff = r.eff → HasEnded (f u b) h) :
    HasEnded (l.foldl f s) h := by
  induction l generalizing s r with
  | nil => exact absurd hb List.not_mem_nil
  | cons x l ih =>
    obtain ⟨r1, hr1, hctx, heff, hst1⟩ := (hf s x).regions h r hr
    obtain hst1 | ⟨-, hst1⟩ := hst1
    · obtain rfl | hb := List.mem_cons.1 hb
      · exact (hends s r hr hst rfl rfl).kept (.foldl hf l _)
      · exact ih hr1 (hst1.trans hst) hb fun u r' hr' hst' hctx' heff' => hends u r' hr' hst' (hctx'.trans hctx) (heff'.trans heff)
    · exact HasEnded.kept (by rw [HasEnded, hr1, Option.map_some, hst1]) (.foldl hf l (f s x))

theorem mem_of_getRegion {s : State} {h : Nat} {r : Region} (hr : s.getRegion h = some r) : r ∈ s.regions := List.mem_of_find?_eq_some hr

/-! ## Containment (R457, R458) -/

theorem containDomain_onlyEnds (a : Agent) (rings : List Nat) (s : State) (d : Nat) : OnlyEnds s (containDomain a rings s d) :=
  (OnlyEnds.foldl (stopRegion_onlyEnds 2) _ s).trans (onlyEnds_of_standing (standing_reportContain _ a rings d))

theorem containDomain_ends (a : Agent) (rings : List Nat) {s : State} {h : Nat} {r : Region} (hr : s.getRegion h = some r) (hst : r.status = 0) :
    HasEnded (containDomain a rings s r.eff.domain) h := by
  have hin : r ∈ s.regions.filter fun x => x.status == 0 && x.eff.domain == r.eff.domain :=
    List.mem_filter.2 ⟨mem_of_getRegion hr, by simp [hst]⟩
  have hstop : HasEnded ((s.regions.filter fun x => x.status == 0 && x.eff.domain == r.eff.domain).foldl (stopRegion 2) s) h := by
    refine hasEnded_foldl (stopRegion_onlyEnds 2) hr hst hin fun u r' hr' hst' _ _ => ?_
    rw [← handle_of_getRegion hr] at hr' ⊢
    exact stopRegion_ends hr' hst'
  exact hstop.kept (onlyEnds_of_standing (standing_reportContain _ a rings _))

theorem contain_onlyEnds (s : State) (a : Agent) (ctxs : List Nat) : OnlyEnds s (contain s a ctxs) := by
  unfold contain
  dsimp only
  split
  · exact onlyEnds_of_standing (standing_reportContain s.drawDWord.2 a [] _)
  · exact .foldl (fun t d => containDomain_onlyEnds a _ t d) _ s

theorem mem_affectedRegions {s : State} {ctxs : List Nat} {h : Nat} {r : Region} (hr : s.getRegion h = some r) (hst : r.status = 0) (hctx : r.ctx ∈ ctxs) :
    r ∈ affectedRegions s ctxs := by
  have hin : r ∈ s.regions.filter fun x => ctxs.contains x.ctx && x.status == 0 :=
    List.mem_filter.2 ⟨mem_of_getRegion hr, by simp [hst, hctx]⟩
  unfold affectedRegions
  dsimp only
  rw [if_neg fun he => List.ne_nil_of_mem hin (List.isEmpty_iff.1 he)]
  exact hin

theorem contain_ends (a : Agent) {s : State} {ctxs : List Nat} {h : Nat} {r : Region} (hr : s.getRegion h = some r) (hst : r.status = 0)
    (hctx : r.ctx ∈ ctxs) : HasEnded (contain s a ctxs) h := by
  have hin := mem_affectedRegions hr hst hctx
  unfold contain
  dsimp only
  rw [if_neg fun he => List.ne_nil_of_mem hin (List.isEmpty_iff.1 he)]
  refine hasEnded_foldl (b := r.eff.domain) (fun t d => containDomain_onlyEnds a _ t d) hr hst
    (List.mem_eraseDups.2 (List.mem_map_of_mem hin)) fun u r' hr' hst' _ heff => ?_
  rw [← heff]
  exact containDomain_ends a _ hr' hst'

theorem contextEnded_contain (s : State) (a : Agent) {ctxs : List Nat} {ctx : Nat} (h : ctx ∈ ctxs) : ContextEnded s (contain s a ctxs) ctx :=
  fun _ hr hctx hst => contain_ends a hr hst (hctx ▸ h)

theorem containCtx_onlyEnds (s : State) (ctx : Nat) : OnlyEnds s (containCtx s ctx) := contain_onlyEnds s _ _

theorem contextEnded_containCtx (s : State) (ctx : Nat) : ContextEnded s (containCtx s ctx) ctx := contextEnded_contain s _ (List.mem_singleton.2 rfl)

end Sys2Proof.Machine
end

section
/-! A way of a slice fails (R293): the spare takes its place, or the portion is lost with the scratch of its owner. -/

namespace Sys2Proof.Machine

/-! ## HEALTHY -/

theorem getLsbD_clear_bit (m : BitVec 16) {way : Nat} (hway : way < 16) (k : Nat) :
    (m &&& ~~~(1#16 <<< way)).getLsbD k = (m.getLsbD k && k != way) := by
  rw [← BitVec.twoPow_eq, BitVec.getLsbD_and, BitVec.getLsbD_not, BitVec.getLsbD_twoPow]
  by_cases hk : k < 16
  · by_cases hkw : k = way
    · simp [hkw, hway]
    · simp [hk, hkw, Ne.symm hkw]
  · rw [BitVec.getLsbD_of_ge m k (by omega), Bool.false_and, Bool.false_and]

/-- A cluster with a bit of HEALTHY cleared. -/
def sickened (way : Nat) (x : Cluster) : Cluster := { x with healthy := x.healthy &&& ~~~(1#16 <<< way) }

/-- The spare of a slice in the place of a way. -/
def spareTaken (sl way : Nat) (x : Cluster) : Cluster := { sickened way x with spares := x.spares ++ [(sl, way)] }

/-- The same, with the copy of the way's bytes begun. -/
def spareCopying (sl way : Nat) (x : Cluster) : Cluster := { spareTaken sl way x with copying := x.copying ++ [(sl, way)] }

/-- A cluster with a list of lost portions. -/
def withDisabled (l : List (Nat × Nat)) (x : Cluster) : Cluster := { x with disabled := l }

/-- The portion of one slice in one way. -/
def isPortion (sl way i k : Nat) : Bool := i == sl && k == way

section
variable {s : State} {c : CluId} {sl way : Nat}

theorem exec_caskWayFailure (hsl : sl < 32) (hway : way < 16) : exec (.caskWayFailure c sl way) s = .next (caskWayFail s c sl way) := by
  show happens (if decide (sl < 32) && decide (way < 16) then caskWayFail s c sl way else s) = _
  rw [if_pos (by simp [hsl, hway])]
  rfl

theorem not_failing (hdis : (s.getCluster c).disabled.contains (sl, way) = false) (hcopy : (s.getCluster c).copying.contains (sl, way) = false) :
    ¬((s.getCluster c).disabled.contains (sl, way) || (s.getCluster c).copying.contains (sl, way)) = true := by
  rw [hdis, hcopy]; decide

variable (s c sl way)

/-- The machine once a portion is lost, before its owner is halted. -/
def portionLost : State :=
  { (releaseLines (s.modCluster c (sickened way)) c false (isPortion sl way)).modCluster c
      (withDisabled ((s.getCluster c).disabled ++ [(sl, way)])) with degraded := true }

theorem caskWayFail_eq : caskWayFail s c sl way =
    if (s.getCluster c).disabled.contains (sl, way) || (s.getCluster c).copying.contains (sl, way) then s
    else if (s.getCluster c).spares.any fun p => p.1 == sl then
      if roleOf (s.getCluster c).wpr way == 2 && (s.getCluster c).cso != 0 then containCtx (portionLost s c sl way) (s.getCluster c).cso.toNat
      else portionLost s c sl way
    else if roleOf (s.getCluster c).wpr way == 2 then { s.modCluster c (spareCopying sl way) with degraded := true }
    else { releaseLines (s.modCluster c (spareTaken sl way)) c true (isPortion sl way) with degraded := true } := rfl

variable {s c sl way}

theorem not_any_spare (h : ∀ p, p ∈ (s.getCluster c).spares → p.1 ≠ sl) : ¬((s.getCluster c).spares.any fun p => p.1 == sl) = true :=
  fun hany => by
    obtain ⟨p, hp, hpsl⟩ := List.any_eq_true.1 hany
    exact h p hp (beq_iff_eq.1 hpsl)

theorem caskWayFail_scratch (hdis : (s.getCluster c).disabled.contains (sl, way) = false)
    (hcopy : (s.getCluster c).copying.contains (sl, way) = false) (hspare : ∀ p, p ∈ (s.getCluster c).spares → p.1 ≠ sl)
    (hrole : roleOf (s.getCluster c).wpr way = 2) :
    caskWayFail s c sl way = { s.modCluster c (spareCopying sl way) with degraded := true } := by
  rw [caskWayFail_eq, if_neg (not_failing hdis hcopy), if_neg (not_any_spare hspare), if_pos (beq_iff_eq.2 hrole)]

theorem caskWayFail_cache (hdis : (s.getCluster c).disabled.contains (sl, way) = false)
    (hcopy : (s.getCluster c).copying.contains (sl, way) = false) (hspare : ∀ p, p ∈ (s.getCluster c).spares → p.1 ≠ sl)
    (hrole : roleOf (s.getCluster c).wpr way ≠ 2) :
    caskWayFail s c sl way = { releaseLines (s.modCluster c (spareTaken sl way)) c true (isPortion sl way) with degraded := true } := by
  rw [caskWayFail_eq, if_neg (not_failing hdis hcopy), if_neg (not_any_spare hspare), if_neg fun h => hrole (beq_iff_eq.1 h)]

theorem caskWayFail_lost (hdis : (s.getCluster c).disabled.contains (sl, way) = false)
    (hcopy : (s.getCluster c).copying.contains (sl, way) = false) (hspare : ∃ p, p ∈ (s.getCluster c).spares ∧ p.1 = sl) :
    caskWayFail s c sl way =
      if roleOf (s.getCluster c).wpr way = 2 ∧ (s.getCluster c).cso ≠ 0 then containCtx (portionLost s c sl way) (s.getCluster c).cso.toNat
      else portionLost s c sl way := by
  obtain ⟨p, hp, hpsl⟩ := hspare
  have hany : ((s.getCluster c).spares.any fun p => p.1 == sl) = true := List.any_eq_true.2 ⟨p, hp, beq_iff_eq.2 hpsl⟩
  rw [caskWayFail_eq, if_neg (not_failing hdis hcopy), if_pos hany]
  exact if_congr (by simp) rfl rfl

/-! ## What becomes of the cluster -/

variable (s c sl way)

theorem getCluster_sickened : (s.modCluster c (sickened way)).getCluster c = sickened way (s.getCluster c) :=
  getCluster_modCluster_self s c _ (getCluster_id s c)

theorem getCluster_portionLost : (portionLost s c sl way).getCluster c =
    withDisabled ((s.getCluster c).disabled ++ [(sl, way)])
      ((releaseLines (s.modCluster c (sickened way)) c false (isPortion sl way)).getCluster c) :=
  getCluster_modCluster_self (releaseLines (s.modCluster c (sickened way)) c false (isPortion sl way)) c _ (getCluster_id _ c)

theorem healthy_portionLost : ((portionLost s c sl way).getCluster c).healthy = (sickened way (s.getCluster c)).healthy := by
  have hread := unfiltered_releaseLines (s.modCluster c (sickened way)) c false (isPortion sl way)
  rw [getCluster_sickened] at hread
  rw [getCluster_portionLost]
  exact (congrArg Cluster.healthy hread :)

theorem disabled_portionLost : ((portionLost s c sl way).getCluster c).disabled = (s.getCluster c).disabled ++ [(sl, way)] := by
  rw [getCluster_portionLost]; rfl

theorem mem_portionLost : (portionLost s c sl way).mem = s.mem :=
  (congrArg State.mem (uncached_releaseLines_fst (s.modCluster c (sickened way)) c false (isPortion sl way)) :)

theorem regions_portionLost : (portionLost s c sl way).regions = s.regions :=
  (congrArg State.regions (uncached_releaseLines_fst (s.modCluster c (sickened way)) c false (isPortion sl way)) :)

end

/-- Portions released after a change of the cluster that keeps its lines and counts are released of the machine before. -/
theorem Released.of_modCluster {s t : State} {c : CluId} {p : Nat → Nat → Bool} {f : Cluster → Cluster} (hid : (f (s.getCluster c)).id = c)
    (hlines : (f (s.getCluster c)).lines = (s.getCluster c).lines) (hdirty : (f (s.getCluster c)).wbDirty = (s.getCluster c).wbDirty)
    (hclean : (f (s.getCluster c)).invClean = (s.getCluster c).invClean) (hdrop : (f (s.getCluster c)).rdcDrop = (s.getCluster c).rdcDrop)
    (h : Released (s.modCluster c f) t c p) : Released s t c p := by
  unfold Released at *
  dsimp only at h ⊢
  rw [getCluster_modCluster_self s c f hid, hlines, hdirty, hclean, hdrop] at h
  exact h

theorem mem_copyDone {l : List (Nat × Nat)} {sl way : Nat} (p : Nat × Nat) :
    p ∈ l.filter (fun p => p != (sl, way)) ↔ p ∈ l ∧ p ≠ (sl, way) := by
  rw [List.mem_filter, bne_iff_ne]

section
variable {s : State} {c : CluId} {sl way : Nat}

/-- A scratch way's bytes are copied to the spare of its slice. -/
theorem exec_wayFails_scratch (hsl : sl < 32) (hway : way < 16) (hdis : (s.getCluster c).disabled.contains (sl, way) = false)
    (hcopy : (s.getCluster c).copying.contains (sl, way) = false) (hspare : ∀ p, p ∈ (s.getCluster c).spares → p.1 ≠ sl)
    (hrole : roleOf (s.getCluster c).wpr way = 2) :
    ∃ t, exec (.caskWayFailure c sl way) s = .next t ∧ t.getCluster c = spareCopying sl way (s.getCluster c) ∧ t.degraded = true ∧ t.mem = s.mem :=
  ⟨_, (exec_caskWayFailure hsl hway).trans (congrArg _ (caskWayFail_scratch hdis hcopy hspare hrole)),
    getCluster_modCluster_self s c (spareCopying sl way) (getCluster_id s c), rfl, rfl⟩

/-- The spare of a slice takes the place of a cache way at once, whose lines are released. -/
theorem exec_wayFails_cache (hsl : sl < 32) (hway : way < 16) (hdis : (s.getCluster c).disabled.contains (sl, way) = false)
    (hcopy : (s.getCluster c).copying.contains (sl, way) = false) (hspare : ∀ p, p ∈ (s.getCluster c).spares → p.1 ≠ sl)
    (hrole : roleOf (s.getCluster c).wpr way ≠ 2) :
    ∃ t, exec (.caskWayFailure c sl way) s = .next t ∧
      unfiltered (t.getCluster c) =
        linesReleased (s.modCluster c (spareTaken sl way)) c true (isPortion sl way) (unfiltered (spareTaken sl way (s.getCluster c))) ∧
      t.degraded = true ∧ t.mem = s.mem ∧ Released s t c (isPortion sl way) := by
  have hspared : (s.modCluster c (spareTaken sl way)).getCluster c = spareTaken sl way (s.getCluster c) :=
    getCluster_modCluster_self s c _ (getCluster_id s c)
  refine ⟨_, (exec_caskWayFailure hsl hway).trans (congrArg _ (caskWayFail_cache hdis hcopy hspare hrole)), ?_, rfl, ?_, ?_⟩
  · rw [← hspared]
    exact unfiltered_releaseLines _ c true _
  · exact (congrArg State.mem (uncached_releaseLines_fst (s.modCluster c (spareTaken sl way)) c true (isPortion sl way)) :)
  · exact Released.of_modCluster (getCluster_id s c) rfl rfl rfl rfl (released_releaseLines (s.modCluster c (spareTaken sl way)) c (isPortion sl way))

theorem getLsbD_sickened (hway : way < 16) (x : Cluster) (k : Nat) :
    (sickened way x).healthy.getLsbD k = (x.healthy.getLsbD k && k != way) := getLsbD_clear_bit x.healthy hway k

theorem getLsbD_sickened_self (hway : way < 16) (x : Cluster) : (sickened way x).healthy.getLsbD way = false := by
  rw [getLsbD_sickened hway, bne_self_eq_false, Bool.and_false]

theorem getLsbD_sickened_ne (hway : way < 16) (x : Cluster) {k : Nat} (hk : k ≠ way) :
    (sickened way x).healthy.getLsbD k = x.healthy.getLsbD k := by
  rw [getLsbD_sickened hway, bne_iff_ne.2 hk, Bool.and_true]

/-- A lost portion leaves its cluster with the bit clear and the portion disabled, whatever a containment ends. -/
theorem onlyEnds_portionLost {t : State} (h : OnlyEnds (portionLost s c sl way) t) (hway : way < 16) :
    (t.getCluster c).healthy.getLsbD way = false ∧ (t.getCluster c).disabled = (s.getCluster c).disabled ++ [(sl, way)] ∧ t.degraded = true := by
  have hread := h.clusters c
  have hhealthy : (t.getCluster c).healthy = (sickened way (s.getCluster c)).healthy :=
    (congrArg Cluster.healthy hread :).trans (healthy_portionLost s c sl way)
  exact ⟨by rw [hhealthy]; exact getLsbD_sickened_self hway _, (congrArg Cluster.disabled hread :).trans (disabled_portionLost s c sl way), h.degraded⟩

theorem contextEnded_portionLost {t : State} {ctx : Nat} (h : ContextEnded (portionLost s c sl way) t ctx) : ContextEnded s t ctx := by
  intro r hr
  refine h r ?_
  rwa [State.getRegion, regions_portionLost]

end

theorem waysFail : Clause.WaysFail := by
  refine ⟨fun s c sl way hsl hway hspare hdis hcopy => ?spared, fun s c sl way => ?copied, fun s c sl way hsl hway hspare hdis hcopy => ?lost⟩
  case spared =>
    by_cases hrole : roleOf (s.getCluster c).wpr way = 2
    · obtain ⟨t, hexec, hself, hdegraded, hmem⟩ := exec_wayFails_scratch hsl hway hdis hcopy hspare hrole
      refine ⟨t, hexec, ?_⟩
      rw [if_pos hrole, hself]
      exact ⟨getLsbD_sickened_self hway _, fun k hk => getLsbD_sickened_ne hway _ hk, rfl, rfl, rfl, hdegraded, hmem, rfl⟩
    · obtain ⟨t, hexec, hread, hdegraded, hmem, hreleased⟩ := exec_wayFails_cache hsl hway hdis hcopy hspare hrole
      have hhealthy : (t.getCluster c).healthy = (sickened way (s.getCluster c)).healthy := (congrArg Cluster.healthy hread :)
      refine ⟨t, hexec, ?_⟩
      rw [if_neg hrole, hhealthy]
      exact ⟨getLsbD_sickened_self hway _, fun k hk => getLsbD_sickened_ne hway _ hk, (congrArg Cluster.spares hread :),
        (congrArg Cluster.cask hread :), (congrArg Cluster.disabled hread :), hdegraded, hmem, (congrArg Cluster.copying hread :), hreleased⟩
  case copied =>
    obtain ⟨t, hexec, hrest, hself, -⟩ := onlyCluster (i := .spareWayCopyDone c sl way) (s := s) rfl (getCluster_id s c)
    exact ⟨t, hexec, hrest, by rw [hself], fun p => by rw [hself]; exact mem_copyDone p⟩
  case lost =>
    have hexec := (exec_caskWayFailure hsl hway).trans (congrArg _ (caskWayFail_lost hdis hcopy hspare))
    by_cases hhalt : roleOf (s.getCluster c).wpr way = 2 ∧ (s.getCluster c).cso ≠ 0
    · rw [if_pos hhalt] at hexec
      obtain ⟨hhealthy, hdisabled, hdegraded⟩ := onlyEnds_portionLost (containCtx_onlyEnds (portionLost s c sl way) _) hway
      exact ⟨_, hexec, hhealthy, hdisabled, hdegraded, fun _ _ => contextEnded_portionLost (contextEnded_containCtx _ _),
        fun hrole => absurd hhalt.1 hrole⟩
    · rw [if_neg hhalt] at hexec
      obtain ⟨hhealthy, hdisabled, hdegraded⟩ := onlyEnds_portionLost (OnlyEnds.refl (portionLost s c sl way)) hway
      exact ⟨_, hexec, hhealthy, hdisabled, hdegraded, fun hrole hcso => absurd ⟨hrole, hcso⟩ hhalt,
        fun _ => ⟨mem_portionLost s c sl way, regions_portionLost s c sl way⟩⟩

end Sys2Proof.Machine
end

section
/-! Failed cores and uncorrectable errors (R271, R294, R295), and with them the events of the cask layer together. -/

namespace Sys2Proof.Machine

/-! ## CMAP after the spare procedure (R271, R295) -/

theorem physOf_testBit (x : Cluster) (k i : Nat) : (physOf x k).testBit i = (decide (i < 4) && x.cmap.getLsbD (4 * k + i)) := by
  rw [physOf, bitsAt, Nat.testBit_mod_two_pow, Nat.testBit_div_two_pow, BitVec.testBit_toNat, Nat.add_comm]

/-- The core that serves an index whose own has failed: core 8, or none once core 8 is used or has failed. -/
def spareFor (m : DWord) : Nat := if m.getLsbD 41 || m.getLsbD 40 then 15 else 8

theorem testBit_setBitsAt_one (x i j : Nat) : (setBitsAt x i 1 1).testBit j = (decide (j = i) || x.testBit j) := by
  rw [testBit_setBitsAt]
  by_cases hj : j = i
  · rw [if_pos (by omega), hj, Nat.sub_self, decide_eq_true rfl]; rfl
  · rw [if_neg (by omega), decide_eq_false hj, Bool.false_or]

theorem getLsbD_sparedMap (m : DWord) (core phys : Nat) {i : Nat} (hi : i < 64) :
    (sparedMap m core phys).getLsbD i = (decide (i = 41) && !(m.getLsbD 41 || m.getLsbD 40) || (decide (i = 32 + phys) ||
      if 4 * core ≤ i ∧ i < 4 * core + 4 then (spareFor m).testBit (i - 4 * core) else m.getLsbD i)) := by
  have hnone : (bitAt m.toNat 41 || bitAt m.toNat 40) = (m.getLsbD 41 || m.getLsbD 40) := by
    rw [bitAt_eq_testBit, bitAt_eq_testBit, BitVec.testBit_toNat, BitVec.testBit_toNat]
  unfold sparedMap spareFor
  dsimp only
  rw [hnone, BitVec.getLsbD_ofNat, decide_eq_true hi, Bool.true_and]
  cases m.getLsbD 41 || m.getLsbD 40 <;>
    simp [testBit_setBitsAt_one, testBit_setBitsAt _ _ 4, BitVec.testBit_toNat]

theorem spareFor_lt (m : DWord) : spareFor m < 2 ^ 4 := by
  unfold spareFor
  split <;> decide

theorem physOf_sparedMap {x y : Cluster} {core phys : Nat} (hy : y.cmap = sparedMap x.cmap core phys) {j : Nat} (hj : j < 8) :
    physOf y j = if j = core then spareFor x.cmap else physOf x j := by
  refine Nat.eq_of_testBit_eq fun i => ?_
  rw [physOf_testBit, hy]
  by_cases hi : i < 4
  · rw [getLsbD_sparedMap _ _ _ (by omega), decide_eq_true hi, decide_eq_false (by omega), decide_eq_false (by omega)]
    simp only [Bool.false_and, Bool.false_or, Bool.true_and]
    split
    · rename_i hin
      rw [if_pos (by omega)]
      exact congrArg _ (by omega)
    · rename_i hout
      rw [if_neg (by omega), physOf_testBit, decide_eq_true hi, Bool.true_and]
  · rw [decide_eq_false hi, Bool.false_and]
    split
    · exact (Nat.testBit_lt_two_pow ((spareFor_lt x.cmap).trans_le (Nat.pow_le_pow_right (by decide) (by omega)))).symm
    · rw [physOf_testBit, decide_eq_false hi, Bool.false_and]

/-- Bit 41: core 8 is in use from now on, unless it was to be had no more. -/
theorem spareUsed_sparedMap (m : DWord) {core phys : Nat} (hcore : core < 8) (hphys : phys < 9) :
    (sparedMap m core phys).getLsbD 41 = (m.getLsbD 41 || !m.getLsbD 40) := by
  rw [getLsbD_sparedMap m core phys (by decide), decide_eq_false (by omega : ¬41 = 32 + phys), if_neg (by omega)]
  cases m.getLsbD 41 <;> cases m.getLsbD 40 <;> rfl

/-- Bits 32 to 40: the failed cores, with one more. -/
theorem failed_sparedMap (m : DWord) {core phys : Nat} (hcore : core < 8) {j : Nat} (hj : j < 9) :
    (sparedMap m core phys).getLsbD (32 + j) = (m.getLsbD (32 + j) || decide (j = phys)) := by
  rw [getLsbD_sparedMap m core phys (by omega), decide_eq_false (by omega : ¬32 + j = 41), if_neg (by omega), Bool.false_and,
    Bool.false_or, Bool.or_comm]
  exact congrArg _ (decide_eq_decide.2 Nat.add_left_cancel_iff)

/-! ## A core replaced -/

section
variable (s : State) (c : CoreId) (phys : Nat)

/-- The machine once the lines of a core are absent. -/
def l1Emptied : State := (s.getCore c).l1.foldl (fun acc ln => dropLine acc c ln.asid ln.line) s

theorem uncached_l1Emptied : uncached (l1Emptied s c) = uncached s := foldl_keeps (fun t _ => uncached_dropLine t c _ _) _ s

theorem mem_swapCore : (swapCore s c phys).mem = s.mem := (congrArg (·.1.mem) (uncached_l1Emptied s c) :)
theorem regions_swapCore : (swapCore s c phys).regions = s.regions := (congrArg (·.1.regions) (uncached_l1Emptied s c) :)

theorem cmap_swapCore : ((swapCore s c phys).getCluster (cluOf c)).cmap = sparedMap (s.getCluster (cluOf c)).cmap c.core phys := by
  have hself : (swapCore s c phys).getCluster (cluOf c) = _ :=
    getCluster_modCluster_self ((l1Emptied s c).setCore { id := c }) (cluOf c) (fun x => { x with cmap := sparedMap x.cmap c.core phys }) (getCluster_id _ _)
  have hcmap : ((l1Emptied s c).getCluster (cluOf c)).cmap = (s.getCluster (cluOf c)).cmap :=
    (congrArg Cluster.cmap (congrFun (congrArg Prod.snd (uncached_l1Emptied s c)) (cluOf c)) :)
  rw [hself]
  exact congrArg (sparedMap · c.core phys) hcmap

/-! ## A core with nothing dirty (R180, R187) -/

theorem writeBack_nil (asid va : Nat) (p : Place) : writeBack s asid va p [] = s := by
  cases p with
  | mem pa => rfl
  | host a =>
    show (if s.linkw == 0 then s else s) = s
    exact ite_self s
  | far k => rfl

/-- The memory and the clusters. -/
def memAndClusters (s : State) : Sparse Byte × List Cluster := (s.mem, s.clusters)

theorem memAndClusters_kEvict {x : KSector} (h : dirtyOf x.bytes = []) : memAndClusters (kEvict s c x) = memAndClusters s := by
  rw [kEvict, kWriteBack, h, writeBack_nil]; rfl

/-- What no step of a fold over a list changes reads the same behind it. -/
theorem foldl_keeps_mem {α β : Type} {F : State → α} {f : State → β → State} {l : List β} (h : ∀ s, ∀ b ∈ l, F (f s b) = F s) (s : State) :
    F (l.foldl f s) = F s := by
  induction l generalizing s with
  | nil => rfl
  | cons b l ih =>
    rw [List.foldl_cons, ih fun u x hx => h u x (List.mem_cons_of_mem b hx), h s b List.mem_cons_self]

variable {s c}

theorem drainCore_clean (h : CoreClean s c) : ∃ t, drainCore s c = some t ∧ memAndClusters t = memAndClusters s := by
  obtain ⟨hkiln, hnc⟩ := h
  have hopen : ((s.getCore c).kiln.all (sectorOpen s) && (s.getCore c).nc.all (ncOpen s)) = true := by
    rw [Bool.and_eq_true, List.all_eq_true, List.all_eq_true]
    exact ⟨fun x hx => by rw [sectorOpen, hkiln x hx]; rfl, fun x hx => by rw [ncOpen, hnc x hx]; rfl⟩
  refine ⟨_, if_pos hopen, ?_⟩
  rw [foldl_keeps_mem (F := memAndClusters) fun t y hy => by rw [hnc y hy, writeBack_nil],
    foldl_keeps_mem (F := memAndClusters) fun t x hx => memAndClusters_kEvict t c (hkiln x hx)]

variable (s c)

/-- A core that takes no gang any more. -/
def retiredCore : State := s.modCore c fun x => { x with retiring := true }

theorem getCore_retiredCore : (retiredCore s c).getCore c = { s.getCore c with retiring := true } :=
  getCore_modCore_self s c (fun x => { x with retiring := true }) (getCore_id s c)

theorem dirtyCtxs_retiredCore : dirtyCtxs (retiredCore s c) c = dirtyCtxs s c := by
  rw [dirtyCtxs, getCore_retiredCore]; rfl

variable {s c}

theorem coreClean_retiredCore (h : CoreClean s c) : CoreClean (retiredCore s c) c := by
  unfold CoreClean
  rw [getCore_retiredCore]
  exact h

theorem dirtyCtxs_clean (h : CoreClean s c) : dirtyCtxs s c = [] := by
  have hnone : ((s.getCore c).kiln.filter fun k => !(dirtyOf k.bytes).isEmpty) = [] :=
    List.filter_eq_nil_iff.2 fun k hk => by rw [h.1 k hk]; decide
  rw [dirtyCtxs, hnone]; rfl

/-! ## CORE_RETIRE (R295) -/

variable (s c)

/-- The contexts that are contained when the state of a core cannot be read. -/
def coreCtxs : List Nat := (ctxsOf (retiredCore s c) (gangsOn (retiredCore s c) c) ++ dirtyCtxs (retiredCore s c) c).eraseDups

/-- The machine once they are. -/
def coreContained : State :=
  if (coreCtxs s c).isEmpty then retiredCore s c else contain (retiredCore s c) (.core c) (coreCtxs s c)

theorem retireCore_unreadable : retireCore s c phys false = swapCore (coreContained s c) c phys := rfl

variable {s c phys}

theorem retireCore_idle {t : State} (hgangs : gangsOn s c = []) (hdrain : drainCore (retiredCore s c) c = some t) :
    retireCore s c phys true = swapCore t c phys := by
  have hgs : (gangsOn (retiredCore s c) c).isEmpty = true := List.isEmpty_iff.2 hgangs
  refine (if_pos hgs).trans ?_
  unfold retiredCore at hdrain
  rw [hdrain]

theorem retireCore_busy (hgangs : gangsOn s c ≠ []) :
    retireCore s c phys true =
      ((gangsOn s c).filter fun g => g.st == .running).foldl (fun acc g => startPreempt acc g.id .save) (retiredCore s c) :=
  if_neg fun h => hgangs (List.isEmpty_iff.1 h)

/-- A core without gangs and dirty bytes is replaced, whether its state can be read or not. -/
theorem retireCore_clean (phys : Nat) (hgangs : gangsOn s c = []) (hclean : CoreClean s c) (readable : Bool) :
    ∃ u, retireCore s c phys readable = swapCore u c phys ∧ memAndClusters u = memAndClusters s := by
  cases readable with
  | false =>
    have hgs : gangsOn (retiredCore s c) c = [] := hgangs
    have hnone : (coreCtxs s c).isEmpty = true := by
      rw [coreCtxs, hgs, dirtyCtxs_retiredCore, dirtyCtxs_clean hclean]; rfl
    exact ⟨retiredCore s c, by rw [retireCore_unreadable, coreContained, if_pos hnone], rfl⟩
  | true =>
    obtain ⟨t, hdrain, hkept⟩ := drainCore_clean (coreClean_retiredCore hclean)
    exact ⟨t, retireCore_idle hgangs hdrain, hkept⟩

theorem contextEnded_coreContained {ctx : Nat} (h : ctx ∈ ctxsOf s (gangsOn s c) ∨ ctx ∈ dirtyCtxs s c) :
    ContextEnded s (coreContained s c) ctx := by
  have hin : ctx ∈ coreCtxs s c := by
    rw [coreCtxs, dirtyCtxs_retiredCore]
    exact List.mem_eraseDups.2 (List.mem_append.2 h)
  rw [coreContained, if_neg fun he => List.ne_nil_of_mem hin (List.isEmpty_iff.1 he)]
  exact contextEnded_contain (retiredCore s c) _ hin

/-- A core that cannot be read takes its contexts with it. -/
theorem contextEnded_retireCore {ctx : Nat} (h : ctx ∈ ctxsOf s (gangsOn s c) ∨ ctx ∈ dirtyCtxs s c) :
    ContextEnded s (retireCore s c phys false) ctx := by
  intro r hr hctx hst
  rw [retireCore_unreadable, State.getRegion, regions_swapCore]
  exact contextEnded_coreContained h r hr hctx hst

theorem mem_ctxsOf {gs : List Gang} {g : Gang} {r : Region} (hg : g ∈ gs) (hr : s.getRegion g.region = some r) : r.ctx ∈ ctxsOf s gs :=
  List.mem_eraseDups.2 (List.mem_filterMap.2 ⟨g, hg, by rw [hr]; rfl⟩)

/-- What the indexes and the failed cores of a cluster read as once one core is replaced. -/
theorem cmap_retireCore (hgangs : gangsOn s c = []) (hclean : CoreClean s c) (readable : Bool) :
    ((retireCore s c phys readable).getCluster (cluOf c)).cmap = sparedMap (s.getCluster (cluOf c)).cmap c.core phys ∧
      (retireCore s c phys readable).mem = s.mem ∧ (retireCore s c phys readable).degraded = true := by
  obtain ⟨u, hretire, hkept⟩ := retireCore_clean phys hgangs hclean readable
  have hread : u.getCluster (cluOf c) = s.getCluster (cluOf c) := by
    rw [State.getCluster, show u.clusters = s.clusters from congrArg Prod.snd hkept, State.getCluster]
  rw [hretire, cmap_swapCore, hread, mem_swapCore]
  exact ⟨rfl, congrArg Prod.fst hkept, rfl⟩

end

/-! ## Gangs saved (R295, R420) -/

/-- A gang that has entered pre-empting with a save. -/
def Saving (s : State) (n : Nat) : Prop := (s.getGang n).map (fun y => (y.st, y.action)) = some (.preempting, .save)

theorem mem_startPreempt_save (s : State) (n : Nat) : (startPreempt s n .save).mem = s.mem := rfl

theorem saving_startPreempt_self {s : State} {n : Nat} {g : Gang} (h : s.getGang n = some g) : Saving (startPreempt s n .save) n := by
  have hread := getGang_modGang_self s n
    (fun y => { y with st := .preempting, preempts := min (y.preempts + 1) 0xFFFF, choice := .save, action := .save, actionAt := s.clock }) fun _ => rfl
  rw [h] at hread
  exact congrArg (Option.map fun y : Gang => (y.st, y.action)) hread

theorem getGang_startPreempt_ne (s : State) {n k : Nat} (h : k ≠ n) : (startPreempt s n .save).getGang k = s.getGang k :=
  getGang_modGang_ne s _ (fun _ => rfl) h

theorem saving_foldl {l : List Gang} {s : State} {n : Nat} (h : Saving s n ∨ (∃ g, s.getGang n = some g) ∧ ∃ g, g ∈ l ∧ g.id = n) :
    Saving (l.foldl (fun acc g => startPreempt acc g.id .save) s) n := by
  induction l generalizing s with
  | nil =>
    obtain h | ⟨-, g, hg, -⟩ := h
    · exact h
    · exact absurd hg List.not_mem_nil
  | cons x l ih =>
    refine ih ?_
    by_cases hx : n = x.id
    · subst hx
      obtain ⟨g, hg⟩ : ∃ g, s.getGang x.id = some g := by
        obtain h | ⟨h, -⟩ := h
        · obtain ⟨g, hg, -⟩ := Option.map_eq_some_iff.1 h
          exact ⟨g, hg⟩
        · exact h
      exact .inl (saving_startPreempt_self hg)
    · rw [Saving, getGang_startPreempt_ne s hx]
      obtain h | ⟨hsome, g, hg, hid⟩ := h
      · exact .inl h
      · obtain rfl | hg := List.mem_cons.1 hg
        · exact absurd hid.symm hx
        · exact .inr ⟨hsome, g, hg, hid⟩

theorem mem_gangs_of_gangsOn {s : State} {c : CoreId} {g : Gang} (h : g ∈ gangsOn s c) : g ∈ s.gangs := List.mem_of_mem_filter h

theorem exists_getGang {s : State} {g : Gang} (h : g ∈ s.gangs) : ∃ y, s.getGang g.id = some y :=
  Option.isSome_iff_exists.1 (List.find?_isSome.2 ⟨g, h, beq_self_eq_true g.id⟩)

/-! ## Events of the cluster -/

/-- The index that a physical core serves. -/
theorem exec_coreRetire {s : State} {c : CluId} {phys k : Nat} (hk : k < 8) (hserves : physOf (s.getCluster c) k = phys)
    (hfirst : ∀ j, j < k → physOf (s.getCluster c) j ≠ phys) (readable : Bool) :
    exec (.coreRetire c phys readable) s = .next (retireCore s ⟨c.die, c.clu, k⟩ phys readable) := by
  have hfind : ((List.range 8).find? fun j => physOf (s.getCluster c) j == phys) = some k :=
    List.find?_range_eq_some.2 ⟨beq_iff_eq.2 hserves, List.mem_range.2 hk, fun j hj => by simpa using hfirst j hj⟩
  show execCoreRetire c phys readable s = _
  unfold execCoreRetire
  dsimp only
  rw [hfind]
  rfl

/-- Core 8 has failed before it serves any index. -/
theorem exec_coreRetire_spare {s : State} {c : CluId} (h : ∀ k, k < 8 → physOf (s.getCluster c) k ≠ 8) (readable : Bool) :
    exec (.coreRetire c 8 readable) s =
      .next { s.modCluster c (fun y => { y with cmap := y.cmap ||| (1#64 <<< 40) }) with degraded := true } := by
  have hfind : ((List.range 8).find? fun j => physOf (s.getCluster c) j == 8) = none :=
    List.find?_eq_none.2 fun j hj => by simpa using h j (List.mem_range.1 hj)
  show execCoreRetire c 8 readable s = _
  unfold execCoreRetire
  dsimp only
  rw [hfind]
  rfl

/-! ## Uncorrectable errors (R294) -/

theorem exec_uncorrectableError {e : ErrAt} (h : ∀ fn bar off len, e ≠ .hostRead fn bar off len) (s : State) :
    exec (.uncorrectableError e) s = .next (uncorrectable s e) := by
  cases e
  case hostRead => exact absurd rfl (h _ _ _ _)
  all_goals rfl

theorem contextEnded_of_standing {s u : State} {ctx : Nat} (hsame : standing u = standing s) (h : ContextEnded u (containCtx u ctx) ctx) :
    ContextEnded s (containCtx u ctx) ctx := by
  intro r hr hctx hst
  obtain ⟨r', hr', hctx', -, hst'⟩ := (onlyEnds_of_standing hsame).regions r.handle r hr
  obtain hst' | ⟨-, hst'⟩ := hst'
  · have hhandle := handle_of_getRegion hr'
    rw [← hhandle] at hr'
    rw [← hhandle]
    exact h r' hr' (hctx'.trans hctx) (hst'.trans hst)
  · exact HasEnded.kept (by rw [HasEnded, hr', Option.map_some, hst']) (containCtx_onlyEnds u ctx)

/-- An error of a page-table entry halts every context of its ASID. -/
theorem contextEnded_tableEntry {s : State} {asid : Nat} {r0 : Region} (hr0 : r0 ∈ s.regions) (hst0 : r0.status = 0) (hasid : r0.asid.toNat = asid) :
    ContextEnded s (uncorrectable s (.tableEntry asid)) r0.ctx := by
  have hin : r0.ctx ∈ ((s.regions.filter fun r => r.status == 0 && r.asid.toNat == asid).map (·.ctx)).eraseDups :=
    List.mem_eraseDups.2 (List.mem_map_of_mem (List.mem_filter.2 ⟨hr0, by simp [hst0, hasid]⟩))
  exact fun r hr hctx hst => hasEnded_foldl containCtx_onlyEnds hr hst hin
    fun u r' hr' hst' hctx' _ => contain_ends _ hr' hst' (List.mem_singleton.2 (hctx'.trans hctx))

/-! ## A snoop filter entry without dirty copies (R294) -/

/-- Every L1 copy of a line stands under one tag. -/
def OneTag (s : State) (asid line : Nat) : Prop := ∀ k y, y ∈ (s.getCore k).l1 → y.line = line → y.asid = asid

section
variable {s : State} {c : CoreId} {asid line : Nat}

theorem getCore_dropLine (s : State) (c : CoreId) (asid line : Nat) (k : CoreId) :
    ∀ y, y ∈ ((dropLine s c asid line).getCore k).l1 → y ∈ (s.getCore k).l1 := by
  intro y hy
  unfold dropLine at hy
  split at hy
  · exact hy
  · rename_i ln _
    let f (x : Core) : Core := { x with l1 := x.l1.filter fun y => !(y.asid == ln.asid && y.line == line) }
    change y ∈ ((s.modCore c f).getCore k).l1 at hy
    by_cases hk : k = c
    · rw [hk, getCore_modCore_self s c f (getCore_id s c)] at hy
      rw [hk]
      exact List.mem_of_mem_filter hy
    · rwa [State.modCore, getCore_setCore_ne s _ (by show k ≠ (s.getCore c).id; rwa [getCore_id])] at hy

theorem absent_dropLine (h : OneTag s asid line) : ∀ y, y ∈ ((dropLine s c asid line).getCore c).l1 → ¬(y.asid = asid ∧ y.line = line) := by
  rintro y hy ⟨hyasid, hyline⟩
  unfold dropLine at hy
  split at hy
  · rename_i hnone
    have hsees := List.find?_eq_none.1 hnone y hy
    simp [tagSees, hyasid, hyline] at hsees
  · rename_i ln hln
    let f (x : Core) : Core := { x with l1 := x.l1.filter fun y => !(y.asid == ln.asid && y.line == line) }
    change y ∈ ((s.modCore c f).getCore c).l1 at hy
    rw [getCore_modCore_self s c f (getCore_id s c)] at hy
    have hlnline : ln.line = line := by
      have hfound := List.find?_some hln
      simp only [Bool.and_eq_true, beq_iff_eq] at hfound
      exact hfound.2
    have htag : ln.asid = asid := h c ln (List.mem_of_find?_eq_some hln) hlnline
    have hkept := (List.mem_filter.1 hy).2
    simp [htag, hyasid, hyline] at hkept

theorem oneTag_dropLine (h : OneTag s asid line) : OneTag (dropLine s c asid line) asid line :=
  fun k y hy => h k y (getCore_dropLine s c asid line k y hy)

end

/-- A line made absent in some cores of a cluster. -/
def lineDropped (c : CluId) (asid line : Nat) (ks : List Nat) (s : State) : State :=
  ks.foldl (fun acc k => dropLine acc ⟨c.die, c.clu, k⟩ asid line) s

theorem mem_dropLine (s : State) (c : CoreId) (asid line : Nat) : (dropLine s c asid line).mem = s.mem :=
  (congrArg (·.1.mem) (uncached_dropLine s c asid line) :)

theorem mem_lineDropped (c : CluId) (asid line : Nat) (ks : List Nat) (s : State) : (lineDropped c asid line ks s).mem = s.mem :=
  foldl_keeps (F := State.mem) (fun t k => mem_dropLine t ⟨c.die, c.clu, k⟩ asid line) ks s

theorem absent_lineDropped {c : CluId} {asid line : Nat} {ks : List Nat} {s : State} {m : CoreId} (h : OneTag s asid line)
    (hm : (∃ k, k ∈ ks ∧ ⟨c.die, c.clu, k⟩ = m) ∨ ∀ y, y ∈ (s.getCore m).l1 → ¬(y.asid = asid ∧ y.line = line)) :
    ∀ y, y ∈ ((lineDropped c asid line ks s).getCore m).l1 → ¬(y.asid = asid ∧ y.line = line) := by
  induction ks generalizing s with
  | nil =>
    obtain ⟨k, hk, -⟩ | hm := hm
    · exact absurd hk List.not_mem_nil
    · exact hm
  | cons k ks ih =>
    refine ih (oneTag_dropLine h) ?_
    obtain ⟨j, hj, rfl⟩ | hm := hm
    · obtain rfl | hj := List.mem_cons.1 hj
      · exact .inr (absent_dropLine h)
      · exact .inl ⟨j, hj, rfl⟩
    · exact .inr fun y hy => hm y (getCore_dropLine s _ asid line _ y hy)

theorem oneTag_of_cores {s : State} {asid line : Nat} (h : ∀ k, k ∈ s.cores → ∀ y, y ∈ k.l1 → y.line = line → y.asid = asid) :
    OneTag s asid line := by
  intro k y hy
  unfold State.getCore at hy
  cases hfind : s.cores.find? fun x => x.id == k with
  | none => rw [hfind] at hy; exact absurd hy List.not_mem_nil
  | some x => rw [hfind] at hy; exact h x (List.mem_of_find?_eq_some hfind) y hy

/-- A filter entry whose line no core of the cluster holds dirty: the copies become absent and nothing is at risk. -/
theorem uncorrectable_filterEntry {s : State} {c : CluId} {asid line : Nat} (h : dirtyIn s (fun k => cluOf k == c) asid line = false) :
    uncorrectable s (.filterEntry c asid line) = lineDropped c asid line (List.range 8) s := by
  show lineDropped c asid line (List.range 8) (dirtyAtRisk s asid (dirtyIn s (fun k => cluOf k == c) asid line)) = _
  rw [h, show dirtyAtRisk s asid false = s from rfl]

/-! ## The events together -/

theorem coresFail : Clause.CoresFail := by
  refine ⟨fun s c phys k hk hserves hfirst hphys hgangs hclean readable => ?idle, fun s c readable hnot => ?spare,
    fun s c phys k hk hserves hfirst hgangs => ⟨?saved, ?halted⟩, fun s c phys k hk hserves hfirst => ?dirty, fun s asid => ?table,
    fun s ctx e he => ?data, fun s c asid line hdirty htag => ?filter⟩
  case idle =>
    obtain ⟨hcmap, hmem, hdegraded⟩ := cmap_retireCore (phys := phys) hgangs hclean readable
    refine ⟨_, exec_coreRetire hk hserves hfirst readable, hdegraded, hmem, fun j hj => physOf_sparedMap hcmap hj, ?_, fun j hj => ?_⟩
    · rw [show ((retireCore s ⟨c.die, c.clu, k⟩ phys readable).getCluster c).cmap = _ from hcmap]
      exact spareUsed_sparedMap _ hk hphys
    · rw [show ((retireCore s ⟨c.die, c.clu, k⟩ phys readable).getCluster c).cmap = _ from hcmap]
      exact failed_sparedMap _ hk hj
  case spare =>
    exact ⟨_, exec_coreRetire_spare hnot readable, rfl,
      getCluster_modCluster_self s c (fun y => { y with cmap := y.cmap ||| (1#64 <<< 40) }) (getCluster_id s c)⟩
  case saved =>
    refine ⟨_, exec_coreRetire hk hserves hfirst true, ?_, fun g hg hst => ?_⟩
    · rw [retireCore_busy hgangs]
      exact foldl_keeps (F := State.mem) (fun t (g : Gang) => mem_startPreempt_save t g.id) _ _
    · rw [retireCore_busy hgangs]
      exact saving_foldl (.inr ⟨exists_getGang (mem_gangs_of_gangsOn hg), g, List.mem_filter.2 ⟨hg, beq_iff_eq.2 hst⟩, rfl⟩)
  case halted =>
    exact ⟨_, exec_coreRetire hk hserves hfirst false, fun g r hg hr => contextEnded_retireCore (.inl (mem_ctxsOf hg hr))⟩
  case dirty =>
    exact ⟨_, exec_coreRetire hk hserves hfirst false, fun ctx hctx => contextEnded_retireCore (.inr hctx)⟩
  case table => exact ⟨_, exec_uncorrectableError (by simp) s, fun r hr hst hasid => contextEnded_tableEntry hr hst hasid⟩
  case data =>
    obtain rfl | rfl | ⟨region, line, rfl⟩ := he
    · exact ⟨_, exec_uncorrectableError (by simp) s, contextEnded_containCtx s ctx⟩
    · exact ⟨_, exec_uncorrectableError (by simp) s, contextEnded_containCtx s ctx⟩
    · exact ⟨_, exec_uncorrectableError (by simp) s, contextEnded_of_standing (standing_wortLost s ctx region line) (contextEnded_containCtx _ ctx)⟩
  case filter =>
    exact ⟨_, (exec_uncorrectableError (by simp) s).trans (congrArg _ (uncorrectable_filterEntry hdirty)), mem_lineDropped c asid line _ s,
      fun k y hk => absent_lineDropped (oneTag_of_cores htag) (.inl ⟨k, List.mem_range.2 hk, rfl⟩) y⟩

/-- Settles O44: the registers change one cluster; each phase releases or zeroes exactly the ways that change; a failing way is replaced or its
portion lost; a failed core is saved or contained and then replaced, and a containment ends its contexts for good. -/
theorem caskLayerEvents : Obligations.CaskLayerEvents := ⟨clusterRegisters, wayTransition, waysFail, coresFail⟩

end Sys2Proof.Machine
end
